-- ==== Sys2Proof/Word.lean ====
section
/-! DEFINITION. The word types of the Gheloth: bytes, 32-bit registers, 64-bit values, and the stamp type. -/
namespace Sys2Proof

/-- A byte of client or persistent memory. -/
abbrev Byte := BitVec 8
/-- A 32-bit register value or sequence number (R17). -/
abbrev Word := BitVec 32
/-- A 64-bit value. -/
abbrev DWord := BitVec 64
/-- An order stamp with its reseed generation (R207): the 24-bit epoch in bits [63:40], the 40-bit count in bits [39:0] and
the reseed generation above them, so that stamps compare as the triple; kept as a number because the machine only compares
and counts it. A stamp on the wire carries its low 64 bits; the generation is that of the link key it travels under. -/
abbrev Stamp := Nat

end Sys2Proof
end

