-- ==== Sys2Proof/Types.lean ====
section
/-! DEFINITION. The vocabulary that commands and state share: principals, status codes, descriptors, completion
entries, frames of the data ports, records of the twin link, messages of the witness, and the closed sets of
names the spec gives (connection states, twin states, islands, causes). -/
namespace Sys2Proof

/-- Who makes a register access (R17, R540): a management connection or the board management controller on I3C. -/
inductive Principal where
  | conn (n : Nat)
  | i3c
deriving DecidableEq, Repr

/-- The islands that can be gated (R41). -/
inductive Island where
  | gallery (g : Nat)
  | flashGroup (g : Nat)
  | dramChannel (c : Nat)
deriving DecidableEq, Repr

/-- Connection states (R11, R137). -/
inductive ConnState where
  | idle | armed | active | quiescing | disabled | error
deriving DecidableEq, Repr

/-- Twin states (R11, R204). -/
inductive TwinState where
  | active | standby | unpaired | joining | fenced
deriving DecidableEq, Repr

/-- Durability levels held (R160), in the order of their CFLAGS codes (R129). -/
inductive Level where
  | none | twin | loc | media
deriving DecidableEq, Repr

/-- Status codes (R176). -/
inductive Status where
  | done | doneDuplicate | accessViolation | bounds | translationFault | keyInvalid
  | mediaUncorrectable | poisonedLine | abortedDisabled | abortedFoldReset | abortedRoleChange
  | malformed | unsupported | waitTimeout | budgetExhausted | noSpace
deriving DecidableEq, Repr

/-- Operations of the opcode table of R128; `undef` is every undefined OPCODE. -/
inductive Opcode where
  | read | write | writeZero | copy | cas | fetchAdd | swap | persist | logAppend | snapshot | clone
  | wait | health | nop | regRead | regWrite
  | undef (code : Byte)
deriving DecidableEq, Repr

/-- A descriptor (R127). `b32` is bytes 32 to 47: CKEY, HANDLE2 and OFFSET2, or NEW for the atomic operations;
`b48` is bytes 48 to 63: OPERAND or CMP. -/
structure Desc where
  opcode : Byte
  flags  : Byte
  level  : Byte
  rsv    : Byte
  seq    : Word
  handle : Word
  length : Word
  offset : DWord
  caddr  : DWord
  b32    : BitVec 128
  b48    : BitVec 128
deriving DecidableEq, Repr

/-- A completion entry (R129). PHASE and UNIT are set when the entry is written to its half. -/
structure Entry where
  seq    : Word
  status : Status
  level  : Level
  orig   : Status
  opcode : Byte
  detail : Word
  xfer   : Word
  result : BitVec 128
deriving DecidableEq, Repr

/-- Where a frame came from: source IP address and UDP port (R107, R112). -/
structure Source where
  ip   : BitVec 128
  port : Nat
deriving DecidableEq, Repr

/-- An arriving frame of a checked layering: the port it arrived on (16 is the management port), its source, the 32 bytes of
its Fenhel header (R89), the length of its UDP payload, the ECN CE mark, whether the GCM tag verified and whether the body's
reserved fields and lengths pass (R106). -/
structure Hdr where
  port   : Nat
  src    : Source
  head   : List Byte
  udpLen : Nat
  ce     : Bool
  tagOk  : Bool
  bodyOk : Bool
deriving DecidableEq, Repr

/-- A frame that no accepting connection takes (R106): what stands in it beside the port and the source. -/
structure StrayFrame where
  head   : List Byte
  udpLen : Nat
  ce     : Bool
  tagOk  : Bool
  bodyOk : Bool
deriving DecidableEq, Repr

/-- The frame as it arrived at a port from a source. -/
def StrayFrame.hdr (f : StrayFrame) (port : Nat) (src : Source) : Hdr :=
  { port := port, src := src, head := f.head, udpLen := f.udpLen, ce := f.ce, tagOk := f.tagOk, bodyOk := f.bodyOk }

/-- The same, of a frame with its header record. -/
def Hdr.stray (h : Hdr) : StrayFrame :=
  { head := h.head, udpLen := h.udpLen, ce := h.ce, tagOk := h.tagOk, bodyOk := h.bodyOk }

/-- A frame that the landing inspects before the Fenhel connection rules (R106): each field is one finding, but for the 32
bytes that stand where a Fenhel header begins. -/
structure RawFrame where
  port     : Nat
  fcsOk    : Bool
  length   : Nat
  vlan     : Option Nat
  macCtl   : Bool
  layerOk  : Bool
  csumZeroOrOk : Bool
  head     : List Byte
  udpLen   : Nat
deriving DecidableEq, Repr

/-- The body of a CONNECT_REQ (R112). `oldWord` is bytes 24 to 27, `rsvA` bytes 14 to 15, `rsvB` bytes 44 to 47, `pub`
CLIENT_PUB and `mac` REQ_MAC. -/
structure ConnectReq where
  credId    : Nat
  curve     : Byte
  npath     : Nat
  sqLog     : Nat
  cqLog     : Nat
  clientPort : Nat
  clientUdp : Nat
  cflags    : Byte
  level     : Byte
  rsvA      : Nat
  initSeq   : Word
  initPsn   : Word
  oldWord   : Nat
  sqCkey    : Word
  sqAddr    : DWord
  cqCkey    : Word
  rsvB      : Nat
  cqAddr    : DWord
  nonce     : DWord
  pub       : List Byte
  mac       : BitVec 128
deriving DecidableEq, Repr

/-- The indices of a DOORBELL and its inline content (R124). -/
structure Doorbell where
  sqTail  : Word
  ackSeq  : Word
  cqHead0 : Word
  cqHead1 : Word
  inline  : Option Desc
  data    : List Byte
deriving DecidableEq, Repr

/-- The types of the Fenhel frames (R90). -/
inductive FrameType where
  | doorbell | readReq | readRsp | push | ack | probe | pathReset | disconnect
  | connectReq | connectRsp | connectFin | unknownConn
deriving DecidableEq, Repr

/-- The body of a frame that a client sends on a connection (R92, R97, R100, R124, R138). `stranger` stands for a body of a
type that is never looked at, because the frame is dropped before. -/
inductive FrameBody where
  | doorbell (b : Doorbell)
  | readRsp (rid off : Nat) (refused : Bool) (data : List Byte)
  | ack (ackPsn echoTs : Word) (sack : DWord) (ceCnt rxCnt : Nat)
  | probe
  | pathReset (oldPath : Nat) (newE : Word)
  | disconnect (reason : Nat)
  | stranger (ty : FrameType)
deriving DecidableEq, Repr

/-- What the Gheloth sends in a sequenced or unsequenced frame of a connection (R91, R93, R97, R100, R138). A PUSH names
the sequence whose data or entry it carries, none for an event entry; its completion entry comes with its client address,
key and PHASE bit. -/
inductive TxBody where
  | readReq (rid : Nat) (len : Nat) (addr : DWord) (ckey : Word) (seg : Nat)
  | push (seq : Option Word) (addr : DWord) (ckey : Word) (data : List Byte) (ce : Option (DWord × Word × Entry × Bool))
  | pathReset (oldPath : Nat) (newE : Word)
  | disconnect (reason : Nat) (lastSeq : Word)
  | ack (ackPsn : Word) (echoTs : Word) (sack : DWord) (ceCnt rxCnt : Nat)
  | probe
deriving DecidableEq, Repr

/-- RMA commands (R558). -/
inductive RmaOp where
  | format | createFold | destroyFold | createRegion | destroyRegion | setPerm | grant | revoke | commit
deriving DecidableEq, Repr

/-- An RMA command with the arguments it takes from its slot (R557, R558). -/
structure RmaCmd where
  op         : RmaOp
  fold       : Nat
  handle     : Word
  len        : DWord
  keySlot    : Nat
  flags      : Nat
  perm       : Nat
  peer       : Nat
  peerHandle : Word
  rta        : Nat
deriving DecidableEq, Repr

/-- Results of an RMA command (R559). -/
inductive RmaResult where
  | done | busy | limit | noSpace | badParam | badState
deriving DecidableEq, Repr

/-- A credential (R110). The admission key is a value no register, frame or event returns. -/
structure Cred where
  fold : Nat
  mgmt : Bool
  key  : BitVec 256
deriving DecidableEq, Repr

/-- An accepted CONNECT_RSP (R114): its 32 header bytes and the fields of its body. -/
structure ConnectRsp where
  head     : List Byte
  npath    : Nat
  udpBase  : Nat
  initPsn  : Word
  nonceC   : DWord
  nonceG   : DWord
  twin     : Option Nat
  pub      : List Byte
  paths    : List (BitVec 128)
  confirm  : BitVec 128
deriving DecidableEq, Repr

/-- A set-up connection as both units hold it (R112 to R118): its credential, rings, keys and starting numbers, the CONNECT_RSP
that a repeated CONNECT_REQ gets again, the CONFIRM_C that the CONNECT_FIN must bear, and the pages of 2 KiB that its result
store takes in the control area (R133), as runs of first page and count. -/
structure ConnIdent where
  cred       : Nat
  fold       : Nat
  mgmt       : Bool
  level      : Level
  twinRead   : Bool
  npath      : Nat
  sqLog      : Nat
  cqLog      : Nat
  sqAddr     : DWord
  sqCkey     : Word
  cqAddr     : DWord
  cqCkey     : Word
  clientIp   : BitVec 128
  clientPort : Nat
  clientUdp  : Nat
  key        : BitVec 256
  nonceC     : DWord
  nonceG     : DWord
  initSeq    : Word
  initPsnC   : Word
  initPsnG   : Word
  rsp        : ConnectRsp
  confirmC   : BitVec 128
  store      : List (Nat × Nat)
deriving DecidableEq, Repr

/-- Commands of RMA_CONN_CMD (R143). -/
inductive ConnCmd where
  | disableDrain | disableAbort | release | query
deriving DecidableEq, Repr

/-- A connection state change that both units apply (R215, R222). -/
inductive ConnChange where
  | activate
  | quiesce (abort : Bool) (reason : Nat) (cause : Status)
  | disable
  | fail (reason : Nat)
  | free
  | rearm (ident : ConnIdent)
  | rearmFailed
deriving DecidableEq, Repr

/-- The staged changes of a commit of the shadow bank, or of one shared register (R175, R532). -/
abbrev RegWrites := List (Nat × Word)

/-- Key slot commands (R422). -/
inductive KeyCmd where
  | generate | load | unload | destroy | query
deriving DecidableEq, Repr

/-- The body of a CTRL record (R215): an RMA command, a credential command, shared-configuration writes, a connection
creation or change, and the other actions that R579 sends through the order stream. -/
inductive CtrlBody where
  | rma (cmd : RmaCmd)
  | rmaDrained (fold : Nat)
  | enrol (id : Nat) (cred : Cred)
  | credRevoke (id : Nat)
  | config (writes : RegWrites)
  | connNew (conn : Nat) (ident : ConnIdent)
  | connChange (conn : Nat) (change : ConnChange)
  | keySlot (cmd : KeyCmd) (slot : Nat) (key : BitVec 512)
  | ringBind (fold conn : Nat) (addr : DWord) (ckey : Word) (rlog : Nat)
  | ringUnbind (fold : Nat)
  | foldRl (value : Word)
  | foldReset (fold : Nat)
  | window (isOpen : Bool) (hours : Nat)
deriving DecidableEq, Repr

/-- What a connection record of the control area carries (R133): the persistent part of a context, with the entries written to
each half and consumed from it (R121, R122), how a quiesce that runs ends (R137, R141), and the lines that PERSIST still covers
(R163). -/
structure ConnImage where
  ident    : ConnIdent
  state    : ConnState
  abort    : Bool
  cause    : Status
  reason   : Nat
  byClient : Bool
  resuming : Bool
  sqTail   : Word
  ackSeq   : Word
  x        : Word
  executed : List Word
  count    : Nat
  txcHigh  : Nat
  changed  : List (Nat × Stamp)
  written0 : Word
  written1 : Word
  cqHead0  : Word
  cqHead1  : Word
deriving DecidableEq, Repr

/-- A member of a family of regions that share leaves (R197, R307): every leaf has the version of its contents that
the member holds; two members share a leaf when they hold the same version. `depth` counts the regions above it. -/
structure FamMember where
  base  : Nat
  depth : Nat
  dflt  : Nat
  own   : List (Nat × Nat)
deriving DecidableEq, Repr

/-- What a leaf of the control area holds, by the parts of the table of R133. The spec gives the parts and not their
bytes, so a LEAF record of that area carries them as items. `results` is one page of 2 KiB of a connection's result store; `staged`
is what a fold's COMMIT will publish, and `drains` what the past generations of a fold keep (R75, R76). -/
inductive ControlItem where
  | cred (id : Nat) (cred : Option Cred)
  | conn (conn : Nat) (image : Option ConnImage)
  | results (conn page : Nat) (entries : List (Word × Entry))
  | slotKey (slot : Nat) (key : Option (BitVec 512 × Bool))
  | logTail (base tail : Nat)
  | reg (addr : Nat) (value : Word)
  | cfgGen (gen : Word) (digests : List (Word × BitVec 384))
  | dk (key : BitVec 256)
  | foldRl (value : Word)
  | binding (fold : Nat) (ring : Option (Nat × DWord × Word × Nat))
  | family (len : Nat) (members : List FamMember)
  | staged (fold : Nat) (changes : List (Nat × Word × List Byte))
  | drains (fold : Nat) (gens : List (Word × List (Nat × Nat) × List (Nat × Nat)))
deriving DecidableEq, Repr

/-- A member of a GROUP record (R215). -/
structure Member where
  desc  : Desc
  tgen  : Word
  tgen2 : Word
  data  : List Byte
deriving DecidableEq, Repr

/-- The records of the twin link (R214, R215). -/
inductive Rec where
  | op (stamp : Stamp) (conn : Nat) (gen : Word) (m : Member)
  | group (stamp : Stamp) (conn : Nat) (gen : Word) (ms : List Member)
  | ctrl (stamp : Stamp) (body : CtrlBody)
  | ended (stamp : Stamp) (conn : Nat) (entry : Entry)
  | index (conn : Nat) (sqTail ackSeq cqHead0 cqHead1 : Word)
  | rdata (conn : Nat) (seq : Word) (offset : Nat) (addr : DWord) (ckey : Word) (data : List Byte)
  | level (stamps : List Stamp)
  | leaf (pa : Nat) (poison : BitVec 64) (bytes : List Byte) (entries : List (Nat × Entry))
      (control : List ControlItem)
  | handover (planned : Bool)
  | resyncSet (first : Nat) (leaves : List Nat) (full : Bool) (last : Bool)
  | regReq (addr : Nat) (write : Bool) (value : Word)
  | regRsp (addr : Nat) (status : Status) (detail : Word) (value : Word)
  | fin (stamp : Stamp)
  | repair (stamp : Stamp) (pa : Nat)
  | ready
  | leave (reason : Nat)
  | ports (addrs : List (BitVec 128))
deriving DecidableEq, Repr

/-- A record, or a fragment of it, as a frame of the twin link carries it (R214): the record whole, the STAMP of its header (that
of the record, or for an unstamped one of the serving unit the last stamp issued before it, R215), and the part of its body
that lies in the frame. RLEN is `len`; MORE is set while the part does not reach the body's end. -/
structure Frag where
  rcd   : Rec
  stamp : Stamp
  off   : Nat
  len   : Nat
deriving DecidableEq, Repr

/-- The header of an arriving twin frame (R212) and what the link found of it: its tag, and whether VER, LEN and the
reserved bytes pass (R219). -/
structure TwlHdr where
  lsn   : Nat
  lack  : Nat
  peer  : Stamp
  tagOk : Bool
  hdrOk : Bool
  ftypeOk : Bool
deriving DecidableEq, Repr

/-- A HELLO (R243): whether VER, LEN and the reserved bytes of its frame's header pass (R219), its MAC, and bits [7:4] of FLAGS
beside the fields of its body. -/
structure Hello where
  hdrOk       : Bool
  mac         : BitVec 128
  rsv         : Nat
  pairId      : DWord
  unit        : Bool
  serving     : Bool
  timeValid   : Bool
  windowOpen  : Bool
  streamLevel : Nat
  reseed      : Nat
  node        : Nat
  fwVer       : Word
  cfgGen      : Word
  lastStamp   : Stamp
  time        : Nat
  nonce       : DWord
  digest      : BitVec 384
deriving DecidableEq, Repr

/-- Requests to the witness (R229). -/
inductive WitReq where
  | claim | renew | drop | admitTwin | release
deriving DecidableEq, Repr

/-- An answer of the witness (R229). `macOk` is whether its MAC verifies, `ok` whether VER, MTYPE and the reserved bits and bytes
pass (R219). -/
structure WitAns where
  ok      : Bool
  macOk   : Bool
  unit    : Bool
  members : Nat
  pairId  : DWord
  wseq    : Nat
  leaseUs : Nat
  rseed   : Nat
  holder  : Nat
  reason  : Nat
  epoch   : Nat
deriving DecidableEq, Repr

/-- An IEEE 1588 message to the slave clock on the management port (R243): a Sync of a one-step master with its origin time or of
a two-step master without one, the Follow_Up, the Delay_Resp with the time at which the master received the Delay_Req, and the
loss of the master. Times in ns. -/
inductive PtpMsg where
  | sync (origin : Option Nat)
  | followUp (origin : Nat)
  | delayResp (received : Nat)
  | lost
deriving DecidableEq, Repr

/-- Pair identity (R205). -/
structure PairIdent where
  pairId  : DWord
  unit    : Bool
  node    : Nat
  twin    : Nat
  secret  : BitVec 256
  wkey    : BitVec 256
  waddr   : BitVec 128
deriving DecidableEq, Repr

/-- A register access as REG_READ and REG_WRITE make it (R175, R541): an access that reaches the register block from a
principal, or the register operation that a management connection fetched under a sequence. -/
inductive Access where
  | direct (who : Principal) (addr : Nat) (value : Word)
  | op (conn : Nat) (seq : Word)
deriving DecidableEq, Repr

/-- What a DRAM read's symbol code decoded as (R348). -/
inductive DramFind where
  | ok | corrected (dev : Nat) | uncorrectable | poison
deriving DecidableEq, Repr

/-- What a SEC-DED read decoded as (R375). `oneCopy` is a tag or state word of which one copy alone decodes (R377). -/
inductive WordFind where
  | ok | corrected | uncorrectable | oneCopy
deriving DecidableEq, Repr

/-- What a READ finds wrong with a line: its leaf could not be read from flash (R167), or its check failed on the way out of the
hall to a frame (R291): as it left the array of its home slice, once in the sealing lane, or again after the one refetch. -/
inductive CheckFind where
  | flash | slice | lane | laneTwice
deriving DecidableEq, Repr

/-- On-chip arrays by kind (R383). -/
inductive ArrayKind where
  | slice | victim | landing | pen | context | handle | drover | shepherd | sliceTags | penTags
deriving DecidableEq, Repr

/-- Answers of a pen to SNP_INV (R366). -/
inductive SnpAnswer where
  | notHeld | data | evicting
deriving DecidableEq, Repr

/-- The NAND part that every target carries, from its parameter page (R300, R301); `wlPages` pages share a word line (R311). -/
structure Part where
  planes   : Nat
  blocks   : Nat
  pages    : Nat
  wlPages  : Nat
  suspend  : Bool
  progMaxNs : Nat
  rated    : Nat
deriving DecidableEq, Repr

/-- What the board presents at a cold start: the DIMM population and its training (R334, R336), the flash population
(R301), the fuse map (R380, R381) and the entropy source (R403). -/
structure BootEnv where
  dimmOk    : Bool
  badChans  : List Nat
  trainFail : List (Nat × Nat)
  mrdimm    : Bool
  dimmGiB   : Nat
  rate      : Nat
  trained   : List Nat
  pop       : Word
  flashOk   : Bool
  groups    : Nat
  targets   : Nat
  part      : Part
  badBlocks : List (Nat × Nat × Nat × Nat)
  fuseOk    : Bool
  repair    : List (Nat × Nat × Nat)
  entropyOk : Bool
  drvHashOk : Bool
deriving DecidableEq, Repr

/-- What a calibration measured (R490, R491): the trims; none for one that would reach the end of its range. -/
structure CalTrims where
  railTrim : List (Option Int × Option Int)
  holdGain : Option Int
  holdOfs  : Option Int
  shunt0   : Option Int
  shunt1   : Option Int
  drive    : List (Option Nat)
deriving DecidableEq, Repr

end Sys2Proof
end

