-- ==== Sys2Proof/Syntax.lean ====
section
/-! DEFINITION. The commands the Gheloth takes from outside, one constructor per row of spec/opcode_table.json. Each
constructor's docstring names the row's mnemonic and the rule that governs it. -/
namespace Sys2Proof

inductive Instr where
  /-- REG_WRITE (R175). -/
  | regWrite (a : Access)
  /-- REG_READ (R175). -/
  | regRead (a : Access)
  /-- RC_REGISTER_READ (R22). -/
  | rcRegisterRead (p : Principal) (addr : Nat)
  /-- LO_REGISTER_READ (R542). -/
  | loRegisterRead (p : Principal) (addr : Nat)
  /-- I3C_WRITE_ADDRESS (R548). -/
  | i3cWriteAddress (addr : Nat)
  /-- I3C_WRITE_VALUE (R548). -/
  | i3cWriteValue (addr : Nat) (value : Word)
  /-- I3C_READ (R548). -/
  | i3cRead
  /-- I3C_SETDASA (R547). -/
  | i3cSetdasa (static : BitVec 7) (dyn : BitVec 7)
  /-- I3C_ENTDAA (R547). -/
  | i3cEntdaa (dyn : BitVec 7)
  /-- I3C_RSTDAA (R547). -/
  | i3cRstdaa
  /-- I3C_GETPID (R547). -/
  | i3cGetpid
  /-- I3C_GETBCR (R547). -/
  | i3cGetbcr
  /-- I3C_GETDCR (R547). -/
  | i3cGetdcr
  /-- I3C_GETSTATUS (R547). -/
  | i3cGetstatus
  /-- I3C_GETMRL (R547). -/
  | i3cGetmrl
  /-- I3C_GETMWL (R547). -/
  | i3cGetmwl
  /-- GLB_ETH_MODE_WRITE (R81). -/
  | glbEthModeWrite (p : Principal) (value : Word)
  /-- ISLAND_GATE (R41). -/
  | islandGate (island : Island)
  /-- ISLAND_WAKE (R41). -/
  | islandWake (island : Island)
  /-- CONTEXT_FILL_COMPLETE (R35). -/
  | contextFillComplete (conn : Nat)
  /-- BUDGET_UPDATE (R253). -/
  | budgetUpdate
  /-- BUDGET_WATCHDOG_EXPIRY (R38). -/
  | budgetWatchdogExpiry
  /-- FORMAT (R74). -/
  | format (p : Principal) (slot : Nat)
  /-- CREATE_FOLD (R73). -/
  | createFold (p : Principal) (slot : Nat) (fold : Nat)
  /-- DESTROY_FOLD (R580). -/
  | destroyFold (p : Principal) (slot : Nat) (fold : Nat)
  /-- DESTROY_FOLD_DRAIN_DONE (R580). -/
  | destroyFoldDrainDone (fold : Nat)
  /-- CREATE_REGION (R73). -/
  | createRegion (p : Principal) (slot : Nat) (fold : Nat)
  /-- DESTROY_REGION (R73). -/
  | destroyRegion (p : Principal) (slot : Nat) (fold : Nat)
  /-- SET_PERM (R73). -/
  | setPerm (p : Principal) (slot : Nat) (fold : Nat)
  /-- GRANT (R73). -/
  | grant (p : Principal) (slot : Nat) (fold : Nat)
  /-- REVOKE (R73). -/
  | revoke (p : Principal) (slot : Nat) (fold : Nat)
  /-- COMMIT (R75). -/
  | commit (p : Principal) (slot : Nat) (fold : Nat)
  /-- COMMIT_DRAIN_DONE (R75). -/
  | commitDrainDone (fold : Nat)
  /-- GENERATION_DRAINED (R76). -/
  | generationDrained (fold : Nat)
  /-- RMA_STATUS_READ (R73). -/
  | rmaStatusRead (p : Principal) (slot : Nat)
  /-- RMA_SLOT_LAPSE (R73). -/
  | rmaSlotLapse (slot : Nat)
  /-- NON_FENHEL_FRAME (R106). -/
  | nonFenhelFrame (frame : RawFrame)
  /-- STRANGER_FRAME (R106). -/
  | strangerFrame (port : Nat) (src : Source) (frame : StrayFrame)
  /-- UCR_TOKEN_REFILL (R107). -/
  | ucrTokenRefill (port : Nat)
  /-- ARP_REQUEST (R84). -/
  | arpRequest (port : Nat) (target : BitVec 32) (mac : BitVec 48)
  /-- NEIGHBOR_SOLICITATION (R84). -/
  | neighborSolicitation (port : Nat) (target : BitVec 128) (mac : BitVec 48)
  /-- ARP_REPLY (R84). -/
  | arpReply (port : Nat) (ip : BitVec 32) (mac : BitVec 48)
  /-- NEIGHBOR_ADVERTISEMENT (R84). -/
  | neighborAdvertisement (port : Nat) (ip : BitVec 128) (mac : BitVec 48)
  /-- PORT_LINK_DOWN (R100). -/
  | portLinkDown (port : Nat)
  /-- PORT_LINK_UP (R84). -/
  | portLinkUp (port : Nat)
  /-- DOORBELL (R125). -/
  | doorbell (h : Hdr) (d : Doorbell)
  /-- READ_RSP (R92). -/
  | readRsp (h : Hdr) (rid : Nat) (offset : Nat) (refused : Bool) (data : List Byte)
  /-- ACK (R97). -/
  | ack (h : Hdr) (ackPsn : Word) (echoTs : Word) (sack : DWord) (ceCnt : Nat) (rxCnt : Nat)
  /-- PROBE (R99). -/
  | probe (h : Hdr)
  /-- PATH_RESET (R100). -/
  | pathReset (h : Hdr) (oldPath : Nat) (newE : Word)
  /-- DISCONNECT (R137). -/
  | disconnect (h : Hdr) (reason : Nat)
  /-- CONNECT_REQ (R113). -/
  | connectReq (h : Hdr) (pubOk : Bool) (r : ConnectReq)
  /-- CONNECT_FIN (R116). -/
  | connectFin (h : Hdr) (confirmC : BitVec 128) (nonceG : DWord)
  /-- PTP_MESSAGE (R243). -/
  | ptpMessage (msg : PtpMsg) (corr : Nat)
  /-- ACK_DELAY_EXPIRY (R99). -/
  | ackDelayExpiry (conn : Nat) (path : Nat)
  /-- RTO_EXPIRY (R99). -/
  | rtoExpiry (conn : Nat) (path : Nat)
  /-- PROBE_INTERVAL (R100). -/
  | probeInterval (conn : Nat) (path : Nat)
  /-- CONNECTION_DEAD (R101). -/
  | connectionDead (conn : Nat)
  /-- PULL_TIMEOUT (R103). -/
  | pullTimeout (conn : Nat) (rid : Nat)
  /-- RATE_PERIOD_END (R104). -/
  | ratePeriodEnd (conn : Nat) (path : Nat) (pull : Bool)
  /-- READ_REQ_SEND (R103). -/
  | readReqSend (conn : Nat) (rid : Nat) (path : Nat) (len : Nat)
  /-- SEQUENCED_FRAME_SEND (R102). -/
  | sequencedFrameSend (conn : Nat) (path : Nat)
  /-- SETUP_TIMEOUT (R137). -/
  | setupTimeout (conn : Nat)
  /-- ERROR_HOLD_EXPIRY (R137). -/
  | errorHoldExpiry (conn : Nat)
  /-- DESCRIPTOR_FETCH (R130). -/
  | descriptorFetch (gallery : Nat)
  /-- DESCRIPTOR_START (R145). -/
  | descriptorStart (conn : Nat) (seq : Word)
  /-- ORDER_WAIT_RELEASE (R153). -/
  | orderWaitRelease (conn : Nat) (seq : Word)
  /-- FENCE_RELEASE (R154). -/
  | fenceRelease (conn : Nat) (seq : Word)
  /-- DATA_PULL_COMPLETE (R166). -/
  | dataPullComplete (conn : Nat) (seq : Word) (badLine : Option Nat)
  /-- LINE_FILL_COMPLETE (R167). -/
  | lineFillComplete (conn : Nat) (seq : Word) (bad : List Nat)
  /-- BUDGET_ADMISSION (R261). -/
  | budgetAdmission
  /-- ADMIT_WAIT_EXPIRY (R262). -/
  | admitWaitExpiry (conn : Nat) (seq : Word)
  /-- ORDER_STAMP (R156). -/
  | orderStamp (conn : Nat) (seq : Word) (bad : Option Nat)
  /-- GROUP_ASSEMBLY_TIMEOUT (R180). -/
  | groupAssemblyTimeout (conn : Nat) (first : Word)
  /-- COMPLETION_LEVEL_REACHED (R160). -/
  | completionLevelReached (conn : Nat) (seq : Word)
  /-- READ (R165). -/
  | read (conn : Nat) (seq : Word) (finds : List (Nat × CheckFind))
  /-- WRITE (R166). -/
  | write (conn : Nat) (seq : Word)
  /-- WRITE_ZERO (R165). -/
  | writeZero (conn : Nat) (seq : Word)
  /-- COPY (R165). -/
  | copy (conn : Nat) (seq : Word)
  /-- CAS (R169). -/
  | cas (conn : Nat) (seq : Word)
  /-- FETCH_ADD (R169). -/
  | fetchAdd (conn : Nat) (seq : Word)
  /-- SWAP (R169). -/
  | swap (conn : Nat) (seq : Word)
  /-- PERSIST (R163). -/
  | persist (conn : Nat) (seq : Word)
  /-- LOG_APPEND (R190). -/
  | logAppend (conn : Nat) (seq : Word)
  /-- SNAPSHOT (R196). -/
  | snapshot (conn : Nat) (seq : Word)
  /-- CLONE (R196). -/
  | clone (conn : Nat) (seq : Word)
  /-- WAIT (R172). -/
  | wait (conn : Nat) (seq : Word)
  /-- WAIT_TIMEOUT_EXPIRY (R172). -/
  | waitTimeoutExpiry (conn : Nat) (seq : Word)
  /-- HEALTH (R174). -/
  | health (conn : Nat) (seq : Word)
  /-- NOP (R174). -/
  | nop (conn : Nat) (seq : Word)
  /-- COW_LEAF_COPY (R197). -/
  | cowLeafCopy (conn : Nat) (seq : Word) (leaf : Nat)
  /-- DATAPATH_CHUNK (R200). -/
  | datapathChunk (gallery : Nat)
  /-- DISABLE_DRAIN (R141). -/
  | disableDrain (p : Principal) (conn : Nat)
  /-- DISABLE_ABORT (R141). -/
  | disableAbort (p : Principal) (conn : Nat)
  /-- CONN_RELEASE (R137). -/
  | connRelease (p : Principal) (conn : Nat)
  /-- CONN_QUERY (R143). -/
  | connQuery (p : Principal) (conn : Nat)
  /-- QUIESCE_COMPLETE (R137). -/
  | quiesceComplete (conn : Nat)
  /-- ENROL (R110). -/
  | enrol (p : Principal) (id : Nat) (mgmt : Bool) (foldLo : Nat)
  /-- CRED_REVOKE (R111). -/
  | credRevoke (p : Principal) (id : Nat)
  /-- TWL_RECORDS_FRAME (R213). -/
  | twlRecordsFrame (h : TwlHdr) (recs : List Frag) (malformed : Bool)
  /-- LINK_ACK (R212). -/
  | linkAck (h : TwlHdr)
  /-- HELLO (R244). -/
  | hello (msg : Hello)
  /-- TWL_RETRANSMIT_TIMEOUT (R213). -/
  | twlRetransmitTimeout
  /-- TWL_IDLE_SEND (R213). -/
  | twlIdleSend
  /-- TWL_RX_SILENCE (R213). -/
  | twlRxSilence
  /-- TWL_BLOCK_LOCK_LOSS (R213). -/
  | twlBlockLockLoss
  /-- TWL_LINK_UP (R213). -/
  | twlLinkUp (rtt : Nat)
  /-- OP (R217). -/
  | opRec (stamp : Stamp) (conn : Nat) (gen : Word) (m : Member)
  /-- GROUP (R185). -/
  | groupRec (stamp : Stamp) (conn : Nat) (gen : Word) (ms : List Member)
  /-- CTRL (R215). -/
  | ctrlRec (stamp : Stamp) (body : CtrlBody)
  /-- END (R224). -/
  | endRec (stamp : Stamp) (conn : Nat) (entry : Entry)
  /-- INDEX (R222). -/
  | indexRec (conn : Nat) (sqTail : Word) (ackSeq : Word) (cqHead0 : Word) (cqHead1 : Word)
  /-- RDATA (R226). -/
  | rdataRec (conn : Nat) (seq : Word) (offset : Nat) (addr : DWord) (ckey : Word) (data : List Byte)
  /-- LEVEL (R225). -/
  | levelRec (stamps : List Stamp)
  /-- LEAF (R220). -/
  | leafRec (pa : Nat) (poison : BitVec 64) (bytes : List Byte) (entries : List (Nat × Entry)) (control : List ControlItem)
  /-- HANDOVER (R233). -/
  | handover
  /-- RESYNC_SET (R242). -/
  | resyncSet (first : Nat) (leaves : List Nat) (full : Bool) (last : Bool)
  /-- REG_REQ (R228). -/
  | regReq (addr : Nat) (isWrite : Bool) (value : Word)
  /-- REG_RSP (R228). -/
  | regRsp (addr : Nat) (status : Status) (detail : Word) (value : Word)
  /-- FIN (R217). -/
  | fin (stamp : Stamp)
  /-- REPAIR (R220). -/
  | repair (stamp : Stamp) (pa : Nat)
  /-- READY (R242). -/
  | ready
  /-- LEAVE (R218). -/
  | leave (reason : Nat)
  /-- PORTS (R114). -/
  | ports (addrs : List (BitVec 128))
  /-- REPAIR_TIMEOUT (R220). -/
  | repairTimeout (pa : Nat)
  /-- STANDBY_BUDGET_WAIT (R264). -/
  | standbyBudgetWait
  /-- RESYNC_LEAF_SEND (R242). -/
  | resyncLeafSend
  /-- RENEW_INTERVAL (R231). -/
  | renewInterval
  /-- CLAIM_INTERVAL (R233). -/
  | claimInterval
  /-- WITNESS_GRANT (R236). -/
  | witnessGrant (ans : WitAns)
  /-- WITNESS_DENY (R233). -/
  | witnessDeny (ans : WitAns)
  /-- WITNESS_DONE (R233). -/
  | witnessDone (ans : WitAns)
  /-- WITNESS_ANSWER_LATE (R231). -/
  | witnessAnswerLate
  /-- LEASE_END (R232). -/
  | leaseEnd
  /-- LINK_WAIT_EXPIRY (R233). -/
  | linkWaitExpiry
  /-- SOLO_WAIT_EXPIRY (R240). -/
  | soloWaitExpiry
  /-- HEARTBEAT_SEND (R235). -/
  | heartbeatSend
  /-- HEARTBEAT (R235). -/
  | heartbeat (link : Bool) (macOk : Bool) (rsvOk : Bool)
  /-- HELLO_INTERVAL (R243). -/
  | helloInterval
  /-- SWAP_DRAIN_DONE (R239). -/
  | swapDrainDone
  /-- HANDOVER_CLAIM_TIMEOUT (R239). -/
  | handoverClaimTimeout
  /-- RESEED (R210). -/
  | reseed (p : Principal) (confirm : BitVec 16)
  /-- RESEED_DRAIN_DONE (R210). -/
  | reseedDrainDone
  /-- FORCE_UNPAIRED (R245). -/
  | forceUnpaired (p : Principal) (confirm : BitVec 16)
  /-- CLEAR_OVERRIDE (R245). -/
  | clearOverride (p : Principal)
  /-- TEST_ON (R235). -/
  | testOn (p : Principal)
  /-- TEST_OFF (R235). -/
  | testOff (p : Principal)
  /-- OPEN_WINDOW (R463). -/
  | openWindow (p : Principal)
  /-- CLOSE_WINDOW (R463). -/
  | closeWindow (p : Principal)
  /-- WINDOW_EXPIRY (R463). -/
  | windowExpiry
  /-- PROVISION (R562). -/
  | provision (p : Principal)
  /-- HOLD_V_SAMPLE (R256). -/
  | holdVSample (raw : BitVec 16)
  /-- SHUNT_SAMPLE (R485). -/
  | shuntSample (raw : BitVec 16)
  /-- ACCUMULATOR_ANCHOR (R485). -/
  | accumulatorAnchor
  /-- MISMATCH_WINDOW_END (R258). -/
  | mismatchWindowEnd
  /-- DISCHARGE_TEST (R260). -/
  | dischargeTest (p : Principal)
  /-- DISCHARGE_TEST_START (R260). -/
  | dischargeTestStart
  /-- DISCHARGE_TEST_FLOOR (R260). -/
  | dischargeTestFloor
  /-- DISCHARGE_TEST_TIMEOUT (R260). -/
  | dischargeTestTimeout
  /-- ACCEPT_LOSS (R275). -/
  | acceptLoss (p : Principal) (confirm : BitVec 16)
  /-- DIRTY_OVER_BUDGET (R263). -/
  | dirtyOverBudget
  /-- MAIN_OK_FALL (R266). -/
  | mainOkFall
  /-- MAIN_OK_RISE (R482). -/
  | mainOkRise
  /-- SAVE_STAMPED_WORK_DONE (R266). -/
  | saveStampedWorkDone
  /-- SAVE_LINK_DRAIN_END (R266). -/
  | saveLinkDrainEnd
  /-- SAVE_IMAGE_PROGRAM (R268). -/
  | saveImageProgram
  /-- SAVE_IMAGE_DONE (R266). -/
  | saveImageDone (watts : Nat) (ms : Nat)
  /-- HOLD_UP_LIMIT (R486). -/
  | holdUpLimit
  /-- SAVE_RESUME (R271). -/
  | saveResume
  /-- IMAGE_RELEASE (R274). -/
  | imageRelease (slot : Nat)
  /-- FTL_DRAIN (R312). -/
  | ftlDrain (pos : Nat)
  /-- FLASH_PROGRAM_COMPLETE (R311). -/
  | flashProgramComplete (pos : Nat) (ns : Nat)
  /-- FLASH_PROGRAM_FAIL (R319). -/
  | flashProgramFail (pos : Nat) (chan : Nat) (plane : Nat)
  /-- FLASH_ERASE_COMPLETE (R315). -/
  | flashEraseComplete (sb : Nat)
  /-- FLASH_ERASE_FAIL (R319). -/
  | flashEraseFail (sb : Nat) (chan : Nat) (plane : Nat)
  /-- FLASH_READ_COMPLETE (R317). -/
  | flashReadComplete (loc : Nat) (step : Nat) (corrected : Nat)
  /-- FLASH_SUSPEND (R318). -/
  | flashSuspend (flashChan : Nat) (target : Nat) (erase : Bool)
  /-- DIE_OFFLINE (R319). -/
  | dieOffline (flashChan : Nat) (target : Nat)
  /-- GARBAGE_COLLECT (R316). -/
  | garbageCollect (pos : Nat)
  /-- CHECKPOINT_START (R320). -/
  | checkpointStart
  /-- CHECKPOINT_COMPLETE (R320). -/
  | checkpointComplete
  /-- CHECKPOINT_LATE (R320). -/
  | checkpointLate
  /-- PATROL_READ (R325). -/
  | patrolRead (step : Nat) (corrected : Nat)
  /-- PATROL_PERIOD_END (R325). -/
  | patrolPeriodEnd
  /-- HEALTH_DAILY_SAMPLE (R327). -/
  | healthDailySample (day : Nat)
  /-- DRAM_REQUEST (R338). -/
  | dramRequest (chan : Nat) (sub : Nat) (tag : Nat) (dport : Nat) (isWrite : Bool) (line : Nat) (rank : Nat) (bank : Nat) (row : Nat) (now : Nat) (data : BitVec 512)
  /-- DRAM_COMMAND_ISSUE (R340). -/
  | dramCommandIssue (chan : Nat) (sub : Nat) (now : Nat)
  /-- URGENCY_RAISE (R339). -/
  | urgencyRaise (chan : Nat) (sub : Nat) (now : Nat)
  /-- REFRESH_DUE (R341). -/
  | refreshDue (chan : Nat) (sub : Nat) (rank : Nat)
  /-- ROW_IDLE_PRECHARGE (R335). -/
  | rowIdlePrecharge (chan : Nat) (sub : Nat) (rank : Nat) (bank : Nat)
  /-- DRAM_READ_DATA (R350). -/
  | dramReadData (chan : Nat) (sub : Nat) (tag : Nat) (found : DramFind) (day : Nat)
  /-- DRAM_ALERT (R346). -/
  | dramAlert (chan : Nat) (sub : Nat)
  /-- DRAM_ALERT_RELEASE (R346). -/
  | dramAlertRelease (chan : Nat) (sub : Nat)
  /-- DRAM_TEMP_READ (R352). -/
  | dramTempRead (chan : Nat) (temps : List (Option Nat))
  /-- CE_BUCKET_LEAK (R350). -/
  | ceBucketLeak (chan : Nat)
  /-- DRC_INJ_ARM (R351). -/
  | drcInjArm (p : Principal) (chan : Nat) (value : Word)
  /-- RATE_B_LOAD (R353). -/
  | rateBLoad (p : Principal) (rate : Nat) (timings : List Word)
  /-- GO (R354). -/
  | go (p : Principal)
  /-- RATE_CHANGE_COMPLETE (R354). -/
  | rateChangeComplete (ok : Bool)
  /-- GET_S (R366). -/
  | getS (pen : Nat) (line : Nat)
  /-- GET_M (R366). -/
  | getM (pen : Nat) (line : Nat)
  /-- DATA (R366). -/
  | data (pen : Nat) (line : Nat)
  /-- SNP_INV (R371). -/
  | snpInv (pen : Nat) (line : Nat)
  /-- SNP_ACK (R371). -/
  | snpAck (pen : Nat) (line : Nat) (answer : SnpAnswer) (bytes : BitVec 512)
  /-- EVICT (R371). -/
  | evict (pen : Nat) (line : Nat)
  /-- EVICT_ACK (R367). -/
  | evictAck (pen : Nat) (line : Nat)
  /-- VICTIM_WRITEBACK_ACK (R369). -/
  | victimWritebackAck (slice : Nat) (line : Nat)
  /-- INVALIDATE (R372). -/
  | invalidate (p : Principal)
  /-- FLUSH (R385). -/
  | flush (p : Principal)
  /-- FLUSH_DISABLE (R373). -/
  | flushDisable (p : Principal)
  /-- HAL_CMD_COMPLETE (R385). -/
  | halCmdComplete
  /-- HAL_CTRL_WRITE (R373). -/
  | halCtrlWrite (p : Principal) (value : Word)
  /-- MERGE_ENTRY_RETIRE (R376). -/
  | mergeEntryRetire (kind : ArrayKind) (inst : Nat) (word : Nat) (found : WordFind)
  /-- SCRUB_READ (R379). -/
  | scrubRead (kind : ArrayKind) (inst : Nat) (found : WordFind) (line : Nat)
  /-- ECC_BUCKET_LEAK (R378). -/
  | eccBucketLeak (kind : ArrayKind) (inst : Nat)
  /-- DROVER_RELOAD_COMPLETE (R377). -/
  | droverReloadComplete (drover : Nat)
  /-- SHEPHERD_SRAM_RESTART (R377). -/
  | shepherdSramRestart
  /-- ALARM_CLASS_A (R410). -/
  | alarmClassA (source : Nat)
  /-- ALARM_CLASS_B (R411). -/
  | alarmClassB (source : Nat)
  /-- CLASS_B_ZERO_COMPLETE (R411). -/
  | classBZeroComplete
  /-- CLEAR (R414). -/
  | clear (p : Principal)
  /-- LOWER_CLASS (R409). -/
  | lowerClass (p : Principal) (sources : BitVec 8)
  /-- PROVISION_CLEAR (R415). -/
  | provisionClear (p : Principal)
  /-- SEC_CHAL_READ (R413). -/
  | secChalRead (p : Principal)
  /-- CHALLENGE_LAPSE (R413). -/
  | challengeLapse
  /-- MAC_LOCKOUT_END (R413). -/
  | macLockoutEnd
  /-- SEC_ALARM_CFG_WRITE (R409). -/
  | secAlarmCfgWrite (p : Principal) (value : Word)
  /-- GENERATE (R394). -/
  | generate (p : Principal) (keySlot : Nat)
  /-- LOAD (R394). -/
  | load (p : Principal) (keySlot : Nat)
  /-- UNLOAD (R394). -/
  | unload (p : Principal) (keySlot : Nat)
  /-- DESTROY (R394). -/
  | destroy (p : Principal) (keySlot : Nat)
  /-- KEY_QUERY (R394). -/
  | keyQuery (p : Principal) (keySlot : Nat)
  /-- CIPHER_LANE_JOB (R396). -/
  | cipherLaneJob (lane : Nat) (prio : Nat) (blocks : Nat) (mismatch : Bool)
  /-- MASK_RESEED (R401). -/
  | maskReseed (lane : Nat)
  /-- DRBG_RESEED (R403). -/
  | drbgReseed (ok : Bool)
  /-- DRBG_STOP (R404). -/
  | drbgStop
  /-- DRBG_RESTART (R404). -/
  | drbgRestart
  /-- PKE_ECDH_P384 (R405). -/
  | pkeEcdhP384 (p : Principal)
  /-- PKE_X25519 (R405). -/
  | pkeX25519 (p : Principal)
  /-- PKE_ECDSA_VERIFY (R405). -/
  | pkeEcdsaVerify (p : Principal)
  /-- PKE_JOB_COMPLETE (R406). -/
  | pkeJobComplete
  /-- PKE_POOL_REFILL (R407). -/
  | pkePoolRefill
  /-- PWRON_RST_N_RISE (R426). -/
  | pwronRstNRise (env : BootEnv)
  /-- PWRON_RST_N_FALL (R470). -/
  | pwronRstNFall
  /-- LDG_KEY_WRITE (R441). -/
  | ldgKeyWrite (p : Principal) (value : Word)
  /-- LDG_PROGRAM (R443). -/
  | ldgProgram (p : Principal) (value : Word)
  /-- LDG_ERASE (R443). -/
  | ldgErase (p : Principal) (value : Word)
  /-- LDG_SUSPEND (R444). -/
  | ldgSuspend (p : Principal)
  /-- LDG_RESUME (R444). -/
  | ldgResume (p : Principal)
  /-- LDG_SEQUENCE_LAPSE (R441). -/
  | ldgSequenceLapse
  /-- LDG_OWNER_LAPSE (R442). -/
  | ldgOwnerLapse
  /-- LDG_STATUS_READ (R442). -/
  | ldgStatusRead (p : Principal)
  /-- LDG_RD_DATA_READ (R446). -/
  | ldgRdDataRead (p : Principal)
  /-- LEDGER_ERASE_PULSE (R425). -/
  | ledgerErasePulse (sector : Nat) (verified : Bool)
  /-- LEDGER_PROGRAM_DONE (R443). -/
  | ledgerProgramDone (verified : Bool)
  /-- LEDGER_ERASE_SLOW (R444). -/
  | ledgerEraseSlow (sector : Nat)
  /-- LEDGER_WINDOW_MOVE (R431). -/
  | ledgerWindowMove
  /-- STORE_TUNING (R439). -/
  | storeTuning (p : Principal)
  /-- STORE_IDENTITY (R450). -/
  | storeIdentity (p : Principal) (confirm : BitVec 16)
  /-- COMPACT (R440). -/
  | compact (p : Principal)
  /-- STAGE (R455). -/
  | stage (p : Principal)
  /-- STAGE_COMPLETE (R455). -/
  | stageComplete
  /-- ACTIVATE (R459). -/
  | activate (p : Principal)
  /-- ACTIVATE_RELOAD (R459). -/
  | activateReload
  /-- UPD_COMMIT (R461). -/
  | updCommit (p : Principal) (confirm : BitVec 16)
  /-- REVERT (R461). -/
  | revert (p : Principal)
  /-- UPD_REVOKE (R458). -/
  | updRevoke (p : Principal) (signer : Nat) (confirm : BitVec 16)
  /-- RECOVER_BEGIN (R464). -/
  | recoverBegin (p : Principal)
  /-- UPD_RCV_DATA_WRITE (R464). -/
  | updRcvDataWrite (p : Principal) (value : Word)
  /-- RECOVER_END (R464). -/
  | recoverEnd (p : Principal)
  /-- PG_RISE (R476). -/
  | pgRise (pgLine : Nat)
  /-- SETTLE_EXPIRY (R476). -/
  | settleExpiry (mv : Nat)
  /-- PG_TIMEOUT (R476). -/
  | pgTimeout
  /-- DOWN_MS_EXPIRY (R476). -/
  | downMsExpiry
  /-- MIN_OFF_EXPIRY (R483). -/
  | minOffExpiry
  /-- OFF (R482). -/
  | off (p : Principal) (confirm : BitVec 16)
  /-- ON (R482). -/
  | on (p : Principal)
  /-- RAIL_FAULT (R480). -/
  | railFault (rail : Nat) (mv : Nat) (hard : Bool)
  /-- CHARGER_PG_LOW (R473). -/
  | chargerPgLow
  /-- TEMP_CONVERSION (R488). -/
  | tempConversion (sensor : Nat) (value : Int)
  /-- THROTTLE_STEP (R488). -/
  | throttleStep
  /-- HOLD_TEMP_CONVERSION (R489). -/
  | holdTempConversion (lineMv : Nat) (celsius : Int)
  /-- VDD_CORE_REQUEST_UPDATE (R484). -/
  | vddCoreRequestUpdate
  /-- VDD_CORE_RAISE_UNMET (R484). -/
  | vddCoreRaiseUnmet
  /-- RUN (R490). -/
  | runCal (p : Principal)
  /-- CALIBRATION_DUE (R490). -/
  | calibrationDue
  /-- CALIBRATION_COMPLETE (R492). -/
  | calibrationComplete (trims : CalTrims)
  /-- RECORDER_WRITE (R508). -/
  | recorderWrite
  /-- CODE_BUCKET_REFILL (R506). -/
  | codeBucketRefill (code : Nat)
  /-- FOLD_BUCKET_REFILL (R506). -/
  | foldBucketRefill (fold : Nat)
  /-- EVT_PEND_CLEAR (R507). -/
  | evtPendClear (p : Principal) (value : Word)
  /-- EVT_FOLD_RL_WRITE (R514). -/
  | evtFoldRlWrite (p : Principal) (value : Word)
  /-- EVT_SNAP_ADDR_WRITE (R510). -/
  | evtSnapAddrWrite (p : Principal) (index : Nat) (value : Word)
  /-- RECORDER_CLEAR (R511). -/
  | recorderClear (p : Principal) (confirm : BitVec 16)
  /-- BIND (R515). -/
  | bind (p : Principal)
  /-- UNBIND (R505). -/
  | unbind (p : Principal)
  /-- RING_QUERY (R514). -/
  | ringQuery (p : Principal)
  /-- AGEING_SAMPLE (R513). -/
  | ageingSample (drifts : List Nat)
  /-- WARM_RST_N_ASSERT (R522). -/
  | warmRstNAssert
  /-- WARM_RST_N_RELEASE (R523). -/
  | warmRstNRelease
  /-- WARM (R523). -/
  | warm (p : Principal) (confirm : BitVec 16)
  /-- WARM_RESET_QUIESCED (R523). -/
  | warmResetQuiesced
  /-- WARM_RESET_FINISH (R523). -/
  | warmResetFinish (ms : Nat)
  /-- GALLERY (R526). -/
  | galleryReset (p : Principal) (confirm : BitVec 16)
  /-- GALLERY_RESET_COMPLETE (R526). -/
  | galleryResetComplete
  /-- FOLD (R528). -/
  | foldReset (p : Principal)
  /-- FOLD_RESET_COMPLETE (R528). -/
  | foldResetComplete
  /-- CONNECTION (R529). -/
  | connectionReset (p : Principal)
  /-- PORT (R530). -/
  | portReset (p : Principal)
  /-- OPEN (R531). -/
  | stageOpen (p : Principal)
  /-- STAGE_COMMIT (R532). -/
  | stageCommit (p : Principal)
  /-- ABANDON (R533). -/
  | stageAbandon (p : Principal)
  /-- STAGE_BANK_LAPSE (R531). -/
  | stageBankLapse
  /-- STAGE_BANK_DRAINED (R532). -/
  | stageBankDrained
  /-- JTAG_BYPASS (R568). -/
  | jtagBypass
  /-- JTAG_IDCODE (R568). -/
  | jtagIdcode
  /-- JTAG_SAMPLE_PRELOAD (R568). -/
  | jtagSamplePreload
  /-- JTAG_EXTEST (R568). -/
  | jtagExtest
  /-- JTAG_CLAMP (R568). -/
  | jtagClamp
  /-- JTAG_HIGHZ (R568). -/
  | jtagHighz
  /-- JTAG_EXTEST_PULSE (R568). -/
  | jtagExtestPulse
  /-- JTAG_EXTEST_TRAIN (R568). -/
  | jtagExtestTrain
  /-- TWN_CMD_SWAP (R239). -/
  | twnCmdSwap (p : Principal)
  /-- VDD_CORE_RAISE_MET (R484). -/
  | vddCoreRaiseMet (mv : Nat)
  /-- VDD_AON_BROWN_OUT (R408). -/
  | vddAonBrownOut
  /-- WARM_RESET_START (R522). -/
  | warmResetStart
  /-- WARM_RESET_HOLD_END (R523). -/
  | warmResetHoldEnd
  /-- DIE_TEMPERATURE_READ (R328). -/
  | dieTemperatureRead (celsius : Int) (elapsedUs : Nat)
deriving DecidableEq, Repr

end Sys2Proof
end

