-- ==== Sys2Proof/Decode.lean ====
section
/-! DEFINITION. The Gheloth is a block: its commands are not words in a memory. spec/opcode_table.json gives no row any
bits, so no word spells a command. -/
namespace Sys2Proof

/-- The command that a word spells by the bits of spec/opcode_table.json. The table gives no row bits. -/
def decodeTableWord (_nbits _w : Nat) : Option Instr := none

end Sys2Proof
end

