-- ==== Sys2Proof/Machine/Bits.lean ====
section
/-! DEFINITION. Bit-field, serial-arithmetic, counter and byte-order helpers (R13 to R15, R98, R106). -/
namespace Sys2Proof.Machine

/-- Bits [hi:lo] of a number (R15: a range includes both ends). -/
def bits (w hi lo : Nat) : Nat := (w / 2 ^ lo) % 2 ^ (hi + 1 - lo)

/-- Bits [hi:lo] of a 32-bit word, as a number. -/
def wbits (w : Word) (hi lo : Nat) : Nat := bits w.toNat hi lo

/-- A number placed at bit `lo` of a word. -/
def field (lo n : Nat) : Word := BitVec.ofNat 32 (n * 2 ^ lo)

/-- A Bool placed at bit `i` of a word. -/
def flag (i : Nat) (b : Bool) : Word := if b then field i 1 else 0

/-- The mask that covers bits [hi:lo]. -/
def maskOf (hi lo : Nat) : Word := field lo (2 ^ (hi + 1 - lo) - 1)

/-- Serial arithmetic on 32-bit counters (R98): `a` is later than `b`. -/
def later (a b : Word) : Bool := decide (0 < (a - b).toNat) && decide ((a - b).toNat < 2 ^ 31)

/-- `a` is `b` or later, in serial arithmetic. -/
def notBefore (a b : Word) : Bool := decide ((a - b).toNat < 2 ^ 31)

/-- A 32-bit counter that saturates at 0xFFFF_FFFF (R106). -/
def satAdd (w : Word) (n : Nat) : Word := BitVec.ofNat 32 (min (w.toNat + n) 0xFFFFFFFF)

/-- A counter that saturates at `cap`. -/
def satUp (cap n : Nat) : Nat := min cap (n + 1)

/-- `n` rounded up to a multiple of `k`. -/
def roundUp (n k : Nat) : Nat := (n + (k - 1)) / k * k

/-- `n` rounded down to a multiple of `k`. -/
def roundDown (n k : Nat) : Nat := n / k * k

/-- `n` divided by `k`, rounded up. -/
def ceilDiv (n k : Nat) : Nat := (n + (k - 1)) / k

/-- A value outside a field's range is taken as the nearer limit (R554). -/
def clampN (lo hi n : Nat) : Nat := max lo (min hi n)

/-- Little-endian bytes of a number (R14: descriptors and entries are little-endian). -/
def leBytes : Nat → Nat → List Byte
  | 0, _ => []
  | k + 1, n => BitVec.ofNat 8 n :: leBytes k (n / 256)

/-- The number that little-endian bytes spell. -/
def leNat : List Byte → Nat
  | [] => 0
  | b :: bs => b.toNat + 256 * leNat bs

/-- Network byte order (R14): the bytes of a number, and the number that bytes spell. -/
def beBytes (k n : Nat) : List Byte := (leBytes k n).reverse
def beNat (bs : List Byte) : Nat := leNat bs.reverse

/-- The number that `n` bytes from an offset of a byte list spell in network byte order. -/
def netField (bs : List Byte) (at_ n : Nat) : Nat := beNat ((bs.drop at_).take n)

/-- The stamp of a reseed generation, an epoch and a count (R207). -/
def mkStamp (seed epoch count : Nat) : Stamp := seed * 2 ^ 64 + epoch * 2 ^ 40 + count
/-- The reseed generation of a stamp (R207). -/
def stampSeed (st : Stamp) : Nat := st / 2 ^ 64
/-- The epoch of a stamp (R207). -/
def stampEpoch (st : Stamp) : Nat := st / 2 ^ 40 % 2 ^ 24
/-- The count of a stamp (R207). -/
def stampCount (st : Stamp) : Nat := st % 2 ^ 40

end Sys2Proof.Machine
end

