-- ==== Sys2Proof/Machine/StateBoard.lean ====
section
/-! DEFINITION. The parts of the state that carry the shepherd island: the ledger and its records, firmware update,
power sequencing and supervision, calibration, events and the recorder, resets, the shadow bank, the I3C target and the
JTAG port (chapters The Shepherd and the Ledger Flash to Register Map, and Package). -/
namespace Sys2Proof.Machine

/-- A firmware bank (R428): the 308 header bytes and the payload bytes that follow. An invalid bank fails R427. -/
structure Bank where
  header  : List Byte
  stream  : List Byte
deriving DecidableEq, Repr

/-- SHP_BOOT.STAGE (R450). -/
inductive BootStage where
  | rom | firmware | recovery
deriving DecidableEq, Repr

/-- Why a bank failed (R427, R450), in the order of the codes of FAIL_A. -/
inductive BankFail where
  | none | header | digest | signer | signature | belowFloor
deriving DecidableEq, Repr

/-- The newest BOOT entry of the state ring (R435). -/
structure BootEntry where
  bankB : Bool
  trial : Bool
  tries : Nat
deriving DecidableEq, Repr

/-- Results of a ledger command (R448). -/
inductive LdgResult where
  | done | seqError | denied | notErased | verifyFail | eraseFail | badState
deriving DecidableEq, Repr

/-- How far the unlock sequence of R441 has come. -/
inductive LdgSeq where
  | idle | key1 | key2 | cmd (erase : Bool) | addr (at_ : Nat)
deriving DecidableEq, Repr

/-- A principal's ledger erase in progress (R425, R443, R444). `byOwner` and `byShp` hold while the principal, or the shepherd,
has suspended it. -/
structure LdgErase where
  owner  : Principal
  sector : Nat
  pulses : Nat
  byOwner : Bool
  byShp  : Bool
deriving DecidableEq, Repr

/-- A word program in progress (R443). -/
structure LdgProg where
  owner : Principal
  addr  : Nat
  value : Word
deriving DecidableEq, Repr

/-- A REGISTERS record (R438): its format, the values of tuned registers, and the code buckets and snapshot sets by code. -/
structure TuneRec where
  fmt   : Nat
  regs  : List (Nat × Word)
  rlCfg : List (Nat × Word)
  snaps : List (Nat × List Word)
deriving DecidableEq, Repr

/-- The records that stand in the configuration store (R438, R439), PAIR and SECRETS apart, which the twin's identity holds:
the bytes written at the head since the latest compaction, and whether compaction could free enough (R440). -/
structure CfgStore where
  network  : Option (List (Nat × Word))
  tuning   : Option TuneRec
  sequence : Option (Nat × List (Nat × Word))
  written  : Nat
  full     : Bool
deriving DecidableEq, Repr

/-- A calibration record (R491). -/
structure CalRec where
  count    : Nat
  time     : Nat
  parts    : Nat
  railTrim : List (Int × Int)
  holdGain : Int
  holdOfs  : Int
  shunt0   : Int
  shunt1   : Int
  drive    : List Nat
  cMeas    : Nat
  countSat : Bool
deriving DecidableEq, Repr

/-- A ring of entries in ledger sectors: the number of the next entry since manufacture, and the entries that stand, oldest first,
each with its number and its bytes without the CRC-32 (R322, R435, R491). -/
structure LogRing where
  next : Nat
  held : List (Nat × List Byte)
deriving DecidableEq, Repr

/-- The ledger die and what the shepherd keeps in it (R424 to R450). `words` lists the programmed words of the window by
logical byte address; `spoiled` lists the sectors whose erase failed. -/
structure Ledger where
  base     : Nat
  moves    : Nat
  sinceMove : Nat
  erases   : Nat
  wear     : List (Nat × Nat)
  words    : List (Nat × Word)
  spoiled  : List Nat
  banks    : List Bank
  boot     : BootEntry
  dirty    : Bool
  ring     : LogRing
  anchorLog : LogRing
  journal  : LogRing
  calLog   : LogRing
  cfg      : CfgStore
  calA     : Option CalRec
  calB     : Option CalRec
  cal0     : Nat
  owner    : Option Principal
  seq      : LdgSeq
  results  : List (Principal × LdgResult)
  erase    : List LdgErase
  progs    : List LdgProg
  anchors  : List (Nat × Nat)
  stage    : BootStage
  bankB    : Bool
  fallback : Bool
  failA    : BankFail
  failB    : BankFail
  bootMs   : Nat
  cmdBusy  : Bool
  cmdResult : Nat
  revoked  : BitVec 4
  floor    : Nat
deriving DecidableEq, Repr

/-- UPD_STATUS.STATE (R467). -/
inductive UpdState where
  | idle | staging | staged | activating | trial | recoveryLoad
deriving DecidableEq, Repr

/-- Results of an update command (R467). -/
inductive UpdResult where
  | done | badState | srcFault | badBase | badSig | version | belowFloor | badDelta | badHash | badLevel
  | badConfirm | lastSigner
deriving DecidableEq, Repr

/-- Firmware update (R452 to R467). `paused` holds while ACTIVATE or REVERT pauses fetch and stamping,
`rejoin` from a standby's activation until it joins again (R460). -/
structure Upd where
  st       : UpdState
  result   : UpdResult
  busy     : Bool
  stale    : Bool
  window   : Bool
  hours    : Nat
  progress : Nat
  rcvAt    : Nat
  reverting : Bool
  paused   : Bool
  rejoin   : Bool
  target   : Option Bank
deriving DecidableEq, Repr

/-- Power states (R471). -/
inductive PwrState where
  | off | rampUp | on | saving | rampDown | fault
deriving DecidableEq, Repr

/-- Cause of the last off (R494). -/
inductive OffCause where
  | none | mainOk | cmdOff | seqFault | railSeq | railCut | trip | holdLimit
deriving DecidableEq, Repr

/-- What a sequence step waits for (R476). -/
inductive SeqWait where
  | none | pg | settle | down | minOff
deriving DecidableEq, Repr

/-- Results of CAL_STATUS (R495). -/
inductive CalResult where
  | done | badState | limit
deriving DecidableEq, Repr

/-- The power supervisor, the sensors and the calibration runs (R471 to R495). `onClears` holds while PWR_CMD ON is among the held on
requests; it clears FAULT (R482). -/
structure Pwr where
  st      : PwrState
  onHeld  : Bool
  onClears : Bool
  step    : Nat
  cause   : OffCause
  rail    : Nat
  tries   : Nat
  wait    : SeqWait
  faulty  : Bool
  retry   : Bool
  reverse : Bool
  en      : BitVec 16
  pg      : BitVec 16
  snap    : List Word
  railMv  : List Nat
  inWin   : BitVec 8
  minOff  : Bool
  served  : Bool
  holdI   : Int
  sensors : List Int
  thold   : Int
  holdValid : Bool
  goodConv : Nat
  reqMv   : Nat
  oldMv   : Nat
  pending : Bool
  unmet   : Bool
  warn    : Bool
  holdHot : Bool
  throttle : Bool
  galClk  : List Nat
  calBusy : Bool
  calParts : Nat
  calResult : CalResult
  calSource : Nat
  calTemp : Int
  calDue  : Bool
  warmLow : Bool
  pwron   : Bool
deriving DecidableEq, Repr

/-- A fold's event ring binding (R503, R515) with this unit's entry counter. -/
structure Ring where
  conn  : Nat
  addr  : DWord
  ckey  : Word
  rlog  : Nat
  eseq  : Word
  lost  : Nat
deriving DecidableEq, Repr

/-- An event entry (R500). -/
structure EventEntry where
  code   : Nat
  source : Nat
  phase  : Bool
  unit   : Bool
  timeValid : Bool
  suppressed : Nat
  eseq   : Word
  time   : Nat
  payload : List Byte
deriving DecidableEq, Repr

/-- A recorder record (R508). Of one that waits in the buffer, `regs` are the addresses that it will read. -/
structure Record where
  code   : Nat
  source : Nat
  rseq   : Nat
  time   : Nat
  suppressed : Nat
  flags  : Nat
  detail : List Byte
  regs   : List Word
deriving DecidableEq, Repr

/-- A token bucket (R506): tokens left, withheld since the last entry. A bucket that is not listed is full. -/
structure Bucket where
  tokens : Nat
  held   : Nat
  recHeld : Nat
  drop   : Nat
deriving DecidableEq, Repr

/-- Events and the recorder (R498 to R515). -/
structure Evt where
  pend    : Word
  codes   : List (Nat × Bucket)
  folds   : List (Nat × Nat × Nat)
  rlCfg   : List (Nat × Word)
  foldRl  : Word
  snaps   : List (Nat × List Word)
  refused : Bool
  rings   : List (Nat × Ring)
  ringBusy : Bool
  ringResult : Nat
  buffer  : List Record
  recs    : List Record
  head    : Nat
  oldest  : Nat
  full    : Bool
  erasing : Bool
  lHold   : Nat
  lAge    : Nat
  ageMon  : Nat
  ageMax  : Nat
deriving DecidableEq, Repr

/-- What a running reset acts on (R517). -/
inductive ResetKind where
  | gallery (g : Nat)
  | fold (f : Nat)
  | connection (n : Nat)
  | port (p : Nat)
deriving DecidableEq, Repr

/-- Where a warm reset stands (R523). -/
inductive WarmPhase where
  | none | asked | quiesce | held | leaving
deriving DecidableEq, Repr

/-- Result of the last GLB_RESET (R536). -/
inductive ResetResult where
  | done | badState | noTarget | badConfirm
deriving DecidableEq, Repr

/-- Result of the last GLB_STAGE (R537). -/
inductive StageResult where
  | done | badState | owned | lapsed
deriving DecidableEq, Repr

/-- Resets, the shadow bank and the clock gates (R41, R517 to R537). `due` holds while a gallery reset, `warmDue` while a warm reset
of GLB_RESET waits for its first step,
`warmed` from a warm reset until the unit serves or joins, and `afresh` counts the operations that a gallery reset ended. -/
structure Rst where
  run     : Option ResetKind
  due     : Bool
  warmDue : Bool
  result  : ResetResult
  level   : Nat
  warms   : Nat
  warm    : WarmPhase
  byPin   : Bool
  warmed  : Bool
  afresh  : Nat
  freeAfter : List Nat
  galReset : List Nat
  bankOwner : Option Principal
  bank    : RegWrites
  overflow : Bool
  bankBusy : Bool
  bankResult : StageResult
  oldBank : List (Nat × Word)
  gateGal : BitVec 16
  gateFl  : BitVec 16
  gateDrc : BitVec 24
deriving DecidableEq, Repr

/-- The answer of a register access: outcome and value (R18, R175, R548). -/
structure Answer where
  who    : Principal
  addr   : Nat
  write  : Bool
  status : Status
  detail : Word
  value  : Word
deriving DecidableEq, Repr

/-- The I3C target (R547, R548). `wrote` is the outcome of the latest write transfer since the last read. -/
structure I3c where
  dyn     : Option (BitVec 7)
  pointer : Nat
  wrote   : Option Nat
  reply   : List Byte
deriving DecidableEq, Repr

/-- JTAG instructions (R568). -/
inductive JtagIr where
  | bypass | idcode | samplePreload | extest | clamp | highz | extestPulse | extestTrain
deriving DecidableEq, Repr

end Sys2Proof.Machine
end

