-- ==== Sys2Proof/Machine/StateChip.lean ====
section
/-! DEFINITION. The parts of the state that carry the DRAM channels, the hall and pen caches, the on-chip arrays, the
key hierarchy, the cipher lanes, the DRBG, the public-key engine and the security alarms (chapters DRAM Channels, The
Hall Cache and On-Chip Arrays, Ciphers, Keys and Security Alarms). -/
namespace Sys2Proof.Machine

/-- DRC_STATUS.STATE (R357). -/
inductive ChanState where
  | absent | training | ready | selfRefresh | freqChange | fault
deriving DecidableEq, Repr

/-- A request in a subchannel's queue (R338): the line it names, where the line lies, when it arrived (ns) and in what order,
and the share of its target that has passed as the urgency of R339. -/
structure DramReq where
  tag    : Nat
  port   : Nat
  write  : Bool
  line   : Nat
  rank   : Nat
  bank   : Nat
  row    : Nat
  arrive : Nat
  ord    : Nat
  urg    : Nat
  data   : BitVec 512
deriving DecidableEq, Repr

/-- A command in the retry buffer (R346): the request it served, or a refresh of a rank, and the island cycle at which
it was issued. -/
structure RetryCmd where
  req     : Option DramReq
  refresh : Nat
  at_     : Nat
deriving DecidableEq, Repr

/-- One subchannel (R338 to R346): queues, open rows as (rank, bank, row), owed refreshes, ranks in a make-up burst, the retry
buffer, replays since the last clean window, reads in flight and data returned, the island cycle of the latest command and of
the latest alert, and the command slots and activates counted while the DIMM is throttled. -/
structure SubCh where
  reads   : List DramReq
  writes  : List DramReq
  rows    : List (Nat × Nat × Nat)
  owed    : List Nat
  burst   : List Nat
  drain   : Bool
  inOrder : List (Nat × Nat)
  retry   : List RetryCmd
  alert   : Bool
  replay  : List RetryCmd
  replays : Nat
  flight  : List DramReq
  returned : List (Nat × BitVec 512)
  cycle   : Nat
  ord     : Nat
  alertAt : Nat
  slots   : Nat
  acts    : Nat
deriving DecidableEq, Repr

/-- Where the last error of a channel lay (R355). -/
structure ErrLoc where
  sub : Nat
  rank : Nat
  bank : Nat
  row : Nat
  col : Nat
  dev : Nat
deriving DecidableEq, Repr

/-- A DRAM channel (R333 to R359). `cells` holds the lines written on the channel. -/
structure Chan where
  st      : ChanState
  setB    : Bool
  step    : Nat
  temp    : Nat
  pop     : Word
  err     : ErrLoc
  bucket  : Nat
  devCorr : List (Nat × Nat)
  devDay  : Nat
  throttled : Bool
  subs    : List SubCh
  cells   : List (Nat × BitVec 512)
  injected : List (Nat × Nat)
deriving DecidableEq, Repr

/-- Result of a rate change (R359). -/
inductive FchgResult where
  | done | notTrained | failed | badState
deriving DecidableEq, Repr

/-- The 24 channels and the shared rate change. Rates are in units of 100 MT/s. -/
structure Dram where
  chans   : List Chan
  mrdimm  : Bool
  rateA   : Nat
  rateB   : Nat
  trained : List Nat
  busy    : Bool
  result  : FchgResult
  refused : Bool
deriving DecidableEq, Repr

/-- State of a pen copy (R364). -/
inductive PenState where
  | shared | owned
deriving DecidableEq, Repr

structure PenLine where
  line : Nat
  st   : PenState
  data : BitVec 512
  check : Word
deriving DecidableEq, Repr

/-- A gallery's pen cache with its eviction buffer (R362, R367), most recently used first. -/
structure Pen where
  lines : List PenLine
  evict : List PenLine
deriving DecidableEq, Repr

/-- A line of a hall cache slice (R362, R365, R368). -/
structure SliceLine where
  line     : Nat
  data     : BitVec 512
  check    : Word
  poison   : Bool
  modified : Bool
  presence : BitVec 16
  owner    : Option Nat
deriving DecidableEq, Repr

/-- A victim cache entry (R369), oldest first. -/
structure Victim where
  entry : SliceLine
  wb    : Bool
deriving DecidableEq, Repr

/-- A coherence transaction of a line at its home slice (R366, R367, R371): the pen that asks, 16 for the slice's own eviction
(R365), the pens whose answer to SNP_INV is awaited, those of them that SNP_INV has reached, and those whose EVICT is awaited. -/
structure Txn where
  line  : Nat
  pen   : Nat
  owned : Bool
  snoop : List Nat
  seen  : List Nat
  expectEvict : List Nat
deriving DecidableEq, Repr

/-- A response of a slice to a pen that the mesh carries (R29, R366, R367): a granted line, or the answer to an eviction. -/
inductive SliceMsg where
  | data (line pen : Nat) (owned : Bool)
  | evictAck (line pen : Nat)
deriving DecidableEq, Repr

/-- A slice: its lines, most recently used first, its victim cache, the transactions running, the requests that wait, the answers
EVICTING to discard, and the responses sent and not yet delivered, oldest first. -/
structure Slice where
  lines  : List SliceLine
  victim : List Victim
  txns   : List Txn
  wait   : List (Nat × Nat × Bool)
  discard : List (Nat × Nat)
  msgs   : List SliceMsg
deriving DecidableEq, Repr

/-- Error counters and merge buffer of one array instance (R376, R378). -/
structure ArrayInst where
  kind   : ArrayKind
  inst   : Nat
  ce     : Word
  ue     : Word
  bucket : Nat
  merge  : List (Nat × BitVec 8 × BitVec 64)
  words  : List (Nat × BitVec 64)
  bad    : List Nat
  scrub  : Nat
deriving DecidableEq, Repr

/-- HAL_CMD commands (R385). -/
inductive HalCmd where
  | invalidate | flush | flushDisable
deriving DecidableEq, Repr

/-- The hall cache, the pens and the on-chip arrays (R362 to R387). -/
structure Hall where
  pens    : List Pen
  slices  : List Slice
  frames  : List (Nat × BitVec 512)
  run     : Option HalCmd
  invDone : Bool
  lastBad : Bool
  sliceFault : Bool
  penFault : Bool
  arrays  : List ArrayInst
  fuseOk  : Bool
  repair  : List (Nat × Nat × Nat)
  stopped : List Nat
  leftover : Bool
deriving DecidableEq, Repr

/-- A message of a cipher lane (R397, R398). `left` is the AES blocks still to run, `suspNs` the time it has spent
suspended. -/
structure LaneMsg where
  prio   : Nat
  left   : Nat
  suspNs : Nat
  retried : Bool
deriving DecidableEq, Repr

structure Lane where
  run    : Option LaneMsg
  susp   : List LaneMsg
  blocks : Nat
  stale  : Bool
deriving DecidableEq, Repr

/-- Status of the public-key engine (R406). -/
inductive PkeStatus where
  | done | invalidScalar | invalidEncoding | invalidPoint
deriving DecidableEq, Repr

/-- Operations of the public-key engine (R405). -/
inductive PkeOp where
  | ecdh384 | x25519 | verify384
deriving DecidableEq, Repr

/-- The public-key engine's register interface and running job (R405 to R407, R423). -/
structure Pke where
  job    : Option (PkeOp × List Word)
  valid  : Bool
  zero   : Bool
  status : PkeStatus
  out    : List Word
deriving DecidableEq, Repr

/-- Result of the last SEC_CMD (R419). -/
inductive SecLast where
  | done | badMac | badState | lockedOut
deriving DecidableEq, Repr

/-- Result of the last SEC_KEY_CMD (R422). -/
inductive KeyResult where
  | done | badState | inUse
deriving DecidableEq, Repr

/-- Keys, alarms, lanes, entropy (R390 to R423). A key slot that is EMPTY is not listed. `secrets` holds while PAIR_SECRET and
WITNESS_KEY stand in the key register file. -/
structure Sec where
  wk       : Option (BitVec 256)
  sk       : Option (BitVec 512)
  dk       : Option (BitVec 256)
  kw       : Option (BitVec 256)
  wkLedger : Option (BitVec 256)
  skLedger : Option (BitVec 512)
  dkStored : Option (BitVec 256)
  clearKey : Option (BitVec 256)
  secrets  : Bool
  slots    : List (Nat × BitVec 512 × Bool)
  lockout  : Bool
  bErased  : Bool
  entropyOk : Bool
  last     : SecLast
  alarmSeq : Nat
  fired    : BitVec 8
  cls      : BitVec 8
  chal     : Option (BitVec 128)
  fails    : Nat
  locked   : Bool
  zeroing  : Bool
  saveMode : Bool
  keyBusy  : Bool
  keyResult : KeyResult
  keyNamed : Nat
  drbgLast : Nat
  drbgStop : Bool
  lanes    : List Lane
  pke      : Pke
deriving DecidableEq, Repr

end Sys2Proof.Machine
end

