-- ==== Sys2Proof/Machine/StateMedia.lean ====
section
/-! DEFINITION. The parts of the state that carry durability and the flash tier: the dirty lines and the budget, the
energy estimates, the save and its image slots, the FTL map, the superblocks and the codewords they hold
(chapters Durability, Overlapping Checks, The Flash Tier). -/
namespace Sys2Proof.Machine

/-- Where a discharge test stands (R260). -/
inductive TestPhase where
  | idle | scheduled | running
deriving DecidableEq, Repr

/-- Governing estimate of the budget (R280). -/
inductive BudgetSource where
  | count | voltage | derated | forcedZero
deriving DecidableEq, Repr

/-- Where a power-loss save stands (R266): stamped work runs out, image being programmed, image done. -/
inductive SavePhase where
  | idle | draining | image | down
deriving DecidableEq, Repr

/-- A save image (R268). `lines` holds the dirty lines by address; `control` the control-area lines, `pages` the
map pages it carries, `wseq` the codeword sequence at its save point, and `older` the lines that an older live image still
covered then (R274, R277; assumption 59). -/
structure Image where
  seq      : Nat
  unit     : Bool
  stamp    : Stamp
  peer     : Stamp
  rseed    : Nat
  lines    : List (Nat × List Byte)
  older    : List Nat
  pages    : List Nat
  map      : List (Nat × Nat)
  starts   : List (Nat × Nat × Nat)
  wseq     : Nat
  divFull  : Bool
  diverge  : List Nat
  poison   : List Nat
  control  : List ControlItem
  trailer  : Bool
deriving DecidableEq, Repr

/-- State of an image slot as the ledger holds it (R266, R274, R280). -/
inductive SlotState where
  | empty | saving | live | draining
deriving DecidableEq, Repr

structure ImgSlot where
  st    : SlotState
  image : Option Image
  left  : List Nat
  drained : Bool
deriving DecidableEq, Repr

/-- Durability (R252 to R275). Voltages are in mV, charge in nC, capacitance in mF, power in W, volumes in bytes. `grouped` lists
the stamped commit groups with their lines that have not reached flash (R186). -/
structure Dur where
  dirty    : List Nat
  grouped  : List (Stamp × List Nat)
  poison   : List Nat
  resident : List Nat
  budget   : Nat
  source   : BudgetSource
  forced   : Bool
  mainOk   : Bool
  holdV    : Nat
  samples  : List Nat
  acc      : Int
  cntValid : Bool
  countSat : Bool
  mismatch : Nat
  test     : TestPhase
  testQ    : Int
  testV    : Nat
  pLast    : Nat
  save     : SavePhase
  saveSlot : Option Nat
  cursor   : Nat
  saveStart : Nat
  imgSeq   : Nat
  slots    : List ImgSlot
  lost     : Bool
  short    : Bool
  lastMs   : Nat
  linkHeld : Bool
deriving DecidableEq, Repr

/-- Kinds of codeword (R310). -/
inductive CwKind where
  | leaf | ftlPage | dirPage | ckptRec | saveImage | commitMark | pad
deriving DecidableEq, Repr

/-- A programmed codeword with its metadata (R310). `data` lists the bytes of a leaf that are not zero, by offset.
`bad` holds for a torn codeword, which fails LDPC or its page CRC. -/
structure Codeword where
  loc     : Nat
  kind    : CwKind
  grp     : Bool
  reloc   : Bool
  addr    : Nat
  keySlot : Nat
  erases  : Nat
  wseq    : Nat
  stamp   : Stamp
  ckptSeq : Nat
  oldLoc  : Option Nat
  poison  : BitVec 64
  link    : Option Nat
  data    : List (Nat × Byte)
  bad     : Bool
deriving DecidableEq, Repr

/-- A completed or running checkpoint (R320, R321): `head` is the location of its record's header, `emptied` the image slots that
had no line left to drain at its cut. -/
structure Ckpt where
  seq     : Nat
  cut     : Nat
  map     : List (Nat × Nat)
  starts  : List (Nat × Nat × Nat)
  erases  : List (Nat × Nat)
  retired : List (Nat × Nat × Nat × Nat)
  head    : Nat
  emptied : List Nat
deriving DecidableEq, Repr

/-- A program in progress (R311): its position, the codewords of the stripe, and for each leaf the lines whose dirty
state the program ends, with the control area's items that it carries. -/
structure Prog where
  pos   : Nat
  cws   : List Codeword
  lines : List Nat
  ctl   : List ControlItem
deriving DecidableEq, Repr

/-- The flash translation and tiering engine (R302 to R328). -/
structure Ftl where
  groups   : Nat
  targets  : Nat
  part     : Part
  popOk    : Bool
  rawFmt   : Nat
  spareFmt : Nat
  map      : List (Nat × Nat)
  cws      : List Codeword
  opens    : List (Nat × Nat × Nat)
  closed   : List Nat
  erasing  : List Nat
  erases   : List (Nat × Nat)
  retired  : List (Nat × Nat × Nat × Nat)
  offline  : List (Nat × Nat)
  wseq     : Nat
  updates  : Nat
  progs    : List Prog
  ckpt     : Option Ckpt
  ckpts    : List Ckpt
  ckptSeq  : Nat
  lastCkpt : Nat
  suspends : List (Nat × Nat × Nat)
  turn     : Nat
  ctlHeld  : List ControlItem
  marks    : List (Stamp × Nat × Nat)
  progTimes : List (Nat × Nat)
  patrolAt : Nat
  patrolLate : Bool
  patrolLast : Nat
  reads    : List (Nat × Nat)
  marked   : List Nat
  readOnly : Bool
  drainB   : Nat
  progB    : Nat
  corr     : Nat
  retry    : Nat
  soft     : Nat
  uncorr   : Nat
  pfail    : Nat
  efail    : Nat
  relocs   : Nat
  tempUs   : List Nat
  samples  : List (List Rat)
  life     : Nat
  day      : Nat
deriving DecidableEq, Repr

end Sys2Proof.Machine
end

