-- ==== Sys2Proof/Machine/StateNet.lean ====
section
/-! DEFINITION. The parts of the state that carry the network side: paths, connections, operations, ports, command
slots of the region-table commands, handle caches and the layout of the persistent space (chapters Folds, Transport,
Pull Rings, Operations, Services). -/
namespace Sys2Proof.Machine

/-- One rate controller of a path (R104). Rates are in Gb/s and times in ns, as exact rationals; `base` is base_rtt as the last
sample left it. -/
structure RateCtl where
  rate    : Rat
  alpha   : Rat
  clean   : Nat
  srtt    : Rat
  rttvar  : Rat
  sampled : Bool
  samples : List (Nat × Rat)
  base    : Rat
  ceSeen  : Bool
  marks   : Nat
  frames  : Nat
deriving DecidableEq, Repr

/-- A sequenced frame sent and not yet acknowledged (R98, R102). -/
structure Unacked where
  psn   : Word
  txc   : Nat
  body  : TxBody
  bytes : Nat
  early : Bool
  got   : Bool
deriving DecidableEq, Repr

/-- One path of a connection on this unit (R96 to R100), in both directions. -/
structure Path where
  up       : Bool
  nextPsn  : Word
  unacked  : List Unacked
  rxE      : Word
  rxGot    : List Word
  echoTs   : Word
  ceCnt    : Nat
  rxCnt    : Nat
  ackOwed  : Nat
  rto      : Rat
  expiries : Nat
  push     : RateCtl
  pull     : RateCtl
deriving DecidableEq, Repr

/-- What a READ_REQ serves: a batch of descriptors from the ring, or the write data of one operation (R91). -/
inductive PullFor where
  | ring (first : Word) (count : Nat)
  | data (seq : Word) (at_ : Nat)
deriving DecidableEq, Repr

/-- A READ_REQ, sent or waiting for pull room (R103). `got` lists the offsets of the segments that have arrived. -/
structure Pull where
  rid   : Nat
  what  : PullFor
  addr  : DWord
  ckey  : Word
  len   : Nat
  seg   : Nat
  path  : Nat
  sent  : Bool
  acked : Bool
  sentAt : Nat
  first : Bool
  got   : List Nat
  held  : Nat
  bytes : List (Nat × List Byte)
deriving DecidableEq, Repr

/-- A connection on this unit (R112, R121, R130, R133, R137). An IDLE connection has no context. `rspDue` is where a CONNECT_RSP
still has to go and `setupSt` the stamp of the record that carried the context to the twin (R118); `routes` holds the path of an
operation whose data has gone out and whose entry has not (R93). -/
structure Conn where
  ident     : ConnIdent
  state     : ConnState
  abort     : Bool
  cause     : Status
  reason    : Nat
  byClient  : Bool
  resuming  : Bool
  sqTail    : Word
  ackSeq    : Word
  cqHead0   : Word
  cqHead1   : Word
  f         : Word
  x         : Word
  executed  : List Word
  store     : List (Word × Entry)
  written   : Word
  twinWritten : Word
  refetch   : Bool
  txc       : Nat
  txcHigh   : Nat
  nextRid   : Nat
  pulls     : List Pull
  sendq     : List (Option Nat × TxBody)
  discSent  : Bool
  paths     : List Path
  count     : Nat
  winViol   : Word
  tagFail   : Word
  failTimes : List Nat
  endDue    : List (Word × Entry)
  changed   : List (Nat × Stamp)
  dupCnt    : Word
  abortCnt  : Word
  rspDue    : Option Source
  setupSt   : Option Stamp
  routes    : List (Word × Nat)
deriving DecidableEq, Repr

/-- The stage of R145 that a fetched operation has reached. -/
inductive Stage where
  | fetched | ordering | pulling | filling | budget | stamp | ready | running | holding | waiting
deriving DecidableEq, Repr

/-- A successful translation of a handle (R64, R67): the region it reached, the rights, and the generations the
walk passed through. -/
structure Trans where
  fold     : Nat
  handle   : Word
  owner    : Nat
  base     : Nat
  len      : Nat
  rights   : Nat
  immutable : Bool
  cow      : Bool
  isLog    : Bool
  keySlot  : Nat
  granted  : Bool
  gens     : List (Nat × Word)
deriving DecidableEq, Repr

/-- An operation in flight (R145): its descriptor, its data, the stage reached and what it has gathered. `chunk` counts the bytes
of the span that the datapath has worked (R200); `src` and `srcBad` are the source bytes and the poisoned source lines of a COPY
as they stood at its stamp. -/
structure Op where
  conn    : Nat
  seq     : Word
  desc    : Desc
  stage   : Stage
  first   : Bool
  group   : Option Word
  last    : Bool
  data    : List Byte
  dataGot : Nat
  refused : Bool
  tr1     : Option Trans
  tr2     : Option Trans
  gens    : List (Nat × Word)
  admitted : Option (List Nat)
  stamp   : Option Stamp
  rseed   : Nat
  failed  : List Nat
  target  : Option Nat
  done    : Option Entry
  pushed  : Bool
  lines   : List Nat
  finDue  : Bool
  chunk   : Nat
  src     : List Host.Cell
  srcBad  : List Nat
  cached  : Bool
deriving DecidableEq, Repr

/-- A data port or the management port (R84, R102, R107). -/
structure Port where
  link     : Bool
  ucrTokens : Nat
  resolved : List (BitVec 128 × BitVec 48)
deriving DecidableEq, Repr

/-- An RMA command slot (R73, R557, R559). -/
structure Slot where
  owner   : Option Principal
  args    : List (Nat × Word)
  run     : Option RmaCmd
  ended   : Bool
  result  : RmaResult
  release : Bool
deriving DecidableEq, Repr

/-- A staged change of a fold's table (R75): the fold whose COMMIT publishes it, and the descriptor that its handle will
hold. -/
structure Staged where
  by_    : Nat
  fold   : Nat
  handle : Word
  bytes  : List Byte
deriving DecidableEq, Repr

/-- A generation that drains: what it keeps until every operation admitted under it has completed (R76). -/
structure Drain where
  fold  : Nat
  gen   : Word
  pages : List (Nat × Nat)
  space : List (Nat × Nat)
deriving DecidableEq, Repr

/-- A command that waits for a drain before it goes on (R75 step 1, R580 steps 1 and 4). -/
structure RmaWait where
  slot  : Nat
  cmd   : RmaCmd
  step  : Nat
deriving DecidableEq, Repr

/-- A family: its members and the length of their regions. -/
structure Family where
  len     : Nat
  members : List FamMember
deriving DecidableEq, Repr

/-- The layout of the persistent space and its tables' book-keeping (R52 to R62, R73 to R76). Sizes are in bytes;
an unformatted unit has `formatted` false. The tables themselves are bytes of memory. `heldResults` are the entries of a result
store whose connection record has not arrived yet (R242). -/
structure Folds where
  formatted : Bool
  s        : Nat
  rta      : Nat
  rtaUsed  : List (Nat × Nat)
  dataUsed : List (Nat × Nat)
  staged   : List Staged
  drains   : List Drain
  slots    : List Slot
  queue    : List (Nat × RmaCmd)
  waits    : Option RmaWait
  caches   : List (Nat × List Trans)
  held     : List Nat
  families : List Family
  nextVer  : Nat
  logTails : List (Nat × Nat)
  live     : List Nat
  creds    : List (Nat × Cred)
  connResult : Nat
  connNamed  : Nat
  connBusy   : Bool
  heldResults : List (Nat × List (Word × Entry))
deriving DecidableEq, Repr

/-- A commit group whose last member has not been fetched (R179, R181): its first sequence, the LENGTH sum so far, and the
generations current when its first member was admitted (R77). `limit` is SQ_TAIL as the assembly limit passed (R180). -/
structure GroupAsm where
  conn  : Nat
  first : Word
  sum   : Nat
  gens  : List (Nat × Word)
  limit : Option Word
deriving DecidableEq, Repr

/-- The network side: ports, connections, operations in flight, the contexts that the galleries' caches hold (most recently
used first), the frames that wait for a context, the gallery turns and the copy datapaths (R31 to R35, R130, R200). -/
structure Net where
  ports   : List Port
  conns   : List (Nat × Conn)
  ops     : List Op
  ctxCache : List Nat
  parked  : List (Hdr × FrameBody)
  turns   : List (Nat × Nat)
  opTurn  : Nat
  dpTurns : List (Nat × Nat)
  groups  : List GroupAsm
  badTail : List (Nat × Nat × Nat)
  pool384 : Nat
  pool255 : Nat
  released : List (Nat × Nat)
deriving DecidableEq, Repr

end Sys2Proof.Machine
end

