-- ==== Sys2Proof/Machine/StateTwin.lean ====
section
/-! DEFINITION. The part of the state that carries the twin pair: identity, stamps, the twin link, leases, the resync
and the divergence bitmap (chapter The Twin Pair). -/
namespace Sys2Proof.Machine

/-- Result of the last TWN_CMD (R246). -/
inductive CmdResult where
  | done | badState | badConfirm | running
deriving DecidableEq, Repr

/-- Where a planned exchange of roles, a reseed, or the yielding to a twin with the higher stamp stands (R210, R239, R244). -/
inductive TwinPhase where
  | none | swapDrain | swapRelease | swapHandover | reseedDrain | reseedHello | yieldAdmit | yieldRelease
deriving DecidableEq, Repr

/-- Why a unit claims the lease (R233, R239, R240). -/
inductive ClaimFor where
  | takeover | handover | start
deriving DecidableEq, Repr

/-- A register access that waits for the twin's answer (R228). -/
structure Relay where
  conn : Nat
  seq  : Word
  addr : Nat
  write : Bool
deriving DecidableEq, Repr

/-- Why a CTRL record waits for its stamp: a command, which takes effect at the stamp; a credential command over I3C, which
reserves no budget (R262); or a change that this unit has made already. -/
inductive DueFrom where
  | command | i3cCommand | change
deriving DecidableEq, Repr

/-- The divergence bitmap (R241): the leaves changed since the common point, or FULL. -/
structure Diverge where
  active : Bool
  full   : Bool
  leaves : List Nat
deriving DecidableEq, Repr

/-- The pair. `ptpTime` is the slave clock's time at device time `ptpAt`; `ptpT1` to `ptpT3` are the times of the exchange that is
running: the master's Sync left, it arrived, the Delay_Req left (R243). `guard` is G of the latest request for a lease (R248). `reqs` are the requests to the witness that wait for their
answers, with WSEQ, the time each was sent and the ceiling it named (R229); `finHeld` the COPY and WRITE_ZERO records whose FIN
waits for the repair of leaves (R220). -/
structure Twin where
  st        : TwinState
  ident     : Option PairIdent
  identNext : Option PairIdent
  linkKey   : Option (BitVec 256)
  lastStamp : Stamp
  rseed     : Nat
  nextAt    : Option Stamp
  refusing  : Bool
  lastCmd   : CmdResult
  override  : Bool
  linkUp    : Bool
  blockLock : Bool
  witOk     : Bool
  resyncing : Bool
  ceil      : Nat
  phase     : TwinPhase
  nonce     : DWord
  peer      : Option Hello
  source    : Bool
  lsnTx     : Nat
  txq       : List (Nat × List Frag)
  waitq     : List Frag
  part      : Option (Frag × Nat)
  lsnRx     : Nat
  txc       : Nat
  rtt       : Nat
  authTimes : List Nat
  peerStamp : Stamp
  peerEcho  : Stamp
  held      : List Rec
  repairs   : List (Nat × Stamp)
  finWait   : List Stamp
  finHeld   : List (Stamp × List Nat)
  outstanding : List (Stamp × Nat)
  touched   : List (Stamp × Nat × Word × List Nat)
  lineStamps : List (Nat × Stamp)
  leafStamps : List (Nat × Stamp)
  levelDue  : List (Stamp × Nat × Entry)
  wseq      : Nat
  holder    : Nat
  reqs      : List (WitReq × Nat × Nat × Nat)
  leaseEnd  : Option Nat
  guard     : Nat
  claiming  : Option ClaimFor
  hbTwl     : Nat
  hbMgt     : Nat
  test      : Bool
  u         : List Nat
  uFull     : Bool
  uNext     : Nat
  based     : Bool
  ownBad    : List Nat
  unproved  : List (Nat × BitVec 256)
  diverge   : Diverge
  cfgGen    : Word
  digests   : List (Word × BitVec 384)
  ports     : List (BitVec 128)
  relays    : List Relay
  ctrlDue   : List (CtrlBody × DueFrom)
  timeValid : Bool
  ptpTime   : Nat
  ptpAt     : Nat
  ptpT1     : Option Nat
  ptpT2     : Nat
  ptpT3     : Option Nat
  dt        : Nat
  readySent : Bool
deriving DecidableEq, Repr

end Sys2Proof.Machine
end

