-- ==== Sys2Proof/Machine/State.lean ====
section
/-! DEFINITION. The state of the Gheloth: the device with every register, queue, buffer, counter, mode and pin the spec
gives it, and the queue of commands that wait. -/
namespace Sys2Proof.Machine

/-- No command stops the block: where the spec gives no effect, the command changes nothing. Nobody raises a fault. -/
inductive Fault where
deriving DecidableEq, Repr

/-- Why a command has no meaning. -/
inductive Refusal where
  /-- Raised by Dispatch for a row without a meaning yet; safe, because the machine stops. -/
  | notModelled (mnemonic : String)
deriving DecidableEq, Repr

/-- What the device has sent to the outside (R3, R84, R107, R114, R117, R212, R229). The model keeps it, newest first,
so that a statement can name it; no rule reads it. `bytes` are the Fenhel header and the plaintext body in network byte order
(R89, R90). -/
inductive Out where
  | frame (conn path : Nat) (psn : Word) (txc : Nat) (body : TxBody) (bytes : List Byte)
  | connectRsp (dst : Source) (conn : Nat) (rsp : ConnectRsp) (bytes : List Byte)
  | connectRefused (dst : Source) (result : Nat) (activeNode : Nat) (nonceC : DWord) (bytes : List Byte)
  | unknownConn (port : Nat) (dst : Source) (conn path reason : Nat) (echoPsn : Word) (bytes : List Byte)
  | arpRequest (port : Nat) (ip : BitVec 32)
  | neighborSol (port : Nat) (ip : BitVec 128)
  | arpReply (port : Nat) (ip : BitVec 32) (mac : BitVec 48)
  | neighborAdv (port : Nat) (ip : BitVec 128) (mac : Option (BitVec 48))
  | gratuitousArp (port : Nat) (ip : BitVec 32)
  | twl (lsn lack txc : Nat) (peer : Stamp) (frags : List Frag)
  | linkAck (lack txc : Nat) (peer : Stamp)
  | hello (msg : Hello)
  | witness (req : WitReq) (wseq leaseUs reseed epoch : Nat) (lastStamp : Stamp) (bytes : List Byte)
  | heartbeat (bytes : List Byte)
  | delayReq
  | jtagIdcode (w : Word)
deriving DecidableEq, Repr

/-- The device: everything but the queue of waiting commands. -/
structure Dev where
  clock   : Nat
  freeIdx : Nat
  env     : BootEnv
  mem     : List Host.Cell
  regs    : List (Nat × Word)
  idUse   : List (Nat × Word)
  latches : List (Principal × Nat × Word)
  answer  : Option Answer
  sent    : List Out
  folds   : Folds
  net     : Net
  twin    : Twin
  dur     : Dur
  ftl     : Ftl
  dram    : Dram
  hall    : Hall
  sec     : Sec
  ldg     : Ledger
  upd     : Upd
  pwr     : Pwr
  evt     : Evt
  rst     : Rst
  i3c     : I3c
  jtag    : JtagIr
deriving DecidableEq, Repr

/-- The state: the device and the commands that wait, first in first out. -/
structure State where
  pending : List Instr
  dev     : Dev
deriving DecidableEq, Repr

/-- What the board presents before anything is known of it: no DIMM, no flash, no fuse map, no entropy. -/
def BootEnv.none : BootEnv :=
  { dimmOk := false, badChans := [], trainFail := [], mrdimm := false, dimmGiB := 0, rate := 0, trained := [],
    pop := 0, flashOk := false, groups := 0, targets := 0,
    part := { planes := 0, blocks := 0, pages := 0, wlPages := 0, suspend := false, progMaxNs := 0, rated := 0 },
    badBlocks := [], fuseOk := false, repair := [], entropyOk := false, drvHashOk := false }

/-- A free command slot (R73, R559: ENDED 0 and RESULT 0 at reset). -/
def Slot.free : Slot := { owner := none, args := [], run := none, ended := false, result := .done, release := false }

/-- An unformatted space (R74): no fold, no region, no credential. -/
def Folds.reset : Folds :=
  { formatted := false, s := 0, rta := 0, rtaUsed := [], dataUsed := [], staged := [], drains := [],
    slots := List.replicate 16 Slot.free, queue := [], waits := none, caches := [], held := [], families := [],
    nextVer := 0, logTails := [], live := [], creds := [], connResult := 0, connNamed := 0, connBusy := false,
    heldResults := [] }

/-- A port without link; its token bucket is full (R107: depth 16). -/
def Port.reset : Port := { link := false, ucrTokens := 16, resolved := [] }

/-- No connection, no operation (R137: every connection IDLE). Port 16 is the management port. -/
def Net.reset : Net :=
  { ports := List.replicate 17 Port.reset, conns := [], ops := [], ctxCache := [], parked := [], turns := [], opTurn := 0,
    dpTurns := [], groups := [], badTail := [], pool384 := 0, pool255 := 0, released := [] }

/-- TWN_STATUS at reset (R246): FENCED, no identity, link down. -/
def Twin.reset : Twin :=
  { st := .fenced, ident := none, identNext := none, linkKey := none, lastStamp := 0, rseed := 0, nextAt := some 0, refusing := false,
    lastCmd := .done, override := false, linkUp := false, blockLock := false, witOk := false, resyncing := false,
    ceil := 0, phase := .none, nonce := 0, peer := none, source := false, lsnTx := 0, txq := [], waitq := [], part := none,
    lsnRx := 0, txc := 1, rtt := 0, authTimes := [], peerStamp := 0, peerEcho := 0, held := [], repairs := [],
    finWait := [], finHeld := [], outstanding := [], touched := [], lineStamps := [], leafStamps := [], levelDue := [], wseq := 0, holder := 0,
    reqs := [], leaseEnd := none, guard := 10, claiming := none, hbTwl := 0, hbMgt := 0, test := false, u := [],
    uFull := false, uNext := 0, based := false, ownBad := [], unproved := [], diverge := { active := false, full := false, leaves := [] }, cfgGen := 0, digests := [],
    ports := [], relays := [], ctrlDue := [], timeValid := false, ptpTime := 0, ptpAt := 0, ptpT1 := none, ptpT2 := 0, ptpT3 := none, dt := 0, readySent := false }

/-- An image slot that holds nothing (R280: 0 empty). -/
def ImgSlot.reset : ImgSlot := { st := .empty, image := none, left := [], drained := false }

/-- PWR_BUDGET, PWR_DIRTY and PWR_SAVE_STATUS at reset (R280): B 0 from a forced zero, nothing dirty. -/
def Dur.reset : Dur :=
  { dirty := [], grouped := [], poison := [], resident := [], budget := 0, source := .forcedZero,
    forced := false, mainOk := false, holdV := 0, samples := [], acc := 0, cntValid := false, countSat := false,
    mismatch := 0, test := .idle, testQ := 0, testV := 0, pLast := 0, save := .idle, saveSlot := none,
    cursor := 0, saveStart := 0, imgSeq := 0, slots := [ImgSlot.reset, ImgSlot.reset], lost := false, short := false,
    lastMs := 0, linkHeld := false }

/-- Unformatted flash: nothing programmed, nothing counted (R328: counters count from the last FORMAT). -/
def Ftl.reset : Ftl :=
  { groups := 0, targets := 0, part := BootEnv.none.part, popOk := false, rawFmt := 0, spareFmt := 0, map := [],
    cws := [], opens := [], closed := [], erasing := [], erases := [], retired := [], offline := [], wseq := 0,
    updates := 0, progs := [], ckpt := none, ckpts := [], ckptSeq := 0, lastCkpt := 0, suspends := [], turn := 0,
    ctlHeld := [], marks := [], progTimes := [], patrolAt := 0, patrolLate := false, patrolLast := 0, reads := [],
    marked := [], readOnly := false, drainB := 0, progB := 0, corr := 0, retry := 0, soft := 0, uncorr := 0,
    pfail := 0, efail := 0, relocs := 0, tempUs := List.replicate 8 0, samples := [], life := 100, day := 0 }

/-- A subchannel with empty queues and no row open; four logical ranks stand for the largest MRDIMM (R333). -/
def SubCh.reset : SubCh :=
  { reads := [], writes := [], rows := [], owed := List.replicate 16 0, burst := [], drain := false, inOrder := [],
    retry := [], alert := false, replay := [], replays := 0, flight := [], returned := [], cycle := 0, ord := 0,
    alertAt := 0, slots := 0, acts := 0 }

/-- DRC_STATUS at reset (R357): ABSENT, set A, TEMP 0xFF. -/
def Chan.reset : Chan :=
  { st := .absent, setB := false, step := 0, temp := 0xFF, pop := 0,
    err := { sub := 0, rank := 0, bank := 0, row := 0, col := 0, dev := 0 }, bucket := 0, devCorr := [], devDay := 0,
    throttled := false, subs := [SubCh.reset, SubCh.reset], cells := [], injected := [] }

/-- DRC_FCHG at reset (R359). -/
def Dram.reset : Dram :=
  { chans := List.replicate 24 Chan.reset, mrdimm := false, rateA := 0, rateB := 0, trained := [], busy := false,
    result := .done, refused := false }

/-- HAL_STATUS and HAL_REPAIR at reset (R385, R387). Tags hold arbitrary values until INVALIDATE (R372): `leftover`. -/
def Hall.reset : Hall :=
  { pens := List.replicate 16 { lines := [], evict := [] },
    slices := List.replicate 16 { lines := [], victim := [], txns := [], wait := [], discard := [], msgs := [] },
    frames := [], run := none, invDone := false, lastBad := false, sliceFault := false, penFault := false,
    arrays := [], fuseOk := false, repair := [], stopped := [], leftover := true }

/-- A lane with nothing to do (R396). -/
def Lane.reset : Lane := { run := none, susp := [], blocks := 0, stale := false }

/-- SEC_ALARM_STATUS, SEC_ALARM_CFG, SEC_KEY_STATUS and PKE_STATUS at reset (R419 to R423): an unprovisioned ledger holds
no key, no clear key and no lockout; CLASS is 0x60. -/
def Sec.reset : Sec :=
  { wk := none, sk := none, dk := none, kw := none, wkLedger := none, skLedger := none, dkStored := none,
    clearKey := none, secrets := false, slots := [], lockout := false, bErased := false, entropyOk := false,
    last := .done, alarmSeq := 0, fired := 0, cls := 0x60, chal := none, fails := 0, locked := false,
    zeroing := false, saveMode := false, keyBusy := false, keyResult := .done, keyNamed := 0, drbgLast := 0,
    drbgStop := false, lanes := List.replicate 48 Lane.reset,
    pke := { job := none, valid := false, zero := false, status := .done, out := [] } }

/-- A ring of erased sectors. -/
def LogRing.reset : LogRing := { next := 0, held := [] }

/-- The ledger as manufactured: erased sectors, window at base 0 with no move, no record (R430, R434). -/
def Ledger.reset : Ledger :=
  { base := 0, moves := 0, sinceMove := 0, erases := 0, wear := [], words := [], spoiled := [],
    banks := [{ header := [], stream := [] }, { header := [], stream := [] }],
    boot := { bankB := false, trial := false, tries := 0 }, dirty := false,
    ring := LogRing.reset, anchorLog := LogRing.reset, journal := LogRing.reset, calLog := LogRing.reset,
    cfg := { network := none, tuning := none, sequence := none, written := 0, full := false },
    calA := none, calB := none, cal0 := 0, owner := none, seq := .idle, results := [], erase := [], progs := [],
    anchors := [], stage := .rom, bankB := false, fallback := false, failA := .none, failB := .none, bootMs := 0,
    cmdBusy := false, cmdResult := 0, revoked := 0, floor := 0 }

/-- UPD_STATUS at reset (R467). -/
def Upd.reset : Upd :=
  { st := .idle, result := .done, busy := false, stale := false, window := false, hours := 0, progress := 0,
    rcvAt := 0, reverting := false, paused := false, rejoin := false, target := none }

/-- PWR_STATE, PWR_PINS, PWR_CORE_REQ and PWR_TEMP at reset (R493, R494): OFF, every enable low. -/
def Pwr.reset : Pwr :=
  { st := .off, onHeld := false, onClears := false, step := 0, cause := .none, rail := 0, tries := 0, wait := .none, faulty := false,
    retry := false, reverse := false, en := 0, pg := 0, snap := List.replicate 10 0, railMv := List.replicate 8 0,
    inWin := 0, minOff := false, served := false, holdI := 0, sensors := List.replicate 36 0, thold := 0,
    holdValid := false, goodConv := 0, reqMv := 800, oldMv := 800, pending := false, unmet := false, warn := false,
    holdHot := false, throttle := false, galClk := List.replicate 16 24, calBusy := false, calParts := 0,
    calResult := .done, calSource := 0, calTemp := 0, calDue := false, warmLow := false, pwron := false }

/-- EVT registers at reset (R514): nothing pending, every bucket full, no ring bound, no record. -/
def Evt.reset : Evt :=
  { pend := 0, codes := [], folds := [], rlCfg := [], foldRl := 0x20000064, snaps := [],
    refused := false, rings := [], ringBusy := false, ringResult := 0, buffer := [], recs := [], head := 0,
    oldest := 1, full := false, erasing := false, lHold := 100, lAge := 100, ageMon := 0, ageMax := 0 }

/-- GLB_RESET_STATUS and GLB_STAGE_STATUS at reset (R536, R537); no island gated (R41). -/
def Rst.reset : Rst :=
  { run := none, due := false, warmDue := false, result := .done, level := 0, warms := 0, warm := .none, byPin := false, warmed := false, afresh := 0,
    freeAfter := [], galReset := [], bankOwner := none, bank := [], overflow := false, bankBusy := false,
    bankResult := .done, oldBank := [], gateGal := 0, gateFl := 0, gateDrc := 0 }

/-- The device right after reset: every register at the value of its field table (an unlisted address of `regs` reads as
that value), memory with nothing listed, and the fields without a reset value as the assumption log names them. -/
def Dev.reset : Dev :=
  { clock := 0, freeIdx := 0, env := BootEnv.none, mem := [], regs := [], idUse := [], latches := [], answer := none,
    sent := [], folds := Folds.reset, net := Net.reset, twin := Twin.reset, dur := Dur.reset, ftl := Ftl.reset,
    dram := Dram.reset, hall := Hall.reset, sec := Sec.reset, ldg := Ledger.reset, upd := Upd.reset,
    pwr := Pwr.reset, evt := Evt.reset, rst := Rst.reset,
    i3c := { dyn := none, pointer := 0, wrote := none, reply := [] }, jtag := .bypass }

/-- The machine right after reset, with no command waiting. -/
def State.reset : State := { pending := [], dev := Dev.reset }

end Sys2Proof.Machine
end

