-- ==== Sys2Proof/Machine/Maps.lean ====
section
/-! DEFINITION. Sparse tables (rising keys, at most one entry a key), small list operations, and the persistent memory
with its canonical form: addresses strictly rising, no listed byte zero. An unlisted byte reads as zero: R73 and R308
give it for every region, and the layout of the tables (R57, R61) for a never-written table. -/
namespace Sys2Proof.Machine

/-- The entry of a key. -/
def getKey {α : Type} : List (Nat × α) → Nat → Option α
  | [], _ => none
  | (k, v) :: t, a => if k = a then some v else getKey t a

/-- Set the entry of a key, keeping the keys rising. -/
def putKey {α : Type} : List (Nat × α) → Nat → α → List (Nat × α)
  | [], a, v => [(a, v)]
  | (k, w) :: t, a, v =>
    if a < k then (a, v) :: (k, w) :: t
    else if a = k then (a, v) :: t
    else (k, w) :: putKey t a v

/-- Remove the entry of a key. -/
def delKey {α : Type} : List (Nat × α) → Nat → List (Nat × α)
  | [], _ => []
  | (k, w) :: t, a => if k = a then delKey t a else (k, w) :: delKey t a

/-- Set or remove the entry of a key. -/
def setKey {α : Type} (m : List (Nat × α)) (a : Nat) : Option α → List (Nat × α)
  | some v => putKey m a v
  | none => delKey m a

/-- Keys strictly rising from a bound. -/
def risingFrom {α : Type} : Nat → List (Nat × α) → Bool
  | _, [] => true
  | b, (k, _) :: t => decide (b ≤ k) && risingFrom (k + 1) t

/-- Add a number to a sorted list without repeats. -/
def addNum : List Nat → Nat → List Nat
  | [], a => [a]
  | k :: t, a => if a < k then a :: k :: t else if a = k then k :: t else k :: addNum t a

/-- Add several numbers. -/
def addNums (l : List Nat) (as : List Nat) : List Nat := as.foldl addNum l

/-- Remove several numbers. -/
def dropNums (l : List Nat) (as : List Nat) : List Nat := l.filter (fun x => !as.contains x)

/-- Change the entry at an index. -/
def modAt {α : Type} (l : List α) (i : Nat) (f : α → α) : List α := l.modify i f

/-- The persistent memory of the unit: the current value of every byte of the persistent space, wherever the line sits. -/
abbrev Mem := List Host.Cell

/-- The byte at a persistent address. -/
def readByte (m : Mem) (a : Nat) : Byte := (getKey m a).getD 0

/-- Write a byte, keeping the canonical form. -/
def writeByte (m : Mem) (a : Nat) (b : Byte) : Mem := if b = 0 then delKey m a else putKey m a b

/-- The canonical form: addresses strictly rising, and no listed byte zero. -/
def memWf (m : Mem) : Bool := risingFrom 0 m && m.all (fun c => c.2 ≠ 0)

/-- The `n` bytes from an address. -/
def readBytes (m : Mem) (a : Nat) : Nat → List Byte
  | 0 => []
  | n + 1 => readByte m a :: readBytes m (a + 1) n

/-- Write bytes from an address on. -/
def writeBytes : Mem → Nat → List Byte → Mem
  | m, _, [] => m
  | m, a, b :: bs => writeBytes (writeByte m a b) (a + 1) bs

/-- Write zero to `n` bytes from an address: every listed byte of the range goes. -/
def zeroBytes (m : Mem) (a n : Nat) : Mem := m.filter (fun c => !(decide (a ≤ c.1) && decide (c.1 < a + n)))

/-- Copy `n` bytes from `src` to `dst` as if the whole source were read before any byte is written (R165). -/
def copyBytes (m : Mem) (src dst n : Nat) : Mem :=
  (m.filter (fun c => decide (src ≤ c.1) && decide (c.1 < src + n))).foldl
    (fun acc c => writeByte acc (c.1 - src + dst) c.2) (zeroBytes m dst n)

/-- A little-endian number of `n` bytes at an address (R57, R59, R60). -/
def readLE (m : Mem) (a n : Nat) : Nat := leNat (readBytes m a n)

/-- Write a little-endian number of `n` bytes. -/
def writeLE (m : Mem) (a n v : Nat) : Mem := writeBytes m a (leBytes n v)

/-- The number of the line that holds an address. -/
def lineOf (a : Nat) : Nat := a / 64

/-- The lines that a span touches (R144). -/
def spanLines (a len : Nat) : List Nat :=
  if len = 0 then [] else List.range' (lineOf a) (lineOf (a + len - 1) + 1 - lineOf a)

/-- The lines that a span covers whole. -/
def wholeLines (a len : Nat) : List Nat :=
  (spanLines a len).filter (fun l => decide (a ≤ l * 64) && decide (l * 64 + 64 ≤ a + len))

/-- The lines that a span covers in part: their old bytes are kept (R166). -/
def partLines (a len : Nat) : List Nat :=
  (spanLines a len).filter (fun l => !(decide (a ≤ l * 64) && decide (l * 64 + 64 ≤ a + len)))

/-- The leaves that a list of lines lies in. -/
def leavesOf (ls : List Nat) : List Nat := addNums [] (ls.map (fun l => l / 64))

end Sys2Proof.Machine
end

