-- ==== Sys2Proof/Machine/Checks.lean ====
section
/-! DEFINITION. The checks that the spec fixes bit by bit: CRC-32C of lines, staging lines and codewords, the CRC-32 of the
ledger's records, and the XTS tweak (R284, R285, R287, R400, R424). -/
namespace Sys2Proof.Machine

/-- One bit of a reflected CRC. -/
def crcBit (poly r : BitVec 32) : BitVec 32 := if r.getLsbD 0 then (r >>> (1 : Nat)) ^^^ poly else r >>> (1 : Nat)

/-- One byte of a reflected CRC. -/
def crcByte (poly r : BitVec 32) (b : Byte) : BitVec 32 :=
  (List.range 8).foldl (fun x _ => crcBit poly x) (r ^^^ b.setWidth 32)

/-- A reflected CRC with register and output inverted. -/
def crc (poly : BitVec 32) (bs : List Byte) : BitVec 32 := bs.foldl (crcByte poly) 0xFFFFFFFF ^^^ 0xFFFFFFFF

/-- CRC-32C: polynomial 0x1EDC_6F41, bit-reflected (R284). -/
def crc32c (bs : List Byte) : BitVec 32 := crc 0x82F63B78 bs

/-- CRC-32 of IEEE 802.3 (R73 of the ledger's records): polynomial 0x04C1_1DB7, bit-reflected. -/
def crc32 (bs : List Byte) : BitVec 32 := crc 0xEDB88320 bs

/-- The line check of a line at a persistent address (R284). -/
def lineCheck (a : Nat) (line : List Byte) : BitVec 32 := crc32c (leBytes 8 a ++ line)

/-- The staging check of a staging line (R285). -/
def stagingCheck (a : Nat) (mask : DWord) (line : List Byte) : BitVec 32 := crc32c (leBytes 8 a ++ leBytes 8 mask.toNat ++ line)

/-- The page CRC of a codeword (R287). -/
def pageCrc (seed : Nat) (cipher meta' : List Byte) : BitVec 32 := crc32c (leBytes 8 seed ++ cipher ++ meta'.take 60)

/-- What an XTS data unit holds (R400). -/
inductive XtsUnit where
  | dataLine (slot line : Nat)
  | tableLine (line : Nat)
  | ftl (addr unit : Nat)
  | imageLine (seq line : Nat)
  | imagePart (seq unit : Nat)
deriving DecidableEq, Repr

/-- The tweak of an XTS data unit (R400). -/
def xtsTweak : XtsUnit → BitVec 128
  | .dataLine slot line => BitVec.ofNat 128 (slot % 4096 * 2 ^ 64 + line)
  | .tableLine line => BitVec.ofNat 128 (0x01 * 2 ^ 120 + line)
  | .ftl addr unit => BitVec.ofNat 128 (0x02 * 2 ^ 120 + addr * 64 + unit)
  | .imageLine seq line => BitVec.ofNat 128 (0x03 * 2 ^ 120 + seq % 2 ^ 32 * 2 ^ 64 + line)
  | .imagePart seq unit => BitVec.ofNat 128 (0x03 * 2 ^ 120 + seq % 2 ^ 32 * 2 ^ 64 + 2 ^ 63 + unit)

end Sys2Proof.Machine
end

