-- ==== Sys2Proof/Machine/Operands.lean ====
section
/-! DEFINITION. The operand forms of a descriptor (R127, R128): its fields, its 64 bytes, the opcode table, the layout
rules each opcode puts on its fields, and the line set of an operation (R144, R153). -/
namespace Sys2Proof

/-- The operation of an OPCODE byte (R128). -/
def opcodeOf (b : Byte) : Opcode :=
  match b.toNat with
  | 0x01 => .read | 0x02 => .write | 0x03 => .writeZero | 0x04 => .copy | 0x08 => .cas | 0x09 => .fetchAdd
  | 0x0A => .swap | 0x10 => .persist | 0x11 => .logAppend | 0x18 => .snapshot | 0x19 => .clone | 0x20 => .wait
  | 0x21 => .health | 0x22 => .nop | 0x30 => .regRead | 0x31 => .regWrite
  | _ => .undef b

def Desc.op (x : Desc) : Opcode := opcodeOf x.opcode

/-- Bytes 32 to 35, 36 to 39 and 40 to 47: CKEY, HANDLE2, OFFSET2 (R127). -/
def Desc.ckey (x : Desc) : Word := x.b32.setWidth 32
def Desc.handle2 (x : Desc) : Word := (x.b32 >>> (32 : Nat)).setWidth 32
def Desc.offset2 (x : Desc) : DWord := (x.b32 >>> (64 : Nat)).setWidth 64

/-- GROUP and FENCE of FLAGS (R127). -/
def Desc.inGroup (x : Desc) : Bool := x.flags.getLsbD 0
def Desc.fence (x : Desc) : Bool := x.flags.getLsbD 1

end Sys2Proof

namespace Sys2Proof.Machine

/-- A descriptor from its 64 little-endian bytes (R127). -/
def descOfBytes (bs : List Byte) : Desc :=
  let at_ (i n : Nat) : Nat := leNat ((bs.drop i).take n)
  { opcode := bs.getD 0 0, flags := bs.getD 1 0, level := bs.getD 2 0, rsv := bs.getD 3 0,
    seq := BitVec.ofNat 32 (at_ 4 4), handle := BitVec.ofNat 32 (at_ 8 4), length := BitVec.ofNat 32 (at_ 12 4),
    offset := BitVec.ofNat 64 (at_ 16 8), caddr := BitVec.ofNat 64 (at_ 24 8), b32 := BitVec.ofNat 128 (at_ 32 16),
    b48 := BitVec.ofNat 128 (at_ 48 16) }

/-- The 64 little-endian bytes of a descriptor (R127). -/
def bytesOfDesc (x : Desc) : List Byte :=
  [x.opcode, x.flags, x.level, x.rsv] ++ leBytes 4 x.seq.toNat ++ leBytes 4 x.handle.toNat ++
  leBytes 4 x.length.toNat ++ leBytes 8 x.offset.toNat ++ leBytes 8 x.caddr.toNat ++ leBytes 16 x.b32.toNat ++
  leBytes 16 x.b48.toNat

/-- The longest span of a data operation: 16 MiB (R165). -/
def maxLength : Nat := 16777216

/-- What the layout check of a descriptor found: the DETAIL of DESCRIPTOR_MALFORMED (R176), none when it passes. -/
abbrev Layout := Option Nat

/-- Every field that the opcode does not use is zero (R127, R128). -/
def reservedOk (x : Desc) : Bool :=
  let h := x.handle = 0
  let l := x.length = 0
  let o := x.offset = 0
  let c := x.caddr = 0
  let k := x.ckey = 0
  let h2 := x.handle2 = 0
  let o2 := x.offset2 = 0
  let b := x.b48 = 0
  x.rsv = 0 && (x.flags >>> (2 : Nat)) = 0 && (x.op = .persist || x.level = 0) &&
  (match x.op with
   | .read | .write => h2 && o2 && b
   | .writeZero => c && k && h2 && o2 && b
   | .copy => c && k && b
   | .cas => c && (x.length = 16 || ((x.b32 >>> (64 : Nat)) = 0 && (x.b48 >>> (64 : Nat)) = 0))
   | .fetchAdd | .swap => c && (x.b32 >>> (64 : Nat)) = 0 && b
   | .persist => h && l && o && c && k && h2 && o2 && b
   | .logAppend => o && h2 && o2 && b
   | .snapshot | .clone => l && o && c && k && o2 && b
   | .wait => h && o && c && k && b && (x.handle2 >>> (20 : Nat)) = 0
   | .health | .nop => h && l && o && c && k && h2 && o2 && b
   | .regRead => h && l && c && k && h2 && o2 && b && (x.offset >>> (32 : Nat)) = 0
   | .regWrite => h && l && c && k && h2 && o2 && (x.b48 >>> (32 : Nat)) = 0 && (x.offset >>> (32 : Nat)) = 0
   | .undef _ => true)

/-- LENGTH lies in the opcode's range (R165, R169, R170). -/
def lengthOk (x : Desc) : Bool :=
  match x.op with
  | .read | .write | .writeZero | .copy => decide (x.length.toNat ≤ maxLength)
  | .cas => x.length = 8 || x.length = 16
  | .fetchAdd | .swap => x.length = 8
  | .logAppend => decide (1 ≤ x.length.toNat) && decide (x.length.toNat ≤ maxLength)
  | _ => true

/-- An atomic operand is aligned to its length (R152), a register address to 4 bytes (R18). -/
def alignOk (x : Desc) : Bool :=
  match x.op with
  | .cas => x.offset.toNat % x.length.toNat = 0
  | .fetchAdd | .swap => x.offset.toNat % 8 = 0
  | .regRead | .regWrite => x.offset.toNat % 4 = 0
  | _ => true

/-- LEVEL of PERSIST is 0 to 3; zero otherwise (R163). -/
def levelOk (x : Desc) : Bool := if x.op = .persist then decide (x.level.toNat ≤ 3) else true

/-- The layout check of R145, with the DETAIL of R176: reserved field, LENGTH, alignment, LEVEL, in that order. -/
def layoutOf (x : Desc) : Layout :=
  if !reservedOk x then some 0x01 else if !lengthOk x then some 0x02 else if !alignOk x then some 0x03
  else if !levelOk x then some 0x04 else none

/-- Opcodes that a commit group may hold (R180). -/
def groupOpcode (o : Opcode) : Bool :=
  match o with
  | .write | .writeZero | .copy | .cas | .fetchAdd | .swap | .logAppend => true
  | _ => false

/-- Mutating operations (R144). A REG_WRITE to a shared-configuration register is stamped by the register path. -/
def mutating (x : Desc) : Bool :=
  match x.op with
  | .write | .writeZero | .copy => x.length ≠ 0
  | .cas | .fetchAdd | .swap | .logAppend | .snapshot | .clone => true
  | _ => false

/-- Operations that pull write data (R145). -/
def pullsData (x : Desc) : Bool :=
  match x.op with
  | .write => x.length ≠ 0
  | .logAppend => true
  | _ => false

/-- Operations that name a region in HANDLE (R145). -/
def usesHandle (o : Opcode) : Bool :=
  match o with
  | .read | .write | .writeZero | .copy | .cas | .fetchAdd | .swap | .logAppend | .snapshot | .clone => true
  | _ => false

/-- The span of the named region that an operation reads or writes, as offset and length (R69). SNAPSHOT, CLONE and
LOG_APPEND name no span of their own. -/
def spanOf (x : Desc) : Nat × Nat := (x.offset.toNat, x.length.toNat)

/-- A level byte of CONNECT_REQ or PERSIST (R112, R163); `dflt` is the connection's. -/
def levelOfByte (b : Byte) (dflt : Level) : Level :=
  match b.toNat with
  | 1 => .twin | 2 => .loc | 3 => .media | _ => dflt

/-- Rings: slot of a sequence in client memory (R120). -/
def slotAddr (ident : ConnIdent) (seq : Word) : DWord :=
  ident.sqAddr + BitVec.ofNat 64 (seq.toNat % 2 ^ ident.sqLog * 64)

end Sys2Proof.Machine
end

