-- ==== Sys2Proof/Machine/Flags.lean ====
section
/-! DEFINITION. The flags and codes of a completion entry (R129, R176): status codes, CFLAGS, PHASE, and its bytes. -/
namespace Sys2Proof.Machine

/-- Status codes (R176). -/
def statusCode : Status → Nat
  | .done => 0x00 | .doneDuplicate => 0x01 | .accessViolation => 0x10 | .bounds => 0x11 | .translationFault => 0x12
  | .keyInvalid => 0x13 | .mediaUncorrectable => 0x20 | .poisonedLine => 0x21 | .abortedDisabled => 0x30
  | .abortedFoldReset => 0x31 | .abortedRoleChange => 0x32 | .malformed => 0x40 | .unsupported => 0x41
  | .waitTimeout => 0x50 | .budgetExhausted => 0x51 | .noSpace => 0x52

/-- CFLAGS bits [3:2] (R129). -/
def levelCode : Level → Nat
  | .none => 0 | .twin => 1 | .loc => 2 | .media => 3

/-- PHASE of entry n of a half of 2^cq entries: 1 minus bit cq of n (R121). -/
def phaseOf (cq : Nat) (n : Word) : Bool := !((n.toNat / 2 ^ cq) % 2 = 1)

/-- CFLAGS: PHASE, UNIT and the level held (R129). -/
def cflags (phase unit : Bool) (l : Level) : Nat :=
  (if phase then 1 else 0) + (if unit then 2 else 0) + 4 * levelCode l

/-- The 32 little-endian bytes of an entry (R129). -/
def entryBytes (e : Entry) (phase unit : Bool) : List Byte :=
  leBytes 4 e.seq.toNat ++ leBytes 1 (statusCode e.status) ++ leBytes 1 (cflags phase unit e.level) ++
  leBytes 1 (if e.status = .doneDuplicate then statusCode e.orig else 0) ++ [e.opcode] ++ leBytes 4 e.detail.toNat ++
  leBytes 4 e.xfer.toNat ++ leBytes 16 e.result.toNat

/-- An entry of a descriptor that ended without moving anything. -/
def endEntry (x : Desc) (st : Status) (detail : Nat) : Entry :=
  { seq := x.seq, status := st, level := .none, orig := .done, opcode := x.opcode, detail := BitVec.ofNat 32 detail,
    xfer := 0, result := 0 }

/-- DETAIL with its handle bit: bit 8 says that the failure concerns HANDLE2 (R176). -/
def handleDetail (second : Bool) (n : Nat) : Nat := n + (if second then 256 else 0)

/-- The DONE_DUPLICATE entry of a sequence from its stored entry (R134). The level is the one the sender holds (R225). -/
def dupEntry (e : Entry) (l : Level) : Entry := { e with status := .doneDuplicate, orig := e.status, level := l }

end Sys2Proof.Machine
end

