-- ==== Sys2Proof/Config.lean ====
section
/-! DEFINITION. What an implementation fixes and the spec leaves open: free values without a body, so that nothing can be
proved of them, and the cryptographic functions that the spec takes from outside standards. -/
namespace Sys2Proof.Config

/-- A 32-bit value that the spec leaves open or draws at random; applied to the state's counter of free values. -/
opaque free32 : Nat → BitVec 32
/-- A 64-bit value that the spec draws at random (NONCE_G of R114, NONCE of R213). -/
opaque free64 : Nat → BitVec 64
/-- A 128-bit value that the spec draws at random (the challenge of R413). -/
opaque free128 : Nat → BitVec 128
/-- A 256-bit key that the spec draws at random (R392, R393). -/
opaque free256 : Nat → BitVec 256
/-- A 512-bit key pair that the spec draws at random (R392, R394). -/
opaque free512 : Nat → BitVec 512
/-- A choice that the spec leaves to the Gheloth among alternatives that it allows; used modulo their number. -/
opaque choice : Nat → Nat
/-- A choice that the spec leaves to the Gheloth and that both units of a pair make alike, because the change travels under
one stamp: applied to the stamp and to the place of the choice among those of the stamp. -/
opaque placeChoice : Nat → Nat → Nat
/-- SHA-384, which R115, R427 and R545 name. -/
opaque sha384 : List Byte → BitVec 384
/-- HMAC-SHA-384 of a key and a message, which R112, R115, R229 and R413 name. -/
opaque hmac384 : List (BitVec 8) → List (BitVec 8) → BitVec 384
/-- The public key of an ephemeral private key, laid out as CLIENT_PUB (R112, R114), by curve. -/
opaque ecdhPub : BitVec 8 → BitVec 256 → List (BitVec 8)
/-- The ECDH shared secret of an ephemeral private key and a peer's public key (R115), by curve. -/
opaque ecdh : BitVec 8 → BitVec 256 → List (BitVec 8) → List (BitVec 8)
/-- The part of the hash of R30 that turns each run of 16 lines over the slices; used modulo 16. -/
opaque homeTurn : Nat → Nat
/-- The set of a line in a hall cache slice (R362); used modulo 8,192. -/
opaque sliceSet : Nat → Nat
/-- The set of a line in a pen cache (R362); used modulo 4,096. -/
opaque penSet : Nat → Nat
/-- The set of a handle in a handle cache (R67); used modulo 2,048. -/
opaque handleSet : Nat → Nat → Nat
/-- How many descriptors a new descriptor page holds beyond those in use (R59, R75: the spec fixes no page size). -/
opaque pageSlack : Nat
/-- The codes that the I3C target answers to GETBCR and GETDCR (R547 gives no value). -/
opaque i3cBcr : BitVec 8
opaque i3cDcr : BitVec 8
/-- The answer to GETSTATUS (R547 gives no value). -/
opaque i3cStatus : BitVec 16
/-- The answers to GETMRL and GETMWL (R547 gives no value). -/
opaque i3cMrl : BitVec 16
opaque i3cMwl : BitVec 16
/-- The RRCA-dependent part of the DRC_ERR_LOC registers: R355 names the contents and not their bit places. -/
opaque errLoc : Nat → Nat → Nat → Nat → Nat → Nat → BitVec 64
/-- The VDD_CORE request in mV that the ageing oscillators, the hottest sensor and the gallery clock call for (R484 gives
no formula); used between 720 and 800 in steps of 5. -/
opaque vddRequest : Nat → Nat
/-- The temperature sensors' offsets from OTP (R491). -/
opaque tempOfs : Nat → BitVec 8
/-- The gallery clock, in 0.1 GHz, that a measured VDD_CORE supports (R484 gives no formula); used between 12 and 24. -/
opaque clockAt : Nat → Nat
/-- The timings that a DIMM's SPD gives for a rate (R353), by rate and register. -/
opaque spdTiming : Nat → Nat → BitVec 32
/-- The value that training leaves in a DRC_TRN register (R355), by channel and register. -/
opaque trainedVal : Nat → Nat → BitVec 32
/-- The signer digests that OTP holds from production (R458). -/
opaque signerDigest : Nat → BitVec 384
/-- The size W of the DRAM working tier in bytes, by the DRAM population in GiB (R254 takes W as given). -/
opaque workingTier : Nat → Nat

end Sys2Proof.Config
end

