-- ==== Sys2Proof/Machine/RegMap.lean ====
section
/-! DEFINITION. The register map (R19, R544, R549): the blocks and their spans, and for each register its reset value, the
bits that a write sets, the limits of its fields, and its markings. -/
namespace Sys2Proof.Machine

/-- The blocks of R19. -/
inductive Block where
  | glb | shp | ldg | pwr | cal | evt | sec | pke | twn | upd | hal | gal | eth | twl | mgt | rma | drc | ftl | flc | cry
deriving DecidableEq, Repr

/-- Where an address lies: block, instance and offset. None when it lies in no span (R18, R19). -/
def blockOf (a : Nat) : Option (Block × Nat × Nat) :=
  if a < 0x10000 then some (.glb, 0, a)
  else if a < 0x20000 then some (.shp, 0, a - 0x10000)
  else if a < 0x30000 then some (.ldg, 0, a - 0x20000)
  else if a < 0x40000 then some (.pwr, 0, a - 0x30000)
  else if a < 0x50000 then some (.cal, 0, a - 0x40000)
  else if a < 0x60000 then some (.evt, 0, a - 0x50000)
  else if a < 0x70000 then some (.sec, 0, a - 0x60000)
  else if a < 0x80000 then some (.pke, 0, a - 0x70000)
  else if a < 0x90000 then some (.twn, 0, a - 0x80000)
  else if a < 0xA0000 then some (.upd, 0, a - 0x90000)
  else if a < 0x100000 then none
  else if a < 0x110000 then some (.hal, 0, a - 0x100000)
  else if a < 0x200000 then none
  else if a < 0x300000 then some (.gal, (a - 0x200000) / 0x10000, a % 0x10000)
  else if a < 0x340000 then some (.eth, (a - 0x300000) / 0x4000, a % 0x4000)
  else if a < 0x350000 then some (.twl, 0, a - 0x340000)
  else if a < 0x360000 then some (.mgt, 0, a - 0x350000)
  else if a < 0x400000 then none
  else if a < 0x410000 then some (.rma, 0, a - 0x400000)
  else if a < 0x500000 then none
  else if a < 0x530000 then some (.drc, (a - 0x500000) / 0x2000, a % 0x2000)
  else if a < 0x600000 then none
  else if a < 0x610000 then some (.ftl, 0, a - 0x600000)
  else if a < 0x700000 then none
  else if a < 0x780000 then some (.flc, (a - 0x700000) / 0x1000, a % 0x1000)
  else if a < 0x800000 then none
  else if a < 0x810000 then some (.cry, 0, a - 0x800000)
  else none

/-- Base address of a block instance (R19). -/
def blockBase : Block → Nat → Nat
  | .glb, _ => 0 | .shp, _ => 0x10000 | .ldg, _ => 0x20000 | .pwr, _ => 0x30000 | .cal, _ => 0x40000
  | .evt, _ => 0x50000 | .sec, _ => 0x60000 | .pke, _ => 0x70000 | .twn, _ => 0x80000 | .upd, _ => 0x90000
  | .hal, _ => 0x100000 | .gal, i => 0x200000 + i * 0x10000 | .eth, i => 0x300000 + i * 0x4000
  | .twl, _ => 0x340000 | .mgt, _ => 0x350000 | .rma, _ => 0x400000 | .drc, i => 0x500000 + i * 0x2000
  | .ftl, _ => 0x600000 | .flc, i => 0x700000 + i * 0x1000 | .cry, _ => 0x800000

/-- Base of the ETH block of a port, or of the MGT block for port 16. -/
def ethBase (p : Nat) : Nat := if p < 16 then blockBase .eth p else blockBase .mgt 0

/-- Offsets of the address registers of a port (R553). -/
def isAddrOff (o : Nat) : Bool :=
  o = 0x20 || o = 0x24 || o = 0x30 || o = 0x34 || o = 0x38 || (decide (0x40 ≤ o) && decide (o ≤ 0x5C) && o % 4 = 0)

/-- The bits of a register that a plain write sets; zero where the register has none of access RW or RWS, or where a
write acts as a command. -/
def wMask (a : Nat) : Word :=
  match blockOf a with
  | some (.glb, _, o) =>
    if o = 0x10 then 0x3FFFF else if o = 0x20 then 0x3FFFF else if o = 0x24 then 0x1F
    else if o = 0x60 then 0xFFFFF else 0
  | some (.ldg, _, o) => if o = 0x20 then 0xFFFFFC else if o = 0x34 then 0xFFFF else 0
  | some (.pwr, _, o) =>
    if o = 0x0C then 0xFFF00000
    else if 0x20 ≤ o ∧ o ≤ 0x3C then 0x800FFFFF
    else if o = 0x68 then 0xFFFF else if o = 0x6C then 0xFFFF else if o = 0x70 then 0xFFFFFF
    else if o = 0x74 then 0x0FFF0FFF else if o = 0x84 then 0xFFFFFFFF
    else if 0xA0 ≤ o ∧ o ≤ 0xDC then 0x8F8F8700
    else if 0xE0 ≤ o ∧ o ≤ 0x11C then 0xFFFFFFFF
    else if o = 0x20C then 0xFFFFFF00 else if o = 0x210 then 0xFFFF else 0
  | some (.cal, _, o) => if o = 0x14 then 0xFFFF0000 else 0
  | some (.evt, _, o) =>
    if o = 0x04 then 0x1FFE else if o = 0x08 then 0x1FFE else if o = 0x10 then 0xFFFF
    else if o = 0x20 then 0xFFFF else if o = 0x60 then 0xFFFF else if o = 0x64 then 0xF00FFFFF
    else if o = 0x68 ∨ o = 0x6C ∨ o = 0x70 then 0xFFFFFFFF
    else if o = 0x108 then 0xFFFFFFFF else if o = 0x180 then 0xFFFF0000 else 0
  | some (.twn, _, o) =>
    if o = 0x08 then 0xFFFFFFF0 else if o = 0x0C then 0xFF000000 else if o = 0x24 then 0xFFFF
    else if o = 0x28 then 0xFF else if o = 0x40 ∨ o = 0x44 then 0xFFFFFFFF else if o = 0x48 then 1
    else if o = 0x4C ∨ o = 0x50 then 0x3FFFF else if 0x60 ≤ o ∧ o ≤ 0x6C then 0xFFFFFFFF else 0
  | some (.upd, _, o) =>
    if o = 0x08 ∨ o = 0x0C ∨ o = 0x10 ∨ o = 0x14 then 0xFFFFFFFF else if o = 0x24 then 0xFFF00000 else 0
  | some (.hal, _, o) =>
    if o = 0x10 then 0xFFFFFFF0 else if o = 0x14 then 0xFFF else if o = 0x20 then 0xFFF else 0
  | some (.gal, _, o) => if o = 0 then 0x01FF0FFF else 0
  | some (.eth, _, o) =>
    if o = 0 then 0xFFFFFFC0 else if o = 0x08 then 0xFFFF else if o = 0x10 then 0x8000FFFF
    else if o = 0x20 then 0xFFFF else if o = 0x38 then 0xC03F00FF else if isAddrOff o then 0xFFFFFFFF
    else if o = 0x80 then 0xFFFFFF80 else if o = 0x84 then 0xFFFFFF00 else if o = 0x88 then 0xFFFF8000
    else if o = 0x8C then 0xFFFFFFF0 else if o = 0x90 then 0xFFFFFF00 else 0
  | some (.mgt, _, o) =>
    if o = 0 then 0xC0000000 else if o = 0x20 then 0xFFFF else if o = 0x38 then 0xC03F00FF
    else if isAddrOff o then 0xFFFFFFFF else 0
  | some (.rma, _, o) =>
    if o = 0x1008 then 0xFFFFFFFF else if o = 0x1100 then 0xFFFFF else if o = 0x2004 then 0xF else 0
  | some (.drc, _, o) =>
    if o = 0 then 0x0FFFFFFF else if o = 0x10 then 0xFFFFFFFF else if o = 0x30 then 0xFFFF
    else if 0x40 ≤ o ∧ o ≤ 0x5C then 0x800FFFFF
    else if 0x100 ≤ o ∧ o ≤ 0x17C then 0xFFFFFFFF else if 0x200 ≤ o ∧ o ≤ 0x27C then 0xFFFFFFFF
    else if 0x400 ≤ o ∧ o ≤ 0x7FC then 0xFFFFFFFF else 0
  | some (.ftl, _, o) => if o = 0 then 0xFFFFFFF8 else if o = 4 then 0xFFFF else 0
  | _ => 0

/-- TARGET_NS at reset, by port (R338). -/
def portTarget (n : Nat) : Nat := ([150, 200, 500, 1000, 2000, 2000, 4000, 10000] : List Nat).getD n 0

/-- The default sequence of R477, step by step: EN and PG line, rail or none, TIMEOUT_MS, SETTLE in 0.5 ms, DOWN_MS. -/
def defaultSeq : List (Nat × Option Nat × Nat × Nat × Nat) :=
  [(0, some 0, 50, 2, 2), (1, some 1, 50, 2, 2), (2, some 2, 50, 2, 2), (3, some 3, 50, 2, 2), (4, some 4, 50, 2, 2),
   (5, some 5, 50, 2, 2), (6, none, 100, 10, 3), (7, none, 100, 4, 3), (8, none, 100, 4, 2)]

/-- PWR_SEQ_An of the default sequence (R474, R477). -/
def seqAReset (n : Nat) : Word :=
  match defaultSeq[n]? with
  | none => 0
  | some (l, r, _, _, _) =>
    flag 31 true ||| field 24 l ||| field 16 l ||| (match r with | some k => field 8 k | none => flag 15 true)

/-- PWR_SEQ_Bn of the default sequence. -/
def seqBReset (n : Nat) : Word :=
  match defaultSeq[n]? with
  | none => 0
  | some (_, _, t, s, d) => field 16 t ||| field 8 s ||| field 0 d

/-- The reset value of a register that `regs` holds (R23 and the field tables). -/
def regReset (a : Nat) : Word :=
  match blockOf a with
  | some (.glb, _, o) => if o = 0x24 then 0x18 else 0
  | some (.ldg, _, o) => if o = 0x34 then 0x40 else 0
  | some (.pwr, _, o) =>
    if o = 0x0C then 0x14200000
    else if 0x20 ≤ o ∧ o ≤ 0x3C then
      (if (o - 0x20) / 4 = 2 ∨ (o - 0x20) / 4 = 3 ∨ (o - 0x20) / 4 = 7 then 0x00021414 else 0x80021414)
    else if o = 0x68 then 0x4000 else if o = 0x6C then 0x07D0 else if o = 0x84 then 0x5F646C41
    else if 0xA0 ≤ o ∧ o ≤ 0xDC then seqAReset ((o - 0xA0) / 4)
    else if 0xE0 ≤ o ∧ o ≤ 0x11C then seqBReset ((o - 0xE0) / 4)
    else if o = 0x20C then field 22 0x1F4 ||| field 14 5 ||| field 8 0xA else 0
  | some (.cal, _, o) => if o = 0x14 then 0x180A0000 else 0
  | some (.evt, _, o) =>
    if o = 0x04 then 0x081A else if o = 0x08 then 0x1FFE
    else if o = 0x180 then 0x50500000 else 0
  | some (.twn, _, o) =>
    if o = 0x08 then field 22 0x14 ||| field 10 0xA ||| field 4 0xA else if o = 0x0C then 0x32000000
    else if o = 0x24 then 0xD0B7 else if o = 0x28 then 0x1E else 0
  | some (.upd, _, o) => if o = 0x24 then 0x18300000 else 0
  | some (.hal, _, o) =>
    if o = 0 then 0x40000000 else if o = 0x10 then field 24 0x10 ||| field 12 0x3C ||| field 4 0x18 else 0
  | some (.gal, _, o) => if o = 0 then 0x00200100 else 0
  | some (.eth, _, o) =>
    if o = 0 then 0x01000000 else if o = 0x08 then 0xD0B6 else if o = 0x10 then 0x03E8
    else if o = 0x80 then field 25 8 ||| field 17 0x14 ||| field 12 3 ||| field 7 6
    else if o = 0x84 then field 18 0x64 ||| field 8 0x14
    else if o = 0x88 then field 25 0xA ||| field 15 0xA
    else if o = 0x8C then field 18 0x64 ||| field 4 0x64
    else if o = 0x90 then field 25 6 ||| field 18 5 ||| field 8 0xA else 0
  | some (.mgt, _, o) => if o = 0 then 0xC0000000 else 0
  | some (.rma, _, o) => if o = 0x1008 then 0x003C03E8 else 0
  | some (.drc, _, o) =>
    if o = 0 then field 23 8 ||| field 16 0x30 ||| field 10 0x10 ||| field 0 0xC8
    else if o = 0x10 then 0x04000100 else if o = 0x30 then 0x5A32
    else if 0x40 ≤ o ∧ o ≤ 0x5C then flag 31 true ||| field 0 (portTarget ((o - 0x40) / 4)) else 0
  | some (.ftl, _, o) => if o = 0 then field 23 0x40 ||| field 18 7 ||| field 11 0x32 ||| field 3 0x64 else 0
  | _ => 0

/-- One field clamped into its range (R554 and the other registers whose values are taken as the nearer limit). -/
def clampField (hi lo mn mx : Nat) (w : Word) : Word :=
  (w &&& ~~~ (maskOf hi lo)) ||| field lo (clampN mn mx (wbits w hi lo))

/-- The value a register takes when a value is written: each field outside its range takes the nearer limit. -/
def clampReg (a : Nat) (old w : Word) : Word :=
  match blockOf a with
  | some (.glb, _, o) => if o = 0x24 then clampField 4 0 12 24 w else w
  | some (.ldg, _, o) => if o = 0x34 then clampField 15 0 1 0xFFFF w else w
  | some (.pwr, _, o) =>
    if o = 0x0C then clampField 31 24 20 255 w
    else if 0x20 ≤ o ∧ o ≤ 0x3C then clampField 19 16 0 8 (clampField 15 8 4 44 (clampField 7 0 4 44 w))
    else if o = 0x84 then
      clampField 31 24 80 105 (clampField 23 16 85 110 (clampField 15 8 100 115 (clampField 7 0 40 100 w)))
    else if o = 0x20C then clampField 31 22 100 1000 (clampField 13 8 2 50 w) else w
  | some (.cal, _, o) => if o = 0x14 then clampField 31 24 1 255 (clampField 23 16 2 50 w) else w
  | some (.evt, _, o) => if o = 0x180 then clampField 31 24 50 95 (clampField 23 16 10 200 w) else w
  | some (.twn, _, o) =>
    if o = 0x08 then
      let w1 := clampField 31 22 5 1000 (clampField 9 4 2 63 w)
      clampField 21 10 5 (wbits w1 31 22 * 10 / 4) w1
    else if o = 0x0C then clampField 31 24 1 150 w
    else if o = 0x28 then clampField 7 0 1 255 w else w
  | some (.upd, _, o) => if o = 0x24 then clampField 31 24 1 255 (clampField 23 20 1 15 w) else w
  | some (.hal, _, o) =>
    if o = 0x10 then clampField 31 24 1 255 (clampField 23 12 1 4095 (clampField 11 4 1 255 w)) else w
  | some (.gal, _, o) => if o = 0 then clampField 24 16 1 256 (clampField 11 0 16 2048 w) else w
  | some (.eth, _, o) =>
    if o = 0 then (if wbits w 30 29 = 3 then (w &&& ~~~ (maskOf 30 29)) ||| (old &&& maskOf 30 29) else w)
    else if o = 0x80 then
      clampField 31 25 1 64 (clampField 24 17 5 200 (clampField 16 12 1 16 (clampField 11 7 3 16 w)))
    else if o = 0x84 then clampField 31 18 10 10000 (clampField 17 8 5 1000 w)
    else if o = 0x88 then clampField 31 25 1 100 (clampField 24 15 1 1000 w)
    else if o = 0x8C then clampField 31 18 10 10000 (clampField 17 4 10 10000 w)
    else if o = 0x90 then clampField 31 25 1 100 (clampField 24 18 1 100 (clampField 17 8 1 1000 w)) else w
  | some (.mgt, _, o) =>
    if o = 0 then (if old.getLsbD 31 then (w &&& ~~~ (maskOf 30 30)) ||| (old &&& maskOf 30 30) else w) else w
  | some (.rma, _, o) => if o = 0x1008 then clampField 15 0 10 65535 w else w
  | some (.drc, _, o) =>
    if o = 0 then
      let w1 := clampField 26 23 1 8 w
      if wbits w1 21 16 ≤ wbits w1 15 10 then
        (w1 &&& ~~~ (maskOf 15 10)) ||| field 10 (wbits w1 21 16 - 1)
      else w1
    else if 0x40 ≤ o ∧ o ≤ 0x5C then clampField 19 0 50 1048575 w else w
  | some (.ftl, _, o) =>
    if o = 0 then
      clampField 31 23 32 288 (clampField 22 18 1 30 (clampField 17 11 10 90 (clampField 10 3 10 255 w)))
    else w
  | _ => w

/-- Registers of the shared-configuration set (marking S, R549), SEC_KEY_CMD apart: that one is a command. -/
def isShared (a : Nat) : Bool :=
  match blockOf a with
  | some (.twn, _, o) => o = 0x08 || o = 0x0C || o = 0x24 || o = 0x28
  | some (.gal, _, o) => o = 0
  | some (.eth, _, o) => o = 0x08 || o = 0x10 || o = 0x80 || o = 0x84 || o = 0x88 || o = 0x8C || o = 0x90
  | some (.rma, _, o) => o = 0x1008
  | some (.ftl, _, o) => o = 0 || o = 4
  | _ => false

/-- Tuned registers (marking T, R549; every S register is a T register, R545). -/
def isTuned (a : Nat) : Bool :=
  isShared a ||
  match blockOf a with
  | some (.glb, _, o) => o = 0x20 || o = 0x24 || o = 0x40
  | some (.ldg, _, o) => o = 0x34
  | some (.pwr, _, o) =>
    o = 0x0C || (decide (0x20 ≤ o) && decide (o ≤ 0x3C)) || o = 0x68 || o = 0x6C || o = 0x70 || o = 0x74 ||
    o = 0x84 || o = 0x20C || o = 0x210
  | some (.cal, _, o) => o = 0x14
  | some (.evt, _, o) => o = 0x04 || o = 0x08 || o = 0x180
  | some (.upd, _, o) => o = 0x24
  | some (.hal, _, o) => o = 0 || o = 0x10
  | some (.eth, _, o) => o = 0
  | some (.mgt, _, o) => o = 0
  | some (.drc, _, o) => o = 0 || o = 0x10 || o = 0x30 || (decide (0x40 ≤ o) && decide (o ≤ 0x5C))
  | _ => false

/-- Identity registers (marking I, R549). -/
def isIdentity (a : Nat) : Bool :=
  match blockOf a with
  | some (.glb, _, o) => o = 0x10
  | some (.eth, _, o) => isAddrOff o
  | some (.mgt, _, o) => isAddrOff o
  | _ => false

/-- Registers open on I3C (marking B, R549). -/
def isI3cOpen (a : Nat) : Bool :=
  match blockOf a with
  | some (.glb, _, o) => o = 0 || o = 0x10 || o = 0x68 || o = 0x78
  | some (.shp, _, o) => o = 0 || o = 8 || o = 0xC
  | some (.ldg, _, o) => o = 0x10 || o = 0x20 || o = 0x24
  | some (.pwr, _, o) =>
    o = 0 || o = 4 || o = 8 || o = 0x10 || (decide (0x120 ≤ o) && decide (o ≤ 0x144)) || o = 0x200 || o = 0x204 ||
    o = 0x214 || o = 0x21C
  | some (.evt, _, o) => o = 0 || o = 4 || (decide (0x100 ≤ o) && decide (o ≤ 0x154))
  | some (.sec, _, o) => o = 0 || o = 8 || (decide (0x10 ≤ o) && decide (o ≤ 0x2C))
  | some (.twn, _, o) => o = 0 || o = 4 || o = 8
  | some (.upd, _, o) => o = 0 || o = 4 || o = 0x18 || o = 0x30
  | some (.mgt, _, o) => isAddrOff o
  | some (.rma, _, o) =>
    (decide (0x100 ≤ o) && decide (o < 0x500)) || o = 0x2000 || o = 0x2004 ||
    (decide (0x2010 ≤ o) && decide (o ≤ 0x202C))
  | some (.drc, _, o) => o = 4
  | _ => false

/-- Registers of access RC that count in `regs` (R22): port counters, RMA_VIOL_CNT, TWN_ROLE_ABORTS, the twin link
counters, GAL_RST_DROP, the DRAM and lane counters. -/
def isCounter (a : Nat) : Bool :=
  match blockOf a with
  | some (.eth, _, o) => decide (0x100 ≤ o) && decide (o ≤ 0x124)
  | some (.mgt, _, o) => decide (0x100 ≤ o) && decide (o ≤ 0x124)
  | some (.rma, _, o) => o = 0x20
  | some (.twn, _, o) => o = 0x20
  | some (.twl, _, o) => o = 0 || o = 8
  | some (.gal, _, o) => o = 0x100
  | some (.drc, _, o) => o = 0x14 || o = 0x18 || o = 0x1C || (decide (0x60 ≤ o) && decide (o ≤ 0x7C))
  | some (.cry, _, o) => decide (o < 0x300) && (o % 16 = 0 || o % 16 = 4 || o % 16 = 8)
  | some (.evt, _, o) => o = 0x154
  | _ => false

/-- RWS registers: kept across a warm reset (R22, R355). -/
def isRws (a : Nat) : Bool :=
  match blockOf a with
  | some (.drc, _, o) =>
    (decide (0x100 ≤ o) && decide (o ≤ 0x17C)) || (decide (0x200 ≤ o) && decide (o ≤ 0x27C)) ||
    (decide (0x400 ≤ o) && decide (o ≤ 0x7FC))
  | _ => false

/-- Write-only registers that hold what was written until a command takes it (R143, R413, R415, R418, R562). -/
def isStaging (a : Nat) : Bool :=
  match blockOf a with
  | some (.sec, _, o) => (decide (0x20 ≤ o) && decide (o ≤ 0x2C)) || (decide (0x40 ≤ o) && decide (o ≤ 0x5C))
  | some (.pke, _, o) => decide (0x100 ≤ o) && decide (o ≤ 0x1FC)
  | some (.twn, _, o) => (decide (0x80 ≤ o) && decide (o ≤ 0x9C)) || (decide (0xA0 ≤ o) && decide (o ≤ 0xBC))
  | some (.rma, _, o) => decide (0x2010 ≤ o) && decide (o ≤ 0x202C)
  | _ => false

/-- Registers that a chapter lists and that no plain write, count or staging reaches: read-only and command registers (R549). -/
def isFixed (a : Nat) : Bool :=
  let span (o lo hi : Nat) : Bool := decide (lo ≤ o) && decide (o ≤ hi)
  match blockOf a with
  | some (.glb, _, o) => o = 0 || o = 0x40 || o = 0x64 || o = 0x68 || o = 0x70 || o = 0x74 || o = 0x78
  | some (.shp, _, o) => o = 0 || o = 8 || o = 0xC
  | some (.ldg, _, o) => span o 0 0x10 || o = 0x24 || o = 0x30 || o = 0x38 || o = 0x3C
  | some (.pwr, _, o) =>
    o = 0 || o = 4 || o = 8 || o = 0x10 || span o 0x40 0x64 || o = 0x80 || span o 0x120 0x144 || span o 0x200 0x208 ||
    o = 0x214 || o = 0x21C
  | some (.cal, _, o) => span o 0 0x10
  | some (.evt, _, o) =>
    o = 0 || o = 0x14 || o = 0x18 || o = 0x1C || o = 0x24 || span o 0x30 0x4C || o = 0x74 || o = 0x78 || o = 0x100 || o = 0x104 ||
    span o 0x10C 0x150 || o = 0x184 || o = 0x188
  | some (.sec, _, o) => o = 0 || o = 4 || o = 8 || span o 0x10 0x1C || o = 0x100 || o = 0x104
  | some (.pke, _, o) => o = 0 || o = 4 || span o 0x200 0x25C
  | some (.twn, _, o) => o = 0 || o = 4 || span o 0x10 0x1C
  | some (.upd, _, o) => o = 0 || o = 4 || span o 0x18 0x20 || o = 0x30
  | some (.hal, _, o) => o = 0 || o = 4 || o = 8 || o = 0x18 || o = 0x1C || o = 0x24
  | some (.gal, _, o) => o = 4
  | some (.twl, _, o) => o = 4
  | some (.rma, _, o) =>
    span o 0 0x14 || (span o 0x100 0x4FF && decide (o % 0x40 ≤ 0x20)) || o = 0x1000 || o = 0x1004 || span o 0x1104 0x1118 ||
    o = 0x2000
  | some (.drc, c, o) => o = 4 || o = 8 || o = 0x20 || o = 0x24 || o = 0x28 || (c = 0 && o = 0x80)
  | some (.ftl, _, o) => span o 0x400 0x47C
  | _ => false

/-- A chapter lists a register at an address; every other address inside a span is a reserved register (R18, R24, R549). -/
def isListed (a : Nat) : Bool := wMask a ≠ 0 || isCounter a || isStaging a || isFixed a

/-- The stored value of a register. -/
def regVal (rs : List (Nat × Word)) (a : Nat) : Word := (getKey rs a).getD (regReset a)

/-- Store a register value; a value equal to the reset value is not listed. -/
def setRegVal (rs : List (Nat × Word)) (a : Nat) (w : Word) : List (Nat × Word) :=
  if w = regReset a then delKey rs a else putKey rs a w

/-- A plain write: the writable bits take the value, each field inside its limits. -/
def plainWrite (rs : List (Nat × Word)) (a : Nat) (w : Word) : List (Nat × Word) :=
  let old := regVal rs a
  setRegVal rs a (clampReg a old ((old &&& ~~~ (wMask a)) ||| (w &&& wMask a)))

end Sys2Proof.Machine
end

