-- ==== Sys2Proof/Machine/Ops.lean ====
section
/-! DEFINITION. The named operations that every family uses: how a meaning acts on the device, registers and counters,
free values, the unit's role, connections and their frames, and raising an event (R498 to R510). -/
namespace Sys2Proof.Machine

/-- What a meaning answers. -/
abbrev Res := Host.Outcome State Fault Refusal

/-- A command's meaning is its effect on the device; the queue of waiting commands is not touched. -/
def onDev (f : Dev → Dev) (s : State) : Res := .next { s with dev := f s.dev }

/-- Change one part of the device. -/
def Dev.modFolds (d : Dev) (f : Folds → Folds) : Dev := { d with folds := f d.folds }
def Dev.modNet (d : Dev) (f : Net → Net) : Dev := { d with net := f d.net }
def Dev.modTwin (d : Dev) (f : Twin → Twin) : Dev := { d with twin := f d.twin }
def Dev.modDur (d : Dev) (f : Dur → Dur) : Dev := { d with dur := f d.dur }
def Dev.modFtl (d : Dev) (f : Ftl → Ftl) : Dev := { d with ftl := f d.ftl }
def Dev.modDram (d : Dev) (f : Dram → Dram) : Dev := { d with dram := f d.dram }
def Dev.modHall (d : Dev) (f : Hall → Hall) : Dev := { d with hall := f d.hall }
def Dev.modSec (d : Dev) (f : Sec → Sec) : Dev := { d with sec := f d.sec }
def Dev.modLdg (d : Dev) (f : Ledger → Ledger) : Dev := { d with ldg := f d.ldg }
def Dev.modUpd (d : Dev) (f : Upd → Upd) : Dev := { d with upd := f d.upd }
def Dev.modPwr (d : Dev) (f : Pwr → Pwr) : Dev := { d with pwr := f d.pwr }
def Dev.modEvt (d : Dev) (f : Evt → Evt) : Dev := { d with evt := f d.evt }
def Dev.modRst (d : Dev) (f : Rst → Rst) : Dev := { d with rst := f d.rst }
def Dev.modI3c (d : Dev) (f : I3c → I3c) : Dev := { d with i3c := f d.i3c }

/-- The stored value of a register, and storing one. -/
def reg (d : Dev) (a : Nat) : Word := regVal d.regs a
def setReg (d : Dev) (a : Nat) (w : Word) : Dev := { d with regs := setRegVal d.regs a w }

/-- Bits [hi:lo] of a stored register, as a number. -/
def regBits (d : Dev) (a hi lo : Nat) : Nat := wbits (reg d a) hi lo

/-- Count into a counter register; it saturates at 0xFFFF_FFFF (R106). -/
def bump (d : Dev) (a n : Nat) : Dev := setReg d a (satAdd (reg d a) n)

/-- A free value of each width: the counter moves on, so that each draw is a fresh one. -/
def draw32 (d : Dev) : BitVec 32 × Dev := (Config.free32 d.freeIdx, { d with freeIdx := d.freeIdx + 1 })
def draw64 (d : Dev) : BitVec 64 × Dev := (Config.free64 d.freeIdx, { d with freeIdx := d.freeIdx + 1 })
def draw128 (d : Dev) : BitVec 128 × Dev := (Config.free128 d.freeIdx, { d with freeIdx := d.freeIdx + 1 })
def draw256 (d : Dev) : BitVec 256 × Dev := (Config.free256 d.freeIdx, { d with freeIdx := d.freeIdx + 1 })
def draw512 (d : Dev) : BitVec 512 × Dev := (Config.free512 d.freeIdx, { d with freeIdx := d.freeIdx + 1 })

/-- A choice among `n` alternatives that the spec leaves to the Gheloth. -/
def drawChoice (d : Dev) (n : Nat) : Nat × Dev :=
  (Config.choice d.freeIdx % n, { d with freeIdx := d.freeIdx + 1 })

/-- The device has sent something to the outside. -/
def emit (d : Dev) (o : Out) : Dev := { d with sent := o :: d.sent }

/-! ## The unit's role (R204) -/

/-- A unit that fetches and admits is serving. -/
def serving (d : Dev) : Bool := d.twin.st = .active || d.twin.st = .unpaired

/-- The pair is paired: this unit is ACTIVE or STANDBY. -/
def paired (d : Dev) : Bool := d.twin.st = .active || d.twin.st = .standby

/-- The unit bit (R94, R205); an unprovisioned unit carries 0. -/
def unitBit (d : Dev) : Bool := match d.twin.ident with | some i => i.unit | none => false
def unitNo (d : Dev) : Nat := if unitBit d then 1 else 0

/-- The value in use of an identity register (R546). -/
def idVal (d : Dev) (a : Nat) : Word := (getKey d.idUse a).getD 0

/-- The node number in use (R49), GLB_NODE [17:0]. -/
def nodeOf (d : Dev) : Nat := wbits (idVal d 0x10) 17 0

/-- The unit accepts this destination node (R50). -/
def nodeAccepted (d : Dev) (dst : Nat) : Bool :=
  dst = nodeOf d || (paired d && (match d.twin.ident with | some i => i.twin = dst | none => false))

/-! ## Ports (R20, R80, R85) -/

/-- Lanes of each data port by GLB_ETH_MODE.MODE (R80). -/
def lanesPerPort (d : Dev) : Nat := 2 ^ regBits d 0x40 1 0

/-- A data port number is in use (R20). -/
def portInUse (d : Dev) (p : Nat) : Bool := decide (p < 16) && p % lanesPerPort d = 0

/-- The data ports in use, ascending. -/
def portsInUse (d : Dev) : List Nat := (List.range 16).filter (portInUse d)

/-- The port that carries path p of a connection on this unit (R114); management connections use the management port. -/
def portOfPath (d : Dev) (mgmt : Bool) (conn path : Nat) : Nat :=
  if mgmt then 16 else (portsInUse d).getD ((conn + path) % (16 / lanesPerPort d)) 0

/-- Register block whose transport parameters govern a port: the management port uses data port 0 (R85). -/
def tmrBase (p : Nat) : Nat := if p < 16 then ethBase p else ethBase 0

/-- Largest data segment of a port (R86; 1,024 bytes on the management port, R85). -/
def segOf (d : Dev) (p : Nat) : Nat :=
  if p < 16 then (match regBits d (ethBase p) 30 29 with | 0 => 1024 | 1 => 4096 | _ => 8192) else 1024

/-- Count into a drop counter of a port: offset 0x0100 on (R106). -/
def countPort (d : Dev) (p off : Nat) : Dev := bump d (ethBase p + off) 1

/-! ## Connections -/

def getConn (d : Dev) (n : Nat) : Option Conn := getKey d.net.conns n

def setConn (d : Dev) (n : Nat) (c : Option Conn) : Dev :=
  d.modNet fun t => { t with conns := setKey t.conns n c }

def modConn (d : Dev) (n : Nat) (f : Conn → Conn) : Dev :=
  match getConn d n with
  | some c => setConn d n (some (f c))
  | none => d

/-- State of a connection; one without a context is IDLE. -/
def connState (d : Dev) (n : Nat) : ConnState := match getConn d n with | some c => c.state | none => .idle

/-- Home gallery of a connection (R31). -/
def homeOf (n : Nat) : Nat := n % 16

/-- Frames may leave on a connection while it is ACTIVE or QUIESCING; a DISABLED one still retransmits (R140, R504). -/
def maySend (c : Conn) : Bool := c.state = .active || c.state = .quiescing

/-- Queue a sequenced frame on a connection; it leaves by SEQUENCED_FRAME_SEND (R102). -/
def queueFrame (d : Dev) (n : Nat) (path : Option Nat) (b : TxBody) : Dev :=
  modConn d n fun c => { c with sendq := c.sendq ++ [(path, b)] }

/-! ## Operations in flight -/

def findOp (d : Dev) (conn : Nat) (seq : Word) : Option Op :=
  d.net.ops.find? fun o => o.conn = conn && o.seq = seq

def setOp (d : Dev) (o : Op) : Dev :=
  d.modNet fun t => { t with ops := t.ops.map fun p => if p.conn = o.conn && p.seq = o.seq then o else p }

/-- A READ_REQ pulls the write data of a sequence. -/
def pullsFor (seq : Word) (p : Pull) : Bool := match p.what with | .data s _ => s = seq | .ring _ _ => false

/-- An operation leaves: its tag, its slot and its live READ_REQs go with it. -/
def dropOp (d : Dev) (conn : Nat) (seq : Word) : Dev :=
  modConn (d.modNet fun t => { t with ops := t.ops.filter fun p => !(p.conn = conn && p.seq = seq) }) conn fun c =>
    { c with pulls := c.pulls.filter fun p => !pullsFor seq p }

/-- Operations of a connection, in the order of their fetch, which is sequence order (R153). -/
def opsOf (d : Dev) (conn : Nat) : List Op := d.net.ops.filter fun o => o.conn = conn

/-! ## Events (R498 to R510) -/

/-- Source number of an instance (R498): single blocks by position, galleries, ports, channels, slices. -/
inductive EvSource where
  | block (n : Nat) | gallery (g : Nat) | port (p : Nat) | dram (c : Nat) | flash (c : Nat) | slice (s : Nat)

/-- First source number of an instance (R498). -/
def sourceNo : EvSource → Nat
  | .block n => n
  | .gallery g => 256 + 16 * g
  | .port p => if p < 16 then 512 + 16 * p else 13
  | .dram c => 768 + 16 * c
  | .flash c => 1152 + 2 * c
  | .slice s => 1408 + 8 * s

/-- Positions of the single blocks in R498's list. -/
def srcGLB : EvSource := .block 0
def srcSHP : EvSource := .block 1
def srcLDG : EvSource := .block 2
def srcPWR : EvSource := .block 3
def srcCAL : EvSource := .block 4
def srcEVT : EvSource := .block 5
def srcSEC : EvSource := .block 6
def srcTWN : EvSource := .block 8
def srcUPD : EvSource := .block 9
def srcRMA : EvSource := .block 10
def srcFTL : EvSource := .block 11
def srcTWL : EvSource := .block 12
def srcCRY : EvSource := .block 14

/-- A payload of kind VALUES: each value in 8 bytes, at most five (R501). -/
def valuesPayload (vs : List Nat) : List Byte :=
  let b := (vs.take 5).flatMap (leBytes 8)
  b ++ List.replicate (40 - b.length) 0

/-- A payload of kind ADDRESS: persistent address, check or cause, location (R501). -/
def addressPayload (pa cause loc : Nat) : List Byte :=
  leBytes 8 pa ++ leBytes 1 cause ++ leBytes 7 0 ++ leBytes 8 loc ++ leBytes 16 0

/-- A payload of kind ACCESS (R501, R72). -/
def accessPayload (fold conn : Nat) (handle : Word) (opcode : Byte) (offset : DWord) (len : Word) : List Byte :=
  leBytes 2 fold ++ leBytes 2 0 ++ leBytes 4 conn ++ leBytes 4 handle.toNat ++ [opcode] ++ leBytes 3 0 ++
  leBytes 8 offset.toNat ++ leBytes 4 len.toNat ++ leBytes 12 0

/-- IEEE 1588 time in ns, modulo 2^64: the slave clock goes on with the device's own between messages (R243). -/
def ptpNow (d : Dev) : Nat := (d.twin.ptpTime + (d.clock - d.twin.ptpAt)) % 2 ^ 64

/-- The event clock: IEEE 1588 time when valid, else the shepherd clock (R500). -/
def eventTime (d : Dev) : Nat := if d.twin.timeValid then ptpNow d else d.clock / 1000

/-- DEPTH and RATE of a code bucket (R514: EVT_RL_CFG of each code; a DEPTH of 0 is taken as 1). -/
def codeDepth (e : Evt) (code : Nat) : Nat := max 1 (wbits ((getKey e.rlCfg code).getD 0x1000000A) 31 24)
def codeRate (e : Evt) (code : Nat) : Nat := wbits ((getKey e.rlCfg code).getD 0x1000000A) 15 0

/-- DEPTH and RATE of the fold buckets (EVT_FOLD_RL). -/
def foldDepth (e : Evt) : Nat := max 1 (wbits e.foldRl 31 24)
def foldRate (e : Evt) : Nat := wbits e.foldRl 15 0

/-- A code's bucket; one that is not listed is full (R506). -/
def codeBucket (e : Evt) (code : Nat) : Bucket :=
  (getKey e.codes code).getD { tokens := codeDepth e code, held := 0, recHeld := 0, drop := 0 }

/-- A fold's bucket: tokens left and events withheld since its last entry. -/
def foldBucket (e : Evt) (f : Nat) : Nat × Nat := (getKey e.folds f).getD (foldDepth e, 0)

/-- The 64 bytes of an event entry (R500). -/
def eventBytes (x : EventEntry) : List Byte :=
  leBytes 2 x.code ++ leBytes 2 x.source ++
  leBytes 1 ((if x.phase then 1 else 0) + (if x.unit then 2 else 0) + (if x.timeValid then 4 else 0)) ++ leBytes 1 0 ++
  leBytes 2 (min x.suppressed 0xFFFF) ++ leBytes 4 x.eseq.toNat ++ leBytes 4 0 ++ leBytes 8 x.time ++ x.payload

/-- Send an entry to a fold's ring (R503, R504): ESEQ advances whether or not the bound connection may send. No entry
goes to a ring while LOCKOUT is set (R516). -/
def ringEntry (d : Dev) (f code source suppressed : Nat) (payload : List Byte) : Dev :=
  match getKey d.evt.rings f with
  | none => d
  | some r =>
    if d.sec.lockout then d else
    let e : EventEntry :=
      { code := code, source := source, phase := !((r.eseq.toNat / 2 ^ r.rlog) % 2 = 1), unit := unitBit d,
        timeValid := d.twin.timeValid, suppressed := suppressed, eseq := r.eseq, time := eventTime d,
        payload := payload }
    let ok := match getConn d r.conn with | some c => maySend c | none => false
    let r' := { r with eseq := r.eseq + 1, lost := if ok then r.lost else satUp 0xFFFF r.lost }
    let d1 := d.modEvt fun v => { v with rings := putKey v.rings f r' }
    if ok then
      queueFrame d1 r.conn none
        (.push none (r.addr + BitVec.ofNat 64 (unitNo d * 2 ^ r.rlog * 64 + r.eseq.toNat % 2 ^ r.rlog * 64)) r.ckey
          (eventBytes e) none)
    else d1

/-- Put a record into the recorder's buffer of 64 entries; one that finds it full is dropped and counted, and 0x090B is
due once there is room (R509). -/
def recordEvent (d : Dev) (r : Record) : Dev :=
  if d.evt.buffer.length < 64 then d.modEvt fun v => { v with buffer := v.buffer ++ [r] }
  else bump (d.modEvt fun v => { v with full := true }) 0x50154 1

/-- The copy of an event for one fold other than fold 0, under the fold's bucket (R506). -/
def foldCopy (code source : Nat) (payload : List Byte) (d : Dev) (f : Nat) : Dev :=
  if f = 0 then d else
  let b := foldBucket d.evt f
  if b.1 = 0 ∨ foldRate d.evt = 0 then
    d.modEvt fun v => { v with folds := putKey v.folds f (b.1, satUp 0xFFFF b.2) }
  else
    ringEntry (d.modEvt fun v => { v with folds := putKey v.folds f (b.1 - 1, 0) }) f code source b.2 payload

/-- The addresses of a code's snapshot set in force (R510). -/
def snapAddrs (e : Evt) (code : Nat) : List Word := ((getKey e.snaps code).getD []).filter fun a => a ≠ 0xFFFFFFFF

/-- The operator's copy of an event, under the code bucket (R506, R507, R508): fold 0's ring, EVT_PEND and the recorder.
A class 0x03 event is never withheld from the recorder and 0x0909 is never withheld. -/
def operatorCopy (code source : Nat) (payload : List Byte) (d : Dev) : Dev :=
  let b := codeBucket d.evt code
  let cls := code / 256
  let pass := (decide (0 < b.tokens) && decide (0 < codeRate d.evt code)) || code = 0x0909
  let toRec := (pass || cls = 3) && (reg d 0x50008).getLsbD cls
  let rec' : Record :=
    { code := code, source := source, rseq := 0, time := eventTime d, suppressed := min b.recHeld 0xFFFF,
      flags := (if unitBit d then 1 else 0) + (if d.twin.timeValid then 2 else 0) +
        (if d.ldg.stage = .rom then 4 else 0),
      detail := payload.take 8, regs := snapAddrs d.evt code }
  let b' : Bucket :=
    if pass then { tokens := b.tokens - 1, held := 0, recHeld := if toRec then 0 else b.recHeld, drop := b.drop }
    else { tokens := b.tokens, held := satUp 0xFFFF b.held,
           recHeld := if toRec then 0 else satUp 0xFFFF b.recHeld, drop := satUp 0xFFFFFFFF b.drop }
  let d1 := d.modEvt fun v =>
    { v with codes := putKey v.codes code b', pend := if pass then v.pend ||| flag cls true else v.pend }
  let d2 := if toRec then recordEvent d1 rec' else d1
  if pass then ringEntry d2 0 code source b.held payload else d2

/-- Raise an event: the operator's copy and a copy to each further fold (R499, R506). -/
def raise (d : Dev) (code : Nat) (src : EvSource) (payload : List Byte) (folds : List Nat) : Dev :=
  folds.foldl (foldCopy code (sourceNo src) payload) (operatorCopy code (sourceNo src) payload d)

/-- Raise an event whose payload is a list of values, to the operator only. -/
def raiseOp (d : Dev) (code : Nat) (src : EvSource) (vs : List Nat) : Dev := raise d code src (valuesPayload vs) []

/-- An event that goes to folds and not to the operator (R71: 0x0801 and 0x0802 go to the owner's ring). -/
def raiseFolds (d : Dev) (code : Nat) (src : EvSource) (payload : List Byte) (folds : List Nat) : Dev :=
  folds.foldl (fun x f =>
    if f = 0 then
      let b := foldBucket x.evt 0
      if b.1 = 0 ∨ foldRate x.evt = 0 then
        x.modEvt fun v => { v with folds := putKey v.folds 0 (b.1, satUp 0xFFFF b.2) }
      else
        ringEntry (x.modEvt fun v => { v with folds := putKey v.folds 0 (b.1 - 1, 0) }) 0 code (sourceNo src) b.2 payload
    else foldCopy code (sourceNo src) payload x f) d

/-- INT_N is low while a pending class is enabled, while LOCKOUT is set, and in RECOVERY (R507, R410, R427). -/
def intLow (d : Dev) : Bool := (d.evt.pend &&& reg d 0x50004) ≠ 0 || d.sec.lockout || d.ldg.stage = .recovery

/-! ## The ledger's rings (R322, R435, R456, R472, R491) -/

/-- Write the next entry of a ring, whose bytes follow from its number. -/
def putRing (r : LogRing) (f : Nat → List Byte) : LogRing := { next := r.next + 1, held := r.held ++ [(r.next, f r.next)] }

/-- An entry in the layout of R435 without its CRC-32: TYPE, JSEQ and the payload. -/
def entryBytes435 (ty : Nat) (payload : List Byte) (jseq : Nat) : List Byte :=
  leBytes 2 ty ++ leBytes 2 0 ++ leBytes 4 jseq ++ payload ++ List.replicate (20 - payload.length) 0

/-- Write an entry of the state ring. -/
def stateEntry (ty : Nat) (payload : List Byte) (d : Dev) : Dev :=
  d.modLdg fun l => { l with ring := putRing l.ring (entryBytes435 ty payload) }

/-- A new BOOT entry stands (R435). -/
def setBoot (b : BootEntry) (d : Dev) : Dev :=
  stateEntry 1 (leBytes 1 (if b.bankB then 1 else 0) ++ leBytes 1 (if b.trial then 1 else 0) ++ leBytes 1 b.tries)
    (d.modLdg fun l => { l with boot := b })

/-- State of an image slot as its SLOT entry gives it: 0 empty, 1 SAVING, 2 SAVED. -/
def slotCode (s : ImgSlot) : Nat := match s.st with | .empty => 0 | .saving => 1 | .live | .draining => 2

/-- The SLOT entries of the slots whose state has changed: slot, state, image sequence number, and with SAVED the save power
(R435). -/
def noteSlots (old d : Dev) : Dev :=
  (old.dur.slots.zip d.dur.slots).zipIdx.foldl (fun a x =>
    if slotCode x.1.1 = slotCode x.1.2 then a
    else
      stateEntry 2 (leBytes 1 x.2 ++ leBytes 1 (slotCode x.1.2) ++
        leBytes 4 (match x.1.2.image with | some i => i.seq | none => 0) ++ leBytes 2 (if slotCode x.1.2 = 2 then a.dur.pLast else 0)) a) d

end Sys2Proof.Machine
end

