-- ==== Sys2Proof/Machine/Wire.lean ====
section
/-! DEFINITION. The Fenhel header and the bodies as bytes in network byte order: reading an arriving header, and the bytes of
every frame that the Gheloth sends (R14, R89 to R94, R97, R100, R107, R112, R114, R117, R138). -/
namespace Sys2Proof

/-- The fields of an arriving header (R89). -/
def Hdr.dst (h : Hdr) : Nat := Machine.netField h.head 4 4 % 2 ^ 18
def Hdr.path (h : Hdr) : Nat := Machine.netField h.head 8 1 % 8
def Hdr.conn (h : Hdr) : Nat := Machine.netField h.head 9 3 % 2 ^ 20
def Hdr.psn (h : Hdr) : Word := BitVec.ofNat 32 (Machine.netField h.head 12 4)
def Hdr.ts (h : Hdr) : Word := BitVec.ofNat 32 (Machine.netField h.head 24 4)

/-- OLD_CONN of a CONNECT_REQ (R112). -/
def ConnectReq.oldConn (r : ConnectReq) : Nat := r.oldWord % 2 ^ 20

end Sys2Proof

namespace Sys2Proof.Machine

/-! ## Types (R90) -/

/-- TYPE of a frame. -/
def typeCode : FrameType → Nat
  | .doorbell => 0x01 | .readReq => 0x02 | .readRsp => 0x03 | .push => 0x04 | .ack => 0x05 | .probe => 0x06
  | .pathReset => 0x07 | .disconnect => 0x08 | .connectReq => 0x10 | .connectRsp => 0x11 | .connectFin => 0x12
  | .unknownConn => 0x1F

/-- The type that a TYPE byte names; any other value is undefined. -/
def typeOf (n : Nat) : Option FrameType :=
  match n with
  | 0x01 => some .doorbell | 0x02 => some .readReq | 0x03 => some .readRsp | 0x04 => some .push | 0x05 => some .ack
  | 0x06 => some .probe | 0x07 => some .pathReset | 0x08 => some .disconnect | 0x10 => some .connectReq
  | 0x11 => some .connectRsp | 0x12 => some .connectFin | 0x1F => some .unknownConn | _ => none

/-- The types that a client sends. -/
def fromClient : FrameType → Bool
  | .doorbell | .readRsp | .ack | .probe | .pathReset | .disconnect | .connectReq | .connectFin => true
  | _ => false

/-- The types that carry a GCM tag. -/
def isProtected : FrameType → Bool
  | .connectReq | .connectRsp | .connectFin | .unknownConn => false
  | _ => true

/-- The type of a client's frame body. -/
def bodyType : FrameBody → FrameType
  | .doorbell _ => .doorbell | .readRsp _ _ _ _ => .readRsp | .ack _ _ _ _ _ => .ack | .probe => .probe
  | .pathReset _ _ => .pathReset | .disconnect _ => .disconnect | .stranger t => t

/-- The type that a header names. -/
def headType (head : List Byte) : Option FrameType := typeOf (netField head 1 1)

/-- The checks of R106 on a client's header: VER is 1 and D is 0, TYPE is one that a client sends, LEN agrees with the UDP
payload of header, body and tag, and every reserved bit is zero. -/
def fenhelOk (head : List Byte) (udpLen : Nat) : Bool :=
  decide (head.length = 32) && netField head 0 1 / 8 = 2 && netField head 0 1 % 4 = 0 &&
  (match headType head with
   | some ty => fromClient ty && udpLen = 32 + netField head 2 2 + (if isProtected ty then 16 else 0)
   | none => false) &&
  netField head 4 4 / 2 ^ 18 = 0 && netField head 8 1 / 8 = 0 && netField head 9 3 / 2 ^ 20 = 0 && netField head 28 4 = 0

/-! ## Frames that the Gheloth sends -/

/-- The 32 header bytes of a frame that this unit sends: VER 1, D 1, its own U, and its node number (R89, R94). -/
def headBytes (d : Dev) (ty : FrameType) (len path conn : Nat) (psn : Word) (txc ts : Nat) : List Byte :=
  beBytes 1 (0x18 + (if unitBit d then 4 else 0)) ++ beBytes 1 (typeCode ty) ++ beBytes 2 len ++ beBytes 4 (nodeOf d) ++
  beBytes 1 path ++ beBytes 3 conn ++ beBytes 4 psn.toNat ++ beBytes 8 txc ++ beBytes 4 ts ++ beBytes 4 0

/-- The type of a frame body that the Gheloth sends. -/
def txType : TxBody → FrameType
  | .readReq _ _ _ _ _ => .readReq | .push _ _ _ _ _ => .push | .pathReset _ _ => .pathReset
  | .disconnect _ _ => .disconnect | .ack _ _ _ _ _ => .ack | .probe => .probe

/-- The body bytes of a frame (R91, R93, R97, R100, R138). -/
def txBytes (d : Dev) : TxBody → List Byte
  | .readReq rid len addr ckey seg =>
    beBytes 4 rid ++ beBytes 4 len ++ beBytes 8 addr.toNat ++ beBytes 4 ckey.toNat ++ beBytes 2 seg ++ beBytes 2 0
  | .push _ addr ckey data ce =>
    beBytes 8 addr.toNat ++ beBytes 8 (match ce with | some (a, _) => a.toNat | none => 0) ++ beBytes 4 ckey.toNat ++
    beBytes 4 (match ce with | some (_, k, _) => k.toNat | none => 0) ++ beBytes 2 data.length ++
    beBytes 2 (if ce.isSome then 1 else 0) ++ beBytes 4 0 ++ data ++
    (match ce with | some (_, _, e, phase) => entryBytes e phase (unitBit d) | none => [])
  | .pathReset old e => beBytes 1 old ++ beBytes 3 0 ++ beBytes 4 e.toNat
  | .disconnect reason seq => beBytes 1 reason ++ beBytes 3 0 ++ beBytes 4 seq.toNat
  | .ack psn ts sack ce rx =>
    beBytes 4 psn.toNat ++ beBytes 4 ts.toNat ++ beBytes 8 sack.toNat ++ beBytes 2 ce ++ beBytes 2 rx ++ beBytes 4 0
  | .probe => []

/-- A protected frame as it leaves (R89): TS is the clock in ns at transmission. -/
def outFrame (d : Dev) (conn path : Nat) (psn : Word) (txc : Nat) (b : TxBody) : Out :=
  .frame conn path psn txc b
    (headBytes d (txType b) (txBytes d b).length path conn psn txc (d.clock % 2 ^ 32) ++ txBytes d b)

/-- An UNKNOWN_CONN (R107): PSN, TXC and TS are zero. -/
def outUnknown (d : Dev) (port : Nat) (src : Source) (conn path reason : Nat) (psn : Word) : Out :=
  .unknownConn port src conn path reason psn
    (headBytes d .unknownConn 8 path conn 0 0 0 ++ beBytes 1 reason ++ beBytes 3 0 ++ beBytes 4 psn.toNat)

/-! ## Set-up (R112, R114, R115, R117) -/

/-- Body bytes 0 to 159 of a CONNECT_REQ (R112). -/
def reqBytes (r : ConnectReq) : List Byte :=
  beBytes 4 r.credId ++ [r.curve] ++ beBytes 1 r.npath ++ beBytes 1 r.sqLog ++ beBytes 1 r.cqLog ++ beBytes 2 r.clientPort ++
  beBytes 2 r.clientUdp ++ [r.cflags, r.level] ++ beBytes 2 r.rsvA ++ beBytes 4 r.initSeq.toNat ++ beBytes 4 r.initPsn.toNat ++
  beBytes 4 r.oldWord ++ beBytes 4 r.sqCkey.toNat ++ beBytes 8 r.sqAddr.toNat ++ beBytes 4 r.cqCkey.toNat ++
  beBytes 4 r.rsvB ++ beBytes 8 r.cqAddr.toNat ++ beBytes 8 r.nonce.toNat ++ r.pub

/-- The first 16 bytes of an HMAC-SHA-384, as a number whose most significant byte is the first (R112, R115, R117). -/
def mac16 (key msg : List Byte) : BitVec 128 := (Config.hmac384 key msg >>> (256 : Nat)).setWidth 128

/-- The 32 bytes of an admission key. -/
def keyBytes (k : BitVec 256) : List Byte := beBytes 32 k.toNat

/-- REQ_MAC verifies (R112, R113). -/
def reqMacOk (key : BitVec 256) (head : List Byte) (r : ConnectReq) : Bool := r.mac = mac16 (keyBytes key) (head ++ reqBytes r)

/-- Body bytes 0 to 415 of an accepted CONNECT_RSP (R114). -/
def rspBytes (p : ConnectRsp) : List Byte :=
  beBytes 1 0 ++ beBytes 1 p.npath ++ beBytes 2 p.udpBase ++ beBytes 4 p.initPsn.toNat ++ beBytes 8 p.nonceC.toNat ++
  beBytes 8 p.nonceG.toNat ++ beBytes 4 (match p.twin with | some n => 2 ^ 31 + n % 2 ^ 18 | none => 0) ++ beBytes 4 0 ++
  p.pub ++ beBytes 32 0 ++ p.paths.flatMap fun a => beBytes 16 a.toNat

/-- An accepted CONNECT_RSP as it leaves. -/
def outRsp (src : Source) (conn : Nat) (p : ConnectRsp) : Out :=
  .connectRsp src conn p (p.head ++ rspBytes p ++ beBytes 16 p.confirm.toNat)

/-- A refusal (R117): REJ_MAC is made under the credential's admission key. -/
def outRefused (d : Dev) (src : Source) (key : BitVec 256) (result node : Nat) (nonceC : DWord) : Out :=
  let m := headBytes d .connectRsp 32 0 0 0 0 0 ++ beBytes 1 result ++ beBytes 3 0 ++ beBytes 4 (node % 2 ^ 18) ++
    beBytes 8 nonceC.toNat
  .connectRefused src result node nonceC (m ++ beBytes 16 (mac16 (keyBytes key) m).toNat)

/-- Bytes of an ASCII label. -/
def labelBytes (s : String) : List Byte := s.toList.map fun c => BitVec.ofNat 8 c.toNat

/-- HKDF-Extract and one block of HKDF-Expand of RFC 5869 with SHA-384; no output here is longer than one block (R115). -/
def hkdfExtract (salt ikm : List Byte) : List Byte := beBytes 48 (Config.hmac384 salt ikm).toNat
def hkdfExpand (prk info : List Byte) (n : Nat) : List Byte := (beBytes 48 (Config.hmac384 prk (info ++ [1])).toNat).take n

/-- What both ends derive at set-up (R115): the connection key, CONFIRM_G and CONFIRM_C, from the shared secret and the
transcript. -/
def deriveKeys (admission : BitVec 256) (z transcript : List Byte) : BitVec 256 × BitVec 128 × BitVec 128 :=
  let prk := hkdfExtract (keyBytes admission) z
  let th := beBytes 48 (Config.sha384 transcript).toNat
  let kg := hkdfExpand prk (labelBytes "fenhel confirm g" ++ th) 48
  let kc := hkdfExpand prk (labelBytes "fenhel confirm c" ++ th) 48
  (BitVec.ofNat 256 (beNat (hkdfExpand prk (labelBytes "fenhel conn" ++ th) 32)), mac16 kg th, mac16 kc th)

/-! ## Addresses of the ports, and the next hop of what they send (R84, R114, R553) -/

/-- A port has its link: a data port in use, or the management port. -/
def linked (d : Dev) (p : Nat) : Bool :=
  (p = 16 || portInUse d p) && (match d.net.ports[p]? with | some x => x.link | none => false)

/-- V4_EN and V6_EN of a port's ETH_IP_CFG in use (R553). -/
def v4On (d : Dev) (p : Nat) : Bool := (idVal d (ethBase p + 0x38)).getLsbD 31
def v6On (d : Dev) (p : Nat) : Bool := (idVal d (ethBase p + 0x38)).getLsbD 30

/-- A port's IPv4 and IPv6 addresses in use, and their gateways (R553). -/
def ip4Of (d : Dev) (p : Nat) : BitVec 32 := idVal d (ethBase p + 0x30)
def gw4Of (d : Dev) (p : Nat) : BitVec 32 := idVal d (ethBase p + 0x34)
def ip6At (d : Dev) (a : Nat) : BitVec 128 :=
  BitVec.ofNat 128 ((((idVal d a).toNat * 2 ^ 32 + (idVal d (a + 4)).toNat) * 2 ^ 32 + (idVal d (a + 8)).toNat) * 2 ^ 32 +
    (idVal d (a + 12)).toNat)
def ip6Of (d : Dev) (p : Nat) : BitVec 128 := ip6At d (ethBase p + 0x40)
def gw6Of (d : Dev) (p : Nat) : BitVec 128 := ip6At d (ethBase p + 0x50)
def macOf (d : Dev) (p : Nat) : BitVec 48 :=
  BitVec.ofNat 48 ((idVal d (ethBase p + 0x20)).toNat % 65536 * 2 ^ 32 + (idVal d (ethBase p + 0x24)).toNat)

/-- An IPv4 address as an IPv4-mapped IPv6 address (R114). -/
def mapped4 (a : BitVec 32) : BitVec 128 := BitVec.ofNat 128 (0xFFFF * 2 ^ 32 + a.toNat)

/-- Two addresses of `w` bits share their first `n` bits. -/
def samePrefix {w : Nat} (a b : BitVec w) (n : Nat) : Bool := (a >>> (w - min n w)) = (b >>> (w - min n w))

/-- An IPv4 address and an IPv6 address are on a port's link (R84). -/
def onLink4 (d : Dev) (p : Nat) (ip : BitVec 32) : Bool := samePrefix ip (ip4Of d p) (wbits (idVal d (ethBase p + 0x38)) 21 16)
def onLink6 (d : Dev) (p : Nat) (ip : BitVec 128) : Bool := samePrefix ip (ip6Of d p) (wbits (idVal d (ethBase p + 0x38)) 7 0)

/-- The request by ARP or Neighbor Discovery that sending to an address calls for: none where the link address of the destination,
or off the link of the port's gateway, is known (R84). -/
def askHop (d : Dev) (p : Nat) (ip : BitVec 128) : List Out :=
  let known (a : BitVec 128) : Bool :=
    match d.net.ports[p]? with | some x => x.resolved.any fun r => r.1 = a | none => false
  if ip >>> (32 : Nat) = 0xFFFF then
    let a : BitVec 32 := ip.setWidth 32
    let hop := if onLink4 d p a then a else gw4Of d p
    if known (mapped4 hop) then [] else [.arpRequest p hop]
  else
    let hop := if onLink6 d p ip then ip else gw6Of d p
    if known hop then [] else [.neighborSol p hop]

/-- Send something to an address, after the request for its link address if that is not known (R84). -/
def emitTo (d : Dev) (p : Nat) (ip : BitVec 128) (o : Out) : Dev := { d with sent := o :: (askHop d p ip ++ d.sent) }

end Sys2Proof.Machine
end

