-- ==== Sys2Proof/Machine/Walk.lean ====
section
/-! DEFINITION. The persistent space's layout, the records of its tables as bytes of memory, the walk from a handle to a
region, the handle caches and the protection checks (R52 to R78). -/
namespace Sys2Proof.Machine

/-- 4 GiB, the size of the control area (R52). -/
def ctlSize : Nat := 4294967296

/-- C and T (R52). -/
def ctlBase (f : Folds) : Nat := f.s - ctlSize
def rtaBase (f : Folds) : Nat := ctlBase f - f.rta

/-- An extent lies inside the region-table area (R63). -/
def inRta (f : Folds) (a n : Nat) : Bool := decide (rtaBase f ≤ a) && decide (a + n ≤ ctlBase f)

/-- A fold record (R57). -/
structure FoldRec where
  dirBase  : Nat
  dirLenM1 : Nat
  state    : Nat
  gen      : Word
  prevBase : Nat
  prevLenM1 : Nat
  prevGen  : Word
  listPa   : Nat
  listCount : Nat
deriving DecidableEq, Repr

/-- A directory entry (R59). -/
structure DirEntry where
  page    : Nat
  countM1 : Nat
  flags   : Nat
  rsv     : Nat
deriving DecidableEq, Repr

/-- A region descriptor (R60). -/
structure RegDesc where
  base    : Nat
  len     : Nat
  gen     : Word
  owner   : Nat
  ty      : Nat
  perm    : Nat
  keySlot : Nat
  flags   : Nat
  tFold   : Nat
  tHandle : Word
  rsv     : Nat
deriving DecidableEq, Repr

/-- Where the record of a fold sits (R57). -/
def foldPa (f : Folds) (n : Nat) : Nat := rtaBase f + n * 64

def readFold (m : Mem) (pa : Nat) : FoldRec :=
  { dirBase := readLE m pa 8, dirLenM1 := readLE m (pa + 8) 2, state := readLE m (pa + 10) 1,
    gen := BitVec.ofNat 32 (readLE m (pa + 12) 4), prevBase := readLE m (pa + 16) 8,
    prevLenM1 := readLE m (pa + 24) 2, prevGen := BitVec.ofNat 32 (readLE m (pa + 28) 4),
    listPa := readLE m (pa + 32) 8, listCount := readLE m (pa + 40) 4 }

/-- The 64 bytes of a fold record (R57). -/
def foldBytes (r : FoldRec) : List Byte :=
  leBytes 8 r.dirBase ++ leBytes 2 r.dirLenM1 ++ leBytes 1 r.state ++ leBytes 1 0 ++ leBytes 4 r.gen.toNat ++
  leBytes 8 r.prevBase ++ leBytes 2 r.prevLenM1 ++ leBytes 2 0 ++ leBytes 4 r.prevGen.toNat ++ leBytes 8 r.listPa ++
  leBytes 4 r.listCount ++ leBytes 20 0

def readDir (m : Mem) (pa : Nat) : DirEntry :=
  { page := readLE m pa 8, countM1 := readLE m (pa + 8) 2, flags := readLE m (pa + 10) 1, rsv := readLE m (pa + 11) 5 }

/-- The 16 bytes of a valid directory entry (R59). -/
def dirBytes (page countM1 : Nat) : List Byte := leBytes 8 page ++ leBytes 2 countM1 ++ leBytes 1 1 ++ leBytes 5 0

def readDesc (m : Mem) (pa : Nat) : RegDesc :=
  { base := readLE m pa 8, len := readLE m (pa + 8) 8, gen := BitVec.ofNat 32 (readLE m (pa + 16) 4),
    owner := readLE m (pa + 20) 2, ty := readLE m (pa + 22) 1, perm := readLE m (pa + 23) 1,
    keySlot := readLE m (pa + 24) 2, flags := readLE m (pa + 26) 2, tFold := readLE m (pa + 28) 2,
    tHandle := BitVec.ofNat 32 (readLE m (pa + 32) 4), rsv := readLE m (pa + 30) 2 + readLE m (pa + 36) 28 }

/-- The 64 bytes of a descriptor (R60). -/
def regDescBytes (x : RegDesc) : List Byte :=
  leBytes 8 x.base ++ leBytes 8 x.len ++ leBytes 4 x.gen.toNat ++ leBytes 2 x.owner ++ leBytes 1 x.ty ++
  leBytes 1 x.perm ++ leBytes 2 x.keySlot ++ leBytes 2 x.flags ++ leBytes 2 x.tFold ++ leBytes 2 0 ++
  leBytes 4 x.tHandle.toNat ++ leBytes 28 0

def regDescOfBytes (bs : List Byte) : RegDesc :=
  let at_ (i n : Nat) : Nat := leNat ((bs.drop i).take n)
  { base := at_ 0 8, len := at_ 8 8, gen := BitVec.ofNat 32 (at_ 16 4), owner := at_ 20 2, ty := at_ 22 1,
    perm := at_ 23 1, keySlot := at_ 24 2, flags := at_ 26 2, tFold := at_ 28 2, tHandle := BitVec.ofNat 32 (at_ 32 4),
    rsv := at_ 30 2 + at_ 36 28 }

/-- Flags of a descriptor (R60). -/
def RegDesc.immutable (x : RegDesc) : Bool := x.flags % 2 = 1
def RegDesc.cow (x : RegDesc) : Bool := x.flags / 2 % 2 = 1
def RegDesc.isLog (x : RegDesc) : Bool := x.flags / 4 % 2 = 1
def RegDesc.noGrant (x : RegDesc) : Bool := x.flags / 8 % 2 = 1

/-- A valid directory entry is malformed (R59, R61). -/
def dirMalformed (e : DirEntry) : Bool := e.flags ≠ 1 || e.rsv ≠ 0 || e.page % 64 ≠ 0

/-- A present descriptor is malformed in fold `f` (R60, R61). For a grant, R61 lists no rule on PERM, nor on the columns that R60
shows as zero: the model counts a PERM other than 0x01 and 0x03, and such a column that is not zero, as malformed (DESIGN
CHOICE, assumption 44). -/
def descMalformed (x : RegDesc) (f : Nat) : Bool :=
  x.owner ≠ f || x.rsv ≠ 0 ||
  (match x.ty with
   | 1 => x.base % 4096 ≠ 0 || decide (2 ^ 49 ≤ x.base) || x.len = 0 || x.len % 64 ≠ 0 || decide (2 ^ 49 ≤ x.len) ||
          decide (4 ≤ x.perm) || decide (4096 ≤ x.keySlot) || decide (16 ≤ x.flags) || x.tFold ≠ 0 || x.tHandle ≠ 0
   | 2 => x.base ≠ 0 || x.len ≠ 0 || x.keySlot ≠ 0 || x.flags ≠ 0 || (x.perm ≠ 1 && x.perm ≠ 3)
   | _ => true)

/-- Why a walk failed: not present, grant target missing, malformed (0x0804) or an extent outside its area (0x0301) with
the address and the place of the entry that named it (R64, R71). -/
inductive WalkFail where
  | absent
  | target
  | malformed (pa : Nat)
  | extent (addr pa : Nat)
deriving DecidableEq, Repr

/-- The directory of a generation of a fold: the current one for GEN, the previous one for PREV_GEN (R64). -/
def dirOf (r : FoldRec) (g : Word) : Nat × Nat :=
  if g = r.gen then (r.dirBase, r.dirLenM1) else if g = r.prevGen then (r.prevBase, r.prevLenM1) else (0, 0)

/-- Where the descriptor of a handle sits, under a generation of the fold (R64). -/
def descPlace (d : Dev) (f : Nat) (h : Word) (g : Word) : Except WalkFail Nat :=
  let fs := d.folds
  let m := d.mem
  let fpa := foldPa fs f
  let r := readFold m fpa
  if r.state = 0 ∨ r.state = 2 then .error .absent
  else if r.state ≠ 1 then .error (.malformed fpa)
  else
    let dir := dirOf r g
    if dir.1 = 0 then .error .absent
    else if !inRta fs dir.1 ((dir.2 + 1) * 16) then .error (.extent dir.1 fpa)
    else
      let i := wbits h 31 16
      let j := wbits h 15 0
      if dir.2 < i then .error .absent
      else
        let epa := dir.1 + i * 16
        let e := readDir m epa
        if e.flags % 2 = 0 then .error .absent
        else if dirMalformed e then .error (.malformed epa)
        else if !inRta fs e.page ((e.countM1 + 1) * 64) then .error (.extent e.page epa)
        else if e.countM1 < j then .error .absent
        else .ok (e.page + j * 64)

/-- One level of the walk: the descriptor of a handle and where it sits (R64). -/
def walkOne (d : Dev) (f : Nat) (h : Word) (g : Word) : Except WalkFail (Nat × RegDesc) :=
  match descPlace d f h g with
  | .error e => .error e
  | .ok pa =>
    let x := readDesc d.mem pa
    if x.ty = 0 then .error .absent
    else if descMalformed x f then .error (.malformed pa)
    else .ok (pa, x)

/-- The current generation of a fold. -/
def genOf (d : Dev) (f : Nat) : Word := (readFold d.mem (foldPa d.folds f)).gen

/-- The generation that a walk uses in a fold: the carried one, else the current one (R64, R76). -/
def genUsed (d : Dev) (carried : List (Nat × Word)) (f : Nat) : Word := (getKey carried f).getD (genOf d f)

/-- The whole walk without the cache (R64, R66). A grant is followed for one level; a grant of a grant is malformed
(R61); any other failure of the target's walk is a missing target, and a damaged table is reported as well. -/
def walk (d : Dev) (carried : List (Nat × Word)) (f : Nat) (h : Word) : Except (List WalkFail) Trans :=
  let g := genUsed d carried f
  match walkOne d f h g with
  | .error e => .error [e]
  | .ok (pa, x) =>
    if x.ty = 2 then
      let tg := genUsed d carried x.tFold
      match walkOne d x.tFold x.tHandle tg with
      | .error .absent => .error [.target]
      | .error e => .error [.target, e]
      | .ok (tpa, t) =>
        if t.ty = 2 then .error [.malformed pa]
        else if rtaBase d.folds < t.base + t.len then .error [.extent t.base tpa]
        else
          .ok { fold := f, handle := h, owner := t.owner, base := t.base, len := t.len,
                rights := (if x.perm % 2 = 1 ∧ t.perm % 2 = 1 then 1 else 0) +
                  (if x.perm / 2 % 2 = 1 ∧ t.perm / 2 % 2 = 1 then 2 else 0),
                immutable := t.immutable, cow := t.cow, isLog := t.isLog, keySlot := t.keySlot, granted := true,
                gens := putKey [(f, g)] x.tFold tg }
    else if rtaBase d.folds < x.base + x.len then .error [.extent x.base pa]
    else
      .ok { fold := f, handle := h, owner := x.owner, base := x.base, len := x.len, rights := x.perm,
            immutable := x.immutable, cow := x.cow, isLog := x.isLog, keySlot := x.keySlot, granted := false,
            gens := [(f, g)] }

/-- A cached translation hits when every generation of its walk is the fold's current one (R36, R67). -/
def fresh (d : Dev) (t : Trans) : Bool := t.gens.all fun p => p.2 = genOf d p.1

/-- The set of a handle cache that a translation lies in (R67). -/
def cacheSet (t : Trans) : Nat := Config.handleSet t.fold t.handle.toNat % 2048

/-- Install a translation: 8 ways a set, the least recently used one leaves (R67). -/
def installTrans (d : Dev) (g : Nat) (t : Trans) : Dev :=
  let old := ((getKey d.folds.caches g).getD []).filter fun x => !(x.fold = t.fold && x.handle = t.handle)
  let same := old.filter fun x => cacheSet x = cacheSet t
  let new := t :: (if same.length < 8 then old
    else match same.getLast? with | some v => old.filter (fun x => x ≠ v) | none => old)
  d.modFolds fun f => { f with caches := putKey f.caches g new }

/-- Drop every cached translation of a fold in all galleries, at a GEN wrap (R78). -/
def dropFoldCache (d : Dev) (f : Nat) : Dev :=
  d.modFolds fun x => { x with caches := x.caches.map fun c => (c.1, c.2.filter fun t => !(t.gens.any fun p => p.1 = f)) }

/-- The events of a failed walk (R71, R72): 0x0301 and 0x0804 to the operator, 0x0803 to the grantee's fold. -/
def walkEvents (d : Dev) (conn f : Nat) (x : Desc) (h : Word) (off : DWord) (es : List WalkFail) : Dev :=
  es.foldl (fun a e =>
    match e with
    | .absent => a
    | .target => raiseFolds a 0x0803 srcRMA (accessPayload f conn h x.opcode off x.length) [f]
    | .malformed pa => raise a 0x0804 srcRMA (addressPayload pa 0x08 pa) []
    | .extent addr pa => raise a 0x0301 srcRMA (addressPayload addr 0x07 pa) []) d

/-- DETAIL of a failed walk (R176): the first failure named. -/
def walkDetail (es : List WalkFail) : Nat :=
  match es with
  | .absent :: _ => 1
  | .target :: _ => 2
  | _ => 3

/-- Translate a handle for an operation: the cache first, when every generation used is current, then the walk (R64). -/
def translate (d : Dev) (conn : Nat) (carried : List (Nat × Word)) (f : Nat) (x : Desc) (h : Word) (off : DWord) :
    Dev × Except Nat Trans :=
  let g := homeOf conn
  let hit := ((getKey d.folds.caches g).getD []).find? fun t =>
    t.fold = f && t.handle = h && fresh d t && t.gens.all fun p => genUsed d carried p.1 = p.2
  match hit with
  | some t => (installTrans d g t, .ok t)
  | none =>
    match walk d carried f h with
    | .ok t => (if fresh d t then installTrans d g t else d, .ok t)
    | .error es => (walkEvents d conn f x h off es, .error (walkDetail es))

/-- A key slot is LOADED (R394). -/
def slotLoaded (d : Dev) (k : Nat) : Bool := match getKey d.sec.slots k with | some (_, l) => l | none => false

/-- Rights that an operation needs on HANDLE, and on HANDLE2 of a COPY (R65): bit 0 RD, bit 1 WR. -/
def rightsNeeded (o : Opcode) (second : Bool) : Nat :=
  match o with
  | .read | .snapshot | .clone => 1
  | .write | .writeZero | .logAppend => 2
  | .cas | .fetchAdd | .swap => 3
  | .copy => if second then 2 else 1
  | _ => 0

/-- The bits of `need` are all in `have`. -/
def hasRights (rights need : Nat) : Bool :=
  (need % 2 = 0 || rights % 2 = 1) && (need / 2 % 2 = 0 || rights / 2 % 2 = 1)

/-- A protection event to the owner's ring and the accessing fold's, one when they are the same, counted in
RMA_VIOL_CNT (R71, R72). -/
def violation (d : Dev) (code conn f owner : Nat) (x : Desc) (h : Word) (off : DWord) : Dev :=
  bump (raiseFolds d code srcRMA (accessPayload f conn h x.opcode off x.length)
    (if owner = f then [owner] else [owner, f])) 0x400020 1

/-- The permission, span and key checks of a translated handle, in that order (R64, R65, R69, R395). `spanned` is false
where the operation names no span of the region. -/
def authorize (d : Dev) (conn f : Nat) (x : Desc) (t : Trans) (second : Bool) (h : Word) (off : DWord) (spanned : Bool) :
    Dev × Option (Status × Nat) :=
  let need := rightsNeeded x.op second
  if !hasRights t.rights need then
    (violation d 0x0802 conn f t.owner x h off, some (.accessViolation, handleDetail second 1))
  else if need / 2 % 2 = 1 && t.immutable then
    (violation d 0x0802 conn f t.owner x h off, some (.accessViolation, handleDetail second 2))
  else if spanned && decide (t.len < off.toNat + x.length.toNat) then
    (violation d 0x0801 conn f t.owner x h off, some (.bounds, handleDetail second 1))
  else if !slotLoaded d t.keySlot then
    (raiseOp d 0x0308 srcSEC [f, h.toNat, t.keySlot], some (.keyInvalid, t.keySlot + (if second then 4096 else 0)))
  else (d, none)

end Sys2Proof.Machine
end

