-- ==== Sys2Proof/Machine/Slices.lean ====
section
/-! DEFINITION. The hall cache slices: home slices, ways and eviction, the victim cache, and what an access of a line leaves in
its home slice (R30, R46, R362 to R369). -/
namespace Sys2Proof.Machine

/-! ## The mirror hold (R158) -/

/-- The standby has acknowledged a stamp: PEER_STAMP covers it, and a COPY or WRITE_ZERO has its FIN (R217). -/
def covered (d : Dev) (st : Stamp) : Bool := decide (st ≤ d.twin.peerStamp) && !d.twin.finWait.contains st

/-- A line stands under the mirror hold (R158). -/
def mirrorHeld (d : Dev) (line : Nat) : Bool :=
  d.twin.st = .active && (match getKey d.twin.lineStamps line with | some st => !covered d st | none => false)

/-! ## Parts -/

def modSlice (d : Dev) (s : Nat) (f : Slice → Slice) : Dev := d.modHall fun h => { h with slices := modAt h.slices s f }
def modPen (d : Dev) (p : Nat) (f : Pen → Pen) : Dev := d.modHall fun h => { h with pens := modAt h.pens p f }

/-- The home slice of a line (R30): each run of 16 consecutive lines spreads over all 16 slices. -/
def sliceOf (line : Nat) : Nat := (line + Config.homeTurn (line / 16)) % 16

/-- HAL_CTRL.EN and VIC_EN (R384). -/
def halEn (d : Dev) : Bool := (reg d 0x100000).getLsbD 31
def vicEn (d : Dev) : Bool := (reg d 0x100000).getLsbD 30

/-- The 64 bytes of a line, as a number with byte 0 lowest. -/
def lineBytes (v : BitVec 512) : List Byte := leBytes 64 v.toNat

/-- A line's check (R284). -/
def checkOf (line : Nat) (v : BitVec 512) : Word := lineCheck (line * 64) (lineBytes v)

/-- Lines that a pen may hold: those of the control area and of the working structures outside the persistent space (R364). -/
def penMayHold (d : Dev) (line : Nat) : Bool := !d.folds.formatted || decide (ctlBase d.folds ≤ line * 64)

/-- A line in its DRAM frame. -/
def frameOf (h : Hall) (line : Nat) : BitVec 512 := (getKey h.frames line).getD 0

/-- A pinned line (R368): a commit group holds it, an atomic executes on it, or its last change is not covered by PEER_STAMP. -/
def pinned (d : Dev) (line : Nat) : Bool :=
  mirrorHeld d line || d.net.ops.any fun o =>
    o.lines.contains line && (o.group.isSome || o.desc.op = .cas || o.desc.op = .fetchAdd || o.desc.op = .swap)

/-- A line of a slice. -/
def findLine (u : Slice) (line : Nat) : Option SliceLine := u.lines.find? fun x => x.line = line

/-- Change a slice's line and make it the most recently used. -/
def touchLine (u : Slice) (e : SliceLine) : Slice := { u with lines := e :: u.lines.filter fun x => x.line ≠ e.line }

/-- Pens of a presence vector. -/
def holders (e : SliceLine) : List Nat := (List.range 16).filter fun p => e.presence.getLsbD p

/-! ## Eviction from a slice and the victim cache (R365, R368, R369) -/

/-- The ways of a line's set in use. -/
def sameSet (u : Slice) (line : Nat) : List SliceLine :=
  u.lines.filter fun x => Config.sliceSet x.line % 8192 = Config.sliceSet line % 8192

/-- The way that a fill of a full set evicts: the least recently used unpinned one, else the least recently used. -/
def victimWay (d : Dev) (u : Slice) (line : Nat) : Option SliceLine :=
  let ways := (sameSet u line).reverse
  match ways.find? fun x => !pinned d x.line with
  | some x => some x
  | none => ways.head?

/-- Room in a victim cache of 2,048: a free entry, or the oldest one that may be overwritten. -/
def victimRoom (d : Dev) (u : Slice) : Option (List Victim) :=
  if u.victim.length < 2048 then some u.victim
  else
    match u.victim.find? fun v => !v.wb && !v.entry.modified && !pinned d v.entry.line with
    | some v => some (u.victim.filter fun x => x.entry.line ≠ v.entry.line)
    | none => none

/-- Write a line's data to its frame. -/
def toFrame (d : Dev) (line : Nat) (v : BitVec 512) : Dev := d.modHall fun h => { h with frames := putKey h.frames line v }

/-- Evict a line that no pen holds; none while no victim entry can be overwritten. -/
def evictLine (d : Dev) (s : Nat) (u : Slice) (e : SliceLine) : Option Dev :=
  let out (f : Slice → Slice) : Dev := modSlice d s fun v => f { v with lines := v.lines.filter fun x => x.line ≠ e.line }
  if !vicEn d then some (if e.modified then toFrame (out fun v => v) e.line e.data else out fun v => v)
  else
    (victimRoom d u).map fun vs => out fun v => { v with victim := vs ++ [{ entry := e, wb := e.modified }] }

/-! ## What an operation does at a line's home slice (R30, R44 to R46) -/

/-- The bytes of a line of the persistent space as they stand. -/
def lineValue (d : Dev) (line : Nat) : BitVec 512 := BitVec.ofNat 512 (readLE d.mem (line * 64) 64)

/-- Room for a line in its set: a way is free, or the one to evict is held by no pen and takes part in no transaction. A fill that
finds none leaves the line below the slice. -/
def makeRoom (d : Dev) (s : Nat) (u : Slice) (line : Nat) : Option Dev :=
  if (findLine u line).isSome || decide ((sameSet u line).length < 12) then some d
  else
    match victimWay d u line with
    | some e => if (holders e).isEmpty && !(u.txns.any fun t => t.line = e.line) then evictLine d s u e else none
    | none => none

/-- A write-back in flight of a line that is recalled completes (R369). -/
def landRecall (d : Dev) (u : Slice) (line : Nat) : Dev :=
  match u.victim.find? fun x => x.entry.line = line && x.wb with
  | some x => toFrame d line x.entry.data
  | none => d

/-- An access of the line at its home slice while the hall cache is enabled: a read fills it, a change leaves it modified with a
new line check (R30, R46); a copy in the victim cache is recalled (R369). -/
def useLine (modified : Bool) (d : Dev) (line : Nat) : Dev :=
  if !halEn d then d
  else
    let s := sliceOf line
    match d.hall.slices[s]? with
    | none => d
    | some u =>
      match makeRoom d s u line with
      | none => d
      | some d1 =>
        let v := lineValue d line
        modSlice (landRecall d1 u line) s fun w =>
          let old := (findLine w line).getD
            (match w.victim.find? fun x => x.entry.line = line with
             | some x => x.entry
             | none => { line := line, data := v, check := 0, poison := false, modified := false, presence := 0, owner := none })
          touchLine { w with victim := w.victim.filter fun x => x.entry.line ≠ line }
            { old with data := v, check := checkOf line v, poison := d.dur.poison.contains line,
                       modified := old.modified || modified }

/-- A slice's copy of a line that is not used follows the line's contents and its poison. -/
def followLine (d : Dev) (line : Nat) : Dev :=
  modSlice d (sliceOf line) fun w =>
    { w with lines := w.lines.map fun e => if e.line = line then
        { e with data := lineValue d line, check := checkOf line (lineValue d line), poison := d.dur.poison.contains line } else e }

end Sys2Proof.Machine
end

