-- ==== Sys2Proof/Machine/Stream.lean ====
section
/-! DEFINITION. Order stamps, the order stream's sending side, the dirty lines and their budget, and the one operation by
which a stamped change reaches the persistent memory (R156, R207 to R217, R252, R261). -/
namespace Sys2Proof.Machine

/-! ## Dirty lines and the budget -/

/-- Lines reserved: those of the operations admitted and those of commands (R261, R262). -/
def reservedLines (d : Dev) : Nat :=
  d.net.ops.foldl (fun n o => n + (match o.admitted with | some l => l.length | none => 0)) 0

/-- A reservation of `n` more lines is admitted: D + reservations + its own ≤ B (R261). -/
def fits (d : Dev) (n : Nat) : Bool := decide ((d.dur.dirty.length + reservedLines d + n) * 64 ≤ d.dur.budget)

/-- Both image slots hold live images: nothing that needs budget is admitted and no TXC mark rises (R274). -/
def slotsFull (d : Dev) : Bool := d.dur.slots.all fun s => s.st = .live || s.st = .draining

/-- The dirty budget admits `n` lines now; nothing is admitted while the pair refuses mutation (R209). -/
def admits (d : Dev) (n : Nat) : Bool := fits d n && !slotsFull d && !d.twin.refusing

/-! ## Families (R197, R307) -/

/-- The version of a leaf's contents that a member holds; `o` is the leaf's number from the region's base. -/
def leafVer (m : FamMember) (o : Nat) : Nat := (getKey m.own o).getD m.dflt

/-- The member of a family whose region covers a leaf, with the leaf's number in it. -/
def memberAt (f : Family) (leaf : Nat) : Option (FamMember × Nat) :=
  match f.members.find? (fun m => decide (m.base ≤ leaf * 4096) && decide (leaf * 4096 < m.base + f.len)) with
  | some m => some (m, leaf - m.base / 4096)
  | none => none

/-- The leaves at which the other members of the leaf's family hold the same contents. -/
def sharers (fams : List Family) (leaf : Nat) : List Nat :=
  fams.flatMap fun f =>
    match memberAt f leaf with
    | none => []
    | some (m, o) =>
      (f.members.filter fun x => x.base ≠ m.base && leafVer x o = leafVer m o).map fun x => x.base / 4096 + o

/-- A leaf is shared (R197). -/
def leafShared (d : Dev) (leaf : Nat) : Bool := !(sharers d.folds.families leaf).isEmpty

/-- The leaves of a line list that a change must copy first. -/
def cowLeaves (d : Dev) (lines : List Nat) : List Nat := (leavesOf lines).filter (leafShared d)

/-- Where a leaf's contents lie in flash: its own entry, or the entry of a region that shares it (R307). -/
def resolveLoc (d : Dev) (leaf : Nat) : Option Nat :=
  match getKey d.ftl.map leaf with
  | some l => some l
  | none => (sharers d.folds.families leaf).findSome? (getKey d.ftl.map)

/-- The regions that go on sharing a leaf take its location before it changes (R308). -/
def keepLoc (d : Dev) (leaf : Nat) : Dev :=
  match resolveLoc d leaf with
  | some loc => d.modFtl fun f =>
      { f with map := (sharers d.folds.families leaf).foldl (fun m l => if (getKey m l).isSome then m else putKey m l loc) f.map }
  | none => d

/-- Leaf of the control area at an offset; where the items of a connection, of a log's TAIL and of a family lie (R133, R189,
R307). -/
def ctlLeaf (f : Folds) (off : Nat) : Nat := (ctlBase f + off) / 4096
def contextOff (n : Nat) : Nat := 0x80000000 + n * 256
def tailOff (base : Nat) : Nat := 0xA8000000 + base / 4096 % 16777216 * 8
def familyOff (base : Nat) : Nat := 0xB0000000 + base / 4096 % 1048576 * 64

/-- The leaves that hold the families of a leaf. -/
def familyLeaves (d : Dev) (leaf : Nat) : List Nat :=
  d.folds.families.filterMap fun f =>
    if (memberAt f leaf).isSome then f.members.head?.map fun m => ctlLeaf d.folds (familyOff m.base) else none

/-- Give the changing region its own copy of a shared leaf: the copy's 64 lines are new dirty lines, and the dirty lines
of the shared leaf go on counting once, under a leaf that still shares it (R197, R252). -/
def ownLeaf (d : Dev) (leaf : Nat) : Dev :=
  match sharers d.folds.families leaf with
  | [] => d
  | s :: _ =>
    let mine := List.range' (leaf * 64) 64
    let moved := (d.dur.dirty.filter fun l => mine.contains l).map fun l => l - leaf * 64 + s * 64
    let d1 := (keepLoc d leaf).modFolds fun f =>
      { f with
        nextVer := f.nextVer + 1,
        families := f.families.map fun fam =>
          match memberAt fam leaf with
          | none => fam
          | some (m, o) =>
            { fam with members := fam.members.map fun x =>
                if x.base = m.base then { x with own := putKey x.own o f.nextVer } else x } }
    d1.modDur fun u => { u with dirty := addNums (addNums u.dirty moved) mine }

/-! ## Stamps -/

/-- The epoch in which no stamp is issued, and the epoch of the warning (R209). -/
def lastEpoch : Nat := 2 ^ 24 - 1
def warnEpoch : Nat := 2 ^ 24 - 2 ^ 12

/-- The stamp that follows another (R208). -/
def succStamp (s : Stamp) : Stamp :=
  if stampCount s + 1 = 2 ^ 40 - 2 ^ 20 then mkStamp (stampSeed s) (stampEpoch s + 1) 0 else s + 1

/-- The next stamp: the one that a takeover or a reseed sets, else the successor of the last (R208). -/
def nextStamp (t : Twin) : Stamp := match t.nextAt with | some s => s | none => succStamp t.lastStamp

/-- The unit serves under a lease: it holds a pair identity and no override is in force (R204). -/
def leased (d : Dev) : Bool := d.twin.ident.isSome && !d.twin.override

/-- A standby or a joiner takes the stream (R217, R242). -/
def streaming (d : Dev) : Bool := d.twin.st = .active || (d.twin.st = .unpaired && d.twin.resyncing)

/-- A stamped record of `n` bytes more keeps those not yet covered by PEER_STAMP at 65,536 records and 64 MiB (R217). -/
def streamRoom (t : Twin) (n : Nat) : Bool :=
  decide (t.outstanding.length < 65536) && decide (t.outstanding.foldl (fun k p => k + p.2) 0 + n ≤ 67108864)

/-- A swap past its drain, a reseed whose generation is not yet agreed, and a unit that gives its role to the twin with the
higher stamp issue no stamp (R210, R239, R244). -/
def stampPaused (t : Twin) : Bool :=
  t.phase = .swapRelease || t.phase = .swapHandover || t.phase = .reseedHello || t.phase = .yieldRelease

/-- The order sequencer may issue a stamp for a record of `n` bytes now (R209, R217, R234, R266). -/
def canStampFor (d : Dev) (n : Nat) : Bool :=
  let st := nextStamp d.twin
  serving d && !d.twin.refusing && !d.upd.paused && d.dur.save = .idle && !stampPaused d.twin &&
  decide (stampEpoch st < lastEpoch) && (!streaming d || streamRoom d.twin n) &&
  (!leased d || d.twin.nextAt.isSome || stampEpoch st = stampEpoch d.twin.lastStamp || decide (stampEpoch st ≤ d.twin.ceil))

/-- The order sequencer may issue a stamp for a CTRL record now; its image is counted as 64 bytes. -/
def canStamp (d : Dev) : Bool := canStampFor d 80

/-- Mark the unit DIRTY in the ledger's state ring before its first change of the persistent space (R472). -/
def markDirty (d : Dev) : Dev := if d.ldg.dirty then d else (stateEntry 4 [1] d).modLdg fun l => { l with dirty := true }

/-- When the next stamp would enter epoch 2^24 - 1, mutation is refused from then on (R209). -/
def refuseAtLimit (d : Dev) : Dev :=
  if serving d && !d.twin.refusing && decide (lastEpoch ≤ stampEpoch (nextStamp d.twin)) then
    raiseOp (d.modTwin fun t => { t with refusing := true }) 0x040B srcTWN [stampEpoch d.twin.lastStamp]
  else d

/-- Issue the next stamp (R208): the warning of R209 comes when the epoch first reaches 2^24 - 2^12. -/
def takeStamp (d : Dev) : Stamp × Dev :=
  let n := nextStamp d.twin
  let d1 := (markDirty d).modTwin fun t => { t with lastStamp := n, nextAt := none }
  let d2 := if decide (warnEpoch ≤ stampEpoch n) && decide (stampEpoch d.twin.lastStamp < warnEpoch) then
      raiseOp d1 0x040B srcTWN [stampEpoch n] else d1
  (n, refuseAtLimit d2)

/-! ## The order stream -/

/-- The PEER_STAMP field of a frame that this unit sends (R212): from the serving unit the highest it has received, from a
standby or joiner the stamp up to which it has applied every record, held below a failing one (R220). -/
def ownPeer (d : Dev) : Stamp :=
  if serving d then d.twin.peerStamp
  else d.twin.repairs.foldl (fun n r => min n (r.2 - 1)) d.twin.lastStamp

/-- Body bytes of a record (R214 to R216). The spec gives a CTRL image no length, and a LEAF of the control area no layout of
its items: an image counts as 64 bytes, an item as none. -/
def bodyBytes (r : Rec) : Nat :=
  match r with
  | .op _ _ _ m => 80 + m.data.length
  | .group _ _ _ ms => 8 + ms.foldl (fun n m => n + 76 + m.data.length) 0
  | .ctrl _ _ => 64
  | .ended _ _ _ => 32
  | .index _ _ _ _ _ => 16
  | .rdata _ _ _ _ _ dat => 8 + dat.length
  | .level sts => 8 + 8 * sts.length
  | .leaf _ _ _ es _ => 24 + 4096 + 32 * es.length
  | .handover _ | .fin _ | .ready => 0
  | .resyncSet _ ls _ _ => 16 + ceilDiv ls.length 8
  | .regReq _ _ _ | .regRsp _ _ _ _ => 12
  | .repair _ _ | .leave _ => 8
  | .ports _ => 256

/-- Bytes of a record in the stream, header and body. -/
def recBytes (r : Rec) : Nat := 16 + bodyBytes r

/-- STAMP of a record's header (R215): its own, or the last stamp issued before it. -/
def recStamp (d : Dev) (r : Rec) : Stamp :=
  match r with
  | .op st _ _ _ | .group st _ _ _ | .ctrl st _ | .fin st | .repair st _ => st
  | _ => d.twin.lastStamp

/-- A record as one fragment. -/
def wholeRec (d : Dev) (r : Rec) : Frag := { rcd := r, stamp := recStamp d r, off := 0, len := bodyBytes r }

/-- Bytes of records in a frame: 9,216 less the Ethernet header, the FCS, the twin header and the tag (R211, R212). -/
def frameRoom : Nat := 9150

/-- The fragments that fit in the bytes left of a frame, and those that follow: a record that does not fit continues in the next
frame (R214). -/
def packFrame : Nat → List Frag → List Frag × List Frag
  | _, [] => ([], [])
  | room, x :: rest =>
    if 16 + x.len ≤ room then
      let p := packFrame (room - (16 + x.len)) rest
      (x :: p.1, p.2)
    else if room ≤ 16 then ([], x :: rest)
    else
      let n := room - 16
      ([{ x with len := n }], { x with off := x.off + n, len := x.len - n } :: rest)

/-- Send waiting records in RECORDS frames while the link is up, its key is made and the window of 4,096 frames has room (R213). -/
def pumpFrames : Nat → Dev → Dev
  | 0, d => d
  | k + 1, d =>
    if !d.twin.linkUp || d.twin.linkKey.isNone || 4096 ≤ d.twin.txq.length || d.twin.waitq.isEmpty then d
    else
      let p := packFrame frameRoom d.twin.waitq
      let lsn := d.twin.lsnTx
      let d1 := d.modTwin fun t =>
        { t with lsnTx := (t.lsnTx + 1) % 2 ^ 32, txq := t.txq ++ [(lsn, p.1)], waitq := p.2, txc := t.txc + 1 }
      pumpFrames k (emit d1 (.twl lsn d.twin.lsnRx d.twin.txc (ownPeer d) p.1))

/-- Frames that waiting records may take: one for every 9,134 body bytes begun and one for every record. -/
def frameCount (fs : List Frag) : Nat := fs.foldl (fun n x => n + x.len / (frameRoom - 16) + 2) 0

def pumpLink (d : Dev) : Dev := pumpFrames (frameCount d.twin.waitq) d

/-- Send records (R213, R214). -/
def sendRecs (d : Dev) (rs : List Rec) : Dev :=
  pumpLink (d.modTwin fun t => { t with waitq := t.waitq ++ rs.map (wholeRec d) })

/-- Forward a stamped record to the twin and count it against the limit of R217. -/
def forward (d : Dev) (st : Stamp) (r : Rec) : Dev :=
  if streaming d then
    sendRecs (d.modTwin fun t => { t with outstanding := t.outstanding ++ [(st, recBytes r)] }) [r]
  else d

/-- Forward an unstamped record of the serving unit. -/
def tell (d : Dev) (r : Rec) : Dev := if streaming d then sendRecs d [r] else d

/-! ## Changing lines -/

/-- The poison bitmap of a leaf (R215). -/
def poisonBits (d : Dev) (leaf : Nat) : BitVec 64 :=
  (List.range 64).foldl (fun w i => if d.dur.poison.contains (leaf * 64 + i) then w ||| (1#64 <<< i) else w) 0

/-- The LEAF record of a leaf as it stands here (R215, R297). `entries` are the completion entries it carries. -/
def leafRecord (d : Dev) (leaf : Nat) (entries : List (Nat × Entry)) : Rec :=
  .leaf (leaf * 4096) (poisonBits d leaf) (readBytes d.mem (leaf * 4096) 4096) entries []

/-- The location field of a poisoning's event (R501): the flash location for a flash error (checks 5 and 6), else the line's
own address. -/
def poisonLoc (d : Dev) (check l : Nat) : Nat :=
  if check = 5 || check = 6 then (getKey d.ftl.map (l / 64)).getD 0 else l * 64

/-- Lines poisoned by a failed check (R294): they join the poison list, each new one raises 0x0805 with its address and the
check that failed (R298), and while this unit is active it places a LEAF record for each of their leaves in the stream
(R297). -/
def poisonLines (d : Dev) (check : Nat) (ls : List Nat) : Dev :=
  let new := ls.filter fun l => !d.dur.poison.contains l
  let d1 := (d.modDur fun u => { u with poison := addNums u.poison ls }).modTwin fun t =>
    { t with ownBad := if t.st = .standby || t.st = .joining then addNums t.ownBad new else t.ownBad }
  let d2 := new.foldl (fun a l => raise (followLine a l) 0x0805 (.slice (sliceOf l))
    (addressPayload (l * 64) check (poisonLoc d check l)) []) d1
  if d.twin.st = .active then (leavesOf new).foldl (fun a l => tell a (leafRecord a l [])) d2 else d2

/-- Note that leaves changed under a stamp: for the divergence bitmap (R241), and for the common point a pairing ends at. -/
def noteLeaves (d : Dev) (st : Stamp) (leaves : List Nat) : Dev :=
  d.modTwin fun t =>
    { t with
      diverge := if t.diverge.active then { t.diverge with leaves := addNums t.diverge.leaves leaves } else t.diverge,
      leafStamps := if t.ident.isSome then leaves.foldl (fun m l => putKey m l st) t.leafStamps else t.leafStamps }

/-- The lines changed at a stamp stand modified in their home slices (R46), become dirty, stand under the mirror hold while a twin takes the stream (R158, R252), and
are covered neither by a program in progress nor by a live image any longer (R274). -/
def noteLines (d : Dev) (st : Stamp) (lines : List Nat) : Dev :=
  let d1 := (noteLeaves (markDirty d) st (leavesOf lines)).modDur fun u =>
    { u with dirty := addNums u.dirty lines,
             slots := u.slots.map fun s => { s with left := dropNums s.left lines } }
  let d2 := lines.foldl (useLine true)
    (d1.modFtl fun f => { f with progs := f.progs.map fun p => { p with lines := dropNums p.lines lines } })
  if streaming d then
    d2.modTwin fun t => { t with lineStamps := lines.foldl (fun m l => putKey m l st) t.lineStamps }
  else d2

/-- Give changing regions their own copies of shared leaves at a stamp; the families change with them (R197, R241). -/
def ownLeaves (d : Dev) (st : Stamp) (leaves : List Nat) : Dev :=
  leaves.foldl (fun a l => noteLeaves (ownLeaf a l) st (familyLeaves a l)) d

/-- Apply a stamped change of the memory that touches the given lines: leaves that other regions share are copied
first (R197). -/
def changeLines (d : Dev) (st : Stamp) (lines : List Nat) (f : Mem → Mem) : Dev :=
  let d1 := ownLeaves d st (cowLeaves d lines)
  noteLines { d1 with mem := f d1.mem } st lines

/-- Whole-line writes clear the poison of their lines (R166). -/
def clearPoison (d : Dev) (ls : List Nat) : Dev :=
  (ls.filter fun l => d.dur.poison.contains l).foldl followLine (d.modDur fun u => { u with poison := dropNums u.poison ls })

/-! ## What is held -/

/-- Lines changed at a stamp are held at a level now (R160, R162). -/
def heldAt (d : Dev) (l : Level) (st : Option Stamp) (lines : List Nat) : Bool :=
  let twinOk := d.twin.st ≠ .active || (match st with | some s => covered d s | none => true)
  match l with
  | .none | .loc => true
  | .twin => twinOk
  | .media => twinOk && lines.all fun x => !d.dur.dirty.contains x && d.dur.slots.all fun s => !s.left.contains x

/-- The level that an entry of a mutating operation reports, for the connection's level (R161, R162, R225). -/
def reported (d : Dev) (l : Level) : Level :=
  match l with
  | .twin => if paired d then .twin else .loc
  | x => x

/-! ## CTRL records (R215) -/

/-- The lines of the control area, and of the fold record whose drain ends, that a CTRL record changes, for the budget and the dirty
lines (R133, R262). The spec gives
the parts of the area and their sizes; the model places them one after the other from C on. Result stores are not counted:
the spec charges no line to them. -/
def ctlLines (d : Dev) (b : CtrlBody) : List Nat :=
  let at_ (off n : Nat) : List Nat := spanLines (ctlBase d.folds + off) n
  match b with
  | .rma _ => []
  | .rmaDrained f => [foldPa d.folds f / 64]
  | .enrol id _ => at_ (0x90000000 + id % 65536 * 128) 128
  | .credRevoke id => at_ (0x90000000 + id % 65536 * 128) 128
  | .config ws => addNums [] (ws.flatMap fun w => at_ (0xA0100000 + w.1 % 0x100000 / 4 * 4) 4)
  | .connNew n _ => at_ (0x80000000 + n * 256) 256
  | .connChange n _ => at_ (0x80000000 + n * 256) 256
  | .keySlot _ k _ => at_ (0xA0000000 + k * 128) 128
  | .ringBind f _ _ _ _ => at_ (0xA0200000 + f * 64) 64
  | .ringUnbind f => at_ (0xA0200000 + f * 64) 64
  | .foldRl _ => at_ 0xA0600000 64
  | .foldReset f =>
    addNums [] ((d.net.conns.filter fun x => x.2.ident.fold = f &&
      (x.2.state = .active || x.2.state = .armed || x.2.state = .quiescing)).flatMap fun x => at_ (0x80000000 + x.1 * 256) 256)
  | .window _ _ => []

/-- A connection knows the stamp of the record that creates or resumes it: its CONNECT_RSP waits for the twin to apply it (R118). -/
def noteSetup (d : Dev) (st : Stamp) (b : CtrlBody) : Dev :=
  match b with
  | .connNew n _ | .connChange n (.rearm _) => modConn d n fun c => { c with setupSt := some st }
  | _ => d

/-- A CTRL record issued now: its stamp, forwarded to the twin, and the lines it changes (R215). -/
def stampCtrl (d : Dev) (b : CtrlBody) : Stamp × Dev :=
  let p := takeStamp d
  (p.1, noteSetup (noteLines (forward p.2 p.1 (.ctrl p.1 b)) p.1 (ctlLines d b)) p.1 b)

/-- The command reserves budget for the lines it changes (R262): register writes are not among those that do. -/
def reserves (b : CtrlBody) : Bool := match b with | .config _ | .foldRl _ => false | _ => true

/-- A CTRL record may be issued now: the sequencer can stamp, the lines it changes find room, and none waits (R217,
R262). -/
def ctrlReady (d : Dev) (b : CtrlBody) : Bool :=
  canStamp d && d.twin.ctrlDue.isEmpty && (!reserves b || (ctlLines d b).isEmpty || admits d (ctlLines d b).length)

/-- A connection change that a serving unit made takes its place in the stream: at once, or when the sequencer can issue a
stamp again (R217). It reserves no budget, since R262 names commands only. -/
def streamCtrl (d : Dev) (b : CtrlBody) : Dev :=
  if serving d then
    (if canStamp d && d.twin.ctrlDue.isEmpty then (stampCtrl d b).2
     else d.modTwin fun t => { t with ctrlDue := t.ctrlDue ++ [(b, .change)] })
  else d

end Sys2Proof.Machine
end

