-- ==== Sys2Proof/Machine/Capacity.lean ====
section
/-! DEFINITION. Flash geometry and capacity, the spare, and the life percentage (R300 to R306, R326). -/
namespace Sys2Proof.Machine

/-! ## Superblocks and locations (R302, R303) -/

/-- Position of a superblock, and its block number within a plane. -/
def posOf (sb : Nat) : Nat := sb / 2048
def blockOfSb (sb : Nat) : Nat := sb % 2048

/-- Flash channel of a codeword index in a superblock; its plane and its page. -/
def chanOf (sb i : Nat) : Nat := posOf sb / 16 * 8 + i / 16 % 8
def planeOf (i : Nat) : Nat := i / 4 % 4
def pageOf (i : Nat) : Nat := i / 128

/-- Location of a codeword (R303). -/
def locOf (sb i : Nat) : Nat := sb * 2 ^ 19 + i
def sbOfLoc (l : Nat) : Nat := l / 2 ^ 19
def idxOfLoc (l : Nat) : Nat := l % 2 ^ 19

/-- A codeword lies on a die that has gone offline: it reads uncorrectable (R319). -/
def dieGone (f : Ftl) (l : Nat) : Bool := f.offline.contains (chanOf (sbOfLoc l) (idxOfLoc l), posOf (sbOfLoc l) % 16)

/-- A leaf's newest copy lies on such a die: a fill of it fails. UNMAPPED and ZERO name no location (R305). -/
def leafGone (d : Dev) (leaf : Nat) : Bool :=
  match resolveLoc d leaf with | some l => decide (l < 2 ^ 38) && dieGone d.ftl l | none => false

/-! ## Capacity (R300 to R306) -/

/-- Dies in use, positions, and blocks of the population (R301, R302). -/
def diesInUse (f : Ftl) : Nat := f.groups * 8 * f.targets
def positions (f : Ftl) : Nat := f.groups * f.targets
def blocksAll (f : Ftl) : Nat := diesInUse f * f.part.planes * f.part.blocks

/-- Leaf data of a block, and of a superblock (R300, R302). -/
def blockBytes (f : Ftl) : Nat := f.part.pages * 16384
def superBytes (f : Ftl) : Nat := 8 * f.part.planes * blockBytes f

/-- Good raw capacity: every block that is not retired (R304, R319). -/
def goodRaw (f : Ftl) : Nat := (blocksAll f - f.retired.length) * blockBytes f

/-- The presented capacity that FORMAT fixes, for a good raw capacity and a SPARE (R304). -/
def presented (raw spare : Nat) : Nat := min (2 ^ 49) (roundDown (raw * (576 - spare) / 576) ctlSize)

/-- Save area: two slots, each of two superblocks at every position (R304). -/
def saveArea (f : Ftl) : Nat := 4 * superBytes f * positions f

/-- FTL pages and their directory pages and root, of one checkpoint (R306). -/
def ftlPages (s : Nat) : Nat := ceilDiv (s / 4096) 819 + 1024
def ckptPages (s : Nat) : Nat := ftlPages s + ceilDiv (ftlPages s) 819 + ceilDiv (ceilDiv (ftlPages s) 819) 819

/-- Spare left, in bytes (R304); it may fall below zero as blocks retire. -/
def spareLeft (f : Ftl) (s : Nat) : Int :=
  (goodRaw f : Int) - s - saveArea f - 2 * 4096 * ckptPages s

/-- Superblocks of the population, and the quarter with the highest erase counts (R326). -/
def superCount (f : Ftl) : Nat := positions f * f.part.blocks

def insertDown (x : Nat) : List Nat → List Nat
  | [] => [x]
  | y :: t => if y ≤ x then x :: y :: t else y :: insertDown x t

/-- Erase counts, highest first; an unlisted superblock counts 0. -/
def erasesDown (f : Ftl) : List Nat := (f.erases.map fun p => p.2).foldl (fun l x => insertDown x l) []

/-- E_hot as a sum over the hottest quarter and the quarter's size (R326). -/
def hotQuarter (f : Ftl) : Nat × Nat :=
  let q := max 1 (superCount f / 4)
  (((erasesDown f).take q).foldl (· + ·) 0, q)

/-- E_rated in use: FTL_RATED, or the part's parameter page (R330). -/
def ratedOf (d : Dev) : Nat := let r := regBits d 0x600004 15 0; if r = 0 then d.ftl.part.rated else r

/-- A ratio in percent, rounded down and clamped to 0 to 100; 100 where the denominator is 0. -/
def percent (num den : Int) : Nat := if den ≤ 0 then 100 else (max 0 (min 100 (100 * num / den))).toNat

/-- L_wear and L_spare (R326). -/
def lWear (d : Dev) : Nat :=
  let h := hotQuarter d.ftl
  percent ((h.2 * ratedOf d : Nat) - (h.1 : Int)) (h.2 * ratedOf d : Nat)

def lSpare (d : Dev) : Nat :=
  percent (100 * spareLeft d.ftl d.folds.s - (d.ftl.rawFmt : Nat)) ((100 * d.ftl.spareFmt : Nat) - (d.ftl.rawFmt : Int))

/-- The life percentage that HEALTH returns: the lowest of four figures (R326). -/
def lifeOf (d : Dev) : Nat := min (min (lWear d) (lSpare d)) (min d.evt.lHold d.evt.lAge)

end Sys2Proof.Machine
end

