-- ==== Sys2Proof/Machine/Endings.lean ====
section
/-! DEFINITION. How an operation ends: tags and completion slots, the result store, completion entries and duplicates, WAITs
satisfied by a count, and the endings of a commit group (R121, R122, R129, R133, R134, R148, R171, R172, R184, R224). -/
namespace Sys2Proof.Machine

/-! ## Slots, tags and paths -/

/-- Descriptors that a connection has asked for and not yet received; each holds a tag and a slot (R130). -/
def asked (c : Conn) : Nat :=
  c.pulls.foldl (fun n p => match p.what with | .ring _ k => n + k | .data _ _ => n) 0

/-- Operation tags of a gallery that are free: 2,048 less one for each operation in flight and each descriptor asked for
(R32, R34, R130). -/
def freeTags (d : Dev) (g : Nat) : Nat :=
  2048 - ((d.net.ops.filter fun o => homeOf o.conn = g).length +
    d.net.conns.foldl (fun n p => if homeOf p.1 = g then n + asked p.2 else n) 0)

/-- Free slots of a half: entries written and not consumed, and entries reserved, never exceed 2^CQ_LOG2 (R122). A client may
have consumed an entry of the standby that this unit has not counted yet: then the difference is negative. -/
def freeHalf (c : Conn) (written head : Word) (inFlight : Nat) : Nat :=
  if later head written then 2 ^ c.ident.cqLog + (head - written).toNat - inFlight
  else 2 ^ c.ident.cqLog - ((written - head).toNat + inFlight)

/-- Completion slots that a new descriptor may reserve: in this unit's half, and while this unit is active in the standby's
half too (R122, R223). -/
def freeSlots (d : Dev) (n : Nat) (c : Conn) : Nat :=
  let k := (opsOf d n).length + asked c
  let own := freeHalf c c.written (if unitBit d then c.cqHead1 else c.cqHead0) k
  if d.twin.st = .active then min own (freeHalf c c.twinWritten (if unitBit d then c.cqHead0 else c.cqHead1) k) else own

/-- Indices of the UP paths. -/
def upPaths (c : Conn) : List Nat :=
  (List.range c.paths.length).filter fun i => match c.paths[i]? with | some p => p.up | none => false

/-- The path that carries every PUSH of an operation (R93): its sequence spreads operations over the UP paths. -/
def pathOf (c : Conn) (seq : Word) : Nat :=
  let ups := upPaths c
  ups.getD (seq.toNat % max 1 ups.length) 0

/-- The path on which an operation's PUSH frames go (R93): that of the data already queued, or a new one. -/
def routeOf (c : Conn) (seq : Word) : Nat :=
  match c.routes.find? fun p => p.1 = seq with | some p => p.2 | none => pathOf c seq

/-- The path of an operation is kept until its entry is queued (R93). -/
def keepRoute (c : Conn) (seq : Word) : Conn :=
  if c.routes.any fun p => p.1 = seq then c else { c with routes := c.routes ++ [(seq, pathOf c seq)] }
def dropRoute (c : Conn) (seq : Word) : Conn := { c with routes := c.routes.filter fun p => p.1 ≠ seq }

/-- Units that send completion entries (R204). -/
def sendsEntries (d : Dev) : Bool := d.twin.st = .active || d.twin.st = .standby || d.twin.st = .unpaired

/-! ## The result store (R133) -/

/-- The sequence a frame's PUSH belongs to. -/
def pushSeq : TxBody → Option Word
  | .push s _ _ _ _ => s
  | _ => none

/-- A frame that carried an operation's data or entry has not been acknowledged yet. -/
def framesOut (c : Conn) (seq : Word) : Bool :=
  (c.sendq.any fun p => pushSeq p.2 = some seq) ||
  (c.paths.any fun p => p.unacked.any fun u => !u.got && pushSeq u.body = some seq)

/-- A frame that carried an operation's data has not been acknowledged yet. -/
def carriesData (b : TxBody) (seq : Word) : Bool := match b with | .push (some s) _ _ dat _ => s = seq && !dat.isEmpty | _ => false
def dataOut (c : Conn) (seq : Word) : Bool :=
  (c.sendq.any fun p => carriesData p.2 seq) ||
  (c.paths.any fun p => p.unacked.any fun u => !u.got && carriesData u.body seq)

/-- The bitmap or the watermark marks a sequence as executed (R134). -/
def isExecuted (c : Conn) (seq : Word) : Bool := later c.x seq || c.executed.contains seq

/-- The watermark moves over the executed run (R133). -/
def advanceX : Nat → Word → List Word → Word × List Word
  | 0, x, l => (x, l)
  | n + 1, x, l => if l.contains x then advanceX n (x + 1) (l.filter fun s => s ≠ x) else (x, l)

/-- Mark a sequence as executed, store its entry and count it once (R133, R171). -/
def markExecuted (c : Conn) (seq : Word) (e : Entry) : Conn :=
  let ex := if c.executed.contains seq then c.executed else c.executed ++ [seq]
  let p := advanceX ex.length c.x ex
  { c with x := p.1, executed := p.2, store := (c.store.filter fun q => q.1 ≠ seq) ++ [(seq, e)],
           count := (c.count + 1) % 2 ^ 64 }

/-- The stored entry of a sequence. -/
def stored (c : Conn) (seq : Word) : Option Entry := (c.store.find? fun q => q.1 = seq).map fun q => q.2

/-- Where the stored entry of a sequence sits in the control area (R133): the pages of 64 entries that the connection's store was
given, in order. -/
def storePage (rs : List (Nat × Nat)) : Nat → Option Nat := fun k =>
  match rs with
  | [] => none
  | r :: rest => if k < r.2 then some (r.1 + k) else storePage rest (k - r.2)
def storeAt (f : Folds) (i : ConnIdent) (seq : Word) : Option Nat :=
  let k := seq.toNat % 2 ^ i.sqLog
  (storePage i.store (k / 64)).map fun p => ctlBase f + p * 2048 + k % 64 * 32

/-- An ending changes the context and the result store of its connection in the control area (R133, R241): under the operation's
stamp, or after the last one issued. -/
def noteStore (d : Dev) (n : Nat) (seq : Word) (st : Option Stamp) : Dev :=
  match getConn d n with
  | some c =>
    noteLeaves d (st.getD (d.twin.lastStamp + 1)) (ctlLeaf d.folds (contextOff n) ::
      (match storeAt d.folds c.ident seq with | some a => [a / 4096] | none => []))
  | none => d

/-- Indices that a connection has taken change its context (R133, R241). -/
def noteContext (d : Dev) (n : Nat) : Dev := noteLeaves d (d.twin.lastStamp + 1) [ctlLeaf d.folds (contextOff n)]

/-! ## Entries -/

/-- Client address of entry n of a half (R121). -/
def entryAddr (c : Conn) (half : Nat) (n : Word) : DWord :=
  c.ident.cqAddr + BitVec.ofNat 64 (half * 2 ^ c.ident.cqLog * 32 + n.toNat % 2 ^ c.ident.cqLog * 32)

/-- Queue the PUSH of an entry on a path, with up to 256 bytes of data before it (R44, R93, R121, R129). -/
def pushEntry (d : Dev) (c : Conn) (path : Nat) (e : Entry) (data : Option (DWord × Word × List Byte)) : Conn :=
  let ce := (entryAddr c (unitNo d) c.written, c.ident.cqCkey, e, phaseOf c.ident.cqLog c.written)
  let b : TxBody :=
    match data with
    | some (a, k, bs) => .push (some e.seq) a k bs (some ce)
    | none => .push (some e.seq) 0 0 [] (some ce)
  { c with sendq := c.sendq ++ [(some path, b)], written := c.written + 1 }

/-- The abort statuses (R176). -/
def isAbort (s : Status) : Bool := s = .abortedDisabled || s = .abortedFoldReset || s = .abortedRoleChange

/-- What the standby is told of an ending (R224): an END for one without a stamp. The END of a READ whose data frames are
still out waits for their acknowledgement, unless the connection reads from both units (R226). -/
def tellEnd (d : Dev) (n : Nat) (c : Conn) (e : Entry) : Dev :=
  if e.opcode = 0x01 && !c.ident.twinRead && dataOut c e.seq then
    modConn d n fun c => { c with endDue := c.endDue ++ [(e.seq, e)] }
  else tell d (.ended d.twin.lastStamp n e)

/-- END records whose data the client has acknowledged leave in order (R224). -/
def flushEnds (d : Dev) (n : Nat) : Dev :=
  match getConn d n with
  | none => d
  | some c =>
    let ready := c.endDue.filter fun p => !dataOut c p.1
    ready.foldl (fun a p => tell a (.ended a.twin.lastStamp n p.2))
      (modConn d n fun c => { c with endDue := c.endDue.filter fun p => dataOut c p.1 })

/-- End an operation with its entry (R133, R148): it leaves the tags, its sequence is marked executed, the entry goes to the
result store and, where the unit sends entries and the connection may send, to the client; the standby learns of an
ending without a stamp, and of a stamped REG_WRITE, whose CTRL record names no operation (DEDUCED, assumption 58). A DONE_DUPLICATE marks and counts nothing (R134, R171). -/
def endCore (d : Dev) (o : Op) (e : Entry) (data : Option (DWord × Word × List Byte)) : Dev :=
  let d0 := dropOp d o.conn o.seq
  match getConn d0 o.conn with
  | none => d0
  | some c =>
    let dup := e.status = .doneDuplicate
    let c1 := if dup then { c with dupCnt := satAdd c.dupCnt 1 } else markExecuted c o.seq e
    let c2 := if isAbort e.status then { c1 with abortCnt := satAdd c1.abortCnt 1 } else c1
    let sent := if maySend c2 && sendsEntries d && !d.rst.galReset.contains (homeOf o.conn) then
        pushEntry d c2 (routeOf c2 o.seq) e data else c2
    let d1 := noteStore (setConn d0 o.conn (some (dropRoute sent o.seq))) o.conn o.seq o.stamp
    if d.twin.st = .active then
      let d2 := modConn d1 o.conn fun c => { c with twinWritten := c.twinWritten + 1 }
      if o.stamp.isSome && o.desc.op ≠ .regWrite then d2 else tellEnd d2 o.conn sent e
    else d1

/-- The entry of a WAIT that has met its count or its end (R172). -/
def waitEntry (o : Op) (st : Status) (count : Nat) : Entry :=
  { seq := o.seq, status := st, level := .none, orig := .done, opcode := o.desc.opcode, detail := 0, xfer := 0,
    result := BitVec.ofNat 128 (count % 2 ^ 64) }

/-- WAITs on the listed connections whose count is reached end DONE, and so on for the counts that this raises (R172). -/
def wakeLoop : Nat → Dev → List Nat → Dev
  | 0, d, _ => d
  | _, d, [] => d
  | n + 1, d, t :: ts =>
    match getConn d t with
    | none => wakeLoop n d ts
    | some c =>
      match d.net.ops.find? (fun o => o.stage = .waiting && o.desc.op = .wait && o.target = some t &&
        decide (o.desc.offset2.toNat ≤ c.count)) with
      | some o => wakeLoop n (endCore d o (waitEntry o .done c.count) none) (t :: o.conn :: ts)
      | none => wakeLoop n d ts

def wakeWaits (d : Dev) (conn : Nat) : Dev := wakeLoop (2 * d.net.ops.length + 2) d [conn]

/-- End an operation and wake the WAITs that its count satisfies. -/
def endOp (d : Dev) (o : Op) (e : Entry) (data : Option (DWord × Word × List Byte)) : Dev :=
  wakeWaits (endCore d o e data) o.conn

/-- Drop an operation without marking it executed and without an entry (R133). -/
def forgetOp (d : Dev) (o : Op) : Dev := dropOp d o.conn o.seq

/-! ## Commit groups (R179 to R184) -/

/-- The members of a group that have been fetched, in sequence order. -/
def membersOf (d : Dev) (conn : Nat) (first : Word) : List Op :=
  (opsOf d conn).filter fun o => o.group = some first

/-- DETAIL of a member that another member's failure ends (R184). -/
def groupDetail (index : Nat) (failed : Bool) : Nat := index * 2 ^ 24 + (if failed then 0x10000 else 0) + 0x06

/-- A member that failed holds its own entry and waits for the others. -/
def memberFailed (o : Op) : Bool := o.stage = .waiting && o.done.isSome

/-- End a group of which a member failed, once every member has been fetched and started (R184): the first failed member
ends with its own status and every other DESCRIPTOR_MALFORMED naming it. -/
def endFailedGroup (d : Dev) (conn : Nat) (first : Word) : Dev :=
  let ms := membersOf d conn first
  let whole := ms.any (fun o => o.last) && ms.all fun o => o.stage ≠ .fetched
  match ms.findIdx? memberFailed with
  | some i =>
    if whole then
      (List.range ms.length).foldl (fun a j =>
        match ms[j]? with
        | some o =>
          if j = i then endOp a o (o.done.getD (endEntry o.desc .malformed (groupDetail i true))) none
          else endOp a o (endEntry o.desc .malformed (groupDetail i true)) none
        | none => a) d
    else d
  | none => d

/-- A group breaks a limit of R180: every member fetched ends, and every later descriptor up to the next with GROUP
clear is ended as it is fetched (`badTail`). -/
def breachGroup (d : Dev) (conn : Nat) (first : Word) (index : Nat) : Dev :=
  let ms := membersOf d conn first
  let closed := ms.any fun o => o.last
  let d1 := ms.foldl (fun a o => endOp a o (endEntry o.desc .malformed (groupDetail index false)) none) d
  d1.modNet fun t =>
    { t with groups := t.groups.filter fun g => g.conn ≠ conn,
             badTail := if closed then t.badTail else t.badTail ++ [(conn, index, 0)] }

/-- An operation fails before its stamp with a status: a group member takes its whole group with it (R181). -/
def failWith (d : Dev) (o : Op) (e : Entry) : Dev :=
  match o.group with
  | some first => endFailedGroup (setOp d { o with stage := .waiting, done := some e, admitted := none }) o.conn first
  | none => endOp d o e none

def failOp (d : Dev) (o : Op) (st : Status) (detail : Nat) : Dev := failWith d o (endEntry o.desc st detail)

end Sys2Proof.Machine
end

