-- ==== Sys2Proof/Machine/Alloc.lean ====
section
/-! DEFINITION. Free space of the data area and of the region-table area, and scans of the tables (R52, R62, R195). -/
namespace Sys2Proof.Machine

/-- Free runs between `lo` and `hi`, given the used runs in rising order. -/
def freeRuns (hi : Nat) : Nat → List (Nat × Nat) → List (Nat × Nat)
  | lo, [] => if lo < hi then [(lo, hi - lo)] else []
  | lo, (a, n) :: t => (if lo < a then [(lo, a - lo)] else []) ++ freeRuns hi (max lo (a + n)) t

/-- Free runs cut to a start that is a multiple of `al`, and long enough. -/
def fitting (runs : List (Nat × Nat)) (al n : Nat) : List (Nat × Nat) :=
  runs.filterMap fun r =>
    let s := roundUp r.1 al
    if s + n ≤ r.1 + r.2 then some (s, r.1 + r.2 - s) else none

/-- The data area ends at T; regions start at multiples of 4 KiB (R60). -/
def dataRuns (f : Folds) (n : Nat) : List (Nat × Nat) := fitting (freeRuns (rtaBase f) 0 f.dataUsed) 4096 n

/-- A place for a region of `n` bytes: any free run, and any place in it, will do, so the Gheloth's choice is free; both
units of a pair make it alike at the stamp (R73, R196, R215). -/
def placeRegion (d : Dev) (st : Stamp) (n : Nat) : Option (Nat × Dev) :=
  match dataRuns d.folds n with
  | [] => none
  | r :: rs =>
    let run := (r :: rs).getD (Config.placeChoice st 0 % (rs.length + 1)) r
    let base := run.1 + 4096 * (Config.placeChoice st 1 % ((run.2 - n) / 4096 + 1))
    some (base, d.modFolds fun f => { f with dataUsed := putKey f.dataUsed base (roundUp n 4096) })

/-- A place in the region-table area for `n` bytes, 64-byte aligned: the lowest one. -/
def placeRta (d : Dev) (n : Nat) : Option (Nat × Dev) :=
  match fitting (freeRuns (ctlBase d.folds) (rtaBase d.folds) d.folds.rtaUsed) 64 n with
  | [] => none
  | r :: _ => some (r.1, d.modFolds fun f => { f with rtaUsed := putKey f.rtaUsed r.1 (roundUp n 64) })

/-- The descriptors of a fold's current tables: handle, place and contents, for every slot of every valid page. -/
def slotsOfFold (d : Dev) (f : Nat) : List (Word × Nat × RegDesc) :=
  let r := readFold d.mem (foldPa d.folds f)
  if r.dirBase = 0 then []
  else (List.range (r.dirLenM1 + 1)).flatMap fun i =>
    let e := readDir d.mem (r.dirBase + i * 16)
    if e.flags % 2 = 0 then []
    else (List.range (e.countM1 + 1)).map fun j =>
      (BitVec.ofNat 32 (i * 65536 + j), e.page + j * 64, readDesc d.mem (e.page + j * 64))

/-- A staged change names a handle of a fold's table. -/
def isStaged (d : Dev) (f : Nat) (h : Word) : Bool := d.folds.staged.any fun g => g.fold = f && g.handle = h

/-- The lowest handle of a fold whose descriptor is TYPE invalid (R195). -/
def lowestInvalid (d : Dev) (f : Nat) : Option (Word × Nat) :=
  ((slotsOfFold d f).find? fun x => x.2.2.ty = 0).map fun x => (x.1, x.2.1)

/-- The lowest handle of a fold whose descriptor is TYPE invalid and that no staged change will write (R73). -/
def lowestFree (d : Dev) (f : Nat) : Option (Word × Nat) :=
  ((slotsOfFold d f).find? fun x => x.2.2.ty = 0 && !isStaged d f x.1).map fun x => (x.1, x.2.1)

/-- Region descriptors of the live folds, staged changes included. -/
def regionDescs (d : Dev) : List RegDesc :=
  (d.folds.live.flatMap fun f =>
    ((slotsOfFold d f).filter fun s => !isStaged d f s.1).map fun s => s.2.2) ++
  (d.folds.staged.map fun g => regDescOfBytes g.bytes) |>.filter fun x => x.ty = 1

/-- Pages of 2 KiB for result stores in the control area, and those that the connections' stores take (R133). -/
def storePages : Nat := 2 ^ 20
def storeUsed (d : Dev) : List (Nat × Nat) :=
  d.net.conns.foldl (fun l x => x.2.ident.store.foldl (fun l r => putKey l r.1 r.2) l) []

/-- The first `n` pages of a list of runs. -/
def takePages : List (Nat × Nat) → Nat → List (Nat × Nat)
  | [], _ => []
  | r :: rest, n => if n = 0 then [] else if n ≤ r.2 then [(r.1, n)] else r :: takePages rest (n - r.2)

/-- The pages of a new connection's result store: the lowest that are free (R133). -/
def newStore (d : Dev) (sqLog : Nat) : List (Nat × Nat) := takePages (freeRuns storePages 0 (storeUsed d)) (2 ^ sqLog / 64)

/-- At most 16,777,216 regions exist (R73, R195). -/
def regionLimit : Nat := 16777216

/-- Regions that a key slot encrypts (R394). -/
def slotRegions (d : Dev) (k : Nat) : Nat := ((regionDescs d).filter fun x => x.keySlot = k).length

end Sys2Proof.Machine
end

