-- ==== Sys2Proof/Machine/Pipe.lean ====
section
/-! DEFINITION. The stages of R145 that every operation passes: start, ordering, pull, fill, budget, stamp, execution and
completion. Each stage is one function on the device; it changes nothing when the operation is not due for it. -/
namespace Sys2Proof.Machine

/-! ## Line sets (R153) -/

/-- The lines that an operation touches, as runs of lines: first line and count. The span of a LOG_APPEND is fixed only at its
stamp: until then it counts as its whole region (DESIGN CHOICE, assumption 43). -/
def lineRuns (o : Op) : List (Nat × Nat) :=
  let span (t : Option Trans) (off : DWord) : List (Nat × Nat) :=
    match t with
    | some t =>
      if o.desc.length = 0 then []
      else
        let a := t.base + off.toNat
        [(lineOf a, lineOf (a + o.desc.length.toNat - 1) + 1 - lineOf a)]
    | none => []
  match o.desc.op with
  | .copy => span o.tr1 o.desc.offset ++ span o.tr2 o.desc.offset2
  | .snapshot | .clone | .logAppend =>
    (match o.tr1 with | some t => [(t.base / 64, t.len / 64)] | none => [])
  | .read | .write | .writeZero | .cas | .fetchAdd | .swap => span o.tr1 o.desc.offset
  | _ => []

def runsMeet (a b : List (Nat × Nat)) : Bool :=
  a.any fun x => b.any fun y => decide (x.1 < y.1 + y.2) && decide (y.1 < x.1 + x.2)

/-- Operations of the connection with an earlier sequence that are still in flight. -/
def earlierOps (d : Dev) (o : Op) : List Op := (opsOf d o.conn).takeWhile fun p => p.seq ≠ o.seq

/-- The operations that are taken together with one: the fetched members of its group, else itself. -/
def together (d : Dev) (o : Op) : List Op := match o.group with | some f => membersOf d o.conn f | none => [o]

/-- FENCE on the first member of a group applies to the whole group (R180). -/
def fenced (d : Dev) (o : Op) : Bool := (together d o).any fun p => p.desc.fence

def sameGroup (a b : Op) : Bool := a.group.isSome && a.group = b.group

/-- No earlier operation of the connection shares a line (R153); the members of one group run together. -/
def orderOk (d : Dev) (o : Op) : Bool :=
  (earlierOps d o).all fun p => sameGroup p o || !runsMeet (lineRuns p) (lineRuns o)

/-- An entry of a sequence before `seq` still waits to be sent. -/
def entryWaits (seq : Word) (f : Option Nat × TxBody) : Bool :=
  match f.2 with | .push (some s) _ _ _ (some _) => later seq s | _ => false

/-- Every earlier operation of the connection has ended and its entry has been sent (R154). -/
def fenceOk (d : Dev) (o : Op) : Bool :=
  ((earlierOps d o).all fun p => sameGroup p o) &&
  (match getConn d o.conn with | some c => !(c.sendq.any (entryWaits o.seq)) | none => true)

/-! ## Start (R145, R179, R180) -/

/-- Members a group may have (R180). -/
def groupLimit (d : Dev) (n : Nat) (c : Conn) : Nat :=
  min (min 256 (2 ^ c.ident.sqLog)) (min (2 ^ c.ident.cqLog) (regBits d (blockBase .gal (homeOf n)) 11 0))

/-- The group that a descriptor joins: the connection's open group, or one that it opens (R179). -/
def joinGroup (d : Dev) (o : Op) : Dev × Option GroupAsm :=
  match d.net.groups.find? fun g => g.conn = o.conn with
  | some g =>
    let g' := { g with sum := g.sum + o.desc.length.toNat }
    (d.modNet fun t =>
      { t with groups := if o.desc.inGroup then t.groups.map fun x => if x.conn = o.conn then g' else x
                         else t.groups.filter fun x => x.conn ≠ o.conn }, some g')
  | none =>
    if o.desc.inGroup then
      let g : GroupAsm :=
        { conn := o.conn, first := o.seq, sum := o.desc.length.toNat, gens := d.folds.live.map fun f => (f, genOf d f),
          limit := none }
      (d.modNet fun t => { t with groups := t.groups ++ [g] }, some g)
    else (d, none)

/-- A member breaks a limit of R180; the last one that SQ_TAIL named within the assembly limit must close the group. -/
def breaksGroup (d : Dev) (o : Op) (c : Conn) (g : GroupAsm) : Bool :=
  decide (groupLimit d o.conn c < (membersOf d o.conn g.first).length) || decide (1048576 < g.sum) ||
  !groupOpcode o.desc.op || (o.desc.fence && o.seq ≠ g.first) || o.desc.level ≠ 0 ||
  (o.desc.inGroup && g.limit = some (o.seq + 1))

/-- Translate and check the handles of an operation (R64, R145, R190, R194): the operation with its translations, or the
status and DETAIL it ends with. -/
def translateOp (d : Dev) (o : Op) (fold : Nat) (carried : List (Nat × Word)) : Dev × Except (Status × Nat) Op :=
  let x := o.desc
  if !usesHandle x.op then (d, .ok o)
  else
    let r1 := translate d o.conn carried fold x x.handle x.offset
    match r1.2 with
    | .error n => (r1.1, .error (.translationFault, n))
    | .ok t1 =>
      let spanned := !(x.op = .logAppend || x.op = .snapshot || x.op = .clone)
      let a1 := authorize r1.1 o.conn fold x t1 false x.handle x.offset spanned
      match a1.2 with
      | some (st, n) => (a1.1, .error (st, n))
      | none =>
        if (x.op = .snapshot || x.op = .clone) && t1.granted then (a1.1, .error (.accessViolation, 1))
        else if x.op = .logAppend && !t1.isLog then (a1.1, .error (.accessViolation, 3))
        else if x.op = .snapshot && t1.immutable then (a1.1, .error (.accessViolation, 2))
        else if x.op = .clone && !(t1.immutable && t1.cow) then (a1.1, .error (.accessViolation, 1))
        else if x.op = .copy then
          let r2 := translate a1.1 o.conn carried fold x x.handle2 x.offset2
          match r2.2 with
          | .error n => (r2.1, .error (.translationFault, handleDetail true n))
          | .ok t2 =>
            let a2 := authorize r2.1 o.conn fold x t2 true x.handle2 x.offset2 true
            match a2.2 with
            | some (st, n) => (a2.1, .error (st, n))
            | none =>
              (a2.1, .ok { o with tr1 := some t1, tr2 := some t2,
                                  gens := t2.gens.foldl (fun m p => putKey m p.1 p.2) t1.gens })
        else (a1.1, .ok { o with tr1 := some t1, gens := t1.gens })

/-- DESCRIPTOR_START (R145): duplicate, opcode, layout and group checks, and the translation. Descriptors of a connection
start in sequence order (R153). -/
def startOp (conn : Nat) (seq : Word) (d : Dev) : Dev :=
  match findOp d conn seq, getConn d conn with
  | some o, some c =>
    if o.stage ≠ .fetched || (earlierOps d o).any (fun p => p.stage = .fetched) then d
    else if isExecuted c seq then
      match stored c seq with
      | some e => setOp d { o with stage := .holding, done := some (dupEntry e e.level) }
      | none => forgetOp d o
    else
      match d.net.badTail.find? (fun b => b.1 = conn) with
      | some b =>
        let d1 := endOp d o (endEntry o.desc .malformed (groupDetail b.2.1 false)) none
        if o.desc.inGroup then d1
        else d1.modNet fun t => { t with badTail := t.badTail.filter fun b => b.1 ≠ conn }
      | none =>
        let j := joinGroup d o
        let o1 := { o with group := j.2.map fun g => g.first, last := !o.desc.inGroup, stage := .ordering }
        let d1 := setOp j.1 o1
        match o.desc.op with
        | .undef _ => failOp d1 o1 .unsupported 1
        | op =>
          if (op = .regRead || op = .regWrite) && !c.ident.mgmt then failOp d1 o1 .unsupported 2
          else
            match layoutOf o.desc with
            | some n => failOp d1 o1 .malformed n
            | none =>
              match j.2 with
              | some g =>
                if breaksGroup d1 o1 c g then
                  breachGroup d1 conn g.first ((membersOf d1 conn g.first).length - 1)
                else
                  let r := translateOp d1 o1 c.ident.fold g.gens
                  match r.2 with
                  | .error (st, n) => failOp r.1 o1 st n
                  | .ok o2 => endFailedGroup (setOp r.1 o2) conn g.first
              | none =>
                let r := translateOp d1 o1 c.ident.fold []
                match r.2 with
                | .error (st, n) => failOp r.1 o1 st n
                | .ok o2 => setOp r.1 o2
  | _, _ => d

/-- The assembly limit of a group passes (R180): the last member has to be among the descriptors that SQ_TAIL names now. Where
they have all been fetched and started and the group is still open, it breaks the limit at once, else when the last of them
starts. -/
def groupTimeout (conn : Nat) (first : Word) (d : Dev) : Dev :=
  match getConn d conn with
  | none => d
  | some c =>
    if d.net.groups.any fun g => g.conn = conn && g.first = first then
      if c.f = c.sqTail && (opsOf d conn).all fun o => o.stage ≠ .fetched then
        breachGroup d conn first ((membersOf d conn first).length - 1)
      else
        d.modNet fun t => { t with groups := t.groups.map fun g =>
          if g.conn = conn && g.first = first then { g with limit := some (g.limit.getD c.sqTail) } else g }
    else d

/-! ## Ordering and the pull -/

/-- READ_REQs of at most 262,144 bytes for a run of an operation's write data (R131), cut from offset `at_` on. -/
def dataPulls : Nat → Word → Desc → Nat → Nat → Nat → List Pull
  | 0, _, _, _, _, _ => []
  | k + 1, seq, x, rid, at_, len =>
    if len = 0 then []
    else
      let n := min len 262144
      { rid := rid % 2 ^ 32, what := .data seq at_, addr := x.caddr + BitVec.ofNat 64 at_, ckey := x.ckey, len := n,
        seg := 0, path := 0, sent := false, acked := false, sentAt := 0, first := false, got := [], held := 0,
        bytes := [] } :: dataPulls k seq x (rid + 1) (at_ + n) (len - n)

def queuePulls (d : Dev) (o : Op) (at_ len : Nat) : Dev :=
  modConn d o.conn fun c =>
    let ps := dataPulls 65 o.seq o.desc c.nextRid at_ len
    { c with pulls := c.pulls ++ ps, nextRid := (c.nextRid + ps.length) % 2 ^ 32 }

/-- The stage after the ordering rules: the pull for an operation with write data, the fill for one that names a region,
else it is ready. -/
def afterOrder (d : Dev) (o : Op) : Dev :=
  if pullsData o.desc then
    let d1 := setOp d { o with stage := .pulling }
    if o.dataGot < o.desc.length.toNat then queuePulls d1 o o.dataGot (o.desc.length.toNat - o.dataGot) else d1
  else setOp d { o with stage := if usesHandle o.desc.op then .filling else .ready }

/-- ORDER_WAIT_RELEASE and FENCE_RELEASE (R153, R154). -/
def releaseOrder (fence : Bool) (conn : Nat) (seq : Word) (d : Dev) : Dev :=
  match findOp d conn seq with
  | some o =>
    if o.stage = .ordering && fenced d o = fence && (if fence then fenceOk d o else orderOk d o) then afterOrder d o
    else d
  | none => d

/-- The bytes of the span that lie in staging line k, as offset and length (R285). -/
def stagingSpan (o : Op) (k : Nat) : Nat × Nat :=
  let len := o.desc.length.toNat
  match o.desc.op, o.tr1 with
  | .write, some t =>
    let a := t.base + o.desc.offset.toNat
    let lo := max a ((lineOf a + k) * 64)
    let hi := min (a + len) ((lineOf a + k) * 64 + 64)
    (lo - a, hi - lo)
  | _, _ => (64 * k, min len (64 * k + 64) - 64 * k)

/-- DATA_PULL_COMPLETE (R166, R289): every byte is staged; a staging line that fails its check is pulled again, and the
third failure of the operation ends it POISONED_LINE. -/
def pullDone (conn : Nat) (seq : Word) (badLine : Option Nat) (d : Dev) : Dev :=
  match findOp d conn seq with
  | some o =>
    if o.stage ≠ .pulling || o.dataGot < o.desc.length.toNat then d
    else
      match badLine with
      | none => setOp d { o with stage := .filling }
      | some k =>
        let s := stagingSpan o k
        let pa := match o.tr1 with | some t => t.base + o.desc.offset.toNat + s.1 | none => 0
        let d1 := raise d 0x0806 (.gallery (homeOf conn)) (addressPayload pa 0x02 pa) []
        if s.2 = 0 then d
        else if 2 ≤ o.failed.length then failOp d1 o .poisonedLine s.1
        else queuePulls (setOp d1 { o with failed := o.failed ++ [k], dataGot := o.dataGot - s.2 }) o s.1 s.2
  | none => d

/-! ## Fill -/

/-- The first byte of a span that lies in a listed line, counted from the span's start. -/
def firstIn (a len : Nat) (ls : List Nat) : Option Nat :=
  match (spanLines a len).find? fun l => ls.contains l with
  | some l => some (l * 64 - a)
  | none => none

/-- Lines whose old contents a mutating operation needs (R166, R167), and the shared leaves it copies first (R198). -/
def neededLines (d : Dev) (o : Op) : List Nat :=
  let cow (ls : List Nat) : List Nat := (cowLeaves d ls).flatMap fun l => List.range' (l * 64) 64
  match o.desc.op, o.tr1, o.tr2 with
  | .write, some t, _ | .writeZero, some t, _ =>
    let a := t.base + o.desc.offset.toNat
    let n := o.desc.length.toNat
    addNums (partLines a n) (cow (spanLines a n))
  | .cas, some t, _ | .fetchAdd, some t, _ | .swap, some t, _ =>
    let a := t.base + o.desc.offset.toNat
    addNums (spanLines a o.desc.length.toNat) (cow (spanLines a o.desc.length.toNat))
  | .copy, some t, some u =>
    let n := o.desc.length.toNat
    let b := u.base + o.desc.offset2.toNat
    addNums (addNums (spanLines (t.base + o.desc.offset.toNat) n) (partLines b n)) (cow (spanLines b n))
  | _, _, _ => []

/-- Lines that a mutating operation may change, for the budget (R261, R198). -/
def budgetLines (d : Dev) (o : Op) : List Nat :=
  let cow (ls : List Nat) : List Nat := addNums ls ((cowLeaves d ls).flatMap fun l => List.range' (l * 64) 64)
  match o.desc.op, o.tr1, o.tr2 with
  | .copy, _, some u => cow (spanLines (u.base + o.desc.offset2.toNat) o.desc.length.toNat)
  | .logAppend, some t, _ =>
    let p := (getKey d.folds.logTails t.base).getD 0
    let cap := t.len - 64
    let r := roundUp o.desc.length.toNat 64
    cow (addNum ((List.range (r / 64)).map fun i => (t.base + 64 + (p + i * 64) % cap) / 64) (t.base / 64))
  | .snapshot, _, _ | .clone, _, _ => [0, 1, 2, 3]
  | _, some t, _ => cow (spanLines (t.base + o.desc.offset.toNat) o.desc.length.toNat)
  | _, _, _ => []

/-- Read data of a line list that lies in a span and failed. -/
def failDetail (o : Op) (ls : List Nat) : Nat :=
  match o.tr1 with
  | some t =>
    (match firstIn (t.base + o.desc.offset.toNat) o.desc.length.toNat ls with
     | some n => n
     | none =>
       match o.tr2 with
       | some u => (firstIn (u.base + o.desc.offset2.toNat) o.desc.length.toNat ls).getD 0
       | none => 0)
  | none => 0

/-- ADMIT_WAIT in ms (R280). -/
def admitWait (d : Dev) : Nat := regBits d 0x3020C 21 14

/-! ## Budget (R261, R262) -/

/-- The oldest operation of a gallery that waits for room and whose group, if any, waits whole (R181). -/
def budgetHead (d : Dev) (g : Nat) : Option Op :=
  d.net.ops.find? fun o => homeOf o.conn = g && o.stage = .budget &&
    ((together d o).any (fun p => p.last) || o.group.isNone) && (together d o).all fun p => p.stage = .budget

/-- Admit an operation, and its group, when the budget has room for all its lines (R181, R261). -/
def admitOp (d : Dev) (o : Op) : Option Dev :=
  let ms := together d o
  let need := ms.map fun p => (p, budgetLines d p)
  if admits d (need.foldl (fun n p => n + p.2.length) 0) then
    some (need.foldl (fun a p => setOp a { p.1 with stage := .stamp, admitted := some p.2, lines := p.2 }) d)
  else none

/-- One turn: the galleries take room in round-robin order, oldest operation first (R262). -/
def admitTurn (d : Dev) : Option Dev :=
  (List.range 16).findSome? fun i =>
    let g := (d.net.opTurn + i) % 16
    match budgetHead d g with
    | some o => (admitOp d o).map fun a => a.modNet fun t => { t with opTurn := (g + 1) % 16 }
    | none => none

def admitLoop : Nat → Dev → Dev
  | 0, d => d
  | n + 1, d => match admitTurn d with | some a => admitLoop n a | none => d

/-- BUDGET_ADMISSION: admit waiting operations as far as there is room. -/
def admitAll (d : Dev) : Dev := admitLoop (d.net.ops.length + 1) d

/-- An operation has waited ADMIT_WAIT without room, or without its stamp (R262). -/
def admitExpiry (conn : Nat) (seq : Word) (d : Dev) : Dev :=
  match findOp d conn seq with
  | some o => if o.stage = .budget || o.stage = .stamp then failOp d o .budgetExhausted 0 else d
  | none => d

/-- Enter the budget stage; with ADMIT_WAIT 0 an operation that finds no room ends at once (R262). -/
def enterBudget (d : Dev) (o : Op) : Dev :=
  let d1 := admitAll (setOp d { o with stage := .budget })
  match findOp d1 o.conn o.seq with
  | some p =>
    if admitWait d = 0 && p.stage = .budget &&
        (p.group.isNone || (together d1 p).all fun q => q.stage = .budget) then failOp d1 p .budgetExhausted 0
    else d1
  | none => d1

/-- The lines that the fill of an operation brings to their home slices: those a READ returns, and those whose old contents a
mutating operation needs. -/
def filledLines (d : Dev) (o : Op) : List Nat :=
  match o.desc.op, o.tr1 with
  | .read, some t => spanLines (t.base + o.desc.offset.toNat) o.desc.length.toNat
  | _, _ => neededLines d o

/-- A header line of a log, which never leaves the DRAM working tier (R189). -/
def isLogHeader (d : Dev) (line : Nat) : Bool := (getKey d.folds.logTails (line * 64)).isSome

/-- What a fill leaves (R45, R294): the leaves are resident in the DRAM working tier, every line of a leaf that could not be read
is poisoned, and the lines asked for stand in their home slices. -/
def fillLines (d : Dev) (lines bad : List Nat) : Dev :=
  let lost := ((leavesOf bad).flatMap fun l => List.range' (l * 64) 64).filter fun l => !isLogHeader d l
  lines.foldl (useLine false)
    ((poisonLines d 5 lost).modDur fun u => { u with resident := addNums u.resident (leavesOf lines) })

/-- LINE_FILL_COMPLETE (R167): the lines that the operation needs are filled; `bad` lists lines whose leaf could not be read from
flash, and so are the lines of a leaf on a die that is offline (R319). A leaf that is resident or holds a dirty line is not read from
flash, so it cannot fail. A member of a group stays
with its group even when it changes nothing (R181). -/
def fillDone (conn : Nat) (seq : Word) (bad : List Nat) (d : Dev) : Dev :=
  match findOp d conn seq with
  | some o =>
    if o.stage ≠ .filling then d
    else
      let gone := (addNums bad ((filledLines d o).filter fun l => leafGone d (l / 64))).filter fun l =>
        !(d.dur.resident.contains (l / 64) || isLogHeader d l)
      let ls := filledLines d o
      let hit := ls.filter fun l => (leavesOf gone).contains (l / 64) && !isLogHeader d l
      let d1 := fillLines d ls gone
      if !mutating o.desc && o.group.isNone then
        setOp d1 { o with stage := .ready, failed := addNums o.failed hit }
      else if !hit.isEmpty then failOp d1 o .mediaUncorrectable (failDetail o hit)
      else if !gone.isEmpty && (o.desc.op = .snapshot || o.desc.op = .clone) then failOp d1 o .mediaUncorrectable 0
      else enterBudget d1 o
  | none => d

end Sys2Proof.Machine
end

