-- ==== Sys2Proof/Machine/Execute.lean ====
section
/-! DEFINITION. What an operation does at its stamp position: the one description that the serving unit and a standby share
(R149, R157, R165 to R170, R182, R188 to R198, R217). -/
namespace Sys2Proof.Machine

/-- What executing a descriptor at a stamp came to: the device, the entry, the lines it changed, and the source bytes and poisoned
source lines of a COPY that its datapath has still to work. `poisoned` holds when a needed line was poisoned and nothing
changed. -/
structure Exec where
  dev      : Dev
  entry    : Entry
  lines    : List Nat
  src      : List Host.Cell
  srcBad   : List Nat
  poisoned : Bool
deriving DecidableEq, Repr

/-- The entry of a descriptor that ran (R129). -/
def doneEntry (x : Desc) (detail xfer : Nat) (result : Nat) : Entry :=
  { seq := x.seq, status := .done, level := .none, orig := .done, opcode := x.opcode, detail := BitVec.ofNat 32 detail,
    xfer := BitVec.ofNat 32 xfer, result := BitVec.ofNat 128 result }

/-- The listed cells of a span of memory. -/
def cellsOf (m : Mem) (a n : Nat) : List Host.Cell :=
  m.filter fun c => decide (a ≤ c.1) && decide (c.1 < a + n)

/-- Write the captured source cells over a part of the destination: `lo` to `hi` are offsets in the span (R165). -/
def placeCells (m : Mem) (src dst lo hi : Nat) (cells : List Host.Cell) : Mem :=
  (cells.filter fun c => decide (src + lo ≤ c.1) && decide (c.1 < src + hi)).foldl
    (fun acc c => writeByte acc (c.1 - src + dst) c.2) (zeroBytes m (dst + lo) (hi - lo))

/-- An operation that needs a poisoned line changes nothing and ends POISONED_LINE (R167). -/
def poisonedExec (d : Dev) (x : Desc) (detail : Nat) : Exec :=
  { dev := d, entry := endEntry x .poisonedLine detail, lines := [], src := [], srcBad := [], poisoned := true }

def poisonIn (d : Dev) (ls : List Nat) : List Nat := ls.filter fun l => d.dur.poison.contains l

/-- WRITE and WRITE_ZERO of a span (R165, R166): a partial line that is poisoned stops it; a whole line loses its poison as it is
written, which is now or, where `now` is false, as the datapath works it. -/
def runSpan (d : Dev) (x : Desc) (a : Nat) (st : Stamp) (now : Bool) (f : Mem → Mem) : Exec :=
  let n := x.length.toNat
  match firstIn a n (poisonIn d (partLines a n)) with
  | some k => poisonedExec d x k
  | none =>
    let d1 := changeLines d st (spanLines a n) fun m => if now then f m else m
    { dev := if now then clearPoison d1 (wholeLines a n) else d1, entry := doneEntry x 0 n 0,
      lines := spanLines a n, src := [], srcBad := [], poisoned := false }

/-- Destination lines that take a byte of a poisoned source line (R167). -/
def carriedPoison (bad : List Nat) (a b n : Nat) : List Nat :=
  bad.foldl (fun acc l =>
    let lo := max a (l * 64)
    let hi := min (a + n) (l * 64 + 64)
    addNums acc (spanLines (lo - a + b) (hi - lo))) []

/-- As bytes `lo` to `hi` of a COPY's span are written: whole lines lose their poison, and lines that take a byte of a poisoned
source line are poisoned (R166, R167). -/
def movePoison (d : Dev) (bad : List Nat) (a b n lo hi : Nat) : Dev :=
  let worked := spanLines (b + lo) (hi - lo)
  let carried := (carriedPoison bad a b n).filter fun l => worked.contains l
  carried.foldl followLine ((clearPoison d ((wholeLines b n).filter fun l => worked.contains l)).modDur fun u =>
    { u with poison := addNums u.poison carried })

/-- A COPY at its stamp (R165, R167): the whole source is taken as it stands; the destination lines become dirty. Its bytes
are placed by the datapath, or at once where `now` says so. -/
def runCopy (d : Dev) (x : Desc) (a b : Nat) (st : Stamp) (now : Bool) : Exec :=
  let n := x.length.toNat
  match firstIn b n (poisonIn d (partLines b n)) with
  | some k => poisonedExec d x k
  | none =>
    let cells := cellsOf d.mem a n
    let bad := poisonIn d (spanLines a n)
    let d1 := changeLines d st (spanLines b n) (fun m => if now then placeCells m a b 0 n cells else m)
    let d2 := if now then movePoison d1 bad a b n 0 n else d1
    let e := if bad.isEmpty then doneEntry x 0 n 0
      else { doneEntry x ((firstIn a n bad).getD 0) n 0 with status := .poisonedLine }
    { dev := d2, entry := e, lines := spanLines b n, src := if now then [] else cells, srcBad := if now then [] else bad,
      poisoned := false }

/-- CAS, FETCH_ADD and SWAP (R169): the operand is little-endian; the old value is returned. -/
def runAtomic (d : Dev) (x : Desc) (a : Nat) (st : Stamp) : Exec :=
  let n := x.length.toNat
  match firstIn a n (poisonIn d (spanLines a n)) with
  | some k => poisonedExec d x k
  | none =>
    let old := readLE d.mem a n
    let new := x.b32.toNat % 256 ^ n
    let cmp := x.b48.toNat % 256 ^ n
    let put (v : Nat) : Dev := changeLines d st (spanLines a n) (fun m => writeLE m a n v)
    match x.op with
    | .cas =>
      if old = cmp then
        { dev := put new, entry := doneEntry x 1 n old, lines := spanLines a n, src := [], srcBad := [], poisoned := false }
      else { dev := d, entry := doneEntry x 0 n old, lines := [], src := [], srcBad := [], poisoned := false }
    | .fetchAdd =>
      { dev := put ((old + new) % 256 ^ n), entry := doneEntry x 0 n old, lines := spanLines a n, src := [], srcBad := [],
        poisoned := false }
    | _ => { dev := put new, entry := doneEntry x 0 n old, lines := spanLines a n, src := [], srcBad := [], poisoned := false }

/-! ## Logs (R188 to R192) -/

/-- The authoritative TAIL of a log, by its region's base (R189). -/
def logTail (d : Dev) (base : Nat) : Nat := (getKey d.folds.logTails base).getD 0

/-- The append has room (R190); a poisoned header line reports a full log. -/
def logRoom (d : Dev) (t : Trans) (len : Nat) : Bool :=
  let tail := logTail d t.base
  let head := readLE d.mem t.base 8
  let h := if tail < head then tail else roundDown head 64
  !d.dur.poison.contains (t.base / 64) && decide (tail + roundUp len 64 - h ≤ t.len - 64)

/-- The region offsets of the bytes of an append, padding included: `r` bytes from a log position on (R188). -/
def logLines (base cap p r : Nat) : List Nat :=
  addNums [] ((List.range (r / 64)).map fun i => (base + 64 + (p + i * 64) % cap) / 64)

/-- Write the bytes of an append, wrapping from the region's end to offset 64 (R191). -/
def logWrite (base cap : Nat) : Nat → List Byte → Mem → Mem
  | _, [], m => m
  | p, b :: bs, m => logWrite base cap (p + 1) bs (writeByte m (base + 64 + p % cap) b)

/-- LOG_APPEND at its stamp (R191): data, zero padding, TAIL and a header whose other bytes are zero. -/
def runAppend (d : Dev) (x : Desc) (t : Trans) (data : List Byte) (st : Stamp) : Exec :=
  let cap := t.len - 64
  let p := logTail d t.base
  let r := roundUp x.length.toNat 64
  let ls := addNum (logLines t.base cap p r) (t.base / 64)
  let d1 := changeLines d st ls fun m =>
    writeBytes (logWrite t.base cap p (data ++ List.replicate (r - data.length) 0) m) (t.base + 8)
      (leBytes 8 (p + r) ++ leBytes 48 0)
  let d2 := (clearPoison d1 (logLines t.base cap p r)).modFolds fun f =>
    { f with logTails := putKey f.logTails t.base (p + r) }
  { dev := noteLeaves d2 st [ctlLeaf d.folds (tailOff t.base)], entry := doneEntry x 0 x.length.toNat (p % 2 ^ 64), lines := ls,
    src := [], srcBad := [], poisoned := false }

/-! ## Snapshots and clones (R194 to R198, R307) -/

/-- The handle that SNAPSHOT or CLONE takes: the one named, which must be a TYPE invalid descriptor inside a valid page, or
the lowest such one (R195). Staged changes do not count: R195 looks at the live table (assumption 45). -/
def newHandle (d : Dev) (fold : Nat) (h : Word) : Option (Word × Nat) :=
  if h = 0xFFFFFFFF then lowestInvalid d fold
  else
    match descPlace d fold h (genOf d fold) with
    | .ok pa => if (readDesc d.mem pa).ty = 0 then some (h, pa) else none
    | .error _ => none

/-- The map takes the resolved entries of a region more than 4 levels deep (R307): of every leaf without a line that flash does not
hold yet. -/
def copyResolved (dst len : Nat) (d : Dev) : Dev :=
  let depth := d.folds.families.foldl (fun n f => match memberAt f (dst / 4096) with | some (m, _) => max n m.depth | none => n) 0
  if depth ≤ 4 then d
  else
    let dirty := leavesOf (addNums d.dur.dirty (d.dur.slots.foldl (fun l s => addNums l s.left) []))
    let mine := (List.range' (dst / 4096) (len / 4096)).filter fun l =>
      (getKey d.ftl.map l).isNone && (l :: sharers d.folds.families l).all fun x => !dirty.contains x
    d.modFtl fun f => { f with map := mine.foldl (fun m l => match resolveLoc d l with | some x => putKey m l x | none => m) f.map }

/-- A region enters the family of its source. -/
def enterFamily (d : Dev) (src dst len : Nat) : Dev :=
  d.modFolds fun f =>
    if f.families.any (fun x => (memberAt x (src / 4096)).isSome) then
      { f with families := f.families.map fun x =>
          match memberAt x (src / 4096) with
          | some (m, _) => { x with members := x.members ++ [{ m with base := dst, depth := m.depth + 1 }] }
          | none => x }
    else
      { f with nextVer := f.nextVer + 1,
               families := f.families ++ [{ len := len, members :=
                 [{ base := src, depth := 0, dflt := f.nextVer, own := [] }, { base := dst, depth := 1, dflt := f.nextVer, own := [] }] }] }

/-- Put a region into the family of its source (R197, R307). -/
def joinFamily (d : Dev) (src dst len : Nat) : Dev := copyResolved dst len (enterFamily d src dst len)

/-- The 64 bytes of a family record (R307). -/
def familyBytes (child parent len : Nat) (st : Stamp) (fold : Nat) (ch ph : Word) : List Byte :=
  leBytes 8 child ++ leBytes 8 parent ++ leBytes 8 len ++ leBytes 8 st ++ leBytes 4 fold ++ leBytes 4 ch.toNat ++
  leBytes 4 fold ++ leBytes 4 ph.toNat ++ leBytes 16 0

/-- Why SNAPSHOT or CLONE finds no space (R195), as the DETAIL of NO_SPACE. -/
def snapRefused (d : Dev) (fold : Nat) (x : Desc) (t : Trans) : Option Nat :=
  if (newHandle d fold x.handle2).isNone || regionLimit ≤ (regionDescs d).length then some 1
  else if (placeRta d 64).isNone then some 2
  else if (dataRuns d.folds (roundUp t.len 4096)).isEmpty then some 3
  else none

/-- The line of the family index that takes the next sharing record (R198, R307): the spec places the index in the control area
and gives no offset; the model starts it at 3 GiB. -/
def familyLine (d : Dev) : Nat :=
  lineOf (ctlBase d.folds + 0xC0000000 + (d.folds.families.foldl (fun n f => n + f.members.length) 0) % 2 ^ 24 * 64)

/-- Where the descriptor of the source stands: in the table of the generation that the operation carries, and in the current
table while the region is still there (R76, R203). -/
def sourcePlaces (d : Dev) (fold : Nat) (x : Desc) (t : Trans) : List Nat :=
  let at_ (g : Word) : List Nat :=
    match descPlace d fold x.handle g with
    | .ok pa => if (readDesc d.mem pa).ty = 1 && (readDesc d.mem pa).base = t.base then [pa] else []
    | .error _ => []
  let carried := at_ (genUsed d t.gens fold)
  carried ++ (at_ (genOf d fold)).filter fun pa => !carried.contains pa

/-- Set COW_SHARED in a descriptor (R196). -/
def setCow (m : Mem) (pa : Nat) : Mem :=
  let f := (readDesc m pa).flags
  writeBytes m (pa + 26) (leBytes 2 (f / 4 * 4 + 2 + f % 2))

/-- SNAPSHOT or CLONE at its stamp (R196, R197): the new region shares every leaf, so its bytes equal the source's; nothing
moves. The model keeps the contents of each address, so it copies the listed bytes. It completes against the translation of
its admission (R203). -/
def runSnap (d : Dev) (fold : Nat) (x : Desc) (t : Trans) (st : Stamp) : Exec :=
  let places := sourcePlaces d fold x t
  match newHandle d fold x.handle2, placeRta d 64, placeRegion d st (roundUp t.len 4096), places with
  | some (h, pa), some (rec, d1), some _, spa :: _ =>
    match placeRegion d1 st (roundUp t.len 4096) with
    | some (base, d2) =>
      let src := readDesc d.mem spa
      let new : RegDesc :=
        { src with base := base, gen := genOf d fold, perm := if x.op = .clone then 3 else src.perm,
                   flags := if x.op = .clone then 2 else 3 }
      let ls := addNums [] ([lineOf pa, lineOf rec, familyLine d] ++ places.map lineOf)
      let d3 := changeLines d2 st ls fun m =>
        copyBytes
          (writeBytes (places.foldl setCow (writeBytes m pa (regDescBytes new)))
            rec (familyBytes base t.base t.len st fold h x.handle))
          t.base base t.len
      let d4 := (joinFamily d3 t.base base t.len).modDur fun u =>
        { u with poison := addNums u.poison ((u.poison.filter fun l => decide (t.base / 64 ≤ l) &&
            decide (l < (t.base + t.len) / 64)).map fun l => l - t.base / 64 + base / 64) }
      { dev := noteLeaves d4 st (familyLeaves d4 (base / 4096)), entry := doneEntry x 0 0 h.toNat, lines := ls, src := [], srcBad := [], poisoned := false }
    | none => { dev := d, entry := endEntry x .noSpace 3, lines := [], src := [], srcBad := [], poisoned := false }
  | _, _, _, _ => { dev := d, entry := endEntry x .noSpace 1, lines := [], src := [], srcBad := [], poisoned := false }

/-! ## One descriptor at its stamp -/

/-- Execute a mutating descriptor at a stamp (R157): `now` places a COPY's and a WRITE_ZERO's bytes at once. -/
def runDesc (d : Dev) (fold : Nat) (x : Desc) (t1 t2 : Option Trans) (data : List Byte) (st : Stamp) (now : Bool) : Exec :=
  match x.op, t1, t2 with
  | .write, some t, _ =>
    runSpan d x (t.base + x.offset.toNat) st true fun m => writeBytes m (t.base + x.offset.toNat) data
  | .writeZero, some t, _ =>
    runSpan d x (t.base + x.offset.toNat) st now fun m => zeroBytes m (t.base + x.offset.toNat) x.length.toNat
  | .copy, some t, some u => runCopy d x (t.base + x.offset.toNat) (u.base + x.offset2.toNat) st now
  | .cas, some t, _ | .fetchAdd, some t, _ | .swap, some t, _ => runAtomic d x (t.base + x.offset.toNat) st
  | .logAppend, some t, _ => runAppend d x t data st
  | .snapshot, some t, _ | .clone, some t, _ => runSnap d fold x t st
  | _, _, _ => { dev := d, entry := endEntry x .malformed 0, lines := [], src := [], srcBad := [], poisoned := false }

/-- What one line of members came to: the device after all of them with each member's execution, or the index and DETAIL
of the member that needed a poisoned line (R182, R183). -/
def runMembers (fold : Nat) (st : Stamp) :
    Nat → Dev → List (Desc × Option Trans × Option Trans × List Byte) → List Exec → Except (Nat × Nat) (Dev × List Exec)
  | _, d, [], acc => .ok (d, acc)
  | i, d, (x, t1, t2, data) :: rest, acc =>
    let r := runDesc d fold x t1 t2 data st true
    if r.entry.status = .done then runMembers fold st (i + 1) r.dev rest (acc ++ [{ r with dev := d }])
    else .error (i, r.entry.detail.toNat)

/-- The entries of a stamped group whose member `i` needed a poisoned line (R183, R184). -/
def poisonedGroup (xs : List Desc) (i detail : Nat) : List Entry :=
  xs.mapIdx fun j x => if j = i then endEntry x .poisonedLine detail else endEntry x .malformed (groupDetail i true)

end Sys2Proof.Machine
end

