-- ==== Sys2Proof/Machine/Complete.lean ====
section
/-! DEFINITION. The order stamp of an operation or a group, the datapath's chunks, the operations without a stamp, and the
completion once the level is reached (R145, R156 to R163, R168, R172, R182, R200 to R203). -/
namespace Sys2Proof.Machine

/-! ## Waiting at the stamp -/

/-- The runs of lines that the datapath of a COPY or WRITE_ZERO has still to read or write (R200, R201). -/
def bulkRuns (o : Op) : List (Nat × Nat) :=
  let run (t : Option Trans) (off : DWord) : List (Nat × Nat) :=
    match t with
    | some t =>
      let a := t.base + off.toNat + o.chunk
      let n := o.desc.length.toNat - o.chunk
      if n = 0 then [] else [(lineOf a, lineOf (a + n - 1) + 1 - lineOf a)]
    | none => []
  match o.desc.op with
  | .copy => run o.tr1 o.desc.offset ++ run o.tr2 o.desc.offset2
  | _ => run o.tr1 o.desc.offset

def isBulk (x : Desc) : Bool := x.op = .copy || x.op = .writeZero

/-- No line of the operation is still to be worked by a running COPY or WRITE_ZERO (R201). -/
def bulkClear (d : Dev) (o : Op) : Bool :=
  (d.net.ops.filter fun p => p.stage = .running).all fun p => !runsMeet (bulkRuns p) (lineRuns o)

/-- Stamped datapath work of a gallery not yet done, in bytes; at most 256 MiB (R267). -/
def bulkQueued (d : Dev) (g : Nat) : Nat :=
  (d.net.ops.filter fun p => p.stage = .running && homeOf p.conn = g).foldl
    (fun n p => n + (p.desc.length.toNat - p.chunk)) 0

def bulkRoom (d : Dev) (o : Op) : Bool :=
  !isBulk o.desc || o.group.isSome || decide (bulkQueued d (homeOf o.conn) + o.desc.length.toNat ≤ 268435456)

/-- The source lines of a COPY are free of the mirror hold (R158). -/
def sourceClear (d : Dev) (o : Op) : Bool :=
  match o.desc.op, o.tr1 with
  | .copy, some t => (spanLines (t.base + o.desc.offset.toNat) o.desc.length.toNat).all fun l => !mirrorHeld d l
  | _, _ => true

/-- An operation that takes a stamp: a mutating one, or a REG_WRITE of the shared-configuration set (R156, R175). -/
def takesStamp (x : Desc) : Bool := mutating x || (x.op = .regWrite && isShared x.offset.toNat)

/-- Every earlier operation of the connection that takes a stamp has it or has ended (R156). -/
def stampOrderOk (d : Dev) (o : Op) : Bool :=
  (earlierOps d o).all fun p => sameGroup p o || !takesStamp p.desc || p.stamp.isSome

/-- The endings that take no stamp although everything else passed (R190, R195): a log without room, no handle or space. -/
def preStamp (d : Dev) (fold : Nat) (o : Op) : Option (Status × Nat) :=
  match o.desc.op, o.tr1 with
  | .logAppend, some t => if logRoom d t o.desc.length.toNat then none else some (.bounds, 2)
  | .snapshot, some t | .clone, some t => (snapRefused d fold o.desc t).map fun n => (.noSpace, n)
  | _, _ => none

/-- The first member that may not take its stamp; the appends of a group are checked each behind those before it. -/
def firstRefused (fold : Nat) : Dev → List Op → Option (Op × Status × Nat)
  | _, [] => none
  | d, o :: rest =>
    match preStamp d fold o with
    | some (st, n) => some (o, st, n)
    | none =>
      let d1 := match o.desc.op, o.tr1 with
        | .logAppend, some t => d.modFolds fun f =>
            { f with logTails := putKey f.logTails t.base (logTail d t.base + roundUp o.desc.length.toNat 64) }
        | _, _ => d
      firstRefused fold d1 rest

/-- GEN, TGEN and TGEN2 of a record (R216). -/
def genField (o : Op) (fold : Nat) : Word := (getKey o.gens fold).getD 0
def tgenField (t : Option Trans) : Word :=
  match t with | some t => if t.granted then (getKey t.gens t.owner).getD 0 else 0 | none => 0

def memberOf (o : Op) : Member :=
  { desc := o.desc, tgen := tgenField o.tr1, tgen2 := tgenField o.tr2,
    data := if pullsData o.desc then o.data else [] }

/-- Bytes of the record that will carry operations under their stamp (R216). -/
def stampBytes (ms : List Op) : Nat :=
  match ms with
  | [o] => recBytes (.op 0 o.conn 0 (memberOf o))
  | _ => recBytes (.group 0 0 0 (ms.map memberOf))

/-- The members of a group, or the operation alone, may take their stamp now. -/
def stampDue (d : Dev) (ms : List Op) : Bool :=
  canStampFor d (stampBytes ms) && d.twin.phase = .none && ms.all fun o =>
    o.stage = .stamp && stampOrderOk d o && bulkClear d o && bulkRoom d o && sourceClear d o

/-- The reservation that an executed operation keeps to its ending: the lines that were dirty before or that it did not
change (R261). The four lines of a SNAPSHOT or CLONE are named only by its execution (R198). -/
def keptLines (before : List Nat) (o : Op) (changed : List Nat) : Option (List Nat) :=
  if o.desc.op = .snapshot || o.desc.op = .clone then
    o.admitted.map fun l => l.take (4 - (changed.filter fun x => !before.contains x).length)
  else o.admitted.map fun l => l.filter fun x => before.contains x || !changed.contains x

/-- Note the lines that a connection's operation changed, for PERSIST (R163). -/
def noteChanged (d : Dev) (conn : Nat) (lines : List Nat) (st : Stamp) : Dev :=
  modConn d conn fun c => { c with changed := lines.foldl (fun m l => putKey m l st) c.changed }

/-- Which leaves a stamped operation touched, kept until the standby's PEER_STAMP covers it: a LEAF that answers a REPAIR
carries the entries of those that touched its leaf (R220). -/
def noteTouched (d : Dev) (st : Stamp) (conn : Nat) (seq : Word) (lines : List Nat) : Dev :=
  if streaming d then d.modTwin fun t => { t with touched := t.touched ++ [(st, conn, seq, leavesOf lines)] } else d

/-- The line whose check fails at an operation's merge (R290): only a line whose old contents the operation needs, or whose staging
line it merges. SNAPSHOT and CLONE merge no line, and an append does not end POISONED_LINE once it has its stamp (R177, R191). -/
def failsMerge (d : Dev) (o : Op) (l : Nat) : Bool :=
  match o.desc.op, o.tr1, o.tr2 with
  | .write, some t, _ => (spanLines (t.base + o.desc.offset.toNat) o.desc.length.toNat).contains l
  | .copy, _, some u => (partLines (u.base + o.desc.offset2.toNat) o.desc.length.toNat).contains l
  | .logAppend, _, _ | .snapshot, _, _ | .clone, _, _ => false
  | _, _, _ => (neededLines d o).contains l

/-- The operation replaces the line whole, so poison that it meets there would not stop it. -/
def coversLine (o : Op) (l : Nat) : Bool :=
  match o.desc.op, o.tr1, o.tr2 with
  | .copy, _, some u => (wholeLines (u.base + o.desc.offset2.toNat) o.desc.length.toNat).contains l
  | .write, some t, _ | .writeZero, some t, _ => (wholeLines (t.base + o.desc.offset.toNat) o.desc.length.toNat).contains l
  | _, _, _ => false

/-- A line check fails at a merge (R290, R294): 0x0806, and the line is poisoned. The LEAF record of R297 goes before the
operation's own record, so that the standby meets the poison too. -/
def mergeFails (d : Dev) (l : Nat) : Dev :=
  poisonLines (raise d 0x0806 (.slice (sliceOf l)) (addressPayload (l * 64) 0x01 (l * 64)) []) 1 [l]

/-- A standby that replaced the line whole takes the poison and the entries of this unit behind the record (R297). -/
def tellPoison (d : Dev) (ms : List Op) (es : List Entry) (l : Nat) : Dev :=
  if d.twin.st = .active && ms.any fun o => coversLine o l then
    tell d (leafRecord d (l / 64) ((ms.zip es).map fun p => (p.1.conn, p.2)))
  else d

/-- An operation without a group takes its stamp and executes (R156, R157, R216). -/
def stampOne (d : Dev) (o : Op) (fold : Nat) (bad : Option Nat) : Dev :=
  let p := takeStamp d
  let st := p.1
  let rec' : Rec := .op st o.conn (genField o fold) (memberOf o)
  match bad.filter (failsMerge d o) with
  | some l =>
    let e := endEntry o.desc .poisonedLine (failDetail o [l])
    setOp (tellPoison (forward (mergeFails p.2 l) st rec') [o] [e] l)
      { o with stage := .holding, stamp := some st, done := some e, lines := [] }
  | none =>
    let d1 := forward p.2 st rec'
    let before := d1.dur.dirty
    let r := runDesc d1 fold o.desc o.tr1 o.tr2 o.data st false
    let bulk := isBulk o.desc && !r.poisoned
    let d2 := noteTouched (noteChanged r.dev o.conn r.lines st) st o.conn o.seq r.lines
    let d3 := if bulk && streaming d2 then d2.modTwin fun t => { t with finWait := t.finWait ++ [st] } else d2
    setOp d3 { o with stage := if bulk then .running else .holding, stamp := some st, done := some r.entry,
                      lines := r.lines, admitted := keptLines before o r.lines, src := r.src, srcBad := r.srcBad,
                      chunk := 0, data := [] }

/-- A group takes one stamp and applies all its members, or none (R182, R183). -/
def stampGroup (d : Dev) (ms : List Op) (fold : Nat) (bad : Option Nat) : Dev :=
  match ms with
  | [] => d
  | o :: _ =>
    let p := takeStamp d
    let st := p.1
    let rec' : Rec := .group st o.conn (genField o fold) (ms.map memberOf)
    let hold (a : Dev) (es : List Entry) : Dev :=
      (List.range ms.length).foldl (fun a i =>
        match ms[i]?, es[i]? with
        | some m, some e => setOp a { m with stage := .holding, stamp := some st, done := some e, lines := [], data := [] }
        | _, _ => a) a
    match bad.filter fun l => ms.any fun m => failsMerge d m l with
    | some l =>
      let i := (ms.findIdx? fun m => failsMerge d m l).getD 0
      let es := poisonedGroup (ms.map fun m => m.desc) i (match ms[i]? with | some m => failDetail m [l] | none => 0)
      hold (tellPoison (forward (mergeFails p.2 l) st rec') ms es l) es
    | none =>
      let d1 := forward p.2 st rec'
      let before := d1.dur.dirty
      match runMembers fold st 0 d1 (ms.map fun m => (m.desc, m.tr1, m.tr2, m.data)) [] with
      | .error (i, n) => hold d1 (poisonedGroup (ms.map fun m => m.desc) i n)
      | .ok (d2, rs) =>
        (List.range ms.length).foldl (fun a i =>
          match ms[i]?, rs[i]? with
          | some m, some r =>
            setOp (noteTouched (noteChanged a m.conn r.lines st) st m.conn m.seq r.lines)
              { m with stage := .holding, stamp := some st, done := some r.entry, lines := r.lines,
                       admitted := keptLines before m r.lines, data := [] }
          | _, _ => a) (d2.modDur fun u => { u with grouped := u.grouped ++ [(st, rs.flatMap fun r => r.lines)] })

/-- ORDER_STAMP (R156): `bad` names a line whose check fails at the merge (R290). -/
def orderStamp (conn : Nat) (seq : Word) (bad : Option Nat) (d : Dev) : Dev :=
  match findOp d conn seq, getConn d conn with
  | some o, some c =>
    let ms := together d o
    let fold := c.ident.fold
    if !stampDue d ms || !(o.group.isNone || ms.any fun p => p.last) then refuseAtLimit d
    else
      match firstRefused fold d ms with
      | some (p, st, n) => failOp d p st n
      | none => if o.group.isSome then stampGroup d ms fold bad else stampOne d o fold bad
  | _, _ => d

/-- COW_LEAF_COPY (R197): a shared leaf that an admitted operation will change is copied whole into the changing region's
own leaf, before the stamp. -/
def copyLeaf (conn : Nat) (seq : Word) (leaf : Nat) (d : Dev) : Dev :=
  match findOp d conn seq with
  | some o =>
    if o.stage = .stamp && (cowLeaves d o.lines).contains leaf then
      setOp (noteLeaves (ownLeaves (markDirty d) (d.twin.lastStamp + 1) [leaf]) (d.twin.lastStamp + 1) [leaf])
        { o with admitted := o.admitted.map fun l => dropNums l (List.range' (leaf * 64) 64) ++
            (l.filter fun x => x / 64 = leaf && o.lines.contains x) }
    else d
  | none => d

/-! ## The datapath (R199 to R203) -/

/-- Where the datapath's next unit of work on an operation ends, as an offset of its span (R199): a chunk of at most 64 KiB that
ends at a line of the destination, so that each line changes at one instant (R149), or for a WRITE_ZERO one partial line at
either end. -/
def chunkEnd (o : Op) : Nat :=
  let n := o.desc.length.toNat
  match o.desc.op, o.tr1, o.tr2 with
  | .copy, _, some u =>
    let b := u.base + o.desc.offset2.toNat
    min n (roundDown (b + o.chunk + 65536) 64 - b)
  | _, some t, _ =>
    let a := t.base + o.desc.offset.toNat
    if (a + o.chunk) % 64 ≠ 0 then min n (roundUp (a + o.chunk) 64 - a)
    else if n < o.chunk + 64 then n
    else min (o.chunk + 65536) (roundDown (a + n) 64 - a)
  | _, _, _ => n

/-- Work one unit of a running COPY or WRITE_ZERO: its bytes, and the poison of the lines it writes. -/
def workChunk (d : Dev) (o : Op) : Dev :=
  let n := o.desc.length.toNat
  let lo := o.chunk
  let hi := chunkEnd o
  let d1 :=
    match o.desc.op, o.tr1, o.tr2 with
    | .copy, some t, some u =>
      let a := t.base + o.desc.offset.toNat
      let b := u.base + o.desc.offset2.toNat
      movePoison ((spanLines (b + lo) (hi - lo)).foldl (useLine true) { d with mem := placeCells d.mem a b lo hi o.src })
        o.srcBad a b n lo hi
    | .writeZero, some t, _ =>
      let a := t.base + o.desc.offset.toNat
      let ls := spanLines (a + lo) (hi - lo)
      clearPoison (ls.foldl (useLine true) { d with mem := zeroBytes d.mem (a + lo) (hi - lo) })
        ((wholeLines a n).filter fun l => ls.contains l)
    | _, _, _ => d
  setOp d1 { o with chunk := hi, stage := if n ≤ hi then .holding else .running, src := if n ≤ hi then [] else o.src,
                    srcBad := if n ≤ hi then [] else o.srcBad }

/-- The operations that a gallery's datapath holds: the oldest 16 running (R200). -/
def onDatapath (d : Dev) (g : Nat) : List Op :=
  (d.net.ops.filter fun o => homeOf o.conn = g && o.stage = .running).take 16

/-- The copy-on-write leaf that a gallery's datapath copies next: that of the oldest operation that waits for one (R198, R200). -/
def nextCow (d : Dev) (g : Nat) : Option (Op × Nat) :=
  d.net.ops.findSome? fun o =>
    if homeOf o.conn = g && o.stage = .stamp then (cowLeaves d o.lines).head?.map fun l => (o, l) else none

/-- DATAPATH_CHUNK: copy-on-write leaves go ahead of every chunk; else the next operation in round-robin order works one
(R200). -/
def chunkTurn (g : Nat) (d : Dev) : Dev :=
  match nextCow d g with
  | some (o, l) => copyLeaf o.conn o.seq l d
  | none =>
    let os := onDatapath d g
    let i := (getKey d.net.dpTurns g).getD 0
    match os[i % max 1 os.length]? with
    | some o =>
      let step := if chunkEnd o < o.desc.length.toNat then i % os.length + 1 else i % os.length
      (workChunk d o).modNet fun t => { t with dpTurns := putKey t.dpTurns g step }
    | none => d

/-- All the work left of one operation. -/
def workAll : Nat → Dev → Nat → Word → Dev
  | 0, d, _, _ => d
  | k + 1, d, conn, seq =>
    match findOp d conn seq with
    | some o => if o.stage = .running then workAll k (workChunk d o) conn seq else d
    | none => d

/-! ## Completion -/

/-- The level that a failed CAS reports: that of the value it observed (R161). -/
def observedLevel (d : Dev) (ls : List Nat) : Level :=
  if heldAt d .media none ls then .media else if d.twin.st = .active then .twin else .loc

/-- The lines that a failed CAS observed. -/
def casLines (o : Op) : List Nat :=
  match o.desc.op, o.tr1 with
  | .cas, some t => spanLines (t.base + o.desc.offset.toNat) o.desc.length.toNat
  | _, _ => []

/-- The operation's lines are held at the connection's level, so its entry may be sent (R145, R158, R160, R225). -/
def levelReached (d : Dev) (c : Conn) (o : Op) (e : Entry) : Bool :=
  if e.status = .doneDuplicate then
    !framesOut c o.seq &&
    (e.level = .none || c.changed.all fun p => heldAt d c.ident.level (some p.2) [p.1])
  else if o.desc.op = .cas && e.status = .done && e.detail = 0 then (casLines o).all fun l => !mirrorHeld d l
  else if o.lines.isEmpty then true
  else heldAt d c.ident.level o.stamp o.lines

/-- The entry with the level it reports (R161, R162, R225): in a group the connection's level, as for every member (R184). -/
def withLevel (d : Dev) (c : Conn) (o : Op) (e : Entry) : Entry :=
  if e.status = .doneDuplicate then { e with level := if e.level = .none then .none else reported d c.ident.level }
  else if e.status ≠ .done then { e with level := .none }
  else if o.desc.op = .cas && e.detail = 0 && o.group.isNone then { e with level := observedLevel d (casLines o) }
  else { e with level := reported d c.ident.level }

/-- Lines whose changes no longer need watching for PERSIST: clean and acknowledged. -/
def pruneChanged (d : Dev) (n : Nat) : Dev :=
  modConn d n fun c => { c with changed := c.changed.filter fun p => !heldAt d .media (some p.2) [p.1] }

/-- COMPLETION_LEVEL_REACHED for an operation that holds its entry (R160), and for a group as a whole (R184). A standby learns
of one held in flash by a LEVEL record (R225). -/
def complete (conn : Nat) (seq : Word) (d : Dev) : Dev :=
  match findOp d conn seq, getConn d conn with
  | some o, some c =>
    if o.stage ≠ .holding then d
    else
      let ms := together d o
      let ready := ms.all fun m => m.stage = .holding && (match m.done with | some e => levelReached d c m e | none => false)
      if ready then
        let d1 := match c.ident.level, o.stamp with
          | .media, some st => if d.twin.st = .active then tell d (.level [st]) else d
          | _, _ => d
        pruneChanged (ms.foldl (fun a m => match m.done with | some e => endOp a m (withLevel d c m e) none | none => a) d1)
          conn
      else d
  | _, _ => d

/-! ## READ (R168) -/

/-- The runs of bytes of a span that lie in no failed line, as offset and length: frames of `seg` bytes from each run's start on,
so that the last frame of a run is the short one (the spec gives PUSH frames no layout: DESIGN CHOICE, assumption 46). -/
def goodRuns (a : Nat) (bad : List Nat) (seg : Nat) : Nat → Nat → Nat → List (Nat × Nat)
  | 0, off, cur => if cur = 0 then [] else [(off - cur, cur)]
  | k + 1, off, cur =>
    if bad.contains (lineOf (a + off)) then
      (if cur = 0 then [] else [(off - cur, cur)]) ++ goodRuns a bad seg k (off + 1) 0
    else if seg ≤ cur + 1 then (off - cur, cur + 1) :: goodRuns a bad seg k (off + 1) 0
    else goodRuns a bad seg k (off + 1) (cur + 1)

/-- The PUSH frames of a READ's data on its path, and the RDATA records of a connection with TWIN_READ (R93, R226). -/
def pushRuns (d : Dev) (n : Nat) (c : Conn) (x : Desc) (a : Nat) (runs : List (Nat × Nat)) : Dev :=
  runs.foldl (fun acc r =>
    let bs := readBytes d.mem (a + r.1) r.2
    let addr := x.caddr + BitVec.ofNat 64 r.1
    let acc1 := queueFrame acc n (some (routeOf c x.seq)) (.push (some x.seq) addr x.ckey bs none)
    if c.ident.twinRead then tell acc1 (.rdata n x.seq r.1 addr x.ckey bs) else acc1) d

/-- The data frames of a READ and its ending: read data of 256 bytes or less travels with the entry, in the last frame where
failed lines part it (R44). -/
def pushRead (d : Dev) (o : Op) (c : Conn) (a : Nat) (runs : List (Nat × Nat)) (e : Entry) : Dev :=
  let x := o.desc
  match (if runs.foldl (fun k r => k + r.2) 0 ≤ 256 then runs.getLast? else none) with
  | some r =>
    let bs := readBytes d.mem (a + r.1) r.2
    let addr := x.caddr + BitVec.ofNat 64 r.1
    let d1 := pushRuns d o.conn c x a runs.dropLast
    endOp (if c.ident.twinRead then tell d1 (.rdata o.conn x.seq r.1 addr x.ckey bs) else d1) o e (some (addr, x.ckey, bs))
  | none => endOp (pushRuns d o.conn c x a runs) o e none

/-- What the checks of a line on its way out come to (R291, R294): a copy that fails as it leaves its slice is refetched when the
line is clean and poisoned when it is dirty; one that fails in the sealing lane is refetched once, and poisoned when it fails
again. -/
def checkFails (d : Dev) (f : Nat × CheckFind) : Dev :=
  match f.2 with
  | .flash => d
  | .slice => if d.dur.dirty.contains f.1 then poisonLines d 1 [f.1] else useLine false d f.1
  | .lane => useLine false d f.1
  | .laneTwice => mergeFails d f.1

/-- READ: every line that is neither poisoned nor uncorrectable is pushed (R168). `o.failed` lists the lines of the span that
this READ's own fill could not read, `finds` the line checks that fail on the way out. -/
def runRead (d : Dev) (o : Op) (c : Conn) (finds : List (Nat × CheckFind)) : Dev :=
  match o.tr1 with
  | none => d
  | some t =>
    let x := o.desc
    let a := t.base + x.offset.toNat
    let n := x.length.toNat
    if (spanLines a n).any fun l => mirrorHeld d l then d
    else
      let d1 := (finds.filter fun f => (spanLines a n).contains f.1 && !d.dur.poison.contains f.1).foldl checkFails d
      let bad := (spanLines a n).filter fun l => d1.dur.poison.contains l || o.failed.contains l
      let runs := goodRuns a bad (segOf d1 (portOfPath d1 c.ident.mgmt o.conn (routeOf c x.seq))) n 0 0
      let e := match (spanLines a n).find? fun l => bad.contains l with
        | none => doneEntry x 0 n 0
        | some l =>
          { endEntry x (if o.failed.contains l then .mediaUncorrectable else .poisonedLine) (l * 64 - a) with
            xfer := BitVec.ofNat 32 (runs.foldl (fun k r => k + r.2) 0) }
      pushRead d1 o c a runs e

/-! ## WAIT, PERSIST, HEALTH, NOP -/

/-- WAIT at its start (R172): the target must be a connection of the same fold that is not IDLE. -/
def startWait (d : Dev) (o : Op) (c : Conn) : Dev :=
  let tgt := (o.desc.handle2 &&& 0xFFFFF).toNat
  match getConn d tgt with
  | some t =>
    if t.ident.fold ≠ c.ident.fold || t.state = .idle then failOp d o .accessViolation 6
    else if o.desc.offset2.toNat ≤ t.count then endOp d o (waitEntry o .done t.count) none
    else if o.desc.length = 0 then endOp d o (waitEntry o .waitTimeout t.count) none
    else setOp d { o with stage := .waiting, target := some tgt }
  | none => failOp d o .accessViolation 6

/-- WAIT_TIMEOUT_EXPIRY (R172). -/
def waitExpiry (conn : Nat) (seq : Word) (d : Dev) : Dev :=
  match findOp d conn seq with
  | some o =>
    (match o.stage, o.target with
     | .waiting, some t =>
       endOp d o (waitEntry o .waitTimeout (match getConn d t with | some c => c.count | none => 0)) none
     | _, _ => d)
  | none => d

/-- PERSIST completes when every earlier operation of the connection has ended and the lines they changed are held at the
level named (R163, R164); TWIN while unpaired completes at LOCAL. -/
def runPersist (d : Dev) (o : Op) (c : Conn) : Dev :=
  let want := levelOfByte o.desc.level c.ident.level
  let lvl := reported d want
  if (earlierOps d o).isEmpty && c.changed.all (fun p => heldAt d lvl (some p.2) [p.1]) then
    endOp d o { doneEntry o.desc 0 0 0 with level := lvl } none
  else d

/-- An operation without a stamp that is ready runs to its ending; a register operation is left to the register path. -/
def runReady (conn : Nat) (seq : Word) (finds : List (Nat × CheckFind)) (d : Dev) : Dev :=
  match findOp d conn seq, getConn d conn with
  | some o, some c =>
    if o.stage ≠ .ready then d
    else
      match o.desc.op with
      | .read => runRead d o c finds
      | .write | .writeZero | .copy => endOp d o (doneEntry o.desc 0 0 0) none
      | .nop => endOp d o (doneEntry o.desc 0 0 0) none
      | .health => endOp d o (doneEntry o.desc 0 0 (lifeOf d)) none
      | .wait => startWait d o c
      | .persist => runPersist d o c
      | _ => d
  | _, _ => d

/-! ## An operation as far as it goes -/

/-- The operation named by a row is taken through its stages as far as it goes now. -/
def advance (conn : Nat) (seq : Word) (bad : List Nat) (finds : List (Nat × CheckFind)) (d : Dev) : Dev :=
  let d1 := startOp conn seq d
  let d2 := releaseOrder true conn seq (releaseOrder false conn seq d1)
  let d3 := fillDone conn seq bad (pullDone conn seq none d2)
  let d4 := orderStamp conn seq none (admitAll d3)
  complete conn seq (workAll 260 (runReady conn seq finds d4) conn seq)

/-- The same, only where the operation's opcode is the row's. -/
def advanceAs (op : Opcode) (conn : Nat) (seq : Word) (bad : List Nat) (finds : List (Nat × CheckFind)) (d : Dev) : Dev :=
  match findOp d conn seq with
  | some o => if o.desc.op = op then advance conn seq bad finds d else d
  | none => d

/-- The CONNECT_RSPs that waited leave: the connection is ARMED, its record has its stamp, and where a twin takes the stream it has
applied the record (R118). -/
def flushSetups (d : Dev) : Dev :=
  d.net.conns.foldl (fun a x =>
    match x.2.rspDue, x.2.setupSt with
    | some src, some st =>
      if x.2.state = .armed && (!streaming d || decide (st ≤ d.twin.peerStamp)) then
        emitTo (modConn a x.1 fun c => { c with rspDue := none }) (if x.2.ident.mgmt then 16 else portOfPath d false x.1 0) src.ip
          (outRsp src x.1 x.2.ident.rsp)
      else a
    | _, _ => a) d

/-- Complete every operation whose level has been reached, in the order of the tags; READs and PERSISTs that waited for it
run on (R158, R163, R178). -/
def completeAll (d : Dev) : Dev :=
  flushSetups (d.net.ops.foldl (fun a o =>
    if o.desc.op = .read || o.desc.op = .persist then runReady o.conn o.seq [] (complete o.conn o.seq a)
    else complete o.conn o.seq a) d)

end Sys2Proof.Machine
end

