-- ==== Sys2Proof/Machine/Frames.lean ====
section
/-! DEFINITION. Sending a connection's frames: nonce counter, path sequence numbers, retention and pull pools, and moving a
DOWN path's frames (R91, R95 to R103, R520). -/
namespace Sys2Proof.Machine

/-- Landings of a port: one for each lane (R102). -/
def landings (d : Dev) (p : Nat) : Nat := if p < 16 then lanesPerPort d else 0

/-- The port's landings include landing 15, whose pools the management port shares while it is up (R85). -/
def lends (d : Dev) (p : Nat) : Bool :=
  decide (p < 16) && decide (15 < p + lanesPerPort d) && (match d.net.ports[16]? with | some x => x.link | none => false)

/-- Bytes of the pull pool and of the egress retention pool of a port (R85, R102). -/
def pullPool (d : Dev) (p : Nat) : Nat :=
  if p < 16 then landings d p * 524288 - (if lends d p then 65536 else 0) else 49152
def egressPool (d : Dev) (p : Nat) : Nat :=
  if p < 16 then landings d p * 458752 - (if lends d p then 65536 else 0) else 65536

/-- Bytes of plaintext that a frame retains: header and body (R89 to R93, R97, R100, R138). -/
def frameBytes (b : TxBody) : Nat :=
  32 + (match b with
    | .readReq _ _ _ _ _ => 24
    | .push _ _ _ dat ce => 32 + dat.length + (if ce.isSome then 32 else 0)
    | .pathReset _ _ => 8
    | .disconnect _ _ => 8
    | .ack _ _ _ _ _ => 24
    | .probe => 0)

/-- Egress retention and pull space in use on a port (R102, R103). -/
def egressUsed (d : Dev) (p : Nat) : Nat :=
  d.net.conns.foldl (fun n x =>
    (List.range x.2.paths.length).foldl (fun n i =>
      if portOfPath d x.2.ident.mgmt x.1 i = p then
        n + (match x.2.paths[i]? with | some q => q.unacked.foldl (fun k u => k + u.bytes) 0 | none => 0)
      else n) n) 0

def pullUsed (d : Dev) (p : Nat) : Nat :=
  d.net.conns.foldl (fun n x =>
    x.2.pulls.foldl (fun n q => if q.sent && portOfPath d x.2.ident.mgmt x.1 q.path = p then n + q.held else n) n) 0

/-- The TXC of this unit's next frame may be used: it lies below the high-water mark of the connection record (R520). -/
def txcOk (c : Conn) : Bool := decide (c.txc < c.txcHigh) && decide (c.txc < 2 ^ 64)

/-- The counter has used a value: the mark rises by 2^20 when the counter comes within 2^16 of it, except while both image
slots hold live images (R274, R520). -/
def spendTxc (d : Dev) (c : Conn) : Conn :=
  let t := c.txc + 1
  { c with txc := t, txcHigh := if c.txcHigh < t + 65536 && !slotsFull d then c.txcHigh + 1048576 else c.txcHigh }

/-- The port that carries a path of a connection. -/
def pathPort (d : Dev) (n : Nat) (c : Conn) (path : Nat) : Nat := portOfPath d c.ident.mgmt n path

/-- Change one path of a connection. -/
def modPath (c : Conn) (i : Nat) (f : Path → Path) : Conn := { c with paths := modAt c.paths i f }

/-- Put a frame of a connection on the wire of its path (R84, R89). -/
def emitFrame (d : Dev) (n : Nat) (c : Conn) (path : Nat) (psn : Word) (txc : Nat) (b : TxBody) : Dev :=
  emitTo d (portOfPath d c.ident.mgmt n path) c.ident.clientIp (outFrame d n path psn txc b)

/-- Send a sequenced frame now: it consumes a PSN and a TXC and is kept until it is acknowledged (R95, R98, R102). -/
def sendSeq (d : Dev) (n path : Nat) (b : TxBody) : Dev :=
  match getConn d n with
  | none => d
  | some c =>
    match c.paths[path]? with
    | none => d
    | some p =>
      if !txcOk c then d
      else
        let u : Unacked :=
          { psn := p.nextPsn, txc := c.txc, body := b, bytes := frameBytes b, early := false, got := false }
        emitFrame (setConn d n (some (modPath (spendTxc d c) path fun q =>
          { q with nextPsn := q.nextPsn + 1, unacked := q.unacked ++ [u] }))) n c path p.nextPsn c.txc b

/-- Send an ACK or a PROBE: a TXC and no PSN (R90, R95). -/
def sendPlain (d : Dev) (n path : Nat) (b : TxBody) : Dev :=
  match getConn d n with
  | none => d
  | some c => if !txcOk c then d else emitFrame (setConn d n (some (spendTxc d c))) n c path 0 c.txc b

/-- Send a kept frame again with a new TXC (R95, R99). -/
def resend (d : Dev) (n path : Nat) (u : Unacked) : Dev :=
  match getConn d n with
  | none => d
  | some c =>
    if !txcOk c then d
    else emitFrame (setConn d n (some (modPath (spendTxc d c) path fun q =>
      { q with unacked := q.unacked.map fun x => if x.psn = u.psn then { x with txc := c.txc, early := true } else x })))
      n c path u.psn c.txc u.body

/-- SACK: bit i says that PSN E + 1 + i was received (R97). -/
def sackOf (p : Path) : DWord :=
  p.rxGot.foldl (fun w s =>
    let i := (s - p.rxE).toNat
    if 1 ≤ i ∧ i ≤ 64 then w ||| (1#64 <<< (i - 1)) else w) 0

/-- Send an ACK for a path: its counts start again (R97). -/
def sendAck (d : Dev) (n path : Nat) : Dev :=
  match getConn d n with
  | none => d
  | some c =>
    match c.paths[path]? with
    | none => d
    | some p =>
      sendPlain (setConn d n (some (modPath c path fun q => { q with ceCnt := 0, rxCnt := 0, ackOwed := 0 }))) n path
        (.ack p.rxE p.echoTs (sackOf p) p.ceCnt p.rxCnt)

/-- A queued PATH_RESET names a path: until it has left, the path sends nothing (R100). -/
def resetQueued (c : Conn) (path : Nat) : Bool :=
  c.sendq.any fun f => match f.2 with | .pathReset p _ => p = path | _ => false

/-- A path takes one more sequenced frame: it is UP with its window and the egress retention pool open (R98, R102). A
gallery in reset sends nothing (R525). -/
def pathOpen (d : Dev) (n : Nat) (c : Conn) (path bytes : Nat) : Bool :=
  match c.paths[path]? with
  | none => false
  | some p =>
    p.up && !resetQueued c path && decide (p.unacked.length < 4096) && txcOk c && !d.rst.galReset.contains (homeOf n) &&
    decide (egressUsed d (pathPort d n c path) + bytes ≤ egressPool d (pathPort d n c path))

/-- What of a DOWN path's unacknowledged frames is sent anew as it stands; a READ_REQ leaves again by READ_REQ_SEND, once room is
reserved for it on the new path's port (R100, R103). -/
def movedFrame (u : Unacked) : Bool := match u.body with | .readReq _ _ _ _ _ => false | _ => !u.got
def movedReq (us : List Unacked) (p : Pull) : Bool :=
  us.any fun u => !u.got && (match u.body with | .readReq r _ _ _ _ => r = p.rid | _ => false)

/-- Move what a DOWN path still has to deliver to an UP path (R100): a PATH_RESET with the DOWN path's next PSN, then the
content of each unacknowledged frame as a new frame; they leave as the new path has room (R102). Nothing is sent when nothing is
unacknowledged. -/
def movePath (d : Dev) (n path q : Nat) : Dev :=
  modConn d n fun c =>
    match c.paths[path]? with
    | none => c
    | some p =>
      let c1 := { c with sendq := c.sendq.map (fun s => if s.1 = some path then (some q, s.2) else s),
                         routes := c.routes.map (fun r => if r.2 = path then (r.1, q) else r) }
      if p.unacked.all fun u => u.got then c1
      else
        modPath
          { c1 with
            sendq := (some q, .pathReset path p.nextPsn) :: ((p.unacked.filter movedFrame).map fun u => (some q, u.body)) ++
              c1.sendq,
            pulls := c1.pulls.map fun r => if movedReq p.unacked r then
              { r with path := q, sent := false, acked := false, first := false, got := [], held := 0, bytes := [] } else r }
          path fun x => { x with unacked := [] }

/-- Mark a path DOWN (R100); 0x0C05 goes to the fold owner (R101). -/
def markDown (d : Dev) (n path : Nat) : Dev :=
  match getConn d n with
  | none => d
  | some c =>
    match c.paths[path]? with
    | none => d
    | some p =>
      if !p.up then d
      else
        raiseFolds (setConn d n (some (modPath c path fun q => { q with up := false }))) 0x0C05
          (.port (pathPort d n c path)) (valuesPayload []) [c.ident.fold]

/-- The UP path that takes a DOWN path's frames: R100 leaves open which one; the model takes the lowest (DESIGN CHOICE,
assumption 47). -/
def takeOver (d : Dev) (n path : Nat) : Dev :=
  match getConn d n with
  | none => d
  | some c => match upPaths c with | [] => d | q :: _ => movePath d n path q

/-- A path goes DOWN (R100). -/
def pathDown (d : Dev) (n path : Nat) : Dev :=
  match getConn d n with
  | none => d
  | some c => if (c.paths[path]?.map fun p => p.up) = some true then takeOver (markDown d n path) n path else d

/-- A path comes UP again (R100); frames of paths that found no UP path to move to follow it. -/
def pathUp (d : Dev) (n path : Nat) : Dev :=
  let d1 := modConn d n fun c => modPath c path fun q => { q with up := true, expiries := 0 }
  match getConn d1 n with
  | none => d1
  | some c =>
    (List.range c.paths.length).foldl (fun a i =>
      match c.paths[i]? with
      | some p => if p.up then a else movePath a n i path
      | none => a) d1

end Sys2Proof.Machine
end

