-- ==== Sys2Proof/Machine/ConnState.lean ====
section
/-! DEFINITION. The states of a connection and every move between them (R137 to R142): on the serving unit with its CTRL
record, on a standby from that record (R222). -/
namespace Sys2Proof.Machine

/-- A READ_REQ fetches descriptors. -/
def isRing (p : Pull) : Bool := match p.what with | .ring _ _ => true | .data _ _ => false

/-- WAITs on a connection that is released end WAIT_TIMEOUT at once with its last count (R172). -/
def endWaitsOn (d : Dev) (n : Nat) : Dev :=
  let count := match getConn d n with | some c => c.count | none => 0
  (d.net.ops.filter fun o => o.stage = .waiting && o.target = some n).foldl
    (fun a o => endOp a o (waitEntry o .waitTimeout count) none) d

/-- End an operation that has no stamp with an abort status and its entry (R141); a group's members end singly (R187). A descriptor
whose sequence is executed already is left: it can only end DONE_DUPLICATE (R134). -/
def abortOp (st : Status) (d : Dev) (o : Op) : Dev :=
  let executed := match getConn d o.conn with | some c => isExecuted c o.seq | none => false
  if o.stamp.isSome || executed then d else endOp d o (endEntry o.desc st 0) none

/-- The fetched members of the group that is still open as fetching stops: the descriptors with GROUP set behind the last one
with GROUP clear (R179, R187). -/
def openMembers (d : Dev) (n : Nat) : List Op := ((opsOf d n).reverse.takeWhile fun o => o.desc.inGroup).reverse

/-- The quiesce that ends with no work left: the cause's status for what must end now (R141, R187). A closed group, started or
not, runs to its ending under DRAIN. -/
def quiesceWork (d : Dev) (n : Nat) (abort : Bool) (cause : Status) : Dev :=
  let gone := openMembers d n
  let d1 := (if abort then opsOf d n else gone).foldl (abortOp cause) d
  if abort || !gone.isEmpty then
    d1.modNet fun t =>
      { t with groups := t.groups.filter fun g => g.conn ≠ n, badTail := t.badTail.filter fun b => b.1 ≠ n }
  else d1

/-- Entry into ERROR (R138, R142): the work without a stamp goes without a mark or an entry; stamped work completes inside. -/
def errorWork (d : Dev) (n : Nat) : Dev :=
  let d1 := (opsOf d n).foldl (fun a o => if o.stamp.isSome then a else forgetOp a o) d
  d1.modNet fun t =>
    { t with groups := t.groups.filter fun g => g.conn ≠ n, badTail := t.badTail.filter fun b => b.1 ≠ n }

/-- A path at set-up (R98, R104): both directions start at their agreed PSN, the rate controllers at the line rate. -/
def newPath (psnG psnC : Word) (line : Rat) (rtoInit : Rat) : Path :=
  let rc : RateCtl := { rate := line, alpha := 0, clean := 0, srtt := 0, rttvar := 0, sampled := false, samples := [],
                        base := 0, ceSeen := false, marks := 0, frames := 0 }
  { up := true, nextPsn := psnG, unacked := [], rxE := psnC, rxGot := [], echoTs := 0, ceCnt := 0, rxCnt := 0,
    ackOwed := 0, rto := rtoInit, expiries := 0, push := rc, pull := rc }

/-- Line rate of a port in Gb/s (R80, R85). -/
def lineRate (d : Dev) (p : Nat) : Rat := if p < 16 then ((lanesPerPort d * 200 : Nat) : Rat) else 25

/-- RTO_INIT of a port in ns: ETH_TMR1 [31:18], in µs (R554). -/
def rtoInit (d : Dev) (p : Nat) : Rat := ((wbits (reg d (tmrBase p + 0x84)) 31 18 * 1000 : Nat) : Rat)

/-- The paths of a connection on this unit; a path whose port has no link starts DOWN. -/
def freshPaths (d : Dev) (n : Nat) (i : ConnIdent) : List Path :=
  (List.range i.npath).map fun k =>
    let p := portOfPath d i.mgmt n k
    { newPath i.initPsnG i.initPsnC (lineRate d p) (rtoInit d p) with
      up := match d.net.ports[p]? with | some x => x.link | none => false }

/-- A connection as set-up makes it (R118, R520): ARMED, both marks at 2^20 and its counter at 1. -/
def newConn (d : Dev) (n : Nat) (i : ConnIdent) : Conn :=
  { ident := i, state := .armed, abort := false, cause := .done, reason := 0, byClient := false, resuming := false,
    sqTail := i.initSeq, ackSeq := i.initSeq, cqHead0 := 0, cqHead1 := 0, f := i.initSeq, x := i.initSeq, executed := [],
    store := [], written := 0, twinWritten := 0, refetch := false, txc := 1, txcHigh := 1048576, nextRid := 0, pulls := [],
    sendq := [], discSent := false, paths := freshPaths d n i, count := 0, winViol := 0, tagFail := 0, failTimes := [],
    endDue := [], changed := [], dupCnt := 0, abortCnt := 0, rspDue := none, setupSt := none, routes := [] }

/-- What a resumed connection keeps and what it takes anew (R139): sequences, marks, store and count stay; keys, rings,
paths and both completion halves start afresh. Data of READs that the client has not acknowledged leaves on the new paths (R134). -/
def resumedConn (d : Dev) (n : Nat) (c : Conn) (i : ConnIdent) : Conn :=
  { newConn d n { i with initSeq := c.ident.initSeq, store := c.ident.store } with
    resuming := true, sqTail := c.sqTail, ackSeq := c.ackSeq, f := c.f, x := c.x, executed := c.executed, store := c.store,
    count := c.count, refetch := true, changed := c.changed, winViol := c.winViol, tagFail := c.tagFail,
    dupCnt := c.dupCnt, abortCnt := c.abortCnt, reason := c.reason, sendq := c.sendq,
    rspDue := c.rspDue, setupSt := c.setupSt }

/-- A slot without an owner keeps its status and arguments (R73). -/
def releaseSlot (s : Slot) : Slot := if s.run.isSome then { s with release := true } else { s with owner := none, release := false }

/-- The command slots that a management connection took are released when it leaves ACTIVE (R73). -/
def leaveActive (d : Dev) (n : Nat) : Dev :=
  d.modFolds fun f => { f with slots := f.slots.map fun s => if s.owner = some (.conn n) then releaseSlot s else s }

/-- The data of executed READs that the client has not acknowledged as the connection falls into ERROR: the frames go with the
old paths, and their data leaves again after a RESUME, because a DONE_DUPLICATE says that it is placed (R134). The entries are
not kept: a DONE_DUPLICATE takes their place. The spec names no other way for that data (DESIGN CHOICE, assumption 48). -/
def unplaced (c : Conn) : List (Option Nat × TxBody) :=
  let bodies := (c.paths.flatMap fun p => (p.unacked.filter fun u => !u.got).map fun u => u.body) ++ c.sendq.map fun f => f.2
  bodies.filterMap fun b =>
    match b with
    | .push (some s) a k dat _ => if isExecuted c s && !dat.isEmpty then some (none, .push (some s) a k dat none) else none
    | _ => none

/-- R137 lists a change from the connection's state; R521 moves every connection that is not IDLE. -/
def changeLegal (c : Conn) (ch : ConnChange) : Bool :=
  match ch with
  | .activate => c.state = .armed
  | .quiesce abort _ _ => c.state = .active || (c.state = .quiescing && !c.abort && abort)
  | .disable => c.state = .quiescing
  | .fail r => c.state = .active || c.state = .quiescing || (r = 0x15 && c.state ≠ .error)
  | .free => c.state = .armed || c.state = .disabled || c.state = .error
  | .rearm _ => c.state = .error
  | .rearmFailed => c.state = .armed

/-- Apply a change of a connection's state on this unit, where R137 lists it (R137, R215, R222). -/
def applyChange (d : Dev) (n : Nat) (ch : ConnChange) : Dev :=
  match getConn d n with
  | none => d
  | some c =>
    if !changeLegal c ch then d else
    match ch with
    | .activate => setConn d n (some { c with state := .active, resuming := false })
    | .quiesce abort reason cause =>
      let c1 := { c with state := .quiescing, abort := abort, cause := cause,
                         reason := if c.state = .quiescing then c.reason else reason,
                         byClient := c.byClient || (c.state = .active && reason = 0x01),
                         pulls := c.pulls.filter fun p => !isRing p }
      quiesceWork (leaveActive (setConn d n (some c1)) n) n abort cause
    | .disable => setConn d n (some { c with state := .disabled })
    | .fail reason =>
      errorWork (leaveActive (setConn d n (some
        { c with state := .error, reason := reason, resuming := false, pulls := [], sendq := unplaced c, routes := [],
                 rspDue := none, paths := c.paths.map fun p => { p with unacked := [] } })) n) n
    | .free =>
      let d1 := endWaitsOn d n
      ((setConn d1 n none).modNet fun t => { t with ctxCache := t.ctxCache.filter fun x => x ≠ n }).modEvt fun v =>
        { v with rings := v.rings.filter fun r => r.2.conn ≠ n }
    | .rearm i => setConn d n (some (resumedConn d n c i))
    | .rearmFailed =>
      setConn d n (some { c with ident := { c.ident with key := 0, confirmC := 0 }, state := .error, resuming := false, paths := [],
                                 pulls := [], rspDue := none })

/-- A change that the serving unit makes: through the order stream, and here (R222). -/
def changeConn (d : Dev) (n : Nat) (ch : ConnChange) : Dev := applyChange (streamCtrl d (.connChange n ch)) n ch

/-- Send a DISCONNECT now, where a path still may send one (R137, R138): LAST_SEQ is F. -/
def sendDisconnect (d : Dev) (n : Nat) (c : Conn) (reason : Nat) : Dev :=
  match (upPaths c).find? fun i => pathOpen d n c i 40 with
  | some i => sendSeq d n i (.disconnect reason c.f)
  | none => d

/-- A connection that a connection reset named is freed without a RELEASE once it is DISABLED, or has fallen into ERROR, and the
reset ends (R529, R535). -/
def freeAfterReset (d : Dev) (n : Nat) : Dev :=
  if d.rst.freeAfter.contains n && (connState d n = .disabled || connState d n = .error) then
    let d1 := (changeConn d n .free).modRst fun r => { r with freeAfter := r.freeAfter.filter fun x => x ≠ n }
    if d1.rst.run = some (.connection n) then d1.modRst fun r => { r with run := none, result := .done } else d1
  else d

/-- A connection enters ERROR for a cause of R138; reasons 0x14 and 0x15 send no DISCONNECT. Only a serving unit moves a
connection to ERROR (R222). -/
def toError (d : Dev) (n reason : Nat) : Dev :=
  match getConn d n with
  | none => d
  | some c =>
    if !serving d || !maySend c then d
    else
      let d1 := if reason = 0x14 || reason = 0x15 then d else sendDisconnect d n c reason
      freeAfterReset (changeConn d1 n (.fail reason)) n

/-- Every admitted operation has ended and every frame is acknowledged (R137). -/
def quiesced (d : Dev) (n : Nat) (c : Conn) : Bool :=
  (opsOf d n).isEmpty && c.sendq.isEmpty && c.pulls.isEmpty && c.paths.all fun p => p.unacked.all fun u => u.got

/-- QUIESCE_COMPLETE (R137): the connection becomes DISABLED, and its DISCONNECT leaves as soon as a path has room. -/
def quiesceDone (n : Nat) (d : Dev) : Dev :=
  match getConn d n with
  | none => d
  | some c =>
    if serving d && c.state = .quiescing && quiesced d n c then
      modConn (queueFrame (changeConn d n .disable) n none (.disconnect c.reason c.f)) n fun c => { c with discSent := true }
    else d

/-- The DISCONNECT of a connection that the client's own began has been acknowledged: the context is freed (R137). -/
def freeIfDone (d : Dev) (n : Nat) : Dev :=
  match getConn d n with
  | none => d
  | some c =>
    if serving d && c.state = .disabled && c.byClient && c.discSent && c.sendq.isEmpty &&
        c.paths.all (fun p => p.unacked.all fun u => u.got) then
      changeConn d n .free
    else d

/-- Begin a quiesce where R137 lists it: from ACTIVE, or from QUIESCING under DRAIN to ABORT. -/
def beginQuiesce (d : Dev) (n : Nat) (abort : Bool) (reason : Nat) (cause : Status) : Dev :=
  match getConn d n with
  | none => d
  | some c =>
    if c.state = .active || (c.state = .quiescing && !c.abort && abort) then changeConn d n (.quiesce abort reason cause)
    else d

end Sys2Proof.Machine
end

