-- ==== Sys2Proof/Machine/Network.lean ====
section
/-! DEFINITION. The ports: frames that are dropped, strangers, ARP and Neighbor Discovery, and links (R79 to R88, R100, R101,
R106 to R108, R243). -/
namespace Sys2Proof.Machine

/-- The address of a data port in PATHS and PORTS: IPv6 when V6_EN is 1, else IPv4-mapped; zero for a port not in use
(R114, R215). -/
def portAddr (d : Dev) (p : Nat) : BitVec 128 :=
  if portInUse d p then (if v6On d p then ip6Of d p else mapped4 (ip4Of d p)) else 0

/-- Count a malformed Fenhel frame (R106). -/
def malformed (d : Dev) (p : Nat) : Dev := countPort d p 0x110

/-- A tag failure counts on the connection; 64 within 1 s raise 0x0C03 (R106). Once it is raised the model counts the next 64 from
zero, which R106 leaves open (DESIGN CHOICE, assumption 49). -/
def tagFailed (d : Dev) (h : Hdr) : Dev :=
  match getConn d h.conn with
  | none => d
  | some c =>
    let recent := (c.failTimes.filter fun t => decide (d.clock ≤ t + 1000000000)) ++ [d.clock]
    let flood := decide (64 ≤ recent.length)
    let d1 := setConn d h.conn (some { c with tagFail := satAdd c.tagFail 1, failTimes := if flood then [] else recent })
    if flood then raiseOp d1 0x0C03 (.port h.port) [] else d1

/-- Answer a frame counted in ETH_STR_CONN with one UNKNOWN_CONN, while UCR_EN is 1, UCR_RATE is not 0 and the port's bucket
holds a token (R107, R108); the management port never answers. -/
def answerUnknown (d : Dev) (h : Hdr) (reason : Nat) : Dev :=
  match d.net.ports[h.port]? with
  | none => d
  | some p =>
    if h.port < 16 && (reg d (ethBase h.port + 0x10)).getLsbD 31 && regBits d (ethBase h.port + 0x10) 15 0 ≠ 0 &&
        decide (0 < p.ucrTokens) then
      countPort
        (emitTo (d.modNet fun t => { t with ports := modAt t.ports h.port fun x => { x with ucrTokens := x.ucrTokens - 1 } })
          h.port h.src.ip (outUnknown d h.port h.src h.conn h.path reason h.psn)) h.port 0x124
    else d

/-- A frame that names no accepting connection (R106, R107): 1 no such connection, 2 one that accepts no frames. -/
def strayFrame (d : Dev) (h : Hdr) (reason : Nat) : Dev :=
  answerUnknown (raiseOp (countPort d h.port 0x118) 0x0C02 (.port h.port) []) h reason

/-- The checks of R106 from the IP version to the node number: the device where one drops the frame. `ty` is the type that the
command's row stands for. -/
def headCheck (h : Hdr) (ty : FrameType) (d : Dev) : Option Dev :=
  if !linked d h.port then some d
  else if !(v4On d h.port || v6On d h.port) then some (countPort d h.port 0x108)
  else if !fenhelOk h.head h.udpLen || headType h.head ≠ some ty then
    some (raiseOp (malformed d h.port) 0x0C04 (.port h.port) [])
  else if !nodeAccepted d h.dst then some (raiseOp (countPort d h.port 0x114) 0x0C01 (.port h.port) [])
  else none

/-! ## Contexts and the unsolicited pools (R35, R85, R102) -/

/-- Bytes of a frame in a landing: header, body and tag. -/
def heldBytes (h : Hdr) : Nat := h.udpLen

/-- Bytes of the unsolicited pool of a port: 64 KiB for each landing, 16 KiB on the management port (R85, R102). -/
def unsolPool (d : Dev) (p : Nat) : Nat := if p < 16 then lanesPerPort d * 65536 else 16384

/-- A READ_RSP lies in the pull pool, which holds room for it; every other frame of a client lies in the unsolicited pool. -/
def unsolicited (b : FrameBody) : Bool := match b with | .readRsp _ _ _ _ => false | _ => true

/-- Bytes of a port's unsolicited pool in use: the frames that wait for their context. -/
def unsolUsed (d : Dev) (p : Nat) : Nat :=
  d.net.parked.foldl (fun n f => if f.1.port = p && unsolicited f.2 then n + heldBytes f.1 else n) 0

/-- A frame whose connection has a context that is not in its gallery's cache waits (R35); one that finds the unsolicited pool
full is dropped and counted (R102). -/
def parkFrame (d : Dev) (h : Hdr) (b : FrameBody) : Dev :=
  if unsolicited b && decide (unsolPool d h.port < unsolUsed d h.port + heldBytes h) then countPort d h.port 0x120
  else d.modNet fun t => { t with parked := t.parked ++ [(h, b)] }

/-- The frame has to wait for its context. -/
def uncached (d : Dev) (n : Nat) : Bool := (getConn d n).isSome && !d.net.ctxCache.contains n

/-- A context is used: it becomes the most recently used one of its gallery's cache (R35). -/
def touchCtx (d : Dev) (n : Nat) : Dev :=
  if d.net.ctxCache.contains n then d.modNet fun t => { t with ctxCache := n :: t.ctxCache.filter fun x => x ≠ n } else d

/-- A connection has an operation in flight: one with its tag, or a descriptor asked for that holds one. -/
def busyCtx (d : Dev) (n : Nat) : Bool :=
  (d.net.ops.any fun o => o.conn = n) || (match getConn d n with | some c => decide (0 < asked c) | none => false)

/-- A context enters its gallery's cache of 4,096; where the cache is full the least recently used one of a connection without an
operation in flight leaves (R35). The model keeps each context once, so its write-back to DRAM changes nothing (assumption 19). -/
def cacheCtx (d : Dev) (n : Nat) : Dev :=
  d.modNet fun t =>
    let rest := t.ctxCache.filter fun x => x ≠ n
    let same := rest.filter fun x => homeOf x = homeOf n
    let out := if same.length < 4096 then none else same.reverse.find? fun x => !busyCtx d x
    { t with ctxCache := n :: (match out with | some k => rest.filter fun x => x ≠ k | none => rest) }

/-- The frame types that a connection accepts from a client by its state (R140). -/
def acceptsFrame (st : ConnState) (ty : FrameType) : Bool :=
  match st with
  | .active | .quiescing =>
    (match ty with | .doorbell | .readRsp | .ack | .probe | .pathReset | .disconnect => true | _ => false)
  | .disabled => (match ty with | .ack | .probe | .pathReset | .disconnect => true | _ => false)
  | _ => false

/-- The landing of a gallery in reset discards what is steered to it, and counts it (R527). -/
def landingShut (d : Dev) (n : Nat) : Bool := d.rst.galReset.contains (homeOf n)
def countShut (d : Dev) (n : Nat) : Dev := bump d (blockBase .gal (homeOf n) + 0x100) 1

/-- What the checks of R106 find of a client's frame of a connection: the device when the frame is dropped or waits for its
context (R35), or the connection when it passes to the PSN rules. -/
def classify (h : Hdr) (b : FrameBody) (d : Dev) : Except Dev Conn :=
  match headCheck h (bodyType b) d with
  | some e => .error e
  | none =>
    if landingShut d h.conn then .error (countShut d h.conn)
    else if uncached d h.conn then .error (parkFrame d h b)
    else
      match getConn d h.conn with
      | none => .error (strayFrame d h 1)
      | some c =>
        if c.ident.mgmt ≠ (h.port = 16) then .error (strayFrame d h 1)
        else if !acceptsFrame c.state (bodyType b) then .error (strayFrame d h 2)
        else if c.ident.npath ≤ h.path then .error (raiseOp (malformed d h.port) 0x0C04 (.port h.port) [])
        else if !h.tagOk then .error (tagFailed (countPort d h.port 0x11C) h)
        else if !h.bodyOk then .error (malformed d h.port)
        else .ok c

/-- NON_FENHEL_FRAME (R82, R83, R85, R106): the first finding counts. -/
def dropFrame (f : RawFrame) (d : Dev) : Dev :=
  let cfg := reg d (ethBase f.port)
  let vlanOk := if f.port < 16 && cfg.getLsbD 28 then f.vlan = some (wbits cfg 23 12) else f.vlan = none
  if !linked d f.port then d
  else if !f.fcsOk then countPort d f.port 0x100
  else if 9216 < f.length then countPort d f.port 0x104
  else if !vlanOk || f.macCtl || !f.layerOk || !(v4On d f.port || v6On d f.port) then countPort d f.port 0x108
  else if !f.csumZeroOrOk then countPort d f.port 0x10C
  else if !fenhelOk f.head f.udpLen then raiseOp (malformed d f.port) 0x0C04 (.port f.port) []
  else if !nodeAccepted d (netField f.head 4 4 % 2 ^ 18) then raiseOp (countPort d f.port 0x114) 0x0C01 (.port f.port) []
  else d

/-- A bucket of UNKNOWN_CONN answers gains a token, up to 16, while its rate is not 0 (R107, R108). -/
def refillUcr (p : Nat) (d : Dev) : Dev :=
  if regBits d (ethBase p + 0x10) 15 0 = 0 then d
  else d.modNet fun t => { t with ports := modAt t.ports p fun x => { x with ucrTokens := min 16 (x.ucrTokens + 1) } }

/-- The link of a port goes: 0x0C06, and every path on it goes DOWN at once (R100, R101). -/
def linkDown (p : Nat) (d : Dev) : Dev :=
  if !linked d p then d
  else
    let d1 := raiseOp (d.modNet fun t => { t with ports := modAt t.ports p fun x => { x with link := false, resolved := [] } })
      0x0C06 (.port p) []
    let lost := d.net.conns.flatMap fun x =>
      (((List.range x.2.paths.length).filter fun i => pathPort d x.1 x.2 i = p &&
        (match x.2.paths[i]? with | some q => q.up | none => false))).map fun i => (x.1, i)
    lost.foldl (fun a x => takeOver a x.1 x.2) (lost.foldl (fun a x => markDown a x.1 x.2) d1)

/-- A port may come up: enabled by ETH_CFG.EN or MGT_CFG.EN (R86, R555), and in use. -/
def mayLink (d : Dev) (p : Nat) : Bool := (p = 16 || portInUse d p) && (reg d (ethBase p)).getLsbD 31

/-- A port comes up (R84): one gratuitous ARP and one unsolicited Neighbor Advertisement; a port reset ends here (R530). -/
def linkUp (p : Nat) (d : Dev) : Dev :=
  if linked d p || !mayLink d p then d
  else
    let d1 := d.modNet fun t => { t with ports := modAt t.ports p fun x => { x with link := true } }
    let d2 := if v4On d p then emit d1 (.gratuitousArp p (ip4Of d p)) else d1
    let d3 := if v6On d p then emit d2 (.neighborAdv p (ip6Of d p) none) else d2
    if d.rst.run = some (.port p) then
      raiseOp (d3.modRst fun r => { r with run := none, result := .done }) 0x0C08 (.port p) []
    else d3

/-- A frame that fails FCS, is too long, is not Fenhel, fails its checksum, is malformed or names another node (R106). -/
def execNonFenhelFrame (frame : RawFrame) (s : State) : Res := onDev (dropFrame frame) s

/-- The UNKNOWN_CONN bucket of a data port gains a token (R107). -/
def execUcrTokenRefill (port : Nat) (s : State) : Res := onDev (refillUcr port) s

/-- An ARP request for a port's own IPv4 address is answered while V4_EN is 1 (R84, R553). -/
def execArpRequest (port : Nat) (target : BitVec 32) (mac : BitVec 48) (s : State) : Res :=
  onDev (fun d => if linked d port && v4On d port && target = ip4Of d port then emit d (.arpReply port target mac) else d) s

/-- A Neighbor Solicitation for a port's own IPv6 address is answered while V6_EN is 1 (R84, R553). -/
def execNeighborSolicitation (port : Nat) (target : BitVec 128) (mac : BitVec 48) (s : State) : Res :=
  onDev (fun d => if linked d port && v6On d port && target = ip6Of d port then emit d (.neighborAdv port target (some mac))
    else d) s

/-- Keep the link address of an on-link destination or of the gateway (R84). -/
def resolve (p : Nat) (ip : BitVec 128) (mac : BitVec 48) (d : Dev) : Dev :=
  d.modNet fun t => { t with ports := modAt t.ports p fun x =>
    { x with resolved := (x.resolved.filter fun r => r.1 ≠ ip) ++ [(ip, mac)] } }

/-- An ARP reply for an on-link destination or the gateway (R84). -/
def execArpReply (port : Nat) (ip : BitVec 32) (mac : BitVec 48) (s : State) : Res :=
  onDev (fun d =>
    if linked d port && v4On d port &&
        (ip = gw4Of d port || onLink4 d port ip) then
      resolve port (mapped4 ip) mac d
    else d) s

/-- A Neighbor Advertisement for an on-link destination or the gateway (R84). -/
def execNeighborAdvertisement (port : Nat) (ip : BitVec 128) (mac : BitVec 48) (s : State) : Res :=
  onDev (fun d =>
    if linked d port && v6On d port &&
        (ip = gw6Of d port || onLink6 d port ip) then
      resolve port ip mac d
    else d) s

/-- A port loses its link (R100, R101). -/
def execPortLinkDown (port : Nat) (s : State) : Res := onDev (linkDown port) s

/-- A port comes up (R84, R530). -/
def execPortLinkUp (port : Nat) (s : State) : Res := onDev (linkUp port) s

/-- The master's Sync time is known: a Delay_Req leaves and its time is kept (R243). -/
def ptpSynced (d : Dev) (t1 : Nat) : Dev :=
  emit (d.modTwin fun t => { t with ptpT1 := some t1, ptpT3 := some d.clock }) .delayReq

/-- The slave clock by the end-to-end delay mechanism of IEEE 1588 (R243): the offset of this unit's clock from the master's is
half of (t2 - t1) - (t4 - t3), with the correction field `corr` of each message taken into account. The clock is valid from the first exchange on, and not while the master is lost; the spec does
not say when TIME_VALID is set (DESIGN CHOICE, assumption 50). -/
def ptpMessage (m : PtpMsg) (corr : Nat) (d : Dev) : Dev :=
  match m with
  | .sync o =>
    let d1 := d.modTwin fun t => { t with ptpT1 := none, ptpT2 := d.clock, ptpT3 := none }
    (match o with | some t1 => ptpSynced d1 (t1 + corr) | none => d1)
  | .followUp t1 => if d.twin.ptpT1.isNone && d.twin.ptpT3.isNone then ptpSynced d (t1 + corr) else d
  | .delayResp t4 =>
    (match d.twin.ptpT1, d.twin.ptpT3 with
     | some t1, some t3 =>
       let off : Int := (((d.twin.ptpT2 : Int) - t1) - ((t4 : Int) - corr - t3)) / 2
       d.modTwin fun t =>
         { t with ptpTime := (((d.clock : Int) - off) % 2 ^ 64).toNat, ptpAt := d.clock, ptpT1 := none, ptpT3 := none, timeValid := true }
     | _, _ => d)
  | .lost => d.modTwin fun t => { t with ptpT1 := none, ptpT3 := none, timeValid := false }

/-- An IEEE 1588 message on the management port (R243). -/
def execPtpMessage (msg : PtpMsg) (corr : Nat) (s : State) : Res :=
  onDev (fun d => if linked d 16 then ptpMessage msg corr d else d) s

end Sys2Proof.Machine
end

