-- ==== Sys2Proof/Machine/Transport.lean ====
section
/-! DEFINITION. The transport of a connection's paths: path sequence numbers, acknowledgements, retransmission, probes, pull
requests and the two rate controllers (R90 to R105). -/
namespace Sys2Proof.Machine

/-! ## Receiving (R97, R98) -/

/-- What the PSN rules make of a frame (R98). -/
inductive PsnFind where
  | new | duplicate | beyond
deriving DecidableEq, Repr

def psnFind (p : Path) (psn : Word) : PsnFind :=
  let k := (psn - p.rxE).toNat
  if k < 4096 then (if p.rxGot.contains psn then .duplicate else .new)
  else if 2 ^ 31 ≤ k then .duplicate else .beyond

/-- E moves over the received run (R98). -/
def advanceE : Nat → Word → List Word → Word × List Word
  | 0, e, l => (e, l)
  | n + 1, e, l => if l.contains e then advanceE n (e + 1) (l.filter fun s => s ≠ e) else (e, l)

/-- ACK_FRAMES and REORDER of a port (R554). -/
def ackFrames (d : Dev) (p : Nat) : Nat := regBits d (tmrBase p + 0x80) 31 25
def reorderLimit (d : Dev) (p : Nat) : Nat := regBits d (tmrBase p + 0x80) 16 12

/-- Receive a sequenced frame that passed the checks (R97, R98): the device with its path state and any ACK due, and whether
the frame is delivered. A frame at E calls for no ACK at once, also while later ones are held: R99 does not say whether that
counts as a gap (DESIGN CHOICE, assumption 51). -/
def receive (h : Hdr) (c : Conn) (d : Dev) : Dev × Bool :=
  match c.paths[h.path]? with
  | none => (d, false)
  | some p =>
    match psnFind p h.psn with
    | .beyond => (modConn d h.conn fun c => { c with winViol := satAdd c.winViol 1 }, false)
    | .duplicate =>
      (sendAck (modConn d h.conn fun c => modPath c h.path fun q =>
        { q with echoTs := h.ts, rxCnt := q.rxCnt + 1, ceCnt := q.ceCnt + (if h.ce then 1 else 0) }) h.conn h.path, false)
    | .new =>
      let got := p.rxGot ++ [h.psn]
      let e := advanceE got.length p.rxE got
      let d1 := modConn d h.conn fun c => modPath c h.path fun q =>
        { q with rxE := e.1, rxGot := e.2, echoTs := h.ts, rxCnt := q.rxCnt + 1, ackOwed := q.ackOwed + 1,
                 ceCnt := q.ceCnt + (if h.ce then 1 else 0) }
      let atOnce := h.psn ≠ p.rxE || decide (ackFrames d (pathPort d h.conn c h.path) ≤ p.ackOwed + 1)
      (if atOnce then sendAck d1 h.conn h.path else d1, true)

/-- The PSN rules of R98 before a sequenced frame that passed the checks is delivered. -/
def arrive (h : Hdr) (c : Conn) (d : Dev) (deliver : Dev → Dev) : Dev :=
  let r := receive h c d
  if r.2 then deliver r.1 else r.1

/-! ## Rate controllers (R104) -/

/-- 10 s in ns, how long a sample counts for base_rtt (R104). -/
def sampleLife : Nat := 10000000000

/-- A sample updates srtt and rttvar with the gains of RFC 6298; base_rtt is the lowest sample of the last 10 s (R99, R104). -/
def sampleRtt (clock : Nat) (s : Rat) (r : RateCtl) : RateCtl :=
  let err := if s < r.srtt then r.srtt - s else s - r.srtt
  let kept := r.samples.filter fun x => decide (clock ≤ x.1 + sampleLife)
  { r with
    srtt := if r.sampled then r.srtt + (s - r.srtt) / 8 else s,
    rttvar := if r.sampled then r.rttvar + (err - r.rttvar) / 4 else s / 2,
    sampled := true,
    samples := kept ++ [(clock, s)],
    base := (kept.map fun x => x.2).foldl min s }

/-- alpha moves by 1/16 towards the CE fraction of a sample. -/
def sampleCe (frac : Rat) (any : Bool) (r : RateCtl) : RateCtl :=
  { r with alpha := r.alpha + (frac - r.alpha) / 16, ceSeen := r.ceSeen || any }

/-- The end of a period (R104). Times in ns, rates in Gb/s. -/
def ratePeriod (target step lo line : Rat) (r : RateCtl) : RateCtl :=
  let clampR (x : Rat) : Rat := max lo (min line x)
  if r.ceSeen then { r with rate := clampR (r.rate * (1 - r.alpha / 2)), clean := 0, ceSeen := false }
  else if r.srtt > r.base + target then
    let excess := r.srtt - r.base - target
    { r with rate := clampR (r.rate * max (1 / 2) (1 - 2 / 5 * excess / r.srtt)), clean := 0 }
  else
    { r with rate := clampR (r.rate + (if 5 ≤ r.clean + 1 then 8 * step else step)), clean := r.clean + 1 }

/-- RATE_PERIOD_END for the send or the pull controller of a path. -/
def periodEnd (n path : Nat) (pull : Bool) (d : Dev) : Dev :=
  modConn d n fun c =>
    let p := pathPort d n c path
    let a := tmrBase p + 0x90
    let f := ratePeriod ((regBits d a 31 25 * 1000 : Nat) : Rat) ((regBits d a 24 18 : Nat) / 10)
      ((regBits d a 17 8 : Nat) / 100) (lineRate d p)
    modPath c path fun q => if pull then { q with pull := f q.pull } else { q with push := f q.push }

/-! ## ACK (R97, R99, R100) -/

/-- RTO of a path after a sample (R99), in ns. -/
def rtoOf (d : Dev) (p : Nat) (r : RateCtl) : Rat :=
  min ((regBits d (tmrBase p + 0x88) 31 25 * 1000000 : Nat) : Rat)
    (max ((regBits d (tmrBase p + 0x84) 17 8 * 1000 : Nat) : Rat) (r.srtt + 4 * r.rttvar))

/-- SACK names a PSN (R97): bit i stands for E + 1 + i. -/
def sacks (e psn : Word) (sack : DWord) : Bool :=
  let i := (psn - e).toNat
  decide (1 ≤ i) && decide (i ≤ 64) && sack.getLsbD (i - 1)

/-- How many PSNs later than one the SACK names. -/
def laterSacked (e psn : Word) (sack : DWord) : Nat :=
  ((List.range 64).filter fun i => sack.getLsbD i && later (e + 1 + BitVec.ofNat 32 i) psn).length

/-- An acknowledged READ_REQ starts its pull timeout (R103). -/
def ackPulls (c : Conn) (us : List Unacked) : Conn :=
  { c with pulls := c.pulls.map fun p =>
      if us.any (fun u => match u.body with | .readReq r _ _ _ _ => r = p.rid | _ => false) then { p with acked := true }
      else p }

/-- Take the acknowledgement point and the SACK bits of an ACK into a path's retention (R97): a point before the current one is
ignored, and so are the bits that name PSNs before it. A point later than every PSN sent makes the model ignore the ACK's point
and its bits, which R97 leaves open (DESIGN CHOICE, assumption 52). -/
def takeAck (c : Conn) (path : Nat) (e : Word) (sack : DWord) : Conn :=
  match c.paths[path]? with
  | none => c
  | some p =>
    if later e p.nextPsn then c
    else
      let point := match p.unacked with | u :: _ => u.psn | [] => p.nextPsn
      let gone (u : Unacked) : Bool := notBefore e point && later e u.psn
      let now := p.unacked.filter fun u => gone u || sacks e u.psn sack
      modPath (ackPulls c now) path fun q =>
        { q with unacked := (q.unacked.filter fun u => !gone u).map fun u =>
            if sacks e u.psn sack then { u with got := true } else u }

/-- Retransmit each frame that SACK shows enough later frames received of, once per RTO (R99). -/
def fastResend (d : Dev) (n path : Nat) (e : Word) (sack : DWord) : Dev :=
  match getConn d n with
  | none => d
  | some c =>
    match c.paths[path]? with
    | none => d
    | some p =>
      let k := reorderLimit d (pathPort d n c path)
      (p.unacked.filter fun u => !u.got && !u.early && decide (k ≤ laterSacked e u.psn sack)).foldl
        (fun a u => resend a n path u) d

/-- The nonce counter would pass 2^64 - 1: the connection goes to ERROR (R95). -/
def guardTxc (d : Dev) (n : Nat) : Dev :=
  match getConn d n with
  | some c => if 2 ^ 64 ≤ c.txc then toError d n 0x15 else d
  | none => d

/-- An ACK of a client (R97, R99, R100, R104). -/
def takeAckFrame (h : Hdr) (c : Conn) (e echo : Word) (sack : DWord) (ce rx : Nat) (d : Dev) : Dev :=
  let p := pathPort d h.conn c h.path
  let s : Rat := ((BitVec.ofNat 32 d.clock - echo).toNat : Rat)
  let wasDown := match c.paths[h.path]? with | some q => !q.up | none => false
  let d1 := modConn d h.conn fun c => modPath (takeAck c h.path e sack) h.path fun q =>
    let r := sampleCe (if rx = 0 then 0 else (ce : Rat) / rx) (decide (0 < ce)) (sampleRtt d.clock s q.push)
    { q with push := r, rto := rtoOf d p r, expiries := 0, ceCnt := q.ceCnt + (if h.ce then 1 else 0) }
  let d2 := if wasDown then pathUp d1 h.conn h.path else d1
  completeAll (freeIfDone (flushEnds (fastResend d2 h.conn h.path e sack) h.conn) h.conn)

/-! ## Timers (R99 to R103) -/

/-- A connection may put frames on its paths: it has left ARMED and is not in ERROR (R119, R138). -/
def onAir (c : Conn) : Bool := c.state = .active || c.state = .quiescing || c.state = .disabled

/-- A path's retransmission timer expires (R99): RTO doubles, the oldest unacknowledged frame leaves again, and at the
path-down count the path goes DOWN (R100). -/
def rtoExpired (n path : Nat) (d : Dev) : Dev :=
  match getConn d n with
  | none => d
  | some c =>
    match c.paths[path]? with
    | none => d
    | some p =>
      match p.unacked.filter fun u => !u.got with
      | [] => d
      | u :: _ =>
        if !onAir c || !p.up || resetQueued c path then d
        else
          let port := pathPort d n c path
          let hi : Rat := ((regBits d (tmrBase port + 0x88) 31 25 * 1000000 : Nat) : Rat)
          let d1 := modConn d n fun c => modPath c path fun q =>
            { q with rto := min hi (2 * q.rto), expiries := q.expiries + 1,
                     unacked := q.unacked.map fun x => { x with early := false } }
          let d2 := guardTxc (resend d1 n path u) n
          if regBits d (tmrBase port + 0x80) 11 7 ≤ p.expiries + 1 then pathDown d2 n path else d2

/-- A PROBE leaves on a DOWN path whose port has its link (R100). -/
def probeDown (n path : Nat) (d : Dev) : Dev :=
  match getConn d n with
  | none => d
  | some c =>
    match c.paths[path]? with
    | none => d
    | some p => if onAir c && !p.up && linked d (pathPort d n c path) then guardTxc (sendPlain d n path .probe) n else d

/-- No path of a connection has been UP for the connection-dead time (R101): ERROR, without a DISCONNECT. The source of 0x0C07,
which R101 does not name, is the port of path 0 (DESIGN CHOICE, assumption 53). -/
def connDead (n : Nat) (d : Dev) : Dev :=
  match getConn d n with
  | none => d
  | some c =>
    if serving d && maySend c && (upPaths c).isEmpty then
      raise (toError d n 0x14) 0x0C07 (.port (pathPort d n c 0)) (valuesPayload []) [c.ident.fold]
    else d

/-- A segment of an acknowledged READ_REQ is still missing at the pull timeout (R103). -/
def pullTimeout (n rid : Nat) (d : Dev) : Dev :=
  match getConn d n with
  | none => d
  | some c =>
    if c.pulls.any fun p => p.rid = rid && p.acked && decide (0 < p.held) then
      toError (modConn d n fun c => { c with pulls := c.pulls.filter fun p => p.rid ≠ rid }) n 0x10
    else d

/-! ## Sending (R98, R102, R103) -/

/-- Pull that a connection has outstanding, in bytes; at most 1 MiB (R103). -/
def pullOut (c : Conn) : Nat := c.pulls.foldl (fun n p => if p.sent then n + p.held else n) 0

/-- READ_REQ_SEND: the request leaves once its bytes are reserved in the pull pool (R103). -/
def sendReadReq (n rid path len : Nat) (d : Dev) : Dev :=
  match getConn d n with
  | none => d
  | some c =>
    match c.pulls.find? fun p => p.rid = rid && p.len = len && !p.sent with
    | none => guardTxc d n
    | some p =>
      let port := pathPort d n c path
      let seg := segOf d port
      if maySend c && pathOpen d n c path 56 && decide (pullOut c + p.len ≤ 1048576) &&
          decide (pullUsed d port + p.len ≤ pullPool d port) then
        sendSeq (modConn d n fun c =>
          { c with pulls := c.pulls.map fun q =>
              if q.rid = rid then { q with sent := true, seg := seg, path := path, sentAt := d.clock, held := q.len } else q })
          n path (.readReq rid p.len p.addr p.ckey seg)
      else guardTxc d n

/-- The first queued frame that may leave on a path: one for this path, or one for any path. -/
def nextFor (c : Conn) (path : Nat) : Option Nat := c.sendq.findIdx? fun f => f.1 = some path || f.1 = none

/-- SEQUENCED_FRAME_SEND: the next queued frame of a path leaves once retention room is available (R102). -/
def sendQueued (n path : Nat) (d : Dev) : Dev :=
  match getConn d n with
  | none => d
  | some c =>
    match nextFor c path with
    | none => guardTxc d n
    | some i =>
      match c.sendq[i]? with
      | none => d
      | some f =>
        if onAir c && pathOpen d n c path (frameBytes f.2) then
          sendSeq (modConn d n fun c => { c with sendq := c.sendq.eraseIdx i }) n path f.2
        else guardTxc d n

/-! ## READ_RSP (R92, R103, R131 to R134) -/

/-- Put bytes at an offset of a list, which grows with zeros. -/
def putAt (l : List Byte) (at_ : Nat) (bs : List Byte) : List Byte :=
  (l ++ List.replicate (at_ - l.length) 0).take at_ ++ bs ++ l.drop (at_ + bs.length)

/-- The bytes of a completed request, in order. -/
def pulled (p : Pull) : List Byte := p.bytes.foldl (fun l x => putAt l x.1 x.2) []

/-- An operation as fetched (R130): it holds its tag and its slot. -/
def newOp (conn : Nat) (seq : Word) (x : Desc) (data : List Byte) : Op :=
  { conn := conn, seq := seq, desc := x, stage := .fetched, first := false, group := none, last := false, data := data,
    dataGot := data.length, refused := false, tr1 := none, tr2 := none, gens := [], admitted := none, stamp := none,
    rseed := 0, failed := [], target := none, done := none, pushed := false, lines := [], finDue := false, chunk := 0,
    src := [], srcBad := [], cached := false }

/-- A descriptor comes from the ring for the sequence F: one before ACK_SEQ is discarded unchecked (R134), one with another SEQ
ends the connection (R132), any other is fetched; F moves past it (R130). -/
def fetched (n : Nat) (d : Dev) (f : Word × List Byte) : Dev :=
  match getConn d n with
  | none => d
  | some c =>
    let x := descOfBytes f.2
    let past (a : Dev) : Dev := modConn a n fun c => { c with f := f.1 + 1 }
    if !maySend c then d
    else if later c.ackSeq f.1 then past d
    else if x.seq ≠ f.1 then toError d n 0x12
    else (past d).modNet fun t => { t with ops := t.ops ++ [newOp n f.1 x []] }

/-- The descriptors of the answered requests of a batch, in sequence order. -/
def batchDescs (ps : List Pull) : List (Word × List Byte) :=
  ps.flatMap fun p =>
    match p.what with
    | .ring first count => (List.range count).map fun i => (first + BitVec.ofNat 32 i, ((pulled p).drop (64 * i)).take 64)
    | .data _ _ => []

/-- A batch whose requests are all answered is admitted, in sequence order (R130, R153). -/
def batchDone (d : Dev) (n : Nat) : Dev :=
  match getConn d n with
  | none => d
  | some c =>
    let ps := c.pulls.filter isRing
    if ps.all fun p => p.sent && p.held = 0 then
      (batchDescs ps).foldl (fetched n) (modConn d n fun c => { c with pulls := c.pulls.filter fun p => !isRing p })
    else d

/-- All segments of a request have arrived: a ring request waits for the others of its batch. -/
def pullComplete (n : Nat) (p : Pull) (d : Dev) : Dev :=
  match p.what with
  | .ring _ _ => batchDone d n
  | .data seq at_ =>
    let d1 := modConn d n fun c => { c with pulls := c.pulls.filter fun q => q.rid ≠ p.rid }
    match findOp d1 n seq with
    | some o => setOp d1 { o with data := putAt o.data at_ (pulled p), dataGot := o.dataGot + p.len }
    | none => d1

/-- The first segment of a request gives the pull controller a sample; every segment its CE mark (R104). -/
def samplePull (h : Hdr) (p : Pull) (clock : Nat) (r : RateCtl) : RateCtl :=
  let r1 := { r with frames := r.frames + 1, marks := r.marks + (if h.ce then 1 else 0) }
  if p.first then { r1 with ceSeen := r1.ceSeen || h.ce }
  else
    let r2 := sampleCe ((r1.marks : Rat) / r1.frames) h.ce (sampleRtt clock ((clock - p.sentAt : Nat) : Rat) r1)
    { r2 with frames := 0, marks := 0 }

/-- A READ_RSP segment of a live request (R92, R103): a REFUSED answer ends the fetch, else the segment is placed and its
reservation released. R92 names no outcome for a segment whose OFFSET or length it does not allow: the model counts it in
ETH_STR_MALF, after its PSN has been taken (DESIGN CHOICE, assumption 54). -/
def takeRsp (h : Hdr) (rid off : Nat) (refused : Bool) (data : List Byte) (d : Dev) : Dev :=
  match getConn d h.conn with
  | none => d
  | some c =>
    match c.pulls.find? fun p => p.rid = rid && p.sent with
    | none => d
    | some p =>
      if refused then
        (match p.what with
         | .ring _ _ => toError (modConn d h.conn fun c => { c with pulls := c.pulls.filter fun q => q.rid ≠ rid }) h.conn 0x11
         | .data seq _ =>
           match findOp d h.conn seq with
           | some o => failOp d o .malformed 5
           | none => d)
      else if p.got.contains off then d
      else if off % max 1 p.seg ≠ 0 || p.len ≤ off || data.length ≠ min p.seg (p.len - off) then malformed d h.port
      else
        let p1 := { p with got := p.got ++ [off], first := true, held := p.held - data.length,
                           bytes := p.bytes ++ [(off, data)] }
        let d1 := modConn d h.conn fun c =>
          modPath { c with pulls := c.pulls.map fun q => if q.rid = rid then p1 else q } p.path fun q =>
            { q with pull := samplePull h p d.clock q.pull }
        if p1.held = 0 then pullComplete h.conn p1 d1 else d1

/-! ## The rows -/

/-- PROBE: an immediate ACK (R99). -/
def takeProbe (h : Hdr) (d : Dev) : Dev :=
  sendAck (modConn d h.conn fun c => modPath c h.path fun q =>
    { q with echoTs := h.ts, ceCnt := q.ceCnt + (if h.ce then 1 else 0) }) h.conn h.path

/-- PATH_RESET (R100): OLD_PATH must be below the path count; E of the named path moves to NEW_E if later, and its bitmap is
cleared. The ACK is immediate (R99). -/
def takePathReset (h : Hdr) (c : Conn) (oldPath : Nat) (newE : Word) (d : Dev) : Dev :=
  if c.ident.npath ≤ oldPath then malformed d h.port
  else
    arrive h c d fun a => sendAck (modConn a h.conn fun c => modPath c oldPath fun q =>
      { q with rxE := if later newE q.rxE then newE else q.rxE, rxGot := [] }) h.conn h.path

/-- The ACK delay passes after the oldest unacknowledged arrival (R99). -/
def execAckDelayExpiry (conn path : Nat) (s : State) : Res :=
  onDev (fun d =>
    match getConn d conn with
    | some c =>
      (match c.paths[path]? with
       | some p => if 0 < p.ackOwed && onAir c then guardTxc (sendAck d conn path) conn else d
       | none => d)
    | none => d) s

/-- RTO_EXPIRY (R99). -/
def execRtoExpiry (conn path : Nat) (s : State) : Res := onDev (rtoExpired conn path) s

/-- PROBE_INTERVAL (R100). -/
def execProbeInterval (conn path : Nat) (s : State) : Res := onDev (probeDown conn path) s

/-- CONNECTION_DEAD (R101). -/
def execConnectionDead (conn : Nat) (s : State) : Res := onDev (connDead conn) s

/-- PULL_TIMEOUT (R103). -/
def execPullTimeout (conn rid : Nat) (s : State) : Res := onDev (pullTimeout conn rid) s

/-- RATE_PERIOD_END (R104). -/
def execRatePeriodEnd (conn path : Nat) (pull : Bool) (s : State) : Res := onDev (periodEnd conn path pull) s

/-- READ_REQ_SEND (R103). -/
def execReadReqSend (conn rid path len : Nat) (s : State) : Res := onDev (sendReadReq conn rid path len) s

/-- SEQUENCED_FRAME_SEND (R102). -/
def execSequencedFrameSend (conn path : Nat) (s : State) : Res := onDev (sendQueued conn path) s

end Sys2Proof.Machine
end

