-- ==== Sys2Proof/Machine/Access.lean ====
section
/-! DEFINITION. Who may reach a register, the answer of an access, and the shared-configuration set with its digest
(R17, R18, R243, R531 to R533, R540 to R549, R579). -/
namespace Sys2Proof.Machine

/-- A principal that can make an access now: the I3C target while VDD_AON is up, or a management connection that carries
operations (R17, R547). -/
def present (d : Dev) (p : Principal) : Bool :=
  match p with
  | .i3c => d.pwr.pwron
  | .conn n => match getConn d n with | some c => c.ident.mgmt && maySend c | none => false

/-- The always-on blocks, which serve I3C during a warm reset (R563). -/
def alwaysOn (a : Nat) : Bool :=
  match blockOf a with
  | some (.shp, _, _) | some (.ldg, _, _) | some (.pwr, _, _) | some (.cal, _, _) | some (.evt, _, _)
  | some (.sec, _, _) => true
  | _ => false

/-- A warm reset holds the other blocks (R523, R563). -/
def inWarm (d : Dev) : Bool := d.rst.warm = .held || d.rst.warm = .leaving

/-- The answer of an access. -/
def answer (d : Dev) (p : Principal) (a : Nat) (w : Bool) (st : Status) (detail : Nat) (v : Word) : Dev :=
  { d with answer := some { who := p, addr := a, write := w, status := st, detail := BitVec.ofNat 32 detail, value := v } }

/-- Why an access ends before it reaches its register (R18, R543, R548, R563): status and DETAIL. Addresses from 2^31 on are
no registers. A reserved register is refused to nobody (R24). -/
def refusal (d : Dev) (p : Principal) (a : Nat) : Option (Status × Nat) :=
  if a % 4 ≠ 0 then some (.malformed, 3)
  else if (blockOf a).isNone then some (.accessViolation, 5)
  else if p = .i3c && inWarm d && !alwaysOn a then some (.accessViolation, 5)
  else if p = .i3c && isListed a && !isI3cOpen a then some (.accessViolation, 4)
  else none

/-- The register belongs to a port number not in use: it reads as zero and ignores writes (R20). -/
def portAbsent (d : Dev) (a : Nat) : Bool := match blockOf a with | some (.eth, q, _) => !portInUse d q | _ => false

/-- A write that acts as a command: `f` gives the device and the DETAIL of a refusal, 0 for none. -/
def command (p : Principal) (a : Nat) (f : Dev → Dev × Nat) (d : Dev) : Dev :=
  if !present d p then d
  else
    match refusal d p a with
    | some (st, n) => answer d p a true st n 0
    | none =>
      let r := f d
      answer r.1 p a true (if r.2 = 0 then .done else .accessViolation) r.2 0

/-- A read: `f` gives the device after it and the value, or the DETAIL of a refusal. -/
def readAs (p : Principal) (a : Nat) (f : Dev → Dev × Except Nat Word) (d : Dev) : Dev :=
  if !present d p then d
  else
    match refusal d p a with
    | some (st, n) => answer d p a false st n 0
    | none =>
      let r := f d
      match r.2 with
      | .ok v => answer r.1 p a false .done 0 v
      | .error n => answer r.1 p a false .accessViolation n 0

/-- Why a write whose effect travels through the order stream is refused on a register without a status field (R209,
R579): DETAIL 0x04 on a unit that does not serve, 0x07 while the pair refuses mutation. -/
def streamRefused (d : Dev) : Option Nat :=
  if !serving d then some 4 else if d.twin.refusing then some 7 else none

/-! ## The shared-configuration set (R243, R545) -/

/-- Registers marked S, in ascending address order (R549). -/
def sharedAddrs : List Nat :=
  [0x60100, 0x80008, 0x8000C, 0x80024, 0x80028] ++ (List.range 16).map (fun g => blockBase .gal g) ++
  (List.range 16).flatMap (fun p => [0x08, 0x10, 0x80, 0x84, 0x88, 0x8C, 0x90].map fun o => ethBase p + o) ++
  [0x401008, 0x600000, 0x600004]

/-- CFG_DIGEST of an enrolled credential (R545). -/
def credBytes (id : Nat) (c : Cred) : List Byte :=
  beBytes 4 id ++ [if c.mgmt then 1 else 0] ++ beBytes 2 c.fold ++ beBytes 48 (Config.sha384 (beBytes 32 c.key.toNat)).toNat

/-- CFG_DIGEST (R545): registers, credentials, layout. -/
def cfgDigest (d : Dev) : BitVec 384 :=
  Config.sha384
    (sharedAddrs.flatMap (fun a => beBytes 4 a ++ beBytes 4 (reg d a).toNat) ++
     d.folds.creds.flatMap (fun c => credBytes c.1 c.2) ++
     beBytes 8 d.folds.s ++ beBytes 8 (rtaBase d.folds) ++ beBytes 8 (ctlBase d.folds))

/-- A shared-configuration change was applied (R243, R532, R533): CFG_GEN goes up by one; the digests of the last 256
generations are kept (R244). -/
def cfgChanged (d : Dev) : Dev :=
  let g := d.twin.cfgGen + 1
  d.modTwin fun t => { t with cfgGen := g, digests := ((g, cfgDigest d) :: t.digests).take 256 }

/-- Store or remove a credential on this unit (R110). -/
def putCred (d : Dev) (id : Nat) (c : Option Cred) : Dev :=
  cfgChanged (d.modFolds fun f => { f with creds := setKey f.creds id c })

end Sys2Proof.Machine
end

