-- ==== Sys2Proof/Machine/Store.lean ====
section
/-! DEFINITION. The ledger's wear and its configuration store: erases counted by physical sector, and the tuning and identity
records (R430, R431, R438 to R440, R545). -/
namespace Sys2Proof.Machine

/-! ## Erases (R430, R431, R446) -/

/-- The physical sector that holds a logical one (R430). -/
def physSector (l : Ledger) (sec : Nat) : Nat :=
  if sec < l.moves then (l.base + sec) % 4096 else (l.base + 256 + sec) % 4096

/-- LDG_WEAR: the highest erase count of any physical sector. -/
def wearMax (l : Ledger) : Nat := l.wear.foldl (fun n p => max n p.2) 0

/-- A physical sector is erased; 0x0908 once the highest count passes 80,000 (R451). -/
def wearSector (d : Dev) (phys : Nat) : Dev :=
  let n := (getKey d.ldg.wear phys).getD 0 + 1
  let d1 := d.modLdg fun l => { l with wear := putKey l.wear phys n }
  if decide (wearMax d.ldg ≤ 80000) && decide (80000 < wearMax d1.ldg) then raiseOp d1 0x0908 srcLDG [wearMax d1.ldg] else d1

/-- A logical erase, whoever issued it (R431). -/
def countErase (d : Dev) (sec : Nat) : Dev :=
  wearSector (d.modLdg fun l => { l with erases := min (l.erases + 1) 0xFFFFFFFF, sinceMove := l.sinceMove + 1 })
    (physSector d.ldg sec)

/-- Erases of `n` sectors from one on. -/
def countErases (d : Dev) (sec n : Nat) : Dev := (List.range n).foldl (fun a i => countErase a (sec + i)) d

/-! ## The rings (R434 to R436) -/

/-- Sectors of a ring of `n` sectors with `per` entries each that hold entries although they are to stand erased: the `ahead` sectors
before the head. -/
def staleSectors (per n ahead : Nat) (r : LogRing) : List Nat :=
  addNums [] ((r.held.map fun e => e.1 / per).filter fun s => decide (s + n ≤ r.next / per + ahead))

/-- What stands of a ring once those sectors are erased. -/
def dropStale (per n ahead : Nat) (r : LogRing) : LogRing :=
  { r with held := r.held.filter fun e => !(staleSectors per n ahead r).contains (e.1 / per) }

/-- Kind of a state-ring entry: its TYPE, and for SLOT its slot (R435). -/
def kindOf (e : Nat × List Byte) : List Byte := if leNat (e.2.take 2) = 2 then e.2.take 2 ++ (e.2.drop 8).take 1 else e.2.take 2

/-- The state ring once its stale sectors are erased: the newest BOOT, SLOT and DIRTY entries among theirs are written anew, so that
they stand (R435, R436). -/
def renewRing (r : LogRing) : LogRing :=
  let gone := r.held.filter fun e => (staleSectors 126 192 64 r).contains (e.1 / 126)
  let last := gone.filter fun e => leNat (e.2.take 2) ≠ 3 && !r.held.any fun x => decide (e.1 < x.1) && kindOf x = kindOf e
  last.foldl (fun a e => putRing a (entryBytes435 (leNat (e.2.take 2)) (e.2.drop 8))) (dropStale 126 192 64 r)

/-- The shepherd keeps erased sectors ahead of the head of each ring: 64 in the state ring (R436), one in the anchor ring, the update
journal and each calibration copy. It does so as a checkpoint completes. -/
def tidyRings (d : Dev) : Dev :=
  let l := d.ldg
  let erased := (staleSectors 126 192 64 l.ring).map (fun s => 3392 + s % 192) ++ (staleSectors 126 64 1 l.anchorLog).map (fun s => 3328 + s % 64) ++
    (staleSectors 126 64 1 l.journal).map (fun s => 3632 + s % 64) ++
    (staleSectors 7 16 1 l.calLog).flatMap fun s => [3584 + s % 16, 3600 + s % 16]
  erased.foldl countErase (d.modLdg fun k =>
    { k with ring := renewRing k.ring, anchorLog := dropStale 126 64 1 k.anchorLog, journal := dropStale 126 64 1 k.journal,
             calLog := dropStale 7 16 1 k.calLog })

/-! ## The configuration store (R438, R440) -/

/-- Bytes of a record in the store: header, body and CRC-32 (R438). -/
def recordBytes (body : Nat) : Nat := 20 + roundUp body 4

/-- Bytes of the records that stand. A register takes its address and its value; the pair identity and its secrets take the
widths of R205 and R438. -/
def standingBytes (d : Dev) : Nat :=
  let c := d.ldg.cfg
  (match c.network with | some l => recordBytes (8 * l.length) | none => 0) +
  (match c.tuning with
   | some t => recordBytes (8 * t.regs.length + 8 * t.rlCfg.length + 36 * t.snaps.length) | none => 0) +
  (match c.sequence with | some (_, l) => recordBytes (8 * l.length) | none => 0) +
  (if d.twin.ident.isSome || d.twin.identNext.isSome then recordBytes 33 + recordBytes 120
   else if d.sec.clearKey.isSome then recordBytes 120 else 0)

/-- Erased sectors of the store's 256. -/
def storeErased (c : CfgStore) : Nat := 256 - ceilDiv c.written 4032

/-- Compaction (R440): the standing records go to the head and the sectors that held them are erased. A store that cannot be
brought to 32 erased sectors is full, and 0x0907 says so. -/
def compactStore (d : Dev) : Dev :=
  let before := ceilDiv d.ldg.cfg.written 4032
  let d1 := d.modLdg fun l => { l with cfg := { l.cfg with written := standingBytes d } }
  let d2 := countErases d1 3072 before
  let full := decide (storeErased d2.ldg.cfg < 32)
  let d3 := d2.modLdg fun l => { l with cfg := { l.cfg with full := full } }
  if full then raiseOp d3 0x0907 srcSHP [] else d3

/-- A record of `body` bytes has been written; fewer than 32 erased sectors start a compaction. -/
def wroteRecord (d : Dev) (body : Nat) : Dev :=
  let d1 := d.modLdg fun l => { l with cfg := { l.cfg with written := l.cfg.written + recordBytes body } }
  if storeErased d1.ldg.cfg < 32 then compactStore d1 else d1

/-! ## Tuning records (R438, R462, R545) -/

/-- Every tuned register (marking T, R549), the code buckets and the snapshot sets apart, which a code selects. -/
def tunedAddrs : List Nat :=
  [0x20, 0x24, 0x40, 0x20034, 0x3000C] ++ (List.range 8).map (fun k => 0x30020 + 4 * k) ++
  [0x30068, 0x3006C, 0x30070, 0x30074, 0x30084, 0x3020C, 0x30210, 0x40014, 0x50004, 0x50008, 0x50180, 0x90024, 0x100000,
   0x100010, 0x350000] ++ (List.range 16).map (ethBase ·) ++
  (List.range 24).flatMap (fun c =>
    [0, 0x10, 0x30, 0x40, 0x44, 0x48, 0x4C, 0x50, 0x54, 0x58, 0x5C].map fun o => blockBase .drc c + o) ++ sharedAddrs

/-- The sequence registers PWR_SEQ_A0 to PWR_SEQ_B15 (R474). -/
def seqAddrs : List Nat := (List.range 16).map (fun k => 0x300A0 + 4 * k) ++ (List.range 16).map fun k => 0x300E0 + 4 * k

/-- Every identity register (marking I, R549). -/
def identityAddrs : List Nat :=
  0x10 :: (List.range 17).flatMap fun p =>
    [0x20, 0x24, 0x30, 0x34, 0x38, 0x40, 0x44, 0x48, 0x4C, 0x50, 0x54, 0x58, 0x5C].map fun o => ethBase p + o

/-- The running firmware's tuning format: FMT bits [15:8] of the running header (R428, R462). -/
def tuningFmt (d : Dev) : Nat :=
  match d.ldg.banks[(if d.ldg.bankB then 1 else 0)]? with
  | some b => leNat ((b.header.drop 17).take 1)
  | none => 0

/-- The live values of a list of registers. -/
def liveRegs (d : Dev) (as : List Nat) : List (Nat × Word) := as.foldl (fun m a => putKey m a (reg d a)) []

/-- STORE_TUNING: the REGISTERS and SEQUENCE records, in the running format (R439, R462). -/
def storeTuning (d : Dev) : Dev :=
  let f := tuningFmt d
  let t : TuneRec := { fmt := f, regs := liveRegs d tunedAddrs, rlCfg := d.evt.rlCfg, snaps := d.evt.snaps }
  let d1 := d.modLdg fun l => { l with cfg := { l.cfg with tuning := some t, sequence := some (f, liveRegs d seqAddrs) } }
  wroteRecord (wroteRecord (d1.modUpd fun u => { u with stale := false }) (8 * t.regs.length)) 256

/-- The REGISTERS record that the shepherd appends when it applies a change of S registers (R545): the other tuned registers
keep the values they have in the record that stands. -/
def storeShared (d : Dev) : Dev :=
  let old : TuneRec := d.ldg.cfg.tuning.getD { fmt := tuningFmt d, regs := [], rlCfg := [], snaps := [] }
  let t : TuneRec := { old with regs := sharedAddrs.foldl (fun m a => putKey m a (reg d a)) old.regs }
  wroteRecord (d.modLdg fun l => { l with cfg := { l.cfg with tuning := some t } }) (8 * t.regs.length)

/-- STORE_IDENTITY: the NETWORK record (R439, R546). -/
def storeNetwork (d : Dev) : Dev :=
  let n := liveRegs d identityAddrs
  wroteRecord (d.modLdg fun l => { l with cfg := { l.cfg with network := some n } }) (8 * n.length)

end Sys2Proof.Machine
end

