-- ==== Sys2Proof/Machine/Tables.lean ====
section
/-! DEFINITION. Changing the region tables (R73 to R78, R308, R580): staged changes, new copies of pages and directories,
the commit, the destruction of a fold, and the release of what a generation kept. Each change is planned on a device and
a stamp, so that its lines can be admitted before it is stamped and so that a standby makes the same change. -/
namespace Sys2Proof.Machine

/-! ## What a handle holds -/

def stagedAt (d : Dev) (f : Nat) (h : Word) : Option Staged :=
  d.folds.staged.find? fun g => g.fold = f && g.handle = h

/-- The descriptor of a handle in the live table. -/
def liveDesc (d : Dev) (f : Nat) (h : Word) : Option RegDesc :=
  match descPlace d f h (genOf d f) with
  | .ok pa => if (readDesc d.mem pa).ty = 0 then none else some (readDesc d.mem pa)
  | .error _ => none

/-- The descriptor of a handle with the staged changes counted: what a further command of R73 names. -/
def viewDesc (d : Dev) (f : Nat) (h : Word) : Option RegDesc :=
  match stagedAt d f h with
  | some g => let x := regDescOfBytes g.bytes; if x.ty = 0 then none else some x
  | none => liveDesc d f h

/-- A handle is not free: the live table or a staged change holds a descriptor there. -/
def handleTaken (d : Dev) (f : Nat) (h : Word) : Bool := (liveDesc d f h).isSome || isStaged d f h

/-- The first free handle past the pages of a table: behind the last descriptor of the first page that has room. -/
def nextHandle (d : Dev) (f : Nat) : Nat → Nat → Option Word
  | 0, _ => none
  | k + 1, i =>
    let r := readFold d.mem (foldPa d.folds f)
    let n := if r.dirBase = 0 || r.dirLenM1 < i then 0
      else let e := readDir d.mem (r.dirBase + i * 16); if e.flags % 2 = 0 then 0 else e.countM1 + 1
    let h := n + (d.folds.staged.filter fun g => g.fold = f && wbits g.handle 31 16 = i && n ≤ wbits g.handle 15 0).foldl
      (fun m g => max m (wbits g.handle 15 0 + 1 - n)) 0
    if h < 65536 then some (BitVec.ofNat 32 (i * 65536 + h)) else nextHandle d f k (i + 1)

/-- The handle that a command takes: the one named when it is free, else any free one (R557); both units take the same. -/
def chooseHandle (d : Dev) (st : Stamp) (f : Nat) (h : Word) : Option Word :=
  if h ≠ 0xFFFFFFFF then (if handleTaken d f h then none else some h)
  else
    let free := (slotsOfFold d f).filter fun x => x.2.2.ty = 0 && !isStaged d f x.1
    match free with
    | [] => nextHandle d f 65536 0
    | x :: _ => some ((free.getD (Config.placeChoice st 2 % free.length) x).1)

/-- Stage a descriptor for a handle. -/
def stage (d : Dev) (by_ f : Nat) (h : Word) (x : RegDesc) : Dev :=
  d.modFolds fun fs =>
    { fs with staged := (fs.staged.filter fun g => !(g.fold = f && g.handle = h)) ++
        [{ by_ := by_, fold := f, handle := h, bytes := regDescBytes x }] }

/-- A descriptor of TYPE invalid. -/
def noDesc : RegDesc :=
  { base := 0, len := 0, gen := 0, owner := 0, ty := 0, perm := 0, keySlot := 0, flags := 0, tFold := 0, tHandle := 0,
    rsv := 0 }

/-! ## Freed space (R76, R308) -/

/-- Free pages of the region-table area. -/
def freeRta (d : Dev) (ps : List (Nat × Nat)) : Dev :=
  d.modFolds fun f => { f with rtaUsed := ps.foldl (fun m p => delKey m p.1) f.rtaUsed }

/-- Leaves that another region shares keep their contents: a child's entry takes the leaf's location, and dirty lines go on
under the child's leaf (R308). -/
def handDown (d : Dev) (leaf : Nat) : Dev :=
  match sharers d.folds.families leaf with
  | [] => d
  | s :: _ =>
    let d1 := keepLoc d leaf
    let mine := List.range' (leaf * 64) 64
    d1.modDur fun u => { u with dirty := addNums u.dirty ((u.dirty.filter fun l => mine.contains l).map fun l => l - leaf * 64 + s * 64) }

/-- Free a region's space: its entries become UNMAPPED and every frame of it is discarded, dirty lines included, so a region
created there later reads as zero (R308). -/
def freeRegion (d : Dev) (r : Nat × Nat) : Dev :=
  let inR (a : Nat) : Bool := decide (r.1 ≤ a) && decide (a < r.1 + r.2)
  let leaves := addNums ((d.ftl.map.map fun p => p.1).filter fun l => inR (l * 4096))
    (leavesOf (d.dur.dirty.filter fun l => inR (l * 64)))
  let d1 := leaves.foldl handDown d
  let d2 := { d1 with mem := zeroBytes d1.mem r.1 r.2 }
  let d3 := d2.modDur fun u =>
    { u with dirty := u.dirty.filter fun l => !inR (l * 64), poison := u.poison.filter fun l => !inR (l * 64),
             resident := u.resident.filter fun l => !inR (l * 4096) }
  let d4 := d3.modFtl fun f =>
    { f with map := f.map.filter fun p => !inR (p.1 * 4096),
             progs := f.progs.map fun p =>
               { p with cws := p.cws.map fun c => if c.kind = .leaf && !c.reloc && inR c.addr then { c with kind := .pad } else c } }
  d4.modFolds fun f =>
    { f with dataUsed := delKey f.dataUsed r.1, logTails := delKey f.logTails r.1,
             families := (f.families.map fun x => { x with members := x.members.filter fun m => m.base ≠ r.1 }).filter
               fun x => 2 ≤ x.members.length }

/-- Operations or open groups that carry an earlier generation of a fold are in flight (R75 step 1, R76, R77). -/
def genBusy (d : Dev) (f : Nat) : Bool :=
  let old (gs : List (Nat × Word)) : Bool := match getKey gs f with | some g => g ≠ genOf d f | none => false
  (d.net.ops.any fun o => old o.gens) || d.net.groups.any fun g => old g.gens

/-- The same, for one past generation. -/
def genInUse (d : Dev) (f : Nat) (g : Word) : Bool :=
  (d.net.ops.any fun o => getKey o.gens f = some g) || d.net.groups.any fun x => getKey x.gens f = some g

/-! ## Plans -/

/-- A change of the tables ready to be made: the device with its book-keeping done, the lines it writes, what it writes,
and the handle it used. -/
structure Plan where
  dev    : Dev
  lines  : List Nat
  edit   : Mem → Mem
  handle : Option Word

def Plan.nothing (d : Dev) : Plan := { dev := d, lines := [], edit := fun m => m, handle := none }

/-- Add a write of bytes to a plan. -/
def Plan.put (p : Plan) (a : Nat) (bs : List Byte) : Plan :=
  { p with lines := addNums p.lines (spanLines a bs.length), edit := fun m => writeBytes (p.edit m) a bs }

/-- Make a planned change at a stamp. -/
def Plan.make (p : Plan) (st : Stamp) : Dev :=
  if p.lines.isEmpty then p.dev else changeLines p.dev st p.lines p.edit

/-! ## New copies of pages and directories (R75) -/

/-- Take `n` bytes of the region-table area, holding zeros and then a copy of an old run. -/
def Plan.area (p : Plan) (n : Nat) (old : Option (Nat × Nat)) : Option (Plan × Nat) :=
  (placeRta p.dev n).map fun x =>
    ({ p with dev := x.2, lines := addNums p.lines (spanLines x.1 n),
              edit := fun m =>
                let m0 := zeroBytes (p.edit m) x.1 n
                match old with
                | some o => copyBytes m0 o.1 x.1 o.2
                | none => m0 }, x.1)

/-- The changes of a table by directory index. -/
def byPage (chg : List (Word × List Byte)) : List (Nat × List (Nat × List Byte)) :=
  chg.foldl (fun m c => putKey m (wbits c.1 31 16) (((getKey m (wbits c.1 31 16)).getD []) ++ [(wbits c.1 15 0, c.2)])) []

/-- A new copy of a descriptor page with its changes: the plan, the page and its number of descriptors. A page that must
grow takes some room to spare; the spec fixes no page size. -/
def newPage (p : Plan) (old : Option (Nat × Nat)) (chg : List (Nat × List Byte)) : Option (Plan × Nat × Nat) :=
  let oldN := match old with | some o => o.2 | none => 0
  let need := chg.foldl (fun n c => max n (c.1 + 1)) oldN
  let n := if need = oldN then oldN else min 65536 (need + Config.pageSlack)
  (p.area (n * 64) (old.map fun o => (o.1, o.2 * 64))).map fun x =>
    (chg.foldl (fun q c => q.put (x.2 + c.1 * 64) c.2) x.1, x.2, n)

/-- The page of a directory index of the live table: place and number of descriptors. -/
def livePage (d : Dev) (r : FoldRec) (i : Nat) : Option (Nat × Nat) :=
  if r.dirBase = 0 || r.dirLenM1 < i then none
  else let e := readDir d.mem (r.dirBase + i * 16); if e.flags % 2 = 0 then none else some (e.page, e.countM1 + 1)

/-- A new copy of a fold's directory and of the pages that change: the plan, the directory, DIR_LEN_M1, and what the old
generation still holds. -/
def newTable (d : Dev) (p : Plan) (f : Nat) (chg : List (Word × List Byte)) :
    Option (Plan × Nat × Nat × List (Nat × Nat)) :=
  let r := readFold d.mem (foldPa d.folds f)
  let oldLen := if r.dirBase = 0 then 0 else r.dirLenM1 + 1
  let pages := byPage chg
  let len := pages.foldl (fun n x => max n (x.1 + 1)) oldLen
  match p.area (len * 16) (if oldLen = 0 then none else some (r.dirBase, oldLen * 16)) with
  | none => none
  | some (p0, dir) =>
    let old0 : List (Nat × Nat) := if oldLen = 0 then [] else [(r.dirBase, oldLen * 16)]
    (pages.foldl (fun (acc : Option (Plan × List (Nat × Nat))) x =>
      acc.bind fun a =>
        let old := livePage d r x.1
        (newPage a.1 old x.2).map fun y =>
          (y.1.put (dir + x.1 * 16) (dirBytes y.2.1 (y.2.2 - 1)),
           a.2 ++ (match old with | some o => [(o.1, o.2 * 64)] | none => [])))
      (some (p0, old0))).map fun a => (a.1, dir, len - 1, a.2)

/-! ## Grantee lists (R57, R75) -/

/-- The folds on a fold's GRANTEE_LIST. The spec gives no entry size; the model uses 2 bytes an entry. -/
def grantees (d : Dev) (f : Nat) : List Nat :=
  let r := readFold d.mem (foldPa d.folds f)
  (List.range r.listCount).map fun i => readLE d.mem (r.listPa + 2 * i) 2

/-- Fold `h` holds a grant of a region of `t` once the staged changes of `mine` are in its table. -/
def grantAfter (d : Dev) (mine : List Staged) (h t : Nat) : Bool :=
  (mine.any fun g => g.fold = h && (let x := regDescOfBytes g.bytes; x.ty = 2 && x.tFold = t)) ||
  (slotsOfFold d h).any fun s => s.2.2.ty = 2 && s.2.2.tFold = t && !(mine.any fun g => g.fold = h && g.handle = s.1)

/-- Give a fold a new GRANTEE_LIST in a record that a plan will write. -/
def Plan.grantees (p : Plan) (r : FoldRec) (l : List Nat) : Option (Plan × FoldRec) :=
  let freed := if r.listCount = 0 then p.dev else freeRta p.dev [(r.listPa, 0)]
  if l.isEmpty then some ({ p with dev := freed }, { r with listPa := 0, listCount := 0 })
  else
    (Plan.area { p with dev := freed } (2 * l.length) none).map fun x =>
      (x.1.put x.2 (l.flatMap (leBytes 2)), { r with listPa := x.2, listCount := l.length })

/-! ## COMMIT (R75) -/

/-- The staged changes that a COMMIT of fold `f` publishes. -/
def mineOf (d : Dev) (f : Nat) : List Staged := d.folds.staged.filter fun g => g.by_ = f

/-- The folds that a COMMIT of `f` affects: `f`, its grantees, and every fold whose table the commit changes. -/
def affected (d : Dev) (f : Nat) : List Nat :=
  (addNums [f] (grantees d f ++ (mineOf d f).map fun g => g.fold)).filter fun h => d.folds.live.contains h

/-- The descriptor that a staged change leaves in generation `g`: GEN is the new one; COW_SHARED stays as the live
descriptor has it, since a SNAPSHOT may have set it since (R60, R75). -/
def finalDesc (d : Dev) (g : Staged) (gen : Word) : RegDesc :=
  let x := regDescOfBytes g.bytes
  if x.ty = 0 then noDesc
  else
    match liveDesc d g.fold g.handle with
    | some y => if x.ty = 1 && y.ty = 1 && x.base = y.base && y.cow && !x.cow then { x with gen := gen, flags := x.flags + 2 }
                else { x with gen := gen }
    | none => { x with gen := gen }

/-- Space that a staged change takes from its fold. -/
def spaceFreed (d : Dev) (g : Staged) : List (Nat × Nat) :=
  match liveDesc d g.fold g.handle with
  | some y => if y.ty = 1 && (regDescOfBytes g.bytes).ty ≠ 1 then [(y.base, y.len)] else []
  | none => []

/-- One affected fold: its new record and what its old generation keeps. -/
def commitFold (d : Dev) (mine : List Staged) (p : Plan) (h : Nat) : Option (Plan × FoldRec × Drain) :=
  let r := readFold d.mem (foldPa d.folds h)
  let own := mine.filter fun g => g.fold = h
  let next : FoldRec := { r with gen := r.gen + 1, prevBase := r.dirBase, prevLenM1 := r.dirLenM1, prevGen := r.gen }
  if own.isEmpty then some (p, next, { fold := h, gen := r.gen, pages := [], space := [] })
  else
    (newTable d p h (own.map fun g => (g.handle, regDescBytes (finalDesc d g (r.gen + 1))))).map fun x =>
      (x.1, { next with dirBase := x.2.1, dirLenM1 := x.2.2.1 },
       { fold := h, gen := r.gen, pages := x.2.2.2, space := own.flatMap (spaceFreed d) })

/-- Folds whose GRANTEE_LIST a commit may change: the targets of the grants that it adds or takes away. -/
def touchedTargets (d : Dev) (mine : List Staged) : List Nat :=
  addNums [] (mine.flatMap fun g =>
    (let x := regDescOfBytes g.bytes; if x.ty = 2 then [x.tFold] else []) ++
    (match liveDesc d g.fold g.handle with | some y => if y.ty = 2 then [y.tFold] else [] | none => []))

/-- The plan of a COMMIT; none when the region-table area cannot hold it. -/
def planCommit (d : Dev) (f : Nat) : Option Plan :=
  let mine := mineOf d f
  let hs := affected d f
  let tables := hs.foldl (fun (acc : Option (Plan × List (Nat × FoldRec) × List Drain)) h =>
    acc.bind fun a => (commitFold d mine a.1 h).map fun x => (x.1, putKey a.2.1 h x.2.1, a.2.2 ++ [x.2.2]))
    (some (Plan.nothing d, [], []))
  let lists := tables.bind fun a =>
    ((touchedTargets d mine).filter fun t => d.folds.live.contains t).foldl
      (fun (acc : Option (Plan × List (Nat × FoldRec) × List Drain)) t =>
        acc.bind fun b =>
          let r := (getKey b.2.1 t).getD (readFold d.mem (foldPa d.folds t))
          let l := (addNums (grantees d t) ((mine.map fun g => g.fold))).filter fun h => grantAfter d mine h t
          if l = grantees d t then some b
          else (b.1.grantees r l).map fun y => (y.1, putKey b.2.1 t y.2, b.2.2)) (some a)
  lists.map fun a =>
    let p := a.2.1.foldl (fun q x => q.put (foldPa d.folds x.1) (foldBytes x.2)) a.1
    let wraps := hs.filter fun h => genOf d h = 0xFFFFFFFF
    { p with dev := wraps.foldl dropFoldCache (p.dev.modFolds fun fs =>
        { fs with staged := fs.staged.filter fun g => g.by_ ≠ f, drains := fs.drains ++ a.2.2 }) }

/-! ## The commands (R73) -/

/-- RMA_ARG_ATTR's FLAGS (R557): bit 2 LOG, bit 3 NO_GRANT, and nothing else. -/
def flagsOk (fl : Nat) : Bool := fl % 4 = 0 && decide (fl < 16)

/-- A staged change fits: the region-table area can hold the pages that its COMMIT will write (R73). -/
def stagedFits (d : Dev) (f : Nat) : Bool := (planCommit d f).isSome

def planCreateFold (d : Dev) (f : Nat) : Except RmaResult Plan :=
  if (readFold d.mem (foldPa d.folds f)).state ≠ 0 then .error .badState
  else
    let r : FoldRec := { dirBase := 0, dirLenM1 := 0, state := 1, gen := 1, prevBase := 0, prevLenM1 := 0, prevGen := 1,
                         listPa := 0, listCount := 0 }
    .ok ((Plan.nothing (d.modFolds fun fs => { fs with live := addNum fs.live f })).put (foldPa d.folds f) (foldBytes r))

def planCreateRegion (d : Dev) (st : Stamp) (c : RmaCmd) : Except RmaResult Plan :=
  let len := c.len.toNat
  if len = 0 || len % 64 ≠ 0 || decide (2 ^ 49 ≤ len) || !flagsOk c.flags || (c.flags / 4 % 2 = 1 && decide (len < 128)) then
    .error .badParam
  else if regionLimit ≤ (regionDescs d).length then .error .limit
  else
    match chooseHandle d st c.fold c.handle, placeRegion d st len with
    | some h, some (base, d1) =>
      let x : RegDesc :=
        { base := base, len := len, gen := genOf d c.fold, owner := c.fold, ty := 1, perm := c.perm % 4,
          keySlot := c.keySlot, flags := c.flags, tFold := 0, tHandle := 0, rsv := 0 }
      let d2 := stage d1 c.fold c.fold h x
      if stagedFits d2 c.fold then .ok { Plan.nothing d2 with handle := some h } else .error .noSpace
    | _, _ => .error .noSpace

/-- The region of a fold that a handle names, as staged. -/
def regionAt (d : Dev) (f : Nat) (h : Word) : Option RegDesc :=
  match viewDesc d f h with
  | some x => if x.ty = 1 then some x else none
  | none => none

def planDestroyRegion (d : Dev) (c : RmaCmd) : Except RmaResult Plan :=
  match regionAt d c.fold c.handle with
  | none => .error .badParam
  | some x =>
    let d1 :=
      if (liveDesc d c.fold c.handle).isSome then stage d c.fold c.fold c.handle noDesc
      else (d.modFolds fun fs =>
        { fs with staged := fs.staged.filter fun g => !(g.fold = c.fold && g.handle = c.handle),
                  dataUsed := delKey fs.dataUsed x.base })
    if stagedFits d1 c.fold then .ok (Plan.nothing d1) else .error .noSpace

/-- SET_PERM changes PERM and NO_GRANT (R558). -/
def planSetPerm (d : Dev) (c : RmaCmd) : Except RmaResult Plan :=
  match regionAt d c.fold c.handle with
  | none => .error .badParam
  | some x =>
    let d1 := stage d c.fold c.fold c.handle
      { x with perm := c.perm % 4, flags := x.flags % 8 + (if c.flags / 8 % 2 = 1 then 8 else 0) }
    if stagedFits d1 c.fold then .ok (Plan.nothing d1) else .error .noSpace

/-- GRANT writes a grant of the owner's region in the grantee's table. R73 stages it in the grantee and leaves open whose COMMIT
publishes it: the model takes the owner's, the fold that RMA_CMD names (DESIGN CHOICE, assumption 57). -/
def planGrant (d : Dev) (st : Stamp) (c : RmaCmd) : Except RmaResult Plan :=
  match regionAt d c.fold c.handle with
  | none => .error .badParam
  | some x =>
    if c.perm ≠ 1 && c.perm ≠ 3 then .error .badParam
    else if x.noGrant || !d.folds.live.contains c.peer then .error .badState
    else
      match chooseHandle d st c.peer c.peerHandle with
      | none => .error .noSpace
      | some h =>
        let d1 := stage d c.fold c.peer h
          { noDesc with owner := c.peer, ty := 2, perm := c.perm, tFold := c.fold, tHandle := c.handle }
        if stagedFits d1 c.fold then .ok { Plan.nothing d1 with handle := some h } else .error .noSpace

def planRevoke (d : Dev) (c : RmaCmd) : Except RmaResult Plan :=
  match viewDesc d c.fold c.handle with
  | some x =>
    if x.ty ≠ 2 then .error .badParam
    else
      let d1 :=
        if (liveDesc d c.fold c.handle).isSome then stage d c.fold c.fold c.handle noDesc
        else d.modFolds fun fs => { fs with staged := fs.staged.filter fun g => !(g.fold = c.fold && g.handle = c.handle) }
      if stagedFits d1 c.fold then .ok (Plan.nothing d1) else .error .noSpace
  | none => .error .badParam

/-- A connection of the fold that is not DISABLED refuses DESTROY_FOLD (R73). -/
def foldConnected (d : Dev) (f : Nat) : Bool := d.net.conns.any fun x => x.2.ident.fold = f && x.2.state ≠ .disabled

/-- Staged changes that name a fold end with it; a region that only they hold gives its place back (R73). -/
def dropStaged (d : Dev) (f : Nat) : Dev :=
  let gone (g : Staged) : Bool := g.by_ = f || g.fold = f || (regDescOfBytes g.bytes).tFold = f
  let places := (d.folds.staged.filter fun g => gone g && (regDescOfBytes g.bytes).ty = 1 &&
    (liveDesc d g.fold g.handle).isNone).map fun g => (regDescOfBytes g.bytes).base
  d.modFolds fun fs =>
    { fs with staged := fs.staged.filter fun g => !gone g, dataUsed := places.foldl delKey fs.dataUsed }

/-- Steps 2 and 3 of R580: STATE destroying, GEN raised, and every grant that names the fold invalid in place. -/
def planDestroyFold (d : Dev) (f : Nat) : Except RmaResult Plan :=
  if f = 0 then .error .badState
  else if foldConnected d f then .error .busy
  else
    let r := readFold d.mem (foldPa d.folds f)
    let p0 := (Plan.nothing (dropStaged d f)).put
        (foldPa d.folds f)
        (foldBytes { r with state := 2, gen := r.gen + 1, prevBase := r.dirBase, prevLenM1 := r.dirLenM1, prevGen := r.gen })
    let p1 := ((grantees d f).filter fun h => h ≠ f).foldl (fun p h =>
      ((slotsOfFold d h).filter fun s => s.2.2.ty = 2 && s.2.2.tFold = f).foldl (fun q s => q.put (s.2.1 + 22) [0]) p) p0
    let p2 := (d.folds.live.filter fun t => t ≠ f && (grantees d t).contains f).foldl (fun p t =>
      let rt := readFold d.mem (foldPa d.folds t)
      match p.grantees rt ((grantees d t).filter fun h => h ≠ f) with
      | some x => x.1.put (foldPa d.folds t) (foldBytes x.2)
      | none => p) p1
    .ok { p2 with dev := (if r.gen = 0xFFFFFFFF then dropFoldCache p2.dev f else p2.dev).modEvt fun v =>
            { v with rings := delKey v.rings f } }

/-- What a command does to the tables at a stamp, or the result that refuses it. -/
def planOf (d : Dev) (st : Stamp) (c : RmaCmd) : Except RmaResult Plan :=
  if !d.folds.formatted then .error .badState
  else
    match c.op with
    | .createFold => planCreateFold d c.fold
    | op =>
      if !d.folds.live.contains c.fold then .error .badState
      else
        match op with
        | .createRegion => planCreateRegion d st c
        | .destroyRegion => planDestroyRegion d c
        | .setPerm => planSetPerm d c
        | .grant => planGrant d st c
        | .revoke => planRevoke d c
        | .commit => (match planCommit d c.fold with | some p => .ok p | none => .error .noSpace)
        | .destroyFold => planDestroyFold d c.fold
        | .createFold | .format => .error .badState

/-- Where the book-keeping of a fold's staged changes and of its draining generations lies in the rest of the control area
(R133; the spec fixes no place for it). -/
def stagedOff (f : Nat) : Nat := 0xA1000000 + f * 64
def drainsOff (f : Nat) : Nat := 0xA2000000 + f * 64

/-- The leaves of that book-keeping for the folds that staged changes or draining generations name. -/
def bookLeaves (d : Dev) : List Nat :=
  addNums [] (d.folds.staged.map (fun g => (ctlBase d.folds + stagedOff g.by_) / 4096) ++
    d.folds.drains.map fun x => (ctlBase d.folds + drainsOff x.fold) / 4096)

/-- Apply a region-table command at its stamp. -/
def applyRma (d : Dev) (st : Stamp) (c : RmaCmd) : Dev :=
  match planOf d st c with
  | .ok p => let e := p.make st; noteLeaves e st (addNums (bookLeaves d) (bookLeaves e))
  | .error _ => d

/-! ## Draining (R76, R580) -/

/-- Release what the past generations of a live fold kept, and clear its PREV fields (R57). -/
def releaseGens (d : Dev) (st : Stamp) (f : Nat) : Dev :=
  let mine := d.folds.drains.filter fun x => x.fold = f
  let d1 := mine.foldl (fun a x => x.space.foldl freeRegion (freeRta a x.pages))
    (d.modFolds fun fs => { fs with drains := fs.drains.filter fun x => x.fold ≠ f })
  let r := readFold d1.mem (foldPa d1.folds f)
  ((Plan.nothing d1).put (foldPa d1.folds f)
    (foldBytes { r with prevBase := 0, prevLenM1 := 0, prevGen := r.gen })).make st

/-- Step 5 of R580: the fold's regions, pages and grants are freed and STATE becomes free. -/
def finishDestroy (d : Dev) (st : Stamp) (f : Nat) : Dev :=
  let d0 := releaseGens d st f
  let r := readFold d0.mem (foldPa d0.folds f)
  let slots := slotsOfFold d0 f
  let pages := (List.range (if r.dirBase = 0 then 0 else r.dirLenM1 + 1)).flatMap fun i =>
    match livePage d0 r i with | some p => [(p.1, p.2 * 64)] | none => []
  let d1 := ((slots.filter fun s => s.2.2.ty = 1).map fun s => (s.2.2.base, s.2.2.len)).foldl freeRegion d0
  let d2 := freeRta d1 (pages ++ (if r.dirBase = 0 then [] else [(r.dirBase, 0)]) ++
    (if r.listCount = 0 then [] else [(r.listPa, 0)]))
  let d3 := (dropFoldCache d2 f).modFolds fun fs => { fs with live := fs.live.filter fun x => x ≠ f }
  ((Plan.nothing d3).put (foldPa d3.folds f)
    (foldBytes { r with dirBase := 0, dirLenM1 := 0, state := 0, prevBase := 0, prevLenM1 := 0, prevGen := r.gen,
                        listPa := 0, listCount := 0 })).make st

/-- What the serving unit found drained: a fold under destruction ends, a live one releases its past generations. -/
def applyDrained (d : Dev) (st : Stamp) (f : Nat) : Dev :=
  noteLeaves (if (readFold d.mem (foldPa d.folds f)).state = 2 then finishDestroy d st f else releaseGens d st f) st (bookLeaves d)

end Sys2Proof.Machine
end

