-- ==== Sys2Proof/Machine/Ctrl.lean ====
section
/-! DEFINITION. CTRL records: their effect, which the serving unit and a standby make alike at the stamp, and the serving
unit's side of issuing them, with the command slots of RMA_CMD (R73, R110, R143, R215, R222, R262, R505, R528, R532,
R579, R580). -/
namespace Sys2Proof.Machine

/-! ## The effect of a CTRL record -/

/-- A slot key command at its stamp (R394). -/
def applyKey (d : Dev) (cmd : KeyCmd) (k : Nat) (key : BitVec 512) : Dev :=
  d.modSec fun s =>
    match cmd, getKey s.slots k with
    | .generate, none => { s with slots := putKey s.slots k (key, true) }
    | .load, some (x, false) => { s with slots := putKey s.slots k (x, true) }
    | .unload, some (x, true) => { s with slots := putKey s.slots k (x, false) }
    | .destroy, some _ => if slotRegions d k = 0 then { s with slots := delKey s.slots k } else s
    | _, _ => s

/-- A slot key command is allowed now (R394): 0 DONE, 1 BAD_STATE, 2 IN_USE. -/
def keyAllowed (d : Dev) (cmd : KeyCmd) (k : Nat) : KeyResult :=
  match cmd, getKey d.sec.slots k with
  | .generate, none => .done
  | .load, some (_, false) => .done
  | .unload, some (_, true) => .done
  | .destroy, _ => if slotRegions d k = 0 then .done else .inUse
  | .query, _ => .done
  | _, _ => .badState

/-- Shared-configuration writes at their stamp: every register takes its value, and CFG_GEN rises by one (R532, R533). -/
def applyConfig (d : Dev) (ws : RegWrites) : Dev :=
  storeShared (cfgChanged { d with regs := ws.foldl (fun rs w => if isShared w.1 && !portAbsent d w.1 then plainWrite rs w.1 w.2 else rs) d.regs })

/-- GLB_RESET FOLD on one connection (R528). -/
def resetFoldConn (d : Dev) (x : Nat × Conn) : Dev :=
  match x.2.state with
  | .active | .quiescing => applyChange d x.1 (.quiesce true 0x03 .abortedFoldReset)
  | .armed => applyChange d x.1 .free
  | _ => d

/-- GLB_RESET FOLD at its stamp: every connection of the fold, and the fold's bucket refills to full (R528, R506). -/
def applyFoldReset (d : Dev) (f : Nat) : Dev :=
  ((d.net.conns.filter fun x => x.2.ident.fold = f).foldl resetFoldConn d).modEvt fun v =>
    { v with folds := putKey v.folds f (foldDepth v, match getKey v.folds f with | some b => b.2 | none => 0) }

/-- What a CTRL record does to a unit's state. -/
def applyCtrl (d : Dev) (st : Stamp) (b : CtrlBody) : Dev :=
  match b with
  | .rma c => applyRma d st c
  | .rmaDrained f => applyDrained d st f
  | .enrol id c => putCred d id (some c)
  | .credRevoke id => putCred d id none
  | .config ws => applyConfig d ws
  | .connNew n i => noteSetup (setConn d n (some (newConn d n i))) st b
  | .connChange n ch => noteSetup (applyChange d n ch) st b
  | .keySlot cmd k key => raiseOp (applyKey d cmd k key) 0x0309 srcSEC [k]
  | .ringBind f n a k r =>
    d.modEvt fun v => { v with rings := putKey v.rings f { conn := n, addr := a, ckey := k, rlog := r, eseq := 0, lost := 0 } }
  | .ringUnbind f => d.modEvt fun v => { v with rings := delKey v.rings f }
  | .foldRl w =>
    d.modEvt fun v =>
      { v with foldRl := w, folds := v.folds.map fun x => (x.1, min x.2.1 (max 1 (wbits w 31 24)), x.2.2) }
  | .foldReset f => applyFoldReset d f
  | .window o h => d.modUpd fun u => { u with window := o, hours := if o then h else 0 }

/-! ## Commands that send a CTRL record -/

/-- The status field of a command reads BUSY, or RUNNING, while its record waits (R262). -/
def markBusy (d : Dev) (b : CtrlBody) : Dev :=
  match b with
  | .connChange _ _ => d.modFolds fun f => { f with connBusy := true }
  | .keySlot _ _ _ => d.modSec fun s => { s with keyBusy := true }
  | .ringBind _ _ _ _ _ | .ringUnbind _ => d.modEvt fun v => { v with ringBusy := true }
  | .window _ _ => d.modTwin fun t => { t with lastCmd := .running }
  | _ => d

/-- The status field of a command whose record has been sent, or that ends without one: `ok` or BAD_STATE. -/
def markEnd (d : Dev) (b : CtrlBody) (ok : Bool) : Dev :=
  match b with
  | .connChange n ch =>
    let d1 := if d.folds.connBusy && d.folds.connNamed = n then
        d.modFolds fun f => { f with connBusy := false, connResult := if ok then 0 else 1 } else d
    if d1.rst.run = some (.connection n) && (!ok || ch = .free) then
      d1.modRst fun r =>
        { r with run := none, result := if ok then .done else .badState, freeAfter := r.freeAfter.filter fun x => x ≠ n }
    else d1
  | .keySlot cmd k _ =>
    d.modSec fun s => { s with keyBusy := false, keyResult := if ok then keyAllowed d cmd k else .badState }
  | .ringBind _ _ _ _ _ | .ringUnbind _ => d.modEvt fun v => { v with ringBusy := false, ringResult := if ok then 0 else 1 }
  | .window _ _ => d.modTwin fun t => { t with lastCmd := if ok then .done else .badState }
  | .foldReset _ =>
    if ok then d else d.modRst fun r => { r with run := none, result := .badState }
  | _ => d

/-- Send a command's CTRL record now: stamp, effect, status. -/
def sendCtrl (d : Dev) (b : CtrlBody) : Dev :=
  let p := stampCtrl d b
  applyCtrl (markEnd p.2 b true) p.1 b

/-- A command sends its CTRL record, or waits for its stamp and for room without limit (R262). -/
def issueCtrl (d : Dev) (b : CtrlBody) : Dev :=
  if ctrlReady d b then sendCtrl d b
  else markBusy (d.modTwin fun t => { t with ctrlDue := t.ctrlDue ++ [(b, .command)] }) b

/-- The commands among the waiting records end BAD_STATE; changes that this unit has made already go on waiting. -/
def refuseWaiting (d : Dev) : Dev :=
  d.twin.ctrlDue.foldl (fun a x => if x.2 = .change then a else markEnd a x.1 false)
    (d.modTwin fun t => { t with ctrlDue := t.ctrlDue.filter fun x => x.2 = .change })

/-- Records that waited leave in order as far as the sequencer and the budget allow. Once the unit no longer serves, a waiting
command ends BAD_STATE (R579). -/
def drainCtrl : Nat → Dev → Dev
  | 0, d => d
  | n + 1, d =>
    match d.twin.ctrlDue with
    | [] => d
    | (b, why) :: rest =>
      let d1 := d.modTwin fun t => { t with ctrlDue := rest }
      let cmd := decide (why ≠ .change)
      if !serving d then drainCtrl n (if cmd then markEnd d1 b false else d1)
      else if canStamp d && (why ≠ .command || !reserves b || (ctlLines d b).isEmpty || admits d (ctlLines d b).length) then
        drainCtrl n (if cmd then sendCtrl d1 b else (stampCtrl d1 b).2)
      else d

/-! ## Command slots (R73, R557 to R559) -/

def modSlot (d : Dev) (s : Nat) (f : Slot → Slot) : Dev := d.modFolds fun x => { x with slots := modAt x.slots s f }

/-- A command of a slot has ended: a release that fell due while it ran happens now (R73). -/
def endSlot (d : Dev) (s : Nat) (r : RmaResult) : Dev :=
  modSlot d s fun x =>
    { x with run := none, ended := true, result := r, owner := if x.release then none else x.owner, release := false }

/-- The handle used stands in the slot at the end of CREATE_REGION and GRANT (R557). -/
def noteHandle (d : Dev) (s : Nat) (c : RmaCmd) (h : Option Word) : Dev :=
  match c.op, h with
  | .createRegion, some w => modSlot d s fun x => { x with args := putKey x.args 0x08 w }
  | .grant, some w => modSlot d s fun x => { x with args := putKey x.args 0x1C w }
  | _, _ => d

/-- The folds whose previous generation a command waits for (R75 step 1, R580 step 1). -/
def waitsFor (d : Dev) (c : RmaCmd) : List Nat :=
  match c.op with
  | .commit => affected d c.fold
  | .destroyFold => [c.fold]
  | _ => []

/-- Operations of other folds that passed through a fold, or its own, still carry a generation of it (R580 step 4). -/
def foldBusy (d : Dev) (f : Nat) : Bool := genBusy d f

/-- Try to carry out a command that heads the queue: none when it has to wait. -/
def tryRma (d : Dev) (s : Nat) (c : RmaCmd) : Option Dev :=
  if !serving d || d.twin.refusing then some (endSlot d s .badState)
  else
    match planOf d (nextStamp d.twin) c with
    | .error r => some (endSlot d s r)
    | .ok p =>
      if (waitsFor d c).any (genBusy d) then none
      else if !canStamp d || !d.twin.ctrlDue.isEmpty || !(p.lines.isEmpty || admits d p.lines.length) then none
      else
        let x := stampCtrl d (.rma c)
        let d1 := applyCtrl x.2 x.1 (.rma c)
        let d2 := noteHandle d1 s c p.handle
        if c.op = .destroyFold then
          some (d2.modFolds fun f => { f with waits := some { slot := s, cmd := c, step := 4 } })
        else some (endSlot d2 s .done)

/-- The leaves that FORMAT writes: fold 0's record and the control area (R74). A FORMAT whose leaves found no room in flash has
ended once none of them has a dirty line any more. -/
def formatHeld (d : Dev) : Bool :=
  d.dur.dirty.all fun l => l / 64 ≠ rtaBase d.folds / 4096 && decide (l * 64 < ctlBase d.folds)

/-- Commands run one at a time in the order of their writes (R73). A FORMAT that heads them is left to its own step. -/
def rmaPump : Nat → Dev → Dev
  | 0, d => d
  | n + 1, d =>
    match d.folds.waits with
    | some w =>
      if w.cmd.op = .format then
        (if formatHeld d then rmaPump n (endSlot (d.modFolds fun f => { f with waits := none }) w.slot .done) else d)
      else if foldBusy d w.cmd.fold || !ctrlReady d (.rmaDrained w.cmd.fold) then d
      else
        let x := stampCtrl d (.rmaDrained w.cmd.fold)
        rmaPump n (endSlot ((applyCtrl x.2 x.1 (.rmaDrained w.cmd.fold)).modFolds fun f => { f with waits := none }) w.slot .done)
    | none =>
      match d.folds.queue with
      | [] => d
      | (s, c) :: rest =>
        if c.op = .format then d
        else
          match tryRma d s c with
          | some a => rmaPump n (a.modFolds fun f => { f with queue := rest })
          | none => d

/-- Everything that waits for a stamp, for room or for a drain goes on as far as it can. -/
def settle (d : Dev) : Dev :=
  let d0 := if serving d && d.twin.refusing then refuseWaiting d else d
  let d1 := drainCtrl (d0.twin.ctrlDue.length + 1) d0
  rmaPump (2 * d1.folds.queue.length + 2) d1

end Sys2Proof.Machine
end

