-- ==== Sys2Proof/Machine/Control.lean ====
section
/-! DEFINITION. The control area as items (R133): what a leaf of it holds, how a unit installs one, and the book-keeping of
the tables rebuilt from their bytes (R242, R273). -/
namespace Sys2Proof.Machine

/-- Where an item lies in the control area, from C on. The spec gives the parts and their sizes (R133); the model places
them one after the other. -/
def itemOff : ControlItem → Nat
  | .conn n _ => contextOff n
  | .cred id _ => 0x90000000 + id % 65536 * 128
  | .slotKey k _ => 0xA0000000 + k * 128
  | .dk _ => 0xA0080000
  | .cfgGen _ _ => 0xA0080080
  | .reg a _ => 0xA0100000 + a % 0x100000 / 4 * 4
  | .binding f _ => 0xA0200000 + f * 64
  | .foldRl _ => 0xA0600000
  | .logTail b _ => tailOff b
  | .staged f _ => stagedOff f
  | .drains f _ => drainsOff f
  | .results _ p _ => p * 2048
  | .family _ ms => familyOff (match ms with | m :: _ => m.base | [] => 0)

/-- The leaf of the persistent space that holds an item. -/
def itemLeaf (d : Dev) (i : ControlItem) : Nat := (ctlBase d.folds + itemOff i) / 4096

/-- The connection record of a context (R133). -/
def imageOf (d : Dev) (c : Conn) : ConnImage :=
  { ident := c.ident, state := c.state, abort := c.abort, cause := c.cause, reason := c.reason, byClient := c.byClient,
    resuming := c.resuming, sqTail := c.sqTail, ackSeq := c.ackSeq, x := c.x, executed := c.executed, count := c.count,
    txcHigh := c.txcHigh, changed := c.changed,
    written0 := if unitBit d then c.twinWritten else c.written, written1 := if unitBit d then c.written else c.twinWritten,
    cqHead0 := c.cqHead0, cqHead1 := c.cqHead1 }

/-- The pages of a connection's result store with the entries that lie in each (R133). -/
def resultItems (n : Nat) (c : Conn) : List ControlItem :=
  let pageOf (q : Word × Entry) : Option Nat := storePage c.ident.store (q.1.toNat % 2 ^ c.ident.sqLog / 64)
  (c.ident.store.flatMap fun r => List.range' r.1 r.2).map fun p => .results n p (c.store.filter fun q => pageOf q = some p)

/-- Every item of the control area. -/
def controlAll (d : Dev) : List ControlItem :=
  d.net.conns.map (fun x => .conn x.1 (some (imageOf d x.2))) ++
  (d.net.conns.flatMap fun x => resultItems x.1 x.2) ++
  ((addNums [] (d.folds.staged.map fun g => g.by_)).map fun f => .staged f
    ((d.folds.staged.filter fun g => g.by_ = f).map fun g => (g.fold, g.handle, g.bytes))) ++
  ((addNums [] (d.folds.drains.map fun x => x.fold)).map fun f => .drains f
    ((d.folds.drains.filter fun x => x.fold = f).map fun x => (x.gen, x.pages, x.space))) ++
  d.folds.creds.map (fun x => .cred x.1 (some x.2)) ++
  d.sec.slots.map (fun x => .slotKey x.1 (some x.2)) ++
  (match d.sec.dkStored with | some k => [.dk k] | none => []) ++
  [.cfgGen d.twin.cfgGen d.twin.digests, .foldRl d.evt.foldRl] ++
  sharedAddrs.map (fun a => .reg a (reg d a)) ++
  d.evt.rings.map (fun x => .binding x.1 (some (x.2.conn, x.2.addr, x.2.ckey, x.2.rlog))) ++
  d.folds.logTails.map (fun x => .logTail x.1 x.2) ++
  d.folds.families.map fun f => .family f.len f.members

/-- The items of a leaf. -/
def controlOf (d : Dev) (leaf : Nat) : List ControlItem := (controlAll d).filter fun i => itemLeaf d i = leaf

/-- A connection as a record gives it. A unit that already held it keeps its own paths and halves; else they start afresh
(R133, R139, R520). -/
def connOfImage (d : Dev) (n : Nat) (i : ConnImage) : Conn :=
  let fresh :=
    { newConn d n i.ident with
      written := if unitBit d then i.written1 else i.written0, twinWritten := if unitBit d then i.written0 else i.written1,
      cqHead0 := i.cqHead0, cqHead1 := i.cqHead1, store := (getKey d.folds.heldResults n).getD [], setupSt := some 0 }
  let base := match getConn d n with
    | some c => if c.ident = i.ident then c else fresh
    | none => fresh
  { base with state := i.state, abort := i.abort, cause := i.cause, reason := i.reason, byClient := i.byClient,
              resuming := i.resuming, sqTail := laterSeq base.sqTail i.sqTail, ackSeq := laterSeq base.ackSeq i.ackSeq, x := i.x,
              f := i.x, executed := i.executed, count := i.count, txcHigh := max base.txcHigh i.txcHigh, changed := i.changed,
              refetch := true }
where
  /-- The later of two indices (R125). -/
  laterSeq (a b : Word) : Word := if later a b then a else b

/-- One page of a result store: its entries take the place of those that lay there. Where the connection's record has not arrived
they wait for it. -/
def putResults (d : Dev) (n page : Nat) (es : List (Word × Entry)) : Dev :=
  match getConn d n with
  | some c =>
    let here (q : Word × Entry) : Bool := storePage c.ident.store (q.1.toNat % 2 ^ c.ident.sqLog / 64) = some page
    setConn d n (some { c with store := (c.store.filter fun q => !here q) ++ es })
  | none => d.modFolds fun f => { f with heldResults := putKey f.heldResults n (((getKey f.heldResults n).getD []) ++ es) }

/-- Install one item. -/
def putItem (d : Dev) (i : ControlItem) : Dev :=
  match i with
  | .cred id c => d.modFolds fun f => { f with creds := setKey f.creds id c }
  | .conn n (some im) =>
    (setConn d n (some (connOfImage d n im))).modFolds fun f => { f with heldResults := delKey f.heldResults n }
  | .results n p es => putResults d n p es
  | .staged f cs =>
    d.modFolds fun x =>
      { x with staged := (x.staged.filter fun g => g.by_ ≠ f) ++
          cs.map fun c => { by_ := f, fold := c.1, handle := c.2.1, bytes := c.2.2 } }
  | .drains f gs =>
    d.modFolds fun x =>
      { x with drains := (x.drains.filter fun y => y.fold ≠ f) ++
          gs.map fun g => { fold := f, gen := g.1, pages := g.2.1, space := g.2.2 } }
  | .conn n none => setConn d n none
  | .slotKey k (some x) =>
    d.modSec fun s => { s with slots := putKey s.slots k x }
  | .slotKey k none => d.modSec fun s => { s with slots := delKey s.slots k }
  | .logTail b t => d.modFolds fun f => { f with logTails := putKey f.logTails b t }
  | .reg a v => if isShared a then setReg d a v else d
  | .cfgGen g l => d.modTwin fun t => { t with cfgGen := g, digests := l }
  | .dk k => d.modSec fun s => { s with dkStored := some k, dk := some k }
  | .foldRl w => d.modEvt fun v => { v with foldRl := w }
  | .binding f (some (n, a, k, r)) =>
    d.modEvt fun v =>
      let old := getKey v.rings f
      let ring : Ring :=
        { conn := n, addr := a, ckey := k, rlog := r, eseq := (match old with | some o => o.eseq | none => 0),
          lost := (match old with | some o => o.lost | none => 0) }
      { v with rings := putKey v.rings f ring }
  | .binding f none => d.modEvt fun v => { v with rings := delKey v.rings f }
  | .family len ms =>
    d.modFolds fun f =>
      { f with families := f.families ++ [{ len := len, members := ms }],
               nextVer := ms.foldl (fun n m => m.own.foldl (fun k p => max k (p.2 + 1)) (max n (m.dflt + 1))) f.nextVer }

/-- The items of this unit that lie in a leaf and that a new copy of the leaf does not hold leave. -/
def dropItem (items : List ControlItem) (d : Dev) (i : ControlItem) : Dev :=
  match i with
  | .conn n _ =>
    if items.any (fun j => match j with | .conn m (some _) => m = n | _ => false) then d
    else (d.modNet fun t => { t with ops := t.ops.filter fun o => o.conn ≠ n }) |> fun a => setConn a n none
  | .cred id _ => d.modFolds fun f => { f with creds := delKey f.creds id }
  | .slotKey k _ =>
    if items.any (fun j => match j with | .slotKey m (some _) => m = k | _ => false) then d
    else d.modSec fun s => { s with slots := delKey s.slots k }
  | .logTail b _ => d.modFolds fun f => { f with logTails := delKey f.logTails b }
  | .results n p _ => putResults d n p []
  | .staged f _ => d.modFolds fun x => { x with staged := x.staged.filter fun g => g.by_ ≠ f }
  | .drains f _ => d.modFolds fun x => { x with drains := x.drains.filter fun y => y.fold ≠ f }
  | .binding f _ =>
    if items.any (fun j => match j with | .binding m (some _) => m = f | _ => false) then d
    else d.modEvt fun v => { v with rings := delKey v.rings f }
  | .family len ms =>
    d.modFolds fun f =>
      { f with families := f.families.filter fun x => !(x.len = len && x.members = ms) }
  | .dk _ | .cfgGen _ _ | .reg _ _ | .foldRl _ => d

/-- Install the items of a leaf of the control area in place of those this unit holds there (R242). -/
def installControl (d : Dev) (leaf : Nat) (items : List ControlItem) : Dev :=
  items.foldl putItem ((controlOf d leaf).foldl (dropItem items) d)

/-! ## Rebuilding the book-keeping from the tables -/

/-- Folds whose record holds any byte. -/
def recordedFolds (d : Dev) : List Nat :=
  addNums [] ((d.mem.filter fun c => decide (rtaBase d.folds ≤ c.1) && decide (c.1 < rtaBase d.folds + 4194304)).map fun c =>
    (c.1 - rtaBase d.folds) / 64)

/-- The areas of the region-table area that a fold's record uses: directories, pages, lists, of both generations. -/
def foldAreas (d : Dev) (f : Nat) : List (Nat × Nat) :=
  let r := readFold d.mem (foldPa d.folds f)
  let tree (dir lenM1 : Nat) : List (Nat × Nat) :=
    if dir = 0 then []
    else (dir, (lenM1 + 1) * 16) :: (List.range (lenM1 + 1)).filterMap fun i =>
      let e := readDir d.mem (dir + i * 16)
      if e.flags % 2 = 0 then none else some (e.page, (e.countM1 + 1) * 64)
  tree r.dirBase r.dirLenM1 ++ tree r.prevBase r.prevLenM1 ++
    (if r.listCount = 0 then [] else [(r.listPa, 2 * r.listCount)])

/-- The live folds, the space in use and the areas in use, read from the tables as they stand (R52, R57): a fold under destruction
and a draining generation keep theirs, and so does a staged region (R62, R76, R580). -/
def rebuildFolds (d : Dev) : Dev :=
  let fs := recordedFolds d
  let stateOf (f : Nat) : Nat := (readFold d.mem (foldPa d.folds f)).state
  let areas := fs.flatMap (foldAreas d) ++ d.folds.drains.flatMap fun x => x.pages
  let regions := ((fs.filter fun f => stateOf f ≠ 0).flatMap fun f => (slotsOfFold d f).map fun s => s.2.2) ++
    (d.folds.staged.map fun g => regDescOfBytes g.bytes) |>.filter fun x => x.ty = 1
  let space := (regions.map fun r => (r.base, r.len)) ++ d.folds.drains.flatMap fun x => x.space
  d.modFolds fun x =>
    { x with live := fs.filter fun f => stateOf f = 1,
             rtaUsed := areas.foldl (fun m a => putKey m a.1 (roundUp a.2 64)) [(rtaBase x, 4194304)],
             dataUsed := space.foldl (fun m r => putKey m r.1 (roundUp r.2 4096)) [] }

end Sys2Proof.Machine
end

