-- ==== Sys2Proof/Machine/Roles.lean ====
section
/-! DEFINITION. The twin state and every way it changes: fit to serve, stopping to serve, starting to serve, leaving a
pairing and its divergence bitmap (R204, R206, R227, R233, R236, R241, R250). -/
namespace Sys2Proof.Machine

/-- TWN_STATUS.STATE (R246). -/
def twinStateNo : TwinState → Nat
  | .active => 0 | .standby => 1 | .unpaired => 2 | .joining => 3 | .fenced => 4

/-- A unit that is neither serving nor a standby sends no data and no entry: what waited to be sent or acknowledged goes (R204,
R227). -/
def quietConns (d : Dev) : Dev :=
  d.modNet fun t =>
    { t with conns := t.conns.map fun x =>
        (x.1, { x.2 with sendq := [], routes := [], paths := x.2.paths.map fun p => { p with unacked := [] } }) }

/-- Enter a twin state; a change raises 0x0401 with the old and the new state (R250). -/
def enterState (d : Dev) (st : TwinState) : Dev :=
  if d.twin.st = st then d
  else
    let d1 := if st = .fenced || st = .joining then quietConns d else d
    raiseOp ((d1.modTwin fun t => { t with st := st }).modRst fun r => { r with warmed := r.warmed && st = .fenced })
      0x0401 srcTWN [twinStateNo d.twin.st, twinStateNo st]

/-- 0x0402: pair protection lost or restored, to the operator and to every live fold (R250). -/
def protection (d : Dev) : Dev := raise d 0x0402 srcTWN (valuesPayload []) d.folds.live

/-- No case of R204 holds the unit FENCED: start-up has finished, the space is formatted, and none of R275, R301, R334, R347,
R381, R391, R404 and R412 holds. -/
def fitToServe (d : Dev) : Bool :=
  d.pwr.st = .on && d.ldg.stage = .firmware && d.folds.formatted && !d.dur.lost && d.env.dimmOk && d.ftl.popOk && d.hall.fuseOk &&
  d.dram.chans.all (fun c => c.st ≠ .fault) &&
  d.sec.wk.isSome && d.sec.sk.isSome && d.sec.dk.isSome && !d.sec.lockout && !d.sec.drbgStop && d.sec.entropyOk

/-! ## Leaving a pairing (R241) -/

/-- Start the divergence bitmap at the common point K: every leaf changed by a stamped record after it. -/
def beginDiverge (d : Dev) (k : Stamp) : Dev :=
  d.modTwin fun t =>
    { t with diverge := { active := true, full := t.diverge.full,
                          leaves := addNums t.diverge.leaves ((t.leafStamps.filter fun p => decide (k < p.2)).map fun p => p.1) },
             leafStamps := [] }

/-- What a unit drops of the link's traffic when its pairing ends. -/
def dropPairing (d : Dev) : Dev :=
  d.modTwin fun t =>
    { t with txq := [], waitq := [], held := [], repairs := [], finWait := [], finHeld := [], outstanding := [], touched := [], lineStamps := [],
             levelDue := [], ownBad := [], unproved := [], resyncing := false, u := [], uFull := false, uNext := 0, readySent := false,
             source := false, based := false }

/-- Leave a pairing: the bitmap starts and the traffic of the pairing goes. A unit that is in no pairing changes nothing. -/
def leavePair (d : Dev) : Dev :=
  match d.twin.st with
  | .active => dropPairing (beginDiverge d d.twin.peerStamp)
  | .standby => dropPairing (beginDiverge d d.twin.peerEcho)
  | _ => dropPairing d

/-! ## Stopping to serve (R227) -/

/-- Take every running COPY and WRITE_ZERO to its end, and complete what its level allows. -/
def runOut (d : Dev) : Dev :=
  completeAll (d.net.ops.foldl (fun a o => if o.stage = .running then workAll 257 a o.conn o.seq else a) d)

/-- Unstamped operations end without a mark or an entry, and are counted; the connections fetch afresh (R133, R227). -/
def dropUnstamped (d : Dev) : Dev :=
  let gone := d.net.ops.filter fun o => o.stamp.isNone
  let d1 := gone.foldl forgetOp (bump d 0x80020 gone.length)
  d1.modNet fun t =>
    { t with groups := [], badTail := [],
             conns := t.conns.map fun x => (x.1, { x.2 with pulls := [], refetch := true }) }

/-- Commands that wait end BAD_STATE when the unit stops serving (R579). -/
def endWaiting (d : Dev) : Dev :=
  let d1 := match d.folds.waits with
    | some w => endSlot (d.modFolds fun f => { f with waits := none }) w.slot .badState
    | none => d
  let d2 := match d1.rst.run with
    | some (.fold _) | some (.connection _) => d1.modRst fun r => { r with run := none, result := .badState, freeAfter := [] }
    | _ => d1
  settle d2

/-- The shadow bank is emptied with RESULT LAPSED: 0x0809 (R533, R538, R539). -/
def lapseBank (d : Dev) : Dev :=
  if d.rst.bankOwner.isNone && !d.rst.bankBusy then d
  else
    raiseOp (d.modRst fun r => { r with bankOwner := none, bank := [], overflow := false, bankBusy := false, bankResult := .lapsed })
      0x0809 srcGLB [d.twin.cfgGen.toNat, d.rst.bank.length]

/-- A swap or a reseed that a change of role overtakes is over. The spec names no result for it: a reseed whose generation is
already raised reads DONE, any other command BAD_STATE (DESIGN CHOICE, assumption 60). -/
def endPhase (d : Dev) : Dev :=
  let late := d.twin.phase = .reseedHello
  d.modTwin fun t =>
    { t with phase := .none, refusing := t.refusing && !late,
             lastCmd := if t.lastCmd = .running then (if late then .done else .badState) else t.lastCmd }

/-- Enter FENCED or STANDBY from serving (R227, R232, R239). -/
def stopServing (d : Dev) (tgt : TwinState) : Dev :=
  if !serving d then enterState d tgt
  else
    let d1 := dropUnstamped d
    let d2 := if tgt = .standby then d1 else leavePair d1
    runOut (endWaiting (lapseBank (enterState (endPhase (d2.modTwin fun t => { t with claiming := none, leaseEnd := none })) tgt)))

/-! ## Starting to serve (R236, R245) -/

/-- Begin to serve in a state: records not yet applied are discarded, every connection fetches from its first DOORBELL, or from
its executed watermark after a warm reset (R135, R524), and the first stamp is the one given. A first stamp past the limit refuses mutation from the start (R209). -/
def startServing (d : Dev) (tgt : TwinState) (first : Option Stamp) : Dev :=
  let d1 := if tgt = .active then
      d.modTwin fun t => { t with held := [], repairs := [], finHeld := [], touched := [], ownBad := [], levelDue := [], peerStamp := t.lastStamp }
    else leavePair d
  let d2 := d1.modNet fun t =>
    { t with conns := t.conns.map fun x =>
        (x.1, { x.2 with pulls := [], refetch := !d.rst.warmed, f := if d.rst.warmed then x.2.x else x.2.f }) }
  let d3 := d2.modTwin fun t =>
    { t with nextAt := match first with | some s => some s | none => t.nextAt, claiming := none, phase := .none }
  refuseAtLimit (enterState d3 tgt)

/-- The loss is over: by ACCEPT_LOSS, or by a completed rejoin (R275, R280). A slot that holds an unfinished image is empty. -/
def clearLoss (d : Dev) : Dev :=
  noteSlots d (d.modDur fun u => { u with lost := false, slots := u.slots.map fun s => if s.st = .saving then ImgSlot.reset else s })

/-- A unit without a pair identity serves once nothing of R204 holds it FENCED (R206). -/
def serveAlone (d : Dev) : Dev :=
  if d.twin.ident.isNone && d.twin.st = .fenced && fitToServe d then startServing d .unpaired none else d

/-- An active whose twin is gone serves on as UNPAIRED: what waited for the twin completes at the level an UNPAIRED unit
holds (R162, R178, R233). -/
def goUnpaired (d : Dev) : Dev :=
  if d.twin.st = .active then settle (completeAll (protection (enterState (endPhase (leavePair d)) .unpaired))) else d

end Sys2Proof.Machine
end

