-- ==== Sys2Proof/Machine/Flash.lean ====
section
/-! DEFINITION. The flash tier: superblocks and stripes, drains, programs and erases, garbage collection, reads, bad blocks,
checkpoints, patrol and the health samples (R300 to R332). -/
namespace Sys2Proof.Machine

/-! ## Blocks and positions (R301 to R303) -/

/-- The block of a codeword: flash channel, target, plane, block. -/
def blockOfIdx (sb i : Nat) : Nat × Nat × Nat × Nat := (chanOf sb i, posOf sb % 16, planeOf i, blockOfSb sb)

/-- Index values of a superblock's page row that can be written (R303): the part has the plane, the block is not retired and
its die answers. -/
def goodSlots (f : Ftl) (sb : Nat) : List Nat :=
  (List.range 128).filter fun i =>
    decide (planeOf i < f.part.planes) && !f.retired.contains (blockOfIdx sb i) &&
    !f.offline.contains (chanOf sb i, posOf sb % 16)

/-- Page rows of the word lines that begin at a row: the pages that share a word line program together (R311). -/
def rowsAt (f : Ftl) (row : Nat) : Nat := min (max 1 f.part.wlPages) (f.part.pages - row)

/-- Index values of those rows that can be written. -/
def wordSlots (f : Ftl) (sb row : Nat) : List Nat :=
  (List.range (rowsAt f row)).flatMap fun r => (goodSlots f sb).map fun i => (row + r) * 128 + i

/-- A position the population has (R301). -/
def posUsed (f : Ftl) (pos : Nat) : Bool := decide (pos / 16 < f.groups) && decide (pos % 16 < f.targets)

/-- The positions in use. -/
def posList (f : Ftl) : List Nat := (List.range 256).filter (posUsed f)

/-- The superblocks of an image slot at a position: the model reserves the first four blocks of every position (R304). -/
def saveBlock (sb : Nat) : Bool := decide (blockOfSb sb < 4)

/-- A position with an offline die continues in superblocks of the group's other targets (R332). -/
def targetsFor (f : Ftl) (pos : Nat) : List Nat :=
  if f.offline.any fun x => decide (x.1 / 8 = pos / 16) && decide (x.2 = pos % 16) then
    (posList f).filter fun p => p / 16 = pos / 16 && p ≠ pos
  else [pos]

/-- Free superblocks of a position: neither open, closed nor being erased. -/
def freeSbs (f : Ftl) (pos : Nat) : List Nat :=
  (targetsFor f pos).flatMap fun t =>
    ((List.range f.part.blocks).map fun b => t * 2048 + b).filter fun sb =>
      !saveBlock sb && !f.closed.contains sb && !f.erasing.contains sb && !(f.opens.any fun o => o.2.1 = sb) &&
      !(goodSlots f sb).isEmpty

/-- Erase count of a superblock. -/
def eraseCount (f : Ftl) (sb : Nat) : Nat := (getKey f.erases sb).getD 0

/-- The free superblock with the lowest erase count (R315). -/
def nextSb (f : Ftl) (pos : Nat) : Option Nat :=
  (freeSbs f pos).foldl (fun b sb =>
    match b with | none => some sb | some x => if eraseCount f sb < eraseCount f x then some sb else some x) none

/-- Sequence of the newest completed checkpoint. -/
def ckptNow (f : Ftl) : Nat := match f.ckpts with | c :: _ => c.seq | [] => 0

/-! ## Stripes (R302, R309 to R311) -/

/-- A codeword before it has a place. -/
def blankCw (k : CwKind) (addr : Nat) : Codeword :=
  { loc := 0, kind := k, grp := false, reloc := false, addr := addr, keySlot := 0, erases := 0, wseq := 0, stamp := 0,
    ckptSeq := 0, oldLoc := none, poison := 0, link := none, data := [], bad := false }

/-- Where a position's next program goes: its open superblock and row, or the free superblock that it takes (R315). -/
def openAt (f : Ftl) (pos : Nat) : Option (Nat × Nat) :=
  match f.opens.find? fun o => o.1 = pos with
  | some o => some o.2
  | none => (nextSb f pos).map fun sb => (sb, 0)

/-- Codewords that the next program of a position takes. -/
def roomAt (f : Ftl) (pos : Nat) : Nat := match openAt f pos with | some (sb, row) => (wordSlots f sb row).length | none => 0

/-- Place codewords in the next word lines of a position's open superblock, filled up with pads (R302, R311). The last row closes the
superblock and names the one that continues the position (R309). Answers the codewords that found no room, none where the
position takes no writes (R332). -/
def placeRow (f : Ftl) (pos : Nat) (cws : List Codeword) (lines : List Nat) (ctl : List ControlItem) :
    Option (Ftl × List Codeword) :=
  match openAt f pos with
  | none => none
  | some (sb, row) =>
    let slots := wordSlots f sb row
    let now := cws.take slots.length
    let pads := List.replicate (slots.length - now.length) (blankCw .pad 0)
    let held := { f with opens := (f.opens.filter fun o => o.1 ≠ pos) ++ [(pos, sb, row)] }
    let lastRow := decide (f.part.pages ≤ row + rowsAt f row)
    let next := if lastRow then nextSb held pos else none
    let placed := (slots.zip (now ++ pads)).zipIdx.map fun x =>
      { x.1.2 with loc := locOf sb x.1.1, wseq := f.wseq + x.2, erases := eraseCount f sb, ckptSeq := ckptNow f,
                   link := if pageOf x.1.1 + 1 = f.part.pages then next else none }
    let rest := f.opens.filter fun o => o.1 ≠ pos
    let opens' :=
      if lastRow then (match next with | some n => rest ++ [(pos, n, 0)] | none => rest)
      else rest ++ [(pos, sb, row + rowsAt f row)]
    some ({ f with opens := opens', closed := if lastRow then f.closed ++ [sb] else f.closed,
                   wseq := f.wseq + slots.length,
                   progs := f.progs ++ [{ pos := pos, cws := placed, lines := lines, ctl := ctl }] }, cws.drop slots.length)

/-- Place codewords in as many rows as they need; the lines and items go with the last row, so that they end when every row
has programmed. None where the position runs out of room. -/
def placeCws : Nat → Ftl → Nat → List Codeword → List Nat → List ControlItem → Option Ftl
  | 0, _, _, _, _, _ => none
  | n + 1, f, pos, cws, lines, ctl =>
    let last := decide (cws.length ≤ roomAt f pos)
    match placeRow f pos cws (if last then lines else []) (if last then ctl else []) with
    | none => none
    | some (f1, []) => some f1
    | some (f1, more) => placeCws n f1 pos more lines ctl

/-- The bytes of a leaf that are not zero, by offset. -/
def leafData (d : Dev) (leaf : Nat) : List (Nat × Byte) :=
  (d.mem.filter fun c => decide (leaf * 4096 ≤ c.1) && decide (c.1 < leaf * 4096 + 4096)).map fun c => (c.1 - leaf * 4096, c.2)

/-- Key slot that encrypts the region of a leaf (R394); 0 is the controller's domain key. -/
def leafSlot (d : Dev) (leaf : Nat) : Nat :=
  match (regionDescs d).find? fun x => decide (x.base ≤ leaf * 4096) && decide (leaf * 4096 < x.base + x.len) with
  | some x => x.keySlot
  | none => 0

/-- The highest stamp among a leaf's lines that the unit remembers (R310). -/
def leafStamp (d : Dev) (leaf : Nat) : Stamp := (getKey d.twin.leafStamps leaf).getD d.twin.lastStamp

/-- The codeword of a leaf as it stands. -/
def leafCw (d : Dev) (grp : Option Stamp) (leaf : Nat) : Codeword :=
  { blankCw .leaf (leaf * 4096) with
    grp := grp.isSome, keySlot := leafSlot d leaf, stamp := grp.getD (leafStamp d leaf), oldLoc := getKey d.ftl.map leaf,
    poison := poisonBits d leaf, data := leafData d leaf }

/-! ## Drain (R252, R274, R312, R313) -/

/-- Lines of live images that are not in flash yet. -/
def imageLines (d : Dev) : List Nat := d.dur.slots.foldl (fun l s => addNums l s.left) []

/-- Lines that a program in progress carries. -/
def inProgress (d : Dev) : List Nat := d.ftl.progs.foldl (fun l p => l ++ p.lines) []

/-- Lines to drain: dirty ones and those of live images, without those that a program carries already. -/
def drainable (d : Dev) : List Nat :=
  let busy := inProgress d
  (addNums d.dur.dirty (imageLines d)).filter fun l => !busy.contains l

/-- Leaves in the order the FTL takes them: those of live images first (R274), then by map page, the pages with the most
dirty leaves first (R312). -/
def drainOrder (d : Dev) : List Nat :=
  let ls := drainable d
  let imgs := leavesOf (ls.filter fun l => (imageLines d).contains l)
  let rest := (leavesOf ls).filter fun l => !imgs.contains l
  let pages := addNums [] (rest.map fun l => l / 819)
  let sized := pages.map fun p => (p, rest.filter fun l => l / 819 = p)
  let sorted := sized.foldl insertPage []
  imgs ++ sorted.flatMap fun x => x.2
where
  /-- Insert a map page before those with fewer dirty leaves. -/
  insertPage : List (Nat × List Nat) → Nat × List Nat → List (Nat × List Nat)
    | [], x => [x]
    | y :: t, x => if y.2.length < x.2.length then x :: y :: t else y :: insertPage t x

/-- A commit group is at MEDIA (R186): its members wait for that level, or a PERSIST that waits for it covers the group (R163). -/
def atMedia (d : Dev) (st : Stamp) : Bool :=
  d.net.ops.any fun o =>
    match getConn d o.conn with
    | none => false
    | some c =>
      if o.desc.op = .persist then
        o.stage = .ready && levelOfByte o.desc.level c.ident.level = .media && c.changed.any fun p => p.2 = st
      else o.group.isSome && o.stamp = some st && c.ident.level = .media

/-- A commit group that waits for MEDIA and still has lines to drain (R186, R313): its stamp and those lines. -/
def mediaGroup (d : Dev) : Option (Stamp × List Nat) :=
  let ls := drainable d
  (d.dur.grouped.map fun g => (g.1, g.2.filter fun l => ls.contains l)).find? fun g => !g.2.isEmpty && atMedia d g.1

/-- Lines of a leaf that a drain of it ends. -/
def linesOfLeaf (ls : List Nat) (leaf : Nat) : List Nat := ls.filter fun l => l / 64 = leaf

/-- A leaf of zero lines without poison takes the ZERO entry without a program (R305): its lines are clean at once. -/
def isZeroLeaf (d : Dev) (leaf : Nat) : Bool :=
  decide (leaf * 4096 < ctlBase d.folds) && (leafData d leaf).isEmpty && poisonBits d leaf = 0

/-- The ZERO entry of the map. -/
def zeroEntry : Nat := 0x4000000001

/-- The map takes entries; every line given ends its dirty state (R252, R311). -/
def landLeaves (d : Dev) (es : List (Nat × Nat)) (lines : List Nat) : Dev :=
  let d1 := d.modFtl fun f => { f with map := es.foldl (fun m e => putKey m e.1 e.2) f.map, updates := f.updates + es.length }
  d1.modDur fun u =>
    { u with dirty := dropNums u.dirty lines,
             grouped := (u.grouped.map fun g => (g.1, dropNums g.2 lines)).filter fun g => !g.2.isEmpty,
             slots := u.slots.map fun s => { s with left := dropNums s.left lines } }

/-- The commit mark of a group (R313): stamp, first WSEQ and count. -/
def markCw (f : Ftl) (st : Stamp) (n : Nat) : Codeword :=
  { blankCw .commitMark 0 with
    stamp := st, data := (leBytes 8 st ++ leBytes 8 f.wseq ++ leBytes 4 n).zipIdx.map fun x => (x.2, x.1) }

/-- No new FTL program starts in a save or in a warm reset (R266, R523). -/
def flashHeld (d : Dev) : Bool :=
  d.dur.save ≠ .idle || d.rst.warm = .quiesce || d.rst.warm = .held || d.rst.warm = .leaving

/-- FTL_DRAIN: one batch at a position. -/
def drain (pos : Nat) (d : Dev) : Dev :=
  if !posUsed d.ftl pos || !d.folds.formatted || flashHeld d then d
  else
    match mediaGroup d with
    | some (st, ls) =>
      let leaves := leavesOf ls
      let lines := leaves.flatMap (linesOfLeaf (drainable d))
      let cws := leaves.map (leafCw d (some st)) ++ [markCw d.ftl st leaves.length]
      (match placeCws (cws.length + 1) d.ftl pos cws lines (leaves.flatMap (controlOf d)) with
       | some f => { d with ftl := { f with marks := f.marks ++ [(st, d.ftl.wseq, leaves.length)] } }
       | none => d)
    | none =>
      let order := (drainOrder d).take (128 * max 1 d.ftl.part.wlPages)
      let zeros := order.filter (isZeroLeaf d)
      let d1 := landLeaves d (zeros.map fun l => (l, zeroEntry)) (zeros.flatMap (linesOfLeaf (drainable d)))
      let leaves := (order.filter fun l => !isZeroLeaf d l)
      if leaves.isEmpty then completeAll d1
      else
        let now := leaves.take (roomAt d1.ftl pos)
        match placeRow d1.ftl pos (now.map (leafCw d1 none)) (now.flatMap (linesOfLeaf (drainable d1)))
          (now.flatMap (controlOf d1)) with
        | some (f, _) => completeAll { d1 with ftl := f }
        | none => completeAll d1

/-! ## Validity and erases (R308, R316) -/

/-- A location that some map entry holds. -/
def namedLoc (f : Ftl) (l : Nat) : Bool := f.map.any fun e => e.2 = l

/-- Valid codewords of a superblock: leaves that the map names. -/
def validIn (f : Ftl) (sb : Nat) : List Codeword :=
  f.cws.filter fun c => sbOfLoc c.loc = sb && c.kind = .leaf && namedLoc f c.loc

/-- The kept checkpoints with the WSEQ of their records' headers, and the running one. -/
def heldCkpts (f : Ftl) : List (Ckpt × Option Nat) :=
  (f.ckpts.map fun k => (k, (f.cws.find? fun c => c.loc = k.head).map fun c => c.wseq)) ++ f.ckpt.toList.map fun k => (k, none)

/-- A kept or running checkpoint names a codeword: its record, or the newest copy of a page that was written before that record
(R320, R323). -/
def ckptNames (f : Ftl) (c : Codeword) : Bool :=
  match c.kind with
  | .ckptRec => (heldCkpts f).any fun k => k.1.seq = c.addr
  | .ftlPage | .dirPage =>
    (heldCkpts f).any fun k =>
      let before (n : Nat) : Bool := match k.2 with | some h => decide (n < h) | none => true
      before c.wseq && !f.cws.any fun x => x.kind = c.kind && x.addr = c.addr && decide (c.wseq < x.wseq) && before x.wseq
  | _ => false

/-- A superblock that must stand: it holds what a checkpoint names (R320), or a leaf of a commit group whose mark has not programmed
(R313). -/
def sbHeld (f : Ftl) (sb : Nat) : Bool :=
  f.cws.any fun c => sbOfLoc c.loc = sb && (ckptNames f c || (c.grp && f.marks.any fun m => m.1 = c.stamp))

/-- A closed superblock without valid leaves goes to its erase. -/
def eraseEmpty (f : Ftl) (sb : Nat) : Ftl :=
  if f.closed.contains sb && (validIn f sb).isEmpty && !sbHeld f sb && !(f.progs.any fun p => p.cws.any fun c => sbOfLoc c.loc = sb) then
    { f with closed := f.closed.filter fun x => x ≠ sb, erasing := f.erasing ++ [sb] }
  else f

/-- Move the valid leaves of some codewords with RELOC set (R316); what reads uncorrectable stays. -/
def relocate (d : Dev) (pos : Nat) (cs : List Codeword) : Dev :=
  let moving := d.ftl.progs.foldl (fun l p => l ++ p.cws.filterMap fun c => if c.reloc then c.oldLoc else none) []
  let todo := (cs.filter fun c => !moving.contains c.loc && !c.bad && !dieGone d.ftl c.loc).map fun c => { c with reloc := true, grp := false, oldLoc := some c.loc }
  if todo.isEmpty || flashHeld d then d
  else
    match placeCws (todo.length + 1) d.ftl pos todo [] [] with
    | some f => { d with ftl := f }
    | none => d

/-! ## Life (R304, R326, R331) -/

/-- After a change of the figures: the spare's two thresholds and the life's multiples of 10 raise their events as they are
crossed, 0x0508 and 0x0509 to every live fold as well. -/
def checkLife (before : Dev) (d : Dev) : Dev :=
  let low (x : Dev) : Bool := decide (spareLeft x.ftl x.folds.s * 10 < (x.ftl.spareFmt : Int))
  let ro (x : Dev) : Bool := decide (spareLeft x.ftl x.folds.s * 100 < (x.ftl.rawFmt : Int))
  if !d.folds.formatted then d
  else
    let d1 := if low d && !low before then raiseOp d 0x0507 srcFTL [(spareLeft d.ftl d.folds.s).toNat / 1073741824] else d
    let d2 := if ro d1 && !d1.ftl.readOnly then
        raise ((d1.modFtl fun f => { f with readOnly := true }).modDur fun u => { u with budget := 0, source := .forcedZero })
          0x0508 srcFTL (valuesPayload []) d1.folds.live
      else d1
    let l := lifeOf d2
    let d3 := if l / 10 ≠ d2.ftl.life / 10 then raise d2 0x0509 srcFTL (valuesPayload [l]) d2.folds.live else d2
    d3.modFtl fun f => { f with life := l }

/-! ## Bad blocks and dies (R319) -/

/-- A die goes offline: its open superblock closes short (R332). -/
def takeOffline (c t : Nat) (d : Dev) : Dev :=
  if d.ftl.offline.contains (c, t) then d
  else
    let pos := c / 8 * 16 + t
    let f := d.ftl
    let shut := (f.opens.filter fun o => posOf o.2.1 = pos).map fun o => o.2.1
    raiseOp { d with ftl := { f with offline := f.offline ++ [(c, t)], opens := f.opens.filter fun o => posOf o.2.1 ≠ pos,
                                     closed := f.closed ++ shut } } 0x0504 (.flash c) [c, t]

/-- Retire a block; a die with more than 2 % of its blocks retired goes offline. -/
def retire (d : Dev) (b : Nat × Nat × Nat × Nat) : Dev :=
  if d.ftl.retired.contains b then d
  else
    let d1 := d.modFtl fun f => { f with retired := f.retired ++ [b] }
    let n := (d1.ftl.retired.filter fun x => x.1 = b.1 && x.2.1 = b.2.1).length
    let d2 := if d1.ftl.part.planes * d1.ftl.part.blocks < n * 50 then takeOffline b.1 b.2.1 d1 else d1
    checkLife d d2

/-- The codewords of a block. -/
def inBlock (b : Nat × Nat × Nat × Nat) (c : Codeword) : Bool := blockOfIdx (sbOfLoc c.loc) (idxOfLoc c.loc) = b

/-- Move the valid leaves of a block, except those given. -/
def emptyBlock (d : Dev) (b : Nat × Nat × Nat × Nat) (except : Nat) : Dev :=
  let cs := d.ftl.cws.filter fun c => inBlock b c && c.kind = .leaf && c.loc ≠ except && !c.bad && namedLoc d.ftl c.loc
  match cs with
  | [] => d
  | c :: _ => relocate d (posOf (sbOfLoc c.loc)) cs

/-! ## Programs (R311, R319) -/

/-- Where a leaf's codeword is recorded. A moved leaf takes every entry that still holds its old location (R316, R332); a
drained leaf takes its own entry. -/
def mapOf (m : List (Nat × Nat)) (c : Codeword) : List (Nat × Nat) :=
  if c.reloc then m.filterMap fun e => if some e.2 = c.oldLoc then some (e.1, c.loc) else none
  else [(c.addr / 4096, c.loc)]

/-- The leaves that a finished program lets the map take: its own, unless they belong to a group, and with a commit mark
those of its group (R313). A leaf changed again since is superseded by its next drain and is recorded all the same. -/
def landing (f : Ftl) (p : Prog) : List Codeword :=
  p.cws.flatMap fun c =>
    match c.kind with
    | .leaf => if c.grp then [] else [c]
    | .commitMark => (f.cws ++ p.cws).filter fun x => x.kind = .leaf && x.grp && x.stamp = c.stamp
    | _ => []

/-- What a finished program changes: its codewords stand in flash, the map takes its leaves, and their lines are clean (R311). -/
def programEnd (d : Dev) (p : Prog) : Dev :=
  let ls := landing d.ftl p
  let d1 := d.modFtl fun f =>
    { f with progs := f.progs.erase p, cws := f.cws ++ p.cws.filter (fun c => c.kind ≠ .pad),
             marks := f.marks.filter fun m => !p.cws.any fun c => c.kind = .commitMark && c.stamp = m.1,
             progB := f.progB + 4096 * (p.cws.filter fun c => c.kind ≠ .pad).length,
             drainB := f.drainB + 4096 * (ls.filter fun c => !c.reloc).length,
             ctlHeld := (f.ctlHeld.filter fun i => !(leavesOf p.lines).contains (itemLeaf d i)) ++ p.ctl,
             suspends := f.suspends.filter fun s => !(s.1 / 8 = p.pos / 16 && s.2.1 = p.pos % 16) }
  let d2 := landLeaves d1 (ls.flatMap (mapOf d1.ftl.map)) p.lines
  let olds := addNums [] (p.cws.filterMap fun c => if c.reloc then c.oldLoc.map sbOfLoc else none)
  { d2 with ftl := olds.foldl eraseEmpty d2.ftl }

/-- A program has finished; the program time counts toward R314. -/
def programDone (pos ns : Nat) (d : Dev) : Dev :=
  match d.ftl.progs.find? fun p => p.pos = pos with
  | none => d
  | some p =>
    completeAll ((programEnd d p).modFtl fun f =>
      { f with progTimes := (f.progTimes.filter fun t => decide (d.clock ≤ t.1 + 60000000000)) ++ [(d.clock, ns)] })

/-- FORMAT and a credential command over I3C write the lines of some leaves through to flash before they end (R74): at the
first position with room; where none has room the leaves stay dirty until they drain, and the command ends then. -/
def writeThrough (d : Dev) (leaves : List Nat) : Dev :=
  let cws := leaves.map (leafCw d none)
  if !d.folds.formatted then d else
  match (posList d.ftl).findSome? fun pos =>
      placeCws (cws.length + 1) d.ftl pos cws (leaves.flatMap (linesOfLeaf (drainable d))) (leaves.flatMap (controlOf d)) with
  | some f => (f.progs.drop d.ftl.progs.length).foldl programEnd { d with ftl := f }
  | none => d.modDur fun u => { u with dirty := addNums u.dirty (leaves.map fun l => l * 64) }

/-- A program has failed (R319): the stripe's leaves are programmed again from DRAM and the block retires. -/
def programFail (pos chan plane : Nat) (d : Dev) : Dev :=
  match d.ftl.progs.find? fun p => p.pos = pos with
  | none => d
  | some p =>
    match p.cws with
    | [] => d
    | c :: _ =>
      let sb := sbOfLoc c.loc
      let b := (posOf sb / 16 * 8 + chan % 8, posOf sb % 16, plane, blockOfSb sb)
      let again := (p.cws.filter fun c => c.kind ≠ .pad).map fun c => { c with loc := 0 }
      let d1 := d.modFtl fun f => { f with progs := f.progs.erase p, pfail := satUp 0xFFFFFFFF f.pfail }
      let d2 := raiseOp (retire d1 b) 0x0502 (.flash b.1) [b.1, b.2.1, b.2.2.1, b.2.2.2]
      match placeCws (again.length + 1) d2.ftl pos again p.lines p.ctl with
      | some f => { d2 with ftl := f }
      | none => d2

/-- An erase has finished (R315, R325). -/
def eraseDone (sb : Nat) (d : Dev) : Dev :=
  if !d.ftl.erasing.contains sb then d
  else
    let d1 := d.modFtl fun f =>
      { f with erasing := f.erasing.filter fun x => x ≠ sb, erases := putKey f.erases sb (eraseCount f sb + 1),
               cws := f.cws.filter fun c => sbOfLoc c.loc ≠ sb, reads := f.reads.filter fun r => r.1 / 32 ≠ sb,
               marked := f.marked.filter fun m => m / 32 ≠ sb,
               suspends := f.suspends.filter fun s => !(s.1 / 8 = posOf sb / 16 && s.2.1 = posOf sb % 16) }
    checkLife d d1

/-- An erase has failed (R319): the block retires. -/
def eraseFail (sb chan plane : Nat) (d : Dev) : Dev :=
  if !d.ftl.erasing.contains sb then d
  else
    let b := (posOf sb / 16 * 8 + chan % 8, posOf sb % 16, plane, blockOfSb sb)
    raiseOp (retire (d.modFtl fun f => { f with efail := satUp 0xFFFFFFFF f.efail }) b) 0x0503 (.flash b.1)
      [b.1, b.2.1, b.2.2.1, b.2.2.2]

/-! ## Reads (R294, R317, R318) -/

/-- Number of the block of a location, for the read counts. -/
def blockNo (l : Nat) : Nat := sbOfLoc l * 32 + idxOfLoc l / 16 % 8 * 4 + planeOf (idxOfLoc l)

/-- A read counts on its block; the count that passes READ_LIMIT calls the patrol (R325). -/
def countRead (d : Dev) (l : Nat) : Dev :=
  let n := ((getKey d.ftl.reads (blockNo l)).getD 0) + 1
  d.modFtl fun f =>
    { f with reads := putKey f.reads (blockNo l) n,
             marked := if n = regBits d 0x600000 10 3 * 1000 + 1 then addNum f.marked (blockNo l) else f.marked }

/-- A codeword is uncorrectable (R294, R317, R319): 0x0501, every clean line of its leaves is poisoned, but for the header line of a
LOG region, which DRAM keeps (R189); the block's other valid leaves move and the block retires. -/
def uncorrectable (d : Dev) (l : Nat) : Dev :=
  let leaves := (d.ftl.map.filter fun e => e.2 = l).map fun e => e.1
  let pa := match leaves with | x :: _ => x * 4096 | [] => 0
  let d1 := raise (d.modFtl fun f => { f with uncorr := satUp 0xFFFFFFFF f.uncorr }) 0x0501
    (.flash (chanOf (sbOfLoc l) (idxOfLoc l))) (addressPayload pa 5 l) []
  let held := addNums d1.dur.dirty (imageLines d1)
  let lost := (leaves.filter fun x => !d1.dur.resident.contains x).flatMap fun x =>
    (List.range' (x * 64) 64).filter fun y => !held.contains y && !isLogHeader d1 y
  let b := blockOfIdx (sbOfLoc l) (idxOfLoc l)
  retire (emptyBlock (poisonLines d1 5 lost) b l) b

/-- A codeword read returns (R317): `step` is the step at which it decoded; past 9, and on a
die that is offline, it is uncorrectable. -/
def readDone (loc step corrected : Nat) (d : Dev) : Dev :=
  if !(d.ftl.cws.any fun c => c.loc = loc) then d
  else
    let d1 := countRead d loc
    if 9 < step || dieGone d.ftl loc then uncorrectable d1 loc
    else d1.modFtl fun f =>
      { f with corr := f.corr + corrected, retry := if 1 < step && step < 9 then satUp 0xFFFFFFFF f.retry else f.retry,
               soft := if step = 9 then satUp 0xFFFFFFFF f.soft else f.soft }

/-- A read suspends the program or erase of a busy die (R318): at most 4 times a program and 16 times an erase, on a part that
declares suspend, and never during a save. -/
def suspend (c t : Nat) (erase : Bool) (d : Dev) : Dev :=
  let pos := c / 8 * 16 + t
  let busy := if erase then d.ftl.erasing.any fun sb => posOf sb = pos
    else d.ftl.progs.any fun p => p.cws.any fun x => posOf (sbOfLoc x.loc) = pos
  let n := match d.ftl.suspends.find? fun s => s.1 = c && s.2.1 = t with | some s => s.2.2 | none => 0
  if busy && d.ftl.part.suspend && d.dur.save = .idle && decide (n < if erase then 16 else 4) then
    d.modFtl fun f => { f with suspends := (f.suspends.filter fun s => !(s.1 = c && s.2.1 = t)) ++ [(c, t, n + 1)] }
  else d

/-! ## Collection (R316) -/

/-- The victim of a position: fewest valid codewords, closed earliest among equals. -/
def victimOf (f : Ftl) (pos : Nat) : Option Nat :=
  (f.closed.filter fun sb => posOf sb = pos && !sbHeld f sb).foldl (fun b sb =>
    match b with
    | none => some sb
    | some x => if (validIn f sb).length < (validIn f x).length then some sb else some x) none

def collect (pos : Nat) (d : Dev) : Dev :=
  if !posUsed d.ftl pos || flashHeld d || 4 ≤ (freeSbs d.ftl pos).length then d
  else
    match victimOf d.ftl pos with
    | none => d
    | some sb =>
      let d1 := relocate d pos (validIn d.ftl sb)
      { d1 with ftl := eraseEmpty d1.ftl sb }

/-! ## Checkpoints (R320, R321) -/

/-- Map pages of a presented capacity (R306). -/
def mapPages (s : Nat) : Nat := ceilDiv (s / 4096) 819

/-- Numbers of the erase-count page of a superblock and of the bad-block page of a block (R306). -/
def erasePage (s sb : Nat) : Nat := mapPages s + sb / 1024
def badPage (s : Nat) (b : Nat × Nat × Nat × Nat) : Nat :=
  mapPages s + 512 + (((b.1 / 8 * 16 + b.2.1) * 2048 + b.2.2.2) * 32 + b.1 % 8 * 4 + b.2.2.1) / 32768

/-- FTL pages whose contents differ from those of the newest checkpoint: map pages, erase-count pages and bad-block pages. -/
def dirtyPages (f : Ftl) (s : Nat) : List Nat :=
  let old (α : Type) (g : Ckpt → List α) : List α := match f.ckpts with | c :: _ => g c | [] => []
  let differ (a b : List (Nat × Nat)) : List Nat := (a.filter fun e => getKey b e.1 ≠ some e.2).map fun e => e.1
  let m := old _ Ckpt.map
  let n := old _ Ckpt.erases
  addNums [] ((differ f.map m ++ differ m f.map).map (fun l => l / 819) ++ (differ f.erases n ++ differ n f.erases).map (erasePage s) ++
    (f.retired.filter fun b => !(old _ Ckpt.retired).contains b).map (badPage s))

/-- Root codewords of a checkpoint record: one for each 819 directory pages (R306). -/
def rootCws (s : Nat) : Nat := ceilDiv (ceilDiv (ftlPages s) 819) 819

/-- The bytes of a checkpoint record's header that are not zero (R321). The first record names no previous one. -/
def ckptHeader (f : Ftl) (s : Nat) : List (Nat × Byte) :=
  let replay := (List.range 256).map fun p =>
    match f.opens.find? fun o => o.1 = p with | some o => locOf o.2.1 (o.2.2 * 128) | none => 2 ^ 64 - 1
  let prev := match f.ckpts with | k :: _ => k.head | [] => 0
  ((leBytes 4 1 ++ leBytes 4 0 ++ leBytes 8 (f.ckptSeq + 1) ++ leBytes 8 f.wseq ++ leBytes 4 (mapPages s) ++ leBytes 4 1024 ++
      leBytes 4 (rootCws s) ++ leBytes 4 (posList f).length ++ leBytes 8 prev ++ leBytes 8 s ++ leBytes 8 0 ++
      replay.flatMap (leBytes 8)).zipIdx.map fun x => (x.2, x.1)).filter fun x => x.2 ≠ 0

/-- The codewords that a checkpoint writes: frozen pages, their directory pages, the record's header and its root. -/
def ckptCws (f : Ftl) (s : Nat) : List Codeword :=
  let pages := dirtyPages f s
  let dirs := addNums [] (pages.map fun p => p / 819)
  pages.map (blankCw .ftlPage) ++ dirs.map (blankCw .dirPage) ++
    { blankCw .ckptRec (f.ckptSeq + 1) with data := ckptHeader f s } :: List.replicate (rootCws s) (blankCw .ckptRec (f.ckptSeq + 1))

/-- The next position in turn that can take writes (R309). -/
def turnPos (f : Ftl) : Option Nat :=
  let ps := posList f
  match (ps.filter fun p => f.turn ≤ p) ++ ps.filter (fun p => decide (p < f.turn)) with
  | p :: _ => some p
  | [] => none

/-- CHECKPOINT_START: the cut, and the frozen pages go to their programs. -/
def ckptStart (d : Dev) : Dev :=
  if d.ftl.ckpt.isSome || !d.folds.formatted || flashHeld d then d
  else
    match turnPos d.ftl with
    | none => d
    | some pos =>
      let f := d.ftl
      let cws := ckptCws f d.folds.s
      match placeCws (cws.length + 1) f pos cws [] [] with
      | none => d
      | some g =>
        let recs := (g.progs.flatMap fun p => p.cws).filter fun c => c.kind = .ckptRec && c.addr = f.ckptSeq + 1
        let k : Ckpt :=
          { seq := f.ckptSeq + 1, cut := f.wseq, map := f.map, starts := f.opens, erases := f.erases, retired := f.retired,
            head := (match recs with | c :: _ => c.loc | [] => 0),
            emptied := (List.range d.dur.slots.length).filter fun i =>
              match d.dur.slots[i]? with | some s => s.left.isEmpty | none => false }
        { d with ftl := { g with ckpt := some k, ckptSeq := f.ckptSeq + 1, updates := 0, lastCkpt := d.clock, turn := pos + 1 } }

/-- CHECKPOINT_COMPLETE: its pages have programmed and its anchor stands in the ledger (R322). -/
def ckptDone (d : Dev) : Dev :=
  match d.ftl.ckpt with
  | none => d
  | some k =>
    if d.ftl.progs.any fun p => p.cws.any fun c => c.kind = .ftlPage || c.kind = .dirPage || c.kind = .ckptRec then d
    else
      let d1 := d.modFtl fun f => { f with ckpt := none, ckpts := (k :: f.ckpts).take 2 }
      let d2 := tidyRings (d1.modLdg fun l =>
        { l with anchors := ((k.seq, k.head) :: l.anchors).take 2,
                 anchorLog := putRing l.anchorLog fun _ => leBytes 8 k.seq ++ leBytes 8 k.head ++ leBytes 12 0 })
      d2.modDur fun u =>
        { u with slots := u.slots.zipIdx.map fun x => if k.emptied.contains x.2 then { x.1 with drained := true } else x.1 }

def ckptLate (d : Dev) : Dev := if d.ftl.ckpt.isSome then raiseOp d 0x050A srcFTL [d.ftl.ckptSeq] else d

/-! ## Patrol (R325) -/

/-- A codeword that the patrol reads: a leaf that the map names, or a page of a checkpoint that is kept. -/
def patrolled (f : Ftl) (c : Codeword) : Bool :=
  (c.kind = .leaf && namedLoc f c.loc) || ckptNames f c

/-- The valid codeword at the lowest location from a point on. -/
def nextValid (f : Ftl) (from_ : Nat) : Option Codeword :=
  (f.cws.filter fun c => patrolled f c && decide (from_ ≤ c.loc)).foldl (fun b c =>
    match b with | none => some c | some x => if c.loc < x.loc then some c else some x) none

/-- The next codeword of the patrol: of a block past its read limit first, else in turn. -/
def patrolNext (f : Ftl) : Option (Codeword × Bool) :=
  match f.marked with
  | b :: _ => (f.cws.find? fun c => patrolled f c && blockNo c.loc = b).map fun c => (c, true)
  | [] => (nextValid f f.patrolAt).map fun c => (c, false)

/-- PATROL_READ. -/
def patrol (step corrected : Nat) (d : Dev) : Dev :=
  match patrolNext d.ftl with
  | none => d.modFtl fun f => { f with marked := f.marked.drop 1 }
  | some (c, turn) =>
    let d1 := d.modFtl fun f => if turn then { f with marked := f.marked.drop 1 } else { f with patrolAt := c.loc + 1 }
    let d2 := readDone c.loc step corrected d1
    let d3 := if step ≤ 9 && (1 < step || regBits d 0x600000 17 11 * 120 < corrected * 100) then
        let b := blockOfIdx (sbOfLoc c.loc) (idxOfLoc c.loc)
        let n := (d2.ftl.cws.filter fun x => inBlock b x && x.kind = .leaf && namedLoc d2.ftl x.loc).length
        let m := emptyBlock d2 b (2 ^ 40)
        raiseOp (m.modFtl fun f => { f with relocs := min 0xFFFFFFFF (f.relocs + n) }) 0x0505 srcFTL [c.loc]
      else d2
    if !turn && (nextValid d3.ftl d3.ftl.patrolAt).isNone then d3.modFtl fun f => { f with patrolLast := d3.clock, patrolLate := false }
    else d3

/-- PATROL_PERIOD_END: an unfinished pass is late and goes on; a finished one is followed by the next. -/
def patrolEnd (d : Dev) : Dev :=
  if (nextValid d.ftl d.ftl.patrolAt).isSome then raiseOp (d.modFtl fun f => { f with patrolLate := true }) 0x0506 srcFTL []
  else d.modFtl fun f => { f with patrolAt := 0, patrolLate := false }

/-! ## Health (R326 to R328) -/

/-- L_wear and L_spare before they are rounded. -/
def exactFigures (d : Dev) : List Rat :=
  let h := hotQuarter d.ftl
  let rated : Rat := ((ratedOf d : Nat) : Rat)
  let hot : Rat := ((h.1 : Nat) : Rat) / ((h.2 : Nat) : Rat)
  let raw : Rat := ((d.ftl.rawFmt : Nat) : Rat) / 100
  let wear := if rated = 0 then 100 else 100 * (1 - hot / rated)
  let den := ((d.ftl.spareFmt : Nat) : Rat) - raw
  let spare := if den ≤ 0 then 100 else 100 * (((spareLeft d.ftl d.folds.s : Int) : Rat) - raw) / den
  [wear, spare, ((d.evt.lHold : Nat) : Rat), ((d.evt.lAge : Nat) : Rat)]

/-- HEALTH_DAILY_SAMPLE: the last 30 samples are kept. -/
def dailySample (day : Nat) (d : Dev) : Dev :=
  checkLife d (d.modFtl fun f =>
    { f with samples := (f.samples ++ [exactFigures d]).drop (f.samples.length + 1 - 30), day := day })

/-- Band of FTL_H_TEMP for a temperature. -/
def tempBand (c : Int) : Nat :=
  if c < 40 then 0 else if c < 50 then 1 else if c < 60 then 2 else if c < 70 then 3 else if c < 80 then 4
  else if c < 85 then 5 else if c < 90 then 6 else 7

/-- DIE_TEMPERATURE_READ: the elapsed time counts in the band of the hottest die. -/
def dieTemp (c : Int) (us : Nat) (d : Dev) : Dev :=
  d.modFtl fun f => { f with tempUs := modAt f.tempUs (tempBand c) fun n => n + us }

/-- IMAGE_RELEASE (R274): every line of the image is drained or changed, and a checkpoint has followed. -/
def imageRelease (slot : Nat) (d : Dev) : Dev :=
  match d.dur.slots[slot]? with
  | some s =>
    if (s.st = .live || s.st = .draining) && s.left.isEmpty && s.drained then
      noteSlots d (d.modDur fun u => { u with slots := modAt u.slots slot fun _ => ImgSlot.reset })
    else d
  | none => d

/-! ## The rows -/

/-- FLASH_PROGRAM_FAIL (R319). -/
def execFlashProgramFail (pos chan plane : Nat) (s : State) : Res := onDev (programFail pos chan plane) s
/-- FLASH_ERASE_COMPLETE (R315). -/
def execFlashEraseComplete (sb : Nat) (s : State) : Res := onDev (eraseDone sb) s
/-- FLASH_ERASE_FAIL (R319). -/
def execFlashEraseFail (sb chan plane : Nat) (s : State) : Res := onDev (eraseFail sb chan plane) s
/-- FLASH_READ_COMPLETE (R317). -/
def execFlashReadComplete (loc step corrected : Nat) (s : State) : Res := onDev (readDone loc step corrected) s
/-- FLASH_SUSPEND (R318). -/
def execFlashSuspend (flashChan target : Nat) (erase : Bool) (s : State) : Res := onDev (suspend flashChan target erase) s
/-- DIE_OFFLINE (R319). -/
def execDieOffline (flashChan target : Nat) (s : State) : Res :=
  onDev (fun d => checkLife d (takeOffline flashChan target d)) s
/-- GARBAGE_COLLECT (R316). -/
def execGarbageCollect (pos : Nat) (s : State) : Res := onDev (collect pos) s
/-- CHECKPOINT_START (R320). -/
def execCheckpointStart (s : State) : Res := onDev ckptStart s
/-- CHECKPOINT_COMPLETE (R320). -/
def execCheckpointComplete (s : State) : Res := onDev ckptDone s
/-- CHECKPOINT_LATE (R320). -/
def execCheckpointLate (s : State) : Res := onDev ckptLate s
/-- PATROL_READ (R325). -/
def execPatrolRead (step corrected : Nat) (s : State) : Res := onDev (patrol step corrected) s
/-- PATROL_PERIOD_END (R325). -/
def execPatrolPeriodEnd (s : State) : Res := onDev patrolEnd s
/-- HEALTH_DAILY_SAMPLE (R327). -/
def execHealthDailySample (day : Nat) (s : State) : Res := onDev (dailySample day) s
/-- DIE_TEMPERATURE_READ (R328). -/
def execDieTemperatureRead (celsius : Int) (elapsedUs : Nat) (s : State) : Res := onDev (dieTemp celsius elapsedUs) s

end Sys2Proof.Machine
end

