-- ==== Sys2Proof/Machine/Folds.lean ====
section
/-! DEFINITION. The rows of the RMA command slots and of the drains they wait for (R73 to R76, R557 to R559, R580). -/
namespace Sys2Proof.Machine

/-- Address of a slot (R73). -/
def slotBase (s : Nat) : Nat := 0x400100 + s * 0x40

/-- An argument register of a slot, by offset (R557). RMA_ARG_RTA holds the default size of 4 GiB until it is written (R52). -/
def slotArg (s : Slot) (o : Nat) : Word := (getKey s.args o).getD (if o = 0x20 then 64 else 0)

/-- The command that a write to RMA_CMD makes of a slot's arguments (R557, R558). -/
def cmdOf (s : Slot) (op : RmaOp) (fold : Nat) : RmaCmd :=
  { op := op, fold := fold, handle := slotArg s 0x08,
    len := BitVec.ofNat 64 ((slotArg s 0x0C).toNat + 2 ^ 32 * (slotArg s 0x10).toNat),
    keySlot := wbits (slotArg s 0x14) 27 16, flags := wbits (slotArg s 0x14) 11 8, perm := wbits (slotArg s 0x14) 1 0,
    peer := wbits (slotArg s 0x18) 15 0, peerHandle := slotArg s 0x1C, rta := wbits (slotArg s 0x20) 10 0 }

/-- RMA_STATUS (R559). -/
def slotStatus (s : Slot) : Word :=
  if s.run.isSome then field 24 1
  else flag 31 s.ended ||| field 24 (match s.result with
    | .done => 0 | .busy => 1 | .limit => 2 | .noSpace => 3 | .badParam => 4 | .badState => 5)

/-- A principal takes a free slot with its first write; a slot that another owns refuses it (R73). -/
def takeSlot (p : Principal) (s : Nat) (d : Dev) : Option Dev :=
  match d.folds.slots[s]? with
  | some x => if x.owner = none || x.owner = some p then some (modSlot d s fun y => { y with owner := some p }) else none
  | none => none

/-! ## FORMAT (R74) -/

/-- WK, SK and DK from the DRBG, when the unit holds no wrapping key (R392). -/
def makeKeys (d : Dev) : Dev :=
  if d.sec.wkLedger.isSome then d
  else
    let w := draw256 d
    let s := draw512 w.2
    let k := draw256 s.2
    let kw := draw256 k.2
    kw.2.modSec fun x =>
      { x with wk := some w.1, wkLedger := some w.1, sk := some s.1, skLedger := some s.1, dk := some k.1,
               kw := (match x.kw with | some y => some y | none => some kw.1) }

/-- S for the flash as it stands (R304). -/
def sizeNow (d : Dev) : Nat := presented (goodRaw d.ftl) (regBits d 0x600000 31 23)

/-- FORMAT may run now: FENCED, or UNPAIRED with every connection IDLE. -/
def formatState (d : Dev) : Bool := d.twin.st = .fenced || (d.twin.st = .unpaired && d.net.conns.isEmpty)

/-- The flash after a FORMAT: nothing mapped, every counter from zero; at the first FORMAT the manufacturer's bad blocks
retire (R319, R328). -/
def formatFtl (d : Dev) (s : Nat) : Dev :=
  d.modFtl fun f =>
    { f with rawFmt := goodRaw f, spareFmt := (spareLeft f s).toNat, map := [], cws := [], progs := [], ckpt := none,
             ckpts := [], ctlHeld := [], marks := [], updates := 0, reads := [], marked := [], readOnly := false,
             closed := f.closed ++ f.opens.map fun o => o.2.1, opens := [], corr := 0, retry := 0, soft := 0,
             uncorr := 0, pfail := 0, efail := 0, relocs := 0, drainB := 0, progB := 0, tempUs := List.replicate 8 0 }

/-- FORMAT lays out the space and creates fold 0; everything the unit held is discarded. -/
def format (d : Dev) (rta : Nat) : Except RmaResult Dev :=
  let d0 := if d.ftl.rawFmt = 0 then d.modFtl fun f => { f with retired := d.env.badBlocks } else d
  let s := sizeNow d0
  let r := rta * 67108864
  if !formatState d || !d.ftl.popOk || (d.sec.wkLedger.isNone && d.sec.drbgStop) then .error .badState
  else if rta = 0 || decide (1024 < rta) || decide (s ≤ r + ctlSize) then .error .badParam
  else
    let t := s - ctlSize - r
    let d1 := makeKeys (markDirty (formatFtl d0 s))
    let d2 := d1.modFolds fun f =>
      { Folds.reset with
        formatted := true, s := s, rta := r, rtaUsed := [(t, 4194304)], live := [0], slots := f.slots, queue := f.queue }
    let rec0 : FoldRec := { dirBase := 0, dirLenM1 := 0, state := 1, gen := 1, prevBase := 0, prevLenM1 := 0, prevGen := 1,
                            listPa := 0, listCount := 0 }
    let d3 := { d2 with mem := writeBytes [] t (foldBytes rec0) }
    let d4 := d3.modNet fun n => { n with conns := [], ops := [], ctxCache := [], parked := [], groups := [], badTail := [] }
    let d5 := d4.modDur fun u =>
      { u with dirty := spanLines t 64, grouped := [], poison := [], resident := [], lost := false, slots := [ImgSlot.reset, ImgSlot.reset] }
    let d6 := (noteSlots d d5).modSec fun x => { x with slots := [], dkStored := x.dk, bErased := false }
    let d7 := (d6.modEvt fun v => { v with rings := [] }).modTwin fun w =>
      { w with leafStamps := [], lineStamps := [], ctrlDue := [],
               diverge := { active := w.ident.isSome, full := w.ident.isSome, leaves := [] } }
    .ok (serveAlone (cfgChanged d7))

/-! ## Commands through a slot -/

/-- FORMAT at the head of the queue takes its turn (R73, R74). Only a slot that I3C owns runs it. The command ends once its lines
are held in flash, at once where they have been written through. -/
def formatTurn (d : Dev) : Dev :=
  match d.folds.waits, d.folds.queue with
  | none, (s, c) :: rest =>
    if c.op = .format then
      let d1 := d.modFolds fun f => { f with queue := rest }
      let i3c := d1.folds.slots[s]?.any fun x => x.owner = some .i3c
      match (if i3c then format d1 c.rta else .error .badState) with
      | .ok a =>
        let w := writeThrough a (addNums [rtaBase a.folds / 4096] ((controlAll a).map (itemLeaf a)))
        if formatHeld w then endSlot w s .done
        else w.modFolds fun f => { f with waits := some { slot := s, cmd := c, step := 1 } }
      | .error r => endSlot d1 s r
    else d
  | _, _ => d

/-- A FORMAT has come to the head of the queue. -/
def formatDue (d : Dev) : Bool :=
  d.folds.waits.isNone && match d.folds.queue with | (_, c) :: _ => c.op = .format | [] => false

/-- Everything that waits for a stamp, a drain or its turn goes as far as it can, FORMAT included. -/
def settleAll : Nat → Dev → Dev
  | 0, d => settle d
  | n + 1, d => let d1 := settle d; if formatDue d1 then settleAll n (formatTurn d1) else d1

/-- `settleAll` with a turn for every command that waits. -/
def settleFully (d : Dev) : Dev := settleAll (d.folds.queue.length + 1) d

/-- A write to RMA_CMD (R73, R558): the slot is taken, and the command waits its turn unless one of the slot runs. -/
def rmaWrite (p : Principal) (op : RmaOp) (s fold : Nat) (d : Dev) : Dev × Nat :=
  match takeSlot p s d, d.folds.slots[s]? with
  | some d1, some x =>
    if x.run.isSome then (d1, 0)
    else
      let c := cmdOf x op fold
      let d2 := modSlot d1 s fun y => { y with run := some c, ended := false, result := .busy }
      (settleFully (d2.modFolds fun f => { f with queue := f.queue ++ [(s, c)] }), 0)
  | _, _ => (d, 4)

/-- A write to an argument register of a slot (R73, R557): the bits that the register has. -/
def argMask (o : Nat) : Word :=
  if o = 0x08 ∨ o = 0x0C ∨ o = 0x10 ∨ o = 0x1C then 0xFFFFFFFF
  else if o = 0x14 then 0x0FFF0F03 else if o = 0x18 then 0xFFFF else if o = 0x20 then 0x7FF else 0

def argWrite (p : Principal) (s o : Nat) (v : Word) (d : Dev) : Dev × Nat :=
  match takeSlot p s d with
  | some d1 => (modSlot d1 s fun y => { y with args := putKey y.args o (v &&& argMask o) }, 0)
  | none => (d, 4)

/-- A read of RMA_STATUS: by the owner after the command has ended, it releases the slot (R73). -/
def statusRead (p : Principal) (s : Nat) (d : Dev) : Dev × Except Nat Word :=
  match d.folds.slots[s]? with
  | some x =>
    (if x.owner = some p && x.ended && x.run.isNone then modSlot d s fun y => { y with owner := none } else d,
     .ok (slotStatus x))
  | none => (d, .error 5)

/-- 10 s have passed with no command of the slot running and no access from its owner (R73). -/
def slotLapse (s : Nat) (d : Dev) : Dev :=
  modSlot d s fun y => if y.run.isSome then y else { y with owner := none }

/-- A command of the kind heads the queue, or waits in its later step. -/
def rmaHeads (d : Dev) (op : RmaOp) (f : Nat) : Bool :=
  (match d.folds.waits with | some w => w.cmd.op = op && w.cmd.fold = f | none => false) ||
  (match d.folds.queue with | (_, c) :: _ => c.op = op && c.fold = f | [] => false)

/-- GENERATION_DRAINED (R76): no operation carries a past generation of the fold, so what it kept is released through the
order stream. A fold that a former serving unit left in destruction ends here as well (R580). -/
def genDrained (f : Nat) (d : Dev) : Dev :=
  let mine := d.folds.drains.filter fun x => x.fold = f
  let dying := (readFold d.mem (foldPa d.folds f)).state = 2 && d.folds.waits.isNone && d.folds.formatted
  if serving d && (!mine.isEmpty || dying) && !(mine.any fun x => genInUse d f x.gen) && (!dying || !foldBusy d f) &&
      ctrlReady d (.rmaDrained f) then
    let x := stampCtrl d (.rmaDrained f)
    settleFully (applyCtrl x.2 x.1 (.rmaDrained f))
  else d

/-! ## The rows -/

/-- FORMAT (R74). -/
def execFormat (p : Principal) (slot : Nat) (s : State) : Res :=
  onDev (command p (slotBase slot) (rmaWrite p .format slot 0)) s

/-- CREATE_FOLD (R73). -/
def execCreateFold (p : Principal) (slot fold : Nat) (s : State) : Res :=
  onDev (command p (slotBase slot) (rmaWrite p .createFold slot fold)) s

/-- DESTROY_FOLD (R580). -/
def execDestroyFold (p : Principal) (slot fold : Nat) (s : State) : Res :=
  onDev (command p (slotBase slot) (rmaWrite p .destroyFold slot fold)) s

/-- DESTROY_FOLD_DRAIN_DONE (R580). -/
def execDestroyFoldDrainDone (fold : Nat) (s : State) : Res :=
  onDev (fun d => if rmaHeads d .destroyFold fold then settleFully d else d) s

/-- CREATE_REGION (R73). -/
def execCreateRegion (p : Principal) (slot fold : Nat) (s : State) : Res :=
  onDev (command p (slotBase slot) (rmaWrite p .createRegion slot fold)) s

/-- DESTROY_REGION (R73). -/
def execDestroyRegion (p : Principal) (slot fold : Nat) (s : State) : Res :=
  onDev (command p (slotBase slot) (rmaWrite p .destroyRegion slot fold)) s

/-- SET_PERM (R73). -/
def execSetPerm (p : Principal) (slot fold : Nat) (s : State) : Res :=
  onDev (command p (slotBase slot) (rmaWrite p .setPerm slot fold)) s

/-- GRANT (R73). -/
def execGrant (p : Principal) (slot fold : Nat) (s : State) : Res :=
  onDev (command p (slotBase slot) (rmaWrite p .grant slot fold)) s

/-- REVOKE of a grant (R73). -/
def execRevoke (p : Principal) (slot fold : Nat) (s : State) : Res :=
  onDev (command p (slotBase slot) (rmaWrite p .revoke slot fold)) s

/-- COMMIT (R75). -/
def execCommit (p : Principal) (slot fold : Nat) (s : State) : Res :=
  onDev (command p (slotBase slot) (rmaWrite p .commit slot fold)) s

/-- COMMIT_DRAIN_DONE (R75). -/
def execCommitDrainDone (fold : Nat) (s : State) : Res :=
  onDev (fun d => if rmaHeads d .commit fold then settleFully d else d) s

/-- GENERATION_DRAINED (R76). -/
def execGenerationDrained (fold : Nat) (s : State) : Res := onDev (genDrained fold) s

/-- RMA_STATUS_READ (R73). -/
def execRmaStatusRead (p : Principal) (slot : Nat) (s : State) : Res :=
  onDev (readAs p (slotBase slot + 4) (statusRead p slot)) s

/-- RMA_SLOT_LAPSE (R73). -/
def execRmaSlotLapse (slot : Nat) (s : State) : Res := onDev (slotLapse slot) s

/-! ## Rows of the flash tier that can end a command's wait -/

/-- FTL_DRAIN (R312). -/
def execFtlDrain (pos : Nat) (s : State) : Res := onDev (fun d => settleFully (drain pos d)) s

/-- FLASH_PROGRAM_COMPLETE (R311). -/
def execFlashProgramComplete (pos ns : Nat) (s : State) : Res := onDev (fun d => settleFully (programDone pos ns d)) s

/-- IMAGE_RELEASE (R274). -/
def execImageRelease (slot : Nat) (s : State) : Res := onDev (fun d => settleFully (imageRelease slot d)) s

end Sys2Proof.Machine
end

