-- ==== Sys2Proof/Machine/Standby.lean ====
section
/-! DEFINITION. The records of the order stream (R214 to R228, R242): how a standby or joiner applies them, and what the
serving unit does with those of its twin. Relayed register accesses are left to the register layer. -/
namespace Sys2Proof.Machine

/-! ## Faults of the stream (R218, R219, R233) -/

/-- A standby or joiner leaves the pair: LEAVE with its reason, then FENCED (R218, R220). -/
def leaveWith (d : Dev) (reason : Nat) : Dev :=
  let d1 := sendRecs (enterState (leavePair d) .fenced) [.leave reason]
  if reason = 1 then raiseOp d1 0x040F srcTWN [] else d1

/-- A serving unit abandons a join in progress (R235). -/
def abandonJoin (d : Dev) : Dev :=
  if d.twin.resyncing then raiseOp (dropPairing d) 0x040C srcTWN [] else dropPairing d

/-- MTYPE of a request (R229). -/
def witType : WitReq → Nat
  | .claim => 0x01 | .renew => 0x02 | .drop => 0x03 | .admitTwin => 0x04 | .release => 0x05

/-- The 64 bytes of a message in the witness format that this unit sends (R229), the first 16 bytes of an HMAC-SHA-384 under the
given key last. -/
def witBytes (i : PairIdent) (key : BitVec 256) (mtype wseq lease rseed ep : Nat) (st : Stamp) : List Byte :=
  let m := beBytes 1 1 ++ beBytes 1 mtype ++ beBytes 1 (if i.unit then 1 else 0) ++ beBytes 1 0 ++ beBytes 8 i.pairId.toNat ++
    beBytes 8 wseq ++ beBytes 4 lease ++ beBytes 2 rseed ++ beBytes 2 0 ++ beBytes 4 (ep % 2 ^ 24) ++ beBytes 8 (st % 2 ^ 64) ++ beBytes 8 0
  m ++ beBytes 16 (mac16 (keyBytes key) m).toNat

/-- The epoch that the unit issues its stamps in: that of the first stamp of a tenure, or of the last stamp. -/
def epochNow (t : Twin) : Nat := stampEpoch (t.nextAt.getD t.lastStamp)

/-- Send a request to the witness (R229): WSEQ rises, RENEW names the ceiling (the current epoch + 1, R234), and the lease asked for
is LEASE_MS. -/
def sendWit (d : Dev) (r : WitReq) : Dev :=
  let w := d.twin.wseq + 1
  let lease := if r = .claim || r = .renew then regBits d 0x80008 31 22 * 1000 else 0
  let ep := if r = .renew then epochNow d.twin + 1 else 0
  emit (d.modTwin fun t =>
      { t with wseq := w, reqs := t.reqs ++ [(r, w, d.clock, ep)], guard := if lease = 0 then t.guard else regBits d 0x80008 21 10 })
    (.witness r w lease (d.twin.rseed % 65536) ep d.twin.lastStamp
      (match d.twin.ident with
       | some i => witBytes i i.wkey (witType r) w lease (d.twin.rseed % 65536) ep d.twin.lastStamp
       | none => []))

/-- The twin has left or stopped: an active sends DROP and waits for DONE, a serving unit in a resync abandons the join
(R233, R235). -/
def twinGone (d : Dev) : Dev :=
  match d.twin.st with
  | .active => sendWit d .drop
  | .unpaired => if d.twin.ident.isSome then abandonJoin d else d
  | _ => d

def streamFault (d : Dev) : Dev :=
  match d.twin.st with
  | .standby | .joining => leaveWith d 1
  | _ => twinGone d

/-! ## Translating under carried generations (R64, R216) -/

/-- The generations a handle's walk uses: GEN in the connection's fold, TGEN in the fold that a grant reaches. -/
def carriedBy (d : Dev) (fold : Nat) (gen : Word) (h tgen : Word) : List (Nat × Word) :=
  match walkOne d fold h gen with
  | .ok (_, x) => if x.ty = 2 then putKey [(fold, gen)] x.tFold tgen else [(fold, gen)]
  | .error _ => [(fold, gen)]

def transOf (d : Dev) (fold : Nat) (gen h tgen : Word) : Option Trans :=
  match walk d (carriedBy d fold gen h tgen) fold h with
  | .ok t => some t
  | .error _ => none

/-- A member of a record as an operation with its translations. -/
def opOf (d : Dev) (conn fold : Nat) (gen : Word) (m : Member) : Op :=
  { newOp conn m.desc.seq m.desc m.data with
    tr1 := if usesHandle m.desc.op then transOf d fold gen m.desc.handle m.tgen else none,
    tr2 := if m.desc.op = .copy then transOf d fold gen m.desc.handle2 m.tgen2 else none }

/-! ## Leaves whose effects are withheld (R220, R242) -/

/-- A leaf of the resync set that has not been copied yet. -/
def inU (t : Twin) (leaf : Nat) : Bool := t.u.contains leaf || (t.uFull && decide (t.uNext ≤ leaf))

/-- Records change nothing in this leaf: it waits for a LEAF. -/
def withheld (d : Dev) (leaf : Nat) : Bool :=
  (d.twin.repairs.any fun r => r.1 = leaf) || (d.twin.st = .joining && inU d.twin leaf)

/-- Put a leaf back as it was. -/
def restoreLeaf (before : Dev) (after : Dev) (leaf : Nat) : Dev :=
  let inL (l : Nat) : Bool := l / 64 = leaf
  let mem := copyOver after.mem before.mem (leaf * 4096)
  { after with mem := mem } |>.modDur fun u =>
    { u with dirty := addNums (u.dirty.filter fun l => !inL l) (before.dur.dirty.filter inL),
             poison := addNums (u.poison.filter fun l => !inL l) (before.dur.poison.filter inL) }
where
  /-- One leaf of a memory with the bytes that another holds there. -/
  copyOver (m old : Mem) (a : Nat) : Mem :=
    (cellsOf old a 4096).foldl (fun x c => writeByte x c.1 c.2) (zeroBytes m a 4096)

/-- Run a change with the poison of the withheld leaves set aside, then put those leaves back. -/
def maskedRun (d : Dev) (leaves : List Nat) (f : Dev → Dev) : Dev :=
  let m := leaves.filter (withheld d)
  if m.isEmpty then f d
  else
    m.foldl (restoreLeaf d)
      (f (d.modDur fun u => { u with poison := u.poison.filter fun l => !m.contains (l / 64) }))

/-! ## Entries of a standby (R224, R225) -/

/-- Send an entry to the client, where this unit sends entries and the connection may send, on the path of the data sent before it
(R93). The serving unit writes one entry for each, so this unit counts those of the other half with its own (R223). -/
def sendEntry (d : Dev) (n : Nat) (e : Entry) : Dev :=
  match getConn d n with
  | some c =>
    if maySend c && sendsEntries d then
      let c1 := dropRoute (pushEntry d c (routeOf c e.seq) e none) e.seq
      setConn d n (some { c1 with twinWritten := c1.twinWritten + 1 })
    else d
  | none => d

/-- Store an entry that the stream brings: it marks and counts its sequence once, and a later one takes the place of an earlier
(R133, R220). -/
def keepEntry (c : Conn) (e : Entry) : Conn :=
  if isExecuted c e.seq then { c with store := (c.store.filter fun q => q.1 ≠ e.seq) ++ [(e.seq, e)] }
  else markExecuted c e.seq e

/-- A standby's entry for a stamped operation: stored, and sent at once or on a LEVEL record (R225). A joiner sends none. -/
def standbyEntry (d : Dev) (st : Stamp) (n : Nat) (e : Entry) : Dev :=
  match getConn d n with
  | none => d
  | some c =>
    let lvl : Level := if e.status ≠ .done then .none else if c.ident.level = .media then .media else .twin
    let e1 := { e with level := lvl }
    let d1 := noteStore (setConn d n (some (keepEntry c e1))) n e.seq (some st)
    if d.twin.st ≠ .standby then d1
    else if lvl = .media then d1.modTwin fun t => { t with levelDue := t.levelDue ++ [(st, n, e1)] }
    else sendEntry d1 n e1

/-! ## Stamped records (R217) -/

/-- A stamp follows the last one applied (R208, R218): its successor, or, where a HANDOVER has passed between the units, the first of
the tenure that the witness granted then. A joiner takes the first stamped record that reaches it as its starting point. -/
def follows (t : Twin) (st : Stamp) : Bool :=
  st = nextStamp t ||
  ((t.phase = .swapHandover || t.claiming.isSome) && stampCount st = 0 && stampSeed st = stampSeed t.lastStamp &&
    decide (stampEpoch t.lastStamp < stampEpoch st)) ||
  (t.st = .joining && !t.based)

/-- The operation's lines that this unit alone found uncorrectable and needs (R220). -/
def badLeaves (d : Dev) (o : Op) : List Nat := leavesOf ((neededLines d o).filter fun l => d.twin.ownBad.contains l)

/-- REPAIR for each failing leaf that is not already awaited (R220). -/
def sendRepairs (d : Dev) (st : Stamp) (leaves : List Nat) : Dev :=
  (leaves.filter fun l => !(d.twin.repairs.any fun r => r.1 = l)).foldl (fun a l =>
    sendRecs (raiseOp (a.modTwin fun t => { t with repairs := t.repairs ++ [(l, st)] }) 0x040E srcTWN []) [.repair st (l * 4096)]) d

/-- The unit has applied a stamped record; a swap it took part in is over. -/
def applied (d : Dev) (st : Stamp) : Dev :=
  (markDirty d).modTwin fun t => { t with lastStamp := st, nextAt := none, based := true, claiming := none, phase := .none }

/-- The leaves of a list that wait for the answer to a REPAIR. -/
def awaited (d : Dev) (ls : List Nat) : List Nat := ls.filter fun l => d.twin.repairs.any fun r => r.1 = l

/-- A stamped operation touched leaves under repair: its entry comes with their LEAF, and the FIN of a COPY or WRITE_ZERO waits for
them (R220). -/
def repairWaits (d : Dev) (st : Stamp) (n : Nat) (seq : Word) (leaves : List Nat) (bulk : Bool) : Dev :=
  d.modTwin fun t =>
    { t with touched := t.touched ++ [(st, n, seq, leaves)],
             finHeld := if bulk then t.finHeld ++ [(st, leaves)] else t.finHeld }

/-- Apply an OP record. -/
def applyOp (d : Dev) (st : Stamp) (conn : Nat) (gen : Word) (m : Member) : Dev :=
  match getConn d conn with
  | none => applied d st
  | some c =>
    let o := opOf d conn c.ident.fold gen m
    let d1 := sendRepairs (applied d st) st (badLeaves d o)
    let ls := leavesOf (budgetLines d1 o)
    let wait := awaited d1 ls
    let d0 := d1.modDur fun u => { u with poison := u.poison.filter fun l => !(withheld d1 (l / 64)) }
    let r := runDesc d0 c.ident.fold m.desc o.tr1 o.tr2 m.data st true
    let d2 := noteChanged (maskedRun d1 ls fun a =>
      (runDesc a c.ident.fold m.desc o.tr1 o.tr2 m.data st true).dev) conn r.lines st
    if !wait.isEmpty then repairWaits d2 st conn m.desc.seq wait (isBulk m.desc)
    else if isBulk m.desc then sendRecs (standbyEntry d2 st conn r.entry) [.fin st]
    else standbyEntry d2 st conn r.entry

/-- Apply a GROUP record whole (R182, R185). -/
def applyGroup (d : Dev) (st : Stamp) (conn : Nat) (gen : Word) (ms : List Member) : Dev :=
  match getConn d conn with
  | none => applied d st
  | some c =>
    let f := c.ident.fold
    let os := ms.map fun m => opOf d conn f gen m
    let d1 := sendRepairs (applied d st) st (addNums [] (os.flatMap (badLeaves d)))
    let ls := leavesOf (addNums [] (os.flatMap (budgetLines d1)))
    let wait := awaited d1 ls
    let work := os.map fun o => (o.desc, o.tr1, o.tr2, o.data)
    let run (a : Dev) : Dev × List Entry × List Nat :=
      match runMembers f st 0 a work [] with
      | .ok (b, rs) => (b, rs.map fun r => r.entry, rs.flatMap fun r => r.lines)
      | .error (i, n) => (a, poisonedGroup (ms.map fun m => m.desc) i n, [])
    let d0 := d1.modDur fun u => { u with poison := u.poison.filter fun l => !(withheld d1 (l / 64)) }
    let r := run d0
    let d2 := noteChanged (maskedRun d1 ls fun a => (run a).1) conn r.2.2 st
    if !wait.isEmpty then ms.foldl (fun a m => repairWaits a st conn m.desc.seq wait false) d2
    else r.2.1.foldl (fun a e => standbyEntry a st conn e) d2

/-- Apply a CTRL record (R215, R222). -/
def applyCtrlRec (d : Dev) (st : Stamp) (b : CtrlBody) : Dev :=
  let ls := ctlLines d b
  let d1 := applied d st
  let tables : List Nat := match b with
    | .rma c => (match planOf d st c with | .ok p => p.lines | .error _ => [])
    | _ => []
  maskedRun (noteLines d1 st ls) (leavesOf tables) fun a => applyCtrl a st b

/-- The lines that a stamped record changes, for the standby's own budget (R264). -/
def recLines (d : Dev) (r : Rec) : List Nat :=
  match r with
  | .op _ n g m => (match getConn d n with | some c => budgetLines d (opOf d n c.ident.fold g m) | none => [])
  | .group _ n g ms =>
    (match getConn d n with
     | some c => addNums [] (ms.flatMap fun m => budgetLines d (opOf d n c.ident.fold g m))
     | none => [])
  | .ctrl st b =>
    addNums (ctlLines d b) (match b with
      | .rma c => (match planOf d st c with | .ok p => p.lines | .error _ => [])
      | _ => [])
  | .leaf pa _ _ _ _ => List.range' (pa / 64) 64
  | _ => []

/-- The standby's budget admits a record (R264): lines already dirty take no new room. -/
def recFits (d : Dev) (r : Rec) : Bool :=
  let new := (recLines d r).filter fun l => !d.dur.dirty.contains l
  new.isEmpty || (fits d new.length && !slotsFull d)

/-! ## Unstamped records of the serving unit -/

/-- END: the entry of an operation that ended without a stamp (R224, R225). -/
def takeEnd (d : Dev) (n : Nat) (e : Entry) : Dev :=
  match getConn d n with
  | none => d
  | some c =>
    if e.status = .doneDuplicate then sendEntry d n { e with level := if e.level = .none then .none else reported d c.ident.level }
    else sendEntry (noteStore (setConn d n (some (keepEntry c e))) n e.seq none) n e

/-- INDEX: the serving unit's held indices (R222). -/
def takeIndex (d : Dev) (n : Nat) (tail ack h0 h1 : Word) : Dev :=
  (fun a => noteContext a n) <| modConn d n fun c =>
    let late (a b : Word) : Word := if later a b then a else b
    let na := late ack c.ackSeq
    { c with sqTail := late tail c.sqTail, ackSeq := na, cqHead0 := late h0 c.cqHead0, cqHead1 := late h1 c.cqHead1,
             store := c.store.filter fun q => !later na q.1 }

/-- RDATA: the bytes of a READ on a connection with TWIN_READ (R226), on the path that its entry will take (R93). -/
def takeRdata (d : Dev) (n : Nat) (seq : Word) (addr : DWord) (ckey : Word) (data : List Byte) : Dev :=
  match getConn d n with
  | some c =>
    if d.twin.st = .standby && c.ident.twinRead && maySend c then
      let c1 := keepRoute c seq
      queueFrame (setConn d n (some c1)) n (some (routeOf c1 seq)) (.push (some seq) addr ckey data none)
    else d
  | none => d

/-- LEVEL: entries of MEDIA connections whose stamps it names leave (R225). -/
def takeLevel (d : Dev) (sts : List Stamp) : Dev :=
  let ready := d.twin.levelDue.filter fun p => sts.contains p.1
  ready.foldl (fun a p => sendEntry a p.2.1 p.2.2)
    (d.modTwin fun t => { t with levelDue := t.levelDue.filter fun p => !sts.contains p.1 })

/-- The stamp of an operation whose entry a LEAF brings: that of its record here, or else the LEAF's place in the stream. -/
def touchStamp (t : Twin) (n : Nat) (seq : Word) : Stamp :=
  match t.touched.find? fun p => p.2.1 = n && p.2.2.1 = seq with | some p => p.1 | none => t.lastStamp

/-- An entry that a LEAF brings takes the place of this unit's own. One that this unit has sent already, or stored for another LEAF, is
only stored. -/
def leafEntry (d : Dev) (n : Nat) (e : Entry) : Dev :=
  match getConn d n with
  | none => d
  | some c =>
    let mine (seq : Word) (k : Nat) : Bool := k = n && seq = e.seq
    let sent := isExecuted c e.seq && !(d.twin.levelDue.any fun p => mine p.2.2.seq p.2.1)
    if sent then setConn d n (some (keepEntry c { e with level := ((stored c e.seq).getD e).level }))
    else
      standbyEntry (d.modTwin fun t =>
        { t with touched := t.touched.filter fun p => !mine p.2.2.1 p.2.1,
                 levelDue := t.levelDue.filter fun p => !mine p.2.2.seq p.2.1 }) (touchStamp d.twin n e.seq) n e

/-- The FINs that waited for leaves which have come leave (R220). -/
def flushFins (d : Dev) : Dev :=
  let ready := d.twin.finHeld.filter fun p => p.2.isEmpty
  sendRecs (d.modTwin fun t => { t with finHeld := t.finHeld.filter fun p => !p.2.isEmpty }) (ready.map fun p => .fin p.1)

/-- Install a LEAF record (R220, R242, R297): its lines, its poison, its items, and the entries it carries in place of this
unit's own, at the level that a standby reports (R225). -/
def installLeaf (d : Dev) (pa : Nat) (poison : BitVec 64) (bytes : List Byte) (entries : List (Nat × Entry))
    (control : List ControlItem) : Dev :=
  let leaf := pa / 4096
  let lines := List.range' (leaf * 64) 64
  let bad := lines.filter fun l => poison.getLsbD (l - leaf * 64)
  let d1 := markDirty d
  let d2 := if ctlBase d.folds ≤ pa then installControl d1 leaf control
    else { d1 with mem := writeBytes (zeroBytes d1.mem (leaf * 4096) 4096) (leaf * 4096) (bytes.take 4096) }
  let d3 := d2.modDur fun u =>
    { u with dirty := addNums u.dirty lines, poison := addNums (dropNums u.poison lines) bad,
             slots := u.slots.map fun s => { s with left := dropNums s.left lines } }
  let d4 := d3.modTwin fun t =>
    { t with repairs := t.repairs.filter fun r => r.1 ≠ leaf,
             finHeld := t.finHeld.map fun p => (p.1, p.2.filter fun l => l ≠ leaf), ownBad := dropNums t.ownBad lines,
             u := t.u.filter fun l => l ≠ leaf,
             uNext := if t.uFull then max t.uNext (leaf + 1) else t.uNext,
             uFull := t.uFull && decide (leaf + 1 < d.folds.s / 4096) }
  let d5 := d4.modFtl fun f => { f with progs := f.progs.map fun p => { p with lines := dropNums p.lines lines } }
  let d6 := if rtaBase d.folds ≤ pa && pa < ctlBase d.folds && d5.twin.u.isEmpty && !d5.twin.uFull then rebuildFolds d5 else d5
  flushFins (entries.foldl (fun a e => leafEntry a e.1 e.2) d6)

/-- A joiner whose resync set is empty sends READY once (R242 step 5). -/
def sayReady (d : Dev) : Dev :=
  let t := d.twin
  if t.st = .joining && t.resyncing && t.u.isEmpty && !t.uFull && t.held.isEmpty && !t.readySent then
    sendRecs ((rebuildFolds d).modTwin fun t => { t with readySent := true }) [.ready]
  else d

/-! ## Dispatch -/

/-- Records that a standby or joiner applies in the order of the stream. -/
def inStream (r : Rec) : Bool :=
  match r with
  | .op _ _ _ _ | .group _ _ _ _ | .ctrl _ _ | .ended _ _ _ | .index _ _ _ _ _ | .rdata _ _ _ _ _ _ | .level _
  | .leaf _ _ _ _ _ => true
  | _ => false

/-- Records that only the standby or joiner sends. -/
def fromStandby (r : Rec) : Bool :=
  match r with
  | .fin _ | .repair _ _ | .ready | .leave _ | .ports _ => true
  | _ => false

/-- The stamp of a stamped record. -/
def stampOf (r : Rec) : Option Stamp :=
  match r with
  | .op st _ _ _ | .group st _ _ _ | .ctrl st _ => some st
  | _ => none

/-- Apply one record of the stream, known to be in order and to fit. -/
def applyRec (d : Dev) (r : Rec) : Dev :=
  match r with
  | .op st n g m => applyOp d st n g m
  | .group st n g ms => applyGroup d st n g ms
  | .ctrl st b => applyCtrlRec d st b
  | .ended _ n e => takeEnd d n e
  | .index n t a h0 h1 => takeIndex d n t a h0 h1
  | .rdata n s _ a k bs => takeRdata d n s a k bs
  | .level sts => takeLevel d sts
  | .leaf pa p bs es ct => installLeaf d pa p bs es ct
  | _ => d

/-- The record belongs to a connection whose home gallery is in reset; it waits (R525). -/
def waitsGallery (d : Dev) (r : Rec) : Bool :=
  match r with
  | .op _ n _ _ | .group _ n _ _ | .ended _ n _ | .index n _ _ _ _ | .rdata n _ _ _ _ _ => d.rst.galReset.contains (homeOf n)
  | _ => false

/-- Records held for lack of budget, or for a gallery in reset, are applied as far as they can be (R264, R525). -/
def drainHeld : Nat → Dev → Dev
  | 0, d => d
  | n + 1, d =>
    match d.twin.held with
    | [] => d
    | r :: rest =>
      if !recFits d r || waitsGallery d r then d
      else
        let d0 := d.modTwin fun t => { t with held := rest }
        match stampOf r with
        | some st => if follows d.twin st then drainHeld n (applyRec d0 r) else leaveWith d0 1
        | none => drainHeld n (applyRec d0 r)

/-- A record of the stream arrives at a standby or joiner: it waits behind those that wait. -/
def takeStream (d : Dev) (r : Rec) : Dev :=
  let d1 := d.modTwin fun t => { t with held := t.held ++ [r] }
  sayReady (drainHeld (d1.twin.held.length + 1) d1)

/-! ## Records at the serving unit -/

/-- The answer to a REPAIR (R220): the leaf as it stands here, with the entries of the operations stamped from the failing
record on that touched it. -/
def answerRepair (d : Dev) (st : Stamp) (pa : Nat) : Dev :=
  let leaf := pa / 4096
  let es := (d.twin.touched.filter fun p => decide (st ≤ p.1) && p.2.2.2.contains leaf).filterMap fun p =>
    match findOp d p.2.1 p.2.2.1, getConn d p.2.1 with
    | some o, _ => o.done.map fun e => (p.2.1, e)
    | none, some c => (stored c p.2.2.1).map fun e => (p.2.1, e)
    | none, none => none
  sendRecs d [.leaf (leaf * 4096) (poisonBits d leaf) (readBytes d.mem (leaf * 4096) 4096) es
    (if ctlBase d.folds ≤ leaf * 4096 then controlOf d leaf else [])]

/-- FIN (R202, R217). -/
def takeFin (d : Dev) (st : Stamp) : Dev :=
  completeAll (d.modTwin fun t => { t with finWait := t.finWait.filter fun s => s ≠ st })

/-- A joiner's bitmap (R242 steps 1 and 2): the union is formed, and from its last record on the stream flows. Only a unit whose
check of the joiner's HELLO found it the source takes part (R244). -/
def takeSet (d : Dev) (leaves : List Nat) (full last : Bool) : Dev :=
  let d1 := d.modTwin fun t =>
    { t with u := addNums (addNums t.u leaves) t.diverge.leaves, uFull := t.uFull || full || t.diverge.full, uNext := 0,
             unproved := if full then (d.net.conns.filter fun x => maySend x.2).map fun x => (x.1, x.2.ident.key) else t.unproved }
  if last && !d.twin.resyncing then
    let d2 := raiseOp (d1.modTwin fun t =>
      { t with resyncing := true, peerStamp := t.lastStamp, outstanding := [], touched := [], lineStamps := [], finWait := [], finHeld := [] })
      0x040C srcTWN []
    sendRecs d2 [.resyncSet 0 d2.twin.u d2.twin.uFull true]
  else d1

/-- The joiner lost its contents: the connections under whose keys it has sent move to ERROR (R521). -/
def failUnproved (d : Dev) : Dev :=
  (d.twin.unproved.foldl (fun a x =>
    match getConn a x.1 with
    | some c => if c.ident.key = x.2 then changeConn a x.1 (.fail 0x15) else a
    | none => a) d).modTwin fun t => { t with unproved := [] }

/-- READY (R242 step 6): the serving unit asks the witness to admit its twin. -/
def takeReady (d : Dev) : Dev :=
  if d.twin.resyncing && d.twin.u.isEmpty && !d.twin.uFull then sendWit (failUnproved d) .admitTwin else d

/-- One record, by the unit's role (R215, R219). Register requests and answers are not handled here. That a HANDOVER follows a planned
swap decides how the standby takes over (R236); the spec gives the record no field for it, so the model carries the fact with it
(DESIGN CHOICE, assumption 7). A source that a yielding unit hands over to claims the lease (R244). -/
def handleRec (d : Dev) (r : Rec) : Dev :=
  match d.twin.st with
  | .standby | .joining =>
    if inStream r then takeStream d r
    else if fromStandby r then streamFault d
    else
      match r with
      | .handover planned =>
        if d.twin.st = .joining then d
        else d.modTwin fun t => { t with claiming := some (if planned then .handover else .takeover) }
      | .resyncSet _ ls full last =>
        if d.twin.st = .joining then
          sayReady (d.modTwin fun t =>
            { t with u := addNums t.u ls, uFull := t.uFull || full, uNext := 0, resyncing := t.resyncing || last })
        else d
      | _ => d
  | .active | .unpaired =>
    if d.twin.ident.isNone then d
    else
      match r with
      | .handover _ => streamFault d
      | .fin st => takeFin d st
      | .repair st pa => answerRepair d st pa
      | .ready => takeReady d
      | .leave _ => twinGone d
      | .ports as => d.modTwin fun t => { t with ports := as }
      | .resyncSet _ ls full last => if d.twin.st = .unpaired && d.twin.source then takeSet d ls full last else d
      | x => if inStream x then streamFault d else d
  | .fenced =>
    match r with
    | .handover _ =>
      if d.twin.source && fitToServe d then d.modTwin fun t => { t with claiming := some .start } else d
    | _ => d

/-- A record reaches a unit only over a link that is up, at a member of a pair. -/
def recArrives (f : Dev → Dev) (d : Dev) : Dev := if d.twin.linkUp && d.twin.ident.isSome then f d else d

/-- No LEAF has answered a REPAIR within 10 ms (R220). -/
def repairLate (pa : Nat) (d : Dev) : Dev :=
  if (d.twin.st = .standby || d.twin.st = .joining) && d.twin.repairs.any (fun r => r.1 = pa / 4096) then leaveWith d 2 else d

/-- A record has waited longer than 1 ms for the standby's own budget (R264). -/
def budgetWait (d : Dev) : Dev :=
  match d.twin.held with
  | r :: _ => if d.twin.st = .standby && !recFits d r then raiseOp d 0x0109 srcPWR [] else d
  | [] => d

/-- The next leaf of the resync set in ascending order: of a FULL set, the next leaf of a region or of the tables and the
control area (R241, R242). -/
def nextLeaf (d : Dev) : Option Nat :=
  if d.twin.uFull then
    let from_ := d.twin.uNext
    let spans := ((regionDescs d).map fun x => (x.base / 4096, ceilDiv (x.base + x.len) 4096)) ++
      [(rtaBase d.folds / 4096, d.folds.s / 4096)]
    (spans.filter fun s => decide (from_ < s.2)).foldl (fun m s =>
      let l := max from_ s.1
      match m with | some k => some (min k l) | none => some l) none
  else d.twin.u.head?

/-- RESYNC_LEAF_SEND (R242 step 3). -/
def sendLeaf (d : Dev) : Dev :=
  if !(serving d && d.twin.resyncing && d.twin.linkUp) then d
  else
    match nextLeaf d with
    | none => d.modTwin fun t => { t with uFull := false }
    | some l =>
      let items := if ctlBase d.folds ≤ l * 4096 then controlOf d l else []
      let bytes := if ctlBase d.folds ≤ l * 4096 then [] else readBytes d.mem (l * 4096) 4096
      sendRecs (d.modTwin fun t =>
        { t with u := t.u.filter fun x => x ≠ l, uNext := if t.uFull then l + 1 else t.uNext,
                 uFull := t.uFull && decide (l + 1 < d.folds.s / 4096) })
        [.leaf (l * 4096) (poisonBits d l) bytes [] items]

/-! ## The rows -/

/-- OP (R217). -/
def execOpRec (stamp : Stamp) (conn : Nat) (gen : Word) (m : Member) (s : State) : Res :=
  onDev (recArrives fun d => handleRec d (.op stamp conn gen m)) s

/-- GROUP (R185). -/
def execGroupRec (stamp : Stamp) (conn : Nat) (gen : Word) (ms : List Member) (s : State) : Res :=
  onDev (recArrives fun d => handleRec d (.group stamp conn gen ms)) s

/-- CTRL (R215). -/
def execCtrlRec (stamp : Stamp) (body : CtrlBody) (s : State) : Res :=
  onDev (recArrives fun d => handleRec d (.ctrl stamp body)) s

/-- END (R224). -/
def execEndRec (stamp : Stamp) (conn : Nat) (entry : Entry) (s : State) : Res :=
  onDev (recArrives fun d => handleRec d (.ended stamp conn entry)) s

/-- INDEX (R222). -/
def execIndexRec (conn : Nat) (sqTail ackSeq cqHead0 cqHead1 : Word) (s : State) : Res :=
  onDev (recArrives fun d => handleRec d (.index conn sqTail ackSeq cqHead0 cqHead1)) s

/-- RDATA (R226). -/
def execRdataRec (conn : Nat) (seq : Word) (offset : Nat) (addr : DWord) (ckey : Word) (data : List Byte) (s : State) : Res :=
  onDev (recArrives fun d => handleRec d (.rdata conn seq offset addr ckey data)) s

/-- LEVEL (R225). -/
def execLevelRec (stamps : List Stamp) (s : State) : Res := onDev (recArrives fun d => handleRec d (.level stamps)) s

/-- LEAF (R220). -/
def execLeafRec (pa : Nat) (poison : BitVec 64) (bytes : List Byte) (entries : List (Nat × Entry))
    (control : List ControlItem) (s : State) : Res :=
  onDev (recArrives fun d => handleRec d (.leaf pa poison bytes entries control)) s

/-- Every stamped record has been applied, and every FIN sent, as before a planned swap's HANDOVER (R239 step 2). -/
def caughtUp (t : Twin) : Bool := t.held.isEmpty && t.repairs.isEmpty && t.finHeld.isEmpty

/-- HANDOVER (R233). Its record is empty (R215), so the row does not say whether a planned swap came before it (R236): none did where
records still wait, and otherwise it is a free choice (assumption 7); a record inside TWL_RECORDS_FRAME says it. -/
def execHandover (s : State) : Res :=
  onDev (recArrives fun d => handleRec (drawChoice d 2).2 (.handover ((drawChoice d 2).1 = 1 && caughtUp d.twin))) s

/-- RESYNC_SET (R242). -/
def execResyncSet (first : Nat) (leaves : List Nat) (full last : Bool) (s : State) : Res :=
  onDev (recArrives fun d => handleRec d (.resyncSet first leaves full last)) s

/-- FIN (R217). -/
def execFin (stamp : Stamp) (s : State) : Res := onDev (recArrives fun d => handleRec d (.fin stamp)) s

/-- REPAIR (R220). -/
def execRepair (stamp : Stamp) (pa : Nat) (s : State) : Res := onDev (recArrives fun d => handleRec d (.repair stamp pa)) s

/-- READY (R242). -/
def execReady (s : State) : Res := onDev (recArrives fun d => handleRec d .ready) s

/-- LEAVE (R218). -/
def execLeave (reason : Nat) (s : State) : Res := onDev (recArrives fun d => handleRec d (.leave reason)) s

/-- PORTS (R114). -/
def execPorts (addrs : List (BitVec 128)) (s : State) : Res := onDev (recArrives fun d => handleRec d (.ports addrs)) s

/-- REPAIR_TIMEOUT (R220). -/
def execRepairTimeout (pa : Nat) (s : State) : Res := onDev (repairLate pa) s

/-- STANDBY_BUDGET_WAIT (R264). -/
def execStandbyBudgetWait (s : State) : Res := onDev budgetWait s

/-- RESYNC_LEAF_SEND (R242). -/
def execResyncLeafSend (s : State) : Res := onDev sendLeaf s

end Sys2Proof.Machine
end

