-- ==== Sys2Proof/Machine/Link.lean ====
section
/-! DEFINITION. The twin link's frames, HELLO and pairing, the witness and its leases, heartbeats, and the commands of
TWN_CMD (R204 to R213, R219, R229 to R247, R463, R562). -/
namespace Sys2Proof.Machine

/-! ## Frames (R212, R213, R219) -/

/-- Count a frame or message dropped by R219. -/
def twlMalf (d : Dev) : Dev := bump d 0x340008 1

/-- A frame failed its tag: counted, and 0x0409 at the 16th within 1 s (R250). -/
def twlAuth (d : Dev) : Dev :=
  let ts := (d.twin.authTimes.filter fun t => decide (d.clock ≤ t + 1000000000)) ++ [d.clock]
  let d1 := bump d 0x340000 1
  if 16 ≤ ts.length then raiseOp (d1.modTwin fun t => { t with authTimes := [] }) 0x0409 srcTWL []
  else d1.modTwin fun t => { t with authTimes := ts }

/-- LACK: frames before it are held no longer, and waiting records take their room (R213). -/
def takeLack (d : Dev) (lack : Nat) : Dev :=
  let d1 := d.modTwin fun t =>
    { t with txq := t.txq.filter fun f => !(decide (0 < (lack + 2 ^ 32 - f.1) % 2 ^ 32) && decide ((lack + 2 ^ 32 - f.1) % 2 ^ 32 < 2 ^ 31)) }
  pumpLink d1

/-- PEER_STAMP (R212, R217): at the serving unit it lifts mirror holds and completes operations at TWIN; a standby keeps what
the active echoes. -/
def takePeer (d : Dev) (p : Stamp) : Dev :=
  if !serving d then d.modTwin fun t => { t with peerEcho := p }
  else if decide (d.twin.lastStamp < p) || decide (p ≤ d.twin.peerStamp) then d
  else
    let d1 := d.modTwin fun t =>
      { t with peerStamp := p, outstanding := t.outstanding.filter fun q => decide (p < q.1),
               touched := t.touched.filter fun q => decide (p < q.1),
               lineStamps := t.lineStamps.filter fun q => decide (p < q.2) || t.finWait.contains q.2 }
    settleFully (completeAll d1)

/-- What every frame does that passes its checks (R212). Without a link key no tag verifies (R213). -/
def twFrame (h : TwlHdr) (f : Dev → Dev) (d : Dev) : Dev :=
  if d.twin.ident.isNone || !d.twin.linkUp then d
  else if !h.ftypeOk then twlMalf d
  else if !h.tagOk || d.twin.linkKey.isNone then twlAuth d
  else if !h.hdrOk then twlMalf d
  else f (takePeer (takeLack d h.lack) h.peer)

/-- A fragment continues the record that the fragments before it began (R214). -/
def continues (p : Frag × Nat) (f : Frag) : Bool := f.rcd = p.1.rcd && f.stamp = p.1.stamp && f.off = p.2

/-- One fragment of a RECORDS frame: a record is dispatched by `rec'` once its last fragment is there. One whose header disagrees with
those before it is a stream fault (R214, R219). -/
def takeFrag (rec' : Dev → Rec → Dev) (d : Dev) (f : Frag) : Dev :=
  let fits := match d.twin.part with | none => f.off = 0 | some p => continues p f
  if !fits then streamFault (d.modTwin fun t => { t with part := none })
  else if f.off + f.len < bodyBytes f.rcd then d.modTwin fun t => { t with part := some (f, f.off + f.len) }
  else rec' (d.modTwin fun t => { t with part := none }) f.rcd

/-- A RECORDS frame in sequence is taken fragment by fragment; one out of sequence is dropped and comes again (R213). -/
def takeRecords (rec' : Dev → Rec → Dev) (h : TwlHdr) (fs : List Frag) (bad : Bool) (d : Dev) : Dev :=
  if h.lsn ≠ d.twin.lsnRx then d
  else
    let d1 := d.modTwin fun t => { t with lsnRx := (t.lsnRx + 1) % 2 ^ 32 }
    if bad then streamFault d1 else fs.foldl (takeFrag rec') d1

/-- A frame may leave: the link is up and its key is made (R213). -/
def linkReady (d : Dev) : Bool := d.twin.linkUp && d.twin.ident.isSome && d.twin.linkKey.isSome

/-- Send a LINK_ACK. -/
def sendAckFrame (d : Dev) : Dev :=
  if linkReady d then
    emit (d.modTwin fun t => { t with txc := t.txc + 1 }) (.linkAck d.twin.lsnRx d.twin.txc (ownPeer d))
  else d

/-- Go back: every frame from LACK on leaves again (R213). -/
def resendAll (d : Dev) : Dev :=
  if !linkReady d then d
  else d.twin.txq.foldl (fun a f =>
    emit (a.modTwin fun t => { t with txc := t.txc + 1 }) (.twl f.1 a.twin.lsnRx a.twin.txc (ownPeer a) f.2)) d

/-- The link key (R213): from PAIR_SECRET and the NONCEs of unit 0 and unit 1, once both are known. A unit whose pair secret an alarm
has erased has none (R410). -/
def linkKeyOf (d : Dev) : Option (BitVec 256) :=
  match d.twin.ident, d.twin.peer with
  | some i, some m =>
    if d.sec.secrets then
      let own := beBytes 8 d.twin.nonce.toNat
      let his := beBytes 8 m.nonce.toNat
      let prk := hkdfExtract (keyBytes i.secret) (if i.unit then his ++ own else own ++ his)
      some (BitVec.ofNat 256 (beNat (hkdfExpand prk (labelBytes "gheloth twin link") 32)))
    else none
  | _, _ => none

/-- A NONCE has changed: the key is derived again, and TXC starts at 1 under it (R213). -/
def rekeyLink (d : Dev) : Dev := pumpLink (d.modTwin fun t => { t with linkKey := linkKeyOf d, txc := 1 })

/-! ## HELLO (R243, R244) -/

/-- Header of the running bank (R428), and its version and stream level. -/
def runningBank (d : Dev) : List Byte :=
  match d.ldg.banks[if d.ldg.bankB then 1 else 0]? with | some b => b.header | none => []
def runningVer (d : Dev) : Word := BitVec.ofNat 32 (leNat (((runningBank d).drop 4).take 4))
def streamLevel (d : Dev) : Nat := leNat (((runningBank d).drop 16).take 1)

/-- Body bytes 0 to 95 of a HELLO (R243). -/
def helloBytes (m : Hello) : List Byte :=
  beBytes 8 m.pairId.toNat ++
  beBytes 1 ((if m.unit then 1 else 0) + (if m.serving then 2 else 0) + (if m.timeValid then 4 else 0) +
    (if m.windowOpen then 8 else 0) + 16 * m.rsv) ++
  beBytes 1 m.streamLevel ++ beBytes 2 m.reseed ++ beBytes 4 m.node ++ beBytes 4 m.fwVer.toNat ++ beBytes 4 m.cfgGen.toNat ++
  beBytes 8 (m.lastStamp % 2 ^ 64) ++ beBytes 8 m.time ++ beBytes 8 m.nonce.toNat ++ beBytes 48 m.digest.toNat

/-- The MAC of a HELLO under a PAIR_SECRET (R243). -/
def helloMac (secret : BitVec 256) (m : Hello) : BitVec 128 := mac16 (keyBytes secret) (helloBytes m)

/-- The HELLO that this unit sends, before its MAC. -/
def bareHello (d : Dev) (i : PairIdent) : Hello :=
  { hdrOk := true, mac := 0, rsv := 0, pairId := i.pairId, unit := i.unit, serving := serving d, timeValid := d.twin.timeValid,
    windowOpen := d.upd.window, streamLevel := streamLevel d, reseed := d.twin.rseed % 65536, node := i.node,
    fwVer := runningVer d, cfgGen := d.twin.cfgGen, lastStamp := d.twin.lastStamp, time := ptpNow d,
    nonce := d.twin.nonce, digest := cfgDigest d }

def ownHello (d : Dev) (i : PairIdent) : Hello :=
  let m := bareHello d i
  { m with mac := helloMac i.secret m }

def sendHello (d : Dev) : Dev :=
  match d.twin.ident with
  | some i => if d.twin.linkUp then emit d (.hello (ownHello d i)) else d
  | none => d

/-- Draw a fresh NONCE: a new link key, under which TXC starts again at 1 (R213). -/
def newNonce (d : Dev) : Dev :=
  let p := draw64 d
  rekeyLink (p.2.modTwin fun t => { t with nonce := p.1 })

/-- |Δt| between the units in ns, of times modulo 2^64, corrected by half the round trip (R243). -/
def timeDiff (d : Dev) (m : Hello) : Nat :=
  let x := (ptpNow d + 2 ^ 64 - (m.time + d.twin.rtt / 2) % 2 ^ 64) % 2 ^ 64
  min x (2 ^ 64 - x)

/-- Rows 9 and 10 of R244: this unit is the source. A unit whose contents are lost returns only as a joiner (R275). -/
def isSource (d : Dev) (i : PairIdent) (m : Hello) : Bool :=
  if d.dur.lost then false
  else if d.twin.lastStamp ≠ m.lastStamp then decide (m.lastStamp < d.twin.lastStamp)
  else if serving d then true
  else if m.serving then false
  else if d.twin.holder = 0 then !i.unit
  else d.twin.holder = (if i.unit then 2 else 1)

/-- The first row of R244, from the second on, that refuses. The digests that row 6 asks for are the source's; the unit to be joiner can
only tell that a source 256 generations on keeps none of its own (DEDUCED, assumption 61). -/
def helloRow (d : Dev) (i : PairIdent) (m : Hello) : Option Nat :=
  let src := isSource d i m
  let joinerGen := if src then m.cfgGen else d.twin.cfgGen
  let sourceGen := if src then d.twin.cfgGen else m.cfgGen
  if m.unit = i.unit || m.node = i.node || m.node ≠ i.twin then some 2
  else if m.streamLevel ≠ streamLevel d then some 3
  else if m.fwVer ≠ runningVer d && !(m.windowOpen && d.upd.window) then some 4
  else if m.cfgGen = d.twin.cfgGen && m.digest ≠ cfgDigest d then some 5
  else if src && joinerGen.toNat < sourceGen.toNat && !(d.twin.digests.any fun p => p.2 = m.digest) then some 6
  else if !src && joinerGen.toNat + 256 ≤ sourceGen.toNat then some 6
  else if !m.timeValid || !d.twin.timeValid || decide (100000000 < timeDiff d m) then some 7
  else none

/-- A unit may join: nothing of R204 stands against it but contents that a resync replaces. -/
def fitToJoin (d : Dev) : Bool := fitToServe { d with dur := { d.dur with lost := false } }

/-- Enter JOINING and send the bitmap (R242 step 1). -/
def beginJoin (d : Dev) : Dev :=
  let d1 := ((enterState d .joining).modUpd fun u => { u with rejoin := false }).modTwin fun t =>
    { t with u := [], uFull := false, uNext := 0, based := false, readySent := false, resyncing := false, held := [],
             repairs := [], claiming := none, phase := .none }
  sendRecs d1 [.resyncSet 0 d1.twin.diverge.leaves (d1.twin.diverge.full || d1.dur.lost) true]

/-- The addresses of this unit's data ports, for PORTS (R215). -/
def portsRec (d : Dev) : Rec := .ports ((List.range 16).map fun p => if portInUse d p then portAddr d p else 0)

/-- A unit that enters STANDBY sends a PROBE on each of its paths of every connection (R222) and its port addresses (R215). -/
def announce (d : Dev) : Dev :=
  let d1 := d.net.conns.foldl (fun a x =>
    (List.range x.2.paths.length).foldl (fun b p => sendPlain b x.1 p .probe) a) d
  sendRecs d1 [portsRec d1]

/-- J enters STANDBY (R222, R242 step 6): its bitmap is cleared. -/
def becomeStandby (d : Dev) (m : Hello) : Dev :=
  let d1 := (enterState d .standby).modTwin fun t =>
    { t with diverge := { active := false, full := false, leaves := [] }, leafStamps := [], resyncing := false,
             override := false, lastStamp := if t.based then t.lastStamp else m.lastStamp,
             peerEcho := if t.based then t.lastStamp else m.lastStamp, nextAt := none }
  announce (clearLoss d1)

/-- S enters ACTIVE on the witness's DONE to ADMIT (R242 step 6). -/
def becomeActive (d : Dev) : Dev :=
  let forced := d.twin.override
  let d1 := (enterState d .active).modTwin fun t =>
    { t with diverge := { active := false, full := false, leaves := [] }, leafStamps := [], resyncing := false,
             override := false }
  let d2 := if forced then raiseOp d1 0x040D srcTWN [] else d1
  sendHello (protection (raiseOp d2 0x040C srcTWN []))

/-- The next reseed generation (R208, R210): its first stamp is 0:0, no ceiling of it has been granted, and the refusal of R209 ends
with it on a unit that follows. -/
def nextSeed (d : Dev) : Dev :=
  let g := d.twin.rseed + 1
  d.modTwin fun t =>
    { t with rseed := g, nextAt := some (mkStamp g 0 0), ceil := 0, reqs := t.reqs.map fun r => (r.1, r.2.1, r.2.2.1, 0),
             refusing := t.refusing && t.st ≠ .standby }

/-- The standby of a reseeding active takes the new generation from its HELLO (R210 step 4). -/
def followReseed (d : Dev) : Dev :=
  sendHello (newNonce (nextSeed d))

/-- The active holds the standby's HELLO of the new generation: its next RENEW carries it, and admission resumes (R210
step 5). -/
def endReseed (d : Dev) : Dev :=
  settleFully ((sendWit d .renew).modTwin fun t => { t with phase := .none, refusing := false, lastCmd := .done })

/-- The clocks of the units differ by more than 1 ms: 0x0404 (R243, R244 row 8). -/
def timeWarned (d : Dev) (m : Hello) : Dev := if 1000000 < timeDiff d m then raiseOp d 0x0404 srcTWN [] else d

/-- What a HELLO that passes row 1 does while the units are paired: the time is checked, and a reseed goes on. -/
def pairedHello (d : Dev) (m : Hello) : Dev :=
  let d1 := timeWarned d m
  if d1.twin.st = .standby && m.serving && m.reseed = (d1.twin.rseed + 1) % 65536 then followReseed d1
  else if d1.twin.st = .active && d1.twin.phase = .reseedHello && m.reseed = d1.twin.rseed % 65536 then endReseed d1
  else d1

/-- The outcome of a HELLO that no row refuses, for a unit that is not paired (R240, R244 rows 9 and 10). A source claims the lease
while its twin does not serve; one whose twin serves is ahead through an override, and waits for the twin to give up its role. -/
def pairUp (d : Dev) (i : PairIdent) (m : Hello) : Dev :=
  if isSource d i m then
    (if serving d then d.modTwin fun t => { t with source := true }
     else if fitToServe d then d.modTwin fun t => { t with source := true, claiming := if m.serving then none else some .start }
     else d)
  else if serving d then
    sendWit ((raiseOp d 0x040A srcTWN []).modTwin fun t => { t with phase := .yieldAdmit, source := false }) .admitTwin
  else if m.serving then beginJoin d
  else d.modTwin fun t => { t with source := false, claiming := none }

/-- A refused HELLO leaves the unit no source. -/
def notSource (d : Dev) : Dev := d.modTwin fun t => { t with source := false }

/-- The twin has answered on a path: a unit that claims because it heard nothing stops (R240). -/
def heard (d : Dev) : Dev :=
  if d.twin.claiming = some .start && !d.twin.source then d.modTwin fun t => { t with claiming := none } else d

/-- Rows 2 to 10 of R244 on a unit that is not paired. -/
def apartHello (d : Dev) (i : PairIdent) (m : Hello) : Dev :=
  if d.twin.resyncing || !fitToJoin d then d
  else
    match helloRow d i m with
    | some 7 => raiseOp (raiseOp (notSource d) 0x0404 srcTWN []) 0x0403 srcTWN [7]
    | some n => raiseOp (notSource d) 0x0403 srcTWN [n]
    | none => pairUp (timeWarned d m) i m

/-- A received HELLO (R219, R244). -/
def takeHello (m : Hello) (d : Dev) : Dev :=
  match d.twin.ident with
  | none => d
  | some i =>
    if !d.twin.linkUp then d
    else if m.mac ≠ helloMac i.secret m || m.pairId ≠ i.pairId then raiseOp d 0x0403 srcTWN [1]
    else if !m.hdrOk then twlMalf d
    else
      let rekey : Bool := match d.twin.peer with | some o => decide (o.nonce ≠ m.nonce) | none => true
      let d0 := heard (d.modTwin fun t => { t with peer := some m, dt := timeDiff d m, hbTwl := 0 })
      let d1 := if rekey then rekeyLink d0 else d0
      if m.rsv ≠ 0 then raiseOp (twlMalf (notSource d1)) 0x0403 srcTWN [3]
      else
        match d1.twin.st with
        | .active | .standby => pairedHello d1 m
        | .joining =>
          if d1.upd.rejoin then apartHello d1 i m else if d1.twin.readySent && m.serving then becomeStandby d1 m else d1
        | .fenced | .unpaired => apartHello d1 i m

/-! ## The link's state (R213, R233) -/

/-- A register access relayed to a twin that cannot answer ends ACCESS_VIOLATION with DETAIL 0x05 (R228). Its place among the
relays stays, since the pair's frames, and so its answer, may still come after the link is up again. -/
def endRelays (d : Dev) : Dev :=
  d.twin.relays.foldl (fun a r =>
    match findOp a r.conn r.seq with
    | some o => endOp a o (endEntry o.desc .accessViolation 5) none
    | none => a) d

/-- The link goes down: 0x0407 (R213, R250). -/
def twlDown (lock : Bool) (d : Dev) : Dev :=
  if d.twin.linkUp then
    endRelays (raiseOp (d.modTwin fun t => { t with linkUp := false, blockLock := lock }) 0x0407 srcTWL [])
  else d.modTwin fun t => { t with blockLock := lock }

/-- The link comes up: a fresh NONCE and a HELLO (R213, R243). A unit in no pairing starts its frames afresh. A unit whose pair
secret an alarm has erased has no link key (R410). -/
def twlUp (rtt : Nat) (d : Dev) : Dev :=
  if d.twin.linkUp || (d.twin.ident.isSome && !d.sec.secrets) then d
  else
    let d1 := raiseOp (d.modTwin fun t => { t with linkUp := true, blockLock := true, rtt := rtt }) 0x0407 srcTWL []
    let d2 := if paired d1 then d1 else d1.modTwin fun t => { t with lsnTx := 0, lsnRx := 0, txq := [], waitq := [], part := none, relays := [] }
    if d2.twin.ident.isNone then d2
    else resendAll (sendHello (newNonce d2))

/-! ## The witness (R229 to R236) -/

/-- An answer to a request that waits: its MAC verifies, its fields are proper, it names this pair and this unit, and it echoes the
request's WSEQ (R219, R229). -/
def answered (a : WitAns) (f : WitReq → Nat → Nat → Dev → Dev) (d : Dev) : Dev :=
  match d.twin.ident with
  | none => d
  | some i =>
    if !a.macOk then d
    else if !a.ok then twlMalf d
    else if a.pairId ≠ i.pairId || a.unit ≠ i.unit then d
    else
      match d.twin.reqs.find? fun r => r.2.1 = a.wseq with
      | some (r, w, ts, ep) =>
        f r ts ep (d.modTwin fun t => { t with witOk := true, holder := a.holder, reqs := t.reqs.filter fun q => q.2.1 ≠ w })
      | none => d

/-- The end of a lease that was granted for a request sent at `ts`: ts + L - G, with the guard that TWN_LEASE held when the latest
request for a lease was sent (R231, R248). -/
def leaseOf (d : Dev) (a : WitAns) (ts : Nat) : Nat := ts + a.leaseUs * 1000 - d.twin.guard * 100000

/-- Why a unit that the witness grants a CLAIM takes over: what it claims for, or, at a standby whose CLAIM went out while its link was
down, the takeover (R233). -/
def claimWhy (d : Dev) : Option ClaimFor :=
  match d.twin.claiming with
  | some w => some w
  | none => if d.twin.st = .standby then some .takeover else none

/-- GRANT (R234, R236, R240). -/
def witGrant (a : WitAns) (d : Dev) : Dev :=
  answered a (fun r ts ep x =>
    match r with
    | .renew => settleFully (x.modTwin fun t => { t with leaseEnd := some (leaseOf x a ts), ceil := max t.ceil ep })
    | .claim =>
      (match claimWhy x with
       | none => x
       | some why =>
         if serving x then x
         else
           let tgt : TwinState := if why = .handover then .active else .unpaired
           let y := startServing x tgt (some (mkStamp x.twin.rseed a.epoch 0))
           let z := y.modTwin fun t => { t with leaseEnd := some (leaseOf x a ts), ceil := a.epoch + 1 }
           if tgt = .active then z
           else sendHello (sendWit (if why = .takeover then protection z else z) .drop))
    | _ => x) d

/-- DENY (R230, R233): reason 0x02 fences a standby; 0x02 to 0x04 raise 0x0405. -/
def witDeny (a : WitAns) (d : Dev) : Dev :=
  answered a (fun r _ _ x =>
    let y := if 2 ≤ a.reason then raiseOp x 0x0405 srcTWN [] else x
    if r = .claim && a.reason = 2 then
      (if y.twin.st = .standby then enterState (leavePair (y.modTwin fun t => { t with claiming := none })) .fenced
       else y.modTwin fun t => { t with claiming := none })
    else if y.twin.phase = .yieldAdmit || y.twin.phase = .yieldRelease then y.modTwin fun t => { t with phase := .none }
    else y) d

/-- DONE (R230, R233, R239, R242, R244). -/
def witDone (a : WitAns) (d : Dev) : Dev :=
  answered a (fun r _ _ x =>
    match r with
    | .drop => goUnpaired x
    | .admitTwin =>
      if x.twin.phase = .yieldAdmit then sendWit (x.modTwin fun t => { t with phase := .yieldRelease }) .release
      else if x.twin.st = .unpaired && x.twin.resyncing then becomeActive x
      else x
    | .release =>
      if x.twin.phase = .swapRelease then
        let y := stopServing x .standby
        announce (sendRecs (y.modTwin fun t =>
          { t with phase := .swapHandover, lastCmd := .done, outstanding := [], touched := [], lineStamps := [], finWait := [],
                   peerEcho := t.lastStamp }) [.handover true])
      else if x.twin.phase = .yieldRelease then
        sendHello (sendRecs (stopServing x .fenced) [.handover true])
      else x
    | _ => x) d

/-- An answer later than the limit is treated as lost (R231): that to the request which has waited longest. 0x0405, witness
unreachable. -/
def witLate (d : Dev) : Dev :=
  if d.twin.reqs.isEmpty then d
  else raiseOp (d.modTwin fun t => { t with reqs := t.reqs.drop 1, witOk := false }) 0x0405 srcTWN []

/-- RENEW goes out every L / 4 from a unit that serves under a lease (R231). -/
def renew (d : Dev) : Dev := if serving d && leased d then sendWit d .renew else d

/-- CLAIM goes out while a claim condition holds: at a standby its link is down or it has received HANDOVER (R233, R239, R240). -/
def claim (d : Dev) : Dev :=
  if d.twin.ident.isNone then d
  else
    match d.twin.st with
    | .standby => if !d.twin.linkUp || d.twin.claiming.isSome then sendWit d .claim else d
    | .fenced => if d.twin.claiming = some .start && fitToServe d then sendWit d .claim else d
    | _ => d

/-- A serving unit stops and, with its link up, hands over (R232, R266). -/
def fence (d : Dev) : Dev :=
  if !serving d then d
  else
    let d1 := stopServing d .fenced
    if d1.twin.ident.isSome && d1.twin.linkUp then sendRecs d1 [.handover false] else d1

/-- The lease has ended without a further grant (R232). -/
def leaseOver (d : Dev) : Dev :=
  if serving d && leased d then raiseOp (fence (d.modTwin fun t => { t with leaseEnd := none })) 0x0406 srcTWN [] else d

/-- The link has been down for the link wait (R233). -/
def linkWait (d : Dev) : Dev := if d.twin.st = .active && !d.twin.linkUp then sendWit d .drop else d

/-- The twin has been silent for the solo wait (R240). -/
def soloWait (d : Dev) : Dev :=
  if d.twin.st = .fenced && d.twin.ident.isSome && fitToServe d then d.modTwin fun t => { t with claiming := some .start } else d

/-! ## Heartbeats (R235) -/

/-- Heartbeats run while this unit or its twin is FENCED or JOINING, and under TEST. -/
def beating (d : Dev) : Bool := d.twin.ident.isSome && d.sec.secrets && (!paired d || d.twin.test)

/-- One path has lost its fifth heartbeat: 0x0408; both: the twin is absent. -/
def missed (d : Dev) : Dev :=
  let t := d.twin
  let d1 := d.modTwin fun t => { t with hbTwl := satUp 5 t.hbTwl, hbMgt := satUp 5 t.hbMgt }
  let d2 := if (t.hbTwl = 4 || t.hbMgt = 4) then raiseOp d1 0x0408 srcTWN [] else d1
  if d2.twin.hbTwl = 5 && d2.twin.hbMgt = 5 then
    (if d2.twin.st = .joining then enterState (dropPairing d2) .fenced
     else if serving d2 && d2.twin.resyncing then abandonJoin d2
     else d2)
  else d2

/-- The heartbeat of the management path, a message in the witness format under PAIR_SECRET (R229, R235). It is no request, so it
takes no WSEQ: the field holds the last one used (DESIGN CHOICE, assumption 62). -/
def sendBeat (d : Dev) : Dev :=
  match d.twin.ident with
  | some i => emit d (.heartbeat (witBytes i i.secret 0x10 d.twin.wseq 0 (d.twin.rseed % 65536) 0 d.twin.lastStamp))
  | none => d

/-- HEARTBEAT_SEND: a LINK_ACK on the twin link and a message on the management path (R235). -/
def heartbeatSend (d : Dev) : Dev :=
  if beating d then missed (sendBeat (sendAckFrame d))
  else d.modTwin fun t => { t with hbTwl := 0, hbMgt := 0 }

/-- A heartbeat has come on a path. -/
def beatOn (link : Bool) (d : Dev) : Dev :=
  heard (d.modTwin fun t => if link then { t with hbTwl := 0 } else { t with hbMgt := 0 })

def heartbeatRecv (link macOk rsvOk : Bool) (d : Dev) : Dev :=
  if d.twin.ident.isNone || !macOk then d
  else if !rsvOk then twlMalf d
  else beatOn link d

/-! ## TWN_CMD (R210, R239, R245, R247, R463, R562) -/

/-- A write to TWN_CMD: nothing while a command runs; the write-only staging registers are cleared after every one (R247,
R562). -/
def twnRun (f : Dev → Dev) (d : Dev) : Dev × Nat :=
  if d.twin.lastCmd = .running then (d, 0)
  else ((List.range 16).foldl (fun a i => setReg a (if i < 8 then 0x80080 + 4 * i else 0x800A0 + 4 * (i - 8)) 0) (f d), 0)

def twnCmd (p : Principal) (f : Dev → Dev) (d : Dev) : Dev := command p 0x80004 (twnRun f) d

/-- TEST on and off (R235). -/
def setTest (on' : Bool) (d : Dev) : Dev := { d with twin := { d.twin with test := on', lastCmd := .done } }

def cmdResult (d : Dev) (r : CmdResult) : Dev := d.modTwin fun t => { t with lastCmd := r }

/-- A command that needs CONFIRM 0x7A3C. -/
def confirmed (c : BitVec 16) (f : Dev → Dev) (d : Dev) : Dev := if c = 0x7A3C then f d else cmdResult d .badConfirm

/-- SWAP (R239 step 1). -/
def swap (d : Dev) : Dev :=
  if d.twin.st ≠ .active || d.twin.phase ≠ .none then cmdResult d .badState
  else dropUnstamped (d.modTwin fun t => { t with phase := .swapDrain, lastCmd := .running })

/-- Every stamp has been applied and every FIN has arrived (R239 step 2). -/
def drainedTwin (d : Dev) : Bool := decide (d.twin.lastStamp ≤ d.twin.peerStamp) && d.twin.finWait.isEmpty

def swapDrained (d : Dev) : Dev :=
  if d.twin.phase = .swapDrain && d.twin.st = .active && drainedTwin d then
    sendWit (d.modTwin fun t => { t with phase := .swapRelease }) .release
  else d

/-- No GRANT within 10 ms of the HANDOVER: both units CLAIM (R239). -/
def handoverLate (d : Dev) : Dev :=
  if d.twin.st = .standby && d.twin.phase = .swapHandover then d.modTwin fun t => { t with claiming := some .handover } else d

/-- RESEED (R210 steps 1 to 3). -/
def reseed (d : Dev) : Dev :=
  if d.twin.phase ≠ .none || !(d.twin.st = .active || (d.twin.st = .unpaired && d.twin.ident.isNone)) then cmdResult d .badState
  else d.modTwin fun t => { t with phase := .reseedDrain, lastCmd := .running }

/-- Step 4 of R210; a unit alone is done with it. -/
def reseedDrained (d : Dev) : Dev :=
  if d.twin.phase ≠ .reseedDrain || !(d.twin.st = .unpaired || drainedTwin d) then d
  else
    let d1 := newNonce ((nextSeed d).modTwin fun t => { t with phase := .reseedHello })
    if d1.twin.st = .unpaired then
      settleFully (d1.modTwin fun t => { t with phase := .none, refusing := false, lastCmd := .done })
    else sendHello d1

/-- FORCE_UNPAIRED (R245). -/
def forceUnpaired (d : Dev) : Dev :=
  if (d.twin.st = .fenced || d.twin.st = .joining) && d.twin.ident.isSome && fitToServe d then
    let d1 := (dropPairing d).modTwin fun t => { t with override := true }
    cmdResult (raiseOp (startServing d1 .unpaired (some (mkStamp d.twin.rseed (stampEpoch d.twin.lastStamp + 1) 0)))
      0x040D srcTWN []) .done
  else cmdResult d .badState

/-- CLEAR_OVERRIDE (R245): back to FENCED and to start-up. -/
def clearOverride (d : Dev) : Dev :=
  if d.twin.override then
    cmdResult (sendHello (newNonce (raiseOp
      ((stopServing d .fenced).modTwin fun t => { t with override := false }) 0x040D srcTWN []))) .done
  else cmdResult d .badState

/-- OPEN_WINDOW and CLOSE_WINDOW (R463, R579). -/
def setWindow (o : Bool) (d : Dev) : Dev :=
  if !serving d || d.twin.refusing then cmdResult d .badState
  else issueCtrl (cmdResult d .done) (.window o (regBits d 0x90024 31 24))

/-- The window closes after WINDOW_H hours, on each unit by itself (R463). -/
def windowOver (d : Dev) : Dev := d.modUpd fun u => { u with window := false, hours := 0 }

/-- Eight staged words as 32 bytes, the first in bits [31:24] of the first word (R562). -/
def stagedKey (d : Dev) (a : Nat) : BitVec 256 :=
  (List.range 8).foldl (fun k i => (k <<< (32 : Nat)) ||| (reg d (a + 4 * i)).setWidth 256) 0

/-- The identity that the staging registers hold (R562). -/
def stagedIdent (d : Dev) : PairIdent :=
  { pairId := (reg d 0x80044).setWidth 64 <<< (32 : Nat) ||| (reg d 0x80040).setWidth 64,
    unit := (reg d 0x80048).getLsbD 0, node := regBits d 0x8004C 17 0, twin := regBits d 0x80050 17 0,
    secret := stagedKey d 0x80080, wkey := stagedKey d 0x800A0,
    waddr := (List.range 4).foldl (fun k i => (k <<< (32 : Nat)) ||| (reg d (0x80060 + 4 * i)).setWidth 128) 0 }

/-- PROVISION (R562): its secrets are wrapped under WK (R438), so a unit without one cannot store them. -/
def provision (d : Dev) : Dev :=
  let i := stagedIdent d
  if !(d.twin.st = .fenced || (d.twin.st = .unpaired && d.net.conns.isEmpty)) || i.pairId = 0 || i.node = i.twin ||
      d.sec.wk.isNone || d.ldg.cfg.full then cmdResult d .badState
  else cmdResult (wroteRecord (wroteRecord (d.modTwin fun t => { t with identNext := some i }) 33) 120) .done

/-! ## The rows -/

/-- LINK_ACK (R212), which is a heartbeat of the link as well (R235). -/
def execLinkAck (h : TwlHdr) (s : State) : Res := onDev (twFrame h (beatOn true)) s

/-- HELLO (R244). -/
def execHello (msg : Hello) (s : State) : Res := onDev (takeHello msg) s

/-- TWL_RETRANSMIT_TIMEOUT (R213). -/
def execTwlRetransmitTimeout (s : State) : Res := onDev resendAll s

/-- TWL_IDLE_SEND (R213). -/
def execTwlIdleSend (s : State) : Res := onDev sendAckFrame s

/-- TWL_RX_SILENCE (R213). -/
def execTwlRxSilence (s : State) : Res := onDev (fun d => twlDown d.twin.blockLock d) s

/-- TWL_BLOCK_LOCK_LOSS (R213). -/
def execTwlBlockLockLoss (s : State) : Res := onDev (twlDown false) s

/-- TWL_LINK_UP (R213). -/
def execTwlLinkUp (rtt : Nat) (s : State) : Res := onDev (twlUp rtt) s

/-- RENEW_INTERVAL (R231). -/
def execRenewInterval (s : State) : Res := onDev renew s

/-- CLAIM_INTERVAL (R233). -/
def execClaimInterval (s : State) : Res := onDev claim s

/-- WITNESS_GRANT (R236). -/
def execWitnessGrant (ans : WitAns) (s : State) : Res := onDev (witGrant ans) s

/-- WITNESS_DENY (R233). -/
def execWitnessDeny (ans : WitAns) (s : State) : Res := onDev (witDeny ans) s

/-- WITNESS_DONE (R233). -/
def execWitnessDone (ans : WitAns) (s : State) : Res := onDev (witDone ans) s

/-- WITNESS_ANSWER_LATE (R231). -/
def execWitnessAnswerLate (s : State) : Res := onDev witLate s

/-- LEASE_END (R232). -/
def execLeaseEnd (s : State) : Res := onDev leaseOver s

/-- LINK_WAIT_EXPIRY (R233). -/
def execLinkWaitExpiry (s : State) : Res := onDev linkWait s

/-- SOLO_WAIT_EXPIRY (R240). -/
def execSoloWaitExpiry (s : State) : Res := onDev soloWait s

/-- HEARTBEAT_SEND (R235). -/
def execHeartbeatSend (s : State) : Res := onDev heartbeatSend s

/-- HEARTBEAT (R235). -/
def execHeartbeat (link macOk rsvOk : Bool) (s : State) : Res := onDev (heartbeatRecv link macOk rsvOk) s

/-- HELLO_INTERVAL (R243). -/
def execHelloInterval (s : State) : Res := onDev (fun d => if paired d then sendHello d else d) s

/-- SWAP of the roles (R239). -/
def execTwnCmdSwap (p : Principal) (s : State) : Res := onDev (twnCmd p swap) s

/-- SWAP_DRAIN_DONE (R239). -/
def execSwapDrainDone (s : State) : Res := onDev swapDrained s

/-- HANDOVER_CLAIM_TIMEOUT (R239). -/
def execHandoverClaimTimeout (s : State) : Res := onDev handoverLate s

/-- RESEED (R210). -/
def execReseed (p : Principal) (confirm : BitVec 16) (s : State) : Res := onDev (twnCmd p (confirmed confirm reseed)) s

/-- RESEED_DRAIN_DONE (R210). -/
def execReseedDrainDone (s : State) : Res := onDev reseedDrained s

/-- FORCE_UNPAIRED (R245). -/
def execForceUnpaired (p : Principal) (confirm : BitVec 16) (s : State) : Res :=
  onDev (twnCmd p (confirmed confirm forceUnpaired)) s

/-- CLEAR_OVERRIDE (R245). -/
def execClearOverride (p : Principal) (s : State) : Res := onDev (twnCmd p clearOverride) s

/-- TEST on (R235). -/
def execTestOn (p : Principal) (s : State) : Res :=
  onDev (twnCmd p (setTest true)) s

/-- TEST off (R235). -/
def execTestOff (p : Principal) (s : State) : Res :=
  onDev (twnCmd p (setTest false)) s

/-- OPEN_WINDOW (R463). -/
def execOpenWindow (p : Principal) (s : State) : Res := onDev (twnCmd p (setWindow true)) s

/-- CLOSE_WINDOW (R463). -/
def execCloseWindow (p : Principal) (s : State) : Res := onDev (twnCmd p (setWindow false)) s

/-- WINDOW_EXPIRY (R463). -/
def execWindowExpiry (s : State) : Res := onDev windowOver s

/-- PROVISION (R562). -/
def execProvision (p : Principal) (s : State) : Res := onDev (twnCmd p provision) s

end Sys2Proof.Machine
end

