-- ==== Sys2Proof/Machine/Dram.lean ====
section
/-! DEFINITION. The DRAM channels: queues and urgency, the command scheduler, refresh, replay after an alert, returned data and
its corrections, temperature and the change of data rate (R333 to R361). -/
namespace Sys2Proof.Machine

/-! ## Parts of a channel -/

def modChan (d : Dev) (c : Nat) (f : Chan → Chan) : Dev := d.modDram fun m => { m with chans := modAt m.chans c f }
def modSub (d : Dev) (c s : Nat) (f : SubCh → SubCh) : Dev := modChan d c fun x => { x with subs := modAt x.subs s f }

/-- A DRC register's address. -/
def drc (c o : Nat) : Nat := blockBase .drc c + o

/-- Fields of DRC_CTRL (R356). -/
def refMax (d : Dev) (c : Nat) : Nat := regBits d (drc c 0) 26 23
def pageIdle (d : Dev) (c : Nat) : Nat := regBits d (drc c 0) 9 0

/-- The island cycle of a time in ns: a quarter of the data rate with RDIMMs, an eighth with MRDIMMs (R333). -/
def islandCycle (m : Dram) (now : Nat) : Nat := now * m.rateA / (if m.mrdimm then 80 else 40)

/-- The alert window in island cycles (R346). -/
def alertWindow : Nat := 128

/-- An act on a subchannel that the channel can take part in. -/
def onSub (c s : Nat) (f : Chan → SubCh → Dev → Dev) (d : Dev) : Dev :=
  match d.dram.chans[c]? with
  | some x => (match x.subs[s]? with | some u => f x u d | none => d)
  | none => d

/-! ## Requests (R338, R339, R344) -/

/-- Two requests of one bank. -/
def sameBank (a b : DramReq) : Bool := a.rank = b.rank && a.bank = b.bank

/-- The banks in order: a read waits there behind a write of its row (R344). -/
def inOrderBanks (u : SubCh) : List (Nat × Nat) :=
  (u.reads.filter fun r => u.writes.any fun w => sameBank w r && w.row = r.row && decide (w.ord < r.ord)).map fun r => (r.rank, r.bank)

/-- DRAM_REQUEST: a request enters its queue of 64 (R338). -/
def dramAsk (c s : Nat) (r : DramReq) : Dev → Dev :=
  onSub c s fun x u d =>
    if x.st ≠ .ready && x.st ≠ .freqChange then d
    else if 64 ≤ (if r.write then u.writes else u.reads).length then d
    else
      modSub d c s fun v =>
        let q := { r with ord := v.ord, urg := 0 }
        let v1 := if r.write then { v with writes := v.writes ++ [q], ord := v.ord + 1 }
          else { v with reads := v.reads ++ [q], ord := v.ord + 1 }
        if (reg d (drc c 0)).getLsbD 27 then v1 else { v1 with inOrder := inOrderBanks v1 }

/-- Urgency of a request at a time (R339). -/
def urgencyAt (d : Dev) (c now : Nat) (r : DramReq) : Nat :=
  let w := reg d (drc c (0x40 + 4 * r.port))
  let t := wbits w 19 0
  let p := now - r.arrive
  if !w.getLsbD 31 then 0 else if t ≤ p then 3 else if 3 * t ≤ 4 * p then 2 else if t ≤ 2 * p then 1 else 0

/-- A write to DRC_PORT_TGT: with URG_EN 0 the port's requests go back to urgency 0 (R339). -/
def targetWrite (c port : Nat) (v : Word) (d : Dev) : Dev :=
  if v.getLsbD 31 then d
  else
    let calm (r : DramReq) : DramReq := if r.port = port then { r with urg := 0 } else r
    modChan d c fun x => { x with subs := x.subs.map fun u => { u with reads := u.reads.map calm, writes := u.writes.map calm } }

/-- URGENCY_RAISE: each request that reaches urgency 3 counts one miss on its port. -/
def raiseUrgency (c s now : Nat) : Dev → Dev :=
  onSub c s fun _ u d =>
    let up (r : DramReq) : DramReq := { r with urg := max r.urg (urgencyAt d c now r) }
    let missed := (u.reads ++ u.writes).filter fun r => r.urg < 3 && (up r).urg = 3
    let d1 := missed.foldl (fun a r => bump a (drc c (0x60 + 4 * r.port)) 1) d
    modSub d1 c s fun v => { v with reads := v.reads.map up, writes := v.writes.map up }

/-! ## The command scheduler (R340 to R346) -/

/-- A request may be chosen: no address hold, no in-order bank and no earlier request to its line keeps it (R343 to R345). -/
def mayIssue (raw : Bool) (u : SubCh) (r : DramReq) : Bool :=
  let all := u.reads ++ u.writes
  let sameLine := all.any fun q => q.line = r.line && decide (q.ord < r.ord)
  let inOrd := !raw && u.inOrder.contains (r.rank, r.bank) && all.any fun q => sameBank q r && decide (q.ord < r.ord)
  let held := !r.write && ((u.retry.any fun k => match k.req with | some q => q.write && q.line = r.line | none => false) ||
    (raw && u.writes.any fun q => q.line = r.line && decide (q.ord < r.ord)))
  !sameLine && !inOrd && !held

/-- The row a request needs is open. -/
def rowOpen (u : SubCh) (r : DramReq) : Bool := u.rows.contains (r.rank, r.bank, r.row)
def bankOpen (u : SubCh) (r : DramReq) : Bool := u.rows.any fun x => x.1 = r.rank && x.2.1 = r.bank

/-- The oldest request of a list. -/
def oldest (l : List DramReq) : Option DramReq :=
  l.foldl (fun b r => match b with | none => some r | some x => if r.ord < x.ord then some r else some x) none

/-- The choice of R340 among the queued requests. Ranks in a make-up burst take none (R342). -/
def choose (raw : Bool) (u : SubCh) : Option DramReq :=
  let free := (u.reads ++ u.writes).filter fun r => mayIssue raw u r && !u.burst.contains r.rank
  let top := free.foldl (fun n r => max n r.urg) 0
  let cand := free.filter fun r => r.urg = top
  let kept :=
    if u.drain then (if cand.any fun r => !r.write && r.urg = 3 then cand else cand.filter fun r => r.write)
    else if cand.any fun r => r.write && r.urg = 3 then cand
    else cand.filter fun r => !r.write
  match oldest (kept.filter (rowOpen u)) with
  | some r => some r
  | none => oldest kept

/-- Write drain by the marks of DRC_CTRL (R340). -/
def setDrain (d : Dev) (c : Nat) (u : SubCh) : SubCh :=
  let hi := regBits d (drc c 0) 21 16
  let lo := regBits d (drc c 0) 15 10
  let n := u.writes.length
  { u with drain := if u.drain then decide (lo < n) else decide (hi ≤ n) }

/-- The data of a line on a channel. -/
def cellOf (x : Chan) (line : Nat) : BitVec 512 := (getKey x.cells line).getD 0

/-- A write reaches the DRAM. An armed injection flips bits of one device of the line and disarms (R351). -/
def landWrite (d : Dev) (c s : Nat) (r : DramReq) : Dev :=
  let w := reg d (drc c 0x28)
  let hit := w.getLsbD 31 && decide ((if w.getLsbD 30 then 1 else 0) = s)
  let d1 := modChan d c fun x =>
    { x with cells := putKey x.cells r.line r.data,
             injected := (x.injected.filter fun p => p.1 ≠ r.line) ++
               (if hit && wbits w 29 26 ≤ 9 && wbits w 15 0 ≠ 0 then [(r.line, wbits w 29 26)] else []) }
  if hit then setReg d1 (drc c 0x28) (w &&& ~~~ (flag 31 true)) else d1

/-- Issue the read or write of a request whose row is open. -/
def issueReq (d : Dev) (c s cyc : Nat) (r : DramReq) (replayed : Bool) : Dev :=
  let d1 := modSub d c s fun u =>
    let u1 :=
      { u with reads := u.reads.filter fun q => q.ord ≠ r.ord, writes := u.writes.filter fun q => q.ord ≠ r.ord,
               retry := u.retry ++ [RetryCmd.mk (some r) 0 cyc],
               flight := if r.write || (u.flight.any fun q => q.ord = r.ord) then u.flight else u.flight ++ [r],
               rows := if pageIdle d c = 0 then u.rows.filter fun x => !(x.1 = r.rank && x.2.1 = r.bank) else u.rows }
    { u1 with inOrder := if replayed then u1.inOrder else u1.inOrder.filter fun b => (inOrderBanks u1).contains b }
  if r.write then landWrite d1 c s r else d1

/-- Issue a refresh of a rank: its banks are precharged. -/
def issueRefresh (u : SubCh) (rank cyc : Nat) (count : Bool) : SubCh :=
  let left := (u.owed.getD rank 0) - 1
  { u with owed := if count then modAt u.owed rank fun _ => left else u.owed,
           burst := if count && left = 0 then u.burst.filter fun x => x ≠ rank else u.burst,
           rows := u.rows.filter fun x => x.1 ≠ rank,
           retry := u.retry ++ [RetryCmd.mk none rank cyc] }

/-- The activates of a throttled DIMM take at most CAP percent of the slots (R352). -/
def mayActivate (d : Dev) (c : Nat) (x : Chan) (u : SubCh) : Bool :=
  !x.throttled || decide ((u.acts + 1) * 100 ≤ regBits d (drc c 0x30) 7 0 * (u.slots + 1))

/-- A rank whose due refresh no waiting read postpones (R341). -/
def freeRefresh (u : SubCh) : Option Nat :=
  (List.range u.owed.length).find? fun k =>
    decide (0 < u.owed.getD k 0) && !(u.reads.any fun r => r.rank = k && decide (1 ≤ r.urg))

/-- The next command that a chosen request needs: precharge, activate, or its read or write. -/
def serveReq (d : Dev) (c s cyc : Nat) (x : Chan) (u : SubCh) (r : DramReq) : Dev :=
  if rowOpen u r then issueReq d c s cyc r false
  else if bankOpen u r then modSub d c s fun v => { v with rows := v.rows.filter fun y => !(y.1 = r.rank && y.2.1 = r.bank) }
  else if mayActivate d c x u then
    modSub d c s fun v => { v with rows := v.rows ++ [(r.rank, r.bank, r.row)], acts := if x.throttled then v.acts + 1 else 0 }
  else d

/-- The next replayed command, with the activate that it needs (R346). -/
def replayOne (d : Dev) (c s cyc : Nat) (k : RetryCmd) : Dev :=
  let d1 := modSub d c s fun v => { v with replay := v.replay.drop 1 }
  match k.req with
  | none => modSub d1 c s fun v => issueRefresh v k.refresh cyc false
  | some r =>
    issueReq (modSub d1 c s fun v =>
      { v with rows := (v.rows.filter fun y => !(y.1 = r.rank && y.2.1 = r.bank)) ++ [(r.rank, r.bank, r.row)] }) c s cyc r true

/-- DRAM_COMMAND_ISSUE: one command slot (R340). Commands leave the retry buffer with the alert window; a clean window ends the
run of alerts (R346, R347). -/
def issueSlot (c s now : Nat) : Dev → Dev :=
  onSub c s fun x u0 d =>
    if x.st ≠ .ready || u0.alert then d
    else
      let cyc := islandCycle d.dram now
      let u1 := setDrain d c
        { u0 with retry := u0.retry.filter fun k => decide (cyc ≤ k.at_ + alertWindow), cycle := cyc,
                  slots := if x.throttled then u0.slots + 1 else 0, acts := if x.throttled then u0.acts else 0,
                  replays := if u0.replay.isEmpty && decide (u0.alertAt + alertWindow < cyc) then 0 else u0.replays }
      let d1 := modSub d c s fun _ => u1
      match u1.burst with
      | k :: _ => modSub d1 c s fun v => issueRefresh v k cyc true
      | [] =>
        match u1.replay with
        | k :: _ => replayOne d1 c s cyc k
        | [] =>
          match choose ((reg d (drc c 0)).getLsbD 27) u1 with
          | some r => serveReq d1 c s cyc x u1 r
          | none =>
            match freeRefresh u1 with
            | some k => modSub d1 c s fun v => issueRefresh v k cyc true
            | none => d1

/-- REFRESH_DUE: a rank owes one more refresh, at most REF_MAX; at the limit its make-up burst begins (R341, R342). A gated
island wakes for it (R361). -/
def refreshDue (c s rank : Nat) : Dev → Dev :=
  onSub c s fun x _ d =>
    if x.st ≠ .ready then d
    else
      let m := refMax d c
      let d1 := d.modRst fun r => { r with gateDrc := r.gateDrc &&& ~~~ (1#24 <<< c) }
      modSub d1 c s fun v =>
        let n := min m (v.owed.getD rank 0 + 1)
        { v with owed := modAt v.owed rank fun _ => n, burst := if n = m && !v.burst.contains rank then v.burst ++ [rank] else v.burst }

/-- ROW_IDLE_PRECHARGE (R335). -/
def rowIdle (c s rank bank : Nat) : Dev → Dev :=
  onSub c s fun _ _ d => modSub d c s fun v => { v with rows := v.rows.filter fun y => !(y.1 = rank && y.2.1 = bank) }

/-! ## Returned data (R348, R350) -/

/-- DRC_ERR_LOC0 and DRC_ERR_LOC1 (R355). -/
def errLocs (e : ErrLoc) : Nat × Nat :=
  let v := Config.errLoc e.sub e.rank e.bank e.row e.col e.dev
  (v.toNat % 2 ^ 32, v.toNat / 2 ^ 32)

/-- A correction: counted, a token in the bucket, and the device's count in 24 hours (R350). -/
def correction (d : Dev) (c dev day : Nat) : Dev :=
  let d1 := bump d (drc c 0x14) 1
  match d1.dram.chans[c]? with
  | none => d1
  | some x =>
    let depth := regBits d1 (drc c 0x10) 15 0
    let full := decide (depth ≤ x.bucket)
    let old := if x.devDay = day then x.devCorr else []
    let n := (getKey old dev).getD 0 + 1
    let d2 := modChan d1 c fun y =>
      { y with bucket := if full then y.bucket else y.bucket + 1, devCorr := putKey old dev n, devDay := day }
    let d3 := if full then raiseOp d2 0x0601 (.dram c) [c] else d2
    if n = regBits d3 (drc c 0x10) 31 16 + 1 then raiseOp d3 0x0603 (.dram c) [c, dev] else d3

/-- The data of a read leaves the channel. -/
def returnData (d : Dev) (c s : Nat) (r : DramReq) (v : BitVec 512) : Dev :=
  modSub d c s fun u => { u with flight := u.flight.filter fun q => q.ord ≠ r.ord, returned := u.returned ++ [(r.tag, v)] }

/-- A read's data wait: an alert stands, the replay runs, or its command has not left the alert window since (R346). -/
def dataWaits (u : SubCh) (r : DramReq) : Bool :=
  u.alert || !u.replay.isEmpty ||
  (u.replays ≠ 0 && u.retry.any fun k => match k.req with | some q => q.ord = r.ord | none => false)

/-- DRAM_READ_DATA. An injected error is found as a correction and goes with the write-back (R350, R351). -/
def readData (c s tag : Nat) (found : DramFind) (day : Nat) : Dev → Dev :=
  onSub c s fun x u d =>
    match u.flight.find? fun r => r.tag = tag with
    | none => d
    | some r =>
      if dataWaits u r then d
      else
        let inj := x.injected.find? fun p => p.1 = r.line
        let f := match found, inj with | .ok, some p => DramFind.corrected p.2 | g, _ => g
        let col := drawChoice d 1024
        let loc (dev : Nat) : ErrLoc := { sub := s, rank := r.rank, bank := r.bank, row := r.row, col := col.1, dev := dev }
        match f with
        | .ok => returnData d c s r (cellOf x r.line)
        | .corrected dev =>
          let d1 := modChan col.2 c fun y => { y with err := loc dev, injected := y.injected.filter fun p => p.1 ≠ r.line }
          returnData (correction d1 c dev day) c s r (cellOf x r.line)
        | .uncorrectable =>
          let e := loc 0
          let d1 := bump (modChan col.2 c fun y => { y with err := e }) (drc c 0x18) 1
          let d2 := raiseOp d1 0x0602 (.dram c) [c, (errLocs e).1, (errLocs e).2]
          returnData (if r.line * 64 < d2.folds.s then poisonLines d2 4 [r.line] else d2) c s r 0
        | .poison => returnData d c s r 0

/-- CE_BUCKET_LEAK. -/
def leakCe (c : Nat) (d : Dev) : Dev := modChan d c fun x => { x with bucket := x.bucket - 1 }

/-! ## Alerts (R346, R347) -/

/-- DRAM_ALERT: issue stops; an alert in a rate change ends the change at the old rate (R361). -/
def alert (c s : Nat) : Dev → Dev :=
  onSub c s fun x u d =>
    if x.st ≠ .ready && x.st ≠ .freqChange then d
    else if u.alert then d
    else
      let d1 := raiseOp (bump (modSub d c s fun v => { v with alert := true, replays := v.replays + 1, alertAt := v.cycle }) (drc c 0x1C) 1)
        0x0604 (.dram c) [c, s]
      if x.st = .freqChange then
        raiseOp (d1.modDram fun m =>
          { m with busy := false, result := .failed,
                   chans := m.chans.map fun y => if y.st = .freqChange then { y with st := .ready } else y }) 0x0607 (.dram 0) []
      else d1

/-- A channel enters FAULT: the DRAM contents are lost, the unit is fenced and returns only as a joiner with a full resync, or
as R275 has it. -/
def channelFault (c s : Nat) (d : Dev) : Dev :=
  let d1 := modChan d c fun x => { x with st := .fault, subs := x.subs.map fun _ => SubCh.reset }
  let w := reg d1 (drc c 0x28)
  let d2 := setReg d1 (drc c 0x28) (w &&& ~~~ (flag 31 true))
  let d3 := raiseOp d2 0x0605 (.dram c) [c, s]
  let d4 := if serving d3 then fence d3 else enterState (leavePair d3) .fenced
  (d4.modTwin fun t => { t with diverge := { active := true, full := true, leaves := [] } }).modDur fun u => { u with lost := true }

/-- DRAM_ALERT_RELEASE: all banks are precharged and the retry buffer is replayed; the fifth alert without a clean window is a
fault. -/
def alertRelease (c s : Nat) : Dev → Dev :=
  onSub c s fun _ u d =>
    if !u.alert then d
    else if 5 ≤ u.replays then channelFault c s d
    else modSub d c s fun v => { v with alert := false, rows := [], replay := v.retry ++ v.replay, retry := [] }

/-! ## Temperature (R352) -/

/-- DRAM_TEMP_READ: the hottest sensor; one that does not answer reads as 95 °C. -/
def dimmTemp (c : Nat) (temps : List (Option Nat)) (d : Dev) : Dev :=
  match d.dram.chans[c]? with
  | none => d
  | some x =>
    let t := temps.foldl (fun m s => max m (s.getD 95)) 0
    let hot := decide (regBits d (drc c 0x30) 15 8 < t)
    let d1 := modChan d c fun y => { y with temp := min t 0xFE, throttled := hot }
    if hot && !x.throttled then raiseOp d1 0x0608 (.dram c) [c, t] else d1

/-! ## Injection and the data rate (R351, R353, R354, R359) -/

/-- A write to DRC_INJ. -/
def armInj (c : Nat) (v : Word) (d : Dev) : Dev × Nat :=
  match d.dram.chans[c]? with
  | some x => if x.st = .fault then (d, 0) else (setReg d (drc c 0x28) (v &&& 0xFC00FFFF), 0)
  | none => (d, 0)

/-- Rates of the DIMM type in units of 100 MT/s (R333). -/
def rateFits (m : Dram) (r : Nat) : Bool := if m.mrdimm then r = 80 || r = 88 || r = 128 else r = 48 || r = 56 || r = 64

/-- DRC_FCHG.RATE_B: the shadow set of every channel takes the timings of the rate (R353). A rate that is not one of the DIMM
type changes nothing. -/
def loadRate (rate : Nat) (timings : List Word) (d : Dev) : Dev :=
  if !rateFits d.dram rate then d
  else
    let d1 := d.modDram fun m => { m with rateB := rate }
    (d1.dram.chans.zipIdx).foldl (fun a x =>
      (timings.take 32).zipIdx.foldl (fun b t => setReg b (drc x.2 ((if x.1.setB then 0x100 else 0x200) + 4 * t.2)) t.1) a) d1

/-- GO (R354, R359). -/
def rateGo (d : Dev) : Dev :=
  if d.dram.busy then d
  else if !(d.dram.chans.all fun c => c.st = .ready) then d.modDram fun m => { m with result := .badState }
  else if !d.dram.trained.contains d.dram.rateB then d.modDram fun m => { m with result := .notTrained }
  else d.modDram fun m => { m with busy := true, chans := m.chans.map fun c => { c with st := .freqChange } }

/-- RATE_CHANGE_COMPLETE: the sets exchange roles, or the old rate stands. -/
def rateDone (ok : Bool) (d : Dev) : Dev :=
  if !d.dram.busy then d
  else
    raiseOp (d.modDram fun m =>
      { m with busy := false, result := if ok then .done else .failed,
               rateA := if ok then m.rateB else m.rateA, rateB := if ok then m.rateA else m.rateB,
               chans := m.chans.map fun c =>
                 if c.st = .freqChange then
                   { c with st := .ready, setB := if ok then !c.setB else c.setB,
                            subs := c.subs.map fun u => { u with owed := u.owed.map fun _ => 0, burst := [], rows := [], retry := [] } }
                 else c }) 0x0607 (.dram 0) []

/-! ## The rows -/

/-- DRAM_REQUEST (R338). -/
def execDramRequest (chan sub tag dport : Nat) (isWrite : Bool) (line rank bank row now : Nat) (data : BitVec 512)
    (s : State) : Res :=
  let r : DramReq :=
    { tag := tag, port := dport, write := isWrite, line := line, rank := rank, bank := bank, row := row, arrive := now, ord := 0,
      urg := 0, data := data }
  onDev (dramAsk chan sub r) s

/-- DRAM_COMMAND_ISSUE (R340). -/
def execDramCommandIssue (chan sub now : Nat) (s : State) : Res := onDev (issueSlot chan sub now) s
/-- URGENCY_RAISE (R339). -/
def execUrgencyRaise (chan sub now : Nat) (s : State) : Res := onDev (raiseUrgency chan sub now) s
/-- REFRESH_DUE (R341). -/
def execRefreshDue (chan sub rank : Nat) (s : State) : Res := onDev (refreshDue chan sub rank) s
/-- ROW_IDLE_PRECHARGE (R335). -/
def execRowIdlePrecharge (chan sub rank bank : Nat) (s : State) : Res := onDev (rowIdle chan sub rank bank) s
/-- DRAM_READ_DATA (R350). -/
def execDramReadData (chan sub tag : Nat) (found : DramFind) (day : Nat) (s : State) : Res :=
  onDev (readData chan sub tag found day) s
/-- DRAM_ALERT (R346). -/
def execDramAlert (chan sub : Nat) (s : State) : Res := onDev (alert chan sub) s
/-- DRAM_ALERT_RELEASE (R346). -/
def execDramAlertRelease (chan sub : Nat) (s : State) : Res := onDev (alertRelease chan sub) s
/-- DRAM_TEMP_READ (R352). -/
def execDramTempRead (chan : Nat) (temps : List (Option Nat)) (s : State) : Res := onDev (dimmTemp chan temps) s
/-- CE_BUCKET_LEAK (R350). -/
def execCeBucketLeak (chan : Nat) (s : State) : Res := onDev (leakCe chan) s
/-- DRC_INJ_ARM (R351). -/
def execDrcInjArm (p : Principal) (chan : Nat) (value : Word) (s : State) : Res :=
  onDev (command p (drc chan 0x28) (armInj chan value)) s
/-- RATE_B_LOAD (R353). -/
def execRateBLoad (p : Principal) (rate : Nat) (timings : List Word) (s : State) : Res :=
  onDev (command p (drc 0 0x80) fun d => (loadRate rate timings d, 0)) s
/-- GO (R354). -/
def execGo (p : Principal) (s : State) : Res := onDev (command p (drc 0 0x80) fun d => (rateGo d, 0)) s
/-- RATE_CHANGE_COMPLETE (R354). -/
def execRateChangeComplete (ok : Bool) (s : State) : Res := onDev (rateDone ok) s

end Sys2Proof.Machine
end

