-- ==== Sys2Proof/Machine/Hall.lean ====
section
/-! DEFINITION. The hall cache, the pens and the on-chip arrays: coherence between pens and slices, eviction and the victim cache,
the commands of HAL_CMD, and the handling of array errors (R362 to R389). -/
namespace Sys2Proof.Machine

/-- VICTIM_WRITEBACK_ACK: the entry may be overwritten. -/
def victimAck (s line : Nat) (d : Dev) : Dev :=
  match d.hall.slices[s]? with
  | none => d
  | some u =>
    match u.victim.find? fun v => v.entry.line = line && v.wb with
    | none => d
    | some v =>
      modSlice (toFrame d line v.entry.data) s fun w =>
        { w with victim := w.victim.map fun x =>
            if x.entry.line = line then { entry := { x.entry with modified := false }, wb := false } else x }

/-! ## Coherence transactions (R365 to R367, R371) -/

/-- What a fill of a line finds: a recall from the victim cache, or the frame (R369). -/
def fetchLine (d : Dev) (s line : Nat) : Dev :=
  match d.hall.slices[s]? with
  | none => d
  | some u =>
    match u.victim.find? fun v => v.entry.line = line with
    | some v =>
      let d1 := if v.wb then toFrame d line v.entry.data else d
      modSlice d1 s fun w => touchLine { w with victim := w.victim.filter fun x => x.entry.line ≠ line } v.entry
    | none =>
      let x := frameOf d.hall line
      let e : SliceLine :=
        { line := line, data := x, check := checkOf line x, poison := d.dur.poison.contains line, modified := false, presence := 0,
          owner := none }
      modSlice d s fun w => touchLine w e

/-- Start a transaction: every pen to snoop is sent SNP_INV. -/
def beginTxn (d : Dev) (s line pen : Nat) (owned : Bool) (snoop : List Nat) : Dev :=
  modSlice d s fun w => { w with txns := w.txns ++ [{ line := line, pen := pen, owned := owned, snoop := snoop, seen := [], expectEvict := [] }] }

/-- The line is granted, and its DATA leaves behind what the slice has sent before (R29, R366). -/
def grantLine (d : Dev) (s line pen : Nat) (owned : Bool) : Dev :=
  modSlice d s fun w =>
    match findLine w line with
    | none => w
    | some e =>
      let e1 := { e with presence := e.presence ||| (1#16 <<< pen), owner := if owned then some pen else none }
      { touchLine w e1 with msgs := w.msgs ++ [.data line pen owned] }

/-- Serve a request at its slice: none when it has to wait (R365, R367, R369). -/
def tryReq (d : Dev) (s line pen : Nat) (owned : Bool) : Option Dev :=
  match d.hall.slices[s]? with
  | none => none
  | some u =>
    if (u.txns.any fun t => t.line = line) || d.hall.run = some .flushDisable then none
    else
      match findLine u line with
      | some e =>
        let snoop := if owned then (holders e).filter fun p => p ≠ pen
          else match e.owner with | some q => if q = pen then [] else [q] | none => []
        some (if snoop.isEmpty then grantLine d s line pen owned else beginTxn d s line pen owned snoop)
      | none =>
        if (sameSet u line).length < 12 then some (grantLine (fetchLine d s line) s line pen owned)
        else
          match victimWay d u line with
          | none => none
          | some e =>
            if u.txns.any fun t => t.line = e.line then none
            else if (holders e).isEmpty then
              (evictLine d s u e).map fun d1 => grantLine (fetchLine d1 s line) s line pen owned
            else none

/-- A request that cannot be served waits; where the way to evict is held in pens, the slice snoops them first. -/
def askLine (d : Dev) (s line pen : Nat) (owned : Bool) : Dev :=
  match tryReq d s line pen owned with
  | some d1 => d1
  | none =>
    let d1 := modSlice d s fun w => { w with wait := w.wait ++ [(line, pen, owned)] }
    match d1.hall.slices[s]? with
    | none => d1
    | some u =>
      if (findLine u line).isSome || (sameSet u line).length < 12 || (u.txns.any fun t => t.line = line) then d1
      else
        match victimWay d1 u line with
        | none => d1
        | some e =>
          if (holders e).isEmpty || (u.txns.any fun t => t.line = e.line) then d1
          else beginTxn d1 s e.line 16 false (holders e)

/-- Requests that waited are served in order as far as they can. -/
def pumpWait (d : Dev) (s : Nat) : Dev :=
  match d.hall.slices[s]? with
  | none => d
  | some u =>
    u.wait.foldl (fun a r => askLine a s r.1 r.2.1 r.2.2) (modSlice d s fun w => { w with wait := [] })

/-- A transaction whose answers are all in ends (R371). -/
def finishTxn (d : Dev) (s line : Nat) : Dev :=
  match d.hall.slices[s]? with
  | none => d
  | some u =>
    match u.txns.find? fun t => t.line = line && t.snoop.isEmpty && t.expectEvict.isEmpty with
    | none => d
    | some t =>
      let d1 := modSlice d s fun w => { w with txns := w.txns.filter fun x => x.line ≠ line }
      let d2 := if t.pen < 16 then grantLine d1 s line t.pen t.owned else d1
      pumpWait d2 s

/-- A pen's request reaches the home slice: none for a line that its eviction buffer holds (R367). -/
def penAsk (pen line : Nat) (owned : Bool) (d : Dev) : Dev :=
  match d.hall.pens[pen]? with
  | none => d
  | some p =>
    if !halEn d || !penMayHold d line || p.evict.any (fun e => e.line = line) then d
    else askLine d (sliceOf line) line pen owned

/-- A line of a pen's set leaves it: an M line goes to the eviction buffer of 16, an S line without notice (R365, R367). -/
def penRoom (p : Pen) (line : Nat) : Option Pen :=
  let ways := p.lines.filter fun x => Config.penSet x.line % 4096 = Config.penSet line % 4096
  if ways.length < 8 then some p
  else
    match ways.reverse.head? with
    | none => some p
    | some e =>
      if e.st = .shared then some { p with lines := p.lines.filter fun x => x.line ≠ e.line }
      else if p.evict.length < 16 then
        some { p with lines := p.lines.filter fun x => x.line ≠ e.line, evict := p.evict ++ [e] }
      else none

/-- The pen that a response goes to. -/
def msgPen : SliceMsg → Nat
  | .data _ p _ => p
  | .evictAck _ p => p

/-- The next response of a slice that reaches a pen: the oldest one (R29). -/
def nextMsg (u : Slice) (pen : Nat) : Option SliceMsg := u.msgs.find? fun m => msgPen m = pen

/-- A response has been delivered. -/
def dropMsg (d : Dev) (s : Nat) (m : SliceMsg) : Dev := modSlice d s fun w => { w with msgs := w.msgs.erase m }

/-- DATA arrives at the pen. A grant that a snoop has overtaken in its own channel is given up, so that the slice goes on holding every
line that a pen holds (R365; DEDUCED, assumption 63). -/
def penData (pen line : Nat) (d : Dev) : Dev :=
  let s := sliceOf line
  match d.hall.pens[pen]?, d.hall.slices[s]? with
  | some p, some u =>
    match nextMsg u pen, findLine u line with
    | some (.data l q own), some e =>
      if l ≠ line then d
      else if !e.presence.getLsbD pen then dropMsg d s (.data l q own)
      else
        (match penRoom { p with lines := p.lines.filter fun x => x.line ≠ line } line with
         | none => d
         | some p1 =>
           let x : PenLine := { line := line, st := if own then .owned else .shared, data := e.data, check := e.check }
           modPen (dropMsg d s (.data l q own)) pen fun _ => { p1 with lines := x :: p1.lines })
    | some (.data l q own), none => if l = line then dropMsg d s (.data l q own) else d
    | _, _ => d
  | _, _ => d

/-- The line of the oldest SNP_INV of a slice that is on its way to a pen (R29). -/
def nextSnoop (u : Slice) (pen : Nat) : Option Nat :=
  (u.txns.find? fun t => t.snoop.contains pen && !t.seen.contains pen).map fun t => t.line

/-- SNP_INV arrives at the pen: the line is given up; one in the eviction buffer stays (R371). -/
def penSnoop (pen line : Nat) (d : Dev) : Dev :=
  match d.hall.slices[sliceOf line]? with
  | none => d
  | some u =>
    if nextSnoop u pen = some line then
      modPen (modSlice d (sliceOf line) fun w =>
        { w with txns := w.txns.map fun t => if t.line = line then { t with seen := t.seen ++ [pen] } else t }) pen fun p =>
          { p with lines := p.lines.filter fun x => x.line ≠ line }
    else d

/-- The slice's copy takes data from a pen: it is modified, and the pen holds it no longer. -/
def takeBack (w : Slice) (line pen : Nat) (data : Option (BitVec 512)) : Slice :=
  match findLine w line with
  | none => w
  | some e =>
    let e1 := { e with presence := e.presence &&& ~~~ (1#16 <<< pen), owner := if e.owner = some pen then none else e.owner }
    touchLine w (match data with
      | some v => { e1 with data := v, check := checkOf line v, modified := true }
      | none => e1)

def dropSnoop (t : Txn) (pen : Nat) : Txn := { t with snoop := t.snoop.filter fun p => p ≠ pen }

/-- The line of the oldest SNP_ACK of a pen that is on its way to a slice (R29). -/
def nextAnswer (u : Slice) (pen : Nat) : Option Nat :=
  (u.txns.find? fun t => t.snoop.contains pen && t.seen.contains pen).map fun t => t.line

/-- SNP_ACK arrives at the slice (R366, R371). -/
def snoopAnswer (pen line : Nat) (ans : SnpAnswer) (bytes : BitVec 512) (d : Dev) : Dev :=
  let s := sliceOf line
  match d.hall.slices[s]? with
  | none => d
  | some u =>
    if nextAnswer u pen = some line then
      let d1 := modSlice d s fun w =>
        let w1 := { w with txns := w.txns.map fun t => if t.line = line then
          (if ans = .evicting then { dropSnoop t pen with expectEvict := t.expectEvict ++ [pen] } else dropSnoop t pen) else t }
        match ans with
        | .notHeld => takeBack w1 line pen none
        | .data => takeBack w1 line pen (some bytes)
        | .evicting => w1
      finishTxn d1 s line
    else if ans = .evicting && u.discard.contains (line, pen) then
      modSlice d s fun w => { w with discard := w.discard.erase (line, pen) }
    else d

/-- The slice's owner field names the pen. -/
def ownedBy (u : Slice) (line pen : Nat) : Bool := match findLine u line with | some x => decide (x.owner = some pen) | none => false

/-- The oldest EVICT of a pen that is on its way to a slice (R29): the slice still holds the pen for the line's owner. -/
def nextEvict (u : Slice) (p : Pen) (s pen : Nat) : Option PenLine :=
  p.evict.find? fun e => sliceOf e.line = s && ownedBy u e.line pen

/-- EVICT arrives at the slice: the answer to an outstanding snoop, or a line given back; EVICT_ACK leaves (R367, R371). -/
def evictArrives (pen line : Nat) (d : Dev) : Dev :=
  let s := sliceOf line
  match d.hall.pens[pen]?, d.hall.slices[s]? with
  | some p, some u =>
    match nextEvict u p s pen with
    | none => d
    | some e =>
      if e.line ≠ line then d
      else
        let asked := u.txns.any fun t => t.line = line && t.snoop.contains pen
        let d1 := modSlice d s fun w =>
          takeBack { w with
            txns := w.txns.map fun t =>
              if t.line = line then { dropSnoop t pen with expectEvict := t.expectEvict.filter fun q => q ≠ pen } else t,
            discard := if asked then w.discard ++ [(line, pen)] else w.discard } line pen (some e.data)
        modSlice (finishTxn d1 s line) s fun w => { w with msgs := w.msgs ++ [.evictAck line pen] }
  | _, _ => d

/-- EVICT_ACK arrives at the pen: the slice holds the data, so the buffer entry is free. -/
def evictAcked (pen line : Nat) (d : Dev) : Dev :=
  match d.hall.slices[sliceOf line]? with
  | none => d
  | some u =>
    if nextMsg u pen = some (.evictAck line pen) then
      modPen (dropMsg d (sliceOf line) (.evictAck line pen)) pen fun p =>
        { p with evict := p.evict.filter fun e => e.line ≠ line }
    else d

/-! ## Write-back, invalidation and enabling (R372 to R374) -/

/-- Every M line of a pen goes back to its home slice (R374); its S lines go without notice, and what was on its way to the pen is
gone. -/
def recallPen (d : Dev) (pen : Nat) : Dev :=
  match d.hall.pens[pen]? with
  | none => d
  | some p =>
    let d1 := (p.evict ++ p.lines.filter fun x => x.st = .owned).foldl
      (fun a e => modSlice a (sliceOf e.line) fun w => takeBack w e.line pen (some e.data)) d
    let d2 := d1.modHall fun h =>
      { h with slices := h.slices.map fun u => { u with msgs := u.msgs.filter fun m => msgPen m ≠ pen } }
    modPen d2 pen fun _ => { lines := [], evict := [] }

/-- Write every modified line of the slices, the victim caches and the pens to its frame; poisoned ones stay poisoned. -/
def writeBackAll (d : Dev) : Dev :=
  let mods := d.hall.slices.flatMap fun u =>
    (u.victim.filter fun v => v.entry.modified).map (fun v => (v.entry.line, v.entry.data)) ++
    (u.lines.filter fun e => e.modified).map fun e => (e.line, e.data)
  let pens := d.hall.pens.flatMap fun p => (p.lines.filter fun x => x.st = .owned).map (fun x => (x.line, x.data)) ++
    p.evict.map fun x => (x.line, x.data)
  let d1 := (mods ++ pens).foldl (fun a x => toFrame a x.1 x.2) d
  d1.modHall fun h =>
    { h with slices := h.slices.map fun u =>
        { u with lines := u.lines.map fun e =>
                   match pens.find? fun x => x.1 = e.line with
                   | some x => { e with data := x.2, check := checkOf e.line x.2, modified := false }
                   | none => { e with modified := false },
                 victim := u.victim.map fun v => { entry := { v.entry with modified := false }, wb := false } } }

/-- Every entry of every slice, victim cache and pen is I. -/
def invalidateAll (h : Hall) : Hall :=
  { h with pens := h.pens.map fun _ => { lines := [], evict := [] },
           slices := h.slices.map fun _ => { lines := [], victim := [], txns := [], wait := [], discard := [], msgs := [] },
           leftover := false }

/-- A HAL_CMD is written (R373, R385). -/
def halCmd (c : HalCmd) (d : Dev) : Dev × Nat :=
  if d.hall.run.isSome then (d, 0)
  else if d.dur.save ≠ .idle || (c = .invalidate && halEn d) then (d.modHall fun h => { h with lastBad := true }, 0)
  else (d.modHall fun h => { h with run := some c, lastBad := false }, 0)

/-- A HAL_CMD has run. -/
def halDone (d : Dev) : Dev :=
  match d.hall.run with
  | none => d
  | some .invalidate => d.modHall fun h => { invalidateAll h with run := none, invDone := true }
  | some .flush => (writeBackAll d).modHall fun h => { h with run := none }
  | some .flushDisable =>
    let d1 := (writeBackAll d).modHall fun h =>
      { invalidateAll h with run := none, invDone := false, leftover := true }
    setReg d1 0x100000 (reg d1 0x100000 &&& ~~~ (flag 31 true))

/-- A write to HAL_CTRL: EN 0 has no effect. A cache enabled over leftover tags may write one of them back: the line it names,
which the spec leaves open, is then poisoned by a failed line check (R372). -/
def halCtrl (v : Word) (d : Dev) : Dev × Nat :=
  let old := reg d 0x100000
  let on := v.getLsbD 31 && !old.getLsbD 31
  let d1 := setReg d 0x100000 ((old &&& flag 31 true) ||| (v &&& 0xC0000000))
  if on && d.hall.leftover && !d.hall.invDone then
    let c := drawChoice d1 2
    let l := draw64 c.2
    (if c.1 = 1 && d.folds.formatted then poisonLines l.2 1 [l.1.toNat % (d.folds.s / 64)] else l.2, 0)
  else (d1, 0)

/-! ## Array errors (R375 to R379) -/

/-- Kinds by their numbers in HAL_ECC_SEL (R383). -/
def kindNo : ArrayKind → Nat
  | .slice => 0 | .victim => 1 | .landing => 2 | .pen => 3 | .context => 4 | .handle => 5 | .drover => 6 | .shepherd => 7
  | .sliceTags => 8 | .penTags => 9

/-- Instances of an array, and the 64-bit words of each (R32, R43, R362): the tags of a slice or pen have one word a line. -/
def arraySize : ArrayKind → Nat × Nat
  | .slice => (16, 786432) | .victim => (16, 16384) | .landing => (16, 131072) | .pen => (16, 262144) | .context => (16, 131072)
  | .handle => (16, 131072) | .drover => (192, 8192) | .shepherd => (1, 32768) | .sliceTags => (16, 98304) | .penTags => (16, 32768)

/-- The device has the array instance. -/
def hasArray (k : ArrayKind) (n : Nat) : Bool := decide (n < (arraySize k).1)

/-- The source of an array instance's events (R498). -/
def arraySource (k : ArrayKind) (n : Nat) : EvSource :=
  match k with
  | .slice | .victim | .sliceTags => .slice n
  | .landing => .port n
  | .pen | .context | .handle | .penTags => .gallery n
  | .drover => .gallery (n / 12)
  | .shepherd => srcSHP

/-- The counters of an array instance; one that is not listed has counted nothing. -/
def arrayOf (h : Hall) (k : ArrayKind) (n : Nat) : ArrayInst :=
  (h.arrays.find? fun a => a.kind = k && a.inst = n).getD
    { kind := k, inst := n, ce := 0, ue := 0, bucket := 0, merge := [], words := [], bad := [], scrub := 0 }

def setArray (d : Dev) (a : ArrayInst) : Dev :=
  d.modHall fun h => { h with arrays := (h.arrays.filter fun x => !(x.kind = a.kind && x.inst = a.inst)) ++ [a] }

/-- A word was corrected: counted, and a token; a full bucket raises 0x0701 and empties (R378). -/
def wordCorrected (d : Dev) (k : ArrayKind) (n : Nat) : Dev :=
  let a := arrayOf d.hall k n
  let full := decide (regBits d 0x100010 31 24 ≤ a.bucket)
  let d1 := setArray d { a with ce := satAdd a.ce 1, bucket := if full then 0 else a.bucket + 1 }
  if full then raiseOp d1 0x0701 (arraySource k n) [kindNo k, n] else d1

/-- The unit is fenced as for a DRAM channel FAULT (R347, R377). -/
def arrayFault (d : Dev) (pen : Bool) : Dev :=
  let d1 := d.modHall fun h => { h with sliceFault := h.sliceFault || !pen, penFault := h.penFault || pen }
  let d2 := raiseOp d1 0x0705 (.slice 0) []
  let d3 := if serving d2 then fence d2 else enterState (leavePair d2) .fenced
  (d3.modTwin fun t => { t with diverge := { active := true, full := true, leaves := [] } }).modDur fun u => { u with lost := true }

/-- A line's copy in a slice or victim cache cannot be read: a clean one is refetched, a modified one is poisoned (R294). A dirty
line that the model's slices do not list may stand there modified or not: a free choice. -/
def badLine (d : Dev) (line : Nat) : Dev :=
  let s := sliceOf line
  let entry := match d.hall.slices[s]? with
    | some u => (match findLine u line with
      | some e => some e.modified
      | none => (u.victim.find? fun v => v.entry.line = line).map fun v => v.entry.modified)
    | none => none
  let c := drawChoice d 2
  let (isMod, d1) : Bool × Dev := match entry with
    | some m => (m, d)
    | none => if d.dur.dirty.contains line then (decide (c.1 = 1), c.2) else (false, d)
  if isMod then poisonLines d1 3 [line]
  else if entry.isSome then
    let v := frameOf d1.hall line
    modSlice d1 s fun w => match findLine w line with
      | some e => touchLine w { e with data := v, check := checkOf line v }
      | none => w
  else d1

/-- A pen's copy cannot be read: a clean one is refetched from its slice, a modified one is poisoned. -/
def badPenLine (d : Dev) (pen line : Nat) : Dev :=
  match d.hall.pens[pen]? with
  | none => d
  | some p =>
    match p.lines.find? fun x => x.line = line with
    | none => d
    | some x =>
      if x.st = .owned then poisonLines (modPen d pen fun q => { q with lines := q.lines.filter fun y => y.line ≠ line }) 3 [line]
      else
        let v := match d.hall.slices[sliceOf line]? with
          | some u => (match findLine u line with | some e => e.data | none => frameOf d.hall line)
          | none => x.data
        modPen d pen fun q => { q with lines := q.lines.map fun y => if y.line = line then { y with data := v } else y }

/-- The shepherd restarts from its ROM (R377): the ledger interface and a running calibration are forgotten; RWS registers and the
ledger stay. -/
def shepherdRestart (d : Dev) : Dev :=
  raiseOp (({ d with latches := [] }.modLdg fun l => { l with seq := .idle, owner := none }).modPwr fun p => { p with calBusy := false })
    0x0707 srcSHP []

/-- Frames that a landing keeps until they are acknowledged: connection, path and frame. -/
def retained (d : Dev) (port : Nat) : List (Nat × Nat × Unacked) :=
  d.net.conns.flatMap fun x =>
    (List.range x.2.paths.length).flatMap fun i =>
      if pathPort d x.1 x.2 i = port then
        (match x.2.paths[i]? with | some p => (p.unacked.filter fun u => !u.got).map fun u => (x.1, i, u) | none => [])
      else []

/-- An uncorrectable word of a landing: of an arriving frame, which is dropped, or of a retained one, whose content the gallery sends
again under its PSN with a new TXC (R377). Which frame holds the word is a free choice. -/
def landingBad (d : Dev) (port : Nat) : Dev :=
  let all := retained d port
  let c := drawChoice d (all.length + 1)
  match all[c.1]? with
  | some (n, path, u) => guardTxc (resend c.2 n path u) n
  | none => c.2

/-- What an uncorrectable word of an array causes (R377). -/
def arrayBad (d : Dev) (k : ArrayKind) (n line : Nat) : Dev :=
  match k with
  | .slice | .victim => badLine d line
  | .pen => badPenLine d n line
  | .landing => landingBad d n
  | .context =>
    let c := drawChoice d 2
    if homeOf line = n && c.1 = 1 then toError c.2 line 0x15 else c.2
  | .handle =>
    d.modFolds fun f => { f with caches := f.caches.map fun x => if x.1 = n then (x.1, x.2.eraseIdx (line % max 1 x.2.length)) else x }
  | .drover => d.modHall fun h => { h with stopped := addNum h.stopped n }
  | .shepherd => shepherdRestart d
  | .sliceTags => arrayFault d false
  | .penTags => arrayFault d true

/-- The outcome of reading a word of an array (R375, R377, R378). 0x0702 carries the outcome, for which the spec gives no code:
a free value. -/
def readWord (d : Dev) (k : ArrayKind) (n line : Nat) (f : WordFind) : Dev :=
  match f with
  | .ok => d
  | .corrected => wordCorrected d k n
  | .oneCopy =>
    if k = .sliceTags || k = .penTags then
      raiseOp (setArray d { arrayOf d.hall k n with ue := satAdd (arrayOf d.hall k n).ue 1 }) 0x0703 (arraySource k n) [kindNo k, n]
    else d
  | .uncorrectable =>
    let o := draw32 d
    arrayBad (raiseOp (setArray o.2 { arrayOf d.hall k n with ue := satAdd (arrayOf d.hall k n).ue 1 }) 0x0702 (arraySource k n)
      [kindNo k, n, o.1.toNat]) k n line

/-- The bytes of a merge entry laid over a word. -/
def mergeWord (old : BitVec 64) (mask : BitVec 8) (bytes : BitVec 64) : BitVec 64 :=
  (List.range 8).foldl (fun w i =>
    if mask.getLsbD i then
      let m := (0xFF#64) <<< (8 * i)
      (w &&& ~~~ m) ||| (bytes &&& m)
    else w) old

/-- Retire a merge entry: a read-modify-write; an uncorrectable word stays uncorrectable (R376). -/
def retireEntry (d : Dev) (k : ArrayKind) (n word : Nat) (f : WordFind) : Dev :=
  let a := arrayOf d.hall k n
  match a.merge.find? fun e => e.1 = word with
  | none => d
  | some e =>
    let v := mergeWord ((getKey a.words word).getD 0) e.2.1 e.2.2
    let bad := f = .uncorrectable
    let a1 := { a with merge := a.merge.filter fun x => x.1 ≠ word, words := putKey a.words word v,
                       bad := if bad then addNum a.bad word else a.bad.filter fun x => x ≠ word }
    readWord (setArray d a1) k n (word / 8) f

/-- A narrow write (R376): bytes merge into the word's entry, later bytes win; a new entry may retire the oldest; a full mask is
written as a full word. -/
def narrowWrite (d : Dev) (k : ArrayKind) (n word : Nat) (mask : BitVec 8) (bytes : BitVec 64) : Dev :=
  let a := arrayOf d.hall k n
  let old := (a.merge.find? fun e => e.1 = word).map fun e => e.2
  let d1 := if old.isNone && 8 ≤ a.merge.length then
      (match a.merge.head? with | some e => retireEntry d k n e.1 .ok | none => d) else d
  let b := arrayOf d1.hall k n
  let m := match old with | some o => o.1 ||| mask | none => mask
  let v := match old with | some o => mergeWord o.2 mask bytes | none => bytes
  if m = 0xFF then
    setArray d1 { b with merge := b.merge.filter fun x => x.1 ≠ word, words := putKey b.words word v, bad := b.bad.filter fun x => x ≠ word }
  else setArray d1 { b with merge := (b.merge.filter fun x => x.1 ≠ word) ++ [(word, m, v)] }

/-- MERGE_ENTRY_RETIRE: an entry idle for 32 cycles. The entry is the narrow write of some unit of the array, which no command
presents; one that the model does not list comes with free bytes. -/
def mergeRetire (k : ArrayKind) (n word : Nat) (f : WordFind) (d : Dev) : Dev :=
  if !hasArray k n || (arraySize k).2 ≤ word then d
  else if (arrayOf d.hall k n).merge.any fun e => e.1 = word then retireEntry d k n word f
  else
    let b := draw64 d
    let m := drawChoice b.2 255
    retireEntry (narrowWrite m.2 k n word (BitVec.ofNat 8 m.1) b.1) k n word f

/-- SCRUB_READ (R379): the next word of the array is read; an entry of the merge buffer for it retires first (R376). -/
def scrub (k : ArrayKind) (n : Nat) (f : WordFind) (line : Nat) (d : Dev) : Dev :=
  if !hasArray k n then d
  else
    let w := (arrayOf d.hall k n).scrub
    let d1 := if (arrayOf d.hall k n).merge.any fun e => e.1 = w then retireEntry d k n w .ok else d
    let a := arrayOf d1.hall k n
    readWord (setArray d1 { a with scrub := (w + 1) % (arraySize k).2 }) k n line f

/-- ECC_BUCKET_LEAK (R378). -/
def leakEcc (k : ArrayKind) (n : Nat) (d : Dev) : Dev :=
  let a := arrayOf d.hall k n
  if hasArray k n then setArray d { a with bucket := a.bucket - 1 } else d

/-- DROVER_RELOAD_COMPLETE: 0x0706, and the drover goes on (R377). -/
def droverReload (n : Nat) (d : Dev) : Dev :=
  if d.hall.stopped.contains n then
    raiseOp (d.modHall fun h => { h with stopped := h.stopped.filter fun x => x ≠ n }) 0x0706 (.gallery (n / 12)) [n]
  else d

/-! ## The rows -/

/-- GET_S (R366). -/
def execGetS (pen line : Nat) (s : State) : Res := onDev (penAsk pen line false) s
/-- GET_M (R366). -/
def execGetM (pen line : Nat) (s : State) : Res := onDev (penAsk pen line true) s
/-- DATA (R366). -/
def execData (pen line : Nat) (s : State) : Res := onDev (penData pen line) s
/-- SNP_INV (R371). -/
def execSnpInv (pen line : Nat) (s : State) : Res := onDev (penSnoop pen line) s
/-- SNP_ACK (R371). -/
def execSnpAck (pen line : Nat) (answer : SnpAnswer) (bytes : BitVec 512) (s : State) : Res :=
  onDev (snoopAnswer pen line answer bytes) s
/-- EVICT (R371). -/
def execEvict (pen line : Nat) (s : State) : Res := onDev (evictArrives pen line) s
/-- EVICT_ACK (R367). -/
def execEvictAck (pen line : Nat) (s : State) : Res := onDev (evictAcked pen line) s
/-- VICTIM_WRITEBACK_ACK (R369). -/
def execVictimWritebackAck (slice line : Nat) (s : State) : Res := onDev (fun d => pumpWait (victimAck slice line d) slice) s
/-- INVALIDATE (R372). -/
def execInvalidate (p : Principal) (s : State) : Res := onDev (command p 0x100004 (halCmd .invalidate)) s
/-- FLUSH (R385). -/
def execFlush (p : Principal) (s : State) : Res := onDev (command p 0x100004 (halCmd .flush)) s
/-- FLUSH_DISABLE (R373). -/
def execFlushDisable (p : Principal) (s : State) : Res := onDev (command p 0x100004 (halCmd .flushDisable)) s
/-- HAL_CMD_COMPLETE (R385). -/
def execHalCmdComplete (s : State) : Res := onDev halDone s
/-- HAL_CTRL_WRITE (R373). -/
def execHalCtrlWrite (p : Principal) (value : Word) (s : State) : Res := onDev (command p 0x100000 (halCtrl value)) s
/-- MERGE_ENTRY_RETIRE (R376). -/
def execMergeEntryRetire (kind : ArrayKind) (inst word : Nat) (found : WordFind) (s : State) : Res :=
  onDev (mergeRetire kind inst word found) s
/-- SCRUB_READ (R379). -/
def execScrubRead (kind : ArrayKind) (inst : Nat) (found : WordFind) (line : Nat) (s : State) : Res :=
  onDev (scrub kind inst found line) s
/-- ECC_BUCKET_LEAK (R378). -/
def execEccBucketLeak (kind : ArrayKind) (inst : Nat) (s : State) : Res := onDev (leakEcc kind inst) s
/-- DROVER_RELOAD_COMPLETE (R377). -/
def execDroverReloadComplete (drover : Nat) (s : State) : Res := onDev (droverReload drover) s
/-- SHEPHERD_SRAM_RESTART (R377). -/
def execShepherdSramRestart (s : State) : Res := onDev shepherdRestart s

end Sys2Proof.Machine
end

