-- ==== Sys2Proof/Machine/Supply.lean ====
section
/-! DEFINITION. The power supervisor's shared operations: states, the sequence's registers, rail windows, snapshots, faults and
the steps of a power-up and a power-down (R471 to R483). -/
namespace Sys2Proof.Machine

/-- PWR_STATE.STATE and CAUSE (R494). -/
def pwrStateNo : PwrState → Nat
  | .off => 0 | .rampUp => 1 | .on => 2 | .saving => 3 | .rampDown => 4 | .fault => 5
def causeNo : OffCause → Nat
  | .none => 0 | .mainOk => 1 | .cmdOff => 2 | .seqFault => 3 | .railSeq => 4 | .railCut => 5 | .trip => 6 | .holdLimit => 7

/-- A signed number in 32 bits. -/
def signed32 (n : Int) : Word := BitVec.ofInt 32 n

/-- The hottest valid on-die sensor, in units of 0.125 °C, and its index (R487, R493). -/
def hottest (d : Dev) : Int × Nat :=
  (d.pwr.sensors.zipIdx).foldl (fun b x => if b.1 < x.1 then x else b) (d.pwr.sensors.headD 0, 0)

/-- The 40 bytes of a snapshot (R481). -/
def snapBytes (d : Dev) (cause : OffCause) (rail : Nat) : List Byte :=
  let p := d.pwr
  leBytes 4 (d.clock / 1000 % 2 ^ 32) ++ leBytes 1 (causeNo cause) ++ leBytes 1 (p.step * 16 + rail % 8) ++ leBytes 2 0 ++
  (List.range 8).flatMap (fun i => leBytes 2 (p.railMv.getD i 0)) ++ leBytes 2 (d.dur.holdV / 10) ++
  leBytes 2 (signed32 (p.holdI / 100)).toNat ++ leBytes 2 (signed32 (hottest d).1).toNat ++
  leBytes 1 (signed32 p.thold).toNat ++ leBytes 1 (pwrStateNo p.st) ++ leBytes 2 p.en.toNat ++ leBytes 2 p.pg.toNat ++ leBytes 4 0

/-- The cause is a fault of a rail, which PWR_STATE.RAIL keeps (R494). -/
def railCause : OffCause → Bool
  | .seqFault | .railSeq | .railCut => true
  | _ => false

/-- Record a snapshot in PWR_SNAP0 to PWR_SNAP9, with the cause, and the rail of a rail fault (R481). -/
def takeSnap (d : Dev) (cause : OffCause) (rail : Nat) : Dev :=
  let b := snapBytes d cause rail
  d.modPwr fun p =>
    { p with snap := (List.range 10).map fun k => BitVec.ofNat 32 (leNat ((b.drop (4 * k)).take 4)), cause := cause,
               rail := if railCause cause then rail else p.rail }

/-- The payload of an event that carries the snapshot (R481, R501). -/
def snapPayload (d : Dev) : List Byte := d.pwr.snap.flatMap fun w => leBytes 4 w.toNat

/-- Enter a power state: 0x010C with the old and the new state and CAUSE (R496). -/
def setPwr (d : Dev) (st : PwrState) : Dev :=
  if d.pwr.st = st then d
  else raiseOp (d.modPwr fun p => { p with st := st }) 0x010C srcPWR [pwrStateNo d.pwr.st, pwrStateNo st, causeNo d.pwr.cause]

/-! ## Lines (R473, R474) -/

def setLine (w : BitVec 16) (i : Nat) (b : Bool) : BitVec 16 :=
  if b then w ||| (1#16 <<< i) else w &&& ~~~ (1#16 <<< i)

/-- PWR_EN[14] while the main input stands and no discharge test runs, PWR_EN[15] in a discharge test (R473). -/
def chargerLines (d : Dev) : Dev :=
  d.modPwr fun p =>
    { p with en := setLine (setLine p.en 14 (d.dur.mainOk && d.dur.test ≠ .running)) 15 (d.dur.test = .running) }

/-- Every line low but the charger's (R471, R480). -/
def dropLines (d : Dev) : Dev :=
  d.modPwr fun p => { p with en := p.en &&& 0x4000, pg := p.pg &&& 0x4000, inWin := p.inWin &&& 0xC0 }

/-! ## The sequence (R474, R475, R476) -/

def seqA (d : Dev) (n : Nat) : Word := reg d (0x300A0 + 4 * n)
def seqB (d : Dev) (n : Nat) : Word := reg d (0x300E0 + 4 * n)

/-- Steps in use: up to the first step with VALID 0. -/
def seqLen (d : Dev) : Nat := ((List.range 16).find? fun n => !(seqA d n).getLsbD 31).getD 16

/-- A sequence is valid (R475): PWR_SEQ_A words of its steps. -/
def seqValid (as : List Word) : Bool :=
  let used := as.takeWhile fun w => w.getLsbD 31
  let ens := used.map fun w => wbits w 27 24
  let rails := (used.filter fun w => !w.getLsbD 15).map fun w => wbits w 10 8
  ens.all (fun e => decide (e ≤ 13)) && ens.eraseDups.length = ens.length && rails.all (fun r => decide (r < 6)) &&
  (List.range 6).all fun r => (rails.filter fun x => x = r).length = 1

/-- A step begins (R476): its line rises, and it waits for PG or, with NO_PG or a PG already high, for SETTLE. -/
def beginStep (d : Dev) (n : Nat) : Dev :=
  let a := seqA d n
  d.modPwr fun p =>
    { p with step := n, en := setLine p.en (wbits a 27 24) true,
             wait := if a.getLsbD 23 || p.pg.getLsbD (wbits a 19 16) then .settle else .pg }

/-- A step of a power-down: its line falls and DOWN_MS runs. -/
def lowerStep (d : Dev) (n : Nat) : Dev :=
  let a := seqA d n
  d.modPwr fun p =>
    { p with step := n, en := setLine p.en (wbits a 27 24) false, pg := setLine p.pg (wbits a 19 16) false, wait := .down,
             inWin := if a.getLsbD 15 then p.inWin else p.inWin &&& ~~~ (1#8 <<< wbits a 10 8) }

/-- An ordered power-down begins at a step (R476). VDD_CORE's request keeps frozen. -/
def beginDown (d : Dev) (n : Nat) : Dev := lowerStep (setPwr d .rampDown) n

/-- The last step of the sequence. -/
def lastStep (d : Dev) : Nat := seqLen d - 1

/-- An ordered power-down from ON or SAVING. -/
def powerDown (d : Dev) : Dev := beginDown (d.modPwr fun p => { p with reverse := false }) (lastStep d)

/-! ## Rail windows (R26, R478, R479) -/

/-- Nominal value of a rail in mV; VDD_CORE's is the request. -/
def nominal (d : Dev) (r : Nat) : Nat :=
  if r = 0 then d.pwr.reqMv else ([800, 800, 750, 1200, 1100, 1200, 800, 1800] : List Nat).getD r 0

/-- The range of nominal values a rail is judged against: both values while a VDD_CORE change is pending (R484). -/
def nomLow (d : Dev) (r : Nat) : Nat := if r = 0 && d.pwr.pending then min d.pwr.reqMv d.pwr.oldMv else nominal d r
def nomHigh (d : Dev) (r : Nat) : Nat := if r = 0 && d.pwr.pending then max d.pwr.reqMv d.pwr.oldMv else nominal d r

/-- A rail lies inside its window. -/
def railIn (d : Dev) (r mv : Nat) : Bool :=
  let c := reg d (0x30020 + 4 * r)
  decide (nomLow d r * (400 - wbits c 7 0) ≤ mv * 400) && decide (mv * 400 ≤ nomHigh d r * (400 + wbits c 15 8))

/-- A rail lies beyond ±12 % of nominal (R478). -/
def railHard (d : Dev) (r mv : Nat) : Bool := decide (mv * 100 < nomLow d r * 88) || decide (nomHigh d r * 112 < mv * 100)

/-- A rail's latest reading. -/
def setRail (d : Dev) (r mv : Nat) : Dev :=
  d.modPwr fun p =>
    { p with railMv := modAt p.railMv r fun _ => mv,
             inWin := if railIn d r mv then p.inWin ||| (1#8 <<< r) else p.inWin &&& ~~~ (1#8 <<< r) }

/-! ## Faults (R480 to R483) -/

/-- A sequence fault: the steps that have passed go down in reverse; after MIN_OFF the power-up is tried again, RETRIES times in
all, and then the supervisor enters FAULT. -/
def seqFault (d : Dev) (rail : Nat) : Dev :=
  let d1 := takeSnap d .seqFault rail
  let d2 := raise d1 0x010B srcPWR (snapPayload d1) []
  let again := decide (d.pwr.tries ≤ regBits d 0x3000C 23 20) && !d.pwr.faulty
  beginDown (d2.modPwr fun p => { p with retry := again, faulty := p.faulty || !again, reverse := false }) d.pwr.step

end Sys2Proof.Machine
end

