-- ==== Sys2Proof/Machine/Pke.lean ====
section
/-! DEFINITION. The public-key engine: P-384 and X25519 arithmetic, the order of its findings, its register interface and the
pools of ephemeral pairs (R119, R405 to R407, R423). The curves are those of FIPS 186 and RFC 7748, which R405 names. -/
namespace Sys2Proof.Machine

/-! ## Arithmetic -/

/-- b^e mod m, for an exponent of at most 384 bits. -/
def powMod (m b e : Nat) : Nat :=
  (List.range 384).foldl (fun r i => let q := r * r % m; if e.testBit (383 - i) then q * b % m else q) (1 % m)

/-- The inverse of a nonzero residue of a prime. -/
def invMod (m a : Nat) : Nat := powMod m a (m - 2)

/-- P-384: prime, coefficient b, base point and order. The coefficient a is -3. -/
def p384 : Nat := 0xfffffffffffffffffffffffffffffffffffffffffffffffffffffffffffffffeffffffff0000000000000000ffffffff
def p384b : Nat := 0xb3312fa7e23ee7e4988e056be3f82d19181d9c6efe8141120314088f5013875ac656398d8a2ed19d2a85c8edd3ec2aef
def p384x : Nat := 0xaa87ca22be8b05378eb1c71ef320ad746e1d3b628ba79b9859f741e082542a385502f25dbf55296c3a545e3872760ab7
def p384y : Nat := 0x3617de4a96262c6f5d9e98bf9292dc29f8f41dbd289a147ce9da3113b5f0b8c00a60b1ce1d7e819d7a431d7c90ea0e5f
def p384n : Nat := 0xffffffffffffffffffffffffffffffffffffffffffffffffc7634d81f4372ddf581a0db248b0a77aecec196accc52973

/-- A point in Jacobian coordinates; z = 0 is the point at infinity. -/
structure Jac where
  x : Nat
  y : Nat
  z : Nat
deriving DecidableEq, Repr

/-- a - b modulo the prime. -/
def subP (a b : Nat) : Nat := (a + p384 - b % p384) % p384

/-- Twice a point. -/
def jacDouble (q : Jac) : Jac :=
  let z2 := q.z * q.z % p384
  let y2 := q.y * q.y % p384
  let s := 4 * q.x * y2 % p384
  let m := 3 * subP q.x z2 * (q.x + z2) % p384
  let x := subP (m * m) (2 * s)
  { x := x, y := subP (m * subP s x) (8 * y2 * y2), z := 2 * q.y * q.z % p384 }

/-- The sum of two points. -/
def jacAdd (q r : Jac) : Jac :=
  if q.z = 0 then r else if r.z = 0 then q
  else
    let zq := q.z * q.z % p384
    let zr := r.z * r.z % p384
    let u1 := q.x * zr % p384
    let u2 := r.x * zq % p384
    let s1 := q.y * zr % p384 * r.z % p384
    let s2 := r.y * zq % p384 * q.z % p384
    if u1 = u2 then (if s1 = s2 then jacDouble q else { x := 1, y := 1, z := 0 })
    else
      let h := subP u2 u1
      let w := subP s2 s1
      let h2 := h * h % p384
      let h3 := h2 * h % p384
      let v := u1 * h2 % p384
      let x := subP (subP (w * w) h3) (2 * v)
      { x := x, y := subP (w * subP v x) (s1 * h3), z := h * q.z % p384 * r.z % p384 }

/-- k times a point. -/
def jacMul (k : Nat) (q : Jac) : Jac :=
  (List.range 384).foldl (fun a i => let b := jacDouble a; if k.testBit (383 - i) then jacAdd b q else b) { x := 1, y := 1, z := 0 }

/-- The affine x of a point that is not at infinity. -/
def jacX (q : Jac) : Nat := let i := invMod p384 q.z; q.x * i % p384 * i % p384

/-- (x, y) lies on the curve. -/
def onP384 (x y : Nat) : Bool := y * y % p384 = (x * x * x + (p384 - 3) * x + p384b) % p384

/-- X25519 (RFC 7748): the ladder over the clamped scalar. -/
def p255 : Nat := 2 ^ 255 - 19
def subQ (a b : Nat) : Nat := (a + p255 - b % p255) % p255
def x25519 (k u : Nat) : Nat :=
  let u := u % 2 ^ 255 % p255
  let k := k % 2 ^ 254 / 8 * 8 + 2 ^ 254
  let f := (List.range 255).foldl (fun (s : Nat × Nat × Nat × Nat) i =>
    let step (x2 z2 x3 z3 : Nat) : Nat × Nat × Nat × Nat :=
      let a := (x2 + z2) % p255
      let aa := a * a % p255
      let b := subQ x2 z2
      let bb := b * b % p255
      let e := subQ aa bb
      let da := subQ x3 z3 * a % p255
      let cb := (x3 + z3) * b % p255
      let t := (da + cb) % p255
      let w := subQ da cb
      (aa * bb % p255, e * (aa + 121665 * e) % p255, t * t % p255, u * (w * w) % p255)
    if k.testBit (254 - i) then
      let r := step s.2.2.1 s.2.2.2 s.1 s.2.1
      (r.2.2.1, r.2.2.2, r.1, r.2.1)
    else step s.1 s.2.1 s.2.2.1 s.2.2.2) (1, 0, u, 1)
  f.1 * powMod p255 f.2.1 (p255 - 2) % p255

/-! ## Operands and findings (R405, R406) -/

/-- Bytes of the input registers: byte 4k in bits [31:24] of PKE_INk. -/
def inBytes (ws : List Word) : List Byte := ws.flatMap fun w => beBytes 4 w.toNat

/-- A big-endian number of `n` bytes from byte `at_`. -/
def beNum (bs : List Byte) (at_ n : Nat) : Nat := leNat (((bs.drop at_).take n).reverse)

/-- What a job ends with: status, VALID, ZERO and its output bytes. -/
structure PkeEnd where
  status : PkeStatus
  valid  : Bool
  zero   : Bool
  out    : List Byte
deriving DecidableEq, Repr

def pkeBad (s : PkeStatus) : PkeEnd := { status := s, valid := false, zero := false, out := [] }

/-- A P-384 scalar is proper. -/
def scalarOk (k : Nat) : Bool := decide (0 < k) && decide (k < p384n)

/-- The first finding of R406, or the result. -/
def pkeRun (op : PkeOp) (bs : List Byte) : PkeEnd :=
  match op with
  | .ecdh384 =>
    let k := beNum bs 0 48
    let x := beNum bs 48 48
    let y := beNum bs 96 48
    if !scalarOk k then pkeBad .invalidScalar
    else if p384 ≤ x || p384 ≤ y then pkeBad .invalidEncoding
    else if !onP384 x y then pkeBad .invalidPoint
    else { status := .done, valid := false, zero := false, out := beBytes 48 (jacX (jacMul k { x := x, y := y, z := 1 })) }
  | .x25519 =>
    let r := x25519 (leNat (bs.take 32)) (leNat ((bs.drop 32).take 32))
    { status := .done, valid := false, zero := decide (r = 0), out := leBytes 32 r }
  | .verify384 =>
    let x := beNum bs 0 48
    let y := beNum bs 48 48
    let e := beNum bs 96 48
    let r := beNum bs 144 48
    let s := beNum bs 192 48
    if !scalarOk r || !scalarOk s then pkeBad .invalidScalar
    else if p384 ≤ x || p384 ≤ y then pkeBad .invalidEncoding
    else if !onP384 x y then pkeBad .invalidPoint
    else
      let w := invMod p384n s
      let q := jacAdd (jacMul (e * w % p384n) { x := p384x, y := p384y, z := 1 })
        (jacMul (r * w % p384n) { x := x, y := y, z := 1 })
      { status := .done, valid := q.z ≠ 0 && jacX q % p384n = r, zero := false, out := [] }

/-- A PKE_CMD: the job takes the inputs as they stand; none starts while one runs (R418, R423). -/
def pkeStart (op : PkeOp) (d : Dev) : Dev × Nat :=
  if d.sec.pke.job.isSome then (d, 0)
  else
    let ws := (List.range 64).map fun i => reg d (0x70100 + 4 * i)
    (d.modSec fun s => { s with pke := { job := some (op, ws), valid := false, zero := false, status := .done, out := [] } }, 0)

/-- The job's fixed time has passed. -/
def pkeDone (d : Dev) : Dev :=
  match d.sec.pke.job with
  | none => d
  | some (op, ws) =>
    let r := pkeRun op (inBytes ws)
    let words := (List.range (r.out.length / 4)).map fun k => BitVec.ofNat 32 (beNum r.out (4 * k) 4)
    d.modSec fun s => { s with pke := { job := none, valid := r.valid, zero := r.zero, status := r.status, out := words } }

/-- One pair for the curve whose pool holds fewer, P-384 at a tie; a full pool takes none (R407). -/
def poolRefill (d : Dev) : Dev :=
  d.modNet fun t =>
    if t.pool384 ≤ t.pool255 && t.pool384 < 1024 then { t with pool384 := t.pool384 + 1 }
    else if t.pool255 < 1024 then { t with pool255 := t.pool255 + 1 } else t

/-- PKE_ECDH_P384 (R405). -/
def execPkeEcdhP384 (p : Principal) (s : State) : Res := onDev (command p 0x70000 (pkeStart .ecdh384)) s
/-- PKE_X25519 (R405). -/
def execPkeX25519 (p : Principal) (s : State) : Res := onDev (command p 0x70000 (pkeStart .x25519)) s
/-- PKE_ECDSA_VERIFY (R405). -/
def execPkeEcdsaVerify (p : Principal) (s : State) : Res := onDev (command p 0x70000 (pkeStart .verify384)) s
/-- PKE_JOB_COMPLETE (R406). -/
def execPkeJobComplete (s : State) : Res := onDev pkeDone s
/-- PKE_POOL_REFILL (R407). -/
def execPkePoolRefill (s : State) : Res := onDev poolRefill s

end Sys2Proof.Machine
end

