-- ==== Sys2Proof/Machine/Firmware.lean ====
section
/-! DEFINITION. Firmware banks: the fields of a bank header and the acceptance of a bank (R427, R428, R452, R457). -/
namespace Sys2Proof.Machine

/-- A little-endian field of a bank's header. -/
def hdrNum (b : Bank) (at_ n : Nat) : Nat := leNat ((b.header.drop at_).take n)

/-- FW_VER, SVN, image lengths, STREAM_LEVEL and tuning format (R428, R452). -/
def fwVer (b : Bank) : Nat := hdrNum b 4 4
def svnOf (b : Bank) : Nat := fwVer b / 2 ^ 25
def shpLen (b : Bank) : Nat := hdrNum b 8 4
def drvLen (b : Bank) : Nat := hdrNum b 12 4
def levelOf (b : Bank) : Nat := hdrNum b 16 1
def fmtOf (b : Bank) : Nat := hdrNum b 17 1

/-- A bank without contents. -/
def noBank : Bank := { header := [], stream := [] }

/-- Bank A or B. -/
def bankAt (d : Dev) (b : Bool) : Bank := d.ldg.banks.getD (if b then 1 else 0) noBank
def setBank (d : Dev) (b : Bool) (x : Bank) : Dev :=
  d.modLdg fun l => { l with banks := modAt l.banks (if b then 1 else 0) fun _ => x }

/-- The running bank. -/
def running (d : Dev) : Bank := bankAt d d.ldg.bankB

/-- The header is well formed: the layout's constants and limits hold, and its reserved bytes are zero. -/
def headerOk (b : Bank) : Bool :=
  decide (308 ≤ b.header.length) && hdrNum b 0 4 = 0x4F544E53 && decide (shpLen b ≤ 196608) &&
  decide (shpLen b + drvLen b ≤ 4124736) && hdrNum b 18 2 = 0 && ((b.header.drop 308).all fun x => x = 0)

/-- SHP_HASH and DRV_HASH equal the digests of the images. -/
def hashesOk (b : Bank) : Bool :=
  BitVec.ofNat 384 (beNum b.header 20 48) = Config.sha384 (b.stream.take (shpLen b)) &&
  BitVec.ofNat 384 (beNum b.header 68 48) = Config.sha384 ((b.stream.drop (shpLen b)).take (drvLen b))

/-- The OTP slot of the signer, revoked or not (R458). -/
def signerOf (b : Bank) : Option Nat :=
  (List.range 4).find? fun n => Config.sha384 ((b.header.drop 116).take 96) = Config.signerDigest n

/-- The signer is one of OTP's, and not revoked. -/
def signerOk (revoked : BitVec 4) (b : Bank) : Bool :=
  (List.range 4).any fun n => Config.sha384 ((b.header.drop 116).take 96) = Config.signerDigest n && !revoked.getLsbD n

/-- The signature verifies over header bytes 0 to 211. -/
def signatureOk (b : Bank) : Bool :=
  (pkeRun .verify384 ((b.header.drop 116).take 96 ++ beBytes 48 (Config.sha384 (b.header.take 212)).toNat ++
    (b.header.drop 212).take 96)).valid

/-- What step 4 of the boot finds: header, digests, signer and floor. -/
def bankPre (l : Ledger) (b : Bank) : BankFail :=
  if !headerOk b then .header else if !hashesOk b then .digest else if !signerOk l.revoked b then .signer
  else if svnOf b < l.floor then .belowFloor else .none

/-- The whole of R427. -/
def bankCheck (l : Ledger) (b : Bank) : BankFail :=
  match bankPre l b with
  | .none => if signatureOk b then .none else .signature
  | r => r

/-- FAIL_A and FAIL_B (R450). -/
def bankFailNo : BankFail → Nat
  | .none => 0 | .header => 1 | .digest => 2 | .signer => 3 | .signature => 4 | .belowFloor => 5

end Sys2Proof.Machine
end

