-- ==== Sys2Proof/Machine/Restore.lean ====
section
/-! DEFINITION. The recovery of the map and the restore of the save images at a cold start (R273 to R275, R323, R472). -/
namespace Sys2Proof.Machine

/-! ## The map (R323) -/

/-- The images that are live at start-up, the older first: their slot reads SAVED and their trailer stands (R273). -/
def liveImages (d : Dev) : List Image :=
  let l := d.dur.slots.filterMap fun s =>
    if s.st = .live || s.st = .draining then (match s.image with | some i => if i.trailer then some i else none | none => none) else none
  match l with
  | [a, b] => if b.seq < a.seq then [b, a] else [a, b]
  | _ => l

/-- A codeword fails its checks after every retry: it is torn, or its die is offline. -/
def unreadable (f : Ftl) (c : Codeword) : Bool := c.bad || dieGone f c.loc

/-- The checkpoint that recovery starts from: the newest one whose header and root codewords read. -/
def startCkpt (f : Ftl) : Option Ckpt :=
  f.ckpts.find? fun k =>
    let rec' := f.cws.filter fun c => c.kind = .ckptRec && c.addr = k.seq
    rec'.any (fun c => c.loc = k.head) && !rec'.any (unreadable f)

/-- Codewords in ascending WSEQ. -/
def insertCw (c : Codeword) : List Codeword → List Codeword
  | [] => [c]
  | x :: t => if c.wseq < x.wseq then c :: x :: t else x :: insertCw c t

/-- One codeword of the scan: a position stops at the first one that does not read. -/
def scanCw (f : Ftl) (a : List Codeword × List Nat) (c : Codeword) : List Codeword × List Nat :=
  let pos := posOf (sbOfLoc c.loc)
  if a.2.contains pos then a else if unreadable f c then (a.1, pos :: a.2) else (a.1 ++ [c], a.2)

/-- The codewords that the replay reads, in ascending WSEQ: programmed since the save point of the newest live image, or since the
checkpoint's cut. -/
def scanOf (d : Dev) : List Codeword :=
  let from_ := match (liveImages d).getLast? with
    | some i => i.wseq
    | none => match startCkpt d.ftl with | some k => k.cut | none => 0
  (((d.ftl.cws.filter fun c => decide (from_ ≤ c.wseq)).foldl (fun l c => insertCw c l) []).foldl (scanCw d.ftl) ([], [])).1

/-- The image's copy of the map pages that it holds. -/
def overlay (m : List (Nat × Nat)) (i : Image) : List (Nat × Nat) :=
  i.map.foldl (fun a e => putKey a e.1 e.2) (m.filter fun e => !i.pages.contains (e.1 / 819))

/-- Members of the leaf's families that resolve through it: they hold no entry, and none of those they share with holds one. -/
def childrenOf (fams : List Family) (m : List (Nat × Nat)) (leaf : Nat) : List Nat :=
  fams.flatMap fun f =>
    match memberAt f leaf with
    | none => []
    | some (x, o) =>
      ((f.members.filter fun y => y.base ≠ x.base && leafVer y o ≠ leafVer x o).map fun y => y.base / 4096 + o).filter fun l =>
        (getKey m l).isNone && (sharers fams l).all fun s => (getKey m s).isNone

/-- One codeword of the replay. -/
def replayCw (fams : List Family) (committed : List Stamp) (m : List (Nat × Nat)) (c : Codeword) : List (Nat × Nat) :=
  if c.kind ≠ .leaf || (c.grp && !committed.contains c.stamp) then m
  else
    let leaf := c.addr / 4096
    let m1 := match c.oldLoc with
      | some l => if c.reloc then m else (childrenOf fams m leaf).foldl (fun a k => putKey a k l) m
      | none => m
    (mapOf m1 c).foldl (fun a e => putKey a e.1 e.2) m1

/-- The rebuilt map. -/
def recoverMap (d : Dev) : List (Nat × Nat) :=
  let m0 := match startCkpt d.ftl with | some k => k.map | none => []
  let m1 := (liveImages d).foldl overlay m0
  let s := scanOf d
  s.foldl (replayCw d.folds.families ((s.filter fun c => c.kind = .commitMark).map fun c => c.stamp)) m1

/-! ## Contents -/

/-- The codeword at a location. -/
def cwAt (f : Ftl) (loc : Nat) : Option Codeword := f.cws.find? fun c => c.loc = loc

/-- A leaf of flash and the leaves that share it without an entry of their own. -/
def leafHomes (d : Dev) (leaf : Nat) : List Nat :=
  leaf :: (sharers d.folds.families leaf).filter fun l => (getKey d.ftl.map l).isNone

/-- The contents that the map gives, and the poison that its codewords carry. -/
def contentsOf (d : Dev) : List Host.Cell × List Nat :=
  d.ftl.map.foldl (fun a e =>
    match cwAt d.ftl e.2 with
    | none => a
    | some c =>
      (leafHomes d e.1).foldl (fun x l =>
        (c.data.foldl (fun m b => writeByte m (l * 4096 + b.1) b.2) x.1,
         addNums x.2 (((List.range 64).filter fun i => c.poison.getLsbD i).map fun i => l * 64 + i))) a) ([], [])

/-- The control area: an item of a leaf that the replay found drained comes from flash, every other from the newest live image,
or from flash when no image is live. -/
def controlItems (d : Dev) (drained : List Nat) : List ControlItem :=
  match (liveImages d).getLast? with
  | some i =>
    (i.control.filter fun x => !drained.contains (itemLeaf d x)) ++ d.ftl.ctlHeld.filter fun x => drained.contains (itemLeaf d x)
  | none => d.ftl.ctlHeld

/-- Leaves that the replay found: their lines take their flash locations (R274). -/
def drainedLeaves (d : Dev) : List Nat :=
  addNums [] (((scanOf d).filter fun c => c.kind = .leaf && !c.reloc).map fun c => c.addr / 4096)

/-- The lines of a live image that it still covers, and that are not drained: of the older of two images, those that it still covered
at the newer one's save point (R274, R277). -/
def coveredLines (drained : List Nat) (newest i : Image) : List (Nat × List Byte) :=
  i.lines.filter fun x => !drained.contains (x.1 / 64) && (decide (newest.seq ≤ i.seq) || newest.older.contains x.1)

/-- A line of an image goes to its own address and to the regions that share its leaf (R197). -/
def installLine (fams : List Family) (m : List Host.Cell) (x : Nat × List Byte) : List Host.Cell :=
  writeBytes ((sharers fams (x.1 / 64)).foldl (fun a l => writeBytes a (l * 4096 + x.1 % 64 * 64) x.2) m) (x.1 * 64) x.2

/-- Install the lines of an image. The poison is that of the newest image, whose list is complete (R268). -/
def installLines (drained : List Nat) (newest : Image) (d : Dev) (i : Image) : Dev :=
  let ls := coveredLines drained newest i
  { d with mem := ls.foldl (installLine d.folds.families) d.mem }.modDur fun u =>
    { u with poison := addNums (dropNums u.poison (ls.map Prod.fst))
               (if newest.seq ≤ i.seq then i.poison.filter fun l => !drained.contains (l / 64) else []),
             resident := addNums u.resident (leavesOf (ls.map Prod.fst)) }

/-- The slots after the restore: a restored image drains (R274, R280). -/
def drainSlots (drained : List Nat) (newest : Option Image) (s : ImgSlot) : ImgSlot :=
  match s.image with
  | some i =>
    if (s.st = .live || s.st = .draining) && i.trailer then
      { s with st := .draining, left := (coveredLines drained (newest.getD i) i).map fun x => x.1, drained := false }
    else s
  | none => s

/-- The twin's book-keeping as the newest live image gives it (R268). -/
def imageTwin (d : Dev) (i : Image) : Dev :=
  d.modTwin fun t =>
    { t with lastStamp := max t.lastStamp i.stamp, rseed := i.rseed, peerStamp := i.peer, peerEcho := i.peer,
             diverge := { active := t.ident.isSome, full := t.diverge.full || i.divFull, leaves := i.diverge } }

/-- Steps 3 to 5 of R273 with the DIRTY check of R472: the map, the contents, the control area and the tables' book-keeping. 0x050B
carries CKPT_SEQ and the codewords replayed, 0x0108 says that an unfinished image was found. -/
def restoreUnit (d : Dev) : Dev :=
  let images := liveImages d
  let drained := drainedLeaves d
  let lost := d.dur.slots.any (fun s => s.st = .saving) ||
    (d.ldg.dirty && d.dur.slots.all fun s => s.st = .empty)
  let fams := (controlItems d drained).foldl (fun a i => match i with | .family _ _ => putItem a i | _ => a) d
  let d1 := fams.modFtl fun f => { f with map := recoverMap fams, cws := f.cws.filter fun c => !c.bad }
  let cs := contentsOf d1
  let d2 := { d1 with mem := cs.1 }.modDur fun u => { u with poison := cs.2, resident := [] }
  let d3 := match images.getLast? with | some i => images.foldl (installLines drained i) d2 | none => d2
  let d4 := (controlItems d drained).foldl (fun a i => match i with | .family _ _ | .foldRl _ => a | _ => putItem a i) d3
  let d5 := match images.getLast? with | some i => imageTwin d4 i | none => d4
  let d6 := rebuildFolds (d5.modDur fun u =>
    { u with slots := u.slots.map (drainSlots drained images.getLast?), lost := u.lost || lost,
             imgSeq := images.foldl (fun n i => max n i.seq) u.imgSeq })
  let d7 := raiseOp d6 0x050B srcFTL [match startCkpt d.ftl with | some k => k.seq | none => 0, (scanOf d).length]
  let d8 := if d7.dur.lost && d7.twin.ident.isSome then
      d7.modTwin fun t => { t with diverge := { active := true, full := true, leaves := [] } } else d7
  if lost then raiseOp d8 0x0108 srcPWR [] else d8

end Sys2Proof.Machine
end

