-- ==== Sys2Proof/Machine/Security.lean ====
section
/-! DEFINITION. Keys, alarms and the authenticated clear, slot keys, cipher lanes, and the entropy source (R390 to R423). -/
namespace Sys2Proof.Machine

/-! ## Leaving and resuming service -/

/-- The unit stops serving and enters FENCED without a word to its twin: it can seal nothing any more (R404, R410). -/
def silence (d : Dev) : Dev :=
  let d1 := if serving d then stopServing d .fenced else enterState (leavePair d) .fenced
  if d1.twin.ident.isSome then twlDown d1.twin.blockLock d1 else d1

/-- The unit starts by R240 with a fresh NONCE (R213), or serves again as UNPAIRED without a pair identity (R206). -/
def startAgain (d : Dev) : Dev :=
  if d.twin.ident.isNone then serveAlone d else sendHello (newNonce d)

/-- Load the keys (R393): WK, SK and the identity secrets from the ledger, DK from the control area, and a new KW. Keys under a WK
that no copy gives stay empty, and 0x0303 says so (R391). -/
def loadKeys (d : Dev) : Dev :=
  let k := draw256 d
  let d1 := k.2.modSec fun s =>
    { s with wk := s.wkLedger, sk := if s.wkLedger.isSome then s.skLedger else none,
             dk := if s.wkLedger.isSome then s.dkStored else none, kw := some k.1,
             secrets := s.wkLedger.isSome && d.twin.ident.isSome }
  if d.folds.formatted && (d1.sec.wk.isNone || d1.sec.sk.isNone || d1.sec.dk.isNone) then raiseOp d1 0x0303 srcSEC [] else d1

/-- Every counter resumes at its mark (R520). -/
def resumeTxc (d : Dev) : Dev :=
  d.modNet fun t => { t with conns := t.conns.map fun x => (x.1, { x.2 with txc := x.2.txcHigh }) }

/-- The unit's parts stand as R273 needs them: DRAM, fuse repairs, flash and the drover image. -/
def restorable (d : Dev) : Bool :=
  d.ldg.stage = .firmware && d.env.dimmOk && d.dram.chans.all (fun c => c.st = .ready) && d.hall.fuseOk && d.ftl.popOk

/-- Steps 3 to 6 of R273, with the keys loaded (R393): they wait while LOCKOUT is set (R412), and nothing is restored while a part
or a key is missing. -/
def finishStart (d : Dev) : Dev :=
  if !restorable d || d.sec.lockout || d.pwr.served then d
  else
    let d1 := loadKeys d
    if d1.folds.formatted && (d1.sec.wk.isNone || d1.sec.sk.isNone || d1.sec.dk.isNone) then d1
    else
      let d2 := resumeTxc (if d1.folds.formatted then restoreUnit d1 else d1)
      startAgain (raiseOp (d2.modPwr fun p => { p with served := true }) 0x0108 srcPWR [])

/-! ## Alarms (R408 to R412) -/

/-- A source is armed (R408). -/
def armed (d : Dev) (source : Nat) : Bool :=
  match source with
  | 0 | 1 | 4 => d.pwr.st = .on || d.pwr.st = .saving
  | 2 | 3 => d.pwr.st = .rampUp || d.pwr.st = .on || d.pwr.st = .saving
  | 5 | 6 => d.pwr.pwron
  | 7 => true
  | _ => false

/-- Within 1 µs of a class A source: the key register file, the lanes' keys and buffers and a job of the public-key engine are
gone, LOCKOUT and FIRED are set and ALARM_SEQ rises (R410, R416). During a save the lanes keep SK in save mode (R412). -/
def zeroKeys (source : Nat) (s : Sec) (saving : Bool) : Sec :=
  { s with wk := none, sk := if saving then s.skLedger else none, dk := none, kw := none, secrets := false, lockout := true,
           fired := s.fired ||| (1#8 <<< source), alarmSeq := (s.alarmSeq + 1) % 65536, saveMode := saving,
           lanes := s.lanes.map fun l => { l with run := none, susp := [] },
           pke := { job := none, valid := false, zero := false, status := .done, out := [] } }

/-- A class A source fires. -/
def alarmA (source : Nat) (d : Dev) : Dev :=
  let d1 := d.modSec fun s => zeroKeys source s (d.dur.save ≠ .idle)
  let d2 := (d1.modNet fun t => { t with pool384 := 0, pool255 := 0 }).modTwin fun t => { t with linkKey := none }
  silence (raiseOp d2 0x0302 srcSEC [d2.sec.fired.toNat, d2.sec.alarmSeq])

/-- Nothing under WK can be read any more (R411): no pair identity, no formatted space, no key, no image; a save in progress
stops. -/
def eraseAll (d : Dev) : Dev :=
  let d1 := d.modSec fun s =>
    { s with wkLedger := none, skLedger := none, dkStored := none, clearKey := none, sk := none, slots := [], bErased := true,
             zeroing := true, saveMode := false }
  let d2 := { d1 with mem := [] }.modFolds fun f => { Folds.reset with slots := f.slots, queue := [] }
  let d3 := d2.modNet fun t => { t with conns := [], ops := [], ctxCache := [], groups := [], badTail := [], parked := [] }
  let d4 := d3.modTwin fun t => { t with ident := none, linkKey := none, identNext := none, diverge := { active := false, full := false, leaves := [] } }
  let d5 := d4.modDur fun u =>
    { u with dirty := [], poison := [], resident := [], grouped := [], save := .idle, saveSlot := none, slots := [ImgSlot.reset, ImgSlot.reset],
             lost := false }
  ((noteSlots d d5).modEvt fun v => { v with rings := [] }).modLdg fun l =>
    { l with erase := l.erase.map fun e => { e with byShp := true } }

/-- A class B source fires (R411, R416): a save that runs stops, and the power-down follows. -/
def alarmB (source : Nat) (d : Dev) : Dev :=
  let saving := d.dur.save ≠ .idle
  let d1 := eraseAll (alarmA source d)
  if saving then powerDown d1 else d1

/-- A source fires by its class. -/
def fireSource (source : Nat) (d : Dev) : Dev :=
  if d.sec.cls.getLsbD source then alarmB source d else alarmA source d

/-- A row's source fires when it is armed and of the row's class. -/
def alarmRow (classB : Bool) (source : Nat) (d : Dev) : Dev :=
  if armed d source && d.sec.cls.getLsbD source = classB then fireSource source d else d

/-- The DRAM holds zero and the caches are invalid: 0x0303; ledger erases that the alarm suspended go on (R411). -/
def zeroDone (d : Dev) : Dev :=
  if !d.sec.zeroing then d
  else
    let d1 := (d.modSec fun s => { s with zeroing := false }).modHall fun h => { invalidateAll h with frames := [] }
    let d2 := d1.modDram fun m => { m with chans := m.chans.map fun c => { c with cells := [], injected := [] } }
    raiseOp (d2.modLdg fun l => { l with erase := l.erase.map fun e => { e with byShp := false } }) 0x0303 srcSEC []

/-! ## The authenticated clear (R413 to R415) -/

/-- The four MAC registers as a number: SEC_MAC0 holds the first bytes. -/
def macWritten (d : Dev) : BitVec 128 :=
  (List.range 4).foldl (fun k i => (k <<< (32 : Nat)) ||| (reg d (0x60020 + 4 * i)).setWidth 128) 0

/-- The clear MAC of a command (R413). -/
def clearMac (d : Dev) (key : BitVec 256) (chal : BitVec 128) (cmd : Byte) (sources : BitVec 8) : BitVec 128 :=
  let label : List Byte := [0x67, 0x68, 0x65, 0x6c, 0x6f, 0x74, 0x68, 0x20, 0x63, 0x6c, 0x65, 0x61, 0x72]
  let m := Config.hmac384 (keyBytes key) (label ++ beBytes 16 chal.toNat ++ [cmd, sources] ++ beBytes 2 d.sec.alarmSeq ++ beBytes 4 (nodeOf d))
  (m >>> (256 : Nat)).setWidth 128

/-- The MAC of a command verifies under the clear key and the standing challenge. -/
def macOk (d : Dev) (cmd : Byte) (sources : BitVec 8) : Bool :=
  match d.sec.clearKey, d.sec.chal with
  | some k, some c => macWritten d = clearMac d k c cmd sources
  | _, _ => false

/-- SEC_KEYIN0 to 7. -/
def keyIn (d : Dev) : BitVec 256 :=
  (List.range 8).foldl (fun k i => (k <<< (32 : Nat)) ||| (reg d (0x60040 + 4 * i)).setWidth 256) 0

/-- A SEC_CMD: the challenge is spent and SEC_KEYIN is cleared; while 8 failed MACs hold it locked, it does nothing more. -/
def secCmd (f : Dev → Dev) (d : Dev) : Dev × Nat :=
  let spent (a : Dev) : Dev :=
    (List.range 8).foldl (fun b i => setReg b (0x60040 + 4 * i) 0) (a.modSec fun s => { s with chal := none })
  if d.sec.locked then (d.modSec fun s => { s with last := .lockedOut }, 0) else (spent (f d), 0)

/-- LAST, with nothing else done. -/
def secLast (d : Dev) (r : SecLast) : Dev := d.modSec fun s => { s with last := r }

/-- A failed MAC (R413, R414). -/
def macFailed (d : Dev) : Dev :=
  raiseOp (d.modSec fun s => { s with last := .badMac, fails := s.fails + 1, locked := decide (8 ≤ s.fails + 1) }) 0x0304 srcSEC []

/-- CLEAR (R414). A unit that was started under the lockout finishes its start now. -/
def clearLockout (d : Dev) : Dev :=
  if !d.sec.lockout then secLast d .badState
  else if !macOk d 1 0 then macFailed d
  else
    let d1 := d.modSec fun s => { s with lockout := false, fired := 0, last := .done, fails := 0, saveMode := false }
    let d2 := raiseOp (d1.modNet fun t => { t with pool384 := 0, pool255 := 0 }) 0x0304 srcSEC []
    if d.pwr.st = .on && !d.pwr.served then finishStart d2 else startAgain (loadKeys d2)

/-- LOWER_CLASS (R409, R421). -/
def lowerClass (sources : BitVec 8) (d : Dev) : Dev :=
  if !macOk d 2 sources then macFailed d
  else raiseOp (d.modSec fun s => { s with cls := s.cls &&& ~~~ sources, last := .done, fails := 0 }) 0x0304 srcSEC []

/-- PROVISION_CLEAR (R415). -/
def provisionClear (d : Dev) : Dev :=
  if d.sec.lockout then secLast d .badState
  else if d.sec.clearKey.isSome && !macOk d 3 0 then macFailed d
  else wroteRecord (d.modSec fun s => { s with clearKey := some (keyIn d), last := .done, fails := 0 }) 120

/-- A read of SEC_CHAL0 makes a new challenge (R413); the DRBG that has stopped makes none. -/
def chalRead (d : Dev) : Dev × Except Nat Word :=
  if d.sec.drbgStop then (d, .ok (((d.sec.chal.getD 0) >>> (96 : Nat)).setWidth 32))
  else
    let c := draw128 d
    (c.2.modSec fun s => { s with chal := some c.1 }, .ok ((c.1 >>> (96 : Nat)).setWidth 32))

/-! ## Slot keys (R394, R422) -/

/-- A 512-bit pair whose halves differ (IEEE 1619). -/
def drawPair (d : Dev) : BitVec 512 × Dev :=
  let k := draw512 d
  (if (k.1 >>> (256 : Nat)).setWidth 256 = k.1.setWidth 256 then k.1 ^^^ 1 else k.1, k.2)

/-- SEC_KEY_CMD: nothing while BUSY or under LOCKOUT. -/
def keyCmd (cmd : KeyCmd) (k : Nat) (d : Dev) : Dev × Nat :=
  if d.sec.keyBusy || d.sec.lockout then (d, 0)
  else
    let res (a : Dev) (r : KeyResult) : Dev := a.modSec fun s => { s with keyNamed := k, keyResult := r }
    if cmd = .query then (res d .done, 0)
    else if !serving d || d.twin.refusing then (res d .badState, 0)
    else
      match keyAllowed d cmd k with
      | .done =>
        let x := if cmd = .generate then drawPair d else (0, d)
        (issueCtrl (res x.2 .done) (.keySlot cmd k x.1), 0)
      | r => (res d r, 0)

/-! ## Cipher lanes (R396 to R402) -/

/-- Counter of a lane: CRY_LANE_CNT, CRY_LANE_MISMATCH, CRY_LANE_SUSP (R418). -/
def laneReg (lane off : Nat) : Nat := 0x800000 + 0x10 * lane + off

/-- A lane may take work: it holds keys, its mask generator is not overdue, and during a save it takes save work only. -/
def laneReady (d : Dev) (l : Lane) (prio : Nat) : Bool :=
  !(l.stale && d.sec.drbgStop) && (!d.sec.lockout || d.sec.saveMode) && (d.dur.save = .idle || prio = 3)

/-- Time of a message in ns: two AES blocks a cycle of the gallery's clock (R396). -/
def laneNs (d : Dev) (lane blocks : Nat) : Nat := blocks * 5 / max 1 (d.pwr.galClk.getD (lane / 3) 24)

/-- The lane's work: a message of lower priority that may still run is suspended, unless it has spent 2 µs suspended (R398). Whether
it still runs is a free choice, since no command marks its end. -/
def laneRun (lane prio blocks : Nat) (d : Dev) (l : Lane) : Dev :=
  let c := drawChoice d 2
  let fresh : LaneMsg := { prio := prio, left := 0, suspNs := 0, retried := false }
  let n := l.blocks + blocks
  let put (a : Dev) (m : LaneMsg) : Dev :=
    a.modSec fun s => { s with lanes := modAt s.lanes lane fun x =>
      { x with run := some m, susp := [], blocks := n, stale := x.stale || decide (4096 ≤ n) } }
  match l.run with
  | some m =>
    if prio < m.prio && m.suspNs < 2000 && c.1 = 1 then
      put (bump c.2 (laneReg lane 8) 1) { m with suspNs := m.suspNs + laneNs d lane blocks }
    else put c.2 fresh
  | none => put c.2 fresh

/-- CIPHER_LANE_JOB: a mismatch of the redundant rounds discards the output and fires source 7 (R402). -/
def laneJob (lane prio blocks : Nat) (mismatch : Bool) (d : Dev) : Dev :=
  match d.sec.lanes[lane]? with
  | none => d
  | some l =>
    if !laneReady d l prio then d
    else if mismatch then fireSource 7 (raiseOp (bump d (laneReg lane 4) 1) 0x0307 srcCRY [lane])
    else bump (laneRun lane prio blocks d l) (laneReg lane 0) 1

/-- MASK_RESEED (R401). -/
def maskReseed (lane : Nat) (d : Dev) : Dev :=
  if d.sec.drbgStop then d
  else d.modSec fun s => { s with lanes := modAt s.lanes lane fun l => { l with stale := false, blocks := l.blocks % 4096 } }

/-! ## Entropy (R403, R404) -/

/-- DRBG_RESEED: a failure is a health-test failure. -/
def drbgReseed (ok : Bool) (d : Dev) : Dev :=
  if d.sec.drbgStop then d
  else if ok then d.modSec fun s => { s with drbgLast := d.clock }
  else raiseOp d 0x0305 srcSEC []

/-- DRBG_STOP. -/
def drbgStopped (d : Dev) : Dev :=
  if d.sec.drbgStop then d
  else
    let d1 := raiseOp (d.modSec fun s => { s with drbgStop := true, entropyOk := false }) 0x0306 srcSEC []
    if serving d1 then stopServing d1 .fenced else enterState (leavePair d1) .fenced

/-- DRBG_RESTART. -/
def drbgStarted (d : Dev) : Dev :=
  if !d.sec.drbgStop then d
  else startAgain (raiseOp (d.modSec fun s => { s with drbgStop := false, entropyOk := true, drbgLast := d.clock }) 0x0306 srcSEC [])

/-! ## The rows -/

/-- ALARM_CLASS_A (R410). -/
def execAlarmClassA (source : Nat) (s : State) : Res := onDev (alarmRow false source) s
/-- ALARM_CLASS_B (R411). -/
def execAlarmClassB (source : Nat) (s : State) : Res := onDev (alarmRow true source) s
/-- CLASS_B_ZERO_COMPLETE (R411). -/
def execClassBZeroComplete (s : State) : Res := onDev zeroDone s
/-- CLEAR (R414). -/
def execClear (p : Principal) (s : State) : Res := onDev (command p 0x60008 (secCmd clearLockout)) s
/-- LOWER_CLASS (R409). -/
def execLowerClass (p : Principal) (sources : BitVec 8) (s : State) : Res :=
  onDev (command p 0x60008 (secCmd (lowerClass sources))) s
/-- PROVISION_CLEAR (R415). -/
def execProvisionClear (p : Principal) (s : State) : Res := onDev (command p 0x60008 (secCmd provisionClear)) s
/-- SEC_CHAL_READ (R413). -/
def execSecChalRead (p : Principal) (s : State) : Res := onDev (readAs p 0x60010 chalRead) s
/-- CHALLENGE_LAPSE (R413). -/
def execChallengeLapse (s : State) : Res := onDev (fun d => d.modSec fun x => { x with chal := none }) s
/-- MAC_LOCKOUT_END (R413). -/
def execMacLockoutEnd (s : State) : Res := onDev (fun d => d.modSec fun x => { x with locked := false, fails := 0 }) s
/-- SEC_ALARM_CFG_WRITE (R409): a move from A to B at once, never back. -/
def execSecAlarmCfgWrite (p : Principal) (value : Word) (s : State) : Res :=
  onDev (command p 0x60004 fun d => (d.modSec fun x => { x with cls := x.cls ||| value.setWidth 8 }, 0)) s
/-- GENERATE (R394). -/
def execGenerate (p : Principal) (keySlot : Nat) (s : State) : Res := onDev (command p 0x60100 (keyCmd .generate keySlot)) s
/-- LOAD (R394). -/
def execLoad (p : Principal) (keySlot : Nat) (s : State) : Res := onDev (command p 0x60100 (keyCmd .load keySlot)) s
/-- UNLOAD (R394). -/
def execUnload (p : Principal) (keySlot : Nat) (s : State) : Res := onDev (command p 0x60100 (keyCmd .unload keySlot)) s
/-- DESTROY (R394). -/
def execDestroy (p : Principal) (keySlot : Nat) (s : State) : Res := onDev (command p 0x60100 (keyCmd .destroy keySlot)) s
/-- QUERY of a key slot (R394). -/
def execKeyQuery (p : Principal) (keySlot : Nat) (s : State) : Res := onDev (command p 0x60100 (keyCmd .query keySlot)) s
/-- CIPHER_LANE_JOB (R396). -/
def execCipherLaneJob (lane prio blocks : Nat) (mismatch : Bool) (s : State) : Res := onDev (laneJob lane prio blocks mismatch) s
/-- MASK_RESEED (R401). -/
def execMaskReseed (lane : Nat) (s : State) : Res := onDev (maskReseed lane) s
/-- DRBG_RESEED (R403). -/
def execDrbgReseed (ok : Bool) (s : State) : Res := onDev (drbgReseed ok) s
/-- DRBG_STOP (R404). -/
def execDrbgStop (s : State) : Res := onDev drbgStopped s
/-- DRBG_RESTART (R404). -/
def execDrbgRestart (s : State) : Res := onDev drbgStarted s

end Sys2Proof.Machine
end

