-- ==== Sys2Proof/Machine/Ledger.lean ====
section
/-! DEFINITION. The ledger die's command interface, its contents as LDG_RD_DATA reads them, the rotating window, and the commands
of SHP_CMD (R424 to R450). -/
namespace Sys2Proof.Machine

/-! ## Status (R442, R448) -/

/-- Codes of LDG_STATUS.RESULT. -/
def ldgResultNo : LdgResult → Nat
  | .done => 0 | .seqError => 1 | .denied => 2 | .notErased => 3 | .verifyFail => 4 | .eraseFail => 5 | .badState => 6

/-- The result of a principal's last command. -/
def ldgResult (l : Ledger) (p : Principal) : LdgResult :=
  match l.results.find? fun x => x.1 = p with | some x => x.2 | none => .done

def setLdgResult (d : Dev) (p : Principal) (r : LdgResult) : Dev :=
  d.modLdg fun l => { l with results := (p, r) :: l.results.filter fun x => x.1 ≠ p }

/-- The latest erase that a principal started and that has not finished. -/
def eraseOf (l : Ledger) (p : Principal) : Option LdgErase := (l.erase.filter fun e => e.owner = p).getLast?

/-- A command of the principal is running: a word program, or an erase that the principal has not suspended. -/
def ldgBusy (l : Ledger) (p : Principal) : Bool :=
  l.progs.any (fun g => g.owner = p) || l.erase.any fun e => e.owner = p && !e.byOwner

/-- LDG_STATUS as a principal reads it. -/
def ldgStatus (d : Dev) (p : Principal) : Word :=
  let l := d.ldg
  flag 31 (ldgBusy l p) ||| flag 30 (match l.owner with | some o => o ≠ p | none => false) |||
  field 24 (ldgResultNo (ldgResult l p)) |||
  (match eraseOf l p with
   | some e => flag 29 true ||| flag 28 e.byOwner ||| field 12 e.sector ||| field 0 (min e.pulses 4095)
   | none => 0)

/-- A read of LDG_STATUS: the owner's read with BUSY 0 after its command ends the ownership. -/
def ldgStatusRead (p : Principal) (d : Dev) : Dev × Except Nat Word :=
  (if d.ldg.owner = some p && d.ldg.seq = .idle && !ldgBusy d.ldg p then d.modLdg fun l => { l with owner := none } else d,
   .ok (ldgStatus d p))

/-! ## Contents (R434, R446) -/

/-- The word of a list of bytes at an offset; bytes beyond the list read as given. -/
def wordAt (bs : List Byte) (at_ : Nat) (beyond : Byte) : Word :=
  BitVec.ofNat 32 (leNat ((List.range 4).map fun i => bs.getD (at_ + i) beyond))

/-- A recorder record's 64 bytes (R508). -/
def recordImage (r : Record) : List Byte :=
  let regs := r.regs.take 8
  let b := leBytes 2 r.code ++ leBytes 2 r.source ++ leBytes 4 r.rseq ++ leBytes 8 r.time ++ leBytes 2 r.suppressed ++
    leBytes 1 r.flags ++ leBytes 1 regs.length ++ (r.detail.take 8 ++ List.replicate (8 - r.detail.length) 0) ++
    (regs.flatMap fun w => leBytes 4 w.toNat) ++ List.replicate (32 - 4 * regs.length) 0
  b ++ leBytes 4 (crc32 b).toNat

/-- The record at a place of the recorder area: 63 to a sector, in RSEQ order, from RSEQ 1 on (R508). -/
def recordAt (e : Evt) (sec i : Nat) : Option Record :=
  e.recs.find? fun r => (r.rseq - 1) / 63 % 1024 = sec && (r.rseq - 1) % 63 = i

/-- The bytes of a ring's entry at a place, with the CRC-32 that ends them; none where nothing stands (R322, R435, R492). Entry n of a
ring lies at place n mod `per` of the ring's sector n / `per`, round the `n` sectors: the model's choice. -/
def logEntry (r : LogRing) (per n sec i : Nat) : Option (List Byte) :=
  (r.held.find? fun e => e.1 / per % n = sec && e.1 % per = i).map fun e => e.2 ++ leBytes 4 (crc32 e.2).toNat

/-- The word of a ring's area: entries of `size` bytes from the sector's payload on; where nothing stands it reads erased. -/
def ringWord (r : LogRing) (per n size sec o : Nat) : Word :=
  if per ≤ o / size then 0xFFFFFFFF
  else match logEntry r per n sec (o / size) with | some b => wordAt b (o % size) 0 | none => 0xFFFFFFFF

/-- The word of a sector between the configuration store and the board area: the anchor ring, the state ring, the calibration copies
and the update journal; the security record copies read as zero. -/
def ringsWord (l : Ledger) (sec o : Nat) : Word :=
  if sec < 3392 then ringWord l.anchorLog 126 64 32 (sec - 3328) o
  else if sec < 3584 then ringWord l.ring 126 192 32 (sec - 3392) o
  else if sec < 3616 then ringWord l.calLog 7 16 512 (sec % 16) o
  else if sec < 3632 then 0
  else ringWord l.journal 126 64 32 (sec - 3632) o

/-- The payload word of a sector at an offset from 64 on. The words of a sector under erase, or whose erase failed, are not fixed:
free values. -/
def ledgerWord (d : Dev) (a : Nat) : Word × Dev :=
  let sec := a / 4096
  let o := a % 4096 - 64
  if a % 4096 < 64 then (0, d)
  else if sec < 2048 then
    let b := d.ldg.banks.getD (sec / 1024) { header := [], stream := [] }
    if b.header = [] then (0xFFFFFFFF, d)
    else if sec % 1024 = 0 then (wordAt b.header o 0, d)
    else (wordAt b.stream ((sec % 1024 - 1) * 4032 + o) 0xFF, d)
  else if sec < 3072 then
    match recordAt d.evt (sec - 2048) (o / 64) with
    | some r => (wordAt (recordImage r) (o % 64) 0, d)
    | none => (0xFFFFFFFF, d)
  else if sec < 3328 then (0, d)
  else if sec < 3696 then (ringsWord d.ldg sec o, d)
  else if sec < 3840 then
    if d.ldg.erase.any (fun e => e.sector = sec) || d.ldg.spoiled.contains sec then draw32 d
    else ((getKey d.ldg.words (a / 4 * 4)).getD 0xFFFFFFFF, d)
  else (0, d)

/-- A read of LDG_RD_DATA: LDG_RD_ADDR rises by one word, modulo its field. -/
def rdData (d : Dev) : Dev × Except Nat Word :=
  let a := (reg d 0x20020).toNat % 2 ^ 24 / 4 * 4
  let r := ledgerWord d a
  (setReg r.2 0x20020 (BitVec.ofNat 32 ((a + 4) % 2 ^ 24)), .ok r.1)

/-! ## The unlock sequence (R441, R442) -/

/-- The sequence ends without starting anything. -/
def seqBreak (d : Dev) (p : Principal) : Dev := setLdgResult (d.modLdg fun l => { l with seq := .idle }) p .seqError

/-- A write to the interface: refused with DETAIL 0x04 while another principal owns it. -/
def ldgOwned (p : Principal) (f : Dev → Dev) (d : Dev) : Dev × Nat :=
  match d.ldg.owner with
  | some o => if o = p then (f d, 0) else (d, 4)
  | none => (f d, 0)

/-- LDG_KEY: a principal that finds no sequence in progress owns the interface. -/
def ldgKey (p : Principal) (v : Word) : Dev → Dev × Nat :=
  ldgOwned p fun d =>
    let d1 := d.modLdg fun l => { l with owner := some p }
    match d.ldg.seq with
    | .idle => if v = 0xAA55 then d1.modLdg fun l => { l with seq := .key1 } else seqBreak d1 p
    | .key1 => if v = 0x55AA then d1.modLdg fun l => { l with seq := .key2 } else seqBreak d1 p
    | _ => seqBreak d1 p

/-- The principal's erase that SUSPEND or RESUME acts on changes; BAD_STATE with nothing to act on (R444). -/
def holdErase (p : Principal) (hold : Bool) (d : Dev) : Dev :=
  match eraseOf d.ldg p with
  | some e =>
    if e.byOwner = hold then setLdgResult d p .badState
    else
      setLdgResult (d.modLdg fun l => { l with erase := l.erase.map fun x => if x = e then { x with byOwner := hold } else x }) p .done
  | none => setLdgResult d p .badState

/-- LDG_CMD. -/
def ldgCmd (p : Principal) (v : Word) : Dev → Dev × Nat :=
  ldgOwned p fun d =>
    if d.ldg.seq ≠ .key2 then seqBreak d p
    else
      let d1 := d.modLdg fun l => { l with seq := .idle }
      match wbits v 31 28 with
      | 1 => d.modLdg fun l => { l with seq := .cmd false }
      | 2 => d.modLdg fun l => { l with seq := .cmd true }
      | 3 => holdErase p true d1
      | 4 => holdErase p false d1
      | _ => seqBreak d p

/-- An address that a principal may program or erase: a word of the board area, headers apart (R443). -/
def boardAddr (a : Nat) : Bool := decide (3696 ≤ a / 4096) && decide (a / 4096 < 3840) && decide (64 ≤ a % 4096)

/-- LDG_ADDR: ERASE starts here. -/
def ldgAddr (p : Principal) (v : Word) : Dev → Dev × Nat :=
  ldgOwned p fun d =>
    let a := wbits v 23 2 * 4
    match d.ldg.seq with
    | .cmd false => d.modLdg fun l => { l with seq := .addr a }
    | .cmd true =>
      let d1 := d.modLdg fun l => { l with seq := .idle }
      if !boardAddr a then setLdgResult d1 p .denied
      else d1.modLdg fun l =>
        { l with erase := l.erase ++ [{ owner := p, sector := a / 4096, pulses := 0, byOwner := false,
                                        byShp := d.dur.save ≠ .idle || d.sec.zeroing }] }
    | _ => seqBreak d p

/-- A word holds a 0 where the value holds a 1. -/
def clashes (old v : Word) : Bool := (~~~ old &&& v) ≠ 0

/-- The programs that wait at the head and cannot run end NOT_ERASED. -/
def dropClashes (d : Dev) : List LdgProg → Dev
  | [] => d.modLdg fun l => { l with progs := [] }
  | g :: gs =>
    let w := ledgerWord d g.addr
    if clashes w.1 g.value then dropClashes (setLdgResult w.2 g.owner .notErased) gs
    else w.2.modLdg fun l => { l with progs := g :: gs }

/-- LDG_DATA: PROGRAM starts here, after the commands that the die is executing. -/
def ldgData (p : Principal) (v : Word) : Dev → Dev × Nat :=
  ldgOwned p fun d =>
    match d.ldg.seq with
    | .addr a =>
      let d1 := d.modLdg fun l => { l with seq := .idle }
      if !boardAddr a then setLdgResult d1 p .denied
      else
        let g : LdgProg := { owner := p, addr := a, value := v }
        match d1.ldg.progs with
        | [] => dropClashes d1 [g]
        | gs => d1.modLdg fun l => { l with progs := gs ++ [g] }
    | _ => seqBreak d p

/-- A step of the sequence was not followed within 1 ms (R441). -/
def ldgLapse (d : Dev) : Dev :=
  match d.ldg.owner with
  | some p => if d.ldg.seq = .idle then d else seqBreak d p
  | none => d

/-- 1 s passed without a write from the owner (R442). -/
def ldgOwnerLapse (d : Dev) : Dev := (ldgLapse d).modLdg fun l => { l with owner := none }

/-! ## The die (R424, R425, R443, R444) -/

/-- A word program has finished: the word holds the value, or after a failed verify a value that nothing fixes. -/
def ldgProgDone (verified : Bool) (d : Dev) : Dev :=
  match d.ldg.progs with
  | [] => d
  | g :: gs =>
    let put (a : Dev) (w : Word) : Dev :=
      a.modLdg fun l => { l with words := if w = 0xFFFFFFFF then delKey l.words g.addr else putKey l.words g.addr w }
    let d1 :=
      if verified then setLdgResult (put d g.value) g.owner .done
      else
        let w := draw32 d
        raiseOp (setLdgResult (put w.2 w.1) g.owner .verifyFail) 0x0903 srcLDG []
    dropClashes d1 gs

/-- The erase that the die is executing: the first that nobody has suspended. -/
def runningErase (l : Ledger) : Option LdgErase := l.erase.find? fun e => !e.byOwner && !e.byShp

/-- A pulse of 1 ms has finished (R425): an erase ends once it verifies, from 45 pulses on, or fails after 400. -/
def erasePulse (sector : Nat) (verified : Bool) (d : Dev) : Dev :=
  match runningErase d.ldg with
  | none => d
  | some e =>
    if e.sector ≠ sector then d
    else
      let n := e.pulses + 1
      let gone := d.modLdg fun l =>
        { l with erase := l.erase.erase e, words := l.words.filter (fun w => w.1 / 4096 ≠ sector),
                 spoiled := l.spoiled.filter fun k => k ≠ sector }
      if verified && decide (45 ≤ n) then countErase (setLdgResult gone e.owner .done) sector
      else if 400 ≤ n then
        raiseOp (setLdgResult (countErase (gone.modLdg fun l => { l with spoiled := addNum l.spoiled sector }) sector) e.owner .eraseFail)
          0x0904 srcLDG []
      else d.modLdg fun l => { l with erase := l.erase.map fun x => if x = e then { x with pulses := n } else x }

/-- An erase has been running for 10 s without finishing (R444). -/
def eraseSlow (sector : Nat) (d : Dev) : Dev :=
  if d.ldg.erase.any (fun e => e.sector = sector) then raiseOp d 0x0905 srcLDG [sector] else d

/-- A move falls due after SHIFT_EVERY logical erases; one that falls due during a save waits, and so does one of a sector that
is being erased (R431, R445). -/
def windowMove (d : Dev) : Dev :=
  let l := d.ldg
  let every := regBits d 0x20034 15 0
  if l.sinceMove < every || d.dur.save ≠ .idle || l.erase.any (fun e => e.sector = l.moves) then d
  else
    let src := (l.base + 256 + l.moves) % 4096
    let d1 := wearSector (d.modLdg fun x => { x with sinceMove := x.sinceMove - every, moves := x.moves + 1 }) src
    if d1.ldg.moves < 3840 then d1
    else
      let b := (l.base + 3840) % 4096
      raiseOp (d1.modLdg fun x => { x with base := b, moves := 0 }) 0x0906 srcLDG [b]

/-! ## SHP_CMD (R439, R440, R450) -/

/-- SHP_CMD: nothing while BUSY. RESULT is 0 DONE, 1 BAD_STATE, 2 BAD_CONFIRM, 3 NO_SPACE. -/
def shpCmd (f : Dev → Dev × Nat) (d : Dev) : Dev × Nat :=
  if d.ldg.cmdBusy then (d, 0)
  else
    let r := f d
    (r.1.modLdg fun l => { l with cmdResult := r.2 }, 0)

/-- A full store refuses a further record. -/
def shpStore (f : Dev → Dev) (d : Dev) : Dev × Nat := if d.ldg.cfg.full then (d, 3) else (f d, 0)

/-- STORE_TUNING: an invalid sequence is not stored (R475). -/
def shpTuning (d : Dev) : Dev × Nat :=
  if seqValid ((List.range 16).map fun n => seqA d n) then shpStore storeTuning d else (d, 1)

/-- STORE_IDENTITY. -/
def shpIdentity (confirm : BitVec 16) (d : Dev) : Dev × Nat :=
  if confirm ≠ 0x7A3C then (d, 2)
  else if !(d.twin.st = .fenced || (d.twin.st = .unpaired && d.net.conns.isEmpty)) then (d, 1)
  else shpStore storeNetwork d

/-! ## The rows -/

/-- LDG_KEY_WRITE (R441). -/
def execLdgKeyWrite (p : Principal) (value : Word) (s : State) : Res := onDev (command p 0x20000 (ldgKey p value)) s
/-- PROGRAM of LDG_CMD, at its write of LDG_DATA (R441, R443). -/
def execLdgProgram (p : Principal) (value : Word) (s : State) : Res := onDev (command p 0x2000C (ldgData p value)) s
/-- ERASE of LDG_CMD, at its write of LDG_ADDR (R441, R443). -/
def execLdgErase (p : Principal) (value : Word) (s : State) : Res := onDev (command p 0x20008 (ldgAddr p value)) s
/-- SUSPEND of LDG_CMD (R444). -/
def execLdgSuspend (p : Principal) (s : State) : Res := onDev (command p 0x20004 (ldgCmd p 0x30000000)) s
/-- RESUME of LDG_CMD (R444). -/
def execLdgResume (p : Principal) (s : State) : Res := onDev (command p 0x20004 (ldgCmd p 0x40000000)) s
/-- LDG_SEQUENCE_LAPSE (R441). -/
def execLdgSequenceLapse (s : State) : Res := onDev ldgLapse s
/-- LDG_OWNER_LAPSE (R442). -/
def execLdgOwnerLapse (s : State) : Res := onDev ldgOwnerLapse s
/-- LDG_STATUS_READ (R442). -/
def execLdgStatusRead (p : Principal) (s : State) : Res := onDev (readAs p 0x20010 (ldgStatusRead p)) s
/-- LDG_RD_DATA_READ (R446). -/
def execLdgRdDataRead (p : Principal) (s : State) : Res := onDev (readAs p 0x20024 rdData) s
/-- LEDGER_ERASE_PULSE (R425). -/
def execLedgerErasePulse (sector : Nat) (verified : Bool) (s : State) : Res := onDev (erasePulse sector verified) s
/-- LEDGER_PROGRAM_DONE (R443). -/
def execLedgerProgramDone (verified : Bool) (s : State) : Res := onDev (ldgProgDone verified) s
/-- LEDGER_ERASE_SLOW (R444). -/
def execLedgerEraseSlow (sector : Nat) (s : State) : Res := onDev (eraseSlow sector) s
/-- LEDGER_WINDOW_MOVE (R431). -/
def execLedgerWindowMove (s : State) : Res := onDev windowMove s
/-- STORE_TUNING (R439). -/
def execStoreTuning (p : Principal) (s : State) : Res := onDev (command p 0x10008 (shpCmd shpTuning)) s
/-- STORE_IDENTITY (R450). -/
def execStoreIdentity (p : Principal) (confirm : BitVec 16) (s : State) : Res :=
  onDev (command p 0x10008 (shpCmd (shpIdentity confirm))) s
/-- COMPACT (R440). -/
def execCompact (p : Principal) (s : State) : Res := onDev (command p 0x10008 (shpCmd fun d => (compactStore d, 0))) s

end Sys2Proof.Machine
end

