-- ==== Sys2Proof/Machine/Energy.lean ====
section
/-! DEFINITION. The hold-up store and the dirty budget: the two energy estimates, the coulomb count, the discharge test and the
budget (R252 to R263, R485). Energies are exact, in nJ. -/
namespace Sys2Proof.Machine

/-! ## Calibration records (R491, R492) -/

/-- The calibration record in use: CAL_STATUS.SOURCE 0 copy A, 1 copy B, 2 the factory values (R492, R495). -/
def calInUse (d : Dev) : Option CalRec :=
  match d.pwr.calSource with | 0 => d.ldg.calA | 1 => d.ldg.calB | _ => none

/-- The factory record: no trim, no measured capacitance. -/
def factoryCal : CalRec :=
  { count := 0, time := 0, parts := 0, railTrim := List.replicate 8 (0, 0), holdGain := 0, holdOfs := 0, shunt0 := 0, shunt1 := 0,
    drive := List.replicate 256 0, cMeas := 0, countSat := false }

/-- IEEE 1588 time in POSIX seconds; zero when time is not valid (R491). -/
def calTime (d : Dev) : Nat := if d.twin.timeValid then ptpNow d / 1000000000 else 0

/-- The 508 bytes of a calibration record before its CHECK (R491). -/
def calImage (r : CalRec) : List Byte :=
  let s8 (n : Int) : List Byte := [BitVec.ofInt 8 n]
  let s16 (n : Int) : List Byte := leBytes 2 (BitVec.ofInt 16 n).toNat
  leBytes 4 r.count ++ leBytes 8 r.time ++ leBytes 2 r.parts ++ leBytes 2 0 ++
    ((List.range 8).flatMap fun i => match r.railTrim.getD i (0, 0) with | (u, o) => s8 u ++ s8 o) ++
    s16 r.holdGain ++ s16 r.holdOfs ++ s16 r.shunt0 ++ s16 r.shunt1 ++ (List.range 36).map Config.tempOfs ++ leBytes 4 0 ++
    ((List.range 256).map fun i => BitVec.ofNat 8 (r.drive.getD i 0)) ++ leBytes 4 r.cMeas ++ leBytes 1 r.countSat.toNat ++
    List.replicate 167 0

/-- Write a calibration record to both copies: CAL_COUNT rises by one, and the record is the one in use (R491, R492). -/
def writeCal (d : Dev) (f : CalRec → CalRec) : Dev :=
  let old := (calInUse d).getD factoryCal
  let r := { f old with count := old.count + 1, time := calTime d, countSat := d.dur.countSat }
  (d.modLdg fun l => { l with calA := some r, calB := some r, calLog := putRing l.calLog fun _ => calImage r }).modPwr fun p => { p with calSource := 0 }

/-! ## The constants of the board (R485, R493) -/

/-- Capacitance in mF. -/
def capOf (d : Dev) : Nat :=
  match calInUse d with
  | some r => if r.cMeas ≠ 0 then r.cMeas else regBits d 0x30070 23 0
  | none => regBits d 0x30070 23 0

def vFull (d : Dev) : Nat := regBits d 0x30074 27 16 * 100
def vMin (d : Dev) : Nat := regBits d 0x30074 11 0 * 100

/-! ## The estimates (R256, R485) -/

/-- Half of C V² in nJ. -/
def halfCV (c : Nat) (v : Rat) : Rat := (c : Rat) * v * v / 2

/-- The bank voltage averaged over the ten latest samples. -/
def holdAvg (d : Dev) : Rat :=
  if d.dur.samples.isEmpty then (d.dur.holdV : Rat)
  else ((d.dur.samples.foldl (· + ·) 0 : Nat) : Rat) / (d.dur.samples.length : Rat)

/-- The bank's constants are set; while PWR_HOLD_CAP or V_FULL is 0, both estimates are 0 (R493). -/
def bankSet (d : Dev) : Bool := regBits d 0x30070 23 0 ≠ 0 && vFull d ≠ 0

def eVolt (d : Dev) : Rat :=
  if bankSet d then max 0 (halfCV (capOf d) (holdAvg d) - halfCV (capOf d) (vMin d : Rat)) else 0

def eCount (d : Dev) : Rat :=
  if bankSet d ∧ 0 < d.dur.acc then
    max 0 ((d.dur.acc : Rat) * (d.dur.acc : Rat) / (2 * (capOf d : Rat) * 1000000) - halfCV (capOf d) (vMin d : Rat))
  else 0

/-- Energy above V_min at the floor of a discharge test, 0.85 × V_full (R260). -/
def eTest (d : Dev) : Rat :=
  if bankSet d then max 0 (halfCV (capOf d) ((vFull d : Rat) * 85 / 100) - halfCV (capOf d) (vMin d : Rat)) else 0

/-- e_gov of R253. -/
def eGov (d : Dev) (test : Bool) : Rat :=
  let e := if d.dur.cntValid then min (eCount d) (eVolt d) else eVolt d * 7 / 10
  if test then min e (eTest d) else e

/-! ## The terms of the budget (R254, R314) -/

def insertUp (x : Nat) : List Nat → List Nat
  | [] => [x]
  | y :: t => if x ≤ y then x :: y :: t else y :: insertUp x t

/-- t_slow in ns: the 99.9th percentile of the last 60 s, or the rated maximum below 10,000 programs. -/
def tSlow (d : Dev) : Nat :=
  let ts := (d.ftl.progTimes.filter fun t => decide (d.clock ≤ t.1 + 60000000000)).map fun t => t.2
  if ts.length < 10000 then d.ftl.part.progMaxNs
  else (ts.foldl (fun l x => insertUp x l) []).getD (ceilDiv (ts.length * 999) 1000 - 1) d.ftl.part.progMaxNs

/-- r_save in bytes per ns. -/
def rSave (d : Dev) : Rat :=
  if tSlow d = 0 then 0 else ((diesInUse d.ftl * d.ftl.part.planes * 16384 : Nat) : Rat) / (tSlow d : Rat)

def pSave (d : Dev) : Nat := max (regBits d 0x30210 15 0) d.dur.pLast

/-- The metadata volume m in bytes. -/
def saveMeta (d : Dev) : Nat :=
  let gib := d.env.dimmGiB * 24
  let w := Config.workingTier gib % (gib * 2 ^ 30 + 1)
  let dDiv :=
    if d.twin.ident.isNone then 0 else if paired d then 2 ^ 29
    else min (2 ^ 34) ((addNums [] (d.twin.diverge.leaves.map fun l => l / 32768)).length * 4096)
  w * 13 / 4096 + 2 ^ 32 + dDiv + 8 * d.dur.poison.length

/-- b of R253, in bytes, for an energy. -/
def budgetFor (d : Dev) (e : Rat) : Nat :=
  if pSave d = 0 then 0
  else
    let tWin := e / (pSave d : Rat) - (regBits d 0x3020C 31 22 * 1000000 : Nat)
    let b := (rSave d * tWin - (saveMeta d : Rat)).floor.toNat
    min (roundDown b (2 ^ 26)) (2 ^ 39)

/-- The budget and its SOURCE: forced to zero while P_FLOOR is 0 (R255), while both slots hold live images (R274) and while the
space is read-only. -/
def budgetNow (d : Dev) : Nat × BudgetSource :=
  if regBits d 0x30210 15 0 = 0 || slotsFull d || d.ftl.readOnly then (0, .forcedZero)
  else
    (budgetFor d (eGov d (d.dur.test = .running)),
     if !d.dur.cntValid then .derated else if eCount d ≤ eVolt d then .count else .voltage)

/-- BUDGET_UPDATE: the shepherd writes the budget into the hall (R38, R253); waiting operations and commands may find room. -/
def budgetUpdate (d : Dev) : Dev :=
  let b := budgetNow d
  let floor0 := decide (regBits d 0x30210 15 0 = 0)
  let d1 := d.modDur fun u => { u with budget := b.1, source := b.2, forced := floor0 }
  settleFully (if floor0 && !d.dur.forced then raiseOp d1 0x0101 srcPWR [] else d1)

/-- The hall has seen no update for 10 ms: the budget is zero until the next one, and 0x0101 says so each time (R38). -/
def budgetLost (d : Dev) : Dev :=
  raiseOp (d.modDur fun u => { u with budget := 0, source := .forcedZero }) 0x0101 srcPWR []

/-- D has exceeded B for 100 ms (R263). -/
def overBudget (d : Dev) : Dev :=
  if d.dur.budget < d.dur.dirty.length * 64 then raise d 0x0103 srcPWR (valuesPayload []) d.folds.live else d

/-! ## Sampling (R256, R259, R485) -/

/-- Bank voltage of a raw sample in mV: 1.024 V in 65,536 steps, times the divider. -/
def holdMv (d : Dev) (raw : BitVec 16) : Nat := raw.toNat * regBits d 0x30068 15 0 / 16384

/-- HOLD_V_SAMPLE. -/
def holdSample (raw : BitVec 16) (d : Dev) : Dev :=
  let mv := holdMv d raw
  d.modDur fun u => { u with holdV := mv, samples := (u.samples ++ [mv]).drop (u.samples.length + 1 - 10) }

/-- A discharge test is scheduled: 0x0104. -/
def scheduleTest (d : Dev) : Dev :=
  if d.dur.test = .idle then raiseOp (d.modDur fun u => { u with test := .scheduled }) 0x0104 srcPWR [capOf d] else d

/-- The charge of a shunt sample in nC: ±100 mV in 65,536 steps over the shunt in µΩ, for 10 µs. A shunt of 0 µΩ gives no
current that the spec states: a free value. -/
def shuntCharge (d : Dev) (raw : BitVec 16) : Int × Dev :=
  let r := regBits d 0x3006C 15 0
  if r = 0 then let w := draw32 d; (w.1.toInt, w.2)
  else ((raw.toInt * 1000000000).tdiv (32768 * (r : Int)), d)

/-- SHUNT_SAMPLE: the charge is added; an overflow of the 48 value bits saturates the accumulator (R259). -/
def shuntSample (raw : BitVec 16) (d : Dev) : Dev :=
  let q := shuntCharge d raw
  let was := eCount q.2
  let a := q.2.dur.acc + q.1
  let top : Int := 2 ^ 47
  let over' := decide (top ≤ a) || decide (a < -top)
  let a' := if top ≤ a then top - 1 else if a < -top then -top else a
  let d1 := (q.2.modDur fun u => { u with acc := a', testQ := u.testQ + q.1 }).modPwr fun p => { p with holdI := q.1 / 10 }
  let d2 := if d1.dur.cntValid && decide (0 < was) && decide (eCount d1 = 0) && decide (0 < eVolt d1) then
      raiseOp d1 0x0102 srcPWR [] else d1
  if over' then
    scheduleTest (raiseOp (d2.modDur fun u => { u with cntValid := false, countSat := true }) 0x0105 srcPWR [])
  else d2

/-- ACCUMULATOR_ANCHOR: the bank has stood for 10 s within 1 % of V_full with little current (R485). -/
def anchorCount (d : Dev) : Dev :=
  if d.dur.cntValid || !bankSet d || d.dur.test = .running || decide (d.dur.holdV * 100 < vFull d * 99) ||
      decide (vFull d * 101 < d.dur.holdV * 100) || decide (500 ≤ d.pwr.holdI.natAbs) then d
  else if d.dur.countSat then scheduleTest d
  else d.modDur fun u => { u with acc := ((capOf d * u.holdV * 1000 : Nat) : Int), cntValid := true }

/-- MISMATCH_WINDOW_END (R258). Without a valid count there is nothing to compare. -/
def mismatchEnd (d : Dev) : Dev :=
  let a := eCount d
  let b := eVolt d
  let diff := if a ≤ b then b - a else a - b
  if !d.dur.cntValid then d
  else if diff * 100 ≤ ((regBits d 0x3020C 13 8 : Nat) : Rat) * max a b then d.modDur fun u => { u with mismatch := 0 }
  else
    let d1 := raiseOp (d.modDur fun u => { u with mismatch := u.mismatch + 1 }) 0x0102 srcPWR []
    if 3 ≤ d1.dur.mismatch then scheduleTest (d1.modDur fun u => { u with mismatch := 0 }) else d1

/-! ## The discharge test (R260) -/

/-- DISCHARGE_TEST_START: the bank stands at 98 % of its full voltage and D fits the budget of the test's floor. -/
def testStart (d : Dev) : Dev :=
  if d.dur.test ≠ .scheduled || !d.dur.mainOk || d.dur.save ≠ .idle || decide (d.dur.holdV * 100 < vFull d * 98) ||
      decide (budgetFor d (eTest d) < d.dur.dirty.length * 64) then d
  else
    let d1 := d.modDur fun u => { u with test := .running, testQ := 0, testV := u.holdV }
    budgetUpdate (raiseOp (chargerLines d1) 0x0104 srcPWR [capOf d])

/-- The test ends without a result. -/
def testFails (d : Dev) : Dev :=
  if d.dur.test ≠ .running then d
  else raiseOp (chargerLines (d.modDur fun u => { u with test := .idle })) 0x0104 srcPWR [capOf d]

/-- DISCHARGE_TEST_FLOOR: C is the charge over the drop of voltage; the count is set and valid again. The first test that
completes after PWR_HOLD_CAP was written gives C0 (R512). -/
def testFloor (d : Dev) : Dev :=
  if d.dur.test ≠ .running || decide (vFull d * 85 < d.dur.holdV * 100) then d
  else if d.dur.testV ≤ d.dur.holdV then testFails d
  else
    let c := (-d.dur.testQ).toNat / ((d.dur.testV - d.dur.holdV) * 1000)
    let d1 := writeCal (d.modDur fun u => { u with test := .idle, countSat := false }) fun r => { r with parts := 16, cMeas := c }
    let d2 := d1.modDur fun u => { u with acc := ((c * u.holdV * 1000 : Nat) : Int), cntValid := true }
    let d3 := d2.modLdg fun l => { l with cal0 := if l.cal0 = 0 then c else l.cal0 }
    raiseOp (chargerLines d3) 0x0104 srcPWR [c]

/-! ## The rows -/

/-- BUDGET_UPDATE (R253). -/
def execBudgetUpdate (s : State) : Res := onDev budgetUpdate s
/-- BUDGET_WATCHDOG_EXPIRY (R38). -/
def execBudgetWatchdogExpiry (s : State) : Res := onDev budgetLost s
/-- DIRTY_OVER_BUDGET (R263). -/
def execDirtyOverBudget (s : State) : Res := onDev overBudget s
/-- HOLD_V_SAMPLE (R256). -/
def execHoldVSample (raw : BitVec 16) (s : State) : Res := onDev (holdSample raw) s
/-- SHUNT_SAMPLE (R485). -/
def execShuntSample (raw : BitVec 16) (s : State) : Res := onDev (shuntSample raw) s
/-- ACCUMULATOR_ANCHOR (R485). -/
def execAccumulatorAnchor (s : State) : Res := onDev anchorCount s
/-- MISMATCH_WINDOW_END (R258). -/
def execMismatchWindowEnd (s : State) : Res := onDev mismatchEnd s
/-- DISCHARGE_TEST of PWR_DUR_CMD (R260). -/
def execDischargeTest (p : Principal) (s : State) : Res := onDev (command p 0x3021C fun d => (scheduleTest d, 0)) s
/-- DISCHARGE_TEST_START (R260). -/
def execDischargeTestStart (s : State) : Res := onDev testStart s
/-- DISCHARGE_TEST_FLOOR (R260). -/
def execDischargeTestFloor (s : State) : Res := onDev testFloor s
/-- DISCHARGE_TEST_TIMEOUT (R260). -/
def execDischargeTestTimeout (s : State) : Res := onDev testFails s

end Sys2Proof.Machine
end

