-- ==== Sys2Proof/Machine/Warm.lean ====
section
/-! DEFINITION. The registers as a start leaves them, standing down from service, and the warm reset (R23, R518, R522 to R524,
R539, R544). -/
namespace Sys2Proof.Machine

/-! ## Registers at a start (R23, R438, R462, R518, R544, R546) -/

/-- Write a list of stored values back. -/
def putRegs (rs : List (Nat × Word)) (l : List (Nat × Word)) : List (Nat × Word) := l.foldl (fun m w => setRegVal m w.1 w.2) rs

/-- The REGISTERS record applies only in the running tuning format (R462). -/
def tuneApplies (d : Dev) : Option TuneRec :=
  match d.ldg.cfg.tuning with | some t => if t.fmt = tuningFmt d then some t else none | none => none

/-- The SEQUENCE record that a power-up uses: in the running format, and valid (R475). -/
def seqRecord (d : Dev) : Option (List (Nat × Word)) :=
  match d.ldg.cfg.sequence with
  | some (f, l) =>
    if f = tuningFmt d && seqValid ((List.range 16).map fun n => (getKey l (0x300A0 + 4 * n)).getD 0) then some l else none
  | none => none

/-- The fields of the event recorder's block return to their reset values, EVT_FOLD_RL and the counts of EVT_RL_DROP among them
(R23, R514); the tuning record gives the code buckets and the snapshot sets. -/
def evtAtStart (t : Option TuneRec) (v : Evt) : Evt :=
  { v with rlCfg := (match t with | some x => x.rlCfg | none => []), snaps := (match t with | some x => x.snaps | none => []),
           codes := v.codes.map fun c => (c.1, { c.2 with drop := 0 }), foldRl := Evt.reset.foldRl, pend := 0, refused := false,
           ringResult := 0 }

/-- Every field returns to its reset value but the RWS fields and those given to keep; then the shepherd writes the identity and
the tuning records back. -/
def startRegs (d : Dev) (keep : List (Nat × Word)) : Dev :=
  let base := d.regs.filter fun r => isRws r.1
  let r1 := putRegs base (d.ldg.cfg.network.getD [])
  let r2 := match tuneApplies d with | some t => putRegs r1 t.regs | none => r1
  let r3 := match seqRecord d with | some l => putRegs r2 l | none => r2
  { d with regs := putRegs r3 keep, latches := [] }.modEvt (evtAtStart (tuneApplies d))

/-- The live values of the shared-configuration set, which the control area keeps (R545). -/
def sharedLive (d : Dev) : List (Nat × Word) := liveRegs d sharedAddrs

/-! ## Standing down (R227, R232, R266, R270, R523) -/

/-- A unit leaves its part in serving or in the pair before a save or a warm reset: a serving unit enters FENCED with HANDOVER, a
standby applies the records it holds in full, and a joiner abandons its join. -/
def standDown (d : Dev) : Dev :=
  match d.twin.st with
  | .standby => enterState (leavePair (drainHeld (d.twin.held.length + 1) d)) .fenced
  | .joining => enterState (abandonJoin d) .fenced
  | .fenced => d
  | .active | .unpaired => fence d

/-- The data ports and the management port lose their links. -/
def portsDown (d : Dev) : Dev := (List.range 17).foldl (fun a p => linkDown p a) d

/-! ## The warm reset (R522, R523) -/

/-- Steps 1 and 2 begin. -/
def warmBegin (d : Dev) : Dev :=
  (standDown (d.modRst fun r => { r with warm := .quiesce, due := false, warmDue := false })).modFtl fun f => { f with ckpt := none }

/-- The fields of a DRAM channel's block (R23, R357) with the channel in self-refresh; the timing sets and the trained values keep
(R337). -/
def chanHold (c : Chan) : Chan :=
  let x := { c with step := Chan.reset.step, temp := Chan.reset.temp, err := Chan.reset.err }
  if c.st = .ready || c.st = .freqChange then { x with st := .selfRefresh, subs := [SubCh.reset, SubCh.reset], injected := [] } else x

/-- The hall's block: nothing runs, and the counts that HAL_ECC_SEL selects and the FAULT bits of HAL_STATUS return to zero (R23,
R385). The arrays keep their contents (R374). -/
def hallHold (h : Hall) : Hall :=
  { h with run := none, invDone := false, lastBad := false, sliceFault := false, penFault := false,
           arrays := h.arrays.map fun a => { a with ce := 0, ue := 0, bucket := 0 } }

/-- Step 4: every island but the shepherd's is in reset. DRAM, on-chip arrays, the key register file, the ledger and the shepherd's
state keep; so do connection states, keys, counters, path state and result stores (R517, R524). -/
def warmHold (d : Dev) : Dev :=
  let d1 := ldgLapse (lapseBank (twlDown false (portsDown d)))
  let d2 := d1.modNet fun t => { t with ctxCache := [], turns := [], opTurn := 0, dpTurns := [], groups := [], badTail := [], parked := [] }
  let d3 := d2.modFolds fun f =>
    { f with slots := List.replicate 16 Slot.free, queue := [], waits := none, caches := [], connResult := 0, connNamed := 0,
             connBusy := false }
  let d4 := d3.modDram fun m =>
    { m with busy := false, result := .done, refused := false, chans := m.chans.map chanHold }
  let d5 := (d4.modHall hallHold).modSec fun s =>
    { s with lanes := s.lanes.map (fun _ => Lane.reset), pke := Sec.reset.pke, last := .done, keyResult := .done, keyNamed := 0 }
  let d6 := (d5.modFtl fun f => { f with suspends := [], reads := [], marked := [] }).modTwin fun t => { t with lastCmd := .done }
  let d7 := d6.modUpd fun u =>
    { u with busy := false, paused := false, result := .done, progress := 0, st := if u.st = .staging then .idle else u.st }
  let d8 := (d7.modDur fun u => { u with lastMs := 0, budget := 0, source := .forcedZero }).modLdg fun l =>
    { l with cmdBusy := false, cmdResult := 0 }
  let d9 := d8.modRst fun r =>
    { r with run := none, due := false, warmDue := false, result := .done, level := 0, freeAfter := [], galReset := [], bankResult := r.bankResult,
             oldBank := [], warm := .held, gateGal := 0, gateFl := 0, gateDrc := 0 }
  startRegs d9 (sharedLive d)

/-- A warm request (R522, R539): while one runs a further one changes nothing; in RAMP_UP, and during steps 2 to 5 of a save, it
waits; during steps 6 to 8 it is taken at once; with the islands down it is ignored. -/
def warmRequest (byPin : Bool) (d : Dev) : Dev :=
  if d.rst.warm ≠ .none then d
  else
    let d1 := d.modRst fun r => { r with byPin := byPin }
    match d.pwr.st with
    | .rampUp => d1.modRst fun r => { r with warm := .asked }
    | .on => if d.ldg.stage = .firmware then warmBegin d1 else d
    | .saving =>
      match d.dur.save with
      | .draining => d1.modRst fun r => { r with warm := .asked }
      | .image => warmHold d1
      | _ => d
    | _ => d

/-- WARM_RESET_QUIESCED: stamped work has ended, the FTL programs in progress have finished, and the context caches are written
back. -/
def warmQuiesced (d : Dev) : Dev :=
  if d.rst.warm ≠ .quiesce || d.dur.save ≠ .idle || !d.ftl.progs.isEmpty then d else warmHold (runOut d)

/-- Step 6: the islands leave reset with their repairs. -/
def warmLeave (d : Dev) : Dev :=
  if d.rst.warm ≠ .held then d else d.modRst fun r => { r with warm := .leaving }

/-- DRAM comes out of self-refresh with its held values (R337). -/
def dramResume (d : Dev) : Dev :=
  d.modDram fun m => { m with chans := m.chans.map fun c => if c.st = .selfRefresh then { c with st := .ready } else c }

/-- The shepherd scans, invalidates and enables the arrays (R372, R374). -/
def enableHall (d : Dev) : Dev :=
  let d1 := (writeBackAll d).modHall fun h => { invalidateAll h with invDone := true, stopped := [] }
  setReg d1 0x100000 (reg d1 0x100000 ||| flag 31 true)

/-- Steps 6 to 8: DRAM resumes, arrays are enabled, the FTL starts a checkpoint, and the unit starts by R240 or serves as UNPAIRED. A
warm reset during ACTIVATE leaves the unit running the bank that BOOT names (R469). A save in progress resumes instead (R271). -/
def warmFinish (ms : Nat) (d : Dev) : Dev :=
  if d.rst.warm ≠ .leaving || d.dur.save ≠ .idle then d
  else
    let d1 := resumeTxc (enableHall (dramResume d))
    let d2 := d1.modRst fun r => { r with warm := .none, warms := satUp 0xFFFF r.warms, warmed := true }
    let d3 := if d2.upd.st = .activating then
        (d2.modUpd fun u => { u with st := if d2.ldg.boot.trial then .trial else .idle, reverting := false }).modLdg fun l =>
          { l with bankB := l.boot.bankB }
      else d2
    startAgain (raiseOp (ckptStart d3) 0x0111 srcGLB [ms, d3.rst.warms])

end Sys2Proof.Machine
end

