-- ==== Sys2Proof/Machine/Save.lean ====
section
/-! DEFINITION. The power-loss save, from the loss of main input to the ordered power-down (R265 to R272, R486). -/
namespace Sys2Proof.Machine

/-- Both slots hold live images, or a class B zeroing runs: the save writes no image (R274, R411). -/
def noImage (d : Dev) : Bool := slotsFull d || d.sec.zeroing

/-- Steps 1 to 3 of R266: 0x0106, admission stops, the unit stops serving and leaves its pair, and the ports power down. The link
of a serving unit stays up for the drain of step 3; a saving standby sends nothing further (R270). Staging is abandoned (R469), a
discharge test and a calibration end without a result (R260, R497), and the shepherd suspends every ledger erase (R444). -/
def startSave (d : Dev) : Dev :=
  let held := serving d && d.twin.linkUp && d.twin.ident.isSome
  let d1 := raiseOp (setPwr d .saving) 0x0106 srcPWR []
  let d2 := chargerLines (d1.modDur fun u =>
    { u with save := .draining, saveStart := d.clock, cursor := 0, linkHeld := held, test := .idle })
  let d3 := (d2.modPwr fun p => { p with calBusy := false }).modUpd fun u =>
    { u with st := if u.st = .staging then .idle else u.st, busy := false, target := none }
  let d4 := (d3.modHall fun h => { h with run := none }).modFtl fun f => { f with ckpt := none }
  let d5 := d4.modLdg fun l => { l with erase := l.erase.map fun e => { e with byShp := true } }
  let d6 := portsDown (standDown d5)
  if held then d6 else twlDown false d6

/-- The image slot that a new save uses: an empty one, or one that an earlier save left SAVING. -/
def freeSlot (d : Dev) : Option Nat :=
  match d.dur.slots.findIdx? fun s => s.st = .empty with
  | some i => some i
  | none => d.dur.slots.findIdx? fun s => s.st = .saving

/-- The bytes of a line of the persistent space. -/
def lineData (d : Dev) (l : Nat) : List Byte := readBytes d.mem (l * 64) 64

/-- The save image of the unit as it stands at step 6 (R268). -/
def imageNow (d : Dev) : Image :=
  { seq := d.dur.imgSeq + 1, unit := unitBit d, stamp := d.twin.lastStamp, peer := d.twin.peerStamp, rseed := d.twin.rseed,
    lines := d.dur.dirty.map fun l => (l, lineData d l), older := imageLines d, pages := dirtyPages d.ftl d.folds.s,
    map := d.ftl.map.filter (fun e => (dirtyPages d.ftl d.folds.s).contains (e.1 / 819)), starts := d.ftl.opens, wseq := d.ftl.wseq,
    divFull := d.twin.diverge.full, diverge := d.twin.diverge.leaves, poison := d.dur.poison, control := controlAll d,
    trailer := false }

/-- Bytes of the image (R254, R268). -/
def imageBytes (d : Dev) : Nat := saveMeta d + d.dur.dirty.length * 64

/-- Step 9 begins. -/
def endSave (d : Dev) : Dev := powerDown (d.modDur fun u => { u with save := .down })

/-- SAVE_STAMPED_WORK_DONE: steps 4 and 5 have ended; step 6 marks the slot SAVING. A warm request that waited is taken now
(R539). -/
def workDone (d : Dev) : Dev :=
  if d.dur.save ≠ .draining || !d.ftl.progs.isEmpty then d
  else
    let d1 := writeBackAll (runOut d)
    let d2 :=
      if noImage d1 then endSave d1
      else
        match freeSlot d1 with
        | none => endSave d1
        | some i =>
          let im := imageNow d1
          noteSlots d1 <| d1.modDur fun u =>
            { u with save := .image, saveSlot := some i, cursor := 0, imgSeq := im.seq,
                     slots := modAt u.slots i fun _ => { st := .saving, image := some im, left := [], drained := false } }
    if (d2.rst.warm = .asked || d2.rst.warm = .quiesce) && d2.dur.save = .image then warmHold d2 else d2

/-- SAVE_LINK_DRAIN_END: LACK covers every RECORDS frame, or 1 ms has passed. -/
def linkDrained (d : Dev) : Dev :=
  if d.dur.linkHeld then twlDown false (d.modDur fun u => { u with linkHeld := false }) else d

/-- The save runs: it is not paused by a warm reset. -/
def imaging (d : Dev) : Bool := d.dur.save = .image && d.rst.warm ≠ .held && d.rst.warm ≠ .leaving

/-- SAVE_IMAGE_PROGRAM: the next 64 MiB of image are programmed, and the cursor stands after them (R271, R436). -/
def imageProgram (d : Dev) : Dev :=
  if imaging d then
    stateEntry 3 (leBytes 1 (d.dur.saveSlot.getD 0) ++ leBytes 4 (d.dur.cursor + 1)) (d.modDur fun u => { u with cursor := u.cursor + 1 })
  else d

/-- SAVE_IMAGE_DONE (R266 step 8): the trailer is written, the slot reads SAVED with the power measured, the DIRTY entry reads 0
(R472), and the ordered power-down begins. -/
def imageDone (watts ms : Nat) (d : Dev) : Dev :=
  if !imaging d then d
  else
    let d1 := d.modDur fun u =>
      { u with slots := (match u.saveSlot with
                | some i => modAt u.slots i fun s => { s with st := .live, image := s.image.map fun im => { im with trailer := true } }
                | none => u.slots),
               pLast := watts, lastMs := min ms 0xFFFF }
    let d2 := stateEntry 4 [0] ((noteSlots d d1).modLdg fun l => { l with dirty := false })
    endSave (raiseOp d2 0x0107 srcPWR [ms, watts * ms / 1000])

/-- HOLD_UP_LIMIT (R486): the save stops and its slot stays SAVING. -/
def holdLimit (d : Dev) : Dev :=
  if d.pwr.st ≠ .saving || (d.dur.save ≠ .image && d.dur.save ≠ .draining) || decide (vMin d * 105 < d.dur.holdV * 100) then d
  else
    let d1 := takeSnap d .holdLimit 0
    endSave (raise d1 0x0110 srcPWR (snapPayload d1) [])

/-- SAVE_RESUME (R271): after the warm reset DRAM resumes and the save goes on at its cursor. When the energy left is short of what
the rest of the image needs at p_save, SHORT is set with 0x0107. -/
def saveResume (d : Dev) : Dev :=
  if d.dur.save ≠ .image || d.rst.warm ≠ .leaving then d
  else
    let d1 := enableHall (dramResume d)
    let d2 := d1.modRst fun r => { r with warm := .none, warms := satUp 0xFFFF r.warms }
    let rest : Nat := imageBytes d2 - d2.dur.cursor * 2 ^ 26
    let down : Nat := (List.range (seqLen d2)).foldl (fun n k => n + wbits (seqB d2 k) 7 0) 0 * 1000000
    let need : Rat := ((if rSave d2 = 0 then 0 else (rest : Rat) / rSave d2) + (down : Rat)) * (pSave d2 : Rat)
    if eGov d2 false < need then
      raiseOp (d2.modDur fun u => { u with short := true }) 0x0107 srcPWR [(d.clock - d.dur.saveStart) / 1000000, 0]
    else d2

/-! ## The rows -/

/-- SAVE_STAMPED_WORK_DONE (R266). -/
def execSaveStampedWorkDone (s : State) : Res := onDev workDone s
/-- SAVE_LINK_DRAIN_END (R266). -/
def execSaveLinkDrainEnd (s : State) : Res := onDev linkDrained s
/-- SAVE_IMAGE_PROGRAM (R268). -/
def execSaveImageProgram (s : State) : Res := onDev imageProgram s
/-- SAVE_IMAGE_DONE (R266). -/
def execSaveImageDone (watts ms : Nat) (s : State) : Res := onDev (imageDone watts ms) s
/-- HOLD_UP_LIMIT (R486). -/
def execHoldUpLimit (s : State) : Res := onDev holdLimit s
/-- SAVE_RESUME (R271). -/
def execSaveResume (s : State) : Res := onDev saveResume s

end Sys2Proof.Machine
end

