-- ==== Sys2Proof/Machine/Boot.lean ====
section
/-! DEFINITION. The cold start: what it keeps, the ROM's choice of a bank, and the start-up of the parts until the unit may serve
(R301, R334, R336, R381, R403, R412, R426 to R433, R461, R462, R492, R517, R519). -/
namespace Sys2Proof.Machine

/-! ## What a cold start keeps (R23, R433, R482, R517) -/

/-- The ledger after the ROM has resolved its headers: what a program in progress left is not fixed, and a sector whose erase was
interrupted is erased. -/
def coldLedger (d : Dev) : Dev :=
  let d1 := d.ldg.progs.foldl (fun a g =>
    let w := draw32 a
    w.2.modLdg fun l => { l with words := if w.1 = 0xFFFFFFFF then delKey l.words g.addr else putKey l.words g.addr w.1 }) d
  let d2 := d1.ldg.erase.foldl (fun a e =>
    countErase (a.modLdg fun l =>
      { l with words := l.words.filter (fun w => w.1 / 4096 ≠ e.sector), spoiled := l.spoiled.filter fun k => k ≠ e.sector }) e.sector) d1
  d2.modLdg fun l =>
    { l with owner := none, seq := .idle, results := [], erase := [], progs := [], stage := .rom, fallback := false, failA := .none,
             failB := .none, bootMs := 0, cmdBusy := false, cmdResult := 0 }

/-- What flash holds: programs in progress are torn, and what only the engine's memory held is gone. -/
def coldFtl (f : Ftl) : Ftl :=
  { f with cws := f.cws ++ f.progs.flatMap (fun p => p.cws.map fun c => { c with bad := true }), progs := [], map := [], updates := 0,
           ckpt := none, lastCkpt := 0, suspends := [], turn := 0, marks := [], progTimes := [], patrolLate := false, patrolLast := 0,
           reads := [], marked := [], popOk := false }

/-- The device as the ROM finds it: the ledger, OTP, flash and the supervisor's own record of the last off are kept (R482). -/
def coldState (d : Dev) : Dev :=
  let e := coldLedger d
  { Dev.reset with
    freeIdx := e.freeIdx, env := e.env, sent := e.sent, jtag := e.jtag, i3c := e.i3c, ldg := e.ldg, ftl := coldFtl e.ftl,
    regs := e.regs.filter fun r => isRws r.1,
    folds := { Folds.reset with formatted := e.folds.formatted, s := e.folds.s, rta := e.folds.rta },
    dur := { Dur.reset with
      mainOk := e.dur.mainOk, holdV := e.dur.holdV, samples := e.dur.samples, acc := e.dur.acc,
      countSat := (match calInUse e with | some r => r.countSat | none => false), pLast := e.dur.pLast, imgSeq := e.dur.imgSeq,
      slots := e.dur.slots, lost := e.dur.lost },
    twin := { Twin.reset with
      ident := (match e.twin.identNext with | some i => some i | none => e.twin.ident), lastStamp := e.twin.lastStamp,
      rseed := e.twin.rseed, peerStamp := e.twin.peerStamp, peerEcho := e.twin.peerEcho, nextAt := none, ceil := e.twin.ceil,
      wseq := e.twin.wseq, holder := e.twin.holder,
      diverge := (if e.twin.identNext.isSome then { active := true, full := true, leaves := [] } else e.twin.diverge) },
    sec := { Sec.reset with
      wkLedger := e.sec.wkLedger, skLedger := e.sec.skLedger, dkStored := e.sec.dkStored, clearKey := e.sec.clearKey,
      lockout := e.sec.lockout, bErased := e.sec.bErased, alarmSeq := e.sec.alarmSeq, fired := e.sec.fired, cls := e.sec.cls },
    evt := { Evt.reset with
      recs := e.evt.recs, head := e.evt.head, oldest := e.evt.oldest, full := e.evt.full, lHold := e.evt.lHold, lAge := e.evt.lAge,
      ageMon := e.evt.ageMon, ageMax := e.evt.ageMax, erasing := true },
    pwr := { Pwr.reset with
      st := e.pwr.st, cause := e.pwr.cause, rail := e.pwr.rail, tries := e.pwr.tries, en := e.pwr.en &&& 0x4000,
      pg := e.pwr.pg &&& 0x4000, snap := e.pwr.snap, railMv := e.pwr.railMv, inWin := e.pwr.inWin &&& 0xC0,
      holdI := e.pwr.holdI, sensors := e.pwr.sensors, thold := e.pwr.thold, holdValid := e.pwr.holdValid,
      goodConv := e.pwr.goodConv, holdHot := e.pwr.holdHot, calSource := e.pwr.calSource, warmLow := e.pwr.warmLow,
      pwron := e.pwr.pwron },
    rst := { Rst.reset with bankResult := if e.rst.bankOwner.isSome then .lapsed else .done } }

/-- The islands that the sequenced rails feed have lost their supply: what they held is gone. The always-on island keeps what it
holds, the key register file among it (R390). -/
def islandsDown (d : Dev) : Dev :=
  let c := coldState { d with ldg := { d.ldg with progs := [], erase := [] } }
  { d with
    mem := [], folds := c.folds, net := c.net, ftl := c.ftl, dram := c.dram, hall := c.hall,
    sec := { d.sec with lanes := c.sec.lanes, pke := c.sec.pke, slots := [], saveMode := false, zeroing := false },
    twin := { c.twin with ident := d.twin.ident, identNext := d.twin.identNext, diverge := d.twin.diverge },
    dur := { d.dur with dirty := [], grouped := [], poison := [], resident := [], budget := 0, source := .forcedZero, test := .idle, save := .idle,
                        saveSlot := none, linkHeld := false },
    upd := { d.upd with paused := false, busy := false }, pwr := { d.pwr with served := false, calBusy := false } }.modRst fun r =>
    { r with run := none, due := false, warmDue := false, warm := .none, freeAfter := [], galReset := [], oldBank := [], gateGal := 0, gateFl := 0,
             gateDrc := 0 }

/-! ## The ROM (R426, R427, R461) -/

/-- Step 3: the BOOT entry. In trial, each cold start takes one of the tries; with none left the other bank boots. -/
def takeTry (d : Dev) : Dev :=
  let b := d.ldg.boot
  if !b.trial then d
  else if 0 < b.tries then setBoot { b with tries := b.tries - 1 } d
  else raiseOp (setBoot { bankB := !b.bankB, trial := false, tries := 0 } d) 0x0A04 srcUPD []

/-- A bank has failed. -/
def setFail (l : Ledger) (b : Bool) (r : BankFail) : Ledger := if b then { l with failB := r } else { l with failA := r }

/-- RECOVERY: the unit answers on I3C only (R427); 0x0902. -/
def enterRecovery (d : Dev) : Dev := raiseOp (d.modLdg fun l => { l with stage := .recovery }) 0x0902 srcSHP []

/-- 0x0901 with FAIL_A and FAIL_B. -/
def fellBack (d : Dev) : Dev :=
  raiseOp (d.modLdg fun l => { l with fallback := true }) 0x0901 srcSHP [bankFailNo d.ldg.failA, bankFailNo d.ldg.failB]

/-- Registers that the ROM needs: the SEQUENCE record, or the default sequence (R475). -/
def romRegs (d : Dev) : Dev :=
  match seqRecord d with | some l => { d with regs := putRegs d.regs l } | none => d

/-- Steps 4 and 5: the bank that BOOT names, or the other one; then the rails rise, unless they stand. -/
def romBanks (d : Dev) : Dev :=
  let a := d.ldg.boot.bankB
  let first := bankPre d.ldg (bankAt d a)
  let second := bankPre d.ldg (bankAt d (!a))
  let go (x : Dev) : Dev :=
    if x.pwr.st = .on then x else beginStep (setPwr (romRegs x) .rampUp) 0
  if first = .none then go (d.modLdg fun l => { l with bankB := a })
  else
    let d1 := d.modLdg fun l => setFail l a first
    if second = .none then go (fellBack (d1.modLdg fun l => { l with bankB := !a }))
    else enterRecovery (d1.modLdg fun l => setFail l (!a) second)

/-- A power-up: the ROM runs from step 1 (R426, R482). -/
def powerUp (d : Dev) : Dev :=
  let d1 := coldState d
  romBanks (takeTry (d1.modPwr fun p => { p with tries := satUp 255 p.tries }))

/-! ## The firmware starts (R429, R301, R334, R336, R381, R403, R412, R462, R492) -/

/-- Step 6 of the ROM: the signature of the bank taken. -/
def verifyBank (d : Dev) : Dev :=
  let a := d.ldg.bankB
  if signatureOk (bankAt d a) then d.modLdg fun l => { l with stage := .firmware }
  else
    let d1 := d.modLdg fun l => setFail l a .signature
    let other := bankCheck d1.ldg (bankAt d1 (!a))
    if d1.ldg.fallback || other ≠ .none then
      enterRecovery (if d1.ldg.fallback then d1 else d1.modLdg fun l => setFail l (!a) other)
    else fellBack (d1.modLdg fun l => { l with bankB := !a, stage := .firmware })

/-- The identity and tuning records of the store. Tuning records in another format stay unused: TUNE_STALE and 0x0A05 (R462). -/
def loadStore (d : Dev) : Dev :=
  let net := d.ldg.cfg.network.getD []
  let d1 := { d with regs := putRegs d.regs net, idUse := net }
  let d2 := match tuneApplies d1 with
    | some t => { d1 with regs := putRegs d1.regs t.regs }.modEvt fun v => { v with rlCfg := t.rlCfg, snaps := t.snaps }
    | none => d1
  let stale := (match d.ldg.cfg.tuning with | some t => t.fmt ≠ tuningFmt d | none => false) ||
    (match d.ldg.cfg.sequence with | some q => q.1 ≠ tuningFmt d | none => false)
  if stale then raiseOp (d2.modUpd fun u => { u with stale := true }) 0x0A05 srcUPD [] else d2

/-- The entropy source's start-up tests (R403), and a lockout without a clear key ends (R412). -/
def startSec (d : Dev) : Dev :=
  let ok := d.env.entropyOk
  let d1 := d.modSec fun s => { s with entropyOk := ok, drbgStop := !ok }
  let d2 := if ok then d1 else raiseOp d1 0x0305 srcSEC []
  if d2.sec.lockout && d2.sec.clearKey.isNone then raiseOp (d2.modSec fun s => { s with lockout := false }) 0x0304 srcSEC [] else d2

/-- The timings of the trained rate in set A, and the trained values (R336, R353). -/
def trainRegs (rate : Nat) (d : Dev) (c : Nat) : Dev :=
  let t : List (Nat × Word) := (List.range 32).map fun i => (drc c (0x100 + 4 * i), Config.spdTiming rate i)
  let v : List (Nat × Word) := (List.range 256).map fun i => (drc c (0x400 + 4 * i), Config.trainedVal c i)
  { d with regs := putRegs d.regs (t ++ v) }

/-- DRAM: a population that breaks the rule leaves every channel untrained; a channel that fails a step three times is in FAULT. -/
def startDram (d : Dev) : Dev :=
  let e := d.env
  if !e.dimmOk then
    raiseOp (d.modDram fun m =>
      { m with chans := m.chans.zipIdx.map fun x => { x.1 with st := if e.badChans.contains x.2 then .fault else .absent, pop := e.pop } })
      0x0606 (.dram (e.badChans.headD 0)) []
  else
    let d1 := d.modDram fun m =>
      { m with mrdimm := e.mrdimm, rateA := e.rate, trained := e.trained,
               chans := m.chans.zipIdx.map fun x =>
                 match getKey e.trainFail x.2 with
                 | some k => { x.1 with st := .fault, step := k, pop := e.pop }
                 | none => { x.1 with st := .ready, step := 9, pop := e.pop } }
    e.trainFail.foldl (fun a x => raiseOp a 0x0606 (.dram x.1) []) ((List.range 24).foldl (trainRegs e.rate) d1)

/-- The flash population (R301) and the fuse map (R381). -/
def startParts (d : Dev) : Dev :=
  let e := d.env
  let d1 := d.modFtl fun f => { f with popOk := e.flashOk, groups := e.groups, targets := e.targets, part := e.part }
  let d2 := if e.flashOk then d1 else raiseOp d1 0x0504 srcFTL []
  let d3 := d2.modHall fun h => { h with fuseOk := e.fuseOk, repair := e.repair }
  if e.fuseOk then d3 else raiseOp d3 0x0704 srcSHP []

/-- The calibration copies (R492), and the field calibration of a cold start (R490). -/
def startCal (d : Dev) : Dev :=
  let run (a : Dev) (src : Nat) : Dev := a.modPwr fun p => { p with calSource := src, calBusy := true, calParts := 15, calDue := false }
  match d.ldg.calA, d.ldg.calB with
  | some a, some b => run d (if a.count < b.count then 1 else 0)
  | some a, none => run (raiseOp (d.modLdg fun l => { l with calB := some a }) 0x0202 srcCAL []) 0
  | none, some b => run (raiseOp (d.modLdg fun l => { l with calA := some b }) 0x0202 srcCAL []) 1
  | none, none => run (raiseOp d 0x0203 srcCAL []) 2

/-- The drover image is hashed again as it is copied into DRAM (R429). -/
def startDrovers (d : Dev) : Dev := if d.env.drvHashOk then d else enterRecovery d

/-- The last step of the sequence has passed: the firmware starts. BOOT_MS depends on times that no command states: a free value. -/
def bootFinish (d : Dev) : Dev :=
  let d1 := verifyBank (setPwr d .on)
  if d1.ldg.stage ≠ .firmware then d1
  else
    let w := draw32 d1
    let d2 := (w.2.modLdg fun l => { l with bootMs := w.1.toNat % 2 ^ 20 }).modUpd fun u =>
      { u with st := if d1.ldg.boot.trial then .trial else .idle }
    let d3 := startDrovers (startCal (startParts (startDram (startSec (loadStore d2)))))
    if d3.ldg.stage = .recovery then d3
    else finishStart (if d3.hall.fuseOk then enableHall d3 else d3)

/-! ## Accepting a loss (R275, R521) -/

/-- ACCEPT_LOSS: a unit without a pair identity whose contents are lost serves what its own recovery found. A connection cannot
prove its counters any more and moves to ERROR through the order stream. -/
def acceptLoss (confirm : BitVec 16) (d : Dev) : Dev × Nat :=
  if confirm ≠ 0x7A3C || !d.dur.lost || d.twin.ident.isSome || d.twin.st ≠ .fenced then (d, 0)
  else
    let d1 := serveAlone (clearLoss d)
    (if serving d1 then
       d1.net.conns.foldl (fun a x => if x.2.state = .error then a else issueCtrl a (.connChange x.1 (.fail 0x15))) d1
     else d1, 0)

/-- ACCEPT_LOSS of PWR_DUR_CMD (R275). -/
def execAcceptLoss (p : Principal) (confirm : BitVec 16) (s : State) : Res := onDev (command p 0x3021C (acceptLoss confirm)) s

end Sys2Proof.Machine
end

