-- ==== Sys2Proof/Machine/Rings.lean ====
section
/-! DEFINITION. Doorbells, fetching, connection set-up and teardown, and the connection registers (R110 to R143, R222). -/
namespace Sys2Proof.Machine

/-! ## Doorbells (R124 to R126, R135, R222) -/

/-- Later of two indices in serial order (R125). -/
def laterOf (a b : Word) : Word := if later a b then a else b

/-- The connection with the indices of a DOORBELL taken, or none when a taken index breaks a limit of R125. SQ_TAIL is
taken only while the connection is ACTIVE (R140). The limits hold between the indices as they stand once taken. -/
def takeIndices (unit : Bool) (c : Conn) (tail ack h0 h1 : Word) : Option Conn :=
  let nt := if c.state = .active then laterOf tail c.sqTail else c.sqTail
  let na := laterOf ack c.ackSeq
  let n0 := laterOf h0 c.cqHead0
  let n1 := laterOf h1 c.cqHead1
  if 2 ^ c.ident.sqLog < (nt - na).toNat || later na nt || later (if unit then n1 else n0) c.written then none
  else
    some { c with sqTail := nt, ackSeq := na, cqHead0 := n0, cqHead1 := n1,
                  store := c.store.filter fun q => !later na q.1 }

/-- The gallery of a connection fetches: not on a unit that does not serve, in reset or in a warm reset, while an update or an
exchange of roles pauses fetching, or in a save (R204, R210, R239, R457, R525). -/
def fetchOpen (d : Dev) (g : Nat) : Bool :=
  serving d && !d.upd.paused && !d.rst.galReset.contains g && d.dur.save = .idle && d.rst.warm = .none && d.twin.phase = .none

/-- F is the next sequence that the unit would fetch (R130): no fetch is outstanding, and no operation at or after F is still in
flight from before F went back (R135, R223). -/
def atF (d : Dev) (n : Nat) (c : Conn) : Bool :=
  c.state = .active && !c.refetch && !(c.pulls.any isRing) && !((opsOf d n).any fun o => notBefore o.seq c.f)

/-- An inline descriptor is used when it is the next to be fetched and a tag and a slot are free (R126). -/
def useInline (d : Dev) (n : Nat) (c : Conn) (b : Doorbell) : Dev :=
  match b.inline with
  | none => d
  | some x =>
    if atF d n c && fetchOpen d (homeOf n) && x.seq = b.sqTail - 1 && x.seq = c.f &&
        decide (0 < freeTags d (homeOf n)) && decide (0 < freeSlots d n c) then
      (modConn d n fun c => { c with f := c.f + 1 }).modNet fun t => { t with ops := t.ops ++ [newOp n x.seq x b.data] }
    else d

/-- A DOORBELL's indices and inline content (R125, R126, R222): a serving unit ends the connection where a limit is
broken, a standby or joiner takes none of them. -/
def takeDoorbell (n : Nat) (b : Doorbell) (d : Dev) : Dev :=
  match getConn d n with
  | none => d
  | some c =>
    match takeIndices (unitBit d) c b.sqTail b.ackSeq b.cqHead0 b.cqHead1 with
    | none => if serving d then toError d n 0x13 else d
    | some c1 =>
      if !serving d then noteContext (setConn d n (some c1)) n
      else
        let c2 := if c1.refetch && c1.state = .active then { c1 with refetch := false, f := c1.ackSeq } else c1
        let d1 := tell (setConn d n (some c2)) (.index n c2.sqTail c2.ackSeq c2.cqHead0 c2.cqHead1)
        useInline d1 n c2 b

/-- Body rules of a DOORBELL (R124): inline data only with an inline WRITE or LOG_APPEND whose LENGTH it is. -/
def doorbellOk (b : Doorbell) : Bool :=
  decide (b.data.length ≤ 256) &&
  (b.data.length = 0 ||
    match b.inline with
    | some x => (x.op = .write || x.op = .logAppend) && x.length.toNat = b.data.length
    | none => false)

/-- The length rules of a client's frame body, by its header's LEN, and the rules inside it (R92, R97, R100, R124, R138). -/
def bodyRules (h : Hdr) (b : FrameBody) : Bool :=
  let len := netField h.head 2 2
  match b with
  | .doorbell x => len = 24 + (if x.inline.isSome then 64 else 0) + x.data.length && doorbellOk x
  | .readRsp _ off refused data => len = 16 + data.length && (!refused || (off = 0 && data.isEmpty))
  | .ack _ _ _ _ _ => len = 24
  | .probe => len = 0
  | .pathReset _ _ => len = 8
  | .disconnect _ => len = 8
  | .stranger _ => true

/-! ## Fetching (R130, R135) -/

/-- A connection has descriptors to fetch and no fetch outstanding. -/
def fetchable (d : Dev) (n : Nat) (c : Conn) : Bool := atF d n c && later c.sqTail c.f

/-- The size of the next batch of a connection (R130): the least of the table's quantities. -/
def batchOf (d : Dev) (n : Nat) (c : Conn) : Nat :=
  let g := homeOf n
  let a := blockBase .gal g
  min (min (c.sqTail - c.f).toNat (regBits d a 24 16))
    (min (regBits d a 11 0 - ((opsOf d n).length + asked c)) (min (freeTags d g) (freeSlots d n c)))

/-- The connections of a gallery that can fetch, the one after the last served first (R130). -/
def fetchOrder (d : Dev) (g : Nat) : List (Nat × Conn) :=
  let last := (getKey d.net.turns g).getD 0
  let cs := d.net.conns.filter fun x => homeOf x.1 = g && fetchable d x.1 x.2 && decide (0 < batchOf d x.1 x.2)
  (cs.filter fun x => decide (last < x.1)) ++ cs.filter fun x => decide (x.1 ≤ last)

/-- A READ_REQ for a run of ring slots. -/
def ringPull (c : Conn) (rid : Nat) (first : Word) (count : Nat) : Pull :=
  { rid := rid % 2 ^ 32, what := .ring first count, addr := slotAddr c.ident first, ckey := c.ident.sqCkey, len := 64 * count,
    seg := 0, path := 0, sent := false, acked := false, sentAt := 0, first := false, got := [], held := 0, bytes := [] }

/-- Fetch a batch: two requests where it crosses the ring's end (R130). F moves as their descriptors are admitted. -/
def fetchBatch (d : Dev) (n : Nat) (c : Conn) : Dev :=
  let k := batchOf d n c
  let k1 := min k (2 ^ c.ident.sqLog - c.f.toNat % 2 ^ c.ident.sqLog)
  let ps := ringPull c c.nextRid c.f k1 ::
    (if k1 < k then [ringPull c (c.nextRid + 1) (c.f + BitVec.ofNat 32 k1) (k - k1)] else [])
  setConn d n (some { c with pulls := c.pulls ++ ps, nextRid := (c.nextRid + ps.length) % 2 ^ 32 })

/-- DESCRIPTOR_FETCH: one batch for the next connection in round-robin order. -/
def fetchTurn (g : Nat) (d : Dev) : Dev :=
  if !fetchOpen d g then d
  else
    match fetchOrder d g with
    | [] => d
    | (n, c) :: _ => (touchCtx (fetchBatch d n c) n).modNet fun t => { t with turns := putKey t.turns g n }

/-! ## Set-up (R112 to R118) -/

/-- The reasons of R117 in their order, with the RESULT each sends. `pubOk` says that CLIENT_PUB is a valid point or encoding whose
shared secret is not all zero. -/
def setupRefusal (d : Dev) (pubOk : Bool) (r : ConnectReq) (cr : Cred) : Option Nat :=
  let resume := r.cflags.getLsbD 1
  let old := getConn d r.oldConn
  let badParam :=
    !(r.curve = 1 || r.curve = 2) || !(decide (1 ≤ r.npath) && decide (r.npath ≤ 8)) ||
    !(decide (6 ≤ r.sqLog) && decide (r.sqLog ≤ 16)) || !(decide (6 ≤ r.cqLog) && decide (r.cqLog ≤ 16)) ||
    decide (3 < r.level.toNat) || (r.cflags >>> (2 : Nat)) ≠ 0 || r.rsvA ≠ 0 || r.rsvB ≠ 0 ||
    2 ^ 20 ≤ r.oldWord || decide (r.sqAddr.toNat % 64 ≠ 0) ||
    decide (r.cqAddr.toNat % 64 ≠ 0) || (resume && r.initSeq ≠ 0) || (!resume && r.oldWord ≠ 0) || !pubOk
  if d.dur.lost || (serving d && d.twin.refusing) then some 7
  else if !serving d then some 4
  else if badParam then some 1
  else if !d.folds.live.contains cr.fold then some 6
  else if resume && !(match old with
      | some c => c.state = .error && c.ident.cred = r.credId && c.ident.fold = cr.fold && c.ident.sqLog = r.sqLog &&
          c.ident.cqLog = r.cqLog
      | none => false) then some 5
  else none

/-- Connections of a gallery that are not IDLE. -/
def galleryConns (d : Dev) (g : Nat) : List (Nat × Conn) := d.net.conns.filter fun x => homeOf x.1 = g

/-- The galleries with the fewest connections (R118). -/
def leastGalleries (d : Dev) : List Nat :=
  let least := (List.range 16).foldl (fun m g => min m (galleryConns d g).length) 1048576
  (List.range 16).filter fun g => (galleryConns d g).length = least

/-- The gallery that a new connection goes to, any one of those with the fewest; and a free number of it, any one (R118). -/
def pickNumber (d : Dev) : Nat × Option Nat × Dev :=
  let gs := leastGalleries d
  let p := drawChoice d gs.length
  let g := gs.getD p.1 0
  let q := drawChoice p.2 65536
  (g, ((List.range 65536).map fun i => ((q.1 + i) % 65536) * 16 + g).find? fun n => (getConn d n).isNone, q.2)

/-- Sum of 2^SQ_LOG2 over all connections that are not IDLE; at most 2^26 (R133). -/
def storeSum (d : Dev) : Nat := d.net.conns.foldl (fun n x => n + 2 ^ x.2.ident.sqLog) 0

/-- The addresses in PATHS of a CONNECT_RSP (R114): own ports under the own unit bit, the twin's under its own. -/
def pathsField (d : Dev) (n npath : Nat) (mgmt : Bool) : List (BitVec 128) :=
  let own := (List.range 8).map fun p =>
    if p < npath then
      (if mgmt then (if v6On d 16 then ip6Of d 16 else mapped4 (ip4Of d 16)) else portAddr d (portOfPath d false n p))
    else 0
  let used := d.twin.ports.filter fun a => a ≠ 0
  let twin := (List.range 8).map fun p =>
    if p < npath && paired d && !mgmt then used.getD ((n + p) % max 1 used.length) 0 else 0
  if unitBit d then twin ++ own else own ++ twin

/-- TWIN of a CONNECT_RSP (R114). -/
def twinField (d : Dev) : Option Nat :=
  if paired d then (match d.twin.ident with | some i => some i.twin | none => none) else none

/-- The accepted CONNECT_RSP of this unit (R114), but for CONFIRM_G: `ng` is NONCE_G, `psn` INIT_PSN_G, `pub` G_PUB. -/
def newRsp (d : Dev) (n npath udp : Nat) (r : ConnectReq) (mgmt : Bool) (ng : DWord) (psn : Word) (pub : List Byte) : ConnectRsp :=
  { head := headBytes d .connectRsp 432 0 n 0 0 0, npath := npath, udpBase := udp, initPsn := psn, nonceC := r.nonce, nonceG := ng,
    twin := twinField d, pub := pub, paths := pathsField d n npath mgmt, confirm := 0 }

/-- The identity that a CONNECT_REQ and its answer agree (R112, R114, R115): `priv` is the ephemeral private key that the unit
used, `store` the pages of the result store. -/
def identOf (h : Hdr) (r : ConnectReq) (cr : Cred) (priv : BitVec 256) (rsp : ConnectRsp) (store : List (Nat × Nat)) : ConnIdent :=
  let ks := deriveKeys cr.key (Config.ecdh r.curve priv r.pub)
    (h.head ++ reqBytes r ++ beBytes 16 r.mac.toNat ++ rsp.head ++ rspBytes rsp)
  { cred := r.credId, fold := cr.fold, mgmt := cr.mgmt, level := levelOfByte r.level .twin, twinRead := r.cflags.getLsbD 0,
    npath := rsp.npath, sqLog := r.sqLog, cqLog := r.cqLog, sqAddr := r.sqAddr, sqCkey := r.sqCkey, cqAddr := r.cqAddr,
    cqCkey := r.cqCkey, clientIp := h.src.ip, clientPort := r.clientPort, clientUdp := r.clientUdp,
    key := ks.1, nonceC := r.nonce, nonceG := rsp.nonceG, initSeq := r.initSeq, initPsnC := r.initPsn, initPsnG := rsp.initPsn,
    rsp := { rsp with confirm := ks.2.1 }, confirmC := ks.2.2, store := store }

/-- One use of a prepared ephemeral key pair, when the pool holds one (R119). -/
def takePoolKey (curve : Byte) (d : Dev) : Dev :=
  d.modNet fun t => if curve = 1 then { t with pool384 := t.pool384 - 1 } else { t with pool255 := t.pool255 - 1 }

/-- Accept a CONNECT_REQ under a number (R118): the context here and through the order stream; the CONNECT_RSP leaves once the
twin has applied it. G_UDP_BASE has no rule, so it is free (assumption 56). -/
def acceptConn (d : Dev) (n : Nat) (h : Hdr) (r : ConnectReq) (cr : Cred) : Dev :=
  let ng := draw64 (takePoolKey r.curve d)
  let pg := draw32 ng.2
  let pr := draw256 pg.2
  let ub := draw32 pr.2
  let e := ub.2
  let rsp := newRsp e n (if cr.mgmt then 1 else r.npath) (ub.1.toNat % 65536) r cr.mgmt ng.1 pg.1 (Config.ecdhPub r.curve pr.1)
  let ident := identOf h r cr pr.1 rsp (newStore e r.sqLog)
  let wait (c : Conn) : Conn := { c with rspDue := some h.src, setupSt := none }
  if r.cflags.getLsbD 1 then
    let a := applyChange e n (.rearm ident)
    flushSetups (cacheCtx (streamCtrl (modConn a n wait) (.connChange n (.rearm ident))) n)
  else flushSetups (cacheCtx (streamCtrl (setConn e n (some (wait (newConn e n ident)))) (.connNew n ident)) n)

/-- A CONNECT_REQ that passed R113 (R117, R118): a refusal, the same answer again to a repeat, or a new set-up. -/
def setUp (h : Hdr) (pubOk : Bool) (r : ConnectReq) (cr : Cred) (d : Dev) : Dev :=
  let refuse (a : Dev) (res : Nat) : Dev :=
    emitTo a h.port h.src.ip (outRefused a h.src cr.key res
      (if res = 4 && (d.twin.st = .standby || d.twin.st = .joining) then (match d.twin.ident with | some i => i.twin | none => 0)
       else 0) r.nonce)
  match setupRefusal d pubOk r cr with
  | some res => refuse d res
  | none =>
    let resume := r.cflags.getLsbD 1
    let pick := if resume then (homeOf r.oldConn, some r.oldConn, d) else pickNumber d
    let armed := d.net.conns.filter fun x => x.2.state = .armed
    if 256 ≤ (armed.filter fun x => homeOf x.1 = pick.1).length ||
        16 ≤ (armed.filter fun x => x.2.ident.cred = r.credId).length then refuse pick.2.2 3
    else
      match pick.2.1 with
      | none => refuse pick.2.2 2
      | some n =>
        if !resume && 2 ^ 26 < storeSum d + 2 ^ r.sqLog then refuse pick.2.2 2
        else acceptConn pick.2.2 n h r cr

/-- The ARMED connection whose CONNECT_REQ this one repeats (R118), on a unit that serves. -/
def repeated (d : Dev) (r : ConnectReq) : Option (Nat × Conn) :=
  if !serving d || d.twin.refusing || d.dur.lost then none
  else d.net.conns.find? fun x => x.2.state = .armed && x.2.ident.cred = r.credId && x.2.ident.nonceC = r.nonce

/-- CONNECT_REQ (R113): the checks before any answer, then the repeat of R118 or the set-up. -/
def connectReq (h : Hdr) (pubOk : Bool) (r : ConnectReq) (d : Dev) : Dev :=
  match headCheck h .connectReq d with
  | some e => e
  | none =>
    if h.conn ≠ 0 || h.path ≠ 0 || netField h.head 2 2 ≠ 176 then malformed d h.port
    else
      match getKey d.folds.creds r.credId with
      | none => countPort d h.port 0x11C
      | some cr =>
        if !reqMacOk cr.key h.head r then countPort d h.port 0x11C
        else if cr.mgmt ≠ (h.port = 16) then countPort d h.port 0x118
        else
          match repeated d r with
          | some x => flushSetups (modConn d x.1 fun c => { c with rspDue := some h.src })
          | none => setUp h pubOk r cr d

/-- CONNECT_FIN (R106, R113, R116). A valid CONFIRM_C beside another NONCE_G has no rule: the model drops the frame and counts it
in ETH_STR_AUTH (DESIGN CHOICE, assumption 55). -/
def connectFin (h : Hdr) (confirmC : BitVec 128) (nonceG : DWord) (d : Dev) : Dev :=
  match headCheck h .connectFin d with
  | some e => e
  | none =>
    if landingShut d h.conn then countShut d h.conn
    else if h.path ≠ 0 || netField h.head 2 2 ≠ 24 then malformed d h.port
    else
      match getConn d h.conn with
      | none => strayFrame d h 1
      | some c =>
        if c.ident.mgmt ≠ (h.port = 16) then strayFrame d h 1
        else if c.state ≠ .armed then strayFrame d h 2
        else if confirmC ≠ c.ident.confirmC || nonceG ≠ c.ident.nonceG then countPort d h.port 0x11C
        else if serving d then changeConn d h.conn .activate else d

/-- An ARMED connection has waited SETUP_TIMEOUT (R137). -/
def setupTimeout (n : Nat) (d : Dev) : Dev :=
  match getConn d n with
  | some c =>
    if serving d && c.state = .armed then changeConn d n (if c.resuming then .rearmFailed else .free) else d
  | none => d

/-- A connection has been in ERROR for ERROR_HOLD seconds; 0 holds it (R143). -/
def errorHold (n : Nat) (d : Dev) : Dev :=
  match getConn d n with
  | some c => if serving d && c.state = .error && regBits d 0x401008 31 16 ≠ 0 then changeConn d n .free else d
  | none => d

/-! ## Ending (R137, R138, R529) -/

/-- A client DISCONNECT (R137, R138): 0x16 reports a PUSH that could not be placed. -/
def clientDisconnect (n reason : Nat) (d : Dev) : Dev :=
  match getConn d n with
  | none => d
  | some c =>
    if !serving d then d
    else if reason = 0x16 then toError d n 0x16
    else if c.state = .active then changeConn d n (.quiesce false 0x01 .abortedDisabled)
    else d

/-! ## A client's frames (R35, R106, R140) -/

/-- A frame that passed the checks of R106, by its type. -/
def takeFrame (h : Hdr) (b : FrameBody) (c : Conn) (d : Dev) : Dev :=
  match b with
  | .doorbell x => arrive h c d (takeDoorbell h.conn x)
  | .readRsp rid off refused data => arrive h c d (takeRsp h rid off refused data)
  | .ack e echo sack ce rx => takeAckFrame h c e echo sack ce rx d
  | .probe => takeProbe h d
  | .pathReset old e => takePathReset h c old e d
  | .disconnect reason => arrive h c d (clientDisconnect h.conn reason)
  | .stranger _ => d

/-- A client's frame of a connection: the checks of R106, the use of its context (R35), its effect, and the limit of the nonce
counter of what it made the connection send (R95). -/
def runFrame (h : Hdr) (b : FrameBody) (d : Dev) : Dev :=
  match classify { h with bodyOk := h.bodyOk && bodyRules h b } b d with
  | .error e => e
  | .ok c => guardTxc (takeFrame h b c (touchCtx d h.conn)) h.conn

/-- A context has been read into its gallery's cache: the frames that waited for it go on, in order (R35). The frames of a
connection that has become IDLE meanwhile go on as strangers. -/
def contextFilled (n : Nat) (d : Dev) : Dev :=
  let d1 := d.modNet fun t => { t with parked := t.parked.filter fun f => f.1.conn ≠ n }
  let d2 := if (getConn d n).isSome then cacheCtx d1 n else d1
  (d.net.parked.filter fun f => f.1.conn = n).foldl (fun a f => runFrame f.1 f.2 a) d2

/-! ## Connection and credential registers (R110, R143, R579) -/

/-- RMA_CONN_CMD (R143). A command that finds the unit not serving, or the pair refusing, ends BAD_STATE. -/
def connCmd (cmd : ConnCmd) (n : Nat) (d : Dev) : Dev × Nat :=
  let res (a : Dev) (r : Nat) : Dev := a.modFolds fun f => { f with connNamed := n, connResult := r }
  let act (ch : ConnChange) : Dev × Nat := (issueCtrl (res d 0) (.connChange n ch), 0)
  if d.folds.connBusy then (d, 0)
  else
    match cmd with
    | .query => (res d (if (getConn d n).isNone then 2 else 0), 0)
    | _ =>
      if !serving d || d.twin.refusing then (res d 1, 0)
      else
        match getConn d n with
        | none => (res d 2, 0)
        | some c =>
          let ch : ConnChange :=
            match cmd with
            | .disableDrain => .quiesce false 0x02 .abortedDisabled
            | .disableAbort => .quiesce true 0x02 .abortedDisabled
            | _ => .free
          let ok := changeLegal c ch && !(cmd = .disableDrain && c.state ≠ .active) && !(cmd = .release && c.state = .armed)
          if ok then act ch else (res d 1, 0)

/-- RMA_CRED_KEY0 to 7, as the 32 bytes of an admission key. -/
def credKey (d : Dev) : BitVec 256 :=
  (List.range 8).foldl (fun k i => (k <<< (32 : Nat)) ||| (reg d (0x402010 + 4 * i)).setWidth 256) 0

/-- Clear the key registers after a credential command (R143). -/
def clearCredKey (d : Dev) : Dev := (List.range 8).foldl (fun a i => setReg a (0x402010 + 4 * i) 0) d

/-- A credential command runs here alone: over I3C on a unit without a pair identity that does not serve (R579). -/
def credLocal (d : Dev) (p : Principal) : Bool := p = .i3c && d.twin.ident.isNone && !serving d

/-- RMA_CRED_CMD (R110, R143). -/
def credCmd (p : Principal) (id : Nat) (c : Option Cred) (d : Dev) : Dev × Nat :=
  let body := match c with | some x => CtrlBody.enrol id x | none => .credRevoke id
  if credLocal d p then
    (clearCredKey (writeThrough (putCred (markDirty d) id c) (leavesOf (ctlLines d body))), 0)
  else
    match streamRefused d with
    | some n => (d, n)
    | none =>
      if p ≠ .i3c then (clearCredKey (issueCtrl d body), 0)
      else if canStamp d && d.twin.ctrlDue.isEmpty then
        (clearCredKey (writeThrough (sendCtrl d body) (leavesOf (ctlLines d body))), 0)
      else (clearCredKey (d.modTwin fun t => { t with ctrlDue := t.ctrlDue ++ [(body, .i3cCommand)] }), 0)

/-- The credential that ENROL stores: a management credential's fold is 0 (R111). -/
def newCred (d : Dev) (mgmt : Bool) (foldLo : Nat) : Cred :=
  { fold := if mgmt then 0 else regBits d 0x402004 3 0 * 4096 + foldLo % 4096, mgmt := mgmt, key := credKey d }

/-! ## The rows -/

/-- DOORBELL (R124, R125). -/
def execDoorbell (h : Hdr) (b : Doorbell) (s : State) : Res := onDev (runFrame h (.doorbell b)) s

/-- READ_RSP (R92). -/
def execReadRsp (h : Hdr) (rid off : Nat) (refused : Bool) (data : List Byte) (s : State) : Res :=
  onDev (runFrame h (.readRsp rid off refused data)) s

/-- ACK (R97). -/
def execAck (h : Hdr) (e echo : Word) (sack : DWord) (ce rx : Nat) (s : State) : Res := onDev (runFrame h (.ack e echo sack ce rx)) s

/-- PROBE (R97, R99). -/
def execProbe (h : Hdr) (s : State) : Res := onDev (runFrame h .probe) s

/-- PATH_RESET (R100). -/
def execPathReset (h : Hdr) (oldPath : Nat) (newE : Word) (s : State) : Res := onDev (runFrame h (.pathReset oldPath newE)) s

/-- DISCONNECT (R137, R138). -/
def execDisconnect (h : Hdr) (reason : Nat) (s : State) : Res := onDev (runFrame h (.disconnect reason)) s

/-- STRANGER_FRAME: a frame of a type that no other row stands for, or that names no accepting connection; its body is not looked
at (R106, R107). The set-up types are never strangers of R106. -/
def execStrangerFrame (port : Nat) (src : Source) (frame : StrayFrame) (s : State) : Res :=
  onDev (fun d =>
    let h := frame.hdr port src
    match headType h.head with
    | some .connectReq | some .connectFin => d
    | some ty => runFrame h (.stranger ty) d
    | none => runFrame h (.stranger .unknownConn) d) s

/-- CONNECT_REQ (R113). -/
def execConnectReq (h : Hdr) (pubOk : Bool) (r : ConnectReq) (s : State) : Res := onDev (connectReq h pubOk r) s

/-- CONNECT_FIN (R116). -/
def execConnectFin (h : Hdr) (confirmC : BitVec 128) (nonceG : DWord) (s : State) : Res := onDev (connectFin h confirmC nonceG) s

/-- SETUP_TIMEOUT (R137). -/
def execSetupTimeout (conn : Nat) (s : State) : Res := onDev (setupTimeout conn) s

/-- ERROR_HOLD_EXPIRY (R137). -/
def execErrorHoldExpiry (conn : Nat) (s : State) : Res := onDev (errorHold conn) s

/-- DESCRIPTOR_FETCH (R130). -/
def execDescriptorFetch (gallery : Nat) (s : State) : Res := onDev (fetchTurn gallery) s

/-- DISABLE_DRAIN (R141, R143). -/
def execDisableDrain (p : Principal) (conn : Nat) (s : State) : Res :=
  onDev (command p 0x401000 (connCmd .disableDrain conn)) s

/-- DISABLE_ABORT (R141, R143). -/
def execDisableAbort (p : Principal) (conn : Nat) (s : State) : Res :=
  onDev (command p 0x401000 (connCmd .disableAbort conn)) s

/-- RELEASE (R137, R143). -/
def execConnRelease (p : Principal) (conn : Nat) (s : State) : Res :=
  onDev (command p 0x401000 (connCmd .release conn)) s

/-- QUERY (R143). -/
def execConnQuery (p : Principal) (conn : Nat) (s : State) : Res :=
  onDev (command p 0x401000 (connCmd .query conn)) s

/-- QUIESCE_COMPLETE (R137). -/
def execQuiesceComplete (conn : Nat) (s : State) : Res := onDev (fun d => freeAfterReset (quiesceDone conn d) conn) s

/-- ENROL (R110). -/
def execEnrol (p : Principal) (id : Nat) (mgmt : Bool) (foldLo : Nat) (s : State) : Res :=
  onDev (fun d => command p 0x402000 (credCmd p id (some (newCred d mgmt foldLo))) d) s

/-- REVOKE of a credential (R111). -/
def execCredRevoke (p : Principal) (id : Nat) (s : State) : Res := onDev (command p 0x402000 (credCmd p id none)) s

/-- CONTEXT_FILL_COMPLETE (R35). -/
def execContextFillComplete (conn : Nat) (s : State) : Res := onDev (contextFilled conn) s

end Sys2Proof.Machine
end

