-- ==== Sys2Proof/Machine/Operations.lean ====
section
/-! DEFINITION. The rows of the operations: their stages, and each operation taken through its stages as far as it goes now
(R144 to R203). -/
namespace Sys2Proof.Machine

/-- DESCRIPTOR_START (R145). -/
def execDescriptorStart (conn : Nat) (seq : Word) (s : State) : Res := onDev (startOp conn seq) s

/-- ORDER_WAIT_RELEASE (R153). -/
def execOrderWaitRelease (conn : Nat) (seq : Word) (s : State) : Res := onDev (releaseOrder false conn seq) s

/-- FENCE_RELEASE (R154). -/
def execFenceRelease (conn : Nat) (seq : Word) (s : State) : Res := onDev (releaseOrder true conn seq) s

/-- DATA_PULL_COMPLETE (R166, R289). -/
def execDataPullComplete (conn : Nat) (seq : Word) (badLine : Option Nat) (s : State) : Res :=
  onDev (pullDone conn seq badLine) s

/-- LINE_FILL_COMPLETE (R167). -/
def execLineFillComplete (conn : Nat) (seq : Word) (bad : List Nat) (s : State) : Res := onDev (fillDone conn seq bad) s

/-- BUDGET_ADMISSION (R261). -/
def execBudgetAdmission (s : State) : Res := onDev (fun d => settleFully (admitAll d)) s

/-- ADMIT_WAIT_EXPIRY (R262). -/
def execAdmitWaitExpiry (conn : Nat) (seq : Word) (s : State) : Res := onDev (admitExpiry conn seq) s

/-- ORDER_STAMP (R156). -/
def execOrderStamp (conn : Nat) (seq : Word) (bad : Option Nat) (s : State) : Res := onDev (fun d => settleFully (orderStamp conn seq bad d)) s

/-- GROUP_ASSEMBLY_TIMEOUT (R180). -/
def execGroupAssemblyTimeout (conn : Nat) (first : Word) (s : State) : Res := onDev (groupTimeout conn first) s

/-- COMPLETION_LEVEL_REACHED (R160): the entry goes; PERSISTs and READs of other work that waited run on. -/
def execCompletionLevelReached (conn : Nat) (seq : Word) (s : State) : Res :=
  onDev (fun d => runReady conn seq [] (complete conn seq d)) s

/-- READ (R165, R168). `finds` are the lines whose check fails as they leave the slice or in the sealing lane (R291). -/
def execRead (conn : Nat) (seq : Word) (finds : List (Nat × CheckFind)) (s : State) : Res :=
  onDev (advanceAs .read conn seq ((finds.filter fun f => f.2 = .flash).map Prod.fst) (finds.filter fun f => f.2 ≠ .flash)) s

/-- WRITE (R165, R166). -/
def execWrite (conn : Nat) (seq : Word) (s : State) : Res := onDev (advanceAs .write conn seq [] []) s

/-- WRITE_ZERO (R165). -/
def execWriteZero (conn : Nat) (seq : Word) (s : State) : Res := onDev (advanceAs .writeZero conn seq [] []) s

/-- COPY (R165). -/
def execCopy (conn : Nat) (seq : Word) (s : State) : Res := onDev (advanceAs .copy conn seq [] []) s

/-- CAS (R169). -/
def execCas (conn : Nat) (seq : Word) (s : State) : Res := onDev (advanceAs .cas conn seq [] []) s

/-- FETCH_ADD (R169). -/
def execFetchAdd (conn : Nat) (seq : Word) (s : State) : Res := onDev (advanceAs .fetchAdd conn seq [] []) s

/-- SWAP (R169). -/
def execSwap (conn : Nat) (seq : Word) (s : State) : Res := onDev (advanceAs .swap conn seq [] []) s

/-- PERSIST (R163). -/
def execPersist (conn : Nat) (seq : Word) (s : State) : Res := onDev (advanceAs .persist conn seq [] []) s

/-- LOG_APPEND (R190, R191). -/
def execLogAppend (conn : Nat) (seq : Word) (s : State) : Res := onDev (advanceAs .logAppend conn seq [] []) s

/-- SNAPSHOT (R196). -/
def execSnapshot (conn : Nat) (seq : Word) (s : State) : Res := onDev (advanceAs .snapshot conn seq [] []) s

/-- CLONE (R196). -/
def execClone (conn : Nat) (seq : Word) (s : State) : Res := onDev (advanceAs .clone conn seq [] []) s

/-- WAIT (R172). -/
def execWait (conn : Nat) (seq : Word) (s : State) : Res := onDev (advanceAs .wait conn seq [] []) s

/-- WAIT_TIMEOUT_EXPIRY (R172). -/
def execWaitTimeoutExpiry (conn : Nat) (seq : Word) (s : State) : Res := onDev (waitExpiry conn seq) s

/-- HEALTH (R174). -/
def execHealth (conn : Nat) (seq : Word) (s : State) : Res := onDev (advanceAs .health conn seq [] []) s

/-- NOP (R174). -/
def execNop (conn : Nat) (seq : Word) (s : State) : Res := onDev (advanceAs .nop conn seq [] []) s

/-- COW_LEAF_COPY (R197). -/
def execCowLeafCopy (conn : Nat) (seq : Word) (leaf : Nat) (s : State) : Res := onDev (copyLeaf conn seq leaf) s

/-- DATAPATH_CHUNK (R200). -/
def execDatapathChunk (gallery : Nat) (s : State) : Res := onDev (chunkTurn gallery) s

end Sys2Proof.Machine
end

