-- ==== Sys2Proof/Machine/Power.lean ====
section
/-! DEFINITION. The power supervisor: on and off requests, the sequence, rail faults, temperatures, the VDD_CORE request and
calibration (R265, R470 to R497). -/
namespace Sys2Proof.Machine

/-! ## On requests (R482, R483) -/

/-- A held on request, or the retry after a sequence fault, starts a power-up once MAIN_OK is high and MIN_OFF has passed. -/
def tryStart (d : Dev) : Dev :=
  if (d.pwr.onHeld || d.pwr.retry) && d.dur.mainOk && !d.pwr.minOff && d.pwr.st = .off then
    powerUp (d.modPwr fun p =>
      { p with tries := if p.onHeld then 0 else p.tries, onHeld := false, onClears := false, retry := false, faulty := false })
  else d

/-- An on request: `cmd` is PWR_CMD ON, which clears FAULT. In a power-up that an off request will reverse it is held as in
RAMP_DOWN. -/
def onRequest (cmd : Bool) (d : Dev) : Dev :=
  let hold (a : Dev) : Dev := a.modPwr fun p => { p with onHeld := true, onClears := p.onClears || cmd }
  match d.pwr.st with
  | .off => tryStart (hold d)
  | .fault => if cmd then tryStart (hold (setPwr (d.modPwr fun p => { p with faulty := false }) .off)) else d
  | .saving | .rampDown => hold d
  | .rampUp => if d.pwr.reverse then hold d else d
  | .on => d

/-! ## Off requests (R482, R412, R416) -/

/-- A save during a lockout: SK alone is loaded, into lanes in save mode (R412). -/
def lockoutKeys (d : Dev) : Dev :=
  if d.sec.lockout then d.modSec fun s => { s with sk := if s.wkLedger.isSome then s.skLedger else none, saveMode := true } else d

/-- An off request: `stay` keeps the unit in FAULT afterwards, `snap` records a snapshot. -/
def offRequest (cause : OffCause) (stay snap : Bool) (rail : Nat) (d : Dev) : Dev :=
  let d0 := d.modPwr fun p => { p with faulty := p.faulty || stay }
  let d1 := if snap then takeSnap d0 cause rail else d0.modPwr fun p => { p with cause := cause }
  match d.pwr.st with
  | .on =>
    if d.pwr.served && !d.sec.zeroing then startSave (lockoutKeys d1)
    else powerDown (d1.modPwr fun p => { p with calBusy := false })
  | .rampUp =>
    if d.pwr.reverse then d0
    else raiseOp (d1.modPwr fun p => { p with reverse := true }) 0x010C srcPWR [1, 4, causeNo cause]
  | .saving | .rampDown => d0
  | .off => if stay then setPwr d1 .fault else d
  | .fault => d

/-- A CUT: every line but the charger's falls at once, no save runs and the supervisor is in FAULT (R480). -/
def cutPower (rail : Nat) (d : Dev) : Dev :=
  let d1 := takeSnap d .railCut rail
  let d2 := raise d1 0x010A srcPWR (snapPayload d1) []
  islandsDown ((setPwr (dropLines d2) .fault).modPwr fun p =>
    { p with faulty := true, retry := false, reverse := false, wait := .none, onHeld := false, onClears := false })

/-! ## MAIN_OK and PWRON_RST_N (R265, R426, R470, R482) -/

/-- MAIN_OK_FALL: a discharge test and a calibration end without a result (R260, R497), the VDD_CORE request freezes (R484), and the
off request is taken. -/
def mainFall (d : Dev) : Dev :=
  let d1 := chargerLines (testFails (d.modDur fun u => { u with mainOk := false }))
  if !d.pwr.pwron then d.modDur fun u => { u with mainOk := false }
  else
    let d2 := d1.modPwr fun p => { p with calBusy := false }
    let d3 := if d2.pwr.pending && decide (d2.pwr.oldMv < d2.pwr.reqMv) then
        d2.modPwr fun p => { p with galClk := p.galClk.map fun c => min c (clampN 12 24 (Config.clockAt (p.railMv.getD 0 0))) } else d2
    offRequest .mainOk false true 0 d3

/-- MAIN_OK_RISE: an on request after an off by MAIN_OK; a request that waited for MAIN_OK is acted on. -/
def mainRise (d : Dev) : Dev :=
  let d1 := d.modDur fun u => { u with mainOk := true }
  if !d.pwr.pwron then d1
  else
    let d2 := chargerLines d1
    if d2.pwr.cause = .mainOk then onRequest false d2 else tryStart d2

/-- PWRON_RST_N_RISE: a cold start, with what the board presents. -/
def pwronRise (env : BootEnv) (d : Dev) : Dev :=
  if d.pwr.pwron then d
  else
    let c := coldState d
    tryStart (chargerLines { c with
      env := env, regs := [], i3c := Dev.reset.i3c,
      pwr := { Pwr.reset with pwron := true, onHeld := true, warmLow := d.pwr.warmLow } })

/-- PWRON_RST_N_FALL: every line falls, and the shepherd island is in reset; a save in progress is lost. -/
def pwronFall (d : Dev) : Dev :=
  { coldState d with regs := [], i3c := Dev.reset.i3c, pwr := { Pwr.reset with warmLow := d.pwr.warmLow } }

/-- VDD_AON_BROWN_OUT: in OFF, RAMP_DOWN or FAULT the shepherd island stops and writes nothing (R408). -/
def brownOut (d : Dev) : Dev :=
  match d.pwr.st with
  | .off | .rampDown | .fault => pwronFall d
  | _ => d

/-! ## The sequence (R476, R482, R483) -/

/-- PG_RISE: the line reads high, and the step that waited for it settles. -/
def pgRise (line : Nat) (d : Dev) : Dev :=
  if 16 ≤ line then d
  else
    d.modPwr fun p =>
      { p with pg := setLine p.pg line true,
               wait := if p.st = .rampUp && p.wait = .pg && line = wbits (seqA d p.step) 19 16 then .settle else p.wait }

/-- The last step has passed. A warm request that waited for ON is taken (R522). -/
def reachOn (d : Dev) : Dev :=
  let d1 := bootFinish d
  if d1.rst.warm = .asked then
    (if d1.ldg.stage = .firmware then warmBegin d1 else d1.modRst fun r => { r with warm := .none })
  else d1

/-- SETTLE_EXPIRY: the rail is checked; the next step begins, or the steps reverse when an off request waits. -/
def settled (mv : Nat) (d : Dev) : Dev :=
  if d.pwr.st ≠ .rampUp || d.pwr.wait ≠ .settle then d
  else
    let n := d.pwr.step
    let a := seqA d n
    let r := wbits a 10 8
    let d1 := if a.getLsbD 15 then d else setRail d r mv
    if !a.getLsbD 15 && !railIn d r mv then seqFault d1 r
    else if d.pwr.reverse then lowerStep (d1.modPwr fun p => { p with st := .rampDown, reverse := false }) n
    else if n + 1 < seqLen d then beginStep d1 (n + 1)
    else reachOn (d1.modPwr fun p => { p with wait := .none })

/-- PG_TIMEOUT. -/
def pgTimeout (d : Dev) : Dev :=
  if d.pwr.st = .rampUp && d.pwr.wait = .pg then seqFault d (wbits (seqA d d.pwr.step) 10 8) else d

/-- A power-down has ended: OFF, or FAULT unless PWR_CMD ON was held behind it. MIN_OFF runs. -/
def downEnded (d : Dev) : Dev :=
  let stay := d.pwr.faulty && !(d.pwr.onHeld && d.pwr.onClears)
  islandsDown ((setPwr (dropLines d) (if stay then .fault else .off)).modPwr fun p =>
    { p with minOff := true, wait := .minOff, faulty := stay, retry := p.retry && !stay, onHeld := p.onHeld && !stay,
             onClears := p.onClears && !stay })

/-- DOWN_MS_EXPIRY. -/
def downExpiry (d : Dev) : Dev :=
  if d.pwr.st ≠ .rampDown || d.pwr.wait ≠ .down then d
  else match d.pwr.step with
    | 0 => downEnded d
    | n + 1 => lowerStep d n

/-- MIN_OFF_EXPIRY. -/
def minOffExpiry (d : Dev) : Dev :=
  if d.pwr.minOff then tryStart (d.modPwr fun p => { p with minOff := false, wait := .none }) else d

/-! ## Rails (R478 to R480) -/

/-- The step that names a rail. -/
def stepOfRail (d : Dev) (r : Nat) : Option Nat :=
  (List.range (seqLen d)).find? fun n => !(seqA d n).getLsbD 15 && wbits (seqA d n) 10 8 = r

/-- A rail is judged: rails 6 and 7 always, another from the end of its step's SETTLE until its line falls. -/
def judged (d : Dev) (r : Nat) : Bool :=
  if 6 ≤ r then true
  else
    match stepOfRail d r with
    | none => false
    | some n =>
      d.pwr.en.getLsbD (wbits (seqA d n) 27 24) && (d.pwr.st ≠ .rampUp || decide (n < d.pwr.step))

/-- RAIL_FAULT: a reading of a judged rail that stayed outside its window. -/
def railFault (rail mv : Nat) (hard : Bool) (d : Dev) : Dev :=
  if !d.pwr.pwron || 8 ≤ rail || !judged d rail then d
  else
    let d1 := setRail d rail mv
    if railIn d rail mv then d1
    else
      let cut := hard || railHard d rail mv || (reg d (0x30020 + 4 * rail)).getLsbD 31
      let told (a : Dev) : Dev := raise a 0x010A srcPWR (snapPayload a) []
      match d.pwr.st with
      | .on => if cut then cutPower rail d1 else offRequest .railSeq true false rail (told (takeSnap d1 .railSeq rail))
      | .saving =>
        if cut then cutPower rail d1 else offRequest .railSeq true false rail (told (takeSnap d1 .railSeq rail))
      | .rampUp => seqFault d1 rail
      | .rampDown =>
        let d2 := told (takeSnap d1 .railSeq rail)
        if (stepOfRail d rail).isNone then d2
        else d2.modPwr fun p =>
          { p with en := p.en &&& 0xC000, pg := p.pg &&& 0xC000, inWin := p.inWin &&& 0xC0, step := 0, wait := .down }
      | .off | .fault => told (takeSnap d1 .railSeq rail)

/-- CHARGER_PG_LOW (R473). -/
def chargerLow (d : Dev) : Dev :=
  let d1 := d.modPwr fun p => { p with pg := setLine p.pg 14 false }
  if d.pwr.en.getLsbD 14 then raiseOp d1 0x010F srcPWR [] else d1

/-! ## Temperature (R487 to R489) -/

/-- Thresholds of PWR_THERM_CFG in units of 0.125 °C: WARN, THROT, TRIP. -/
def warnAt (d : Dev) : Int := (regBits d 0x30084 31 24 : Nat) * 8
def throtAt (d : Dev) : Int := (regBits d 0x30084 23 16 : Nat) * 8
def tripAt (d : Dev) : Int := (regBits d 0x30084 15 8 : Nat) * 8

/-- TEMP_CONVERSION: the hottest sensor governs WARN, THROT and TRIP. -/
def tempConv (sensor : Nat) (value : Int) (d : Dev) : Dev :=
  if 36 ≤ sensor then d
  else
    let d1 := d.modPwr fun p => { p with sensors := modAt p.sensors sensor fun _ => value }
    let t := (hottest d1).1
    let hot := decide (warnAt d < t)
    let d2 := if hot = d.pwr.warn then d1 else raiseOp (d1.modPwr fun p => { p with warn := hot }) 0x0B01 srcPWR []
    let d3 := if throtAt d < t && !d.pwr.throttle then raiseOp (d2.modPwr fun p => { p with throttle := true }) 0x0B02 srcPWR [] else d2
    if t < tripAt d then d3
    else
      let told (a : Dev) : Dev := raise a 0x0B03 srcPWR (snapPayload a) []
      match d.pwr.st with
      | .on => offRequest .trip true false 0 (told (takeSnap d3 .trip 0))
      | .rampUp => seqFault (told (takeSnap d3 .trip 0)) 0
      | .off => offRequest .trip true false 0 (told (takeSnap d3 .trip 0))
      | .saving | .rampDown => offRequest .trip true false 0 d3
      | .fault => d3

/-- The highest clock that a gallery may run at now, in units of 0.1 GHz: MAX, and what the measured VDD_CORE supports while a raise
is unmet (R484, R552). -/
def clockCap (d : Dev) : Nat :=
  let m := regBits d 0x24 4 0
  if d.pwr.unmet then min m (clampN 12 24 (Config.clockAt (d.pwr.railMv.getD 0 0))) else m

/-- Galleries run at their highest clock, unless they are throttled or a raise of VDD_CORE is still to be met. -/
def setClocks (d : Dev) : Dev :=
  d.modPwr fun p =>
    { p with galClk := p.galClk.map fun c =>
        if p.throttle || (p.pending && decide (p.oldMv < p.reqMv)) then min c (clockCap d) else clockCap d }

/-- THROTTLE_STEP. -/
def throttleStep (d : Dev) : Dev :=
  if !d.pwr.throttle then d
  else
    let t := (hottest d).1
    if throtAt d < t then d.modPwr fun p => { p with galClk := p.galClk.map fun c => max 12 (c - 1) }
    else if throtAt d - 24 ≤ t then d
    else
      let d1 := d.modPwr fun p => { p with galClk := p.galClk.map fun c => min (clockCap d) (c + 1) }
      if d1.pwr.galClk.all fun c => decide (clockCap d ≤ c) then
        raiseOp (d1.modPwr fun p => { p with throttle := false }) 0x0B02 srcPWR []
      else d1

/-- HOLD_TEMP_CONVERSION: a line above 1.2 V is open and one below 0.1 V is shorted; the reading is then invalid and reads 125 °C. -/
def holdTemp (lineMv : Nat) (celsius : Int) (d : Dev) : Dev :=
  let bad := decide (1200 < lineMv) || decide (lineMv < 100)
  let n := if bad then 0 else min 3 (d.pwr.goodConv + 1)
  let valid := !bad && (d.pwr.holdValid || n = 3)
  let d1 := d.modPwr fun p => { p with goodConv := n, holdValid := valid, thold := if valid then celsius else 125 }
  let d2 := if valid = d.pwr.holdValid then d1 else raiseOp d1 0x0B05 srcPWR []
  let hot := decide ((regBits d 0x30084 7 0 : Nat) < d1.pwr.thold)
  if hot = d.pwr.holdHot then d2 else raiseOp (d2.modPwr fun p => { p with holdHot := hot }) 0x0B04 srcPWR []

/-! ## VDD_CORE (R484) -/

/-- VDD_CORE_REQUEST_UPDATE: the request lies from 720 to 800 mV in steps of 5 mV; the spec gives no formula for it. Clocks fall
before the request does. While MAIN_OK is low the request is frozen. -/
def coreUpdate (d : Dev) : Dev :=
  if !d.dur.mainOk || d.pwr.st ≠ .on then d
  else
    let mv := 720 + 5 * (Config.vddRequest d.freeIdx % 17)
    let d1 := { d with freeIdx := d.freeIdx + 1 }
    if mv = d.pwr.reqMv then setClocks d1
    else
      let d2 := if mv < d.pwr.reqMv then
          d1.modPwr fun p => { p with galClk := p.galClk.map fun c => min c (clampN 12 24 (Config.clockAt mv)) } else d1
      setClocks (raiseOp (d2.modPwr fun p => { p with oldMv := p.reqMv, reqMv := mv, pending := true, unmet := false }) 0x010D srcPWR [])

/-- VDD_CORE_RAISE_MET: the rail measures within 10 mV of the request. -/
def coreMet (mv : Nat) (d : Dev) : Dev :=
  if !d.pwr.pending || decide (mv + 10 < d.pwr.reqMv) || decide (d.pwr.reqMv + 10 < mv) then d
  else setClocks ((setRail d 0 mv).modPwr fun p => { p with pending := false, unmet := false, oldMv := p.reqMv })

/-- VDD_CORE_RAISE_UNMET. -/
def coreUnmet (d : Dev) : Dev :=
  if !d.pwr.pending || decide (d.pwr.reqMv ≤ d.pwr.oldMv) || !d.dur.mainOk || d.pwr.unmet then d
  else setClocks (raiseOp (d.modPwr fun p => { p with unmet := true }) 0x010E srcPWR [])

/-! ## Calibration (R490 to R492) -/

/-- A calibration may run in this state. -/
def calState (d : Dev) : Bool :=
  match d.pwr.st with
  | .rampUp | .saving | .rampDown => false
  | _ => true

/-- CAL_CMD RUN. -/
def calRun (d : Dev) : Dev × Nat :=
  if d.pwr.calBusy then (d, 0)
  else if !calState d then (d.modPwr fun p => { p with calResult := .badState }, 0)
  else (d.modPwr fun p => { p with calBusy := true, calParts := 15 }, 0)

/-- A periodic or drift run falls due; it leaves out the flash PHY drive, and waits until ON (R490). -/
def calDueNow (d : Dev) : Dev :=
  if d.pwr.calBusy then d
  else if d.pwr.st = .on then d.modPwr fun p => { p with calBusy := true, calParts := 7, calDue := false }
  else d.modPwr fun p => { p with calDue := true }

/-- New trims over the old ones: one that would reach the end of its range keeps its previous value. -/
def keepTrims {α : Type} (old : List α) (new : List (Option α)) : List α := old.zipIdx.map fun x => ((new[x.2]?).join).getD x.1

/-- A trim of the parts that ran would reach the end of its range. -/
def trimsLimit (t : CalTrims) (parts : Nat) : Bool :=
  (parts.testBit 0 && (t.shunt0.isNone || t.shunt1.isNone)) || (parts.testBit 1 && (t.holdGain.isNone || t.holdOfs.isNone)) ||
  (parts.testBit 2 && t.railTrim.any fun x => x.1.isNone || x.2.isNone) || (parts.testBit 3 && t.drive.any Option.isNone)

/-- The rails' UV and OV trims over the old ones. -/
def keepRails (old : List (Int × Int)) (new : List (Option Int × Option Int)) : List (Int × Int) :=
  (keepTrims (old.map Prod.fst) (new.map Prod.fst)).zip (keepTrims (old.map Prod.snd) (new.map Prod.snd))

/-- CALIBRATION_COMPLETE: a record of the parts that ran; 0x0201 carries CAL_COUNT and PARTS, and 0x0204 a trim at the end of its
range. -/
def calDone (t : CalTrims) (d : Dev) : Dev :=
  if !d.pwr.calBusy then d
  else
    let has (n : Nat) : Bool := d.pwr.calParts.testBit n
    let d1 := writeCal d fun r =>
      { r with parts := d.pwr.calParts,
               shunt0 := if has 0 then t.shunt0.getD r.shunt0 else r.shunt0,
               shunt1 := if has 0 then t.shunt1.getD r.shunt1 else r.shunt1,
               holdGain := if has 1 then t.holdGain.getD r.holdGain else r.holdGain,
               holdOfs := if has 1 then t.holdOfs.getD r.holdOfs else r.holdOfs,
               railTrim := if has 2 then keepRails r.railTrim t.railTrim else r.railTrim,
               drive := if has 3 then keepTrims r.drive t.drive else r.drive }
    let d2 := d1.modPwr fun p =>
      { p with calBusy := false, calResult := if trimsLimit t d.pwr.calParts then .limit else .done, calTemp := (hottest d).1 }
    let d3 := if trimsLimit t d.pwr.calParts then raiseOp d2 0x0204 srcCAL [] else d2
    raiseOp d3 0x0201 srcCAL [match d3.ldg.calA with | some r => r.count | none => 0, d.pwr.calParts]

/-- PWR_CMD OFF: without CONFIRM it has no effect (R482, R493). -/
def offCmd (confirm : BitVec 16) (d : Dev) : Dev × Nat :=
  (if confirm = 0x7A3C then offRequest .cmdOff true false 0 d else d, 0)

/-! ## The rows -/

/-- MAIN_OK_FALL (R266). -/
def execMainOkFall (s : State) : Res := onDev mainFall s
/-- MAIN_OK_RISE (R482). -/
def execMainOkRise (s : State) : Res := onDev mainRise s
/-- PWRON_RST_N_RISE (R426). -/
def execPwronRstNRise (env : BootEnv) (s : State) : Res := onDev (pwronRise env) s
/-- PWRON_RST_N_FALL (R470). -/
def execPwronRstNFall (s : State) : Res := onDev pwronFall s
/-- VDD_AON_BROWN_OUT (R408). -/
def execVddAonBrownOut (s : State) : Res := onDev brownOut s
/-- PG_RISE (R476). -/
def execPgRise (pgLine : Nat) (s : State) : Res := onDev (pgRise pgLine) s
/-- SETTLE_EXPIRY (R476). -/
def execSettleExpiry (mv : Nat) (s : State) : Res := onDev (settled mv) s
/-- PG_TIMEOUT (R476). -/
def execPgTimeout (s : State) : Res := onDev pgTimeout s
/-- DOWN_MS_EXPIRY (R476). -/
def execDownMsExpiry (s : State) : Res := onDev downExpiry s
/-- MIN_OFF_EXPIRY (R483). -/
def execMinOffExpiry (s : State) : Res := onDev minOffExpiry s
/-- OFF of PWR_CMD (R482). -/
def execOff (p : Principal) (confirm : BitVec 16) (s : State) : Res :=
  onDev (command p 0x30004 (offCmd confirm)) s
/-- ON of PWR_CMD (R482). -/
def execOn (p : Principal) (s : State) : Res := onDev (command p 0x30004 fun d => (onRequest true d, 0)) s
/-- RAIL_FAULT (R480). -/
def execRailFault (rail mv : Nat) (hard : Bool) (s : State) : Res := onDev (railFault rail mv hard) s
/-- CHARGER_PG_LOW (R473). -/
def execChargerPgLow (s : State) : Res := onDev chargerLow s
/-- TEMP_CONVERSION (R488). -/
def execTempConversion (sensor : Nat) (value : Int) (s : State) : Res := onDev (tempConv sensor value) s
/-- THROTTLE_STEP (R488). -/
def execThrottleStep (s : State) : Res := onDev throttleStep s
/-- HOLD_TEMP_CONVERSION (R489). -/
def execHoldTempConversion (lineMv : Nat) (celsius : Int) (s : State) : Res := onDev (holdTemp lineMv celsius) s
/-- VDD_CORE_REQUEST_UPDATE (R484). -/
def execVddCoreRequestUpdate (s : State) : Res := onDev coreUpdate s
/-- VDD_CORE_RAISE_MET (R484). -/
def execVddCoreRaiseMet (mv : Nat) (s : State) : Res := onDev (coreMet mv) s
/-- VDD_CORE_RAISE_UNMET (R484). -/
def execVddCoreRaiseUnmet (s : State) : Res := onDev coreUnmet s
/-- RUN of CAL_CMD (R490). -/
def execRunCal (p : Principal) (s : State) : Res := onDev (command p 0x40000 calRun) s
/-- CALIBRATION_DUE (R490). -/
def execCalibrationDue (s : State) : Res := onDev calDueNow s
/-- CALIBRATION_COMPLETE (R492). -/
def execCalibrationComplete (trims : CalTrims) (s : State) : Res := onDev (calDone trims) s

end Sys2Proof.Machine
end

