-- ==== Sys2Proof/Machine/Update.lean ====
section
/-! DEFINITION. Firmware update: delta images, staging, activation, commit, revert, revocation and the load from RECOVERY (R452 to
R469). -/
namespace Sys2Proof.Machine

/-! ## Delta images (R453, R454) -/

/-- The stream that a delta's operations produce from the running stream; none for a malformed delta. -/
def deltaOps (run : List Byte) : Nat → List Byte → List Byte → Option (List Byte)
  | 0, _, _ => none
  | n + 1, ops, out =>
    let len := leNat ((ops.drop 4).take 4)
    let src := leNat ((ops.drop 8).take 4)
    if ops.length < 12 || leNat ((ops.drop 1).take 3) ≠ 0 then none
    else
      match leNat (ops.take 1) with
      | 1 => if run.length < src + len then none else deltaOps run n (ops.drop 12) (out ++ (run.drop src).take len)
      | 2 =>
        let data := (ops.drop 12).take len
        let pad := ((ops.drop (12 + len)).take (roundUp len 4 - len))
        if src ≠ 0 || decide (ops.length < 12 + roundUp len 4) || !(pad.all fun b => b = 0) then none
        else deltaOps run n (ops.drop (12 + roundUp len 4)) (out ++ data)
      | 3 => if len = 0 ∧ src = 0 ∧ ops.length = 12 then some out else none
      | _ => none

/-- The new bank's header that a delta embeds. -/
def deltaTarget (x : List Byte) : Bank := { header := (x.drop 64).take 308, stream := [] }

/-- The stream of a bank. -/
def streamOf (b : Bank) : List Byte := b.stream.take (shpLen b + drvLen b)

/-- The bank that a delta produces. -/
def deltaBank (run : Bank) (x : List Byte) : Option Bank :=
  let t := deltaTarget x
  let ops := (x.drop 372).take (leNat ((x.drop 56).take 4))
  if ops.length ≠ leNat ((x.drop 56).take 4) || leNat ((x.drop 60).take 4) ≠ 0 then none
  else
    match deltaOps (streamOf run) (ops.length / 12 + 1) ops [] with
    | some s => if s.length = shpLen t + drvLen t then some { t with stream := s } else none
    | none => none

/-! ## Commands (R466, R467) -/

/-- Codes of UPD_STATUS. -/
def updStateNo : UpdState → Nat
  | .idle => 0 | .staging => 1 | .staged => 2 | .activating => 3 | .trial => 4 | .recoveryLoad => 5
def updResultNo : UpdResult → Nat
  | .done => 0 | .badState => 1 | .srcFault => 2 | .badBase => 3 | .badSig => 4 | .version => 5 | .belowFloor => 6
  | .badDelta => 7 | .badHash => 8 | .badLevel => 9 | .badConfirm => 10 | .lastSigner => 11

/-- A write to UPD_CMD; one while BUSY has no effect. -/
def updCmd (f : Dev → Dev) (d : Dev) : Dev × Nat := if d.upd.busy then (d, 0) else (f d, 0)

def updEnd (d : Dev) (r : UpdResult) : Dev := d.modUpd fun u => { u with result := r, busy := false }

/-- The bank that is not running. -/
def otherBank (d : Dev) : Bank := bankAt d (!d.ldg.bankB)

/-- UPD_STAGED_VER: 0 when the other bank is invalid. -/
def stagedVer (d : Dev) : Nat := if bankCheck d.ldg (otherBank d) = .none then fwVer (otherBank d) else 0

/-! ## Staging (R455, R456) -/

/-- UPD_STATUS.STATE changes, and the update journal takes an entry of the stage: the FW_VERs that run and that are staged, and the
STATE code (R456). -/
def journalStage (st : UpdState) (d : Dev) : Dev :=
  let other := match d.upd.target with | some b => fwVer b | none => stagedVer d
  (d.modUpd fun u => { u with st := st }).modLdg fun l =>
    { l with journal := putRing l.journal (entryBytes435 0x0101 (leBytes 4 (fwVer (running d)) ++ leBytes 4 other ++ leBytes 1 (updStateNo st))) }

/-- Staging ends: 0x0A01 with RESULT. -/
def stageEnds (d : Dev) (r : UpdResult) : Dev := raiseOp (updEnd d r) 0x0A01 srcUPD [updResultNo r]

/-- Step 2: the span of the delta in fold 0, with RD. -/
def deltaBytes (d : Dev) : Option (List Byte) :=
  let off := (reg d 0x9000C).toNat + (reg d 0x90010).toNat * 2 ^ 32
  let len := (reg d 0x90014).toNat
  if 8388608 < len then none
  else
    match walk d [] 0 (reg d 0x90008) with
    | .error _ => none
    | .ok t => if t.len < off + len || t.rights % 2 = 0 then none else some (readBytes d.mem (t.base + off) len)

/-- The checks of steps 3 to 6. -/
def deltaCheck (d : Dev) (x : List Byte) : UpdResult :=
  let t := deltaTarget x
  if leNat (x.take 4) ≠ 0x4F544E44 || x.length < 372 ||
      BitVec.ofNat 384 (beNum x 8 48) ≠ Config.sha384 ((running d).header.take 308) then .badBase
  else if !signerOk d.ldg.revoked t || !signatureOk t then .badSig
  else if fwVer t < fwVer (running d) then .version
  else if svnOf t < d.ldg.floor then .belowFloor
  else .done

/-- STAGE: the checks are made at once; then the other bank is erased and the delta is applied. A malformed delta leaves the other
bank invalid. -/
def stageDelta (d : Dev) : Dev :=
  if !(d.upd.st = .idle || d.upd.st = .staged) || d.ldg.stage ≠ .firmware || d.dur.save ≠ .idle then stageEnds d .badState
  else
    match deltaBytes d with
    | none => stageEnds d .srcFault
    | some x =>
      match deltaCheck d x with
      | .done =>
        let d1 := countErases (setBank d (!d.ldg.bankB) noBank) (if d.ldg.bankB then 0 else 1024) 1024
        (match deltaBank (running d) x with
         | none => journalStage .idle (stageEnds d1 .badDelta)
         | some b => journalStage .staging <| d1.modUpd fun u => { u with busy := true, progress := 0, target := some b })
      | r => stageEnds d r

/-- STAGE_COMPLETE: the written images are hashed (step 8). -/
def stageDone (d : Dev) : Dev :=
  match d.upd.st, d.upd.target with
  | .staging, some b =>
    let d1 := d.modUpd fun u => { u with target := none, progress := 1000 }
    if headerOk b && hashesOk b then
      stageEnds (journalStage .staged (setBank d1 (!d.ldg.bankB) b)) .done
    else stageEnds (journalStage .idle d1) .badHash
  | _, _ => d

/-! ## Activation, commit and revert (R459 to R461) -/

/-- Steps 1 and 2: BOOT names the other bank, the budget is written, and fetch and stamping stop. A standby leaves its pair first
and enters JOINING. -/
def activateStart (trial : Bool) (d : Dev) : Dev :=
  let tries := if trial then regBits d 0x90024 23 20 else 0
  let d1 := setBoot { bankB := !d.ldg.bankB, trial := trial, tries := tries } d
  let d2 := if d1.twin.st = .standby then sendRecs (enterState (leavePair d1) .joining) [.leave 3] else d1
  (journalStage .activating (budgetUpdate d2)).modUpd fun u => { u with busy := true, paused := true, reverting := !trial }

/-- Why ACTIVATE or REVERT is refused. -/
def activateBad (d : Dev) (want : UpdState) : Option UpdResult :=
  if d.upd.st ≠ want || d.twin.st = .active || d.dur.save ≠ .idle || d.ldg.stage ≠ .firmware then some .badState
  else if bankCheck d.ldg (otherBank d) ≠ .none then some .badState
  else if levelOf (otherBank d) ≠ levelOf (running d) then some .badLevel
  else none

/-- ACTIVATE. -/
def activate (d : Dev) : Dev :=
  match activateBad d .staged with | some r => updEnd d r | none => activateStart true d

/-- REVERT: toward the other bank, without a trial. -/
def revert (d : Dev) : Dev :=
  match activateBad d .trial with | some r => updEnd d r | none => activateStart false d

/-- The tuning records stand in another format than the running image's (R462). -/
def tuneStale (d : Dev) : Bool :=
  (match d.ldg.cfg.tuning with | some t => t.fmt ≠ tuningFmt d | none => false) ||
  (match d.ldg.cfg.sequence with | some q => q.1 ≠ tuningFmt d | none => false)

/-- ACTIVATE_RELOAD: stamped work has ended, the engines run the new image, and held work resumes (steps 3 to 6). A unit that left
its pair for this says HELLO again. -/
def reload (d : Dev) : Dev :=
  if d.upd.st ≠ .activating || d.dur.save ≠ .idle || d.rst.warm ≠ .none then d
  else
    let old := fwVer (running d)
    let d1 := (runOut d).modLdg fun l => { l with bankB := l.boot.bankB }
    let d2 := (journalStage (if d.upd.reverting then .idle else .trial) (updEnd d1 .done)).modUpd fun u =>
      { u with reverting := false, paused := false, stale := tuneStale d1 }
    let d3 := if tuneStale d1 && !d.upd.stale then raiseOp d2 0x0A05 srcUPD [] else d2
    let d4 := raiseOp d3 0x0A03 srcUPD [old, fwVer (running d3)]
    if d4.twin.st = .joining then sendHello (newNonce (d4.modUpd fun u => { u with rejoin := true })) else settleFully d4

/-- COMMIT: the trial ends and the floor rises (R457). -/
def updCommit (confirm : BitVec 16) (d : Dev) : Dev :=
  if confirm ≠ 0x7A3C then updEnd d .badConfirm
  else if d.upd.st ≠ .trial then updEnd d .badState
  else
    let svn := svnOf (running d)
    let f := max d.ldg.floor (min 64 svn)
    let d1 := journalStage .idle (updEnd d .done)
    let d2 := (setBoot { d1.ldg.boot with trial := false, tries := 0 } d1).modLdg fun l => { l with floor := f }
    let d3 := if d.ldg.floor < f then raiseOp d2 0x0A06 srcUPD [f] else d2
    let d4 := if d.ldg.floor = 64 ∧ 64 < svn then raiseOp d3 0x0A08 srcUPD [] else d3
    raiseOp d4 0x0A03 srcUPD [fwVer (running d), fwVer (otherBank d)]

/-- REVOKE (R458). -/
def updRevoke (signer : Nat) (confirm : BitVec 16) (d : Dev) : Dev :=
  if confirm ≠ 0x7A3C then updEnd d .badConfirm
  else if d.upd.st = .trial || d.ldg.stage ≠ .firmware || 4 ≤ signer then updEnd d .badState
  else if (List.range 4).all fun n => n = signer || d.ldg.revoked.getLsbD n then updEnd d .lastSigner
  else if signerOf (running d) = some signer then updEnd d .badState
  else raiseOp ((updEnd d .done).modLdg fun l => { l with revoked := l.revoked ||| (1#4 <<< signer) }) 0x0A07 srcUPD [signer]

/-! ## Recovery (R464) -/

/-- A recovery command is accepted in RECOVERY, over I3C only. -/
def inRecovery (p : Principal) (f : Dev → Dev) (d : Dev) : Dev :=
  if p = .i3c && d.ldg.stage = .recovery then f d else updEnd d .badState

/-- RECOVER_BEGIN: bank A is erased. -/
def recoverBegin (d : Dev) : Dev :=
  (updEnd (countErases (setBank d false noBank) 0 1024) .done).modUpd fun u => { u with st := .recoveryLoad, rcvAt := 0, progress := 0 }

/-- UPD_RCV_DATA: the next word of the header sector, then of the payload. -/
def recoverWord (p : Principal) (v : Word) (d : Dev) : Dev × Nat :=
  if p ≠ .i3c || d.upd.st ≠ .recoveryLoad || 1032192 ≤ d.upd.rcvAt then (d, 0)
  else
    let b := bankAt d false
    let b' : Bank := if d.upd.rcvAt < 1008 then { b with header := b.header ++ leBytes 4 v.toNat }
      else { b with stream := b.stream ++ leBytes 4 v.toNat }
    ((setBank d false b').modUpd fun u => { u with rcvAt := u.rcvAt + 1, progress := (u.rcvAt + 1) * 1000 / 1032192 }, 0)

/-- RESULT of a bank that fails R427. -/
def bankResult : BankFail → UpdResult
  | .none => .done | .header => .badDelta | .digest => .badHash | .signer => .badSig | .signature => .badSig | .belowFloor => .belowFloor

/-- The boot again from step 4 of R426, in OFF or ON; in another power state at the next power-up. -/
def bootAgain (d : Dev) : Dev :=
  let d1 := d.modLdg fun l => { l with stage := .rom, fallback := false, failA := .none, failB := .none }
  match d.pwr.st with
  | .off => if d.dur.mainOk && !d.pwr.minOff then romBanks d1 else d
  | .on => let d2 := romBanks d1; if d2.ldg.stage = .rom then bootFinish d2 else d2
  | _ => d

/-- RECOVER_END. -/
def recoverEnd (d : Dev) : Dev :=
  if d.upd.st ≠ .recoveryLoad then updEnd d .badState
  else
    match bankCheck d.ldg (bankAt d false) with
    | .none =>
      let d1 := (updEnd d .done).modUpd fun u => { u with st := .idle, progress := 1000 }
      bootAgain (setBoot { bankB := false, trial := true, tries := regBits d 0x90024 23 20 } d1)
    | r => (updEnd d (bankResult r)).modUpd fun u => { u with st := .idle }

/-! ## The rows -/

/-- STAGE (R455). -/
def execStage (p : Principal) (s : State) : Res := onDev (command p 0x90000 (updCmd stageDelta)) s
/-- STAGE_COMPLETE (R455). -/
def execStageComplete (s : State) : Res := onDev stageDone s
/-- ACTIVATE (R459). -/
def execActivate (p : Principal) (s : State) : Res := onDev (command p 0x90000 (updCmd activate)) s
/-- ACTIVATE_RELOAD (R459). -/
def execActivateReload (s : State) : Res := onDev reload s
/-- COMMIT of UPD_CMD (R461). -/
def execUpdCommit (p : Principal) (confirm : BitVec 16) (s : State) : Res := onDev (command p 0x90000 (updCmd (updCommit confirm))) s
/-- REVERT (R461). -/
def execRevert (p : Principal) (s : State) : Res := onDev (command p 0x90000 (updCmd revert)) s
/-- REVOKE of UPD_CMD (R458). -/
def execUpdRevoke (p : Principal) (signer : Nat) (confirm : BitVec 16) (s : State) : Res :=
  onDev (command p 0x90000 (updCmd (updRevoke signer confirm))) s
/-- RECOVER_BEGIN (R464). -/
def execRecoverBegin (p : Principal) (s : State) : Res := onDev (command p 0x90000 (updCmd (inRecovery p recoverBegin))) s
/-- UPD_RCV_DATA_WRITE (R464). -/
def execUpdRcvDataWrite (p : Principal) (value : Word) (s : State) : Res := onDev (command p 0x90030 (recoverWord p value)) s
/-- RECOVER_END (R464). -/
def execRecoverEnd (p : Principal) (s : State) : Res := onDev (command p 0x90000 (updCmd (inRecovery p recoverEnd))) s

end Sys2Proof.Machine
end

