-- ==== Sys2Proof/Machine/Peek.lean ====
section
/-! DEFINITION. The value of every register as a read finds it, without the side effects of a read (R22 to R24, R540, and the field
tables of every chapter). -/
namespace Sys2Proof.Machine

/-! ## Fields that are computed -/

/-- A 64-bit value by halves. -/
def loHalf (n : Nat) : Word := BitVec.ofNat 32 n
def hiHalf (n : Nat) : Word := BitVec.ofNat 32 (n / 2 ^ 32)

/-- Units of 64 MiB, rounded up. -/
def in64M (bytes : Nat) : Nat := ceilDiv bytes (2 ^ 26)

/-- A counter of 32 bits, saturating. -/
def sat32 (n : Nat) : Word := BitVec.ofNat 32 (min n 0xFFFFFFFF)

/-- Joules of an energy in nJ, saturating at 0xFFFF (R280). -/
def joules (e : Rat) : Nat := min 0xFFFF (max 0 (e / 1000000000)).floor.toNat

/-- GLB_RESET_STATUS (R536). -/
def resetStatus (r : Rst) : Word :=
  flag 31 r.run.isSome ||| field 24 r.level ||| field 0 r.warms |||
  field 28 (match r.result with | .done => 0 | .badState => 1 | .noTarget => 2 | .badConfirm => 3)

/-- GLB_STAGE_STATUS (R537). -/
def stageStatus (r : Rst) : Word :=
  flag 31 r.bankOwner.isSome ||| flag 30 r.bankBusy ||| flag 29 r.overflow ||| field 0 r.bank.length |||
  field 26 (match r.bankResult with | .done => 0 | .badState => 1 | .owned => 2 | .lapsed => 3)

/-- PWR_STATE (R494). -/
def powerState (p : Pwr) : Word :=
  field 29 (pwrStateNo p.st) ||| flag 28 p.onHeld ||| field 24 p.step ||| field 20 (causeNo p.cause) ||| field 16 p.rail |||
  field 8 p.tries

/-- SLOT0 and SLOT1 of PWR_SAVE_STATUS (R280). -/
def slotNo (u : Dur) (i : Nat) : Nat :=
  match (u.slots.getD i ImgSlot.reset).st with | .empty => 0 | .saving => 1 | .live => 2 | .draining => 3

/-- PWR_SAVE_STATUS (R280). -/
def saveStatus (u : Dur) : Word :=
  field 30 (slotNo u 0) ||| field 28 (slotNo u 1) ||| flag 27 u.lost ||| flag 26 u.short ||| flag 25 (u.save ≠ .idle) ||| field 0 u.lastMs

/-- PWR_BUDGET (R280). -/
def budgetReg (u : Dur) : Word :=
  field 30 (match u.source with | .count => 0 | .voltage => 1 | .derated => 2 | .forcedZero => 3) |||
  flag 29 (u.test = .running) ||| flag 28 u.cntValid ||| field 0 (u.budget / 2 ^ 26)

/-- PWR_TEMP (R493). -/
def tempReg (d : Dev) : Word :=
  field 24 (signed32 d.pwr.thold).toNat ||| flag 23 d.pwr.holdValid ||| field 16 (hottest d).2 |||
  field 0 ((signed32 (hottest d).1).toNat % 2 ^ 16)

/-- SEC_ALARM_STATUS (R419). -/
def alarmStatus (s : Sec) : Word :=
  flag 31 s.lockout ||| flag 30 s.bErased ||| flag 29 s.clearKey.isSome ||| flag 28 (s.entropyOk && !s.drbgStop) |||
  field 26 (match s.last with | .done => 0 | .badMac => 1 | .badState => 2 | .lockedOut => 3) ||| field 8 s.alarmSeq |||
  field 0 s.fired.toNat

/-- SEC_KEY_STATUS (R422). -/
def keyStatus (d : Dev) : Word :=
  flag 31 d.sec.keyBusy |||
  field 28 (match d.sec.keyResult with | .done => 0 | .badState => 1 | .inUse => 2) |||
  field 26 (match getKey d.sec.slots d.sec.keyNamed with | none => 0 | some (_, l) => if l then 1 else 2) |||
  field 0 (slotRegions d d.sec.keyNamed)

/-- PKE_STATUS (R423). -/
def pkeStatus (k : Pke) : Word :=
  flag 31 k.job.isSome ||| flag 30 k.valid ||| flag 29 k.zero |||
  field 16 (match k.status with | .done => 0 | .invalidScalar => 0x60 | .invalidEncoding => 0x61 | .invalidPoint => 0x62)

/-- TWN_STATUS (R246). -/
def twinStatus (t : Twin) : Word :=
  field 29 (twinStateNo t.st) ||| flag 28 (match t.ident with | some i => i.unit | none => false) ||| flag 27 t.ident.isSome |||
  flag 26 t.override ||| flag 25 t.linkUp ||| flag 24 t.witOk ||| flag 23 t.refusing ||| flag 18 t.resyncing |||
  field 19 (match t.lastCmd with | .done => 0 | .badState => 1 | .badConfirm => 2 | .running => 3) |||
  field 0 (match t.ident with | some i => i.twin | none => 0)

/-- Leaves of U that remain, in a unit whose U is full counted up to the space's end (R241, R249). -/
def leavesLeft (d : Dev) : Nat := d.twin.u.length + (if d.twin.uFull then d.folds.s / 4096 - d.twin.uNext else 0)

/-- UPD_STATUS (R467). -/
def updStatus (d : Dev) : Word :=
  flag 31 d.upd.busy ||| field 28 (updStateNo d.upd.st) ||| field 24 (updResultNo d.upd.result) ||| flag 23 (tuneStale d) |||
  flag 22 d.upd.window ||| field 0 d.upd.progress

/-- HAL_STATUS (R385). -/
def halStatus (h : Hall) : Word :=
  flag 31 h.run.isSome ||| flag 30 h.invDone ||| field 28 (if h.lastBad then 1 else 0) ||| flag 16 h.sliceFault ||| flag 17 h.penFault

/-- The array that HAL_ECC_SEL selects (R383). An undefined KIND selects none. -/
def eccKind (n : Nat) : Option ArrayKind :=
  ([.slice, .victim, .landing, .pen, .context, .handle, .drover, .shepherd, .sliceTags, .penTags] : List ArrayKind)[n]?

def eccSel (d : Dev) : Option ArrayInst := (eccKind (regBits d 0x100014 11 8)).map fun k => arrayOf d.hall k (regBits d 0x100014 7 0)

/-- HAL_REPAIR (R387). -/
def repairReg (d : Dev) : Word :=
  let u := match d.hall.repair.find? (fun x => x.1 = regBits d 0x100020 11 0) with | some x => x.2 | none => (0, 0)
  flag 31 d.hall.fuseOk ||| field 4 (min 4 u.1) ||| field 0 (min 2 u.2)

/-- TAGS_FREE and CTX_PCT of a gallery (R556); its context cache has 4,096 entries (R133). -/
def galStatus (d : Dev) (g : Nat) : Word :=
  field 8 (2048 - min 2048 (d.net.ops.filter fun o => homeOf o.conn = g).length) |||
  field 0 (min 100 ((d.net.ctxCache.filter fun n => homeOf n = g).length * 100 / 4096))

/-- STATE of a connection (R143). -/
def connStateNo : ConnState → Nat
  | .idle => 0 | .armed => 1 | .active => 2 | .quiescing => 3 | .disabled => 4 | .error => 5

/-- RMA_CONN_STATUS (R143). -/
def connStatus (d : Dev) : Word :=
  flag 31 d.folds.connBusy ||| field 24 d.folds.connResult |||
  match getConn d d.folds.connNamed with
  | none => 0
  | some c =>
    field 28 (connStateNo c.state) ||| field 16 (if c.state = .disabled || c.state = .error then c.reason else 0) |||
    field 0 c.ident.fold

/-- DRC_STATUS (R357). -/
def chanStatus (c : Chan) : Word :=
  field 29 (match c.st with
    | .absent => 0 | .training => 1 | .ready => 2 | .selfRefresh => 3 | .freqChange => 4 | .fault => 5) |||
  flag 28 c.setB ||| field 24 c.step ||| field 8 c.temp |||
  field 20 (min 15 (c.subs.foldl (fun m u => u.owed.foldl max m) 0)) |||
  field 16 (min 15 (c.subs.foldl (fun m u => max m u.replays) 0))

/-- DRC_FCHG (R359). -/
def fchgReg (m : Dram) : Word :=
  flag 30 m.busy ||| field 16 m.rateA ||| field 8 m.rateB |||
  field 28 (match m.result with | .done => 0 | .notTrained => 1 | .failed => 2 | .badState => 3)

/-! ## The health report (R327, R328) -/

/-- The day, counted from the first sample, on which the line through a figure's samples reaches 0; none when the figure does not
decline. -/
def lineEnd (ys : List Rat) : Option Rat :=
  let n : Rat := (ys.length : Rat)
  let sx := ys.zipIdx.foldl (fun s p => s + ((p.2 : Nat) : Rat)) 0
  let sxx := ys.zipIdx.foldl (fun s p => s + ((p.2 * p.2 : Nat) : Rat)) 0
  let sy := ys.foldl (· + ·) 0
  let sxy := ys.zipIdx.foldl (fun s p => s + ((p.2 : Nat) : Rat) * p.1) 0
  let den := n * sxx - sx * sx
  if den = 0 then none
  else
    let slope := (n * sxy - sx * sy) / den
    if 0 ≤ slope then none else some ((slope * sx - sy) / n / slope)

/-- Days from the latest sample to the earliest end of the four lines. -/
def eolDays (f : Ftl) : Option Nat :=
  let ends := (List.range 4).filterMap fun k => lineEnd (f.samples.map fun s => s.getD k 0)
  (ends.foldl (fun m e => match m with | none => some e | some x => some (if e < x then e else x)) none).map fun e =>
    (max 0 (e - ((f.samples.length - 1 : Nat) : Rat))).ceil.toNat

/-- Mean and highest erase counts, and E_hot, rounded down. -/
def eraseSum (f : Ftl) : Nat := f.erases.foldl (fun n p => n + p.2) 0
def eraseMax (f : Ftl) : Nat := f.erases.foldl (fun n p => max n p.2) 0

/-- Share of the patrol's current pass that is done, in percent, and hours since the last completed pass (R325). -/
def patrolReg (d : Dev) : Word :=
  let all := (d.ftl.cws.filter fun c => patrolled d.ftl c)
  let done := (all.filter fun c => decide (c.loc < d.ftl.patrolAt)).length
  field 24 (if all.isEmpty then 0 else done * 100 / all.length) |||
  field 0 (min (2 ^ 24 - 1) ((d.clock - d.ftl.patrolLast) / 3600000000000))

/-- The registers of the health report, from offset 0x400 on. -/
def healthReg (d : Dev) (o : Nat) : Word :=
  let f := d.ftl
  if o = 0x400 then field 0 (lifeOf d) ||| field 8 (lWear d) ||| field 16 (lSpare d)
  else if o = 0x404 then sat32 ((spareLeft f d.folds.s).toNat / 2 ^ 30)
  else if o = 0x408 then sat32 (f.spareFmt / 2 ^ 30)
  else if o = 0x40C then sat32 (eraseSum f / max 1 (superCount f))
  else if o = 0x410 then sat32 ((hotQuarter f).1 / (hotQuarter f).2)
  else if o = 0x414 then sat32 (eraseMax f)
  else if o = 0x418 then sat32 (ratedOf d)
  else if o = 0x41C then sat32 (f.retired.length - (blocksAll f - f.rawFmt / max 1 (blockBytes f)))
  else if o = 0x420 then loHalf (f.drainB / 2 ^ 20)
  else if o = 0x424 then hiHalf (f.drainB / 2 ^ 20)
  else if o = 0x428 then loHalf (f.progB / 2 ^ 20)
  else if o = 0x42C then hiHalf (f.progB / 2 ^ 20)
  else if o = 0x430 then loHalf f.corr
  else if o = 0x434 then hiHalf f.corr
  else if o = 0x438 then sat32 f.retry
  else if o = 0x43C then sat32 f.soft
  else if o = 0x440 then sat32 f.uncorr
  else if o = 0x444 then sat32 f.pfail
  else if o = 0x448 then sat32 f.efail
  else if o = 0x44C then sat32 f.relocs
  else if o = 0x450 then patrolReg d
  else if o = 0x454 then (match eolDays f with | some n => field 16 (min 0xFFFE n) | none => field 16 0xFFFF)
  else if o = 0x458 then (match eolDays f with | some n => sat32 (f.day + n) | none => 0xFFFF)
  else if o = 0x45C then field 16 (diesInUse f) ||| field 0 f.offline.length
  else if 0x460 ≤ o ∧ o ≤ 0x47C ∧ o % 4 = 0 then sat32 (f.tempUs.getD ((o - 0x460) / 4) 0 / 3600000000)
  else 0

/-! ## The registers of the blocks -/

/-- EVT (R514). -/
def peekEvt (d : Dev) (o : Nat) : Word :=
  let e := d.evt
  if o = 0 then e.pend
  else if o = 0x14 then (getKey e.rlCfg (regBits d 0x50010 15 0)).getD 0x1000000A
  else if o = 0x18 then sat32 (codeBucket e (regBits d 0x50010 15 0)).drop
  else if o = 0x1C then e.foldRl
  else if 0x24 ≤ o ∧ o ≤ 0x4C then
    let set := (getKey e.snaps (regBits d 0x50020 15 0)).getD []
    if o = 0x24 then flag 31 e.refused ||| field 0 (set.filter fun a => a ≠ 0xFFFFFFFF).length
    else if 0x30 ≤ o then set.getD ((o - 0x30) / 4) 0xFFFFFFFF else 0
  else if o = 0x78 then
    let r := getKey e.rings (regBits d 0x50060 15 0)
    flag 31 e.ringBusy ||| field 28 e.ringResult ||| flag 27 r.isSome ||| field 0 (match r with | some x => x.lost | none => 0)
  else if o = 0x100 then BitVec.ofNat 32 e.head
  else if o = 0x104 then BitVec.ofNat 32 e.oldest
  else if 0x10C ≤ o ∧ o ≤ 0x14C then
    match e.recs.find? (fun r => r.rseq = (reg d 0x50108).toNat && decide (e.oldest ≤ r.rseq) && decide (r.rseq ≤ e.head)) with
    | some r => if 0x110 ≤ o then wordAt (recordImage r) (o - 0x110) 0 else 0
    | none => if o = 0x10C then flag 30 true else 0
  else if o = 0x184 then field 8 e.lHold ||| field 0 e.lAge
  else if o = 0x188 then field 27 e.ageMon ||| field 0 (min 0xFFFF e.ageMax)
  else reg d (0x50000 + o)

/-- PWR (R280, R493, R494). -/
def peekPwr (d : Dev) (o : Nat) : Word :=
  let p := d.pwr
  if o = 0 then powerState p
  else if o = 8 then field 16 p.pg.toNat ||| field 0 p.en.toNat
  else if o = 0x10 then flag 31 p.pending ||| flag 30 p.unmet ||| field 0 p.reqMv
  else if 0x40 ≤ o ∧ o ≤ 0x5C then flag 31 (p.inWin.getLsbD ((o - 0x40) / 4)) ||| field 0 (p.railMv.getD ((o - 0x40) / 4) 0 % 2 ^ 16)
  else if o = 0x60 then field 0 (d.dur.holdV % 2 ^ 20)
  else if o = 0x64 then signed32 p.holdI
  else if o = 0x80 then tempReg d
  else if 0x120 ≤ o ∧ o ≤ 0x144 then p.snap.getD ((o - 0x120) / 4) 0
  else if o = 0x200 then budgetReg d.dur
  else if o = 0x204 then field 14 (in64M (reservedLines d * 64)) ||| field 0 (in64M (d.dur.dirty.length * 64))
  else if o = 0x208 then field 16 (joules (eVolt d)) ||| field 0 (joules (eCount d))
  else if o = 0x210 then field 16 d.dur.pLast ||| field 0 (regBits d 0x30210 15 0)
  else if o = 0x214 then saveStatus d.dur
  else reg d (0x30000 + o)

/-- TWN (R246 to R249, R561, R562). -/
def peekTwn (d : Dev) (o : Nat) : Word :=
  if o = 0 then twinStatus d.twin
  else if o = 0xC then (reg d 0x8000C &&& 0xFF000000) ||| field 0 (min (2 ^ 24 - 1) (ceilDiv (leavesLeft d) 16384))
  else if o = 0x10 then field 0 (stampEpoch d.twin.lastStamp)
  else if o = 0x14 then field 0 (stampCount d.twin.lastStamp / 2 ^ 32)
  else if o = 0x18 then loHalf (stampCount d.twin.lastStamp)
  else if o = 0x1C then field 0 d.twin.rseed
  else reg d (0x80000 + o)

/-- RMA (R143, R557 to R560). -/
def peekRma (d : Dev) (o : Nat) : Word :=
  let cnt := getConn d (regBits d 0x401100 19 0)
  if o = 0 then loHalf (d.folds.s / 4096)
  else if o = 4 then hiHalf (d.folds.s / 4096)
  else if o = 8 then loHalf (rtaBase d.folds / 4096)
  else if o = 0xC then hiHalf (rtaBase d.folds / 4096)
  else if o = 0x10 then loHalf (ctlBase d.folds / 4096)
  else if o = 0x14 then hiHalf (ctlBase d.folds / 4096)
  else if 0x100 ≤ o ∧ o < 0x500 then
    match d.folds.slots[(o - 0x100) / 0x40]? with
    | some s => if o % 0x40 = 4 then slotStatus s else if 8 ≤ o % 0x40 ∧ o % 0x40 ≤ 0x20 then slotArg s (o % 0x40) else 0
    | none => 0
  else if o = 0x1004 then connStatus d
  else if 0x1104 ≤ o ∧ o ≤ 0x1118 then
    match cnt with
    | none => 0
    | some c =>
      if o = 0x1104 then loHalf c.count else if o = 0x1108 then hiHalf c.count else if o = 0x110C then c.winViol
      else if o = 0x1110 then c.tagFail else if o = 0x1114 then c.dupCnt else c.abortCnt
  else reg d (0x400000 + o)

/-- DRC of a channel (R355). -/
def peekDrc (d : Dev) (c o : Nat) : Word :=
  match d.dram.chans[c]? with
  | none => 0
  | some x =>
    if o = 4 then chanStatus x
    else if o = 8 then x.pop
    else if o = 0x20 then BitVec.ofNat 32 (errLocs x.err).1
    else if o = 0x24 then BitVec.ofNat 32 (errLocs x.err).2
    else if o = 0x80 then (if c = 0 then fchgReg d.dram else 0)
    else reg d (drc c o)

/-- LDG as a principal reads it (R446). -/
def peekLdg (d : Dev) (p : Principal) (o : Nat) : Word :=
  if o = 0x10 then ldgStatus d p
  else if o = 0x24 then (ledgerWord d ((reg d 0x20020).toNat % 2 ^ 24 / 4 * 4)).1
  else if o = 0x30 then field 12 d.ldg.moves ||| field 0 d.ldg.base
  else if o = 0x38 then sat32 d.ldg.erases
  else if o = 0x3C then sat32 (wearMax d.ldg)
  else reg d (0x20000 + o)

/-- The value of the register at an address for a principal; zero where a write-only or a reserved register or
one of a port not in use stands (R20, R22, R24). -/
def peek (d : Dev) (p : Principal) (a : Nat) : Word :=
  if a % 4 ≠ 0 || isStaging a || portAbsent d a then 0
  else
    match blockOf a with
    | none => 0
    | some (.glb, _, o) =>
      if o = 0 then 0x7256200D
      else if o = 0x24 then (reg d 0x24 &&& 0x1F) ||| field 8 (d.pwr.galClk.foldl min 24)
      else if o = 0x68 then resetStatus d.rst
      else if o = 0x74 then stageStatus d.rst
      else if o = 0x78 then d.twin.cfgGen
      else reg d a
    | some (.shp, _, o) =>
      if o = 0 then
        field 30 (match d.ldg.stage with | .rom => 0 | .firmware => 1 | .recovery => 2) ||| flag 29 d.ldg.bankB |||
        flag 28 d.ldg.fallback ||| field 24 (bankFailNo d.ldg.failA) ||| field 20 (bankFailNo d.ldg.failB) |||
        field 0 (min (2 ^ 20 - 1) d.ldg.bootMs)
      else if o = 0xC then flag 31 d.ldg.cmdBusy ||| field 28 d.ldg.cmdResult else 0
    | some (.ldg, _, o) => peekLdg d p o
    | some (.pwr, _, o) => peekPwr d o
    | some (.cal, _, o) =>
      let r := (calInUse d).getD factoryCal
      if o = 4 then
        flag 31 d.pwr.calBusy ||| field 26 d.pwr.calSource |||
        field 28 (match d.pwr.calResult with | .done => 0 | .badState => 1 | .limit => 2)
      else if o = 8 then sat32 r.count
      else if o = 0xC then loHalf r.time
      else if o = 0x10 then hiHalf r.time
      else reg d a
    | some (.evt, _, o) => peekEvt d o
    | some (.sec, _, o) =>
      if o = 0 then alarmStatus d.sec
      else if o = 4 then field 0 d.sec.cls.toNat
      else if 0x10 ≤ o ∧ o ≤ 0x1C then ((d.sec.chal.getD 0) >>> (96 - 8 * (o - 0x10))).setWidth 32
      else if o = 0x104 then keyStatus d
      else 0
    | some (.pke, _, o) =>
      if o = 4 then pkeStatus d.sec.pke
      else if 0x200 ≤ o ∧ o ≤ 0x25C then
        (if d.sec.pke.job.isSome || d.sec.pke.status ≠ .done then 0 else d.sec.pke.out.getD ((o - 0x200) / 4) 0)
      else 0
    | some (.twn, _, o) => peekTwn d o
    | some (.upd, _, o) =>
      if o = 4 then updStatus d
      else if o = 0x18 then loHalf (fwVer (running d))
      else if o = 0x1C then loHalf (stagedVer d)
      else if o = 0x20 then flag 12 (d.ldg.floor = 64) ||| field 8 d.ldg.revoked.toNat ||| field 0 d.ldg.floor
      else reg d a
    | some (.hal, _, o) =>
      if o = 8 then halStatus d.hall
      else if o = 0x18 then (match eccSel d with | some x => x.ce | none => 0)
      else if o = 0x1C then (match eccSel d with | some x => x.ue | none => 0)
      else if o = 0x24 then repairReg d
      else reg d a
    | some (.gal, g, o) => if o = 4 then galStatus d g else reg d a
    | some (.eth, _, _) | some (.mgt, _, _) => reg d a
    | some (.twl, _, o) =>
      if o = 4 then flag 31 d.twin.blockLock ||| flag 30 d.twin.linkUp ||| field 0 (min 0xFFFF (d.twin.rtt / 10)) else reg d a
    | some (.rma, _, o) => peekRma d o
    | some (.drc, c, o) => peekDrc d c o
    | some (.ftl, _, o) => if 0x400 ≤ o then healthReg d o else reg d a
    | some (.flc, _, _) => 0
    | some (.cry, _, _) => reg d a

end Sys2Proof.Machine
end

