-- ==== Sys2Proof/Machine/Recorder.lean ====
section
/-! DEFINITION. The event recorder, the buckets' refills, the event rings' commands and the ageing monitors (R503 to R516). -/
namespace Sys2Proof.Machine

/-! ## The recorder area (R508, R509) -/

/-- A record as the recorder forms it (R508). -/
def recordOf (d : Dev) (code source : Nat) (detail : List Byte) (regs : List Word) : Record :=
  { code := code, source := source, rseq := 0, time := eventTime d, suppressed := 0,
    flags := (if unitBit d then 1 else 0) + (if d.twin.timeValid then 2 else 0) + (if d.ldg.stage = .rom then 4 else 0),
    detail := detail, regs := regs }

/-- The sector of a record, counted since manufacture: 63 records to a sector. -/
def recSector (rseq : Nat) : Nat := (rseq - 1) / 63

/-- Erase the sectors of which every record lies below the oldest one held; never during a save (R444, R509, R511). -/
def eraseOld (d : Dev) : Dev :=
  let keep := recSector d.evt.oldest
  let old := addNums [] ((d.evt.recs.map fun r => recSector r.rseq).filter fun s => decide (s < keep))
  if old.isEmpty then d.modEvt fun v => { v with erasing := false }
  else if d.dur.save ≠ .idle then d.modEvt fun v => { v with erasing := true }
  else
    old.foldl (fun a s => countErase a (2048 + s % 1024))
      (d.modEvt fun v => { v with erasing := false, recs := v.recs.filter fun r => decide (keep ≤ recSector r.rseq) })

/-- The sector that a record goes to is erased: it holds no record of an earlier round. -/
def erasedFor (d : Dev) (sec : Nat) : Bool :=
  !d.evt.recs.any fun r => recSector r.rseq % 1024 = sec % 1024 && decide (recSector r.rseq < sec)

/-- The REGS of a record as it is written: a record in the buffer holds the addresses of the set that was in force at its event
(R510, R516), and one of 0x090A carries them. -/
def snapshotOf (d : Dev) (r : Record) : List Word := if r.code = 0x090A then r.regs else r.regs.map fun a => peek d .i3c a.toNat

/-- Two erased sectors stand ahead of the head: the oldest records leave by whole sectors (R508, R509). -/
def keepAhead (d : Dev) : Dev :=
  let s := recSector d.evt.head
  if s < 1022 || d.dur.save ≠ .idle then d
  else eraseOld (d.modEvt fun v => { v with oldest := max v.oldest ((s - 1021) * 63 + 1) })

/-- RECORDER_WRITE: the buffer's oldest record is programmed. During a save one whose sector is not erased is dropped. Once the
buffer has room again after a drop, 0x090B is raised. -/
def recorderWrite (d : Dev) : Dev :=
  match d.evt.buffer with
  | [] => if d.evt.erasing then eraseOld d else d
  | r :: rest =>
    let n := d.evt.head + 1
    let d0 := d.modEvt fun v => { v with buffer := rest }
    let d1 :=
      if d.dur.save ≠ .idle && !erasedFor d (recSector n) then bump d0 0x50154 1
      else
        let r' := { r with rseq := n, regs := snapshotOf d r }
        keepAhead (d0.modEvt fun v =>
          { v with head := n, recs := v.recs.filter (fun x =>
              !(recSector x.rseq % 1024 = recSector n % 1024 && decide (recSector x.rseq < recSector n))) ++ [r'] })
    if d1.evt.full then raiseOp (d1.modEvt fun v => { v with full := false }) 0x090B srcEVT [] else d1

/-- EVT_REC_CMD CLEAR (R511): its own record is written whatever EVT_REC_MASK holds. -/
def clearRecorder (p : Principal) (confirm : BitVec 16) (d : Dev) : Dev × Nat :=
  if confirm ≠ 0x7A3C then (d, 0)
  else
    let who := match p with | .i3c => 2 ^ 31 | .conn n => n
    let detail := valuesPayload [d.evt.oldest + who * 2 ^ 32]
    let d1 := d.modEvt fun v => { v with oldest := v.head + 1, erasing := true }
    let d2 := raise d1 0x0909 srcEVT detail []
    (if (reg d 0x50008).getLsbD 9 then d2 else recordEvent d2 (recordOf d 0x0909 (sourceNo srcEVT) (detail.take 8) (snapAddrs d2.evt 0x0909)), 0)

/-! ## Buckets (R506, R514) -/

/-- A token of a code bucket falls due, once in 1/RATE s. -/
def codeRefill (code : Nat) (d : Dev) : Dev :=
  let b := codeBucket d.evt code
  if codeRate d.evt code = 0 || codeDepth d.evt code ≤ b.tokens then d
  else d.modEvt fun v => { v with codes := putKey v.codes code { b with tokens := b.tokens + 1 } }

/-- A token of a fold bucket falls due. -/
def foldRefill (f : Nat) (d : Dev) : Dev :=
  let b := foldBucket d.evt f
  if foldRate d.evt = 0 || foldDepth d.evt ≤ b.1 then d
  else d.modEvt fun v => { v with folds := putKey v.folds f (b.1 + 1, b.2) }

/-- DEPTH and RATE as written: reserved bits are zero, and a DEPTH of 0 is taken as 1. -/
def limitValue (w : Word) : Word := field 24 (max 1 (wbits w 31 24)) ||| field 0 (wbits w 15 0)

/-- EVT_FOLD_RL travels in the order stream (R514, R579). -/
def foldRlWrite (v : Word) (d : Dev) : Dev × Nat :=
  match streamRefused d with
  | some n => (d, n)
  | none => (issueCtrl d (.foldRl (limitValue v)), 0)

/-- EVT_RL_CFG of the selected code: its bucket holds no more than the new depth. -/
def codeRlWrite (v : Word) (d : Dev) : Dev × Nat :=
  let code := regBits d 0x50010 15 0
  let w := limitValue v
  (d.modEvt fun e =>
    { e with rlCfg := if w = 0x1000000A then delKey e.rlCfg code else putKey e.rlCfg code w,
             codes := match getKey e.codes code with
               | some b => putKey e.codes code { b with tokens := min b.tokens (wbits w 31 24) }
               | none => e.codes }, 0)

/-- EVT_RL_DROP is read and cleared (R514, R22). -/
def dropRead (d : Dev) : Dev × Except Nat Word :=
  let code := regBits d 0x50010 15 0
  (d.modEvt fun e =>
    { e with codes := match getKey e.codes code with | some b => putKey e.codes code { b with drop := 0 } | none => e.codes },
   .ok (peek d .i3c 0x50018))

/-- EVT_PEND: a 1 clears the class (R507). -/
def pendClear (v : Word) (d : Dev) : Dev × Nat := (d.modEvt fun e => { e with pend := e.pend &&& ~~~ v }, 0)

/-! ## Snapshot sets (R510) -/

/-- Write-only registers (R22): the commands, and the registers that hold what a command takes. -/
def isWriteOnly (a : Nat) : Bool :=
  isStaging a ||
  match blockOf a with
  | some (.glb, _, o) => o = 0x64 || o = 0x70
  | some (.shp, _, o) => o = 8
  | some (.ldg, _, o) => o = 0 || o = 4 || o = 8 || o = 0xC
  | some (.pwr, _, o) => o = 4 || o = 0x21C
  | some (.cal, _, o) => o = 0
  | some (.evt, _, o) => o = 0x74 || o = 0x150
  | some (.sec, _, o) => o = 8 || o = 0x100
  | some (.pke, _, o) => o = 0
  | some (.twn, _, o) => o = 4
  | some (.upd, _, o) => o = 0 || o = 0x30
  | some (.hal, _, o) => o = 4
  | some (.rma, _, o) => o = 0x1000 || o = 0x2000 || (decide (0x100 ≤ o) && decide (o < 0x500) && o % 0x40 = 0)
  | _ => false

/-- A register that no snapshot set may name, or an address with no register. -/
def snapForbidden (a : Nat) : Bool :=
  a % 4 ≠ 0 || (blockOf a).isNone || isWriteOnly a || (decide (0x60010 ≤ a) && decide (a ≤ 0x6001C)) ||
  (decide (0x70200 ≤ a) && decide (a ≤ 0x7025C)) || a = 0x20024

/-- EVT_SNAP_ADDR0 to 7: the change of the set is recorded as 0x090A with the code and the new addresses. -/
def snapWrite (index : Nat) (v : Word) (d : Dev) : Dev × Nat :=
  if 8 ≤ index then (d, 0)
  else
    let code := regBits d 0x50020 15 0
    let bad := v ≠ 0xFFFFFFFF && snapForbidden v.toNat
    let old := (getKey d.evt.snaps code).getD (List.replicate 8 0xFFFFFFFF)
    let new := old.set index (if bad then 0xFFFFFFFF else v)
    let d1 := d.modEvt fun e =>
      { e with snaps := if new.all (fun a => a = 0xFFFFFFFF) then delKey e.snaps code else putKey e.snaps code new,
               refused := e.refused || bad }
    if new = old then (d1, 0)
    else
      (recordEvent d1 (recordOf d 0x090A (sourceNo srcEVT) (leBytes 8 code) (new.filter fun a => a ≠ 0xFFFFFFFF)), 0)

/-! ## Event rings (R503, R505, R515) -/

/-- A command of EVT_RING_CMD: nothing while BUSY. -/
def ringCmd (f : Dev → Dev) (d : Dev) : Dev × Nat := (if d.evt.ringBusy then d else f d, 0)

def ringResult (d : Dev) (n : Nat) : Dev := d.modEvt fun v => { v with ringResult := n }

/-- BIND, with the results of R515 in their order. -/
def ringBind (d : Dev) : Dev :=
  let f := regBits d 0x50060 15 0
  let n := regBits d 0x50064 19 0
  let rlog := regBits d 0x50064 31 28
  match getConn d n with
  | none => ringResult d 2
  | some c =>
    if c.ident.fold ≠ f then ringResult d 3
    else if rlog < 6 || 12 < rlog || regBits d 0x50068 5 0 ≠ 0 || (streamRefused d).isSome then ringResult d 1
    else
      issueCtrl (ringResult d 0)
        (.ringBind f n (BitVec.ofNat 64 ((reg d 0x50068).toNat + (reg d 0x5006C).toNat * 2 ^ 32)) (reg d 0x50070) rlog)

/-- UNBIND. -/
def ringUnbind (d : Dev) : Dev :=
  if (streamRefused d).isSome then ringResult d 1 else issueCtrl (ringResult d 0) (.ringUnbind (regBits d 0x50060 15 0))

/-! ## Ageing (R512, R513) -/

/-- L_hold: the fade of C from the first discharge test's C0 toward HOLD_EOL percent of it. -/
def holdLife (d : Dev) : Nat :=
  let f := regBits d 0x50180 31 24
  let c := match calInUse d with | some r => r.cMeas | none => 0
  if d.ldg.cal0 = 0 then 100 else percent ((100 * c : Nat) - (f * d.ldg.cal0 : Int)) (((100 - f) * d.ldg.cal0 : Nat) : Int)

/-- The largest drift, in units of 0.001 %, and the monitor that shows it. -/
def largestDrift (drifts : List Nat) : Nat × Nat :=
  ((drifts.take 32).zipIdx).foldl (fun b x => if b.1 < x.1 then x else b) (0, 0)

/-- AGEING_SAMPLE: drifts of the 32 monitors in units of 0.001 %. -/
def ageing (drifts : List Nat) (d : Dev) : Dev :=
  let m := largestDrift drifts
  let eol := regBits d 0x50180 23 16 * 100
  checkLife d (d.modEvt fun v =>
    { v with ageMax := m.1, ageMon := m.2, lHold := holdLife d, lAge := percent ((eol : Int) - (m.1 : Nat)) (eol : Nat) })

/-! ## The rows -/

/-- RECORDER_WRITE (R508). -/
def execRecorderWrite (s : State) : Res := onDev recorderWrite s
/-- CODE_BUCKET_REFILL (R506). -/
def execCodeBucketRefill (code : Nat) (s : State) : Res := onDev (codeRefill code) s
/-- FOLD_BUCKET_REFILL (R506). -/
def execFoldBucketRefill (fold : Nat) (s : State) : Res := onDev (foldRefill fold) s
/-- EVT_PEND_CLEAR (R507). -/
def execEvtPendClear (p : Principal) (value : Word) (s : State) : Res := onDev (command p 0x50000 (pendClear value)) s
/-- EVT_FOLD_RL_WRITE (R514). -/
def execEvtFoldRlWrite (p : Principal) (value : Word) (s : State) : Res := onDev (command p 0x5001C (foldRlWrite value)) s
/-- EVT_SNAP_ADDR_WRITE (R510). -/
def execEvtSnapAddrWrite (p : Principal) (index : Nat) (value : Word) (s : State) : Res :=
  onDev (command p (0x50030 + 4 * index) (snapWrite index value)) s
/-- RECORDER_CLEAR (R511). -/
def execRecorderClear (p : Principal) (confirm : BitVec 16) (s : State) : Res :=
  onDev (command p 0x50150 (clearRecorder p confirm)) s
/-- BIND (R515). -/
def execBind (p : Principal) (s : State) : Res := onDev (command p 0x50074 (ringCmd ringBind)) s
/-- UNBIND (R505). -/
def execUnbind (p : Principal) (s : State) : Res := onDev (command p 0x50074 (ringCmd ringUnbind)) s
/-- RING_QUERY (R514). -/
def execRingQuery (p : Principal) (s : State) : Res := onDev (command p 0x50074 (ringCmd fun d => ringResult d 0)) s
/-- AGEING_SAMPLE (R513). -/
def execAgeingSample (drifts : List Nat) (s : State) : Res := onDev (ageing drifts) s

end Sys2Proof.Machine
end

