-- ==== Sys2Proof/Machine/Reset.lean ====
section
/-! DEFINITION. Warm, gallery, fold, connection and port resets, and the shadow configuration bank (R517 to R539). -/
namespace Sys2Proof.Machine

/-! ## GLB_RESET (R534 to R536) -/

/-- A command of GLB_RESET: nothing while BUSY; the level is noted, and the result is that of the command. -/
def resetCmd (level : Nat) (f : Dev → Dev × ResetResult) (d : Dev) : Dev × Nat :=
  if d.rst.run.isSome then (d, 0)
  else
    let r := f d
    (r.1.modRst fun x => { x with level := level, result := r.2 }, 0)

/-- TARGET of GLB_RESET_TGT. -/
def target (d : Dev) : Nat := regBits d 0x60 19 0

/-- WARM starts 1 ms after the entry of its write has been sent (R522). -/
def warmCmd (confirm : BitVec 16) (d : Dev) : Dev × ResetResult :=
  if confirm ≠ 0x7A3C then (d, .badConfirm) else (d.modRst fun r => { r with warmDue := true }, .done)

/-- GALLERY likewise. A number above 15 names no gallery. -/
def galleryCmd (confirm : BitVec 16) (d : Dev) : Dev × ResetResult :=
  if confirm ≠ 0x7A3C then (d, .badConfirm)
  else if 16 ≤ target d then (d, .noTarget)
  else (d.modRst fun r => { r with run := some (.gallery (target d)), due := true }, .done)

/-- FOLD travels in the order stream (R528). -/
def foldCmd (d : Dev) : Dev × ResetResult :=
  let f := target d
  if f = 0 || (streamRefused d).isSome then (d, .badState)
  else if !d.folds.live.contains f then (d, .noTarget)
  else (issueCtrl (d.modRst fun r => { r with run := some (.fold f) }) (.foldReset f), .done)

/-- CONNECTION (R529): 0x0808 to the operator and to the fold. -/
def connectionCmd (p : Principal) (d : Dev) : Dev × ResetResult :=
  let n := target d
  if p = .conn n || (streamRefused d).isSome then (d, .badState)
  else
    match getConn d n with
    | none => (d, .noTarget)
    | some c =>
      let d1 := raise d 0x0808 srcGLB (valuesPayload []) [c.ident.fold]
      let d2 := d1.modRst fun r => { r with run := some (.connection n), freeAfter := n :: r.freeAfter }
      (match c.state with
       | .active => issueCtrl d2 (.connChange n (.quiesce true 0x02 .abortedDisabled))
       | .quiescing => d2
       | _ => issueCtrl d2 (.connChange n .free), .done)

/-- The registers of a block instance at their reset values. -/
def blockAtReset (d : Dev) (inst : Option (Block × Nat)) : Dev :=
  { d with regs := d.regs.filter fun r => (blockOf r.1).map (fun x => (x.1, x.2.1)) ≠ inst }

/-- The shepherd writes back what the identity and the tuning records hold of a block instance (R518). -/
def rewriteBlock (d : Dev) (inst : Option (Block × Nat)) : Dev :=
  let mine (l : List (Nat × Word)) := l.filter fun (w : Nat × Word) => (blockOf w.1).map (fun x => (x.1, x.2.1)) = inst
  let r1 := putRegs d.regs (mine (d.ldg.cfg.network.getD []))
  { d with regs := match tuneApplies d with | some t => putRegs r1 (mine t.regs) | none => r1 }

/-- PORT (R530): the link goes, the port's registers return with what the records hold, and the port retrains while it is enabled. -/
def portCmd (d : Dev) : Dev × ResetResult :=
  let p := target d
  if !portInUse d p then (d, .noTarget)
  else
    let d1 := linkDown p (raiseOp d 0x0C08 (.port p) [])
    let d2 := rewriteBlock (blockAtReset d1 (some (.eth, p))) (some (.eth, p))
    (if mayLink d2 p then d2.modRst fun r => { r with run := some (.port p) } else d2, .done)

/-! ## The gallery reset (R525 to R527) -/

/-- The gallery's stamped operations run to their endings. -/
def runGallery (g : Nat) (d : Dev) : Dev :=
  (d.net.ops.filter fun o => homeOf o.conn = g).foldl (fun a o => complete o.conn o.seq (workAll 257 a o.conn o.seq)) d

/-- Steps 1 to 6: fetch and admission stop, unstamped operations end unmarked and unsent, stamped ones run to their endings, the
pen's lines go home, the context cache is written back, and the island is reset. -/
def galleryBegin (g : Nat) (d : Dev) : Dev :=
  let d0 := d.modRst fun r => { r with due := false, galReset := g :: r.galReset }
  let gone := d0.net.ops.filter fun o => homeOf o.conn = g && o.stamp.isNone
  let d1 := gone.foldl forgetOp (d0.modRst fun r => { r with afresh := gone.length })
  let d2 := runGallery g (d1.modNet fun t =>
    { t with groups := t.groups.filter (fun x => homeOf x.conn ≠ g), badTail := t.badTail.filter (fun x => homeOf x.1 ≠ g),
             conns := t.conns.map fun x => if homeOf x.1 = g then (x.1, { x.2 with pulls := [] }) else x })
  let d3 := (recallPen d2 g).modSec fun s =>
    { s with lanes := s.lanes.zipIdx.map fun (x : Lane × Nat) => if x.2 / 3 = g then Lane.reset else x.1 }
  let d4 := (d3.modNet fun t =>
    { t with ctxCache := t.ctxCache.filter (fun n => homeOf n ≠ g), turns := delKey t.turns g, dpTurns := delKey t.dpTurns g }).modFolds
      fun f => { f with caches := delKey f.caches g }
  blockAtReset d4 (some (.gal, g))

/-- GALLERY_RESET_COMPLETE: once the stamped operations have ended, fetch resumes from X, the GAL fields are rewritten, and 0x0112
carries the gallery and the operations executed afresh. -/
def galleryDone (d : Dev) : Dev :=
  match d.rst.run with
  | some (.gallery g) =>
    if d.rst.due || d.net.ops.any (fun o => homeOf o.conn = g) then d
    else
      let d1 := (rewriteBlock d (some (.gal, g))).modNet fun t =>
        { t with conns := t.conns.map fun x => if homeOf x.1 = g then (x.1, { x.2 with f := x.2.x }) else x }
      let d2 := d1.modRst fun r => { r with run := none, result := .done, galReset := r.galReset.filter fun x => x ≠ g }
      let d3 := raiseOp d2 0x0112 srcGLB [g, d.rst.afresh]
      if d3.twin.st = .standby || d3.twin.st = .joining then drainHeld (d3.twin.held.length + 1) d3 else d3
  | _ => d

/-- WARM_RESET_START: 1 ms has passed since the entry of the write was sent. -/
def resetStart (d : Dev) : Dev :=
  if d.rst.warmDue then warmRequest false (d.modRst fun r => { r with warmDue := false })
  else
    match d.rst.run with
    | some (.gallery g) => if d.rst.due then galleryBegin g d else d
    | _ => d

/-- FOLD_RESET_COMPLETE: no connection of the fold is ACTIVE, ARMED or QUIESCING (R528). -/
def foldDone (d : Dev) : Dev :=
  match d.rst.run with
  | some (.fold f) =>
    if d.twin.ctrlDue.any (fun x => x.1 = .foldReset f) || d.net.conns.any (fun x => x.2.ident.fold = f &&
        (x.2.state = .active || x.2.state = .armed || x.2.state = .quiescing)) then d
    else raiseOp (d.modRst fun r => { r with run := none, result := .done }) 0x0807 srcGLB [f]
  | _ => d

/-! ## The warm reset's pin and hold (R517, R522, R523) -/

/-- WARM_RST_N has been low for 1 µs. -/
def warmLow (d : Dev) : Dev := warmRequest true (d.modPwr fun p => { p with warmLow := true })

/-- WARM_RST_N rises: a reset that it holds goes on. -/
def warmHigh (d : Dev) : Dev :=
  let d1 := d.modPwr fun p => { p with warmLow := false }
  if d1.rst.byPin then warmLeave d1 else d1

/-- The hold of 10 µs ends; a pin that is still low holds on. -/
def holdEnd (d : Dev) : Dev := if d.rst.byPin && d.pwr.warmLow then d else warmLeave d

/-! ## The shadow bank (R531 to R533, R537) -/

/-- A GLB_STAGE command other than OPEN: only the owner's has an effect. With no bank open it ends BAD_STATE. -/
def ownerOnly (p : Principal) (f : Dev → Dev) (d : Dev) : Dev × Nat :=
  let res (r : StageResult) : Dev := d.modRst fun x => { x with bankResult := r }
  match d.rst.bankOwner with
  | none => (res .badState, 0)
  | some q => (if q = p then f d else res .owned, 0)

/-- OPEN makes the writer the owner of an empty bank. -/
def stageOpen (p : Principal) (d : Dev) : Dev × Nat :=
  match d.rst.bankOwner with
  | some q => (d.modRst fun r => { r with bankResult := if q = p then .done else .owned }, 0)
  | none => (d.modRst fun r => { r with bankOwner := some p, bank := [], overflow := false, bankResult := .done }, 0)

/-- Operations admitted under the old bank that have not ended (R532); WAITs are not counted. -/
def underOld (d : Dev) : List (Nat × Word) := d.rst.oldBank.filter fun x => (findOp d x.1 x.2).isSome

/-- The bank's record leaves, if nothing of the old bank is left and the sequencer can stamp; else COMMIT waits. The bank closes. -/
def sendBank (d : Dev) : Dev :=
  if !(underOld d).isEmpty || !canStamp d || !d.twin.ctrlDue.isEmpty then d.modRst fun r => { r with bankBusy := true }
  else
    let n := d.rst.bank.length
    let flying := (d.net.ops.filter fun o => o.desc.op ≠ .wait).map fun o => (o.conn, o.seq)
    let d1 := issueCtrl (d.modRst fun r =>
      { r with bankOwner := none, bank := [], bankBusy := false, bankResult := .done, oldBank := flying }) (.config d.rst.bank)
    raiseOp d1 0x0809 srcGLB [d1.twin.cfgGen.toNat, n]

/-- COMMIT. -/
def commitBank (d : Dev) : Dev :=
  if d.rst.bankBusy then d
  else if d.rst.overflow || (streamRefused d).isSome then d.modRst fun r => { r with bankResult := .badState }
  else sendBank d

/-- ABANDON. -/
def abandonBank (d : Dev) : Dev :=
  raiseOp (d.modRst fun r =>
    { r with bankOwner := none, bank := [], overflow := false, bankBusy := false, bankResult := .done })
    0x0809 srcGLB [d.twin.cfgGen.toNat, d.rst.bank.length]

/-- STAGE_BANK_LAPSE: 10 s without a write or a command from the owner. A COMMIT that waits does not lapse. -/
def bankLapse (d : Dev) : Dev := if d.rst.bankOwner.isSome && !d.rst.bankBusy then lapseBank d else d

/-- STAGE_BANK_DRAINED: a COMMIT that waits sends its record; while the pair refuses mutation it ends BAD_STATE. -/
def bankDrained (d : Dev) : Dev :=
  if !d.rst.bankBusy then d
  else if (streamRefused d).isSome then d.modRst fun r => { r with bankBusy := false, bankResult := .badState }
  else if !(underOld d).isEmpty then d else sendBank d

/-- A write to a register of the shared-configuration set (R175, R531, R533, R579). -/
def sharedWrite (p : Principal) (a : Nat) (v : Word) (d : Dev) : Dev × Nat :=
  match streamRefused d with
  | some n => (d, n)
  | none =>
    match d.rst.bankOwner with
    | some q =>
      if q ≠ p then (d, 4)
      else if (getKey d.rst.bank a).isSome || d.rst.bank.length < 1024 then
        (d.modRst fun r => { r with bank := putKey r.bank a v }, 0)
      else (d.modRst fun r => { r with overflow := true }, 0)
    | none => (issueCtrl d (.config [(a, v)]), 0)

/-! ## The rows -/

/-- WARM_RST_N_ASSERT (R522). -/
def execWarmRstNAssert (s : State) : Res := onDev warmLow s
/-- WARM_RST_N_RELEASE (R523). -/
def execWarmRstNRelease (s : State) : Res := onDev warmHigh s
/-- WARM of GLB_RESET (R522, R523). -/
def execWarm (p : Principal) (confirm : BitVec 16) (s : State) : Res := onDev (command p 0x64 (resetCmd 1 (warmCmd confirm))) s
/-- WARM_RESET_START (R522). -/
def execWarmResetStart (s : State) : Res := onDev resetStart s
/-- WARM_RESET_QUIESCED (R523). -/
def execWarmResetQuiesced (s : State) : Res := onDev warmQuiesced s
/-- WARM_RESET_HOLD_END (R523). -/
def execWarmResetHoldEnd (s : State) : Res := onDev holdEnd s
/-- WARM_RESET_FINISH (R523). -/
def execWarmResetFinish (ms : Nat) (s : State) : Res := onDev (warmFinish ms) s
/-- GALLERY of GLB_RESET (R525, R526). -/
def execGalleryReset (p : Principal) (confirm : BitVec 16) (s : State) : Res :=
  onDev (command p 0x64 (resetCmd 2 (galleryCmd confirm))) s
/-- GALLERY_RESET_COMPLETE (R526). -/
def execGalleryResetComplete (s : State) : Res := onDev galleryDone s
/-- FOLD of GLB_RESET (R528). -/
def execFoldReset (p : Principal) (s : State) : Res := onDev (command p 0x64 (resetCmd 3 foldCmd)) s
/-- FOLD_RESET_COMPLETE (R528). -/
def execFoldResetComplete (s : State) : Res := onDev foldDone s
/-- CONNECTION of GLB_RESET (R529). -/
def execConnectionReset (p : Principal) (s : State) : Res := onDev (command p 0x64 (resetCmd 4 (connectionCmd p))) s
/-- PORT of GLB_RESET (R530). -/
def execPortReset (p : Principal) (s : State) : Res := onDev (command p 0x64 (resetCmd 5 portCmd)) s
/-- OPEN of GLB_STAGE (R531). -/
def execStageOpen (p : Principal) (s : State) : Res := onDev (command p 0x70 (stageOpen p)) s
/-- COMMIT of GLB_STAGE (R532). -/
def execStageCommit (p : Principal) (s : State) : Res := onDev (command p 0x70 (ownerOnly p commitBank)) s
/-- ABANDON of GLB_STAGE (R533). -/
def execStageAbandon (p : Principal) (s : State) : Res := onDev (command p 0x70 (ownerOnly p abandonBank)) s
/-- STAGE_BANK_LAPSE (R531). -/
def execStageBankLapse (s : State) : Res := onDev bankLapse s
/-- STAGE_BANK_DRAINED (R532). -/
def execStageBankDrained (s : State) : Res := onDev bankDrained s

end Sys2Proof.Machine
end

