-- ==== Sys2Proof/Machine/Registers.lean ====
section
/-! DEFINITION. The register paths: every write and every read of a register by its address, the register operations of management
connections, the I3C target, the lane grouping, the clock gates and the TAP (R17 to R24, R41, R81, R175, R228, R540 to R549,
R568). -/
namespace Sys2Proof.Machine

/-! ## Reads (R22, R540, R542) -/

/-- The registers that a read of a _LO register latches (R542, R561). -/
def latchedBy (a : Nat) : List Nat :=
  match blockOf a with
  | some (.cal, _, o) => if o = 0xC then [0x40010] else []
  | some (.twn, _, o) => if o = 0x18 then [0x80014, 0x80010] else if o = 0x40 then [0x80044] else []
  | some (.evt, _, o) => if o = 0x68 then [0x5006C] else []
  | some (.upd, _, o) => if o = 0xC then [0x90010] else []
  | some (.eth, _, o) => if o = 0x24 then [a - 4] else []
  | some (.mgt, _, o) => if o = 0x24 then [a - 4] else []
  | some (.rma, _, o) =>
    if o = 0 ∨ o = 8 ∨ o = 0x10 ∨ o = 0x1104 then [a + 4]
    else if 0x100 ≤ o ∧ o < 0x500 ∧ o % 0x40 = 0xC then [a + 4] else []
  | some (.ftl, _, o) => if o = 0x420 ∨ o = 0x428 ∨ o = 0x430 then [a + 4] else []
  | _ => []

/-- A principal's latch of a register. -/
def latchOf (d : Dev) (p : Principal) (a : Nat) : Option Word := (d.latches.find? fun x => x.1 = p && x.2.1 = a).map fun x => x.2.2
def dropLatch (d : Dev) (p : Principal) (a : Nat) : Dev :=
  { d with latches := d.latches.filter fun x => !(x.1 = p && x.2.1 = a) }

/-- Latch registers for a principal at their live values. -/
def latch (p : Principal) (as : List Nat) (d : Dev) : Dev :=
  as.foldl (fun x a => { dropLatch x p a with latches := (p, a, peek d p a) :: (dropLatch x p a).latches }) d

/-- A read that clears HAL_ECC_CE or HAL_ECC_UE of the selected instance (R383). -/
def eccRead (ue : Bool) (d : Dev) : Dev × Except Nat Word :=
  match eccSel d with
  | none => (d, .ok 0)
  | some x => (setArray d (if ue then { x with ue := 0 } else { x with ce := 0 }), .ok (if ue then x.ue else x.ce))

/-- A read of a register by a principal: the device after it and the value, or the DETAIL of a refusal. -/
def readCore (p : Principal) (a : Nat) (d : Dev) : Dev × Except Nat Word :=
  match latchOf d p a with
  | some w => (dropLatch d p a, .ok w)
  | none =>
    if a = 0x20010 then ldgStatusRead p d
    else if a = 0x20024 then rdData d
    else if a = 0x60010 then chalRead d
    else if a = 0x50018 then dropRead d
    else if a = 0x100018 then eccRead false d
    else if a = 0x10001C then eccRead true d
    else if 0x400100 ≤ a ∧ a < 0x400500 ∧ a % 0x40 = 4 then statusRead p ((a - 0x400100) / 0x40) d
    else if portAbsent d a then (d, .ok 0)
    else if isCounter a then (setReg d a 0, .ok (reg d a))
    else (latch p (latchedBy a) d, .ok (peek d p a))

/-! ## Writes (R22, R24) -/

/-- A plain write of the bits that the register has. -/
def setPlain (a : Nat) (v : Word) (d : Dev) : Dev × Nat := ({ d with regs := plainWrite d.regs a v }, 0)

/-- A write that stages a value for a command (R418, R562). -/
def setStaged (a : Nat) (v : Word) (d : Dev) : Dev × Nat := (setReg d a v, 0)

/-- GLB_GATE: the named islands wake (R551). -/
def wakeNamed (d : Dev) : Dev :=
  let w := reg d 0x20
  d.modRst fun r =>
    { r with gateGal := r.gateGal &&& ~~~ (w.setWidth 16), gateDrc := if w.getLsbD 16 then 0 else r.gateDrc,
             gateFl := if w.getLsbD 17 then 0 else r.gateFl }

/-- GLB_ETH_MODE: no effect while any port is enabled (R81). -/
def ethMode (v : Word) (d : Dev) : Dev × Nat :=
  if (List.range 16).any fun p => (reg d (ethBase p)).getLsbD 31 then (d, 0) else (setReg d 0x40 (v &&& 3), 0)

/-- GLB_GAL_CLK: a lower MAX lowers the clocks now; a higher one waits for the VDD_CORE request (R484, R552). -/
def galClkWrite (v : Word) (d : Dev) : Dev × Nat :=
  let d1 := (setPlain 0x24 v d).1
  (d1.modPwr fun p => { p with galClk := p.galClk.map fun c => min c (clockCap d1) }, 0)

/-- ETH_CFG and MGT_CFG: a port that is no longer enabled loses its link (R86, R555). -/
def portCfg (p : Nat) (v : Word) (d : Dev) : Dev × Nat :=
  let d1 := (setPlain (ethBase p) v d).1
  (if (reg d1 (ethBase p)).getLsbD 31 then d1 else linkDown p d1, 0)

/-- PWR_HOLD_CAP: the capacitance of a new bank, of which no test has completed (R512). -/
def capWrite (v : Word) (d : Dev) : Dev × Nat := ((setPlain 0x30070 v d).1.modLdg fun l => { l with cal0 := 0 }, 0)

/-- PWR_SAVE_STATUS: a 1 clears SHORT (R280). -/
def shortClear (v : Word) (d : Dev) : Dev × Nat := (d.modDur fun u => { u with short := u.short && !v.getLsbD 26 }, 0)

/-- SEC_ALARM_CFG: bits can be set, and a write of 0 to a set bit is ignored (R409, R420). -/
def clsWrite (v : Word) (d : Dev) : Dev × Nat := (d.modSec fun s => { s with cls := s.cls ||| v.setWidth 8 }, 0)

/-- EVT_SNAP_SEL: the next write clears REFUSED (R514). -/
def snapSel (v : Word) (d : Dev) : Dev × Nat := ((setPlain 0x50020 v d).1.modEvt fun e => { e with refused := false }, 0)

/-- DRC_FCHG: RATE_B loads the shadow sets with the SPD's timings, and GO changes to them (R353, R359). -/
def fchgWrite (v : Word) (d : Dev) : Dev × Nat :=
  let r := wbits v 15 8
  let d1 := loadRate r ((List.range 32).map (Config.spdTiming r)) d
  (if v.getLsbD 31 then rateGo d1 else d1, 0)

/-- CMD and CONFIRM of a command register. -/
def cmdOfWord (v : Word) : Nat := wbits v 31 28
def confirmOf (v : Word) : BitVec 16 := v.setWidth 16

/-- GLB_RESET (R535). -/
def glbReset (p : Principal) (v : Word) (d : Dev) : Dev × Nat :=
  match cmdOfWord v with
  | 1 => resetCmd 1 (warmCmd (confirmOf v)) d
  | 2 => resetCmd 2 (galleryCmd (confirmOf v)) d
  | 3 => resetCmd 3 foldCmd d
  | 4 => resetCmd 4 (connectionCmd p) d
  | 5 => resetCmd 5 portCmd d
  | _ => (d, 0)

/-- GLB_STAGE (R534). -/
def glbStage (p : Principal) (v : Word) (d : Dev) : Dev × Nat :=
  match cmdOfWord v with
  | 1 => stageOpen p d
  | 2 => ownerOnly p commitBank d
  | 3 => ownerOnly p abandonBank d
  | _ => (d, 0)

/-- SHP_CMD (R450). -/
def shpWrite (v : Word) (d : Dev) : Dev × Nat :=
  match cmdOfWord v with
  | 1 => shpCmd shpTuning d
  | 2 => shpCmd (shpIdentity (confirmOf v)) d
  | 3 => shpCmd (fun x => (compactStore x, 0)) d
  | _ => (d, 0)

/-- PWR_CMD (R493). -/
def pwrCmd (v : Word) (d : Dev) : Dev × Nat :=
  match cmdOfWord v with
  | 1 => offCmd (confirmOf v) d
  | 2 => (onRequest true d, 0)
  | _ => (d, 0)

/-- PWR_DUR_CMD (R280). -/
def durCmd (v : Word) (d : Dev) : Dev × Nat :=
  match cmdOfWord v with
  | 1 => (scheduleTest d, 0)
  | 2 => acceptLoss (confirmOf v) d
  | _ => (d, 0)

/-- EVT_RING_CMD (R514). -/
def ringWrite (v : Word) (d : Dev) : Dev × Nat :=
  match cmdOfWord v with
  | 1 => ringCmd ringBind d
  | 2 => ringCmd ringUnbind d
  | 3 => ringCmd (fun x => ringResult x 0) d
  | _ => (d, 0)

/-- SEC_CMD (R421). -/
def secWrite (v : Word) (d : Dev) : Dev × Nat :=
  match cmdOfWord v with
  | 1 => secCmd clearLockout d
  | 2 => secCmd (lowerClass (v.setWidth 8)) d
  | 3 => secCmd provisionClear d
  | _ => (d, 0)

/-- SEC_KEY_CMD (R422). -/
def keyWrite (v : Word) (d : Dev) : Dev × Nat :=
  let k := wbits v 11 0
  match cmdOfWord v with
  | 1 => keyCmd .generate k d
  | 2 => keyCmd .load k d
  | 3 => keyCmd .unload k d
  | 4 => keyCmd .destroy k d
  | 5 => keyCmd .query k d
  | _ => (d, 0)

/-- PKE_CMD (R405, R418). -/
def pkeWrite (v : Word) (d : Dev) : Dev × Nat :=
  match cmdOfWord v with
  | 1 => pkeStart .ecdh384 d
  | 2 => pkeStart .x25519 d
  | 3 => pkeStart .verify384 d
  | _ => (d, 0)

/-- TWN_CMD (R247). -/
def twnWrite (v : Word) (d : Dev) : Dev × Nat :=
  match cmdOfWord v with
  | 1 => twnRun swap d
  | 2 => twnRun (confirmed (confirmOf v) reseed) d
  | 3 => twnRun (confirmed (confirmOf v) forceUnpaired) d
  | 4 => twnRun clearOverride d
  | 5 => twnRun (setTest true) d
  | 6 => twnRun (setTest false) d
  | 7 => twnRun (setWindow true) d
  | 8 => twnRun (setWindow false) d
  | 9 => twnRun provision d
  | _ => twnRun (fun x => x) d

/-- UPD_CMD (R466). -/
def updWrite (p : Principal) (v : Word) (d : Dev) : Dev × Nat :=
  match cmdOfWord v with
  | 1 => updCmd stageDelta d
  | 2 => updCmd activate d
  | 3 => updCmd (updCommit (confirmOf v)) d
  | 4 => updCmd revert d
  | 5 => updCmd (updRevoke (wbits v 19 16) (confirmOf v)) d
  | 6 => updCmd (inRecovery p recoverBegin) d
  | 7 => updCmd (inRecovery p recoverEnd) d
  | _ => (d, 0)

/-- HAL_CMD (R385). -/
def halWrite (v : Word) (d : Dev) : Dev × Nat :=
  match cmdOfWord v with
  | 1 => halCmd .invalidate d
  | 2 => halCmd .flush d
  | 3 => halCmd .flushDisable d
  | _ => (d, 0)

/-- RMA_CONN_CMD (R143). -/
def connWrite (v : Word) (d : Dev) : Dev × Nat :=
  let n := wbits v 19 0
  match cmdOfWord v with
  | 1 => connCmd .disableDrain n d
  | 2 => connCmd .disableAbort n d
  | 3 => connCmd .release n d
  | 4 => connCmd .query n d
  | _ => (d, 0)

/-- RMA_CRED_CMD (R143). -/
def credWrite (p : Principal) (v : Word) (d : Dev) : Dev × Nat :=
  let id := wbits v 27 12
  match wbits v 31 30 with
  | 1 => credCmd p id (some (newCred d (v.getLsbD 29) (wbits v 11 0))) d
  | 2 => credCmd p id none d
  | _ => (d, 0)

/-- The operation that CMD of RMA_CMD names (R558). -/
def rmaOpOf (n : Nat) : Option RmaOp :=
  match n with
  | 1 => some .format | 2 => some .createFold | 3 => some .destroyFold | 4 => some .createRegion | 5 => some .destroyRegion
  | 6 => some .setPerm | 7 => some .grant | 8 => some .revoke | 9 => some .commit | _ => none

/-- A register of an RMA command slot (R557): a slot that another principal owns refuses it. -/
def slotWrite (p : Principal) (s o : Nat) (v : Word) (d : Dev) : Dev × Nat :=
  if o = 0 then
    match rmaOpOf (cmdOfWord v) with
    | some op => rmaWrite p op s (wbits v 15 0) d
    | none => match takeSlot p s d with | some d1 => (d1, 0) | none => (d, 4)
  else if 8 ≤ o ∧ o ≤ 0x20 then argWrite p s o v d
  else (d, 0)

/-- A write of a register by a principal: the device after it, and 0 or the DETAIL of a refusal. A write to a register of the
shared-configuration set goes its own way (R531, R533, R579). -/
def writeAt (p : Principal) (a : Nat) (v : Word) (d : Dev) : Dev × Nat :=
  if portAbsent d a then (d, 0)
  else if isShared a then sharedWrite p a v d
  else if isStaging a then setStaged a v d
  else
    match blockOf a with
    | none => (d, 0)
    | some (.glb, _, o) =>
      if o = 0x64 then glbReset p v d
      else if o = 0x70 then glbStage p v d
      else if o = 0x40 then ethMode v d
      else if o = 0x24 then galClkWrite v d
      else if o = 0x20 then (wakeNamed (setPlain a v d).1, 0) else setPlain a v d
    | some (.shp, _, o) => if o = 8 then shpWrite v d else (d, 0)
    | some (.ldg, _, o) =>
      if o = 0 then ldgKey p v d
      else if o = 4 then ldgCmd p v d
      else if o = 8 then ldgAddr p v d
      else if o = 0xC then ldgData p v d else setPlain a v d
    | some (.pwr, _, o) =>
      if o = 4 then pwrCmd v d
      else if o = 0x21C then durCmd v d
      else if o = 0x214 then shortClear v d
      else if o = 0x70 then capWrite v d else setPlain a v d
    | some (.cal, _, o) => if o = 0 then (if cmdOfWord v = 1 then calRun d else (d, 0)) else setPlain a v d
    | some (.evt, _, o) =>
      if o = 0 then pendClear v d
      else if o = 0x14 then codeRlWrite v d
      else if o = 0x1C then foldRlWrite v d
      else if o = 0x20 then snapSel v d
      else if 0x30 ≤ o ∧ o ≤ 0x4C then snapWrite ((o - 0x30) / 4) v d
      else if o = 0x74 then ringWrite v d
      else if o = 0x150 then (if cmdOfWord v = 1 then clearRecorder p (confirmOf v) d else (d, 0)) else setPlain a v d
    | some (.sec, _, o) =>
      if o = 4 then clsWrite v d else if o = 8 then secWrite v d else if o = 0x100 then keyWrite v d else (d, 0)
    | some (.pke, _, o) => if o = 0 then pkeWrite v d else (d, 0)
    | some (.twn, _, o) => if o = 4 then twnWrite v d else setPlain a v d
    | some (.upd, _, o) => if o = 0 then updWrite p v d else if o = 0x30 then recoverWord p v d else setPlain a v d
    | some (.hal, _, o) => if o = 0 then halCtrl v d else if o = 4 then halWrite v d else setPlain a v d
    | some (.gal, _, _) => setPlain a v d
    | some (.eth, q, o) => if o = 0 then portCfg q v d else setPlain a v d
    | some (.mgt, _, o) => if o = 0 then portCfg 16 v d else setPlain a v d
    | some (.rma, _, o) =>
      if 0x100 ≤ o ∧ o < 0x500 then slotWrite p ((o - 0x100) / 0x40) (o % 0x40) v d
      else if o = 0x1000 then connWrite v d
      else if o = 0x2000 then credWrite p v d else setPlain a v d
    | some (.drc, c, o) =>
      if o = 0x28 then armInj c v d
      else if o = 0x80 then (if c = 0 then fchgWrite v d else (d, 0))
      else if 0x40 ≤ o ∧ o < 0x60 then (targetWrite c ((o - 0x40) / 4) v (setPlain a v d).1, 0) else setPlain a v d
    | some (.ftl, _, _) => setPlain a v d
    | some (.twl, _, _) | some (.flc, _, _) | some (.cry, _, _) => (d, 0)

/-- A write also ends the writer's latch of the register, so that its next read returns what was written (R541). -/
def writeCore (p : Principal) (a : Nat) (v : Word) (d : Dev) : Dev × Nat := writeAt p a v (dropLatch d p a)

/-! ## Register operations of a management connection (R175, R228, R541) -/

/-- A configuration write of the connection's own unit waits for its stamp; the operations behind it wait with it. -/
def configWaits (d : Dev) : Bool := d.twin.ctrlDue.any fun x => match x.1 with | .config _ => true | _ => false

def isRegOp (o : Op) : Bool := o.desc.op = .regRead || o.desc.op = .regWrite

/-- End a register operation that is still in flight with the outcome of its access. -/
def endReg (d : Dev) (o : Op) (st : Status) (detail : Nat) (v : Word) : Dev :=
  match findOp d o.conn o.seq with
  | none => d
  | some x =>
    if st = .done then endOp d x (doneEntry x.desc 0 0 (if x.desc.op = .regRead then v.toNat else 0)) none
    else endOp d x (endEntry x.desc st detail) none

/-- An access on this unit: status, DETAIL and value. -/
def accessHere (p : Principal) (a : Nat) (isWrite : Bool) (v : Word) (d : Dev) : Dev × Status × Nat × Word :=
  match refusal d p a with
  | some (st, n) => (d, st, n, 0)
  | none =>
    if isWrite then
      let r := writeCore p a v d
      (r.1, if r.2 = 0 then .done else .accessViolation, r.2, 0)
    else
      let r := readCore p a d
      match r.2 with
      | .ok w => (r.1, .done, 0, w)
      | .error n => (r.1, .accessViolation, n, 0)

/-- An address with bit 31 set names a register of the twin (R228): the request goes over the twin link, and the operation waits
for the answer. -/
def relayReg (d : Dev) (o : Op) (a : Nat) : Dev :=
  let isWrite := o.desc.op = .regWrite
  if isWrite && (isShared a || a = 0x60100) then endReg d o .accessViolation 4 0
  else if !d.twin.linkUp || d.twin.ident.isNone then endReg d o .accessViolation 5 0
  else
    let d1 := setOp (d.modTwin fun t => { t with relays := t.relays ++ [{ conn := o.conn, seq := o.seq, addr := a, write := isWrite }] })
      { o with stage := .waiting }
    sendRecs d1 [.regReq a isWrite (o.desc.b48.setWidth 32)]

/-- A shared-configuration write whose effect travels as a CONFIG record of its own: the unit serves and accepts it, no bank is open
and the register's port is in use (R175, R533, R545). -/
def takesConfig (d : Dev) (p : Principal) (a : Nat) : Bool :=
  isShared a && (refusal d p a).isNone && (streamRefused d).isNone && d.rst.bankOwner.isNone && !portAbsent d a

/-- Such a write takes its stamp when its turn comes (R156) and waits at its level with the lines that it changed; until then it stays
ready (R145, R161, R175). -/
def stampReg (d : Dev) (o : Op) : Dev :=
  let b : CtrlBody := .config [(o.desc.offset.toNat, o.desc.b48.setWidth 32)]
  if ctrlReady d b && d.twin.phase = .none && stampOrderOk d o then
    let p := stampCtrl d b
    let d1 := setOp (applyCtrl p.2 p.1 b)
      { o with stage := .holding, stamp := some p.1, done := some (doneEntry o.desc 0 0 0), lines := ctlLines d b }
    complete o.conn o.seq d1
  else d

/-- A register operation that is ready makes its access, once every earlier one of its connection has ended. -/
def regOp (isWrite : Bool) (conn : Nat) (seq : Word) (d : Dev) : Dev :=
  let d1 := advanceAs (if isWrite then .regWrite else .regRead) conn seq [] [] d
  match findOp d1 conn seq with
  | none => d1
  | some o =>
    if o.stage ≠ .ready || o.desc.op ≠ (if isWrite then .regWrite else .regRead) || (earlierOps d1 o).any isRegOp || configWaits d1 then d1
    else if isWrite && takesConfig d1 (.conn conn) o.desc.offset.toNat then stampReg d1 o
    else if 2 ^ 31 ≤ o.desc.offset.toNat then relayReg d1 o (o.desc.offset.toNat - 2 ^ 31)
    else
      let r := accessHere (.conn conn) o.desc.offset.toNat isWrite (o.desc.b48.setWidth 32) d1
      endReg r.1 o r.2.1 r.2.2.1 r.2.2.2

/-- REG_WRITE and REG_READ as a principal's access reaches the block, or as an operation makes it. -/
def regAccess (isWrite : Bool) (x : Access) (d : Dev) : Dev :=
  match x with
  | .direct p a v => if isWrite then command p a (writeCore p a v) d else readAs p a (readCore p a) d
  | .op n q => regOp isWrite n q d

/-! ## The I3C target (R547, R548) -/

/-- Outcome of an access over I3C: 0 done, 1 not open or refused, 2 no register there. -/
def i3cOutcome (st : Status) (detail : Nat) : Nat :=
  if st = .done then 0 else if st = .malformed then 2 else if detail = 5 then 2 else 1

/-- A transfer reaches the target while VDD_AON is up. -/
def onBus (f : Dev → Dev) (d : Dev) : Dev := if d.pwr.pwron then f d else d

/-- A private write of 4 bytes. -/
def i3cPoint (a : Nat) (d : Dev) : Dev :=
  d.modI3c fun x => { x with pointer := a % 2 ^ 32, wrote := some (if a % 4 = 0 then 0 else 2) }

/-- A private write of 8 bytes. -/
def i3cStore (a : Nat) (v : Word) (d : Dev) : Dev :=
  let r := accessHere .i3c (a % 2 ^ 32) true v d
  (answer r.1 .i3c (a % 2 ^ 32) true r.2.1 r.2.2.1 0).modI3c fun x =>
    { x with pointer := a % 2 ^ 32, wrote := some (i3cOutcome r.2.1 r.2.2.1) }

/-- A private read of 5 bytes. -/
def i3cLoad (d : Dev) : Dev :=
  let a := d.i3c.pointer
  let r := accessHere .i3c a false 0 d
  (answer r.1 .i3c a false r.2.1 r.2.2.1 r.2.2.2).modI3c fun x =>
    { x with reply := beBytes 4 r.2.2.2.toNat ++ [BitVec.ofNat 8 (i3cOutcome r.2.1 r.2.2.1 + 4 * (d.i3c.wrote.getD 3))],
             pointer := (a + 4) % 2 ^ 32, wrote := none }

/-- A common command code that the target answers with bytes. -/
def i3cSay (bs : List Byte) (d : Dev) : Dev := d.modI3c fun x => { x with reply := bs }

/-- A dynamic address is taken by a target that holds none. -/
def i3cTake (a : BitVec 7) (d : Dev) : Dev := d.modI3c fun x => if x.dyn.isSome then x else { x with dyn := some a }

/-- The provisional ID (R547). -/
def i3cPid (d : Dev) : Nat := 0x2D1 * 2 ^ 33 + 0x7256 * 2 ^ 16 + nodeOf d % 2 ^ 16

/-! ## Clock gating (R41, R551) -/

/-- An island is idle: a gallery without operations, a flash group without programs or erases, a channel with empty queues. -/
def islandIdle (d : Dev) : Island → Bool
  | .gallery g =>
    decide (g < 16) && !d.rst.galReset.contains g && d.net.ops.all (fun o => homeOf o.conn ≠ g) &&
    (d.sec.lanes.zipIdx).all fun (x : Lane × Nat) => x.2 / 3 ≠ g || (x.1.run.isNone && x.1.susp.isEmpty)
  | .flashGroup g => decide (g < 16) && d.ftl.progs.all (fun p => p.pos / 16 ≠ g) && d.ftl.erasing.all fun sb => posOf sb / 16 ≠ g
  | .dramChannel c =>
    match d.dram.chans[c]? with
    | some x => x.subs.all fun u => u.reads.isEmpty && u.writes.isEmpty && u.flight.isEmpty && u.replay.isEmpty
    | none => false

/-- Automatic gating is allowed for an island (R551). -/
def mayGate (d : Dev) : Island → Bool
  | .gallery g => !(reg d 0x20).getLsbD g
  | .flashGroup _ => !(reg d 0x20).getLsbD 17
  | .dramChannel _ => !(reg d 0x20).getLsbD 16

/-- Set or clear an island's gate. -/
def setGate (on' : Bool) (i : Island) (d : Dev) : Dev :=
  d.modRst fun r =>
    match i with
    | .gallery g => { r with gateGal := if on' then r.gateGal ||| (1#16 <<< g) else r.gateGal &&& ~~~ (1#16 <<< g) }
    | .flashGroup g => { r with gateFl := if on' then r.gateFl ||| (1#16 <<< g) else r.gateFl &&& ~~~ (1#16 <<< g) }
    | .dramChannel c => { r with gateDrc := if on' then r.gateDrc ||| (1#24 <<< c) else r.gateDrc &&& ~~~ (1#24 <<< c) }

/-- ISLAND_GATE: nothing has been presented for 1 µs. -/
def gateIsland (i : Island) (d : Dev) : Dev := if d.pwr.st = .on && mayGate d i && islandIdle d i then setGate true i d else d

/-! ## The TAP (R568) -/

/-- Instructions other than BYPASS and IDCODE are allowed. -/
def tapOpen (d : Dev) : Bool :=
  d.pwr.st = .on && !d.sec.lockout && (d.twin.st = .fenced || (d.twin.st = .unpaired && d.net.conns.isEmpty))

def loadTap (i : JtagIr) (d : Dev) : Dev := { d with jtag := if tapOpen d then i else .bypass }

/-- IDCODE. -/
def idcode : Word := 0x27256B43

/-! ## The rows -/

/-- REG_WRITE (R175). -/
def execRegWrite (a : Access) (s : State) : Res := onDev (regAccess true a) s
/-- REG_READ (R175). -/
def execRegRead (a : Access) (s : State) : Res := onDev (regAccess false a) s
/-- RC_REGISTER_READ (R22). -/
def execRcRegisterRead (p : Principal) (addr : Nat) (s : State) : Res := onDev (readAs p addr (readCore p addr)) s
/-- LO_REGISTER_READ (R542). -/
def execLoRegisterRead (p : Principal) (addr : Nat) (s : State) : Res := onDev (readAs p addr (readCore p addr)) s
/-- I3C_WRITE_ADDRESS (R548). -/
def execI3cWriteAddress (addr : Nat) (s : State) : Res := onDev (onBus (i3cPoint addr)) s
/-- I3C_WRITE_VALUE (R548). -/
def execI3cWriteValue (addr : Nat) (value : Word) (s : State) : Res := onDev (onBus (i3cStore addr value)) s
/-- I3C_READ (R548). -/
def execI3cRead (s : State) : Res := onDev (onBus i3cLoad) s
/-- I3C_SETDASA (R547): the static address is 0x3A. -/
def execI3cSetdasa (static dyn : BitVec 7) (s : State) : Res :=
  onDev (onBus fun d => if static = 0x3A then i3cTake dyn d else d) s
/-- I3C_ENTDAA (R547). -/
def execI3cEntdaa (dyn : BitVec 7) (s : State) : Res := onDev (onBus (i3cTake dyn)) s
/-- I3C_RSTDAA (R547). -/
def execI3cRstdaa (s : State) : Res := onDev (onBus fun d => d.modI3c fun x => { x with dyn := none }) s
/-- I3C_GETPID (R547). -/
def execI3cGetpid (s : State) : Res := onDev (onBus fun d => i3cSay (beBytes 6 (i3cPid d)) d) s
/-- I3C_GETBCR (R547). -/
def execI3cGetbcr (s : State) : Res := onDev (onBus (i3cSay [Config.i3cBcr])) s
/-- I3C_GETDCR (R547). -/
def execI3cGetdcr (s : State) : Res := onDev (onBus (i3cSay [Config.i3cDcr])) s
/-- I3C_GETSTATUS (R547). -/
def execI3cGetstatus (s : State) : Res := onDev (onBus (i3cSay (beBytes 2 Config.i3cStatus.toNat))) s
/-- I3C_GETMRL (R547). -/
def execI3cGetmrl (s : State) : Res := onDev (onBus (i3cSay (beBytes 2 Config.i3cMrl.toNat))) s
/-- I3C_GETMWL (R547). -/
def execI3cGetmwl (s : State) : Res := onDev (onBus (i3cSay (beBytes 2 Config.i3cMwl.toNat))) s
/-- GLB_ETH_MODE_WRITE (R81). -/
def execGlbEthModeWrite (p : Principal) (value : Word) (s : State) : Res := onDev (command p 0x40 (ethMode value)) s
/-- ISLAND_GATE (R41). -/
def execIslandGate (island : Island) (s : State) : Res := onDev (gateIsland island) s
/-- ISLAND_WAKE (R41). -/
def execIslandWake (island : Island) (s : State) : Res := onDev (setGate false island) s
/-- JTAG_BYPASS (R568). -/
def execJtagBypass (s : State) : Res := onDev (fun d => { d with jtag := .bypass }) s
/-- JTAG_IDCODE (R568). -/
def execJtagIdcode (s : State) : Res := onDev (fun d => emit { d with jtag := .idcode } (.jtagIdcode idcode)) s
/-- JTAG_SAMPLE_PRELOAD (R568). -/
def execJtagSamplePreload (s : State) : Res := onDev (loadTap .samplePreload) s
/-- JTAG_EXTEST (R568). -/
def execJtagExtest (s : State) : Res := onDev (loadTap .extest) s
/-- JTAG_CLAMP (R568). -/
def execJtagClamp (s : State) : Res := onDev (loadTap .clamp) s
/-- JTAG_HIGHZ (R568). -/
def execJtagHighz (s : State) : Res := onDev (loadTap .highz) s
/-- JTAG_EXTEST_PULSE (R568). -/
def execJtagExtestPulse (s : State) : Res := onDev (loadTap .extestPulse) s
/-- JTAG_EXTEST_TRAIN (R568). -/
def execJtagExtestTrain (s : State) : Res := onDev (loadTap .extestTrain) s

end Sys2Proof.Machine
end

