-- ==== Sys2Proof/Machine/Relay.lean ====
section
/-! DEFINITION. Register accesses that a unit makes for its twin, their answers, and the frames that carry the twin link's records
(R212 to R215, R219, R228). -/
namespace Sys2Proof.Machine

/-- The principal of an access that the twin relays. A REG_REQ names no connection, so the unit sees one principal for all of
them, apart from its own connections. -/
def relayed : Principal := .conn 1048576

/-- REG_REQ: the access is made here and answered (R228). -/
def takeRegReq (d : Dev) (a : Nat) (isWrite : Bool) (v : Word) : Dev :=
  let r := accessHere relayed a isWrite v d
  sendRecs r.1 [.regRsp a r.2.1 (BitVec.ofNat 32 r.2.2.1) r.2.2.2]

/-- REG_RSP: the operation that waits longest for an answer ends with it. -/
def takeRegRsp (d : Dev) (st : Status) (detail v : Word) : Dev :=
  match d.twin.relays with
  | [] => d
  | r :: rest =>
    let d1 := d.modTwin fun t => { t with relays := rest }
    match findOp d1 r.conn r.seq with
    | some o => endReg d1 o st detail.toNat v
    | none => d1

/-- A record of the twin link, register requests and answers among them. -/
def takeRec (d : Dev) (r : Rec) : Dev :=
  match r with
  | .regReq a w v => takeRegReq d a w v
  | .regRsp _ st n v => takeRegRsp d st n v
  | x => handleRec d x

/-- TWL_RECORDS_FRAME (R213). -/
def execTwlRecordsFrame (h : TwlHdr) (recs : List Frag) (malformed : Bool) (s : State) : Res :=
  onDev (twFrame h (takeRecords takeRec h recs malformed)) s
/-- REG_REQ (R228). -/
def execRegReq (addr : Nat) (isWrite : Bool) (value : Word) (s : State) : Res :=
  onDev (recArrives fun d => takeRec d (.regReq addr isWrite value)) s
/-- REG_RSP (R228). -/
def execRegRsp (addr : Nat) (status : Status) (detail : Word) (value : Word) (s : State) : Res :=
  onDev (recArrives fun d => takeRec d (.regRsp addr status detail value)) s

end Sys2Proof.Machine
end

