-- ==== Sys2Proof/Machine/Dispatch.lean ====
section
/-! DEFINITION. One arm per command: a direct call of its meaning. -/
namespace Sys2Proof.Machine

def exec (i : Instr) (s : State) : Host.Outcome State Fault Refusal :=
  match i with
  | .regWrite a => Sys2Proof.Machine.execRegWrite a s
  | .regRead a => Sys2Proof.Machine.execRegRead a s
  | .rcRegisterRead p addr => Sys2Proof.Machine.execRcRegisterRead p addr s
  | .loRegisterRead p addr => Sys2Proof.Machine.execLoRegisterRead p addr s
  | .i3cWriteAddress addr => Sys2Proof.Machine.execI3cWriteAddress addr s
  | .i3cWriteValue addr value => Sys2Proof.Machine.execI3cWriteValue addr value s
  | .i3cRead => Sys2Proof.Machine.execI3cRead s
  | .i3cSetdasa static dyn => Sys2Proof.Machine.execI3cSetdasa static dyn s
  | .i3cEntdaa dyn => Sys2Proof.Machine.execI3cEntdaa dyn s
  | .i3cRstdaa => Sys2Proof.Machine.execI3cRstdaa s
  | .i3cGetpid => Sys2Proof.Machine.execI3cGetpid s
  | .i3cGetbcr => Sys2Proof.Machine.execI3cGetbcr s
  | .i3cGetdcr => Sys2Proof.Machine.execI3cGetdcr s
  | .i3cGetstatus => Sys2Proof.Machine.execI3cGetstatus s
  | .i3cGetmrl => Sys2Proof.Machine.execI3cGetmrl s
  | .i3cGetmwl => Sys2Proof.Machine.execI3cGetmwl s
  | .glbEthModeWrite p value => Sys2Proof.Machine.execGlbEthModeWrite p value s
  | .islandGate island => Sys2Proof.Machine.execIslandGate island s
  | .islandWake island => Sys2Proof.Machine.execIslandWake island s
  | .contextFillComplete conn => Sys2Proof.Machine.execContextFillComplete conn s
  | .budgetUpdate => Sys2Proof.Machine.execBudgetUpdate s
  | .budgetWatchdogExpiry => Sys2Proof.Machine.execBudgetWatchdogExpiry s
  | .format p slot => Sys2Proof.Machine.execFormat p slot s
  | .createFold p slot fold => Sys2Proof.Machine.execCreateFold p slot fold s
  | .destroyFold p slot fold => Sys2Proof.Machine.execDestroyFold p slot fold s
  | .destroyFoldDrainDone fold => Sys2Proof.Machine.execDestroyFoldDrainDone fold s
  | .createRegion p slot fold => Sys2Proof.Machine.execCreateRegion p slot fold s
  | .destroyRegion p slot fold => Sys2Proof.Machine.execDestroyRegion p slot fold s
  | .setPerm p slot fold => Sys2Proof.Machine.execSetPerm p slot fold s
  | .grant p slot fold => Sys2Proof.Machine.execGrant p slot fold s
  | .revoke p slot fold => Sys2Proof.Machine.execRevoke p slot fold s
  | .commit p slot fold => Sys2Proof.Machine.execCommit p slot fold s
  | .commitDrainDone fold => Sys2Proof.Machine.execCommitDrainDone fold s
  | .generationDrained fold => Sys2Proof.Machine.execGenerationDrained fold s
  | .rmaStatusRead p slot => Sys2Proof.Machine.execRmaStatusRead p slot s
  | .rmaSlotLapse slot => Sys2Proof.Machine.execRmaSlotLapse slot s
  | .nonFenhelFrame frame => Sys2Proof.Machine.execNonFenhelFrame frame s
  | .strangerFrame port src frame => Sys2Proof.Machine.execStrangerFrame port src frame s
  | .ucrTokenRefill port => Sys2Proof.Machine.execUcrTokenRefill port s
  | .arpRequest port target mac => Sys2Proof.Machine.execArpRequest port target mac s
  | .neighborSolicitation port target mac => Sys2Proof.Machine.execNeighborSolicitation port target mac s
  | .arpReply port ip mac => Sys2Proof.Machine.execArpReply port ip mac s
  | .neighborAdvertisement port ip mac => Sys2Proof.Machine.execNeighborAdvertisement port ip mac s
  | .portLinkDown port => Sys2Proof.Machine.execPortLinkDown port s
  | .portLinkUp port => Sys2Proof.Machine.execPortLinkUp port s
  | .doorbell h d => Sys2Proof.Machine.execDoorbell h d s
  | .readRsp h rid offset refused data => Sys2Proof.Machine.execReadRsp h rid offset refused data s
  | .ack h ackPsn echoTs sack ceCnt rxCnt => Sys2Proof.Machine.execAck h ackPsn echoTs sack ceCnt rxCnt s
  | .probe h => Sys2Proof.Machine.execProbe h s
  | .pathReset h oldPath newE => Sys2Proof.Machine.execPathReset h oldPath newE s
  | .disconnect h reason => Sys2Proof.Machine.execDisconnect h reason s
  | .connectReq h pubOk r => Sys2Proof.Machine.execConnectReq h pubOk r s
  | .connectFin h confirmC nonceG => Sys2Proof.Machine.execConnectFin h confirmC nonceG s
  | .ptpMessage msg corr => Sys2Proof.Machine.execPtpMessage msg corr s
  | .ackDelayExpiry conn path => Sys2Proof.Machine.execAckDelayExpiry conn path s
  | .rtoExpiry conn path => Sys2Proof.Machine.execRtoExpiry conn path s
  | .probeInterval conn path => Sys2Proof.Machine.execProbeInterval conn path s
  | .connectionDead conn => Sys2Proof.Machine.execConnectionDead conn s
  | .pullTimeout conn rid => Sys2Proof.Machine.execPullTimeout conn rid s
  | .ratePeriodEnd conn path pull => Sys2Proof.Machine.execRatePeriodEnd conn path pull s
  | .readReqSend conn rid path len => Sys2Proof.Machine.execReadReqSend conn rid path len s
  | .sequencedFrameSend conn path => Sys2Proof.Machine.execSequencedFrameSend conn path s
  | .setupTimeout conn => Sys2Proof.Machine.execSetupTimeout conn s
  | .errorHoldExpiry conn => Sys2Proof.Machine.execErrorHoldExpiry conn s
  | .descriptorFetch gallery => Sys2Proof.Machine.execDescriptorFetch gallery s
  | .descriptorStart conn seq => Sys2Proof.Machine.execDescriptorStart conn seq s
  | .orderWaitRelease conn seq => Sys2Proof.Machine.execOrderWaitRelease conn seq s
  | .fenceRelease conn seq => Sys2Proof.Machine.execFenceRelease conn seq s
  | .dataPullComplete conn seq badLine => Sys2Proof.Machine.execDataPullComplete conn seq badLine s
  | .lineFillComplete conn seq bad => Sys2Proof.Machine.execLineFillComplete conn seq bad s
  | .budgetAdmission => Sys2Proof.Machine.execBudgetAdmission s
  | .admitWaitExpiry conn seq => Sys2Proof.Machine.execAdmitWaitExpiry conn seq s
  | .orderStamp conn seq bad => Sys2Proof.Machine.execOrderStamp conn seq bad s
  | .groupAssemblyTimeout conn first => Sys2Proof.Machine.execGroupAssemblyTimeout conn first s
  | .completionLevelReached conn seq => Sys2Proof.Machine.execCompletionLevelReached conn seq s
  | .read conn seq finds => Sys2Proof.Machine.execRead conn seq finds s
  | .write conn seq => Sys2Proof.Machine.execWrite conn seq s
  | .writeZero conn seq => Sys2Proof.Machine.execWriteZero conn seq s
  | .copy conn seq => Sys2Proof.Machine.execCopy conn seq s
  | .cas conn seq => Sys2Proof.Machine.execCas conn seq s
  | .fetchAdd conn seq => Sys2Proof.Machine.execFetchAdd conn seq s
  | .swap conn seq => Sys2Proof.Machine.execSwap conn seq s
  | .persist conn seq => Sys2Proof.Machine.execPersist conn seq s
  | .logAppend conn seq => Sys2Proof.Machine.execLogAppend conn seq s
  | .snapshot conn seq => Sys2Proof.Machine.execSnapshot conn seq s
  | .clone conn seq => Sys2Proof.Machine.execClone conn seq s
  | .wait conn seq => Sys2Proof.Machine.execWait conn seq s
  | .waitTimeoutExpiry conn seq => Sys2Proof.Machine.execWaitTimeoutExpiry conn seq s
  | .health conn seq => Sys2Proof.Machine.execHealth conn seq s
  | .nop conn seq => Sys2Proof.Machine.execNop conn seq s
  | .cowLeafCopy conn seq leaf => Sys2Proof.Machine.execCowLeafCopy conn seq leaf s
  | .datapathChunk gallery => Sys2Proof.Machine.execDatapathChunk gallery s
  | .disableDrain p conn => Sys2Proof.Machine.execDisableDrain p conn s
  | .disableAbort p conn => Sys2Proof.Machine.execDisableAbort p conn s
  | .connRelease p conn => Sys2Proof.Machine.execConnRelease p conn s
  | .connQuery p conn => Sys2Proof.Machine.execConnQuery p conn s
  | .quiesceComplete conn => Sys2Proof.Machine.execQuiesceComplete conn s
  | .enrol p id mgmt foldLo => Sys2Proof.Machine.execEnrol p id mgmt foldLo s
  | .credRevoke p id => Sys2Proof.Machine.execCredRevoke p id s
  | .twlRecordsFrame h recs malformed => Sys2Proof.Machine.execTwlRecordsFrame h recs malformed s
  | .linkAck h => Sys2Proof.Machine.execLinkAck h s
  | .hello msg => Sys2Proof.Machine.execHello msg s
  | .twlRetransmitTimeout => Sys2Proof.Machine.execTwlRetransmitTimeout s
  | .twlIdleSend => Sys2Proof.Machine.execTwlIdleSend s
  | .twlRxSilence => Sys2Proof.Machine.execTwlRxSilence s
  | .twlBlockLockLoss => Sys2Proof.Machine.execTwlBlockLockLoss s
  | .twlLinkUp rtt => Sys2Proof.Machine.execTwlLinkUp rtt s
  | .opRec stamp conn gen m => Sys2Proof.Machine.execOpRec stamp conn gen m s
  | .groupRec stamp conn gen ms => Sys2Proof.Machine.execGroupRec stamp conn gen ms s
  | .ctrlRec stamp body => Sys2Proof.Machine.execCtrlRec stamp body s
  | .endRec stamp conn entry => Sys2Proof.Machine.execEndRec stamp conn entry s
  | .indexRec conn sqTail ackSeq cqHead0 cqHead1 => Sys2Proof.Machine.execIndexRec conn sqTail ackSeq cqHead0 cqHead1 s
  | .rdataRec conn seq offset addr ckey data => Sys2Proof.Machine.execRdataRec conn seq offset addr ckey data s
  | .levelRec stamps => Sys2Proof.Machine.execLevelRec stamps s
  | .leafRec pa poison bytes entries control => Sys2Proof.Machine.execLeafRec pa poison bytes entries control s
  | .handover => Sys2Proof.Machine.execHandover s
  | .resyncSet first leaves full last => Sys2Proof.Machine.execResyncSet first leaves full last s
  | .regReq addr isWrite value => Sys2Proof.Machine.execRegReq addr isWrite value s
  | .regRsp addr status detail value => Sys2Proof.Machine.execRegRsp addr status detail value s
  | .fin stamp => Sys2Proof.Machine.execFin stamp s
  | .repair stamp pa => Sys2Proof.Machine.execRepair stamp pa s
  | .ready => Sys2Proof.Machine.execReady s
  | .leave reason => Sys2Proof.Machine.execLeave reason s
  | .ports addrs => Sys2Proof.Machine.execPorts addrs s
  | .repairTimeout pa => Sys2Proof.Machine.execRepairTimeout pa s
  | .standbyBudgetWait => Sys2Proof.Machine.execStandbyBudgetWait s
  | .resyncLeafSend => Sys2Proof.Machine.execResyncLeafSend s
  | .renewInterval => Sys2Proof.Machine.execRenewInterval s
  | .claimInterval => Sys2Proof.Machine.execClaimInterval s
  | .witnessGrant ans => Sys2Proof.Machine.execWitnessGrant ans s
  | .witnessDeny ans => Sys2Proof.Machine.execWitnessDeny ans s
  | .witnessDone ans => Sys2Proof.Machine.execWitnessDone ans s
  | .witnessAnswerLate => Sys2Proof.Machine.execWitnessAnswerLate s
  | .leaseEnd => Sys2Proof.Machine.execLeaseEnd s
  | .linkWaitExpiry => Sys2Proof.Machine.execLinkWaitExpiry s
  | .soloWaitExpiry => Sys2Proof.Machine.execSoloWaitExpiry s
  | .heartbeatSend => Sys2Proof.Machine.execHeartbeatSend s
  | .heartbeat link macOk rsvOk => Sys2Proof.Machine.execHeartbeat link macOk rsvOk s
  | .helloInterval => Sys2Proof.Machine.execHelloInterval s
  | .swapDrainDone => Sys2Proof.Machine.execSwapDrainDone s
  | .handoverClaimTimeout => Sys2Proof.Machine.execHandoverClaimTimeout s
  | .reseed p confirm => Sys2Proof.Machine.execReseed p confirm s
  | .reseedDrainDone => Sys2Proof.Machine.execReseedDrainDone s
  | .forceUnpaired p confirm => Sys2Proof.Machine.execForceUnpaired p confirm s
  | .clearOverride p => Sys2Proof.Machine.execClearOverride p s
  | .testOn p => Sys2Proof.Machine.execTestOn p s
  | .testOff p => Sys2Proof.Machine.execTestOff p s
  | .openWindow p => Sys2Proof.Machine.execOpenWindow p s
  | .closeWindow p => Sys2Proof.Machine.execCloseWindow p s
  | .windowExpiry => Sys2Proof.Machine.execWindowExpiry s
  | .provision p => Sys2Proof.Machine.execProvision p s
  | .holdVSample raw => Sys2Proof.Machine.execHoldVSample raw s
  | .shuntSample raw => Sys2Proof.Machine.execShuntSample raw s
  | .accumulatorAnchor => Sys2Proof.Machine.execAccumulatorAnchor s
  | .mismatchWindowEnd => Sys2Proof.Machine.execMismatchWindowEnd s
  | .dischargeTest p => Sys2Proof.Machine.execDischargeTest p s
  | .dischargeTestStart => Sys2Proof.Machine.execDischargeTestStart s
  | .dischargeTestFloor => Sys2Proof.Machine.execDischargeTestFloor s
  | .dischargeTestTimeout => Sys2Proof.Machine.execDischargeTestTimeout s
  | .acceptLoss p confirm => Sys2Proof.Machine.execAcceptLoss p confirm s
  | .dirtyOverBudget => Sys2Proof.Machine.execDirtyOverBudget s
  | .mainOkFall => Sys2Proof.Machine.execMainOkFall s
  | .mainOkRise => Sys2Proof.Machine.execMainOkRise s
  | .saveStampedWorkDone => Sys2Proof.Machine.execSaveStampedWorkDone s
  | .saveLinkDrainEnd => Sys2Proof.Machine.execSaveLinkDrainEnd s
  | .saveImageProgram => Sys2Proof.Machine.execSaveImageProgram s
  | .saveImageDone watts ms => Sys2Proof.Machine.execSaveImageDone watts ms s
  | .holdUpLimit => Sys2Proof.Machine.execHoldUpLimit s
  | .saveResume => Sys2Proof.Machine.execSaveResume s
  | .imageRelease slot => Sys2Proof.Machine.execImageRelease slot s
  | .ftlDrain pos => Sys2Proof.Machine.execFtlDrain pos s
  | .flashProgramComplete pos ns => Sys2Proof.Machine.execFlashProgramComplete pos ns s
  | .flashProgramFail pos chan plane => Sys2Proof.Machine.execFlashProgramFail pos chan plane s
  | .flashEraseComplete sb => Sys2Proof.Machine.execFlashEraseComplete sb s
  | .flashEraseFail sb chan plane => Sys2Proof.Machine.execFlashEraseFail sb chan plane s
  | .flashReadComplete loc step corrected => Sys2Proof.Machine.execFlashReadComplete loc step corrected s
  | .flashSuspend flashChan target erase => Sys2Proof.Machine.execFlashSuspend flashChan target erase s
  | .dieOffline flashChan target => Sys2Proof.Machine.execDieOffline flashChan target s
  | .garbageCollect pos => Sys2Proof.Machine.execGarbageCollect pos s
  | .checkpointStart => Sys2Proof.Machine.execCheckpointStart s
  | .checkpointComplete => Sys2Proof.Machine.execCheckpointComplete s
  | .checkpointLate => Sys2Proof.Machine.execCheckpointLate s
  | .patrolRead step corrected => Sys2Proof.Machine.execPatrolRead step corrected s
  | .patrolPeriodEnd => Sys2Proof.Machine.execPatrolPeriodEnd s
  | .healthDailySample day => Sys2Proof.Machine.execHealthDailySample day s
  | .dramRequest chan sub tag dport isWrite line rank bank row now data => Sys2Proof.Machine.execDramRequest chan sub tag dport isWrite line rank bank row now data s
  | .dramCommandIssue chan sub now => Sys2Proof.Machine.execDramCommandIssue chan sub now s
  | .urgencyRaise chan sub now => Sys2Proof.Machine.execUrgencyRaise chan sub now s
  | .refreshDue chan sub rank => Sys2Proof.Machine.execRefreshDue chan sub rank s
  | .rowIdlePrecharge chan sub rank bank => Sys2Proof.Machine.execRowIdlePrecharge chan sub rank bank s
  | .dramReadData chan sub tag found day => Sys2Proof.Machine.execDramReadData chan sub tag found day s
  | .dramAlert chan sub => Sys2Proof.Machine.execDramAlert chan sub s
  | .dramAlertRelease chan sub => Sys2Proof.Machine.execDramAlertRelease chan sub s
  | .dramTempRead chan temps => Sys2Proof.Machine.execDramTempRead chan temps s
  | .ceBucketLeak chan => Sys2Proof.Machine.execCeBucketLeak chan s
  | .drcInjArm p chan value => Sys2Proof.Machine.execDrcInjArm p chan value s
  | .rateBLoad p rate timings => Sys2Proof.Machine.execRateBLoad p rate timings s
  | .go p => Sys2Proof.Machine.execGo p s
  | .rateChangeComplete ok => Sys2Proof.Machine.execRateChangeComplete ok s
  | .getS pen line => Sys2Proof.Machine.execGetS pen line s
  | .getM pen line => Sys2Proof.Machine.execGetM pen line s
  | .data pen line => Sys2Proof.Machine.execData pen line s
  | .snpInv pen line => Sys2Proof.Machine.execSnpInv pen line s
  | .snpAck pen line answer bytes => Sys2Proof.Machine.execSnpAck pen line answer bytes s
  | .evict pen line => Sys2Proof.Machine.execEvict pen line s
  | .evictAck pen line => Sys2Proof.Machine.execEvictAck pen line s
  | .victimWritebackAck slice line => Sys2Proof.Machine.execVictimWritebackAck slice line s
  | .invalidate p => Sys2Proof.Machine.execInvalidate p s
  | .flush p => Sys2Proof.Machine.execFlush p s
  | .flushDisable p => Sys2Proof.Machine.execFlushDisable p s
  | .halCmdComplete => Sys2Proof.Machine.execHalCmdComplete s
  | .halCtrlWrite p value => Sys2Proof.Machine.execHalCtrlWrite p value s
  | .mergeEntryRetire kind inst word found => Sys2Proof.Machine.execMergeEntryRetire kind inst word found s
  | .scrubRead kind inst found line => Sys2Proof.Machine.execScrubRead kind inst found line s
  | .eccBucketLeak kind inst => Sys2Proof.Machine.execEccBucketLeak kind inst s
  | .droverReloadComplete drover => Sys2Proof.Machine.execDroverReloadComplete drover s
  | .shepherdSramRestart => Sys2Proof.Machine.execShepherdSramRestart s
  | .alarmClassA source => Sys2Proof.Machine.execAlarmClassA source s
  | .alarmClassB source => Sys2Proof.Machine.execAlarmClassB source s
  | .classBZeroComplete => Sys2Proof.Machine.execClassBZeroComplete s
  | .clear p => Sys2Proof.Machine.execClear p s
  | .lowerClass p sources => Sys2Proof.Machine.execLowerClass p sources s
  | .provisionClear p => Sys2Proof.Machine.execProvisionClear p s
  | .secChalRead p => Sys2Proof.Machine.execSecChalRead p s
  | .challengeLapse => Sys2Proof.Machine.execChallengeLapse s
  | .macLockoutEnd => Sys2Proof.Machine.execMacLockoutEnd s
  | .secAlarmCfgWrite p value => Sys2Proof.Machine.execSecAlarmCfgWrite p value s
  | .generate p keySlot => Sys2Proof.Machine.execGenerate p keySlot s
  | .load p keySlot => Sys2Proof.Machine.execLoad p keySlot s
  | .unload p keySlot => Sys2Proof.Machine.execUnload p keySlot s
  | .destroy p keySlot => Sys2Proof.Machine.execDestroy p keySlot s
  | .keyQuery p keySlot => Sys2Proof.Machine.execKeyQuery p keySlot s
  | .cipherLaneJob lane prio blocks mismatch => Sys2Proof.Machine.execCipherLaneJob lane prio blocks mismatch s
  | .maskReseed lane => Sys2Proof.Machine.execMaskReseed lane s
  | .drbgReseed ok => Sys2Proof.Machine.execDrbgReseed ok s
  | .drbgStop => Sys2Proof.Machine.execDrbgStop s
  | .drbgRestart => Sys2Proof.Machine.execDrbgRestart s
  | .pkeEcdhP384 p => Sys2Proof.Machine.execPkeEcdhP384 p s
  | .pkeX25519 p => Sys2Proof.Machine.execPkeX25519 p s
  | .pkeEcdsaVerify p => Sys2Proof.Machine.execPkeEcdsaVerify p s
  | .pkeJobComplete => Sys2Proof.Machine.execPkeJobComplete s
  | .pkePoolRefill => Sys2Proof.Machine.execPkePoolRefill s
  | .pwronRstNRise env => Sys2Proof.Machine.execPwronRstNRise env s
  | .pwronRstNFall => Sys2Proof.Machine.execPwronRstNFall s
  | .ldgKeyWrite p value => Sys2Proof.Machine.execLdgKeyWrite p value s
  | .ldgProgram p value => Sys2Proof.Machine.execLdgProgram p value s
  | .ldgErase p value => Sys2Proof.Machine.execLdgErase p value s
  | .ldgSuspend p => Sys2Proof.Machine.execLdgSuspend p s
  | .ldgResume p => Sys2Proof.Machine.execLdgResume p s
  | .ldgSequenceLapse => Sys2Proof.Machine.execLdgSequenceLapse s
  | .ldgOwnerLapse => Sys2Proof.Machine.execLdgOwnerLapse s
  | .ldgStatusRead p => Sys2Proof.Machine.execLdgStatusRead p s
  | .ldgRdDataRead p => Sys2Proof.Machine.execLdgRdDataRead p s
  | .ledgerErasePulse sector verified => Sys2Proof.Machine.execLedgerErasePulse sector verified s
  | .ledgerProgramDone verified => Sys2Proof.Machine.execLedgerProgramDone verified s
  | .ledgerEraseSlow sector => Sys2Proof.Machine.execLedgerEraseSlow sector s
  | .ledgerWindowMove => Sys2Proof.Machine.execLedgerWindowMove s
  | .storeTuning p => Sys2Proof.Machine.execStoreTuning p s
  | .storeIdentity p confirm => Sys2Proof.Machine.execStoreIdentity p confirm s
  | .compact p => Sys2Proof.Machine.execCompact p s
  | .stage p => Sys2Proof.Machine.execStage p s
  | .stageComplete => Sys2Proof.Machine.execStageComplete s
  | .activate p => Sys2Proof.Machine.execActivate p s
  | .activateReload => Sys2Proof.Machine.execActivateReload s
  | .updCommit p confirm => Sys2Proof.Machine.execUpdCommit p confirm s
  | .revert p => Sys2Proof.Machine.execRevert p s
  | .updRevoke p signer confirm => Sys2Proof.Machine.execUpdRevoke p signer confirm s
  | .recoverBegin p => Sys2Proof.Machine.execRecoverBegin p s
  | .updRcvDataWrite p value => Sys2Proof.Machine.execUpdRcvDataWrite p value s
  | .recoverEnd p => Sys2Proof.Machine.execRecoverEnd p s
  | .pgRise pgLine => Sys2Proof.Machine.execPgRise pgLine s
  | .settleExpiry mv => Sys2Proof.Machine.execSettleExpiry mv s
  | .pgTimeout => Sys2Proof.Machine.execPgTimeout s
  | .downMsExpiry => Sys2Proof.Machine.execDownMsExpiry s
  | .minOffExpiry => Sys2Proof.Machine.execMinOffExpiry s
  | .off p confirm => Sys2Proof.Machine.execOff p confirm s
  | .on p => Sys2Proof.Machine.execOn p s
  | .railFault rail mv hard => Sys2Proof.Machine.execRailFault rail mv hard s
  | .chargerPgLow => Sys2Proof.Machine.execChargerPgLow s
  | .tempConversion sensor value => Sys2Proof.Machine.execTempConversion sensor value s
  | .throttleStep => Sys2Proof.Machine.execThrottleStep s
  | .holdTempConversion lineMv celsius => Sys2Proof.Machine.execHoldTempConversion lineMv celsius s
  | .vddCoreRequestUpdate => Sys2Proof.Machine.execVddCoreRequestUpdate s
  | .vddCoreRaiseUnmet => Sys2Proof.Machine.execVddCoreRaiseUnmet s
  | .runCal p => Sys2Proof.Machine.execRunCal p s
  | .calibrationDue => Sys2Proof.Machine.execCalibrationDue s
  | .calibrationComplete trims => Sys2Proof.Machine.execCalibrationComplete trims s
  | .recorderWrite => Sys2Proof.Machine.execRecorderWrite s
  | .codeBucketRefill code => Sys2Proof.Machine.execCodeBucketRefill code s
  | .foldBucketRefill fold => Sys2Proof.Machine.execFoldBucketRefill fold s
  | .evtPendClear p value => Sys2Proof.Machine.execEvtPendClear p value s
  | .evtFoldRlWrite p value => Sys2Proof.Machine.execEvtFoldRlWrite p value s
  | .evtSnapAddrWrite p index value => Sys2Proof.Machine.execEvtSnapAddrWrite p index value s
  | .recorderClear p confirm => Sys2Proof.Machine.execRecorderClear p confirm s
  | .bind p => Sys2Proof.Machine.execBind p s
  | .unbind p => Sys2Proof.Machine.execUnbind p s
  | .ringQuery p => Sys2Proof.Machine.execRingQuery p s
  | .ageingSample drifts => Sys2Proof.Machine.execAgeingSample drifts s
  | .warmRstNAssert => Sys2Proof.Machine.execWarmRstNAssert s
  | .warmRstNRelease => Sys2Proof.Machine.execWarmRstNRelease s
  | .warm p confirm => Sys2Proof.Machine.execWarm p confirm s
  | .warmResetQuiesced => Sys2Proof.Machine.execWarmResetQuiesced s
  | .warmResetFinish ms => Sys2Proof.Machine.execWarmResetFinish ms s
  | .galleryReset p confirm => Sys2Proof.Machine.execGalleryReset p confirm s
  | .galleryResetComplete => Sys2Proof.Machine.execGalleryResetComplete s
  | .foldReset p => Sys2Proof.Machine.execFoldReset p s
  | .foldResetComplete => Sys2Proof.Machine.execFoldResetComplete s
  | .connectionReset p => Sys2Proof.Machine.execConnectionReset p s
  | .portReset p => Sys2Proof.Machine.execPortReset p s
  | .stageOpen p => Sys2Proof.Machine.execStageOpen p s
  | .stageCommit p => Sys2Proof.Machine.execStageCommit p s
  | .stageAbandon p => Sys2Proof.Machine.execStageAbandon p s
  | .stageBankLapse => Sys2Proof.Machine.execStageBankLapse s
  | .stageBankDrained => Sys2Proof.Machine.execStageBankDrained s
  | .jtagBypass => Sys2Proof.Machine.execJtagBypass s
  | .jtagIdcode => Sys2Proof.Machine.execJtagIdcode s
  | .jtagSamplePreload => Sys2Proof.Machine.execJtagSamplePreload s
  | .jtagExtest => Sys2Proof.Machine.execJtagExtest s
  | .jtagClamp => Sys2Proof.Machine.execJtagClamp s
  | .jtagHighz => Sys2Proof.Machine.execJtagHighz s
  | .jtagExtestPulse => Sys2Proof.Machine.execJtagExtestPulse s
  | .jtagExtestTrain => Sys2Proof.Machine.execJtagExtestTrain s
  | .twnCmdSwap p => Sys2Proof.Machine.execTwnCmdSwap p s
  | .vddCoreRaiseMet mv => Sys2Proof.Machine.execVddCoreRaiseMet mv s
  | .vddAonBrownOut => Sys2Proof.Machine.execVddAonBrownOut s
  | .warmResetStart => Sys2Proof.Machine.execWarmResetStart s
  | .warmResetHoldEnd => Sys2Proof.Machine.execWarmResetHoldEnd s
  | .dieTemperatureRead celsius elapsedUs => Sys2Proof.Machine.execDieTemperatureRead celsius elapsedUs s

end Sys2Proof.Machine
end

