-- ==== Sys2Proof/Safety.lean ====
section
/-! DEFINITION. The words that the statements use: what it is for a command to complete, for an access to be open, for the
persistent memory to be canonical, and which commands may change it. -/
namespace Sys2Proof.Machine

/-- The command completes: it turns the device of `s` into `d`, and the queue stays as it was. -/
def Becomes (c : Instr) (s : State) (d : Dev) : Prop := exec c s = .next { s with dev := d }

/-- The command completes, and the device after it is as `P` says. -/
def Runs (c : Instr) (s : State) (P : Dev → Prop) : Prop := ∃ d, Becomes c s d ∧ P d

/-- The principal can make an access now, and no rule turns the address away (R17, R18, R547, R548). -/
abbrev Open (d : Dev) (p : Principal) (a : Nat) : Prop := present d p = true ∧ refusal d p a = none

/-- The answer of a register write that was carried out (R18). -/
def wrote (d : Dev) (p : Principal) (a : Nat) : Dev := answer d p a true .done 0 0

/-- The persistent memory is in its canonical form: addresses strictly rising, no listed byte zero. -/
abbrev MemOk (s : State) : Prop := memWf s.dev.mem = true

/-- Every byte of the persistent memory is as before. -/
def SameMem (d e : Dev) : Prop := ∀ a, readByte e.mem a = readByte d.mem a

/-- The clock of an island is gated (R41). -/
def gated (d : Dev) : Island → Bool
  | .gallery g => d.rst.gateGal.getLsbD g
  | .flashGroup g => d.rst.gateFl.getLsbD g
  | .dramChannel c => d.rst.gateDrc.getLsbD c

/-- No command or record waits: a command of a slot starts at once, and its record leaves at once. -/
abbrev Quiet (d : Dev) : Prop := d.twin.ctrlDue = [] ∧ d.folds.queue = [] ∧ d.folds.waits = none

/-- The command that a write of RMA_CMD makes of the arguments that stand in a slot (R557, R558). -/
def slotCmd (d : Dev) (slot : Nat) (op : RmaOp) (f : Nat) : RmaCmd := cmdOf (d.folds.slots.getD slot Slot.free) op f

/-- The device once a slot has taken its command (R73). -/
def taken (d : Dev) (p : Principal) (slot : Nat) (op : RmaOp) (f : Nat) : Dev :=
  d.modFolds fun x =>
    { x with slots := x.slots.modify slot fun y =>
               { y with owner := some p, run := some (slotCmd d slot op f), ended := false, result := .busy },
             queue := x.queue ++ [(slot, slotCmd d slot op f)] }

/-- The slot is the principal's or free, runs no command, its registers are open to the principal, and no command waits. -/
def SlotReady (d : Dev) (p : Principal) (slot : Nat) : Prop :=
  Open d p (slotBase slot) ∧ Quiet d ∧
  ∃ x, d.folds.slots[slot]? = some x ∧ x.run = none ∧ (x.owner = none ∨ x.owner = some p)

/-- The slot's command has ended with a result (R73, R559). -/
def SlotEnded (d : Dev) (slot : Nat) (r : RmaResult) : Prop :=
  ∃ x, d.folds.slots[slot]? = some x ∧ x.run = none ∧ x.ended = true ∧ x.result = r

/-- The row of a region-table command (R558). -/
def rmaInstr (op : RmaOp) (p : Principal) (slot f : Nat) : Instr :=
  match op with
  | .format => .format p slot
  | .createFold => .createFold p slot f
  | .destroyFold => .destroyFold p slot f
  | .createRegion => .createRegion p slot f
  | .destroyRegion => .destroyRegion p slot f
  | .setPerm => .setPerm p slot f
  | .grant => .grant p slot f
  | .revoke => .revoke p slot f
  | .commit => .commit p slot f

/-- The device when the order sequencer has stamped the record of a region-table command. -/
def stampedRma (d : Dev) (c : RmaCmd) : Dev := (stampCtrl d (.rma c)).2

/-- A staged change of the table of fold `g` that a command of fold `f` made (R75). -/
def stagedAs (f g : Nat) (h : Word) (x : RegDesc) : Staged := { by_ := f, fold := g, handle := h, bytes := regDescBytes x }

/-- The record of a live fold without a table, at generation 1 (R57). -/
def newFold : FoldRec :=
  { dirBase := 0, dirLenM1 := 0, state := 1, gen := 1, prevBase := 0, prevLenM1 := 0, prevGen := 1, listPa := 0, listCount := 0 }

/-- A frame gets past the layers below the connection: the port's link is up, an address is configured, the node answers (R99, R104). -/
abbrev FrameIn (d : Dev) (h : Hdr) : Prop :=
  linked d h.port = true ∧ (v4On d h.port || v6On d h.port) = true ∧ fenhelOk h.head h.udpLen = true ∧
  nodeAccepted d h.dst = true

/-- The rules of R106 let a frame through to its connection, whose context is in the cache and whose TXC is not used up (R95). -/
abbrev Passes (d : Dev) (h : Hdr) (b : FrameBody) (c : Conn) : Prop :=
  classify { h with bodyOk := h.bodyOk && bodyRules h b } b d = .ok c ∧ c.txc + 2 < 2 ^ 64

/-- What was sent once a connection sends a frame on a path: the frame, after the request for its hop that it may call for (R84). -/
def frameSent (d : Dev) (n : Nat) (c : Conn) (path : Nat) (psn : Word) (b : TxBody) : List Out :=
  outFrame d n path psn c.txc b :: (askHop d (pathPort d n c path) c.ident.clientIp ++ d.sent)

/-- No answer to a CONNECT_REQ waits for its record (R118). -/
abbrev NoneDue (d : Dev) : Prop := ∀ x ∈ d.net.conns, x.2.rspDue = none

/-- No operation waits for a count or for room in the budget. -/
abbrev Still (d : Dev) : Prop := ∀ o ∈ d.net.ops, o.stage ≠ .waiting ∧ o.stage ≠ .budget

/-- An operation of its connection, in a stage, alone: it belongs to no group. -/
abbrev InStage (d : Dev) (o : Op) (c : Conn) (st : Stage) : Prop :=
  findOp d o.conn o.seq = some o ∧ getConn d o.conn = some c ∧ o.group = none ∧ o.stage = st

/-- An operation that takes its stamp now and, at level LOCAL in an unpaired unit, ends at once (R156, R160). -/
abbrev AtStamp (d : Dev) (o : Op) (c : Conn) : Prop :=
  InStage d o c .stamp ∧ stampDue d [o] = true ∧ preStamp d c.ident.fold o = none ∧ c.ident.level = .loc ∧
  d.twin.st = .unpaired ∧ Still d

/-- The operation has left its connection, its sequence has the entry `r` in the result store and counts once (R133, R171). -/
def Ended (e : Dev) (o : Op) (c : Conn) (r : Entry) : Prop :=
  findOp e o.conn o.seq = none ∧
  ∃ c', getConn e o.conn = some c' ∧ stored c' o.seq = some r ∧ c'.count = (c.count + 1) % 2 ^ 64 ∧ c'.state = c.state

/-- The frame that carries an entry, with up to 256 bytes before it (R44, R121). -/
def entryFrame (d : Dev) (c : Conn) (e : Entry) (x : Option (DWord × Word × List Byte)) : TxBody :=
  let ce := (entryAddr c (unitNo d) c.written, c.ident.cqCkey, e, phaseOf c.ident.cqLog c.written)
  match x with
  | some (a, k, bs) => .push (some e.seq) a k bs (some ce)
  | none => .push (some e.seq) 0 0 [] (some ce)

/-- The unit and the connection may send an entry now (R133, R204). -/
abbrev MaySendEntry (d : Dev) (o : Op) (c : Conn) : Prop :=
  maySend c = true ∧ sendsEntries d = true ∧ d.rst.galReset.contains (homeOf o.conn) = false

/-- A standby on a live link that holds back no record before this one and has room for it (R217, R264). -/
abbrev Follows (d : Dev) (r : Rec) : Prop :=
  d.twin.st = .standby ∧ d.twin.linkUp = true ∧ d.twin.ident.isSome = true ∧ d.twin.held = [] ∧
  recFits (d.modTwin fun t => { t with held := [r] }) r = true ∧ waitsGallery d r = false

/-- A paired unit whose link is up, in a state. -/
abbrev Linked (d : Dev) (st : TwinState) : Prop := d.twin.st = st ∧ d.twin.linkUp = true ∧ d.twin.ident.isSome = true

/-- The twin link can take a frame at once: its key is derived, nothing waits to be packed, and its window is open (R213, R214). -/
abbrev LinkFree (d : Dev) : Prop := d.twin.linkKey.isSome = true ∧ d.twin.waitq = [] ∧ d.twin.txq.length < 4096

/-- The header and the tag of a frame of the twin link pass every check (R219). -/
abbrev FrameOk (d : Dev) (h : TwlHdr) : Prop :=
  d.twin.linkKey.isSome = true ∧ h.ftypeOk = true ∧ h.tagOk = true ∧ h.hdrOk = true

/-- The requests to the witness that wait for an answer, after one more is sent (R229). -/
def asks (d : Dev) (r : WitReq) (ep : Nat) : List (WitReq × Nat × Nat × Nat) :=
  d.twin.reqs ++ [(r, d.twin.wseq + 1, d.clock, ep)]

/-- Nothing is in hand: no operation, no command or record that waits, no open staging bank, no directed reset. -/
abbrev Idle (d : Dev) : Prop :=
  Quiet d ∧ d.net.ops = [] ∧ d.rst.bankOwner = none ∧ d.rst.bankBusy = false ∧ d.rst.run = none

/-- A command in TWN_CMD runs: the access is open and no command runs (R247). -/
abbrev TwnReady (d : Dev) (p : Principal) : Prop := Open d p 0x80004 ∧ d.twin.lastCmd ≠ .running

/-- The staging registers of the keys hold nothing (R247). -/
def StagingClear (e : Dev) : Prop := ∀ i < 8, reg e (0x80080 + 4 * i) = 0 ∧ reg e (0x800A0 + 4 * i) = 0

/-- The witness answers, in a good message that names the pair and the unit, a request that waits (R229, R231, R236). -/
def Answers (d : Dev) (a : WitAns) (r : WitReq) (ts ep : Nat) : Prop :=
  a.macOk = true ∧ a.ok = true ∧ (∃ i, d.twin.ident = some i ∧ a.pairId = i.pairId ∧ a.unit = i.unit) ∧
  d.twin.reqs.find? (fun q => q.2.1 = a.wseq) = some (r, a.wseq, ts, ep)

/-- A channel of the DRAM and one of its subchannels (R338). -/
abbrev SubAt (d : Dev) (c k : Nat) (x : Chan) (u : SubCh) : Prop := d.dram.chans[c]? = some x ∧ x.subs[k]? = some u

/-- The slice that is a line's home, as it stands (R364). -/
abbrev SliceIs (d : Dev) (line : Nat) (u : Slice) : Prop := d.hall.slices[sliceOf line]? = some u

/-- The commands that may change a byte of the persistent memory. -/
def writesMem : Instr → Bool
  | .regWrite .. | .regRead .. | .i3cWriteValue .. | .i3cRead | .budgetUpdate | .format .. | .createFold ..
  | .destroyFold .. | .destroyFoldDrainDone .. | .createRegion .. | .destroyRegion .. | .setPerm .. | .grant ..
  | .revoke .. | .commit .. | .commitDrainDone .. | .generationDrained .. | .budgetAdmission | .orderStamp ..
  | .read .. | .write .. | .writeZero .. | .copy .. | .cas .. | .fetchAdd .. | .swap .. | .persist .. | .logAppend ..
  | .snapshot .. | .clone .. | .wait .. | .health .. | .nop .. | .datapathChunk .. | .disableDrain ..
  | .disableAbort .. | .connRelease .. | .connQuery .. | .enrol .. | .credRevoke .. | .twlRecordsFrame ..
  | .linkAck .. | .hello .. | .opRec .. | .groupRec .. | .ctrlRec .. | .endRec .. | .indexRec .. | .rdataRec ..
  | .levelRec .. | .leafRec .. | .handover .. | .resyncSet .. | .regReq .. | .regRsp .. | .fin .. | .repair .. | .ready
  | .leave .. | .ports .. | .witnessGrant .. | .witnessDone .. | .leaseEnd | .reseedDrainDone | .clearOverride ..
  | .openWindow .. | .closeWindow .. | .dischargeTestStart | .acceptLoss .. | .mainOkFall | .mainOkRise
  | .saveStampedWorkDone | .imageRelease .. | .ftlDrain .. | .flashProgramComplete .. | .dramAlertRelease ..
  | .mergeEntryRetire .. | .scrubRead .. | .alarmClassA .. | .alarmClassB .. | .clear .. | .generate .. | .load ..
  | .unload .. | .destroy .. | .keyQuery .. | .cipherLaneJob .. | .drbgStop | .pwronRstNRise .. | .pwronRstNFall
  | .activate .. | .activateReload | .revert .. | .recoverEnd .. | .settleExpiry .. | .downMsExpiry | .minOffExpiry
  | .off .. | .on .. | .railFault .. | .tempConversion .. | .evtFoldRlWrite .. | .bind .. | .unbind ..
  | .warmRstNAssert | .warmResetQuiesced | .galleryResetComplete | .foldReset .. | .connectionReset ..
  | .stageCommit .. | .stageBankDrained | .vddAonBrownOut | .warmResetStart => true
  | _ => false

/-- The commands about whose registers the frame of the registers says nothing: they write one, may take a stamped record that
writes one, or have a statement of their own. -/
def mayWriteRegs : Instr → Bool
  | .regWrite .. | .regRead .. | .rcRegisterRead .. | .loRegisterRead .. | .i3cWriteValue .. | .i3cRead
  | .glbEthModeWrite .. | .budgetUpdate | .format .. | .createFold .. | .destroyFold ..
  | .destroyFoldDrainDone .. | .createRegion .. | .destroyRegion .. | .setPerm .. | .grant .. | .revoke ..
  | .commit .. | .commitDrainDone .. | .generationDrained .. | .nonFenhelFrame .. | .strangerFrame ..
  | .doorbell .. | .readRsp .. | .ack .. | .probe .. | .pathReset .. | .disconnect .. | .connectReq ..
  | .connectFin .. | .contextFillComplete .. | .descriptorStart .. | .budgetAdmission | .orderStamp .. | .read .. | .write ..
  | .writeZero .. | .copy .. | .cas .. | .fetchAdd .. | .swap .. | .persist .. | .logAppend .. | .snapshot ..
  | .clone .. | .wait .. | .health .. | .nop .. | .disableDrain .. | .disableAbort ..
  | .connRelease .. | .connQuery .. | .enrol .. | .credRevoke .. | .twlRecordsFrame .. | .linkAck .. | .hello ..
  | .opRec .. | .groupRec .. | .ctrlRec .. | .endRec .. | .indexRec .. | .rdataRec .. | .levelRec .. | .leafRec ..
  | .handover .. | .resyncSet .. | .regReq .. | .regRsp .. | .fin .. | .repair .. | .ready | .leave .. | .ports ..
  | .witnessGrant .. | .witnessDeny .. | .witnessDone .. | .leaseEnd | .heartbeat .. | .reseed ..
  | .reseedDrainDone | .forceUnpaired .. | .clearOverride .. | .testOn .. | .testOff .. | .openWindow ..
  | .closeWindow .. | .provision .. | .dischargeTestStart | .acceptLoss .. | .mainOkFall | .mainOkRise
  | .saveStampedWorkDone | .saveResume | .imageRelease .. | .ftlDrain .. | .flashProgramComplete ..
 
  | .dramCommandIssue .. | .urgencyRaise .. | .dramReadData .. | .dramAlert ..
  | .dramAlertRelease .. | .drcInjArm .. | .rateBLoad .. | .halCmdComplete | .halCtrlWrite ..
  | .mergeEntryRetire .. | .scrubRead .. | .alarmClassA .. | .alarmClassB .. | .clear .. | .lowerClass ..
  | .provisionClear .. | .generate .. | .load .. | .unload .. | .destroy .. | .keyQuery ..
  | .cipherLaneJob .. | .drbgStop | .pwronRstNRise .. | .pwronRstNFall | .ldgRdDataRead ..
  | .activate .. | .activateReload | .revert .. | .recoverEnd ..
  | .settleExpiry .. | .downMsExpiry | .minOffExpiry | .off .. | .on .. | .railFault .. | .tempConversion ..
  | .recorderWrite | .evtFoldRlWrite .. | .bind .. | .unbind .. | .warmRstNAssert | .warmResetQuiesced
  | .warmResetFinish .. | .galleryResetComplete | .foldReset .. | .connectionReset .. | .portReset ..
  | .stageCommit .. | .stageBankDrained | .twnCmdSwap .. | .vddAonBrownOut | .warmResetStart => true
  | _ => false

end Sys2Proof.Machine
end

