-- ==== Sys2Proof/Certificates/Slice0/Obligations.lean ====
section
/-! DEFINITION. The statements about the Gheloth, from the numbered rules of the spec, for the provers. -/
section
open Sys2Proof Sys2Proof.Machine

/-! ## The machine as a whole -/

/-- Each step takes the command at the front of the queue and runs it with the queue's rest (95_what_each_step_holds). -/
def Obligations.StepRunsFrontCommand : Prop :=
  ∀ (c : Instr) (rest : List Instr) (d : Dev), step { pending := c :: rest, dev := d } = exec c { pending := rest, dev := d }

/-- Commands complete in the order in which they wait: as many steps as there are commands in front leave exactly the rest in the
queue. Choices of the model: log 1 and 3. -/
def Obligations.QueueRunsInOrder : Prop :=
  ∀ (cs rest : List Instr) (d : Dev), ∃ e : Dev,
    Host.Core.run core cs.length ({ pending := cs ++ rest, dev := d } : State) = .next ({ pending := rest, dev := e } : State)

/-- Every step keeps the persistent memory in its canonical form. Choices of the model: log 9. -/
def Obligations.StepKeepsMemoryCanonical : Prop :=
  ∀ s t : State, MemOk s → step s = .next t → MemOk t

/-- After reset the memory is canonical, every byte of it reads as zero, and no command waits. Choices of the model: log 9 and 12. -/
def Obligations.ResetMemoryIsEmpty : Prop :=
  MemOk State.reset ∧ (∀ a, readByte State.reset.dev.mem a = 0) ∧ State.reset.pending = []

/-- A command outside the list `writesMem` leaves every byte of the persistent memory as it was. Choices of the model: log 3. -/
def Obligations.MemoryFrame : Prop :=
  ∀ (c : Instr) (s : State), writesMem c = false → Runs c s fun d => SameMem s.dev d

/-- A command outside the list `mayWriteRegs` leaves every register but the recorder's count of lost records as it was. Choices of the
model: log 3. -/
def Obligations.RegistersFrame : Prop :=
  ∀ (c : Instr) (s : State), mayWriteRegs c = false → Runs c s fun d => ∀ a, a ≠ 0x50154 → reg d a = reg s.dev a

/-- The operations on the memory: a byte inside a written span reads as written and every other byte as before; a cleared span reads
as zero; each keeps the canonical form. Choices of the model: log 9. -/
def Obligations.MemoryReadsWhatWasWritten : Prop :=
  ∀ (m : Mem) (a b n : Nat) (bs : List Byte),
    (memWf m = true → memWf (writeBytes m a bs) = true ∧ memWf (zeroBytes m a n) = true ∧ memWf (copyBytes m a b n) = true) ∧
    readBytes (writeBytes m a bs) a bs.length = bs ∧
    (∀ c, (c < a ∨ a + bs.length ≤ c) → readByte (writeBytes m a bs) c = readByte m c) ∧
    (∀ c, readByte (zeroBytes m a n) c = if a ≤ c ∧ c < a + n then 0 else readByte m c)

/-! ## Register access and the I3C target -/

/-- While VDD_AON is up the I3C target takes an address and a dynamic address, gives the dynamic address up, and answers the identity
commands; nothing else of the device changes. Choices of the model: log 38. -/
def Obligations.I3cTargetCommands : Prop :=
  ∀ s : State, s.dev.pwr.pwron = true →
    (∀ a, Becomes (.i3cWriteAddress a) s
      { s.dev with i3c := { s.dev.i3c with pointer := a % 2 ^ 32, wrote := some (if a % 4 = 0 then 0 else 2) } }) ∧
    (∀ x, s.dev.i3c.dyn = none →
      Becomes (.i3cSetdasa 0x3A x) s { s.dev with i3c := { s.dev.i3c with dyn := some x } } ∧
      Becomes (.i3cEntdaa x) s { s.dev with i3c := { s.dev.i3c with dyn := some x } }) ∧
    Becomes .i3cRstdaa s { s.dev with i3c := { s.dev.i3c with dyn := none } } ∧
    Becomes .i3cGetpid s { s.dev with i3c := { s.dev.i3c with
      reply := beBytes 6 (0x2D1 * 2 ^ 33 + 0x7256 * 2 ^ 16 + nodeOf s.dev % 2 ^ 16) } } ∧
    Becomes .i3cGetbcr s { s.dev with i3c := { s.dev.i3c with reply := [Config.i3cBcr] } } ∧
    Becomes .i3cGetdcr s { s.dev with i3c := { s.dev.i3c with reply := [Config.i3cDcr] } } ∧
    Becomes .i3cGetstatus s { s.dev with i3c := { s.dev.i3c with reply := beBytes 2 Config.i3cStatus.toNat } } ∧
    Becomes .i3cGetmrl s { s.dev with i3c := { s.dev.i3c with reply := beBytes 2 Config.i3cMrl.toNat } } ∧
    Becomes .i3cGetmwl s { s.dev with i3c := { s.dev.i3c with reply := beBytes 2 Config.i3cMwl.toNat } }

/-- Over I3C a value written to GLB_NODE is stored in its 18 bits (the reserved bits stay) and the memory stays as it is; a read at
the pointer of GLB_ID, which no access has latched, answers 0x7256_200D (R7) with a status byte and moves the pointer to the next
word. -/
def Obligations.I3cReadsAndWritesRegisters : Prop :=
  ∀ s : State, s.dev.pwr.pwron = true → inWarm s.dev = false →
    (∀ v, Runs (.i3cWriteValue 0x10 v) s fun d =>
      reg d 0x10 = (reg s.dev 0x10 &&& ~~~0x3FFFF) ||| (v &&& 0x3FFFF) ∧ d.i3c.pointer = 0x10 ∧ d.i3c.wrote = some 0 ∧ d.mem = s.dev.mem ∧ d.net = s.dev.net ∧
      d.twin = s.dev.twin ∧ ∀ a, a ≠ 0x10 → reg d a = reg s.dev a) ∧
    (s.dev.i3c.pointer = 0 → s.dev.i3c.wrote = none → latchOf s.dev .i3c 0 = none →
      Runs .i3cRead s fun d => d.i3c.reply = [0x72, 0x56, 0x20, 0x0D, 0x0C] ∧ d.i3c.pointer = 4 ∧ d.regs = s.dev.regs ∧
        d.mem = s.dev.mem)

/-- A direct write of GLB_RESET_TGT stores its 20 bits (the reserved bits stay) and changes no other register; a direct read of it
answers its value and changes no register. A read of a counter, or of the low half of a pair, that no rule turns away is answered and
leaves the memory. Choices of the model: log 36 and 37. -/
def Obligations.RegisterWriteThenRead : Prop :=
  ∀ (s : State) (p : Principal),
    (∀ v, Open s.dev p 0x60 → latchOf s.dev p 0x60 = none →
      (Runs (.regWrite (.direct p 0x60 v)) s fun d =>
        reg d 0x60 = (reg s.dev 0x60 &&& ~~~0xFFFFF) ||| (v &&& 0xFFFFF) ∧ (∀ a, a ≠ 0x60 → reg d a = reg s.dev a) ∧ d.mem = s.dev.mem ∧
        d.answer = some { who := p, addr := 0x60, write := true, status := .done, detail := 0, value := 0 }) ∧
      (Runs (.regRead (.direct p 0x60 v)) s fun d =>
        d.regs = s.dev.regs ∧ d.mem = s.dev.mem ∧
        d.answer = some { who := p, addr := 0x60, write := false, status := .done, detail := 0, value := reg s.dev 0x60 })) ∧
    (∀ a, Open s.dev p a →
      (isCounter a = true → Runs (.rcRegisterRead p a) s fun d => d.mem = s.dev.mem ∧
        ∃ w, d.answer = some { who := p, addr := a, write := false, status := .done, detail := 0, value := w }) ∧
      (latchedBy a ≠ [] → Runs (.loRegisterRead p a) s fun d => d.mem = s.dev.mem ∧
        ∃ w, d.answer = some { who := p, addr := a, write := false, status := .done, detail := 0, value := w }))

/-- A read of an RC register answers its value and clears it; of a port that is not in use it answers zero and changes nothing. Reading
the _LO register of a pair answers its value and latches the _HI half, as it stands, for the reader alone; a read of a register with
a latched half answers that half and uses it up. No other register changes. Choices of the model: log 36. -/
def Obligations.ReadsThatClearOrLatch : Prop :=
  ∀ (s : State) (p : Principal) (a : Nat), Open s.dev p a →
    (isCounter a = true → latchOf s.dev p a = none → Runs (.rcRegisterRead p a) s fun d =>
      reg d a = (if portAbsent s.dev a then reg s.dev a else 0) ∧ (∀ b, b ≠ a → reg d b = reg s.dev b) ∧ d.mem = s.dev.mem ∧
      d.answer = some { who := p, addr := a, write := false, status := .done, detail := 0,
                        value := if portAbsent s.dev a then 0 else reg s.dev a }) ∧
    (latchedBy a ≠ [] → latchOf s.dev p a = none → portAbsent s.dev a = false → Runs (.loRegisterRead p a) s fun d =>
      d.regs = s.dev.regs ∧ d.mem = s.dev.mem ∧ (∀ h ∈ latchedBy a, latchOf d p h = some (peek s.dev p h)) ∧
      (∀ q b, q ≠ p → latchOf d q b = latchOf s.dev q b) ∧
      d.answer = some { who := p, addr := a, write := false, status := .done, detail := 0, value := peek s.dev p a }) ∧
    (∀ w, latchOf s.dev p a = some w → Runs (.loRegisterRead p a) s fun d =>
      d.regs = s.dev.regs ∧ d.mem = s.dev.mem ∧ latchOf d p a = none ∧
      (∀ q b, q ≠ p ∨ b ≠ a → latchOf d q b = latchOf s.dev q b) ∧
      d.answer = some { who := p, addr := a, write := false, status := .done, detail := 0, value := w })

/-- GLB_ETH_MODE, at 0x40, is zero after reset; a write stores its two mode bits and zeros while no data port is enabled, and has no
effect while one is; no other register changes (R81). -/
def Obligations.EthModeWrite : Prop :=
  reg State.reset.dev 0x40 = 0 ∧ ∀ (s : State) (p : Principal) (v : Word), Open s.dev p 0x40 →
    Runs (.glbEthModeWrite p v) s fun d =>
      ((∃ q < 16, (reg s.dev (ethBase q)).getLsbD 31 = true) → reg d 0x40 = reg s.dev 0x40) ∧
      ((∀ q < 16, (reg s.dev (ethBase q)).getLsbD 31 = false) → reg d 0x40 = v &&& 3) ∧
      (∀ a, a ≠ 0x40 → reg d a = reg s.dev a) ∧ d.mem = s.dev.mem ∧ d.net = s.dev.net ∧
      d.answer = some { who := p, addr := 0x40, write := true, status := .done, detail := 0, value := 0 }

/-- An idle gallery, flash group or DRAM channel island that may be gated loses its clock, and an entry at its crossing wakes it. A
context fill brings a set-up connection to the front of its gallery's cache; while that cache has room no other connection leaves.
A frame that waited for the fill then runs as it would have on its arrival, and no other frame that waits is touched. Nothing else of
the device changes. Choices of the model: log 19 and 40. -/
def Obligations.IslandsAndContexts : Prop :=
  ∀ (s : State),
    (∀ i : Island,
      (Runs (.islandWake i) s fun d => gated d i = false ∧ (∀ j, j ≠ i → gated d j = gated s.dev j) ∧
        { d with rst := s.dev.rst } = s.dev) ∧
      ((∀ c, i = .dramChannel c → c < 24) → s.dev.pwr.st = .on → mayGate s.dev i = true → islandIdle s.dev i = true →
        Runs (.islandGate i) s fun d => gated d i = true ∧ (∀ j, j ≠ i → gated d j = gated s.dev j) ∧
          { d with rst := s.dev.rst } = s.dev)) ∧
    (∀ n, (getConn s.dev n).isSome = true →
      ((∀ f ∈ s.dev.net.parked, f.1.conn ≠ n) → Runs (.contextFillComplete n) s fun d => d.net.ctxCache.head? = some n ∧
        { d with net := { d.net with ctxCache := s.dev.net.ctxCache } } = s.dev ∧
        (∀ m, m ≠ n → m ∈ d.net.ctxCache → m ∈ s.dev.net.ctxCache) ∧
        ((s.dev.net.ctxCache.filter fun x => homeOf x = homeOf n).length < 4096 →
          ∀ m, m ∈ s.dev.net.ctxCache → m ∈ d.net.ctxCache)) ∧
      (∀ f, (s.dev.net.parked.filter fun g => g.1.conn = n) = [f] →
        Becomes (.contextFillComplete n) s (runFrame f.1 f.2
          (cacheCtx (s.dev.modNet fun t => { t with parked := t.parked.filter fun g => g.1.conn ≠ n }) n))))

/-- Without a sample in time the budget is 0 by a forced zero; a sample makes it again what the estimates give. The save area, the
dirty lines and the persistent memory stay. Choices of the model: log 2. -/
def Obligations.BudgetFollowsTheEstimates : Prop :=
  ∀ s : State,
    (Runs .budgetWatchdogExpiry s fun d =>
      d.dur = { s.dev.dur with budget := 0, source := .forcedZero } ∧ d.mem = s.dev.mem ∧ d.ftl = s.dev.ftl) ∧
    (Quiet s.dev → Runs .budgetUpdate s fun d =>
      d.dur = { s.dev.dur with budget := (budgetNow s.dev).1, source := (budgetNow s.dev).2,
                               forced := decide (regBits s.dev 0x30210 15 0 = 0) } ∧ d.mem = s.dev.mem ∧ d.ftl = s.dev.ftl)

/-! ## Folds and regions -/

/-- A command of a slot whose tables admit it, that need wait for nothing, takes the next stamp, makes its plan's change, and its slot
ends DONE with the handle used. Choices of the model: log 18. -/
def Obligations.RegionTableCommandsRun : Prop :=
  ∀ (s : State) (p : Principal) (slot f : Nat) (op : RmaOp) (P Q : Plan), op ≠ .format → op ≠ .destroyFold →
    SlotReady s.dev p slot →
    let c := slotCmd s.dev slot op f
    let t := taken s.dev p slot op f
    canStamp t = true → planOf t (nextStamp t.twin) c = .ok Q → (waitsFor t c).any (genBusy t) = false →
    (Q.lines = [] ∨ admits t Q.lines.length = true) → planOf (stampedRma t c) (nextStamp t.twin) c = .ok P →
      Runs (rmaInstr op p slot f) s fun e =>
        SlotEnded e slot .done ∧ e.folds.live = P.dev.folds.live ∧ e.folds.staged = P.dev.folds.staged ∧
        e.folds.dataUsed = P.dev.folds.dataUsed ∧ e.folds.drains = P.dev.folds.drains ∧
        e.mem = (if P.lines.isEmpty then s.dev.mem else P.edit s.dev.mem) ∧ e.folds.queue = [] ∧ e.folds.waits = none ∧
        (∀ h, Q.handle = some h → op = .createRegion → ∃ x, e.folds.slots[slot]? = some x ∧ slotArg x 0x08 = h) ∧
        (∀ h, Q.handle = some h → op = .grant → ∃ x, e.folds.slots[slot]? = some x ∧ slotArg x 0x1C = h)

/-- A command that the tables refuse ends with the plan's result, and one that reaches a unit which does not serve, or refuses
mutation, ends BAD_STATE; the tables and the memory stay. Choices of the model: log 18. -/
def Obligations.RegionTableCommandsRefused : Prop :=
  ∀ (s : State) (p : Principal) (slot f : Nat) (op : RmaOp) (r : RmaResult), op ≠ .format → SlotReady s.dev p slot →
    let c := slotCmd s.dev slot op f
    let t := taken s.dev p slot op f
    (((serving t && !t.twin.refusing) = true ∧ planOf t (nextStamp t.twin) c = .error r) ∨
      ((serving t && !t.twin.refusing) = false ∧ r = .badState)) →
      Runs (rmaInstr op p slot f) s fun e =>
        SlotEnded e slot r ∧ e.mem = s.dev.mem ∧ e.twin = s.dev.twin ∧ e.dur = s.dev.dur ∧
        e.folds.live = s.dev.folds.live ∧ e.folds.staged = s.dev.folds.staged ∧ e.folds.queue = []

/-- What each command's plan does to the tables: the staged descriptor or record that stands in them afterwards. Choices of the model:
log 18. -/
def Obligations.RegionTablePlans : Prop :=
  ∀ (d : Dev) (st : Stamp) (c : RmaCmd) (P : Plan), planOf d st c = .ok P →
    (c.op = .createFold → P.dev.folds.live = addNum d.folds.live c.fold ∧
      readBytes (P.edit d.mem) (foldPa d.folds c.fold) 64 =
        foldBytes newFold ∧
      ∀ a, (a < foldPa d.folds c.fold ∨ foldPa d.folds c.fold + 64 ≤ a) → readByte (P.edit d.mem) a = readByte d.mem a) ∧
    (c.op = .createRegion → ∃ h base, P.handle = some h ∧ P.lines = [] ∧
      P.dev.folds.staged.getLast? = some (stagedAs c.fold c.fold h
        { base := base, len := c.len.toNat, gen := genOf d c.fold, owner := c.fold, ty := 1, perm := c.perm % 4,
          keySlot := c.keySlot, flags := c.flags, tFold := 0, tHandle := 0, rsv := 0 }) ∧
      getKey P.dev.folds.dataUsed base = some (roundUp c.len.toNat 4096)) ∧
    (c.op = .destroyRegion → P.lines = [] ∧
      ((liveDesc d c.fold c.handle).isSome → P.dev.folds.staged.getLast? = some (stagedAs c.fold c.fold c.handle noDesc)) ∧
      (liveDesc d c.fold c.handle = none → isStaged P.dev c.fold c.handle = false)) ∧
    (c.op = .setPerm → ∃ x, regionAt d c.fold c.handle = some x ∧ P.lines = [] ∧
      P.dev.folds.staged.getLast? = some (stagedAs c.fold c.fold c.handle
        { x with perm := c.perm % 4, flags := x.flags % 8 + (if c.flags / 8 % 2 = 1 then 8 else 0) })) ∧
    (c.op = .grant → ∃ h, P.handle = some h ∧ P.lines = [] ∧
      P.dev.folds.staged.getLast? = some (stagedAs c.fold c.peer h
        { noDesc with owner := c.peer, ty := 2, perm := c.perm, tFold := c.fold, tHandle := c.handle })) ∧
    (c.op = .revoke → P.lines = [] ∧
      ((liveDesc d c.fold c.handle).isSome → P.dev.folds.staged.getLast? = some (stagedAs c.fold c.fold c.handle noDesc)) ∧
      (liveDesc d c.fold c.handle = none → isStaged P.dev c.fold c.handle = false)) ∧
    (c.op = .commit → ∀ g ∈ P.dev.folds.staged, g.by_ ≠ c.fold)

/-- DESTROY_FOLD makes its plan's change; while operations still carry a generation of the fold the command waits in its fourth step,
and otherwise the fold ends with it. Staged changes that name the fold go, and so does its ring. Choices of the model: log 18. -/
def Obligations.DestroyFoldRuns : Prop :=
  ∀ (s : State) (p : Principal) (slot f : Nat) (P Q : Plan), SlotReady s.dev p slot →
    let c := slotCmd s.dev slot .destroyFold f
    let t := taken s.dev p slot .destroyFold f
    let e := P.make (nextStamp t.twin)
    canStamp t = true → planOf t (nextStamp t.twin) c = .ok Q → (waitsFor t c).any (genBusy t) = false →
    (Q.lines = [] ∨ admits t Q.lines.length = true) → planOf (stampedRma t c) (nextStamp t.twin) c = .ok P →
      (∀ g ∈ P.dev.folds.staged, g.by_ ≠ f ∧ g.fold ≠ f) ∧ getKey P.dev.evt.rings f = none ∧
      (genBusy e f = true → Runs (.destroyFold p slot f) s fun x =>
        x.folds.waits = some { slot := slot, cmd := c, step := 4 } ∧ x.folds.staged = P.dev.folds.staged ∧
        x.mem = (if P.lines.isEmpty then s.dev.mem else P.edit s.dev.mem) ∧ x.folds.queue = []) ∧
      (genBusy e f = false → ctrlReady e (.rmaDrained f) = true → Runs (.destroyFold p slot f) s fun x =>
        SlotEnded x slot .done ∧ x.folds.waits = none ∧ x.folds.queue = [] ∧ x.folds.staged = P.dev.folds.staged ∧
        ((readFold e.mem (foldPa e.folds f)).state = 2 → f ∉ x.folds.live))

/-- FORMAT over I3C lays the space out: fold 0 alone stands in the tables, no connection and no command is left, and every other byte
reads as zero. The command ends DONE once its lines stand in flash, and its slot goes on running while they do not. What refuses it
ends the slot with that result, and over a connection it ends BAD_STATE. Choices of the model: log 18. -/
def Obligations.FormatLaysOutTheSpace : Prop :=
  ∀ (s : State) (slot : Nat) (p : Principal), SlotReady s.dev p slot →
    let c := slotCmd s.dev slot .format 0
    let t := (taken s.dev p slot .format 0).modFolds fun f => { f with queue := [] }
    (∀ a, p = .i3c → format t c.rta = .ok a →
      let w := writeThrough a (addNums [rtaBase a.folds / 4096] ((controlAll a).map (itemLeaf a)))
      Runs (.format p slot) s fun e =>
        (formatHeld w = true → SlotEnded e slot .done ∧ e.folds.waits = none) ∧
        (formatHeld w = false → e.folds.waits = some { slot := slot, cmd := c, step := 1 } ∧
          ∃ x, e.folds.slots[slot]? = some x ∧ x.run = some c ∧ x.ended = false) ∧
        e.folds.formatted = true ∧ e.folds.live = [0] ∧ e.folds.staged = [] ∧ e.folds.queue = [] ∧ e.folds.rta = c.rta * 67108864 ∧
        e.mem = writeBytes [] (rtaBase e.folds) (foldBytes newFold)) ∧
    (∀ r, (p = .i3c ∧ format t c.rta = .error r) ∨ (p ≠ .i3c ∧ r = .badState) → Runs (.format p slot) s fun e =>
      SlotEnded e slot r ∧ e.mem = s.dev.mem ∧ e.net = s.dev.net ∧ e.folds.live = s.dev.folds.live ∧ e.twin = s.dev.twin)

/-- A drain that a command waits for has run out: the command goes on. A COMMIT publishes, the destruction of a fold ends, and what
past generations of a fold kept is released. Choices of the model: log 18 and 21. -/
def Obligations.DrainsLetCommandsGoOn : Prop :=
  ∀ (s : State) (f : Nat), s.dev.twin.ctrlDue = [] → canStamp s.dev = true →
    (∀ slot x c P Q, s.dev.folds.slots[slot]? = some x → s.dev.folds.waits = none → s.dev.folds.queue = [(slot, c)] →
      c.op = .commit → c.fold = f → planOf s.dev (nextStamp s.dev.twin) c = .ok Q → (affected s.dev f).any (genBusy s.dev) = false →
      (Q.lines = [] ∨ admits s.dev Q.lines.length = true) → planOf (stampedRma s.dev c) (nextStamp s.dev.twin) c = .ok P →
        Runs (.commitDrainDone f) s fun e => SlotEnded e slot .done ∧ e.folds.queue = [] ∧ e.folds.staged = P.dev.folds.staged ∧
          e.mem = (if P.lines.isEmpty then s.dev.mem else P.edit s.dev.mem)) ∧
    (∀ w x, s.dev.folds.slots[w.slot]? = some x → s.dev.folds.waits = some w → w.cmd.op = .destroyFold → w.cmd.fold = f →
      s.dev.folds.queue = [] → genBusy s.dev f = false → ctrlReady s.dev (.rmaDrained f) = true → (readFold s.dev.mem (foldPa s.dev.folds f)).state = 2 →
        Runs (.destroyFoldDrainDone f) s fun e => SlotEnded e w.slot .done ∧ e.folds.waits = none ∧ f ∉ e.folds.live ∧
          e.folds.staged = s.dev.folds.staged) ∧
    (s.dev.folds.queue = [] → s.dev.folds.waits = none → ctrlReady s.dev (.rmaDrained f) = true → (∃ x ∈ s.dev.folds.drains, x.fold = f) →
      (∀ x ∈ s.dev.folds.drains, x.fold = f → genInUse s.dev f x.gen = false) → (readFold s.dev.mem (foldPa s.dev.folds f)).state ≠ 2 →
        Runs (.generationDrained f) s fun e => e.folds.drains = (s.dev.folds.drains.filter fun x => x.fold ≠ f) ∧
          e.folds.live = s.dev.folds.live ∧ e.folds.staged = s.dev.folds.staged ∧ e.folds.slots = s.dev.folds.slots)

/-- RMA_STATUS answers the slot's status; its owner's read after the command has ended releases the slot, and 10 s without an access
release one that runs no command. Choices of the model: log 2 and 18. -/
def Obligations.SlotStatusAndLapse : Prop :=
  ∀ (s : State) (p : Principal) (slot : Nat) (x : Slot), s.dev.folds.slots[slot]? = some x →
    (Open s.dev p (slotBase slot + 4) → Runs (.rmaStatusRead p slot) s fun e =>
      e.folds.slots[slot]? = some { x with owner := if x.owner = some p ∧ x.ended = true ∧ x.run = none then none else x.owner } ∧
      (∀ i, i ≠ slot → e.folds.slots[i]? = s.dev.folds.slots[i]?) ∧ e.mem = s.dev.mem ∧ e.regs = s.dev.regs ∧
      e.answer = some { who := p, addr := slotBase slot + 4, write := false, status := .done, detail := 0, value := slotStatus x }) ∧
    (Runs (.rmaSlotLapse slot) s fun e =>
      e.folds.slots[slot]? = some { x with owner := if x.run = none then none else x.owner } ∧
      (∀ i, i ≠ slot → e.folds.slots[i]? = s.dev.folds.slots[i]?) ∧ { e with folds := s.dev.folds } = s.dev)

/-! ## Ports and frames -/

/-- The first finding about a frame that no connection takes counts in its own counter, and the frame has no other effect; a malformed
header and a foreign node also raise their events. No frame of a stranger reaches the memory. Choices of the model: log 15. -/
def Obligations.DroppedFramesAreCounted : Prop :=
  ∀ (s : State) (f : RawFrame), linked s.dev f.port = true →
    let cfg := reg s.dev (ethBase f.port)
    let tagged := if f.port < 16 && cfg.getLsbD 28 then some (wbits cfg 23 12) else none
    let fenhel := f.vlan = tagged ∧ f.macCtl = false ∧ f.layerOk = true ∧ (v4On s.dev f.port || v6On s.dev f.port) = true
    (f.fcsOk = false → Becomes (.nonFenhelFrame f) s (countPort s.dev f.port 0x100)) ∧
    (f.fcsOk = true → 9216 < f.length → Becomes (.nonFenhelFrame f) s (countPort s.dev f.port 0x104)) ∧
    (f.fcsOk = true → f.length ≤ 9216 → ¬ fenhel → Becomes (.nonFenhelFrame f) s (countPort s.dev f.port 0x108)) ∧
    (f.fcsOk = true → f.length ≤ 9216 → fenhel → f.csumZeroOrOk = false →
      Becomes (.nonFenhelFrame f) s (countPort s.dev f.port 0x10C)) ∧
    (f.fcsOk = true → f.length ≤ 9216 → fenhel → f.csumZeroOrOk = true → fenhelOk f.head f.udpLen = false →
      Becomes (.nonFenhelFrame f) s (raiseOp (countPort s.dev f.port 0x110) 0x0C04 (.port f.port) [])) ∧
    (f.fcsOk = true → f.length ≤ 9216 → fenhel → f.csumZeroOrOk = true → fenhelOk f.head f.udpLen = true →
      nodeAccepted s.dev (netField f.head 4 4 % 2 ^ 18) = false →
      Becomes (.nonFenhelFrame f) s (raiseOp (countPort s.dev f.port 0x114) 0x0C01 (.port f.port) [])) ∧
    (∀ off a, reg (countPort s.dev f.port off) a =
      if ethBase f.port + off = a then satAdd (reg s.dev a) 1 else reg s.dev a) ∧
    (∀ h : Hdr, Runs (.strangerFrame h.port h.src h.stray) s fun e => e.mem = s.dev.mem)

/-- A frame of a connection that R106 turns away counts in the counter of its finding: an unknown or unfit connection as a stranger, a
bad tag with the connection's own count, a body that fails as malformed. A stranger is answered while the port sends answers and its
bucket holds a token, and not otherwise. A frame whose connection's context is not in the cache waits for it. Choices of the model:
log 15 and 19. -/
def Obligations.StrangersAreCounted : Prop :=
  ∀ (s : State) (h : Hdr) (ty : FrameType), FrameIn s.dev h → headType h.head = some ty → ty ≠ .connectReq → ty ≠ .connectFin →
    h.port ≤ 16 → landingShut s.dev h.conn = false →
    let answers := h.port < 16 ∧ (reg s.dev (ethBase h.port + 0x10)).getLsbD 31 = true ∧ regBits s.dev (ethBase h.port + 0x10) 15 0 ≠ 0
    let stray (reason : Nat) : Prop := Runs (.strangerFrame h.port h.src h.stray) s fun e =>
      reg e (ethBase h.port + 0x118) = satAdd (reg s.dev (ethBase h.port + 0x118)) 1 ∧ e.mem = s.dev.mem ∧ e.folds = s.dev.folds ∧
      ∀ x, s.dev.net.ports[h.port]? = some x →
        (answers → 0 < x.ucrTokens →
          e.sent = outUnknown s.dev h.port h.src h.conn h.path reason h.psn :: (askHop s.dev h.port h.src.ip ++ s.dev.sent) ∧
          e.net.ports[h.port]? = some { x with ucrTokens := x.ucrTokens - 1 } ∧
          reg e (ethBase h.port + 0x124) = satAdd (reg s.dev (ethBase h.port + 0x124)) 1) ∧
        (¬ answers ∨ x.ucrTokens = 0 → e.sent = s.dev.sent ∧ e.net.ports = s.dev.net.ports)
    (getConn s.dev h.conn = none → stray 1) ∧
    (∀ c, getConn s.dev h.conn = some c →
      (h.conn ∉ s.dev.net.ctxCache → Becomes (.strangerFrame h.port h.src h.stray) s (parkFrame s.dev h (.stranger ty))) ∧
      (h.conn ∈ s.dev.net.ctxCache →
        (¬ (c.ident.mgmt ↔ h.port = 16) → stray 1) ∧
        ((c.ident.mgmt ↔ h.port = 16) → acceptsFrame c.state ty = false → stray 2) ∧
        ((c.ident.mgmt ↔ h.port = 16) → acceptsFrame c.state ty = true → h.path < c.ident.npath →
          (h.tagOk = false → Runs (.strangerFrame h.port h.src h.stray) s fun e =>
            reg e (ethBase h.port + 0x11C) = satAdd (reg s.dev (ethBase h.port + 0x11C)) 1 ∧
            (∃ c', getConn e h.conn = some c' ∧ c'.tagFail = satAdd c.tagFail 1 ∧ c'.state = c.state ∧ c'.paths = c.paths) ∧
            e.mem = s.dev.mem ∧ e.sent = s.dev.sent) ∧
          (h.tagOk = true → h.bodyOk = false → Becomes (.strangerFrame h.port h.src h.stray) s (countPort s.dev h.port 0x110)))))

/-- ARP and Neighbor Discovery: a request for the port's own address is answered, a reply for an on-link address or the gateway is
kept; nothing else changes. What is sent to an address whose hop is kept calls for no request. Choices of the model: log 3 and 15. -/
def Obligations.AddressResolution : Prop :=
  ∀ (s : State) (p : Nat) (mac : BitVec 48), linked s.dev p = true →
    (v4On s.dev p = true → Becomes (.arpRequest p (ip4Of s.dev p) mac) s
      { s.dev with sent := .arpReply p (ip4Of s.dev p) mac :: s.dev.sent }) ∧
    (v6On s.dev p = true → Becomes (.neighborSolicitation p (ip6Of s.dev p) mac) s
      { s.dev with sent := .neighborAdv p (ip6Of s.dev p) (some mac) :: s.dev.sent }) ∧
    (∀ ip x, v4On s.dev p = true → s.dev.net.ports[p]? = some x →
      (ip = gw4Of s.dev p ∨ onLink4 s.dev p ip = true) →
      Runs (.arpReply p ip mac) s fun e => (∃ y, e.net.ports[p]? = some y ∧ (mapped4 ip, mac) ∈ y.resolved ∧ y.link = x.link) ∧
        { e with net := s.dev.net } = s.dev ∧ e.net.conns = s.dev.net.conns) ∧
    (∀ ip x, v6On s.dev p = true → s.dev.net.ports[p]? = some x →
      (ip = gw6Of s.dev p ∨ onLink6 s.dev p ip = true) →
      Runs (.neighborAdvertisement p ip mac) s fun e => (∃ y, e.net.ports[p]? = some y ∧ (ip, mac) ∈ y.resolved ∧ y.link = x.link) ∧
        { e with net := s.dev.net } = s.dev ∧ e.net.conns = s.dev.net.conns ∧
        (ip >>> (32 : Nat) ≠ 0xFFFF → onLink6 s.dev p ip = true → askHop e p ip = []))

/-- A port that may come up comes up, announces its addresses, and ends a port reset of its own; a port that loses its link keeps no
resolved address. An UNKNOWN_CONN bucket gains a token up to 16. A 1588 exchange that ends sets the slave clock, and its loss takes the time's validity. Choices of the model: log 2
and 15. -/
def Obligations.PortsComeAndGo : Prop :=
  ∀ (s : State) (p : Nat) (x : Port), s.dev.net.ports[p]? = some x →
    (linked s.dev p = false → mayLink s.dev p = true → Runs (.portLinkUp p) s fun e =>
      e.net.ports[p]? = some { x with link := true } ∧ e.mem = s.dev.mem ∧ e.folds = s.dev.folds ∧
      (s.dev.rst.run = some (.port p) → e.rst.run = none ∧ e.rst.result = .done) ∧
      e.sent = (if v6On s.dev p then [.neighborAdv p (ip6Of s.dev p) none] else []) ++
        (if v4On s.dev p then [.gratuitousArp p (ip4Of s.dev p)] else []) ++ s.dev.sent) ∧
    (linked s.dev p = true → Runs (.portLinkDown p) s fun e =>
      e.net.ports[p]? = some { x with link := false, resolved := [] } ∧ (∀ q, q ≠ p → e.net.ports[q]? = s.dev.net.ports[q]?) ∧
      e.mem = s.dev.mem ∧ e.folds = s.dev.folds) ∧
    (regBits s.dev (ethBase p + 0x10) 15 0 ≠ 0 → Runs (.ucrTokenRefill p) s fun e =>
      e.net.ports[p]? = some { x with ucrTokens := min 16 (x.ucrTokens + 1) } ∧ (∀ q, q ≠ p → e.net.ports[q]? = s.dev.net.ports[q]?) ∧
      { e with net := s.dev.net } = s.dev) ∧
    (linked s.dev 16 = true →
      (∀ o k, Runs (.ptpMessage (.sync o) k) s fun e => e.twin.ptpT2 = s.dev.clock ∧ e.mem = s.dev.mem ∧ e.regs = s.dev.regs) ∧
      (∀ t1 t3 t4 k : Nat, s.dev.twin.ptpT1 = some t1 → s.dev.twin.ptpT3 = some t3 → Runs (.ptpMessage (.delayResp t4) k) s fun e =>
        e.twin.timeValid = true ∧ { e with twin := s.dev.twin } = s.dev ∧
        ((ptpNow e : Nat) : Int) = ((s.dev.clock : Int) - (((s.dev.twin.ptpT2 : Int) - t1) - ((t4 : Int) - k - t3)) / 2) % 2 ^ 64) ∧
      ∀ k, Runs (.ptpMessage .lost k) s fun e => e.twin.timeValid = false ∧ { e with twin := s.dev.twin } = s.dev)

/-! ## Connections and their paths -/

/-- A frame that arrives in order or within the window is delivered once: a DOORBELL's later indices are taken, a PATH_RESET moves E
of the path it names, a DISCONNECT of an ACTIVE connection begins its quiesce under DRAIN. Choices of the model: log 19. -/
def Obligations.SequencedFramesAreDelivered : Prop :=
  ∀ (s : State) (h : Hdr) (c : Conn) (p : Path), getConn s.dev h.conn = some c → c.paths[h.path]? = some p →
    psnFind p h.psn = .new →
    (∀ b c1, Passes s.dev h (.doorbell b) c → takeIndices (unitBit s.dev) c b.sqTail b.ackSeq b.cqHead0 b.cqHead1 = some c1 →
      Runs (.doorbell h b) s fun e => ∃ c', getConn e h.conn = some c' ∧ c'.sqTail = c1.sqTail ∧ c'.ackSeq = c1.ackSeq ∧
        c'.cqHead0 = c1.cqHead0 ∧ c'.cqHead1 = c1.cqHead1 ∧ c'.store = c1.store ∧ c'.state = c.state ∧ e.mem = s.dev.mem) ∧
    (∀ o q r, Passes s.dev h (.pathReset o r) c → o < c.ident.npath → o ≠ h.path → c.paths[o]? = some q →
      Runs (.pathReset h o r) s fun e => ∃ c' q', getConn e h.conn = some c' ∧ c'.paths[o]? = some q' ∧
        q'.rxE = (if later r q.rxE then r else q.rxE) ∧ q'.rxGot = [] ∧ c'.state = c.state ∧ e.mem = s.dev.mem) ∧
    (∀ r, serving s.dev = true → Passes s.dev h (.disconnect r) c → c.state = .active → r ≠ 0x16 →
      Runs (.disconnect h r) s fun e => ∃ c', getConn e h.conn = some c' ∧ c'.state = .quiescing ∧ c'.abort = false ∧
        c'.cause = .abortedDisabled ∧ c'.reason = 1 ∧ c'.byClient = true)

/-- A frame outside the window is counted and not delivered; a duplicate is acknowledged at once and not delivered; a PROBE is
acknowledged at once. Choices of the model: log 19. -/
def Obligations.DuplicatesAreNotDelivered : Prop :=
  ∀ (s : State) (h : Hdr) (c : Conn) (p : Path), getConn s.dev h.conn = some c → c.paths[h.path]? = some p →
    (∀ b, Passes s.dev h (.doorbell b) c →
      (psnFind p h.psn = .beyond → Becomes (.doorbell h b) s
        (modConn (touchCtx s.dev h.conn) h.conn fun c => { c with winViol := satAdd c.winViol 1 })) ∧
      (psnFind p h.psn = .duplicate → txcOk c = true → Runs (.doorbell h b) s fun e =>
        e.sent = frameSent s.dev h.conn c h.path 0
          (.ack p.rxE h.ts (sackOf p) (p.ceCnt + (if h.ce then 1 else 0)) (p.rxCnt + 1)) ∧
        ∃ c', getConn e h.conn = some c' ∧ c'.sqTail = c.sqTail ∧ c'.ackSeq = c.ackSeq ∧ c'.txc = c.txc + 1)) ∧
    (Passes s.dev h .probe c → txcOk c = true → Runs (.probe h) s fun e =>
      e.sent = frameSent s.dev h.conn c h.path 0
        (.ack p.rxE h.ts (sackOf p) (p.ceCnt + (if h.ce then 1 else 0)) p.rxCnt) ∧
      ∃ c', getConn e h.conn = some c' ∧ c'.txc = c.txc + 1 ∧ c'.state = c.state)

/-- A segment of a live request is placed once and gives its reservation back; the last segment of write data reaches its operation,
and a REFUSED answer to a ring fetch ends the connection. Choices of the model: log 19. -/
def Obligations.ReadResponsesArePlaced : Prop :=
  ∀ (s : State) (h : Hdr) (c : Conn) (p : Path) (rid off : Nat) (data : List Byte) (q : Pull), getConn s.dev h.conn = some c →
    c.paths[h.path]? = some p → psnFind p h.psn = .new →
    (c.pulls.find? fun p => p.rid = rid && p.sent) = some q →
    (Passes s.dev h (.readRsp rid off false data) c → q.got.contains off = false → off % max 1 q.seg = 0 → off < q.len → data.length = min q.seg (q.len - off) →
      data.length < q.held → Runs (.readRsp h rid off false data) s fun e => ∃ c' q', getConn e h.conn = some c' ∧ q' ∈ c'.pulls ∧
        q'.rid = rid ∧ q'.held = q.held - data.length ∧ q'.got = q.got ++ [off] ∧ q'.bytes = q.bytes ++ [(off, data)] ∧
        e.mem = s.dev.mem ∧ e.net.ops = s.dev.net.ops) ∧
    (∀ seq at_ o, Passes s.dev h (.readRsp rid off false data) c → q.got.contains off = false → off % max 1 q.seg = 0 → off < q.len → data.length = min q.seg (q.len - off) →
      q.held ≤ data.length → q.what = .data seq at_ → findOp s.dev h.conn seq = some o →
        Runs (.readRsp h rid off false data) s fun e => ∃ c' o', getConn e h.conn = some c' ∧ (∀ r ∈ c'.pulls, r.rid ≠ rid) ∧
          findOp e h.conn seq = some o' ∧ o'.dataGot = o.dataGot + q.len ∧ e.mem = s.dev.mem) ∧
    (∀ a b, Passes s.dev h (.readRsp rid off true data) c → q.what = .ring a b → serving s.dev = true → maySend c = true → s.dev.rst.freeAfter.contains h.conn = false →
      Runs (.readRsp h rid off true data) s fun e => ∃ c', getConn e h.conn = some c' ∧ c'.state = .error ∧ c'.reason = 0x11)

/-- An ACK at or past the path's acknowledgement point releases every frame before it and takes a fresh RTO; while no operation or END
waits on it nothing else of the connection ends. Choices of the model: log 19. -/
def Obligations.AcksReleaseFrames : Prop :=
  ∀ (s : State) (h : Hdr) (c : Conn) (p : Path) (e echo : Word) (ce rx : Nat), getConn s.dev h.conn = some c →
    c.paths[h.path]? = some p → Passes s.dev h (.ack e echo 0 ce rx) c → s.dev.net.ops = [] → c.endDue = [] → p.up = true →
    c.state ≠ .disabled → 0 < reorderLimit s.dev (pathPort s.dev h.conn c h.path) →
    notBefore e (match p.unacked with | u :: _ => u.psn | [] => p.nextPsn) = true → notBefore p.nextPsn e = true →
    Runs (.ack h e echo 0 ce rx) s fun d => ∃ c' q, getConn d h.conn = some c' ∧ c'.state = c.state ∧ c'.paths[h.path]? = some q ∧
      q.expiries = 0 ∧ q.up = true ∧ q.unacked = (p.unacked.filter fun u => !later e u.psn) ∧
      q.rto = rtoOf s.dev (pathPort s.dev h.conn c h.path) q.push ∧ d.mem = s.dev.mem

/-- A new CONNECT_REQ that no rule refuses makes an ARMED connection and is answered once its record stands at the twin; a repeated
one gets the same answer; one that a rule refuses is answered with that result; one whose MAC fails or whose credential is unknown is
counted and nothing else. A CONNECT_FIN with the number it was given makes the connection ACTIVE; the set-up timeout frees an ARMED
connection, or puts one that was resuming back in ERROR; the hold time frees one in ERROR. Choices of the model: log 2, 4 and 19. -/
def Obligations.ConnectionsAreSetUp : Prop :=
  ∀ (s : State) (h : Hdr), FrameIn s.dev h →
    (∀ r pubOk, headType h.head = some .connectReq → h.conn = 0 → h.path = 0 → netField h.head 2 2 = 176 →
      (getKey s.dev.folds.creds r.credId = none → Becomes (.connectReq h pubOk r) s (countPort s.dev h.port 0x11C)) ∧
      (∀ cr, getKey s.dev.folds.creds r.credId = some cr →
        (reqMacOk cr.key h.head r = false → Becomes (.connectReq h pubOk r) s (countPort s.dev h.port 0x11C)) ∧
        (reqMacOk cr.key h.head r = true → (cr.mgmt ↔ h.port = 16) →
          (∀ n c st, repeated s.dev r = some (n, c) → getConn s.dev n = some c → NoneDue s.dev → c.setupSt = some st →
            (streaming s.dev = true → st ≤ s.dev.twin.peerStamp) → Runs (.connectReq h pubOk r) s fun e =>
              e.sent = outRsp h.src n c.ident.rsp ::
                (askHop s.dev (if c.ident.mgmt then 16 else portOfPath s.dev false n 0) h.src.ip ++ s.dev.sent) ∧
              ∃ c', getConn e n = some c' ∧ c'.ident = c.ident ∧ c'.state = c.state) ∧
          (repeated s.dev r = none →
            (∀ res, setupRefusal s.dev pubOk r cr = some res → ∃ node, Becomes (.connectReq h pubOk r) s
              (emitTo s.dev h.port h.src.ip (outRefused s.dev h.src cr.key res node r.nonce))) ∧
            (∀ g n d, setupRefusal s.dev pubOk r cr = none → r.cflags.getLsbD 1 = false → pickNumber s.dev = (g, some n, d) →
              ((s.dev.net.conns.filter fun x => x.2.state = .armed).filter fun x => homeOf x.1 = g).length < 256 →
              ((s.dev.net.conns.filter fun x => x.2.state = .armed).filter fun x => x.2.ident.cred = r.credId).length < 16 →
              storeSum s.dev + 2 ^ r.sqLog ≤ 2 ^ 26 → Runs (.connectReq h pubOk r) s fun e => ∃ c, getConn e n = some c ∧
                c.state = .armed ∧ c.ident.cred = r.credId ∧ c.ident.fold = cr.fold ∧ c.ident.sqLog = r.sqLog ∧
                c.ident.npath = (if cr.mgmt then 1 else r.npath) ∧ c.sqTail = r.initSeq ∧ c.txc = 1 ∧
                e.net.ctxCache.head? = some n ∧
                (streaming s.dev = false → NoneDue s.dev → canStamp s.dev = true → s.dev.twin.ctrlDue = [] →
                  ∃ l, e.sent = outRsp h.src n c.ident.rsp :: l)))))) ∧
    (∀ c, headType h.head = some .connectFin → landingShut s.dev h.conn = false → h.path = 0 → netField h.head 2 2 = 24 →
      getConn s.dev h.conn = some c → c.state = .armed → (c.ident.mgmt ↔ h.port = 16) →
      (serving s.dev = true → Runs (.connectFin h c.ident.confirmC c.ident.nonceG) s fun e => ∃ c', getConn e h.conn = some c' ∧
        c'.state = .active ∧ c'.ident = c.ident) ∧
      (∀ k ng, k ≠ c.ident.confirmC → Becomes (.connectFin h k ng) s (countPort s.dev h.port 0x11C))) ∧
    (∀ n c, getConn s.dev n = some c → serving s.dev = true →
      (c.state = .armed → c.resuming = false → Runs (.setupTimeout n) s fun e => getConn e n = none) ∧
      (c.state = .armed → c.resuming = true → Runs (.setupTimeout n) s fun e => ∃ c', getConn e n = some c' ∧ c'.state = .error) ∧
      (c.state = .error → regBits s.dev 0x401008 31 16 ≠ 0 → Runs (.errorHoldExpiry n) s fun e => getConn e n = none))

/-- The timers of a connection: the delay sends the acknowledgement that is owed; the RTO sends the oldest frame again and doubles; a
path that is down is probed; a connection without a path, and a read request without an answer, end in ERROR; the rate period sets
the rate between its lowest and the line rate. Choices of the model: log 2 and 19. -/
def Obligations.ConnectionTimers : Prop :=
  ∀ (s : State) (n path : Nat) (c : Conn) (p : Path), getConn s.dev n = some c → c.paths[path]? = some p →
    c.txc + 1 < 2 ^ 64 →
    (0 < p.ackOwed → onAir c = true → txcOk c = true → Runs (.ackDelayExpiry n path) s fun e =>
      e.sent = frameSent s.dev n c path 0 (.ack p.rxE p.echoTs (sackOf p) p.ceCnt p.rxCnt) ∧
      ∃ c' q, getConn e n = some c' ∧ c'.paths[path]? = some q ∧ q.ackOwed = 0 ∧ q.ceCnt = 0 ∧ q.rxCnt = 0 ∧ q.rxE = p.rxE) ∧
    (∀ u us, (p.unacked.filter fun u => !u.got) = u :: us → onAir c = true → txcOk c = true → p.up = true → resetQueued c path = false →
      p.expiries + 1 < regBits s.dev (tmrBase (pathPort s.dev n c path) + 0x80) 11 7 → Runs (.rtoExpiry n path) s fun e =>
        e.sent = frameSent s.dev n c path u.psn u.body ∧ ∃ c' q, getConn e n = some c' ∧ c'.paths[path]? = some q ∧
          q.expiries = p.expiries + 1 ∧ q.nextPsn = p.nextPsn ∧
          q.rto = min ((regBits s.dev (tmrBase (pathPort s.dev n c path) + 0x88) 31 25 * 1000000 : Nat) : Rat) (2 * p.rto)) ∧
    (onAir c = true → txcOk c = true → p.up = false → linked s.dev (pathPort s.dev n c path) = true →
      Runs (.probeInterval n path) s fun e => e.sent = frameSent s.dev n c path 0 .probe ∧
        ∃ c', getConn e n = some c' ∧ c'.txc = c.txc + 1 ∧ c'.paths = c.paths) ∧
    (serving s.dev = true → maySend c = true → upPaths c = [] → s.dev.rst.freeAfter.contains n = false →
      Runs (.connectionDead n) s fun e => ∃ c', getConn e n = some c' ∧ c'.state = .error ∧ c'.reason = 0x14) ∧
    (∀ rid, serving s.dev = true → maySend c = true → (c.pulls.any fun p => p.rid = rid && p.acked && decide (0 < p.held)) = true →
      s.dev.rst.freeAfter.contains n = false → Runs (.pullTimeout n rid) s fun e => ∃ c', getConn e n = some c' ∧
        c'.state = .error ∧ c'.reason = 0x10) ∧
    (∀ pull lo, lo = ((regBits s.dev (tmrBase (pathPort s.dev n c path) + 0x90) 17 8 : Nat) : Rat) / 100 →
      lo ≤ lineRate s.dev (pathPort s.dev n c path) → Runs (.ratePeriodEnd n path pull) s fun e => ∃ c' q, getConn e n = some c' ∧
        c'.paths[path]? = some q ∧ (if pull then q.push = p.push else q.pull = p.pull) ∧
        lo ≤ (if pull then q.pull.rate else q.push.rate) ∧
        (if pull then q.pull.rate else q.push.rate) ≤ lineRate s.dev (pathPort s.dev n c path) ∧
        (if pull then q.pull.ceSeen else q.push.ceSeen) = false)

/-- A frame that the path has room for takes the path's next PSN and the connection's next TXC and is kept until it is acknowledged.
Choices of the model: log 19. -/
def Obligations.FramesTakeTheNextPsn : Prop :=
  ∀ (s : State) (n path : Nat) (c : Conn) (p : Path), getConn s.dev n = some c → c.paths[path]? = some p →
    (∀ i f, nextFor c path = some i → c.sendq[i]? = some f → onAir c = true → pathOpen s.dev n c path (frameBytes f.2) = true →
      Runs (.sequencedFrameSend n path) s fun e => e.sent = frameSent s.dev n c path p.nextPsn f.2 ∧
        ∃ c' q u, getConn e n = some c' ∧ c'.sendq = c.sendq.eraseIdx i ∧ c'.txc = c.txc + 1 ∧ c'.paths[path]? = some q ∧
          q.nextPsn = p.nextPsn + 1 ∧ q.unacked = p.unacked ++ [u] ∧ u.psn = p.nextPsn ∧ u.body = f.2 ∧ u.got = false) ∧
    (∀ rid len r, (c.pulls.find? fun p => p.rid = rid && p.len = len && !p.sent) = some r → maySend c = true →
      pathOpen s.dev n c path 56 = true → pullOut c + r.len ≤ 1048576 →
      pullUsed s.dev (pathPort s.dev n c path) + r.len ≤ pullPool s.dev (pathPort s.dev n c path) →
      Runs (.readReqSend n rid path len) s fun e =>
        e.sent = frameSent s.dev n c path p.nextPsn (.readReq rid r.len r.addr r.ckey (segOf s.dev (pathPort s.dev n c path))) ∧
        ∃ c' q t, getConn e n = some c' ∧ c'.txc = c.txc + 1 ∧ c'.paths[path]? = some q ∧ q.nextPsn = p.nextPsn + 1 ∧
          t ∈ c'.pulls ∧ t.rid = rid ∧ t.sent = true ∧ t.held = r.len ∧ t.sentAt = s.dev.clock)

/-! ## Operations -/

/-- An atomic at its stamp returns the old value of the location; FETCH_ADD and SWAP, and a CAS whose comparison succeeds, write the
new value, and a CAS whose comparison fails writes nothing. No other byte of memory changes. Choices of the model: log 20. -/
def Obligations.AtomicsReturnTheOldValue : Prop :=
  ∀ (s : State) (o : Op) (c : Conn) (t : Trans) (a n old : Nat), AtStamp s.dev o c → o.tr1 = some t →
    a = t.base + o.desc.offset.toNat → n = o.desc.length.toNat → n ≤ 16777216 → old = readLE s.dev.mem a n →
    poisonIn s.dev (spanLines a n) = [] →
    (o.desc.op = .cas → old = o.desc.b48.toNat % 256 ^ n → Runs (.cas o.conn o.seq) s fun e =>
      e.mem = writeLE s.dev.mem a n (o.desc.b32.toNat % 256 ^ n) ∧ ∃ l, Ended e o c { doneEntry o.desc 1 n old with level := l }) ∧
    (o.desc.op = .cas → old ≠ o.desc.b48.toNat % 256 ^ n → Runs (.cas o.conn o.seq) s fun e =>
      e.mem = s.dev.mem ∧ ∃ l, Ended e o c { doneEntry o.desc 0 n old with level := l }) ∧
    (o.desc.op = .fetchAdd → Runs (.fetchAdd o.conn o.seq) s fun e =>
      e.mem = writeLE s.dev.mem a n ((old + o.desc.b32.toNat % 256 ^ n) % 256 ^ n) ∧
      ∃ l, Ended e o c { doneEntry o.desc 0 n old with level := l }) ∧
    (o.desc.op = .swap → Runs (.swap o.conn o.seq) s fun e =>
      e.mem = writeLE s.dev.mem a n (o.desc.b32.toNat % 256 ^ n) ∧ ∃ l, Ended e o c { doneEntry o.desc 0 n old with level := l })

/-- WRITE puts its data at the span, WRITE_ZERO clears it, COPY puts the source's bytes as they stood, LOG_APPEND puts its data at the
log's tail; each ends DONE, and no other byte of memory changes. Choices of the model: log 20 and 21. -/
def Obligations.WritesReachTheirSpan : Prop :=
  ∀ (s : State) (o : Op) (c : Conn) (t : Trans) (a n : Nat), AtStamp s.dev o c → o.tr1 = some t →
    a = t.base + o.desc.offset.toNat → n = o.desc.length.toNat → n ≤ 16777216 →
    (o.desc.op = .write → firstIn a n (poisonIn s.dev (partLines a n)) = none → Runs (.write o.conn o.seq) s fun e =>
      e.mem = writeBytes s.dev.mem a o.data ∧ ∃ l, Ended e o c { doneEntry o.desc 0 n 0 with level := l }) ∧
    (o.desc.op = .writeZero → firstIn a n (poisonIn s.dev (partLines a n)) = none → Runs (.writeZero o.conn o.seq) s fun e =>
      (∀ x, readByte e.mem x = if a ≤ x ∧ x < a + n then 0 else readByte s.dev.mem x) ∧
      ∃ l, Ended e o c { doneEntry o.desc 0 n 0 with level := l }) ∧
    (∀ u b, o.desc.op = .copy → o.tr2 = some u → b = u.base + o.desc.offset2.toNat → MemOk s →
      firstIn b n (poisonIn s.dev (partLines b n)) = none → poisonIn s.dev (spanLines a n) = [] →
      Runs (.copy o.conn o.seq) s fun e =>
        (∀ x, readByte e.mem x = if b ≤ x ∧ x < b + n then readByte s.dev.mem (x - b + a) else readByte s.dev.mem x) ∧
        ∃ l, Ended e o c { doneEntry o.desc 0 n 0 with level := l }) ∧
    (∀ p r, o.desc.op = .logAppend → p = logTail s.dev t.base → r = roundUp n 64 → Runs (.logAppend o.conn o.seq) s fun e =>
      e.mem = writeBytes (logWrite t.base (t.len - 64) p (o.data ++ List.replicate (r - o.data.length) 0) s.dev.mem) (t.base + 8)
        (leBytes 8 (p + r) ++ leBytes 48 0) ∧
      ∃ l, Ended e o c { doneEntry o.desc 0 n (p % 2 ^ 64) with level := l })

/-- SNAPSHOT and CLONE at their stamp make a region whose bytes equal the source's and return its handle. Choices of the model: log
21. -/
def Obligations.SnapshotsEqualTheirSource : Prop :=
  ∀ (s : State) (o : Op) (c : Conn) (t : Trans) (h : Word) (pa rec base : Nat) (d1 d2 : Dev), AtStamp s.dev o c →
    o.tr1 = some t → o.desc.length.toNat ≤ 16777216 → MemOk s →
    newHandle s.dev c.ident.fold o.desc.handle2 = some (h, pa) → placeRta s.dev 64 = some (rec, d1) →
    (placeRegion s.dev (nextStamp s.dev.twin) (roundUp t.len 4096)).isSome = true →
    placeRegion d1 (nextStamp s.dev.twin) (roundUp t.len 4096) = some (base, d2) →
    sourcePlaces s.dev c.ident.fold o.desc t ≠ [] →
    (∀ p ∈ pa :: rec :: sourcePlaces s.dev c.ident.fold o.desc t, ∀ k, k < 64 → ∀ i, i < t.len → p + k ≠ t.base + i) →
    (o.desc.op = .snapshot → Runs (.snapshot o.conn o.seq) s fun e =>
      (∀ k, k < t.len → readByte e.mem (base + k) = readByte s.dev.mem (t.base + k)) ∧
      ∃ l, Ended e o c { doneEntry o.desc 0 0 h.toNat with level := l }) ∧
    (o.desc.op = .clone → Runs (.clone o.conn o.seq) s fun e =>
      (∀ k, k < t.len → readByte e.mem (base + k) = readByte s.dev.mem (t.base + k)) ∧
      ∃ l, Ended e o c { doneEntry o.desc 0 0 h.toNat with level := l })

/-- The operations that take no stamp end as they are ready: READ sends the bytes of its span with its entry, NOP and HEALTH end at
once, WAIT ends when its target has counted far enough and else waits, and PERSIST ends when the lines that earlier operations
changed are held. A WAIT whose time has passed ends WAIT_TIMEOUT. None of them changes memory. Choices of the model: log 2 and 20. -/
def Obligations.ReadyOperationsEnd : Prop :=
  ∀ (s : State) (o : Op) (c : Conn),
   (∀ t n, InStage s.dev o c .waiting → o.target = some n → getConn s.dev n = some t →
    (∀ p ∈ s.dev.net.ops, p.stage = .waiting → p.conn = o.conn ∧ p.seq = o.seq) →
    Runs (.waitTimeoutExpiry o.conn o.seq) s fun e => Ended e o c (waitEntry o .waitTimeout t.count) ∧ e.mem = s.dev.mem) ∧
   (InStage s.dev o c .ready → Still s.dev → stampEpoch (nextStamp s.dev.twin) < lastEpoch →
    (∀ t a n, o.desc.op = .read → o.tr1 = some t → a = t.base + o.desc.offset.toNat → n = o.desc.length.toNat → 0 < n → n ≤ 256 →
      c.ident.twinRead = false → (∀ l ∈ spanLines a n, mirrorHeld s.dev l = false) →
      ((spanLines a n).filter fun l => s.dev.dur.poison.contains l || o.failed.contains l) = [] →
      Runs (.read o.conn o.seq []) s fun e => e.mem = s.dev.mem ∧ Ended e o c (doneEntry o.desc 0 n 0) ∧
        (MaySendEntry s.dev o c → ∃ c', getConn e o.conn = some c' ∧ c'.sendq = c.sendq ++ [(some (routeOf c o.seq),
          entryFrame s.dev c (doneEntry o.desc 0 n 0) (some (o.desc.caddr, o.desc.ckey, readBytes s.dev.mem a n)))])) ∧
    (o.desc.op = .nop → Runs (.nop o.conn o.seq) s fun e => e.mem = s.dev.mem ∧ Ended e o c (doneEntry o.desc 0 0 0)) ∧
    (o.desc.op = .health → Runs (.health o.conn o.seq) s fun e =>
      e.mem = s.dev.mem ∧ Ended e o c (doneEntry o.desc 0 0 (lifeOf s.dev))) ∧
    (∀ t, o.desc.op = .wait → getConn s.dev (o.desc.handle2 &&& 0xFFFFF).toNat = some t → t.ident.fold = c.ident.fold →
      t.state ≠ .idle →
      (o.desc.offset2.toNat ≤ t.count → Runs (.wait o.conn o.seq) s fun e => Ended e o c (waitEntry o .done t.count)) ∧
      (t.count < o.desc.offset2.toNat → o.desc.length = 0 → Runs (.wait o.conn o.seq) s fun e =>
        Ended e o c (waitEntry o .waitTimeout t.count)) ∧
      (t.count < o.desc.offset2.toNat → o.desc.length ≠ 0 → Runs (.wait o.conn o.seq) s fun e =>
        findOp e o.conn o.seq = some { o with stage := .waiting, target := some (o.desc.handle2 &&& 0xFFFFF).toNat })) ∧
    (∀ lvl, o.desc.op = .persist → lvl = reported s.dev (levelOfByte o.desc.level c.ident.level) → earlierOps s.dev o = [] →
      (∀ p ∈ c.changed, heldAt s.dev lvl (some p.2) [p.1] = true) → Runs (.persist o.conn o.seq) s fun e =>
        Ended e o c { doneEntry o.desc 0 0 0 with level := lvl }))
/-- The stages of an operation up to its stamp: the turn of a gallery fetches descriptors; a started descriptor is translated, or is a
duplicate and holds its stored entry; the order rule, its pull and its fill let it go on; the budget admits it with its lines
reserved, or its wait ends it BUDGET_EXHAUSTED; a group whose last member does not come is broken up. Choices of the model: log 2
and 20. -/
def Obligations.OperationsPassTheirStages : Prop :=
  ∀ (s : State) (o : Op) (c : Conn),
    (∀ g n b rest, fetchOpen s.dev g = true → fetchOrder s.dev g = (n, b) :: rest → Runs (.descriptorFetch g) s fun e =>
        ∃ c', getConn e n = some c' ∧ c'.f = b.f ∧ asked c' = asked b + batchOf s.dev n b ∧
          (∃ ps, c'.pulls = b.pulls ++ ringPull b b.nextRid b.f (min (batchOf s.dev n b) (2 ^ b.ident.sqLog - b.f.toNat % 2 ^ b.ident.sqLog)) ::
            ps) ∧ c'.state = b.state ∧ getKey e.net.turns g = some n) ∧
    (InStage s.dev o c .fetched → (∀ p ∈ earlierOps s.dev o, p.stage ≠ .fetched) →
      (∀ r, isExecuted c o.seq = true → stored c o.seq = some r → Becomes (.descriptorStart o.conn o.seq) s
        (setOp s.dev { o with stage := .holding, done := some (dupEntry r r.level) })) ∧
      (∀ o1 d2 o2, isExecuted c o.seq = false → (∀ b ∈ s.dev.net.badTail, b.1 ≠ o.conn) → (∀ g ∈ s.dev.net.groups, g.conn ≠ o.conn) →
        o.desc.inGroup = false → layoutOf o.desc = none → (∀ n, o.desc.op ≠ .undef n) → o.desc.op ≠ .regRead → o.desc.op ≠ .regWrite →
        o1 = { o with group := none, last := true, stage := .ordering } →
        translateOp (setOp s.dev o1) o1 c.ident.fold [] = (d2, .ok o2) →
        Becomes (.descriptorStart o.conn o.seq) s (setOp d2 o2))) ∧
    (InStage s.dev o c .ordering → ∀ st, st = (if pullsData o.desc then .pulling else if usesHandle o.desc.op then .filling else .ready) →
      (o.desc.fence = false → orderOk s.dev o = true → Runs (.orderWaitRelease o.conn o.seq) s fun e =>
        findOp e o.conn o.seq = some { o with stage := st }) ∧
      (o.desc.fence = true → fenceOk s.dev o = true → Runs (.fenceRelease o.conn o.seq) s fun e =>
        findOp e o.conn o.seq = some { o with stage := st })) ∧
    (InStage s.dev o c .pulling → o.desc.length.toNat ≤ o.dataGot → Becomes (.dataPullComplete o.conn o.seq none) s
      (setOp s.dev { o with stage := .filling })) ∧
    (InStage s.dev o c .filling → mutating o.desc = false → (∀ l ∈ filledLines s.dev o, leafGone s.dev (l / 64) = false) →
      Runs (.lineFillComplete o.conn o.seq []) s fun e =>
      findOp e o.conn o.seq = some { o with stage := .ready } ∧ e.mem = s.dev.mem) ∧
    (InStage s.dev o c .budget → Quiet s.dev → (∀ p ∈ s.dev.net.ops, p.stage = .budget → p = o) →
      admits s.dev (budgetLines s.dev o).length = true → Runs .budgetAdmission s fun e => findOp e o.conn o.seq =
        some { o with stage := .stamp, admitted := some (budgetLines s.dev o), lines := budgetLines s.dev o }) ∧
    (∀ st, InStage s.dev o c st → (st = .budget ∨ st = .stamp) → (∀ p ∈ s.dev.net.ops, p.stage ≠ .waiting) →
      Runs (.admitWaitExpiry o.conn o.seq) s fun e => Ended e o c (endEntry o.desc .budgetExhausted 0)) ∧
    (∀ n first b, getConn s.dev n = some b → (∃ g ∈ s.dev.net.groups, g.conn = n ∧ g.first = first) → b.f = b.sqTail →
      (∀ p ∈ opsOf s.dev n, p.stage ≠ .fetched) → Runs (.groupAssemblyTimeout n first) s fun e =>
        (∀ g ∈ e.net.groups, g.conn ≠ n) ∧ ∀ p ∈ membersOf s.dev n first, findOp e n p.seq = none)

/-- At its stamp an operation takes the unit's next stamp and executes; its entry leaves when its level is reached; a shared leaf that
it will change is copied first, and a turn of the datapath clears the next part of a running WRITE_ZERO, at most 64 KiB that end at a
line of its span. Choices of the model: log 20. -/
def Obligations.OperationsTakeStampsAndComplete : Prop :=
  ∀ (s : State) (o : Op) (c : Conn),
    (AtStamp s.dev o c → Quiet s.dev → Runs (.orderStamp o.conn o.seq none) s fun e => ∃ o', findOp e o.conn o.seq = some o' ∧
      o'.stamp = some (nextStamp s.dev.twin) ∧ o'.done.isSome = true ∧
      (o'.stage = .holding ∨ o'.stage = .running)) ∧
    (∀ r, InStage s.dev o c .holding → o.done = some r → levelReached s.dev c o r = true → r.status ≠ .doneDuplicate →
      c.ident.level ≠ .media → (∀ p ∈ s.dev.net.ops, p.stage ≠ .waiting) → Runs (.completionLevelReached o.conn o.seq) s fun e =>
        Ended e o c (withLevel s.dev c o r) ∧ e.mem = s.dev.mem) ∧
    (∀ leaf, InStage s.dev o c .stamp → (cowLeaves s.dev o.lines).contains leaf = true → Runs (.cowLeafCopy o.conn o.seq leaf) s fun e =>
      e.mem = s.dev.mem ∧ e.folds = (ownLeaf s.dev leaf).folds ∧ findOp e o.conn o.seq =
        some { o with admitted := o.admitted.map fun l => dropNums l (List.range' (leaf * 64) 64) ++
          (l.filter fun x => x / 64 = leaf && o.lines.contains x) }) ∧
    (∀ g t a n, InStage s.dev o c .running → nextCow s.dev g = none → (onDatapath s.dev g)[(getKey s.dev.net.dpTurns g).getD 0 % max 1 (onDatapath s.dev g).length]? =
        some o → o.desc.op = .writeZero → o.tr1 = some t → a = t.base + o.desc.offset.toNat + o.chunk → n = chunkEnd o - o.chunk →
        Runs (.datapathChunk g) s fun e =>
          (∀ x, readByte e.mem x = if a ≤ x ∧ x < a + n then 0 else readByte s.dev.mem x) ∧
          ∃ o', findOp e o.conn o.seq = some o' ∧ o'.chunk = chunkEnd o)

/-- A connection is told to drain or to abort by command, is released, and asked for; one whose work has ended is disabled. A
credential is stored and taken away, and its key register then reads zero. Choices of the model: log 3 and 19. -/
def Obligations.ConnectionsAreTakenDown : Prop :=
  ∀ (s : State) (p : Principal) (n : Nat),
    (Open s.dev p 0x401000 → s.dev.folds.connBusy = false → Runs (.connQuery p n) s fun e => e.folds.connNamed = n ∧
      e.folds.connResult = (if (getConn s.dev n).isNone then 2 else 0) ∧ e.net = s.dev.net) ∧
    (∀ c, Open s.dev p 0x401000 → s.dev.folds.connBusy = false → serving s.dev = true → s.dev.twin.refusing = false →
      getConn s.dev n = some c →
      (c.state = .active → ctrlReady s.dev (.connChange n (.quiesce false 2 .abortedDisabled)) = true →
        Runs (.disableDrain p n) s fun e => ∃ c', getConn e n = some c' ∧ c'.state = .quiescing ∧ c'.abort = false ∧ c'.reason = 2) ∧
      (c.state = .active → ctrlReady s.dev (.connChange n (.quiesce true 2 .abortedDisabled)) = true →
        Runs (.disableAbort p n) s fun e => ∃ c', getConn e n = some c' ∧ c'.state = .quiescing ∧ c'.abort = true ∧ c'.reason = 2) ∧
      (c.state = .disabled ∨ c.state = .error → ctrlReady s.dev (.connChange n .free) = true → Runs (.connRelease p n) s fun e =>
        getConn e n = none)) ∧
    (∀ c, serving s.dev = true → getConn s.dev n = some c → c.state = .quiescing → quiesced s.dev n c = true →
      s.dev.rst.freeAfter.contains n = false → Runs (.quiesceComplete n) s fun e => ∃ c', getConn e n = some c' ∧
        c'.state = .disabled ∧ c'.discSent = true) ∧
    (Open s.dev p 0x402000 → p ≠ .i3c → streamRefused s.dev = none →
      (∀ mgmt lo, ctrlReady s.dev (.enrol n (newCred s.dev mgmt lo)) = true → Runs (.enrol p n mgmt lo) s fun e =>
        getKey e.folds.creds n = some (newCred s.dev mgmt lo) ∧ ∀ i, i < 8 → reg e (0x402010 + 4 * i) = 0) ∧
      (ctrlReady s.dev (.credRevoke n) = true → Runs (.credRevoke p n) s fun e =>
        getKey e.folds.creds n = none ∧ ∀ i, i < 8 → reg e (0x402010 + 4 * i) = 0))

/-! ## The twin link -/

/-- A standby applies each record of the stream as it comes: an OP executes at its stamp, a GROUP whole, a CTRL changes the control
state, an END and a LEAF set what they carry, an INDEX moves the indices, an RDATA is pushed, a LEVEL lets entries go. Choices of
the model: log 20 and 22. -/
def Obligations.StandbyAppliesTheStream : Prop :=
  ∀ (s : State) (n : Nat) (c : Conn), getConn s.dev n = some c →
    (∀ st gen m t a, Follows s.dev (.op st n gen m) → st = nextStamp s.dev.twin → m.desc.op = .write →
      (opOf s.dev n c.ident.fold gen m).tr1 = some t → a = t.base + m.desc.offset.toNat → s.dev.twin.repairs = [] →
      s.dev.twin.ownBad = [] → firstIn a m.desc.length.toNat (poisonIn s.dev (partLines a m.desc.length.toNat)) = none →
      Runs (.opRec st n gen m) s fun e => e.mem = writeBytes s.dev.mem a m.data ∧ e.twin.lastStamp = st ∧
        ∃ c' r, getConn e n = some c' ∧ stored c' m.desc.seq = some r ∧ r.status = .done) ∧
    (∀ st gen ms b rs, Follows s.dev (.group st n gen ms) → st = nextStamp s.dev.twin → s.dev.twin.repairs = [] → s.dev.twin.ownBad = [] →
      runMembers c.ident.fold st 0 (applied s.dev st) ((ms.map fun m => opOf s.dev n c.ident.fold gen m).map fun o =>
        (o.desc, o.tr1, o.tr2, o.data)) [] = .ok (b, rs) →
      Runs (.groupRec st n gen ms) s fun e => e.mem = b.mem ∧ e.twin.lastStamp = st) ∧
    (∀ st id cr, Follows s.dev (.ctrl st (.enrol id cr)) → st = nextStamp s.dev.twin → Runs (.ctrlRec st (.enrol id cr)) s fun e =>
      getKey e.folds.creds id = some cr ∧ e.twin.lastStamp = st) ∧
    (∀ r, Follows s.dev (.ended (nextStamp s.dev.twin) n r) → r.status ≠ .doneDuplicate → isExecuted c r.seq = false →
      Runs (.endRec (nextStamp s.dev.twin) n r) s fun e => ∃ c', getConn e n = some c' ∧ stored c' r.seq = some r ∧
        c'.count = (c.count + 1) % 2 ^ 64) ∧
    (∀ t a h0 h1, Follows s.dev (.index n t a h0 h1) → Runs (.indexRec n t a h0 h1) s fun e => ∃ c', getConn e n = some c' ∧
      c'.sqTail = (if later t c.sqTail then t else c.sqTail) ∧ c'.ackSeq = (if later a c.ackSeq then a else c.ackSeq) ∧
      c'.cqHead0 = (if later h0 c.cqHead0 then h0 else c.cqHead0) ∧ c'.cqHead1 = (if later h1 c.cqHead1 then h1 else c.cqHead1)) ∧
    (∀ seq off a k bs, Follows s.dev (.rdata n seq off a k bs) → c.ident.twinRead = true → maySend c = true →
      Runs (.rdataRec n seq off a k bs) s fun e => ∃ c', getConn e n = some c' ∧
        c'.sendq = c.sendq ++ [(some (routeOf c seq), .push (some seq) a k bs none)]) ∧
    (∀ st sts r, Follows s.dev (.level sts) → s.dev.twin.levelDue = [(st, n, r)] → sts.contains st = true → maySend c = true →
      Runs (.levelRec sts) s fun e => e.twin.levelDue = [] ∧ ∃ c', getConn e n = some c' ∧
        c'.sendq = c.sendq ++ [(some (routeOf c r.seq), entryFrame s.dev c r none)]) ∧
    (∀ pa w bs, Follows s.dev (.leaf pa w bs [] []) → pa < ctlBase s.dev.folds → Runs (.leafRec pa w bs [] []) s fun e =>
      e.mem = writeBytes (zeroBytes s.dev.mem (pa / 4096 * 4096) 4096) (pa / 4096 * 4096) (bs.take 4096) ∧
      e.twin.repairs = s.dev.twin.repairs.filter fun r => r.1 ≠ pa / 4096)

/-- Across the link the units hand over, merge their divergence sets, relay register accesses, lift mirror holds, repair leaves, ask
for the joiner's admission and end the pairing; a standby without its repair is fenced, one without room says so, and the serving
unit sends the next leaf of the resync set. Choices of the model: log 7 and 22. -/
def Obligations.UnitsTalkOverTheLink : Prop :=
  ∀ (s : State),
    (Linked s.dev .standby → Runs .handover s fun e =>
      (e.twin.claiming = some .handover ∨ e.twin.claiming = some .takeover) ∧ e.twin.st = .standby ∧ e.mem = s.dev.mem) ∧
    (∀ n ls, Linked s.dev .unpaired → s.dev.twin.source = true → Runs (.resyncSet n ls false false) s fun e =>
      e.twin.u = addNums (addNums s.dev.twin.u ls) s.dev.twin.diverge.leaves ∧
      e.twin.uFull = (s.dev.twin.uFull || s.dev.twin.diverge.full) ∧ e.mem = s.dev.mem) ∧
    (∀ st a w v d1 r n x, Linked s.dev st → accessHere relayed a w v s.dev = (d1, r, n, x) → d1.twin.linkUp = true →
      LinkFree d1 → Runs (.regReq a w v) s fun e =>
        e.twin.txq = d1.twin.txq ++ [(d1.twin.lsnTx, [wholeRec d1 (.regRsp a r (BitVec.ofNat 32 n) x)])] ∧ e.mem = d1.mem) ∧
    (∀ st a r n v o c (q : Relay) rest, Linked s.dev st → s.dev.twin.relays = q :: rest → findOp s.dev q.conn q.seq = some o →
      getConn s.dev o.conn = some c → (∀ p ∈ s.dev.net.ops, p.stage ≠ .waiting) → r ≠ .doneDuplicate → Runs (.regRsp a r n v) s fun e =>
        e.twin.relays = rest ∧ Ended e o c (if r = .done then doneEntry o.desc 0 0 (if o.desc.op = .regRead then v.toNat else 0)
          else endEntry o.desc r n.toNat)) ∧
    (∀ st, Linked s.dev .active → s.dev.net.ops = [] → Runs (.fin st) s fun e =>
      e.twin.finWait = s.dev.twin.finWait.filter fun x => x ≠ st) ∧
    (∀ st pa, Linked s.dev .active → s.dev.twin.touched = [] → LinkFree s.dev → pa / 4096 * 4096 < ctlBase s.dev.folds →
      Runs (.repair st pa) s fun e => e.mem = s.dev.mem ∧ e.twin.txq = s.dev.twin.txq ++ [(s.dev.twin.lsnTx,
        [wholeRec s.dev (.leaf (pa / 4096 * 4096) (poisonBits s.dev (pa / 4096)) (readBytes s.dev.mem (pa / 4096 * 4096) 4096) [] [])])]) ∧
    (Linked s.dev .unpaired → s.dev.twin.resyncing = true → s.dev.twin.u = [] → s.dev.twin.uFull = false → s.dev.twin.unproved = [] →
      Runs .ready s fun e => e.twin.reqs = asks s.dev .admitTwin 0 ∧ e.mem = s.dev.mem) ∧
    (∀ n, Linked s.dev .active → Runs (.leave n) s fun e => e.twin.reqs = asks s.dev .drop 0 ∧ e.mem = s.dev.mem) ∧
    (∀ l, Linked s.dev .active → Becomes (.ports l) s (s.dev.modTwin fun t => { t with ports := l })) ∧
    (∀ pa, s.dev.twin.st = .standby → (∃ r ∈ s.dev.twin.repairs, r.1 = pa / 4096) → Runs (.repairTimeout pa) s fun e =>
      e.twin.st = .fenced ∧ e.twin.repairs = [] ∧ e.twin.diverge.active = true ∧ e.mem = s.dev.mem) ∧
    (∀ r rest, s.dev.twin.st = .standby → s.dev.twin.held = r :: rest → recFits s.dev r = false →
      Becomes .standbyBudgetWait s (raiseOp s.dev 0x0109 srcPWR [])) ∧
    (∀ l rest, serving s.dev = true → s.dev.twin.resyncing = true → s.dev.twin.linkUp = true → s.dev.twin.uFull = false →
      s.dev.twin.u = l :: rest → LinkFree s.dev → l * 4096 < ctlBase s.dev.folds → Runs .resyncLeafSend s fun e =>
        e.twin.u = rest.filter (fun x => x ≠ l) ∧ e.twin.txq = s.dev.twin.txq ++ [(s.dev.twin.lsnTx,
          [wholeRec s.dev (.leaf (l * 4096) (poisonBits s.dev l) (readBytes s.dev.mem (l * 4096) 4096) [] [])])])

/-- A good frame's sequence number is taken and its acknowledgements lift holds; a HELLO keeps what the peer says and gives the link its
key, and one with a bad MAC or pair identity is turned away; frames not acknowledged are sent again in order, an idle link sends
LINK_ACK, and silence or the loss of block lock takes the link down; a new link draws its NONCE and says HELLO. Choices of the model:
log 2 and 22. -/
def Obligations.LinkFramesAreTaken : Prop :=
  ∀ (s : State),
    (∀ h : TwlHdr, s.dev.twin.ident.isSome = true → s.dev.twin.linkUp = true → FrameOk s.dev h → serving s.dev = false →
      s.dev.twin.waitq = [] →
      Runs (.linkAck h) s (fun e => e.twin.peerEcho = h.peer ∧ e.twin.hbTwl = 0 ∧ e.mem = s.dev.mem ∧
        (∀ f ∈ e.twin.txq, f ∈ s.dev.twin.txq ∧ ¬((0 < (h.lack + 2 ^ 32 - f.1) % 2 ^ 32) ∧ (h.lack + 2 ^ 32 - f.1) % 2 ^ 32 < 2 ^ 31))) ∧
      (∀ fs, h.lsn ≠ s.dev.twin.lsnRx → Runs (.twlRecordsFrame h fs false) s fun e =>
        e.twin.lsnRx = s.dev.twin.lsnRx ∧ e.twin.peerEcho = h.peer ∧ e.mem = s.dev.mem)) ∧
    (∀ h l f, Linked s.dev .active → FrameOk s.dev h → h.peer ≤ s.dev.twin.peerStamp → s.dev.twin.waitq = [] →
      s.dev.twin.part = none → h.lsn = s.dev.twin.lsnRx → f = wholeRec s.dev (.ports l) →
      Runs (.twlRecordsFrame h [f] false) s fun e =>
        e.twin.lsnRx = (s.dev.twin.lsnRx + 1) % 2 ^ 32 ∧ e.twin.ports = l ∧ e.mem = s.dev.mem) ∧
    (∀ m i, s.dev.twin.ident = some i → s.dev.twin.linkUp = true →
      (m.mac ≠ helloMac i.secret m ∨ m.pairId ≠ i.pairId → Becomes (.hello m) s (raiseOp s.dev 0x0403 srcTWN [1])) ∧
      (m.mac = helloMac i.secret m → m.pairId = i.pairId → m.hdrOk = true → m.rsv = 0 → s.dev.twin.st = .joining →
        s.dev.upd.rejoin = false → s.dev.twin.readySent = false → s.dev.twin.waitq = [] →
        Runs (.hello m) s fun e => e.twin.peer = some m ∧ e.twin.dt = timeDiff s.dev m ∧ e.twin.st = .joining ∧ e.mem = s.dev.mem ∧
          ((∀ o, s.dev.twin.peer = some o → o.nonce ≠ m.nonce) → e.twin.txc = 1 ∧ e.twin.linkKey = linkKeyOf e) ∧
          (∀ o, s.dev.twin.peer = some o → o.nonce = m.nonce → e.twin.txc = s.dev.twin.txc ∧ e.twin.linkKey = s.dev.twin.linkKey))) ∧
    (∀ f, linkReady s.dev = true → s.dev.twin.txq = [f] → Becomes .twlRetransmitTimeout s
      (emit (s.dev.modTwin fun t => { t with txc := t.txc + 1 }) (.twl f.1 s.dev.twin.lsnRx s.dev.twin.txc (ownPeer s.dev) f.2))) ∧
    (linkReady s.dev = true → Becomes .twlIdleSend s
      (emit (s.dev.modTwin fun t => { t with txc := t.txc + 1 }) (.linkAck s.dev.twin.lsnRx s.dev.twin.txc (ownPeer s.dev)))) ∧
    (s.dev.twin.linkUp = true → s.dev.twin.relays = [] → Runs .twlRxSilence s (fun e =>
        e.twin = { s.dev.twin with linkUp := false } ∧ e.mem = s.dev.mem) ∧
      Runs .twlBlockLockLoss s (fun e => e.twin = { s.dev.twin with linkUp := false, blockLock := false } ∧ e.mem = s.dev.mem)) ∧
    (∀ i rtt, s.dev.twin.linkUp = false → s.dev.twin.ident = some i → s.dev.sec.secrets = true → s.dev.twin.txq = [] →
      s.dev.twin.waitq = [] → paired s.dev = true → Runs (.twlLinkUp rtt) s fun e => e.twin.linkUp = true ∧ e.twin.rtt = rtt ∧
        e.twin.txc = 1 ∧ e.twin.linkKey = linkKeyOf e ∧ e.mem = s.dev.mem ∧
        ∃ m rest, e.sent = .hello m :: rest ∧ m.nonce = e.twin.nonce ∧ m.pairId = i.pairId)

/-! ## The lease and the pair's commands -/

/-- A serving unit renews its lease and a standby whose link is down claims it; GRANT extends the lease or makes a claimant serve from
the epoch it assigns, DENY with reason 0x02 fences a standby, DONE to ADMIT makes the unit ACTIVE, and an answer that does not
come is given up. A lease that ends fences the unit; the waits, heartbeats, HELLOs and the drain of a swap act as their timers
say. Choices of the model: log 2, 4 and 22. -/
def Obligations.TheLeaseIsKept : Prop :=
  ∀ (s : State) (i : PairIdent), s.dev.twin.ident = some i →
    (serving s.dev = true → s.dev.twin.override = false → Runs .renewInterval s fun e => e.mem = s.dev.mem ∧
      e.twin.reqs = asks s.dev .renew (epochNow s.dev.twin + 1)) ∧
    (s.dev.twin.st = .standby → s.dev.twin.linkUp = false → s.dev.twin.claiming = none → Runs .claimInterval s fun e =>
      e.twin.claiming = none ∧ e.twin.reqs = asks s.dev .claim 0) ∧
    (∀ a ts ep, Answers s.dev a .renew ts ep → Quiet s.dev → Runs (.witnessGrant a) s fun e =>
      e.twin.leaseEnd = some (leaseOf s.dev a ts) ∧ e.twin.ceil = max s.dev.twin.ceil ep ∧ e.twin.witOk = true ∧
      e.twin.reqs = s.dev.twin.reqs.filter fun q => q.2.1 ≠ a.wseq) ∧
    (∀ a ts ep, Answers s.dev a .claim ts ep → serving s.dev = false → s.dev.twin.claiming = some .handover →
      Runs (.witnessGrant a) s fun e => e.twin.st = .active ∧ e.twin.leaseEnd = some (leaseOf s.dev a ts) ∧
        e.twin.ceil = a.epoch + 1 ∧ e.twin.nextAt = some (mkStamp s.dev.twin.rseed a.epoch 0) ∧ e.mem = s.dev.mem) ∧
    (∀ a ts ep, Answers s.dev a .claim ts ep → a.reason = 2 → s.dev.twin.st = .standby → Runs (.witnessDeny a) s fun e =>
      e.twin.st = .fenced ∧ e.twin.claiming = none ∧ e.mem = s.dev.mem) ∧
    (∀ a ts ep, Answers s.dev a .admitTwin ts ep → s.dev.twin.st = .unpaired → s.dev.twin.resyncing = true →
      s.dev.twin.phase ≠ .yieldAdmit → Runs (.witnessDone a) s fun e =>
        e.twin.st = .active ∧ e.twin.resyncing = false ∧ e.twin.override = false ∧ e.twin.diverge.active = false ∧ e.mem = s.dev.mem) ∧
    (s.dev.twin.reqs ≠ [] → Becomes .witnessAnswerLate s
      (raiseOp (s.dev.modTwin fun t => { t with reqs := t.reqs.drop 1, witOk := false }) 0x0405 srcTWN [])) ∧
    (serving s.dev = true → s.dev.twin.override = false → Idle s.dev → Runs .leaseEnd s fun e =>
      e.twin.st = .fenced ∧ e.twin.leaseEnd = none ∧ e.mem = s.dev.mem) ∧
    (s.dev.twin.st = .active → s.dev.twin.linkUp = false → Runs .linkWaitExpiry s fun e => e.twin.reqs = asks s.dev .drop 0) ∧
    (s.dev.twin.st = .fenced → fitToServe s.dev = true → Becomes .soloWaitExpiry s
      (s.dev.modTwin fun t => { t with claiming := some .start })) ∧
    (s.dev.sec.secrets = true → paired s.dev = false → s.dev.twin.hbTwl < 4 → s.dev.twin.hbMgt < 4 → Runs .heartbeatSend s fun e =>
      e.sent = .heartbeat (witBytes i i.secret 0x10 s.dev.twin.wseq 0 (s.dev.twin.rseed % 65536) 0 s.dev.twin.lastStamp) ::
        (if linkReady s.dev then [.linkAck s.dev.twin.lsnRx s.dev.twin.txc (ownPeer s.dev)] else []) ++ s.dev.sent ∧
      e.twin.hbTwl = s.dev.twin.hbTwl + 1 ∧ e.twin.hbMgt = s.dev.twin.hbMgt + 1) ∧
    (∀ link, Runs (.heartbeat link true true) s fun e => (if link then e.twin.hbTwl else e.twin.hbMgt) = 0 ∧ e.mem = s.dev.mem ∧
      e.twin.claiming = if s.dev.twin.claiming = some .start ∧ s.dev.twin.source = false then none else s.dev.twin.claiming) ∧
    (paired s.dev = true → s.dev.twin.linkUp = true → Becomes .helloInterval s (emit s.dev (.hello (ownHello s.dev i)))) ∧
    (s.dev.twin.phase = .swapDrain → s.dev.twin.st = .active → s.dev.twin.lastStamp ≤ s.dev.twin.peerStamp →
      s.dev.twin.finWait = [] → Runs .swapDrainDone s fun e => e.twin.phase = .swapRelease ∧
        e.twin.reqs = asks s.dev .release 0) ∧
    (s.dev.twin.st = .standby → s.dev.twin.phase = .swapHandover → Becomes .handoverClaimTimeout s
      (s.dev.modTwin fun t => { t with claiming := some .handover }))

/-- The commands of TWN_CMD: RESEED drains and then starts a reseed generation, FORCE_UNPAIRED and CLEAR_OVERRIDE set and clear the
override, TEST sets the heartbeat test, the update window opens and closes by a stamped record, and PROVISION stages an identity;
each clears the key staging registers. Choices of the model: log 22 and 23. -/
def Obligations.TwinCommandsRun : Prop :=
  ∀ (s : State) (p : Principal),
    (TwnReady s.dev p →
      (s.dev.twin.phase = .none → s.dev.twin.st = .active → Runs (.reseed p 0x7A3C) s fun e =>
        e.twin.phase = .reseedDrain ∧ e.twin.lastCmd = .running ∧ StagingClear e) ∧
      (s.dev.twin.ident.isSome = true → s.dev.twin.st = .fenced → fitToServe s.dev = true → Runs (.forceUnpaired p 0x7A3C) s fun e =>
        e.twin.st = .unpaired ∧ e.twin.override = true ∧ e.twin.lastCmd = .done ∧ StagingClear e ∧ e.mem = s.dev.mem) ∧
      (s.dev.twin.override = true → Idle s.dev → Runs (.clearOverride p) s fun e =>
        e.twin.st = .fenced ∧ e.twin.override = false ∧ e.twin.lastCmd = .done ∧ e.twin.linkKey = linkKeyOf e ∧ StagingClear e) ∧
      (s.dev.twin.phase = .none → s.dev.twin.st = .active → Runs (.twnCmdSwap p) s fun e => e.twin.phase = .swapDrain ∧
        e.twin.lastCmd = .running ∧ e.twin.st = .active ∧ StagingClear e ∧ e.mem = s.dev.mem) ∧
      Runs (.testOn p) s (fun e => e.twin = { s.dev.twin with test := true, lastCmd := .done } ∧ StagingClear e ∧ e.mem = s.dev.mem) ∧
      Runs (.testOff p) s (fun e => e.twin = { s.dev.twin with test := false, lastCmd := .done } ∧ StagingClear e ∧ e.mem = s.dev.mem) ∧
      (serving s.dev = true → s.dev.twin.refusing = false →
        (ctrlReady s.dev (.window true (regBits s.dev 0x90024 31 24)) = true → Runs (.openWindow p) s fun e =>
          e.upd.window = true ∧ e.upd.hours = regBits s.dev 0x90024 31 24 ∧ StagingClear e ∧ e.mem = s.dev.mem) ∧
        (ctrlReady s.dev (.window false (regBits s.dev 0x90024 31 24)) = true → Runs (.closeWindow p) s fun e =>
          e.upd.window = false ∧ e.upd.hours = 0 ∧ StagingClear e ∧ e.mem = s.dev.mem)) ∧
      (s.dev.twin.st = .fenced → (stagedIdent s.dev).pairId ≠ 0 → (stagedIdent s.dev).node ≠ (stagedIdent s.dev).twin →
        s.dev.sec.wk.isSome = true → s.dev.ldg.cfg.full = false → Runs (.provision p) s fun e =>
          e.twin.identNext = some (stagedIdent s.dev) ∧ e.twin.lastCmd = .done ∧ StagingClear e ∧ e.mem = s.dev.mem)) ∧
    (s.dev.twin.phase = .reseedDrain → s.dev.twin.st = .unpaired → Quiet s.dev → Runs .reseedDrainDone s fun e =>
      e.twin.rseed = s.dev.twin.rseed + 1 ∧ e.twin.nextAt = some (mkStamp (s.dev.twin.rseed + 1) 0 0) ∧ e.twin.phase = .none ∧
      e.twin.refusing = false ∧ e.twin.lastCmd = .done) ∧
    Becomes .windowExpiry s (s.dev.modUpd fun u => { u with window := false, hours := 0 })

/-! ## Hold-up energy and the save -/

/-- HOLD_V samples scale by the gain and are averaged over the last ten; the shunt's charge is added to the accumulator, which is set
to C times V when the bank is full and still; a window in which the estimates agree clears the mismatch count and one in which
they do not counts it; a discharge test is scheduled, starts, measures the capacitance at its floor, or ends without a result.
Choices of the model: log 2, 4 and 30. -/
def Obligations.EnergyIsMeasured : Prop :=
  ∀ (s : State),
    (∀ raw, Runs (.holdVSample raw) s fun e => e.dur.holdV = raw.toNat * regBits s.dev 0x30068 15 0 / 16384 ∧
      e.dur.samples.length ≤ 10 ∧ e.dur.samples.getLast? = some e.dur.holdV ∧ e.dur.acc = s.dev.dur.acc ∧ e.mem = s.dev.mem) ∧
    (∀ (raw : BitVec 16) (r : Nat) (q : Int), r = regBits s.dev 0x3006C 15 0 → r ≠ 0 → q = (raw.toInt * 1000000000).tdiv (32768 * (r : Int)) →
      s.dev.dur.acc + q < 2 ^ 47 → -2 ^ 47 ≤ s.dev.dur.acc + q → Runs (.shuntSample raw) s fun e =>
        e.dur.acc = s.dev.dur.acc + q ∧ e.dur.testQ = s.dev.dur.testQ + q ∧ e.pwr.holdI = q / 10 ∧ e.dur.cntValid = s.dev.dur.cntValid) ∧
    (s.dev.dur.cntValid = false → bankSet s.dev = true → s.dev.dur.test = .idle → vFull s.dev * 99 ≤ s.dev.dur.holdV * 100 →
      s.dev.dur.holdV * 100 ≤ vFull s.dev * 101 → s.dev.pwr.holdI.natAbs < 500 → s.dev.dur.countSat = false →
      Becomes .accumulatorAnchor s (s.dev.modDur fun u =>
        { u with acc := ((capOf s.dev * s.dev.dur.holdV * 1000 : Nat) : Int), cntValid := true })) ∧
    (∀ a b : Rat, a = eCount s.dev → b = eVolt s.dev → s.dev.dur.cntValid = true →
      ((if a ≤ b then b - a else a - b) * 100 ≤ ((regBits s.dev 0x3020C 13 8 : Nat) : Rat) * max a b →
        Becomes .mismatchWindowEnd s (s.dev.modDur fun u => { u with mismatch := 0 })) ∧
      (¬(if a ≤ b then b - a else a - b) * 100 ≤ ((regBits s.dev 0x3020C 13 8 : Nat) : Rat) * max a b → s.dev.dur.mismatch < 2 →
        Runs .mismatchWindowEnd s fun e => e.dur.mismatch = s.dev.dur.mismatch + 1 ∧ e.dur.test = s.dev.dur.test)) ∧
    (∀ p, Open s.dev p 0x3021C → s.dev.dur.test = .idle → Runs (.dischargeTest p) s fun e =>
      e.dur = { s.dev.dur with test := .scheduled } ∧ e.mem = s.dev.mem) ∧
    (s.dev.dur.test = .scheduled → s.dev.dur.mainOk = true → s.dev.dur.save = .idle → vFull s.dev * 98 ≤ s.dev.dur.holdV * 100 →
      s.dev.dur.dirty.length * 64 ≤ budgetFor s.dev (eTest s.dev) → Quiet s.dev → Runs .dischargeTestStart s fun e =>
        e.dur.test = .running ∧ e.dur.testQ = 0 ∧ e.dur.testV = s.dev.dur.holdV ∧ e.pwr.en.getLsbD 14 = false ∧
        e.pwr.en.getLsbD 15 = true) ∧
    (∀ c, s.dev.dur.test = .running → s.dev.dur.holdV * 100 ≤ vFull s.dev * 85 → s.dev.dur.holdV < s.dev.dur.testV →
      c = (-s.dev.dur.testQ).toNat / ((s.dev.dur.testV - s.dev.dur.holdV) * 1000) → Runs .dischargeTestFloor s fun e =>
        e.dur.test = .idle ∧ e.dur.cntValid = true ∧ e.dur.acc = ((c * s.dev.dur.holdV * 1000 : Nat) : Int) ∧
        (∃ r, e.ldg.calA = some r ∧ e.ldg.calB = some r ∧ r.cMeas = c) ∧ e.pwr.en.getLsbD 15 = false) ∧
    (s.dev.dur.test = .running → Runs .dischargeTestTimeout s fun e => e.dur = { s.dev.dur with test := .idle } ∧
      e.ldg = s.dev.ldg ∧ e.pwr.en.getLsbD 15 = false) ∧
    (s.dev.dur.budget < s.dev.dur.dirty.length * 64 → Becomes .dirtyOverBudget s
      (raise s.dev 0x0103 srcPWR (valuesPayload []) s.dev.folds.live))

/-- A fall of MAIN_OK starts a save and stops serving; its return during a save is held. When the stamped work is done the image takes
a slot with every dirty line's bytes; the image's end marks it SAVED and begins the power-down, the hold-up limit leaves it
SAVING; a save goes on after a warm reset; a drained image frees its slot; ACCEPT_LOSS lets a unit without a pair serve. Choices
of the model: log 2 and 24. -/
def Obligations.PowerLossSaves : Prop :=
  ∀ (s : State),
    (s.dev.pwr.pwron = true → s.dev.pwr.st = .on → s.dev.pwr.served = true → s.dev.sec.zeroing = false →
      (s.dev.twin.st = .fenced ∨ (serving s.dev = true ∧ Idle s.dev)) → Runs .mainOkFall s fun e =>
        e.dur.mainOk = false ∧ e.dur.save = .draining ∧ e.pwr.st = .saving ∧ e.pwr.cause = .mainOk ∧ e.twin.st = .fenced ∧
        e.pwr.en.getLsbD 14 = false ∧ e.mem = s.dev.mem) ∧
    (s.dev.pwr.pwron = true → s.dev.pwr.cause = .mainOk → s.dev.pwr.st = .saving → Runs .mainOkRise s fun e =>
      e.dur.mainOk = true ∧ e.pwr.onHeld = true ∧ e.pwr.st = .saving ∧ e.dur.save = s.dev.dur.save) ∧
    (∀ k x, s.dev.dur.save = .draining → s.dev.ftl.progs = [] → s.dev.net.ops = [] → noImage s.dev = false →
      freeSlot s.dev = some k → s.dev.rst.warm = .none → s.dev.dur.slots[k]? = some x → Runs .saveStampedWorkDone s fun e =>
        e.dur.save = .image ∧ e.dur.saveSlot = some k ∧ e.dur.cursor = 0 ∧ e.mem = s.dev.mem ∧
        ∃ y im, e.dur.slots[k]? = some y ∧ y.st = .saving ∧ y.image = some im ∧ im.trailer = false ∧
          im.lines = s.dev.dur.dirty.map fun l => (l, readBytes s.dev.mem (l * 64) 64)) ∧
    (s.dev.dur.linkHeld = true → s.dev.twin.linkUp = true → s.dev.twin.relays = [] → Runs .saveLinkDrainEnd s fun e =>
      e.twin.linkUp = false ∧ e.dur = { s.dev.dur with linkHeld := false } ∧ e.mem = s.dev.mem) ∧
    (imaging s.dev = true → Runs .saveImageProgram s fun e => e.dur = { s.dev.dur with cursor := s.dev.dur.cursor + 1 } ∧
      e.ldg.ring.next = s.dev.ldg.ring.next + 1 ∧ e.mem = s.dev.mem ∧ e.ftl = s.dev.ftl) ∧
    (∀ w n k x, imaging s.dev = true → s.dev.dur.saveSlot = some k → s.dev.dur.slots[k]? = some x → Runs (.saveImageDone w n) s fun e =>
      e.dur.save = .down ∧ e.dur.pLast = w ∧ e.dur.lastMs = min n 0xFFFF ∧ e.ldg.dirty = false ∧ e.pwr.st = .rampDown ∧
      e.dur.slots[k]? = some { x with st := .live, image := x.image.map fun im => { im with trailer := true } }) ∧
    (s.dev.pwr.st = .saving → s.dev.dur.save = .image → s.dev.dur.holdV * 100 ≤ vMin s.dev * 105 → Runs .holdUpLimit s fun e =>
      e.dur = { s.dev.dur with save := .down } ∧ e.pwr.st = .rampDown ∧ e.pwr.cause = .holdLimit ∧ e.ldg.dirty = s.dev.ldg.dirty) ∧
    (s.dev.dur.save = .image → s.dev.rst.warm = .leaving → Runs .saveResume s fun e =>
      e.rst.warm = .none ∧ e.dur.save = .image ∧ e.dur.cursor = s.dev.dur.cursor ∧ e.mem = s.dev.mem ∧
      ∀ c ∈ e.dram.chans, c.st ≠ .selfRefresh) ∧
    (∀ k x, s.dev.dur.slots[k]? = some x → x.st = .live ∨ x.st = .draining → x.left = [] → x.drained = true → Quiet s.dev →
      Runs (.imageRelease k) s fun e => e.dur.slots[k]? = some ImgSlot.reset ∧ e.mem = s.dev.mem ∧
        ∀ i, i ≠ k → e.dur.slots[i]? = s.dev.dur.slots[i]?) ∧
    (∀ p, Open s.dev p 0x3021C → s.dev.dur.lost = true → s.dev.twin.ident = none → s.dev.twin.st = .fenced →
      fitToServe (clearLoss s.dev) = true → s.dev.net.conns = [] → Runs (.acceptLoss p 0x7A3C) s fun e =>
        e.twin.st = .unpaired ∧ e.dur.lost = false ∧ e.mem = s.dev.mem)

/-! ## The flash store -/

/-- A drain programs a row of dirty lines; a finished program records the leaves' places and its lines stop being dirty; a failed one
retires its block. An erase ends with the block empty and counted, or retires it. Reads count what they corrected, busy dies
suspend, a die goes offline, and garbage collection erases a block that holds nothing. Choices of the model: log 4 and 25. -/
def Obligations.FlashStripesAreKept : Prop :=
  ∀ (s : State),
    (∀ pos o, posUsed s.dev.ftl pos = true → s.dev.folds.formatted = true → flashHeld s.dev = false → mediaGroup s.dev = none →
      (∀ l ∈ drainOrder s.dev, isZeroLeaf s.dev l = false) → drainOrder s.dev ≠ [] → s.dev.ftl.opens.find? (fun o => o.1 = pos) = some o →
      Quiet s.dev → s.dev.net.ops = [] → Runs (.ftlDrain pos) s fun e => e.mem = s.dev.mem ∧ ∃ p, e.ftl.progs = s.dev.ftl.progs ++ [p] ∧
        p.pos = pos ∧ ∀ l ∈ p.lines, l ∈ drainable s.dev ∧ l / 64 ∈ drainOrder s.dev) ∧
    (∀ pos ns p, s.dev.ftl.progs.find? (fun p => p.pos = pos) = some p → Quiet s.dev → s.dev.net.ops = [] →
      Runs (.flashProgramComplete pos ns) s fun e => e.dur.dirty = dropNums s.dev.dur.dirty p.lines ∧
        e.ftl.progs = s.dev.ftl.progs.erase p ∧ e.mem = s.dev.mem ∧
        ∀ c, p.cws = [c] → c.kind = .leaf → c.grp = false → c.reloc = false → getKey e.ftl.map (c.addr / 4096) = some c.loc) ∧
    (∀ pos chan plane p c rest, s.dev.ftl.progs.find? (fun p => p.pos = pos) = some p → p.cws = c :: rest →
      Runs (.flashProgramFail pos chan plane) s fun e => e.ftl.pfail = satUp 0xFFFFFFFF s.dev.ftl.pfail ∧ e.mem = s.dev.mem ∧
        (posOf (sbOfLoc c.loc) / 16 * 8 + chan % 8, posOf (sbOfLoc c.loc) % 16, plane, blockOfSb (sbOfLoc c.loc)) ∈ e.ftl.retired) ∧
    (∀ sb, s.dev.ftl.erasing.contains sb = true →
      Runs (.flashEraseComplete sb) s (fun e => e.ftl.erasing.contains sb = false ∧ eraseCount e.ftl sb = eraseCount s.dev.ftl sb + 1 ∧
        (∀ c ∈ e.ftl.cws, sbOfLoc c.loc ≠ sb) ∧ e.mem = s.dev.mem) ∧
      (∀ chan plane, Runs (.flashEraseFail sb chan plane) s fun e => e.ftl.efail = satUp 0xFFFFFFFF s.dev.ftl.efail ∧ e.mem = s.dev.mem ∧
        (posOf sb / 16 * 8 + chan % 8, posOf sb % 16, plane, blockOfSb sb) ∈ e.ftl.retired)) ∧
    (∀ loc step n, (∃ c ∈ s.dev.ftl.cws, c.loc = loc) → step ≤ 9 → dieGone s.dev.ftl loc = false → Runs (.flashReadComplete loc step n) s fun e =>
      e.ftl.corr = s.dev.ftl.corr + n ∧ getKey e.ftl.reads (blockNo loc) = some (((getKey s.dev.ftl.reads (blockNo loc)).getD 0) + 1) ∧
      e.ftl.soft = (if step = 9 then satUp 0xFFFFFFFF s.dev.ftl.soft else s.dev.ftl.soft) ∧ e.mem = s.dev.mem) ∧
    (∀ c t, s.dev.ftl.part.suspend = true → s.dev.dur.save = .idle → (∀ x ∈ s.dev.ftl.suspends, ¬(x.1 = c ∧ x.2.1 = t)) →
      ((∃ b ∈ s.dev.ftl.erasing, posOf b = c / 8 * 16 + t) → Runs (.flashSuspend c t true) s fun e =>
        e.ftl.suspends = s.dev.ftl.suspends ++ [(c, t, 1)]) ∧
      ((∃ p ∈ s.dev.ftl.progs, ∃ x ∈ p.cws, posOf (sbOfLoc x.loc) = c / 8 * 16 + t) → Runs (.flashSuspend c t false) s fun e =>
        e.ftl.suspends = s.dev.ftl.suspends ++ [(c, t, 1)])) ∧
    (∀ c t, Runs (.dieOffline c t) s fun e => (c, t) ∈ e.ftl.offline ∧ e.mem = s.dev.mem ∧
      (s.dev.ftl.offline.contains (c, t) = false → ∀ o ∈ e.ftl.opens, posOf o.2.1 ≠ c / 8 * 16 + t)) ∧
    (∀ pos sb, posUsed s.dev.ftl pos = true → flashHeld s.dev = false → (freeSbs s.dev.ftl pos).length < 4 →
      victimOf s.dev.ftl pos = some sb → s.dev.ftl.closed.contains sb = true → sbHeld s.dev.ftl sb = false → validIn s.dev.ftl sb = [] →
      s.dev.ftl.progs = [] → Runs (.garbageCollect pos) s fun e => e.ftl.erasing = s.dev.ftl.erasing ++ [sb] ∧
        e.ftl.closed.contains sb = false ∧ e.mem = s.dev.mem)

/-- A checkpoint is cut with the map as it stands, becomes the newest with its anchor when its pages are programmed, and says so when
it is late; the patrol reads the next location and counts, its period's end starts over or notes that it was late; the daily
sample is kept for thirty days. Choices of the model: log 2 and 25. -/
def Obligations.CheckpointsAndPatrols : Prop :=
  ∀ (s : State),
    (∀ pos g, s.dev.ftl.ckpt = none → s.dev.folds.formatted = true → flashHeld s.dev = false → turnPos s.dev.ftl = some pos →
      placeCws ((ckptCws s.dev.ftl s.dev.folds.s).length + 1) s.dev.ftl pos (ckptCws s.dev.ftl s.dev.folds.s) [] [] = some g →
      Runs .checkpointStart s fun e => e.ftl.progs = g.progs ∧ e.ftl.ckptSeq = s.dev.ftl.ckptSeq + 1 ∧ e.ftl.updates = 0 ∧
        e.mem = s.dev.mem ∧ ∃ k, e.ftl.ckpt = some k ∧ k.seq = s.dev.ftl.ckptSeq + 1 ∧ k.cut = s.dev.ftl.wseq ∧ k.map = s.dev.ftl.map) ∧
    (∀ k, s.dev.ftl.ckpt = some k → s.dev.ftl.progs = [] → Runs .checkpointComplete s fun e => e.ftl.ckpt = none ∧
      e.ftl.ckpts = (k :: s.dev.ftl.ckpts).take 2 ∧ e.ldg.anchors = ((k.seq, k.head) :: s.dev.ldg.anchors).take 2 ∧
      (∀ (i : Nat) x, s.dev.dur.slots[i]? = some x → k.emptied.contains i = true → e.dur.slots[i]? = some { x with drained := true }) ∧
      e.mem = s.dev.mem) ∧
    (s.dev.ftl.ckpt.isSome = true → Becomes .checkpointLate s (raiseOp s.dev 0x050A srcFTL [s.dev.ftl.ckptSeq])) ∧
    (∀ c n, patrolNext s.dev.ftl = some (c, false) → c ∈ s.dev.ftl.cws → dieGone s.dev.ftl c.loc = false →
      n * 100 ≤ regBits s.dev 0x600000 17 11 * 120 →
      Runs (.patrolRead 1 n) s fun e => e.ftl.patrolAt = c.loc + 1 ∧ e.ftl.corr = s.dev.ftl.corr + n ∧ e.mem = s.dev.mem) ∧
    ((nextValid s.dev.ftl s.dev.ftl.patrolAt).isSome = true → Runs .patrolPeriodEnd s fun e =>
      e.ftl = { s.dev.ftl with patrolLate := true } ∧ e.mem = s.dev.mem) ∧
    ((nextValid s.dev.ftl s.dev.ftl.patrolAt) = none → Becomes .patrolPeriodEnd s
      (s.dev.modFtl fun f => { f with patrolAt := 0, patrolLate := false })) ∧
    (∀ day, Runs (.healthDailySample day) s fun e => e.ftl.day = day ∧ e.ftl.samples.length ≤ 30 ∧
      e.ftl.samples.getLast? = some (exactFigures s.dev) ∧ e.mem = s.dev.mem)

/-! ## The DRAM channels -/

/-- A channel keeps a request in its queue, issues the refresh that is owed, serves the read whose row is open, raises urgency, closes
idle rows, returns what a read finds but keeps it while the alert window stands, and counts corrections back; an alert replays the retry queue once it is released.
Temperatures throttle, the test register arms, and a rate change loads, starts and completes. Choices of the model: log 4 and 26. -/
def Obligations.DramChannelsServe : Prop :=
  ∀ (s : State) (c k : Nat) (x : Chan) (u : SubCh), SubAt s.dev c k x u →
    (∀ tag port w line rank bank row now data q, q = DramReq.mk tag port w line rank bank row now u.ord 0 data → x.st = .ready →
      (if w then u.writes else u.reads).length < 64 → Runs (.dramRequest c k tag port w line rank bank row now data) s fun e =>
        ∃ y v, SubAt e c k y v ∧ v.ord = u.ord + 1 ∧ v.writes = (if w then u.writes ++ [q] else u.writes) ∧
          v.reads = (if w then u.reads else u.reads ++ [q])) ∧
    (∀ now, x.st = .ready → u.alert = false →
      (∀ r rest, u.burst = r :: rest → r < u.owed.length → Runs (.dramCommandIssue c k now) s fun e =>
        ∃ y v, SubAt e c k y v ∧ v.owed.getD r 0 = u.owed.getD r 0 - 1 ∧ ∀ z ∈ v.rows, z.1 ≠ r) ∧
      (∀ r, u.burst = [] → u.replay = [] → u.writes = [] → u.reads = [r] → u.drain = false → r.write = false →
        rowOpen u r = true → u.retry = [] → u.inOrder = [] → 0 < regBits s.dev (drc c 0) 21 16 → (∀ q ∈ u.flight, q.ord ≠ r.ord) →
        Runs (.dramCommandIssue c k now) s fun e => ∃ y v, SubAt e c k y v ∧ v.reads = [] ∧ r ∈ v.flight)) ∧
    (∀ now, Runs (.urgencyRaise c k now) s fun e => ∃ y v, SubAt e c k y v ∧
      v.reads = u.reads.map (fun r => { r with urg := max r.urg (urgencyAt s.dev c now r) }) ∧
      v.writes = u.writes.map (fun r => { r with urg := max r.urg (urgencyAt s.dev c now r) })) ∧
    (∀ rank, x.st = .ready → rank < u.owed.length → Runs (.refreshDue c k rank) s fun e => ∃ y v, SubAt e c k y v ∧
      v.owed.getD rank 0 = min (refMax s.dev c) (u.owed.getD rank 0 + 1)) ∧
    (∀ rank bank, Runs (.rowIdlePrecharge c k rank bank) s fun e => ∃ y v, SubAt e c k y v ∧
      ∀ z, z ∈ v.rows ↔ z ∈ u.rows ∧ ¬(z.1 = rank ∧ z.2.1 = bank)) ∧
    (∀ tag day r, u.flight.find? (fun q => q.tag = tag) = some r → dataWaits u r = false → (∀ p ∈ x.injected, p.1 ≠ r.line) →
      Runs (.dramReadData c k tag .ok day) s fun e => ∃ y v, SubAt e c k y v ∧ v.returned = u.returned ++ [(r.tag, cellOf x r.line)] ∧
        v.flight = u.flight.filter fun q => q.ord ≠ r.ord) ∧
    (∀ tag day r f, u.flight.find? (fun q => q.tag = tag) = some r → dataWaits u r = true →
      Becomes (.dramReadData c k tag f day) s s.dev) ∧
    (x.st = .ready → u.alert = false → Runs (.dramAlert c k) s fun e => ∃ y v, SubAt e c k y v ∧ v.alert = true ∧
      v.replays = u.replays + 1 ∧ v.alertAt = u.cycle) ∧
    (u.alert = true → u.replays < 5 → Runs (.dramAlertRelease c k) s fun e => ∃ y, SubAt e c k y
      { u with alert := false, rows := [], replay := u.retry ++ u.replay, retry := [] }) ∧
    (∀ temps t, t = temps.foldl (fun m s => max m (s.getD 95)) 0 → Runs (.dramTempRead c temps) s fun e => ∃ y,
      e.dram.chans[c]? = some y ∧ y.temp = min t 0xFE ∧ y.throttled = decide (regBits s.dev (drc c 0x30) 15 8 < t)) ∧
    (Runs (.ceBucketLeak c) s fun e => e.dram.chans[c]? = some { x with bucket := x.bucket - 1 }) ∧
    (∀ p v, Open s.dev p (drc c 0x28) → x.st ≠ .fault → Runs (.drcInjArm p c v) s fun e =>
      reg e (drc c 0x28) = v &&& 0xFC00FFFF ∧ e.mem = s.dev.mem) ∧
    (∀ p, Open s.dev p (drc 0 0x80) →
      (∀ rate timings, rateFits s.dev.dram rate = true → Runs (.rateBLoad p rate timings) s fun e => e.dram.rateB = rate ∧
        e.dram.rateA = s.dev.dram.rateA ∧ ∀ (i : Nat) w, timings[i]? = some w → i < 32 →
          reg e (drc c ((if x.setB then 0x100 else 0x200) + 4 * i)) = w) ∧
      (s.dev.dram.busy = false → (∀ y ∈ s.dev.dram.chans, y.st = .ready) → s.dev.dram.trained.contains s.dev.dram.rateB = true →
        Runs (.go p) s fun e => e.dram.busy = true ∧ ∀ y ∈ e.dram.chans, y.st = .freqChange)) ∧
    (s.dev.dram.busy = true → Runs (.rateChangeComplete true) s fun e => e.dram.busy = false ∧ e.dram.result = .done ∧
      e.dram.rateA = s.dev.dram.rateB ∧ e.dram.rateB = s.dev.dram.rateA ∧ ∀ y ∈ e.dram.chans, y.st ≠ .freqChange)

/-! ## The hall -/

/-- A slice grants a line to the pen that asks, takes it back by a snoop or an eviction with its bytes, and its victims reach the
DRAM; the whole-hall commands start and complete; the enable bits are written, the merge buffers retire, scrubs and leaks count,
and a stopped drover or the shepherd starts over. No such command changes a byte of the persistent memory. Choices of the model:
log 27 and 42. -/
def Obligations.TheHallKeepsCopies : Prop :=
  ∀ (s : State) (pen line : Nat) (p : Pen) (u : Slice), s.dev.hall.pens[pen]? = some p → SliceIs s.dev line u →
    (∀ x, halEn s.dev = true → penMayHold s.dev line = true → (∀ y ∈ p.evict, y.line ≠ line) → (∀ t ∈ u.txns, t.line ≠ line) →
      s.dev.hall.run ≠ some .flushDisable → findLine u line = some x →
      (x.owner = none → Runs (.getS pen line) s fun e => e.mem = s.dev.mem ∧ ∃ v, SliceIs e line v ∧
        v.msgs = u.msgs ++ [.data line pen false] ∧
        findLine v line = some { x with presence := x.presence ||| (1#16 <<< pen), owner := none }) ∧
      ((∀ q ∈ holders x, q = pen) → Runs (.getM pen line) s fun e => e.mem = s.dev.mem ∧ ∃ v, SliceIs e line v ∧
        v.msgs = u.msgs ++ [.data line pen true] ∧
        findLine v line = some { x with presence := x.presence ||| (1#16 <<< pen), owner := some pen })) ∧
    (∀ own x p1, nextMsg u pen = some (.data line pen own) → findLine u line = some x → x.presence.getLsbD pen = true →
      penRoom { p with lines := p.lines.filter fun y => y.line ≠ line } line = some p1 → Runs (.data pen line) s fun e => e.mem = s.dev.mem ∧
        ∃ q, e.hall.pens[pen]? = some q ∧ q.evict = p1.evict ∧
          q.lines = { line := line, st := if own then .owned else .shared, data := x.data, check := x.check } :: p1.lines) ∧
    (nextSnoop u pen = some line → Runs (.snpInv pen line) s fun e => e.mem = s.dev.mem ∧
      ∃ q, e.hall.pens[pen]? = some q ∧ q.evict = p.evict ∧ ∀ y ∈ q.lines, y.line ≠ line) ∧
    (∀ t x bytes, u.txns = [t] → t.line = line → t.snoop = [pen] → t.seen = [pen] → t.expectEvict = [] → t.pen < 16 → u.wait = [] →
      findLine u line = some x → Runs (.snpAck pen line .data bytes) s fun e => e.mem = s.dev.mem ∧ ∃ v y, SliceIs e line v ∧
        v.txns = [] ∧ v.msgs = u.msgs ++ [.data line t.pen t.owned] ∧ findLine v line = some y ∧ y.data = bytes ∧ y.modified = true) ∧
    (∀ l, nextEvict u p (sliceOf line) pen = some l → l.line = line → u.txns = [] →
      Runs (.evict pen line) s fun e => e.mem = s.dev.mem ∧ ∃ v y, SliceIs e line v ∧ findLine v line = some y ∧ y.data = l.data ∧
        y.owner = none ∧ y.modified = true ∧ v.msgs = u.msgs ++ [.evictAck line pen]) ∧
    (nextMsg u pen = some (.evictAck line pen) → Runs (.evictAck pen line) s fun e => e.mem = s.dev.mem ∧
      ∃ q, e.hall.pens[pen]? = some q ∧ q.lines = p.lines ∧ ∀ y ∈ q.evict, y.line ≠ line) ∧
    (∀ v, u.victim.find? (fun v => v.entry.line = line && v.wb) = some v →
      Runs (.victimWritebackAck (sliceOf line) line) s fun e => e.mem = s.dev.mem ∧ getKey e.hall.frames line = some v.entry.data) ∧
    (∀ a, Open s.dev a 0x100004 → s.dev.hall.run = none → s.dev.dur.save = .idle →
      (halEn s.dev = false → Runs (.invalidate a) s fun e => e.hall = { s.dev.hall with run := some .invalidate, lastBad := false }) ∧
      Runs (.flush a) s (fun e => e.hall = { s.dev.hall with run := some .flush, lastBad := false }) ∧
      Runs (.flushDisable a) s (fun e => e.hall = { s.dev.hall with run := some .flushDisable, lastBad := false })) ∧
    (∀ w, s.dev.hall.run = some w → Runs .halCmdComplete s fun e => e.hall.run = none ∧ e.mem = s.dev.mem ∧
      (w = .invalidate → e.hall.invDone = true) ∧ (w = .flushDisable → halEn e = false) ∧
      (w ≠ .flush → (∀ q ∈ e.hall.pens, q.lines = [] ∧ q.evict = []) ∧ ∀ v ∈ e.hall.slices, v.lines = []) ∧
      (w = .flush → ∀ v ∈ e.hall.slices, ∀ y ∈ v.lines, y.modified = false)) ∧
    (∀ a v, Open s.dev a 0x100000 → s.dev.hall.leftover = false → Runs (.halCtrlWrite a v) s fun e =>
      reg e 0x100000 = (reg s.dev 0x100000 &&& flag 31 true) ||| (v &&& 0xC0000000) ∧ e.mem = s.dev.mem) ∧
    (∀ kind n word m, hasArray kind n = true → word < (arraySize kind).2 → (arrayOf s.dev.hall kind n).merge.find? (fun e => e.1 = word) = some m →
      Runs (.mergeEntryRetire kind n word .ok) s fun e => e.mem = s.dev.mem ∧
        (∀ z ∈ (arrayOf e.hall kind n).merge, z.1 ≠ word) ∧ getKey (arrayOf e.hall kind n).words word =
          some (mergeWord ((getKey (arrayOf s.dev.hall kind n).words word).getD 0) m.2.1 m.2.2)) ∧
    (∀ kind n l a, hasArray kind n = true → a = arrayOf s.dev.hall kind n →
      ((∀ m ∈ a.merge, m.1 ≠ a.scrub) → Runs (.scrubRead kind n .ok l) s fun e =>
        arrayOf e.hall kind n = { a with scrub := (a.scrub + 1) % (arraySize kind).2 }) ∧
      Runs (.eccBucketLeak kind n) s (fun e => arrayOf e.hall kind n = { a with bucket := a.bucket - 1 })) ∧
    (∀ n, s.dev.hall.stopped.contains n = true → Runs (.droverReloadComplete n) s fun e =>
      e.hall.stopped = s.dev.hall.stopped.filter fun y => y ≠ n) ∧
    (Runs .shepherdSramRestart s fun e => e.latches = [] ∧ e.ldg.owner = none ∧ e.pwr.calBusy = false ∧ e.mem = s.dev.mem)

/-! ## Keys, alarms and the public-key engine -/

/-- A class A source locks out and drops the keys, a class B source also erases; with a right MAC the clear commands clear the
lockout, lower a class and store the clear key, and each spends the challenge; the challenge is drawn by its read and lapses; the
class register only gains sources. Choices of the model: log 5, 6 and 28. -/
def Obligations.AlarmsLockOut : Prop :=
  ∀ (s : State),
    (∀ n, armed s.dev n = true → s.dev.sec.cls.getLsbD n = false → serving s.dev = false → s.dev.dur.save = .idle →
      Runs (.alarmClassA n) s fun e => e.sec.lockout = true ∧ e.sec.wk = none ∧ e.sec.dk = none ∧ e.net.pool384 = 0 ∧
        e.net.pool255 = 0 ∧ e.sec.fired.getLsbD n = true) ∧
    (∀ n, armed s.dev n = true → n < 8 → s.dev.sec.cls.getLsbD n = true → serving s.dev = false → s.dev.dur.save = .idle →
      Runs (.alarmClassB n) s fun e => e.sec.lockout = true ∧ e.sec.wk = none ∧ e.sec.wkLedger = none ∧ e.sec.zeroing = true) ∧
    (s.dev.sec.zeroing = true → Runs .classBZeroComplete s fun e => e.sec.zeroing = false ∧ e.hall.frames = [] ∧
      (∀ q ∈ e.hall.pens, q.lines = [] ∧ q.evict = []) ∧ ∀ c ∈ e.dram.chans, c.cells = []) ∧
    (∀ p, Open s.dev p 0x60008 → s.dev.sec.locked = false →
      (s.dev.sec.lockout = true → macOk s.dev 1 0 = true → s.dev.pwr.st = .on → s.dev.pwr.served = true → s.dev.twin.ident.isSome = true →
        s.dev.twin.linkUp = false → Runs (.clear p) s fun e => e.sec.lockout = false ∧ e.sec.fired = 0 ∧ e.sec.fails = 0 ∧
          e.sec.chal = none ∧ e.sec.last = .done ∧ e.sec.wk = s.dev.sec.wkLedger) ∧
      (∀ m, macOk s.dev 2 m = true → Runs (.lowerClass p m) s fun e => e.sec.cls = s.dev.sec.cls &&& ~~~ m ∧ e.sec.chal = none ∧
        e.sec.last = .done) ∧
      (s.dev.sec.lockout = false → (s.dev.sec.clearKey = none ∨ macOk s.dev 3 0 = true) → Runs (.provisionClear p) s fun e =>
        e.sec.clearKey = some (keyIn s.dev) ∧ e.sec.chal = none ∧ ∀ i, i < 8 → reg e (0x60040 + 4 * i) = 0)) ∧
    (∀ p, Open s.dev p 0x60010 → s.dev.sec.drbgStop = false → Runs (.secChalRead p) s fun e =>
      (∃ c, e.sec.chal = some c ∧ c = Config.free128 s.dev.freeIdx) ∧ e.freeIdx = s.dev.freeIdx + 1) ∧
    Runs .challengeLapse s (fun e => e.sec.chal = none ∧ e.mem = s.dev.mem) ∧
    Runs .macLockoutEnd s (fun e => e.sec.locked = false ∧ e.sec.fails = 0 ∧ e.mem = s.dev.mem) ∧
    (∀ p v, Open s.dev p 0x60004 → Runs (.secAlarmCfgWrite p v) s fun e => e.sec.cls = s.dev.sec.cls ||| v.setWidth 8 ∧ e.mem = s.dev.mem)

/-- Key slots are generated, loaded, unloaded, destroyed and queried; a cipher lane runs its job or, on a mismatch, counts it and
fires its source; masks and the generator reseed, stop and start again. Choices of the model: log 5, 6 and 28. -/
def Obligations.KeysAreKept : Prop :=
  ∀ (s : State),
    (∀ p k, Open s.dev p 0x60100 → s.dev.sec.keyBusy = false → s.dev.sec.lockout = false →
      Runs (.keyQuery p k) s (fun e => e.sec = { s.dev.sec with keyNamed := k, keyResult := .done }) ∧
      (serving s.dev = true → s.dev.twin.refusing = false →
        (∀ k2, getKey s.dev.sec.slots k = none → k2 = (drawPair s.dev).1 → ctrlReady s.dev (.keySlot .generate k k2) = true →
          Runs (.generate p k) s fun e => getKey e.sec.slots k = some (k2, true)) ∧
        (∀ x, getKey s.dev.sec.slots k = some (x, false) → ctrlReady s.dev (.keySlot .load k 0) = true →
          Runs (.load p k) s fun e => getKey e.sec.slots k = some (x, true)) ∧
        (∀ x, getKey s.dev.sec.slots k = some (x, true) → ctrlReady s.dev (.keySlot .unload k 0) = true →
          Runs (.unload p k) s fun e => getKey e.sec.slots k = some (x, false)) ∧
        (slotRegions s.dev k = 0 → (getKey s.dev.sec.slots k).isSome = true → ctrlReady s.dev (.keySlot .destroy k 0) = true →
          Runs (.destroy p k) s fun e => getKey e.sec.slots k = none))) ∧
    (∀ (n prio blocks : Nat) l, s.dev.sec.lanes[n]? = some l → laneReady s.dev l prio = true → l.run = none →
      Runs (.cipherLaneJob n prio blocks false) s fun e => ∃ x, e.sec.lanes[n]? = some x ∧ x.blocks = l.blocks + blocks ∧
        x.run = some { prio := prio, left := 0, suspNs := 0, retried := false } ∧ x.stale = (l.stale || decide (4096 ≤ l.blocks + blocks))) ∧
    (∀ (n : Nat) l, s.dev.sec.lanes[n]? = some l → s.dev.sec.drbgStop = false → Runs (.maskReseed n) s fun e =>
      e.sec.lanes[n]? = some { l with stale := false, blocks := l.blocks % 4096 }) ∧
    (s.dev.sec.drbgStop = false → Runs (.drbgReseed true) s (fun e => e.sec = { s.dev.sec with drbgLast := s.dev.clock }) ∧
      Becomes (.drbgReseed false) s (raiseOp s.dev 0x0305 srcSEC []) ∧
      (s.dev.twin.st = .fenced → Runs .drbgStop s fun e => e.sec.drbgStop = true ∧ e.sec.entropyOk = false ∧ e.twin.st = .fenced)) ∧
    (s.dev.sec.drbgStop = true → s.dev.twin.ident.isSome = true → s.dev.twin.linkUp = false → Runs .drbgRestart s fun e =>
      e.sec.drbgStop = false ∧ e.sec.entropyOk = true ∧ e.sec.drbgLast = s.dev.clock)

/-- The public-key engine takes the words of its input registers as they stand when a job starts, and at the job's end holds the
output, the status and the two findings that R406 gives; the pools of key pairs fill one pair at a time. Choices of the model: log
4, 5 and 6. -/
def Obligations.PublicKeyJobsRun : Prop :=
  ∀ (s : State) (ws : List Word), ws = (List.range 64).map (fun i => reg s.dev (0x70100 + 4 * i)) →
    (∀ p, Open s.dev p 0x70000 → s.dev.sec.pke.job = none →
      Runs (.pkeEcdhP384 p) s (fun e => e.sec.pke.job = some (.ecdh384, ws) ∧ e.sec.pke.out = []) ∧
      Runs (.pkeX25519 p) s (fun e => e.sec.pke.job = some (.x25519, ws) ∧ e.sec.pke.out = []) ∧
      Runs (.pkeEcdsaVerify p) s (fun e => e.sec.pke.job = some (.verify384, ws) ∧ e.sec.pke.out = [])) ∧
    (∀ op xs, s.dev.sec.pke.job = some (op, xs) → Runs .pkeJobComplete s fun e => e.sec.pke.job = none ∧
      e.sec.pke.status = (pkeRun op (inBytes xs)).status ∧ e.sec.pke.valid = (pkeRun op (inBytes xs)).valid ∧
      e.sec.pke.zero = (pkeRun op (inBytes xs)).zero ∧ e.mem = s.dev.mem) ∧
    (s.dev.net.pool384 ≤ s.dev.net.pool255 → s.dev.net.pool384 < 1024 → Becomes .pkePoolRefill s
      (s.dev.modNet fun t => { t with pool384 := t.pool384 + 1 })) ∧
    (s.dev.net.pool255 < s.dev.net.pool384 → s.dev.net.pool255 < 1024 → Becomes .pkePoolRefill s
      (s.dev.modNet fun t => { t with pool255 := t.pool255 + 1 }))

/-! ## The ledger, the configuration store and the firmware banks -/

/-- A cold start begins at PWRON_RST_N and ends at its fall. The ledger takes its key words in order, a program, an erase, and its
suspension and resumption from the owner, and drops a sequence that lapses; pulses erase, programs land, the status and the data
are read, and the window moves with wear. Choices of the model: log 4 and 29. -/
def Obligations.TheLedgerTakesSequences : Prop :=
  ∀ (s : State) (p : Principal),
    (∀ env, s.dev.pwr.pwron = false →
      (s.dev.dur.mainOk = true → Runs (.pwronRstNRise env) s fun e => e.pwr.pwron = true ∧ e.env = env ∧ e.mem = [] ∧
        (e.pwr.st = .rampUp ∨ e.ldg.stage = .recovery)) ∧
      (s.dev.dur.mainOk = false → Runs (.pwronRstNRise env) s fun e => e.pwr.pwron = true ∧ e.env = env ∧ e.pwr.st = .off ∧
        e.pwr.onHeld = true)) ∧
    (Runs .pwronRstNFall s fun e => e.pwr.pwron = false ∧ e.mem = [] ∧ e.regs = [] ∧ e.net.conns = [] ∧ e.twin.st = .fenced) ∧
    ((s.dev.ldg.owner = none ∨ s.dev.ldg.owner = some p) →
      (Open s.dev p 0x20000 → ∀ v, Runs (.ldgKeyWrite p v) s fun e => e.ldg.owner = some p ∧ e.ldg.words = s.dev.ldg.words ∧
        (s.dev.ldg.seq = .idle → v = 0xAA55 → e.ldg.seq = .key1) ∧ (s.dev.ldg.seq = .key1 → v = 0x55AA → e.ldg.seq = .key2) ∧
        (v ≠ 0xAA55 → v ≠ 0x55AA → e.ldg.seq = .idle ∧ ldgResult e.ldg p = .seqError)) ∧
      (∀ a v, Open s.dev p 0x2000C → s.dev.ldg.seq = .addr a → boardAddr a = true →
        (s.dev.ldg.progs ≠ [] ∨ (s.dev.ldg.erase = [] ∧ s.dev.ldg.spoiled = [] ∧ getKey s.dev.ldg.words (a / 4 * 4) = none)) →
        Runs (.ldgProgram p v) s fun e => e.ldg.progs = s.dev.ldg.progs ++ [{ owner := p, addr := a, value := v }] ∧ e.ldg.seq = .idle) ∧
      (∀ v, Open s.dev p 0x20008 → s.dev.ldg.seq = .cmd true → boardAddr (wbits v 23 2 * 4) = true → Runs (.ldgErase p v) s fun e =>
        e.ldg.seq = .idle ∧ ∃ b, e.ldg.erase = s.dev.ldg.erase ++
          [{ owner := p, sector := wbits v 23 2 * 4 / 4096, pulses := 0, byOwner := false, byShp := b }]) ∧
      (∀ x, Open s.dev p 0x20004 → s.dev.ldg.seq = .key2 → eraseOf s.dev.ldg p = some x →
        (x.byOwner = false → Runs (.ldgSuspend p) s fun e => { x with byOwner := true } ∈ e.ldg.erase ∧ ldgResult e.ldg p = .done ∧
          e.ldg.seq = .idle) ∧
        (x.byOwner = true → Runs (.ldgResume p) s fun e => { x with byOwner := false } ∈ e.ldg.erase ∧ ldgResult e.ldg p = .done ∧
          e.ldg.seq = .idle))) ∧
    (s.dev.ldg.owner = some p → s.dev.ldg.seq ≠ .idle → Runs .ldgSequenceLapse s fun e => e.ldg.seq = .idle ∧
      ldgResult e.ldg p = .seqError ∧ e.ldg.owner = some p) ∧
    (Runs .ldgOwnerLapse s fun e => e.ldg.owner = none ∧ e.ldg.words = s.dev.ldg.words) ∧
    (Open s.dev p 0x20010 → Becomes (.ldgStatusRead p) s (answer (if s.dev.ldg.owner = some p && s.dev.ldg.seq = .idle && !ldgBusy s.dev.ldg p
      then s.dev.modLdg fun l => { l with owner := none } else s.dev) p 0x20010 false .done 0 (ldgStatus s.dev p))) ∧
    (∀ a v, Open s.dev p 0x20024 → a = (reg s.dev 0x20020).toNat % 2 ^ 24 / 4 * 4 → boardAddr a = true → s.dev.ldg.erase = [] →
      s.dev.ldg.spoiled = [] → v = (getKey s.dev.ldg.words (a / 4 * 4)).getD 0xFFFFFFFF → Becomes (.ldgRdDataRead p) s
        (answer (setReg s.dev 0x20020 (BitVec.ofNat 32 ((a + 4) % 2 ^ 24))) p 0x20024 false .done 0 v)) ∧
    (∀ x, runningErase s.dev.ldg = some x →
      (45 ≤ x.pulses + 1 → Runs (.ledgerErasePulse x.sector true) s fun e => e.ldg.erase = s.dev.ldg.erase.erase x ∧
        ldgResult e.ldg x.owner = .done ∧ ∀ w ∈ e.ldg.words, w.1 / 4096 ≠ x.sector) ∧
      (x.pulses + 1 < 400 → Becomes (.ledgerErasePulse x.sector false) s (s.dev.modLdg fun l =>
        { l with erase := l.erase.map fun y => if y = x then { y with pulses := x.pulses + 1 } else y }))) ∧
    (∀ g, s.dev.ldg.progs = [g] → g.value ≠ 0xFFFFFFFF → Runs (.ledgerProgramDone true) s fun e => e.ldg.progs = [] ∧
      getKey e.ldg.words g.addr = some g.value ∧ ldgResult e.ldg g.owner = .done) ∧
    (∀ n, (∃ x ∈ s.dev.ldg.erase, x.sector = n) → Becomes (.ledgerEraseSlow n) s (raiseOp s.dev 0x0905 srcLDG [n])) ∧
    (regBits s.dev 0x20034 15 0 ≤ s.dev.ldg.sinceMove → s.dev.dur.save = .idle → s.dev.ldg.erase = [] → s.dev.ldg.moves + 1 < 3840 →
      Runs .ledgerWindowMove s fun e => e.ldg.moves = s.dev.ldg.moves + 1 ∧ e.ldg.base = s.dev.ldg.base ∧
        e.ldg.sinceMove = s.dev.ldg.sinceMove - regBits s.dev 0x20034 15 0)

/-- The store commands keep the tuning, the sequence and the network records, and compact; STAGE erases the other bank and its end
holds the new image; ACTIVATE and REVERT change the boot record and the reload runs the other bank; COMMIT raises the floor,
REVOKE burns a signer, and RECOVER loads bank A over I3C. Choices of the model: log 5, 10 and 31. -/
def Obligations.StoreAndUpdateRun : Prop :=
  ∀ (s : State) (p : Principal),
    (Open s.dev p 0x10008 → s.dev.ldg.cmdBusy = false →
      (seqValid ((List.range 16).map fun n => seqA s.dev n) = true → s.dev.ldg.cfg.full = false → Runs (.storeTuning p) s fun e =>
        e.ldg.cmdResult = 0 ∧ e.ldg.cfg.sequence = some (tuningFmt s.dev, liveRegs s.dev seqAddrs) ∧ e.upd.stale = false ∧
        ∃ t, e.ldg.cfg.tuning = some t ∧ t.regs = liveRegs s.dev tunedAddrs) ∧
      (s.dev.twin.st = .fenced → s.dev.ldg.cfg.full = false → Runs (.storeIdentity p 0x7A3C) s fun e =>
        e.ldg.cmdResult = 0 ∧ e.ldg.cfg.network = some (liveRegs s.dev identityAddrs)) ∧
      Runs (.compact p) s (fun e => e.ldg.cmdResult = 0 ∧ e.ldg.cfg.written = standingBytes s.dev)) ∧
    (Open s.dev p 0x90000 → s.dev.upd.busy = false →
      (∀ x b, s.dev.upd.st = .idle → s.dev.ldg.stage = .firmware → s.dev.dur.save = .idle → deltaBytes s.dev = some x →
        deltaCheck s.dev x = .done → deltaBank (running s.dev) x = some b → s.dev.ldg.banks.length = 2 → Runs (.stage p) s fun e =>
          e.upd.st = .staging ∧ e.upd.busy = true ∧ e.upd.target = some b ∧ bankAt e (!s.dev.ldg.bankB) = noBank ∧
          e.mem = s.dev.mem) ∧
      (activateBad s.dev .staged = none → s.dev.twin.st ≠ .standby → Quiet s.dev → Runs (.activate p) s fun e =>
        e.upd.st = .activating ∧ e.upd.paused = true ∧ e.ldg.boot.bankB = (!s.dev.ldg.bankB) ∧ e.ldg.boot.trial = true ∧
        e.ldg.boot.tries = regBits s.dev 0x90024 23 20) ∧
      (activateBad s.dev .trial = none → s.dev.twin.st ≠ .standby → Quiet s.dev → Runs (.revert p) s fun e =>
        e.upd.st = .activating ∧ e.upd.reverting = true ∧ e.ldg.boot.bankB = (!s.dev.ldg.bankB) ∧ e.ldg.boot.trial = false) ∧
      (s.dev.upd.st = .trial → Runs (.updCommit p 0x7A3C) s fun e => e.upd.st = .idle ∧ e.upd.result = .done ∧
        e.ldg.floor = max s.dev.ldg.floor (min 64 (svnOf (running s.dev))) ∧ e.ldg.boot.trial = false) ∧
      (∀ n, s.dev.upd.st ≠ .trial → s.dev.ldg.stage = .firmware → n < 4 → signerOf (running s.dev) ≠ some n →
        (∃ k, k < 4 ∧ k ≠ n ∧ s.dev.ldg.revoked.getLsbD k = false) → Runs (.updRevoke p n 0x7A3C) s fun e =>
          e.ldg.revoked = s.dev.ldg.revoked ||| (1#4 <<< n) ∧ e.upd.result = .done)) ∧
    (s.dev.ldg.banks.length = 2 → Open s.dev .i3c 0x90000 → s.dev.upd.busy = false → s.dev.ldg.stage = .recovery →
      Runs (.recoverBegin .i3c) s (fun e => e.upd.st = .recoveryLoad ∧ e.upd.rcvAt = 0 ∧ bankAt e false = noBank) ∧
      (s.dev.upd.st = .recoveryLoad → bankCheck s.dev.ldg (bankAt s.dev false) = .none → s.dev.pwr.st = .off → s.dev.dur.mainOk = false →
        Runs (.recoverEnd .i3c) s fun e => e.upd.st = .idle ∧ e.upd.result = .done)) ∧
    (∀ v, s.dev.ldg.banks.length = 2 → Open s.dev .i3c 0x90030 → s.dev.upd.st = .recoveryLoad → s.dev.upd.rcvAt < 1032192 →
      Runs (.updRcvDataWrite .i3c v) s fun e => e.upd.rcvAt = s.dev.upd.rcvAt + 1 ∧
        (s.dev.upd.rcvAt < 1008 → bankAt e false = { bankAt s.dev false with header := (bankAt s.dev false).header ++ leBytes 4 v.toNat }) ∧
        (1008 ≤ s.dev.upd.rcvAt → bankAt e false = { bankAt s.dev false with stream := (bankAt s.dev false).stream ++ leBytes 4 v.toNat })) ∧
    (∀ b, s.dev.upd.st = .staging → s.dev.upd.target = some b → headerOk b = true → hashesOk b = true → s.dev.ldg.banks.length = 2 →
      Runs .stageComplete s fun e => e.upd.st = .staged ∧ e.upd.result = .done ∧ e.upd.busy = false ∧ bankAt e (!s.dev.ldg.bankB) = b) ∧
    (s.dev.upd.st = .activating → s.dev.dur.save = .idle → s.dev.rst.warm = .none → s.dev.net.ops = [] → Quiet s.dev →
      s.dev.twin.st ≠ .joining → Runs .activateReload s fun e => e.ldg.bankB = s.dev.ldg.boot.bankB ∧ e.upd.paused = false ∧
        e.upd.result = .done ∧ e.upd.st = (if s.dev.upd.reverting then .idle else .trial))

/-! ## Supplies, temperatures and calibration -/

/-- The power sequencer steps up as each rail is good and settles, and faults at a rail that is not; it steps down to OFF and waits
MIN_OFF; OFF, ON, rail faults and a low charger act by its state; a brown-out of the always-on supply in a state without supplies
leaves the block as PWRON_RST_N low does. Choices of the model: log 2, 4 and 32. -/
def Obligations.PowerSequencesRun : Prop :=
  ∀ (s : State),
    (∀ n, n < 16 → Runs (.pgRise n) s fun e => e.pwr.pg.getLsbD n = true ∧
      (s.dev.pwr.st = .rampUp → s.dev.pwr.wait = .pg → n = wbits (seqA s.dev s.dev.pwr.step) 19 16 → e.pwr.wait = .settle)) ∧
    (∀ mv n, s.dev.pwr.st = .rampUp → s.dev.pwr.wait = .settle → n = s.dev.pwr.step → (seqA s.dev n).getLsbD 15 = false →
      (railIn s.dev (wbits (seqA s.dev n) 10 8) mv = true → s.dev.pwr.reverse = false → n + 1 < seqLen s.dev →
        Runs (.settleExpiry mv) s fun e => e.pwr.st = .rampUp ∧ e.pwr.step = n + 1 ∧
          e.pwr.en = setLine s.dev.pwr.en (wbits (seqA s.dev (n + 1)) 27 24) true) ∧
      (railIn s.dev (wbits (seqA s.dev n) 10 8) mv = false → Runs (.settleExpiry mv) s fun e => e.pwr.st = .rampDown ∧
        e.pwr.cause = .seqFault)) ∧
    (s.dev.pwr.st = .rampUp → s.dev.pwr.wait = .pg → Runs .pgTimeout s fun e => e.pwr.st = .rampDown ∧ e.pwr.cause = .seqFault ∧
      e.pwr.step = s.dev.pwr.step ∧ e.pwr.wait = .down) ∧
    (s.dev.pwr.st = .rampDown → s.dev.pwr.wait = .down →
      (∀ n, s.dev.pwr.step = n + 1 → Runs .downMsExpiry s fun e => e.pwr.step = n ∧ e.pwr.st = .rampDown ∧
        e.pwr.en = setLine s.dev.pwr.en (wbits (seqA s.dev n) 27 24) false) ∧
      (s.dev.pwr.step = 0 → s.dev.pwr.faulty = false → Runs .downMsExpiry s fun e => e.pwr.st = .off ∧ e.pwr.minOff = true ∧
        e.mem = [] ∧ e.dur.save = .idle)) ∧
    (s.dev.pwr.minOff = true → s.dev.pwr.onHeld = false → s.dev.pwr.retry = false → Becomes .minOffExpiry s
      (s.dev.modPwr fun p => { p with minOff := false, wait := .none })) ∧
    (∀ p, Open s.dev p 0x30004 →
      (s.dev.pwr.st = .off → Runs (.off p 0x7A3C) s fun e => e.pwr.st = .fault ∧ e.pwr.cause = .cmdOff ∧ e.pwr.faulty = true) ∧
      (s.dev.pwr.st = .on → s.dev.pwr.served = false → Runs (.off p 0x7A3C) s fun e => e.pwr.st = .rampDown ∧ e.pwr.cause = .cmdOff) ∧
      (s.dev.pwr.st = .rampDown ∨ s.dev.pwr.st = .saving → Runs (.on p) s fun e => e.pwr.onHeld = true ∧ e.pwr.st = s.dev.pwr.st)) ∧
    (∀ rail mv hard, s.dev.pwr.pwron = true → rail < 8 → judged s.dev rail = true → railIn s.dev rail mv = false →
      (s.dev.pwr.st = .on → hard = true → Runs (.railFault rail mv hard) s fun e => e.pwr.st = .fault ∧ e.pwr.faulty = true ∧
        e.pwr.cause = .railCut ∧ e.mem = []) ∧
      (s.dev.pwr.st = .rampDown → (stepOfRail s.dev rail).isSome = true → Runs (.railFault rail mv hard) s fun e =>
        e.pwr.st = .rampDown ∧ e.pwr.step = 0 ∧ e.pwr.en = s.dev.pwr.en &&& 0xC000) ∧
      (s.dev.pwr.st = .rampDown → stepOfRail s.dev rail = none → Runs (.railFault rail mv hard) s fun e =>
        e.pwr.st = .rampDown ∧ e.pwr.step = s.dev.pwr.step ∧ e.pwr.en = s.dev.pwr.en)) ∧
    (Runs .chargerPgLow s fun e => e.pwr.pg.getLsbD 14 = false ∧ e.mem = s.dev.mem) ∧
    (s.dev.pwr.st = .off ∨ s.dev.pwr.st = .fault → Becomes .vddAonBrownOut s (pwronFall s.dev))

/-- Temperatures warn, throttle and step the gallery clocks, and a trip turns the supplies off; the hold-up sensor becomes valid at the
third good conversion and invalid at a bad one; the core supply's request, its unmet and its met rise set the clocks; a calibration
runs by command or when due, and its end writes the record with the measured parts; the die's time is counted in its band. Choices of
the model: log 4, 8 and 32. -/
def Obligations.ClocksFollowTemperature : Prop :=
  ∀ (s : State),
    (∀ n v d t, d = (s.dev.modPwr fun p => { p with sensors := modAt p.sensors n fun _ => v }) → t = (hottest d).1 →
      (36 ≤ n → Becomes (.tempConversion n v) s s.dev) ∧
      (n < 36 → t < tripAt s.dev ∨ s.dev.pwr.st = .fault → Runs (.tempConversion n v) s fun e =>
        e.pwr.sensors = d.pwr.sensors ∧ e.pwr.warn = decide (warnAt s.dev < t) ∧
        e.pwr.throttle = (s.dev.pwr.throttle || decide (throtAt s.dev < t)) ∧ e.pwr.st = s.dev.pwr.st ∧ e.mem = s.dev.mem) ∧
      (n < 36 → tripAt s.dev ≤ t → s.dev.pwr.st ≠ .fault → Runs (.tempConversion n v) s fun e =>
        e.pwr.sensors = d.pwr.sensors ∧
        (s.dev.pwr.st = .off → e.pwr.st = .fault ∧ e.pwr.faulty = true ∧ e.pwr.cause = .trip) ∧
        (s.dev.pwr.st = .rampUp → e.pwr.st = .rampDown ∧ e.pwr.cause = .seqFault) ∧
        (s.dev.pwr.st = .on → s.dev.pwr.served = false → e.pwr.st = .rampDown ∧ e.pwr.faulty = true ∧ e.pwr.cause = .trip) ∧
        (s.dev.pwr.st = .on → s.dev.pwr.served = true → s.dev.sec.zeroing = false →
          e.pwr.st = .saving ∧ e.pwr.faulty = true ∧ e.pwr.cause = .trip) ∧
        (s.dev.pwr.st = .saving ∨ s.dev.pwr.st = .rampDown → e.pwr.st = s.dev.pwr.st ∧ e.pwr.faulty = true))) ∧
    (∀ t, t = (hottest s.dev).1 →
      (s.dev.pwr.throttle = true → throtAt s.dev < t → Becomes .throttleStep s
        (s.dev.modPwr fun p => { p with galClk := p.galClk.map fun c => max 12 (c - 1) })) ∧
      (s.dev.pwr.throttle = false ∨ (throtAt s.dev - 24 ≤ t ∧ t ≤ throtAt s.dev) → Becomes .throttleStep s s.dev) ∧
      (s.dev.pwr.throttle = true → t < throtAt s.dev - 24 → Runs .throttleStep s fun e =>
        e.pwr.galClk = s.dev.pwr.galClk.map (fun c => min (clockCap s.dev) (c + 1)) ∧
        e.pwr.throttle = !(e.pwr.galClk.all fun c => decide (clockCap s.dev ≤ c)) ∧ e.mem = s.dev.mem)) ∧
    (∀ mv c, 100 ≤ mv → mv ≤ 1200 → Runs (.holdTempConversion mv c) s fun e => e.pwr.goodConv = min 3 (s.dev.pwr.goodConv + 1) ∧
      e.pwr.holdValid = (s.dev.pwr.holdValid || decide (2 ≤ s.dev.pwr.goodConv)) ∧
      e.pwr.thold = (if e.pwr.holdValid then c else 125)) ∧
    (∀ mv c, mv < 100 ∨ 1200 < mv → Runs (.holdTempConversion mv c) s fun e => e.pwr.goodConv = 0 ∧ e.pwr.holdValid = false ∧
      e.pwr.thold = 125 ∧ e.pwr.st = s.dev.pwr.st ∧ e.mem = s.dev.mem) ∧
    (∀ mv, s.dev.dur.mainOk = true → s.dev.pwr.st = .on → mv = 720 + 5 * (Config.vddRequest s.dev.freeIdx % 17) →
      (mv ≠ s.dev.pwr.reqMv → Runs .vddCoreRequestUpdate s fun e => e.pwr.reqMv = mv ∧ e.pwr.oldMv = s.dev.pwr.reqMv ∧
        e.pwr.pending = true ∧ e.pwr.unmet = false ∧ e.freeIdx = s.dev.freeIdx + 1) ∧
      (mv = s.dev.pwr.reqMv → Runs .vddCoreRequestUpdate s fun e => e.pwr.reqMv = mv ∧ e.pwr.oldMv = s.dev.pwr.oldMv ∧
        e.pwr.pending = s.dev.pwr.pending ∧ e.pwr.unmet = s.dev.pwr.unmet ∧ e.freeIdx = s.dev.freeIdx + 1)) ∧
    (s.dev.dur.mainOk = false ∨ s.dev.pwr.st ≠ .on → Becomes .vddCoreRequestUpdate s s.dev) ∧
    (s.dev.pwr.pending = true → s.dev.pwr.oldMv < s.dev.pwr.reqMv → s.dev.dur.mainOk = true → s.dev.pwr.unmet = false →
      Runs .vddCoreRaiseUnmet s fun e => e.pwr.unmet = true ∧ e.pwr.pending = true ∧ e.mem = s.dev.mem) ∧
    (s.dev.pwr.pending = false ∨ s.dev.pwr.reqMv ≤ s.dev.pwr.oldMv ∨ s.dev.dur.mainOk = false ∨ s.dev.pwr.unmet = true →
      Becomes .vddCoreRaiseUnmet s s.dev) ∧
    (∀ mv, s.dev.pwr.pending = true → s.dev.pwr.reqMv ≤ mv + 10 → mv ≤ s.dev.pwr.reqMv + 10 →
      Runs (.vddCoreRaiseMet mv) s fun e => e.pwr.pending = false ∧ e.pwr.unmet = false ∧ e.pwr.oldMv = s.dev.pwr.reqMv ∧
        (0 < s.dev.pwr.railMv.length → e.pwr.railMv.getD 0 0 = mv)) ∧
    (∀ mv, s.dev.pwr.pending = false ∨ mv + 10 < s.dev.pwr.reqMv ∨ s.dev.pwr.reqMv + 10 < mv →
      Becomes (.vddCoreRaiseMet mv) s s.dev) ∧
    (∀ p, Open s.dev p 0x40000 →
      (s.dev.pwr.calBusy = true → Runs (.runCal p) s fun e => e.pwr = s.dev.pwr ∧ e.ldg = s.dev.ldg) ∧
      (s.dev.pwr.calBusy = false → calState s.dev = true → Runs (.runCal p) s fun e =>
        e.pwr = { s.dev.pwr with calBusy := true, calParts := 15 }) ∧
      (s.dev.pwr.calBusy = false → calState s.dev = false → Runs (.runCal p) s fun e =>
        e.pwr = { s.dev.pwr with calResult := .badState })) ∧
    (s.dev.pwr.calBusy = false → s.dev.pwr.st = .on → Becomes .calibrationDue s
      (s.dev.modPwr fun p => { p with calBusy := true, calParts := 7, calDue := false })) ∧
    (s.dev.pwr.calBusy = true → Becomes .calibrationDue s s.dev) ∧
    (s.dev.pwr.calBusy = false → s.dev.pwr.st ≠ .on → Becomes .calibrationDue s (s.dev.modPwr fun p => { p with calDue := true })) ∧
    (∀ t : CalTrims, s.dev.pwr.calBusy = true → Runs (.calibrationComplete t) s fun e =>
      e.pwr.calBusy = false ∧ e.pwr.calResult = (if trimsLimit t s.dev.pwr.calParts then .limit else .done) ∧
      ∃ r old has, old = (calInUse s.dev).getD factoryCal ∧ has = s.dev.pwr.calParts.testBit ∧
        e.ldg.calA = some r ∧ e.ldg.calB = some r ∧ r.parts = s.dev.pwr.calParts ∧
        r.railTrim = (if has 2 then keepRails old.railTrim t.railTrim else old.railTrim) ∧
        r.holdGain = (if has 1 then t.holdGain.getD old.holdGain else old.holdGain) ∧
        r.shunt0 = (if has 0 then t.shunt0.getD old.shunt0 else old.shunt0) ∧
        r.drive = (if has 3 then keepTrims old.drive t.drive else old.drive) ∧ r.count = old.count + 1) ∧
    (∀ t : CalTrims, s.dev.pwr.calBusy = false → Becomes (.calibrationComplete t) s s.dev) ∧
    (∀ c n, Runs (.dieTemperatureRead c n) s fun e =>
      (∀ k, s.dev.ftl.tempUs[tempBand c]? = some k → e.ftl.tempUs[tempBand c]? = some (k + n)) ∧
      (∀ i, i ≠ tempBand c → e.ftl.tempUs[i]? = s.dev.ftl.tempUs[i]?) ∧ { e with ftl := s.dev.ftl } = s.dev)

/-! ## The recorder and the event rings -/

/-- A buffered record is written at the head; the code and fold buckets refill by one to their depth; pending bits clear where the
write has ones, the fold limit and the snapshot addresses are written, the recorder is cleared, rings are bound, unbound and
queried, and an ageing sample keeps the largest drift. Choices of the model: log 2 and 33. -/
def Obligations.EventsAreRecorded : Prop :=
  ∀ (s : State),
    (∀ r rest, s.dev.evt.buffer = r :: rest → s.dev.dur.save = .idle → recSector (s.dev.evt.head + 1) < 1022 → s.dev.evt.full = false →
      Runs .recorderWrite s fun e => e.evt.buffer = rest ∧ e.evt.head = s.dev.evt.head + 1 ∧
        ∃ r', r' ∈ e.evt.recs ∧ r'.rseq = s.dev.evt.head + 1 ∧ r'.code = r.code ∧ r'.detail = r.detail ∧ r'.regs = snapshotOf s.dev r) ∧
    (∀ n b, b = codeBucket s.dev.evt n → codeRate s.dev.evt n ≠ 0 → b.tokens < codeDepth s.dev.evt n → Becomes (.codeBucketRefill n) s
      (s.dev.modEvt fun v => { v with codes := putKey v.codes n { b with tokens := b.tokens + 1 } })) ∧
    (∀ f b, b = foldBucket s.dev.evt f → foldRate s.dev.evt ≠ 0 → b.1 < foldDepth s.dev.evt → Becomes (.foldBucketRefill f) s
      (s.dev.modEvt fun v => { v with folds := putKey v.folds f (b.1 + 1, b.2) })) ∧
    (∀ p v, Open s.dev p 0x50000 → Runs (.evtPendClear p v) s fun e => e.evt = { s.dev.evt with pend := s.dev.evt.pend &&& ~~~ v } ∧
      e.mem = s.dev.mem) ∧
    (∀ p v, Open s.dev p 0x5001C → streamRefused s.dev = none → ctrlReady s.dev (.foldRl (limitValue v)) = true →
      Runs (.evtFoldRlWrite p v) s fun e => e.evt.foldRl = limitValue v) ∧
    (∀ p (i : Nat) v code old, Open s.dev p (0x50030 + 4 * i) → i < 8 → code = regBits s.dev 0x50020 15 0 →
      old = (getKey s.dev.evt.snaps code).getD (List.replicate 8 0xFFFFFFFF) → old.length = 8 → v ≠ 0xFFFFFFFF →
      (snapForbidden v.toNat = false → Runs (.evtSnapAddrWrite p i v) s fun e => getKey e.evt.snaps code = some (old.set i v)) ∧
      (snapForbidden v.toNat = true → Runs (.evtSnapAddrWrite p i v) s fun e => e.evt.refused = true ∧
        (getKey e.evt.snaps code).getD (List.replicate 8 0xFFFFFFFF) = old.set i 0xFFFFFFFF)) ∧
    (∀ p, Open s.dev p 0x50150 → Runs (.recorderClear p 0x7A3C) s fun e => e.evt.oldest = s.dev.evt.head + 1 ∧ e.evt.erasing = true ∧
      e.evt.recs = s.dev.evt.recs) ∧
    (∀ p f, Open s.dev p 0x50074 → s.dev.evt.ringBusy = false → f = regBits s.dev 0x50060 15 0 →
      (∀ n c g, n = regBits s.dev 0x50064 19 0 → getConn s.dev n = some c → c.ident.fold = f → g = regBits s.dev 0x50064 31 28 →
        6 ≤ g → g ≤ 12 → regBits s.dev 0x50068 5 0 = 0 → streamRefused s.dev = none →
        ctrlReady s.dev (.ringBind f n (BitVec.ofNat 64 ((reg s.dev 0x50068).toNat + (reg s.dev 0x5006C).toNat * 2 ^ 32)) (reg s.dev 0x50070) g) = true →
        Runs (.bind p) s fun e => e.evt.ringResult = 0 ∧ ∃ r, getKey e.evt.rings f = some r ∧ r.conn = n ∧ r.rlog = g ∧
          r.ckey = reg s.dev 0x50070 ∧ r.eseq = 0) ∧
      (streamRefused s.dev = none → ctrlReady s.dev (.ringUnbind f) = true → Runs (.unbind p) s fun e =>
        e.evt.ringResult = 0 ∧ getKey e.evt.rings f = none) ∧
      Runs (.ringQuery p) s (fun e => e.evt = { s.dev.evt with ringResult := 0 })) ∧
    (∀ drifts, Runs (.ageingSample drifts) s fun e => e.evt.ageMax = (largestDrift drifts).1 ∧ e.evt.ageMon = (largestDrift drifts).2 ∧
      e.evt.lHold = holdLife s.dev ∧ e.mem = s.dev.mem)

/-! ## Resets, the staging bank and the test port -/

/-- A warm reset is asked for by its pin or by command, quiesces, is held and leaves; a gallery, a fold, a connection or a port is
reset by command and the reset completes when its work has ended. Choices of the model: log 2, 34 and 41. -/
def Obligations.ResetsTakeTheirSteps : Prop :=
  ∀ (s : State),
    (s.dev.rst.warm = .none → s.dev.pwr.st = .rampUp → Runs .warmRstNAssert s fun e => e.rst.warm = .asked ∧ e.rst.byPin = true ∧
      e.pwr.warmLow = true) ∧
    (s.dev.rst.warm = .none → s.dev.pwr.st = .on → s.dev.ldg.stage = .firmware → s.dev.twin.st = .fenced → Runs .warmRstNAssert s fun e =>
      e.rst.warm = .quiesce ∧ e.rst.byPin = true ∧ e.mem = s.dev.mem) ∧
    (s.dev.rst.warm = .held → s.dev.rst.byPin = true → Runs .warmRstNRelease s fun e => e.rst.warm = .leaving ∧ e.pwr.warmLow = false) ∧
    (s.dev.rst.warm = .held → s.dev.rst.byPin = false → Becomes .warmResetHoldEnd s (s.dev.modRst fun r => { r with warm := .leaving })) ∧
    (s.dev.rst.warm = .quiesce → s.dev.dur.save = .idle → s.dev.ftl.progs = [] → s.dev.net.ops = [] → Runs .warmResetQuiesced s fun e =>
      e.rst.warm = .held ∧ e.twin.linkUp = false ∧ e.net.ctxCache = [] ∧ e.rst.galReset = []) ∧
    (∀ n, s.dev.rst.warm = .leaving → s.dev.dur.save = .idle → s.dev.twin.ident.isSome = true → s.dev.twin.linkUp = false →
      s.dev.upd.st ≠ .activating → Runs (.warmResetFinish n) s fun e => e.rst.warm = .none ∧ e.rst.warms = satUp 0xFFFF s.dev.rst.warms ∧
        e.rst.warmed = true ∧ ∀ c ∈ e.dram.chans, c.st ≠ .selfRefresh) ∧
    (∀ p, Open s.dev p 0x64 → s.dev.rst.run = none →
      Runs (.warm p 0x7A3C) s (fun e => e.rst = { s.dev.rst with warmDue := true, level := 1, result := .done }) ∧
      (target s.dev < 16 → Runs (.galleryReset p 0x7A3C) s fun e => e.rst =
        { s.dev.rst with run := some (.gallery (target s.dev)), due := true, level := 2, result := .done }) ∧
      (∀ f, f = target s.dev → f ≠ 0 → streamRefused s.dev = none → s.dev.folds.live.contains f = true →
        ctrlReady s.dev (.foldReset f) = true → Runs (.foldReset p) s fun e => e.rst.run = some (.fold f) ∧ e.rst.level = 3 ∧
          e.rst.result = .done) ∧
      (∀ n c, n = target s.dev → p ≠ .conn n → streamRefused s.dev = none → getConn s.dev n = some c → c.state = .quiescing →
        Runs (.connectionReset p) s fun e => e.rst.run = some (.connection n) ∧ e.rst.level = 4 ∧ e.rst.freeAfter.contains n = true) ∧
      (∀ n, n = target s.dev → portInUse s.dev n = true → n < s.dev.net.ports.length → linked s.dev n = true →
        Runs (.portReset p) s fun e => linked e n = false ∧ e.rst.level = 5 ∧ e.rst.result = .done)) ∧
    (∀ g, s.dev.rst.warmDue = false → s.dev.rst.run = some (.gallery g) → s.dev.rst.due = true → s.dev.net.ops = [] →
      Runs .warmResetStart s fun e => e.rst.due = false ∧ e.rst.galReset = g :: s.dev.rst.galReset ∧
        ∀ n ∈ e.net.ctxCache, homeOf n ≠ g) ∧
    (∀ g, s.dev.rst.run = some (.gallery g) → s.dev.rst.due = false → (∀ o ∈ s.dev.net.ops, homeOf o.conn ≠ g) →
      s.dev.twin.st = .fenced → Runs .galleryResetComplete s fun e => e.rst.run = none ∧ e.rst.result = .done ∧
        e.rst.galReset.contains g = false) ∧
    (∀ f, s.dev.rst.run = some (.fold f) → s.dev.twin.ctrlDue = [] → (∀ x ∈ s.dev.net.conns, x.2.ident.fold = f →
      x.2.state ≠ .active ∧ x.2.state ≠ .armed ∧ x.2.state ≠ .quiescing) → Runs .foldResetComplete s fun e =>
        e.rst = { s.dev.rst with run := none, result := .done } ∧ e.mem = s.dev.mem)

/-- One principal owns the staging bank from OPEN to COMMIT, ABANDON or its lapse; a COMMIT that must wait is retried when the old
work has drained. The test port's instructions are BYPASS while the port is closed, and IDCODE sends the identification word
(R568). Choices of the model: log 2, 35 and 39. -/
def Obligations.TheBankHasOneOwner : Prop :=
  ∀ (s : State) (p : Principal),
    (Open s.dev p 0x70 →
      (s.dev.rst.bankOwner = none → Runs (.stageOpen p) s fun e => e.rst =
        { s.dev.rst with bankOwner := some p, bank := [], overflow := false, bankResult := .done }) ∧
      (∀ q, s.dev.rst.bankOwner = some q → q ≠ p → Runs (.stageOpen p) s (fun e => e.rst = { s.dev.rst with bankResult := .owned }) ∧
        Runs (.stageCommit p) s (fun e => e.rst = { s.dev.rst with bankResult := .owned }) ∧
        Runs (.stageAbandon p) s (fun e => e.rst = { s.dev.rst with bankResult := .owned })) ∧
      (s.dev.rst.bankOwner = some p →
        (s.dev.rst.bankBusy = false → s.dev.rst.overflow = false → streamRefused s.dev = none → underOld s.dev = [] →
          s.dev.twin.ctrlDue = [] → ctrlReady s.dev (.config s.dev.rst.bank) = true → Runs (.stageCommit p) s fun e =>
            e.rst.bankOwner = none ∧ e.rst.bank = [] ∧ e.rst.bankResult = .done ∧ e.rst.bankBusy = false) ∧
        Runs (.stageAbandon p) s (fun e => e.rst =
          { s.dev.rst with bankOwner := none, bank := [], overflow := false, bankBusy := false, bankResult := .done }))) ∧
    (s.dev.rst.bankOwner = some p → s.dev.rst.bankBusy = false → Runs .stageBankLapse s fun e => e.rst =
      { s.dev.rst with bankOwner := none, bank := [], overflow := false, bankBusy := false, bankResult := .lapsed }) ∧
    (s.dev.rst.bankBusy = true → streamRefused s.dev = none → underOld s.dev = [] → s.dev.twin.ctrlDue = [] →
      ctrlReady s.dev (.config s.dev.rst.bank) = true → Runs .stageBankDrained s fun e => e.rst.bankOwner = none ∧ e.rst.bank = [] ∧
        e.rst.bankBusy = false ∧ e.rst.bankResult = .done) ∧
    Becomes .jtagBypass s { s.dev with jtag := .bypass } ∧
    Becomes .jtagIdcode s (emit { s.dev with jtag := .idcode } (.jtagIdcode 0x27256B43)) ∧
    (tapOpen s.dev = true → Becomes .jtagSamplePreload s { s.dev with jtag := .samplePreload } ∧
      Becomes .jtagExtest s { s.dev with jtag := .extest } ∧ Becomes .jtagClamp s { s.dev with jtag := .clamp } ∧
      Becomes .jtagHighz s { s.dev with jtag := .highz } ∧ Becomes .jtagExtestPulse s { s.dev with jtag := .extestPulse } ∧
      Becomes .jtagExtestTrain s { s.dev with jtag := .extestTrain }) ∧
    (tapOpen s.dev = false → Becomes .jtagSamplePreload s { s.dev with jtag := .bypass } ∧
      Becomes .jtagExtest s { s.dev with jtag := .bypass } ∧ Becomes .jtagHighz s { s.dev with jtag := .bypass })

end
end

