-- ==== Sys2Proof/Laws/State.lean ====
section
/-! SUPPORT. One lemma for each field of the device under each of its updates, so that no proof unfolds a record update. -/
namespace Sys2Proof.Machine

@[simp] theorem Dev.modFolds_clock (d : Dev) (f : Folds → Folds) : (d.modFolds f).clock = d.clock := rfl
@[simp] theorem Dev.modFolds_freeIdx (d : Dev) (f : Folds → Folds) : (d.modFolds f).freeIdx = d.freeIdx := rfl
@[simp] theorem Dev.modFolds_env (d : Dev) (f : Folds → Folds) : (d.modFolds f).env = d.env := rfl
@[simp] theorem Dev.modFolds_mem (d : Dev) (f : Folds → Folds) : (d.modFolds f).mem = d.mem := rfl
@[simp] theorem Dev.modFolds_regs (d : Dev) (f : Folds → Folds) : (d.modFolds f).regs = d.regs := rfl
@[simp] theorem Dev.modFolds_idUse (d : Dev) (f : Folds → Folds) : (d.modFolds f).idUse = d.idUse := rfl
@[simp] theorem Dev.modFolds_latches (d : Dev) (f : Folds → Folds) : (d.modFolds f).latches = d.latches := rfl
@[simp] theorem Dev.modFolds_answer (d : Dev) (f : Folds → Folds) : (d.modFolds f).answer = d.answer := rfl
@[simp] theorem Dev.modFolds_sent (d : Dev) (f : Folds → Folds) : (d.modFolds f).sent = d.sent := rfl
@[simp] theorem Dev.modFolds_folds (d : Dev) (f : Folds → Folds) : (d.modFolds f).folds = f d.folds := rfl
@[simp] theorem Dev.modFolds_net (d : Dev) (f : Folds → Folds) : (d.modFolds f).net = d.net := rfl
@[simp] theorem Dev.modFolds_twin (d : Dev) (f : Folds → Folds) : (d.modFolds f).twin = d.twin := rfl
@[simp] theorem Dev.modFolds_dur (d : Dev) (f : Folds → Folds) : (d.modFolds f).dur = d.dur := rfl
@[simp] theorem Dev.modFolds_ftl (d : Dev) (f : Folds → Folds) : (d.modFolds f).ftl = d.ftl := rfl
@[simp] theorem Dev.modFolds_dram (d : Dev) (f : Folds → Folds) : (d.modFolds f).dram = d.dram := rfl
@[simp] theorem Dev.modFolds_hall (d : Dev) (f : Folds → Folds) : (d.modFolds f).hall = d.hall := rfl
@[simp] theorem Dev.modFolds_sec (d : Dev) (f : Folds → Folds) : (d.modFolds f).sec = d.sec := rfl
@[simp] theorem Dev.modFolds_ldg (d : Dev) (f : Folds → Folds) : (d.modFolds f).ldg = d.ldg := rfl
@[simp] theorem Dev.modFolds_upd (d : Dev) (f : Folds → Folds) : (d.modFolds f).upd = d.upd := rfl
@[simp] theorem Dev.modFolds_pwr (d : Dev) (f : Folds → Folds) : (d.modFolds f).pwr = d.pwr := rfl
@[simp] theorem Dev.modFolds_evt (d : Dev) (f : Folds → Folds) : (d.modFolds f).evt = d.evt := rfl
@[simp] theorem Dev.modFolds_rst (d : Dev) (f : Folds → Folds) : (d.modFolds f).rst = d.rst := rfl
@[simp] theorem Dev.modFolds_i3c (d : Dev) (f : Folds → Folds) : (d.modFolds f).i3c = d.i3c := rfl
@[simp] theorem Dev.modFolds_jtag (d : Dev) (f : Folds → Folds) : (d.modFolds f).jtag = d.jtag := rfl

@[simp] theorem Dev.modNet_clock (d : Dev) (f : Net → Net) : (d.modNet f).clock = d.clock := rfl
@[simp] theorem Dev.modNet_freeIdx (d : Dev) (f : Net → Net) : (d.modNet f).freeIdx = d.freeIdx := rfl
@[simp] theorem Dev.modNet_env (d : Dev) (f : Net → Net) : (d.modNet f).env = d.env := rfl
@[simp] theorem Dev.modNet_mem (d : Dev) (f : Net → Net) : (d.modNet f).mem = d.mem := rfl
@[simp] theorem Dev.modNet_regs (d : Dev) (f : Net → Net) : (d.modNet f).regs = d.regs := rfl
@[simp] theorem Dev.modNet_idUse (d : Dev) (f : Net → Net) : (d.modNet f).idUse = d.idUse := rfl
@[simp] theorem Dev.modNet_latches (d : Dev) (f : Net → Net) : (d.modNet f).latches = d.latches := rfl
@[simp] theorem Dev.modNet_answer (d : Dev) (f : Net → Net) : (d.modNet f).answer = d.answer := rfl
@[simp] theorem Dev.modNet_sent (d : Dev) (f : Net → Net) : (d.modNet f).sent = d.sent := rfl
@[simp] theorem Dev.modNet_folds (d : Dev) (f : Net → Net) : (d.modNet f).folds = d.folds := rfl
@[simp] theorem Dev.modNet_net (d : Dev) (f : Net → Net) : (d.modNet f).net = f d.net := rfl
@[simp] theorem Dev.modNet_twin (d : Dev) (f : Net → Net) : (d.modNet f).twin = d.twin := rfl
@[simp] theorem Dev.modNet_dur (d : Dev) (f : Net → Net) : (d.modNet f).dur = d.dur := rfl
@[simp] theorem Dev.modNet_ftl (d : Dev) (f : Net → Net) : (d.modNet f).ftl = d.ftl := rfl
@[simp] theorem Dev.modNet_dram (d : Dev) (f : Net → Net) : (d.modNet f).dram = d.dram := rfl
@[simp] theorem Dev.modNet_hall (d : Dev) (f : Net → Net) : (d.modNet f).hall = d.hall := rfl
@[simp] theorem Dev.modNet_sec (d : Dev) (f : Net → Net) : (d.modNet f).sec = d.sec := rfl
@[simp] theorem Dev.modNet_ldg (d : Dev) (f : Net → Net) : (d.modNet f).ldg = d.ldg := rfl
@[simp] theorem Dev.modNet_upd (d : Dev) (f : Net → Net) : (d.modNet f).upd = d.upd := rfl
@[simp] theorem Dev.modNet_pwr (d : Dev) (f : Net → Net) : (d.modNet f).pwr = d.pwr := rfl
@[simp] theorem Dev.modNet_evt (d : Dev) (f : Net → Net) : (d.modNet f).evt = d.evt := rfl
@[simp] theorem Dev.modNet_rst (d : Dev) (f : Net → Net) : (d.modNet f).rst = d.rst := rfl
@[simp] theorem Dev.modNet_i3c (d : Dev) (f : Net → Net) : (d.modNet f).i3c = d.i3c := rfl
@[simp] theorem Dev.modNet_jtag (d : Dev) (f : Net → Net) : (d.modNet f).jtag = d.jtag := rfl

@[simp] theorem Dev.modTwin_clock (d : Dev) (f : Twin → Twin) : (d.modTwin f).clock = d.clock := rfl
@[simp] theorem Dev.modTwin_freeIdx (d : Dev) (f : Twin → Twin) : (d.modTwin f).freeIdx = d.freeIdx := rfl
@[simp] theorem Dev.modTwin_env (d : Dev) (f : Twin → Twin) : (d.modTwin f).env = d.env := rfl
@[simp] theorem Dev.modTwin_mem (d : Dev) (f : Twin → Twin) : (d.modTwin f).mem = d.mem := rfl
@[simp] theorem Dev.modTwin_regs (d : Dev) (f : Twin → Twin) : (d.modTwin f).regs = d.regs := rfl
@[simp] theorem Dev.modTwin_idUse (d : Dev) (f : Twin → Twin) : (d.modTwin f).idUse = d.idUse := rfl
@[simp] theorem Dev.modTwin_latches (d : Dev) (f : Twin → Twin) : (d.modTwin f).latches = d.latches := rfl
@[simp] theorem Dev.modTwin_answer (d : Dev) (f : Twin → Twin) : (d.modTwin f).answer = d.answer := rfl
@[simp] theorem Dev.modTwin_sent (d : Dev) (f : Twin → Twin) : (d.modTwin f).sent = d.sent := rfl
@[simp] theorem Dev.modTwin_folds (d : Dev) (f : Twin → Twin) : (d.modTwin f).folds = d.folds := rfl
@[simp] theorem Dev.modTwin_net (d : Dev) (f : Twin → Twin) : (d.modTwin f).net = d.net := rfl
@[simp] theorem Dev.modTwin_twin (d : Dev) (f : Twin → Twin) : (d.modTwin f).twin = f d.twin := rfl
@[simp] theorem Dev.modTwin_dur (d : Dev) (f : Twin → Twin) : (d.modTwin f).dur = d.dur := rfl
@[simp] theorem Dev.modTwin_ftl (d : Dev) (f : Twin → Twin) : (d.modTwin f).ftl = d.ftl := rfl
@[simp] theorem Dev.modTwin_dram (d : Dev) (f : Twin → Twin) : (d.modTwin f).dram = d.dram := rfl
@[simp] theorem Dev.modTwin_hall (d : Dev) (f : Twin → Twin) : (d.modTwin f).hall = d.hall := rfl
@[simp] theorem Dev.modTwin_sec (d : Dev) (f : Twin → Twin) : (d.modTwin f).sec = d.sec := rfl
@[simp] theorem Dev.modTwin_ldg (d : Dev) (f : Twin → Twin) : (d.modTwin f).ldg = d.ldg := rfl
@[simp] theorem Dev.modTwin_upd (d : Dev) (f : Twin → Twin) : (d.modTwin f).upd = d.upd := rfl
@[simp] theorem Dev.modTwin_pwr (d : Dev) (f : Twin → Twin) : (d.modTwin f).pwr = d.pwr := rfl
@[simp] theorem Dev.modTwin_evt (d : Dev) (f : Twin → Twin) : (d.modTwin f).evt = d.evt := rfl
@[simp] theorem Dev.modTwin_rst (d : Dev) (f : Twin → Twin) : (d.modTwin f).rst = d.rst := rfl
@[simp] theorem Dev.modTwin_i3c (d : Dev) (f : Twin → Twin) : (d.modTwin f).i3c = d.i3c := rfl
@[simp] theorem Dev.modTwin_jtag (d : Dev) (f : Twin → Twin) : (d.modTwin f).jtag = d.jtag := rfl

@[simp] theorem Dev.modDur_clock (d : Dev) (f : Dur → Dur) : (d.modDur f).clock = d.clock := rfl
@[simp] theorem Dev.modDur_freeIdx (d : Dev) (f : Dur → Dur) : (d.modDur f).freeIdx = d.freeIdx := rfl
@[simp] theorem Dev.modDur_env (d : Dev) (f : Dur → Dur) : (d.modDur f).env = d.env := rfl
@[simp] theorem Dev.modDur_mem (d : Dev) (f : Dur → Dur) : (d.modDur f).mem = d.mem := rfl
@[simp] theorem Dev.modDur_regs (d : Dev) (f : Dur → Dur) : (d.modDur f).regs = d.regs := rfl
@[simp] theorem Dev.modDur_idUse (d : Dev) (f : Dur → Dur) : (d.modDur f).idUse = d.idUse := rfl
@[simp] theorem Dev.modDur_latches (d : Dev) (f : Dur → Dur) : (d.modDur f).latches = d.latches := rfl
@[simp] theorem Dev.modDur_answer (d : Dev) (f : Dur → Dur) : (d.modDur f).answer = d.answer := rfl
@[simp] theorem Dev.modDur_sent (d : Dev) (f : Dur → Dur) : (d.modDur f).sent = d.sent := rfl
@[simp] theorem Dev.modDur_folds (d : Dev) (f : Dur → Dur) : (d.modDur f).folds = d.folds := rfl
@[simp] theorem Dev.modDur_net (d : Dev) (f : Dur → Dur) : (d.modDur f).net = d.net := rfl
@[simp] theorem Dev.modDur_twin (d : Dev) (f : Dur → Dur) : (d.modDur f).twin = d.twin := rfl
@[simp] theorem Dev.modDur_dur (d : Dev) (f : Dur → Dur) : (d.modDur f).dur = f d.dur := rfl
@[simp] theorem Dev.modDur_ftl (d : Dev) (f : Dur → Dur) : (d.modDur f).ftl = d.ftl := rfl
@[simp] theorem Dev.modDur_dram (d : Dev) (f : Dur → Dur) : (d.modDur f).dram = d.dram := rfl
@[simp] theorem Dev.modDur_hall (d : Dev) (f : Dur → Dur) : (d.modDur f).hall = d.hall := rfl
@[simp] theorem Dev.modDur_sec (d : Dev) (f : Dur → Dur) : (d.modDur f).sec = d.sec := rfl
@[simp] theorem Dev.modDur_ldg (d : Dev) (f : Dur → Dur) : (d.modDur f).ldg = d.ldg := rfl
@[simp] theorem Dev.modDur_upd (d : Dev) (f : Dur → Dur) : (d.modDur f).upd = d.upd := rfl
@[simp] theorem Dev.modDur_pwr (d : Dev) (f : Dur → Dur) : (d.modDur f).pwr = d.pwr := rfl
@[simp] theorem Dev.modDur_evt (d : Dev) (f : Dur → Dur) : (d.modDur f).evt = d.evt := rfl
@[simp] theorem Dev.modDur_rst (d : Dev) (f : Dur → Dur) : (d.modDur f).rst = d.rst := rfl
@[simp] theorem Dev.modDur_i3c (d : Dev) (f : Dur → Dur) : (d.modDur f).i3c = d.i3c := rfl
@[simp] theorem Dev.modDur_jtag (d : Dev) (f : Dur → Dur) : (d.modDur f).jtag = d.jtag := rfl

@[simp] theorem Dev.modFtl_clock (d : Dev) (f : Ftl → Ftl) : (d.modFtl f).clock = d.clock := rfl
@[simp] theorem Dev.modFtl_freeIdx (d : Dev) (f : Ftl → Ftl) : (d.modFtl f).freeIdx = d.freeIdx := rfl
@[simp] theorem Dev.modFtl_env (d : Dev) (f : Ftl → Ftl) : (d.modFtl f).env = d.env := rfl
@[simp] theorem Dev.modFtl_mem (d : Dev) (f : Ftl → Ftl) : (d.modFtl f).mem = d.mem := rfl
@[simp] theorem Dev.modFtl_regs (d : Dev) (f : Ftl → Ftl) : (d.modFtl f).regs = d.regs := rfl
@[simp] theorem Dev.modFtl_idUse (d : Dev) (f : Ftl → Ftl) : (d.modFtl f).idUse = d.idUse := rfl
@[simp] theorem Dev.modFtl_latches (d : Dev) (f : Ftl → Ftl) : (d.modFtl f).latches = d.latches := rfl
@[simp] theorem Dev.modFtl_answer (d : Dev) (f : Ftl → Ftl) : (d.modFtl f).answer = d.answer := rfl
@[simp] theorem Dev.modFtl_sent (d : Dev) (f : Ftl → Ftl) : (d.modFtl f).sent = d.sent := rfl
@[simp] theorem Dev.modFtl_folds (d : Dev) (f : Ftl → Ftl) : (d.modFtl f).folds = d.folds := rfl
@[simp] theorem Dev.modFtl_net (d : Dev) (f : Ftl → Ftl) : (d.modFtl f).net = d.net := rfl
@[simp] theorem Dev.modFtl_twin (d : Dev) (f : Ftl → Ftl) : (d.modFtl f).twin = d.twin := rfl
@[simp] theorem Dev.modFtl_dur (d : Dev) (f : Ftl → Ftl) : (d.modFtl f).dur = d.dur := rfl
@[simp] theorem Dev.modFtl_ftl (d : Dev) (f : Ftl → Ftl) : (d.modFtl f).ftl = f d.ftl := rfl
@[simp] theorem Dev.modFtl_dram (d : Dev) (f : Ftl → Ftl) : (d.modFtl f).dram = d.dram := rfl
@[simp] theorem Dev.modFtl_hall (d : Dev) (f : Ftl → Ftl) : (d.modFtl f).hall = d.hall := rfl
@[simp] theorem Dev.modFtl_sec (d : Dev) (f : Ftl → Ftl) : (d.modFtl f).sec = d.sec := rfl
@[simp] theorem Dev.modFtl_ldg (d : Dev) (f : Ftl → Ftl) : (d.modFtl f).ldg = d.ldg := rfl
@[simp] theorem Dev.modFtl_upd (d : Dev) (f : Ftl → Ftl) : (d.modFtl f).upd = d.upd := rfl
@[simp] theorem Dev.modFtl_pwr (d : Dev) (f : Ftl → Ftl) : (d.modFtl f).pwr = d.pwr := rfl
@[simp] theorem Dev.modFtl_evt (d : Dev) (f : Ftl → Ftl) : (d.modFtl f).evt = d.evt := rfl
@[simp] theorem Dev.modFtl_rst (d : Dev) (f : Ftl → Ftl) : (d.modFtl f).rst = d.rst := rfl
@[simp] theorem Dev.modFtl_i3c (d : Dev) (f : Ftl → Ftl) : (d.modFtl f).i3c = d.i3c := rfl
@[simp] theorem Dev.modFtl_jtag (d : Dev) (f : Ftl → Ftl) : (d.modFtl f).jtag = d.jtag := rfl

@[simp] theorem Dev.modDram_clock (d : Dev) (f : Dram → Dram) : (d.modDram f).clock = d.clock := rfl
@[simp] theorem Dev.modDram_freeIdx (d : Dev) (f : Dram → Dram) : (d.modDram f).freeIdx = d.freeIdx := rfl
@[simp] theorem Dev.modDram_env (d : Dev) (f : Dram → Dram) : (d.modDram f).env = d.env := rfl
@[simp] theorem Dev.modDram_mem (d : Dev) (f : Dram → Dram) : (d.modDram f).mem = d.mem := rfl
@[simp] theorem Dev.modDram_regs (d : Dev) (f : Dram → Dram) : (d.modDram f).regs = d.regs := rfl
@[simp] theorem Dev.modDram_idUse (d : Dev) (f : Dram → Dram) : (d.modDram f).idUse = d.idUse := rfl
@[simp] theorem Dev.modDram_latches (d : Dev) (f : Dram → Dram) : (d.modDram f).latches = d.latches := rfl
@[simp] theorem Dev.modDram_answer (d : Dev) (f : Dram → Dram) : (d.modDram f).answer = d.answer := rfl
@[simp] theorem Dev.modDram_sent (d : Dev) (f : Dram → Dram) : (d.modDram f).sent = d.sent := rfl
@[simp] theorem Dev.modDram_folds (d : Dev) (f : Dram → Dram) : (d.modDram f).folds = d.folds := rfl
@[simp] theorem Dev.modDram_net (d : Dev) (f : Dram → Dram) : (d.modDram f).net = d.net := rfl
@[simp] theorem Dev.modDram_twin (d : Dev) (f : Dram → Dram) : (d.modDram f).twin = d.twin := rfl
@[simp] theorem Dev.modDram_dur (d : Dev) (f : Dram → Dram) : (d.modDram f).dur = d.dur := rfl
@[simp] theorem Dev.modDram_ftl (d : Dev) (f : Dram → Dram) : (d.modDram f).ftl = d.ftl := rfl
@[simp] theorem Dev.modDram_dram (d : Dev) (f : Dram → Dram) : (d.modDram f).dram = f d.dram := rfl
@[simp] theorem Dev.modDram_hall (d : Dev) (f : Dram → Dram) : (d.modDram f).hall = d.hall := rfl
@[simp] theorem Dev.modDram_sec (d : Dev) (f : Dram → Dram) : (d.modDram f).sec = d.sec := rfl
@[simp] theorem Dev.modDram_ldg (d : Dev) (f : Dram → Dram) : (d.modDram f).ldg = d.ldg := rfl
@[simp] theorem Dev.modDram_upd (d : Dev) (f : Dram → Dram) : (d.modDram f).upd = d.upd := rfl
@[simp] theorem Dev.modDram_pwr (d : Dev) (f : Dram → Dram) : (d.modDram f).pwr = d.pwr := rfl
@[simp] theorem Dev.modDram_evt (d : Dev) (f : Dram → Dram) : (d.modDram f).evt = d.evt := rfl
@[simp] theorem Dev.modDram_rst (d : Dev) (f : Dram → Dram) : (d.modDram f).rst = d.rst := rfl
@[simp] theorem Dev.modDram_i3c (d : Dev) (f : Dram → Dram) : (d.modDram f).i3c = d.i3c := rfl
@[simp] theorem Dev.modDram_jtag (d : Dev) (f : Dram → Dram) : (d.modDram f).jtag = d.jtag := rfl

@[simp] theorem Dev.modHall_clock (d : Dev) (f : Hall → Hall) : (d.modHall f).clock = d.clock := rfl
@[simp] theorem Dev.modHall_freeIdx (d : Dev) (f : Hall → Hall) : (d.modHall f).freeIdx = d.freeIdx := rfl
@[simp] theorem Dev.modHall_env (d : Dev) (f : Hall → Hall) : (d.modHall f).env = d.env := rfl
@[simp] theorem Dev.modHall_mem (d : Dev) (f : Hall → Hall) : (d.modHall f).mem = d.mem := rfl
@[simp] theorem Dev.modHall_regs (d : Dev) (f : Hall → Hall) : (d.modHall f).regs = d.regs := rfl
@[simp] theorem Dev.modHall_idUse (d : Dev) (f : Hall → Hall) : (d.modHall f).idUse = d.idUse := rfl
@[simp] theorem Dev.modHall_latches (d : Dev) (f : Hall → Hall) : (d.modHall f).latches = d.latches := rfl
@[simp] theorem Dev.modHall_answer (d : Dev) (f : Hall → Hall) : (d.modHall f).answer = d.answer := rfl
@[simp] theorem Dev.modHall_sent (d : Dev) (f : Hall → Hall) : (d.modHall f).sent = d.sent := rfl
@[simp] theorem Dev.modHall_folds (d : Dev) (f : Hall → Hall) : (d.modHall f).folds = d.folds := rfl
@[simp] theorem Dev.modHall_net (d : Dev) (f : Hall → Hall) : (d.modHall f).net = d.net := rfl
@[simp] theorem Dev.modHall_twin (d : Dev) (f : Hall → Hall) : (d.modHall f).twin = d.twin := rfl
@[simp] theorem Dev.modHall_dur (d : Dev) (f : Hall → Hall) : (d.modHall f).dur = d.dur := rfl
@[simp] theorem Dev.modHall_ftl (d : Dev) (f : Hall → Hall) : (d.modHall f).ftl = d.ftl := rfl
@[simp] theorem Dev.modHall_dram (d : Dev) (f : Hall → Hall) : (d.modHall f).dram = d.dram := rfl
@[simp] theorem Dev.modHall_hall (d : Dev) (f : Hall → Hall) : (d.modHall f).hall = f d.hall := rfl
@[simp] theorem Dev.modHall_sec (d : Dev) (f : Hall → Hall) : (d.modHall f).sec = d.sec := rfl
@[simp] theorem Dev.modHall_ldg (d : Dev) (f : Hall → Hall) : (d.modHall f).ldg = d.ldg := rfl
@[simp] theorem Dev.modHall_upd (d : Dev) (f : Hall → Hall) : (d.modHall f).upd = d.upd := rfl
@[simp] theorem Dev.modHall_pwr (d : Dev) (f : Hall → Hall) : (d.modHall f).pwr = d.pwr := rfl
@[simp] theorem Dev.modHall_evt (d : Dev) (f : Hall → Hall) : (d.modHall f).evt = d.evt := rfl
@[simp] theorem Dev.modHall_rst (d : Dev) (f : Hall → Hall) : (d.modHall f).rst = d.rst := rfl
@[simp] theorem Dev.modHall_i3c (d : Dev) (f : Hall → Hall) : (d.modHall f).i3c = d.i3c := rfl
@[simp] theorem Dev.modHall_jtag (d : Dev) (f : Hall → Hall) : (d.modHall f).jtag = d.jtag := rfl

@[simp] theorem Dev.modSec_clock (d : Dev) (f : Sec → Sec) : (d.modSec f).clock = d.clock := rfl
@[simp] theorem Dev.modSec_freeIdx (d : Dev) (f : Sec → Sec) : (d.modSec f).freeIdx = d.freeIdx := rfl
@[simp] theorem Dev.modSec_env (d : Dev) (f : Sec → Sec) : (d.modSec f).env = d.env := rfl
@[simp] theorem Dev.modSec_mem (d : Dev) (f : Sec → Sec) : (d.modSec f).mem = d.mem := rfl
@[simp] theorem Dev.modSec_regs (d : Dev) (f : Sec → Sec) : (d.modSec f).regs = d.regs := rfl
@[simp] theorem Dev.modSec_idUse (d : Dev) (f : Sec → Sec) : (d.modSec f).idUse = d.idUse := rfl
@[simp] theorem Dev.modSec_latches (d : Dev) (f : Sec → Sec) : (d.modSec f).latches = d.latches := rfl
@[simp] theorem Dev.modSec_answer (d : Dev) (f : Sec → Sec) : (d.modSec f).answer = d.answer := rfl
@[simp] theorem Dev.modSec_sent (d : Dev) (f : Sec → Sec) : (d.modSec f).sent = d.sent := rfl
@[simp] theorem Dev.modSec_folds (d : Dev) (f : Sec → Sec) : (d.modSec f).folds = d.folds := rfl
@[simp] theorem Dev.modSec_net (d : Dev) (f : Sec → Sec) : (d.modSec f).net = d.net := rfl
@[simp] theorem Dev.modSec_twin (d : Dev) (f : Sec → Sec) : (d.modSec f).twin = d.twin := rfl
@[simp] theorem Dev.modSec_dur (d : Dev) (f : Sec → Sec) : (d.modSec f).dur = d.dur := rfl
@[simp] theorem Dev.modSec_ftl (d : Dev) (f : Sec → Sec) : (d.modSec f).ftl = d.ftl := rfl
@[simp] theorem Dev.modSec_dram (d : Dev) (f : Sec → Sec) : (d.modSec f).dram = d.dram := rfl
@[simp] theorem Dev.modSec_hall (d : Dev) (f : Sec → Sec) : (d.modSec f).hall = d.hall := rfl
@[simp] theorem Dev.modSec_sec (d : Dev) (f : Sec → Sec) : (d.modSec f).sec = f d.sec := rfl
@[simp] theorem Dev.modSec_ldg (d : Dev) (f : Sec → Sec) : (d.modSec f).ldg = d.ldg := rfl
@[simp] theorem Dev.modSec_upd (d : Dev) (f : Sec → Sec) : (d.modSec f).upd = d.upd := rfl
@[simp] theorem Dev.modSec_pwr (d : Dev) (f : Sec → Sec) : (d.modSec f).pwr = d.pwr := rfl
@[simp] theorem Dev.modSec_evt (d : Dev) (f : Sec → Sec) : (d.modSec f).evt = d.evt := rfl
@[simp] theorem Dev.modSec_rst (d : Dev) (f : Sec → Sec) : (d.modSec f).rst = d.rst := rfl
@[simp] theorem Dev.modSec_i3c (d : Dev) (f : Sec → Sec) : (d.modSec f).i3c = d.i3c := rfl
@[simp] theorem Dev.modSec_jtag (d : Dev) (f : Sec → Sec) : (d.modSec f).jtag = d.jtag := rfl

@[simp] theorem Dev.modLdg_clock (d : Dev) (f : Ledger → Ledger) : (d.modLdg f).clock = d.clock := rfl
@[simp] theorem Dev.modLdg_freeIdx (d : Dev) (f : Ledger → Ledger) : (d.modLdg f).freeIdx = d.freeIdx := rfl
@[simp] theorem Dev.modLdg_env (d : Dev) (f : Ledger → Ledger) : (d.modLdg f).env = d.env := rfl
@[simp] theorem Dev.modLdg_mem (d : Dev) (f : Ledger → Ledger) : (d.modLdg f).mem = d.mem := rfl
@[simp] theorem Dev.modLdg_regs (d : Dev) (f : Ledger → Ledger) : (d.modLdg f).regs = d.regs := rfl
@[simp] theorem Dev.modLdg_idUse (d : Dev) (f : Ledger → Ledger) : (d.modLdg f).idUse = d.idUse := rfl
@[simp] theorem Dev.modLdg_latches (d : Dev) (f : Ledger → Ledger) : (d.modLdg f).latches = d.latches := rfl
@[simp] theorem Dev.modLdg_answer (d : Dev) (f : Ledger → Ledger) : (d.modLdg f).answer = d.answer := rfl
@[simp] theorem Dev.modLdg_sent (d : Dev) (f : Ledger → Ledger) : (d.modLdg f).sent = d.sent := rfl
@[simp] theorem Dev.modLdg_folds (d : Dev) (f : Ledger → Ledger) : (d.modLdg f).folds = d.folds := rfl
@[simp] theorem Dev.modLdg_net (d : Dev) (f : Ledger → Ledger) : (d.modLdg f).net = d.net := rfl
@[simp] theorem Dev.modLdg_twin (d : Dev) (f : Ledger → Ledger) : (d.modLdg f).twin = d.twin := rfl
@[simp] theorem Dev.modLdg_dur (d : Dev) (f : Ledger → Ledger) : (d.modLdg f).dur = d.dur := rfl
@[simp] theorem Dev.modLdg_ftl (d : Dev) (f : Ledger → Ledger) : (d.modLdg f).ftl = d.ftl := rfl
@[simp] theorem Dev.modLdg_dram (d : Dev) (f : Ledger → Ledger) : (d.modLdg f).dram = d.dram := rfl
@[simp] theorem Dev.modLdg_hall (d : Dev) (f : Ledger → Ledger) : (d.modLdg f).hall = d.hall := rfl
@[simp] theorem Dev.modLdg_sec (d : Dev) (f : Ledger → Ledger) : (d.modLdg f).sec = d.sec := rfl
@[simp] theorem Dev.modLdg_ldg (d : Dev) (f : Ledger → Ledger) : (d.modLdg f).ldg = f d.ldg := rfl
@[simp] theorem Dev.modLdg_upd (d : Dev) (f : Ledger → Ledger) : (d.modLdg f).upd = d.upd := rfl
@[simp] theorem Dev.modLdg_pwr (d : Dev) (f : Ledger → Ledger) : (d.modLdg f).pwr = d.pwr := rfl
@[simp] theorem Dev.modLdg_evt (d : Dev) (f : Ledger → Ledger) : (d.modLdg f).evt = d.evt := rfl
@[simp] theorem Dev.modLdg_rst (d : Dev) (f : Ledger → Ledger) : (d.modLdg f).rst = d.rst := rfl
@[simp] theorem Dev.modLdg_i3c (d : Dev) (f : Ledger → Ledger) : (d.modLdg f).i3c = d.i3c := rfl
@[simp] theorem Dev.modLdg_jtag (d : Dev) (f : Ledger → Ledger) : (d.modLdg f).jtag = d.jtag := rfl

@[simp] theorem Dev.modUpd_clock (d : Dev) (f : Upd → Upd) : (d.modUpd f).clock = d.clock := rfl
@[simp] theorem Dev.modUpd_freeIdx (d : Dev) (f : Upd → Upd) : (d.modUpd f).freeIdx = d.freeIdx := rfl
@[simp] theorem Dev.modUpd_env (d : Dev) (f : Upd → Upd) : (d.modUpd f).env = d.env := rfl
@[simp] theorem Dev.modUpd_mem (d : Dev) (f : Upd → Upd) : (d.modUpd f).mem = d.mem := rfl
@[simp] theorem Dev.modUpd_regs (d : Dev) (f : Upd → Upd) : (d.modUpd f).regs = d.regs := rfl
@[simp] theorem Dev.modUpd_idUse (d : Dev) (f : Upd → Upd) : (d.modUpd f).idUse = d.idUse := rfl
@[simp] theorem Dev.modUpd_latches (d : Dev) (f : Upd → Upd) : (d.modUpd f).latches = d.latches := rfl
@[simp] theorem Dev.modUpd_answer (d : Dev) (f : Upd → Upd) : (d.modUpd f).answer = d.answer := rfl
@[simp] theorem Dev.modUpd_sent (d : Dev) (f : Upd → Upd) : (d.modUpd f).sent = d.sent := rfl
@[simp] theorem Dev.modUpd_folds (d : Dev) (f : Upd → Upd) : (d.modUpd f).folds = d.folds := rfl
@[simp] theorem Dev.modUpd_net (d : Dev) (f : Upd → Upd) : (d.modUpd f).net = d.net := rfl
@[simp] theorem Dev.modUpd_twin (d : Dev) (f : Upd → Upd) : (d.modUpd f).twin = d.twin := rfl
@[simp] theorem Dev.modUpd_dur (d : Dev) (f : Upd → Upd) : (d.modUpd f).dur = d.dur := rfl
@[simp] theorem Dev.modUpd_ftl (d : Dev) (f : Upd → Upd) : (d.modUpd f).ftl = d.ftl := rfl
@[simp] theorem Dev.modUpd_dram (d : Dev) (f : Upd → Upd) : (d.modUpd f).dram = d.dram := rfl
@[simp] theorem Dev.modUpd_hall (d : Dev) (f : Upd → Upd) : (d.modUpd f).hall = d.hall := rfl
@[simp] theorem Dev.modUpd_sec (d : Dev) (f : Upd → Upd) : (d.modUpd f).sec = d.sec := rfl
@[simp] theorem Dev.modUpd_ldg (d : Dev) (f : Upd → Upd) : (d.modUpd f).ldg = d.ldg := rfl
@[simp] theorem Dev.modUpd_upd (d : Dev) (f : Upd → Upd) : (d.modUpd f).upd = f d.upd := rfl
@[simp] theorem Dev.modUpd_pwr (d : Dev) (f : Upd → Upd) : (d.modUpd f).pwr = d.pwr := rfl
@[simp] theorem Dev.modUpd_evt (d : Dev) (f : Upd → Upd) : (d.modUpd f).evt = d.evt := rfl
@[simp] theorem Dev.modUpd_rst (d : Dev) (f : Upd → Upd) : (d.modUpd f).rst = d.rst := rfl
@[simp] theorem Dev.modUpd_i3c (d : Dev) (f : Upd → Upd) : (d.modUpd f).i3c = d.i3c := rfl
@[simp] theorem Dev.modUpd_jtag (d : Dev) (f : Upd → Upd) : (d.modUpd f).jtag = d.jtag := rfl

@[simp] theorem Dev.modPwr_clock (d : Dev) (f : Pwr → Pwr) : (d.modPwr f).clock = d.clock := rfl
@[simp] theorem Dev.modPwr_freeIdx (d : Dev) (f : Pwr → Pwr) : (d.modPwr f).freeIdx = d.freeIdx := rfl
@[simp] theorem Dev.modPwr_env (d : Dev) (f : Pwr → Pwr) : (d.modPwr f).env = d.env := rfl
@[simp] theorem Dev.modPwr_mem (d : Dev) (f : Pwr → Pwr) : (d.modPwr f).mem = d.mem := rfl
@[simp] theorem Dev.modPwr_regs (d : Dev) (f : Pwr → Pwr) : (d.modPwr f).regs = d.regs := rfl
@[simp] theorem Dev.modPwr_idUse (d : Dev) (f : Pwr → Pwr) : (d.modPwr f).idUse = d.idUse := rfl
@[simp] theorem Dev.modPwr_latches (d : Dev) (f : Pwr → Pwr) : (d.modPwr f).latches = d.latches := rfl
@[simp] theorem Dev.modPwr_answer (d : Dev) (f : Pwr → Pwr) : (d.modPwr f).answer = d.answer := rfl
@[simp] theorem Dev.modPwr_sent (d : Dev) (f : Pwr → Pwr) : (d.modPwr f).sent = d.sent := rfl
@[simp] theorem Dev.modPwr_folds (d : Dev) (f : Pwr → Pwr) : (d.modPwr f).folds = d.folds := rfl
@[simp] theorem Dev.modPwr_net (d : Dev) (f : Pwr → Pwr) : (d.modPwr f).net = d.net := rfl
@[simp] theorem Dev.modPwr_twin (d : Dev) (f : Pwr → Pwr) : (d.modPwr f).twin = d.twin := rfl
@[simp] theorem Dev.modPwr_dur (d : Dev) (f : Pwr → Pwr) : (d.modPwr f).dur = d.dur := rfl
@[simp] theorem Dev.modPwr_ftl (d : Dev) (f : Pwr → Pwr) : (d.modPwr f).ftl = d.ftl := rfl
@[simp] theorem Dev.modPwr_dram (d : Dev) (f : Pwr → Pwr) : (d.modPwr f).dram = d.dram := rfl
@[simp] theorem Dev.modPwr_hall (d : Dev) (f : Pwr → Pwr) : (d.modPwr f).hall = d.hall := rfl
@[simp] theorem Dev.modPwr_sec (d : Dev) (f : Pwr → Pwr) : (d.modPwr f).sec = d.sec := rfl
@[simp] theorem Dev.modPwr_ldg (d : Dev) (f : Pwr → Pwr) : (d.modPwr f).ldg = d.ldg := rfl
@[simp] theorem Dev.modPwr_upd (d : Dev) (f : Pwr → Pwr) : (d.modPwr f).upd = d.upd := rfl
@[simp] theorem Dev.modPwr_pwr (d : Dev) (f : Pwr → Pwr) : (d.modPwr f).pwr = f d.pwr := rfl
@[simp] theorem Dev.modPwr_evt (d : Dev) (f : Pwr → Pwr) : (d.modPwr f).evt = d.evt := rfl
@[simp] theorem Dev.modPwr_rst (d : Dev) (f : Pwr → Pwr) : (d.modPwr f).rst = d.rst := rfl
@[simp] theorem Dev.modPwr_i3c (d : Dev) (f : Pwr → Pwr) : (d.modPwr f).i3c = d.i3c := rfl
@[simp] theorem Dev.modPwr_jtag (d : Dev) (f : Pwr → Pwr) : (d.modPwr f).jtag = d.jtag := rfl

@[simp] theorem Dev.modEvt_clock (d : Dev) (f : Evt → Evt) : (d.modEvt f).clock = d.clock := rfl
@[simp] theorem Dev.modEvt_freeIdx (d : Dev) (f : Evt → Evt) : (d.modEvt f).freeIdx = d.freeIdx := rfl
@[simp] theorem Dev.modEvt_env (d : Dev) (f : Evt → Evt) : (d.modEvt f).env = d.env := rfl
@[simp] theorem Dev.modEvt_mem (d : Dev) (f : Evt → Evt) : (d.modEvt f).mem = d.mem := rfl
@[simp] theorem Dev.modEvt_regs (d : Dev) (f : Evt → Evt) : (d.modEvt f).regs = d.regs := rfl
@[simp] theorem Dev.modEvt_idUse (d : Dev) (f : Evt → Evt) : (d.modEvt f).idUse = d.idUse := rfl
@[simp] theorem Dev.modEvt_latches (d : Dev) (f : Evt → Evt) : (d.modEvt f).latches = d.latches := rfl
@[simp] theorem Dev.modEvt_answer (d : Dev) (f : Evt → Evt) : (d.modEvt f).answer = d.answer := rfl
@[simp] theorem Dev.modEvt_sent (d : Dev) (f : Evt → Evt) : (d.modEvt f).sent = d.sent := rfl
@[simp] theorem Dev.modEvt_folds (d : Dev) (f : Evt → Evt) : (d.modEvt f).folds = d.folds := rfl
@[simp] theorem Dev.modEvt_net (d : Dev) (f : Evt → Evt) : (d.modEvt f).net = d.net := rfl
@[simp] theorem Dev.modEvt_twin (d : Dev) (f : Evt → Evt) : (d.modEvt f).twin = d.twin := rfl
@[simp] theorem Dev.modEvt_dur (d : Dev) (f : Evt → Evt) : (d.modEvt f).dur = d.dur := rfl
@[simp] theorem Dev.modEvt_ftl (d : Dev) (f : Evt → Evt) : (d.modEvt f).ftl = d.ftl := rfl
@[simp] theorem Dev.modEvt_dram (d : Dev) (f : Evt → Evt) : (d.modEvt f).dram = d.dram := rfl
@[simp] theorem Dev.modEvt_hall (d : Dev) (f : Evt → Evt) : (d.modEvt f).hall = d.hall := rfl
@[simp] theorem Dev.modEvt_sec (d : Dev) (f : Evt → Evt) : (d.modEvt f).sec = d.sec := rfl
@[simp] theorem Dev.modEvt_ldg (d : Dev) (f : Evt → Evt) : (d.modEvt f).ldg = d.ldg := rfl
@[simp] theorem Dev.modEvt_upd (d : Dev) (f : Evt → Evt) : (d.modEvt f).upd = d.upd := rfl
@[simp] theorem Dev.modEvt_pwr (d : Dev) (f : Evt → Evt) : (d.modEvt f).pwr = d.pwr := rfl
@[simp] theorem Dev.modEvt_evt (d : Dev) (f : Evt → Evt) : (d.modEvt f).evt = f d.evt := rfl
@[simp] theorem Dev.modEvt_rst (d : Dev) (f : Evt → Evt) : (d.modEvt f).rst = d.rst := rfl
@[simp] theorem Dev.modEvt_i3c (d : Dev) (f : Evt → Evt) : (d.modEvt f).i3c = d.i3c := rfl
@[simp] theorem Dev.modEvt_jtag (d : Dev) (f : Evt → Evt) : (d.modEvt f).jtag = d.jtag := rfl

@[simp] theorem Dev.modRst_clock (d : Dev) (f : Rst → Rst) : (d.modRst f).clock = d.clock := rfl
@[simp] theorem Dev.modRst_freeIdx (d : Dev) (f : Rst → Rst) : (d.modRst f).freeIdx = d.freeIdx := rfl
@[simp] theorem Dev.modRst_env (d : Dev) (f : Rst → Rst) : (d.modRst f).env = d.env := rfl
@[simp] theorem Dev.modRst_mem (d : Dev) (f : Rst → Rst) : (d.modRst f).mem = d.mem := rfl
@[simp] theorem Dev.modRst_regs (d : Dev) (f : Rst → Rst) : (d.modRst f).regs = d.regs := rfl
@[simp] theorem Dev.modRst_idUse (d : Dev) (f : Rst → Rst) : (d.modRst f).idUse = d.idUse := rfl
@[simp] theorem Dev.modRst_latches (d : Dev) (f : Rst → Rst) : (d.modRst f).latches = d.latches := rfl
@[simp] theorem Dev.modRst_answer (d : Dev) (f : Rst → Rst) : (d.modRst f).answer = d.answer := rfl
@[simp] theorem Dev.modRst_sent (d : Dev) (f : Rst → Rst) : (d.modRst f).sent = d.sent := rfl
@[simp] theorem Dev.modRst_folds (d : Dev) (f : Rst → Rst) : (d.modRst f).folds = d.folds := rfl
@[simp] theorem Dev.modRst_net (d : Dev) (f : Rst → Rst) : (d.modRst f).net = d.net := rfl
@[simp] theorem Dev.modRst_twin (d : Dev) (f : Rst → Rst) : (d.modRst f).twin = d.twin := rfl
@[simp] theorem Dev.modRst_dur (d : Dev) (f : Rst → Rst) : (d.modRst f).dur = d.dur := rfl
@[simp] theorem Dev.modRst_ftl (d : Dev) (f : Rst → Rst) : (d.modRst f).ftl = d.ftl := rfl
@[simp] theorem Dev.modRst_dram (d : Dev) (f : Rst → Rst) : (d.modRst f).dram = d.dram := rfl
@[simp] theorem Dev.modRst_hall (d : Dev) (f : Rst → Rst) : (d.modRst f).hall = d.hall := rfl
@[simp] theorem Dev.modRst_sec (d : Dev) (f : Rst → Rst) : (d.modRst f).sec = d.sec := rfl
@[simp] theorem Dev.modRst_ldg (d : Dev) (f : Rst → Rst) : (d.modRst f).ldg = d.ldg := rfl
@[simp] theorem Dev.modRst_upd (d : Dev) (f : Rst → Rst) : (d.modRst f).upd = d.upd := rfl
@[simp] theorem Dev.modRst_pwr (d : Dev) (f : Rst → Rst) : (d.modRst f).pwr = d.pwr := rfl
@[simp] theorem Dev.modRst_evt (d : Dev) (f : Rst → Rst) : (d.modRst f).evt = d.evt := rfl
@[simp] theorem Dev.modRst_rst (d : Dev) (f : Rst → Rst) : (d.modRst f).rst = f d.rst := rfl
@[simp] theorem Dev.modRst_i3c (d : Dev) (f : Rst → Rst) : (d.modRst f).i3c = d.i3c := rfl
@[simp] theorem Dev.modRst_jtag (d : Dev) (f : Rst → Rst) : (d.modRst f).jtag = d.jtag := rfl

@[simp] theorem Dev.modI3c_clock (d : Dev) (f : I3c → I3c) : (d.modI3c f).clock = d.clock := rfl
@[simp] theorem Dev.modI3c_freeIdx (d : Dev) (f : I3c → I3c) : (d.modI3c f).freeIdx = d.freeIdx := rfl
@[simp] theorem Dev.modI3c_env (d : Dev) (f : I3c → I3c) : (d.modI3c f).env = d.env := rfl
@[simp] theorem Dev.modI3c_mem (d : Dev) (f : I3c → I3c) : (d.modI3c f).mem = d.mem := rfl
@[simp] theorem Dev.modI3c_regs (d : Dev) (f : I3c → I3c) : (d.modI3c f).regs = d.regs := rfl
@[simp] theorem Dev.modI3c_idUse (d : Dev) (f : I3c → I3c) : (d.modI3c f).idUse = d.idUse := rfl
@[simp] theorem Dev.modI3c_latches (d : Dev) (f : I3c → I3c) : (d.modI3c f).latches = d.latches := rfl
@[simp] theorem Dev.modI3c_answer (d : Dev) (f : I3c → I3c) : (d.modI3c f).answer = d.answer := rfl
@[simp] theorem Dev.modI3c_sent (d : Dev) (f : I3c → I3c) : (d.modI3c f).sent = d.sent := rfl
@[simp] theorem Dev.modI3c_folds (d : Dev) (f : I3c → I3c) : (d.modI3c f).folds = d.folds := rfl
@[simp] theorem Dev.modI3c_net (d : Dev) (f : I3c → I3c) : (d.modI3c f).net = d.net := rfl
@[simp] theorem Dev.modI3c_twin (d : Dev) (f : I3c → I3c) : (d.modI3c f).twin = d.twin := rfl
@[simp] theorem Dev.modI3c_dur (d : Dev) (f : I3c → I3c) : (d.modI3c f).dur = d.dur := rfl
@[simp] theorem Dev.modI3c_ftl (d : Dev) (f : I3c → I3c) : (d.modI3c f).ftl = d.ftl := rfl
@[simp] theorem Dev.modI3c_dram (d : Dev) (f : I3c → I3c) : (d.modI3c f).dram = d.dram := rfl
@[simp] theorem Dev.modI3c_hall (d : Dev) (f : I3c → I3c) : (d.modI3c f).hall = d.hall := rfl
@[simp] theorem Dev.modI3c_sec (d : Dev) (f : I3c → I3c) : (d.modI3c f).sec = d.sec := rfl
@[simp] theorem Dev.modI3c_ldg (d : Dev) (f : I3c → I3c) : (d.modI3c f).ldg = d.ldg := rfl
@[simp] theorem Dev.modI3c_upd (d : Dev) (f : I3c → I3c) : (d.modI3c f).upd = d.upd := rfl
@[simp] theorem Dev.modI3c_pwr (d : Dev) (f : I3c → I3c) : (d.modI3c f).pwr = d.pwr := rfl
@[simp] theorem Dev.modI3c_evt (d : Dev) (f : I3c → I3c) : (d.modI3c f).evt = d.evt := rfl
@[simp] theorem Dev.modI3c_rst (d : Dev) (f : I3c → I3c) : (d.modI3c f).rst = d.rst := rfl
@[simp] theorem Dev.modI3c_i3c (d : Dev) (f : I3c → I3c) : (d.modI3c f).i3c = f d.i3c := rfl
@[simp] theorem Dev.modI3c_jtag (d : Dev) (f : I3c → I3c) : (d.modI3c f).jtag = d.jtag := rfl

@[simp] theorem setReg_clock (d : Dev) (a : Nat) (w : Word) : (setReg d a w).clock = d.clock := rfl
@[simp] theorem setReg_freeIdx (d : Dev) (a : Nat) (w : Word) : (setReg d a w).freeIdx = d.freeIdx := rfl
@[simp] theorem setReg_env (d : Dev) (a : Nat) (w : Word) : (setReg d a w).env = d.env := rfl
@[simp] theorem setReg_mem (d : Dev) (a : Nat) (w : Word) : (setReg d a w).mem = d.mem := rfl
@[simp] theorem setReg_regs (d : Dev) (a : Nat) (w : Word) : (setReg d a w).regs = setRegVal d.regs a w := rfl
@[simp] theorem setReg_idUse (d : Dev) (a : Nat) (w : Word) : (setReg d a w).idUse = d.idUse := rfl
@[simp] theorem setReg_latches (d : Dev) (a : Nat) (w : Word) : (setReg d a w).latches = d.latches := rfl
@[simp] theorem setReg_answer (d : Dev) (a : Nat) (w : Word) : (setReg d a w).answer = d.answer := rfl
@[simp] theorem setReg_sent (d : Dev) (a : Nat) (w : Word) : (setReg d a w).sent = d.sent := rfl
@[simp] theorem setReg_folds (d : Dev) (a : Nat) (w : Word) : (setReg d a w).folds = d.folds := rfl
@[simp] theorem setReg_net (d : Dev) (a : Nat) (w : Word) : (setReg d a w).net = d.net := rfl
@[simp] theorem setReg_twin (d : Dev) (a : Nat) (w : Word) : (setReg d a w).twin = d.twin := rfl
@[simp] theorem setReg_dur (d : Dev) (a : Nat) (w : Word) : (setReg d a w).dur = d.dur := rfl
@[simp] theorem setReg_ftl (d : Dev) (a : Nat) (w : Word) : (setReg d a w).ftl = d.ftl := rfl
@[simp] theorem setReg_dram (d : Dev) (a : Nat) (w : Word) : (setReg d a w).dram = d.dram := rfl
@[simp] theorem setReg_hall (d : Dev) (a : Nat) (w : Word) : (setReg d a w).hall = d.hall := rfl
@[simp] theorem setReg_sec (d : Dev) (a : Nat) (w : Word) : (setReg d a w).sec = d.sec := rfl
@[simp] theorem setReg_ldg (d : Dev) (a : Nat) (w : Word) : (setReg d a w).ldg = d.ldg := rfl
@[simp] theorem setReg_upd (d : Dev) (a : Nat) (w : Word) : (setReg d a w).upd = d.upd := rfl
@[simp] theorem setReg_pwr (d : Dev) (a : Nat) (w : Word) : (setReg d a w).pwr = d.pwr := rfl
@[simp] theorem setReg_evt (d : Dev) (a : Nat) (w : Word) : (setReg d a w).evt = d.evt := rfl
@[simp] theorem setReg_rst (d : Dev) (a : Nat) (w : Word) : (setReg d a w).rst = d.rst := rfl
@[simp] theorem setReg_i3c (d : Dev) (a : Nat) (w : Word) : (setReg d a w).i3c = d.i3c := rfl
@[simp] theorem setReg_jtag (d : Dev) (a : Nat) (w : Word) : (setReg d a w).jtag = d.jtag := rfl

@[simp] theorem bump_clock (d : Dev) (a n : Nat) : (bump d a n).clock = d.clock := rfl
@[simp] theorem bump_freeIdx (d : Dev) (a n : Nat) : (bump d a n).freeIdx = d.freeIdx := rfl
@[simp] theorem bump_env (d : Dev) (a n : Nat) : (bump d a n).env = d.env := rfl
@[simp] theorem bump_mem (d : Dev) (a n : Nat) : (bump d a n).mem = d.mem := rfl
@[simp] theorem bump_regs (d : Dev) (a n : Nat) : (bump d a n).regs = setRegVal d.regs a (satAdd (reg d a) n) := rfl
@[simp] theorem bump_idUse (d : Dev) (a n : Nat) : (bump d a n).idUse = d.idUse := rfl
@[simp] theorem bump_latches (d : Dev) (a n : Nat) : (bump d a n).latches = d.latches := rfl
@[simp] theorem bump_answer (d : Dev) (a n : Nat) : (bump d a n).answer = d.answer := rfl
@[simp] theorem bump_sent (d : Dev) (a n : Nat) : (bump d a n).sent = d.sent := rfl
@[simp] theorem bump_folds (d : Dev) (a n : Nat) : (bump d a n).folds = d.folds := rfl
@[simp] theorem bump_net (d : Dev) (a n : Nat) : (bump d a n).net = d.net := rfl
@[simp] theorem bump_twin (d : Dev) (a n : Nat) : (bump d a n).twin = d.twin := rfl
@[simp] theorem bump_dur (d : Dev) (a n : Nat) : (bump d a n).dur = d.dur := rfl
@[simp] theorem bump_ftl (d : Dev) (a n : Nat) : (bump d a n).ftl = d.ftl := rfl
@[simp] theorem bump_dram (d : Dev) (a n : Nat) : (bump d a n).dram = d.dram := rfl
@[simp] theorem bump_hall (d : Dev) (a n : Nat) : (bump d a n).hall = d.hall := rfl
@[simp] theorem bump_sec (d : Dev) (a n : Nat) : (bump d a n).sec = d.sec := rfl
@[simp] theorem bump_ldg (d : Dev) (a n : Nat) : (bump d a n).ldg = d.ldg := rfl
@[simp] theorem bump_upd (d : Dev) (a n : Nat) : (bump d a n).upd = d.upd := rfl
@[simp] theorem bump_pwr (d : Dev) (a n : Nat) : (bump d a n).pwr = d.pwr := rfl
@[simp] theorem bump_evt (d : Dev) (a n : Nat) : (bump d a n).evt = d.evt := rfl
@[simp] theorem bump_rst (d : Dev) (a n : Nat) : (bump d a n).rst = d.rst := rfl
@[simp] theorem bump_i3c (d : Dev) (a n : Nat) : (bump d a n).i3c = d.i3c := rfl
@[simp] theorem bump_jtag (d : Dev) (a n : Nat) : (bump d a n).jtag = d.jtag := rfl

@[simp] theorem emit_clock (d : Dev) (o : Out) : (emit d o).clock = d.clock := rfl
@[simp] theorem emit_freeIdx (d : Dev) (o : Out) : (emit d o).freeIdx = d.freeIdx := rfl
@[simp] theorem emit_env (d : Dev) (o : Out) : (emit d o).env = d.env := rfl
@[simp] theorem emit_mem (d : Dev) (o : Out) : (emit d o).mem = d.mem := rfl
@[simp] theorem emit_regs (d : Dev) (o : Out) : (emit d o).regs = d.regs := rfl
@[simp] theorem emit_idUse (d : Dev) (o : Out) : (emit d o).idUse = d.idUse := rfl
@[simp] theorem emit_latches (d : Dev) (o : Out) : (emit d o).latches = d.latches := rfl
@[simp] theorem emit_answer (d : Dev) (o : Out) : (emit d o).answer = d.answer := rfl
@[simp] theorem emit_sent (d : Dev) (o : Out) : (emit d o).sent = o :: d.sent := rfl
@[simp] theorem emit_folds (d : Dev) (o : Out) : (emit d o).folds = d.folds := rfl
@[simp] theorem emit_net (d : Dev) (o : Out) : (emit d o).net = d.net := rfl
@[simp] theorem emit_twin (d : Dev) (o : Out) : (emit d o).twin = d.twin := rfl
@[simp] theorem emit_dur (d : Dev) (o : Out) : (emit d o).dur = d.dur := rfl
@[simp] theorem emit_ftl (d : Dev) (o : Out) : (emit d o).ftl = d.ftl := rfl
@[simp] theorem emit_dram (d : Dev) (o : Out) : (emit d o).dram = d.dram := rfl
@[simp] theorem emit_hall (d : Dev) (o : Out) : (emit d o).hall = d.hall := rfl
@[simp] theorem emit_sec (d : Dev) (o : Out) : (emit d o).sec = d.sec := rfl
@[simp] theorem emit_ldg (d : Dev) (o : Out) : (emit d o).ldg = d.ldg := rfl
@[simp] theorem emit_upd (d : Dev) (o : Out) : (emit d o).upd = d.upd := rfl
@[simp] theorem emit_pwr (d : Dev) (o : Out) : (emit d o).pwr = d.pwr := rfl
@[simp] theorem emit_evt (d : Dev) (o : Out) : (emit d o).evt = d.evt := rfl
@[simp] theorem emit_rst (d : Dev) (o : Out) : (emit d o).rst = d.rst := rfl
@[simp] theorem emit_i3c (d : Dev) (o : Out) : (emit d o).i3c = d.i3c := rfl
@[simp] theorem emit_jtag (d : Dev) (o : Out) : (emit d o).jtag = d.jtag := rfl

@[simp] theorem draw32_clock (d : Dev) : (draw32 d).2.clock = d.clock := rfl
@[simp] theorem draw32_freeIdx (d : Dev) : (draw32 d).2.freeIdx = d.freeIdx + 1 := rfl
@[simp] theorem draw32_env (d : Dev) : (draw32 d).2.env = d.env := rfl
@[simp] theorem draw32_mem (d : Dev) : (draw32 d).2.mem = d.mem := rfl
@[simp] theorem draw32_regs (d : Dev) : (draw32 d).2.regs = d.regs := rfl
@[simp] theorem draw32_idUse (d : Dev) : (draw32 d).2.idUse = d.idUse := rfl
@[simp] theorem draw32_latches (d : Dev) : (draw32 d).2.latches = d.latches := rfl
@[simp] theorem draw32_answer (d : Dev) : (draw32 d).2.answer = d.answer := rfl
@[simp] theorem draw32_sent (d : Dev) : (draw32 d).2.sent = d.sent := rfl
@[simp] theorem draw32_folds (d : Dev) : (draw32 d).2.folds = d.folds := rfl
@[simp] theorem draw32_net (d : Dev) : (draw32 d).2.net = d.net := rfl
@[simp] theorem draw32_twin (d : Dev) : (draw32 d).2.twin = d.twin := rfl
@[simp] theorem draw32_dur (d : Dev) : (draw32 d).2.dur = d.dur := rfl
@[simp] theorem draw32_ftl (d : Dev) : (draw32 d).2.ftl = d.ftl := rfl
@[simp] theorem draw32_dram (d : Dev) : (draw32 d).2.dram = d.dram := rfl
@[simp] theorem draw32_hall (d : Dev) : (draw32 d).2.hall = d.hall := rfl
@[simp] theorem draw32_sec (d : Dev) : (draw32 d).2.sec = d.sec := rfl
@[simp] theorem draw32_ldg (d : Dev) : (draw32 d).2.ldg = d.ldg := rfl
@[simp] theorem draw32_upd (d : Dev) : (draw32 d).2.upd = d.upd := rfl
@[simp] theorem draw32_pwr (d : Dev) : (draw32 d).2.pwr = d.pwr := rfl
@[simp] theorem draw32_evt (d : Dev) : (draw32 d).2.evt = d.evt := rfl
@[simp] theorem draw32_rst (d : Dev) : (draw32 d).2.rst = d.rst := rfl
@[simp] theorem draw32_i3c (d : Dev) : (draw32 d).2.i3c = d.i3c := rfl
@[simp] theorem draw32_jtag (d : Dev) : (draw32 d).2.jtag = d.jtag := rfl
@[simp] theorem draw64_clock (d : Dev) : (draw64 d).2.clock = d.clock := rfl
@[simp] theorem draw64_freeIdx (d : Dev) : (draw64 d).2.freeIdx = d.freeIdx + 1 := rfl
@[simp] theorem draw64_env (d : Dev) : (draw64 d).2.env = d.env := rfl
@[simp] theorem draw64_mem (d : Dev) : (draw64 d).2.mem = d.mem := rfl
@[simp] theorem draw64_regs (d : Dev) : (draw64 d).2.regs = d.regs := rfl
@[simp] theorem draw64_idUse (d : Dev) : (draw64 d).2.idUse = d.idUse := rfl
@[simp] theorem draw64_latches (d : Dev) : (draw64 d).2.latches = d.latches := rfl
@[simp] theorem draw64_answer (d : Dev) : (draw64 d).2.answer = d.answer := rfl
@[simp] theorem draw64_sent (d : Dev) : (draw64 d).2.sent = d.sent := rfl
@[simp] theorem draw64_folds (d : Dev) : (draw64 d).2.folds = d.folds := rfl
@[simp] theorem draw64_net (d : Dev) : (draw64 d).2.net = d.net := rfl
@[simp] theorem draw64_twin (d : Dev) : (draw64 d).2.twin = d.twin := rfl
@[simp] theorem draw64_dur (d : Dev) : (draw64 d).2.dur = d.dur := rfl
@[simp] theorem draw64_ftl (d : Dev) : (draw64 d).2.ftl = d.ftl := rfl
@[simp] theorem draw64_dram (d : Dev) : (draw64 d).2.dram = d.dram := rfl
@[simp] theorem draw64_hall (d : Dev) : (draw64 d).2.hall = d.hall := rfl
@[simp] theorem draw64_sec (d : Dev) : (draw64 d).2.sec = d.sec := rfl
@[simp] theorem draw64_ldg (d : Dev) : (draw64 d).2.ldg = d.ldg := rfl
@[simp] theorem draw64_upd (d : Dev) : (draw64 d).2.upd = d.upd := rfl
@[simp] theorem draw64_pwr (d : Dev) : (draw64 d).2.pwr = d.pwr := rfl
@[simp] theorem draw64_evt (d : Dev) : (draw64 d).2.evt = d.evt := rfl
@[simp] theorem draw64_rst (d : Dev) : (draw64 d).2.rst = d.rst := rfl
@[simp] theorem draw64_i3c (d : Dev) : (draw64 d).2.i3c = d.i3c := rfl
@[simp] theorem draw64_jtag (d : Dev) : (draw64 d).2.jtag = d.jtag := rfl
@[simp] theorem draw128_clock (d : Dev) : (draw128 d).2.clock = d.clock := rfl
@[simp] theorem draw128_freeIdx (d : Dev) : (draw128 d).2.freeIdx = d.freeIdx + 1 := rfl
@[simp] theorem draw128_env (d : Dev) : (draw128 d).2.env = d.env := rfl
@[simp] theorem draw128_mem (d : Dev) : (draw128 d).2.mem = d.mem := rfl
@[simp] theorem draw128_regs (d : Dev) : (draw128 d).2.regs = d.regs := rfl
@[simp] theorem draw128_idUse (d : Dev) : (draw128 d).2.idUse = d.idUse := rfl
@[simp] theorem draw128_latches (d : Dev) : (draw128 d).2.latches = d.latches := rfl
@[simp] theorem draw128_answer (d : Dev) : (draw128 d).2.answer = d.answer := rfl
@[simp] theorem draw128_sent (d : Dev) : (draw128 d).2.sent = d.sent := rfl
@[simp] theorem draw128_folds (d : Dev) : (draw128 d).2.folds = d.folds := rfl
@[simp] theorem draw128_net (d : Dev) : (draw128 d).2.net = d.net := rfl
@[simp] theorem draw128_twin (d : Dev) : (draw128 d).2.twin = d.twin := rfl
@[simp] theorem draw128_dur (d : Dev) : (draw128 d).2.dur = d.dur := rfl
@[simp] theorem draw128_ftl (d : Dev) : (draw128 d).2.ftl = d.ftl := rfl
@[simp] theorem draw128_dram (d : Dev) : (draw128 d).2.dram = d.dram := rfl
@[simp] theorem draw128_hall (d : Dev) : (draw128 d).2.hall = d.hall := rfl
@[simp] theorem draw128_sec (d : Dev) : (draw128 d).2.sec = d.sec := rfl
@[simp] theorem draw128_ldg (d : Dev) : (draw128 d).2.ldg = d.ldg := rfl
@[simp] theorem draw128_upd (d : Dev) : (draw128 d).2.upd = d.upd := rfl
@[simp] theorem draw128_pwr (d : Dev) : (draw128 d).2.pwr = d.pwr := rfl
@[simp] theorem draw128_evt (d : Dev) : (draw128 d).2.evt = d.evt := rfl
@[simp] theorem draw128_rst (d : Dev) : (draw128 d).2.rst = d.rst := rfl
@[simp] theorem draw128_i3c (d : Dev) : (draw128 d).2.i3c = d.i3c := rfl
@[simp] theorem draw128_jtag (d : Dev) : (draw128 d).2.jtag = d.jtag := rfl
@[simp] theorem draw256_clock (d : Dev) : (draw256 d).2.clock = d.clock := rfl
@[simp] theorem draw256_freeIdx (d : Dev) : (draw256 d).2.freeIdx = d.freeIdx + 1 := rfl
@[simp] theorem draw256_env (d : Dev) : (draw256 d).2.env = d.env := rfl
@[simp] theorem draw256_mem (d : Dev) : (draw256 d).2.mem = d.mem := rfl
@[simp] theorem draw256_regs (d : Dev) : (draw256 d).2.regs = d.regs := rfl
@[simp] theorem draw256_idUse (d : Dev) : (draw256 d).2.idUse = d.idUse := rfl
@[simp] theorem draw256_latches (d : Dev) : (draw256 d).2.latches = d.latches := rfl
@[simp] theorem draw256_answer (d : Dev) : (draw256 d).2.answer = d.answer := rfl
@[simp] theorem draw256_sent (d : Dev) : (draw256 d).2.sent = d.sent := rfl
@[simp] theorem draw256_folds (d : Dev) : (draw256 d).2.folds = d.folds := rfl
@[simp] theorem draw256_net (d : Dev) : (draw256 d).2.net = d.net := rfl
@[simp] theorem draw256_twin (d : Dev) : (draw256 d).2.twin = d.twin := rfl
@[simp] theorem draw256_dur (d : Dev) : (draw256 d).2.dur = d.dur := rfl
@[simp] theorem draw256_ftl (d : Dev) : (draw256 d).2.ftl = d.ftl := rfl
@[simp] theorem draw256_dram (d : Dev) : (draw256 d).2.dram = d.dram := rfl
@[simp] theorem draw256_hall (d : Dev) : (draw256 d).2.hall = d.hall := rfl
@[simp] theorem draw256_sec (d : Dev) : (draw256 d).2.sec = d.sec := rfl
@[simp] theorem draw256_ldg (d : Dev) : (draw256 d).2.ldg = d.ldg := rfl
@[simp] theorem draw256_upd (d : Dev) : (draw256 d).2.upd = d.upd := rfl
@[simp] theorem draw256_pwr (d : Dev) : (draw256 d).2.pwr = d.pwr := rfl
@[simp] theorem draw256_evt (d : Dev) : (draw256 d).2.evt = d.evt := rfl
@[simp] theorem draw256_rst (d : Dev) : (draw256 d).2.rst = d.rst := rfl
@[simp] theorem draw256_i3c (d : Dev) : (draw256 d).2.i3c = d.i3c := rfl
@[simp] theorem draw256_jtag (d : Dev) : (draw256 d).2.jtag = d.jtag := rfl
@[simp] theorem draw512_clock (d : Dev) : (draw512 d).2.clock = d.clock := rfl
@[simp] theorem draw512_freeIdx (d : Dev) : (draw512 d).2.freeIdx = d.freeIdx + 1 := rfl
@[simp] theorem draw512_env (d : Dev) : (draw512 d).2.env = d.env := rfl
@[simp] theorem draw512_mem (d : Dev) : (draw512 d).2.mem = d.mem := rfl
@[simp] theorem draw512_regs (d : Dev) : (draw512 d).2.regs = d.regs := rfl
@[simp] theorem draw512_idUse (d : Dev) : (draw512 d).2.idUse = d.idUse := rfl
@[simp] theorem draw512_latches (d : Dev) : (draw512 d).2.latches = d.latches := rfl
@[simp] theorem draw512_answer (d : Dev) : (draw512 d).2.answer = d.answer := rfl
@[simp] theorem draw512_sent (d : Dev) : (draw512 d).2.sent = d.sent := rfl
@[simp] theorem draw512_folds (d : Dev) : (draw512 d).2.folds = d.folds := rfl
@[simp] theorem draw512_net (d : Dev) : (draw512 d).2.net = d.net := rfl
@[simp] theorem draw512_twin (d : Dev) : (draw512 d).2.twin = d.twin := rfl
@[simp] theorem draw512_dur (d : Dev) : (draw512 d).2.dur = d.dur := rfl
@[simp] theorem draw512_ftl (d : Dev) : (draw512 d).2.ftl = d.ftl := rfl
@[simp] theorem draw512_dram (d : Dev) : (draw512 d).2.dram = d.dram := rfl
@[simp] theorem draw512_hall (d : Dev) : (draw512 d).2.hall = d.hall := rfl
@[simp] theorem draw512_sec (d : Dev) : (draw512 d).2.sec = d.sec := rfl
@[simp] theorem draw512_ldg (d : Dev) : (draw512 d).2.ldg = d.ldg := rfl
@[simp] theorem draw512_upd (d : Dev) : (draw512 d).2.upd = d.upd := rfl
@[simp] theorem draw512_pwr (d : Dev) : (draw512 d).2.pwr = d.pwr := rfl
@[simp] theorem draw512_evt (d : Dev) : (draw512 d).2.evt = d.evt := rfl
@[simp] theorem draw512_rst (d : Dev) : (draw512 d).2.rst = d.rst := rfl
@[simp] theorem draw512_i3c (d : Dev) : (draw512 d).2.i3c = d.i3c := rfl
@[simp] theorem draw512_jtag (d : Dev) : (draw512 d).2.jtag = d.jtag := rfl
@[simp] theorem drawChoice_clock (d : Dev) (n : Nat) : (drawChoice d n).2.clock = d.clock := rfl
@[simp] theorem drawChoice_freeIdx (d : Dev) (n : Nat) : (drawChoice d n).2.freeIdx = d.freeIdx + 1 := rfl
@[simp] theorem drawChoice_env (d : Dev) (n : Nat) : (drawChoice d n).2.env = d.env := rfl
@[simp] theorem drawChoice_mem (d : Dev) (n : Nat) : (drawChoice d n).2.mem = d.mem := rfl
@[simp] theorem drawChoice_regs (d : Dev) (n : Nat) : (drawChoice d n).2.regs = d.regs := rfl
@[simp] theorem drawChoice_idUse (d : Dev) (n : Nat) : (drawChoice d n).2.idUse = d.idUse := rfl
@[simp] theorem drawChoice_latches (d : Dev) (n : Nat) : (drawChoice d n).2.latches = d.latches := rfl
@[simp] theorem drawChoice_answer (d : Dev) (n : Nat) : (drawChoice d n).2.answer = d.answer := rfl
@[simp] theorem drawChoice_sent (d : Dev) (n : Nat) : (drawChoice d n).2.sent = d.sent := rfl
@[simp] theorem drawChoice_folds (d : Dev) (n : Nat) : (drawChoice d n).2.folds = d.folds := rfl
@[simp] theorem drawChoice_net (d : Dev) (n : Nat) : (drawChoice d n).2.net = d.net := rfl
@[simp] theorem drawChoice_twin (d : Dev) (n : Nat) : (drawChoice d n).2.twin = d.twin := rfl
@[simp] theorem drawChoice_dur (d : Dev) (n : Nat) : (drawChoice d n).2.dur = d.dur := rfl
@[simp] theorem drawChoice_ftl (d : Dev) (n : Nat) : (drawChoice d n).2.ftl = d.ftl := rfl
@[simp] theorem drawChoice_dram (d : Dev) (n : Nat) : (drawChoice d n).2.dram = d.dram := rfl
@[simp] theorem drawChoice_hall (d : Dev) (n : Nat) : (drawChoice d n).2.hall = d.hall := rfl
@[simp] theorem drawChoice_sec (d : Dev) (n : Nat) : (drawChoice d n).2.sec = d.sec := rfl
@[simp] theorem drawChoice_ldg (d : Dev) (n : Nat) : (drawChoice d n).2.ldg = d.ldg := rfl
@[simp] theorem drawChoice_upd (d : Dev) (n : Nat) : (drawChoice d n).2.upd = d.upd := rfl
@[simp] theorem drawChoice_pwr (d : Dev) (n : Nat) : (drawChoice d n).2.pwr = d.pwr := rfl
@[simp] theorem drawChoice_evt (d : Dev) (n : Nat) : (drawChoice d n).2.evt = d.evt := rfl
@[simp] theorem drawChoice_rst (d : Dev) (n : Nat) : (drawChoice d n).2.rst = d.rst := rfl
@[simp] theorem drawChoice_i3c (d : Dev) (n : Nat) : (drawChoice d n).2.i3c = d.i3c := rfl
@[simp] theorem drawChoice_jtag (d : Dev) (n : Nat) : (drawChoice d n).2.jtag = d.jtag := rfl

/-- A meaning is an effect on the device: it answers a next state with the queue as it was. -/
@[simp] theorem onDev_eq (f : Dev → Dev) (s : State) : onDev f s = .next { s with dev := f s.dev } := rfl

end Sys2Proof.Machine
end

