-- ==== Sys2Proof/Laws/Events.lean ====
section
/-! SUPPORT. What raising an event may change: the event state, the counter of dropped records, and the send queue of the
connection that a ring is bound to. -/
namespace Sys2Proof.Machine

/-- The rest of a device after an event: registers, network and event state may differ. -/
def EventFrame (d e : Dev) : Prop := ∃ r n v, e = { d with regs := r, net := n, evt := v }

theorem EventFrame.refl (d : Dev) : EventFrame d d := ⟨d.regs, d.net, d.evt, rfl⟩

theorem EventFrame.trans {a b c : Dev} (h : EventFrame a b) (k : EventFrame b c) : EventFrame a c := by
  obtain ⟨r, n, v, rfl⟩ := h; obtain ⟨r', n', v', rfl⟩ := k; exact ⟨r', n', v', rfl⟩

theorem EventFrame.foldl {α : Type} {f : Dev → α → Dev} (h : ∀ d x, EventFrame d (f d x)) :
    ∀ (l : List α) (d : Dev), EventFrame d (l.foldl f d)
  | [], d => .refl d
  | x :: l, d => (h d x).trans (EventFrame.foldl h l (f d x))

theorem modEvt_frame (d : Dev) (f : Evt → Evt) : EventFrame d (d.modEvt f) := ⟨d.regs, d.net, _, rfl⟩

theorem modConn_frame (d : Dev) (n : Nat) (f : Conn → Conn) : EventFrame d (modConn d n f) := by
  unfold modConn; split
  · exact ⟨d.regs, _, d.evt, rfl⟩
  · exact .refl d

theorem queueFrame_frame (d : Dev) (n : Nat) (p : Option Nat) (b : TxBody) : EventFrame d (queueFrame d n p b) :=
  modConn_frame d n _

theorem recordEvent_frame (d : Dev) (r : Record) : EventFrame d (recordEvent d r) := by
  unfold recordEvent; split
  · exact modEvt_frame d _
  · exact ⟨_, d.net, _, rfl⟩

theorem ringEntry_frame (d : Dev) (a b c n : Nat) (l : List Byte) : EventFrame d (ringEntry d a b c n l) := by
  unfold ringEntry; dsimp only
  repeat' split
  all_goals first
    | exact .refl d
    | exact modEvt_frame d _
    | exact (modEvt_frame d _).trans (queueFrame_frame _ _ _ _)

theorem foldCopy_frame (a b : Nat) (l : List Byte) (d : Dev) (f : Nat) : EventFrame d (foldCopy a b l d f) := by
  unfold foldCopy; dsimp only
  repeat' split
  all_goals first
    | exact .refl d
    | exact modEvt_frame d _
    | exact (modEvt_frame d _).trans (ringEntry_frame _ _ _ _ _ _)

theorem operatorCopy_frame (a b : Nat) (l : List Byte) (d : Dev) : EventFrame d (operatorCopy a b l d) := by
  unfold operatorCopy; dsimp only
  repeat' split
  all_goals first
    | exact (modEvt_frame d _).trans ((recordEvent_frame _ _).trans (ringEntry_frame _ _ _ _ _ _))
    | exact (modEvt_frame d _).trans (recordEvent_frame _ _)
    | exact (modEvt_frame d _).trans (ringEntry_frame _ _ _ _ _ _)
    | exact modEvt_frame d _

theorem raise_frame (d : Dev) (code : Nat) (src : EvSource) (l : List Byte) (fs : List Nat) :
    EventFrame d (raise d code src l fs) :=
  (operatorCopy_frame _ _ _ d).trans (EventFrame.foldl (fun e f => foldCopy_frame _ _ _ e f) fs _)

theorem raiseOp_frame (d : Dev) (code : Nat) (src : EvSource) (vs : List Nat) : EventFrame d (raiseOp d code src vs) :=
  raise_frame d code src _ []

theorem raiseFolds_frame (d : Dev) (code : Nat) (src : EvSource) (l : List Byte) (fs : List Nat) :
    EventFrame d (raiseFolds d code src l fs) := by
  refine EventFrame.foldl (fun e f => ?_) fs d
  dsimp only
  repeat' split
  all_goals first
    | exact modEvt_frame e _
    | exact (modEvt_frame e _).trans (ringEntry_frame _ _ _ _ _ _)
    | exact foldCopy_frame _ _ _ e f

@[simp] theorem raise_clock (d : Dev) (c : Nat) (s : EvSource) (l : List Byte) (fs : List Nat) : (raise d c s l fs).clock = d.clock := by
  obtain ⟨r, n, v, h⟩ := raise_frame d c s l fs; rw [h]
@[simp] theorem raise_freeIdx (d : Dev) (c : Nat) (s : EvSource) (l : List Byte) (fs : List Nat) : (raise d c s l fs).freeIdx = d.freeIdx := by
  obtain ⟨r, n, v, h⟩ := raise_frame d c s l fs; rw [h]
@[simp] theorem raise_env (d : Dev) (c : Nat) (s : EvSource) (l : List Byte) (fs : List Nat) : (raise d c s l fs).env = d.env := by
  obtain ⟨r, n, v, h⟩ := raise_frame d c s l fs; rw [h]
@[simp] theorem raise_idUse (d : Dev) (c : Nat) (s : EvSource) (l : List Byte) (fs : List Nat) : (raise d c s l fs).idUse = d.idUse := by
  obtain ⟨r, n, v, h⟩ := raise_frame d c s l fs; rw [h]
@[simp] theorem raise_latches (d : Dev) (c : Nat) (s : EvSource) (l : List Byte) (fs : List Nat) : (raise d c s l fs).latches = d.latches := by
  obtain ⟨r, n, v, h⟩ := raise_frame d c s l fs; rw [h]
@[simp] theorem raise_answer (d : Dev) (c : Nat) (s : EvSource) (l : List Byte) (fs : List Nat) : (raise d c s l fs).answer = d.answer := by
  obtain ⟨r, n, v, h⟩ := raise_frame d c s l fs; rw [h]
@[simp] theorem raise_sent (d : Dev) (c : Nat) (s : EvSource) (l : List Byte) (fs : List Nat) : (raise d c s l fs).sent = d.sent := by
  obtain ⟨r, n, v, h⟩ := raise_frame d c s l fs; rw [h]
@[simp] theorem raise_folds (d : Dev) (c : Nat) (s : EvSource) (l : List Byte) (fs : List Nat) : (raise d c s l fs).folds = d.folds := by
  obtain ⟨r, n, v, h⟩ := raise_frame d c s l fs; rw [h]
@[simp] theorem raise_twin (d : Dev) (c : Nat) (s : EvSource) (l : List Byte) (fs : List Nat) : (raise d c s l fs).twin = d.twin := by
  obtain ⟨r, n, v, h⟩ := raise_frame d c s l fs; rw [h]
@[simp] theorem raise_dur (d : Dev) (c : Nat) (s : EvSource) (l : List Byte) (fs : List Nat) : (raise d c s l fs).dur = d.dur := by
  obtain ⟨r, n, v, h⟩ := raise_frame d c s l fs; rw [h]
@[simp] theorem raise_ftl (d : Dev) (c : Nat) (s : EvSource) (l : List Byte) (fs : List Nat) : (raise d c s l fs).ftl = d.ftl := by
  obtain ⟨r, n, v, h⟩ := raise_frame d c s l fs; rw [h]
@[simp] theorem raise_dram (d : Dev) (c : Nat) (s : EvSource) (l : List Byte) (fs : List Nat) : (raise d c s l fs).dram = d.dram := by
  obtain ⟨r, n, v, h⟩ := raise_frame d c s l fs; rw [h]
@[simp] theorem raise_hall (d : Dev) (c : Nat) (s : EvSource) (l : List Byte) (fs : List Nat) : (raise d c s l fs).hall = d.hall := by
  obtain ⟨r, n, v, h⟩ := raise_frame d c s l fs; rw [h]
@[simp] theorem raise_sec (d : Dev) (c : Nat) (s : EvSource) (l : List Byte) (fs : List Nat) : (raise d c s l fs).sec = d.sec := by
  obtain ⟨r, n, v, h⟩ := raise_frame d c s l fs; rw [h]
@[simp] theorem raise_ldg (d : Dev) (c : Nat) (s : EvSource) (l : List Byte) (fs : List Nat) : (raise d c s l fs).ldg = d.ldg := by
  obtain ⟨r, n, v, h⟩ := raise_frame d c s l fs; rw [h]
@[simp] theorem raise_upd (d : Dev) (c : Nat) (s : EvSource) (l : List Byte) (fs : List Nat) : (raise d c s l fs).upd = d.upd := by
  obtain ⟨r, n, v, h⟩ := raise_frame d c s l fs; rw [h]
@[simp] theorem raise_pwr (d : Dev) (c : Nat) (s : EvSource) (l : List Byte) (fs : List Nat) : (raise d c s l fs).pwr = d.pwr := by
  obtain ⟨r, n, v, h⟩ := raise_frame d c s l fs; rw [h]
@[simp] theorem raise_rst (d : Dev) (c : Nat) (s : EvSource) (l : List Byte) (fs : List Nat) : (raise d c s l fs).rst = d.rst := by
  obtain ⟨r, n, v, h⟩ := raise_frame d c s l fs; rw [h]
@[simp] theorem raise_i3c (d : Dev) (c : Nat) (s : EvSource) (l : List Byte) (fs : List Nat) : (raise d c s l fs).i3c = d.i3c := by
  obtain ⟨r, n, v, h⟩ := raise_frame d c s l fs; rw [h]
@[simp] theorem raise_jtag (d : Dev) (c : Nat) (s : EvSource) (l : List Byte) (fs : List Nat) : (raise d c s l fs).jtag = d.jtag := by
  obtain ⟨r, n, v, h⟩ := raise_frame d c s l fs; rw [h]

@[simp] theorem raiseOp_clock (d : Dev) (c : Nat) (s : EvSource) (vs : List Nat) : (raiseOp d c s vs).clock = d.clock := by
  obtain ⟨r, n, v, h⟩ := raiseOp_frame d c s vs; rw [h]
@[simp] theorem raiseOp_freeIdx (d : Dev) (c : Nat) (s : EvSource) (vs : List Nat) : (raiseOp d c s vs).freeIdx = d.freeIdx := by
  obtain ⟨r, n, v, h⟩ := raiseOp_frame d c s vs; rw [h]
@[simp] theorem raiseOp_env (d : Dev) (c : Nat) (s : EvSource) (vs : List Nat) : (raiseOp d c s vs).env = d.env := by
  obtain ⟨r, n, v, h⟩ := raiseOp_frame d c s vs; rw [h]
@[simp] theorem raiseOp_idUse (d : Dev) (c : Nat) (s : EvSource) (vs : List Nat) : (raiseOp d c s vs).idUse = d.idUse := by
  obtain ⟨r, n, v, h⟩ := raiseOp_frame d c s vs; rw [h]
@[simp] theorem raiseOp_latches (d : Dev) (c : Nat) (s : EvSource) (vs : List Nat) : (raiseOp d c s vs).latches = d.latches := by
  obtain ⟨r, n, v, h⟩ := raiseOp_frame d c s vs; rw [h]
@[simp] theorem raiseOp_answer (d : Dev) (c : Nat) (s : EvSource) (vs : List Nat) : (raiseOp d c s vs).answer = d.answer := by
  obtain ⟨r, n, v, h⟩ := raiseOp_frame d c s vs; rw [h]
@[simp] theorem raiseOp_sent (d : Dev) (c : Nat) (s : EvSource) (vs : List Nat) : (raiseOp d c s vs).sent = d.sent := by
  obtain ⟨r, n, v, h⟩ := raiseOp_frame d c s vs; rw [h]
@[simp] theorem raiseOp_folds (d : Dev) (c : Nat) (s : EvSource) (vs : List Nat) : (raiseOp d c s vs).folds = d.folds := by
  obtain ⟨r, n, v, h⟩ := raiseOp_frame d c s vs; rw [h]
@[simp] theorem raiseOp_twin (d : Dev) (c : Nat) (s : EvSource) (vs : List Nat) : (raiseOp d c s vs).twin = d.twin := by
  obtain ⟨r, n, v, h⟩ := raiseOp_frame d c s vs; rw [h]
@[simp] theorem raiseOp_dur (d : Dev) (c : Nat) (s : EvSource) (vs : List Nat) : (raiseOp d c s vs).dur = d.dur := by
  obtain ⟨r, n, v, h⟩ := raiseOp_frame d c s vs; rw [h]
@[simp] theorem raiseOp_ftl (d : Dev) (c : Nat) (s : EvSource) (vs : List Nat) : (raiseOp d c s vs).ftl = d.ftl := by
  obtain ⟨r, n, v, h⟩ := raiseOp_frame d c s vs; rw [h]
@[simp] theorem raiseOp_dram (d : Dev) (c : Nat) (s : EvSource) (vs : List Nat) : (raiseOp d c s vs).dram = d.dram := by
  obtain ⟨r, n, v, h⟩ := raiseOp_frame d c s vs; rw [h]
@[simp] theorem raiseOp_hall (d : Dev) (c : Nat) (s : EvSource) (vs : List Nat) : (raiseOp d c s vs).hall = d.hall := by
  obtain ⟨r, n, v, h⟩ := raiseOp_frame d c s vs; rw [h]
@[simp] theorem raiseOp_sec (d : Dev) (c : Nat) (s : EvSource) (vs : List Nat) : (raiseOp d c s vs).sec = d.sec := by
  obtain ⟨r, n, v, h⟩ := raiseOp_frame d c s vs; rw [h]
@[simp] theorem raiseOp_ldg (d : Dev) (c : Nat) (s : EvSource) (vs : List Nat) : (raiseOp d c s vs).ldg = d.ldg := by
  obtain ⟨r, n, v, h⟩ := raiseOp_frame d c s vs; rw [h]
@[simp] theorem raiseOp_upd (d : Dev) (c : Nat) (s : EvSource) (vs : List Nat) : (raiseOp d c s vs).upd = d.upd := by
  obtain ⟨r, n, v, h⟩ := raiseOp_frame d c s vs; rw [h]
@[simp] theorem raiseOp_pwr (d : Dev) (c : Nat) (s : EvSource) (vs : List Nat) : (raiseOp d c s vs).pwr = d.pwr := by
  obtain ⟨r, n, v, h⟩ := raiseOp_frame d c s vs; rw [h]
@[simp] theorem raiseOp_rst (d : Dev) (c : Nat) (s : EvSource) (vs : List Nat) : (raiseOp d c s vs).rst = d.rst := by
  obtain ⟨r, n, v, h⟩ := raiseOp_frame d c s vs; rw [h]
@[simp] theorem raiseOp_i3c (d : Dev) (c : Nat) (s : EvSource) (vs : List Nat) : (raiseOp d c s vs).i3c = d.i3c := by
  obtain ⟨r, n, v, h⟩ := raiseOp_frame d c s vs; rw [h]
@[simp] theorem raiseOp_jtag (d : Dev) (c : Nat) (s : EvSource) (vs : List Nat) : (raiseOp d c s vs).jtag = d.jtag := by
  obtain ⟨r, n, v, h⟩ := raiseOp_frame d c s vs; rw [h]

@[simp] theorem raiseFolds_clock (d : Dev) (c : Nat) (s : EvSource) (l : List Byte) (fs : List Nat) : (raiseFolds d c s l fs).clock = d.clock := by
  obtain ⟨r, n, v, h⟩ := raiseFolds_frame d c s l fs; rw [h]
@[simp] theorem raiseFolds_freeIdx (d : Dev) (c : Nat) (s : EvSource) (l : List Byte) (fs : List Nat) : (raiseFolds d c s l fs).freeIdx = d.freeIdx := by
  obtain ⟨r, n, v, h⟩ := raiseFolds_frame d c s l fs; rw [h]
@[simp] theorem raiseFolds_env (d : Dev) (c : Nat) (s : EvSource) (l : List Byte) (fs : List Nat) : (raiseFolds d c s l fs).env = d.env := by
  obtain ⟨r, n, v, h⟩ := raiseFolds_frame d c s l fs; rw [h]
@[simp] theorem raiseFolds_idUse (d : Dev) (c : Nat) (s : EvSource) (l : List Byte) (fs : List Nat) : (raiseFolds d c s l fs).idUse = d.idUse := by
  obtain ⟨r, n, v, h⟩ := raiseFolds_frame d c s l fs; rw [h]
@[simp] theorem raiseFolds_latches (d : Dev) (c : Nat) (s : EvSource) (l : List Byte) (fs : List Nat) : (raiseFolds d c s l fs).latches = d.latches := by
  obtain ⟨r, n, v, h⟩ := raiseFolds_frame d c s l fs; rw [h]
@[simp] theorem raiseFolds_answer (d : Dev) (c : Nat) (s : EvSource) (l : List Byte) (fs : List Nat) : (raiseFolds d c s l fs).answer = d.answer := by
  obtain ⟨r, n, v, h⟩ := raiseFolds_frame d c s l fs; rw [h]
@[simp] theorem raiseFolds_sent (d : Dev) (c : Nat) (s : EvSource) (l : List Byte) (fs : List Nat) : (raiseFolds d c s l fs).sent = d.sent := by
  obtain ⟨r, n, v, h⟩ := raiseFolds_frame d c s l fs; rw [h]
@[simp] theorem raiseFolds_folds (d : Dev) (c : Nat) (s : EvSource) (l : List Byte) (fs : List Nat) : (raiseFolds d c s l fs).folds = d.folds := by
  obtain ⟨r, n, v, h⟩ := raiseFolds_frame d c s l fs; rw [h]
@[simp] theorem raiseFolds_twin (d : Dev) (c : Nat) (s : EvSource) (l : List Byte) (fs : List Nat) : (raiseFolds d c s l fs).twin = d.twin := by
  obtain ⟨r, n, v, h⟩ := raiseFolds_frame d c s l fs; rw [h]
@[simp] theorem raiseFolds_dur (d : Dev) (c : Nat) (s : EvSource) (l : List Byte) (fs : List Nat) : (raiseFolds d c s l fs).dur = d.dur := by
  obtain ⟨r, n, v, h⟩ := raiseFolds_frame d c s l fs; rw [h]
@[simp] theorem raiseFolds_ftl (d : Dev) (c : Nat) (s : EvSource) (l : List Byte) (fs : List Nat) : (raiseFolds d c s l fs).ftl = d.ftl := by
  obtain ⟨r, n, v, h⟩ := raiseFolds_frame d c s l fs; rw [h]
@[simp] theorem raiseFolds_dram (d : Dev) (c : Nat) (s : EvSource) (l : List Byte) (fs : List Nat) : (raiseFolds d c s l fs).dram = d.dram := by
  obtain ⟨r, n, v, h⟩ := raiseFolds_frame d c s l fs; rw [h]
@[simp] theorem raiseFolds_hall (d : Dev) (c : Nat) (s : EvSource) (l : List Byte) (fs : List Nat) : (raiseFolds d c s l fs).hall = d.hall := by
  obtain ⟨r, n, v, h⟩ := raiseFolds_frame d c s l fs; rw [h]
@[simp] theorem raiseFolds_sec (d : Dev) (c : Nat) (s : EvSource) (l : List Byte) (fs : List Nat) : (raiseFolds d c s l fs).sec = d.sec := by
  obtain ⟨r, n, v, h⟩ := raiseFolds_frame d c s l fs; rw [h]
@[simp] theorem raiseFolds_ldg (d : Dev) (c : Nat) (s : EvSource) (l : List Byte) (fs : List Nat) : (raiseFolds d c s l fs).ldg = d.ldg := by
  obtain ⟨r, n, v, h⟩ := raiseFolds_frame d c s l fs; rw [h]
@[simp] theorem raiseFolds_upd (d : Dev) (c : Nat) (s : EvSource) (l : List Byte) (fs : List Nat) : (raiseFolds d c s l fs).upd = d.upd := by
  obtain ⟨r, n, v, h⟩ := raiseFolds_frame d c s l fs; rw [h]
@[simp] theorem raiseFolds_pwr (d : Dev) (c : Nat) (s : EvSource) (l : List Byte) (fs : List Nat) : (raiseFolds d c s l fs).pwr = d.pwr := by
  obtain ⟨r, n, v, h⟩ := raiseFolds_frame d c s l fs; rw [h]
@[simp] theorem raiseFolds_rst (d : Dev) (c : Nat) (s : EvSource) (l : List Byte) (fs : List Nat) : (raiseFolds d c s l fs).rst = d.rst := by
  obtain ⟨r, n, v, h⟩ := raiseFolds_frame d c s l fs; rw [h]
@[simp] theorem raiseFolds_i3c (d : Dev) (c : Nat) (s : EvSource) (l : List Byte) (fs : List Nat) : (raiseFolds d c s l fs).i3c = d.i3c := by
  obtain ⟨r, n, v, h⟩ := raiseFolds_frame d c s l fs; rw [h]
@[simp] theorem raiseFolds_jtag (d : Dev) (c : Nat) (s : EvSource) (l : List Byte) (fs : List Nat) : (raiseFolds d c s l fs).jtag = d.jtag := by
  obtain ⟨r, n, v, h⟩ := raiseFolds_frame d c s l fs; rw [h]

@[simp] theorem queueFrame_clock (d : Dev) (n : Nat) (p : Option Nat) (b : TxBody) : (queueFrame d n p b).clock = d.clock := by
  obtain ⟨r, n, v, h⟩ := queueFrame_frame d n p b; rw [h]
@[simp] theorem queueFrame_freeIdx (d : Dev) (n : Nat) (p : Option Nat) (b : TxBody) : (queueFrame d n p b).freeIdx = d.freeIdx := by
  obtain ⟨r, n, v, h⟩ := queueFrame_frame d n p b; rw [h]
@[simp] theorem queueFrame_env (d : Dev) (n : Nat) (p : Option Nat) (b : TxBody) : (queueFrame d n p b).env = d.env := by
  obtain ⟨r, n, v, h⟩ := queueFrame_frame d n p b; rw [h]
@[simp] theorem queueFrame_idUse (d : Dev) (n : Nat) (p : Option Nat) (b : TxBody) : (queueFrame d n p b).idUse = d.idUse := by
  obtain ⟨r, n, v, h⟩ := queueFrame_frame d n p b; rw [h]
@[simp] theorem queueFrame_latches (d : Dev) (n : Nat) (p : Option Nat) (b : TxBody) : (queueFrame d n p b).latches = d.latches := by
  obtain ⟨r, n, v, h⟩ := queueFrame_frame d n p b; rw [h]
@[simp] theorem queueFrame_answer (d : Dev) (n : Nat) (p : Option Nat) (b : TxBody) : (queueFrame d n p b).answer = d.answer := by
  obtain ⟨r, n, v, h⟩ := queueFrame_frame d n p b; rw [h]
@[simp] theorem queueFrame_sent (d : Dev) (n : Nat) (p : Option Nat) (b : TxBody) : (queueFrame d n p b).sent = d.sent := by
  obtain ⟨r, n, v, h⟩ := queueFrame_frame d n p b; rw [h]
@[simp] theorem queueFrame_folds (d : Dev) (n : Nat) (p : Option Nat) (b : TxBody) : (queueFrame d n p b).folds = d.folds := by
  obtain ⟨r, n, v, h⟩ := queueFrame_frame d n p b; rw [h]
@[simp] theorem queueFrame_twin (d : Dev) (n : Nat) (p : Option Nat) (b : TxBody) : (queueFrame d n p b).twin = d.twin := by
  obtain ⟨r, n, v, h⟩ := queueFrame_frame d n p b; rw [h]
@[simp] theorem queueFrame_dur (d : Dev) (n : Nat) (p : Option Nat) (b : TxBody) : (queueFrame d n p b).dur = d.dur := by
  obtain ⟨r, n, v, h⟩ := queueFrame_frame d n p b; rw [h]
@[simp] theorem queueFrame_ftl (d : Dev) (n : Nat) (p : Option Nat) (b : TxBody) : (queueFrame d n p b).ftl = d.ftl := by
  obtain ⟨r, n, v, h⟩ := queueFrame_frame d n p b; rw [h]
@[simp] theorem queueFrame_dram (d : Dev) (n : Nat) (p : Option Nat) (b : TxBody) : (queueFrame d n p b).dram = d.dram := by
  obtain ⟨r, n, v, h⟩ := queueFrame_frame d n p b; rw [h]
@[simp] theorem queueFrame_hall (d : Dev) (n : Nat) (p : Option Nat) (b : TxBody) : (queueFrame d n p b).hall = d.hall := by
  obtain ⟨r, n, v, h⟩ := queueFrame_frame d n p b; rw [h]
@[simp] theorem queueFrame_sec (d : Dev) (n : Nat) (p : Option Nat) (b : TxBody) : (queueFrame d n p b).sec = d.sec := by
  obtain ⟨r, n, v, h⟩ := queueFrame_frame d n p b; rw [h]
@[simp] theorem queueFrame_ldg (d : Dev) (n : Nat) (p : Option Nat) (b : TxBody) : (queueFrame d n p b).ldg = d.ldg := by
  obtain ⟨r, n, v, h⟩ := queueFrame_frame d n p b; rw [h]
@[simp] theorem queueFrame_upd (d : Dev) (n : Nat) (p : Option Nat) (b : TxBody) : (queueFrame d n p b).upd = d.upd := by
  obtain ⟨r, n, v, h⟩ := queueFrame_frame d n p b; rw [h]
@[simp] theorem queueFrame_pwr (d : Dev) (n : Nat) (p : Option Nat) (b : TxBody) : (queueFrame d n p b).pwr = d.pwr := by
  obtain ⟨r, n, v, h⟩ := queueFrame_frame d n p b; rw [h]
@[simp] theorem queueFrame_rst (d : Dev) (n : Nat) (p : Option Nat) (b : TxBody) : (queueFrame d n p b).rst = d.rst := by
  obtain ⟨r, n, v, h⟩ := queueFrame_frame d n p b; rw [h]
@[simp] theorem queueFrame_i3c (d : Dev) (n : Nat) (p : Option Nat) (b : TxBody) : (queueFrame d n p b).i3c = d.i3c := by
  obtain ⟨r, n, v, h⟩ := queueFrame_frame d n p b; rw [h]
@[simp] theorem queueFrame_jtag (d : Dev) (n : Nat) (p : Option Nat) (b : TxBody) : (queueFrame d n p b).jtag = d.jtag := by
  obtain ⟨r, n, v, h⟩ := queueFrame_frame d n p b; rw [h]

@[simp] theorem queueFrame_regs (d : Dev) (n : Nat) (p : Option Nat) (b : TxBody) : (queueFrame d n p b).regs = d.regs := by
  unfold queueFrame modConn; split <;> rfl
@[simp] theorem queueFrame_evt (d : Dev) (n : Nat) (p : Option Nat) (b : TxBody) : (queueFrame d n p b).evt = d.evt := by
  unfold queueFrame modConn; split <;> rfl

/-! ## What every event leaves as it was -/

/-- A part of the device that the event state, a counter and a queued frame leave as it was, an event leaves as it was. -/
structure EventKeeps {α : Type} (g : Dev → α) : Prop where
  evt : ∀ d f, g (Dev.modEvt d f) = g d
  lost : ∀ d, g (bump d 0x50154 1) = g d
  frame : ∀ d n p b, g (queueFrame d n p b) = g d

theorem EventKeeps.ringEntry {α : Type} {g : Dev → α} (h : EventKeeps g) (d : Dev) (a b c n : Nat) (l : List Byte) :
    g (ringEntry d a b c n l) = g d := by
  unfold Sys2Proof.Machine.ringEntry; dsimp only
  repeat' split
  all_goals first
    | rfl
    | exact h.evt d _
    | exact (h.frame _ _ _ _).trans (h.evt d _)

theorem EventKeeps.recordEvent {α : Type} {g : Dev → α} (h : EventKeeps g) (d : Dev) (r : Record) : g (recordEvent d r) = g d := by
  unfold Sys2Proof.Machine.recordEvent; split
  · exact h.evt d _
  · exact (h.lost _).trans (h.evt d _)

theorem EventKeeps.foldCopy {α : Type} {g : Dev → α} (h : EventKeeps g) (a b : Nat) (l : List Byte) (d : Dev) (f : Nat) :
    g (foldCopy a b l d f) = g d := by
  unfold Sys2Proof.Machine.foldCopy; dsimp only
  repeat' split
  all_goals first
    | rfl
    | exact h.evt d _
    | exact (h.ringEntry _ _ _ _ _ _).trans (h.evt d _)

theorem EventKeeps.operatorCopy {α : Type} {g : Dev → α} (h : EventKeeps g) (a b : Nat) (l : List Byte) (d : Dev) :
    g (operatorCopy a b l d) = g d := by
  unfold Sys2Proof.Machine.operatorCopy; dsimp only
  repeat' split
  all_goals first
    | exact (h.ringEntry _ _ _ _ _ _).trans ((h.recordEvent _ _).trans (h.evt d _))
    | exact (h.recordEvent _ _).trans (h.evt d _)
    | exact (h.ringEntry _ _ _ _ _ _).trans (h.evt d _)
    | exact h.evt d _

theorem EventKeeps.raise {α : Type} {g : Dev → α} (h : EventKeeps g) (d : Dev) (code : Nat) (src : EvSource) (l : List Byte)
    (fs : List Nat) : g (raise d code src l fs) = g d := by
  have e : ∀ (fs : List Nat) (x : Dev), g (fs.foldl (Machine.foldCopy code (sourceNo src) l) x) = g x := by
    intro fs; induction fs with
    | nil => exact fun _ => rfl
    | cons f t ih => exact fun x => (ih _).trans (h.foldCopy _ _ _ _ _)
  exact (e _ _).trans (h.operatorCopy _ _ _ d)

theorem EventKeeps.raiseOp {α : Type} {g : Dev → α} (h : EventKeeps g) (d : Dev) (code : Nat) (src : EvSource) (vs : List Nat) :
    g (raiseOp d code src vs) = g d := h.raise d code src _ []

theorem EventKeeps.raiseFolds {α : Type} {g : Dev → α} (h : EventKeeps g) (d : Dev) (code : Nat) (src : EvSource) (l : List Byte)
    (fs : List Nat) : g (raiseFolds d code src l fs) = g d := by
  unfold Machine.raiseFolds
  induction fs generalizing d with
  | nil => rfl
  | cons f t ih =>
    rw [List.foldl_cons, ih]
    dsimp only
    repeat' split
    all_goals first
      | exact h.evt d _
      | exact (h.ringEntry _ _ _ _ _ _).trans (h.evt d _)
      | exact h.foldCopy _ _ _ _ _


end Sys2Proof.Machine
end

