-- ==== Sys2Proof/Laws/Control.lean ====
section
/-! SUPPORT. What stamping a CTRL record may change, and that nothing happens in `settle` when nothing waits. -/
namespace Sys2Proof.Machine

/-- The rest of a device after a stamp: the twin's book-keeping, the ledger's DIRTY mark, the dirty lines, the flash engine's
programs, the copies of lines in the hall, what was sent, the setting-up of a connection, and what an event changes. -/
def StampFrame (d e : Dev) : Prop :=
  ∃ t l u f r n v o h, e = { d with twin := t, ldg := l, dur := u, ftl := f, regs := r, net := n, evt := v, sent := o, hall := h }

theorem StampFrame.refl (d : Dev) : StampFrame d d := ⟨_, _, _, _, _, _, _, _, _, rfl⟩

theorem StampFrame.trans {a b c : Dev} (h : StampFrame a b) (k : StampFrame b c) : StampFrame a c := by
  obtain ⟨_, _, _, _, _, _, _, _, _, rfl⟩ := h; obtain ⟨_, _, _, _, _, _, _, _, _, rfl⟩ := k
  exact ⟨_, _, _, _, _, _, _, _, _, rfl⟩

theorem EventFrame.stamp {a b : Dev} (h : EventFrame a b) : StampFrame a b := by
  obtain ⟨r, n, v, rfl⟩ := h; exact ⟨_, _, _, _, r, n, v, _, _, rfl⟩

theorem modTwin_stamp (d : Dev) (f : Twin → Twin) : StampFrame d (d.modTwin f) := ⟨_, _, _, _, _, _, _, _, _, rfl⟩

theorem modHall_stamp (d : Dev) (f : Hall → Hall) : StampFrame d (d.modHall f) := ⟨_, _, _, _, _, _, _, _, _, rfl⟩

theorem modConn_stamp (d : Dev) (n : Nat) (f : Conn → Conn) : StampFrame d (modConn d n f) := by
  unfold modConn setConn; split
  · exact ⟨_, _, _, _, _, _, _, _, _, rfl⟩
  · exact .refl d

theorem markDirty_stamp (d : Dev) : StampFrame d (markDirty d) := by
  unfold markDirty; split
  · exact .refl d
  · exact ⟨_, _, _, _, _, _, _, _, _, rfl⟩

theorem refuseAtLimit_stamp (d : Dev) : StampFrame d (refuseAtLimit d) := by
  unfold refuseAtLimit; split
  · exact (modTwin_stamp d _).trans (raiseOp_frame _ _ _ _).stamp
  · exact .refl d

theorem takeStamp_stamp (d : Dev) : StampFrame d (takeStamp d).2 := by
  unfold takeStamp; dsimp only
  refine StampFrame.trans ?_ (refuseAtLimit_stamp _)
  split
  · exact ((markDirty_stamp d).trans (modTwin_stamp _ _)).trans (raiseOp_frame _ _ _ _).stamp
  · exact (markDirty_stamp d).trans (modTwin_stamp _ _)

theorem foldl_stamp {α : Type} (g : Dev → α → Dev) (l : List α) (hg : ∀ d x, StampFrame d (g d x)) (d : Dev) :
    StampFrame d (l.foldl g d) := by
  induction l generalizing d with
  | nil => exact .refl d
  | cons x t ih => exact (hg d x).trans (ih _)

theorem pumpFrames_stamp (n : Nat) (d : Dev) : StampFrame d (pumpFrames n d) := by
  induction n generalizing d with
  | zero => exact .refl d
  | succ n ih =>
    simp only [pumpFrames]
    split
    · exact .refl d
    · exact StampFrame.trans ⟨_, _, _, _, _, _, _, _, _, rfl⟩ (ih _)

theorem sendRecs_stamp (d : Dev) (rs : List Rec) : StampFrame d (sendRecs d rs) :=
  (modTwin_stamp d _).trans (pumpFrames_stamp _ _)

theorem forward_stamp (d : Dev) (st : Stamp) (r : Rec) : StampFrame d (forward d st r) := by
  unfold forward; split
  · exact (modTwin_stamp d _).trans (sendRecs_stamp _ _)
  · exact .refl d

theorem toFrame_stamp (d : Dev) (line : Nat) (v : BitVec 512) : StampFrame d (toFrame d line v) := modHall_stamp d _

theorem evictLine_stamp {d e : Dev} {s : Nat} {u : Slice} {x : SliceLine} (h : evictLine d s u x = some e) : StampFrame d e := by
  unfold evictLine at h; dsimp only at h
  split at h
  · split at h <;> cases h
    · exact (modHall_stamp d _).trans (toFrame_stamp _ _ _)
    · exact modHall_stamp d _
  · obtain ⟨_, _, rfl⟩ := Option.map_eq_some_iff.1 h; exact modHall_stamp d _

theorem landRecall_stamp (d : Dev) (u : Slice) (line : Nat) : StampFrame d (landRecall d u line) := by
  unfold landRecall; split
  · exact toFrame_stamp _ _ _
  · exact .refl d

theorem useLine_stamp (m : Bool) (d : Dev) (line : Nat) : StampFrame d (useLine m d line) := by
  unfold useLine; dsimp only
  split
  · exact .refl d
  · split
    · exact .refl d
    · split
      · exact .refl d
      · rename_i h
        refine StampFrame.trans (StampFrame.trans ?_ (landRecall_stamp _ _ _)) (modHall_stamp _ _)
        unfold makeRoom at h
        split at h
        · cases h; exact .refl d
        · split at h
          · split at h
            · exact evictLine_stamp h
            · cases h
          · cases h

theorem noteLines_stamp (d : Dev) (st : Stamp) (ls : List Nat) : StampFrame d (noteLines d st ls) := by
  unfold noteLines noteLeaves; dsimp only
  have h (a : Dev) (g : Dur → Dur) (k : Ftl → Ftl) : StampFrame a ((a.modDur g).modFtl k) := ⟨_, _, _, _, _, _, _, _, _, rfl⟩
  have h1 (f : Twin → Twin) (g : Dur → Dur) (k : Ftl → Ftl) : StampFrame d ((((markDirty d).modTwin f).modDur g).modFtl k) :=
    ((markDirty_stamp d).trans (modTwin_stamp _ _)).trans (h _ _ _)
  split
  · exact ((h1 _ _ _).trans (foldl_stamp _ _ (fun _ _ => useLine_stamp _ _ _) _)).trans (modTwin_stamp _ _)
  · exact (h1 _ _ _).trans (foldl_stamp _ _ (fun _ _ => useLine_stamp _ _ _) _)

theorem noteSetup_stamp (d : Dev) (st : Stamp) (b : CtrlBody) : StampFrame d (noteSetup d st b) := by
  unfold noteSetup; split
  · exact modConn_stamp _ _ _
  · exact modConn_stamp _ _ _
  · exact .refl d

theorem stampCtrl_frame (d : Dev) (b : CtrlBody) : StampFrame d (stampCtrl d b).2 :=
  (((takeStamp_stamp d).trans (forward_stamp _ _ _)).trans (noteLines_stamp _ _ _)).trans (noteSetup_stamp _ _ _)

@[simp] theorem stampCtrl_clock (d : Dev) (b : CtrlBody) : (stampCtrl d b).2.clock = d.clock := by
  obtain ⟨_, _, _, _, _, _, _, _, _, h⟩ := stampCtrl_frame d b; rw [h]
@[simp] theorem stampCtrl_freeIdx (d : Dev) (b : CtrlBody) : (stampCtrl d b).2.freeIdx = d.freeIdx := by
  obtain ⟨_, _, _, _, _, _, _, _, _, h⟩ := stampCtrl_frame d b; rw [h]
@[simp] theorem stampCtrl_env (d : Dev) (b : CtrlBody) : (stampCtrl d b).2.env = d.env := by
  obtain ⟨_, _, _, _, _, _, _, _, _, h⟩ := stampCtrl_frame d b; rw [h]
@[simp] theorem stampCtrl_idUse (d : Dev) (b : CtrlBody) : (stampCtrl d b).2.idUse = d.idUse := by
  obtain ⟨_, _, _, _, _, _, _, _, _, h⟩ := stampCtrl_frame d b; rw [h]
@[simp] theorem stampCtrl_latches (d : Dev) (b : CtrlBody) : (stampCtrl d b).2.latches = d.latches := by
  obtain ⟨_, _, _, _, _, _, _, _, _, h⟩ := stampCtrl_frame d b; rw [h]
@[simp] theorem stampCtrl_answer (d : Dev) (b : CtrlBody) : (stampCtrl d b).2.answer = d.answer := by
  obtain ⟨_, _, _, _, _, _, _, _, _, h⟩ := stampCtrl_frame d b; rw [h]
@[simp] theorem stampCtrl_folds (d : Dev) (b : CtrlBody) : (stampCtrl d b).2.folds = d.folds := by
  obtain ⟨_, _, _, _, _, _, _, _, _, h⟩ := stampCtrl_frame d b; rw [h]
@[simp] theorem stampCtrl_dram (d : Dev) (b : CtrlBody) : (stampCtrl d b).2.dram = d.dram := by
  obtain ⟨_, _, _, _, _, _, _, _, _, h⟩ := stampCtrl_frame d b; rw [h]
@[simp] theorem stampCtrl_sec (d : Dev) (b : CtrlBody) : (stampCtrl d b).2.sec = d.sec := by
  obtain ⟨_, _, _, _, _, _, _, _, _, h⟩ := stampCtrl_frame d b; rw [h]
@[simp] theorem stampCtrl_upd (d : Dev) (b : CtrlBody) : (stampCtrl d b).2.upd = d.upd := by
  obtain ⟨_, _, _, _, _, _, _, _, _, h⟩ := stampCtrl_frame d b; rw [h]
@[simp] theorem stampCtrl_pwr (d : Dev) (b : CtrlBody) : (stampCtrl d b).2.pwr = d.pwr := by
  obtain ⟨_, _, _, _, _, _, _, _, _, h⟩ := stampCtrl_frame d b; rw [h]
@[simp] theorem stampCtrl_rst (d : Dev) (b : CtrlBody) : (stampCtrl d b).2.rst = d.rst := by
  obtain ⟨_, _, _, _, _, _, _, _, _, h⟩ := stampCtrl_frame d b; rw [h]
@[simp] theorem stampCtrl_i3c (d : Dev) (b : CtrlBody) : (stampCtrl d b).2.i3c = d.i3c := by
  obtain ⟨_, _, _, _, _, _, _, _, _, h⟩ := stampCtrl_frame d b; rw [h]
@[simp] theorem stampCtrl_jtag (d : Dev) (b : CtrlBody) : (stampCtrl d b).2.jtag = d.jtag := by
  obtain ⟨_, _, _, _, _, _, _, _, _, h⟩ := stampCtrl_frame d b; rw [h]

@[simp] theorem stampCtrl_fst (d : Dev) (b : CtrlBody) : (stampCtrl d b).1 = nextStamp d.twin := rfl

/-! ## The twin's state under a stamp -/

/-- What a stamp leaves of the twin's state: the role, the identity, the phase, the records that wait, the relayed accesses. -/
def RoleFrame (a b : Twin) : Prop :=
  b.st = a.st ∧ b.ident = a.ident ∧ b.phase = a.phase ∧ b.ctrlDue = a.ctrlDue ∧ b.relays = a.relays ∧ b.lastCmd = a.lastCmd ∧
  b.cfgGen = a.cfgGen ∧ b.override = a.override ∧ b.linkUp = a.linkUp

theorem RoleFrame.refl (a : Twin) : RoleFrame a a := ⟨rfl, rfl, rfl, rfl, rfl, rfl, rfl, rfl, rfl⟩

theorem RoleFrame.trans {a b c : Twin} (h : RoleFrame a b) (k : RoleFrame b c) : RoleFrame a c := by
  obtain ⟨h1, h2, h3, h4, h5, h6, h7, h8, h9⟩ := h
  obtain ⟨k1, k2, k3, k4, k5, k6, k7, k8, k9⟩ := k
  exact ⟨k1.trans h1, k2.trans h2, k3.trans h3, k4.trans h4, k5.trans h5, k6.trans h6, k7.trans h7, k8.trans h8, k9.trans h9⟩

@[simp] theorem markDirty_twin (d : Dev) : (markDirty d).twin = d.twin := by unfold markDirty; split <;> rfl

theorem refuseAtLimit_role (d : Dev) :
    RoleFrame d.twin (refuseAtLimit d).twin ∧ (refuseAtLimit d).twin.lastStamp = d.twin.lastStamp ∧
      (refuseAtLimit d).twin.nextAt = d.twin.nextAt := by
  unfold refuseAtLimit; split
  · simp [RoleFrame]
  · exact ⟨.refl _, rfl, rfl⟩

theorem takeStamp_role (d : Dev) :
    RoleFrame d.twin (takeStamp d).2.twin ∧ (takeStamp d).2.twin.lastStamp = nextStamp d.twin ∧
      (takeStamp d).2.twin.nextAt = none := by
  unfold takeStamp; dsimp only
  split
  all_goals
    refine ⟨RoleFrame.trans ?_ (refuseAtLimit_role _).1, (refuseAtLimit_role _).2.1.trans ?_, (refuseAtLimit_role _).2.2.trans ?_⟩ <;>
      simp [RoleFrame]

theorem sendRecs_role (d : Dev) (rs : List Rec) :
    RoleFrame d.twin (sendRecs d rs).twin ∧ (sendRecs d rs).twin.lastStamp = d.twin.lastStamp ∧
      (sendRecs d rs).twin.nextAt = d.twin.nextAt := by
  have key (n : Nat) : ∀ d : Dev, RoleFrame d.twin (pumpFrames n d).twin ∧ (pumpFrames n d).twin.lastStamp = d.twin.lastStamp ∧
      (pumpFrames n d).twin.nextAt = d.twin.nextAt := by
    induction n with
    | zero => exact fun d => ⟨.refl _, rfl, rfl⟩
    | succ n ih =>
      intro d
      simp only [pumpFrames]
      split
      · exact ⟨.refl _, rfl, rfl⟩
      · obtain ⟨k1, k2, k3⟩ := ih (emit (d.modTwin fun t =>
          { t with lsnTx := (t.lsnTx + 1) % 2 ^ 32, txq := t.txq ++ [(d.twin.lsnTx, (packFrame frameRoom d.twin.waitq).1)],
                   waitq := (packFrame frameRoom d.twin.waitq).2, txc := t.txc + 1 })
          (.twl d.twin.lsnTx d.twin.lsnRx d.twin.txc (ownPeer d) (packFrame frameRoom d.twin.waitq).1))
        exact ⟨k1, k2, k3⟩
  exact key _ (d.modTwin fun t => { t with waitq := t.waitq ++ rs.map (wholeRec d) })

theorem forward_role (d : Dev) (st : Stamp) (r : Rec) :
    RoleFrame d.twin (forward d st r).twin ∧ (forward d st r).twin.lastStamp = d.twin.lastStamp ∧
      (forward d st r).twin.nextAt = d.twin.nextAt := by
  unfold forward; split
  · exact sendRecs_role _ _
  · exact ⟨.refl _, rfl, rfl⟩

/-- Using a line changes the hall alone. -/
theorem useLine_hall (m : Bool) (d : Dev) (line : Nat) : ∃ h, useLine m d line = { d with hall := h } := by
  have hm {e : Dev} {s : Nat} {u : Slice} (k : makeRoom d s u line = some e) : ∃ h, e = { d with hall := h } := by
    unfold makeRoom evictLine at k; dsimp only at k
    (repeat' split at k) <;> first
      | (cases k; done) | (cases k; exact ⟨_, rfl⟩) | (obtain ⟨_, _, rfl⟩ := Option.map_eq_some_iff.1 k; exact ⟨_, rfl⟩)
  have hl (e : Dev) (u : Slice) : ∃ h, landRecall e u line = { e with hall := h } := by
    unfold landRecall; split <;> exact ⟨_, rfl⟩
  unfold useLine; dsimp only
  (repeat' split) <;> first
    | exact ⟨_, rfl⟩
    | (rename_i u _ _ e k; obtain ⟨_, rfl⟩ := hm k; obtain ⟨_, h⟩ := hl { d with hall := _ } u; rw [h]; exact ⟨_, rfl⟩)

theorem useLine_twin (m : Bool) (d : Dev) (line : Nat) : (useLine m d line).twin = d.twin := by
  obtain ⟨_, h⟩ := useLine_hall m d line; rw [h]

theorem foldl_useLine_twin (m : Bool) (l : List Nat) (d : Dev) : (l.foldl (useLine m) d).twin = d.twin := by
  induction l generalizing d with
  | nil => rfl
  | cons x t ih => exact (ih _).trans (useLine_twin m d x)

theorem noteLines_role (d : Dev) (st : Stamp) (ls : List Nat) :
    RoleFrame d.twin (noteLines d st ls).twin ∧ (noteLines d st ls).twin.lastStamp = d.twin.lastStamp ∧
      (noteLines d st ls).twin.nextAt = d.twin.nextAt := by
  unfold noteLines noteLeaves; dsimp only
  split <;> simp [RoleFrame, foldl_useLine_twin]

@[simp] theorem noteSetup_twin (d : Dev) (st : Stamp) (b : CtrlBody) : (noteSetup d st b).twin = d.twin := by
  unfold noteSetup; (split <;> try rfl) <;> (unfold modConn; split <;> rfl)

/-- A CTRL record takes the next stamp, which becomes the last; the unit's role and the records that wait stay. -/
theorem stampCtrl_role (d : Dev) (b : CtrlBody) :
    RoleFrame d.twin (stampCtrl d b).2.twin ∧ (stampCtrl d b).2.twin.lastStamp = nextStamp d.twin ∧
      (stampCtrl d b).2.twin.nextAt = none := by
  have h1 := takeStamp_role d
  have h2 := forward_role (takeStamp d).2 (takeStamp d).1 (.ctrl (takeStamp d).1 b)
  have h3 := noteLines_role (forward (takeStamp d).2 (takeStamp d).1 (.ctrl (takeStamp d).1 b)) (takeStamp d).1 (ctlLines d b)
  unfold stampCtrl; dsimp only; rw [noteSetup_twin]
  exact ⟨(h1.1.trans h2.1).trans h3.1, (h3.2.1.trans h2.2.1).trans h1.2.1, (h3.2.2.trans h2.2.2).trans h1.2.2⟩

@[simp] theorem stampCtrl_lastStamp (d : Dev) (b : CtrlBody) : (stampCtrl d b).2.twin.lastStamp = nextStamp d.twin :=
  (stampCtrl_role d b).2.1

@[simp] theorem stampCtrl_ctrlDue (d : Dev) (b : CtrlBody) : (stampCtrl d b).2.twin.ctrlDue = d.twin.ctrlDue :=
  (stampCtrl_role d b).1.2.2.2.1

@[simp] theorem stampCtrl_st (d : Dev) (b : CtrlBody) : (stampCtrl d b).2.twin.st = d.twin.st := (stampCtrl_role d b).1.1

/-- Nothing that waits: nothing to settle. -/
theorem settle_idle {d : Dev} (h1 : d.twin.ctrlDue = []) (h2 : d.folds.queue = []) (h3 : d.folds.waits = none) :
    settle d = d := by
  have r : refuseWaiting d = d := by
    have : (d.modTwin fun t => { t with ctrlDue := t.ctrlDue.filter fun x => x.2 = .change }) = d := by
      have : ({ d.twin with ctrlDue := d.twin.ctrlDue.filter fun x => x.2 = .change } : Twin) = d.twin := by rw [h1]; exact (congrArg (fun l => { d.twin with ctrlDue := l }) h1).symm
      exact congrArg (fun t => { d with twin := t }) this
    rw [refuseWaiting, this, h1]; rfl
  have e : drainCtrl (d.twin.ctrlDue.length + 1) d = d := by rw [h1]; simp [drainCtrl, h1]
  simp [settle, r, e, h2, rmaPump, h3]

/-- A command that can have its stamp now sends its record. -/
theorem issueCtrl_ready {d : Dev} {b : CtrlBody} (h : ctrlReady d b = true) :
    issueCtrl d b = applyCtrl (markEnd (stampCtrl d b).2 b true) (nextStamp d.twin) b := by
  unfold issueCtrl; rw [if_pos h]; rfl

end Sys2Proof.Machine
end

