-- ==== Sys2Proof/Laws/Memory.lean ====
section
/-! SUPPORT. The persistent memory: every operation on it keeps the canonical form, a read after a write gives the value
written, and a write leaves every other byte alone. -/
namespace Sys2Proof.Machine

/-! ## Tables with rising keys -/

theorem risingFrom_le {α : Type} {m : List (Nat × α)} {a b : Nat} (h : risingFrom b m = true) (hab : a ≤ b) :
    risingFrom a m = true := by
  cases m with
  | nil => rfl
  | cons x t => simp only [risingFrom, Bool.and_eq_true, decide_eq_true_eq] at *; exact ⟨by omega, h.2⟩

theorem getKey_of_rising {α : Type} {m : List (Nat × α)} {a b : Nat} (h : risingFrom b m = true) (hab : a < b) :
    getKey m a = none := by
  induction m generalizing b with
  | nil => rfl
  | cons x t ih =>
    simp only [risingFrom, Bool.and_eq_true, decide_eq_true_eq] at h
    simp only [getKey]
    rw [if_neg (by omega)]
    exact ih h.2 (by omega)

theorem risingFrom_putKey {α : Type} {m : List (Nat × α)} {a b : Nat} {v : α} (h : risingFrom b m = true) (hab : b ≤ a) :
    risingFrom b (putKey m a v) = true := by
  induction m generalizing b with
  | nil => simpa [putKey, risingFrom] using hab
  | cons x t ih =>
    simp only [risingFrom, Bool.and_eq_true, decide_eq_true_eq] at h
    simp only [putKey]
    split
    · simp only [risingFrom, Bool.and_eq_true, decide_eq_true_eq]; exact ⟨hab, by omega, h.2⟩
    · split
      · rename_i e; subst e; simp only [risingFrom, Bool.and_eq_true, decide_eq_true_eq]; exact ⟨hab, h.2⟩
      · simp only [risingFrom, Bool.and_eq_true, decide_eq_true_eq]; exact ⟨h.1, ih h.2 (by omega)⟩

theorem risingFrom_delKey {α : Type} {m : List (Nat × α)} {a b : Nat} (h : risingFrom b m = true) :
    risingFrom b (delKey m a) = true := by
  induction m generalizing b with
  | nil => rfl
  | cons x t ih =>
    simp only [risingFrom, Bool.and_eq_true, decide_eq_true_eq] at h
    simp only [delKey]
    split
    · exact risingFrom_le (ih h.2) (by omega)
    · simp only [risingFrom, Bool.and_eq_true, decide_eq_true_eq]; exact ⟨h.1, ih h.2⟩

theorem risingFrom_filter {α : Type} {m : List (Nat × α)} {b : Nat} (p : Nat × α → Bool) (h : risingFrom b m = true) :
    risingFrom b (m.filter p) = true := by
  induction m generalizing b with
  | nil => rfl
  | cons x t ih =>
    simp only [risingFrom, Bool.and_eq_true, decide_eq_true_eq] at h
    simp only [List.filter]
    split
    · simp only [risingFrom, Bool.and_eq_true, decide_eq_true_eq]; exact ⟨h.1, ih h.2⟩
    · exact risingFrom_le (ih h.2) (by omega)

theorem getKey_putKey {α : Type} {m : List (Nat × α)} {a b : Nat} {v : α} :
    getKey (putKey m a v) b = if a = b then some v else getKey m b := by
  induction m with
  | nil => simp [putKey, getKey]
  | cons x t ih =>
    simp only [putKey]
    split
    · simp [getKey]
    · split
      · rename_i e; subst e; simp only [getKey]; split <;> simp_all
      · simp only [getKey, ih]; split <;> split <;> simp_all

theorem getKey_delKey {α : Type} {m : List (Nat × α)} {a b : Nat} :
    getKey (delKey m a) b = if a = b then none else getKey m b := by
  induction m with
  | nil => simp [delKey, getKey]
  | cons x t ih =>
    simp only [delKey]
    split
    · rename_i e; subst e; rw [ih]; simp only [getKey]; split <;> simp_all
    · simp only [getKey, ih]; split <;> split <;> simp_all

theorem mem_putKey {α : Type} {m : List (Nat × α)} {a : Nat} {v : α} {x : Nat × α} (h : x ∈ putKey m a v) :
    x = (a, v) ∨ x ∈ m := by
  induction m with
  | nil => simpa [putKey] using h
  | cons y t ih =>
    simp only [putKey] at h
    split at h
    · simpa using h
    · split at h
      · simp only [List.mem_cons] at h ⊢; tauto
      · simp only [List.mem_cons] at h ⊢; have := @ih; tauto

theorem mem_delKey {α : Type} {m : List (Nat × α)} {a : Nat} {x : Nat × α} (h : x ∈ delKey m a) : x ∈ m := by
  induction m with
  | nil => simp [delKey] at h
  | cons y t ih =>
    simp only [delKey] at h
    split at h
    · exact List.mem_cons_of_mem _ (ih h)
    · simp only [List.mem_cons] at h ⊢; exact h.imp id (fun h => ih h)

/-! ## The canonical form is kept -/

theorem memWf_iff {m : Mem} : memWf m = true ↔ risingFrom 0 m = true ∧ ∀ c ∈ m, c.2 ≠ 0 := by
  simp [memWf]

@[simp] theorem memWf_nil : memWf [] = true := rfl

theorem memWf_writeByte {m : Mem} (a : Nat) (b : Byte) (h : memWf m = true) : memWf (writeByte m a b) = true := by
  rw [memWf_iff] at *
  unfold writeByte
  split
  · exact ⟨risingFrom_delKey h.1, fun c hc => h.2 c (mem_delKey hc)⟩
  · refine ⟨risingFrom_putKey h.1 (Nat.zero_le _), fun c hc => ?_⟩
    rcases mem_putKey hc with rfl | hc
    · assumption
    · exact h.2 c hc

theorem memWf_writeBytes {m : Mem} (a : Nat) (bs : List Byte) (h : memWf m = true) : memWf (writeBytes m a bs) = true := by
  induction bs generalizing m a with
  | nil => exact h
  | cons b t ih => exact ih (a + 1) (memWf_writeByte a b h)

theorem memWf_writeLE {m : Mem} (a n v : Nat) (h : memWf m = true) : memWf (writeLE m a n v) = true :=
  memWf_writeBytes a _ h

theorem memWf_filter {m : Mem} (p : Host.Cell → Bool) (h : memWf m = true) : memWf (m.filter p) = true := by
  rw [memWf_iff] at *
  exact ⟨risingFrom_filter p h.1, fun c hc => h.2 c (List.mem_of_mem_filter hc)⟩

theorem memWf_zeroBytes {m : Mem} (a n : Nat) (h : memWf m = true) : memWf (zeroBytes m a n) = true := memWf_filter _ h

/-- A fold whose every step keeps the canonical form keeps it. -/
theorem memWf_foldl {α : Type} (g : Mem → α → Mem) (hg : ∀ m x, memWf m = true → memWf (g m x) = true) (l : List α) {m : Mem}
    (h : memWf m = true) : memWf (l.foldl g m) = true := by
  induction l generalizing m with
  | nil => exact h
  | cons x t ih => exact ih (hg m x h)

theorem memWf_copyBytes {m : Mem} (src dst n : Nat) (h : memWf m = true) : memWf (copyBytes m src dst n) = true :=
  memWf_foldl _ (fun _ _ h => memWf_writeByte _ _ h) _ (memWf_zeroBytes _ _ h)

/-! ## Reading -/

theorem readByte_writeByte {m : Mem} {a b : Nat} {v : Byte} :
    readByte (writeByte m a v) b = if a = b then v else readByte m b := by
  unfold readByte writeByte
  split
  · rw [getKey_delKey]; split <;> simp_all
  · rw [getKey_putKey]; split <;> simp_all

/-- Reading after a write: inside the span the byte written, outside it the byte as before. -/
theorem readByte_writeBytes {m : Mem} {a b : Nat} {bs : List Byte} :
    readByte (writeBytes m a bs) b = if a ≤ b ∧ b < a + bs.length then bs.getD (b - a) 0 else readByte m b := by
  induction bs generalizing m a with
  | nil => simp only [writeBytes, List.length_nil]; rw [if_neg (by omega)]
  | cons v t ih =>
    simp only [writeBytes, ih, readByte_writeByte, List.length_cons]
    by_cases h1 : a = b
    · subst h1; rw [if_neg (by omega), if_pos rfl, if_pos (by omega)]; simp
    · by_cases h2 : a + 1 ≤ b ∧ b < a + 1 + t.length
      · rw [if_pos h2, if_pos (by omega)]
        obtain ⟨k, hk⟩ : ∃ k, b - a = k + 1 := ⟨b - a - 1, by omega⟩
        rw [hk, show b - (a + 1) = k by omega]; simp
      · rw [if_neg h2, if_neg h1, if_neg (by omega)]

theorem getKey_filter {α : Type} {m : List (Nat × α)} (p : Nat → Bool) (b : Nat) :
    getKey (m.filter fun c => p c.1) b = if p b then getKey m b else none := by
  induction m with
  | nil => simp [getKey]
  | cons x t ih =>
    by_cases hx : p x.1 = true
    · rw [List.filter_cons_of_pos (by simpa using hx)]
      simp only [getKey, ih]
      by_cases hb : x.1 = b
      · subst hb; simp [hx]
      · simp [hb]
    · rw [List.filter_cons_of_neg (by simpa using hx), ih]
      by_cases hb : x.1 = b
      · subst hb; simp [hx]
      · simp [getKey, hb]

/-- Reading after a span is cleared: zero inside it, as before outside it. -/
theorem readByte_zeroBytes (m : Mem) (a n b : Nat) :
    readByte (zeroBytes m a n) b = if a ≤ b ∧ b < a + n then 0 else readByte m b := by
  have e : getKey (zeroBytes m a n) b = if !(decide (a ≤ b) && decide (b < a + n)) then getKey m b else none :=
    getKey_filter (fun k => !(decide (a ≤ k) && decide (k < a + n))) b
  unfold readByte
  rw [e]
  by_cases h : a ≤ b ∧ b < a + n
  · simp [h]
  · rw [if_neg h, if_pos]; simp; omega

theorem readBytes_length (m : Mem) (a n : Nat) : (readBytes m a n).length = n := by
  induction n generalizing a with
  | zero => rfl
  | succ n ih => simp [readBytes, ih]

/-- Bytes written read back. -/
theorem readBytes_writeBytes (m : Mem) (a : Nat) (bs : List Byte) :
    readBytes (writeBytes m a bs) a bs.length = bs := by
  have key : ∀ (n k : Nat), k + n = bs.length → readBytes (writeBytes m a bs) (a + k) n = bs.drop k := by
    intro n
    induction n with
    | zero => intro k hk; simp [readBytes, List.drop_eq_nil_of_le (show bs.length ≤ k by omega)]
    | succ n ih =>
      intro k hk
      rw [readBytes, readByte_writeBytes, if_pos (by omega), show a + k - a = k by omega,
        show a + k + 1 = a + (k + 1) by omega, ih (k + 1) (by omega)]
      rw [List.drop_eq_getElem_cons (show k < bs.length by omega)]
      simp [List.getD_eq_getElem?_getD, List.getElem?_eq_getElem (show k < bs.length by omega)]
  simpa using key bs.length 0 (by omega)

end Sys2Proof.Machine
end

