-- ==== Sys2Proof/Laws/MemCore.lean ====
section
/-! SUPPORT. What the memory is after shared operations, translation, the order stream, the operation pipeline and its completion: a `_mem` lemma says that an operation leaves
every byte as it was, a `_wf` lemma that it keeps the canonical form. -/
namespace Sys2Proof.Machine

/-- A fold whose every step leaves the memory alone leaves it alone. -/
theorem foldl_mem {α : Type} (g : Dev → α → Dev) (l : List α) (hg : ∀ d x, (g d x).mem = d.mem) (d : Dev) :
    (l.foldl g d).mem = d.mem := by
  induction l generalizing d with
  | nil => rfl
  | cons x t ih => exact (ih _).trans (hg d x)

/-- A fold whose every step keeps the canonical form keeps it. -/
theorem foldl_wf {α : Type} (g : Dev → α → Dev) (l : List α) (hg : ∀ d x, memWf d.mem = true → memWf (g d x).mem = true)
    (d : Dev) (h : memWf d.mem = true) : memWf (l.foldl g d).mem = true := by
  induction l generalizing d with
  | nil => exact h
  | cons x t ih => exact ih _ (hg d x h)

/-- A conditional change that leaves the memory alone leaves it alone. -/
theorem ite_mem {c : Prop} [Decidable c] {a b : Dev} (h : a.mem = b.mem) : (if c then a else b).mem = b.mem := by
  split
  · exact h
  · rfl

/-! ## Machine/Ops.lean -/

@[simp] theorem stateEntry_mem (a1 a2 d) : (stateEntry a1 a2 d).mem = d.mem := by
  rfl

@[simp] theorem setBoot_mem (a1 d) : (setBoot a1 d).mem = d.mem := by
  rfl

/-- The SLOT entries that a change of the image slots calls for change the state ring alone. -/
theorem noteSlots_ring (old d : Dev) : ∃ r, noteSlots old d = d.modLdg fun l => { l with ring := r } := by
  have key (l : List ((ImgSlot × ImgSlot) × Nat)) (g : Dev → (ImgSlot × ImgSlot) × Nat → Dev)
      (hg : ∀ d x, ∃ r, g d x = d.modLdg fun l => { l with ring := r }) :
      ∀ d, ∃ r, l.foldl g d = d.modLdg fun l => { l with ring := r } := by
    induction l with
    | nil => exact fun d => ⟨d.ldg.ring, rfl⟩
    | cons x t ih =>
      intro d
      obtain ⟨a, ha⟩ := hg d x
      obtain ⟨b, hb⟩ := ih (g d x)
      exact ⟨b, hb.trans (by rw [ha]; rfl)⟩
  refine key _ _ (fun a x => ?_) d
  split
  · exact ⟨a.ldg.ring, rfl⟩
  · exact ⟨_, rfl⟩

@[simp] theorem noteSlots_mem (d a1) : (noteSlots d a1).mem = a1.mem := by
  obtain ⟨r, h⟩ := noteSlots_ring d a1; rw [h]; rfl

@[simp] theorem countPort_mem (d a1 a2) : (countPort d a1 a2).mem = d.mem := by
  rfl

@[simp] theorem setConn_mem (d a1 a2) : (setConn d a1 a2).mem = d.mem := by
  rfl

@[simp] theorem modConn_mem (d a1 a2) : (modConn d a1 a2).mem = d.mem := by
  unfold modConn; (try dsimp only); split <;> rfl

@[simp] theorem queueFrame_mem (d a1 a2 a3) : (queueFrame d a1 a2 a3).mem = d.mem := by
  simp [queueFrame]

@[simp] theorem setOp_mem (d a1) : (setOp d a1).mem = d.mem := by
  rfl

@[simp] theorem dropOp_mem (d a1 a2) : (dropOp d a1 a2).mem = d.mem := by
  simp [dropOp]

@[simp] theorem ringEntry_mem (d a1 a2 a3 a4 a5) : (ringEntry d a1 a2 a3 a4 a5).mem = d.mem := by
  unfold ringEntry; (try dsimp only); (repeat' split) <;> first | (simp; done) | rfl

@[simp] theorem recordEvent_mem (d a1) : (recordEvent d a1).mem = d.mem := by
  unfold recordEvent; (try dsimp only); split <;> rfl

@[simp] theorem foldCopy_mem (a1 a2 a3 d a4) : (foldCopy a1 a2 a3 d a4).mem = d.mem := by
  unfold foldCopy; (try dsimp only); (repeat' split) <;> first | (simp; done) | rfl

@[simp] theorem operatorCopy_mem (a1 a2 a3 d) : (operatorCopy a1 a2 a3 d).mem = d.mem := by
  unfold operatorCopy; (try dsimp only); (repeat' split) <;> first | (simp; done) | rfl

@[simp] theorem raise_mem (d a1 a2 a3 a4) : (raise d a1 a2 a3 a4).mem = d.mem := by
  unfold raise; (try dsimp only); (repeat' first | (simp; done) | (refine (foldl_mem _ _ (fun _ _ => ?_) _).trans ?_) | split)

@[simp] theorem raiseOp_mem (d a1 a2 a3) : (raiseOp d a1 a2 a3).mem = d.mem := by
  simp [raiseOp]

@[simp] theorem raiseFolds_mem (d a1 a2 a3 a4) : (raiseFolds d a1 a2 a3 a4).mem = d.mem := by
  unfold raiseFolds; (try dsimp only); (repeat' first | (simp; done) | (refine (foldl_mem _ _ (fun _ _ => ?_) _).trans ?_) | split)

/-! ## Machine/Wire.lean -/

@[simp] theorem emitTo_mem (d a1 a2 a3) : (emitTo d a1 a2 a3).mem = d.mem := rfl

/-! ## Machine/Walk.lean -/

@[simp] theorem installTrans_mem (d a1 a2) : (installTrans d a1 a2).mem = d.mem := by
  rfl

@[simp] theorem dropFoldCache_mem (d a1) : (dropFoldCache d a1).mem = d.mem := by
  rfl

@[simp] theorem walkEvents_mem (d a1 a2 a3 a4 a5 a6) : (walkEvents d a1 a2 a3 a4 a5 a6).mem = d.mem := by
  unfold walkEvents; (try dsimp only); (repeat' first | (simp; done) | (refine (foldl_mem _ _ (fun _ _ => ?_) _).trans ?_) | split)

@[simp] theorem translate_mem (d a1 a2 a3 a4 a5 a6) : (translate d a1 a2 a3 a4 a5 a6).1.mem = d.mem := by
  unfold translate; (try dsimp only); (repeat' split) <;> first | (simp; done) | rfl

@[simp] theorem violation_mem (d a1 a2 a3 a4 a5 a6 a7) : (violation d a1 a2 a3 a4 a5 a6 a7).mem = d.mem := by
  simp [violation]

@[simp] theorem authorize_mem (d a1 a2 a3 a4 a5 a6 a7 a8) : (authorize d a1 a2 a3 a4 a5 a6 a7 a8).1.mem = d.mem := by
  unfold authorize; (try dsimp only); (repeat' split) <;> first | (simp; done) | rfl

/-! ## Machine/Slices.lean -/

@[simp] theorem modSlice_mem (d a1 a2) : (modSlice d a1 a2).mem = d.mem := by
  rfl

@[simp] theorem modPen_mem (d a1 a2) : (modPen d a1 a2).mem = d.mem := by
  rfl

@[simp] theorem toFrame_mem (d a1 a2) : (toFrame d a1 a2).mem = d.mem := by
  rfl

theorem evictLine_mem (d s u e) {r : Dev} (hr : evictLine d s u e = some r) : r.mem = d.mem := by
  unfold evictLine at hr
  dsimp only at hr
  split at hr
  · split at hr <;> cases hr <;> simp
  · obtain ⟨_, _, rfl⟩ := Option.map_eq_some_iff.1 hr
    simp

theorem makeRoom_mem (d a1 a2 a3) {r : Dev} (hr : makeRoom d a1 a2 a3 = some r) : r.mem = d.mem := by
  unfold makeRoom at hr
  split at hr
  · cases hr; rfl
  · split at hr
    · split at hr
      · exact evictLine_mem _ _ _ _ hr
      · cases hr
    · cases hr

@[simp] theorem landRecall_mem (d a1 a2) : (landRecall d a1 a2).mem = d.mem := by
  unfold landRecall; split <;> rfl

@[simp] theorem useLine_mem (a1 d a2) : (useLine a1 d a2).mem = d.mem := by
  unfold useLine; (try dsimp only); (repeat' first | rfl | exact makeRoom_mem _ _ _ _ (by assumption) | (rename_i hq; simp [makeRoom_mem _ _ _ _ hq]; done) | (simp; done) | (simp_all; done) | (refine (foldl_mem _ _ (fun _ _ => ?_) _).trans ?_) | intro _ | split)

@[simp] theorem followLine_mem (d a1) : (followLine d a1).mem = d.mem := by
  rfl

/-! ## Machine/Stream.lean -/

@[simp] theorem keepLoc_mem (d a1) : (keepLoc d a1).mem = d.mem := by
  unfold keepLoc; (try dsimp only); split <;> rfl

@[simp] theorem ownLeaf_mem (d a1) : (ownLeaf d a1).mem = d.mem := by
  unfold ownLeaf; (try dsimp only); split <;> simp

@[simp] theorem markDirty_mem (d) : (markDirty d).mem = d.mem := by
  unfold markDirty; (try dsimp only); split <;> rfl

@[simp] theorem refuseAtLimit_mem (d) : (refuseAtLimit d).mem = d.mem := by
  unfold refuseAtLimit; (try dsimp only); split <;> simp

@[simp] theorem takeStamp_mem (d) : (takeStamp d).2.mem = d.mem := by
  unfold takeStamp; (try dsimp only); split <;> simp

@[simp] theorem pumpFrames_mem (n d) : (pumpFrames n d).mem = d.mem := by
  induction n generalizing d with
  | zero => rfl
  | succ n ih =>
    simp only [pumpFrames]
    split
    · rfl
    · simp [ih]

@[simp] theorem pumpLink_mem (d) : (pumpLink d).mem = d.mem := by
  simp [pumpLink]

@[simp] theorem sendRecs_mem (d a1) : (sendRecs d a1).mem = d.mem := by
  simp [sendRecs]

@[simp] theorem forward_mem (d a1 a2) : (forward d a1 a2).mem = d.mem := by
  unfold forward; (try dsimp only); split <;> simp

@[simp] theorem tell_mem (d a1) : (tell d a1).mem = d.mem := by
  unfold tell; (try dsimp only); split <;> simp

@[simp] theorem poisonLines_mem (d a1 a2) : (poisonLines d a1 a2).mem = d.mem := by
  unfold poisonLines; (try dsimp only); (repeat' first | (simp; done) | (refine (foldl_mem _ _ (fun _ _ => ?_) _).trans ?_) | split)

@[simp] theorem noteLeaves_mem (d a1 a2) : (noteLeaves d a1 a2).mem = d.mem := by
  rfl

@[simp] theorem noteLines_mem (d a1 a2) : (noteLines d a1 a2).mem = d.mem := by
  unfold noteLines; (try dsimp only); (repeat' first | (simp; done) | (refine (foldl_mem _ _ (fun _ _ => ?_) _).trans ?_) | split)

@[simp] theorem ownLeaves_mem (d a1 a2) : (ownLeaves d a1 a2).mem = d.mem := by
  unfold ownLeaves; (try dsimp only); (repeat' first | (simp; done) | (refine (foldl_mem _ _ (fun _ _ => ?_) _).trans ?_) | split)

/-- A stamped change of the memory by a function that keeps the canonical form keeps it. -/
theorem changeLines_wf (d st ls f) (hf : ∀ m, memWf m = true → memWf (f m) = true) (h : memWf d.mem = true) :
    memWf (changeLines d st ls f).mem = true := by
  simp only [changeLines, noteLines_mem]
  refine hf _ ?_
  rw [ownLeaves_mem]
  exact h

@[simp] theorem clearPoison_mem (d a1) : (clearPoison d a1).mem = d.mem := by
  unfold clearPoison; (try dsimp only); (repeat' first | (simp; done) | (refine (foldl_mem _ _ (fun _ _ => ?_) _).trans ?_) | split)

@[simp] theorem noteSetup_mem (d a1 a2) : (noteSetup d a1 a2).mem = d.mem := by
  unfold noteSetup; (try dsimp only); split <;> simp

@[simp] theorem stampCtrl_mem (d a1) : (stampCtrl d a1).2.mem = d.mem := by
  simp [stampCtrl]

@[simp] theorem streamCtrl_mem (d a1) : (streamCtrl d a1).mem = d.mem := by
  unfold streamCtrl; (try dsimp only); (repeat' split) <;> first | (simp; done) | rfl

/-! ## Machine/Endings.lean -/

@[simp] theorem noteStore_mem (d a1 a2 a3) : (noteStore d a1 a2 a3).mem = d.mem := by
  unfold noteStore; (try dsimp only); split <;> rfl

@[simp] theorem noteContext_mem (d a1) : (noteContext d a1).mem = d.mem := by
  rfl

@[simp] theorem tellEnd_mem (d a1 a2 a3) : (tellEnd d a1 a2 a3).mem = d.mem := by
  unfold tellEnd; (try dsimp only); split <;> simp

@[simp] theorem flushEnds_mem (d a1) : (flushEnds d a1).mem = d.mem := by
  unfold flushEnds; (try dsimp only); (repeat' first | (simp; done) | (refine (foldl_mem _ _ (fun _ _ => ?_) _).trans ?_) | split)

@[simp] theorem endCore_mem (d a1 a2 a3) : (endCore d a1 a2 a3).mem = d.mem := by
  unfold endCore; (try dsimp only); (repeat' split) <;> first | (simp; done) | rfl

@[simp] theorem wakeLoop_mem (n d l) : (wakeLoop n d l).mem = d.mem := by
  induction n generalizing d l with
  | zero => rfl
  | succ n ih =>
    cases l with
    | nil => rfl
    | cons t ts => simp only [wakeLoop]; (repeat' split) <;> simp [ih]

@[simp] theorem wakeWaits_mem (d a1) : (wakeWaits d a1).mem = d.mem := by
  simp [wakeWaits]

@[simp] theorem endOp_mem (d a1 a2 a3) : (endOp d a1 a2 a3).mem = d.mem := by
  simp [endOp]

@[simp] theorem forgetOp_mem (d a1) : (forgetOp d a1).mem = d.mem := by
  simp [forgetOp]

@[simp] theorem endFailedGroup_mem (d a1 a2) : (endFailedGroup d a1 a2).mem = d.mem := by
  unfold endFailedGroup; (try dsimp only); (repeat' first | (simp; done) | (refine (foldl_mem _ _ (fun _ _ => ?_) _).trans ?_) | split)

@[simp] theorem breachGroup_mem (d a1 a2 a3) : (breachGroup d a1 a2 a3).mem = d.mem := by
  unfold breachGroup; (try dsimp only); (repeat' first | (simp; done) | (refine (foldl_mem _ _ (fun _ _ => ?_) _).trans ?_) | split)

@[simp] theorem failWith_mem (d a1 a2) : (failWith d a1 a2).mem = d.mem := by
  unfold failWith; (try dsimp only); split <;> simp

@[simp] theorem failOp_mem (d a1 a2 a3) : (failOp d a1 a2 a3).mem = d.mem := by
  simp [failOp]

/-! ## Machine/Alloc.lean -/

theorem placeRegion_mem (d st n) {r : Nat × Dev} (hr : placeRegion d st n = some r) : r.2.mem = d.mem := by
  unfold placeRegion at hr
  split at hr <;> cases hr
  rfl

theorem placeRta_mem (d n) {r : Nat × Dev} (hr : placeRta d n = some r) : r.2.mem = d.mem := by
  unfold placeRta at hr
  split at hr <;> cases hr
  rfl

/-! ## Machine/Pipe.lean -/

@[simp] theorem joinGroup_mem (d a1) : (joinGroup d a1).1.mem = d.mem := by
  unfold joinGroup; (try dsimp only); (repeat' split) <;> first | (simp; done) | rfl

@[simp] theorem translateOp_mem (d a1 a2 a3) : (translateOp d a1 a2 a3).1.mem = d.mem := by
  unfold translateOp; (try dsimp only); (repeat' split) <;> first | (simp; done) | rfl

@[simp] theorem startOp_mem (a1 a2 d) : (startOp a1 a2 d).mem = d.mem := by
  unfold startOp; (try dsimp only); (repeat' split) <;> first | (simp; done) | rfl

@[simp] theorem groupTimeout_mem (a1 a2 d) : (groupTimeout a1 a2 d).mem = d.mem := by
  unfold groupTimeout; (try dsimp only); (repeat' split) <;> first | (simp; done) | rfl

@[simp] theorem queuePulls_mem (d a1 a2 a3) : (queuePulls d a1 a2 a3).mem = d.mem := by
  simp [queuePulls]

@[simp] theorem afterOrder_mem (d a1) : (afterOrder d a1).mem = d.mem := by
  unfold afterOrder; (try dsimp only); (repeat' split) <;> first | (simp; done) | rfl

@[simp] theorem releaseOrder_mem (a1 a2 a3 d) : (releaseOrder a1 a2 a3 d).mem = d.mem := by
  unfold releaseOrder; (try dsimp only); (repeat' split) <;> first | (simp; done) | rfl

@[simp] theorem pullDone_mem (a1 a2 a3 d) : (pullDone a1 a2 a3 d).mem = d.mem := by
  unfold pullDone; (try dsimp only); (repeat' split) <;> first | (simp; done) | rfl

theorem admitOp_mem (d o) {r : Dev} (hr : admitOp d o = some r) : r.mem = d.mem := by
  unfold admitOp at hr
  dsimp only at hr
  split at hr
  · cases hr; exact foldl_mem _ _ (fun _ _ => by simp) _
  · cases hr

theorem admitTurn_mem (d) {r : Dev} (hr : admitTurn d = some r) : r.mem = d.mem := by
  obtain ⟨i, _, h⟩ := List.exists_of_findSome?_eq_some hr
  dsimp only at h
  split at h
  · obtain ⟨a, ha, rfl⟩ := Option.map_eq_some_iff.1 h
    simpa using admitOp_mem _ _ ha
  · cases h

@[simp] theorem admitLoop_mem (n d) : (admitLoop n d).mem = d.mem := by
  induction n generalizing d with
  | zero => rfl
  | succ n ih =>
    simp only [admitLoop]
    split
    · rename_i h; rw [ih]; exact admitTurn_mem _ h
    · rfl

@[simp] theorem admitAll_mem (d) : (admitAll d).mem = d.mem := by
  simp [admitAll]

@[simp] theorem admitExpiry_mem (a1 a2 d) : (admitExpiry a1 a2 d).mem = d.mem := by
  unfold admitExpiry; (try dsimp only); (repeat' split) <;> first | (simp; done) | rfl

@[simp] theorem enterBudget_mem (d a1) : (enterBudget d a1).mem = d.mem := by
  unfold enterBudget; (try dsimp only); (repeat' split) <;> first | (simp; done) | rfl

@[simp] theorem fillLines_mem (d a1 a2) : (fillLines d a1 a2).mem = d.mem := by
  unfold fillLines; (try dsimp only); (repeat' first | (simp; done) | (refine (foldl_mem _ _ (fun _ _ => ?_) _).trans ?_) | split)

@[simp] theorem fillDone_mem (a1 a2 a3 d) : (fillDone a1 a2 a3 d).mem = d.mem := by
  unfold fillDone; (try dsimp only); (repeat' split) <;> first | (simp; done) | rfl

/-! ## Machine/Execute.lean -/

@[simp] theorem poisonedExec_mem (d a1 a2) : (poisonedExec d a1 a2).dev.mem = d.mem := by
  rfl

theorem runSpan_wf (d x a st now f) (hf : ∀ m, memWf m = true → memWf (f m) = true) (h : memWf d.mem = true) :
    memWf (runSpan d x a st now f).dev.mem = true := by
  unfold runSpan
  dsimp only
  split
  · exact h
  · have h1 := changeLines_wf d st (spanLines a x.length.toNat) (fun m => if now then f m else m)
      (fun m hm => by split; exacts [hf m hm, hm]) h
    cases now
    · exact h1
    · exact (congrArg memWf (clearPoison_mem _ _)).trans h1

@[simp] theorem movePoison_mem (d a1 a2 a3 a4 a5 a6) : (movePoison d a1 a2 a3 a4 a5 a6).mem = d.mem := by
  unfold movePoison; (try dsimp only); (repeat' first | (simp; done) | (refine (foldl_mem _ _ (fun _ _ => ?_) _).trans ?_) | split)

theorem memWf_placeCells {m : Mem} (src dst lo hi : Nat) (cells : List Host.Cell) (h : memWf m = true) :
    memWf (placeCells m src dst lo hi cells) = true :=
  memWf_foldl _ (fun _ _ h => memWf_writeByte _ _ h) _ (memWf_zeroBytes _ _ h)

theorem runCopy_wf (d x a b st now) (h : memWf d.mem = true) : memWf (runCopy d x a b st now).dev.mem = true := by
  unfold runCopy
  dsimp only
  split
  · exact h
  · have h1 := changeLines_wf d st (spanLines b x.length.toNat)
      (fun m => if now then placeCells m a b 0 x.length.toNat (cellsOf d.mem a x.length.toNat) else m)
      (fun m hm => by split; exacts [memWf_placeCells _ _ _ _ _ hm, hm]) h
    cases now
    · exact h1
    · exact (congrArg memWf (movePoison_mem _ _ _ _ _ _ _)).trans h1

theorem runAtomic_wf (d x a st) (h : memWf d.mem = true) : memWf (runAtomic d x a st).dev.mem = true := by
  have put (v : Nat) : memWf (changeLines d st (spanLines a x.length.toNat) (fun m => writeLE m a x.length.toNat v)).mem = true :=
    changeLines_wf _ _ _ _ (fun _ hm => memWf_writeLE _ _ _ hm) h
  unfold runAtomic
  dsimp only
  (repeat' split) <;> first | exact h | exact put _

theorem memWf_logWrite (base cap : Nat) (p : Nat) (bs : List Byte) {m : Mem} (h : memWf m = true) :
    memWf (logWrite base cap p bs m) = true := by
  induction bs generalizing m p with
  | nil => exact h
  | cons b t ih => exact ih _ (memWf_writeByte _ _ h)

theorem runAppend_wf (d x t data st) (h : memWf d.mem = true) : memWf (runAppend d x t data st).dev.mem = true := by
  simp only [runAppend, noteLeaves_mem, Dev.modFolds_mem, clearPoison_mem]
  exact changeLines_wf _ _ _ _ (fun _ hm => memWf_writeBytes _ _ (memWf_logWrite _ _ _ _ hm)) h

@[simp] theorem enterFamily_mem (d a1 a2 a3) : (enterFamily d a1 a2 a3).mem = d.mem := by
  rfl

@[simp] theorem copyResolved_mem (a1 a2 d) : (copyResolved a1 a2 d).mem = d.mem := by
  unfold copyResolved
  dsimp only; split <;> rfl

@[simp] theorem joinFamily_mem (d a1 a2 a3) : (joinFamily d a1 a2 a3).mem = d.mem := by
  simp [joinFamily]

theorem memWf_setCow {m : Mem} (pa : Nat) (h : memWf m = true) : memWf (setCow m pa) = true := memWf_writeBytes _ _ h

theorem runSnap_wf (d fold x t st) (h : memWf d.mem = true) : memWf (runSnap d fold x t st).dev.mem = true := by
  unfold runSnap
  dsimp only
  split
  · rename_i h1 _ _
    split
    · rename_i h2
      simp only [noteLeaves_mem, Dev.modDur_mem, joinFamily_mem]
      refine changeLines_wf _ _ _ _ (fun m hm => ?_) ?_
      · exact memWf_copyBytes _ _ _ (memWf_writeBytes _ _ (memWf_foldl _ (fun _ _ h => memWf_setCow _ h) _
          (memWf_writeBytes _ _ hm)))
      · rw [placeRegion_mem _ _ _ h2, placeRta_mem _ _ h1]; exact h
    · exact h
  · exact h

theorem runDesc_wf (d fold x t1 t2 data st now) (h : memWf d.mem = true) :
    memWf (runDesc d fold x t1 t2 data st now).dev.mem = true := by
  unfold runDesc
  split
  · exact runSpan_wf _ _ _ _ _ _ (fun _ hm => memWf_writeBytes _ _ hm) h
  · exact runSpan_wf _ _ _ _ _ _ (fun _ hm => memWf_zeroBytes _ _ hm) h
  · exact runCopy_wf _ _ _ _ _ _ h
  · exact runAtomic_wf _ _ _ _ h
  · exact runAtomic_wf _ _ _ _ h
  · exact runAtomic_wf _ _ _ _ h
  · exact runAppend_wf _ _ _ _ _ h
  · exact runSnap_wf _ _ _ _ _ h
  · exact runSnap_wf _ _ _ _ _ h
  · exact h

theorem runMembers_wf (fold st) (i d l acc) (h : memWf d.mem = true) {r : Dev × List Exec}
    (hr : runMembers fold st i d l acc = .ok r) : memWf r.1.mem = true := by
  induction l generalizing i d acc with
  | nil => cases hr; exact h
  | cons x t ih =>
    obtain ⟨x, t1, t2, data⟩ := x
    simp only [runMembers] at hr
    split at hr
    · exact ih _ _ _ (runDesc_wf _ _ _ _ _ _ _ _ h) hr
    · cases hr

/-! ## Machine/Complete.lean -/

@[simp] theorem noteChanged_mem (d a1 a2 a3) : (noteChanged d a1 a2 a3).mem = d.mem := by
  simp [noteChanged]

@[simp] theorem noteTouched_mem (d a1 a2 a3 a4) : (noteTouched d a1 a2 a3 a4).mem = d.mem := by
  unfold noteTouched; (try dsimp only); split <;> rfl

@[simp] theorem mergeFails_mem (d a1) : (mergeFails d a1).mem = d.mem := by
  simp [mergeFails]

@[simp] theorem tellPoison_mem (d a1 a2 a3) : (tellPoison d a1 a2 a3).mem = d.mem := by
  unfold tellPoison; (try dsimp only); split <;> simp

theorem stampOne_wf (d o fold bad) (h : memWf d.mem = true) : memWf (stampOne d o fold bad).mem = true := by
  have h1 : memWf (forward (takeStamp d).2 (takeStamp d).1
      (.op (takeStamp d).1 o.conn (genField o fold) (memberOf o))).mem = true := by simpa using h
  unfold stampOne
  dsimp only
  split
  · simpa using h
  · have h2 := runDesc_wf _ fold o.desc o.tr1 o.tr2 o.data (takeStamp d).1 false h1
    simp only [setOp_mem]
    split
    · simp only [Dev.modTwin_mem, noteTouched_mem, noteChanged_mem]; exact h2
    · simp only [noteTouched_mem, noteChanged_mem]; exact h2

theorem stampGroup_wf (d ms fold bad) (h : memWf d.mem = true) : memWf (stampGroup d ms fold bad).mem = true := by
  cases ms with
  | nil => exact h
  | cons o ms =>
    have h1 : memWf (forward (takeStamp d).2 (takeStamp d).1
        (.group (takeStamp d).1 o.conn (genField o fold) ((o :: ms).map memberOf))).mem = true := by simpa using h
    simp only [stampGroup]
    split
    · rw [foldl_mem _ _ (fun _ _ => by split <;> simp)]; simpa using h
    · split
      · rw [foldl_mem _ _ (fun _ _ => by split <;> simp)]; exact h1
      · rename_i h2
        rw [foldl_mem _ _ (fun _ _ => by split <;> simp)]
        exact runMembers_wf _ _ _ _ _ _ h1 h2

theorem orderStamp_wf (conn seq bad d) (h : memWf d.mem = true) : memWf (orderStamp conn seq bad d).mem = true := by
  unfold orderStamp
  split
  · dsimp only
    split
    · simpa using h
    · split
      · simpa using h
      · split
        · exact stampGroup_wf _ _ _ _ h
        · exact stampOne_wf _ _ _ _ h
  · exact h

@[simp] theorem copyLeaf_mem (a1 a2 a3 d) : (copyLeaf a1 a2 a3 d).mem = d.mem := by
  unfold copyLeaf; (try dsimp only); (repeat' split) <;> first | (simp; done) | rfl

theorem workChunk_wf (d o) (h : memWf d.mem = true) : memWf (workChunk d o).mem = true := by
  unfold workChunk
  simp only [setOp_mem]
  split
  · simp only [movePoison_mem]
    rw [foldl_mem _ _ (fun _ _ => by simp)]; exact memWf_placeCells _ _ _ _ _ h
  · simp only [clearPoison_mem]
    rw [foldl_mem _ _ (fun _ _ => by simp)]; exact memWf_zeroBytes _ _ h
  · exact h

theorem chunkTurn_wf (g d) (h : memWf d.mem = true) : memWf (chunkTurn g d).mem = true := by
  unfold chunkTurn
  split
  · simpa using h
  · dsimp only
    split
    · exact workChunk_wf _ _ h
    · exact h

theorem workAll_wf (k d conn seq) (h : memWf d.mem = true) : memWf (workAll k d conn seq).mem = true := by
  induction k generalizing d with
  | zero => exact h
  | succ k ih =>
    simp only [workAll]
    split
    · split
      · exact ih _ (workChunk_wf _ _ h)
      · exact h
    · exact h

@[simp] theorem pruneChanged_mem (d a1) : (pruneChanged d a1).mem = d.mem := by
  simp [pruneChanged]

@[simp] theorem complete_mem (conn seq d) : (complete conn seq d).mem = d.mem := by
  unfold complete
  split
  · dsimp only
    split
    · rfl
    · split
      · rw [pruneChanged_mem, foldl_mem _ _ (fun _ _ => by split <;> simp)]
        split
        · split <;> simp
        · rfl
      · rfl
  · rfl

@[simp] theorem pushRuns_mem (d a1 a2 a3 a4 a5) : (pushRuns d a1 a2 a3 a4 a5).mem = d.mem := by
  unfold pushRuns; (try dsimp only); (repeat' first | (simp; done) | (refine (foldl_mem _ _ (fun _ _ => ?_) _).trans ?_) | split)

@[simp] theorem pushRead_mem (d a1 a2 a3 a4 a5) : (pushRead d a1 a2 a3 a4 a5).mem = d.mem := by
  unfold pushRead; (try dsimp only); (repeat' split) <;> first | (simp; done) | rfl

@[simp] theorem checkFails_mem (d a1) : (checkFails d a1).mem = d.mem := by
  unfold checkFails; (try dsimp only); (repeat' split) <;> first | (simp; done) | rfl

@[simp] theorem runRead_mem (d a1 a2 a3) : (runRead d a1 a2 a3).mem = d.mem := by
  unfold runRead
  split
  · rfl
  · dsimp only
    split
    · rfl
    · rw [pushRead_mem]; exact foldl_mem _ _ (fun _ _ => by simp) _

@[simp] theorem startWait_mem (d a1 a2) : (startWait d a1 a2).mem = d.mem := by
  unfold startWait; (try dsimp only); (repeat' split) <;> first | (simp; done) | rfl

@[simp] theorem waitExpiry_mem (a1 a2 d) : (waitExpiry a1 a2 d).mem = d.mem := by
  unfold waitExpiry; (try dsimp only); (repeat' split) <;> first | (simp; done) | rfl

@[simp] theorem runPersist_mem (d a1 a2) : (runPersist d a1 a2).mem = d.mem := by
  unfold runPersist; (try dsimp only); split <;> simp

@[simp] theorem runReady_mem (a1 a2 a3 d) : (runReady a1 a2 a3 d).mem = d.mem := by
  unfold runReady; (try dsimp only); (repeat' split) <;> first | (simp; done) | rfl

theorem advance_wf (a1 a2 a3 a4 d) (hd : memWf d.mem = true) : memWf (advance a1 a2 a3 a4 d).mem = true := by
  unfold advance; (repeat' first | with_reducible assumption | with_reducible apply orderStamp_wf | with_reducible apply workAll_wf | with_reducible apply foldl_wf | simp only [startOp_mem, releaseOrder_mem, fillDone_mem, pullDone_mem, admitAll_mem, complete_mem, runReady_mem] | split | intro _ | exact memWf_nil)

theorem advanceAs_wf (a1 a2 a3 a4 a5 d) (hd : memWf d.mem = true) : memWf (advanceAs a1 a2 a3 a4 a5 d).mem = true := by
  unfold advanceAs; (repeat' first | with_reducible assumption | with_reducible apply advance_wf | with_reducible apply foldl_wf | split | intro _ | exact memWf_nil)

@[simp] theorem flushSetups_mem (d) : (flushSetups d).mem = d.mem := by
  unfold flushSetups; (try dsimp only); (repeat' first | (simp; done) | (refine (foldl_mem _ _ (fun _ _ => ?_) _).trans ?_) | split)

@[simp] theorem completeAll_mem (d) : (completeAll d).mem = d.mem := by
  unfold completeAll; (try dsimp only); (repeat' first | (simp; done) | (refine (foldl_mem _ _ (fun _ _ => ?_) _).trans ?_) | split)

end Sys2Proof.Machine
end

