-- ==== Sys2Proof/Laws/MemNet.lean ====
section
/-! SUPPORT. What the memory is after frames, connections, transport and register access: a `_mem` lemma says that an operation leaves
every byte as it was, a `_wf` lemma that it keeps the canonical form. -/
namespace Sys2Proof.Machine

/-! ## Machine/Frames.lean -/

@[simp] theorem emitFrame_mem (d a1 a2 a3 a4 a5 a6) : (emitFrame d a1 a2 a3 a4 a5 a6).mem = d.mem := by
  simp [emitFrame]

@[simp] theorem sendSeq_mem (d a1 a2 a3) : (sendSeq d a1 a2 a3).mem = d.mem := by
  unfold sendSeq; (try dsimp only); (repeat' split) <;> first | (simp; done) | rfl

@[simp] theorem sendPlain_mem (d a1 a2 a3) : (sendPlain d a1 a2 a3).mem = d.mem := by
  unfold sendPlain; (try dsimp only); (repeat' split) <;> first | (simp; done) | rfl

@[simp] theorem resend_mem (d a1 a2 a3) : (resend d a1 a2 a3).mem = d.mem := by
  unfold resend; (try dsimp only); (repeat' split) <;> first | (simp; done) | rfl

@[simp] theorem sendAck_mem (d a1 a2) : (sendAck d a1 a2).mem = d.mem := by
  unfold sendAck; (try dsimp only); (repeat' split) <;> first | (simp; done) | rfl

@[simp] theorem movePath_mem (d a1 a2 a3) : (movePath d a1 a2 a3).mem = d.mem := by
  simp [movePath]

@[simp] theorem markDown_mem (d a1 a2) : (markDown d a1 a2).mem = d.mem := by
  unfold markDown; (try dsimp only); (repeat' split) <;> first | (simp; done) | rfl

@[simp] theorem takeOver_mem (d a1 a2) : (takeOver d a1 a2).mem = d.mem := by
  unfold takeOver; (try dsimp only); (repeat' split) <;> first | (simp; done) | rfl

@[simp] theorem pathDown_mem (d a1 a2) : (pathDown d a1 a2).mem = d.mem := by
  unfold pathDown; (try dsimp only); (repeat' split) <;> first | (simp; done) | rfl

@[simp] theorem pathUp_mem (d a1 a2) : (pathUp d a1 a2).mem = d.mem := by
  unfold pathUp; (try dsimp only); (repeat' first | (simp; done) | (refine (foldl_mem _ _ (fun _ _ => ?_) _).trans ?_) | split)

/-! ## Machine/ConnState.lean -/

@[simp] theorem endWaitsOn_mem (d a1) : (endWaitsOn d a1).mem = d.mem := by
  unfold endWaitsOn; (try dsimp only); (repeat' first | (simp; done) | (refine (foldl_mem _ _ (fun _ _ => ?_) _).trans ?_) | split)

@[simp] theorem abortOp_mem (a1 d a2) : (abortOp a1 d a2).mem = d.mem := by
  unfold abortOp; (try dsimp only); (repeat' split) <;> first | (simp; done) | rfl

@[simp] theorem quiesceWork_mem (d a1 a2 a3) : (quiesceWork d a1 a2 a3).mem = d.mem := by
  unfold quiesceWork; (try dsimp only); (repeat' first | (simp; done) | (refine (foldl_mem _ _ (fun _ _ => ?_) _).trans ?_) | split)

@[simp] theorem errorWork_mem (d a1) : (errorWork d a1).mem = d.mem := by
  unfold errorWork; (try dsimp only); (repeat' first | (simp; done) | (refine (foldl_mem _ _ (fun _ _ => ?_) _).trans ?_) | split)

@[simp] theorem leaveActive_mem (d a1) : (leaveActive d a1).mem = d.mem := by
  rfl

@[simp] theorem applyChange_mem (d a1 a2) : (applyChange d a1 a2).mem = d.mem := by
  unfold applyChange; (try dsimp only); (repeat' split) <;> first | (simp; done) | rfl

@[simp] theorem changeConn_mem (d a1 a2) : (changeConn d a1 a2).mem = d.mem := by
  simp [changeConn]

@[simp] theorem sendDisconnect_mem (d a1 a2 a3) : (sendDisconnect d a1 a2 a3).mem = d.mem := by
  unfold sendDisconnect; (try dsimp only); split <;> simp

@[simp] theorem freeAfterReset_mem (d a1) : (freeAfterReset d a1).mem = d.mem := by
  unfold freeAfterReset; (try dsimp only); (repeat' split) <;> first | (simp; done) | rfl

@[simp] theorem toError_mem (d a1 a2) : (toError d a1 a2).mem = d.mem := by
  unfold toError; (try dsimp only); (repeat' split) <;> first | (simp; done) | rfl

@[simp] theorem quiesceDone_mem (a1 d) : (quiesceDone a1 d).mem = d.mem := by
  unfold quiesceDone; (try dsimp only); (repeat' split) <;> first | (simp; done) | rfl

@[simp] theorem freeIfDone_mem (d a1) : (freeIfDone d a1).mem = d.mem := by
  unfold freeIfDone; (try dsimp only); (repeat' split) <;> first | (simp; done) | rfl

@[simp] theorem beginQuiesce_mem (d a1 a2 a3 a4) : (beginQuiesce d a1 a2 a3 a4).mem = d.mem := by
  unfold beginQuiesce; (try dsimp only); (repeat' split) <;> first | (simp; done) | rfl

/-! ## Machine/Network.lean -/

@[simp] theorem malformed_mem (d a1) : (malformed d a1).mem = d.mem := by
  rfl

@[simp] theorem tagFailed_mem (d a1) : (tagFailed d a1).mem = d.mem := by
  unfold tagFailed; (try dsimp only); (repeat' split) <;> first | (simp; done) | rfl

@[simp] theorem answerUnknown_mem (d a1 a2) : (answerUnknown d a1 a2).mem = d.mem := by
  unfold answerUnknown; (try dsimp only); (repeat' split) <;> first | (simp; done) | rfl

@[simp] theorem strayFrame_mem (d a1 a2) : (strayFrame d a1 a2).mem = d.mem := by
  simp [strayFrame]

theorem headCheck_mem (h ty d) {e : Dev} (hr : headCheck h ty d = some e) : e.mem = d.mem := by
  unfold headCheck at hr
  (repeat' split at hr) <;> first | (cases hr; done) | (cases hr; simp; done) | (cases hr; split <;> simp)

@[simp] theorem parkFrame_mem (d a1 a2) : (parkFrame d a1 a2).mem = d.mem := by
  unfold parkFrame; (try dsimp only); split <;> rfl

@[simp] theorem touchCtx_mem (d a1) : (touchCtx d a1).mem = d.mem := by
  unfold touchCtx; (try dsimp only); split <;> rfl

@[simp] theorem cacheCtx_mem (d a1) : (cacheCtx d a1).mem = d.mem := by
  rfl

@[simp] theorem countShut_mem (d a1) : (countShut d a1).mem = d.mem := by
  rfl

theorem classify_mem (h b d) {e : Dev} (hr : classify h b d = .error e) : e.mem = d.mem := by
  unfold classify at hr
  split at hr
  · rename_i he; cases hr; exact headCheck_mem _ _ _ he
  · (repeat' split at hr) <;> first | (cases hr; done) | (cases hr; simp; done) | (cases hr; split <;> simp)

@[simp] theorem dropFrame_mem (a1 d) : (dropFrame a1 d).mem = d.mem := by
  unfold dropFrame; (try dsimp only); (repeat' split) <;> first | (simp; done) | rfl

@[simp] theorem refillUcr_mem (a1 d) : (refillUcr a1 d).mem = d.mem := by
  unfold refillUcr; (try dsimp only); split <;> rfl

@[simp] theorem linkDown_mem (a1 d) : (linkDown a1 d).mem = d.mem := by
  unfold linkDown; (try dsimp only); (repeat' first | (simp; done) | (refine (foldl_mem _ _ (fun _ _ => ?_) _).trans ?_) | split)

@[simp] theorem linkUp_mem (a1 d) : (linkUp a1 d).mem = d.mem := by
  unfold linkUp; (try dsimp only); (repeat' split) <;> first | (simp; done) | rfl

@[simp] theorem resolve_mem (a1 a2 a3 d) : (resolve a1 a2 a3 d).mem = d.mem := by
  rfl

@[simp] theorem ptpSynced_mem (d a1) : (ptpSynced d a1).mem = d.mem := by
  rfl

@[simp] theorem ptpMessage_mem (a1 a2 d) : (ptpMessage a1 a2 d).mem = d.mem := by
  unfold ptpMessage; (try dsimp only); (repeat' split) <;> first | (simp; done) | rfl

/-! ## Machine/Transport.lean -/

@[simp] theorem receive_mem (a1 a2 d) : (receive a1 a2 d).1.mem = d.mem := by
  unfold receive; (try dsimp only); (repeat' split) <;> first | (simp; done) | rfl

@[simp] theorem arrive_mem (h c d g) (hg : ∀ d, (g d).mem = d.mem) : (arrive h c d g).mem = d.mem := by
  unfold arrive
  dsimp only
  split <;> simp [hg]

theorem arrive_wf (h c d g) (hg : ∀ d, memWf d.mem = true → memWf (g d).mem = true) (hd : memWf d.mem = true) :
    memWf (arrive h c d g).mem = true := by
  unfold arrive
  dsimp only
  split
  · exact hg _ (by simpa using hd)
  · simpa using hd

@[simp] theorem periodEnd_mem (a1 a2 a3 d) : (periodEnd a1 a2 a3 d).mem = d.mem := by
  simp [periodEnd]

@[simp] theorem fastResend_mem (d a1 a2 a3 a4) : (fastResend d a1 a2 a3 a4).mem = d.mem := by
  unfold fastResend; (try dsimp only); (repeat' first | (simp; done) | (refine (foldl_mem _ _ (fun _ _ => ?_) _).trans ?_) | split)

@[simp] theorem guardTxc_mem (d a1) : (guardTxc d a1).mem = d.mem := by
  unfold guardTxc; (try dsimp only); (repeat' split) <;> first | (simp; done) | rfl

@[simp] theorem takeAckFrame_mem (h c e echo sack ce rx d) : (takeAckFrame h c e echo sack ce rx d).mem = d.mem := by
  unfold takeAckFrame
  simp only [completeAll_mem, freeIfDone_mem, flushEnds_mem, fastResend_mem]
  split
  · split
    · rw [pathUp_mem, modConn_mem]
    · rw [modConn_mem]
  · exact modConn_mem _ _ _

@[simp] theorem rtoExpired_mem (a1 a2 d) : (rtoExpired a1 a2 d).mem = d.mem := by
  unfold rtoExpired; (try dsimp only); (repeat' split) <;> first | (simp; done) | rfl

@[simp] theorem probeDown_mem (a1 a2 d) : (probeDown a1 a2 d).mem = d.mem := by
  unfold probeDown; (try dsimp only); (repeat' split) <;> first | (simp; done) | rfl

@[simp] theorem connDead_mem (a1 d) : (connDead a1 d).mem = d.mem := by
  unfold connDead; (try dsimp only); (repeat' split) <;> first | (simp; done) | rfl

@[simp] theorem pullTimeout_mem (a1 a2 d) : (pullTimeout a1 a2 d).mem = d.mem := by
  unfold pullTimeout; (try dsimp only); (repeat' split) <;> first | (simp; done) | rfl

@[simp] theorem sendReadReq_mem (a1 a2 a3 a4 d) : (sendReadReq a1 a2 a3 a4 d).mem = d.mem := by
  unfold sendReadReq; (try dsimp only); (repeat' split) <;> first | (simp; done) | rfl

@[simp] theorem sendQueued_mem (a1 a2 d) : (sendQueued a1 a2 d).mem = d.mem := by
  unfold sendQueued; (try dsimp only); (repeat' split) <;> first | (simp; done) | rfl

@[simp] theorem fetched_mem (a1 d a2) : (fetched a1 d a2).mem = d.mem := by
  unfold fetched; (try dsimp only); (repeat' split) <;> first | (simp; done) | rfl

@[simp] theorem batchDone_mem (d a1) : (batchDone d a1).mem = d.mem := by
  unfold batchDone; (try dsimp only); (repeat' first | (simp; done) | (refine (foldl_mem _ _ (fun _ _ => ?_) _).trans ?_) | split)

@[simp] theorem pullComplete_mem (a1 a2 d) : (pullComplete a1 a2 d).mem = d.mem := by
  unfold pullComplete; (try dsimp only); (repeat' split) <;> first | (simp; done) | rfl

@[simp] theorem takeRsp_mem (a1 a2 a3 a4 a5 d) : (takeRsp a1 a2 a3 a4 a5 d).mem = d.mem := by
  unfold takeRsp; (try dsimp only); (repeat' split) <;> first | (simp; done) | rfl

@[simp] theorem takeProbe_mem (a1 d) : (takeProbe a1 d).mem = d.mem := by
  simp [takeProbe]

@[simp] theorem takePathReset_mem (a1 a2 a3 a4 d) : (takePathReset a1 a2 a3 a4 d).mem = d.mem := by
  unfold takePathReset; (try dsimp only); split <;> simp

/-! ## Machine/Access.lean -/

@[simp] theorem answer_mem (d a1 a2 a3 a4 a5 a6) : (answer d a1 a2 a3 a4 a5 a6).mem = d.mem := by
  rfl

@[simp] theorem command_mem (p a f d) (hf : ∀ d, (f d).1.mem = d.mem) : (command p a f d).mem = d.mem := by
  unfold command
  split
  · rfl
  · split <;> simp [hf]

theorem command_wf (p a f d) (hf : ∀ d, memWf d.mem = true → memWf (f d).1.mem = true) (hd : memWf d.mem = true) :
    memWf (command p a f d).mem = true := by
  unfold command
  split
  · exact hd
  · split
    · simpa using hd
    · simpa using hf d hd

@[simp] theorem readAs_mem (p a f d) (hf : ∀ d, (f d).1.mem = d.mem) : (readAs p a f d).mem = d.mem := by
  unfold readAs
  split
  · rfl
  · split
    · simp
    · dsimp only; split <;> simp [hf]

theorem readAs_wf (p a f d) (hf : ∀ d, memWf d.mem = true → memWf (f d).1.mem = true) (hd : memWf d.mem = true) :
    memWf (readAs p a f d).mem = true := by
  unfold readAs
  split
  · exact hd
  · split
    · rw [answer_mem]; exact hd
    · dsimp only
      split
      · rw [answer_mem]; exact hf d hd
      · rw [answer_mem]; exact hf d hd

@[simp] theorem cfgChanged_mem (d) : (cfgChanged d).mem = d.mem := by
  rfl

@[simp] theorem putCred_mem (d a1 a2) : (putCred d a1 a2).mem = d.mem := by
  rfl

/-! ## Machine/Store.lean -/

@[simp] theorem wearSector_mem (d a1) : (wearSector d a1).mem = d.mem := by
  unfold wearSector; (try dsimp only); split <;> simp

@[simp] theorem countErase_mem (d a1) : (countErase d a1).mem = d.mem := by
  simp [countErase]

@[simp] theorem countErases_mem (d a1 a2) : (countErases d a1 a2).mem = d.mem := by
  unfold countErases; (try dsimp only); (repeat' first | (simp; done) | (refine (foldl_mem _ _ (fun _ _ => ?_) _).trans ?_) | split)

@[simp] theorem tidyRings_mem (d) : (tidyRings d).mem = d.mem := by
  unfold tidyRings; exact foldl_mem _ _ (fun d x => countErase_mem d x) _

@[simp] theorem compactStore_mem (d) : (compactStore d).mem = d.mem := by
  unfold compactStore; (try dsimp only); split <;> simp

@[simp] theorem wroteRecord_mem (d a1) : (wroteRecord d a1).mem = d.mem := by
  unfold wroteRecord; (try dsimp only); split <;> simp

@[simp] theorem storeTuning_mem (d) : (storeTuning d).mem = d.mem := by
  simp [storeTuning]

@[simp] theorem storeShared_mem (d) : (storeShared d).mem = d.mem := by
  simp [storeShared]

@[simp] theorem storeNetwork_mem (d) : (storeNetwork d).mem = d.mem := by
  simp [storeNetwork]

end Sys2Proof.Machine
end

