-- ==== Sys2Proof/Laws/MemTables.lean ====
section
/-! SUPPORT. What the memory is after region tables, control commands, the control area, the roles of a unit and flash: a `_mem` lemma says that an operation leaves
every byte as it was, a `_wf` lemma that it keeps the canonical form. -/
namespace Sys2Proof.Machine

/-! ## Machine/Tables.lean -/

@[simp] theorem stage_mem (d a1 a2 a3 a4) : (stage d a1 a2 a3 a4).mem = d.mem := by
  rfl

@[simp] theorem freeRta_mem (d a1) : (freeRta d a1).mem = d.mem := by
  rfl

@[simp] theorem handDown_mem (d a1) : (handDown d a1).mem = d.mem := by
  unfold handDown; (try dsimp only); split <;> simp

theorem freeRegion_wf (d r) (h : memWf d.mem = true) : memWf (freeRegion d r).mem = true := by
  simp only [freeRegion, Dev.modFolds_mem, Dev.modFtl_mem, Dev.modDur_mem]
  refine memWf_zeroBytes _ _ ?_
  rw [foldl_mem _ _ (fun _ _ => by simp)]
  exact h

/-- A plan whose device has a canonical memory and whose edit keeps one canonical. -/
def Plan.Ok (p : Plan) : Prop := memWf p.dev.mem = true ∧ ∀ m, memWf m = true → memWf (p.edit m) = true

theorem Plan.nothing_ok {d : Dev} (h : memWf d.mem = true) : (Plan.nothing d).Ok := ⟨h, fun _ hm => hm⟩

theorem Plan.put_ok {p : Plan} (h : p.Ok) (a bs) : (p.put a bs).Ok := ⟨h.1, fun m hm => memWf_writeBytes _ _ (h.2 m hm)⟩

theorem Plan.ok_dev {p : Plan} (h : p.Ok) {e : Dev} (he : memWf e.mem = true) (w) : Plan.Ok { p with dev := e, handle := w } := ⟨he, h.2⟩

theorem foldl_ok {α : Type} (g : Plan → α → Plan) (l : List α) (hg : ∀ p x, p.Ok → (g p x).Ok) (p : Plan) (h : p.Ok) :
    (l.foldl g p).Ok := by
  induction l generalizing p with
  | nil => exact h
  | cons x t ih => exact ih _ (hg p x h)

theorem foldl_some {α β : Type} (P : β → Prop) (g : Option β → α → Option β) (hn : ∀ x, g none x = none)
    (hg : ∀ b x c, P b → g (some b) x = some c → P c) (l : List α) (b c : β) (hb : P b) (h : l.foldl g (some b) = some c) :
    P c := by
  induction l generalizing b with
  | nil => cases h; exact hb
  | cons x t ih =>
    simp only [List.foldl_cons] at h
    cases e : g (some b) x with
    | none =>
      rw [e] at h
      have : t.foldl g none = none := by
        clear ih h
        induction t with
        | nil => rfl
        | cons y t ih => simpa [hn] using ih
      rw [this] at h; cases h
    | some b' => rw [e] at h; exact ih b' (hg _ _ _ hb e) h

theorem Plan.make_wf {p : Plan} (h : p.Ok) (st) : memWf (p.make st).mem = true := by
  unfold Plan.make
  split
  · exact h.1
  · exact changeLines_wf _ _ _ _ h.2 h.1

theorem Plan.area_ok {p : Plan} (h : p.Ok) (n old) {x : Plan × Nat} (hx : p.area n old = some x) : x.1.Ok := by
  obtain ⟨y, hy, rfl⟩ := Option.map_eq_some_iff.1 hx
  refine ⟨by rw [placeRta_mem _ _ hy]; exact h.1, fun m hm => ?_⟩
  have := memWf_zeroBytes y.1 n (h.2 m hm)
  dsimp only
  split
  · exact memWf_copyBytes _ _ _ this
  · exact this

theorem newPage_ok {p : Plan} (h : p.Ok) (old chg) {x : Plan × Nat × Nat} (hx : newPage p old chg = some x) : x.1.Ok := by
  obtain ⟨y, hy, rfl⟩ := Option.map_eq_some_iff.1 hx
  exact foldl_ok _ _ (fun _ _ h => Plan.put_ok h _ _) _ (Plan.area_ok h _ _ hy)

theorem newTable_ok {p : Plan} (h : p.Ok) (d f chg) {x : Plan × Nat × Nat × List (Nat × Nat)}
    (hx : newTable d p f chg = some x) : x.1.Ok := by
  unfold newTable at hx
  dsimp only at hx
  split at hx
  · cases hx
  · rename_i h0
    obtain ⟨y, hy, rfl⟩ := Option.map_eq_some_iff.1 hx
    refine foldl_some (fun b : Plan × List (Nat × Nat) => b.1.Ok) _ (fun _ => rfl) (fun b x c hb hc => ?_) _ _ _
      (Plan.area_ok h _ _ h0) hy
    obtain ⟨z, hz, rfl⟩ := Option.map_eq_some_iff.1 hc
    exact Plan.put_ok (newPage_ok hb _ _ hz) _ _

theorem Plan.grantees_ok {p : Plan} (h : p.Ok) (r l) {x : Plan × FoldRec} (hx : p.grantees r l = some x) : x.1.Ok := by
  unfold Plan.grantees at hx
  extract_lets freed at hx
  have hf : memWf freed.mem = true := by
    simp only [freed]
    split
    · exact h.1
    · rw [freeRta_mem]; exact h.1
  clear_value freed
  split at hx
  · cases hx; exact ⟨hf, h.2⟩
  · obtain ⟨y, hy, rfl⟩ := Option.map_eq_some_iff.1 hx
    exact Plan.put_ok (Plan.area_ok (p := { p with dev := freed }) ⟨hf, h.2⟩ _ _ hy) _ _

theorem commitFold_ok {p : Plan} (h : p.Ok) (d mine f) {x : Plan × FoldRec × Drain} (hx : commitFold d mine p f = some x) :
    x.1.Ok := by
  unfold commitFold at hx
  dsimp only at hx
  split at hx
  · cases hx; exact h
  · obtain ⟨y, hy, rfl⟩ := Option.map_eq_some_iff.1 hx
    exact newTable_ok h _ _ _ hy

theorem planCommit_ok (d f) (h : memWf d.mem = true) {p : Plan} (hp : planCommit d f = some p) : p.Ok := by
  obtain ⟨a, ha, rfl⟩ := Option.map_eq_some_iff.1 hp
  obtain ⟨b, hb, ha⟩ := Option.bind_eq_some_iff.1 ha
  have h1 : b.1.Ok := by
    refine foldl_some (fun b : Plan × List (Nat × FoldRec) × List Drain => b.1.Ok) _ (fun _ => rfl) (fun b x c hb hc => ?_) _ _ _
      (Plan.nothing_ok h) hb
    obtain ⟨z, hz, rfl⟩ := Option.map_eq_some_iff.1 hc
    exact commitFold_ok hb _ _ _ hz
  have h2 : a.1.Ok := by
    refine foldl_some (fun b : Plan × List (Nat × FoldRec) × List Drain => b.1.Ok) _ (fun _ => rfl) (fun b x c hb hc => ?_) _ _ _
      h1 ha
    simp only [Option.bind_some] at hc
    split at hc
    · cases hc; exact hb
    · obtain ⟨z, hz, rfl⟩ := Option.map_eq_some_iff.1 hc
      exact Plan.grantees_ok hb _ _ hz
  have h3 := foldl_ok (fun (q : Plan) (x : Nat × FoldRec) => q.put (foldPa d.folds x.1) (foldBytes x.2)) a.2.1
    (fun _ _ h => Plan.put_ok h _ _) a.1 h2
  refine ⟨?_, h3.2⟩
  rw [foldl_mem _ _ (fun _ _ => by simp)]
  exact h3.1

theorem planCreateFold_ok (d f) (h : memWf d.mem = true) {p : Plan} (hp : planCreateFold d f = .ok p) : p.Ok := by
  unfold planCreateFold at hp
  split at hp
  · cases hp
  · cases hp; exact Plan.put_ok (Plan.nothing_ok (by simpa using h)) _ _

theorem planCreateRegion_ok (d st c) (h : memWf d.mem = true) {p : Plan} (hp : planCreateRegion d st c = .ok p) : p.Ok := by
  unfold planCreateRegion at hp
  extract_lets len at hp
  split at hp
  · cases hp
  · split at hp
    · cases hp
    · split at hp
      · rename_i h1
        extract_lets x d2 at hp
        have h2 : memWf d2.mem = true := by
          simp only [d2, stage_mem]
          rw [placeRegion_mem _ _ _ h1]; exact h
        clear_value d2
        split at hp
        · cases hp; exact ⟨h2, fun _ hm => hm⟩
        · cases hp
      · cases hp

theorem planDestroyRegion_ok (d c) (h : memWf d.mem = true) {p : Plan} (hp : planDestroyRegion d c = .ok p) : p.Ok := by
  unfold planDestroyRegion at hp
  split at hp
  · cases hp
  · extract_lets d1 at hp
    have h1 : memWf d1.mem = true := by
      simp only [d1]; split
      · rw [stage_mem]; exact h
      · exact h
    clear_value d1
    split at hp
    · cases hp; exact Plan.nothing_ok h1
    · cases hp

theorem planSetPerm_ok (d c) (h : memWf d.mem = true) {p : Plan} (hp : planSetPerm d c = .ok p) : p.Ok := by
  unfold planSetPerm at hp
  split at hp
  · cases hp
  · extract_lets d1 at hp
    have h1 : memWf d1.mem = true := by simp only [d1, stage_mem]; exact h
    clear_value d1
    split at hp
    · cases hp; exact Plan.nothing_ok h1
    · cases hp

theorem planGrant_ok (d st c) (h : memWf d.mem = true) {p : Plan} (hp : planGrant d st c = .ok p) : p.Ok := by
  unfold planGrant at hp
  split at hp
  · cases hp
  · split at hp
    · cases hp
    · split at hp
      · cases hp
      · split at hp
        · cases hp
        · extract_lets _ d1 at hp
          have h1 : memWf d1.mem = true := by simp only [d1, stage_mem]; exact h
          clear_value d1
          split at hp
          · cases hp; exact ⟨h1, fun _ hm => hm⟩
          · cases hp

theorem planRevoke_ok (d c) (h : memWf d.mem = true) {p : Plan} (hp : planRevoke d c = .ok p) : p.Ok := by
  unfold planRevoke at hp
  split at hp
  · split at hp
    · cases hp
    · extract_lets d1 at hp
      have h1 : memWf d1.mem = true := by
        simp only [d1]; split
        · rw [stage_mem]; exact h
        · exact h
      clear_value d1
      split at hp
      · cases hp; exact Plan.nothing_ok h1
      · cases hp
  · cases hp

@[simp] theorem dropStaged_mem (d a1) : (dropStaged d a1).mem = d.mem := by
  rfl

theorem planDestroyFold_ok (d f) (h : memWf d.mem = true) {p : Plan} (hp : planDestroyFold d f = .ok p) : p.Ok := by
  unfold planDestroyFold at hp
  split at hp
  · cases hp
  · split at hp
    · cases hp
    · extract_lets r p0 p1 p2 at hp
      have h0 : p0.Ok := Plan.put_ok (Plan.nothing_ok (by simpa using h)) _ _
      have h1 : p1.Ok := foldl_ok _ _ (fun _ _ h => foldl_ok _ _ (fun _ _ h => Plan.put_ok h _ _) _ h) _ h0
      have h2 : p2.Ok := by
        refine foldl_ok _ _ (fun p t h => ?_) _ h1
        dsimp only
        split
        · rename_i hx; exact Plan.put_ok (Plan.grantees_ok h _ _ hx) _ _
        · exact h
      cases hp
      refine ⟨?_, h2.2⟩
      simp only [Dev.modEvt_mem]
      split
      · simpa using h2.1
      · exact h2.1

theorem planOf_ok (d st c) (h : memWf d.mem = true) {p : Plan} (hp : planOf d st c = .ok p) : p.Ok := by
  unfold planOf at hp
  split at hp
  · cases hp
  · split at hp
    · exact planCreateFold_ok _ _ h hp
    · split at hp
      · cases hp
      · split at hp
        · exact planCreateRegion_ok _ _ _ h hp
        · exact planDestroyRegion_ok _ _ h hp
        · exact planSetPerm_ok _ _ h hp
        · exact planGrant_ok _ _ _ h hp
        · exact planRevoke_ok _ _ h hp
        · split at hp
          · rename_i hc; cases hp; exact planCommit_ok _ _ h hc
          · cases hp
        · exact planDestroyFold_ok _ _ h hp
        all_goals cases hp

theorem applyRma_wf (d st c) (h : memWf d.mem = true) : memWf (applyRma d st c).mem = true := by
  unfold applyRma
  split
  · rename_i hp; exact Plan.make_wf (planOf_ok _ _ _ h hp) _
  · exact h

/-- A plan of one write over a device with a canonical memory. -/
theorem write_wf {d : Dev} (h : memWf d.mem = true) (a bs st) : memWf (((Plan.nothing d).put a bs).make st).mem = true :=
  Plan.make_wf (Plan.put_ok (Plan.nothing_ok h) _ _) _

theorem releaseGens_wf (d st f) (h : memWf d.mem = true) : memWf (releaseGens d st f).mem = true := by
  unfold releaseGens
  extract_lets mine d1 r
  have h1 : memWf d1.mem = true :=
    foldl_wf _ _ (fun a x ha => foldl_wf _ _ (fun a x ha => freeRegion_wf _ _ ha) _ (by rw [freeRta_mem]; exact ha)) _ h
  clear_value d1
  exact write_wf h1 _ _ _

theorem finishDestroy_wf (d st f) (h : memWf d.mem = true) : memWf (finishDestroy d st f).mem = true := by
  rw [finishDestroy]
  generalize hd : releaseGens d st f = d0
  have h0 : memWf d0.mem = true := hd ▸ releaseGens_wf _ _ _ h
  clear hd
  refine write_wf ?_ _ _ _
  rw [Dev.modFolds_mem, dropFoldCache_mem, freeRta_mem]
  exact foldl_wf _ _ (fun a x ha => freeRegion_wf _ _ ha) _ h0

theorem applyDrained_wf (d a1 a2) (hd : memWf d.mem = true) : memWf (applyDrained d a1 a2).mem = true := by
  unfold applyDrained; (repeat' first | with_reducible assumption | with_reducible apply finishDestroy_wf | with_reducible apply releaseGens_wf | with_reducible apply foldl_wf | simp only [noteLeaves_mem] | split | intro _ | exact memWf_nil)

/-! ## Machine/Ctrl.lean -/

@[simp] theorem applyKey_mem (d a1 a2 a3) : (applyKey d a1 a2 a3).mem = d.mem := by
  rfl

@[simp] theorem applyConfig_mem (d a1) : (applyConfig d a1).mem = d.mem := by
  simp [applyConfig]

@[simp] theorem resetFoldConn_mem (d a1) : (resetFoldConn d a1).mem = d.mem := by
  unfold resetFoldConn; (try dsimp only); split <;> simp

@[simp] theorem applyFoldReset_mem (d a1) : (applyFoldReset d a1).mem = d.mem := by
  unfold applyFoldReset; (try dsimp only); (repeat' first | (simp; done) | (refine (foldl_mem _ _ (fun _ _ => ?_) _).trans ?_) | split)

theorem applyCtrl_wf (d a1 a2) (hd : memWf d.mem = true) : memWf (applyCtrl d a1 a2).mem = true := by
  unfold applyCtrl; (repeat' first | with_reducible assumption | with_reducible apply applyRma_wf | with_reducible apply applyDrained_wf | with_reducible apply foldl_wf | simp only [putCred_mem, applyConfig_mem, noteSetup_mem, setConn_mem, applyChange_mem, raiseOp_mem, applyKey_mem, Dev.modEvt_mem, applyFoldReset_mem, Dev.modUpd_mem] | split | intro _ | exact memWf_nil)

@[simp] theorem markBusy_mem (d a1) : (markBusy d a1).mem = d.mem := by
  unfold markBusy; (try dsimp only); split <;> rfl

@[simp] theorem markEnd_mem (d a1 a2) : (markEnd d a1 a2).mem = d.mem := by
  unfold markEnd; (try dsimp only); (repeat' split) <;> first | (simp; done) | rfl

theorem sendCtrl_wf (d a1) (hd : memWf d.mem = true) : memWf (sendCtrl d a1).mem = true := by
  unfold sendCtrl; (repeat' first | with_reducible assumption | with_reducible apply applyCtrl_wf | with_reducible apply foldl_wf | simp only [stampCtrl_mem, markEnd_mem] | split | intro _ | exact memWf_nil)

theorem issueCtrl_wf (d a1) (hd : memWf d.mem = true) : memWf (issueCtrl d a1).mem = true := by
  unfold issueCtrl; (repeat' first | with_reducible assumption | with_reducible apply sendCtrl_wf | with_reducible apply foldl_wf | simp only [markBusy_mem, Dev.modTwin_mem] | split | intro _ | exact memWf_nil)

@[simp] theorem refuseWaiting_mem (d) : (refuseWaiting d).mem = d.mem := by
  unfold refuseWaiting; (try dsimp only); (repeat' first | (simp; done) | (refine (foldl_mem _ _ (fun _ _ => ?_) _).trans ?_) | split)

theorem drainCtrl_wf (n d) (h : memWf d.mem = true) : memWf (drainCtrl n d).mem = true := by
  induction n generalizing d with
  | zero => exact h
  | succ n ih =>
    simp only [drainCtrl]
    split
    · exact h
    · split
      · refine ih _ ?_; split <;> simpa using h
      · split
        · refine ih _ ?_
          split
          · exact sendCtrl_wf _ _ (by simpa using h)
          · simpa using h
        · exact h

@[simp] theorem modSlot_mem (d a1 a2) : (modSlot d a1 a2).mem = d.mem := by
  rfl

@[simp] theorem endSlot_mem (d a1 a2) : (endSlot d a1 a2).mem = d.mem := by
  rfl

@[simp] theorem noteHandle_mem (d a1 a2 a3) : (noteHandle d a1 a2 a3).mem = d.mem := by
  unfold noteHandle; (try dsimp only); split <;> rfl

theorem tryRma_wf (d s c) (h : memWf d.mem = true) {r : Dev} (hr : tryRma d s c = some r) : memWf r.mem = true := by
  unfold tryRma at hr
  split at hr
  · cases hr; simpa using h
  · split at hr
    · cases hr; simpa using h
    · split at hr
      · cases hr
      · split at hr
        · cases hr
        · have h1 : memWf (noteHandle (applyCtrl (stampCtrl d (.rma c)).2 (stampCtrl d (.rma c)).1 (.rma c)) s c
              (by assumption : Plan).handle).mem = true := by
            rw [noteHandle_mem]; exact applyCtrl_wf _ _ _ (by simpa using h)
          split at hr
          · cases hr; exact h1
          · cases hr; rw [endSlot_mem]; exact h1

theorem rmaPump_wf (n d) (h : memWf d.mem = true) : memWf (rmaPump n d).mem = true := by
  induction n generalizing d with
  | zero => exact h
  | succ n ih =>
    simp only [rmaPump]
    split
    · split
      · split
        · exact ih _ (by simpa using h)
        · exact h
      · split
        · exact h
        · refine ih _ ?_
          rw [endSlot_mem, Dev.modFolds_mem]
          exact applyCtrl_wf _ _ _ (by simpa using h)
    · split
      · exact h
      · split
        · exact h
        · split
          · rename_i hq; exact ih _ (by rw [Dev.modFolds_mem]; exact tryRma_wf _ _ _ h hq)
          · exact h

theorem settle_wf (d) (hd : memWf d.mem = true) : memWf (settle d).mem = true := by
  unfold settle; (repeat' first | with_reducible assumption | with_reducible apply drainCtrl_wf | with_reducible apply rmaPump_wf | with_reducible apply foldl_wf | simp only [refuseWaiting_mem] | split | intro _ | exact memWf_nil)

/-! ## Machine/Control.lean -/

@[simp] theorem putResults_mem (d a1 a2 a3) : (putResults d a1 a2 a3).mem = d.mem := by
  unfold putResults; (try dsimp only); split <;> rfl

@[simp] theorem putItem_mem (d a1) : (putItem d a1).mem = d.mem := by
  unfold putItem; (try dsimp only); (repeat' split) <;> first | (simp; done) | rfl

@[simp] theorem dropItem_mem (a1 d a2) : (dropItem a1 d a2).mem = d.mem := by
  unfold dropItem; (try dsimp only); (repeat' split) <;> first | (simp; done) | rfl

@[simp] theorem installControl_mem (d a1 a2) : (installControl d a1 a2).mem = d.mem := by
  unfold installControl; (try dsimp only); (repeat' first | (simp; done) | (refine (foldl_mem _ _ (fun _ _ => ?_) _).trans ?_) | split)

@[simp] theorem rebuildFolds_mem (d) : (rebuildFolds d).mem = d.mem := by
  rfl

/-! ## Machine/Roles.lean -/

@[simp] theorem quietConns_mem (d) : (quietConns d).mem = d.mem := by
  rfl

@[simp] theorem enterState_mem (d a1) : (enterState d a1).mem = d.mem := by
  unfold enterState; (try dsimp only); (repeat' split) <;> first | (simp; done) | rfl

@[simp] theorem protection_mem (d) : (protection d).mem = d.mem := by
  simp [protection]

@[simp] theorem beginDiverge_mem (d a1) : (beginDiverge d a1).mem = d.mem := by
  rfl

@[simp] theorem dropPairing_mem (d) : (dropPairing d).mem = d.mem := by
  rfl

@[simp] theorem leavePair_mem (d) : (leavePair d).mem = d.mem := by
  unfold leavePair; (try dsimp only); split <;> rfl

theorem runOut_wf (d) (hd : memWf d.mem = true) : memWf (runOut d).mem = true := by
  unfold runOut; (repeat' first | with_reducible assumption | with_reducible apply workAll_wf | with_reducible apply foldl_wf | simp only [completeAll_mem] | split | intro _ | exact memWf_nil)

@[simp] theorem dropUnstamped_mem (d) : (dropUnstamped d).mem = d.mem := by
  unfold dropUnstamped; (try dsimp only); (repeat' first | (simp; done) | (refine (foldl_mem _ _ (fun _ _ => ?_) _).trans ?_) | split)

theorem endWaiting_wf (d) (hd : memWf d.mem = true) : memWf (endWaiting d).mem = true := by
  unfold endWaiting; (repeat' first | with_reducible assumption | with_reducible apply settle_wf | with_reducible apply foldl_wf | simp only [endSlot_mem, Dev.modFolds_mem, Dev.modRst_mem] | split | intro _ | exact memWf_nil)

@[simp] theorem lapseBank_mem (d) : (lapseBank d).mem = d.mem := by
  unfold lapseBank; (try dsimp only); split <;> simp

@[simp] theorem endPhase_mem (d) : (endPhase d).mem = d.mem := by
  rfl

theorem stopServing_wf (d a1) (hd : memWf d.mem = true) : memWf (stopServing d a1).mem = true := by
  unfold stopServing; (repeat' first | with_reducible assumption | with_reducible apply runOut_wf | with_reducible apply endWaiting_wf | with_reducible apply foldl_wf | simp only [enterState_mem, dropUnstamped_mem, leavePair_mem, lapseBank_mem, endPhase_mem, Dev.modTwin_mem] | split | intro _ | exact memWf_nil)

@[simp] theorem startServing_mem (d a1 a2) : (startServing d a1 a2).mem = d.mem := by
  unfold startServing; (try dsimp only); split <;> simp

@[simp] theorem clearLoss_mem (d) : (clearLoss d).mem = d.mem := by
  simp [clearLoss]

@[simp] theorem serveAlone_mem (d) : (serveAlone d).mem = d.mem := by
  unfold serveAlone; (try dsimp only); split <;> simp

theorem goUnpaired_wf (d) (hd : memWf d.mem = true) : memWf (goUnpaired d).mem = true := by
  unfold goUnpaired; (repeat' first | with_reducible assumption | with_reducible apply settle_wf | with_reducible apply foldl_wf | simp only [completeAll_mem, protection_mem, enterState_mem, endPhase_mem, leavePair_mem] | split | intro _ | exact memWf_nil)

/-! ## Machine/Flash.lean -/

@[simp] theorem landLeaves_mem (d a1 a2) : (landLeaves d a1 a2).mem = d.mem := by
  rfl

@[simp] theorem drain_mem (a1 d) : (drain a1 d).mem = d.mem := by
  unfold drain; (try dsimp only); (repeat' split) <;> first | (simp; done) | rfl

@[simp] theorem relocate_mem (d a1 a2) : (relocate d a1 a2).mem = d.mem := by
  unfold relocate; (try dsimp only); (repeat' split) <;> first | (simp; done) | rfl

@[simp] theorem checkLife_mem (d d2) : (checkLife d d2).mem = d2.mem := by
  unfold checkLife; (try dsimp only); (repeat' split) <;> first | (simp; done) | rfl

@[simp] theorem takeOffline_mem (a1 a2 d) : (takeOffline a1 a2 d).mem = d.mem := by
  unfold takeOffline; (try dsimp only); split <;> simp

@[simp] theorem retire_mem (d a1) : (retire d a1).mem = d.mem := by
  unfold retire; (try dsimp only); (repeat' split) <;> first | (simp; done) | rfl

@[simp] theorem emptyBlock_mem (d a1 a2) : (emptyBlock d a1 a2).mem = d.mem := by
  unfold emptyBlock; (try dsimp only); split <;> simp

@[simp] theorem programEnd_mem (d a1) : (programEnd d a1).mem = d.mem := by
  rfl

@[simp] theorem programDone_mem (a1 a2 d) : (programDone a1 a2 d).mem = d.mem := by
  unfold programDone; (try dsimp only); split <;> simp

@[simp] theorem writeThrough_mem (d a1) : (writeThrough d a1).mem = d.mem := by
  unfold writeThrough; (try dsimp only); (repeat' first | (simp; done) | (refine (foldl_mem _ _ (fun _ _ => ?_) _).trans ?_) | split)

@[simp] theorem programFail_mem (a1 a2 a3 d) : (programFail a1 a2 a3 d).mem = d.mem := by
  unfold programFail; (try dsimp only); (repeat' split) <;> first | (simp; done) | rfl

@[simp] theorem eraseDone_mem (a1 d) : (eraseDone a1 d).mem = d.mem := by
  unfold eraseDone; (try dsimp only); split <;> simp

@[simp] theorem eraseFail_mem (a1 a2 a3 d) : (eraseFail a1 a2 a3 d).mem = d.mem := by
  unfold eraseFail; (try dsimp only); split <;> simp

@[simp] theorem countRead_mem (d a1) : (countRead d a1).mem = d.mem := by
  rfl

@[simp] theorem uncorrectable_mem (d a1) : (uncorrectable d a1).mem = d.mem := by
  simp [uncorrectable]

@[simp] theorem readDone_mem (a1 a2 a3 d) : (readDone a1 a2 a3 d).mem = d.mem := by
  unfold readDone; (try dsimp only); (repeat' split) <;> first | (simp; done) | rfl

@[simp] theorem suspend_mem (a1 a2 a3 d) : (suspend a1 a2 a3 d).mem = d.mem := by
  unfold suspend; (try dsimp only); (repeat' split) <;> first | (simp; done) | rfl

@[simp] theorem collect_mem (a1 d) : (collect a1 d).mem = d.mem := by
  unfold collect; (try dsimp only); (repeat' split) <;> first | (simp; done) | rfl

@[simp] theorem ckptStart_mem (d) : (ckptStart d).mem = d.mem := by
  unfold ckptStart; (try dsimp only); (repeat' split) <;> first | (simp; done) | rfl

@[simp] theorem ckptDone_mem (d) : (ckptDone d).mem = d.mem := by
  unfold ckptDone; (try dsimp only); (repeat' split) <;> first | (simp; done) | rfl

@[simp] theorem ckptLate_mem (d) : (ckptLate d).mem = d.mem := by
  unfold ckptLate; (try dsimp only); split <;> simp

@[simp] theorem patrol_mem (a1 a2 d) : (patrol a1 a2 d).mem = d.mem := by
  unfold patrol; (try dsimp only); (repeat' split) <;> first | (simp; done) | rfl

@[simp] theorem patrolEnd_mem (d) : (patrolEnd d).mem = d.mem := by
  unfold patrolEnd; (try dsimp only); split <;> simp

@[simp] theorem dailySample_mem (a1 d) : (dailySample a1 d).mem = d.mem := by
  simp [dailySample]

@[simp] theorem dieTemp_mem (a1 a2 d) : (dieTemp a1 a2 d).mem = d.mem := by
  rfl

@[simp] theorem imageRelease_mem (a1 d) : (imageRelease a1 d).mem = d.mem := by
  unfold imageRelease; (try dsimp only); (repeat' split) <;> first | (simp; done) | rfl

/-! ## Machine/Folds.lean -/

theorem takeSlot_mem (a1 a2 d) {r : Dev} (hr : takeSlot a1 a2 d = some r) : r.mem = d.mem := by
  unfold takeSlot at hr; (try dsimp only at hr); (repeat' split at hr) <;> first | (cases hr; done) | (cases hr; simp; done) | (simp at hr; rw [← hr]; simp; done) | (obtain ⟨_, hr⟩ := hr; cases hr; simp)

@[simp] theorem makeKeys_mem (d) : (makeKeys d).mem = d.mem := by
  unfold makeKeys; (try dsimp only); split <;> rfl

@[simp] theorem formatFtl_mem (d a1) : (formatFtl d a1).mem = d.mem := by
  rfl

theorem format_wf (d r) {a : Dev} (ha : format d r = .ok a) : memWf a.mem = true := by
  rw [format] at ha
  generalize (if d.ftl.rawFmt = 0 then d.modFtl fun f => { f with retired := d.env.badBlocks } else d) = d0 at ha
  split at ha
  · cases ha
  · split at ha
    · cases ha
    · rw [← Except.ok.inj ha, serveAlone_mem, cfgChanged_mem, Dev.modTwin_mem, Dev.modEvt_mem, Dev.modSec_mem, noteSlots_mem, Dev.modDur_mem,
        Dev.modNet_mem]
      dsimp only
      exact memWf_writeBytes _ _ memWf_nil

theorem formatTurn_wf (d) (h : memWf d.mem = true) : memWf (formatTurn d).mem = true := by
  unfold formatTurn
  split
  · split
    · dsimp only
      split
      · rename_i a ha
        have hw (ls : List Nat) : memWf (writeThrough a ls).mem = true := by
          rw [writeThrough_mem]
          split at ha
          · exact format_wf _ _ ha
          · cases ha
        split
        · rw [endSlot_mem]; exact hw _
        · rw [Dev.modFolds_mem]; exact hw _
      · rw [endSlot_mem]; exact h
    · exact h
  · exact h

theorem settleAll_wf (n d) (h : memWf d.mem = true) : memWf (settleAll n d).mem = true := by
  induction n generalizing d with
  | zero => exact settle_wf _ h
  | succ n ih =>
    simp only [settleAll]
    split
    · exact ih _ (formatTurn_wf _ (settle_wf _ h))
    · exact settle_wf _ h

theorem settleFully_wf (d) (hd : memWf d.mem = true) : memWf (settleFully d).mem = true := by
  unfold settleFully; (repeat' first | with_reducible assumption | with_reducible apply settleAll_wf | with_reducible apply foldl_wf | split | intro _ | exact memWf_nil)

theorem rmaWrite_wf (p op s f d) (h : memWf d.mem = true) : memWf (rmaWrite p op s f d).1.mem = true := by
  unfold rmaWrite
  split
  · rename_i d1 x h1 _
    have h2 : memWf d1.mem = true := by rw [takeSlot_mem _ _ _ h1]; exact h
    split
    · exact h2
    · exact settleFully_wf _ (by rw [Dev.modFolds_mem, modSlot_mem]; exact h2)
  · exact h

@[simp] theorem argWrite_mem (a1 a2 a3 a4 d) : (argWrite a1 a2 a3 a4 d).1.mem = d.mem := by
  unfold argWrite; (try dsimp only); (repeat' first | rfl | exact takeSlot_mem _ _ _ (by assumption) | (rename_i hq; simp [takeSlot_mem _ _ _ hq]; done) | (simp; done) | (simp_all; done) | (refine (foldl_mem _ _ (fun _ _ => ?_) _).trans ?_) | intro _ | split)

@[simp] theorem statusRead_mem (a1 a2 d) : (statusRead a1 a2 d).1.mem = d.mem := by
  unfold statusRead; (try dsimp only); (repeat' split) <;> first | (simp; done) | rfl

@[simp] theorem slotLapse_mem (a1 d) : (slotLapse a1 d).mem = d.mem := by
  rfl

theorem genDrained_wf (a1 d) (hd : memWf d.mem = true) : memWf (genDrained a1 d).mem = true := by
  unfold genDrained; (repeat' first | with_reducible assumption | with_reducible apply settleFully_wf | with_reducible apply applyCtrl_wf | with_reducible apply foldl_wf | simp only [stampCtrl_mem] | split | intro _ | exact memWf_nil)

end Sys2Proof.Machine
end

