-- ==== Sys2Proof/Laws/Commands.lean ====
section
/-! SUPPORT. What the plan of a region-table command leaves as it was, and how a command of a slot runs to its end. -/
namespace Sys2Proof.Machine

/-- The command slots, the queue and the memory are as before. -/
def SlotsKept (d e : Dev) : Prop :=
  e.folds.waits = d.folds.waits ∧ e.folds.slots = d.folds.slots ∧ e.folds.queue = d.folds.queue ∧ e.mem = d.mem ∧
  e.twin = d.twin

theorem SlotsKept.refl (d : Dev) : SlotsKept d d := ⟨rfl, rfl, rfl, rfl, rfl⟩

theorem SlotsKept.trans {a b c : Dev} (h : SlotsKept a b) (k : SlotsKept b c) : SlotsKept a c :=
  ⟨k.1.trans h.1, k.2.1.trans h.2.1, k.2.2.1.trans h.2.2.1, k.2.2.2.1.trans h.2.2.2.1, k.2.2.2.2.trans h.2.2.2.2⟩

theorem placeRta_kept {d : Dev} {n : Nat} {x : Nat × Dev} (h : placeRta d n = some x) : SlotsKept d x.2 := by
  unfold placeRta at h; split at h
  · cases h
  · cases h; exact .refl _

theorem placeRegion_kept {d : Dev} {st : Stamp} {n : Nat} {x : Nat × Dev} (h : placeRegion d st n = some x) : SlotsKept d x.2 := by
  unfold placeRegion at h; split at h
  · cases h
  · cases h; exact .refl _

theorem foldl_kept {α : Type} (d : Dev) (g : Plan → α → Plan) (hg : ∀ p x, SlotsKept d p.dev → SlotsKept d (g p x).dev) (l : List α)
    (p : Plan) (h : SlotsKept d p.dev) : SlotsKept d (l.foldl g p).dev := by
  induction l generalizing p with
  | nil => exact h
  | cons x t ih => exact ih _ (hg p x h)

theorem Plan.put_kept {d : Dev} {p : Plan} (h : SlotsKept d p.dev) (a : Nat) (bs : List Byte) : SlotsKept d (p.put a bs).dev := h

theorem drain_kept {d e : Dev} (h : SlotsKept d e) (g : List Staged → List Staged) (k : List Drain → List Drain) :
    SlotsKept d (e.modFolds fun fs => { fs with staged := g fs.staged, drains := k fs.drains }) := h

theorem Plan.area_kept {d : Dev} {p : Plan} (h : SlotsKept d p.dev) {n old} {x : Plan × Nat} (hx : p.area n old = some x) :
    SlotsKept d x.1.dev := by
  obtain ⟨y, hy, rfl⟩ := Option.map_eq_some_iff.1 hx
  exact h.trans (placeRta_kept hy)

theorem newPage_kept {d : Dev} {p : Plan} (h : SlotsKept d p.dev) {old chg} {x : Plan × Nat × Nat} (hx : newPage p old chg = some x) :
    SlotsKept d x.1.dev := by
  obtain ⟨y, hy, rfl⟩ := Option.map_eq_some_iff.1 hx
  exact foldl_kept d _ (fun _ _ h => Plan.put_kept h _ _) _ _ (Plan.area_kept h hy)

theorem newTable_kept {d : Dev} {p : Plan} (h : SlotsKept d p.dev) {e f chg} {x : Plan × Nat × Nat × List (Nat × Nat)}
    (hx : newTable e p f chg = some x) : SlotsKept d x.1.dev := by
  unfold newTable at hx
  dsimp only at hx
  split at hx
  · cases hx
  · rename_i h0
    obtain ⟨y, hy, rfl⟩ := Option.map_eq_some_iff.1 hx
    refine foldl_some (fun b : Plan × List (Nat × Nat) => SlotsKept d b.1.dev) _ (fun _ => rfl) (fun b x c hb hc => ?_) _ _ _
      (Plan.area_kept h h0) hy
    obtain ⟨z, hz, rfl⟩ := Option.map_eq_some_iff.1 hc
    exact newPage_kept hb hz

theorem Plan.grantees_kept {d : Dev} {p : Plan} (h : SlotsKept d p.dev) {r l} {x : Plan × FoldRec} (hx : p.grantees r l = some x) :
    SlotsKept d x.1.dev := by
  unfold Plan.grantees at hx
  extract_lets freed at hx
  have hf : SlotsKept d freed := by simp only [freed]; split <;> exact h
  clear_value freed
  split at hx
  · cases hx; exact hf
  · obtain ⟨y, hy, rfl⟩ := Option.map_eq_some_iff.1 hx
    exact Plan.area_kept (p := { p with dev := freed }) hf hy

theorem commitFold_kept {d : Dev} {p : Plan} (h : SlotsKept d p.dev) {e mine f} {x : Plan × FoldRec × Drain}
    (hx : commitFold e mine p f = some x) : SlotsKept d x.1.dev := by
  unfold commitFold at hx
  dsimp only at hx
  split at hx
  · cases hx; exact h
  · obtain ⟨y, hy, rfl⟩ := Option.map_eq_some_iff.1 hx
    exact newTable_kept h hy

theorem dropFoldCache_kept (d : Dev) (f : Nat) : SlotsKept d (dropFoldCache d f) := .refl _

theorem planCommit_kept {d : Dev} {f : Nat} {p : Plan} (hp : planCommit d f = some p) : SlotsKept d p.dev := by
  obtain ⟨a, ha, rfl⟩ := Option.map_eq_some_iff.1 hp
  obtain ⟨b, hb, ha⟩ := Option.bind_eq_some_iff.1 ha
  have h1 : SlotsKept d b.1.dev := by
    refine foldl_some (fun b : Plan × List (Nat × FoldRec) × List Drain => SlotsKept d b.1.dev) _ (fun _ => rfl)
      (fun b x c hb hc => ?_) _ _ _ (.refl d) hb
    obtain ⟨z, hz, rfl⟩ := Option.map_eq_some_iff.1 hc
    exact commitFold_kept hb hz
  have h2 : SlotsKept d a.1.dev := by
    refine foldl_some (fun b : Plan × List (Nat × FoldRec) × List Drain => SlotsKept d b.1.dev) _ (fun _ => rfl)
      (fun b x c hb hc => ?_) _ _ _ h1 ha
    simp only [Option.bind_some] at hc
    split at hc
    · cases hc; exact hb
    · obtain ⟨z, hz, rfl⟩ := Option.map_eq_some_iff.1 hc
      exact Plan.grantees_kept hb hz
  have h3 := foldl_kept d (fun (q : Plan) (x : Nat × FoldRec) => q.put (foldPa d.folds x.1) (foldBytes x.2))
    (fun _ _ h => Plan.put_kept h _ _) a.2.1 a.1 h2
  have h4 : ∀ (l : List Nat) (e : Dev), SlotsKept d e → SlotsKept d (l.foldl dropFoldCache e) := by
    intro l; induction l with
    | nil => exact fun _ h => h
    | cons x t ih => exact fun e h => ih _ (h.trans (dropFoldCache_kept e x))
  exact h4 _ _ (drain_kept h3 (List.filter fun g => g.by_ ≠ f) (fun x => x ++ a.2.2))

theorem planDestroyFold_kept {d : Dev} {f : Nat} {p : Plan} (hp : planDestroyFold d f = .ok p) : SlotsKept d p.dev := by
  unfold planDestroyFold at hp
  split at hp
  · cases hp
  · split at hp
    · cases hp
    · extract_lets r p0 p1 p2 at hp
      have h0 : SlotsKept d p0.dev := (.refl d : SlotsKept d (dropStaged d f))
      have h1 : SlotsKept d p1.dev := foldl_kept d _ (fun _ _ h => foldl_kept d _ (fun _ _ h => Plan.put_kept h _ _) _ _ h) _ p0 h0
      have h2 : SlotsKept d p2.dev := by
        refine foldl_kept d _ (fun p t h => ?_) _ _ h1
        dsimp only
        split
        · rename_i hx; exact Plan.put_kept (Plan.grantees_kept h hx) _ _
        · exact h
      clear_value p2
      cases hp
      dsimp only
      split
      · exact h2
      · exact h2

/-- A plan leaves the command slots and the memory as they are; its edit is made with the stamp. -/
theorem planOf_kept {d : Dev} {st : Stamp} {c : RmaCmd} {p : Plan} (hp : planOf d st c = .ok p) : SlotsKept d p.dev := by
  unfold planOf at hp
  split at hp
  · cases hp
  · split at hp
    · unfold planCreateFold at hp
      split at hp
      · cases hp
      · cases hp; exact .refl _
    · split at hp
      · cases hp
      · split at hp
        · unfold planCreateRegion at hp
          extract_lets len at hp
          split at hp
          · cases hp
          · split at hp
            · cases hp
            · split at hp
              · rename_i h1
                extract_lets x d2 at hp
                split at hp
                · cases hp; exact placeRegion_kept h1
                · cases hp
              · cases hp
        · unfold planDestroyRegion at hp
          split at hp
          · cases hp
          · extract_lets d1 at hp
            split at hp
            · cases hp; simp only [d1]; split <;> exact .refl _
            · cases hp
        · unfold planSetPerm at hp
          split at hp
          · cases hp
          · extract_lets d1 at hp
            split at hp
            · cases hp; exact .refl _
            · cases hp
        · unfold planGrant at hp
          split at hp
          · cases hp
          · split at hp
            · cases hp
            · split at hp
              · cases hp
              · split at hp
                · cases hp
                · extract_lets _ d1 at hp
                  split at hp
                  · cases hp; exact .refl _
                  · cases hp
        · unfold planRevoke at hp
          split at hp
          · split at hp
            · cases hp
            · extract_lets d1 at hp
              split at hp
              · cases hp; simp only [d1]; split <;> exact .refl _
              · cases hp
          · cases hp
        · split at hp
          · rename_i hc; cases hp; exact planCommit_kept hc
          · cases hp
        · exact planDestroyFold_kept hp
        all_goals cases hp

/-! ## Making a plan -/

theorem ownLeaf_folds (d : Dev) (l : Nat) : ∃ fs n, (ownLeaf d l).folds = { d.folds with families := fs, nextVer := n } := by
  unfold ownLeaf keepLoc; split
  · exact ⟨_, _, rfl⟩
  · dsimp only; split <;> exact ⟨_, _, rfl⟩

theorem ownLeaves_folds (d : Dev) (st : Stamp) (l : List Nat) :
    ∃ fs n, (ownLeaves d st l).folds = { d.folds with families := fs, nextVer := n } := by
  unfold ownLeaves
  induction l generalizing d with
  | nil => exact ⟨_, _, rfl⟩
  | cons x t ih =>
    obtain ⟨a, b, h1⟩ := ih (noteLeaves (ownLeaf d x) st (familyLeaves d x))
    obtain ⟨a', b', h2⟩ := ownLeaf_folds d x
    have h4 : (noteLeaves (ownLeaf d x) st (familyLeaves d x)).folds = (ownLeaf d x).folds := rfl
    exact ⟨a, b, by rw [List.foldl_cons, h1, h4, h2]⟩

theorem changeLines_folds (d : Dev) (st : Stamp) (ls : List Nat) (f : Mem → Mem) :
    ∃ fs n, (changeLines d st ls f).folds = { d.folds with families := fs, nextVer := n } := by
  obtain ⟨a, b, h1⟩ := ownLeaves_folds d st (cowLeaves d ls)
  obtain ⟨_, _, _, _, _, _, _, _, _, h2⟩ := noteLines_stamp { ownLeaves d st (cowLeaves d ls) with
    mem := f (ownLeaves d st (cowLeaves d ls)).mem } st ls
  exact ⟨a, b, by unfold changeLines; dsimp only at h2 ⊢; rw [h2]; exact h1⟩

theorem ownLeaf_twin (d : Dev) (l : Nat) : (ownLeaf d l).twin = d.twin := by
  unfold ownLeaf keepLoc; split
  · rfl
  · dsimp only; split <;> rfl

theorem ownLeaves_ctrlDue (d : Dev) (st : Stamp) (l : List Nat) : (ownLeaves d st l).twin.ctrlDue = d.twin.ctrlDue := by
  unfold ownLeaves
  induction l generalizing d with
  | nil => rfl
  | cons x t ih =>
    rw [List.foldl_cons, ih]
    exact (congrArg Twin.ctrlDue (ownLeaf_twin d x) :)

theorem changeLines_ctrlDue (d : Dev) (st : Stamp) (ls : List Nat) (f : Mem → Mem) :
    (changeLines d st ls f).twin.ctrlDue = d.twin.ctrlDue := by
  unfold changeLines
  rw [(noteLines_role _ _ _).1.2.2.2.1]
  exact ownLeaves_ctrlDue d st _

theorem changeLines_memory (d : Dev) (st : Stamp) (ls : List Nat) (f : Mem → Mem) : (changeLines d st ls f).mem = f d.mem := by
  simp only [changeLines, noteLines_mem, ownLeaves_mem]

theorem Plan.make_folds (p : Plan) (st : Stamp) : ∃ fs n, (p.make st).folds = { p.dev.folds with families := fs, nextVer := n } := by
  unfold Plan.make; split
  · exact ⟨_, _, rfl⟩
  · exact changeLines_folds _ _ _ _

theorem Plan.make_ctrlDue (p : Plan) (st : Stamp) : (p.make st).twin.ctrlDue = p.dev.twin.ctrlDue := by
  unfold Plan.make; split
  · rfl
  · exact changeLines_ctrlDue _ _ _ _

theorem Plan.make_memory (p : Plan) (st : Stamp) : (p.make st).mem = if p.lines.isEmpty then p.dev.mem else p.edit p.dev.mem := by
  unfold Plan.make; split
  · rfl
  · exact changeLines_memory _ _ _ _

/-! ## Releasing what a fold kept -/

/-- The command slots, the command at work and the staged changes are as before. -/
def WorkKept (d e : Dev) : Prop :=
  e.folds.waits = d.folds.waits ∧ e.folds.slots = d.folds.slots ∧ e.folds.queue = d.folds.queue ∧ e.folds.staged = d.folds.staged

theorem WorkKept.refl (d : Dev) : WorkKept d d := ⟨rfl, rfl, rfl, rfl⟩

theorem WorkKept.trans {a b c : Dev} (h : WorkKept a b) (k : WorkKept b c) : WorkKept a c :=
  ⟨k.1.trans h.1, k.2.1.trans h.2.1, k.2.2.1.trans h.2.2.1, k.2.2.2.trans h.2.2.2⟩

theorem WorkKept.foldl {α : Type} {f : Dev → α → Dev} (h : ∀ d x, WorkKept d (f d x)) : ∀ (l : List α) (d : Dev), WorkKept d (l.foldl f d)
  | [], d => .refl d
  | x :: l, d => (h d x).trans (WorkKept.foldl h l (f d x))

theorem WorkKept.of_folds {d e : Dev} (h : e.folds = d.folds) : WorkKept d e := by
  unfold WorkKept; rw [h]; exact ⟨rfl, rfl, rfl, rfl⟩

theorem handDown_folds (d : Dev) (l : Nat) : (handDown d l).folds = d.folds := by
  unfold handDown keepLoc; split
  · rfl
  · dsimp only; split <;> rfl

theorem freeRegion_work (d : Dev) (r : Nat × Nat) : WorkKept d (freeRegion d r) := by
  unfold freeRegion
  extract_lets inR leaves d1 d2 d3 d4
  have h : WorkKept d d1 := WorkKept.foldl (fun d x => .of_folds (handDown_folds d x)) _ _
  clear_value d1
  exact h.trans ⟨rfl, rfl, rfl, rfl⟩

theorem freeRta_work (d : Dev) (ps : List (Nat × Nat)) : WorkKept d (freeRta d ps) := ⟨rfl, rfl, rfl, rfl⟩

theorem Plan.make_work (p : Plan) (st : Stamp) : WorkKept p.dev (p.make st) := by
  obtain ⟨a, b, h⟩ := p.make_folds st
  unfold WorkKept; rw [h]; exact ⟨rfl, rfl, rfl, rfl⟩

theorem Plan.make_live (p : Plan) (st : Stamp) : (p.make st).folds.live = p.dev.folds.live := by
  obtain ⟨a, b, h⟩ := p.make_folds st; rw [h]

theorem Plan.make_drains (p : Plan) (st : Stamp) : (p.make st).folds.drains = p.dev.folds.drains := by
  obtain ⟨a, b, h⟩ := p.make_folds st; rw [h]

theorem releaseGens_work (d : Dev) (st : Stamp) (f : Nat) : WorkKept d (releaseGens d st f) := by
  unfold releaseGens
  extract_lets mine d1 r
  have h : WorkKept d d1 :=
    WorkKept.trans (b := d.modFolds fun fs => { fs with drains := fs.drains.filter fun x => x.fold ≠ f }) ⟨rfl, rfl, rfl, rfl⟩
      (WorkKept.foldl (fun d x => (freeRta_work d _).trans (WorkKept.foldl freeRegion_work _ _)) _ _)
  clear_value d1
  exact h.trans (Plan.make_work _ _)

theorem put_make_work (d : Dev) (a : Nat) (bs : List Byte) (st : Stamp) : WorkKept d ((Plan.put (Plan.nothing d) a bs).make st) :=
  Plan.make_work (Plan.put (Plan.nothing d) a bs) st

theorem endFold_work (d : Dev) (f : Nat) (ps : List (Nat × Nat)) (g : List Nat → List Nat) :
    WorkKept d ((dropFoldCache (freeRta d ps) f).modFolds fun fs => { fs with live := g fs.live }) := ⟨rfl, rfl, rfl, rfl⟩

theorem finishDestroy_work (d : Dev) (st : Stamp) (f : Nat) : WorkKept d (finishDestroy d st f) := by
  unfold finishDestroy
  refine WorkKept.trans (releaseGens_work d st f) ?_
  generalize releaseGens d st f = d0
  extract_lets d0' r slots pages d1 d2 d3
  refine WorkKept.trans ?_ (put_make_work d3 _ _ _)
  refine WorkKept.trans ?_ (endFold_work d1 f _ (List.filter fun x => x ≠ f))
  exact WorkKept.foldl freeRegion_work _ _

@[simp] theorem noteLeaves_folds (d : Dev) (st : Stamp) (ls : List Nat) : (noteLeaves d st ls).folds = d.folds := rfl

theorem applyDrained_work (d : Dev) (st : Stamp) (f : Nat) : WorkKept d (applyDrained d st f) := by
  unfold applyDrained
  refine WorkKept.trans ?_ (.of_folds (noteLeaves_folds _ _ _))
  split
  · exact finishDestroy_work d st f
  · exact releaseGens_work d st f

/-- A fold whose destruction has ended is live no longer. -/
theorem finishDestroy_live (d : Dev) (st : Stamp) (f : Nat) : f ∉ (finishDestroy d st f).folds.live := by
  unfold finishDestroy
  extract_lets d0 r slots pages d1 d2 d3
  rw [Plan.make_live]
  show f ∉ d3.folds.live
  simp [d3]

/-- Releasing what a fold's past generations kept leaves none of them in the list of drains. -/
theorem releaseGens_drains (d : Dev) (st : Stamp) (f : Nat) :
    (releaseGens d st f).folds.drains = d.folds.drains.filter fun x => x.fold ≠ f := by
  unfold releaseGens
  extract_lets mine d1 r
  rw [Plan.make_drains]
  show d1.folds.drains = _
  have h1 : ∀ (l : List (Nat × Nat)) (e : Dev), (l.foldl freeRegion e).folds.drains = e.folds.drains := by
    intro l; induction l with
    | nil => exact fun _ => rfl
    | cons x t ih =>
      intro e; rw [List.foldl_cons, ih]
      unfold freeRegion
      extract_lets inR leaves d1 d2 d3 d4
      show d1.folds.drains = _
      have : ∀ (l : List Nat) (e : Dev), (l.foldl handDown e).folds = e.folds := by
        intro l; induction l with
        | nil => exact fun _ => rfl
        | cons x t ih => exact fun e => (ih _).trans (handDown_folds e x)
      rw [show d1.folds = e.folds from this _ _]
  have h2 : ∀ (l : List Drain) (e : Dev),
      (l.foldl (fun a x => x.space.foldl freeRegion (freeRta a x.pages)) e).folds.drains = e.folds.drains := by
    intro l; induction l with
    | nil => exact fun _ => rfl
    | cons x t ih => exact fun e => (ih _).trans (h1 _ _)
  exact h2 _ _

/-- What freeing regions and pages and making a plan leave as it was, releasing past generations leaves as it was. -/
theorem releaseGens_keeps {α : Type} (g : Dev → α) (h1 : ∀ d r, g (freeRegion d r) = g d) (h2 : ∀ d ps, g (freeRta d ps) = g d)
    (h3 : ∀ (p : Plan) st, g (p.make st) = g p.dev)
    (h4 : ∀ (d : Dev) (k : List Drain → List Drain), g (d.modFolds fun fs => { fs with drains := k fs.drains }) = g d)
    (d : Dev) (st : Stamp) (f : Nat) : g (releaseGens d st f) = g d := by
  have e1 : ∀ (l : List (Nat × Nat)) (e : Dev), g (l.foldl freeRegion e) = g e := by
    intro l; induction l with
    | nil => exact fun _ => rfl
    | cons x t ih => exact fun e => (ih _).trans (h1 _ _)
  have e2 : ∀ (l : List Drain) (e : Dev), g (l.foldl (fun a x => x.space.foldl freeRegion (freeRta a x.pages)) e) = g e := by
    intro l; induction l with
    | nil => exact fun _ => rfl
    | cons x t ih => exact fun e => (ih _).trans ((e1 _ _).trans (h2 _ _))
  unfold releaseGens
  extract_lets mine d1 r
  exact (h3 _ _).trans ((e2 _ _).trans (h4 _ (List.filter fun x => x.fold ≠ f)))

theorem freeRegion_live (d : Dev) (r : Nat × Nat) : (freeRegion d r).folds.live = d.folds.live := by
  unfold freeRegion
  extract_lets inR leaves d1 d2 d3 d4
  have : ∀ (l : List Nat) (e : Dev), (l.foldl handDown e).folds = e.folds := by
    intro l; induction l with
    | nil => exact fun _ => rfl
    | cons x t ih => exact fun e => (ih _).trans (handDown_folds e x)
  show d1.folds.live = _
  rw [show d1.folds = d.folds from this _ d]

theorem handDown_twin (d : Dev) (l : Nat) : (handDown d l).twin = d.twin := by
  unfold handDown keepLoc; split
  · rfl
  · dsimp only; split <;> rfl

theorem freeRegion_twin (d : Dev) (r : Nat × Nat) : (freeRegion d r).twin = d.twin := by
  unfold freeRegion
  extract_lets inR leaves d1 d2 d3 d4
  have : ∀ (l : List Nat) (e : Dev), (l.foldl handDown e).twin = e.twin := by
    intro l; induction l with
    | nil => exact fun _ => rfl
    | cons x t ih => exact fun e => (ih _).trans (handDown_twin e x)
  exact this _ d

theorem releaseGens_live (d : Dev) (st : Stamp) (f : Nat) : (releaseGens d st f).folds.live = d.folds.live :=
  releaseGens_keeps (fun e => e.folds.live) freeRegion_live (fun _ _ => rfl) Plan.make_live (fun _ _ => rfl) d st f

theorem releaseGens_ctrlDue (d : Dev) (st : Stamp) (f : Nat) : (releaseGens d st f).twin.ctrlDue = d.twin.ctrlDue :=
  releaseGens_keeps (fun e => e.twin.ctrlDue) (fun d r => congrArg Twin.ctrlDue (freeRegion_twin d r)) (fun _ _ => rfl)
    Plan.make_ctrlDue (fun _ _ => rfl) d st f

/-- The same of every turn that a settling takes. -/
theorem settleFully_idle {d : Dev} (h1 : d.twin.ctrlDue = []) (h2 : d.folds.queue = []) (h3 : d.folds.waits = none) :
    settleFully d = d := by
  unfold settleFully
  rw [h2]
  show settleAll 1 d = d
  simp only [settleAll, settle_idle h1 h2 h3, formatDue, h2, Bool.and_false, Bool.false_eq_true, if_false]

end Sys2Proof.Machine
end

