-- ==== Sys2Proof/Laws/Registers.lean ====
section
/-! SUPPORT. Stored registers: a register reads as it was set, and setting one leaves every other as it was; what a register
command does once its access is open. -/
namespace Sys2Proof.Machine

theorem regVal_setRegVal (rs : List (Nat × Word)) (a b : Nat) (w : Word) :
    regVal (setRegVal rs a w) b = if a = b then w else regVal rs b := by
  unfold regVal setRegVal
  split
  · rename_i h
    rw [getKey_delKey]
    split
    · rename_i e; subst e; simp [h]
    · rfl
  · rw [getKey_putKey]; split <;> simp

@[simp] theorem reg_setReg (d : Dev) (a b : Nat) (w : Word) : reg (setReg d a w) b = if a = b then w else reg d b :=
  regVal_setRegVal _ _ _ _

@[simp] theorem reg_bump (d : Dev) (a b n : Nat) : reg (bump d a n) b = if a = b then satAdd (reg d a) n else reg d b :=
  regVal_setRegVal _ _ _ _

/-- A write of a plain register, which has no range to keep, changes the bits of its mask and no other register. -/
theorem regVal_plainWrite (rs : List (Nat × Word)) (a b : Nat) (w : Word) :
    regVal (plainWrite rs a w) b =
      if a = b then clampReg a (regVal rs a) ((regVal rs a &&& ~~~ (wMask a)) ||| (w &&& wMask a)) else regVal rs b :=
  regVal_setRegVal _ _ _ _

/-- A register command whose access is open runs its effect and answers. -/
theorem command_open {d : Dev} {p : Principal} {a : Nat} (h1 : present d p = true) (h2 : refusal d p a = none)
    (f : Dev → Dev × Nat) :
    command p a f d = answer (f d).1 p a true (if (f d).2 = 0 then .done else .accessViolation) (f d).2 0 := by
  simp [command, h1, h2]

/-- A read whose access is open. -/
theorem readAs_open {d : Dev} {p : Principal} {a : Nat} (h1 : present d p = true) (h2 : refusal d p a = none)
    (f : Dev → Dev × Except Nat Word) :
    readAs p a f d = match (f d).2 with
      | .ok v => answer (f d).1 p a false .done 0 v
      | .error n => answer (f d).1 p a false .accessViolation n 0 := by
  simp only [readAs, h1, h2]; rfl

end Sys2Proof.Machine
end

