-- ==== Sys2Proof/Laws/Connections.lean ====
section
/-! SUPPORT. Connections as they are set and read, and what an event or a stamp leaves of them: all but their send queues
and the stamp of their setting-up. -/
namespace Sys2Proof.Machine

theorem getKey_setKey {α : Type} {m : List (Nat × α)} {a b : Nat} {v : Option α} :
    getKey (setKey m a v) b = if a = b then v else getKey m b := by
  cases v with
  | some v => exact getKey_putKey
  | none => exact getKey_delKey

@[simp] theorem getConn_setConn (d : Dev) (n m : Nat) (c : Option Conn) :
    getConn (setConn d n c) m = if n = m then c else getConn d m := getKey_setKey

theorem getConn_modConn (d : Dev) (n m : Nat) (f : Conn → Conn) :
    getConn (modConn d n f) m = if n = m then (getConn d n).map f else getConn d m := by
  unfold modConn
  split
  · rename_i c h; rw [getConn_setConn, h]; rfl
  · rename_i h
    split
    · rename_i e; rw [← e, h]; rfl
    · rfl

/-- A connection but for its send queue and the stamp of its setting-up. -/
def bare (d : Dev) (n : Nat) : Option Conn := (getConn d n).map fun c => { c with sendq := [], setupSt := none }

theorem bare_of {d e : Dev} {n : Nat} {c : Conn} (h : bare e n = bare d n) (hc : getConn d n = some c) :
    ∃ q st, getConn e n = some { c with sendq := q, setupSt := st } := by
  unfold bare at h
  rw [hc] at h
  cases he : getConn e n with
  | none => rw [he] at h; cases h
  | some x =>
    rw [he] at h
    simp only [Option.map_some, Option.some.injEq] at h
    refine ⟨x.sendq, x.setupSt, ?_⟩
    have : x = { ({ x with sendq := [], setupSt := none } : Conn) with sendq := x.sendq, setupSt := x.setupSt } := rfl
    rw [this, h]

theorem bare_queueFrame (d : Dev) (n m : Nat) (p : Option Nat) (b : TxBody) : bare (queueFrame d m p b) n = bare d n := by
  unfold bare queueFrame
  rw [getConn_modConn]
  split
  · rename_i h; subst h; rw [Option.map_map]; rfl
  · rfl

theorem bare_keeps (n : Nat) : EventKeeps fun d => bare d n := ⟨fun _ _ => rfl, fun _ => rfl, fun d m p b => bare_queueFrame d n m p b⟩

theorem bare_setup (d : Dev) (n m : Nat) (st : Option Stamp) : bare (modConn d m fun c => { c with setupSt := st }) n = bare d n := by
  unfold bare
  rw [getConn_modConn]
  split
  · rename_i h; subst h; rw [Option.map_map]; rfl
  · rfl

theorem modConn_net (d : Dev) (n : Nat) (f : Conn → Conn) : ∃ cs, (modConn d n f).net = { d.net with conns := cs } := by
  unfold modConn; split
  · exact ⟨_, rfl⟩
  · exact ⟨_, rfl⟩

@[simp] theorem modConn_ops (d : Dev) (n : Nat) (f : Conn → Conn) : (modConn d n f).net.ops = d.net.ops := by
  obtain ⟨cs, e⟩ := modConn_net d n f; rw [e]

theorem ports_keeps : EventKeeps fun d => d.net.ports :=
  ⟨fun _ _ => rfl, fun _ => rfl, fun d n p b => by unfold queueFrame modConn; split <;> rfl⟩

theorem ops_keeps : EventKeeps fun d => d.net.ops :=
  ⟨fun _ _ => rfl, fun _ => rfl, fun d n p b => by unfold queueFrame modConn; split <;> rfl⟩

theorem reg_keeps {a : Nat} (ha : a ≠ 0x50154) : EventKeeps fun d => reg d a :=
  ⟨fun _ _ => rfl, fun d => by simp only [reg_bump]; rw [if_neg (Ne.symm ha)],
   fun d n p b => by unfold queueFrame modConn; split <;> rfl⟩

/-! ## Under a stamp -/

/-- What no event, no stamp and no frame that is sent changes. -/
structure StampKeeps {α : Type} (g : Dev → α) : Prop extends EventKeeps g where
  twin : ∀ d f, g (Dev.modTwin d f) = g d
  ldg : ∀ d f, g (Dev.modLdg d f) = g d
  dur : ∀ d f, g (Dev.modDur d f) = g d
  ftl : ∀ d f, g (Dev.modFtl d f) = g d
  sent : ∀ d o, g (emit d o) = g d
  hall : ∀ d f, g (Dev.modHall d f) = g d
  setup : ∀ d n st, g (modConn d n fun c => { c with setupSt := st }) = g d

theorem StampKeeps.markDirty {α : Type} {g : Dev → α} (h : StampKeeps g) (d : Dev) : g (markDirty d) = g d := by
  unfold Machine.markDirty; split
  · rfl
  · exact (h.ldg _ _).trans (h.ldg d _)

theorem StampKeeps.refuseAtLimit {α : Type} {g : Dev → α} (h : StampKeeps g) (d : Dev) : g (refuseAtLimit d) = g d := by
  unfold Machine.refuseAtLimit; split
  · exact (h.toEventKeeps.raiseOp _ _ _ _).trans (h.twin d _)
  · rfl

theorem StampKeeps.takeStamp {α : Type} {g : Dev → α} (h : StampKeeps g) (d : Dev) : g (takeStamp d).2 = g d := by
  unfold Machine.takeStamp; dsimp only
  refine (h.refuseAtLimit _).trans ?_
  split
  · exact (h.toEventKeeps.raiseOp _ _ _ _).trans ((h.twin _ _).trans (h.markDirty d))
  · exact (h.twin _ _).trans (h.markDirty d)

theorem StampKeeps.sendRecs {α : Type} {g : Dev → α} (h : StampKeeps g) (d : Dev) (rs : List Rec) : g (sendRecs d rs) = g d := by
  have key (n : Nat) : ∀ d, g (pumpFrames n d) = g d := by
    induction n with
    | zero => exact fun _ => rfl
    | succ n ih =>
      intro d
      simp only [pumpFrames]
      split
      · rfl
      · exact (ih _).trans ((h.sent _ _).trans (h.twin d _))
  exact (key _ _).trans (h.twin d _)

theorem StampKeeps.forward {α : Type} {g : Dev → α} (h : StampKeeps g) (d : Dev) (st : Stamp) (r : Rec) : g (forward d st r) = g d := by
  unfold Machine.forward; split
  · exact (h.sendRecs _ _).trans (h.twin d _)
  · rfl

theorem StampKeeps.tell {α : Type} {g : Dev → α} (h : StampKeeps g) (d : Dev) (r : Rec) : g (tell d r) = g d := by
  unfold Machine.tell; split
  · exact h.sendRecs _ _
  · rfl

theorem StampKeeps.useLine {α : Type} {g : Dev → α} (h : StampKeeps g) (m : Bool) (d : Dev) (line : Nat) : g (useLine m d line) = g d := by
  have hm {d e : Dev} {s : Nat} {u : Slice} (k : makeRoom d s u line = some e) : g e = g d := by
    unfold makeRoom evictLine toFrame modSlice at k; dsimp only at k
    (repeat' split at k) <;> first
      | (cases k; done) | (cases k; rfl) | (cases k; exact h.hall _ _) | (cases k; exact (h.hall _ _).trans (h.hall _ _))
      | (obtain ⟨_, _, rfl⟩ := Option.map_eq_some_iff.1 k; exact h.hall _ _)
  have hl (d : Dev) (u : Slice) : g (landRecall d u line) = g d := by
    unfold landRecall; split
    · exact h.hall _ _
    · rfl
  unfold Machine.useLine; dsimp only
  (repeat' split) <;> first | rfl | (rename_i k; exact ((h.hall _ _).trans (hl _ _)).trans (hm k))

theorem foldl_keeps {α β : Type} (g : Dev → α) (f : Dev → β → Dev) (h : ∀ d x, g (f d x) = g d) (l : List β) (d : Dev) :
    g (l.foldl f d) = g d := by
  induction l generalizing d with
  | nil => rfl
  | cons x t ih => exact (ih _).trans (h d x)

theorem StampKeeps.noteSetup {α : Type} {g : Dev → α} (h : StampKeeps g) (d : Dev) (st : Stamp) (b : CtrlBody) :
    g (noteSetup d st b) = g d := by
  unfold Machine.noteSetup; split
  · exact h.setup _ _ _
  · exact h.setup _ _ _
  · rfl

theorem StampKeeps.noteLeaves {α : Type} {g : Dev → α} (h : StampKeeps g) (d : Dev) (st : Stamp) (ls : List Nat) :
    g (noteLeaves d st ls) = g d := h.twin d _

theorem StampKeeps.noteLines {α : Type} {g : Dev → α} (h : StampKeeps g) (d : Dev) (st : Stamp) (ls : List Nat) :
    g (noteLines d st ls) = g d := by
  have e : g ((((Machine.noteLeaves (Machine.markDirty d) st (leavesOf ls)).modDur fun u =>
      { u with dirty := addNums u.dirty ls, slots := u.slots.map fun s => { s with left := dropNums s.left ls } }).modFtl fun f =>
      { f with progs := f.progs.map fun p => { p with lines := dropNums p.lines ls } })) = g d :=
    (h.ftl _ _).trans ((h.dur _ _).trans ((h.twin _ _).trans (h.markDirty d)))
  unfold Machine.noteLines; dsimp only
  split
  · exact (h.twin _ _).trans ((foldl_keeps g _ (fun _ _ => h.useLine _ _ _) _ _).trans e)
  · exact (foldl_keeps g _ (fun _ _ => h.useLine _ _ _) _ _).trans e

theorem StampKeeps.stampCtrl {α : Type} {g : Dev → α} (h : StampKeeps g) (d : Dev) (b : CtrlBody) : g (stampCtrl d b).2 = g d :=
  (h.noteSetup _ _ _).trans ((h.noteLines _ _ _).trans ((h.forward _ _ _).trans (h.takeStamp d)))

theorem StampKeeps.streamCtrl {α : Type} {g : Dev → α} (h : StampKeeps g) (d : Dev) (b : CtrlBody) : g (streamCtrl d b) = g d := by
  unfold Machine.streamCtrl; (repeat' split)
  · exact h.stampCtrl d b
  · exact h.twin d _
  · rfl

theorem bare_stamp (n : Nat) : StampKeeps fun d => bare d n :=
  { bare_keeps n with twin := fun _ _ => rfl, ldg := fun _ _ => rfl, dur := fun _ _ => rfl, ftl := fun _ _ => rfl,
                      sent := fun _ _ => rfl, hall := fun _ _ => rfl, setup := fun d m st => bare_setup d n m st }

theorem modConn_keeps {α : Type} {g : Dev → α} (h : ∀ d n c, g (setConn d n c) = g d) (d : Dev) (n : Nat) (f : Conn → Conn) :
    g (modConn d n f) = g d := by unfold modConn; split; exacts [h _ _ _, rfl]

theorem ports_stamp : StampKeeps fun d => d.net.ports :=
  { ports_keeps with twin := fun _ _ => rfl, ldg := fun _ _ => rfl, dur := fun _ _ => rfl, ftl := fun _ _ => rfl,
                     sent := fun _ _ => rfl, hall := fun _ _ => rfl, setup := fun d n _ => modConn_keeps (g := fun d => d.net.ports) (fun _ _ _ => rfl) d n _ }

theorem ops_stamp : StampKeeps fun d => d.net.ops :=
  { ops_keeps with twin := fun _ _ => rfl, ldg := fun _ _ => rfl, dur := fun _ _ => rfl, ftl := fun _ _ => rfl,
                   sent := fun _ _ => rfl, hall := fun _ _ => rfl, setup := fun d n _ => modConn_keeps (g := fun d => d.net.ops) (fun _ _ _ => rfl) d n _ }

theorem reg_stamp {a : Nat} (ha : a ≠ 0x50154) : StampKeeps fun d => reg d a :=
  { reg_keeps ha with twin := fun _ _ => rfl, ldg := fun _ _ => rfl, dur := fun _ _ => rfl, ftl := fun _ _ => rfl,
                      sent := fun _ _ => rfl, hall := fun _ _ => rfl, setup := fun d n _ => modConn_keeps (g := fun d => reg d a) (fun _ _ _ => rfl) d n _ }

/-- A change of a connection's state that is legal reaches the connection, whatever the stream does. -/
theorem getConn_streamCtrl {d : Dev} {n : Nat} {c : Conn} (b : CtrlBody) (hc : getConn d n = some c) :
    ∃ q st, getConn (streamCtrl d b) n = some { c with sendq := q, setupSt := st } := bare_of ((bare_stamp n).streamCtrl d b) hc

/-! ## A connection's place in R137 -/

/-- What R137's table speaks of: identity, state, how it quiesces, its reason, and whether the client began it. -/
def place (c : Conn) : ConnIdent × ConnState × Bool × Status × Nat × Bool := (c.ident, c.state, c.abort, c.cause, c.reason, c.byClient)

def placeOf (d : Dev) (n : Nat) : Option (ConnIdent × ConnState × Bool × Status × Nat × Bool) := (getConn d n).map place

theorem placeOf_setConn (d : Dev) (m n : Nat) (c : Conn) : placeOf (setConn d m (some c)) n = if m = n then some (place c) else placeOf d n := by
  unfold placeOf; rw [getConn_setConn]; split <;> rfl

theorem placeOf_modConn (d : Dev) (m n : Nat) (f : Conn → Conn) (h : ∀ c, place (f c) = place c) : placeOf (modConn d m f) n = placeOf d n := by
  unfold placeOf; rw [getConn_modConn]
  split
  · rename_i e; subst e; rw [Option.map_map]; congr 1; funext c; exact h c
  · rfl

theorem placeOf_bare {d e : Dev} {n : Nat} (h : bare e n = bare d n) : placeOf e n = placeOf d n := by
  have := congrArg (Option.map place) h
  unfold bare at this
  rw [Option.map_map, Option.map_map] at this
  exact this

/-- A connection that is put back with its place unchanged. -/
theorem placeOf_put {d : Dev} {m : Nat} {c c' : Conn} (hc : getConn d m = some c) (h : place c' = place c) (n : Nat) :
    placeOf (setConn d m (some c')) n = placeOf d n := by
  rw [placeOf_setConn]; split
  · rename_i e; subst e; unfold placeOf; rw [hc, h]; rfl
  · rfl

theorem place_stamp (n : Nat) : StampKeeps fun d => placeOf d n :=
  { evt := fun _ _ => rfl, lost := fun _ => rfl, frame := fun d m p b => placeOf_bare (bare_queueFrame d n m p b),
    twin := fun _ _ => rfl, ldg := fun _ _ => rfl, dur := fun _ _ => rfl, ftl := fun _ _ => rfl, sent := fun _ _ => rfl,
    hall := fun _ _ => rfl, setup := fun d m _ => placeOf_modConn d m n _ fun _ => rfl }

theorem placeOf_dropOp (d : Dev) (m : Nat) (seq : Word) (n : Nat) : placeOf (dropOp d m seq) n = placeOf d n :=
  placeOf_modConn (d.modNet _) m n _ fun _ => rfl

theorem place_markExecuted (c : Conn) (seq : Word) (e : Entry) : place (markExecuted c seq e) = place c := rfl

theorem place_pushEntry (d : Dev) (c : Conn) (p : Nat) (e : Entry) (x : Option (DWord × Word × List Byte)) :
    place (pushEntry d c p e x) = place c := by unfold pushEntry; rfl

theorem placeOf_tellEnd (d : Dev) (m : Nat) (c : Conn) (e : Entry) (n : Nat) : placeOf (tellEnd d m c e) n = placeOf d n := by
  unfold tellEnd; split
  · exact placeOf_modConn d m n _ fun _ => rfl
  · exact (place_stamp n).tell d _

theorem placeOf_noteStore (d : Dev) (m : Nat) (seq : Word) (st : Option Stamp) (n : Nat) : placeOf (noteStore d m seq st) n = placeOf d n := by
  unfold noteStore; split
  · exact (place_stamp n).noteLeaves _ _ _
  · rfl

theorem placeOf_endCore (d : Dev) (o : Op) (e : Entry) (x : Option (DWord × Word × List Byte)) (n : Nat) :
    placeOf (endCore d o e x) n = placeOf d n := by
  unfold endCore
  extract_lets d0
  have h0 : placeOf d0 n = placeOf d n := placeOf_dropOp d _ _ n
  split
  · exact h0
  · rename_i c hc
    extract_lets c1 c2 sent d1
    have hs : place (dropRoute sent o.seq) = place c := by
      simp only [sent, c2, c1]
      repeat' split
      all_goals rfl
    have h1 : placeOf d1 n = placeOf d n := (placeOf_noteStore _ _ _ _ n).trans ((placeOf_put hc hs n).trans h0)
    clear_value d1
    have h2 : placeOf (modConn d1 o.conn fun c => { c with twinWritten := c.twinWritten + 1 }) n = placeOf d n :=
      (placeOf_modConn _ _ _ (fun c => { c with twinWritten := c.twinWritten + 1 }) fun _ => rfl).trans h1
    split
    · split
      · exact h2
      · exact (placeOf_tellEnd _ _ _ _ _).trans h2
    · exact h1

theorem placeOf_wakeLoop (n : Nat) : ∀ (k : Nat) (d : Dev) (ts : List Nat), placeOf (wakeLoop k d ts) n = placeOf d n
  | 0, _, _ => by simp [wakeLoop]
  | _ + 1, _, [] => by simp [wakeLoop]
  | k + 1, d, t :: ts => by
    unfold wakeLoop
    split
    · exact placeOf_wakeLoop n k d ts
    · split
      · exact (placeOf_wakeLoop n k _ _).trans (placeOf_endCore _ _ _ _ n)
      · exact placeOf_wakeLoop n k d ts

/-- An operation's end leaves every connection at its place. -/
theorem placeOf_endOp (d : Dev) (o : Op) (e : Entry) (x : Option (DWord × Word × List Byte)) (n : Nat) :
    placeOf (endOp d o e x) n = placeOf d n := (placeOf_wakeLoop n _ _ _).trans (placeOf_endCore d o e x n)

theorem placeOf_quiesceWork (d : Dev) (m : Nat) (ab : Bool) (st : Status) (n : Nat) : placeOf (quiesceWork d m ab st) n = placeOf d n := by
  unfold quiesceWork
  extract_lets gone d1
  have h : placeOf d1 n = placeOf d n := by
    refine foldl_keeps (fun d => placeOf d n) _ (fun a o => ?_) _ _
    unfold abortOp; extract_lets ex; split
    · rfl
    · exact placeOf_endOp _ _ _ _ n
  split <;> exact h

theorem placeOf_errorWork (d : Dev) (m n : Nat) : placeOf (errorWork d m) n = placeOf d n := by
  unfold errorWork
  refine foldl_keeps (fun d => placeOf d n) _ (fun a o => ?_) _ _
  split
  · rfl
  · exact placeOf_dropOp _ _ _ n

/-- A frame that leaves, with the request that asks for its next hop, changes only what was sent. -/
theorem emitTo_sent (d : Dev) (p : Nat) (ip : BitVec 128) (o : Out) : ∃ l, emitTo d p ip o = { d with sent := l } := ⟨_, rfl⟩

theorem placeOf_emitFrame (d : Dev) (m : Nat) (c : Conn) (p : Nat) (psn : Word) (t : Nat) (b : TxBody) (n : Nat) :
    placeOf (emitFrame d m c p psn t b) n = placeOf d n := by
  obtain ⟨l, e⟩ := emitTo_sent d (portOfPath d c.ident.mgmt m p) c.ident.clientIp (outFrame d m p psn t b)
  unfold emitFrame; rw [e]; rfl

theorem placeOf_sendSeq (d : Dev) (m p : Nat) (b : TxBody) (n : Nat) : placeOf (sendSeq d m p b) n = placeOf d n := by
  unfold sendSeq; split
  · rfl
  · rename_i hc
    split
    · rfl
    · split
      · rfl
      · exact (placeOf_emitFrame _ _ _ _ _ _ _ n).trans (placeOf_put hc (by rfl) n)

theorem placeOf_sendPlain (d : Dev) (m p : Nat) (b : TxBody) (n : Nat) : placeOf (sendPlain d m p b) n = placeOf d n := by
  unfold sendPlain; split
  · rfl
  · rename_i hc
    split
    · rfl
    · exact (placeOf_emitFrame _ _ _ _ _ _ _ n).trans (placeOf_put hc (by rfl) n)

theorem placeOf_sendAck (d : Dev) (m p : Nat) (n : Nat) : placeOf (sendAck d m p) n = placeOf d n := by
  unfold sendAck; split
  · rfl
  · rename_i hc
    split
    · rfl
    · exact (placeOf_sendPlain _ _ _ _ n).trans (placeOf_put hc (by rfl) n)

/-- What a change makes of a connection's place. -/
def placeAfter (c : Conn) : ConnChange → Option (ConnIdent × ConnState × Bool × Status × Nat × Bool)
  | .activate => some (place { c with state := .active })
  | .quiesce ab r st =>
    some (place { c with state := .quiescing, abort := ab, cause := st, reason := if c.state = .quiescing then c.reason else r,
                         byClient := c.byClient || (c.state = .active && r = 0x01) })
  | .disable => some (place { c with state := .disabled })
  | .fail r => some (place { c with state := .error, reason := r })
  | .free => none
  | .rearm i => some ({ i with initSeq := c.ident.initSeq, store := c.ident.store }, .armed, false, .done, c.reason, false)
  | .rearmFailed => some (place { c with ident := { c.ident with key := 0, confirmC := 0 }, state := .error })

/-- A legal change moves a connection to its place. -/
theorem placeOf_applyChange {d : Dev} {n : Nat} {c : Conn} {ch : ConnChange} (hc : getConn d n = some c) (h : changeLegal c ch = true) :
    placeOf (applyChange d n ch) n = placeAfter c ch := by
  unfold applyChange
  rw [hc]
  simp only [h, Bool.not_true, Bool.false_eq_true, if_false]
  cases ch with
  | activate => exact (placeOf_setConn _ _ _ _).trans (if_pos rfl)
  | quiesce ab r st =>
    refine (placeOf_quiesceWork _ _ _ _ n).trans ?_
    show placeOf (setConn d n _) n = _
    exact (placeOf_setConn _ _ _ _).trans (if_pos rfl)
  | disable => exact (placeOf_setConn _ _ _ _).trans (if_pos rfl)
  | fail r =>
    refine (placeOf_errorWork _ _ n).trans ?_
    show placeOf (setConn d n _) n = _
    exact (placeOf_setConn _ _ _ _).trans (if_pos rfl)
  | free =>
    show (getConn (setConn _ n none) n).map place = none
    rw [getConn_setConn, if_pos rfl]; rfl
  | rearm i => exact (placeOf_setConn _ _ _ _).trans (if_pos rfl)
  | rearmFailed => exact (placeOf_setConn _ _ _ _).trans (if_pos rfl)

theorem placeAfter_bare {c c' : Conn} (h : place c' = place c) (ch : ConnChange) : placeAfter c' ch = placeAfter c ch := by
  simp only [place, Prod.mk.injEq] at h
  obtain ⟨h1, h2, h3, h4, h5, h6⟩ := h
  cases ch <;> simp [placeAfter, place, h1, h2, h3, h4, h5, h6]

theorem changeLegal_bare {c c' : Conn} (h : place c' = place c) (ch : ConnChange) : changeLegal c' ch = changeLegal c ch := by
  simp only [place, Prod.mk.injEq] at h
  obtain ⟨h1, h2, h3, h4, h5, h6⟩ := h
  cases ch <;> simp [changeLegal, h2, h3]

/-- The serving unit's change, with its CTRL record, moves the connection to its place. -/
theorem placeOf_changeConn {d : Dev} {n : Nat} {c : Conn} {ch : ConnChange} (hc : getConn d n = some c) (h : changeLegal c ch = true) :
    placeOf (changeConn d n ch) n = placeAfter c ch := by
  obtain ⟨q, st, hq⟩ := getConn_streamCtrl (.connChange n ch) hc
  unfold changeConn
  rw [placeOf_applyChange hq ((changeLegal_bare rfl ch).trans h)]
  exact placeAfter_bare rfl ch

theorem placeOf_some {d : Dev} {n : Nat} {i : ConnIdent} {st : ConnState} {ab : Bool} {ca : Status} {r : Nat} {b : Bool}
    (h : placeOf d n = some (i, st, ab, ca, r, b)) :
    ∃ c, getConn d n = some c ∧ c.ident = i ∧ c.state = st ∧ c.abort = ab ∧ c.cause = ca ∧ c.reason = r ∧ c.byClient = b := by
  unfold placeOf at h
  cases e : getConn d n with
  | none => rw [e] at h; cases h
  | some c =>
    rw [e] at h
    simp only [Option.map_some, Option.some.injEq, place, Prod.mk.injEq] at h
    exact ⟨c, rfl, h.1, h.2.1, h.2.2.1, h.2.2.2.1, h.2.2.2.2.1, h.2.2.2.2.2⟩

/-- Sending one numbered frame leaves the reset in progress alone. -/
theorem sendSeq_rst (d : Dev) (n i : Nat) (b : TxBody) : (sendSeq d n i b).rst = d.rst := by
  unfold sendSeq
  split
  · rfl
  · split
    · rfl
    · split
      · rfl
      · unfold emitFrame
        rw [(emitTo_sent _ _ _ _).choose_spec]; rfl

/-- A connection enters ERROR for a cause of R138, unless a reset frees it. -/
theorem placeOf_toError {d : Dev} {n reason : Nat} {c : Conn} (hc : getConn d n = some c) (hs : serving d = true)
    (hm : maySend c = true) (hf : d.rst.freeAfter.contains n = false) :
    placeOf (toError d n reason) n = some (c.ident, .error, c.abort, c.cause, reason, c.byClient) := by
  unfold toError
  rw [hc]
  simp only [hs, hm, Bool.not_true, Bool.or_false, Bool.false_eq_true, if_false]
  have key : ∀ e : Dev, placeOf e n = placeOf d n → placeOf (changeConn e n (.fail reason)) n =
      some (c.ident, .error, c.abort, c.cause, reason, c.byClient) := by
    intro e he
    have : placeOf e n = some (place c) := by rw [he]; unfold placeOf; rw [hc]; rfl
    obtain ⟨c', h1, h2, h3, h4, h5, h6, h7⟩ := placeOf_some this
    have hl : place c' = place c := by simp [place, h2, h3, h4, h5, h6, h7]
    have hleg : changeLegal c' (.fail reason) = true := by
      rw [changeLegal_bare hl]
      simp only [maySend, Bool.or_eq_true, decide_eq_true_eq] at hm
      rcases hm with h | h <;> simp [changeLegal, h]
    rw [placeOf_changeConn h1 hleg, placeAfter_bare hl]; rfl
  have hfree : ∀ e : Dev, e.rst = d.rst → freeAfterReset e n = e := by
    intro e he; unfold freeAfterReset; rw [he, hf]; rfl
  have hrst : ∀ e : Dev, e.rst = d.rst → (changeConn e n (.fail reason)).rst = d.rst := by
    intro e he
    unfold changeConn applyChange
    have h1 : (streamCtrl e (.connChange n (.fail reason))).rst = d.rst := by
      unfold streamCtrl; repeat' split
      all_goals first | exact he | (simp [he])
    split
    · exact h1
    · split
      · exact h1
      · unfold errorWork
        have : ∀ (l : List Op) (x : Dev), (l.foldl (fun a o => if o.stamp.isSome then a else forgetOp a o) x).rst = x.rst := fun l x =>
          foldl_keeps (fun d => d.rst) _ (fun a o => by
            split
            · rfl
            · unfold forgetOp dropOp modConn; split <;> rfl) l x
        exact (this _ _).trans h1
  split
  · rw [hfree _ (hrst d rfl)]; exact key d rfl
  · have h1 : placeOf (sendDisconnect d n c reason) n = placeOf d n := by
      unfold sendDisconnect; split
      · exact placeOf_sendSeq _ _ _ _ n
      · rfl
    have h2 : (sendDisconnect d n c reason).rst = d.rst := by
      unfold sendDisconnect; split
      · exact sendSeq_rst _ _ _ _
      · rfl
    rw [hfree _ (hrst _ h2)]; exact key _ h1

end Sys2Proof.Machine
end

