-- ==== Sys2Proof/Laws/MemTwin.lean ====
section
/-! SUPPORT. What the memory is after the standby and the twin link: a `_mem` lemma says that an operation leaves
every byte as it was, a `_wf` lemma that it keeps the canonical form. -/
namespace Sys2Proof.Machine

/-! ## Machine/Standby.lean -/

@[simp] theorem leaveWith_mem (d a1) : (leaveWith d a1).mem = d.mem := by
  unfold leaveWith; (try dsimp only); split <;> simp

@[simp] theorem abandonJoin_mem (d) : (abandonJoin d).mem = d.mem := by
  unfold abandonJoin; (try dsimp only); split <;> simp

@[simp] theorem sendWit_mem (d a1) : (sendWit d a1).mem = d.mem := by
  rfl

@[simp] theorem twinGone_mem (d) : (twinGone d).mem = d.mem := by
  unfold twinGone; (try dsimp only); (repeat' split) <;> first | (simp; done) | rfl

@[simp] theorem streamFault_mem (d) : (streamFault d).mem = d.mem := by
  unfold streamFault; (try dsimp only); split <;> simp

theorem restoreLeaf_wf (b d l) (h : memWf d.mem = true) : memWf (restoreLeaf b d l).mem = true := by
  unfold restoreLeaf
  exact memWf_foldl _ (fun _ _ h => memWf_writeByte _ _ h) _ (memWf_zeroBytes _ _ h)

theorem maskedRun_wf (d a1 g0) (hg0 : ∀ x0, memWf x0.mem = true → memWf (g0 x0).mem = true) (hd : memWf d.mem = true) : memWf (maskedRun d a1 g0).mem = true := by
  unfold maskedRun; (repeat' first | with_reducible assumption | with_reducible apply restoreLeaf_wf | with_reducible apply hg0 | with_reducible apply foldl_wf | simp only [Dev.modDur_mem] | split | intro _ | exact memWf_nil)

@[simp] theorem sendEntry_mem (d a1 a2) : (sendEntry d a1 a2).mem = d.mem := by
  unfold sendEntry; (try dsimp only); (repeat' split) <;> first | (simp; done) | rfl

@[simp] theorem standbyEntry_mem (d a1 a2 a3) : (standbyEntry d a1 a2 a3).mem = d.mem := by
  unfold standbyEntry; (try dsimp only); (repeat' split) <;> first | (simp; done) | rfl

@[simp] theorem sendRepairs_mem (d a1 a2) : (sendRepairs d a1 a2).mem = d.mem := by
  unfold sendRepairs; (try dsimp only); (repeat' first | (simp; done) | (refine (foldl_mem _ _ (fun _ _ => ?_) _).trans ?_) | split)

@[simp] theorem applied_mem (d a1) : (applied d a1).mem = d.mem := by
  simp [applied]

@[simp] theorem repairWaits_mem (d a1 a2 a3 a4 a5) : (repairWaits d a1 a2 a3 a4 a5).mem = d.mem := by
  rfl

theorem applyOp_wf (d a1 a2 a3 a4) (hd : memWf d.mem = true) : memWf (applyOp d a1 a2 a3 a4).mem = true := by
  unfold applyOp; (repeat' first | with_reducible assumption | with_reducible apply runDesc_wf | with_reducible apply maskedRun_wf | with_reducible apply foldl_wf | simp only [applied_mem, sendRepairs_mem, Dev.modDur_mem, noteChanged_mem, repairWaits_mem, sendRecs_mem, standbyEntry_mem] | split | intro _ | exact memWf_nil)

theorem applyGroup_wf (d st conn gen ms) (h : memWf d.mem = true) : memWf (applyGroup d st conn gen ms).mem = true := by
  unfold applyGroup
  split
  · rw [applied_mem]; exact h
  · rename_i c _
    extract_lets f os d1 ls wait work run d0 r d2
    have h1 : memWf d1.mem = true := by simp only [d1, sendRepairs_mem, applied_mem]; exact h
    clear_value d1
    have h2 : memWf d2.mem = true := by
      simp only [d2, noteChanged_mem]
      refine maskedRun_wf _ _ _ (fun a ha => ?_) h1
      simp only [run]
      split
      · rename_i hr; exact runMembers_wf _ _ _ _ _ _ ha hr
      · exact ha
    clear_value d2
    split
    · exact foldl_wf _ _ (fun a e ha => by rw [repairWaits_mem]; exact ha) _ h2
    · exact foldl_wf _ _ (fun a e ha => by rw [standbyEntry_mem]; exact ha) _ h2

theorem applyCtrlRec_wf (d a1 a2) (hd : memWf d.mem = true) : memWf (applyCtrlRec d a1 a2).mem = true := by
  unfold applyCtrlRec; (repeat' first | with_reducible assumption | with_reducible apply maskedRun_wf | with_reducible apply applyCtrl_wf | with_reducible apply foldl_wf | simp only [applied_mem, noteLines_mem] | split | intro _ | exact memWf_nil)

@[simp] theorem takeEnd_mem (d a1 a2) : (takeEnd d a1 a2).mem = d.mem := by
  unfold takeEnd; (try dsimp only); (repeat' split) <;> first | (simp; done) | rfl

@[simp] theorem takeIndex_mem (d a1 a2 a3 a4 a5) : (takeIndex d a1 a2 a3 a4 a5).mem = d.mem := by
  simp [takeIndex]

@[simp] theorem takeRdata_mem (d a1 a2 a3 a4 a5) : (takeRdata d a1 a2 a3 a4 a5).mem = d.mem := by
  unfold takeRdata; (try dsimp only); (repeat' split) <;> first | (simp; done) | rfl

@[simp] theorem takeLevel_mem (d a1) : (takeLevel d a1).mem = d.mem := by
  unfold takeLevel; (try dsimp only); (repeat' first | (simp; done) | (refine (foldl_mem _ _ (fun _ _ => ?_) _).trans ?_) | split)

@[simp] theorem leafEntry_mem (d a1 a2) : (leafEntry d a1 a2).mem = d.mem := by
  unfold leafEntry; (try dsimp only); (repeat' split) <;> first | (simp; done) | rfl

@[simp] theorem flushFins_mem (d) : (flushFins d).mem = d.mem := by
  simp [flushFins]

theorem installLeaf_wf (d pa p bs es ct) (h : memWf d.mem = true) : memWf (installLeaf d pa p bs es ct).mem = true := by
  rw [installLeaf]
  rw [flushFins_mem, foldl_mem _ _ (fun _ _ => by simp)]
  have h1 : memWf (markDirty d).mem = true := by rw [markDirty_mem]; exact h
  rw [ite_mem (rebuildFolds_mem _), Dev.modFtl_mem, Dev.modTwin_mem, Dev.modDur_mem]
  split
  · rw [installControl_mem]; exact h1
  · exact memWf_writeBytes _ _ (memWf_zeroBytes _ _ h1)

@[simp] theorem sayReady_mem (d) : (sayReady d).mem = d.mem := by
  unfold sayReady; (try dsimp only); split <;> simp

theorem applyRec_wf (d a1) (hd : memWf d.mem = true) : memWf (applyRec d a1).mem = true := by
  unfold applyRec; (repeat' first | with_reducible assumption | with_reducible apply applyOp_wf | with_reducible apply applyGroup_wf | with_reducible apply applyCtrlRec_wf | with_reducible apply installLeaf_wf | with_reducible apply foldl_wf | simp only [takeEnd_mem, takeIndex_mem, takeRdata_mem, takeLevel_mem] | split | intro _ | exact memWf_nil)

theorem drainHeld_wf (n d) (h : memWf d.mem = true) : memWf (drainHeld n d).mem = true := by
  induction n generalizing d with
  | zero => exact h
  | succ n ih =>
    simp only [drainHeld]
    split
    · exact h
    · split
      · exact h
      · split
        · split
          · exact ih _ (applyRec_wf _ _ (by rw [Dev.modTwin_mem]; exact h))
          · rw [leaveWith_mem, Dev.modTwin_mem]; exact h
        · exact ih _ (applyRec_wf _ _ (by rw [Dev.modTwin_mem]; exact h))

theorem takeStream_wf (d a1) (hd : memWf d.mem = true) : memWf (takeStream d a1).mem = true := by
  unfold takeStream; (repeat' first | with_reducible assumption | with_reducible apply drainHeld_wf | with_reducible apply foldl_wf | simp only [Dev.modTwin_mem, sayReady_mem] | split | intro _ | exact memWf_nil)

@[simp] theorem answerRepair_mem (d a1 a2) : (answerRepair d a1 a2).mem = d.mem := by
  simp [answerRepair]

@[simp] theorem takeFin_mem (d a1) : (takeFin d a1).mem = d.mem := by
  simp [takeFin]

@[simp] theorem takeSet_mem (d a1 a2 a3) : (takeSet d a1 a2 a3).mem = d.mem := by
  unfold takeSet; (try dsimp only); split <;> simp

@[simp] theorem failUnproved_mem (d) : (failUnproved d).mem = d.mem := by
  unfold failUnproved; (try dsimp only); (repeat' first | (simp; done) | (refine (foldl_mem _ _ (fun _ _ => ?_) _).trans ?_) | split)

@[simp] theorem takeReady_mem (d) : (takeReady d).mem = d.mem := by
  unfold takeReady; (try dsimp only); split <;> simp

theorem handleRec_wf (d a1) (hd : memWf d.mem = true) : memWf (handleRec d a1).mem = true := by
  unfold handleRec; (repeat' first | with_reducible assumption | with_reducible apply takeStream_wf | with_reducible apply foldl_wf | simp only [streamFault_mem, Dev.modTwin_mem, sayReady_mem, takeFin_mem, answerRepair_mem, takeReady_mem, twinGone_mem, takeSet_mem] | split | intro _ | exact memWf_nil)

@[simp] theorem recArrives_mem (g0 d) (hg0 : ∀ x0, (g0 x0).mem = x0.mem) : (recArrives g0 d).mem = d.mem := by
  unfold recArrives; (try dsimp only); (repeat' first | rfl | (simp_all; done) | (refine (foldl_mem _ _ (fun _ _ => ?_) _).trans ?_) | split)

theorem recArrives_wf (g0 d) (hg0 : ∀ x0, memWf x0.mem = true → memWf (g0 x0).mem = true) (hd : memWf d.mem = true) : memWf (recArrives g0 d).mem = true := by
  unfold recArrives; (repeat' first | with_reducible assumption | with_reducible apply hg0 | with_reducible apply foldl_wf | split | intro _ | exact memWf_nil)

@[simp] theorem repairLate_mem (a1 d) : (repairLate a1 d).mem = d.mem := by
  unfold repairLate; (try dsimp only); split <;> simp

@[simp] theorem budgetWait_mem (d) : (budgetWait d).mem = d.mem := by
  unfold budgetWait; (try dsimp only); (repeat' split) <;> first | (simp; done) | rfl

@[simp] theorem sendLeaf_mem (d) : (sendLeaf d).mem = d.mem := by
  unfold sendLeaf; (try dsimp only); (repeat' split) <;> first | (simp; done) | rfl

/-! ## Machine/Link.lean -/

@[simp] theorem twlMalf_mem (d) : (twlMalf d).mem = d.mem := by
  rfl

@[simp] theorem twlAuth_mem (d) : (twlAuth d).mem = d.mem := by
  unfold twlAuth; (try dsimp only); split <;> simp

@[simp] theorem takeLack_mem (d a1) : (takeLack d a1).mem = d.mem := by
  simp [takeLack]

theorem takePeer_wf (d a1) (hd : memWf d.mem = true) : memWf (takePeer d a1).mem = true := by
  unfold takePeer; (repeat' first | with_reducible assumption | with_reducible apply settleFully_wf | with_reducible apply foldl_wf | simp only [Dev.modTwin_mem, completeAll_mem] | split | intro _ | exact memWf_nil)

theorem twFrame_wf (a1 g0 d) (hg0 : ∀ x0, memWf x0.mem = true → memWf (g0 x0).mem = true) (hd : memWf d.mem = true) : memWf (twFrame a1 g0 d).mem = true := by
  unfold twFrame; (repeat' first | with_reducible assumption | with_reducible apply takePeer_wf | with_reducible apply hg0 | with_reducible apply foldl_wf | simp only [twlMalf_mem, twlAuth_mem, takeLack_mem] | split | intro _ | exact memWf_nil)

@[simp] theorem takeFrag_mem (g0 d a1) (hg0 : ∀ x0 x1, (g0 x0 x1).mem = x0.mem) : (takeFrag g0 d a1).mem = d.mem := by
  unfold takeFrag; (try dsimp only); (repeat' first | rfl | (simp_all; done) | (refine (foldl_mem _ _ (fun _ _ => ?_) _).trans ?_) | split)

theorem takeFrag_wf (g0 d a1) (hg0 : ∀ x0 x1, memWf x0.mem = true → memWf (g0 x0 x1).mem = true) (hd : memWf d.mem = true) : memWf (takeFrag g0 d a1).mem = true := by
  unfold takeFrag; (repeat' first | with_reducible assumption | with_reducible apply hg0 | with_reducible apply foldl_wf | simp only [streamFault_mem, Dev.modTwin_mem] | split | intro _ | exact memWf_nil)

@[simp] theorem takeRecords_mem (g0 a1 a2 a3 d) (hg0 : ∀ x0 x1, (g0 x0 x1).mem = x0.mem) : (takeRecords g0 a1 a2 a3 d).mem = d.mem := by
  unfold takeRecords; (try dsimp only); (repeat' first | rfl | (simp_all; done) | (refine (foldl_mem _ _ (fun _ _ => ?_) _).trans ?_) | split)

theorem takeRecords_wf (g0 a1 a2 a3 d) (hg0 : ∀ x0 x1, memWf x0.mem = true → memWf (g0 x0 x1).mem = true) (hd : memWf d.mem = true) : memWf (takeRecords g0 a1 a2 a3 d).mem = true := by
  unfold takeRecords; (repeat' first | with_reducible assumption | with_reducible apply takeFrag_wf | with_reducible apply hg0 | with_reducible apply foldl_wf | simp only [Dev.modTwin_mem, streamFault_mem, takeFrag_mem] | split | intro _ | exact memWf_nil)

@[simp] theorem sendAckFrame_mem (d) : (sendAckFrame d).mem = d.mem := by
  unfold sendAckFrame; (try dsimp only); split <;> rfl

@[simp] theorem resendAll_mem (d) : (resendAll d).mem = d.mem := by
  unfold resendAll; (try dsimp only); (repeat' first | (simp; done) | (refine (foldl_mem _ _ (fun _ _ => ?_) _).trans ?_) | split)

@[simp] theorem rekeyLink_mem (d) : (rekeyLink d).mem = d.mem := by
  simp [rekeyLink]

@[simp] theorem sendHello_mem (d) : (sendHello d).mem = d.mem := by
  unfold sendHello; (try dsimp only); (repeat' split) <;> first | (simp; done) | rfl

@[simp] theorem newNonce_mem (d) : (newNonce d).mem = d.mem := by
  simp [newNonce]

@[simp] theorem beginJoin_mem (d) : (beginJoin d).mem = d.mem := by
  simp [beginJoin]

@[simp] theorem announce_mem (d) : (announce d).mem = d.mem := by
  rw [announce, sendRecs_mem, foldl_mem _ _ (fun _ _ => foldl_mem _ _ (fun _ _ => by simp) _)]

@[simp] theorem becomeStandby_mem (d m) : (becomeStandby d m).mem = d.mem := by
  simp [becomeStandby]

@[simp] theorem becomeActive_mem (d) : (becomeActive d).mem = d.mem := by
  unfold becomeActive; (try dsimp only); split <;> simp

@[simp] theorem nextSeed_mem (d) : (nextSeed d).mem = d.mem := by
  rfl

@[simp] theorem followReseed_mem (d) : (followReseed d).mem = d.mem := by
  simp [followReseed]

theorem endReseed_wf (d) (hd : memWf d.mem = true) : memWf (endReseed d).mem = true := by
  unfold endReseed; (repeat' first | with_reducible assumption | with_reducible apply settleFully_wf | with_reducible apply foldl_wf | simp only [Dev.modTwin_mem, sendWit_mem] | split | intro _ | exact memWf_nil)

@[simp] theorem timeWarned_mem (d m) : (timeWarned d m).mem = d.mem := ite_mem (raiseOp_mem _ _ _ _)

theorem pairedHello_wf (d a1) (hd : memWf d.mem = true) : memWf (pairedHello d a1).mem = true := by
  have h1 : memWf (timeWarned d a1).mem = true := by rw [timeWarned_mem]; exact hd
  rw [pairedHello]
  generalize timeWarned d a1 = d1 at h1
  split
  · rw [followReseed_mem]; exact h1
  · split
    · exact endReseed_wf _ h1
    · exact h1

@[simp] theorem pairUp_mem (d a1 a2) : (pairUp d a1 a2).mem = d.mem := by
  unfold pairUp; (try dsimp only); (repeat' split) <;> first | (simp; done) | rfl

@[simp] theorem notSource_mem (d) : (notSource d).mem = d.mem := by
  rfl

@[simp] theorem heard_mem (d) : (heard d).mem = d.mem := by
  unfold heard; (try dsimp only); split <;> rfl

@[simp] theorem apartHello_mem (d a1 a2) : (apartHello d a1 a2).mem = d.mem := by
  unfold apartHello; (try dsimp only); (repeat' split) <;> first | (simp; done) | rfl

theorem takeHello_wf (a1 d) (hd : memWf d.mem = true) : memWf (takeHello a1 d).mem = true := by
  unfold takeHello
  split
  · exact hd
  · split
    · exact hd
    · split
      · simpa using hd
      · split
        · simpa using hd
        · extract_lets rekey d0 d1
          have h1 : memWf d1.mem = true := by simp only [d1, d0]; split <;> simpa using hd
          clear_value d1
          split
          · simpa using h1
          · split
            · exact pairedHello_wf _ _ h1
            · exact pairedHello_wf _ _ h1
            · split
              · simpa using h1
              · split <;> simpa using h1
            · simpa using h1
            · simpa using h1

@[simp] theorem endRelays_mem (d) : (endRelays d).mem = d.mem := by
  unfold endRelays; (try dsimp only); (repeat' first | (simp; done) | (refine (foldl_mem _ _ (fun _ _ => ?_) _).trans ?_) | split)

@[simp] theorem twlDown_mem (a1 d) : (twlDown a1 d).mem = d.mem := by
  unfold twlDown; (try dsimp only); split <;> simp

@[simp] theorem twlUp_mem (a1 d) : (twlUp a1 d).mem = d.mem := by
  unfold twlUp; (try dsimp only); (repeat' split) <;> first | (simp; done) | rfl

@[simp] theorem answered_mem (a1 g0 d) (hg0 : ∀ x0 x1 x2 x3, (g0 x0 x1 x2 x3).mem = x3.mem) : (answered a1 g0 d).mem = d.mem := by
  unfold answered; (try dsimp only); (repeat' first | rfl | (simp_all; done) | (refine (foldl_mem _ _ (fun _ _ => ?_) _).trans ?_) | split)

theorem answered_wf (a1 g0 d) (hg0 : ∀ x0 x1 x2 x3, memWf x3.mem = true → memWf (g0 x0 x1 x2 x3).mem = true) (hd : memWf d.mem = true) : memWf (answered a1 g0 d).mem = true := by
  unfold answered; (repeat' first | with_reducible assumption | with_reducible apply hg0 | with_reducible apply foldl_wf | simp only [twlMalf_mem, Dev.modTwin_mem] | split | intro _ | exact memWf_nil)

theorem witGrant_wf (a1 d) (hd : memWf d.mem = true) : memWf (witGrant a1 d).mem = true := by
  unfold witGrant; (repeat' first | with_reducible assumption | with_reducible apply settleFully_wf | with_reducible apply answered_wf | with_reducible apply foldl_wf | simp only [answered_mem, Dev.modTwin_mem, startServing_mem, sendHello_mem, sendWit_mem, protection_mem] | split | intro _ | exact memWf_nil)

@[simp] theorem witDeny_mem (a1 d) : (witDeny a1 d).mem = d.mem := by
  unfold witDeny; (try dsimp only); (repeat' first | rfl | (refine (answered_mem _ _ _ ?_).trans ?_) | (simp; done) | (simp_all; done) | (refine (foldl_mem _ _ (fun _ _ => ?_) _).trans ?_) | intro _ | split)

theorem witDone_wf (a1 d) (hd : memWf d.mem = true) : memWf (witDone a1 d).mem = true := by
  unfold witDone; (repeat' first | with_reducible assumption | with_reducible apply goUnpaired_wf | with_reducible apply stopServing_wf | with_reducible apply answered_wf | with_reducible apply foldl_wf | simp only [answered_mem, sendWit_mem, Dev.modTwin_mem, becomeActive_mem, announce_mem, sendRecs_mem, sendHello_mem] | split | intro _ | exact memWf_nil)

@[simp] theorem witLate_mem (d) : (witLate d).mem = d.mem := by
  unfold witLate; (try dsimp only); split <;> simp

@[simp] theorem renew_mem (d) : (renew d).mem = d.mem := by
  unfold renew; (try dsimp only); split <;> rfl

@[simp] theorem claim_mem (d) : (claim d).mem = d.mem := by
  unfold claim; (try dsimp only); (repeat' split) <;> first | (simp; done) | rfl

theorem fence_wf (d) (hd : memWf d.mem = true) : memWf (fence d).mem = true := by
  unfold fence; (repeat' first | with_reducible assumption | with_reducible apply stopServing_wf | with_reducible apply foldl_wf | simp only [sendRecs_mem] | split | intro _ | exact memWf_nil)

theorem leaseOver_wf (d) (hd : memWf d.mem = true) : memWf (leaseOver d).mem = true := by
  unfold leaseOver; (repeat' first | with_reducible assumption | with_reducible apply fence_wf | with_reducible apply foldl_wf | simp only [raiseOp_mem, Dev.modTwin_mem] | split | intro _ | exact memWf_nil)

@[simp] theorem linkWait_mem (d) : (linkWait d).mem = d.mem := by
  unfold linkWait; (try dsimp only); split <;> rfl

@[simp] theorem soloWait_mem (d) : (soloWait d).mem = d.mem := by
  unfold soloWait; (try dsimp only); split <;> rfl

@[simp] theorem missed_mem (d) : (missed d).mem = d.mem := by
  unfold missed; (try dsimp only); (repeat' split) <;> first | (simp; done) | rfl

@[simp] theorem sendBeat_mem (d) : (sendBeat d).mem = d.mem := by
  unfold sendBeat; (try dsimp only); split <;> rfl

@[simp] theorem heartbeatSend_mem (d) : (heartbeatSend d).mem = d.mem := by
  unfold heartbeatSend; (try dsimp only); split <;> simp

@[simp] theorem beatOn_mem (a1 d) : (beatOn a1 d).mem = d.mem := by
  simp [beatOn]

@[simp] theorem heartbeatRecv_mem (a1 a2 a3 d) : (heartbeatRecv a1 a2 a3 d).mem = d.mem := by
  unfold heartbeatRecv; (try dsimp only); (repeat' split) <;> first | (simp; done) | rfl

@[simp] theorem twnRun_mem (g0 d) (hg0 : ∀ x0, (g0 x0).mem = x0.mem) : (twnRun g0 d).1.mem = d.mem := by
  unfold twnRun; (try dsimp only); (repeat' first | rfl | (simp_all; done) | (refine (foldl_mem _ _ (fun _ _ => ?_) _).trans ?_) | split)

theorem twnRun_wf (g0 d) (hg0 : ∀ x0, memWf x0.mem = true → memWf (g0 x0).mem = true) (hd : memWf d.mem = true) : memWf (twnRun g0 d).1.mem = true := by
  unfold twnRun; (repeat' first | with_reducible assumption | with_reducible apply hg0 | with_reducible apply foldl_wf | simp only [setReg_mem] | split | intro _ | exact memWf_nil)

@[simp] theorem twnCmd_mem (a1 g0 d) (hg0 : ∀ x0, (g0 x0).mem = x0.mem) : (twnCmd a1 g0 d).mem = d.mem := by
  unfold twnCmd; (try dsimp only); (repeat' first | rfl | (simp_all; done) | (refine (foldl_mem _ _ (fun _ _ => ?_) _).trans ?_) | split)

theorem twnCmd_wf (a1 g0 d) (hg0 : ∀ x0, memWf x0.mem = true → memWf (g0 x0).mem = true) (hd : memWf d.mem = true) : memWf (twnCmd a1 g0 d).mem = true := by
  unfold twnCmd; (repeat' first | with_reducible assumption | with_reducible apply command_wf | with_reducible apply twnRun_wf | with_reducible apply hg0 | with_reducible apply foldl_wf | simp only [command_mem, twnRun_mem] | split | intro _ | exact memWf_nil)

@[simp] theorem setTest_mem (a1 d) : (setTest a1 d).mem = d.mem := by
  rfl

@[simp] theorem cmdResult_mem (d a1) : (cmdResult d a1).mem = d.mem := by
  rfl

@[simp] theorem confirmed_mem (a1 g0 d) (hg0 : ∀ x0, (g0 x0).mem = x0.mem) : (confirmed a1 g0 d).mem = d.mem := by
  unfold confirmed; (try dsimp only); (repeat' first | rfl | (simp_all; done) | (refine (foldl_mem _ _ (fun _ _ => ?_) _).trans ?_) | split)

theorem confirmed_wf (a1 g0 d) (hg0 : ∀ x0, memWf x0.mem = true → memWf (g0 x0).mem = true) (hd : memWf d.mem = true) : memWf (confirmed a1 g0 d).mem = true := by
  unfold confirmed; (repeat' first | with_reducible assumption | with_reducible apply hg0 | with_reducible apply foldl_wf | simp only [cmdResult_mem] | split | intro _ | exact memWf_nil)

@[simp] theorem swap_mem (d) : (swap d).mem = d.mem := by
  unfold swap; (try dsimp only); split <;> simp

@[simp] theorem swapDrained_mem (d) : (swapDrained d).mem = d.mem := by
  unfold swapDrained; (try dsimp only); split <;> rfl

@[simp] theorem handoverLate_mem (d) : (handoverLate d).mem = d.mem := by
  unfold handoverLate; (try dsimp only); split <;> rfl

@[simp] theorem reseed_mem (d) : (reseed d).mem = d.mem := by
  unfold reseed; (try dsimp only); split <;> rfl

theorem reseedDrained_wf (d) (hd : memWf d.mem = true) : memWf (reseedDrained d).mem = true := by
  unfold reseedDrained; (repeat' first | with_reducible assumption | with_reducible apply settleFully_wf | with_reducible apply foldl_wf | simp only [newNonce_mem, Dev.modTwin_mem, nextSeed_mem, sendHello_mem] | split | intro _ | exact memWf_nil)

@[simp] theorem forceUnpaired_mem (d) : (forceUnpaired d).mem = d.mem := by
  unfold forceUnpaired; (try dsimp only); split <;> simp

theorem clearOverride_wf (d) (hd : memWf d.mem = true) : memWf (clearOverride d).mem = true := by
  unfold clearOverride; (repeat' first | with_reducible assumption | with_reducible apply stopServing_wf | with_reducible apply foldl_wf | simp only [cmdResult_mem, sendHello_mem, newNonce_mem, raiseOp_mem, Dev.modTwin_mem] | split | intro _ | exact memWf_nil)

theorem setWindow_wf (a1 d) (hd : memWf d.mem = true) : memWf (setWindow a1 d).mem = true := by
  unfold setWindow; (repeat' first | with_reducible assumption | with_reducible apply issueCtrl_wf | with_reducible apply foldl_wf | simp only [cmdResult_mem] | split | intro _ | exact memWf_nil)

@[simp] theorem windowOver_mem (d) : (windowOver d).mem = d.mem := by
  rfl

@[simp] theorem provision_mem (d) : (provision d).mem = d.mem := by
  unfold provision; (try dsimp only); split <;> simp

end Sys2Proof.Machine
end

