-- ==== Sys2Proof/Laws/MemMedia.lean ====
section
/-! SUPPORT. What the memory is after DRAM, the pen caches, supplies and the restore from flash: a `_mem` lemma says that an operation leaves
every byte as it was, a `_wf` lemma that it keeps the canonical form. -/
namespace Sys2Proof.Machine

/-! ## Machine/Dram.lean -/

@[simp] theorem modChan_mem (d a1 a2) : (modChan d a1 a2).mem = d.mem := by
  rfl

@[simp] theorem modSub_mem (d a1 a2 a3) : (modSub d a1 a2 a3).mem = d.mem := by
  rfl

@[simp] theorem onSub_mem (a1 a2 g0 d) (hg0 : ∀ x0 x1 x2, (g0 x0 x1 x2).mem = x2.mem) : (onSub a1 a2 g0 d).mem = d.mem := by
  unfold onSub; (try dsimp only); (repeat' first | rfl | (simp_all; done) | (refine (foldl_mem _ _ (fun _ _ => ?_) _).trans ?_) | split)

theorem onSub_wf (a1 a2 g0 d) (hg0 : ∀ x0 x1 x2, memWf x2.mem = true → memWf (g0 x0 x1 x2).mem = true) (hd : memWf d.mem = true) : memWf (onSub a1 a2 g0 d).mem = true := by
  unfold onSub; (repeat' first | with_reducible assumption | with_reducible apply hg0 | with_reducible apply foldl_wf | split | intro _ | exact memWf_nil)

@[simp] theorem dramAsk_mem (a1 a2 a3 d) : (dramAsk a1 a2 a3 d).mem = d.mem := by
  unfold dramAsk; (try dsimp only); (repeat' first | rfl | (refine (onSub_mem _ _ _ _ ?_).trans ?_) | (simp; done) | (simp_all; done) | (refine (foldl_mem _ _ (fun _ _ => ?_) _).trans ?_) | intro _ | split)

@[simp] theorem targetWrite_mem (a1 a2 a3 d) : (targetWrite a1 a2 a3 d).mem = d.mem := by
  unfold targetWrite; split <;> rfl

@[simp] theorem raiseUrgency_mem (a1 a2 a3 d) : (raiseUrgency a1 a2 a3 d).mem = d.mem := by
  unfold raiseUrgency; (try dsimp only); (repeat' first | rfl | (refine (onSub_mem _ _ _ _ ?_).trans ?_) | (simp; done) | (simp_all; done) | (refine (foldl_mem _ _ (fun _ _ => ?_) _).trans ?_) | intro _ | split)

@[simp] theorem landWrite_mem (d a1 a2 a3) : (landWrite d a1 a2 a3).mem = d.mem := by
  unfold landWrite; (try dsimp only); (repeat' split) <;> first | (simp; done) | rfl

@[simp] theorem issueReq_mem (d a1 a2 a3 a4 a5) : (issueReq d a1 a2 a3 a4 a5).mem = d.mem := by
  unfold issueReq; (try dsimp only); split <;> simp

@[simp] theorem serveReq_mem (d a1 a2 a3 a4 a5 a6) : (serveReq d a1 a2 a3 a4 a5 a6).mem = d.mem := by
  unfold serveReq; (try dsimp only); (repeat' split) <;> first | (simp; done) | rfl

@[simp] theorem replayOne_mem (d a1 a2 a3 a4) : (replayOne d a1 a2 a3 a4).mem = d.mem := by
  unfold replayOne; (try dsimp only); split <;> simp

@[simp] theorem issueSlot_mem (c s now d) : (issueSlot c s now d).mem = d.mem := by
  unfold issueSlot
  refine onSub_mem _ _ _ _ (fun x u d => ?_)
  split
  · rfl
  · extract_lets cyc u1 d1
    have h1 : d1.mem = d.mem := modSub_mem _ _ _ _
    clear_value d1 u1
    (repeat' split) <;> simp [h1]

@[simp] theorem refreshDue_mem (a1 a2 a3 d) : (refreshDue a1 a2 a3 d).mem = d.mem := by
  unfold refreshDue; (try dsimp only); (repeat' first | rfl | (refine (onSub_mem _ _ _ _ ?_).trans ?_) | (simp; done) | (simp_all; done) | (refine (foldl_mem _ _ (fun _ _ => ?_) _).trans ?_) | intro _ | split)

@[simp] theorem rowIdle_mem (a1 a2 a3 a4 d) : (rowIdle a1 a2 a3 a4 d).mem = d.mem := by
  simp [rowIdle]

@[simp] theorem correction_mem (d a1 a2 a3) : (correction d a1 a2 a3).mem = d.mem := by
  unfold correction; (try dsimp only); (repeat' split) <;> first | (simp; done) | rfl

@[simp] theorem returnData_mem (d a1 a2 a3 a4) : (returnData d a1 a2 a3 a4).mem = d.mem := by
  rfl

@[simp] theorem readData_mem (a1 a2 a3 a4 a5 d) : (readData a1 a2 a3 a4 a5 d).mem = d.mem := by
  unfold readData; (try dsimp only); (repeat' first | rfl | (refine (onSub_mem _ _ _ _ ?_).trans ?_) | (simp; done) | (simp_all; done) | (refine (foldl_mem _ _ (fun _ _ => ?_) _).trans ?_) | intro _ | split)

@[simp] theorem leakCe_mem (a1 d) : (leakCe a1 d).mem = d.mem := by
  rfl

@[simp] theorem alert_mem (a1 a2 d) : (alert a1 a2 d).mem = d.mem := by
  unfold alert; (try dsimp only); (repeat' first | rfl | (refine (onSub_mem _ _ _ _ ?_).trans ?_) | (simp; done) | (simp_all; done) | (refine (foldl_mem _ _ (fun _ _ => ?_) _).trans ?_) | intro _ | split)

theorem channelFault_wf (a1 a2 d) (hd : memWf d.mem = true) : memWf (channelFault a1 a2 d).mem = true := by
  unfold channelFault; (repeat' first | with_reducible assumption | with_reducible apply fence_wf | with_reducible apply foldl_wf | simp only [modChan_mem, setReg_mem, raiseOp_mem, enterState_mem, leavePair_mem, Dev.modDur_mem, Dev.modTwin_mem] | split | intro _ | exact memWf_nil)

theorem alertRelease_wf (a1 a2 d) (hd : memWf d.mem = true) : memWf (alertRelease a1 a2 d).mem = true := by
  unfold alertRelease; (repeat' first | with_reducible assumption | with_reducible apply channelFault_wf | with_reducible apply onSub_wf | with_reducible apply foldl_wf | simp only [onSub_mem, modSub_mem] | split | intro _ | exact memWf_nil)

@[simp] theorem dimmTemp_mem (a1 a2 d) : (dimmTemp a1 a2 d).mem = d.mem := by
  unfold dimmTemp; (try dsimp only); (repeat' split) <;> first | (simp; done) | rfl

@[simp] theorem armInj_mem (a1 a2 d) : (armInj a1 a2 d).1.mem = d.mem := by
  unfold armInj; (try dsimp only); (repeat' split) <;> first | (simp; done) | rfl

@[simp] theorem loadRate_mem (a1 a2 d) : (loadRate a1 a2 d).mem = d.mem := by
  unfold loadRate; (try dsimp only); (repeat' first | (simp; done) | (refine (foldl_mem _ _ (fun _ _ => ?_) _).trans ?_) | split)

@[simp] theorem rateGo_mem (d) : (rateGo d).mem = d.mem := by
  unfold rateGo; (try dsimp only); (repeat' split) <;> first | (simp; done) | rfl

@[simp] theorem rateDone_mem (a1 d) : (rateDone a1 d).mem = d.mem := by
  unfold rateDone; (try dsimp only); split <;> simp

/-! ## Machine/Hall.lean -/

@[simp] theorem victimAck_mem (a1 a2 d) : (victimAck a1 a2 d).mem = d.mem := by
  unfold victimAck; (try dsimp only); (repeat' split) <;> first | (simp; done) | rfl

@[simp] theorem fetchLine_mem (d a1 a2) : (fetchLine d a1 a2).mem = d.mem := by
  unfold fetchLine; (try dsimp only); (repeat' split) <;> first | (simp; done) | rfl

@[simp] theorem beginTxn_mem (d a1 a2 a3 a4 a5) : (beginTxn d a1 a2 a3 a4 a5).mem = d.mem := by
  rfl

@[simp] theorem grantLine_mem (d a1 a2 a3 a4) : (grantLine d a1 a2 a3 a4).mem = d.mem := by
  rfl

theorem tryReq_mem (d s l p o) {r : Dev} (hr : tryReq d s l p o = some r) : r.mem = d.mem := by
  unfold tryReq at hr
  split at hr
  · cases hr
  · split at hr
    · cases hr
    · split at hr
      · extract_lets snoop at hr
        clear_value snoop
        split at hr <;> cases hr <;> simp
      · split at hr
        · cases hr; simp
        · split at hr
          · cases hr
          · split at hr
            · cases hr
            · split at hr
              · obtain ⟨_, h1, rfl⟩ := Option.map_eq_some_iff.1 hr
                simp [evictLine_mem _ _ _ _ h1]
              · cases hr

@[simp] theorem askLine_mem (d a1 a2 a3 a4) : (askLine d a1 a2 a3 a4).mem = d.mem := by
  unfold askLine; (try dsimp only); (repeat' first | rfl | exact tryReq_mem _ _ _ _ _ (by assumption) | (rename_i hq; simp [tryReq_mem _ _ _ _ _ hq]; done) | (simp; done) | (simp_all; done) | (refine (foldl_mem _ _ (fun _ _ => ?_) _).trans ?_) | intro _ | split)

@[simp] theorem pumpWait_mem (d a1) : (pumpWait d a1).mem = d.mem := by
  unfold pumpWait; (try dsimp only); (repeat' first | (simp; done) | (refine (foldl_mem _ _ (fun _ _ => ?_) _).trans ?_) | split)

@[simp] theorem finishTxn_mem (d a1 a2) : (finishTxn d a1 a2).mem = d.mem := by
  unfold finishTxn; (try dsimp only); (repeat' split) <;> first | (simp; done) | rfl

@[simp] theorem penAsk_mem (a1 a2 a3 d) : (penAsk a1 a2 a3 d).mem = d.mem := by
  unfold penAsk; (try dsimp only); (repeat' split) <;> first | (simp; done) | rfl

@[simp] theorem dropMsg_mem (d a1 a2) : (dropMsg d a1 a2).mem = d.mem := by
  rfl

@[simp] theorem penData_mem (a1 a2 d) : (penData a1 a2 d).mem = d.mem := by
  unfold penData; (try dsimp only); (repeat' split) <;> first | (simp; done) | rfl

@[simp] theorem penSnoop_mem (a1 a2 d) : (penSnoop a1 a2 d).mem = d.mem := by
  unfold penSnoop; (try dsimp only); (repeat' split) <;> first | (simp; done) | rfl

@[simp] theorem snoopAnswer_mem (a1 a2 a3 a4 d) : (snoopAnswer a1 a2 a3 a4 d).mem = d.mem := by
  unfold snoopAnswer; (try dsimp only); (repeat' split) <;> first | (simp; done) | rfl

@[simp] theorem evictArrives_mem (a1 a2 d) : (evictArrives a1 a2 d).mem = d.mem := by
  unfold evictArrives; (try dsimp only); (repeat' split) <;> first | (simp; done) | rfl

@[simp] theorem evictAcked_mem (a1 a2 d) : (evictAcked a1 a2 d).mem = d.mem := by
  unfold evictAcked; (try dsimp only); (repeat' split) <;> first | (simp; done) | rfl

@[simp] theorem recallPen_mem (d a1) : (recallPen d a1).mem = d.mem := by
  unfold recallPen; (try dsimp only); (repeat' first | (simp; done) | (refine (foldl_mem _ _ (fun _ _ => ?_) _).trans ?_) | split)

@[simp] theorem writeBackAll_mem (d) : (writeBackAll d).mem = d.mem := by
  unfold writeBackAll; (try dsimp only); (repeat' first | (simp; done) | (refine (foldl_mem _ _ (fun _ _ => ?_) _).trans ?_) | split)

@[simp] theorem halCmd_mem (a1 d) : (halCmd a1 d).1.mem = d.mem := by
  unfold halCmd; (try dsimp only); (repeat' split) <;> first | (simp; done) | rfl

@[simp] theorem halDone_mem (d) : (halDone d).mem = d.mem := by
  unfold halDone; (try dsimp only); split <;> simp

@[simp] theorem halCtrl_mem (a1 d) : (halCtrl a1 d).1.mem = d.mem := by
  unfold halCtrl; (try dsimp only); (repeat' split) <;> first | (simp; done) | rfl

@[simp] theorem setArray_mem (d a1) : (setArray d a1).mem = d.mem := by
  rfl

@[simp] theorem wordCorrected_mem (d a1 a2) : (wordCorrected d a1 a2).mem = d.mem := by
  unfold wordCorrected; (try dsimp only); split <;> simp

theorem arrayFault_wf (d a1) (hd : memWf d.mem = true) : memWf (arrayFault d a1).mem = true := by
  unfold arrayFault; (repeat' first | with_reducible assumption | with_reducible apply fence_wf | with_reducible apply foldl_wf | simp only [Dev.modHall_mem, raiseOp_mem, enterState_mem, leavePair_mem, Dev.modDur_mem, Dev.modTwin_mem] | split | intro _ | exact memWf_nil)

@[simp] theorem badLine_mem (d a1) : (badLine d a1).mem = d.mem := by
  unfold badLine; (try dsimp only); (repeat' split) <;> first | (simp; done) | rfl

@[simp] theorem badPenLine_mem (d a1 a2) : (badPenLine d a1 a2).mem = d.mem := by
  unfold badPenLine; (try dsimp only); (repeat' split) <;> first | (simp; done) | rfl

@[simp] theorem shepherdRestart_mem (d) : (shepherdRestart d).mem = d.mem := by
  simp [shepherdRestart]

@[simp] theorem landingBad_mem (d a1) : (landingBad d a1).mem = d.mem := by
  unfold landingBad; dsimp only; split <;> simp

theorem arrayBad_wf (d a1 a2 a3) (hd : memWf d.mem = true) : memWf (arrayBad d a1 a2 a3).mem = true := by
  unfold arrayBad; (repeat' first | with_reducible assumption | with_reducible apply arrayFault_wf | with_reducible apply foldl_wf | simp only [badLine_mem, badPenLine_mem, landingBad_mem, drawChoice_mem, toError_mem, Dev.modFolds_mem, Dev.modHall_mem, shepherdRestart_mem] | split | intro _ | exact memWf_nil)

theorem readWord_wf (d a1 a2 a3 a4) (hd : memWf d.mem = true) : memWf (readWord d a1 a2 a3 a4).mem = true := by
  unfold readWord; (repeat' first | with_reducible assumption | with_reducible apply arrayBad_wf | with_reducible apply foldl_wf | simp only [wordCorrected_mem, raiseOp_mem, setArray_mem, draw32_mem] | split | intro _ | exact memWf_nil)

theorem retireEntry_wf (d a1 a2 a3 a4) (hd : memWf d.mem = true) : memWf (retireEntry d a1 a2 a3 a4).mem = true := by
  unfold retireEntry; (repeat' first | with_reducible assumption | with_reducible apply readWord_wf | with_reducible apply foldl_wf | simp only [setArray_mem] | split | intro _ | exact memWf_nil)

theorem narrowWrite_wf (d a1 a2 a3 a4 a5) (hd : memWf d.mem = true) : memWf (narrowWrite d a1 a2 a3 a4 a5).mem = true := by
  unfold narrowWrite; (repeat' first | with_reducible assumption | with_reducible apply retireEntry_wf | with_reducible apply foldl_wf | simp only [setArray_mem] | split | intro _ | exact memWf_nil)

theorem mergeRetire_wf (a1 a2 a3 a4 d) (hd : memWf d.mem = true) : memWf (mergeRetire a1 a2 a3 a4 d).mem = true := by
  unfold mergeRetire; (repeat' first | with_reducible assumption | with_reducible apply retireEntry_wf | with_reducible apply narrowWrite_wf | with_reducible apply foldl_wf | simp only [draw64_mem, drawChoice_mem] | split | intro _ | exact memWf_nil)

theorem scrub_wf (a1 a2 a3 a4 d) (hd : memWf d.mem = true) : memWf (scrub a1 a2 a3 a4 d).mem = true := by
  unfold scrub; (repeat' first | with_reducible assumption | with_reducible apply retireEntry_wf | with_reducible apply readWord_wf | with_reducible apply foldl_wf | simp only [setArray_mem] | split | intro _ | exact memWf_nil)

@[simp] theorem leakEcc_mem (a1 a2 d) : (leakEcc a1 a2 d).mem = d.mem := by
  unfold leakEcc; (try dsimp only); split <;> rfl

@[simp] theorem droverReload_mem (a1 d) : (droverReload a1 d).mem = d.mem := by
  unfold droverReload; (try dsimp only); split <;> simp

/-! ## Machine/Supply.lean -/

@[simp] theorem takeSnap_mem (d a1 a2) : (takeSnap d a1 a2).mem = d.mem := by
  rfl

@[simp] theorem setPwr_mem (d a1) : (setPwr d a1).mem = d.mem := by
  unfold setPwr; (try dsimp only); split <;> simp

@[simp] theorem chargerLines_mem (d) : (chargerLines d).mem = d.mem := by
  rfl

@[simp] theorem dropLines_mem (d) : (dropLines d).mem = d.mem := by
  rfl

@[simp] theorem beginStep_mem (d a1) : (beginStep d a1).mem = d.mem := by
  rfl

@[simp] theorem lowerStep_mem (d a1) : (lowerStep d a1).mem = d.mem := by
  rfl

@[simp] theorem beginDown_mem (d a1) : (beginDown d a1).mem = d.mem := by
  simp [beginDown]

@[simp] theorem powerDown_mem (d) : (powerDown d).mem = d.mem := by
  simp [powerDown]

@[simp] theorem setRail_mem (d a1 a2) : (setRail d a1 a2).mem = d.mem := by
  rfl

@[simp] theorem seqFault_mem (d a1) : (seqFault d a1).mem = d.mem := by
  simp [seqFault]

/-! ## Machine/Pke.lean -/

@[simp] theorem pkeStart_mem (a1 d) : (pkeStart a1 d).1.mem = d.mem := by
  unfold pkeStart; (try dsimp only); split <;> rfl

@[simp] theorem pkeDone_mem (d) : (pkeDone d).mem = d.mem := by
  unfold pkeDone; (try dsimp only); split <;> rfl

@[simp] theorem poolRefill_mem (d) : (poolRefill d).mem = d.mem := by
  rfl

/-! ## Machine/Firmware.lean -/

@[simp] theorem setBank_mem (d a1 a2) : (setBank d a1 a2).mem = d.mem := by
  rfl

/-! ## Machine/Restore.lean -/

theorem memWf_installLine (fams x) {m : List Host.Cell} (h : memWf m = true) : memWf (installLine fams m x) = true :=
  memWf_writeBytes _ _ (memWf_foldl _ (fun _ _ h => memWf_writeBytes _ _ h) _ h)

theorem installLines_wf (dr i d im) (h : memWf d.mem = true) : memWf (installLines dr i d im).mem = true := by
  unfold installLines
  exact memWf_foldl _ (fun _ _ h => memWf_installLine _ _ h) _ h

@[simp] theorem imageTwin_mem (d a1) : (imageTwin d a1).mem = d.mem := by
  rfl

theorem contentsOf_wf (d) : memWf (contentsOf d).1 = true := by
  have key : ∀ (l : List (Nat × Nat)) (a : List Host.Cell × List Nat), memWf a.1 = true →
      memWf (l.foldl (fun a e =>
    match cwAt d.ftl e.2 with
    | none => a
    | some c =>
      (leafHomes d e.1).foldl (fun x l =>
        (c.data.foldl (fun m b => writeByte m (l * 4096 + b.1) b.2) x.1,
         addNums x.2 (((List.range 64).filter fun i => c.poison.getLsbD i).map fun i => l * 64 + i))) a) a).1 = true := by
    intro l
    induction l with
    | nil => exact fun _ h => h
    | cons e t ih =>
      intro a ha
      refine ih _ ?_
      dsimp only
      split
      · exact ha
      · generalize leafHomes d e.1 = hs
        induction hs generalizing a with
        | nil => exact ha
        | cons x t ih => exact ih _ (memWf_foldl _ (fun _ _ h => memWf_writeByte _ _ h) _ ha)
  exact key _ _ memWf_nil

theorem restoreUnit_wf (d) : memWf (restoreUnit d).mem = true := by
  have put (xs : List ControlItem) (a : Dev) (h : memWf a.mem = true) :
      memWf ((xs.foldl (fun (a : Dev) (i : ControlItem) =>
        match i with | .family _ _ | .foldRl _ => a | _ => putItem a i) a).mem) = true := by
    rw [foldl_mem _ _ (fun _ _ => by split <;> simp)]; exact h
  rw [restoreUnit]
  rw [ite_mem (raiseOp_mem _ _ _ _), ite_mem (Dev.modTwin_mem _ _), raiseOp_mem, rebuildFolds_mem, Dev.modDur_mem]
  split
  · rw [imageTwin_mem]
    exact put _ _ (foldl_wf _ _ (fun _ _ h => installLines_wf _ _ _ _ h) _ (contentsOf_wf _))
  · exact put _ _ (contentsOf_wf _)

end Sys2Proof.Machine
end

