-- ==== Sys2Proof/Laws/MemChip.lean ====
section
/-! SUPPORT. What the memory is after security, the ledger, hold energy, warm reset, the save image and boot: a `_mem` lemma says that an operation leaves
every byte as it was, a `_wf` lemma that it keeps the canonical form. -/
namespace Sys2Proof.Machine

/-! ## Machine/Security.lean -/

theorem silence_wf (d) (hd : memWf d.mem = true) : memWf (silence d).mem = true := by
  unfold silence; (repeat' first | with_reducible assumption | with_reducible apply stopServing_wf | with_reducible apply foldl_wf | simp only [enterState_mem, leavePair_mem, twlDown_mem] | split | intro _ | exact memWf_nil)

@[simp] theorem startAgain_mem (d) : (startAgain d).mem = d.mem := by
  unfold startAgain; (try dsimp only); split <;> simp

@[simp] theorem loadKeys_mem (d) : (loadKeys d).mem = d.mem := by
  unfold loadKeys; (try dsimp only); split <;> simp

@[simp] theorem resumeTxc_mem (d) : (resumeTxc d).mem = d.mem := by
  rfl

theorem finishStart_wf (d) (hd : memWf d.mem = true) : memWf (finishStart d).mem = true := by
  unfold finishStart; (repeat' first | with_reducible assumption | with_reducible apply restoreUnit_wf | with_reducible apply foldl_wf | simp only [loadKeys_mem, resumeTxc_mem, startAgain_mem, raiseOp_mem, Dev.modPwr_mem] | split | intro _ | exact memWf_nil)

theorem alarmA_wf (a1 d) (hd : memWf d.mem = true) : memWf (alarmA a1 d).mem = true := by
  unfold alarmA; (repeat' first | with_reducible assumption | with_reducible apply silence_wf | with_reducible apply foldl_wf | simp only [Dev.modSec_mem, Dev.modTwin_mem, Dev.modNet_mem, raiseOp_mem] | split | intro _ | exact memWf_nil)

theorem eraseAll_wf (d) (hd : memWf d.mem = true) : memWf (eraseAll d).mem = true := by
  unfold eraseAll; (repeat' first | with_reducible assumption | with_reducible apply foldl_wf | simp only [noteSlots_mem, Dev.modSec_mem, Dev.modFolds_mem, Dev.modNet_mem, Dev.modTwin_mem, Dev.modDur_mem, Dev.modLdg_mem, Dev.modEvt_mem] | split | intro _ | exact memWf_nil)

theorem alarmB_wf (a1 d) (hd : memWf d.mem = true) : memWf (alarmB a1 d).mem = true := by
  unfold alarmB; (repeat' first | with_reducible assumption | with_reducible apply eraseAll_wf | with_reducible apply alarmA_wf | with_reducible apply foldl_wf | simp only [powerDown_mem] | split | intro _ | exact memWf_nil)

theorem fireSource_wf (a1 d) (hd : memWf d.mem = true) : memWf (fireSource a1 d).mem = true := by
  unfold fireSource; (repeat' first | with_reducible assumption | with_reducible apply alarmB_wf | with_reducible apply alarmA_wf | with_reducible apply foldl_wf | split | intro _ | exact memWf_nil)

theorem alarmRow_wf (a1 a2 d) (hd : memWf d.mem = true) : memWf (alarmRow a1 a2 d).mem = true := by
  unfold alarmRow; (repeat' first | with_reducible assumption | with_reducible apply fireSource_wf | with_reducible apply foldl_wf | split | intro _ | exact memWf_nil)

@[simp] theorem zeroDone_mem (d) : (zeroDone d).mem = d.mem := by
  unfold zeroDone; (try dsimp only); split <;> simp

@[simp] theorem secCmd_mem (g0 d) (hg0 : ∀ x0, (g0 x0).mem = x0.mem) : (secCmd g0 d).1.mem = d.mem := by
  unfold secCmd; (try dsimp only); (repeat' first | rfl | (simp_all; done) | (refine (foldl_mem _ _ (fun _ _ => ?_) _).trans ?_) | split)

theorem secCmd_wf (g0 d) (hg0 : ∀ x0, memWf x0.mem = true → memWf (g0 x0).mem = true) (hd : memWf d.mem = true) : memWf (secCmd g0 d).1.mem = true := by
  unfold secCmd; (repeat' first | with_reducible assumption | with_reducible apply hg0 | with_reducible apply foldl_wf | simp only [setReg_mem, Dev.modSec_mem] | split | intro _ | exact memWf_nil)

@[simp] theorem secLast_mem (d a1) : (secLast d a1).mem = d.mem := by
  rfl

@[simp] theorem macFailed_mem (d) : (macFailed d).mem = d.mem := by
  simp [macFailed]

theorem clearLockout_wf (d) (hd : memWf d.mem = true) : memWf (clearLockout d).mem = true := by
  unfold clearLockout; (repeat' first | with_reducible assumption | with_reducible apply finishStart_wf | with_reducible apply foldl_wf | simp only [secLast_mem, macFailed_mem, Dev.modSec_mem, raiseOp_mem, Dev.modNet_mem, startAgain_mem, loadKeys_mem] | split | intro _ | exact memWf_nil)

@[simp] theorem lowerClass_mem (a1 d) : (lowerClass a1 d).mem = d.mem := by
  unfold lowerClass; (try dsimp only); split <;> simp

@[simp] theorem provisionClear_mem (d) : (provisionClear d).mem = d.mem := by
  unfold provisionClear; (try dsimp only); (repeat' split) <;> first | (simp; done) | rfl

@[simp] theorem chalRead_mem (d) : (chalRead d).1.mem = d.mem := by
  unfold chalRead; (try dsimp only); split <;> rfl

@[simp] theorem drawPair_mem (d) : (drawPair d).2.mem = d.mem := by
  rfl

theorem keyCmd_wf (a1 a2 d) (hd : memWf d.mem = true) : memWf (keyCmd a1 a2 d).1.mem = true := by
  unfold keyCmd; (repeat' first | with_reducible assumption | with_reducible apply issueCtrl_wf | with_reducible apply foldl_wf | simp only [Dev.modSec_mem, drawPair_mem] | split | intro _ | exact memWf_nil)

@[simp] theorem laneRun_mem (a1 a2 a3 d a4) : (laneRun a1 a2 a3 d a4).mem = d.mem := by
  unfold laneRun; (try dsimp only); (repeat' split) <;> first | (simp; done) | rfl

theorem laneJob_wf (a1 a2 a3 a4 d) (hd : memWf d.mem = true) : memWf (laneJob a1 a2 a3 a4 d).mem = true := by
  unfold laneJob; (repeat' first | with_reducible assumption | with_reducible apply fireSource_wf | with_reducible apply foldl_wf | simp only [raiseOp_mem, bump_mem, laneRun_mem] | split | intro _ | exact memWf_nil)

@[simp] theorem maskReseed_mem (a1 d) : (maskReseed a1 d).mem = d.mem := by
  unfold maskReseed; (try dsimp only); split <;> rfl

@[simp] theorem drbgReseed_mem (a1 d) : (drbgReseed a1 d).mem = d.mem := by
  unfold drbgReseed; (try dsimp only); (repeat' split) <;> first | (simp; done) | rfl

theorem drbgStopped_wf (d) (hd : memWf d.mem = true) : memWf (drbgStopped d).mem = true := by
  unfold drbgStopped; (repeat' first | with_reducible assumption | with_reducible apply stopServing_wf | with_reducible apply foldl_wf | simp only [raiseOp_mem, Dev.modSec_mem, enterState_mem, leavePair_mem] | split | intro _ | exact memWf_nil)

@[simp] theorem drbgStarted_mem (d) : (drbgStarted d).mem = d.mem := by
  unfold drbgStarted; (try dsimp only); split <;> simp

/-! ## Machine/Ledger.lean -/

@[simp] theorem setLdgResult_mem (d a1 a2) : (setLdgResult d a1 a2).mem = d.mem := by
  rfl

@[simp] theorem ldgStatusRead_mem (a1 d) : (ldgStatusRead a1 d).1.mem = d.mem := by
  unfold ldgStatusRead; (try dsimp only); split <;> rfl

@[simp] theorem ledgerWord_mem (d a1) : (ledgerWord d a1).2.mem = d.mem := by
  unfold ledgerWord; (try dsimp only); (repeat' split) <;> first | (simp; done) | rfl

@[simp] theorem rdData_mem (d) : (rdData d).1.mem = d.mem := by
  simp [rdData]

@[simp] theorem seqBreak_mem (d a1) : (seqBreak d a1).mem = d.mem := by
  rfl

@[simp] theorem ldgOwned_mem (a1 g0 d) (hg0 : ∀ x0, (g0 x0).mem = x0.mem) : (ldgOwned a1 g0 d).1.mem = d.mem := by
  unfold ldgOwned; (try dsimp only); (repeat' first | rfl | (simp_all; done) | (refine (foldl_mem _ _ (fun _ _ => ?_) _).trans ?_) | split)

theorem ldgOwned_wf (a1 g0 d) (hg0 : ∀ x0, memWf x0.mem = true → memWf (g0 x0).mem = true) (hd : memWf d.mem = true) : memWf (ldgOwned a1 g0 d).1.mem = true := by
  unfold ldgOwned; (repeat' first | with_reducible assumption | with_reducible apply hg0 | with_reducible apply foldl_wf | split | intro _ | exact memWf_nil)

@[simp] theorem ldgKey_mem (a1 a2 d) : (ldgKey a1 a2 d).1.mem = d.mem := by
  unfold ldgKey; (try dsimp only); (repeat' first | rfl | (refine (ldgOwned_mem _ _ _ ?_).trans ?_) | (simp; done) | (simp_all; done) | (refine (foldl_mem _ _ (fun _ _ => ?_) _).trans ?_) | intro _ | split)

@[simp] theorem holdErase_mem (a1 a2 d) : (holdErase a1 a2 d).mem = d.mem := by
  unfold holdErase; (try dsimp only); (repeat' split) <;> first | (simp; done) | rfl

@[simp] theorem ldgCmd_mem (a1 a2 d) : (ldgCmd a1 a2 d).1.mem = d.mem := by
  unfold ldgCmd; (try dsimp only); (repeat' first | rfl | (refine (ldgOwned_mem _ _ _ ?_).trans ?_) | (simp; done) | (simp_all; done) | (refine (foldl_mem _ _ (fun _ _ => ?_) _).trans ?_) | intro _ | split)

@[simp] theorem ldgAddr_mem (a1 a2 d) : (ldgAddr a1 a2 d).1.mem = d.mem := by
  unfold ldgAddr; (try dsimp only); (repeat' first | rfl | (refine (ldgOwned_mem _ _ _ ?_).trans ?_) | (simp; done) | (simp_all; done) | (refine (foldl_mem _ _ (fun _ _ => ?_) _).trans ?_) | intro _ | split)

@[simp] theorem dropClashes_mem (d l) : (dropClashes d l).mem = d.mem := by
  induction l generalizing d with
  | nil => rfl
  | cons g t ih => simp only [dropClashes]; split <;> simp [ih]

@[simp] theorem ldgData_mem (a1 a2 d) : (ldgData a1 a2 d).1.mem = d.mem := by
  unfold ldgData; (try dsimp only); (repeat' first | rfl | (refine (ldgOwned_mem _ _ _ ?_).trans ?_) | (simp; done) | (simp_all; done) | (refine (foldl_mem _ _ (fun _ _ => ?_) _).trans ?_) | intro _ | split)

@[simp] theorem ldgLapse_mem (d) : (ldgLapse d).mem = d.mem := by
  unfold ldgLapse; (try dsimp only); (repeat' split) <;> first | (simp; done) | rfl

@[simp] theorem ldgOwnerLapse_mem (d) : (ldgOwnerLapse d).mem = d.mem := by
  simp [ldgOwnerLapse]

@[simp] theorem ldgProgDone_mem (a1 d) : (ldgProgDone a1 d).mem = d.mem := by
  unfold ldgProgDone; (try dsimp only); (repeat' split) <;> first | (simp; done) | rfl

@[simp] theorem erasePulse_mem (a1 a2 d) : (erasePulse a1 a2 d).mem = d.mem := by
  unfold erasePulse; (try dsimp only); (repeat' split) <;> first | (simp; done) | rfl

@[simp] theorem eraseSlow_mem (a1 d) : (eraseSlow a1 d).mem = d.mem := by
  unfold eraseSlow; (try dsimp only); split <;> simp

@[simp] theorem windowMove_mem (d) : (windowMove d).mem = d.mem := by
  unfold windowMove; (try dsimp only); (repeat' split) <;> first | (simp; done) | rfl

@[simp] theorem shpCmd_mem (g0 d) (hg0 : ∀ x0, (g0 x0).1.mem = x0.mem) : (shpCmd g0 d).1.mem = d.mem := by
  unfold shpCmd; (try dsimp only); (repeat' first | rfl | (simp_all; done) | (refine (foldl_mem _ _ (fun _ _ => ?_) _).trans ?_) | split)

theorem shpCmd_wf (g0 d) (hg0 : ∀ x0, memWf x0.mem = true → memWf (g0 x0).1.mem = true) (hd : memWf d.mem = true) : memWf (shpCmd g0 d).1.mem = true := by
  unfold shpCmd; (repeat' first | with_reducible assumption | with_reducible apply hg0 | with_reducible apply foldl_wf | simp only [Dev.modLdg_mem] | split | intro _ | exact memWf_nil)

@[simp] theorem shpStore_mem (g0 d) (hg0 : ∀ x0, (g0 x0).mem = x0.mem) : (shpStore g0 d).1.mem = d.mem := by
  unfold shpStore; (try dsimp only); (repeat' first | rfl | (simp_all; done) | (refine (foldl_mem _ _ (fun _ _ => ?_) _).trans ?_) | split)

theorem shpStore_wf (g0 d) (hg0 : ∀ x0, memWf x0.mem = true → memWf (g0 x0).mem = true) (hd : memWf d.mem = true) : memWf (shpStore g0 d).1.mem = true := by
  unfold shpStore; (repeat' first | with_reducible assumption | with_reducible apply hg0 | with_reducible apply foldl_wf | split | intro _ | exact memWf_nil)

@[simp] theorem shpTuning_mem (d) : (shpTuning d).1.mem = d.mem := by
  unfold shpTuning; (try dsimp only); split <;> simp

@[simp] theorem shpIdentity_mem (a1 d) : (shpIdentity a1 d).1.mem = d.mem := by
  unfold shpIdentity; (try dsimp only); (repeat' split) <;> first | (simp; done) | rfl

/-! ## Machine/Energy.lean -/

@[simp] theorem writeCal_mem (d a1) : (writeCal d a1).mem = d.mem := by
  rfl

theorem budgetUpdate_wf (d) (hd : memWf d.mem = true) : memWf (budgetUpdate d).mem = true := by
  unfold budgetUpdate; (repeat' first | with_reducible assumption | with_reducible apply settleFully_wf | with_reducible apply foldl_wf | simp only [Dev.modDur_mem, raiseOp_mem] | split | intro _ | exact memWf_nil)

@[simp] theorem budgetLost_mem (d) : (budgetLost d).mem = d.mem := by
  simp [budgetLost]

@[simp] theorem overBudget_mem (d) : (overBudget d).mem = d.mem := by
  unfold overBudget; (try dsimp only); split <;> simp

@[simp] theorem holdSample_mem (a1 d) : (holdSample a1 d).mem = d.mem := by
  rfl

@[simp] theorem scheduleTest_mem (d) : (scheduleTest d).mem = d.mem := by
  unfold scheduleTest; (try dsimp only); split <;> simp

@[simp] theorem shuntCharge_mem (d a1) : (shuntCharge d a1).2.mem = d.mem := by
  unfold shuntCharge; (try dsimp only); split <;> rfl

@[simp] theorem shuntSample_mem (a1 d) : (shuntSample a1 d).mem = d.mem := by
  unfold shuntSample; (try dsimp only); (repeat' split) <;> first | (simp; done) | rfl

@[simp] theorem anchorCount_mem (d) : (anchorCount d).mem = d.mem := by
  unfold anchorCount; (try dsimp only); (repeat' split) <;> first | (simp; done) | rfl

@[simp] theorem mismatchEnd_mem (d) : (mismatchEnd d).mem = d.mem := by
  unfold mismatchEnd; (try dsimp only); (repeat' split) <;> first | (simp; done) | rfl

theorem testStart_wf (d) (hd : memWf d.mem = true) : memWf (testStart d).mem = true := by
  unfold testStart; (repeat' first | with_reducible assumption | with_reducible apply budgetUpdate_wf | with_reducible apply foldl_wf | simp only [Dev.modDur_mem, raiseOp_mem, chargerLines_mem] | split | intro _ | exact memWf_nil)

@[simp] theorem testFails_mem (d) : (testFails d).mem = d.mem := by
  unfold testFails; (try dsimp only); split <;> simp

@[simp] theorem testFloor_mem (d) : (testFloor d).mem = d.mem := by
  unfold testFloor; (try dsimp only); (repeat' split) <;> first | (simp; done) | rfl

/-! ## Machine/Warm.lean -/

@[simp] theorem startRegs_mem (d a1) : (startRegs d a1).mem = d.mem := by
  rfl

theorem standDown_wf (d) (hd : memWf d.mem = true) : memWf (standDown d).mem = true := by
  unfold standDown; (repeat' first | with_reducible assumption | with_reducible apply drainHeld_wf | with_reducible apply fence_wf | with_reducible apply foldl_wf | simp only [enterState_mem, leavePair_mem, abandonJoin_mem] | split | intro _ | exact memWf_nil)

@[simp] theorem portsDown_mem (d) : (portsDown d).mem = d.mem := by
  unfold portsDown; (try dsimp only); (repeat' first | (simp; done) | (refine (foldl_mem _ _ (fun _ _ => ?_) _).trans ?_) | split)

theorem warmBegin_wf (d) (hd : memWf d.mem = true) : memWf (warmBegin d).mem = true := by
  unfold warmBegin; (repeat' first | with_reducible assumption | with_reducible apply standDown_wf | with_reducible apply foldl_wf | simp only [Dev.modFtl_mem, Dev.modRst_mem] | split | intro _ | exact memWf_nil)

@[simp] theorem warmHold_mem (d) : (warmHold d).mem = d.mem := by
  simp [warmHold]

theorem warmRequest_wf (a1 d) (hd : memWf d.mem = true) : memWf (warmRequest a1 d).mem = true := by
  unfold warmRequest; (repeat' first | with_reducible assumption | with_reducible apply warmBegin_wf | with_reducible apply foldl_wf | simp only [Dev.modRst_mem, warmHold_mem] | split | intro _ | exact memWf_nil)

theorem warmQuiesced_wf (d) (hd : memWf d.mem = true) : memWf (warmQuiesced d).mem = true := by
  unfold warmQuiesced; (repeat' first | with_reducible assumption | with_reducible apply runOut_wf | with_reducible apply foldl_wf | simp only [warmHold_mem] | split | intro _ | exact memWf_nil)

@[simp] theorem warmLeave_mem (d) : (warmLeave d).mem = d.mem := by
  unfold warmLeave; (try dsimp only); split <;> rfl

@[simp] theorem dramResume_mem (d) : (dramResume d).mem = d.mem := by
  rfl

@[simp] theorem enableHall_mem (d) : (enableHall d).mem = d.mem := by
  simp [enableHall]

@[simp] theorem warmFinish_mem (a1 d) : (warmFinish a1 d).mem = d.mem := by
  unfold warmFinish; (try dsimp only); (repeat' split) <;> first | (simp; done) | rfl

/-! ## Machine/Save.lean -/

theorem startSave_wf (d) (hd : memWf d.mem = true) : memWf (startSave d).mem = true := by
  unfold startSave; (repeat' first | with_reducible assumption | with_reducible apply standDown_wf | with_reducible apply foldl_wf | simp only [raiseOp_mem, setPwr_mem, chargerLines_mem, Dev.modDur_mem, Dev.modUpd_mem, Dev.modPwr_mem, Dev.modFtl_mem, Dev.modHall_mem, Dev.modLdg_mem, portsDown_mem, twlDown_mem] | split | intro _ | exact memWf_nil)

@[simp] theorem endSave_mem (d) : (endSave d).mem = d.mem := by
  simp [endSave]

theorem workDone_wf (d) (hd : memWf d.mem = true) : memWf (workDone d).mem = true := by
  unfold workDone; (repeat' first | with_reducible assumption | with_reducible apply runOut_wf | with_reducible apply foldl_wf | simp only [noteSlots_mem, writeBackAll_mem, endSave_mem, Dev.modDur_mem, warmHold_mem] | split | intro _ | exact memWf_nil)

@[simp] theorem linkDrained_mem (d) : (linkDrained d).mem = d.mem := by
  unfold linkDrained; (try dsimp only); split <;> simp

@[simp] theorem imageProgram_mem (d) : (imageProgram d).mem = d.mem := by
  unfold imageProgram; (try dsimp only); split <;> rfl

@[simp] theorem imageDone_mem (a1 a2 d) : (imageDone a1 a2 d).mem = d.mem := by
  unfold imageDone; (try dsimp only); split <;> simp

@[simp] theorem holdLimit_mem (d) : (holdLimit d).mem = d.mem := by
  unfold holdLimit; (try dsimp only); split <;> simp

@[simp] theorem saveResume_mem (d) : (saveResume d).mem = d.mem := by
  unfold saveResume; (try dsimp only); (repeat' split) <;> simp

/-! ## Machine/Boot.lean -/

@[simp] theorem coldLedger_mem (d) : (coldLedger d).mem = d.mem := by
  unfold coldLedger; (try dsimp only); (repeat' first | (simp; done) | (refine (foldl_mem _ _ (fun _ _ => ?_) _).trans ?_) | split)

@[simp] theorem coldState_mem (d) : (coldState d).mem = [] := rfl

theorem islandsDown_wf (d) (hd : memWf d.mem = true) : memWf (islandsDown d).mem = true := by
  unfold islandsDown; (repeat' first | with_reducible assumption | with_reducible apply coldState_wf | with_reducible apply foldl_wf | simp only [Dev.modRst_mem] | split | intro _ | exact memWf_nil)

@[simp] theorem takeTry_mem (d) : (takeTry d).mem = d.mem := by
  unfold takeTry; (try dsimp only); (repeat' split) <;> first | (simp; done) | rfl

@[simp] theorem enterRecovery_mem (d) : (enterRecovery d).mem = d.mem := by
  simp [enterRecovery]

@[simp] theorem fellBack_mem (d) : (fellBack d).mem = d.mem := by
  simp [fellBack]

@[simp] theorem romRegs_mem (d) : (romRegs d).mem = d.mem := by
  unfold romRegs; (try dsimp only); split <;> rfl

@[simp] theorem romBanks_mem (d) : (romBanks d).mem = d.mem := by
  unfold romBanks; (try dsimp only); (repeat' split) <;> first | (simp; done) | rfl

theorem powerUp_wf (d) (hd : memWf d.mem = true) : memWf (powerUp d).mem = true := by
  unfold powerUp; (repeat' first | with_reducible assumption | with_reducible apply coldState_wf | with_reducible apply foldl_wf | simp only [romBanks_mem, takeTry_mem, Dev.modPwr_mem] | split | intro _ | exact memWf_nil)

@[simp] theorem verifyBank_mem (d) : (verifyBank d).mem = d.mem := by
  unfold verifyBank; (try dsimp only); (repeat' split) <;> first | (simp; done) | rfl

@[simp] theorem loadStore_mem (d) : (loadStore d).mem = d.mem := by
  unfold loadStore; (try dsimp only); (repeat' split) <;> first | (simp; done) | rfl

@[simp] theorem startSec_mem (d) : (startSec d).mem = d.mem := by
  unfold startSec; (try dsimp only); (repeat' split) <;> first | (simp; done) | rfl

@[simp] theorem trainRegs_mem (r d c) : (trainRegs r d c).mem = d.mem := by
  unfold trainRegs
  (repeat' split) <;> simp only [setReg_mem]

@[simp] theorem startDram_mem (d) : (startDram d).mem = d.mem := by
  rw [startDram]
  split
  · rw [raiseOp_mem, Dev.modDram_mem]
  · rw [foldl_mem _ _ (fun _ _ => raiseOp_mem _ _ _ _), foldl_mem _ _ (fun _ _ => trainRegs_mem _ _ _), Dev.modDram_mem]

@[simp] theorem startParts_mem (d) : (startParts d).mem = d.mem := by
  unfold startParts; (try dsimp only); (repeat' split) <;> first | (simp; done) | rfl

@[simp] theorem startCal_mem (d) : (startCal d).mem = d.mem := by
  unfold startCal; (try dsimp only); split <;> simp

@[simp] theorem startDrovers_mem (d) : (startDrovers d).mem = d.mem := by
  unfold startDrovers; (try dsimp only); split <;> simp

theorem bootFinish_wf (d) (hd : memWf d.mem = true) : memWf (bootFinish d).mem = true := by
  unfold bootFinish; (repeat' first | with_reducible assumption | with_reducible apply finishStart_wf | with_reducible apply foldl_wf | simp only [verifyBank_mem, setPwr_mem, draw32_mem, Dev.modUpd_mem, Dev.modLdg_mem, startDrovers_mem, startCal_mem, startParts_mem, startDram_mem, startSec_mem, loadStore_mem, enableHall_mem] | split | intro _ | exact memWf_nil)

theorem acceptLoss_wf (a1 d) (hd : memWf d.mem = true) : memWf (acceptLoss a1 d).1.mem = true := by
  unfold acceptLoss; (repeat' first | with_reducible assumption | with_reducible apply issueCtrl_wf | with_reducible apply foldl_wf | simp only [serveAlone_mem, clearLoss_mem] | split | intro _ | exact memWf_nil)

end Sys2Proof.Machine
end

