-- ==== Sys2Proof/Laws/MemBoard.lean ====
section
/-! SUPPORT. What the memory is after rings, power, firmware update, the recorder, resets and register rows: a `_mem` lemma says that an operation leaves
every byte as it was, a `_wf` lemma that it keeps the canonical form. -/
namespace Sys2Proof.Machine

/-! ## Machine/Rings.lean -/

@[simp] theorem useInline_mem (d a1 a2 a3) : (useInline d a1 a2 a3).mem = d.mem := by
  unfold useInline; (try dsimp only); (repeat' split) <;> first | (simp; done) | rfl

@[simp] theorem takeDoorbell_mem (a1 a2 d) : (takeDoorbell a1 a2 d).mem = d.mem := by
  unfold takeDoorbell; (try dsimp only); (repeat' split) <;> first | (simp; done) | rfl

@[simp] theorem fetchBatch_mem (d a1 a2) : (fetchBatch d a1 a2).mem = d.mem := by
  rfl

@[simp] theorem fetchTurn_mem (a1 d) : (fetchTurn a1 d).mem = d.mem := by
  unfold fetchTurn; (try dsimp only); (repeat' split) <;> first | (simp; done) | rfl

@[simp] theorem pickNumber_mem (d) : (pickNumber d).2.2.mem = d.mem := by
  rfl

@[simp] theorem takePoolKey_mem (a1 d) : (takePoolKey a1 d).mem = d.mem := by
  rfl

@[simp] theorem acceptConn_mem (d a1 a2 a3 a4) : (acceptConn d a1 a2 a3 a4).mem = d.mem := by
  unfold acceptConn; (try dsimp only); split <;> simp

@[simp] theorem setUp_mem (a1 a2 a3 a4 d) : (setUp a1 a2 a3 a4 d).mem = d.mem := by
  unfold setUp; (try dsimp only); (repeat' split) <;> first | (simp; done) | rfl

@[simp] theorem connectReq_mem (a1 a2 a3 d) : (connectReq a1 a2 a3 d).mem = d.mem := by
  unfold connectReq; (try dsimp only); (repeat' first | rfl | exact headCheck_mem _ _ _ (by assumption) | (rename_i hq; simp [headCheck_mem _ _ _ hq]; done) | (simp; done) | (simp_all; done) | (refine (foldl_mem _ _ (fun _ _ => ?_) _).trans ?_) | intro _ | split)

@[simp] theorem connectFin_mem (h mac n d) : (connectFin h mac n d).mem = d.mem := by
  unfold connectFin
  split
  · rename_i he; exact headCheck_mem _ _ _ he
  · (repeat' split) <;> simp

@[simp] theorem setupTimeout_mem (a1 d) : (setupTimeout a1 d).mem = d.mem := by
  unfold setupTimeout; (try dsimp only); (repeat' split) <;> first | (simp; done) | rfl

@[simp] theorem errorHold_mem (a1 d) : (errorHold a1 d).mem = d.mem := by
  unfold errorHold; (try dsimp only); (repeat' split) <;> first | (simp; done) | rfl

@[simp] theorem clientDisconnect_mem (a1 a2 d) : (clientDisconnect a1 a2 d).mem = d.mem := by
  unfold clientDisconnect; (try dsimp only); (repeat' split) <;> first | (simp; done) | rfl

@[simp] theorem takeFrame_mem (a1 a2 a3 d) : (takeFrame a1 a2 a3 d).mem = d.mem := by
  unfold takeFrame; (try dsimp only); split <;> simp

@[simp] theorem runFrame_mem (h b d) : (runFrame h b d).mem = d.mem := by
  unfold runFrame
  split
  · rename_i he; exact classify_mem _ _ _ he
  · simp

@[simp] theorem contextFilled_mem (a1 d) : (contextFilled a1 d).mem = d.mem := by
  unfold contextFilled; (try dsimp only); (repeat' first | (simp; done) | (refine (foldl_mem _ _ (fun _ _ => ?_) _).trans ?_) | split)

theorem connCmd_wf (a1 a2 d) (hd : memWf d.mem = true) : memWf (connCmd a1 a2 d).1.mem = true := by
  unfold connCmd; (repeat' first | with_reducible assumption | with_reducible apply issueCtrl_wf | with_reducible apply foldl_wf | simp only [Dev.modFolds_mem] | split | intro _ | exact memWf_nil)

@[simp] theorem clearCredKey_mem (d) : (clearCredKey d).mem = d.mem := foldl_mem _ _ (fun _ _ => setReg_mem _ _ _) _

theorem credCmd_wf (a1 a2 a3 d) (hd : memWf d.mem = true) : memWf (credCmd a1 a2 a3 d).1.mem = true := by
  unfold credCmd; (repeat' first | with_reducible assumption | with_reducible apply issueCtrl_wf | with_reducible apply sendCtrl_wf | with_reducible apply foldl_wf | simp only [clearCredKey_mem, writeThrough_mem, putCred_mem, markDirty_mem, Dev.modTwin_mem] | split | intro _ | exact memWf_nil)

/-! ## Machine/Power.lean -/

theorem tryStart_wf (d) (hd : memWf d.mem = true) : memWf (tryStart d).mem = true := by
  unfold tryStart; (repeat' first | with_reducible assumption | with_reducible apply powerUp_wf | with_reducible apply foldl_wf | simp only [Dev.modPwr_mem] | split | intro _ | exact memWf_nil)

theorem onRequest_wf (a1 d) (hd : memWf d.mem = true) : memWf (onRequest a1 d).mem = true := by
  unfold onRequest; (repeat' first | with_reducible assumption | with_reducible apply tryStart_wf | with_reducible apply foldl_wf | simp only [Dev.modPwr_mem, setPwr_mem] | split | intro _ | exact memWf_nil)

@[simp] theorem lockoutKeys_mem (d) : (lockoutKeys d).mem = d.mem := by
  unfold lockoutKeys; (try dsimp only); split <;> rfl

theorem offRequest_wf (a1 a2 a3 a4 d) (hd : memWf d.mem = true) : memWf (offRequest a1 a2 a3 a4 d).mem = true := by
  unfold offRequest; (repeat' first | with_reducible assumption | with_reducible apply startSave_wf | with_reducible apply foldl_wf | simp only [Dev.modPwr_mem, takeSnap_mem, lockoutKeys_mem, powerDown_mem, raiseOp_mem, setPwr_mem] | split | intro _ | exact memWf_nil)

theorem cutPower_wf (a1 d) (hd : memWf d.mem = true) : memWf (cutPower a1 d).mem = true := by
  unfold cutPower; (repeat' first | with_reducible assumption | with_reducible apply islandsDown_wf | with_reducible apply foldl_wf | simp only [takeSnap_mem, raise_mem, Dev.modPwr_mem, setPwr_mem, dropLines_mem] | split | intro _ | exact memWf_nil)

theorem mainFall_wf (d) (hd : memWf d.mem = true) : memWf (mainFall d).mem = true := by
  unfold mainFall; (repeat' first | with_reducible assumption | with_reducible apply offRequest_wf | with_reducible apply foldl_wf | simp only [chargerLines_mem, testFails_mem, Dev.modDur_mem, Dev.modPwr_mem] | split | intro _ | exact memWf_nil)

theorem mainRise_wf (d) (hd : memWf d.mem = true) : memWf (mainRise d).mem = true := by
  unfold mainRise; (repeat' first | with_reducible assumption | with_reducible apply onRequest_wf | with_reducible apply tryStart_wf | with_reducible apply foldl_wf | simp only [Dev.modDur_mem, chargerLines_mem] | split | intro _ | exact memWf_nil)

theorem pwronRise_wf (a1 d) (hd : memWf d.mem = true) : memWf (pwronRise a1 d).mem = true := by
  unfold pwronRise; (repeat' first | with_reducible assumption | with_reducible apply coldState_wf | with_reducible apply tryStart_wf | with_reducible apply foldl_wf | simp only [chargerLines_mem] | split | intro _ | exact memWf_nil)

theorem pwronFall_wf (d) (hd : memWf d.mem = true) : memWf (pwronFall d).mem = true := by
  unfold pwronFall; (repeat' first | with_reducible assumption | with_reducible apply coldState_wf | with_reducible apply foldl_wf | split | intro _ | exact memWf_nil)

theorem brownOut_wf (d) (hd : memWf d.mem = true) : memWf (brownOut d).mem = true := by
  unfold brownOut; (repeat' first | with_reducible assumption | with_reducible apply pwronFall_wf | with_reducible apply foldl_wf | split | intro _ | exact memWf_nil)

@[simp] theorem pgRise_mem (a1 d) : (pgRise a1 d).mem = d.mem := by
  unfold pgRise; (try dsimp only); split <;> rfl

theorem reachOn_wf (d) (hd : memWf d.mem = true) : memWf (reachOn d).mem = true := by
  unfold reachOn; (repeat' first | with_reducible assumption | with_reducible apply bootFinish_wf | with_reducible apply warmBegin_wf | with_reducible apply foldl_wf | simp only [Dev.modRst_mem] | split | intro _ | exact memWf_nil)

theorem settled_wf (a1 d) (hd : memWf d.mem = true) : memWf (settled a1 d).mem = true := by
  unfold settled; (repeat' first | with_reducible assumption | with_reducible apply reachOn_wf | with_reducible apply foldl_wf | simp only [setRail_mem, seqFault_mem, lowerStep_mem, Dev.modPwr_mem, beginStep_mem] | split | intro _ | exact memWf_nil)

@[simp] theorem pgTimeout_mem (d) : (pgTimeout d).mem = d.mem := by
  unfold pgTimeout; (try dsimp only); split <;> simp

theorem downEnded_wf (d) (hd : memWf d.mem = true) : memWf (downEnded d).mem = true := by
  unfold downEnded; (repeat' first | with_reducible assumption | with_reducible apply islandsDown_wf | with_reducible apply foldl_wf | simp only [Dev.modPwr_mem, setPwr_mem, dropLines_mem] | split | intro _ | exact memWf_nil)

theorem downExpiry_wf (d) (hd : memWf d.mem = true) : memWf (downExpiry d).mem = true := by
  unfold downExpiry; (repeat' first | with_reducible assumption | with_reducible apply downEnded_wf | with_reducible apply foldl_wf | simp only [lowerStep_mem] | split | intro _ | exact memWf_nil)

theorem minOffExpiry_wf (d) (hd : memWf d.mem = true) : memWf (minOffExpiry d).mem = true := by
  unfold minOffExpiry; (repeat' first | with_reducible assumption | with_reducible apply tryStart_wf | with_reducible apply foldl_wf | simp only [Dev.modPwr_mem] | split | intro _ | exact memWf_nil)

theorem railFault_wf (a1 a2 a3 d) (hd : memWf d.mem = true) : memWf (railFault a1 a2 a3 d).mem = true := by
  unfold railFault; (repeat' first | with_reducible assumption | with_reducible apply cutPower_wf | with_reducible apply offRequest_wf | with_reducible apply foldl_wf | simp only [setRail_mem, raise_mem, takeSnap_mem, seqFault_mem, Dev.modPwr_mem] | split | intro _ | exact memWf_nil)

@[simp] theorem chargerLow_mem (d) : (chargerLow d).mem = d.mem := by
  unfold chargerLow; (try dsimp only); split <;> simp

theorem tempConv_wf (a1 a2 d) (hd : memWf d.mem = true) : memWf (tempConv a1 a2 d).mem = true := by
  unfold tempConv; (repeat' first | with_reducible assumption | with_reducible apply offRequest_wf | with_reducible apply foldl_wf | simp only [Dev.modPwr_mem, raiseOp_mem, raise_mem, takeSnap_mem, seqFault_mem] | split | intro _ | exact memWf_nil)

@[simp] theorem setClocks_mem (d) : (setClocks d).mem = d.mem := by
  rfl

@[simp] theorem throttleStep_mem (d) : (throttleStep d).mem = d.mem := by
  unfold throttleStep; (try dsimp only); (repeat' split) <;> first | (simp; done) | rfl

@[simp] theorem holdTemp_mem (a1 a2 d) : (holdTemp a1 a2 d).mem = d.mem := by
  unfold holdTemp; (try dsimp only); (repeat' split) <;> first | (simp; done) | rfl

@[simp] theorem coreUpdate_mem (d) : (coreUpdate d).mem = d.mem := by
  unfold coreUpdate; (try dsimp only); (repeat' split) <;> first | (simp; done) | rfl

@[simp] theorem coreMet_mem (a1 d) : (coreMet a1 d).mem = d.mem := by
  unfold coreMet; (try dsimp only); split <;> rfl

@[simp] theorem coreUnmet_mem (d) : (coreUnmet d).mem = d.mem := by
  unfold coreUnmet; (try dsimp only); split <;> simp

@[simp] theorem calRun_mem (d) : (calRun d).1.mem = d.mem := by
  unfold calRun; (try dsimp only); (repeat' split) <;> first | (simp; done) | rfl

@[simp] theorem calDueNow_mem (d) : (calDueNow d).mem = d.mem := by
  unfold calDueNow; (try dsimp only); (repeat' split) <;> first | (simp; done) | rfl

@[simp] theorem calDone_mem (a1 d) : (calDone a1 d).mem = d.mem := by
  unfold calDone; (try dsimp only); (repeat' split) <;> first | (simp; done) | rfl

theorem offCmd_wf (a1 d) (hd : memWf d.mem = true) : memWf (offCmd a1 d).1.mem = true := by
  unfold offCmd; (repeat' first | with_reducible assumption | with_reducible apply offRequest_wf | with_reducible apply foldl_wf | split | intro _ | exact memWf_nil)

/-! ## Machine/Update.lean -/

@[simp] theorem updCmd_mem (g0 d) (hg0 : ∀ x0, (g0 x0).mem = x0.mem) : (updCmd g0 d).1.mem = d.mem := by
  unfold updCmd; (try dsimp only); (repeat' first | rfl | (simp_all; done) | (refine (foldl_mem _ _ (fun _ _ => ?_) _).trans ?_) | split)

theorem updCmd_wf (g0 d) (hg0 : ∀ x0, memWf x0.mem = true → memWf (g0 x0).mem = true) (hd : memWf d.mem = true) : memWf (updCmd g0 d).1.mem = true := by
  unfold updCmd; (repeat' first | with_reducible assumption | with_reducible apply hg0 | with_reducible apply foldl_wf | split | intro _ | exact memWf_nil)

@[simp] theorem updEnd_mem (d a1) : (updEnd d a1).mem = d.mem := by
  rfl

@[simp] theorem journalStage_mem (a1 d) : (journalStage a1 d).mem = d.mem := by
  rfl

@[simp] theorem stageEnds_mem (d a1) : (stageEnds d a1).mem = d.mem := by
  simp [stageEnds]

@[simp] theorem stageDelta_mem (d) : (stageDelta d).mem = d.mem := by
  rw [stageDelta]
  split
  · rw [stageEnds_mem]
  · split
    · rw [stageEnds_mem]
    · split
      · dsimp only
        split
        · rw [journalStage_mem, stageEnds_mem, countErases_mem, setBank_mem]
        · rw [journalStage_mem, Dev.modUpd_mem, countErases_mem, setBank_mem]
      · rw [stageEnds_mem]

@[simp] theorem stageDone_mem (d) : (stageDone d).mem = d.mem := by
  unfold stageDone; (try dsimp only); (repeat' split) <;> first | (simp; done) | rfl

theorem activateStart_wf (a1 d) (hd : memWf d.mem = true) : memWf (activateStart a1 d).mem = true := by
  unfold activateStart; (repeat' first | with_reducible assumption | with_reducible apply budgetUpdate_wf | with_reducible apply foldl_wf | simp only [journalStage_mem, setBoot_mem, Dev.modLdg_mem, sendRecs_mem, enterState_mem, leavePair_mem, Dev.modUpd_mem] | split | intro _ | exact memWf_nil)

theorem activate_wf (d) (hd : memWf d.mem = true) : memWf (activate d).mem = true := by
  unfold activate; (repeat' first | with_reducible assumption | with_reducible apply activateStart_wf | with_reducible apply foldl_wf | simp only [updEnd_mem] | split | intro _ | exact memWf_nil)

theorem revert_wf (d) (hd : memWf d.mem = true) : memWf (revert d).mem = true := by
  unfold revert; (repeat' first | with_reducible assumption | with_reducible apply activateStart_wf | with_reducible apply foldl_wf | simp only [updEnd_mem] | split | intro _ | exact memWf_nil)

theorem reload_wf (d) (hd : memWf d.mem = true) : memWf (reload d).mem = true := by
  unfold reload; (repeat' first | with_reducible assumption | with_reducible apply runOut_wf | with_reducible apply settleFully_wf | with_reducible apply foldl_wf | simp only [journalStage_mem, Dev.modLdg_mem, Dev.modUpd_mem, updEnd_mem, raiseOp_mem, sendHello_mem, newNonce_mem] | split | intro _ | exact memWf_nil)

@[simp] theorem updCommit_mem (a1 d) : (updCommit a1 d).mem = d.mem := by
  unfold updCommit; (try dsimp only); (repeat' split) <;> first | (simp; done) | rfl

@[simp] theorem updRevoke_mem (a1 a2 d) : (updRevoke a1 a2 d).mem = d.mem := by
  unfold updRevoke; (try dsimp only); (repeat' split) <;> first | (simp; done) | rfl

@[simp] theorem inRecovery_mem (a1 g0 d) (hg0 : ∀ x0, (g0 x0).mem = x0.mem) : (inRecovery a1 g0 d).mem = d.mem := by
  unfold inRecovery; (try dsimp only); (repeat' first | rfl | (simp_all; done) | (refine (foldl_mem _ _ (fun _ _ => ?_) _).trans ?_) | split)

theorem inRecovery_wf (a1 g0 d) (hg0 : ∀ x0, memWf x0.mem = true → memWf (g0 x0).mem = true) (hd : memWf d.mem = true) : memWf (inRecovery a1 g0 d).mem = true := by
  unfold inRecovery; (repeat' first | with_reducible assumption | with_reducible apply hg0 | with_reducible apply foldl_wf | simp only [updEnd_mem] | split | intro _ | exact memWf_nil)

@[simp] theorem recoverBegin_mem (d) : (recoverBegin d).mem = d.mem := by
  rw [recoverBegin, Dev.modUpd_mem, updEnd_mem, countErases_mem, setBank_mem]

@[simp] theorem recoverWord_mem (a1 a2 d) : (recoverWord a1 a2 d).1.mem = d.mem := by
  unfold recoverWord; (try dsimp only); split <;> rfl

theorem bootAgain_wf (d) (hd : memWf d.mem = true) : memWf (bootAgain d).mem = true := by
  unfold bootAgain; (repeat' first | with_reducible assumption | with_reducible apply bootFinish_wf | with_reducible apply foldl_wf | simp only [Dev.modLdg_mem, romBanks_mem] | split | intro _ | exact memWf_nil)

theorem recoverEnd_wf (d) (hd : memWf d.mem = true) : memWf (recoverEnd d).mem = true := by
  unfold recoverEnd; (repeat' first | with_reducible assumption | with_reducible apply bootAgain_wf | with_reducible apply foldl_wf | simp only [setBoot_mem, updEnd_mem, Dev.modUpd_mem, Dev.modLdg_mem] | split | intro _ | exact memWf_nil)

/-! ## Machine/Recorder.lean -/

@[simp] theorem eraseOld_mem (d) : (eraseOld d).mem = d.mem := by
  unfold eraseOld; (try dsimp only); (repeat' first | (simp; done) | (refine (foldl_mem _ _ (fun _ _ => ?_) _).trans ?_) | split)

@[simp] theorem keepAhead_mem (d) : (keepAhead d).mem = d.mem := by
  unfold keepAhead; (try dsimp only); split <;> simp

@[simp] theorem recorderWrite_mem (d) : (recorderWrite d).mem = d.mem := by
  unfold recorderWrite; (try dsimp only); (repeat' split) <;> first | (simp; done) | rfl

@[simp] theorem clearRecorder_mem (a1 a2 d) : (clearRecorder a1 a2 d).1.mem = d.mem := by
  unfold clearRecorder; (try dsimp only); (repeat' split) <;> first | (simp; done) | rfl

@[simp] theorem codeRefill_mem (a1 d) : (codeRefill a1 d).mem = d.mem := by
  unfold codeRefill; (try dsimp only); split <;> rfl

@[simp] theorem foldRefill_mem (a1 d) : (foldRefill a1 d).mem = d.mem := by
  unfold foldRefill; (try dsimp only); split <;> rfl

theorem foldRlWrite_wf (a1 d) (hd : memWf d.mem = true) : memWf (foldRlWrite a1 d).1.mem = true := by
  unfold foldRlWrite; (repeat' first | with_reducible assumption | with_reducible apply issueCtrl_wf | with_reducible apply foldl_wf | split | intro _ | exact memWf_nil)

@[simp] theorem codeRlWrite_mem (a1 d) : (codeRlWrite a1 d).1.mem = d.mem := by
  rfl

@[simp] theorem dropRead_mem (d) : (dropRead d).1.mem = d.mem := by
  rfl

@[simp] theorem pendClear_mem (a1 d) : (pendClear a1 d).1.mem = d.mem := by
  rfl

@[simp] theorem snapWrite_mem (a1 a2 d) : (snapWrite a1 a2 d).1.mem = d.mem := by
  unfold snapWrite; (try dsimp only); (repeat' split) <;> first | (simp; done) | rfl

@[simp] theorem ringCmd_mem (g0 d) (hg0 : ∀ x0, (g0 x0).mem = x0.mem) : (ringCmd g0 d).1.mem = d.mem := by
  unfold ringCmd; (try dsimp only); (repeat' first | rfl | (simp_all; done) | (refine (foldl_mem _ _ (fun _ _ => ?_) _).trans ?_) | split)

theorem ringCmd_wf (g0 d) (hg0 : ∀ x0, memWf x0.mem = true → memWf (g0 x0).mem = true) (hd : memWf d.mem = true) : memWf (ringCmd g0 d).1.mem = true := by
  unfold ringCmd; (repeat' first | with_reducible assumption | with_reducible apply hg0 | with_reducible apply foldl_wf | split | intro _ | exact memWf_nil)

@[simp] theorem ringResult_mem (d a1) : (ringResult d a1).mem = d.mem := by
  rfl

theorem ringBind_wf (d) (hd : memWf d.mem = true) : memWf (ringBind d).mem = true := by
  unfold ringBind; (repeat' first | with_reducible assumption | with_reducible apply issueCtrl_wf | with_reducible apply foldl_wf | simp only [ringResult_mem] | split | intro _ | exact memWf_nil)

theorem ringUnbind_wf (d) (hd : memWf d.mem = true) : memWf (ringUnbind d).mem = true := by
  unfold ringUnbind; (repeat' first | with_reducible assumption | with_reducible apply issueCtrl_wf | with_reducible apply foldl_wf | simp only [ringResult_mem] | split | intro _ | exact memWf_nil)

@[simp] theorem ageing_mem (a1 d) : (ageing a1 d).mem = d.mem := by
  simp [ageing]

/-! ## Machine/Reset.lean -/

@[simp] theorem resetCmd_mem (a1 g0 d) (hg0 : ∀ x0, (g0 x0).1.mem = x0.mem) : (resetCmd a1 g0 d).1.mem = d.mem := by
  unfold resetCmd; (try dsimp only); (repeat' first | rfl | (simp_all; done) | (refine (foldl_mem _ _ (fun _ _ => ?_) _).trans ?_) | split)

theorem resetCmd_wf (a1 g0 d) (hg0 : ∀ x0, memWf x0.mem = true → memWf (g0 x0).1.mem = true) (hd : memWf d.mem = true) : memWf (resetCmd a1 g0 d).1.mem = true := by
  unfold resetCmd; (repeat' first | with_reducible assumption | with_reducible apply hg0 | with_reducible apply foldl_wf | simp only [Dev.modRst_mem] | split | intro _ | exact memWf_nil)

@[simp] theorem warmCmd_mem (a1 d) : (warmCmd a1 d).1.mem = d.mem := by
  unfold warmCmd; (try dsimp only); split <;> rfl

@[simp] theorem galleryCmd_mem (a1 d) : (galleryCmd a1 d).1.mem = d.mem := by
  unfold galleryCmd; (try dsimp only); (repeat' split) <;> first | (simp; done) | rfl

theorem foldCmd_wf (d) (hd : memWf d.mem = true) : memWf (foldCmd d).1.mem = true := by
  unfold foldCmd; (repeat' first | with_reducible assumption | with_reducible apply issueCtrl_wf | with_reducible apply foldl_wf | simp only [Dev.modRst_mem] | split | intro _ | exact memWf_nil)

theorem connectionCmd_wf (a1 d) (hd : memWf d.mem = true) : memWf (connectionCmd a1 d).1.mem = true := by
  unfold connectionCmd; (repeat' first | with_reducible assumption | with_reducible apply issueCtrl_wf | with_reducible apply foldl_wf | simp only [raise_mem, Dev.modRst_mem] | split | intro _ | exact memWf_nil)

@[simp] theorem blockAtReset_mem (d a1) : (blockAtReset d a1).mem = d.mem := by
  rfl

@[simp] theorem rewriteBlock_mem (d a1) : (rewriteBlock d a1).mem = d.mem := by
  rfl

@[simp] theorem portCmd_mem (d) : (portCmd d).1.mem = d.mem := by
  unfold portCmd; (try dsimp only); (repeat' split) <;> first | (simp; done) | rfl

theorem runGallery_wf (a1 d) (hd : memWf d.mem = true) : memWf (runGallery a1 d).mem = true := by
  unfold runGallery; (repeat' first | with_reducible assumption | with_reducible apply workAll_wf | with_reducible apply foldl_wf | simp only [complete_mem] | split | intro _ | exact memWf_nil)

theorem galleryBegin_wf (a1 d) (hd : memWf d.mem = true) : memWf (galleryBegin a1 d).mem = true := by
  unfold galleryBegin; (repeat' first | with_reducible assumption | with_reducible apply runGallery_wf | with_reducible apply foldl_wf | simp only [Dev.modRst_mem, forgetOp_mem, Dev.modNet_mem, Dev.modSec_mem, recallPen_mem, Dev.modFolds_mem, blockAtReset_mem] | split | intro _ | exact memWf_nil)

theorem galleryDone_wf (d) (hd : memWf d.mem = true) : memWf (galleryDone d).mem = true := by
  unfold galleryDone; (repeat' first | with_reducible assumption | with_reducible apply drainHeld_wf | with_reducible apply foldl_wf | simp only [Dev.modNet_mem, rewriteBlock_mem, Dev.modRst_mem, raiseOp_mem] | split | intro _ | exact memWf_nil)

theorem resetStart_wf (d) (hd : memWf d.mem = true) : memWf (resetStart d).mem = true := by
  unfold resetStart; (repeat' first | with_reducible assumption | with_reducible apply warmRequest_wf | with_reducible apply galleryBegin_wf | with_reducible apply foldl_wf | simp only [Dev.modRst_mem] | split | intro _ | exact memWf_nil)

@[simp] theorem foldDone_mem (d) : (foldDone d).mem = d.mem := by
  unfold foldDone; (try dsimp only); (repeat' split) <;> first | (simp; done) | rfl

theorem warmLow_wf (d) (hd : memWf d.mem = true) : memWf (warmLow d).mem = true := by
  unfold warmLow; (repeat' first | with_reducible assumption | with_reducible apply warmRequest_wf | with_reducible apply foldl_wf | simp only [Dev.modPwr_mem] | split | intro _ | exact memWf_nil)

@[simp] theorem warmHigh_mem (d) : (warmHigh d).mem = d.mem := by
  unfold warmHigh; (try dsimp only); split <;> simp

@[simp] theorem holdEnd_mem (d) : (holdEnd d).mem = d.mem := by
  unfold holdEnd; (try dsimp only); split <;> simp

@[simp] theorem ownerOnly_mem (a1 g0 d) (hg0 : ∀ x0, (g0 x0).mem = x0.mem) : (ownerOnly a1 g0 d).1.mem = d.mem := by
  unfold ownerOnly; (try dsimp only); (repeat' first | rfl | (simp_all; done) | (refine (foldl_mem _ _ (fun _ _ => ?_) _).trans ?_) | split)

theorem ownerOnly_wf (a1 g0 d) (hg0 : ∀ x0, memWf x0.mem = true → memWf (g0 x0).mem = true) (hd : memWf d.mem = true) : memWf (ownerOnly a1 g0 d).1.mem = true := by
  unfold ownerOnly; (repeat' first | with_reducible assumption | with_reducible apply hg0 | with_reducible apply foldl_wf | simp only [Dev.modRst_mem] | split | intro _ | exact memWf_nil)

@[simp] theorem stageOpen_mem (a1 d) : (stageOpen a1 d).1.mem = d.mem := by
  unfold stageOpen; (try dsimp only); split <;> rfl

theorem sendBank_wf (d) (hd : memWf d.mem = true) : memWf (sendBank d).mem = true := by
  unfold sendBank; (repeat' first | with_reducible assumption | with_reducible apply issueCtrl_wf | with_reducible apply foldl_wf | simp only [Dev.modRst_mem, raiseOp_mem] | split | intro _ | exact memWf_nil)

theorem commitBank_wf (d) (hd : memWf d.mem = true) : memWf (commitBank d).mem = true := by
  unfold commitBank; (repeat' first | with_reducible assumption | with_reducible apply sendBank_wf | with_reducible apply foldl_wf | simp only [Dev.modRst_mem] | split | intro _ | exact memWf_nil)

@[simp] theorem abandonBank_mem (d) : (abandonBank d).mem = d.mem := by
  simp [abandonBank]

@[simp] theorem bankLapse_mem (d) : (bankLapse d).mem = d.mem := by
  unfold bankLapse; (try dsimp only); split <;> simp

theorem bankDrained_wf (d) (hd : memWf d.mem = true) : memWf (bankDrained d).mem = true := by
  unfold bankDrained; (repeat' first | with_reducible assumption | with_reducible apply sendBank_wf | with_reducible apply foldl_wf | simp only [Dev.modRst_mem] | split | intro _ | exact memWf_nil)

theorem sharedWrite_wf (a1 a2 a3 d) (hd : memWf d.mem = true) : memWf (sharedWrite a1 a2 a3 d).1.mem = true := by
  unfold sharedWrite; (repeat' first | with_reducible assumption | with_reducible apply issueCtrl_wf | with_reducible apply foldl_wf | simp only [Dev.modRst_mem] | split | intro _ | exact memWf_nil)

/-! ## Machine/Registers.lean -/

@[simp] theorem dropLatch_mem (d a1 a2) : (dropLatch d a1 a2).mem = d.mem := by
  rfl

@[simp] theorem latch_mem (a1 a2 d) : (latch a1 a2 d).mem = d.mem := by
  unfold latch; (try dsimp only); (repeat' first | (simp; done) | (refine (foldl_mem _ _ (fun _ _ => ?_) _).trans ?_) | split)

@[simp] theorem eccRead_mem (a1 d) : (eccRead a1 d).1.mem = d.mem := by
  unfold eccRead; (try dsimp only); split <;> rfl

@[simp] theorem readCore_mem (a1 a2 d) : (readCore a1 a2 d).1.mem = d.mem := by
  unfold readCore; (try dsimp only); (repeat' split) <;> first | (simp; done) | rfl

@[simp] theorem setPlain_mem (a1 a2 d) : (setPlain a1 a2 d).1.mem = d.mem := by
  rfl

@[simp] theorem setStaged_mem (a1 a2 d) : (setStaged a1 a2 d).1.mem = d.mem := by
  rfl

@[simp] theorem wakeNamed_mem (d) : (wakeNamed d).mem = d.mem := by
  rfl

@[simp] theorem ethMode_mem (a1 d) : (ethMode a1 d).1.mem = d.mem := by
  unfold ethMode; (try dsimp only); split <;> rfl

@[simp] theorem galClkWrite_mem (a1 d) : (galClkWrite a1 d).1.mem = d.mem := by
  rfl

@[simp] theorem portCfg_mem (a1 a2 d) : (portCfg a1 a2 d).1.mem = d.mem := by
  unfold portCfg; (try dsimp only); split <;> simp

@[simp] theorem capWrite_mem (a1 d) : (capWrite a1 d).1.mem = d.mem := by
  rfl

@[simp] theorem shortClear_mem (a1 d) : (shortClear a1 d).1.mem = d.mem := by
  rfl

@[simp] theorem clsWrite_mem (a1 d) : (clsWrite a1 d).1.mem = d.mem := by
  rfl

@[simp] theorem snapSel_mem (a1 d) : (snapSel a1 d).1.mem = d.mem := by
  rfl

@[simp] theorem fchgWrite_mem (a1 d) : (fchgWrite a1 d).1.mem = d.mem := by
  unfold fchgWrite; (try dsimp only); split <;> simp

theorem glbReset_wf (a1 a2 d) (hd : memWf d.mem = true) : memWf (glbReset a1 a2 d).1.mem = true := by
  unfold glbReset; (repeat' first | with_reducible assumption | with_reducible apply foldCmd_wf | with_reducible apply connectionCmd_wf | with_reducible apply resetCmd_wf | with_reducible apply foldl_wf | simp only [resetCmd_mem, warmCmd_mem, galleryCmd_mem, portCmd_mem] | split | intro _ | exact memWf_nil)

theorem glbStage_wf (a1 a2 d) (hd : memWf d.mem = true) : memWf (glbStage a1 a2 d).1.mem = true := by
  unfold glbStage; (repeat' first | with_reducible assumption | with_reducible apply commitBank_wf | with_reducible apply ownerOnly_wf | with_reducible apply foldl_wf | simp only [stageOpen_mem, ownerOnly_mem, abandonBank_mem] | split | intro _ | exact memWf_nil)

@[simp] theorem shpWrite_mem (a1 d) : (shpWrite a1 d).1.mem = d.mem := by
  unfold shpWrite; (try dsimp only); split <;> simp

theorem pwrCmd_wf (a1 d) (hd : memWf d.mem = true) : memWf (pwrCmd a1 d).1.mem = true := by
  unfold pwrCmd; (repeat' first | with_reducible assumption | with_reducible apply offCmd_wf | with_reducible apply onRequest_wf | with_reducible apply foldl_wf | split | intro _ | exact memWf_nil)

theorem durCmd_wf (a1 d) (hd : memWf d.mem = true) : memWf (durCmd a1 d).1.mem = true := by
  unfold durCmd; (repeat' first | with_reducible assumption | with_reducible apply acceptLoss_wf | with_reducible apply foldl_wf | simp only [scheduleTest_mem] | split | intro _ | exact memWf_nil)

theorem ringWrite_wf (a1 d) (hd : memWf d.mem = true) : memWf (ringWrite a1 d).1.mem = true := by
  unfold ringWrite; (repeat' first | with_reducible assumption | with_reducible apply ringBind_wf | with_reducible apply ringUnbind_wf | with_reducible apply ringCmd_wf | with_reducible apply foldl_wf | simp only [ringCmd_mem, ringResult_mem] | split | intro _ | exact memWf_nil)

theorem secWrite_wf (a1 d) (hd : memWf d.mem = true) : memWf (secWrite a1 d).1.mem = true := by
  unfold secWrite; (repeat' first | with_reducible assumption | with_reducible apply clearLockout_wf | with_reducible apply secCmd_wf | with_reducible apply foldl_wf | simp only [secCmd_mem, lowerClass_mem, provisionClear_mem] | split | intro _ | exact memWf_nil)

theorem keyWrite_wf (a1 d) (hd : memWf d.mem = true) : memWf (keyWrite a1 d).1.mem = true := by
  unfold keyWrite; (repeat' first | with_reducible assumption | with_reducible apply keyCmd_wf | with_reducible apply foldl_wf | split | intro _ | exact memWf_nil)

@[simp] theorem pkeWrite_mem (a1 d) : (pkeWrite a1 d).1.mem = d.mem := by
  unfold pkeWrite; (try dsimp only); split <;> simp

theorem twnWrite_wf (a1 d) (hd : memWf d.mem = true) : memWf (twnWrite a1 d).1.mem = true := by
  unfold twnWrite; (repeat' first | with_reducible assumption | with_reducible apply clearOverride_wf | with_reducible apply setWindow_wf | with_reducible apply twnRun_wf | with_reducible apply confirmed_wf | with_reducible apply foldl_wf | simp only [twnRun_mem, swap_mem, confirmed_mem, reseed_mem, forceUnpaired_mem, setTest_mem, provision_mem] | split | intro _ | exact memWf_nil)

theorem updWrite_wf (a1 a2 d) (hd : memWf d.mem = true) : memWf (updWrite a1 a2 d).1.mem = true := by
  unfold updWrite; (repeat' first | with_reducible assumption | with_reducible apply activate_wf | with_reducible apply revert_wf | with_reducible apply recoverEnd_wf | with_reducible apply updCmd_wf | with_reducible apply inRecovery_wf | with_reducible apply foldl_wf | simp only [updCmd_mem, stageDelta_mem, updCommit_mem, updRevoke_mem, inRecovery_mem, recoverBegin_mem] | split | intro _ | exact memWf_nil)

@[simp] theorem halWrite_mem (a1 d) : (halWrite a1 d).1.mem = d.mem := by
  unfold halWrite; (try dsimp only); split <;> simp

theorem connWrite_wf (a1 d) (hd : memWf d.mem = true) : memWf (connWrite a1 d).1.mem = true := by
  unfold connWrite; (repeat' first | with_reducible assumption | with_reducible apply connCmd_wf | with_reducible apply foldl_wf | split | intro _ | exact memWf_nil)

theorem credWrite_wf (a1 a2 d) (hd : memWf d.mem = true) : memWf (credWrite a1 a2 d).1.mem = true := by
  unfold credWrite; (repeat' first | with_reducible assumption | with_reducible apply credCmd_wf | with_reducible apply foldl_wf | split | intro _ | exact memWf_nil)

theorem slotWrite_wf (p s o v d) (h : memWf d.mem = true) : memWf (slotWrite p s o v d).1.mem = true := by
  unfold slotWrite
  split
  · split
    · exact rmaWrite_wf _ _ _ _ _ h
    · split
      · rename_i hq; rw [takeSlot_mem _ _ _ hq]; exact h
      · exact h
  · split
    · rw [argWrite_mem]; exact h
    · exact h

theorem writeAt_wf (a1 a2 a3 d) (hd : memWf d.mem = true) : memWf (writeAt a1 a2 a3 d).1.mem = true := by
  unfold writeAt; (repeat' first | with_reducible assumption | with_reducible apply sharedWrite_wf | with_reducible apply glbReset_wf | with_reducible apply glbStage_wf | with_reducible apply pwrCmd_wf | with_reducible apply durCmd_wf | with_reducible apply foldRlWrite_wf | with_reducible apply ringWrite_wf | with_reducible apply secWrite_wf | with_reducible apply keyWrite_wf | with_reducible apply twnWrite_wf | with_reducible apply updWrite_wf | with_reducible apply slotWrite_wf | with_reducible apply connWrite_wf | with_reducible apply credWrite_wf | with_reducible apply foldl_wf | simp only [targetWrite_mem, setStaged_mem, ethMode_mem, galClkWrite_mem, wakeNamed_mem, setPlain_mem, shpWrite_mem, ldgKey_mem, ldgCmd_mem, ldgAddr_mem, ldgData_mem, shortClear_mem, capWrite_mem, calRun_mem, pendClear_mem, codeRlWrite_mem, snapSel_mem, snapWrite_mem, clearRecorder_mem, clsWrite_mem, pkeWrite_mem, recoverWord_mem, halCtrl_mem, halWrite_mem, portCfg_mem, armInj_mem, fchgWrite_mem] | split | intro _ | exact memWf_nil)

theorem writeCore_wf (a1 a2 a3 d) (hd : memWf d.mem = true) : memWf (writeCore a1 a2 a3 d).1.mem = true := by
  unfold writeCore; (repeat' first | with_reducible assumption | with_reducible apply writeAt_wf | with_reducible apply foldl_wf | simp only [dropLatch_mem] | split | intro _ | exact memWf_nil)

@[simp] theorem endReg_mem (d a1 a2 a3 a4) : (endReg d a1 a2 a3 a4).mem = d.mem := by
  unfold endReg; (try dsimp only); (repeat' split) <;> first | (simp; done) | rfl

theorem accessHere_wf (a1 a2 a3 a4 d) (hd : memWf d.mem = true) : memWf (accessHere a1 a2 a3 a4 d).1.mem = true := by
  unfold accessHere; (repeat' first | with_reducible assumption | with_reducible apply writeCore_wf | with_reducible apply foldl_wf | simp only [readCore_mem] | split | intro _ | exact memWf_nil)

@[simp] theorem relayReg_mem (d a1 a2) : (relayReg d a1 a2).mem = d.mem := by
  unfold relayReg; (try dsimp only); (repeat' split) <;> first | (simp; done) | rfl

theorem stampReg_wf (d a1) (hd : memWf d.mem = true) : memWf (stampReg d a1).mem = true := by
  unfold stampReg; (repeat' first | with_reducible assumption | with_reducible apply applyCtrl_wf | with_reducible apply foldl_wf | simp only [stampCtrl_mem, setOp_mem, complete_mem] | split | intro _ | exact memWf_nil)

theorem regOp_wf (a1 a2 a3 d) (hd : memWf d.mem = true) : memWf (regOp a1 a2 a3 d).mem = true := by
  unfold regOp; (repeat' first | with_reducible assumption | with_reducible apply advanceAs_wf | with_reducible apply stampReg_wf | with_reducible apply accessHere_wf | with_reducible apply foldl_wf | simp only [relayReg_mem, endReg_mem] | split | intro _ | exact memWf_nil)

theorem regAccess_wf (a1 a2 d) (hd : memWf d.mem = true) : memWf (regAccess a1 a2 d).mem = true := by
  unfold regAccess; (repeat' first | with_reducible assumption | with_reducible apply writeCore_wf | with_reducible apply regOp_wf | with_reducible apply command_wf | with_reducible apply readAs_wf | with_reducible apply foldl_wf | simp only [command_mem, readAs_mem, readCore_mem] | split | intro _ | exact memWf_nil)

@[simp] theorem onBus_mem (g0 d) (hg0 : ∀ x0, (g0 x0).mem = x0.mem) : (onBus g0 d).mem = d.mem := by
  unfold onBus; (try dsimp only); (repeat' first | rfl | (simp_all; done) | (refine (foldl_mem _ _ (fun _ _ => ?_) _).trans ?_) | split)

theorem onBus_wf (g0 d) (hg0 : ∀ x0, memWf x0.mem = true → memWf (g0 x0).mem = true) (hd : memWf d.mem = true) : memWf (onBus g0 d).mem = true := by
  unfold onBus; (repeat' first | with_reducible assumption | with_reducible apply hg0 | with_reducible apply foldl_wf | split | intro _ | exact memWf_nil)

@[simp] theorem i3cPoint_mem (a1 d) : (i3cPoint a1 d).mem = d.mem := by
  rfl

theorem i3cStore_wf (a1 a2 d) (hd : memWf d.mem = true) : memWf (i3cStore a1 a2 d).mem = true := by
  unfold i3cStore; (repeat' first | with_reducible assumption | with_reducible apply accessHere_wf | with_reducible apply foldl_wf | simp only [Dev.modI3c_mem, answer_mem] | split | intro _ | exact memWf_nil)

theorem i3cLoad_wf (d) (hd : memWf d.mem = true) : memWf (i3cLoad d).mem = true := by
  unfold i3cLoad; (repeat' first | with_reducible assumption | with_reducible apply accessHere_wf | with_reducible apply foldl_wf | simp only [Dev.modI3c_mem, answer_mem] | split | intro _ | exact memWf_nil)

@[simp] theorem i3cSay_mem (a1 d) : (i3cSay a1 d).mem = d.mem := by
  rfl

@[simp] theorem i3cTake_mem (a1 d) : (i3cTake a1 d).mem = d.mem := by
  rfl

@[simp] theorem setGate_mem (a1 a2 d) : (setGate a1 a2 d).mem = d.mem := by
  rfl

@[simp] theorem gateIsland_mem (a1 d) : (gateIsland a1 d).mem = d.mem := by
  unfold gateIsland; (try dsimp only); split <;> rfl

@[simp] theorem loadTap_mem (a1 d) : (loadTap a1 d).mem = d.mem := by
  rfl

/-! ## Machine/Relay.lean -/

theorem takeRegReq_wf (d a1 a2 a3) (hd : memWf d.mem = true) : memWf (takeRegReq d a1 a2 a3).mem = true := by
  unfold takeRegReq; (repeat' first | with_reducible assumption | with_reducible apply accessHere_wf | with_reducible apply foldl_wf | simp only [sendRecs_mem] | split | intro _ | exact memWf_nil)

@[simp] theorem takeRegRsp_mem (d a1 a2 a3) : (takeRegRsp d a1 a2 a3).mem = d.mem := by
  unfold takeRegRsp; (try dsimp only); (repeat' split) <;> first | (simp; done) | rfl

theorem takeRec_wf (d a1) (hd : memWf d.mem = true) : memWf (takeRec d a1).mem = true := by
  unfold takeRec; (repeat' first | with_reducible assumption | with_reducible apply takeRegReq_wf | with_reducible apply handleRec_wf | with_reducible apply foldl_wf | simp only [takeRegRsp_mem] | split | intro _ | exact memWf_nil)

end Sys2Proof.Machine
end

