-- ==== Sys2Proof/Laws/Operations.lean ====
section
/-! SUPPORT. What the ending of an operation does to its connection, and what a stage leaves of the operations. -/
namespace Sys2Proof.Machine

theorem findOp_dropOp (d : Dev) (n : Nat) (seq : Word) : findOp (dropOp d n seq) n seq = none := by
  have h : (dropOp d n seq).net.ops = d.net.ops.filter fun p => !(p.conn = n && p.seq = seq) := by
    unfold dropOp modConn; split <;> rfl
  unfold findOp
  rw [h, List.find?_eq_none]
  intro o ho
  rw [List.mem_filter] at ho
  have := ho.2
  simp only [Bool.not_eq_true'] at this
  simp [this]

theorem dropOp_ops (d : Dev) (n : Nat) (seq : Word) :
    (dropOp d n seq).net.ops = d.net.ops.filter fun p => !(p.conn = n && p.seq = seq) := by
  unfold dropOp modConn; split <;> rfl

theorem sendRecs_net (d : Dev) (rs : List Rec) : (sendRecs d rs).net = d.net := by
  have key (n : Nat) : ∀ d : Dev, (pumpFrames n d).net = d.net := by
    induction n with
    | zero => exact fun _ => rfl
    | succ n ih => intro d; simp only [pumpFrames]; split; exacts [rfl, (ih _).trans rfl]
  exact (key _ _).trans rfl

theorem tell_conns (d : Dev) (r : Rec) : (tell d r).net = d.net := by
  unfold tell; split; exacts [sendRecs_net _ _, rfl]

theorem noteStore_net (d : Dev) (n : Nat) (seq : Word) (st : Option Stamp) : (noteStore d n seq st).net = d.net := by
  unfold noteStore; split <;> rfl

theorem noteStore_getConn (d : Dev) (m : Nat) (seq : Word) (st : Option Stamp) (n : Nat) :
    getConn (noteStore d m seq st) n = getConn d n := by
  unfold getConn; rw [noteStore_net]

theorem tell_getConn (d : Dev) (r : Rec) (n : Nat) : getConn (tell d r) n = getConn d n := by
  unfold getConn; rw [tell_conns]

theorem stored_markExecuted (c : Conn) (seq : Word) (e : Entry) : stored (markExecuted c seq e) seq = some e := by
  unfold stored markExecuted
  dsimp only
  rw [List.find?_append]
  have : (c.store.filter fun q => q.1 ≠ seq).find? (fun q => q.1 = seq) = none := by
    rw [List.find?_eq_none]; intro q hq; rw [List.mem_filter] at hq; simpa using hq.2
  rw [this]; simp

/-- No operation waits: nothing else ends with this one. -/
theorem wakeLoop_none : ∀ (k : Nat) (d : Dev) (ts : List Nat), (∀ o ∈ d.net.ops, o.stage ≠ .waiting) → wakeLoop k d ts = d
  | 0, d, ts, _ => by simp [wakeLoop]
  | k + 1, d, [], _ => by simp [wakeLoop]
  | k + 1, d, t :: ts, h => by
    have hf : ∀ n : Nat, (d.net.ops.find? fun o => o.stage = .waiting && o.desc.op = .wait && o.target = some t &&
        decide (o.desc.offset2.toNat ≤ n)) = none := by
      intro n; rw [List.find?_eq_none]; intro o ho; simp [h o ho]
    simp only [wakeLoop, hf]
    split
    · exact wakeLoop_none k d ts h
    · exact wakeLoop_none k d ts h

theorem endCore_ops (d : Dev) (o : Op) (e : Entry) (x : Option (DWord × Word × List Byte)) :
    (endCore d o e x).net.ops = d.net.ops.filter fun p => !(p.conn = o.conn && p.seq = o.seq) := by
  have hm : ∀ (d : Dev) (n : Nat) (f : Conn → Conn), (modConn d n f).net.ops = d.net.ops := by
    intro d n f; obtain ⟨cs, h⟩ := modConn_net d n f; rw [h]
  have ht : ∀ (d : Dev) (n : Nat) (c : Conn) (e : Entry), (tellEnd d n c e).net.ops = d.net.ops := by
    intro d n c e; unfold tellEnd; split
    · exact hm _ _ _
    · rw [tell_conns]
  unfold endCore
  dsimp only
  split
  · exact dropOp_ops _ _ _
  · have hn : ∀ (d : Dev) (n : Nat) (seq : Word) (st : Option Stamp), (noteStore d n seq st).net.ops = d.net.ops := by
      intro d n seq st; rw [noteStore_net]
    split
    · split
      · rw [hm, hn]; exact dropOp_ops _ _ _
      · rw [ht, hm, hn]; exact dropOp_ops _ _ _
    · rw [hn]; exact dropOp_ops _ _ _

theorem endOp_core {d : Dev} (o : Op) (e : Entry) (x : Option (DWord × Word × List Byte))
    (hw : ∀ p ∈ d.net.ops, p.stage = .waiting → p.conn = o.conn ∧ p.seq = o.seq) : endOp d o e x = endCore d o e x := by
  unfold endOp wakeWaits
  apply wakeLoop_none
  intro p hp hs
  rw [endCore_ops, List.mem_filter] at hp
  have := hw p hp.1 hs
  simp [this.1, this.2] at hp

/-- The ending of an operation, all of it that its connection shows: the sequence is executed, its entry stored and counted,
and the entry sent where the unit and the connection may send (R133, R148). -/
theorem endCore_conn {d : Dev} {o : Op} {c : Conn} (e : Entry) (x : Option (DWord × Word × List Byte))
    (hc : getConn d o.conn = some c) (he : e.status ≠ .doneDuplicate) :
    ∃ c', getConn (endCore d o e x) o.conn = some c' ∧ stored c' o.seq = some e ∧ c'.count = (c.count + 1) % 2 ^ 64 ∧
      c'.state = c.state ∧ c'.ident = c.ident ∧ c'.paths = c.paths ∧ c'.changed = c.changed ∧
      c'.sendq = (if maySend c && sendsEntries d && !d.rst.galReset.contains (homeOf o.conn) then
        c.sendq ++ [(some (routeOf c o.seq), entryFrame d c e x)] else c.sendq) := by
  unfold endCore
  have h0 : getConn (dropOp d o.conn o.seq) o.conn = some { c with pulls := c.pulls.filter fun p => !pullsFor o.seq p } := by
    unfold dropOp; rw [getConn_modConn, if_pos rfl]
    show Option.map _ (getConn d o.conn) = _
    rw [hc]; rfl
  dsimp only
  rw [h0]
  dsimp only
  simp only [he, if_false]
  generalize hc1 : markExecuted { c with pulls := c.pulls.filter fun p => !pullsFor o.seq p } o.seq e = c1
  have f1 : stored c1 o.seq = some e ∧ c1.count = (c.count + 1) % 2 ^ 64 ∧ c1.state = c.state ∧ c1.ident = c.ident ∧ c1.paths = c.paths ∧
      c1.changed = c.changed ∧ c1.sendq = c.sendq ∧ c1.routes = c.routes ∧ c1.written = c.written := by
    rw [← hc1]; exact ⟨stored_markExecuted _ _ _, rfl, rfl, rfl, rfl, rfl, rfl, rfl, rfl⟩
  clear hc1
  generalize hc2 : (if isAbort e.status = true then { c1 with abortCnt := satAdd c1.abortCnt 1 } else c1) = c2
  have f2 : stored c2 o.seq = some e ∧ c2.count = (c.count + 1) % 2 ^ 64 ∧ c2.state = c.state ∧ c2.ident = c.ident ∧ c2.paths = c.paths ∧
      c2.changed = c.changed ∧ c2.sendq = c.sendq ∧ c2.routes = c.routes ∧ c2.written = c.written := by
    rw [← hc2]; split
    · exact f1
    · exact f1
  clear hc2 f1
  obtain ⟨a1, a2, a3, a4, a5, a6, a7, a9, a8⟩ := f2
  have hms : maySend c2 = maySend c := by unfold maySend; rw [a3]
  have hpath : routeOf c2 o.seq = routeOf c o.seq := by unfold routeOf pathOf upPaths; rw [a5, a9]
  have hea : entryAddr c2 (unitNo d) c2.written = entryAddr c (unitNo d) c.written := by unfold entryAddr; rw [a4, a8]
  generalize hs : (if (maySend c2 && sendsEntries d && !d.rst.galReset.contains (homeOf o.conn)) = true then pushEntry d c2 (routeOf c2 o.seq) e x else c2) = c3
  have f3 : stored c3 o.seq = some e ∧ c3.count = (c.count + 1) % 2 ^ 64 ∧ c3.state = c.state ∧ c3.ident = c.ident ∧ c3.paths = c.paths ∧
      c3.changed = c.changed ∧
      c3.sendq = (if maySend c && sendsEntries d && !d.rst.galReset.contains (homeOf o.conn) then
        c.sendq ++ [(some (routeOf c o.seq), entryFrame d c e x)] else c.sendq) := by
    rw [← hs, hms, hpath]
    split
    · refine ⟨a1, a2, a3, a4, a5, a6, ?_⟩
      unfold pushEntry entryFrame
      dsimp only
      rw [hea, a4, a8, a7]
      all_goals (cases x <;> rfl)
    · exact ⟨a1, a2, a3, a4, a5, a6, a7⟩
  clear hs
  have set1 : ∀ d : Dev, getConn (noteStore (setConn d o.conn (some (dropRoute c3 o.seq))) o.conn o.seq o.stamp) o.conn =
      some (dropRoute c3 o.seq) := fun d => (noteStore_getConn _ _ _ _ _).trans ((getConn_setConn _ _ _ _).trans (if_pos rfl))
  have mod1 : ∀ (d : Dev) (x : Conn) (f : Conn → Conn), getConn d o.conn = some x → getConn (modConn d o.conn f) o.conn = some (f x) := by
    intro d x f h; rw [getConn_modConn, if_pos rfl, h]; rfl
  split
  · split
    · exact ⟨_, mod1 _ _ _ (set1 _), f3⟩
    · unfold tellEnd
      split
      · exact ⟨_, mod1 _ _ _ (mod1 _ _ _ (set1 _)), f3⟩
      · exact ⟨_, (tell_getConn _ _ _).trans (mod1 _ _ _ (set1 _)), f3⟩
  · exact ⟨_, set1 _, f3⟩

/-- The same, while no operation waits for the count. -/
theorem endOp_conn {d : Dev} {o : Op} {c : Conn} (e : Entry) (x : Option (DWord × Word × List Byte))
    (hw : ∀ p ∈ d.net.ops, p.stage = .waiting → p.conn = o.conn ∧ p.seq = o.seq) (hc : getConn d o.conn = some c) (he : e.status ≠ .doneDuplicate) :
    findOp (endOp d o e x) o.conn o.seq = none ∧ (∃ c', getConn (endOp d o e x) o.conn = some c' ∧ stored c' o.seq = some e ∧
      c'.count = (c.count + 1) % 2 ^ 64 ∧ c'.state = c.state ∧ c'.ident = c.ident ∧ c'.paths = c.paths ∧ c'.changed = c.changed ∧
      c'.sendq = (if maySend c && sendsEntries d && !d.rst.galReset.contains (homeOf o.conn) then
        c.sendq ++ [(some (routeOf c o.seq), entryFrame d c e x)] else c.sendq)) ∧
    (endOp d o e x).net.ops = d.net.ops.filter fun p => !(p.conn = o.conn && p.seq = o.seq) := by
  rw [endOp_core o e x hw]
  refine ⟨?_, endCore_conn e x hc he, endCore_ops d o e x⟩
  unfold findOp
  rw [endCore_ops, List.find?_eq_none]
  intro p hp
  rw [List.mem_filter] at hp
  have := hp.2
  simp only [Bool.not_eq_true'] at this
  simp [this]

/-! ## What executing a descriptor leaves alone -/

/-- The role, the operations, the resets and every connection but its send queue are as before. -/
def Calm (a b : Dev) : Prop :=
  RoleFrame a.twin b.twin ∧ b.net.ops = a.net.ops ∧ (∀ n, bare b n = bare a n) ∧
  (b.folds.queue = a.folds.queue ∧ b.folds.waits = a.folds.waits) ∧ b.rst = a.rst

theorem Calm.refl (a : Dev) : Calm a a := ⟨.refl _, rfl, fun _ => rfl, ⟨rfl, rfl⟩, rfl⟩

theorem Calm.trans {a b c : Dev} (h : Calm a b) (k : Calm b c) : Calm a c :=
  ⟨h.1.trans k.1, k.2.1.trans h.2.1, fun n => (k.2.2.1 n).trans (h.2.2.1 n),
    ⟨k.2.2.2.1.1.trans h.2.2.2.1.1, k.2.2.2.1.2.trans h.2.2.2.1.2⟩, k.2.2.2.2.trans h.2.2.2.2⟩

theorem takeStamp_calm (d : Dev) : Calm d (takeStamp d).2 :=
  ⟨(takeStamp_role d).1, ops_stamp.takeStamp d, fun n => (bare_stamp n).takeStamp d, by
    obtain ⟨_, _, _, _, _, _, _, _, _, h⟩ := takeStamp_stamp d; rw [h]; exact ⟨⟨rfl, rfl⟩, rfl⟩⟩

theorem forward_calm (d : Dev) (st : Stamp) (r : Rec) : Calm d (forward d st r) :=
  ⟨(forward_role d st r).1, ops_stamp.forward d st r, fun n => (bare_stamp n).forward d st r, by
    obtain ⟨_, _, _, _, _, _, _, _, _, h⟩ := forward_stamp d st r; rw [h]; exact ⟨⟨rfl, rfl⟩, rfl⟩⟩

theorem noteLines_calm (d : Dev) (st : Stamp) (ls : List Nat) : Calm d (noteLines d st ls) :=
  ⟨(noteLines_role d st ls).1, ops_stamp.noteLines d st ls, fun n => (bare_stamp n).noteLines d st ls, by
    obtain ⟨_, _, _, _, _, _, _, _, _, h⟩ := noteLines_stamp d st ls; rw [h]; exact ⟨⟨rfl, rfl⟩, rfl⟩⟩

theorem modFolds_calm {a b : Dev} (h : Calm a b) (f : Folds → Folds) (h1 : (f b.folds).queue = b.folds.queue)
    (h2 : (f b.folds).waits = b.folds.waits) : Calm a (b.modFolds f) :=
  ⟨h.1, h.2.1, h.2.2.1, ⟨h1.trans h.2.2.2.1.1, h2.trans h.2.2.2.1.2⟩, h.2.2.2.2⟩

theorem keepLoc_calm (d : Dev) (l : Nat) : Calm d (keepLoc d l) := by
  unfold keepLoc; (repeat' split) <;> exact .refl d

theorem ownLeaf_calm (d : Dev) (l : Nat) : Calm d (ownLeaf d l) := by
  unfold ownLeaf; split
  · exact .refl d
  · exact keepLoc_calm d l

theorem foldl_calm {α : Type} (f : Dev → α → Dev) (h : ∀ d x, Calm d (f d x)) (l : List α) (d : Dev) : Calm d (l.foldl f d) := by
  induction l generalizing d with
  | nil => exact .refl d
  | cons x l ih => exact (h d x).trans (ih _)

theorem noteLeaves_calm (d : Dev) (st : Stamp) (ls : List Nat) : Calm d (noteLeaves d st ls) :=
  ⟨.refl _, rfl, fun _ => rfl, ⟨rfl, rfl⟩, rfl⟩

theorem ownLeaves_calm (d : Dev) (st : Stamp) (ls : List Nat) : Calm d (ownLeaves d st ls) :=
  foldl_calm _ (fun d l => (ownLeaf_calm d l).trans (noteLeaves_calm _ _ _)) ls d

theorem changeLines_calm (d : Dev) (st : Stamp) (ls : List Nat) (f : Mem → Mem) : Calm d (changeLines d st ls f) := by
  unfold changeLines
  refine (ownLeaves_calm d st (cowLeaves d ls)).trans (Calm.trans ?_ (noteLines_calm _ _ _))
  exact .refl (ownLeaves d st (cowLeaves d ls))

theorem followLine_calm (d : Dev) (l : Nat) : Calm d (followLine d l) := .refl d

theorem followLines_calm (d : Dev) (ls : List Nat) : Calm d (ls.foldl followLine d) := foldl_calm _ followLine_calm ls d

theorem clearPoison_calm (d : Dev) (ls : List Nat) : Calm d (clearPoison d ls) :=
  Calm.trans (b := d.modDur _) (.refl d) (followLines_calm _ _)

theorem movePoison_calm (d : Dev) (bad : List Nat) (a b n lo hi : Nat) : Calm d (movePoison d bad a b n lo hi) := by
  unfold movePoison; dsimp only
  refine (clearPoison_calm d ((wholeLines b n).filter fun l => (spanLines (b + lo) (hi - lo)).contains l)).trans ?_
  exact Calm.trans (b := (clearPoison d _).modDur _) (.refl (clearPoison d _)) (followLines_calm _ _)

theorem placeRegion_calm {d : Dev} {st : Stamp} {n : Nat} {r : Nat × Dev} (h : placeRegion d st n = some r) : Calm d r.2 := by
  unfold placeRegion at h
  repeat' split at h
  all_goals first | (cases h; done) | (simp only [Option.some.injEq] at h; subst h; exact .refl d)

theorem placeRta_calm {d : Dev} {n : Nat} {r : Nat × Dev} (h : placeRta d n = some r) : Calm d r.2 := by
  unfold placeRta at h
  repeat' split at h
  all_goals first | (cases h; done) | (simp only [Option.some.injEq] at h; subst h; exact .refl d)

theorem enterFamily_calm (d : Dev) (a b n : Nat) : Calm d (enterFamily d a b n) := by
  unfold enterFamily
  refine modFolds_calm (.refl d) _ ?_ ?_ <;> (split <;> rfl)

theorem copyResolved_calm (a n : Nat) (d : Dev) : Calm d (copyResolved a n d) := by
  unfold copyResolved; dsimp only
  split <;> exact .refl d

theorem joinFamily_calm (d : Dev) (a b n : Nat) : Calm d (joinFamily d a b n) :=
  (enterFamily_calm d a b n).trans (copyResolved_calm _ _ _)

theorem modDur_calm {a b : Dev} (h : Calm a b) (f : Dur → Dur) : Calm a (b.modDur f) := h

theorem runSnap_calm (d : Dev) (fold : Nat) (x : Desc) (t : Trans) (st : Stamp) : Calm d (runSnap d fold x t st).dev := by
  unfold runSnap
  extract_lets places
  split
  · split
    · rename_i h1 _ _ _ _ _ h2
      extract_lets src new ls d3 d4
      have h3 : Calm d d3 := ((placeRta_calm h1).trans (placeRegion_calm h2)).trans (changeLines_calm _ _ _ _)
      clear_value d3
      have h4 : Calm d d4 := modDur_calm (h3.trans (joinFamily_calm _ _ _ _)) _
      clear_value d4
      exact h4.trans (noteLeaves_calm _ _ _)
    · exact .refl d
  · exact .refl d

theorem runAtomic_calm (d : Dev) (x : Desc) (a : Nat) (st : Stamp) : Calm d (runAtomic d x a st).dev := by
  unfold runAtomic
  extract_lets n
  split
  · exact .refl d
  · rename_i old new cmp put _ _
    have hp : ∀ v, Calm d (put v) := fun v => changeLines_calm d st _ _
    clear_value put
    split
    · split
      · exact hp _
      · exact .refl d
    · exact hp _
    · exact hp _

theorem runSpan_calm (d : Dev) (x : Desc) (a : Nat) (st : Stamp) (now : Bool) (f : Mem → Mem) :
    Calm d (runSpan d x a st now f).dev := by
  unfold runSpan; dsimp only; split
  · exact .refl d
  · have h := changeLines_calm d st (spanLines a x.length.toNat) fun m => if now then f m else m
    generalize changeLines d st (spanLines a x.length.toNat) (fun m => if now then f m else m) = e at h ⊢
    split
    · exact h.trans (clearPoison_calm _ _)
    · exact h

theorem runCopy_calm (d : Dev) (x : Desc) (a b : Nat) (st : Stamp) (now : Bool) : Calm d (runCopy d x a b st now).dev := by
  unfold runCopy; dsimp only; split
  · exact .refl d
  · generalize he : changeLines d st (spanLines b x.length.toNat) _ = e
    have h : Calm d e := he ▸ changeLines_calm _ _ _ _
    clear he
    split
    · exact h.trans (movePoison_calm _ _ _ _ _ _ _)
    · exact h

theorem runDesc_calm (d : Dev) (fold : Nat) (x : Desc) (t1 t2 : Option Trans) (data : List Byte) (st : Stamp) (now : Bool) :
    Calm d (runDesc d fold x t1 t2 data st now).dev := by
  unfold runDesc
  split
  · exact runSpan_calm _ _ _ _ _ _
  · exact runSpan_calm _ _ _ _ _ _
  · exact runCopy_calm _ _ _ _ _ _
  · exact runAtomic_calm _ _ _ _
  · exact runAtomic_calm _ _ _ _
  · exact runAtomic_calm _ _ _ _
  · unfold runAppend; dsimp only
    generalize logWrite _ _ _ _ = g
    generalize logLines _ _ _ _ = ll
    generalize addNum _ _ = ls
    generalize hf : (fun m => writeBytes _ _ _) = f
    exact (modFolds_calm ((changeLines_calm d st ls f).trans (clearPoison_calm _ _)) _ rfl rfl).trans (noteLeaves_calm _ _ _)
  · exact runSnap_calm _ _ _ _ _
  · exact runSnap_calm _ _ _ _ _
  · exact .refl d

/-! ## What executing a descriptor keeps of one thing -/

/-- What noting lines, and changes of memory, folds, durability and flash, leave alone. -/
structure RunKeeps {α : Type} (g : Dev → α) : Prop where
  note : ∀ d st ls, g (noteLines d st ls) = g d
  folds : ∀ d f, g (Dev.modFolds d f) = g d
  leaves : ∀ d st ls, g (noteLeaves d st ls) = g d
  hall : ∀ d f, g (Dev.modHall d f) = g d
  dur : ∀ d f, g (Dev.modDur d f) = g d
  ftl : ∀ d f, g (Dev.modFtl d f) = g d
  mem : ∀ (d : Dev) m, g { d with mem := m } = g d

theorem RunKeeps.keepLoc {α : Type} {g : Dev → α} (h : RunKeeps g) (d : Dev) (l : Nat) : g (keepLoc d l) = g d := by
  unfold Machine.keepLoc; split
  · exact h.ftl _ _
  · rfl

theorem RunKeeps.ownLeaf {α : Type} {g : Dev → α} (h : RunKeeps g) (d : Dev) (l : Nat) : g (ownLeaf d l) = g d := by
  unfold Machine.ownLeaf; split
  · rfl
  · exact (h.dur _ _).trans ((h.folds _ _).trans (h.keepLoc d l))

theorem RunKeeps.changeLines {α : Type} {g : Dev → α} (h : RunKeeps g) (d : Dev) (st : Stamp) (ls : List Nat) (f : Mem → Mem) :
    g (changeLines d st ls f) = g d := by
  unfold Machine.changeLines
  exact (h.note _ _ _).trans ((h.mem _ _).trans (foldl_keeps g _ (fun d l => (h.leaves _ _ _).trans (h.ownLeaf d l)) _ d))

theorem RunKeeps.followLine {α : Type} {g : Dev → α} (h : RunKeeps g) (d : Dev) (l : Nat) : g (followLine d l) = g d := by
  unfold Machine.followLine modSlice; exact h.hall _ _

theorem RunKeeps.clearPoison {α : Type} {g : Dev → α} (h : RunKeeps g) (d : Dev) (ls : List Nat) : g (clearPoison d ls) = g d :=
  (foldl_keeps g Machine.followLine h.followLine _ _).trans (h.dur _ _)

theorem RunKeeps.movePoison {α : Type} {g : Dev → α} (h : RunKeeps g) (d : Dev) (bad : List Nat) (a b n lo hi : Nat) :
    g (movePoison d bad a b n lo hi) = g d :=
  (foldl_keeps g Machine.followLine h.followLine _ _).trans ((h.dur _ _).trans (h.clearPoison _ _))

theorem RunKeeps.placeRegion {α : Type} {g : Dev → α} (k : RunKeeps g) {d : Dev} {st : Stamp} {n : Nat} {r : Nat × Dev}
    (h : placeRegion d st n = some r) : g r.2 = g d := by
  unfold Machine.placeRegion at h
  repeat' split at h
  all_goals first | (cases h; done) | (simp only [Option.some.injEq] at h; subst h; dsimp only; exact k.folds _ _)

theorem RunKeeps.placeRta {α : Type} {g : Dev → α} (k : RunKeeps g) {d : Dev} {n : Nat} {r : Nat × Dev}
    (h : placeRta d n = some r) : g r.2 = g d := by
  unfold Machine.placeRta at h
  repeat' split at h
  all_goals first | (cases h; done) | (simp only [Option.some.injEq] at h; subst h; dsimp only; exact k.folds _ _)

theorem RunKeeps.copyResolved {α : Type} {g : Dev → α} (k : RunKeeps g) (a n : Nat) (d : Dev) : g (copyResolved a n d) = g d := by
  unfold Machine.copyResolved; dsimp only
  split
  · rfl
  · exact k.ftl _ _

theorem RunKeeps.runSnap {α : Type} {g : Dev → α} (k : RunKeeps g) (d : Dev) (fold : Nat) (x : Desc) (t : Trans) (st : Stamp) :
    g (runSnap d fold x t st).dev = g d := by
  unfold Machine.runSnap
  extract_lets places
  split
  · split
    · rename_i h1 _ _ _ _ _ h2
      have e1 := k.placeRegion h2
      have e2 := k.placeRta h1
      dsimp only at e1 e2 ⊢
      rw [k.leaves, k.dur, joinFamily, k.copyResolved, enterFamily, k.folds, k.changeLines, e1, e2]
    · rfl
  · rfl

theorem RunKeeps.runDesc {α : Type} {g : Dev → α} (k : RunKeeps g) (d : Dev) (fold : Nat) (x : Desc) (t1 t2 : Option Trans)
    (data : List Byte) (st : Stamp) (now : Bool) : g (runDesc d fold x t1 t2 data st now).dev = g d := by
  have hspan : ∀ a b f, g (runSpan d x a st b f).dev = g d := by
    intro a b f; unfold runSpan; dsimp only; split
    · rfl
    · split <;> simp only [k.clearPoison, k.changeLines]
  have hat : ∀ a, g (runAtomic d x a st).dev = g d := by
    intro a; unfold runAtomic; dsimp only; split
    · rfl
    · split
      · split
        · simp only [k.changeLines]
        · rfl
      · simp only [k.changeLines]
      · simp only [k.changeLines]
  unfold Machine.runDesc
  split
  · exact hspan _ _ _
  · exact hspan _ _ _
  · unfold runCopy; dsimp only; split
    · rfl
    · split <;> simp only [k.movePoison, k.changeLines]
  · exact hat _
  · exact hat _
  · exact hat _
  · unfold runAppend; simp only [k.leaves, k.clearPoison, k.folds, k.changeLines]
  · exact k.runSnap _ _ _ _ _
  · exact k.runSnap _ _ _ _ _
  · rfl

theorem RunKeeps.runMembers {α : Type} {g : Dev → α} (k : RunKeeps g) (fold : Nat) (st : Stamp) :
    ∀ (l : List (Desc × Option Trans × Option Trans × List Byte)) (i : Nat) (d : Dev) (acc : List Exec) (r : Dev × List Exec),
      runMembers fold st i d l acc = .ok r → g r.1 = g d
  | [], i, d, acc, r, h => by simp only [Machine.runMembers, Except.ok.injEq] at h; rw [← h]
  | (x, t1, t2, data) :: rest, i, d, acc, r, h => by
    simp only [Machine.runMembers] at h
    split at h
    · exact (RunKeeps.runMembers k fold st rest _ _ _ r h).trans (k.runDesc _ _ _ _ _ _ _ _)
    · cases h

theorem run_twin {α : Type} (g : Twin → α) (h : ∀ (t : Twin) a b c, g { t with diverge := a, leafStamps := b, lineStamps := c } = g t) :
    RunKeeps fun d => g d.twin := by
  refine ⟨fun d st ls => ?_, fun _ _ => rfl, fun d _ _ => h d.twin _ _ d.twin.lineStamps, fun _ _ => rfl, fun _ _ => rfl,
    fun _ _ => rfl, fun _ _ => rfl⟩
  have hm : (markDirty d).twin = d.twin := by unfold markDirty; split <;> rfl
  unfold noteLines noteLeaves
  dsimp only
  split
  · simp only [Dev.modTwin_twin, foldl_useLine_twin, Dev.modFtl_twin, Dev.modDur_twin]
    exact (h (markDirty d).twin _ _ _).trans (by rw [hm])
  · simp only [Dev.modTwin_twin, foldl_useLine_twin, Dev.modFtl_twin, Dev.modDur_twin]
    exact (h (markDirty d).twin _ _ (markDirty d).twin.lineStamps).trans (by rw [hm])

end Sys2Proof.Machine
end

