-- ==== Sys2Proof/Laws/Stages.lean ====
section
/-! SUPPORT. An operation that stands at its stamp, or is ready, runs to its ending. -/
namespace Sys2Proof.Machine

theorem findOp_conn {d : Dev} {n : Nat} {seq : Word} {o : Op} (h : findOp d n seq = some o) : o.conn = n ∧ o.seq = seq := by
  have := List.find?_some h
  simpa [Bool.and_eq_true] using this

theorem findOp_mem {d : Dev} {n : Nat} {seq : Word} {o : Op} (h : findOp d n seq = some o) : o ∈ d.net.ops :=
  List.mem_of_find?_eq_some h

/-- With no operation in the budget stage nothing is admitted. -/
theorem admitAll_still {d : Dev} (h : ∀ o ∈ d.net.ops, o.stage ≠ .budget) : admitAll d = d := by
  have hb : ∀ g, budgetHead d g = none := by
    intro g; unfold budgetHead; rw [List.find?_eq_none]; intro o ho; simp [h o ho]
  have ht : admitTurn d = none := by
    unfold admitTurn; rw [List.findSome?_eq_none_iff]; intro i _; dsimp only; rw [hb]
  unfold admitAll; simp only [admitLoop, ht]

/-- An operation that has been started and is in no early stage goes on from its stamp or its execution. -/
theorem advance_late {d : Dev} {n : Nat} {seq : Word} {o : Op} (bad : List Nat) (finds : List (Nat × CheckFind))
    (ho : findOp d n seq = some o)
    (hs : o.stage = .stamp ∨ o.stage = .ready) (hb : ∀ o ∈ d.net.ops, o.stage ≠ .budget) :
    advance n seq bad finds d = complete n seq (workAll 260 (runReady n seq finds (orderStamp n seq none d)) n seq) := by
  have hf : o.stage ≠ .fetched ∧ o.stage ≠ .ordering ∧ o.stage ≠ .pulling ∧ o.stage ≠ .filling := by
    rcases hs with h | h <;> simp [h]
  have h1 : startOp n seq d = d := by
    unfold startOp; rw [ho]; split
    · rename_i h _; cases h; simp [hf.1]
    · rfl
  have h2 : ∀ f, releaseOrder f n seq d = d := by intro f; unfold releaseOrder; rw [ho]; simp [hf.2.1]
  have h3 : pullDone n seq none d = d := by unfold pullDone; rw [ho]; simp [hf.2.2.1]
  have h4 : fillDone n seq bad d = d := by unfold fillDone; rw [ho]; simp [hf.2.2.2]
  unfold advance
  simp only [h1, h2, h3, h4, admitAll_still hb]

theorem workAll_done {k : Nat} {d : Dev} {n : Nat} {seq : Word} (h : ∀ o, findOp d n seq = some o → o.stage ≠ .running) :
    workAll k d n seq = d := by
  cases k with
  | zero => rfl
  | succ k =>
    simp only [workAll]
    split
    · rename_i o ho; rw [if_neg (h o ho)]
    · rfl

theorem complete_none {d : Dev} {n : Nat} {seq : Word} (h : findOp d n seq = none) : complete n seq d = d := by
  unfold complete; rw [h]

theorem runReady_other {d : Dev} {n : Nat} {seq : Word} {o : Op} (finds : List (Nat × CheckFind)) (ho : findOp d n seq = some o)
    (h : o.stage ≠ .ready) : runReady n seq finds d = d := by
  unfold runReady; rw [ho]; split
  · rename_i h1 _; cases h1; simp [h]
  · rfl

theorem orderStamp_other {d : Dev} {n : Nat} {seq : Word} {o : Op} (ho : findOp d n seq = some o) (h : o.stage ≠ .stamp)
    (hg : o.group = none) : orderStamp n seq none d = d ∨ orderStamp n seq none d = refuseAtLimit d := by
  unfold orderStamp; rw [ho]; split
  · rename_i h1 _; cases h1
    right
    rw [if_pos]
    simp [stampDue, together, hg, h]
  · left; rfl

/-- An operation with no group that may take its stamp takes it (R156). -/
theorem orderStamp_one {d : Dev} {o : Op} {c : Conn} (h : AtStamp d o c) (bad : Option Nat) :
    orderStamp o.conn o.seq bad d = stampOne d o c.ident.fold bad := by
  obtain ⟨⟨h1, h2, h3, _⟩, h5, h6, _⟩ := h
  unfold orderStamp; rw [h1, h2]; dsimp only
  have ht : together d o = [o] := by unfold together; rw [h3]
  rw [ht, h5, h3]
  simp [firstRefused, h6]

theorem findOp_setOp {d : Dev} {n : Nat} {seq : Word} {o o' : Op} (h : findOp d n seq = some o) (h1 : o'.conn = o.conn)
    (h2 : o'.seq = o.seq) : findOp (setOp d o') n seq = some o' := by
  obtain ⟨k1, k2⟩ := findOp_conn h
  unfold findOp at *
  show List.find? _ (List.map _ d.net.ops) = _
  generalize d.net.ops = l at *
  induction l with
  | nil => simp at h
  | cons x l ih =>
    simp only [List.map_cons, List.find?_cons] at *
    by_cases hx : x.conn = n ∧ x.seq = seq
    · simp [hx.1, hx.2, h1, h2, k1, k2]
    · have e : (decide (x.conn = n) && decide (x.seq = seq)) = false := by simpa using hx
      have e2 : (decide (x.conn = o'.conn) && decide (x.seq = o'.seq)) = false := by rw [h1, h2, k1, k2]; exact e
      simp only [e, e2, Bool.false_eq_true, if_false] at h ⊢
      exact ih h

theorem setOp_ops {d : Dev} {o p : Op} (h : p ∈ (setOp d o).net.ops) : p = o ∨ p ∈ d.net.ops := by
  obtain ⟨q, hq, e⟩ := List.mem_map.1 h
  rw [← e]
  split
  · exact .inl rfl
  · exact .inr hq

/-- What the stamp leaves of an operation: it holds its entry, or the datapath works it. -/
theorem stampOne_done {d : Dev} {o : Op} {c : Conn} (h : AtStamp d o c) :
    ∃ r c' o', r = runDesc (forward (takeStamp d).2 (takeStamp d).1 (.op (takeStamp d).1 o.conn (genField o c.ident.fold) (memberOf o)))
        c.ident.fold o.desc o.tr1 o.tr2 o.data (takeStamp d).1 false ∧
      findOp (stampOne d o c.ident.fold none) o.conn o.seq = some o' ∧
      o' = { o with stage := if isBulk o.desc && !r.poisoned then .running else .holding, stamp := some (takeStamp d).1,
                    done := some r.entry, lines := r.lines, admitted := o'.admitted, src := r.src, srcBad := r.srcBad, chunk := 0, data := [] } ∧
      getConn (stampOne d o c.ident.fold none) o.conn = some c' ∧ (∃ q st ch, c' = { c with sendq := q, setupSt := st, changed := ch }) ∧
      (stampOne d o c.ident.fold none).mem = r.dev.mem ∧ (stampOne d o c.ident.fold none).twin.st = .unpaired ∧
      (stampOne d o c.ident.fold none).twin.lastStamp = r.dev.twin.lastStamp ∧
      (stampOne d o c.ident.fold none).twin.ctrlDue = d.twin.ctrlDue ∧ Calm d r.dev ∧
      (stampOne d o c.ident.fold none).folds = r.dev.folds ∧ Still (stampOne d o c.ident.fold none) := by
  obtain ⟨⟨h1, h2, h3, h4⟩, h5, h6, h7, h8, h9⟩ := h
  unfold stampOne
  dsimp only
  generalize hd1 : forward (takeStamp d).2 (takeStamp d).1 (.op (takeStamp d).1 o.conn (genField o c.ident.fold) (memberOf o)) = d1
  have c1 : Calm d d1 := by rw [← hd1]; exact (takeStamp_calm d).trans (forward_calm _ _ _)
  generalize hr : runDesc d1 c.ident.fold o.desc o.tr1 o.tr2 o.data (takeStamp d).1 false = r
  have c2 : Calm d r.dev := by rw [← hr]; exact c1.trans (runDesc_calm _ _ _ _ _ _ _ _)
  have c3 := c2
  obtain ⟨k1, k2, k3, k4, _⟩ := c2
  have st1 : r.dev.twin.st = .unpaired := k1.1.trans h8
  have hns : ∀ e : Dev, e.twin.st = .unpaired → ∃ t, noteTouched e (takeStamp d).1 o.conn o.seq r.lines = { e with twin := t } ∧
      t.st = .unpaired ∧ t.lastStamp = e.twin.lastStamp ∧ t.ctrlDue = e.twin.ctrlDue := by
    intro e he; unfold noteTouched; split
    · exact ⟨_, rfl, he, rfl, rfl⟩
    · exact ⟨_, rfl, he, rfl, rfl⟩
  obtain ⟨q, su, hq⟩ := bare_of (k3 o.conn) h2
  have hnc : ∃ cs, noteChanged r.dev o.conn r.lines (takeStamp d).1 = { r.dev with net := { r.dev.net with conns := cs } } := by
    unfold noteChanged modConn; split
    · exact ⟨_, rfl⟩
    · exact ⟨_, rfl⟩
  have hcc : getConn (noteChanged r.dev o.conn r.lines (takeStamp d).1) o.conn =
      some { c with sendq := q, setupSt := su, changed := r.lines.foldl (fun m l => putKey m l (takeStamp d).1) c.changed } := by
    unfold noteChanged; rw [getConn_modConn, if_pos rfl, hq]; rfl
  obtain ⟨cs, hnc⟩ := hnc
  rw [hnc] at hcc ⊢
  obtain ⟨t, ht, ht2, ht3, ht4⟩ := hns { r.dev with net := { r.dev.net with conns := cs } } st1
  rw [ht]
  generalize hd3 : (if (isBulk o.desc && !r.poisoned && streaming { r.dev with net := { r.dev.net with conns := cs }, twin := t }) = true then
    ({ r.dev with net := { r.dev.net with conns := cs }, twin := t } : Dev).modTwin fun t => { t with finWait := t.finWait ++ [(takeStamp d).1] }
    else { r.dev with net := { r.dev.net with conns := cs }, twin := t }) = d3
  have f3 : ∃ t3 : Twin, d3 = { r.dev with net := { r.dev.net with conns := cs }, twin := t3 } ∧ t3.st = .unpaired ∧ t3.lastStamp = r.dev.twin.lastStamp ∧ t3.ctrlDue = r.dev.twin.ctrlDue := by
    rw [← hd3]; split
    · exact ⟨_, rfl, ht2, ht3, ht4⟩
    · exact ⟨_, rfl, ht2, ht3, ht4⟩
  obtain ⟨t3, f3, f4, f5, f6⟩ := f3
  rw [f3]
  refine ⟨r, { c with sendq := q, setupSt := su, changed := r.lines.foldl (fun m l => putKey m l (takeStamp d).1) c.changed }, _, rfl,
    findOp_setOp (o := o) ?_ rfl rfl, rfl, hcc, ⟨q, su, _, rfl⟩, rfl, f4, f5, f6.trans k1.2.2.2.1, c3, rfl, ?_⟩
  · unfold findOp at h1 ⊢
    show r.dev.net.ops.find? _ = _
    rw [k2]; exact h1
  · intro p hp
    rcases setOp_ops hp with e | e
    · rw [e]; dsimp only; constructor <;> split <;> simp
    · exact h9 p (by rw [← k2]; exact e)

/-! ## The datapath -/

/-- The memory after one chunk of a COPY or a WRITE_ZERO (R200). -/
def chunkMem (o : Op) (m : Mem) : Mem :=
  match o.desc.op, o.tr1, o.tr2 with
  | .copy, some t, some u => placeCells m (t.base + o.desc.offset.toNat) (u.base + o.desc.offset2.toNat) o.chunk (chunkEnd o) o.src
  | .writeZero, some t, _ => zeroBytes m (t.base + o.desc.offset.toNat + o.chunk) (chunkEnd o - o.chunk)
  | _, _, _ => m

/-- The same device, but for its memory, its halls and what the durable record holds of its lines. -/
def WorkFrame (d e : Dev) : Prop := ∃ h u, e = { d with hall := h, dur := u }

theorem WorkFrame.refl (d : Dev) : WorkFrame d d := ⟨_, _, rfl⟩

theorem WorkFrame.trans {a b c : Dev} (h : WorkFrame a b) (k : WorkFrame b c) : WorkFrame a c := by
  obtain ⟨_, _, rfl⟩ := h; obtain ⟨_, _, rfl⟩ := k; exact ⟨_, _, rfl⟩

theorem WorkFrame.foldl {f : Dev → Nat → Dev} (h : ∀ d l, WorkFrame d (f d l)) : ∀ (ls : List Nat) (d : Dev), WorkFrame d (ls.foldl f d)
  | [], d => .refl d
  | l :: ls, d => (h d l).trans (WorkFrame.foldl h ls (f d l))

theorem useLine_work (d : Dev) (l : Nat) : WorkFrame d (useLine true d l) := by
  obtain ⟨h, e⟩ := useLine_hall true d l; exact ⟨h, _, e⟩

theorem followLine_work (d : Dev) (l : Nat) : WorkFrame d (followLine d l) := ⟨_, _, rfl⟩

theorem clearPoison_work (d : Dev) (ls : List Nat) : WorkFrame d (clearPoison d ls) :=
  WorkFrame.trans (b := d.modDur _) ⟨_, _, rfl⟩ (.foldl followLine_work _ _)

theorem movePoison_work (d : Dev) (bad : List Nat) (a b n lo hi : Nat) : WorkFrame d (movePoison d bad a b n lo hi) :=
  (clearPoison_work d _).trans (WorkFrame.trans (b := (clearPoison d _).modDur _) ⟨_, _, rfl⟩ (.foldl followLine_work _ _))

/-- One chunk changes the memory as `chunkMem` says, the halls and the poison, and moves the operation on. -/
theorem workChunk_eq (d : Dev) (o : Op) : ∃ e, WorkFrame { d with mem := chunkMem o d.mem } e ∧ workChunk d o = setOp e
    { o with chunk := chunkEnd o,
             stage := if o.desc.length.toNat ≤ chunkEnd o then .holding else .running,
             src := if o.desc.length.toNat ≤ chunkEnd o then [] else o.src,
             srcBad := if o.desc.length.toNat ≤ chunkEnd o then [] else o.srcBad } := by
  unfold workChunk chunkMem
  extract_lets n lo hi d1
  refine ⟨d1, ?_, rfl⟩
  show WorkFrame _ (match o.desc.op, o.tr1, o.tr2 with | .copy, some _, some _ => _ | .writeZero, some _, _ => _ | _, _, _ => _)
  split
  · exact (WorkFrame.foldl useLine_work _ _).trans (movePoison_work _ _ _ _ _ _ _)
  · exact (WorkFrame.foldl useLine_work _ _).trans (clearPoison_work _ _)
  · exact .refl d

theorem WorkFrame.setOp_ops {d e : Dev} {o : Op} (h : WorkFrame d e) {p : Op} (hp : p ∈ (setOp e o).net.ops) : p = o ∨ p ∈ d.net.ops := by
  obtain ⟨_, _, rfl⟩ := h; exact Machine.setOp_ops hp

/-- How one chunk of a COPY to `u` ends, of an operation on `t` alone, or of any other. -/
theorem chunkEnd_cases (o : Op) :
    (∃ u, o.tr2 = some u ∧ o.desc.op = .copy ∧
      chunkEnd o = min o.desc.length.toNat (roundDown (u.base + o.desc.offset2.toNat + o.chunk + 65536) 64 - (u.base + o.desc.offset2.toNat))) ∨
    (∃ t, o.tr1 = some t ∧ ¬ (o.desc.op = .copy ∧ o.tr2.isSome) ∧ chunkEnd o =
      if (t.base + o.desc.offset.toNat + o.chunk) % 64 ≠ 0 then
        min o.desc.length.toNat (roundUp (t.base + o.desc.offset.toNat + o.chunk) 64 - (t.base + o.desc.offset.toNat))
      else if o.desc.length.toNat < o.chunk + 64 then o.desc.length.toNat
      else min (o.chunk + 65536) (roundDown (t.base + o.desc.offset.toNat + o.desc.length.toNat) 64 - (t.base + o.desc.offset.toNat))) ∨
    chunkEnd o = o.desc.length.toNat := by
  unfold chunkEnd; dsimp only
  split
  · rename_i h1 h3; exact .inl ⟨_, h3, h1, rfl⟩
  · rename_i _ h2 h1
    refine .inr (.inl ⟨_, h2, ?_, rfl⟩)
    rintro ⟨e1, e2⟩
    obtain ⟨u, e3⟩ := Option.isSome_iff_exists.1 e2
    exact h1 u e1 e3
  · exact .inr (.inr rfl)

/-- Enough chunks are left to work the span to its end (R200): a COPY's end at a line of the destination, a WRITE_ZERO's first and
last partial lines are work of their own. -/
def Enough (k : Nat) (o : Op) : Prop :=
  0 < k ∧ o.chunk ≤ o.desc.length.toNat ∧
  (o.desc.op = .copy ∧ o.tr2.isSome → o.desc.length.toNat ≤ o.chunk + k * 65473) ∧
  (∀ t, o.tr1 = some t → ¬ (o.desc.op = .copy ∧ o.tr2.isSome) →
    if (t.base + o.desc.offset.toNat + o.chunk) % 64 = 0 then o.desc.length.toNat ≤ o.chunk + (k - 1) * 65536 + 63
    else 1 < k ∧ o.desc.length.toNat ≤ o.chunk + (k - 2) * 65536)

theorem enough_start {o : Op} (h : o.desc.length.toNat ≤ 16777216) (hc : o.chunk = 0) : Enough 260 o := by
  refine ⟨by omega, by omega, fun _ => by omega, fun _ _ _ => ?_⟩
  split <;> omega

theorem chunkEnd_bounds {o : Op} (h : o.chunk ≤ o.desc.length.toNat) : o.chunk ≤ chunkEnd o ∧ chunkEnd o ≤ o.desc.length.toNat := by
  rcases chunkEnd_cases o with ⟨u, _, _, e⟩ | ⟨t, _, _, e⟩ | e
  · rw [e]; unfold roundDown; omega
  · rw [e]; unfold roundDown roundUp; split
    · omega
    · split <;> omega
  · omega

theorem enough_step {k : Nat} {o o' : Op} (h : Enough (k + 1) o) (h1 : o'.desc = o.desc) (h2 : o'.tr1 = o.tr1) (h3 : o'.tr2 = o.tr2)
    (h4 : o'.chunk = chunkEnd o) (h5 : ¬ o.desc.length.toNat ≤ chunkEnd o) : Enough k o' := by
  obtain ⟨_, ha, hb, hc⟩ := h
  unfold Enough
  rw [h1, h2, h3, h4]
  clear h1 h2 h3 h4
  have hbd := chunkEnd_bounds ha
  rcases chunkEnd_cases o with ⟨u, e2, e1, e⟩ | ⟨t, e1, e2, e⟩ | e
  · have hb := hb ⟨e1, by rw [e2]; rfl⟩
    unfold roundDown at e
    refine ⟨by omega, hbd.2, fun _ => by omega, fun _ _ h => absurd ⟨e1, by rw [e2]; rfl⟩ h⟩
  · have hc := hc t e1 e2
    unfold roundDown roundUp at e
    refine ⟨?_, hbd.2, fun h => absurd h e2, fun t' ht _ => ?_⟩
    · (repeat' split at e) <;> (repeat' split at hc) <;> omega
    · rw [e1] at ht; cases ht
      clear hb
      (repeat' split at e) <;> (repeat' split at hc) <;> split <;> omega
  · omega

/-- A running operation that the chunks can finish holds its entry at the end, and what every chunk carries forward holds of the
memory then (R200). -/
theorem workAll_running (P : Mem → Nat → Prop) : ∀ (k : Nat) (d : Dev) (o : Op), findOp d o.conn o.seq = some o → o.stage = .running →
    Enough k o → P d.mem o.chunk →
    (∀ (p : Op) m, p.desc = o.desc → p.tr1 = o.tr1 → p.tr2 = o.tr2 → p.src = o.src → p.chunk ≤ o.desc.length.toNat → P m p.chunk →
      P (chunkMem p m) (chunkEnd p)) →
    ∃ m ops h u o', workAll k d o.conn o.seq = { d with mem := m, net := { d.net with ops := ops }, hall := h, dur := u } ∧
      P m o.desc.length.toNat ∧ findOp (workAll k d o.conn o.seq) o.conn o.seq = some o' ∧
      o' = { o with stage := .holding, chunk := o'.chunk, src := o'.src, srcBad := o'.srcBad } ∧
      ∀ p ∈ ops, p = o' ∨ p ∈ d.net.ops ∨ p.stage = .running
  | 0, d, o, _, _, hk, _, _ => absurd hk.1 (by omega)
  | k + 1, d, o, ho, hs, hl, hp, hstep => by
    simp only [workAll]
    rw [ho]; dsimp only
    rw [if_pos hs]
    obtain ⟨e, ⟨h, u, he⟩, hw⟩ := workChunk_eq d o
    rw [hw]
    have hfe : findOp e o.conn o.seq = some o := by rw [he]; exact ho
    have hp1 := hstep o d.mem rfl rfl rfl rfl hl.2.1 hp
    by_cases hh : o.desc.length.toNat ≤ chunkEnd o
    · simp only [hh, if_true]
      have hf := findOp_setOp (o' := { o with chunk := chunkEnd o, stage := .holding, src := [], srcBad := [] }) hfe rfl rfl
      rw [workAll_done (by intro p hp; rw [hf] at hp; cases hp; simp)]
      have hn : chunkEnd o = o.desc.length.toNat := Nat.le_antisymm (chunkEnd_bounds hl.2.1).2 hh
      refine ⟨chunkMem o d.mem, (setOp e { o with chunk := chunkEnd o, stage := .holding, src := [], srcBad := [] }).net.ops, h, u,
        _, ?_, hn ▸ hp1, hf, rfl, ?_⟩
      · rw [he]; rfl
      · intro p hp
        rcases WorkFrame.setOp_ops ⟨h, u, he⟩ hp with e | e
        · exact .inl e
        · exact .inr (.inl e)
    · simp only [hh, if_false]
      have hf := findOp_setOp (o' := { o with chunk := chunkEnd o, stage := .running, src := o.src, srcBad := o.srcBad }) hfe rfl rfl
      obtain ⟨m, ops, h', u', o', e1, e2, e3, e4, e5⟩ := workAll_running P k
        (setOp e { o with chunk := chunkEnd o, stage := .running, src := o.src, srcBad := o.srcBad })
        { o with chunk := chunkEnd o, stage := .running, src := o.src, srcBad := o.srcBad } hf rfl
        (enough_step hl rfl rfl rfl rfl hh) (by rw [he]; exact hp1) hstep
      refine ⟨m, ops, h', u', o', e1.trans ?_, e2, e3, e4, ?_⟩
      · rw [he]; rfl
      · intro p hp
        rcases e5 p hp with e | e | e
        · exact .inl e
        · rcases WorkFrame.setOp_ops ⟨h, u, he⟩ e with e | e
          · exact .inr (.inr (by rw [e]))
          · exact .inr (.inl e)
        · exact .inr (.inr e)

/-- An operation alone that holds an entry whose level is reached ends with it. -/
theorem complete_ends {d : Dev} {o : Op} {c : Conn} {e : Entry} (hs : InStage d o c .holding) (hd : o.done = some e)
    (hl : levelReached d c o e = true) (he : e.status ≠ .doneDuplicate) (hm : c.ident.level ≠ .media) (hw : ∀ p ∈ d.net.ops, p.stage ≠ .waiting) :
    Ended (complete o.conn o.seq d) o c (withLevel d c o e) ∧ (complete o.conn o.seq d).mem = d.mem := by
  obtain ⟨h1, h2, h3, h4⟩ := hs
  refine ⟨?_, complete_mem _ _ _⟩
  unfold complete
  rw [h1, h2]; dsimp only
  have ht : together d o = [o] := by unfold together; rw [h3]
  rw [ht, if_neg (by simp [h4])]
  rw [if_pos (by simp [h4, hd, hl])]
  simp only [List.foldl_cons, List.foldl_nil, hd]
  split
  · rename_i h _; exact absurd h hm
  have hst : (withLevel d c o e).status ≠ .doneDuplicate := by
    unfold withLevel; (repeat' split) <;> exact he
  obtain ⟨k1, ⟨c', k2, k3, k4, k5, _⟩, k6⟩ := endOp_conn (o := o) (withLevel d c o e) none (fun p hp h => absurd h (hw p hp)) h2 hst
  refine ⟨?_, { c' with changed := c'.changed.filter fun p => !heldAt (endOp d o (withLevel d c o e) none) .media (some p.2) [p.1] }, ?_, k3, k4, k5⟩
  · unfold findOp pruneChanged at *; rw [modConn_ops]; exact k1
  · unfold pruneChanged; rw [getConn_modConn, if_pos rfl, k2]; rfl

theorem takeStamp_data (d : Dev) : (takeStamp d).2.dur = d.dur ∧ (takeStamp d).2.folds = d.folds ∧ (takeStamp d).2.ftl = d.ftl := by
  have h1 : (markDirty d).dur = d.dur ∧ (markDirty d).folds = d.folds ∧ (markDirty d).ftl = d.ftl := by
    unfold markDirty; split <;> exact ⟨rfl, rfl, rfl⟩
  have h2 : ∀ e : Dev, (refuseAtLimit e).dur = e.dur ∧ (refuseAtLimit e).folds = e.folds ∧ (refuseAtLimit e).ftl = e.ftl := by
    intro e; unfold refuseAtLimit; split
    · simp
    · exact ⟨rfl, rfl, rfl⟩
  unfold takeStamp; dsimp only
  refine ⟨(h2 _).1.trans ?_, (h2 _).2.1.trans ?_, (h2 _).2.2.trans ?_⟩ <;> split <;> simp [h1]

theorem forward_data (d : Dev) (st : Stamp) (r : Rec) :
    (forward d st r).dur = d.dur ∧ (forward d st r).folds = d.folds ∧ (forward d st r).ftl = d.ftl := by
  have key (n : Nat) : ∀ d : Dev, (pumpFrames n d).dur = d.dur ∧ (pumpFrames n d).folds = d.folds ∧ (pumpFrames n d).ftl = d.ftl := by
    induction n with
    | zero => exact fun _ => ⟨rfl, rfl, rfl⟩
    | succ n ih => intro d; simp only [pumpFrames]; split; exacts [⟨rfl, rfl, rfl⟩, ih _]
  unfold forward; split
  · exact key _ _
  · exact ⟨rfl, rfl, rfl⟩

/-- What the datapath leaves of the memory: what every chunk carries forward holds at the span's end. -/
def Worked (o : Op) (src : List Host.Cell) (m m' : Mem) : Prop :=
  ∀ P : Mem → Nat → Prop, P m 0 →
    (∀ (p : Op) k, p.desc = o.desc → p.tr1 = o.tr1 → p.tr2 = o.tr2 → p.src = src → p.chunk ≤ o.desc.length.toNat → P k p.chunk →
      P (chunkMem p k) (chunkEnd p)) → P m' o.desc.length.toNat

/-- An operation at its stamp whose entry says DONE runs to its ending: the datapath first works all its chunks (R156, R157, R160,
R200). -/
theorem advance_atStamp {d : Dev} {o : Op} {c : Conn} (h : AtStamp d o c) (hlen : o.desc.length.toNat ≤ 16777216) :
    ∃ d1 r, StampFrame d d1 ∧ d1.dur = d.dur ∧
      r = runDesc d1 c.ident.fold o.desc o.tr1 o.tr2 o.data (nextStamp d.twin) false ∧
      (r.entry.status = .done → ∃ lvl, Ended (advance o.conn o.seq [] [] d) o c { r.entry with level := lvl } ∧
        if isBulk o.desc && !r.poisoned then Worked o r.src r.dev.mem (advance o.conn o.seq [] [] d).mem
        else (advance o.conn o.seq [] [] d).mem = r.dev.mem) := by
  have hs := h.1.2.2.2
  have hst := h.2.2.2.2.2
  refine ⟨forward (takeStamp d).2 (takeStamp d).1 (.op (takeStamp d).1 o.conn (genField o c.ident.fold) (memberOf o)), _,
    (takeStamp_stamp d).trans (forward_stamp _ _ _), (forward_data _ _ _).1.trans (takeStamp_data d).1, rfl, fun hdone => ?_⟩
  rw [advance_late [] [] h.1.1 (.inl hs) fun p hp => (hst p hp).2, orderStamp_one h none]
  obtain ⟨r, c', o0, hr, k1, ko, k2, ⟨q, su, ch, k3⟩, k4, k5, _, _, _, _, k6⟩ := stampOne_done h
  have hdone' : r.entry.status = .done := by rw [hr]; exact hdone
  generalize stampOne d o c.ident.fold none = d2 at *
  have hfw : (takeStamp d).1 = nextStamp d.twin := by unfold takeStamp; rfl
  rw [← hfw, ← hr]
  have hnr : o0.stage ≠ .ready := by rw [ko]; dsimp only; split <;> simp
  rw [runReady_other [] k1 hnr]
  have hc0 : o0.conn = o.conn ∧ o0.seq = o.seq := by rw [ko]; exact ⟨rfl, rfl⟩
  -- after the datapath
  obtain ⟨d3, o', w1, w2, w3, w4, w5, w6, w7, w8, w9⟩ : ∃ d3 o', workAll 260 d2 o.conn o.seq = d3 ∧ findOp d3 o.conn o.seq = some o' ∧
      o'.conn = o.conn ∧ o'.seq = o.seq ∧ (o'.group = none ∧ o'.stage = .holding ∧ o'.done = some r.entry) ∧ getConn d3 o.conn = some c' ∧
      d3.twin.st = .unpaired ∧ Still d3 ∧ (if isBulk o.desc && !r.poisoned then Worked o r.src r.dev.mem d3.mem else d3.mem = r.dev.mem) := by
    by_cases hb : (isBulk o.desc && !r.poisoned) = true
    · have hst0 : o0.stage = .running := by rw [ko]; simp only [hb, if_true]
      have hbase := workAll_running (fun _ _ => True) 260 d2 o0 (by rw [hc0.1, hc0.2]; exact k1) hst0
        (enough_start (by rw [ko]; exact hlen) (by rw [ko])) trivial (fun _ _ _ _ _ _ _ _ => trivial)
      obtain ⟨m, ops, _, _, o', e1, _, e2, e3, e4⟩ := hbase
      rw [hc0.1, hc0.2] at e1 e2
      refine ⟨_, o', rfl, e2, by rw [e3]; exact hc0.1, by rw [e3]; exact hc0.2, ⟨by rw [e3, ko]; exact h.1.2.2.1, by rw [e3], by rw [e3, ko]⟩, by rw [e1]; exact k2, by rw [e1]; exact k5, ?_, ?_⟩
      · rw [e1]
        intro p hp
        rcases e4 p hp with e | e | e
        · rw [e, e3]; exact ⟨by simp, by simp⟩
        · exact k6 p e
        · rw [e]; exact ⟨by simp, by simp⟩
      · rw [if_pos hb]
        intro P hP hstep
        obtain ⟨m', _, _, _, _, f1, f2, _⟩ := workAll_running P 260 d2 o0 (by rw [hc0.1, hc0.2]; exact k1) hst0
          (enough_start (by rw [ko]; exact hlen) (by rw [ko])) (by rw [k4]; rw [ko]; exact hP)
          (fun p m a1 a2 a3 a4 a5 a6 => hstep p m (by rw [a1, ko]) (by rw [a2, ko]) (by rw [a3, ko]) (by rw [a4, ko]) (by rw [ko] at a5; exact a5) a6)
        rw [hc0.1, hc0.2] at f1
        rw [f1]
        rw [ko] at f2
        exact f2
    · have hst0 : o0.stage = .holding := by rw [ko]; simp only [hb]; rfl
      refine ⟨d2, o0, workAll_done (by intro p hp; rw [k1] at hp; cases hp; rw [hst0]; simp), k1, hc0.1, hc0.2, ⟨by rw [ko]; exact h.1.2.2.1, hst0, by rw [ko]⟩, k2, k5, k6, ?_⟩
      rw [if_neg hb]; exact k4
  rw [w1]
  obtain ⟨o3, o4, o5⟩ := w5
  have hlc : c'.ident.level = .loc := by rw [k3]; exact h.2.2.2.1
  have hmir : ∀ l, mirrorHeld d3 l = false := by intro l; unfold mirrorHeld; rw [w7]; rfl
  have hl : levelReached d3 c' o' r.entry = true := by
    unfold levelReached
    rw [if_neg (by rw [hdone']; simp)]
    split
    · simp [hmir]
    · split
      · rfl
      · rw [hlc]; rfl
  obtain ⟨e1, e2⟩ := complete_ends (o := o') (c := c') (e := r.entry) ⟨by rw [w3, w4]; exact w2, by rw [w3]; exact w6, o3, o4⟩ o5 hl
    (by rw [hdone']; simp) (by rw [hlc]; simp) (fun p hp => (w8 p hp).1)
  have hwl : ∃ lvl, withLevel d3 c' o' r.entry = { r.entry with level := lvl } := by
    unfold withLevel
    (repeat' split) <;> exact ⟨_, rfl⟩
  obtain ⟨lvl, hwl⟩ := hwl
  have e3 : complete o'.conn o'.seq d3 = complete o.conn o.seq d3 := by rw [w3, w4]
  rw [hwl, e3] at e1
  rw [e3] at e2
  obtain ⟨f0, c2, f1, f2, f3, f4⟩ := e1
  rw [w3, w4] at f0
  rw [w3] at f1
  rw [w4] at f2
  exact ⟨lvl, ⟨f0, c2, f1, f2, f3.trans (by rw [k3]), f4.trans (by rw [k3])⟩, by rw [e2]; exact w9⟩

end Sys2Proof.Machine
end

