-- ==== Sys2Proof/Laws/MemCopy.lean ====
section
/-! SUPPORT. What copying cells puts where: the bytes of a span, moved. -/
namespace Sys2Proof.Machine

/-- Cells written one after another, each moved by the same distance. -/
theorem readByte_moved (src dst : Nat) : ∀ (l : List Host.Cell) (b : Nat), risingFrom b l = true → (∀ c ∈ l, src ≤ c.1) → ∀ (acc : Mem) (x : Nat),
    readByte (l.foldl (fun acc c => writeByte acc (c.1 - src + dst) c.2) acc) x =
      match (if dst ≤ x then getKey l (x - dst + src) else none) with
      | some v => v
      | none => readByte acc x
  | [], b, _, _, acc, x => by simp [getKey]
  | c :: l, b, hr, hs, acc, x => by
    have hr' : risingFrom (c.1 + 1) l = true := by
      obtain ⟨ca, cv⟩ := c; simp only [risingFrom, Bool.and_eq_true] at hr; exact hr.2
    rw [List.foldl_cons, readByte_moved src dst l (c.1 + 1) hr' (fun y hy => hs y (List.mem_cons_of_mem _ hy))]
    have hc := hs c List.mem_cons_self
    rw [readByte_writeByte]
    obtain ⟨ca, cv⟩ := c
    dsimp only at hc ⊢
    by_cases hd : dst ≤ x
    · simp only [if_pos hd, getKey]
      by_cases hx : ca = x - dst + src
      · have hn : getKey l (x - dst + src) = none := by rw [← hx]; exact getKey_of_rising hr' (by dsimp only; omega)
        rw [hn, if_pos hx, if_pos (by omega)]
      · rw [if_neg hx, if_neg (by omega)]
    · simp only [if_neg hd]
      rw [if_neg (by omega)]

/-- A part of a copy: the destination takes the source's cells, and nothing else changes (R165). -/
theorem readByte_placeCells {m : Mem} (m' : Mem) (src dst lo hi n : Nat) (hm : memWf m = true) (h : hi ≤ n) (x : Nat) :
    readByte (placeCells m' src dst lo hi (cellsOf m src n)) x =
      if dst + lo ≤ x ∧ x < dst + hi then readByte m (x - dst + src) else readByte m' x := by
  unfold placeCells cellsOf
  have hr := risingFrom_filter (fun c => decide (src + lo ≤ c.1) && decide (c.1 < src + hi))
    (risingFrom_filter (fun c => decide (src ≤ c.1) && decide (c.1 < src + n)) (memWf_iff.1 hm).1)
  rw [readByte_moved src dst _ 0 hr (by intro c hc; simp only [List.mem_filter, Bool.and_eq_true, decide_eq_true_eq] at hc; omega)]
  rw [getKey_filter (fun a => decide (src + lo ≤ a) && decide (a < src + hi)), getKey_filter (fun a => decide (src ≤ a) && decide (a < src + n))]
  rw [readByte_zeroBytes]
  by_cases hx : dst + lo ≤ x ∧ x < dst + hi
  · have e1 : (decide (src + lo ≤ x - dst + src) && decide (x - dst + src < src + hi)) = true := by simp; omega
    have e2 : (decide (src ≤ x - dst + src) && decide (x - dst + src < src + n)) = true := by simp; omega
    rw [if_pos (by omega), e1, e2, if_pos rfl, if_pos rfl, if_pos hx]
    rw [if_pos (by omega)]
    unfold readByte
    cases getKey m (x - dst + src) <;> rfl
  · rw [if_neg hx]
    have : (if dst ≤ x then (if (decide (src + lo ≤ x - dst + src) && decide (x - dst + src < src + hi)) = true then
        (if (decide (src ≤ x - dst + src) && decide (x - dst + src < src + n)) = true then getKey m (x - dst + src) else none) else none) else none) = none := by
      split
      · rw [if_neg (by simp; omega)]
      · rfl
    rw [this]
    dsimp only
    rw [if_neg (by omega)]

/-- A whole span copied. -/
theorem readByte_copyBytes {m : Mem} (src dst n : Nat) (hm : memWf m = true) (x : Nat) :
    readByte (copyBytes m src dst n) x = if dst ≤ x ∧ x < dst + n then readByte m (x - dst + src) else readByte m x := by
  unfold copyBytes
  have hr := risingFrom_filter (fun c => decide (src ≤ c.1) && decide (c.1 < src + n)) (memWf_iff.1 hm).1
  rw [readByte_moved src dst _ 0 hr (by intro c hc; simp only [List.mem_filter, Bool.and_eq_true, decide_eq_true_eq] at hc; omega)]
  rw [getKey_filter (fun a => decide (src ≤ a) && decide (a < src + n)), readByte_zeroBytes]
  by_cases hx : dst ≤ x ∧ x < dst + n
  · have e2 : (decide (src ≤ x - dst + src) && decide (x - dst + src < src + n)) = true := by simp; omega
    rw [if_pos (by omega), e2, if_pos rfl, if_pos hx, if_pos hx]
    unfold readByte
    cases getKey m (x - dst + src) <;> rfl
  · rw [if_neg hx]
    have : (if dst ≤ x then (if (decide (src ≤ x - dst + src) && decide (x - dst + src < src + n)) = true then getKey m (x - dst + src) else none) else none) = none := by
      split
      · rw [if_neg (by simp; omega)]
      · rfl
    rw [this]
    dsimp only
    rw [if_neg hx]

/-- All the chunks of a COPY put the source's bytes, as they stood, at the destination (R165, R200). -/
theorem readByte_workedCopy {m0 m m' : Mem} (hm : memWf m0 = true) {o : Op} {t u : Trans} (hop : o.desc.op = .copy) (h1 : o.tr1 = some t)
    (h2 : o.tr2 = some u)
    (h : Worked o (cellsOf m0 (t.base + o.desc.offset.toNat) o.desc.length.toNat) m m') (x : Nat) :
    readByte m' x =
      if u.base + o.desc.offset2.toNat ≤ x ∧ x < u.base + o.desc.offset2.toNat + o.desc.length.toNat then
        readByte m0 (x - (u.base + o.desc.offset2.toNat) + (t.base + o.desc.offset.toNat)) else readByte m x := by
  refine h (fun k n => ∀ x, readByte k x = if u.base + o.desc.offset2.toNat ≤ x ∧ x < u.base + o.desc.offset2.toNat + n then
    readByte m0 (x - (u.base + o.desc.offset2.toNat) + (t.base + o.desc.offset.toNat)) else readByte m x) ?_ ?_ x
  · intro x; rw [if_neg (by omega)]
  · intro p k a1 a2 a3 a4 a5 ih x
    have hb := chunkEnd_bounds (o := p) (by rw [a1]; exact a5)
    rw [a1] at hb
    have hk : chunkMem p k = placeCells k (t.base + o.desc.offset.toNat) (u.base + o.desc.offset2.toNat) p.chunk (chunkEnd p) p.src := by
      unfold chunkMem; rw [a1, a2, a3, hop, h1, h2]
    rw [hk, a4, readByte_placeCells k _ _ _ _ _ hm hb.2, ih x]
    by_cases hx : u.base + o.desc.offset2.toNat + p.chunk ≤ x ∧ x < u.base + o.desc.offset2.toNat + chunkEnd p
    · rw [if_pos hx, if_pos (by omega)]
    · rw [if_neg hx]
      by_cases hx2 : u.base + o.desc.offset2.toNat ≤ x ∧ x < u.base + o.desc.offset2.toNat + p.chunk
      · rw [if_pos hx2, if_pos (by omega)]
      · rw [if_neg hx2, if_neg (by omega)]

/-- All the chunks of a WRITE_ZERO clear the span (R165, R200). -/
theorem readByte_workedZero {m m' : Mem} {o : Op} {t : Trans} {src : List Host.Cell} (hop : o.desc.op = .writeZero) (h1 : o.tr1 = some t)
    (h : Worked o src m m') (x : Nat) :
    readByte m' x = if t.base + o.desc.offset.toNat ≤ x ∧ x < t.base + o.desc.offset.toNat + o.desc.length.toNat then 0
      else readByte m x := by
  refine h (fun k n => ∀ x, readByte k x = if t.base + o.desc.offset.toNat ≤ x ∧ x < t.base + o.desc.offset.toNat + n then 0
    else readByte m x) ?_ ?_ x
  · intro x; rw [if_neg (by omega)]
  · intro p k a1 a2 a3 _ a5 ih x
    have hb := chunkEnd_bounds (o := p) (by rw [a1]; exact a5)
    have hk : chunkMem p k = zeroBytes k (t.base + o.desc.offset.toNat + p.chunk) (chunkEnd p - p.chunk) := by
      unfold chunkMem; rw [a1, a2, hop, h1]
    rw [hk, readByte_zeroBytes, ih x]
    by_cases hx : t.base + o.desc.offset.toNat + p.chunk ≤ x ∧ x < t.base + o.desc.offset.toNat + chunkEnd p
    · rw [if_pos (by omega), if_pos (by omega)]
    · rw [if_neg (by omega)]
      by_cases hx2 : t.base + o.desc.offset.toNat ≤ x ∧ x < t.base + o.desc.offset.toNat + p.chunk
      · rw [if_pos hx2, if_pos (by omega)]
      · rw [if_neg hx2, if_neg (by omega)]

end Sys2Proof.Machine
end

