-- ==== Sys2Proof/WellFormed.lean ====
section
/-! DEFINITION. Which commands are well formed: every number lies inside the width or the range the spec gives it. -/
namespace Sys2Proof

/-- A management connection number has 20 bits (R89). -/
def principalWf : Principal → Bool
  | .conn n => decide (n < 2 ^ 20)
  | .i3c => true

/-- A register access names a 32-bit address (R17). -/
def accessWf : Access → Bool
  | .direct p addr _ => principalWf p && decide (addr < 2 ^ 32)
  | .op conn _ => decide (conn < 2 ^ 20)

/-- 16 galleries, 16 flash groups, 24 DRAM channels (R39). -/
def islandWf : Island → Bool
  | .gallery g => decide (g < 16)
  | .flashGroup g => decide (g < 16)
  | .dramChannel c => decide (c < 24)

/-- A Fenhel header has 32 bytes (R89); ports 0 to 15 and the management port. -/
def hdrWf (h : Hdr) : Bool :=
  decide (h.port ≤ 16) && decide (h.head.length = 32) && decide (h.udpLen < 65536) && decide (h.src.port < 65536)

/-- A frame names a port and holds 32 bytes where a Fenhel header begins (R83, R89). -/
def rawWf (f : RawFrame) : Bool :=
  decide (f.port ≤ 16) && decide (f.head.length = 32) && decide (f.udpLen < 65536) &&
  (match f.vlan with | none => true | some v => decide (v < 4096))

/-- The numeric fields of a CONNECT_REQ fit their bytes (R112). -/
def connectWf (r : ConnectReq) : Bool :=
  decide (r.credId < 2 ^ 32) && decide (r.npath < 256) && decide (r.sqLog < 256) && decide (r.cqLog < 256) &&
  decide (r.clientPort < 65536) && decide (r.clientUdp < 65536) && decide (r.oldWord < 2 ^ 32) &&
  decide (r.rsvA < 65536) && decide (r.rsvB < 2 ^ 32) && decide (r.pub.length = 96)

/-- LSN and LACK have 32 bits, PEER_STAMP 64 (R212). -/
def twlHdrWf (h : TwlHdr) : Bool :=
  decide (h.lsn < 2 ^ 32) && decide (h.lack < 2 ^ 32) && decide (h.peer < 2 ^ 64)

/-- A fragment's STAMP has 64 bits, and its part of the body fits a frame of 9,216 bytes (R211, R214). -/
def fragWf (f : Frag) : Bool := decide (f.stamp < 2 ^ 64) && decide (f.len ≤ 9216)

/-- The numeric fields of a HELLO fit their bytes (R243). -/
def helloWf (m : Hello) : Bool :=
  decide (m.streamLevel < 256) && decide (m.reseed < 65536) && decide (m.node < 2 ^ 18) &&
  decide (m.lastStamp < 2 ^ 64) && decide (m.time < 2 ^ 64) && decide (m.rsv < 16)

/-- The numeric fields of a witness answer fit their bytes (R229). -/
def witAnsWf (a : WitAns) : Bool :=
  decide (a.members < 256) && decide (a.rseed < 65536) && decide (a.wseq < 2 ^ 64) && decide (a.leaseUs < 2 ^ 32) && decide (a.holder < 256) && decide (a.reason < 256) &&
  decide (a.epoch < 2 ^ 24)

/-- A command is well formed when each operand fits the width or range of the field it stands for. -/
def Instr.wf : Instr → Bool
  | .regWrite a => accessWf a
  | .regRead a => accessWf a
  | .rcRegisterRead p addr => principalWf p && decide (addr < 2 ^ 32)
  | .loRegisterRead p addr => principalWf p && decide (addr < 2 ^ 32)
  | .i3cWriteAddress addr => decide (addr < 2 ^ 32)
  | .i3cWriteValue addr _ => decide (addr < 2 ^ 32)
  | .i3cRead => true
  | .i3cSetdasa _ _ => true
  | .i3cEntdaa _ => true
  | .i3cRstdaa => true
  | .i3cGetpid => true
  | .i3cGetbcr => true
  | .i3cGetdcr => true
  | .i3cGetstatus => true
  | .i3cGetmrl => true
  | .i3cGetmwl => true
  | .glbEthModeWrite p _ => principalWf p
  | .islandGate island => islandWf island
  | .islandWake island => islandWf island
  | .contextFillComplete conn => decide (conn < 2 ^ 20)
  | .budgetUpdate => true
  | .budgetWatchdogExpiry => true
  | .format p slot => principalWf p && decide (slot < 16)
  | .createFold p slot fold => principalWf p && decide (slot < 16) && decide (fold < 65536)
  | .destroyFold p slot fold => principalWf p && decide (slot < 16) && decide (fold < 65536)
  | .destroyFoldDrainDone fold => decide (fold < 65536)
  | .createRegion p slot fold => principalWf p && decide (slot < 16) && decide (fold < 65536)
  | .destroyRegion p slot fold => principalWf p && decide (slot < 16) && decide (fold < 65536)
  | .setPerm p slot fold => principalWf p && decide (slot < 16) && decide (fold < 65536)
  | .grant p slot fold => principalWf p && decide (slot < 16) && decide (fold < 65536)
  | .revoke p slot fold => principalWf p && decide (slot < 16) && decide (fold < 65536)
  | .commit p slot fold => principalWf p && decide (slot < 16) && decide (fold < 65536)
  | .commitDrainDone fold => decide (fold < 65536)
  | .generationDrained fold => decide (fold < 65536)
  | .rmaStatusRead p slot => principalWf p && decide (slot < 16)
  | .rmaSlotLapse slot => decide (slot < 16)
  | .nonFenhelFrame frame => rawWf frame
  | .strangerFrame port src frame => hdrWf (frame.hdr port src)
  | .ucrTokenRefill port => decide (port ≤ 16)
  | .arpRequest port _ _ => decide (port ≤ 16)
  | .neighborSolicitation port _ _ => decide (port ≤ 16)
  | .arpReply port _ _ => decide (port ≤ 16)
  | .neighborAdvertisement port _ _ => decide (port ≤ 16)
  | .portLinkDown port => decide (port ≤ 16)
  | .portLinkUp port => decide (port ≤ 16)
  | .doorbell h _ => hdrWf h
  | .readRsp h rid _ _ _ => hdrWf h && decide (rid < 2 ^ 32)
  | .ack h _ _ _ _ _ => hdrWf h
  | .probe h => hdrWf h
  | .pathReset h oldPath _ => hdrWf h && decide (oldPath < 8)
  | .disconnect h _ => hdrWf h
  | .connectReq h _ r => hdrWf h && connectWf r
  | .connectFin h _ _ => hdrWf h
  | .ptpMessage _ corr => decide (corr < 2 ^ 64)
  | .ackDelayExpiry conn path => decide (conn < 2 ^ 20) && decide (path < 8)
  | .rtoExpiry conn path => decide (conn < 2 ^ 20) && decide (path < 8)
  | .probeInterval conn path => decide (conn < 2 ^ 20) && decide (path < 8)
  | .connectionDead conn => decide (conn < 2 ^ 20)
  | .pullTimeout conn rid => decide (conn < 2 ^ 20) && decide (rid < 2 ^ 32)
  | .ratePeriodEnd conn path _ => decide (conn < 2 ^ 20) && decide (path < 8)
  | .readReqSend conn rid path len => decide (conn < 2 ^ 20) && decide (rid < 2 ^ 32) && decide (path < 8) && decide (len < 2 ^ 32)
  | .sequencedFrameSend conn path => decide (conn < 2 ^ 20) && decide (path < 8)
  | .setupTimeout conn => decide (conn < 2 ^ 20)
  | .errorHoldExpiry conn => decide (conn < 2 ^ 20)
  | .descriptorFetch gallery => decide (gallery < 16)
  | .descriptorStart conn _ => decide (conn < 2 ^ 20)
  | .orderWaitRelease conn _ => decide (conn < 2 ^ 20)
  | .fenceRelease conn _ => decide (conn < 2 ^ 20)
  | .dataPullComplete conn _ _ => decide (conn < 2 ^ 20)
  | .lineFillComplete conn _ _ => decide (conn < 2 ^ 20)
  | .budgetAdmission => true
  | .admitWaitExpiry conn _ => decide (conn < 2 ^ 20)
  | .orderStamp conn _ _ => decide (conn < 2 ^ 20)
  | .groupAssemblyTimeout conn _ => decide (conn < 2 ^ 20)
  | .completionLevelReached conn _ => decide (conn < 2 ^ 20)
  | .read conn _ _ => decide (conn < 2 ^ 20)
  | .write conn _ => decide (conn < 2 ^ 20)
  | .writeZero conn _ => decide (conn < 2 ^ 20)
  | .copy conn _ => decide (conn < 2 ^ 20)
  | .cas conn _ => decide (conn < 2 ^ 20)
  | .fetchAdd conn _ => decide (conn < 2 ^ 20)
  | .swap conn _ => decide (conn < 2 ^ 20)
  | .persist conn _ => decide (conn < 2 ^ 20)
  | .logAppend conn _ => decide (conn < 2 ^ 20)
  | .snapshot conn _ => decide (conn < 2 ^ 20)
  | .clone conn _ => decide (conn < 2 ^ 20)
  | .wait conn _ => decide (conn < 2 ^ 20)
  | .waitTimeoutExpiry conn _ => decide (conn < 2 ^ 20)
  | .health conn _ => decide (conn < 2 ^ 20)
  | .nop conn _ => decide (conn < 2 ^ 20)
  | .cowLeafCopy conn _ _ => decide (conn < 2 ^ 20)
  | .datapathChunk gallery => decide (gallery < 16)
  | .disableDrain p conn => principalWf p && decide (conn < 2 ^ 20)
  | .disableAbort p conn => principalWf p && decide (conn < 2 ^ 20)
  | .connRelease p conn => principalWf p && decide (conn < 2 ^ 20)
  | .connQuery p conn => principalWf p && decide (conn < 2 ^ 20)
  | .quiesceComplete conn => decide (conn < 2 ^ 20)
  | .enrol p id _ foldLo => principalWf p && decide (id < 65536) && decide (foldLo < 65536)
  | .credRevoke p id => principalWf p && decide (id < 65536)
  | .twlRecordsFrame h recs _ => twlHdrWf h && recs.all fragWf
  | .linkAck h => twlHdrWf h
  | .hello msg => helloWf msg
  | .twlRetransmitTimeout => true
  | .twlIdleSend => true
  | .twlRxSilence => true
  | .twlBlockLockLoss => true
  | .twlLinkUp _ => true
  | .opRec stamp conn _ _ => decide (stamp < 2 ^ 64) && decide (conn < 2 ^ 20)
  | .groupRec stamp conn _ _ => decide (stamp < 2 ^ 64) && decide (conn < 2 ^ 20)
  | .ctrlRec stamp _ => decide (stamp < 2 ^ 64)
  | .endRec stamp conn _ => decide (stamp < 2 ^ 64) && decide (conn < 2 ^ 20)
  | .indexRec conn _ _ _ _ => decide (conn < 2 ^ 20)
  | .rdataRec conn _ _ _ _ _ => decide (conn < 2 ^ 20)
  | .levelRec _ => true
  | .leafRec _ _ _ _ _ => true
  | .handover => true
  | .resyncSet _ _ _ _ => true
  | .regReq addr _ _ => decide (addr < 2 ^ 32)
  | .regRsp addr _ _ _ => decide (addr < 2 ^ 32)
  | .fin stamp => decide (stamp < 2 ^ 64)
  | .repair stamp _ => decide (stamp < 2 ^ 64)
  | .ready => true
  | .leave _ => true
  | .ports _ => true
  | .repairTimeout _ => true
  | .standbyBudgetWait => true
  | .resyncLeafSend => true
  | .renewInterval => true
  | .claimInterval => true
  | .witnessGrant ans => witAnsWf ans
  | .witnessDeny ans => witAnsWf ans
  | .witnessDone ans => witAnsWf ans
  | .witnessAnswerLate => true
  | .leaseEnd => true
  | .linkWaitExpiry => true
  | .soloWaitExpiry => true
  | .heartbeatSend => true
  | .heartbeat _ _ _ => true
  | .helloInterval => true
  | .swapDrainDone => true
  | .handoverClaimTimeout => true
  | .reseed p _ => principalWf p
  | .reseedDrainDone => true
  | .forceUnpaired p _ => principalWf p
  | .clearOverride p => principalWf p
  | .testOn p => principalWf p
  | .testOff p => principalWf p
  | .openWindow p => principalWf p
  | .closeWindow p => principalWf p
  | .windowExpiry => true
  | .provision p => principalWf p
  | .holdVSample _ => true
  | .shuntSample _ => true
  | .accumulatorAnchor => true
  | .mismatchWindowEnd => true
  | .dischargeTest p => principalWf p
  | .dischargeTestStart => true
  | .dischargeTestFloor => true
  | .dischargeTestTimeout => true
  | .acceptLoss p _ => principalWf p
  | .dirtyOverBudget => true
  | .mainOkFall => true
  | .mainOkRise => true
  | .saveStampedWorkDone => true
  | .saveLinkDrainEnd => true
  | .saveImageProgram => true
  | .saveImageDone _ _ => true
  | .holdUpLimit => true
  | .saveResume => true
  | .imageRelease slot => decide (slot < 16)
  | .ftlDrain pos => decide (pos < 256)
  | .flashProgramComplete pos _ => decide (pos < 256)
  | .flashProgramFail pos chan plane => decide (pos < 256) && decide (chan < 8) && decide (plane < 4)
  | .flashEraseComplete sb => decide (sb < 2 ^ 19)
  | .flashEraseFail sb chan plane => decide (sb < 2 ^ 19) && decide (chan < 8) && decide (plane < 4)
  | .flashReadComplete loc _ _ => decide (loc < 2 ^ 38)
  | .flashSuspend flashChan target _ => decide (flashChan < 128) && decide (target < 16)
  | .dieOffline flashChan target => decide (flashChan < 128) && decide (target < 16)
  | .garbageCollect pos => decide (pos < 256)
  | .checkpointStart => true
  | .checkpointComplete => true
  | .checkpointLate => true
  | .patrolRead _ _ => true
  | .patrolPeriodEnd => true
  | .healthDailySample _ => true
  | .dramRequest chan sub _ dport _ _ _ _ _ _ _ => decide (chan < 24) && decide (sub < 2) && decide (dport < 8)
  | .dramCommandIssue chan sub _ => decide (chan < 24) && decide (sub < 2)
  | .urgencyRaise chan sub _ => decide (chan < 24) && decide (sub < 2)
  | .refreshDue chan sub _ => decide (chan < 24) && decide (sub < 2)
  | .rowIdlePrecharge chan sub _ _ => decide (chan < 24) && decide (sub < 2)
  | .dramReadData chan sub _ _ _ => decide (chan < 24) && decide (sub < 2)
  | .dramAlert chan sub => decide (chan < 24) && decide (sub < 2)
  | .dramAlertRelease chan sub => decide (chan < 24) && decide (sub < 2)
  | .dramTempRead chan _ => decide (chan < 24)
  | .ceBucketLeak chan => decide (chan < 24)
  | .drcInjArm p chan _ => principalWf p && decide (chan < 24)
  | .rateBLoad p _ _ => principalWf p
  | .go p => principalWf p
  | .rateChangeComplete _ => true
  | .getS pen _ => decide (pen < 16)
  | .getM pen _ => decide (pen < 16)
  | .data pen _ => decide (pen < 16)
  | .snpInv pen _ => decide (pen < 16)
  | .snpAck pen _ _ _ => decide (pen < 16)
  | .evict pen _ => decide (pen < 16)
  | .evictAck pen _ => decide (pen < 16)
  | .victimWritebackAck slice _ => decide (slice < 16)
  | .invalidate p => principalWf p
  | .flush p => principalWf p
  | .flushDisable p => principalWf p
  | .halCmdComplete => true
  | .halCtrlWrite p _ => principalWf p
  | .mergeEntryRetire _ inst word _ => decide (inst < 256) && decide (word < 2 ^ 32)
  | .scrubRead _ inst _ _ => decide (inst < 256)
  | .eccBucketLeak _ inst => decide (inst < 256)
  | .droverReloadComplete drover => decide (drover < 192)
  | .shepherdSramRestart => true
  | .alarmClassA source => decide (source < 8)
  | .alarmClassB source => decide (source < 8)
  | .classBZeroComplete => true
  | .clear p => principalWf p
  | .lowerClass p _ => principalWf p
  | .provisionClear p => principalWf p
  | .secChalRead p => principalWf p
  | .challengeLapse => true
  | .macLockoutEnd => true
  | .secAlarmCfgWrite p _ => principalWf p
  | .generate p keySlot => principalWf p && decide (keySlot < 4096)
  | .load p keySlot => principalWf p && decide (keySlot < 4096)
  | .unload p keySlot => principalWf p && decide (keySlot < 4096)
  | .destroy p keySlot => principalWf p && decide (keySlot < 4096)
  | .keyQuery p keySlot => principalWf p && decide (keySlot < 4096)
  | .cipherLaneJob lane prio _ _ => decide (lane < 48) && decide (prio < 4)
  | .maskReseed lane => decide (lane < 48)
  | .drbgReseed _ => true
  | .drbgStop => true
  | .drbgRestart => true
  | .pkeEcdhP384 p => principalWf p
  | .pkeX25519 p => principalWf p
  | .pkeEcdsaVerify p => principalWf p
  | .pkeJobComplete => true
  | .pkePoolRefill => true
  | .pwronRstNRise _ => true
  | .pwronRstNFall => true
  | .ldgKeyWrite p _ => principalWf p
  | .ldgProgram p _ => principalWf p
  | .ldgErase p _ => principalWf p
  | .ldgSuspend p => principalWf p
  | .ldgResume p => principalWf p
  | .ldgSequenceLapse => true
  | .ldgOwnerLapse => true
  | .ldgStatusRead p => principalWf p
  | .ldgRdDataRead p => principalWf p
  | .ledgerErasePulse sector _ => decide (sector < 3840)
  | .ledgerProgramDone _ => true
  | .ledgerEraseSlow sector => decide (sector < 3840)
  | .ledgerWindowMove => true
  | .storeTuning p => principalWf p
  | .storeIdentity p _ => principalWf p
  | .compact p => principalWf p
  | .stage p => principalWf p
  | .stageComplete => true
  | .activate p => principalWf p
  | .activateReload => true
  | .updCommit p _ => principalWf p
  | .revert p => principalWf p
  | .updRevoke p signer _ => principalWf p && decide (signer < 4)
  | .recoverBegin p => principalWf p
  | .updRcvDataWrite p _ => principalWf p
  | .recoverEnd p => principalWf p
  | .pgRise pgLine => decide (pgLine < 16)
  | .settleExpiry _ => true
  | .pgTimeout => true
  | .downMsExpiry => true
  | .minOffExpiry => true
  | .off p _ => principalWf p
  | .on p => principalWf p
  | .railFault rail _ _ => decide (rail < 8)
  | .chargerPgLow => true
  | .tempConversion sensor _ => decide (sensor < 36)
  | .throttleStep => true
  | .holdTempConversion _ _ => true
  | .vddCoreRequestUpdate => true
  | .vddCoreRaiseUnmet => true
  | .runCal p => principalWf p
  | .calibrationDue => true
  | .calibrationComplete _ => true
  | .recorderWrite => true
  | .codeBucketRefill code => decide (code < 65536)
  | .foldBucketRefill fold => decide (fold < 65536)
  | .evtPendClear p _ => principalWf p
  | .evtFoldRlWrite p _ => principalWf p
  | .evtSnapAddrWrite p index _ => principalWf p && decide (index < 8)
  | .recorderClear p _ => principalWf p
  | .bind p => principalWf p
  | .unbind p => principalWf p
  | .ringQuery p => principalWf p
  | .ageingSample _ => true
  | .warmRstNAssert => true
  | .warmRstNRelease => true
  | .warm p _ => principalWf p
  | .warmResetQuiesced => true
  | .warmResetFinish _ => true
  | .galleryReset p _ => principalWf p
  | .galleryResetComplete => true
  | .foldReset p => principalWf p
  | .foldResetComplete => true
  | .connectionReset p => principalWf p
  | .portReset p => principalWf p
  | .stageOpen p => principalWf p
  | .stageCommit p => principalWf p
  | .stageAbandon p => principalWf p
  | .stageBankLapse => true
  | .stageBankDrained => true
  | .jtagBypass => true
  | .jtagIdcode => true
  | .jtagSamplePreload => true
  | .jtagExtest => true
  | .jtagClamp => true
  | .jtagHighz => true
  | .jtagExtestPulse => true
  | .jtagExtestTrain => true
  | .twnCmdSwap p => principalWf p
  | .vddCoreRaiseMet _ => true
  | .vddAonBrownOut => true
  | .warmResetStart => true
  | .warmResetHoldEnd => true
  | .dieTemperatureRead _ _ => true

end Sys2Proof
end

