-- ==== Sys2Proof/Tests/Slice0.lean ====
section
/-! SUPPORT. Tests of single commands on small states, ill-formed terms that the check refuses, and for each statement concrete
states and operands that meet its hypotheses. -/
namespace Sys2Proof.Tests
set_option Elab.async false
open Sys2Proof.Machine

/-! ## Small states -/

/-- A state with nothing waiting. -/
def st (d : Dev) : State := { pending := [], dev := d }

/-- An accepted CONNECT_RSP of no particular content. -/
def rsp0 : ConnectRsp :=
  { head := [], npath := 1, udpBase := 0, initPsn := 0, nonceC := 0, nonceG := 0, twin := none, pub := [], paths := [], confirm := 0 }

/-- The identity of a connection at sequence 0, and the same on the management port. -/
def ident : ConnIdent :=
  { cred := 1, fold := 0, mgmt := false, level := .loc, twinRead := false, npath := 1, sqLog := 6, cqLog := 6, sqAddr := 0,
    sqCkey := 0, cqAddr := 0, cqCkey := 0, clientIp := 0, clientPort := 0, clientUdp := 0, key := 0, nonceC := 0, nonceG := 0,
    initSeq := 0, initPsnC := 0, initPsnG := 0, rsp := rsp0, confirmC := 0, store := [] }

def ctl : RateCtl :=
  { rate := 1, alpha := 1, clean := 0, srtt := 0, rttvar := 0, sampled := false, samples := [], base := 0, ceSeen := false, marks := 0, frames := 0 }

def path : Path :=
  { up := true, nextPsn := 0, unacked := [], rxE := 0, rxGot := [], echoTs := 0, ceCnt := 0, rxCnt := 0, ackOwed := 0, rto := 1,
    expiries := 0, push := ctl, pull := ctl }

/-- An ACTIVE connection with one path and nothing in hand. -/
def conn : Conn :=
  { ident := ident, state := .active, abort := false, cause := .done, reason := 0, byClient := false, resuming := false, sqTail := 0,
    ackSeq := 0, cqHead0 := 0, cqHead1 := 0, f := 0, x := 0, executed := [], store := [], written := 0, twinWritten := 0,
    refetch := false, txc := 1, txcHigh := 65536, nextRid := 0, pulls := [], sendq := [], discSent := false, paths := [path],
    count := 0, winViol := 0, tagFail := 0, failTimes := [], endDue := [], changed := [], dupCnt := 0, abortCnt := 0, rspDue := none, setupSt := none,
    routes := [] }

/-- The management connection that the tests use as a principal. -/
def mgmt : Principal := .conn 7

/-- A unit that is up and serves alone: supplies on, its firmware running, one management connection, port 0 linked. -/
def up : Dev :=
  { Dev.reset with
    pwr := { Pwr.reset with st := .on, pwron := true, served := true },
    ldg := { Ledger.reset with stage := .firmware },
    dur := { Dur.reset with mainOk := true, budget := 1000000, source := .derated },
    twin := { Twin.reset with st := .unpaired, nextAt := none },
    idUse := [(0x300038, 0xC0180000), (0x350038, 0xC0180000)],
    net := { Net.reset with conns := [(7, { conn with ident := { ident with mgmt := true } })],
                            ports := { Port.reset with link := true } :: List.replicate 15 Port.reset ++ [{ Port.reset with link := true }] },
    folds := { Folds.reset with formatted := true, s := 8589934592, rta := 67108864, rtaUsed := [(4227858432, 4194304)], live := [0] },
    mem := writeBytes [] 4227858432 (foldBytes newFold) }

/-- The unit outside service. -/
def down : Dev := { up with twin := { up.twin with st := .fenced } }

/-- A paired unit: ACTIVE with its link up. -/
def pairId : PairIdent := { pairId := 1, unit := false, node := 0, twin := 1, secret := 0, wkey := 0, waddr := 0 }
def active : Dev := { up with twin := { up.twin with st := .active, ident := some pairId, linkUp := true, linkKey := some 0, nextAt := some 1, leaseEnd := some 10 } }
def standby : Dev := { active with twin := { active.twin with st := .standby } }

/-- A unit whose fold 0 has a table of eight descriptors: a region of 4096 bytes at 4096 as handle 0 and a grant of it as handle 1.
Fold 9 is live and has no table. -/
def tabled : Dev :=
  { up with
    folds := { up.folds with live := [0, 9], dataUsed := [(4096, 4096)], rtaUsed := [(4227858432, 4194304), (4232052736, 64), (4232052800, 512)] },
    mem := writeBytes (writeBytes (writeBytes (writeBytes (writeBytes up.mem 4227858432 (foldBytes { newFold with dirBase := 4232052736 }))
      (4227858432 + 64 * 9) (foldBytes newFold)) 4232052736 (dirBytes 4232052800 7))
      4232052800 (regDescBytes { noDesc with base := 4096, len := 4096, gen := 1, ty := 1, perm := 3 }))
      (4232052800 + 64) (regDescBytes { noDesc with ty := 2, perm := 1 }) }

/-- A descriptor and an operation of connection 7 at sequence 0, of which nothing has begun. -/
def desc (opcode : Byte) (length offset : Nat) : Desc :=
  { opcode := opcode, flags := 0, level := 0, rsv := 0, seq := 0, handle := 0, length := BitVec.ofNat 32 length, offset := BitVec.ofNat 64 offset,
    caddr := 0, b32 := 0, b48 := 0 }
def op (stage : Stage) (x : Desc) : Op :=
  { conn := 7, seq := 0, desc := x, stage := stage, first := false, group := none, last := true, data := [], dataGot := 0, refused := false,
    tr1 := none, tr2 := none, gens := [], admitted := none, stamp := none, rseed := 0, failed := [], target := none, done := none,
    pushed := false, lines := [], finDue := false, chunk := 0, src := [], srcBad := [], cached := false }

/-- The unit with operations in hand. -/
def withOps (d : Dev) (l : List Op) : Dev := d.modNet fun n => { n with ops := l }

/-! ## Witnesses: the machine, registers, clocks -/

theorem witness_StepKeepsMemoryCanonical : MemOk (st up) ∧ step (st up) = .next (st { up with clock := 1000 }) := ⟨by decide +kernel, rfl⟩

theorem witness_MemoryFrame : writesMem (.islandWake (.gallery 15)) = false := rfl

theorem witness_RegistersFrame : mayWriteRegs (.dramTempRead 23 []) = false := rfl

theorem witness_MemoryReadsWhatWasWritten : memWf [] = true ∧ (0 < 1 ∨ 1 + [(5 : Byte)].length ≤ 0) ∧ memWf [(1, (5 : Byte))] = true := by decide

theorem witness_I3cTargetCommands : up.pwr.pwron = true ∧ up.i3c.dyn = none := ⟨rfl, rfl⟩

theorem witness_I3cReadsAndWritesRegisters : up.pwr.pwron = true ∧ inWarm up = false ∧ up.i3c.pointer = 0 ∧ up.i3c.wrote = none ∧
    latchOf up .i3c 0 = none := by decide +kernel

theorem witness_RegisterWriteThenRead : Open up mgmt 0x60 ∧ latchOf up mgmt 0x60 = none := by decide +kernel

theorem witness_ReadsThatClearOrLatch : (isCounter 0x350124 = true ∧ Open up mgmt 0x350124 ∧ latchOf up mgmt 0x350124 = none) ∧
    (Open up mgmt 0x4000C ∧ latchOf up mgmt 0x4000C = none) ∧
    (Open { up with latches := [(mgmt, 0x40010, 5)] } mgmt 0x40010 ∧ latchOf { up with latches := [(mgmt, 0x40010, 5)] } mgmt 0x40010 = some 5) ∧
    (Open up mgmt 0x600430 ∧ latchOf { up with latches := [(mgmt, 0x600434, 5)] } mgmt 0x600434 = some 5) := by decide +kernel

theorem witness_EthModeWrite : Open up mgmt 0x40 ∧ (∀ q < 16, (reg up (ethBase q)).getLsbD 31 = false) ∧
    (reg { up with regs := [(0x33C000, 0x80000000)] } (ethBase 15)).getLsbD 31 = true := by decide +kernel

theorem witness_IslandsAndContexts : (up.pwr.st = .on ∧ mayGate up (.gallery 15) = true ∧ islandIdle up (.gallery 15) = true) ∧
    (mayGate up (.flashGroup 15) = true ∧ islandIdle up (.flashGroup 15) = true) ∧
    (mayGate up (.dramChannel 23) = true ∧ islandIdle up (.dramChannel 23) = true) ∧
    ((getConn up 7).isSome = true ∧ (up.net.ctxCache.filter fun x => homeOf x = homeOf 7).length < 4096) := by decide +kernel

theorem witness_BudgetFollowsTheEstimates : Quiet up := by decide +kernel

/-! ## Witnesses: folds and regions -/

/-- Arguments in command slot 15. -/
def args (d : Dev) (l : List (Nat × Word)) : Dev :=
  d.modFolds fun f => { f with slots := f.slots.set 15 { Slot.free with args := l } }

/-- The tabled unit with a staged new region of fold 0 at handle 7. -/
def staged : Dev :=
  tabled.modFolds fun f => { f with staged := [stagedAs 0 0 7 { noDesc with base := 8192, len := 64, ty := 1, perm := 3 }] }

/-- A result of a plan. -/
def planned (r : Except RmaResult Plan) : Option RmaResult := match r with | .ok _ => none | .error e => some e

/-- The command of slot 15 of the management connection can be planned now and at its stamp, and is admitted. -/
def plans (d : Dev) (op : RmaOp) (f : Nat) : Bool :=
  let t := taken d mgmt 15 op f
  let c := slotCmd d 15 op f
  canStamp t && (waitsFor t c).all (fun g => !genBusy t g) &&
  (match planOf t (nextStamp t.twin) c with | .ok Q => Q.lines.isEmpty || admits t Q.lines.length | .error _ => false) &&
  (planned (planOf (stampedRma t c) (nextStamp t.twin) c)).isNone

theorem ready_slot : SlotReady tabled mgmt 15 := ⟨by decide +kernel, by decide +kernel, _, rfl, rfl, .inl rfl⟩

theorem witness_RegionTableCommandsRun : plans tabled .createFold 65535 = true ∧
    plans (args tabled [(0x08, 0)]) .destroyRegion 0 = true ∧ plans (args tabled [(0x14, 1)]) .setPerm 0 = true ∧
    plans (args tabled [(0x08, 1)]) .revoke 0 = true ∧ plans staged .commit 0 = true := by decide +kernel

theorem witness_createRegion : plans (args tabled [(0x08, 7), (0x0C, 64), (0x14, 3)]) .createRegion 0 = true := by decide +kernel
theorem witness_grant : plans (args tabled [(0x14, 1), (0x1C, 7)]) .grant 0 = true := by decide +kernel

theorem witness_RegionTableCommandsRefused :
    (planned (planOf (taken up mgmt 15 .createFold 0) 1 (slotCmd up 15 .createFold 0)) = some .badState ∧
      (serving (taken up mgmt 15 .createFold 0) && !up.twin.refusing) = true) ∧
    (serving (taken down mgmt 15 .createFold 0) && !down.twin.refusing) = false := by decide +kernel

/-- The device that a plan makes at a stamp. -/
def madeBy (r : Except RmaResult Plan) (x : Stamp) : Option Dev := match r with | .ok P => some (P.make x) | .error _ => none

/-- An operation that was admitted under generation 1 of fold 9. -/
def gen9 : Op := { op .ready (desc 0 0 0) with gens := [(9, 1)] }

theorem witness_DestroyFoldRuns : plans tabled .destroyFold 9 = true ∧
    ((madeBy (planOf tabled 1 (slotCmd tabled 15 .destroyFold 9)) 1).map fun e => (genBusy e 9, ctrlReady e (.rmaDrained 9))) = some (false, true) ∧
    plans (withOps tabled [gen9]) .destroyFold 9 = true ∧
    ((madeBy (planOf (withOps tabled [gen9]) 1 (slotCmd tabled 15 .destroyFold 9)) 1).map fun e => genBusy e 9) = some true := by
  decide +kernel

theorem witness_RegionTablePlans : ([(RmaOp.createFold, 65535, []), (.createRegion, 0, [(0x08, 7), (0x0C, 64), (0x14, 3)]), (.destroyRegion, 0, [(0x08, 0)]),
      (.setPerm, 0, [(0x14, 1)]), (.grant, 0, [(0x14, 1), (0x1C, 7)]), (.revoke, 0, [(0x08, 1)]), (.commit, 9, [])] : List (RmaOp × Nat × List (Nat × Word))).all
      (fun x => (planned (planOf tabled 1 (slotCmd (args tabled x.2.2) 15 x.1 x.2.1))).isNone) = true ∧
    (planned (planOf staged 1 (slotCmd (args staged [(0x08, 7)]) 15 .destroyRegion 0)) = none ∧ (liveDesc staged 0 7).isNone = true) ∧
    (liveDesc tabled 0 1).isSome = true := by decide +kernel

/-- A fenced unit whose flash may be formatted. -/
def blank : Dev := { down with ftl := { Ftl.reset with groups := 16, targets := 16, popOk := true, part := { planes := 4, blocks := 64, pages := 2304, wlPages := 3, suspend := true, progMaxNs := 1, rated := 1 } } }

/-- The device that FORMAT makes, or its refusal. -/
def formats (d : Dev) (p : Principal) (rta : Word) : Except RmaResult Dev :=
  let t := args d [(0x20, rta)]
  format ((taken t p 15 .format 0).modFolds fun f => { f with queue := [] }) (slotCmd t 15 .format 0).rta
def refusedBy (r : Except RmaResult Dev) : Option RmaResult := match r with | .ok _ => none | .error r => some r
/-- Its lines stand in flash once they are written through. -/
def heldThen (r : Except RmaResult Dev) : Option Bool :=
  match r with
  | .ok a => some (formatHeld (writeThrough a (addNums [rtaBase a.folds / 4096] ((controlAll a).map (itemLeaf a)))))
  | .error _ => none
/-- A flash with no superblock beside those of the save. -/
def worn : Dev := blank.modFtl fun f => { f with part := { f.part with blocks := 4 } }

theorem witness_FormatLaysOutTheSpace : heldThen (formats blank .i3c 1) = some true ∧ heldThen (formats worn .i3c 1) = some false ∧ refusedBy (formats blank .i3c 1024) = none ∧ refusedBy (formats blank .i3c 0) = some .badParam ∧
    refusedBy (formats blank .i3c 1025) = some .badParam ∧ SlotReady (args blank [(0x20, 1)]) .i3c 15 ∧ SlotReady (args blank [(0x20, 1)]) mgmt 15 := by
  refine ⟨by decide +kernel, by decide +kernel, by decide +kernel, by decide +kernel, by decide +kernel, ?_, ?_⟩ <;>
    exact ⟨by decide +kernel, by decide +kernel, _, rfl, rfl, .inl rfl⟩

/-- The unit with a COMMIT of fold 0 that waits for a drain, and one whose fold 9 is being destroyed. -/
def waiting : Dev := staged.modFolds fun f => { f with queue := [(15, slotCmd staged 15 .commit 0)] }
def dying : Dev :=
  { tabled with
    folds := { tabled.folds with waits := some { slot := 15, cmd := slotCmd tabled 15 .destroyFold 9, step := 4 } },
    mem := writeBytes tabled.mem (foldPa tabled.folds 9 + 10) [2] }
def drained : Dev := tabled.modFolds fun f => { f with drains := [{ fold := 9, gen := 0, pages := [], space := [] }] }

theorem witness_DrainsLetCommandsGoOn :
    (waiting.twin.ctrlDue = [] ∧ canStamp waiting = true ∧ planned (planOf waiting 1 (slotCmd staged 15 .commit 0)) = none ∧
      (affected waiting 0).any (genBusy waiting) = false) ∧
    (dying.twin.ctrlDue = [] ∧ ctrlReady dying (.rmaDrained 9) = true ∧ genBusy dying 9 = false ∧ (readFold dying.mem (foldPa dying.folds 9)).state = 2) ∧
    (drained.twin.ctrlDue = [] ∧ ctrlReady drained (.rmaDrained 9) = true ∧ drained.folds.queue = [] ∧ (∃ x ∈ drained.folds.drains, x.fold = 9) ∧
      (∀ x ∈ drained.folds.drains, x.fold = 9 → genInUse drained 9 x.gen = false) ∧ (readFold drained.mem (foldPa drained.folds 9)).state ≠ 2) := by
  decide +kernel

theorem witness_SlotStatusAndLapse : up.folds.slots[15]? = some Slot.free ∧ Open up mgmt (slotBase 15 + 4) := by decide +kernel

/-! ## Witnesses: ports and connections -/

/-- The 32 header bytes of a client's frame: type, body length, connection and PSN (R89). -/
def headOf (ty : FrameType) (len c : Nat) (psn : Word) : List Byte :=
  [0x10, BitVec.ofNat 8 (typeCode ty)] ++ beBytes 2 len ++ beBytes 4 0 ++ [0] ++ beBytes 3 c ++ beBytes 4 psn.toNat ++ List.replicate 16 0

/-- A good frame on port 16 and one of connection 9 on port 0. -/
def raw : RawFrame :=
  { port := 16, fcsOk := true, length := 9216, vlan := none, macCtl := false, layerOk := true, csumZeroOrOk := true, head := headOf .ack 24 7 0, udpLen := 72 }
def hdr (ty : FrameType) (len c : Nat) (psn : Word) : Hdr :=
  { port := 0, src := ⟨0, 0⟩, head := headOf ty len c psn, udpLen := 32 + len + (if isProtected ty then 16 else 0), ce := false, tagOk := true, bodyOk := true }

/-- The unit with connection 9, of one path, as given. -/
def withConn (c : Conn) : Dev := { up with net := { up.net with conns := up.net.conns ++ [(9, c)], ctxCache := [9, 7] } }

theorem witness_DroppedFramesAreCounted : linked up 16 = true ∧ (v4On up 16 || v6On up 16) = true ∧
    (raw.vlan = (if raw.port < 16 && (reg up (ethBase raw.port)).getLsbD 28 then some (wbits (reg up (ethBase raw.port)) 23 12) else none)) ∧
    fenhelOk raw.head raw.udpLen = true ∧ fenhelOk raw.head 73 = false ∧
    nodeAccepted up (netField (raw.head.set 7 9) 4 4 % 2 ^ 18) = false ∧ fenhelOk (raw.head.set 7 9) 72 = true := by decide +kernel

/-- The unit whose port 0 answers strangers. -/
def answering : Dev := { up with regs := [(0x300010, 0x800003E8)] }

theorem witness_StrangersAreCounted :
    (let h := hdr .push 0 9 0
     FrameIn up (hdr .ack 24 9 0) ∧ headType (hdr .ack 24 9 0).head = some .ack ∧ h.port ≤ 16 ∧ landingShut up 9 = false ∧ getConn up 9 = none ∧
      up.net.ports[0]? = some { Port.reset with link := true } ∧ (reg answering (ethBase 0 + 0x10)).getLsbD 31 = true ∧
      regBits answering (ethBase 0 + 0x10) 15 0 ≠ 0 ∧ (reg up (ethBase 0 + 0x10)).getLsbD 31 = false ∧ 0 < Port.reset.ucrTokens) ∧
    (getConn (withConn conn) 9 = some conn ∧ 9 ∈ (withConn conn).net.ctxCache ∧ (conn.ident.mgmt ↔ 0 = 16) ∧ acceptsFrame conn.state .doorbell = true ∧
      acceptsFrame .armed .doorbell = false ∧ (hdr .doorbell 24 9 0).path < conn.ident.npath) ∧
    9 ∉ { (withConn conn).net with ctxCache := [7] }.ctxCache := by
  decide +kernel

theorem witness_AddressResolution : linked up 16 = true ∧ v4On up 16 = true ∧ v6On up 16 = true ∧ up.net.ports[16]? = some { Port.reset with link := true } ∧
    samePrefix (ip4Of up 16) (ip4Of up 16) (wbits (idVal up (ethBase 16 + 0x38)) 21 16) = true ∧
    samePrefix (ip6Of up 16) (ip6Of up 16) (wbits (idVal up (ethBase 16 + 0x38)) 7 0) = true := by decide +kernel

theorem witness_PortsComeAndGo : (up.net.ports[15]? = some Port.reset ∧ linked up 15 = false ∧
      mayLink { up with regs := [(0x33C000, 0x80000000)], rst := { Rst.reset with run := some (.port 15) } } 15 = true) ∧
    (up.net.ports[16]? = some { Port.reset with link := true } ∧ linked up 16 = true) ∧ regBits up (ethBase 0 + 0x10) 15 0 ≠ 0 := by decide +kernel

/-- The connection with its first descriptor in the client's ring. -/
def bell : Doorbell := { sqTail := 1, ackSeq := 0, cqHead0 := 0, cqHead1 := 0, inline := none, data := [] }

/-- A frame is taken by the connection. -/
def taken? (d : Dev) (h : Hdr) (b : FrameBody) : Option Conn :=
  match classify { h with bodyOk := h.bodyOk && bodyRules h b } b d with | .ok c => some c | .error _ => none

theorem witness_SequencedFramesAreDelivered : let d := withConn { conn with ident := { ident with npath := 2 }, paths := [path, path] }
    (d.net.conns.length = 2 ∧ psnFind path 0 = .new ∧ psnFind path 4095 = .new ∧ serving d = true ∧ conn.txc + 2 < 2 ^ 64) ∧
    (taken? d (hdr .doorbell 24 9 0) (.doorbell bell)).isSome = true ∧ (takeIndices false conn 1 0 0 0).isSome = true ∧
    (taken? d (hdr .pathReset 8 9 0) (.pathReset 1 5)).isSome = true ∧ (taken? d (hdr .disconnect 8 9 0) (.disconnect 0)).isSome = true := by decide +kernel

theorem witness_DuplicatesAreNotDelivered : psnFind path 4096 = .beyond ∧ psnFind path 0x7FFFFFFF = .beyond ∧ psnFind path 0x80000000 = .duplicate ∧ psnFind path 0xFFFFFFFF = .duplicate ∧ txcOk conn = true ∧
    (taken? (withConn conn) (hdr .doorbell 24 9 4096) (.doorbell bell)).isSome = true ∧ (taken? (withConn conn) (hdr .probe 0 9 0) .probe).isSome = true := by decide +kernel

/-- A live request of 8 bytes in one segment, sent. -/
def pull (x : PullFor) : Pull :=
  { rid := 5, what := x, addr := 0, ckey := 0, len := 8, seg := 1024, path := 0, sent := true, acked := true, sentAt := 0, first := false, got := [], held := 8, bytes := [] }

theorem witness_ReadResponsesArePlaced :
    let d := withConn { conn with pulls := [pull (.data 0 0)] }
    (taken? d (hdr .readRsp 24 9 0) (.readRsp 5 0 false (List.replicate 8 0))).isSome = true ∧ (taken? d (hdr .readRsp 16 9 0) (.readRsp 5 0 true [])).isSome = true ∧ (conn.pulls ++ [pull (.data 0 0)]).find? (fun p => p.rid = 5 && p.sent) = some (pull (.data 0 0)) ∧
    ({ pull (.data 0 0) with seg := 4 } : Pull).got.contains 4 = false ∧ 4 % max 1 4 = 0 ∧ [(0 : Byte), 0, 0, 0].length = min 4 (8 - 4) ∧ 4 < (pull (.data 0 0)).held ∧ 4 < (pull (.data 0 0)).len ∧
    (pull (.data 0 0)).held ≤ 8 ∧ findOp (withOps d [{ op .pulling (desc 0 8 0) with conn := 9 }]) 9 0 = some { op .pulling (desc 0 8 0) with conn := 9 } ∧
    (serving d = true ∧ maySend conn = true ∧ d.rst.freeAfter.contains 9 = false) := by decide +kernel

/-- A path with one frame sent and not acknowledged, and a connection over it. -/
def sentOne : Path := { path with nextPsn := 1, unacked := [{ psn := 0, txc := 0, body := .disconnect 0 0, bytes := 40, early := false, got := false }] }
def connOne : Conn := { conn with paths := [sentOne] }

theorem witness_AcksReleaseFrames : (taken? (withConn connOne) (hdr .ack 24 9 0) (.ack 1 0 0 0 0)) = some connOne ∧ connOne.txc + 2 < 2 ^ 64 ∧ (withConn connOne).net.ops = [] ∧ connOne.endDue = [] ∧
    sentOne.up = true ∧ connOne.state ≠ .disabled ∧ 0 < reorderLimit (withConn connOne) (pathPort (withConn connOne) 9 connOne 0) ∧
    notBefore 1 0 = true ∧ notBefore sentOne.nextPsn 1 = true ∧ notBefore 0 0 = true ∧ notBefore sentOne.nextPsn 0 = true := by decide +kernel

theorem witness_ConnectionTimers :
    (0 < { path with ackOwed := 1 }.ackOwed ∧ onAir conn = true ∧ txcOk conn = true) ∧
    ((sentOne.unacked.filter fun u => !u.got) = sentOne.unacked ∧ connOne.txc + 1 < 2 ^ 64 ∧
      sentOne.expiries + 1 < regBits (withConn connOne) (tmrBase (pathPort (withConn connOne) 9 connOne 0) + 0x80) 11 7) ∧
    ({ path with up := false }.up = false ∧ linked (withConn conn) (pathPort (withConn conn) 16 conn 0) = true) ∧
    (serving up = true ∧ maySend conn = true ∧ upPaths { conn with paths := [{ path with up := false }] } = [] ∧ up.rst.freeAfter.contains 9 = false) ∧
    ({ conn with pulls := [pull (.data 0 0)] }.pulls.any fun p => p.rid = 5 && p.acked && decide (0 < p.held)) = true ∧ resetQueued connOne 0 = false ∧
    ((regBits (withConn conn) (tmrBase (pathPort (withConn conn) 9 conn 0) + 0x90) 17 8 : Nat) : Rat) / 100 ≤ lineRate (withConn conn) (pathPort (withConn conn) 9 conn 0) := by
  decide +kernel

theorem witness_FramesTakeTheNextPsn :
    let c := { conn with sendq := [(some 0, TxBody.disconnect 0 0)], pulls := [{ pull (.ring 0 1) with sent := false, held := 0, len := 458752 }] }
    nextFor c 0 = some 0 ∧ onAir c = true ∧ pathOpen (withConn c) 9 c 0 (frameBytes (.disconnect 0 0)) = true ∧
    (c.pulls.find? fun p => p.rid = 5 && p.len = 458752 && !p.sent).isSome = true ∧ maySend c = true ∧ pathOpen (withConn c) 9 c 0 56 = true ∧
    pullOut c + 458752 ≤ 1048576 ∧ pullUsed (withConn c) (pathPort (withConn c) 9 c 0) + 458752 ≤ pullPool (withConn c) (pathPort (withConn c) 9 c 0) := by
  decide +kernel

/-- A credential and a request that no rule refuses. -/
def cred : Cred := { fold := 0, mgmt := false, key := 0 }
def req0 : ConnectReq :=
  { credId := 1, curve := 1, npath := 8, sqLog := 16, cqLog := 6, clientPort := 0, clientUdp := 0, cflags := 0, level := 3, rsvA := 0, initSeq := 0,
    initPsn := 0, oldWord := 0, sqCkey := 0, sqAddr := 0, cqCkey := 0, rsvB := 0, cqAddr := 0, nonce := 0, pub := [], mac := 0 }
def reqHdr : Hdr := hdr .connectReq 176 0 0
/-- The request with the MAC that the admission key makes of it, and with another. -/
def req : ConnectReq := { req0 with mac := mac16 (keyBytes cred.key) (reqHdr.head ++ reqBytes req0) }
def forged : ConnectReq := { req with mac := req.mac + 1 }

theorem req_good : reqMacOk cred.key reqHdr.head req = true := by
  have h : reqBytes req = reqBytes req0 := by simp only [reqBytes, req]
  rw [reqMacOk, h]; exact decide_eq_true (Eq.refl req.mac)
theorem req_forged : reqMacOk cred.key reqHdr.head forged = false := by
  have h : reqBytes forged = reqBytes req0 := by simp only [reqBytes, forged, req]
  rw [reqMacOk, h]
  have h2 : forged.mac ≠ req.mac := by
    show req.mac + 1 ≠ req.mac
    generalize req.mac = m
    bv_omega
  exact decide_eq_false h2

/-- The unit with the credential, with no connection but those given. -/
def host (cs : List (Nat × Conn)) : Dev :=
  { up with folds := { up.folds with creds := [(1, cred)] }, net := { up.net with conns := cs } }

theorem picks : ∃ g n e, pickNumber (host []) = (g, some n, e) := by
  unfold pickNumber
  dsimp only
  generalize (drawChoice (drawChoice (host []) (leastGalleries (host [])).length).2 65536).1 = q
  generalize (leastGalleries (host [])).getD (drawChoice (host []) (leastGalleries (host [])).length).1 0 = g
  have h : ((((List.range 65536).map fun i => ((q + i) % 65536) * 16 + g).find? fun n => (getConn (host []) n).isNone)).isSome = true := by
    rw [List.find?_isSome]
    exact ⟨_, List.mem_map.2 ⟨0, List.mem_range.2 (by omega), rfl⟩, rfl⟩
  obtain ⟨n, h⟩ := Option.isSome_iff_exists.1 h
  exact ⟨g, n, _, by rw [h]⟩

/-- An ARMED connection whose record stands. -/
def armedConn : Conn := { conn with state := .armed, setupSt := some 1 }

theorem witness_ConnectionsAreSetUp : (FrameIn (host []) reqHdr ∧ headType reqHdr.head = some .connectReq ∧ reqHdr.conn = 0 ∧ reqHdr.path = 0 ∧
      netField reqHdr.head 2 2 = 176 ∧ getKey (host []).folds.creds 1 = some cred ∧ getKey (host []).folds.creds 2 = none ∧ (cred.mgmt ↔ reqHdr.port = 16)) ∧
    (repeated (host [(9, armedConn)]) req0 = some (9, armedConn) ∧ getConn (host [(9, armedConn)]) 9 = some armedConn ∧ NoneDue (host [(9, armedConn)]) ∧
      streaming (host []) = false) ∧
    (repeated (host []) req0 = none ∧
      setupRefusal (host []) true { req0 with npath := 9 } cred = some 1 ∧ setupRefusal (host []) true { req0 with npath := 0 } cred = some 1 ∧
      setupRefusal (host []) true req0 cred = none ∧ req0.cflags.getLsbD 1 = false ∧ storeSum (host []) + 2 ^ req0.sqLog ≤ 2 ^ 26 ∧
      ((host []).net.conns.filter fun x => x.2.state = .armed) = [] ∧ NoneDue (host []) ∧ canStamp (host []) = true ∧ (host []).twin.ctrlDue = []) ∧
    (let h := hdr .connectFin 24 9 0
     FrameIn (host [(9, armedConn)]) h ∧ headType h.head = some .connectFin ∧ h.path = 0 ∧ netField h.head 2 2 = 24 ∧ landingShut (host [(9, armedConn)]) 9 = false ∧
      serving (host [(9, armedConn)]) = true ∧ (armedConn.ident.mgmt ↔ h.port = 16)) ∧
    (armedConn.resuming = false ∧ { armedConn with resuming := true }.resuming = true ∧ regBits (host [(9, { conn with state := .error })]) 0x401008 31 16 ≠ 0) := by
  decide +kernel

theorem setup_same : repeated (host []) req = repeated (host []) req0 ∧ setupRefusal (host []) true req cred = setupRefusal (host []) true req0 cred := by
  refine ⟨?_, ?_⟩
  · unfold repeated; rfl
  · unfold setupRefusal; rfl

/-! ## Witnesses: operations -/

/-- The tabled unit with connection 9 and its operations. -/
def busy (c : Conn) (l : List Op) : Dev := withOps { tabled with net := { tabled.net with conns := tabled.net.conns ++ [(9, c)] } } l

/-- A translation that reaches the region at 4096. -/
def trans : Trans :=
  { fold := 0, handle := 0, owner := 0, base := 4096, len := 4096, rights := 3, immutable := false, cow := false, isLog := false, keySlot := 0,
    granted := false, gens := [(0, 1)] }

/-- An operation of connection 9, translated. -/
def op9 (stage : Stage) (x : Desc) : Op := { op stage x with conn := 9, tr1 := some trans, tr2 := some trans }

/-- An operation alone, about to take its stamp. -/
def atStamp (x : Desc) : Bool := decide (AtStamp (busy conn [op9 .stamp x]) (op9 .stamp x) conn)

theorem witness_AtomicsReturnTheOldValue : atStamp (desc 0x08 16 4080) = true ∧ atStamp { desc 0x08 8 0 with b48 := 1 } = true ∧
    atStamp (desc 0x09 8 0) = true ∧ atStamp (desc 0x0A 16 0) = true ∧ (desc 0x08 16 4080).op = .cas ∧ (desc 0x09 8 0).op = .fetchAdd ∧
    (desc 0x0A 16 0).op = .swap ∧ poisonIn (busy conn []) (spanLines (4096 + 4080) 16) = [] ∧
    readLE (busy conn []).mem (4096 + 4080) 16 = (desc 0x08 16 4080).b48.toNat % 256 ^ 16 ∧
    readLE (busy conn []).mem 4096 8 ≠ ({ desc 0x08 8 0 with b48 := 1 } : Desc).b48.toNat % 256 ^ 8 := by decide +kernel

theorem witness_WritesReachTheirSpan : atStamp (desc 0x02 4096 0) = true ∧ atStamp (desc 0x03 4096 0) = true ∧ atStamp (desc 0x04 64 0) = true ∧
    atStamp (desc 0x11 64 0) = true ∧ (desc 0x02 4096 0).op = .write ∧ (desc 0x03 4096 0).op = .writeZero ∧ (desc 0x04 64 0).op = .copy ∧
    (desc 0x11 64 0).op = .logAppend ∧ MemOk (st (busy conn [])) ∧ firstIn 4096 4096 (poisonIn (busy conn []) (partLines 4096 4096)) = none ∧
    poisonIn (busy conn []) (spanLines 4096 4096) = [] := by decide +kernel

/-- The handle and the places that a SNAPSHOT to handle 7 takes. -/
theorem witness_SnapshotsEqualTheirSource : atStamp { desc 0x18 0 0 with b32 := 7 * 2 ^ 32 } = true ∧ (desc 0x18 0 0).op = .snapshot ∧ (desc 0x19 0 0).op = .clone ∧
    newHandle tabled 0 7 = some (7, 4232052800 + 448) ∧ (placeRta tabled 64).isSome = true ∧ (placeRegion tabled 1 4096).isSome = true ∧
    sourcePlaces tabled 0 (desc 0x18 0 0) trans = [4232052800] ∧
    (∀ k, k < 64 → ∀ i, i < 4096 → 4232052800 + 448 + k ≠ 4096 + i ∧ 4232052800 + k ≠ 4096 + i) := by
  refine ⟨by decide +kernel, by decide +kernel, by decide +kernel, by decide +kernel, by decide +kernel, by decide +kernel, by decide +kernel, ?_⟩
  intro k _ i _; omega

/-- A connection that has counted five completions. -/
def counted : Conn := { conn with count := 5 }

theorem witness_ReadyOperationsEnd :
    (∀ x ∈ [desc 0x01 256 0, desc 0x01 1 4095, desc 0x22 0 0, desc 0x21 0 0, desc 0x10 0 0, desc 0x20 0 0],
      InStage (busy conn [op9 .ready x]) (op9 .ready x) conn .ready ∧ Still (busy conn [op9 .ready x]) ∧ stampEpoch (nextStamp (busy conn []).twin) < lastEpoch) ∧
    ((desc 0x01 1 0).op = .read ∧ (desc 0x22 0 0).op = .nop ∧ (desc 0x21 0 0).op = .health ∧ (desc 0x10 0 0).op = .persist ∧ (desc 0x20 0 0).op = .wait) ∧
    (conn.ident.twinRead = false ∧ (∀ l ∈ spanLines 4096 256, mirrorHeld tabled l = false) ∧ MaySendEntry (busy conn []) (op9 .ready (desc 1 1 0)) conn) ∧
    (getConn (busy conn []) (({ desc 0x20 0 0 with b32 := 7 * 2 ^ 32 } : Desc).handle2 &&& 0xFFFFF).toNat).isSome = true ∧ ConnState.active ≠ .idle ∧
    (earlierOps (busy conn [op9 .ready (desc 0x10 0 0)]) (op9 .ready (desc 0x10 0 0)) = [] ∧ (∀ p ∈ conn.changed, heldAt tabled .loc (some p.2) [p.1] = true)) ∧
    (InStage (busy counted [op9 .waiting (desc 0x20 1 0)]) (op9 .waiting (desc 0x20 1 0)) counted .waiting ∧ getConn (busy counted []) 9 = some counted) := by
  decide +kernel

theorem witness_OperationsPassTheirStages :
    (serving tabled = true ∧ tabled.upd.paused = false ∧ tabled.rst.galReset.contains 9 = false ∧ tabled.dur.save = .idle ∧ tabled.rst.warm = .none ∧
      tabled.twin.phase = .none ∧ (fetchOrder (busy { conn with sqTail := 1 } []) 9).map (fun x => x.1) = [9]) ∧
    (InStage (busy { conn with x := 1, store := [(0, doneEntry (desc 0x22 0 0) 0 0 0)] } [op9 .fetched (desc 0x22 0 0)]) (op9 .fetched (desc 0x22 0 0))
        { conn with x := 1, store := [(0, doneEntry (desc 0x22 0 0) 0 0 0)] } .fetched ∧
      isExecuted { conn with x := 1 } 0 = true ∧ isExecuted conn 0 = false ∧ (desc 0x22 0 0).inGroup = false ∧ layoutOf (desc 0x22 0 0) = none ∧
      (match (translateOp (busy conn [op9 .ordering (desc 0x22 0 0)]) (op9 .ordering (desc 0x22 0 0)) 0 []).2 with | .ok _ => true | .error _ => false) = true) ∧
    (InStage (busy conn [op9 .ordering (desc 0x02 64 0)]) (op9 .ordering (desc 0x02 64 0)) conn .ordering ∧ (desc 0x02 64 0).fence = false ∧
      orderOk (busy conn [op9 .ordering (desc 0x02 64 0)]) (op9 .ordering (desc 0x02 64 0)) = true ∧ ({ desc 0x02 64 0 with flags := 2 } : Desc).fence = true ∧
      fenceOk (busy conn [op9 .ordering (desc 0x02 64 0)]) (op9 .ordering (desc 0x02 64 0)) = true) ∧
    (InStage (busy conn [{ op9 .pulling (desc 0x02 64 0) with dataGot := 64 }]) { op9 .pulling (desc 0x02 64 0) with dataGot := 64 } conn .pulling) ∧
    (InStage (busy conn [op9 .filling (desc 0x01 64 0)]) (op9 .filling (desc 0x01 64 0)) conn .filling ∧ mutating (desc 0x01 64 0) = false ∧
      ∀ l ∈ filledLines (busy conn [op9 .filling (desc 0x01 64 0)]) (op9 .filling (desc 0x01 64 0)),
        leafGone (busy conn [op9 .filling (desc 0x01 64 0)]) (l / 64) = false) ∧
    (InStage (busy conn [op9 .budget (desc 0x02 64 0)]) (op9 .budget (desc 0x02 64 0)) conn .budget ∧ Quiet (busy conn []) ∧
      admits (busy conn [op9 .budget (desc 0x02 64 0)]) (budgetLines (busy conn []) (op9 .budget (desc 0x02 64 0))).length = true) ∧
    ((∃ g ∈ ({ (busy conn []).net with groups := [{ conn := 9, first := 0, sum := 0, gens := [], limit := none }] } : Net).groups, g.conn = 9 ∧ g.first = 0) ∧ conn.f = conn.sqTail) := by
  decide +kernel

/-- A running WRITE_ZERO of 128 KiB after its first chunk, and a leaf that two regions share. -/
def zeroing : Op := { op9 .running (desc 0x03 131072 0) with chunk := 1, stamp := some 1 }
def shared : Dev :=
  (busy conn [{ op9 .stamp (desc 0x02 64 0) with lines := [64], admitted := some [64] }]).modFolds fun f =>
    { f with families := [{ len := 4096, members := [{ base := 4096, depth := 0, dflt := 0, own := [] }, { base := 8192, depth := 1, dflt := 0, own := [] }] }] }

theorem witness_OperationsTakeStampsAndComplete : (atStamp (desc 0x02 64 0) = true ∧ Quiet (busy conn [])) ∧
    (let r := doneEntry (desc 0x02 64 0) 1 64 0
      let o := { op9 .holding (desc 0x02 64 0) with done := some r, stamp := some 1 }
      InStage (busy conn [o]) o conn .holding ∧ levelReached (busy conn [o]) conn o r = true ∧ r.status ≠ .doneDuplicate ∧ conn.ident.level ≠ .media) ∧
    (cowLeaves shared [64]).contains 1 = true ∧
    (InStage (busy conn [zeroing]) zeroing conn .running ∧
      nextCow (busy conn [zeroing]) 9 = none ∧ (onDatapath (busy conn [zeroing]) 9)[(getKey (busy conn [zeroing]).net.dpTurns 9).getD 0 % max 1 (onDatapath (busy conn [zeroing]) 9).length]? = some zeroing) := by
  decide +kernel

theorem witness_ConnectionsAreTakenDown :
    (Open up mgmt 0x401000 ∧ up.folds.connBusy = false ∧ serving up = true ∧ up.twin.refusing = false ∧ getConn (withConn conn) 9 = some conn ∧
      ctrlReady (withConn conn) (.connChange 9 (.quiesce false 2 .abortedDisabled)) = true ∧ ctrlReady (withConn conn) (.connChange 9 (.quiesce true 2 .abortedDisabled)) = true ∧
      ctrlReady (withConn { conn with state := .disabled }) (.connChange 9 .free) = true) ∧
    (quiesced (withConn { conn with state := .quiescing }) 9 { conn with state := .quiescing } = true ∧ up.rst.freeAfter.contains 9 = false) ∧
    (Open up mgmt 0x402000 ∧ mgmt ≠ .i3c ∧ streamRefused up = none ∧ ctrlReady up (.enrol 65535 (newCred up true 65535)) = true ∧
      ctrlReady up (.credRevoke 65535) = true) := by decide +kernel

/-! ## Witnesses: the twin pair -/

/-- The standby with the tabled space and connection 9. -/
def standby9 : Dev := { standby with folds := tabled.folds, mem := tabled.mem, net := { standby.net with conns := standby.net.conns ++ [(9, { conn with ident := { ident with twinRead := true } })] } }

/-- A member of a record: a write of 64 bytes to handle 0, which generation 1 named. -/
def member : Member := { desc := desc 0x02 64 0, tgen := 1, tgen2 := 0, data := List.replicate 64 1 }

theorem witness_StandbyAppliesTheStream :
    Follows standby9 (.op 1 9 1 member) ∧ 1 = nextStamp standby9.twin ∧ member.desc.op = .write ∧
      ((opOf standby9 9 0 1 member).tr1.map fun t => t.base) = some 4096 ∧ standby9.twin.repairs = [] ∧ standby9.twin.ownBad = [] ∧
      firstIn 4096 64 (poisonIn standby9 (partLines 4096 64)) = none ∧
    Follows standby9 (.group 1 9 1 [member]) ∧
      (match runMembers 0 1 0 (applied standby9 1) (([member].map fun m => opOf standby9 9 0 1 m).map fun o => (o.desc, o.tr1, o.tr2, o.data)) [] with
        | .ok _ => true | .error _ => false) = true ∧
    Follows standby9 (.ctrl 1 (.enrol 1 { fold := 0, mgmt := false, key := 0 })) ∧
    Follows standby9 (.ended 1 9 (doneEntry (desc 0x02 64 0) 1 64 0)) ∧ (doneEntry (desc 0x02 64 0) 1 64 0).status ≠ .doneDuplicate ∧ isExecuted conn 0 = false ∧
    Follows standby9 (.index 9 1 0 0 0) ∧ Follows standby9 (.rdata 9 0 0 0 0 []) ∧ maySend conn = true ∧
    Follows { standby9 with twin := { standby9.twin with levelDue := [(1, 9, doneEntry (desc 0x02 64 0) 1 64 0)] } } (.level [1]) ∧ [1].contains 1 = true ∧
    Follows standby9 (.leaf 4095 0 [] [] []) ∧ 4095 < ctlBase standby9.folds := by decide +kernel

/-- The ACTIVE unit with what the link's records meet. -/
def relay : Relay := { conn := 9, seq := 0, addr := 0, write := false }
def relaying : Dev := withOps { active with net := { active.net with conns := [(9, conn)] }, twin := { active.twin with relays := [relay] } } [op9 .waiting (desc 0x30 4 0)]

theorem witness_UnitsTalkOverTheLink : Linked standby .standby ∧ Linked { active with twin := { active.twin with st := .unpaired } } .unpaired ∧
    ((accessHere relayed 0x60 true 1 active).1.twin.linkUp = true ∧ LinkFree (accessHere relayed 0x60 true 1 active).1) ∧
    (relaying.twin.relays = [relay] ∧ findOp relaying 9 0 = some (op9 .waiting (desc 0x30 4 0)) ∧ getConn relaying 9 = some conn ∧ Status.done ≠ .doneDuplicate) ∧
    (Linked active .active ∧ active.net.ops = [] ∧ active.twin.touched = [] ∧ LinkFree active ∧
      (ctlBase active.folds - 1) / 4096 * 4096 < ctlBase active.folds) ∧
    (let u := { active with twin := { active.twin with st := .unpaired, resyncing := true, source := true } };
      u.twin.source = true ∧ u.twin.u = [] ∧ u.twin.uFull = false ∧ u.twin.unproved = []) ∧
    (∃ r ∈ ({ standby.twin with repairs := [(1, 0)] } : Twin).repairs, r.1 = 4096 / 4096) ∧
    recFits { standby9 with dur := { standby9.dur with budget := 0 } } (.op 1 9 1 member) = false ∧
    (let u := { active with twin := { active.twin with resyncing := true, u := [5] } };
      serving u = true ∧ u.twin.linkUp = true ∧ u.twin.uFull = false ∧ LinkFree u ∧ 5 * 4096 < ctlBase u.folds) := by decide +kernel

/-- A good header and HELLOs with the MAC that the pair's secret makes of them. -/
def good : TwlHdr := { lsn := 0, lack := 0, peer := 0, tagOk := true, hdrOk := true, ftypeOk := true }
def hello0 : Hello :=
  { hdrOk := true, mac := 0, rsv := 0, pairId := 1, unit := true, serving := false, timeValid := false, windowOpen := false, streamLevel := 0, reseed := 0,
    node := 1, fwVer := 0, cfgGen := 0, lastStamp := 0, time := 0, nonce := 1, digest := 0 }
def hello : Hello := { hello0 with mac := helloMac 0 hello0 }

theorem hello_good : hello.mac = helloMac pairId.secret hello ∧ hello.pairId = pairId.pairId ∧ hello.rsv = 0 ∧ hello.hdrOk = true := by
  have h : helloBytes hello = helloBytes hello0 := by simp only [helloBytes, hello]; rfl
  refine ⟨?_, rfl, rfl, rfl⟩
  rw [helloMac, h]; exact Eq.refl hello.mac
theorem hello_bad : ({ hello with mac := hello.mac + 1 } : Hello).mac ≠ helloMac pairId.secret { hello with mac := hello.mac + 1 } := by
  have h : helloBytes { hello with mac := hello.mac + 1 } = helloBytes hello0 := by simp only [helloBytes, hello]; rfl
  rw [helloMac, h]; show hello.mac + 1 ≠ hello.mac
  generalize hello.mac = m
  bv_omega

theorem witness_LinkFramesAreTaken : (standby.twin.ident.isSome = true ∧ standby.twin.linkUp = true ∧ FrameOk standby good ∧ serving standby = false ∧ standby.twin.waitq = [] ∧
      ({ good with lsn := 1 } : TwlHdr).lsn ≠ standby.twin.lsnRx) ∧
    (Linked active .active ∧ FrameOk active good ∧ good.peer ≤ active.twin.peerStamp ∧ active.twin.waitq = [] ∧ active.twin.part = none ∧ good.lsn = active.twin.lsnRx) ∧
    (active.twin.ident = some pairId ∧ ({ hello with pairId := 2 } : Hello).pairId ≠ pairId.pairId ∧
      (let j := { active with twin := { active.twin with st := .joining } }; j.upd.rejoin = false ∧ j.twin.readySent = false ∧ j.twin.waitq = [] ∧ j.twin.peer = none)) ∧
    (linkReady active = true ∧ { active with twin := { active.twin with txq := [(0, [])] } }.twin.txq = [(0, [])] ∧ active.twin.relays = []) ∧
    (let u := { active with twin := { active.twin with linkUp := false }, sec := { active.sec with secrets := true } };
      u.twin.linkUp = false ∧ u.twin.ident = some pairId ∧ u.twin.txq = [] ∧ u.twin.waitq = [] ∧ Machine.paired u = true) := by decide +kernel

/-- A peer whose nonce a HELLO repeats, and one whose nonce it changes. -/
theorem hello_nonces : hello.nonce = 1 ∧ ({ hello with nonce := 2 } : Hello).nonce ≠ 1 := ⟨rfl, by decide⟩

/-- A unit whose last request to the witness awaits its answer, and the answer. -/
def asked (d : Dev) (r : WitReq) : Dev := { d with twin := { d.twin with reqs := [(r, 1, 0, 2)] } }
def ans (reason : Nat) : WitAns := { ok := true, macOk := true, unit := false, members := 3, pairId := 1, rseed := 0, wseq := 1, leaseUs := 4294967295, holder := 0, reason := reason, epoch := 1 }

/-- A fenced unit that is fit to serve. -/
def fit : Dev :=
  { down with
    env := { BootEnv.none with dimmOk := true }, ftl := { Ftl.reset with popOk := true }, hall := { Hall.reset with fuseOk := true },
    sec := { Sec.reset with wk := some 0, sk := some 0, dk := some 0, entropyOk := true, secrets := true } }

def claimed : Dev := asked { standby with twin := { standby.twin with claiming := some .handover } } .claim
def admitting : Dev := asked { active with twin := { active.twin with st := .unpaired, resyncing := true } } .admitTwin

/-- The answer answers the request that waits. -/
theorem answers {d : Dev} {r : WitReq} (x : Nat) (h : d.twin.ident = some pairId) (h2 : d.twin.reqs = [(r, 1, 0, 2)]) : Answers d (ans x) r 0 2 :=
  ⟨rfl, rfl, ⟨pairId, h, rfl, rfl⟩, by rw [h2]; rfl⟩

theorem witness_TheLeaseIsKept : (active.twin.ident = some pairId ∧ serving active = true ∧ active.twin.override = false) ∧
    ({ standby.twin with linkUp := false }.st = .standby ∧ standby.twin.claiming = none ∧ standby.twin.ident = some pairId) ∧
    (Answers (asked active .renew) (ans 0) .renew 0 2 ∧ Quiet (asked active .renew)) ∧
    (Answers claimed (ans 0) .claim 0 2 ∧ serving claimed = false ∧ claimed.twin.claiming = some .handover) ∧
    (Answers (asked standby .claim) (ans 2) .claim 0 2 ∧ (ans 2).reason = 2 ∧ (asked standby .claim).twin.st = .standby) ∧
    (Answers admitting (ans 0) .admitTwin 0 2 ∧ admitting.twin.phase ≠ .yieldAdmit) ∧ (asked active .renew).twin.reqs ≠ [] :=
  ⟨by decide +kernel, by decide +kernel, ⟨answers 0 rfl rfl, by decide +kernel⟩, ⟨answers 0 rfl rfl, by decide +kernel⟩, ⟨answers 2 rfl rfl, by decide +kernel⟩,
    ⟨answers 0 rfl rfl, by decide +kernel⟩, by decide +kernel⟩

theorem witness_TheLeaseIsKept_timers : Idle active ∧
    { active with twin := { active.twin with linkUp := false } }.twin.st = .active ∧
    fitToServe { fit with twin := { fit.twin with ident := some pairId } } = true ∧
    ({ fit with twin := { fit.twin with ident := some pairId, hbTwl := 3, hbMgt := 3 } }.sec.secrets = true ∧ Machine.paired fit = false) ∧
    (let d := { active with twin := { active.twin with phase := .swapDrain } }; d.twin.lastStamp ≤ d.twin.peerStamp ∧ d.twin.finWait = []) ∧
    { standby with twin := { standby.twin with phase := .swapHandover } }.twin.st = .standby := by decide +kernel

theorem witness_TwinCommandsRun : (TwnReady active mgmt ∧ active.twin.phase = .none) ∧
    (let d := { fit with twin := { fit.twin with ident := some pairId } }; TwnReady d mgmt ∧ fitToServe d = true) ∧
    (let d := { up with twin := { up.twin with override := true } }; TwnReady d mgmt ∧ Idle d) ∧
    (TwnReady up .i3c ∧ serving up = true ∧ up.twin.refusing = false ∧ ctrlReady up (.window true (regBits up 0x90024 31 24)) = true ∧
      ctrlReady up (.window false (regBits up 0x90024 31 24)) = true) ∧
    (let d := { fit with regs := [(0x80040, 1), (0x80050, 1)] };
      TwnReady d mgmt ∧ (stagedIdent d).pairId ≠ 0 ∧ (stagedIdent d).node ≠ (stagedIdent d).twin ∧ d.sec.wk.isSome = true ∧ d.ldg.cfg.full = false) ∧
    (let d := { up with twin := { up.twin with phase := .reseedDrain } }; d.twin.st = .unpaired ∧ Quiet d) := by decide +kernel

/-! ## Witnesses: hold-up energy, the save, flash -/

/-- A unit whose hold-up bank is set up: 1 F, full at 20 V, empty at 10 V. -/
def bank : Dev :=
  { up with regs := [(0x30070, 1000), (0x30074, 0x00C80064)], dur := { up.dur with holdV := 20000 } }
def testing : Dev := { bank with dur := { bank.dur with test := .running, testV := 20000, holdV := 17000, testQ := -3000000 } }

theorem witness_EnergyIsMeasured : (regBits up 0x3006C 15 0 ≠ 0 ∧ (0 : Int) + ((0x7FFF : BitVec 16).toInt * 1000000000).tdiv (32768 * (regBits up 0x3006C 15 0 : Int)) < 2 ^ 47 ∧
      -2 ^ 47 ≤ (0 : Int) + ((0x8000 : BitVec 16).toInt * 1000000000).tdiv (32768 * (regBits up 0x3006C 15 0 : Int))) ∧
    (bank.dur.cntValid = false ∧ bankSet bank = true ∧ bank.dur.test = .idle ∧ vFull bank * 99 ≤ bank.dur.holdV * 100 ∧
      bank.dur.holdV * 100 ≤ vFull bank * 101 ∧ bank.pwr.holdI.natAbs < 500 ∧ bank.dur.countSat = false) ∧
    (let d := { bank with dur := { bank.dur with cntValid := true, acc := 20000000000, samples := [20000] } };
      let a := eCount d; let b := eVolt d;
      d.dur.cntValid = true ∧ (if a ≤ b then b - a else a - b) * 100 ≤ ((regBits d 0x3020C 13 8 : Nat) : Rat) * max a b) ∧
    (let d := { bank with dur := { bank.dur with cntValid := true, acc := 0, samples := [20000], mismatch := 1 } };
      let a := eCount d; let b := eVolt d;
      ¬(if a ≤ b then b - a else a - b) * 100 ≤ ((regBits d 0x3020C 13 8 : Nat) : Rat) * max a b ∧ d.dur.mismatch < 2) ∧
    (Open up .i3c 0x3021C ∧ up.dur.test = .idle) ∧
    (let d := { bank with dur := { bank.dur with test := .scheduled } };
      d.dur.mainOk = true ∧ d.dur.save = .idle ∧ vFull d * 98 ≤ d.dur.holdV * 100 ∧ d.dur.dirty.length * 64 ≤ budgetFor d (eTest d) ∧ Quiet d) ∧
    (testing.dur.test = .running ∧ testing.dur.holdV * 100 ≤ vFull testing * 85 ∧ testing.dur.holdV < testing.dur.testV) ∧
    (let d := { up with dur := { up.dur with budget := 63, dirty := [0] } }; d.dur.budget < d.dur.dirty.length * 64) := by decide +kernel

/-- The unit in a save: its stamped work runs out, and its image is programmed into slot 1. -/
def saving : Dev := { down with pwr := { down.pwr with st := .saving, cause := .mainOk }, dur := { down.dur with save := .draining } }
def image : Image :=
  { seq := 1, unit := false, stamp := 0, peer := 0, rseed := 0, lines := [], older := [], pages := [], map := [], starts := [], wseq := 0, divFull := false,
    diverge := [], poison := [], control := [], trailer := false }
def programming : Dev :=
  { saving with dur := { saving.dur with save := .image, saveSlot := some 1, slots := [ImgSlot.reset, { ImgSlot.reset with st := .saving, image := some image }] } }

theorem witness_PowerLossSaves : (down.pwr.pwron = true ∧ down.pwr.st = .on ∧ down.pwr.served = true ∧ down.sec.zeroing = false ∧ down.twin.st = .fenced) ∧
    (serving up = true ∧ Idle up) ∧ (saving.pwr.pwron = true ∧ saving.pwr.cause = .mainOk ∧ saving.pwr.st = .saving) ∧
    (saving.dur.save = .draining ∧ saving.ftl.progs = [] ∧ saving.net.ops = [] ∧ noImage saving = false ∧ freeSlot saving = some 0 ∧
      saving.rst.warm = .none ∧ saving.dur.slots[0]? = some ImgSlot.reset) ∧
    (let d := { active with dur := { active.dur with linkHeld := true } }; d.dur.linkHeld = true ∧ d.twin.linkUp = true ∧ d.twin.relays = []) ∧
    (imaging programming = true ∧ programming.dur.saveSlot = some 1 ∧ (programming.dur.slots[1]?).isSome = true) ∧
    (let d := { programming with regs := bank.regs, dur := { programming.dur with holdV := 10500 } };
      d.pwr.st = .saving ∧ d.dur.save = .image ∧ d.dur.holdV * 100 ≤ vMin d * 105) ∧
    (let d := { programming with rst := { programming.rst with warm := .leaving } }; d.dur.save = .image ∧ d.rst.warm = .leaving) ∧
    (let d := { up with dur := { up.dur with slots := [ImgSlot.reset, { ImgSlot.reset with st := .live, drained := true }] } };
      d.dur.slots[1]? = some { ImgSlot.reset with st := .live, drained := true } ∧ Quiet d) ∧
    (let d := { fit with dur := { fit.dur with lost := true }, net := Net.reset };
      Open d .i3c 0x3021C ∧ d.dur.lost = true ∧ d.twin.ident = none ∧ d.twin.st = .fenced ∧ fitToServe (clearLoss d) = true ∧ d.net.conns = []) := by
  decide +kernel

def nandPart : Part := { planes := 1, blocks := 16, pages := 4, wlPages := 1, suspend := true, progMaxNs := 1000, rated := 1000 }

/-- A small flash of one die with 16 blocks, superblock 4 open at row 0, and a dirty line. -/
def nand : Dev :=
  { up with
    ftl := { Ftl.reset with groups := 1, targets := 1, popOk := true, opens := [(0, 4, 0)], part := nandPart },
    dur := { up.dur with dirty := [64] }, mem := writeBytes up.mem 4096 [1] }

/-- A codeword of a leaf at a place, and a program that carries it. -/
def cw (loc : Nat) : Codeword :=
  { loc := loc, kind := .leaf, grp := false, reloc := false, addr := 4096, keySlot := 0, erases := 0, wseq := 0, stamp := 0, ckptSeq := 0, oldLoc := none,
    poison := 0, link := none, data := [], bad := false }
def prog : Prog := { pos := 0, cws := [cw (4 * 2 ^ 19)], lines := [64], ctl := [] }

theorem witness_FlashStripesAreKept : (posUsed nand.ftl 0 = true ∧ nand.folds.formatted = true ∧ flashHeld nand = false ∧ mediaGroup nand = none ∧
      (∀ l ∈ drainOrder nand, isZeroLeaf nand l = false) ∧ drainOrder nand ≠ [] ∧ nand.ftl.opens.find? (fun o => o.1 = 0) = some (0, 4, 0) ∧ Quiet nand ∧ nand.net.ops = []) ∧
    (let d := { nand with ftl := { nand.ftl with progs := [prog] } };
      d.ftl.progs.find? (fun p => p.pos = 0) = some prog ∧ prog.cws = [cw (4 * 2 ^ 19)] ∧ (cw 0).kind = .leaf ∧ (cw 0).grp = false ∧ (cw 0).reloc = false ∧
        (∃ p ∈ d.ftl.progs, ∃ x ∈ p.cws, posOf (sbOfLoc x.loc) = 0 / 8 * 16 + 0)) ∧
    ({ nand.ftl with erasing := [5] } : Ftl).erasing.contains 5 = true ∧
    ((∃ c ∈ ({ nand.ftl with cws := [cw 7] } : Ftl).cws, c.loc = 7) ∧ 9 ≤ 9 ∧ dieGone nand.ftl 7 = false) ∧
    (nand.ftl.part.suspend = true ∧ nand.dur.save = .idle ∧ (∀ x ∈ nand.ftl.suspends, ¬(x.1 = 7 ∧ x.2.1 = 0)) ∧ ∃ b ∈ [5], posOf b = 7 / 8 * 16 + 0) ∧
    nand.ftl.offline.contains (127, 15) = false ∧
    (let f := { nand.ftl with closed := [4, 5, 6, 7, 8, 9, 10, 11, 12, 13, 14], opens := [] };
      posUsed f 0 = true ∧ (freeSbs f 0).length < 4 ∧ victimOf f 0 = some 4 ∧ f.closed.contains 4 = true ∧ sbHeld f 4 = false ∧ validIn f 4 = [] ∧ f.progs = []) := by
  decide +kernel

theorem witness_CheckpointsAndPatrols : (nand.ftl.ckpt = none ∧ nand.folds.formatted = true ∧ flashHeld nand = false ∧ turnPos nand.ftl = some 0 ∧
      (placeCws ((ckptCws nand.ftl nand.folds.s).length + 1) nand.ftl 0 (ckptCws nand.ftl nand.folds.s) [] []).isSome = true) ∧
    (let k : Ckpt := { seq := 1, cut := 0, map := [], starts := [], erases := [], retired := [], head := 0, emptied := [1] };
      ({ nand.ftl with ckpt := some k } : Ftl).ckpt = some k ∧ nand.ftl.progs = []) ∧
    (let f := { nand.ftl with map := [(1, 4 * 2 ^ 19)], cws := [cw (4 * 2 ^ 19)] };
      patrolNext f = some (cw (4 * 2 ^ 19), false) ∧ cw (4 * 2 ^ 19) ∈ f.cws ∧ dieGone f (cw (4 * 2 ^ 19)).loc = false ∧ 0 * 100 ≤ regBits nand 0x600000 17 11 * 120 ∧ (nextValid f f.patrolAt).isSome = true) ∧
    (nextValid nand.ftl nand.ftl.patrolAt).isNone = true := by decide +kernel

/-! ## Witnesses: DRAM and the hall -/

/-- The unit with channel 23 ready and one request in the read queue of subchannel 1. -/
def dreq : DramReq := { tag := 0, port := 7, write := false, line := 0, rank := 3, bank := 0, row := 0, arrive := 0, ord := 0, urg := 0, data := 0 }
def withSub (u : SubCh) : Dev :=
  { up with dram := { Dram.reset with trained := [48], rateB := 48, chans := List.replicate 23 Chan.reset ++ [{ Chan.reset with st := .ready, subs := [SubCh.reset, u] }] } }
def chanOf (u : SubCh) : Chan := { Chan.reset with st := .ready, subs := [SubCh.reset, u] }
def allReady : Dev := { up with dram := { Dram.reset with trained := [48], rateB := 48, chans := List.replicate 24 { Chan.reset with st := .ready } } }

theorem witness_DramChannelsServe : SubAt (withSub SubCh.reset) 23 1 (chanOf SubCh.reset) SubCh.reset ∧ (chanOf SubCh.reset).st = .ready ∧
    SubCh.reset.reads.length < 64 ∧ SubCh.reset.alert = false ∧
    (let u := { SubCh.reset with burst := [15] }; SubAt (withSub u) 23 1 (chanOf u) u ∧ 15 < u.owed.length) ∧
    (let u := { SubCh.reset with reads := [dreq], rows := [(3, 0, 0)] }
     SubAt (withSub u) 23 1 (chanOf u) u ∧ rowOpen u dreq = true ∧ 0 < regBits (withSub u) (drc 23 0) 21 16 ∧ ∀ q ∈ u.flight, q.ord ≠ dreq.ord) ∧
    (let u := { SubCh.reset with flight := [dreq] }; u.flight.find? (fun q => q.tag = 0) = some dreq ∧ dataWaits u dreq = false ∧ ∀ p ∈ (chanOf u).injected, p.1 ≠ dreq.line) ∧
    (let u := { SubCh.reset with flight := [dreq], retry := [RetryCmd.mk (some dreq) 0 0], replays := 1 }
     u.flight.find? (fun q => q.tag = 0) = some dreq ∧ dataWaits u dreq = true) ∧
    (let u := { SubCh.reset with alert := true, replays := 4 }; SubAt (withSub u) 23 1 (chanOf u) u ∧ u.replays < 5) ∧
    (Open (withSub SubCh.reset) mgmt (drc 23 0x28) ∧ (chanOf SubCh.reset).st ≠ .fault) ∧
    (Open allReady mgmt (drc 0 0x80) ∧ rateFits allReady.dram 64 = true ∧ allReady.dram.busy = false ∧ (∀ y ∈ allReady.dram.chans, y.st = .ready) ∧
      allReady.dram.trained.contains allReady.dram.rateB = true) := by decide +kernel

/-- The unit with the hall on, every slice as given and pen 15 as given. The slice that is a line's home is a hash, so that every
slice stands for it. -/
def withHall (u : Slice) (p : Pen) : Dev :=
  { up with regs := [(0x100000, 0x80000000)], hall := { Hall.reset with slices := List.replicate 16 u, pens := List.replicate 15 { lines := [], evict := [] } ++ [p] } }
def noSlice : Slice := { lines := [], victim := [], txns := [], wait := [], discard := [], msgs := [] }
def noPen : Pen := { lines := [], evict := [] }

theorem slice_is (u : Slice) (p : Pen) (line : Nat) : SliceIs (withHall u p) line u := by
  have h : sliceOf line < (List.replicate 16 u).length := by rw [List.length_replicate]; exact Nat.mod_lt _ (by decide)
  exact List.getElem?_eq_some_iff.2 ⟨h, List.getElem_replicate h⟩

/-- A line of the control area, held by no pen, and held modified by pen 15. -/
def line0 : SliceLine := { line := 134217727, data := 0, check := 0, poison := false, modified := false, presence := 0, owner := none }
def line15 : SliceLine := { line0 with presence := 0x8000, owner := some 15 }
def penLine : PenLine := { line := 134217727, st := .owned, data := 1, check := 0 }

/-- Pen 15's eviction of its line is the next for the line's home. -/
theorem next_evict : nextEvict { noSlice with lines := [line15] } { noPen with evict := [penLine] } (sliceOf 134217727) 15 = some penLine := by
  have h : ownedBy { noSlice with lines := [line15] } penLine.line 15 = true := by decide +kernel
  have h2 : sliceOf penLine.line = sliceOf 134217727 := rfl
  simp [nextEvict, h, h2]

theorem witness_TheHallKeepsCopies : (withHall noSlice noPen).hall.pens[15]? = some noPen ∧
    (let u := { noSlice with lines := [line0] }; halEn (withHall u noPen) = true ∧ penMayHold (withHall u noPen) 134217727 = true ∧
      (withHall u noPen).hall.run ≠ some .flushDisable ∧ findLine u 134217727 = some line0 ∧ line0.owner = none ∧ (∀ q ∈ holders line0, q = 15)) ∧
    (let u := { noSlice with lines := [{ line0 with presence := 0x8000 }], msgs := [.data 134217727 15 true] }
     nextMsg u 15 = some (.data 134217727 15 true) ∧ findLine u 134217727 = some { line0 with presence := 0x8000 } ∧ (0x8000 : BitVec 16).getLsbD 15 = true ∧
      (penRoom { noPen with lines := noPen.lines.filter fun y => y.line ≠ 134217727 } 134217727).isSome = true) ∧
    (let t : Txn := { line := 134217727, pen := 0, owned := true, snoop := [15], seen := [15], expectEvict := [] }
     let u := { noSlice with lines := [line15], txns := [t] }
     u.txns = [t] ∧ t.snoop = [15] ∧ t.seen = [15] ∧ t.expectEvict = [] ∧ t.pen < 16 ∧ u.wait = [] ∧ findLine u 134217727 = some line15 ∧
      nextSnoop { u with txns := [{ t with seen := [] }] } 15 = some 134217727) ∧
    (let p := { noPen with evict := [penLine] }; p.evict = [penLine] ∧
      nextMsg { noSlice with msgs := [.evictAck 134217727 15] } 15 = some (.evictAck 134217727 15)) ∧
    (let u := { noSlice with victim := [{ entry := line0, wb := true }] }; u.victim.find? (fun v => v.entry.line = 134217727 && v.wb) = some { entry := line0, wb := true }) ∧
    (Open up mgmt 0x100004 ∧ up.hall.run = none ∧ up.dur.save = .idle ∧ halEn up = false) ∧
    (Open up mgmt 0x100000 ∧ { up.hall with leftover := false }.leftover = false) ∧
    (hasArray .pen 15 = true ∧ 3 < (arraySize .pen).2) ∧ ((arrayOf { up.hall with arrays := [{ kind := .pen, inst := 15, ce := 0, ue := 0, bucket := 0, merge := [(3, 1, 1)], words := [], bad := [], scrub := 0 }] } .pen 15).merge.find?
      (fun e => e.1 = 3) = some (3, 1, 1)) ∧ { up.hall with stopped := [191] }.stopped.contains 191 = true := by
  refine ⟨?_, ?_, ?_, ?_, ?_, ?_, ?_, ?_, ?_, ?_⟩ <;> decide +kernel

/-! ## Witnesses: keys and alarms -/

/-- A locked-out unit with a clear key and an open challenge. -/
def lockedOut : Dev :=
  { active with twin := { active.twin with linkUp := false }, sec := { Sec.reset with lockout := true, clearKey := some 1, chal := some 2, cls := 0xFF } }

theorem witness_AlarmsLockOut (h1 : macOk lockedOut 1 0 = true) (h2 : macOk lockedOut 2 0xFF = true) (h3 : macOk { lockedOut with sec := { lockedOut.sec with lockout := false } } 3 0 = true) :
    (armed down 7 = true ∧ armed down 0 = true ∧ ({ down.sec with cls := 0 } : Sec).cls.getLsbD 7 = false ∧ serving down = false ∧ down.dur.save = .idle) ∧
    (down.sec.cls.getLsbD 5 = true ∧ armed down 5 = true) ∧
    (Open lockedOut .i3c 0x60008 ∧ lockedOut.sec.locked = false ∧ lockedOut.sec.lockout = true ∧ macOk lockedOut 1 0 = true ∧ lockedOut.pwr.st = .on ∧
      lockedOut.pwr.served = true ∧ lockedOut.twin.ident.isSome = true ∧ lockedOut.twin.linkUp = false) ∧
    (macOk lockedOut 2 0xFF = true ∧ macOk { lockedOut with sec := { lockedOut.sec with lockout := false } } 3 0 = true ∧ up.sec.clearKey = none ∧ up.sec.lockout = false) ∧
    (Open up .i3c 0x60010 ∧ up.sec.drbgStop = false ∧ Open up mgmt 0x60004) := by
  simp only [h1, h2, h3]; decide +kernel

/-- The unit with key slot 4095 as given. -/
def withKey (x : Bool) : Dev := { up with sec := { Sec.reset with slots := [(4095, 0, x)] } }

theorem witness_KeysAreKept : (Open up mgmt 0x60100 ∧ up.sec.keyBusy = false ∧ up.sec.lockout = false ∧ serving up = true ∧ up.twin.refusing = false) ∧
    (getKey up.sec.slots 4095 = none ∧ ctrlReady up (.keySlot .generate 4095 (drawPair up).1) = true) ∧
    (getKey (withKey false).sec.slots 4095 = some (0, false) ∧ ctrlReady (withKey false) (.keySlot .load 4095 0) = true) ∧
    (getKey (withKey true).sec.slots 4095 = some (0, true) ∧ ctrlReady (withKey true) (.keySlot .unload 4095 0) = true ∧
      slotRegions (withKey true) 4095 = 0 ∧ ctrlReady (withKey true) (.keySlot .destroy 4095 0) = true) ∧
    (up.sec.lanes[47]? = some Lane.reset ∧ laneReady up Lane.reset 3 = true ∧ up.sec.drbgStop = false ∧ down.twin.st = .fenced) ∧
    (let d := { lockedOut with sec := { lockedOut.sec with drbgStop := true } }; d.sec.drbgStop = true ∧ d.twin.ident.isSome = true ∧ d.twin.linkUp = false) := by
  decide +kernel

theorem witness_PublicKeyJobsRun : Open up mgmt 0x70000 ∧ up.sec.pke.job = none ∧
    { up.sec.pke with job := some (.x25519, []) }.job = some (.x25519, []) ∧ up.net.pool384 ≤ up.net.pool255 ∧ up.net.pool384 < 1024 ∧
    { up.net with pool384 := 1 }.pool255 < { up.net with pool384 := 1 }.pool384 := by decide +kernel

/-! ## Witnesses: the ledger, the store, the banks -/

/-- The ledger's state in the unit that is up. -/
def withLdg (f : Ledger → Ledger) : Dev := up.modLdg f

/-- The last word of the board's space, and an erase and a program of the management connection there. -/
def lastWord : Nat := 3839 * 4096 + 4092
def lerase (n : Nat) (x : Bool) : LdgErase := { owner := mgmt, sector := 3839, pulses := n, byOwner := x, byShp := false }

theorem witness_TheLedgerTakesSequences : Dev.reset.pwr.pwron = false ∧ { Dev.reset.dur with mainOk := true }.mainOk = true ∧
    (up.ldg.owner = none ∧ Open up mgmt 0x20000 ∧ up.ldg.seq = .idle ∧ (withLdg fun l => { l with seq := .key1 }).ldg.seq = .key1) ∧
    (Open up mgmt 0x2000C ∧ boardAddr lastWord = true ∧ boardAddr (3696 * 4096 + 64) = true ∧ boardAddr (3696 * 4096 + 60) = false ∧ up.ldg.erase = [] ∧
      up.ldg.spoiled = [] ∧ getKey up.ldg.words (lastWord / 4 * 4) = none) ∧
    (Open up mgmt 0x20008 ∧ boardAddr (wbits (BitVec.ofNat 32 lastWord) 23 2 * 4) = true) ∧
    (Open up mgmt 0x20004 ∧ eraseOf (withLdg fun l => { l with seq := .key2, erase := [lerase 0 false] }).ldg mgmt = some (lerase 0 false) ∧
      eraseOf (withLdg fun l => { l with seq := .key2, erase := [lerase 0 true] }).ldg mgmt = some (lerase 0 true)) ∧
    (Open up .i3c 0x20010 ∧ Open up .i3c 0x20024 ∧ boardAddr ((reg { up with regs := [(0x20020, BitVec.ofNat 32 lastWord)] } 0x20020).toNat % 2 ^ 24 / 4 * 4) = true) ∧
    (runningErase (withLdg fun l => { l with erase := [lerase 44 false] }).ldg = some (lerase 44 false) ∧ 45 ≤ (lerase 44 false).pulses + 1 ∧
      (lerase 398 false).pulses + 1 < 400) ∧ (0xFFFFFFFE : Word) ≠ 0xFFFFFFFF ∧ (∃ x ∈ [lerase 0 true], x.sector = 3839) ∧
    (regBits up 0x20034 15 0 ≤ (withLdg fun l => { l with sinceMove := 64, moves := 3838 }).ldg.sinceMove ∧ 3838 + 1 < 3840) := by
  refine ⟨?_, ?_, ?_, ?_, ?_, ?_, ?_, ?_, ?_, ?_, ?_⟩ <;> decide +kernel

/-- Images pass their checks by SHA-384 and by the signers' digests, which the model does not compute: the bank and the delta are
given with what the checks find of them. -/
theorem witness_StoreAndUpdateRun (b : Bank) (x : List Byte)
    (hb : bankCheck Ledger.reset b = .none) (hx : deltaCheck up x = .done) (hd : deltaBank (running up) x = some b)
    (hh : headerOk b = true ∧ hashesOk b = true) :
    (Open up .i3c 0x10008 ∧ up.ldg.cmdBusy = false ∧ seqValid ((List.range 16).map fun n => seqA up n) = true ∧ up.ldg.cfg.full = false ∧ down.twin.st = .fenced) ∧
    (Open up mgmt 0x90000 ∧ up.upd.busy = false ∧ up.upd.st = .idle ∧ up.ldg.stage = .firmware ∧ up.dur.save = .idle ∧ up.ldg.banks.length = 2 ∧
      deltaCheck up x = .done ∧ deltaBank (running up) x = some b) ∧
    ((deltaBytes { tabled with regs := [(0x90008, 0), (0x90014, 4096)] }).isSome = true) ∧
    (bankCheck { Ledger.reset with banks := [b, b] } b = .none ∧ up.twin.st ≠ .active ∧ up.twin.st ≠ .standby ∧ Quiet up) ∧
    (∃ k, k < 4 ∧ k ≠ 3 ∧ up.ldg.revoked.getLsbD k = false) ∧
    (Open up .i3c 0x90000 ∧ Open up .i3c 0x90030 ∧ 1032191 < 1032192 ∧ { up.ldg with stage := .recovery }.stage = .recovery) ∧
    (headerOk b = true ∧ hashesOk b = true) ∧ (up.rst.warm = .none ∧ up.net.ops = [] ∧ up.twin.st ≠ .joining) := by
  refine ⟨?_, ⟨?_, rfl, rfl, rfl, rfl, rfl, hx, hd⟩, ?_, ⟨hb, ?_, ?_, ?_⟩, ?_, ?_, hh, ?_⟩ <;> decide +kernel

/-! ## Witnesses: supplies, events, resets -/

/-- The supplies ramp up in the step that the last rail but one takes. -/
def ramp (x : SeqWait) : Dev := { down with pwr := { Pwr.reset with st := .rampUp, pwron := true, wait := x } }

theorem witness_PowerSequencesRun : (15 < 16 ∧ (ramp .pg).pwr.st = .rampUp ∧ (ramp .pg).pwr.wait = .pg ∧ wbits (seqA (ramp .pg) 0) 19 16 < 16) ∧
    ((ramp .settle).pwr.wait = .settle ∧ (seqA (ramp .settle) 0).getLsbD 15 = false ∧ railIn (ramp .settle) (wbits (seqA (ramp .settle) 0) 10 8) 800 = true ∧
      railIn (ramp .settle) (wbits (seqA (ramp .settle) 0) 10 8) 0 = false ∧ (ramp .settle).pwr.reverse = false ∧ 0 + 1 < seqLen (ramp .settle)) ∧
    ({ Pwr.reset with st := .rampDown, wait := .down, step := 1 }.step = 0 + 1 ∧ { Pwr.reset with st := .rampDown, wait := .down }.faulty = false) ∧
    ({ Pwr.reset with minOff := true }.onHeld = false ∧ { Pwr.reset with minOff := true }.retry = false) ∧
    (Open up .i3c 0x30004 ∧ { up.pwr with st := .off }.st = .off ∧ { up.pwr with served := false }.served = false) ∧
    (up.pwr.pwron = true ∧ judged up 7 = true ∧ railIn up 7 0 = false ∧ up.pwr.st = .on) ∧
    (let d := { up with pwr := { up.pwr with st := .rampDown, en := 0x7FFF } };
      d.pwr.pwron = true ∧ judged d 0 = true ∧ railIn d 0 0 = false ∧ (stepOfRail d 0).isSome = true ∧ judged d 7 = true ∧ railIn d 7 0 = false ∧
        stepOfRail d 7 = none) := by decide +kernel

/-- The unit with its sensors at a temperature. -/
def heated (t : Int) : Dev := { up with pwr := { up.pwr with sensors := List.replicate 36 t } }
def sensed (t : Int) : Int := (hottest (up.modPwr fun p => { p with sensors := modAt p.sensors 35 fun _ => t })).1

theorem witness_ClocksFollowTemperature : (35 < 36 ∧ 36 ≤ 36 ∧ sensed 0 < tripAt up ∧ tripAt up ≤ sensed 2000 ∧ up.pwr.st ≠ .fault ∧ up.pwr.served = true ∧
      up.sec.zeroing = false ∧ { up.pwr with served := false }.served = false) ∧
    ({ up.pwr with throttle := true }.throttle = true ∧ throtAt up < (hottest (heated 2000)).1 ∧ up.pwr.throttle = false ∧
      (hottest (heated 0)).1 < throtAt up - 24) ∧
    (100 ≤ 1200 ∧ 1200 ≤ 1200 ∧ 99 < 100 ∧ 1200 < 1201) ∧ (up.dur.mainOk = true ∧ up.pwr.st = .on ∧ down.dur.mainOk = true ∧ (ramp .pg).pwr.st ≠ .on) ∧
    (let p := { up.pwr with pending := true, oldMv := 795 }; p.oldMv < p.reqMv ∧ p.unmet = false ∧ p.reqMv ≤ 790 + 10 ∧ 810 ≤ p.reqMv + 10 ∧ 0 < p.railMv.length ∧
      789 + 10 < p.reqMv ∧ p.reqMv + 10 < 811) ∧ up.pwr.pending = false ∧
    (Open up mgmt 0x40000 ∧ up.pwr.calBusy = false ∧ calState up = true ∧ (let d := { up with pwr := { up.pwr with st := .saving } }; Open d mgmt 0x40000 ∧ calState d = false)) ∧
    { up.pwr with calBusy := true, calParts := 15 }.calBusy = true ∧ up.ftl.tempUs[tempBand 90]? = some 0 ∧
    tempBand 39 = 0 ∧ tempBand 40 = 1 ∧ tempBand 89 = 6 := by decide +kernel

theorem request_rises (n : Nat) : { up.pwr with reqMv := 715 }.reqMv < 720 + 5 * (Config.vddRequest n % 17) := Nat.lt_of_lt_of_le (by decide) (Nat.le_add_right _ _)

def record : Record := { code := 0x0101, source := 0, rseq := 0, time := 0, suppressed := 0, flags := 0, detail := [], regs := [] }
/-- The unit whose registers name connection 7 and a ring of 2^12 entries for fold 0. -/
def binding : Dev := { up with regs := [(0x50064, 0xC0000007)] }

theorem witness_EventsAreRecorded : ({ up.evt with buffer := [record] }.buffer = [record] ∧ up.dur.save = .idle ∧ recSector (64386 - 1 + 1) < 1022 ∧ up.evt.full = false) ∧
    (let v := { up.evt with codes := [(0x0101, { tokens := 15, held := 0, recHeld := 0, drop := 0 })], folds := [(9, 31, 0)] }
     codeRate v 0x0101 ≠ 0 ∧ (codeBucket v 0x0101).tokens < codeDepth v 0x0101 ∧ foldRate v ≠ 0 ∧ (foldBucket v 9).1 < foldDepth v) ∧
    (Open up .i3c 0x50000 ∧ Open up mgmt 0x5001C ∧ streamRefused up = none ∧ ctrlReady up (.foldRl (limitValue 0xFFFFFFFF)) = true) ∧
    (Open up mgmt (0x50030 + 4 * 7) ∧ ((getKey up.evt.snaps 0).getD (List.replicate 8 0xFFFFFFFF)).length = 8 ∧ snapForbidden 0x60 = false ∧ snapForbidden 0x60010 = true) ∧
    (Open up .i3c 0x50150 ∧ Open binding mgmt 0x50074 ∧ binding.evt.ringBusy = false ∧ regBits binding 0x50060 15 0 = 0 ∧ regBits binding 0x50064 19 0 = 7 ∧
      (getConn binding 7).isSome = true ∧ regBits binding 0x50064 31 28 = 12 ∧ regBits binding 0x50068 5 0 = 0 ∧ streamRefused binding = none ∧
      ctrlReady binding (.ringBind 0 7 0 0 12) = true ∧ ctrlReady binding (.ringUnbind 0) = true) := by decide +kernel

/-- The unit with resets as given. -/
def withRst (f : Rst → Rst) : Dev := up.modRst f

theorem witness_ResetsTakeTheirSteps : ((ramp .pg).rst.warm = .none ∧ (ramp .pg).pwr.st = .rampUp) ∧ (down.rst.warm = .none ∧ down.pwr.st = .on ∧ down.ldg.stage = .firmware) ∧
    ((withRst fun r => { r with warm := .held, byPin := true }).rst.byPin = true ∧ (withRst fun r => { r with warm := .held }).rst.byPin = false) ∧
    ((withRst fun r => { r with warm := .quiesce }).dur.save = .idle ∧ up.ftl.progs = [] ∧ up.net.ops = []) ∧
    (lockedOut.twin.ident.isSome = true ∧ lockedOut.twin.linkUp = false ∧ lockedOut.upd.st ≠ .activating) ∧
    (Open up mgmt 0x64 ∧ up.rst.run = none ∧ target up < 16) ∧
    (let d := { tabled with regs := [(0x60, 9)] }; target d = 9 ∧ streamRefused d = none ∧ d.folds.live.contains (target d) = true ∧ ctrlReady d (.foldReset (target d)) = true) ∧
    (let d := { withConn { conn with state := .quiescing } with regs := [(0x60, 9)] }; mgmt ≠ .conn (target d) ∧ (getConn d (target d)).isSome = true) ∧
    (portInUse up (target up) = true ∧ target up < up.net.ports.length ∧ linked up (target up) = true) ∧
    ((withRst fun r => { r with run := some (.gallery 15), due := true }).rst.due = true ∧ (withRst fun r => { r with run := some (.fold 9) }).twin.ctrlDue = [] ∧
      ∀ x ∈ up.net.conns, x.2.ident.fold = 9 → x.2.state ≠ .active ∧ x.2.state ≠ .armed ∧ x.2.state ≠ .quiescing) := by
  refine ⟨?_, ?_, ?_, ?_, ?_, ?_, ?_, ?_, ?_, ?_⟩ <;> decide +kernel

theorem witness_TheBankHasOneOwner : Open up mgmt 0x70 ∧ up.rst.bankOwner = none ∧ (withRst fun r => { r with bankOwner := some .i3c }).rst.bankOwner = some .i3c ∧
    Principal.i3c ≠ mgmt ∧
    (let d := withRst fun r => { r with bankOwner := some mgmt, bank := [(0x33C000, 0)] }
     d.rst.bankBusy = false ∧ d.rst.overflow = false ∧ streamRefused d = none ∧ underOld d = [] ∧ d.twin.ctrlDue = [] ∧ ctrlReady d (.config d.rst.bank) = true) ∧
    (withRst fun r => { r with bankBusy := true }).rst.bankBusy = true ∧ tapOpen { down with net := Net.reset } = true ∧ tapOpen up = false := by
  refine ⟨?_, ?_, ?_, ?_, ?_, ?_, ?_, ?_⟩ <;> decide +kernel

/-! ## Tests: worked examples of the spec -/

/-- The device after a command, where the command answers a next state. -/
def after (c : Instr) (d : Dev) : Dev := match exec c (st d) with | .next t => t.dev | _ => d

/-- The unit of R548's example: STANDBY, unit bit 1, an identity whose twin has node 0x0_0412, the link up. -/
def example548 : Dev := { standby with twin := { standby.twin with ident := some { pairId with unit := true, twin := 0x412 } } }

/-- R548: the two reads of the example answer TWN_STATUS with STATUS 0x00 and TWN_CMD with STATUS 0x0C. -/
theorem test_i3c_reads_twn_status : (after .i3cRead (after (.i3cWriteAddress 0x80000) example548)).i3c.reply = [0x3A, 0x00, 0x04, 0x12, 0x00] := by
  decide +kernel
theorem test_i3c_reads_twn_cmd : (after .i3cRead (after .i3cRead (after (.i3cWriteAddress 0x80000) example548))).i3c.reply = [0, 0, 0, 0, 0x0C] := by
  decide +kernel

/-- Block addresses (the register map's example): channel 5 starts at 0x0050_A000 and channel 23 ends at 0x0052_FFFF; the flash
channel blocks run from 0x0070_0000 to 0x0077_FFFF. -/
theorem test_block_addresses : blockBase .drc 5 = 0x50A000 ∧ blockBase .drc 23 + 0x2000 = 0x530000 ∧ blockBase .flc 0 = 0x700000 ∧
    blockBase .flc 127 + 0x1000 = 0x780000 := by decide

/-- The counter of R169's example holds 0x0FFF at offset 0x40. -/
def counterAt (v : Nat) (x : Desc) : Dev := { busy conn [op9 .stamp x] with mem := writeLE tabled.mem (4096 + 0x40) 8 v }
def fetchAddDesc : Desc := { desc 0x09 8 0x40 with b32 := 1 }
def casDesc : Desc := { desc 0x08 8 0x40 with b48 := 0x0FFF }
theorem test_fetch_add_example : readLE (after (.fetchAdd 9 0) (counterAt 0x0FFF fetchAddDesc)).mem (4096 + 0x40) 8 = 0x1000 := by decide +kernel
theorem test_cas_example : readLE (after (.cas 9 0) (counterAt 0x1000 casDesc)).mem (4096 + 0x40) 8 = 0x1000 := by decide +kernel

/-- The recorder's example: C0 = 2.0 F and 1.8 F measured with HOLD_EOL 80 give L_hold = 50. -/
theorem test_hold_life_example : holdLife (up.modLdg fun l => { l with cal0 := 2000000, calA := some { factoryCal with cMeas := 1800000 } }) = 50 := by
  decide +kernel

/-- R378: a correction in an array adds one token, and a token leaks away. -/
theorem test_scrub_correction_fills_bucket : (arrayOf (after (.scrubRead .pen 15 .corrected 0) up).hall .pen 15).bucket = 1 := by decide +kernel
theorem test_bucket_leaks : (arrayOf (after (.eccBucketLeak .pen 15) (after (.scrubRead .pen 15 .corrected 0) up)).hall .pen 15).bucket = 0 := by
  decide +kernel

/-- R81: GLB_ETH_MODE takes no value while a port is enabled. -/
theorem test_eth_mode_held : reg (after (.glbEthModeWrite mgmt 3) { up with regs := [(0x33C000, 0x80000000)] }) 0x40 = reg up 0x40 := by decide +kernel

/-- R568: the identification word that the test port sends. -/
theorem test_idcode : (after .jtagIdcode up).sent = [.jtagIdcode 0x27256B43] := by decide +kernel

/-- An example of R168: the 256 bytes at 0x1010 touch the lines 0x1000, 0x1040, 0x1080, 0x10C0 and 0x1100. -/
theorem test_span_lines : spanLines 0x1010 256 = [0x1000 / 64, 0x1040 / 64, 0x1080 / 64, 0x10C0 / 64, 0x1100 / 64] := by decide

/-- The table gives no row bits, so no word spells a command. -/
theorem test_no_word_spells_a_command : decodeTableWord 32 0 = none ∧ (State.reset.withFetchWord 32 0) = State.reset := ⟨rfl, rfl⟩

/-- With no command waiting the block idles and its clock goes on. -/
theorem test_idle_step : step State.reset = .next (st { Dev.reset with clock := 1000 }) := rfl

/-! ## Tests: the check refuses ill-formed commands -/

def goodHdr : Hdr :=
  { port := 16, src := { ip := 0, port := 65535 }, head := headOf .probe 0 7 0, udpLen := 48, ce := false, tagOk := true, bodyOk := true }
def goodRaw : RawFrame := { raw with vlan := some 4095 }
def goodReq : ConnectReq := { req0 with pub := List.replicate 96 0, clientUdp := 65535 }
def goodAns : WitAns :=
  { ok := true, macOk := true, unit := false, members := 3, pairId := 1, wseq := 0, leaseUs := 0, rseed := 0, holder := 255, reason := 0, epoch := 2 ^ 24 - 1 }
def goodTwl : TwlHdr := { lsn := 2 ^ 32 - 1, lack := 0, peer := 2 ^ 64 - 1, tagOk := true, hdrOk := true, ftypeOk := true }
def goodHello : Hello := hello0

theorem test_wf_principals : (Instr.flush (.conn (2 ^ 20 - 1))).wf = true ∧ (Instr.flush (.conn (2 ^ 20))).wf = false ∧
    (Instr.regWrite (.direct .i3c (2 ^ 32) 0)).wf = false ∧ (Instr.regRead (.op (2 ^ 20) 0)).wf = false ∧
    (Instr.rcRegisterRead mgmt (2 ^ 32)).wf = false ∧ (Instr.i3cWriteAddress (2 ^ 32)).wf = false := by decide
theorem test_wf_islands : (Instr.islandGate (.gallery 15)).wf = true ∧ (Instr.islandGate (.gallery 16)).wf = false ∧
    (Instr.islandWake (.flashGroup 16)).wf = false ∧ (Instr.islandWake (.dramChannel 24)).wf = false := by decide
theorem test_wf_frames : (Instr.probe goodHdr).wf = true ∧ (Instr.probe { goodHdr with port := 17 }).wf = false ∧
    (Instr.probe { goodHdr with head := [] }).wf = false ∧ (Instr.probe { goodHdr with udpLen := 65536 }).wf = false ∧
    (Instr.probe { goodHdr with src := { ip := 0, port := 65536 } }).wf = false ∧ (Instr.pathReset goodHdr 8 0).wf = false ∧
    (Instr.readRsp goodHdr (2 ^ 32) 0 false []).wf = false ∧ (Instr.readReqSend 0 0 0 (2 ^ 32)).wf = false ∧
    (Instr.strangerFrame 17 goodHdr.src goodHdr.stray).wf = false ∧ (Instr.ptpMessage .lost (2 ^ 64)).wf = false := by decide
theorem test_wf_raw_frames : (Instr.nonFenhelFrame goodRaw).wf = true ∧ (Instr.nonFenhelFrame { goodRaw with vlan := some 4096 }).wf = false ∧
    (Instr.nonFenhelFrame { goodRaw with head := [] }).wf = false ∧ (Instr.nonFenhelFrame { goodRaw with udpLen := 65536 }).wf = false ∧
    (Instr.nonFenhelFrame { goodRaw with port := 17 }).wf = false := by decide
theorem test_wf_connect : (Instr.connectReq goodHdr true goodReq).wf = true ∧ (Instr.connectReq goodHdr true { goodReq with npath := 256 }).wf = false ∧
    (Instr.connectReq goodHdr true { goodReq with sqLog := 256 }).wf = false ∧ (Instr.connectReq goodHdr true { goodReq with cqLog := 256 }).wf = false ∧
    (Instr.connectReq goodHdr true { goodReq with credId := 2 ^ 32 }).wf = false ∧ (Instr.connectReq goodHdr true { goodReq with clientUdp := 65536 }).wf = false ∧
    (Instr.connectReq goodHdr true { goodReq with clientPort := 65536 }).wf = false ∧ (Instr.connectReq goodHdr true { goodReq with oldWord := 2 ^ 32 }).wf = false ∧
    (Instr.connectReq goodHdr true { goodReq with rsvA := 65536 }).wf = false ∧ (Instr.connectReq goodHdr true { goodReq with rsvB := 2 ^ 32 }).wf = false ∧
    (Instr.connectReq goodHdr true { goodReq with pub := [] }).wf = false := by
  decide
theorem test_wf_link : (Instr.linkAck goodTwl).wf = true ∧ (Instr.linkAck { goodTwl with lsn := 2 ^ 32 }).wf = false ∧
    (Instr.linkAck { goodTwl with lack := 2 ^ 32 }).wf = false ∧ (Instr.linkAck { goodTwl with peer := 2 ^ 64 }).wf = false ∧
    (Instr.fin (2 ^ 64)).wf = false ∧ (Instr.regReq (2 ^ 32) false 0).wf = false := by decide
theorem test_wf_hello : (Instr.hello { goodHello with digest := 0 }).wf = true ∧ (Instr.hello { goodHello with digest := 0, node := 2 ^ 18 }).wf = false ∧
    (Instr.hello { goodHello with digest := 0, streamLevel := 256 }).wf = false ∧ (Instr.hello { goodHello with digest := 0, reseed := 65536 }).wf = false ∧
    (Instr.hello { goodHello with digest := 0, lastStamp := 2 ^ 64 }).wf = false ∧ (Instr.hello { goodHello with digest := 0, time := 2 ^ 64 }).wf = false ∧ (Instr.hello { goodHello with rsv := 16 }).wf = false := by
  decide +kernel
theorem test_wf_witness : (Instr.witnessGrant goodAns).wf = true ∧ (Instr.witnessGrant { goodAns with epoch := 2 ^ 24 }).wf = false ∧
    (Instr.witnessGrant { goodAns with wseq := 2 ^ 64 }).wf = false ∧ (Instr.witnessDeny { goodAns with reason := 256 }).wf = false ∧
    (Instr.witnessDone { goodAns with holder := 256 }).wf = false ∧ (Instr.witnessDone { goodAns with leaseUs := 2 ^ 32 }).wf = false ∧
    (Instr.witnessDone { goodAns with members := 256 }).wf = false ∧ (Instr.witnessDone { goodAns with rseed := 65536 }).wf = false := by decide
theorem test_wf_tables : (Instr.grant mgmt 15 65535).wf = true ∧ (Instr.grant mgmt 16 0).wf = false ∧ (Instr.commit mgmt 0 65536).wf = false ∧
    (Instr.format mgmt 16).wf = false ∧ (Instr.rmaSlotLapse 16).wf = false ∧ (Instr.commitDrainDone 65536).wf = false ∧
    (Instr.enrol mgmt 65536 false 0).wf = false ∧ (Instr.disableDrain mgmt (2 ^ 20)).wf = false := by decide
theorem test_wf_media : (Instr.imageRelease 16).wf = false ∧ (Instr.ftlDrain 256).wf = false ∧ (Instr.flashEraseComplete (2 ^ 19)).wf = false ∧
    (Instr.flashProgramFail 0 8 0).wf = false ∧ (Instr.flashProgramFail 0 0 4).wf = false ∧ (Instr.flashReadComplete (2 ^ 38) 0 0).wf = false ∧
    (Instr.dieOffline 128 0).wf = false ∧ (Instr.dieOffline 0 16).wf = false ∧ (Instr.dramAlert 24 0).wf = false ∧ (Instr.dramAlert 0 2).wf = false := by
  decide
theorem test_wf_chip : (Instr.getS 16 0).wf = false ∧ (Instr.victimWritebackAck 16 0).wf = false ∧ (Instr.droverReloadComplete 192).wf = false ∧
    (Instr.alarmClassA 8).wf = false ∧ (Instr.generate mgmt 4096).wf = false ∧ (Instr.cipherLaneJob 48 0 0 false).wf = false ∧
    (Instr.cipherLaneJob 0 4 0 false).wf = false ∧ (Instr.maskReseed 48).wf = false := by decide
theorem test_wf_board : (Instr.ledgerErasePulse 3840 true).wf = false ∧ (Instr.updRevoke mgmt 4 0).wf = false ∧ (Instr.pgRise 16).wf = false ∧
    (Instr.railFault 8 0 false).wf = false ∧ (Instr.tempConversion 36 0).wf = false ∧ (Instr.codeBucketRefill 65536).wf = false ∧
    (Instr.evtSnapAddrWrite mgmt 8 0).wf = false := by decide

end Sys2Proof.Tests
end

section
/-! SUPPORT. A principal's latches as they are made and used up, which reads clear or latch, and the two register transfers of the
I3C target (R22, R542, R548), with the statements about them. -/
namespace Sys2Proof.Machine

/-! ## Latches -/

/-- A principal's latch of a register, made anew at a value. -/
def setLatch (d : Dev) (p : Principal) (a : Nat) (w : Word) : Dev :=
  { dropLatch d p a with latches := (p, a, w) :: (dropLatch d p a).latches }

theorem latch_eq_foldl_setLatch (p : Principal) (as : List Nat) (d : Dev) :
    latch p as d = as.foldl (fun x a => setLatch x p a (peek d p a)) d := rfl

@[simp] theorem dropLatch_regs (d : Dev) (p : Principal) (a : Nat) : (dropLatch d p a).regs = d.regs := rfl
@[simp] theorem setLatch_regs (d : Dev) (p : Principal) (a : Nat) (w : Word) : (setLatch d p a w).regs = d.regs := rfl

@[simp] theorem latch_regs (p : Principal) (as : List Nat) (d : Dev) : (latch p as d).regs = d.regs := by
  rw [latch_eq_foldl_setLatch]
  exact List.foldlRecOn as _ (motive := fun x => x.regs = d.regs) rfl fun x hx a _ => (setLatch_regs x p a _).trans hx

@[simp] theorem latchOf_answer (d : Dev) (p q : Principal) (a b : Nat) (w : Bool) (st : Status) (n : Nat) (v : Word) :
    latchOf (answer d p a w st n v) q b = latchOf d q b := rfl

theorem latchOf_dropLatch (d : Dev) (p q : Principal) (a b : Nat) :
    latchOf (dropLatch d p a) q b = if q = p ∧ b = a then none else latchOf d q b := by
  simp only [latchOf, dropLatch, List.find?_filter]
  split
  case isTrue h =>
    obtain ⟨rfl, rfl⟩ := h
    simp only [Option.map_eq_none_iff, List.find?_eq_none]
    grind
  case isFalse h =>
    congr 2
    funext x
    grind

theorem latchOf_setLatch (d : Dev) (p q : Principal) (a b : Nat) (w : Word) :
    latchOf (setLatch d p a w) q b = if q = p ∧ b = a then some w else latchOf d q b := by
  have key : latchOf (setLatch d p a w) q b = if q = p ∧ b = a then some w else latchOf (dropLatch d p a) q b := by
    simp only [latchOf, setLatch, List.find?_cons]
    grind
  rw [key, latchOf_dropLatch]
  split <;> rfl

/-- The order of the registers does not matter: each is latched at its value in the device before the read. -/
theorem latchOf_foldl_setLatch (p q : Principal) (b : Nat) (f : Nat → Word) (as : List Nat) (x : Dev) :
    latchOf (as.foldl (fun y a => setLatch y p a (f a)) x) q b =
      if q = p ∧ b ∈ as then some (f b) else latchOf x q b := by
  induction as generalizing x with
  | nil => simp
  | cons a as ih =>
    rw [List.foldl_cons, ih, latchOf_setLatch]
    grind

theorem latchOf_latch (p q : Principal) (as : List Nat) (d : Dev) (b : Nat) :
    latchOf (latch p as d) q b = if q = p ∧ b ∈ as then some (peek d p b) else latchOf d q b :=
  latchOf_foldl_setLatch p q b (peek d p) as d

@[simp] theorem answer_regs (d : Dev) (p : Principal) (a : Nat) (w : Bool) (st : Status) (n : Nat) (v : Word) :
    (answer d p a w st n v).regs = d.regs := rfl
@[simp] theorem reg_answer (d : Dev) (p : Principal) (a b : Nat) (w : Bool) (st : Status) (n : Nat) (v : Word) :
    reg (answer d p a w st n v) b = reg d b := rfl
theorem answer_answer (d : Dev) (p : Principal) (a : Nat) (w : Bool) (st : Status) (n : Nat) (v : Word) :
    (answer d p a w st n v).answer =
      some { who := p, addr := a, write := w, status := st, detail := BitVec.ofNat 32 n, value := v } := rfl

/-! ## Reads -/

/-- A read of the register has an effect of its own, which is neither that of a counter nor that of a pair. -/
def OwnRead (a : Nat) : Prop :=
  (0x400100 ≤ a ∧ a < 0x400500 ∧ a % 0x40 = 4) ∨ a = 0x20010 ∨ a = 0x20024 ∨ a = 0x60010 ∨ a = 0x50018 ∨ a = 0x100018 ∨
    a = 0x10001C

theorem blockOf_rma {a : Nat} (h1 : 0x400000 ≤ a) (h2 : a < 0x410000) : blockOf a = some (.rma, 0, a - 0x400000) := by
  unfold blockOf
  simp (disch := omega) only [if_neg, if_pos]

theorem latchedBy_isCounter_of_ownRead {a : Nat} (h : OwnRead a) : isCounter a = false ∧ latchedBy a = [] := by
  rcases h with ⟨h1, h2, h3⟩ | rfl | rfl | rfl | rfl | rfl | rfl
  · have hb := blockOf_rma (a := a) (by omega) (by omega)
    simp only [isCounter, latchedBy, hb]
    constructor
    · simp only [decide_eq_false_iff_not]; omega
    · rw [if_neg (by omega), if_neg (by omega)]
  all_goals decide

theorem latchedBy_of_isCounter {a : Nat} (h : isCounter a = true) : latchedBy a = [] := by
  -- block by block, no offset of a counter is that of a low half
  unfold isCounter at h
  unfold latchedBy
  split at h <;> simp_all <;> omega

/-- A read of a register that holds no latch and has no effect of its own (R20, R22, R542). -/
theorem readCore_unlatched {d : Dev} {p : Principal} {a : Nat} (hl : latchOf d p a = none) (ho : ¬ OwnRead a) :
    readCore p a d = if portAbsent d a then (d, .ok 0) else if isCounter a then (setReg d a 0, .ok (reg d a))
      else (latch p (latchedBy a) d, .ok (peek d p a)) := by
  simp only [OwnRead, not_or] at ho
  obtain ⟨h7, h1, h2, h3, h4, h5, h6⟩ := ho
  simp only [readCore, hl, if_neg h1, if_neg h2, if_neg h3, if_neg h4, if_neg h5, if_neg h6, if_neg h7]

theorem readCore_counter {d : Dev} {p : Principal} {a : Nat} (hc : isCounter a = true) (hl : latchOf d p a = none) :
    readCore p a d = if portAbsent d a then (d, .ok 0) else (setReg d a 0, .ok (reg d a)) := by
  have ho : ¬ OwnRead a := fun h => by simp [(latchedBy_isCounter_of_ownRead h).1] at hc
  rw [readCore_unlatched hl ho, if_pos hc]

theorem readCore_pair {d : Dev} {p : Principal} {a : Nat} (hp : latchedBy a ≠ []) (hl : latchOf d p a = none)
    (hu : portAbsent d a = false) : readCore p a d = (latch p (latchedBy a) d, .ok (peek d p a)) := by
  have ho : ¬ OwnRead a := fun h => hp (latchedBy_isCounter_of_ownRead h).2
  have hc : ¬ isCounter a = true := fun h => hp (latchedBy_of_isCounter h)
  rw [readCore_unlatched hl ho, if_neg (by simp [hu]), if_neg hc]

theorem readCore_latched {d : Dev} {p : Principal} {a : Nat} {w : Word} (hl : latchOf d p a = some w) :
    readCore p a d = (dropLatch d p a, .ok w) := by
  simp only [readCore, hl]

/-- A read that is open and answers a value. -/
theorem readAs_ok {d e : Dev} {p : Principal} {a : Nat} {w : Word} {f : Dev → Dev × Except Nat Word} (ho : Open d p a)
    (hf : f d = (e, .ok w)) : readAs p a f d = answer e p a false .done 0 w := by
  rw [readAs_open ho.1 ho.2, hf]

theorem runs_rcRegisterRead {s : State} {p : Principal} {a : Nat} {e : Dev} {w : Word} {P : Dev → Prop}
    (ho : Open s.dev p a) (hr : readCore p a s.dev = (e, .ok w)) (h : P (answer e p a false .done 0 w)) :
    Runs (.rcRegisterRead p a) s P :=
  ⟨_, rfl, (readAs_ok ho hr).symm ▸ h⟩

theorem runs_loRegisterRead {s : State} {p : Principal} {a : Nat} {e : Dev} {w : Word} {P : Dev → Prop}
    (ho : Open s.dev p a) (hr : readCore p a s.dev = (e, .ok w)) (h : P (answer e p a false .done 0 w)) :
    Runs (.loRegisterRead p a) s P :=
  ⟨_, rfl, (readAs_ok ho hr).symm ▸ h⟩

/-- Settles O11: a read does what `readCore` says of a counter, of a low half and of a latched register. -/
theorem readsThatClearOrLatch : Obligations.ReadsThatClearOrLatch := by
  intro s p a ho
  refine ⟨fun hc hl => ?_, fun hp hl hu => ?_, fun w hl => ?_⟩
  · have hr := readCore_counter hc hl
    by_cases hu : portAbsent s.dev a = true
    · rw [if_pos hu] at hr
      exact runs_rcRegisterRead ho hr (by simp [hu, answer_answer])
    · rw [if_neg hu] at hr
      refine runs_rcRegisterRead ho hr ⟨?_, fun b hb => ?_, ?_, ?_⟩
      · simp [hu]
      · simp [hb.symm]
      · simp
      · simp [hu, answer_answer]
  · refine runs_loRegisterRead ho (readCore_pair hp hl hu) ⟨?_, ?_, fun h hh => ?_, fun q b hq => ?_, answer_answer _ _ _ _ _ _ _⟩
    · simp
    · simp
    · simp [latchOf_latch, hh]
    · simp [latchOf_latch, hq]
  · refine runs_loRegisterRead ho (readCore_latched hl) ⟨?_, ?_, ?_, fun q b hqb => ?_, answer_answer _ _ _ _ _ _ _⟩
    · simp
    · simp
    · simp [latchOf_dropLatch]
    · rw [latchOf_answer, latchOf_dropLatch, if_neg (not_and_or.2 hqb)]

/-! ## The I3C target's register transfers -/

theorem accessHere_read {d e : Dev} {p : Principal} {a : Nat} {v w : Word} (hr : refusal d p a = none)
    (hf : readCore p a d = (e, .ok w)) : accessHere p a false v d = (e, .done, 0, w) := by
  simp [accessHere, hr, hf]

theorem accessHere_write {d e : Dev} {p : Principal} {a : Nat} {v : Word} (hr : refusal d p a = none)
    (hf : writeCore p a v d = (e, 0)) : accessHere p a true v d = (e, .done, 0, 0) := by
  simp [accessHere, hr, hf]

/-- Outside a warm reset the target reaches GLB_ID and GLB_NODE, which are open on I3C (R548, R549). -/
theorem refusal_i3c_glb {d : Dev} {a : Nat} (hw : inWarm d = false) (ha : a = 0 ∨ a = 0x10) : refusal d .i3c a = none := by
  rcases ha with rfl | rfl <;> simp [refusal, hw, blockOf, isI3cOpen]

/-- A write of GLB_NODE is a plain one (R550). -/
theorem writeCore_glbNode (p : Principal) (v : Word) (d : Dev) :
    writeCore p 0x10 v d = ({ dropLatch d p 0x10 with regs := plainWrite d.regs 0x10 v }, 0) := rfl

/-- GLB_NODE keeps its reserved bits, and no value of its 18 bits is out of range (R550). -/
theorem regVal_plainWrite_glbNode (rs : List (Nat × Word)) (v : Word) (b : Nat) :
    regVal (plainWrite rs 0x10 v) b =
      if 0x10 = b then (regVal rs 0x10 &&& ~~~0x3FFFF) ||| (v &&& 0x3FFFF) else regVal rs b :=
  regVal_plainWrite rs 0x10 b v

/-- GLB_ID is no low half: its read changes nothing (R7). -/
theorem readCore_glbId {d : Dev} {p : Principal} (hl : latchOf d p 0 = none) : readCore p 0 d = (d, .ok 0x7256200D) := by
  have ho : ¬ OwnRead 0 := by simp [OwnRead]
  rw [readCore_unlatched hl ho]
  rfl

/-- A transfer that writes 8 bytes and carries its access out (R548). -/
theorem runs_i3cWriteValue {s : State} {a : Nat} {v : Word} {e : Dev} {P : Dev → Prop} (hb : s.dev.pwr.pwron = true)
    (hr : accessHere .i3c (a % 2 ^ 32) true v s.dev = (e, .done, 0, 0))
    (h : P ((answer e .i3c (a % 2 ^ 32) true .done 0 0).modI3c fun x => { x with pointer := a % 2 ^ 32, wrote := some 0 })) :
    Runs (.i3cWriteValue a v) s P := by
  have hx : onBus (i3cStore a v) s.dev = _ := if_pos hb
  rw [i3cStore, hr] at hx
  exact ⟨_, rfl, hx.symm ▸ h⟩

/-- A transfer that reads 5 bytes and carries its access out: the value, and the status byte with the outcome of the write before
(R548). -/
theorem runs_i3cRead {s : State} {w : Word} {e : Dev} {P : Dev → Prop} (hb : s.dev.pwr.pwron = true)
    (hr : accessHere .i3c s.dev.i3c.pointer false 0 s.dev = (e, .done, 0, w))
    (h : P ((answer e .i3c s.dev.i3c.pointer false .done 0 w).modI3c fun x =>
      { x with reply := beBytes 4 w.toNat ++ [BitVec.ofNat 8 (4 * s.dev.i3c.wrote.getD 3)],
               pointer := (s.dev.i3c.pointer + 4) % 2 ^ 32, wrote := none })) :
    Runs .i3cRead s P := by
  have hx : onBus i3cLoad s.dev = _ := if_pos hb
  rw [i3cLoad, hr, show i3cOutcome .done 0 = 0 from rfl, Nat.zero_add] at hx
  exact ⟨_, rfl, hx.symm ▸ h⟩

/-- Settles O9: GLB_NODE takes a plain write, and GLB_ID reads as its fixed value. -/
theorem i3cReadsAndWritesRegisters : Obligations.I3cReadsAndWritesRegisters := by
  intro s hb hw
  refine ⟨fun v => ?_, fun hptr hwr hl => ?_⟩
  · have hr := accessHere_write (refusal_i3c_glb hw (.inr rfl)) (writeCore_glbNode .i3c v s.dev)
    refine runs_i3cWriteValue hb hr ⟨?_, rfl, rfl, rfl, rfl, rfl, fun a ha => ?_⟩
    · exact regVal_plainWrite_glbNode s.dev.regs v 0x10
    · exact (regVal_plainWrite_glbNode s.dev.regs v a).trans (if_neg ha.symm)
  · have hr : accessHere .i3c s.dev.i3c.pointer false 0 s.dev = (s.dev, .done, 0, 0x7256200D) := by
      rw [hptr]
      exact accessHere_read (refusal_i3c_glb hw (.inl rfl)) (readCore_glbId hl)
    refine runs_i3cRead hb hr ⟨?_, ?_, rfl, rfl⟩
    · rw [hwr]
      rfl
    · rw [hptr]
      rfl

end Sys2Proof.Machine
end

section
/-! SUPPORT. The clock gates of the islands, the context cache of a gallery, and the budget's two writers (R35, R38, R41, R253), with
the statements about them. -/
namespace Sys2Proof.Machine

/-! ## Clock gates -/

theorem getLsbD_setBit {w : Nat} (on : Bool) (x : BitVec w) (g j : Nat) :
    (if on then x ||| (1#w <<< g) else x &&& ~~~(1#w <<< g)).getLsbD j =
      if j = g then on && decide (g < w) else x.getLsbD j := by
  rw [← BitVec.twoPow_eq]
  by_cases hj : j = g
  · subst hj
    cases on
    · simp [BitVec.getLsbD_twoPow]
    · simpa [BitVec.getLsbD_twoPow] using BitVec.lt_of_getLsbD
  · have hbit : (BitVec.twoPow w g).getLsbD j = false := by simp [BitVec.getLsbD_twoPow, Ne.symm hj]
    cases on
    · simpa [hj, hbit] using BitVec.lt_of_getLsbD
    · simp [hj, hbit]

/-- An island's gate takes the value set, where the island exists; every other gate stays (R41). -/
theorem gated_setGate (on : Bool) (i j : Island) (d : Dev) :
    gated (setGate on i d) j = if j = i then on && islandWf i else gated d j := by
  cases i <;> cases j <;> simp [gated, setGate, islandWf, getLsbD_setBit]

theorem gated_setGate_other {on : Bool} {i j : Island} {d : Dev} (h : j ≠ i) : gated (setGate on i d) j = gated d j := by
  rw [gated_setGate, if_neg h]

/-- An idle gallery or flash group is one of the sixteen; of a channel the bound is asked for. -/
theorem islandWf_of_idle {d : Dev} {i : Island} (hc : ∀ c, i = .dramChannel c → c < 24) (hi : islandIdle d i = true) :
    islandWf i = true := by
  cases i with
  | gallery g =>
    simp only [islandIdle, Bool.and_eq_true] at hi
    obtain ⟨⟨⟨hg, -⟩, -⟩, -⟩ := hi
    exact hg
  | flashGroup g =>
    simp only [islandIdle, Bool.and_eq_true] at hi
    obtain ⟨⟨hg, -⟩, -⟩ := hi
    exact hg
  | dramChannel c => exact decide_eq_true (hc c rfl)

theorem gateIsland_of_idle {d : Dev} {i : Island} (hp : d.pwr.st = .on) (hm : mayGate d i = true) (hi : islandIdle d i = true) :
    gateIsland i d = setGate true i d := by
  simp [gateIsland, hp, hm, hi]

/-! ## The context cache -/

/-- A context enters at the front; behind it stands nothing new, and while its gallery has room every other context of before (R35). -/
theorem cacheCtx_eq (d : Dev) (n : Nat) : ∃ l : List Nat,
    cacheCtx d n = { d with net := { d.net with ctxCache := n :: l } } ∧ (∀ m ∈ l, m ∈ d.net.ctxCache) ∧
      ((d.net.ctxCache.filter fun x => homeOf x = homeOf n).length < 4096 → ∀ m ∈ d.net.ctxCache, m ≠ n → m ∈ l) := by
  refine ⟨_, rfl, fun m hm => ?_, fun hroom m hm hn => ?_⟩
  · split at hm
    · exact (List.mem_filter.1 (List.mem_filter.1 hm).1).1
    · exact (List.mem_filter.1 hm).1
  · have hsame : ((d.net.ctxCache.filter fun x => x ≠ n).filter fun x => homeOf x = homeOf n).length < 4096 := by
      refine lt_of_le_of_lt ?_ hroom
      exact (List.filter_sublist.filter _).length_le
    rw [if_pos hsame]
    exact List.mem_filter.2 ⟨hm, by simpa using hn⟩

/-- With no frame that waits for it, a context of a set-up connection enters the cache and nothing else happens (R35). -/
theorem contextFilled_of_none_parked {d : Dev} {n : Nat} (hc : (getConn d n).isSome = true)
    (hp : ∀ f ∈ d.net.parked, f.1.conn ≠ n) : contextFilled n d = cacheCtx d n := by
  have hstay : (d.net.parked.filter fun f => f.1.conn ≠ n) = d.net.parked :=
    List.filter_eq_self.2 fun f hf => by simpa using hp f hf
  have hgo : (d.net.parked.filter fun f => f.1.conn = n) = [] :=
    List.filter_eq_nil_iff.2 fun f hf => by simpa using hp f hf
  simp only [contextFilled, hc, if_true, hgo, List.foldl_nil, Dev.modNet, hstay]

/-- The one frame that waited runs once the context is in the cache; the other frames keep their places (R35). -/
theorem contextFilled_of_one_parked {d : Dev} {n : Nat} {f : Hdr × FrameBody} (hc : (getConn d n).isSome = true)
    (hf : (d.net.parked.filter fun g => g.1.conn = n) = [f]) :
    contextFilled n d = runFrame f.1 f.2
      (cacheCtx (d.modNet fun t => { t with parked := t.parked.filter fun g => g.1.conn ≠ n }) n) := by
  simp only [contextFilled, hc, if_true, hf, List.foldl_cons, List.foldl_nil]

/-- Settles O13: setting one gate leaves the others, and a context fill is `cacheCtx` and then the frame that waited. -/
theorem islandsAndContexts : Obligations.IslandsAndContexts := by
  intro s
  refine ⟨fun i => ⟨?_, fun hc hp hm hi => ?_⟩, fun n hn => ⟨fun hp => ?_, fun f hf => ?_⟩⟩
  · exact ⟨setGate false i s.dev, rfl, by simp [gated_setGate], fun j hj => gated_setGate_other hj, rfl⟩
  · refine ⟨gateIsland i s.dev, rfl, ?_⟩
    rw [gateIsland_of_idle hp hm hi]
    exact ⟨by simp [gated_setGate, islandWf_of_idle hc hi], fun j hj => gated_setGate_other hj, rfl⟩
  · refine ⟨contextFilled n s.dev, rfl, ?_⟩
    obtain ⟨l, hl, hsub, hroom⟩ := cacheCtx_eq s.dev n
    rw [contextFilled_of_none_parked hn hp, hl]
    refine ⟨rfl, rfl, fun m hm h => hsub m ((List.mem_cons.1 h).resolve_left hm), fun hlt m h => ?_⟩
    by_cases hm : m = n
    · exact List.mem_cons.2 (.inl hm)
    · exact List.mem_cons_of_mem n (hroom hlt m h hm)
  · exact congrArg (fun e => Host.Outcome.next { s with dev := e }) (contextFilled_of_one_parked hn hf)

/-! ## The budget -/

/-- An update with nothing that waits writes the budget, and raises at most the event of a floor of zero (R38, R253, R255). -/
theorem budgetUpdate_of_quiet {d : Dev} (h : Quiet d) :
    budgetUpdate d =
      let e := d.modDur fun u => { u with budget := (budgetNow d).1, source := (budgetNow d).2,
                                          forced := decide (regBits d 0x30210 15 0 = 0) }
      if decide (regBits d 0x30210 15 0 = 0) && !d.dur.forced then raiseOp e 0x0101 srcPWR [] else e := by
  obtain ⟨hdue, hqueue, hwaits⟩ := h
  refine settleFully_idle ?_ ?_ ?_ <;> split <;> simpa

/-- Settles O14: the watchdog and a sample write the budget alone, and their event leaves `dur`, the memory and `ftl`. -/
theorem budgetFollowsTheEstimates : Obligations.BudgetFollowsTheEstimates := by
  intro s
  refine ⟨⟨budgetLost s.dev, rfl, ?_⟩, fun hq => ⟨budgetUpdate s.dev, rfl, ?_⟩⟩
  · simp [budgetLost]
  · rw [budgetUpdate_of_quiet hq]
    dsimp only
    split <;> simp

end Sys2Proof.Machine
end

section
/-! SUPPORT. A command slot under its updates, and the statements about the memory's operations and about a slot's status and its lapse
(R52, R73, R166, R559). -/
namespace Sys2Proof.Machine

/-- Settles O7: what the laws of the memory say of each operation, put together. -/
theorem memoryReadsWhatWasWritten : Obligations.MemoryReadsWhatWasWritten := by
  intro m a b n bs
  refine ⟨fun h => ⟨memWf_writeBytes a bs h, memWf_zeroBytes a n h, memWf_copyBytes a b n h⟩, readBytes_writeBytes m a bs,
    fun c hc => ?_, readByte_zeroBytes m a n⟩
  rw [readByte_writeBytes, if_neg (by omega)]

/-! ## One slot -/

@[simp] theorem answer_folds (d : Dev) (p : Principal) (a : Nat) (w : Bool) (st : Status) (n : Nat) (v : Word) :
    (answer d p a w st n v).folds = d.folds := rfl

theorem modSlot_self {d : Dev} {i : Nat} {x : Slot} (h : d.folds.slots[i]? = some x) (f : Slot → Slot) :
    (modSlot d i f).folds.slots[i]? = some (f x) := by
  simp [modSlot, modAt, h]

theorem modSlot_other {i j : Nat} (h : j ≠ i) (d : Dev) (f : Slot → Slot) :
    (modSlot d i f).folds.slots[j]? = d.folds.slots[j]? := by
  simp [modSlot, modAt, h.symm]

/-- The slot's principal has read the result of a command that has ended. -/
abbrev ReadByOwner (p : Principal) (x : Slot) : Prop := x.owner = some p ∧ x.ended = true ∧ x.run = none

theorem statusRead_read {d : Dev} {slot : Nat} {x : Slot} {p : Principal} (h : d.folds.slots[slot]? = some x) (hr : ReadByOwner p x) :
    statusRead p slot d = (modSlot d slot fun y => { y with owner := none }, .ok (slotStatus x)) := by
  obtain ⟨ho, he, hn⟩ := hr
  simp [statusRead, h, ho, he, hn]

theorem statusRead_kept {d : Dev} {slot : Nat} {x : Slot} {p : Principal} (h : d.folds.slots[slot]? = some x) (hr : ¬ ReadByOwner p x) :
    statusRead p slot d = (d, .ok (slotStatus x)) := by
  simp only [statusRead, h]
  rw [if_neg (by simpa [ReadByOwner, and_assoc] using hr)]

theorem runs_rmaStatusRead {s : State} {p : Principal} {slot : Nat} {e : Dev} {w : Word} {P : Dev → Prop}
    (ho : Open s.dev p (slotBase slot + 4)) (hr : statusRead p slot s.dev = (e, .ok w))
    (h : P (answer e p (slotBase slot + 4) false .done 0 w)) : Runs (.rmaStatusRead p slot) s P :=
  ⟨_, rfl, (readAs_ok ho hr).symm ▸ h⟩

/-- Settles O21: the owner's read of an ended command releases the slot and any other read leaves it; a lapse spares a slot that runs. -/
theorem slotStatusAndLapse : Obligations.SlotStatusAndLapse := by
  intro s p slot x hx
  refine ⟨fun ho => ?_, slotLapse slot s.dev, rfl, ?_, fun i hi => modSlot_other hi _ _, rfl⟩
  · by_cases hr : ReadByOwner p x
    · refine runs_rmaStatusRead ho (statusRead_read hx hr) ⟨?_, fun i hi => ?_, rfl, rfl, rfl⟩
      · rw [if_pos hr]
        exact modSlot_self hx _
      · exact modSlot_other hi _ _
    · refine runs_rmaStatusRead ho (statusRead_kept hx hr) ⟨?_, fun i hi => rfl, rfl, rfl, rfl⟩
      rw [if_neg hr]
      exact hx
  · refine (modSlot_self hx _).trans ?_
    by_cases hrun : x.run = none
    · simp [hrun]
    · rw [if_pos (Option.isSome_iff_ne_none.2 hrun), if_neg hrun]

end Sys2Proof.Machine
end

section
/-! SUPPORT. What the plan of each region-table command does to the staged changes and to the records of the tables (R73, R75, R580), with
the statement about the plans. -/
namespace Sys2Proof.Machine

/-! ## Staged changes -/

theorem stage_getLast (d : Dev) (f g : Nat) (h : Word) (x : RegDesc) :
    (stage d f g h x).folds.staged.getLast? = some (stagedAs f g h x) := by
  simp [stage, stagedAs]

/-- The device without the staged changes of a handle. -/
def unstage (d : Dev) (f : Nat) (h : Word) : Dev :=
  d.modFolds fun fs => { fs with staged := fs.staged.filter fun g => !(g.fold = f && g.handle = h) }

@[simp] theorem isStaged_unstage (d : Dev) (f : Nat) (h : Word) : isStaged (unstage d f h) f h = false := by
  simp only [isStaged, unstage, Dev.modFolds_folds, List.any_eq_false, List.mem_filter]
  rintro g ⟨-, hg⟩
  simpa only [Bool.not_eq_true', Bool.not_eq_true] using hg

theorem isStaged_of_staged {d e : Dev} (hs : e.folds.staged = d.folds.staged) (f : Nat) (h : Word) : isStaged e f h = isStaged d f h := by
  unfold isStaged
  rw [hs]

/-- The descriptor of a command's handle leaves its fold's table: one that is live by a staged change, and one that only a staged change
holds with that change. -/
def TakesOut (d : Dev) (c : RmaCmd) (e : Dev) : Prop :=
  ((liveDesc d c.fold c.handle).isSome → e.folds.staged.getLast? = some (stagedAs c.fold c.fold c.handle noDesc)) ∧
  (liveDesc d c.fold c.handle = none → isStaged e c.fold c.handle = false)

theorem takesOut_stage {d : Dev} {c : RmaCmd} (h : (liveDesc d c.fold c.handle).isSome = true) :
    TakesOut d c (stage d c.fold c.fold c.handle noDesc) :=
  ⟨fun _ => stage_getLast _ _ _ _ _, fun hn => by simp [hn] at h⟩

theorem takesOut_unstaged {d e : Dev} {c : RmaCmd} (h : ¬ (liveDesc d c.fold c.handle).isSome = true)
    (he : isStaged e c.fold c.handle = false) : TakesOut d c e :=
  ⟨fun hs => absurd hs h, fun _ => he⟩

/-! ## The plan of each command -/

/-- The plan of a command once the checks on the space and on its fold have passed. -/
def tablePlan (d : Dev) (st : Stamp) (c : RmaCmd) : Except RmaResult Plan :=
  match c.op with
  | .createFold => planCreateFold d c.fold
  | .createRegion => planCreateRegion d st c
  | .destroyRegion => planDestroyRegion d c
  | .setPerm => planSetPerm d c
  | .grant => planGrant d st c
  | .revoke => planRevoke d c
  | .commit => match planCommit d c.fold with | some p => .ok p | none => .error .noSpace
  | .destroyFold => planDestroyFold d c.fold
  | .format => .error .badState

theorem tablePlan_of_planOf {d : Dev} {st : Stamp} {c : RmaCmd} {P : Plan} (h : planOf d st c = .ok P) : tablePlan d st c = .ok P := by
  unfold planOf at h
  split at h
  · cases h
  · unfold tablePlan
    cases hop : c.op with
    | createFold => simpa only [hop] using h
    | commit =>
      simp only [hop] at h
      split at h
      · cases h
      · cases hc : planCommit d c.fold with
        | none => simp [hc] at h
        | some p => simpa only [hc] using h
    | _ =>
      simp only [hop] at h
      split at h
      · cases h
      · exact h

@[simp] theorem Plan.put_dev (p : Plan) (a : Nat) (bs : List Byte) : (p.put a bs).dev = p.dev := by
  unfold Plan.put
  rfl

@[simp] theorem Plan.put_edit (p : Plan) (a : Nat) (bs : List Byte) (m : Mem) : (p.put a bs).edit m = writeBytes (p.edit m) a bs := by
  unfold Plan.put
  rfl

theorem leBytes_length (k n : Nat) : (leBytes k n).length = k := by
  induction k generalizing n with
  | zero => rfl
  | succ k ih => simp [leBytes, ih]

theorem foldBytes_length (r : FoldRec) : (foldBytes r).length = 64 := by simp [foldBytes, leBytes_length]

theorem planCreateFold_eq {d : Dev} {f : Nat} {P : Plan} (h : planCreateFold d f = .ok P) :
    P = (Plan.nothing (d.modFolds fun fs => { fs with live := addNum fs.live f })).put (foldPa d.folds f) (foldBytes newFold) := by
  unfold planCreateFold at h
  split at h
  · cases h
  · exact (Except.ok.inj h).symm

theorem placeRegion_dataUsed {d e : Dev} {st : Stamp} {n base : Nat} (h : placeRegion d st n = some (base, e)) :
    getKey e.folds.dataUsed base = some (roundUp n 4096) := by
  unfold placeRegion at h
  split at h
  · cases h
  · cases h
    simp [getKey_putKey]

theorem planCreateRegion_eq {d : Dev} {st : Stamp} {c : RmaCmd} {P : Plan} (h : planCreateRegion d st c = .ok P) :
    ∃ w base e, placeRegion d st c.len.toNat = some (base, e) ∧
      P = { Plan.nothing (stage e c.fold c.fold w
              { base := base, len := c.len.toNat, gen := genOf d c.fold, owner := c.fold, ty := 1, perm := c.perm % 4,
                keySlot := c.keySlot, flags := c.flags, tFold := 0, tHandle := 0, rsv := 0 }) with handle := some w } := by
  unfold planCreateRegion at h
  dsimp only at h
  split at h
  · cases h
  · split at h
    · cases h
    · split at h
      · rename_i w base e _ hp
        split at h
        · exact ⟨w, base, e, hp, (Except.ok.inj h).symm⟩
        · cases h
      · cases h

theorem planDestroyRegion_eq {d : Dev} {c : RmaCmd} {P : Plan} (h : planDestroyRegion d c = .ok P) :
    ∃ e, P = Plan.nothing e ∧ TakesOut d c e := by
  unfold planDestroyRegion at h
  split at h
  · cases h
  · extract_lets e at h
    have he : TakesOut d c e := by
      simp only [e]
      split
      · exact takesOut_stage ‹_›
      · exact takesOut_unstaged ‹_› ((isStaged_of_staged rfl _ _).trans (isStaged_unstage d c.fold c.handle))
    clear_value e
    split at h <;> cases h
    exact ⟨e, rfl, he⟩

theorem planSetPerm_eq {d : Dev} {c : RmaCmd} {P : Plan} (h : planSetPerm d c = .ok P) :
    ∃ x, regionAt d c.fold c.handle = some x ∧
      P = Plan.nothing (stage d c.fold c.fold c.handle
        { x with perm := c.perm % 4, flags := x.flags % 8 + (if c.flags / 8 % 2 = 1 then 8 else 0) }) := by
  unfold planSetPerm at h
  split at h
  · cases h
  · rename_i x hx
    extract_lets e at h
    split at h
    · cases h
      exact ⟨x, hx, rfl⟩
    · cases h

theorem planGrant_eq {d : Dev} {st : Stamp} {c : RmaCmd} {P : Plan} (h : planGrant d st c = .ok P) :
    ∃ w, P = { Plan.nothing (stage d c.fold c.peer w
      { noDesc with owner := c.peer, ty := 2, perm := c.perm, tFold := c.fold, tHandle := c.handle }) with handle := some w } := by
  unfold planGrant at h
  split at h
  · cases h
  · split at h
    · cases h
    · split at h
      · cases h
      · split at h
        · cases h
        · rename_i w _
          extract_lets e at h
          split at h
          · cases h
            exact ⟨w, rfl⟩
          · cases h

theorem planRevoke_eq {d : Dev} {c : RmaCmd} {P : Plan} (h : planRevoke d c = .ok P) :
    ∃ e, P = Plan.nothing e ∧ TakesOut d c e := by
  unfold planRevoke at h
  split at h
  · split at h
    · cases h
    · extract_lets e at h
      have he : TakesOut d c e := by
        simp only [e]
        split
        · exact takesOut_stage ‹_›
        · exact takesOut_unstaged ‹_› (isStaged_unstage d c.fold c.handle)
      clear_value e
      split at h <;> cases h
      exact ⟨e, rfl, he⟩
  · cases h

/-! ## Plans that publish or drop staged changes -/

/-- Dropping the cached translations of folds leaves the staged changes. -/
theorem foldl_dropFoldCache_staged (l : List Nat) (d : Dev) : (l.foldl dropFoldCache d).folds.staged = d.folds.staged := by
  induction l generalizing d with
  | nil => rfl
  | cons f t ih => exact ih _

theorem planCommit_staged {d : Dev} {f : Nat} {P : Plan} (h : planCommit d f = some P) : ∀ g ∈ P.dev.folds.staged, g.by_ ≠ f := by
  unfold planCommit at h
  simp only [Option.map_eq_some_iff] at h
  obtain ⟨a, _, rfl⟩ := h
  dsimp only
  rw [foldl_dropFoldCache_staged]
  simp

/-- A fold of plans each of which leaves the staged changes leaves them. -/
theorem foldl_plan_staged {α : Type} {g : Plan → α → Plan} (hg : ∀ p x, (g p x).dev.folds.staged = p.dev.folds.staged) (l : List α)
    (p : Plan) : (l.foldl g p).dev.folds.staged = p.dev.folds.staged := by
  induction l generalizing p with
  | nil => rfl
  | cons x t ih => exact (ih _).trans (hg p x)

theorem placeRta_staged {d : Dev} {n : Nat} {x : Nat × Dev} (h : placeRta d n = some x) : x.2.folds.staged = d.folds.staged := by
  unfold placeRta at h
  split at h <;> cases h
  rfl

theorem Plan.area_staged {p : Plan} {n : Nat} {old : Option (Nat × Nat)} {x : Plan × Nat} (h : p.area n old = some x) :
    x.1.dev.folds.staged = p.dev.folds.staged := by
  obtain ⟨y, hy, rfl⟩ := Option.map_eq_some_iff.1 h
  exact placeRta_staged hy

theorem Plan.grantees_staged {p : Plan} {r : FoldRec} {l : List Nat} {x : Plan × FoldRec} (h : p.grantees r l = some x) :
    x.1.dev.folds.staged = p.dev.folds.staged := by
  have hfree : (if r.listCount = 0 then p.dev else freeRta p.dev [(r.listPa, 0)]).folds.staged = p.dev.folds.staged := by
    split <;> rfl
  unfold Plan.grantees at h
  dsimp only at h
  split at h
  · cases h
    exact hfree
  · obtain ⟨y, hy, rfl⟩ := Option.map_eq_some_iff.1 h
    exact (Plan.area_staged hy).trans hfree

theorem dropStaged_staged {d : Dev} {f : Nat} {g : Staged} (h : g ∈ (dropStaged d f).folds.staged) : g.by_ ≠ f ∧ g.fold ≠ f := by
  simp only [dropStaged, Dev.modFolds_folds, List.mem_filter, Bool.not_eq_true', Bool.or_eq_false_iff, decide_eq_false_iff_not] at h
  exact h.2.1

/-- The destruction of a fold drops the staged changes that name it, and its ring (R580). -/
theorem planDestroyFold_drops {d : Dev} {f : Nat} {P : Plan} (h : planDestroyFold d f = .ok P) :
    P.dev.folds.staged = (dropStaged d f).folds.staged ∧ getKey P.dev.evt.rings f = none := by
  unfold planDestroyFold at h
  split at h
  · cases h
  · split at h
    · cases h
    · extract_lets r p0 p1 p2 at h
      have h1 : p1.dev.folds.staged = p0.dev.folds.staged := by
        refine foldl_plan_staged (fun p t => ?_) _ _
        exact foldl_plan_staged (fun q s => by rw [Plan.put_dev]) _ p
      have h2 : p2.dev.folds.staged = p1.dev.folds.staged := by
        refine foldl_plan_staged (fun p t => ?_) _ _
        dsimp only
        split
        · rename_i x hx
          rw [Plan.put_dev]
          exact Plan.grantees_staged hx
        · rfl
      have h3 : p2.dev.folds.staged = (dropStaged d f).folds.staged := h2.trans h1
      clear_value p2
      cases h
      refine ⟨?_, by simp [getKey_delKey]⟩
      dsimp only
      split <;> exact h3

/-- Settles O17: each command's plan is the staged change, or the written record, that its lemma above gives. -/
theorem regionTablePlans : Obligations.RegionTablePlans := by
  intro d st c P hP
  have h := tablePlan_of_planOf hP
  unfold tablePlan at h
  refine ⟨fun hop => ?_, fun hop => ?_, fun hop => ?_, fun hop => ?_, fun hop => ?_, fun hop => ?_, fun hop => ?_⟩ <;>
    simp only [hop] at h
  · have hw := readBytes_writeBytes d.mem (foldPa d.folds c.fold) (foldBytes newFold)
    have ho := @readByte_writeBytes d.mem (foldPa d.folds c.fold) (bs := foldBytes newFold)
    rw [foldBytes_length] at hw ho
    rw [planCreateFold_eq h]
    simp only [Plan.put_dev, Plan.put_edit]
    exact ⟨rfl, hw, fun a ha => (ho a).trans (if_neg (by omega))⟩
  · obtain ⟨w, base, e, hp, rfl⟩ := planCreateRegion_eq h
    exact ⟨w, base, rfl, rfl, stage_getLast _ _ _ _ _, (placeRegion_dataUsed hp :)⟩
  · obtain ⟨e, rfl, he⟩ := planDestroyRegion_eq h
    exact ⟨rfl, he⟩
  · obtain ⟨x, hx, rfl⟩ := planSetPerm_eq h
    exact ⟨x, hx, rfl, stage_getLast _ _ _ _ _⟩
  · obtain ⟨w, rfl⟩ := planGrant_eq h
    exact ⟨w, rfl, rfl, stage_getLast _ _ _ _ _⟩
  · obtain ⟨e, rfl, he⟩ := planRevoke_eq h
    exact ⟨rfl, he⟩
  · cases hc : planCommit d c.fold with
    | none => simp [hc] at h
    | some p =>
      rw [hc] at h
      cases h
      exact planCommit_staged hc

end Sys2Proof.Machine
end

section
/-! SUPPORT. How a command of a slot runs (R73, R75, R580): the slot takes it, the pump carries it to its end or leaves it waiting, and a
drain that has run out lets it go on; with the statements about these commands. -/
namespace Sys2Proof.Machine

@[simp] theorem noteLeaves_ctrlDue (d : Dev) (st : Stamp) (ls : List Nat) : (noteLeaves d st ls).twin.ctrlDue = d.twin.ctrlDue := rfl

/-! ## A slot's end -/

/-- What the end of a slot's command leaves in the slot. -/
def slotDone (r : RmaResult) (x : Slot) : Slot :=
  { x with run := none, ended := true, result := r, owner := if x.release then none else x.owner, release := false }

@[simp] theorem modSlot_folds (d : Dev) (i : Nat) (f : Slot → Slot) :
    (modSlot d i f).folds = { d.folds with slots := d.folds.slots.modify i f } := rfl

@[simp] theorem endSlot_folds (d : Dev) (slot : Nat) (r : RmaResult) :
    (endSlot d slot r).folds = { d.folds with slots := d.folds.slots.modify slot (slotDone r) } := rfl

theorem slotEnded_endSlot {d : Dev} {slot : Nat} {x : Slot} (h : d.folds.slots[slot]? = some x) (r : RmaResult) :
    SlotEnded (endSlot d slot r) slot r :=
  ⟨slotDone r x, modSlot_self h _, rfl, rfl, rfl⟩

theorem SlotEnded.of_slots {d e : Dev} {slot : Nat} {r : RmaResult} (h : SlotEnded d slot r) (hs : e.folds.slots = d.folds.slots) :
    SlotEnded e slot r := by
  unfold SlotEnded
  rwa [hs]

/-! ## The pump -/

theorem refuseWaiting_of_noneDue {d : Dev} (h : d.twin.ctrlDue = []) : refuseWaiting d = d := by
  have ht : ({ d.twin with ctrlDue := d.twin.ctrlDue.filter fun x => x.2 = .change } : Twin) = d.twin := by
    rw [h]
    exact (congrArg (fun l => ({ d.twin with ctrlDue := l } : Twin)) h).symm
  have hd : (d.modTwin fun t => { t with ctrlDue := t.ctrlDue.filter fun x => x.2 = .change }) = d :=
    congrArg (fun t => ({ d with twin := t } : Dev)) ht
  rw [refuseWaiting, hd, h]
  rfl

theorem settle_of_noneDue {d : Dev} (h : d.twin.ctrlDue = []) : settle d = rmaPump (2 * d.folds.queue.length + 2) d := by
  simp [settle, refuseWaiting_of_noneDue h, h, drainCtrl]

theorem settleFully_of_pump {d e : Dev} (h : d.twin.ctrlDue = []) (hp : rmaPump (2 * d.folds.queue.length + 2) d = e)
    (hq : e.folds.queue = []) : settleFully d = e := by
  simp [settleFully, settleAll, settle_of_noneDue h, hp, formatDue, hq]

theorem rmaPump_idle {d : Dev} (hw : d.folds.waits = none) (hq : d.folds.queue = []) (n : Nat) : rmaPump n d = d := by
  cases n with
  | zero => rfl
  | succ n => simp [rmaPump, hw, hq]

/-- The command at the head of the queue has had its turn, and the queue holds none after it. -/
def dequeued (d : Dev) : Dev := d.modFolds fun f => { f with queue := [] }

theorem rmaPump_head {d e : Dev} {slot : Nat} {c : RmaCmd} (hw : d.folds.waits = none) (hq : d.folds.queue = [(slot, c)])
    (hc : c.op ≠ .format) (ht : tryRma d slot c = some e) (n : Nat) : rmaPump (n + 1) d = rmaPump n (dequeued e) := by
  simp [rmaPump, hw, hq, hc, ht, dequeued]

/-- The command that waits while a generation of its fold is still carried goes on waiting. -/
theorem rmaPump_busy {d : Dev} {w : RmaWait} (hw : d.folds.waits = some w) (hc : w.cmd.op ≠ .format) (hb : genBusy d w.cmd.fold = true)
    (n : Nat) : rmaPump n d = d := by
  cases n with
  | zero => rfl
  | succ n => simp [rmaPump, hw, hc, foldBusy, hb]

/-- The record of a drain that has run out is stamped and takes its effect. -/
def drainedCtrl (d : Dev) (f : Nat) : Dev := applyDrained (stampCtrl d (.rmaDrained f)).2 (nextStamp d.twin) f

/-- The command that waited for the drain of its fold has ended. -/
def drainEnded (d : Dev) (w : RmaWait) : Dev :=
  endSlot ((drainedCtrl d w.cmd.fold).modFolds fun f => { f with waits := none }) w.slot .done

theorem drainedCtrl_work (d : Dev) (f : Nat) : WorkKept d (drainedCtrl d f) :=
  (WorkKept.of_folds (stampCtrl_folds _ _)).trans (applyDrained_work _ _ _)

theorem drainEnded_folds (d : Dev) (w : RmaWait) :
    (drainEnded d w).folds =
      { (drainedCtrl d w.cmd.fold).folds with
        waits := none, slots := (drainedCtrl d w.cmd.fold).folds.slots.modify w.slot (slotDone .done) } := by
  unfold drainEnded
  rw [endSlot_folds, Dev.modFolds_folds]

theorem drainEnded_waits (d : Dev) (w : RmaWait) : (drainEnded d w).folds.waits = none := by rw [drainEnded_folds]

theorem drainEnded_queue (d : Dev) (w : RmaWait) : (drainEnded d w).folds.queue = d.folds.queue := by
  rw [drainEnded_folds]
  obtain ⟨-, -, hq, -⟩ := drainedCtrl_work d w.cmd.fold
  rw [hq]

theorem drainEnded_staged (d : Dev) (w : RmaWait) : (drainEnded d w).folds.staged = d.folds.staged := by
  rw [drainEnded_folds]
  obtain ⟨-, -, -, hs⟩ := drainedCtrl_work d w.cmd.fold
  rw [hs]

theorem slotEnded_drainEnded {d : Dev} {w : RmaWait} {x : Slot} (h : d.folds.slots[w.slot]? = some x) :
    SlotEnded (drainEnded d w) w.slot .done := by
  obtain ⟨-, hs, -, -⟩ := drainedCtrl_work d w.cmd.fold
  exact slotEnded_endSlot (x := x) (by rw [Dev.modFolds_folds, hs, h]) .done

theorem applyDrained_dying {d : Dev} {f : Nat} (h : (readFold d.mem (foldPa d.folds f)).state = 2) (st : Stamp) :
    f ∉ (applyDrained d st f).folds.live := by
  unfold applyDrained
  rw [if_pos h, noteLeaves_folds]
  exact finishDestroy_live d st f

theorem drainedCtrl_dying {d : Dev} {f : Nat} (h : (readFold d.mem (foldPa d.folds f)).state = 2) : f ∉ (drainedCtrl d f).folds.live := by
  unfold drainedCtrl
  refine applyDrained_dying ?_ _
  rw [stampCtrl_mem, stampCtrl_folds]
  exact h

/-- A fold under destruction is live no longer once its drain has run out (R580). -/
theorem drainEnded_live {d : Dev} {w : RmaWait} (h : (readFold d.mem (foldPa d.folds w.cmd.fold)).state = 2) :
    w.cmd.fold ∉ (drainEnded d w).folds.live := by
  rw [drainEnded_folds]
  dsimp only
  exact drainedCtrl_dying h

theorem rmaPump_drained {d : Dev} {w : RmaWait} (hw : d.folds.waits = some w) (hc : w.cmd.op ≠ .format)
    (hb : genBusy d w.cmd.fold = false) (hr : ctrlReady d (.rmaDrained w.cmd.fold) = true) (hq : d.folds.queue = []) (n : Nat) :
    rmaPump (n + 1) d = drainEnded d w := by
  have hstep : rmaPump (n + 1) d = rmaPump n (drainEnded d w) := by
    simp only [rmaPump, hw, hc, foldBusy, hb, hr, if_false, Bool.not_true, Bool.or_self, Bool.false_eq_true]
    rfl
  rw [hstep, rmaPump_idle (drainEnded_waits d w) ((drainEnded_queue d w).trans hq)]

/-! ## A command whose plan is admitted -/

/-- A command that can have its stamp now and need wait for nothing: its plan is admitted, and so is the plan at its stamp. -/
structure Admitted (d : Dev) (c : RmaCmd) (P Q : Plan) : Prop where
  noneDue : d.twin.ctrlDue = []
  stamp : canStamp d = true
  plan : planOf d (nextStamp d.twin) c = .ok Q
  drained : (waitsFor d c).any (genBusy d) = false
  room : Q.lines = [] ∨ admits d Q.lines.length = true
  stamped : planOf (stampedRma d c) (nextStamp d.twin) c = .ok P

theorem serves_of_canStamp {d : Dev} (h : canStamp d = true) : serving d = true ∧ d.twin.refusing = false := by
  simp only [canStamp, canStampFor, Bool.and_eq_true, Bool.not_eq_true'] at h
  tauto

/-- What a command leaves in its slot when its plan is made: the handle used, for CREATE_REGION and GRANT (R557). -/
def withHandle (c : RmaCmd) (h : Option Word) (x : Slot) : Slot :=
  match c.op, h with
  | .createRegion, some w => { x with args := putKey x.args 0x08 w }
  | .grant, some w => { x with args := putKey x.args 0x1C w }
  | _, _ => x

theorem modSlot_id (d : Dev) (slot : Nat) : modSlot d slot (fun x => x) = d := by
  have hs : d.folds.slots.modify slot (fun x => x) = d.folds.slots := List.modify_id slot _
  exact congrArg (fun l => ({ d with folds := { d.folds with slots := l } } : Dev)) hs

theorem noteHandle_eq (d : Dev) (slot : Nat) (c : RmaCmd) (h : Option Word) : noteHandle d slot c h = modSlot d slot (withHandle c h) := by
  unfold noteHandle withHandle
  cases h with
  | none => cases c.op <;> simp [modSlot_id]
  | some w => cases c.op <;> simp [modSlot_id]

/-- The device that a plan makes at the stamp of its command, with the leaves of the book-keeping noted. -/
def planMade (d : Dev) (c : RmaCmd) (P : Plan) : Dev :=
  noteLeaves (P.make (nextStamp d.twin)) (nextStamp d.twin)
    (addNums (bookLeaves (stampedRma d c)) (bookLeaves (P.make (nextStamp d.twin))))

theorem applyCtrl_admitted {d : Dev} {c : RmaCmd} {P Q : Plan} (h : Admitted d c P Q) :
    applyCtrl (stampCtrl d (.rma c)).2 (stampCtrl d (.rma c)).1 (.rma c) = planMade d c P := by
  have hp : planOf (stampCtrl d (.rma c)).2 (nextStamp d.twin) c = .ok P := h.stamped
  simp only [applyCtrl, applyRma, stampCtrl_fst, hp]
  rfl

theorem planMade_folds (d : Dev) (c : RmaCmd) (P : Plan) :
    ∃ fs n, (planMade d c P).folds = { P.dev.folds with families := fs, nextVer := n } := by
  unfold planMade
  rw [noteLeaves_folds]
  exact P.make_folds _

/-- The device once the plan is made and the handle used stands in the slot. -/
def carried (d : Dev) (slot : Nat) (c : RmaCmd) (P Q : Plan) : Dev := modSlot (planMade d c P) slot (withHandle c Q.handle)

theorem noteHandle_planMade (d : Dev) (slot : Nat) (c : RmaCmd) (P Q : Plan) :
    noteHandle (planMade d c P) slot c Q.handle = carried d slot c P Q := noteHandle_eq _ _ _ _

section
variable {d : Dev} {c : RmaCmd} {P Q : Plan} (h : Admitted d c P Q)
include h

theorem Admitted.kept : SlotsKept (stampedRma d c) P.dev := planOf_kept h.stamped

theorem Admitted.kept_waits : P.dev.folds.waits = d.folds.waits := by
  obtain ⟨hw, -⟩ := h.kept
  rwa [stampedRma, stampCtrl_folds] at hw

theorem Admitted.kept_slots : P.dev.folds.slots = d.folds.slots := by
  obtain ⟨-, hs, -⟩ := h.kept
  rwa [stampedRma, stampCtrl_folds] at hs

theorem Admitted.kept_mem : P.dev.mem = d.mem := by
  obtain ⟨-, -, -, hm, -⟩ := h.kept
  rwa [stampedRma, stampCtrl_mem] at hm

theorem Admitted.planMade_mem : (planMade d c P).mem = if P.lines.isEmpty then d.mem else P.edit d.mem := by
  unfold planMade
  rw [noteLeaves_mem, P.make_memory, h.kept_mem]

theorem Admitted.tryRma_eq (slot : Nat) :
    tryRma d slot c = some (if c.op = .destroyFold then
        (carried d slot c P Q).modFolds fun f => { f with waits := some { slot := slot, cmd := c, step := 4 } }
      else endSlot (carried d slot c P Q) slot .done) := by
  obtain ⟨hs, hr⟩ := serves_of_canStamp h.stamp
  have hroom : (Q.lines.isEmpty || admits d Q.lines.length) = true := by
    rcases h.room with hq | hq <;> simp [hq]
  unfold tryRma
  simp only [hs, hr, h.plan, h.drained, h.stamp, h.noneDue, hroom, applyCtrl_admitted h, noteHandle_planMade, List.isEmpty_nil,
    Bool.not_true, Bool.or_self, Bool.false_eq_true, if_false]
  split <;> rfl

end

/-- The device once an admitted command has run: its plan is made and its slot has ended. -/
def finished (d : Dev) (slot : Nat) (c : RmaCmd) (P Q : Plan) : Dev := dequeued (endSlot (carried d slot c P Q) slot .done)

/-- The device in which a DESTROY_FOLD waits for its drain: its plan is made. -/
def draining (d : Dev) (slot : Nat) (c : RmaCmd) (P Q : Plan) : Dev :=
  dequeued ((carried d slot c P Q).modFolds fun f => { f with waits := some { slot := slot, cmd := c, step := 4 } })

section
variable {d : Dev} {slot : Nat} {c : RmaCmd} {P Q : Plan} (h : Admitted d c P Q)
include h

theorem Admitted.carried_folds : ∃ fs n, (carried d slot c P Q).folds =
    { P.dev.folds with families := fs, nextVer := n, slots := d.folds.slots.modify slot (withHandle c Q.handle) } := by
  obtain ⟨fs, n, hf⟩ := planMade_folds d c P
  exact ⟨fs, n, by rw [carried, modSlot_folds, hf, ← h.kept_slots]⟩

theorem Admitted.finished_folds : ∃ fs n, (finished d slot c P Q).folds =
    { P.dev.folds with families := fs, nextVer := n, queue := [],
                       slots := d.folds.slots.modify slot fun x => slotDone .done (withHandle c Q.handle x) } := by
  obtain ⟨fs, n, hf⟩ := h.carried_folds (slot := slot)
  exact ⟨fs, n, by rw [finished, dequeued, Dev.modFolds_folds, endSlot_folds, hf, List.modify_modify_eq]; rfl⟩

theorem Admitted.finished_slot {x : Slot} (hx : d.folds.slots[slot]? = some x) :
    (finished d slot c P Q).folds.slots[slot]? = some (slotDone .done (withHandle c Q.handle x)) := by
  obtain ⟨fs, n, hfin⟩ := h.finished_folds (slot := slot)
  rw [hfin, List.getElem?_modify_eq, hx]
  rfl

theorem Admitted.draining_folds : ∃ fs n, (draining d slot c P Q).folds =
    { P.dev.folds with families := fs, nextVer := n, queue := [], waits := some { slot := slot, cmd := c, step := 4 },
                       slots := d.folds.slots.modify slot (withHandle c Q.handle) } := by
  obtain ⟨fs, n, hf⟩ := h.carried_folds (slot := slot)
  exact ⟨fs, n, by rw [draining, dequeued, Dev.modFolds_folds, Dev.modFolds_folds, hf]⟩

theorem Admitted.finished_mem : (finished d slot c P Q).mem = if P.lines.isEmpty then d.mem else P.edit d.mem := by
  rw [finished, dequeued, Dev.modFolds_mem, endSlot_mem, carried, modSlot_mem, h.planMade_mem]

theorem Admitted.draining_mem : (draining d slot c P Q).mem = if P.lines.isEmpty then d.mem else P.edit d.mem := by
  rw [draining, dequeued, Dev.modFolds_mem, Dev.modFolds_mem, carried, modSlot_mem, h.planMade_mem]

variable (hw : d.folds.waits = none) (hq : d.folds.queue = [(slot, c)])
include hw hq

theorem Admitted.settleFully_finished (hf : c.op ≠ .format) (hd : c.op ≠ .destroyFold) : settleFully d = finished d slot c P Q := by
  obtain ⟨fs, n, hfin⟩ := h.finished_folds (slot := slot)
  have ht := h.tryRma_eq slot
  rw [if_neg hd] at ht
  refine settleFully_of_pump h.noneDue ?_ (by rw [hfin])
  rw [rmaPump_head hw hq hf ht]
  exact rmaPump_idle (by rw [← finished, hfin]; exact h.kept_waits.trans hw) rfl _

theorem Admitted.pump_draining (hd : c.op = .destroyFold) (n : Nat) : rmaPump (n + 1) d = rmaPump n (draining d slot c P Q) := by
  have ht := h.tryRma_eq slot
  rw [if_pos hd] at ht
  exact rmaPump_head hw hq (by simp [hd]) ht n

end

/-! ## A slot takes its command -/

section
variable {d : Dev} {p : Principal} {slot : Nat} (h : SlotReady d p slot) (op : RmaOp) (f : Nat)
include h

theorem SlotReady.taken_slot : ∃ x, (taken d p slot op f).folds.slots[slot]? = some x ∧ x.owner = some p ∧
    x.run = some (slotCmd d slot op f) ∧ x.ended = false := by
  obtain ⟨-, -, x, hx, -, -⟩ := h
  exact ⟨_, by simp [taken, hx]; rfl, rfl, rfl, rfl⟩

theorem SlotReady.taken_queue : (taken d p slot op f).folds.queue = [(slot, slotCmd d slot op f)] := by
  obtain ⟨-, ⟨-, hq, -⟩, -⟩ := h
  simp [taken, hq]

theorem SlotReady.taken_noneDue : (taken d p slot op f).twin.ctrlDue = [] := by
  obtain ⟨-, ⟨hn, -, -⟩, -⟩ := h
  exact hn

theorem SlotReady.taken_waits : (taken d p slot op f).folds.waits = none := by
  obtain ⟨-, ⟨-, -, hw⟩, -⟩ := h
  exact hw

theorem SlotReady.rmaWrite_eq : rmaWrite p op slot f d = (settleFully (taken d p slot op f), 0) := by
  obtain ⟨-, -, x, hx, hr, ho⟩ := h
  have hc : cmdOf x op f = slotCmd d slot op f := by simp [slotCmd, List.getD_eq_getElem?_getD, hx]
  have ht : takeSlot p slot d = some (modSlot d slot fun y => { y with owner := some p }) := by simp [takeSlot, hx, ho]
  simp only [rmaWrite, ht, hx, hr, hc, taken, modSlot, modAt, Dev.modFolds, List.modify_modify_eq, Option.isSome_none, Bool.false_eq_true,
    if_false]
  rfl

/-- A write to RMA_CMD that its slot can take runs the command as far as it goes. -/
theorem SlotReady.command_eq : command p (slotBase slot) (rmaWrite p op slot f) d =
    answer (settleFully (taken d p slot op f)) p (slotBase slot) true .done 0 0 := by
  obtain ⟨hpresent, hopen⟩ := h.1
  rw [command_open hpresent hopen, h.rmaWrite_eq]
  rfl

end

theorem exec_rmaInstr {op : RmaOp} (h : op ≠ .format) (p : Principal) (slot f : Nat) (s : State) :
    exec (rmaInstr op p slot f) s = onDev (command p (slotBase slot) (rmaWrite p op slot f)) s := by
  cases op with
  | format => exact absurd rfl h
  | _ => rfl

theorem runs_rmaInstr {s : State} {op : RmaOp} {p : Principal} {slot f : Nat} {e : Dev} {X : Dev → Prop} (h : op ≠ .format)
    (hs : SlotReady s.dev p slot) (he : settleFully (taken s.dev p slot op f) = e) (k : X (answer e p (slotBase slot) true .done 0 0)) :
    Runs (rmaInstr op p slot f) s X := by
  refine ⟨_, (exec_rmaInstr h p slot f s).trans (onDev_eq _ s), ?_⟩
  rw [hs.command_eq, he]
  exact k

/-! ## The statements -/

/-- Settles O15: the pump carries an admitted command to its end in one turn. -/
theorem regionTableCommandsRun : Obligations.RegionTableCommandsRun := by
  intro s p slot f op P Q hf hd hs c t hst hQ hw hr hP
  have h : Admitted t c P Q := ⟨hs.taken_noneDue op f, hst, hQ, hw, hr, hP⟩
  obtain ⟨x, hx, -⟩ := hs.taken_slot op f
  obtain ⟨fs, n, hfin⟩ := h.finished_folds (slot := slot)
  have hslot := h.finished_slot hx
  refine runs_rmaInstr hf hs (h.settleFully_finished (hs.taken_waits op f) (hs.taken_queue op f) hf hd) ?_
  refine ⟨⟨_, hslot, rfl, rfl, rfl⟩, ?_, ?_, ?_, ?_, ?_, ?_, ?_, fun w hQw hop => ⟨_, hslot, ?_⟩, fun w hQw hop => ⟨_, hslot, ?_⟩⟩
  · rw [answer_folds, hfin]
  · rw [answer_folds, hfin]
  · rw [answer_folds, hfin]
  · rw [answer_folds, hfin]
  · rw [answer_mem, h.finished_mem]
    rfl
  · rw [answer_folds, hfin]
  · rw [answer_folds, hfin]
    exact h.kept_waits.trans (hs.taken_waits op f)
  · have hc : c.op = .createRegion := hop
    simp [slotArg, slotDone, withHandle, hc, hQw, getKey_putKey]
  · have hc : c.op = .grant := hop
    simp [slotArg, slotDone, withHandle, hc, hQw, getKey_putKey]

/-- Why a command ends at its turn without a change: the tables refuse it, or the unit does not serve or refuses mutation (R73, R74). -/
def Refuses (d : Dev) (c : RmaCmd) (r : RmaResult) : Prop :=
  ((serving d && !d.twin.refusing) = true ∧ planOf d (nextStamp d.twin) c = .error r) ∨
  ((serving d && !d.twin.refusing) = false ∧ r = .badState)

theorem Refuses.tryRma_eq {d : Dev} {c : RmaCmd} {r : RmaResult} (h : Refuses d c r) (slot : Nat) :
    tryRma d slot c = some (endSlot d slot r) := by
  unfold tryRma
  rcases h with ⟨hs, hp⟩ | ⟨hs, rfl⟩
  · rw [if_neg (by simpa using hs), hp]
  · rw [if_pos (by rw [← Bool.not_eq_false', ← hs]; simp)]

theorem Refuses.settleFully_eq {d : Dev} {slot : Nat} {c : RmaCmd} {r : RmaResult} (h : Refuses d c r) (hn : d.twin.ctrlDue = [])
    (hw : d.folds.waits = none) (hq : d.folds.queue = [(slot, c)]) (hf : c.op ≠ .format) :
    settleFully d = dequeued (endSlot d slot r) := by
  refine settleFully_of_pump hn ?_ rfl
  rw [rmaPump_head hw hq hf (h.tryRma_eq slot)]
  exact rmaPump_idle (d := dequeued (endSlot d slot r)) hw rfl _

/-- Settles O16: a refused command ends its slot and changes nothing else. -/
theorem regionTableCommandsRefused : Obligations.RegionTableCommandsRefused := by
  intro s p slot f op r hf hs c t hr
  obtain ⟨x, hx, -⟩ := hs.taken_slot op f
  have he := Refuses.settleFully_eq hr (hs.taken_noneDue op f) (hs.taken_waits op f) (hs.taken_queue op f) hf
  refine runs_rmaInstr hf hs he ⟨?_, ?_⟩
  · exact (slotEnded_endSlot hx r).of_slots rfl
  · simp only [answer, dequeued, endSlot, modSlot, t, taken, Dev.modFolds, and_self]

/-- While a DESTROY_FOLD waits, the device differs from the one its plan makes in the book-keeping of the command and of the leaves. -/
theorem draining_eq (d : Dev) (slot : Nat) (c : RmaCmd) (P Q : Plan) : ∃ sl w x y, draining d slot c P Q =
    { P.make (nextStamp d.twin) with
      folds := { (P.make (nextStamp d.twin)).folds with slots := sl, waits := w, queue := [] },
      twin := { (P.make (nextStamp d.twin)).twin with diverge := x, leafStamps := y } } := by
  unfold draining carried planMade
  generalize P.make (nextStamp d.twin) = e
  simp only [dequeued, modSlot, noteLeaves, Dev.modFolds, Dev.modTwin]
  exact ⟨_, _, _, _, rfl⟩

theorem genBusy_draining (d : Dev) (slot : Nat) (c : RmaCmd) (P Q : Plan) (f : Nat) :
    genBusy (draining d slot c P Q) f = genBusy (P.make (nextStamp d.twin)) f := by
  obtain ⟨sl, w, x, y, h⟩ := draining_eq d slot c P Q
  rw [h]
  rfl

theorem ctrlReady_draining (d : Dev) (slot : Nat) (c : RmaCmd) (P Q : Plan) (f : Nat) :
    ctrlReady (draining d slot c P Q) (.rmaDrained f) = ctrlReady (P.make (nextStamp d.twin)) (.rmaDrained f) := by
  obtain ⟨sl, w, x, y, h⟩ := draining_eq d slot c P Q
  rw [h]
  rfl

theorem readFold_draining (d : Dev) (slot : Nat) (c : RmaCmd) (P Q : Plan) (f : Nat) :
    readFold (draining d slot c P Q).mem (foldPa (draining d slot c P Q).folds f) =
      readFold (P.make (nextStamp d.twin)).mem (foldPa (P.make (nextStamp d.twin)).folds f) := by
  obtain ⟨sl, w, x, y, h⟩ := draining_eq d slot c P Q
  rw [h]
  rfl

/-- Settles O18: the pump makes the plan, and then the command waits while its fold is busy or ends the fold at once. -/
theorem destroyFoldRuns : Obligations.DestroyFoldRuns := by
  intro s p slot f P Q hs c t e hst hQ hw hr hP
  have h : Admitted t c P Q := ⟨hs.taken_noneDue _ f, hst, hQ, hw, hr, hP⟩
  have hop : c.op = .destroyFold := rfl
  have hd : planDestroyFold (stampedRma t c) c.fold = .ok P := by simpa only [tablePlan, hop] using tablePlan_of_planOf hP
  obtain ⟨hstaged, hring⟩ := planDestroyFold_drops hd
  obtain ⟨x, hx, -⟩ := hs.taken_slot .destroyFold f
  obtain ⟨fs, n, hdr⟩ := h.draining_folds (slot := slot)
  have hwait : (draining t slot c P Q).folds.waits = some { slot := slot, cmd := c, step := 4 } := by rw [hdr]
  have hpump := h.pump_draining (hs.taken_waits _ f) (hs.taken_queue _ f) hop
  refine ⟨fun g hg => dropStaged_staged (hstaged ▸ hg), hring, fun hb => ?_, fun hb hready => ?_⟩
  · have he : settleFully t = draining t slot c P Q := by
      refine settleFully_of_pump h.noneDue ?_ rfl
      rw [hpump]
      exact rmaPump_busy hwait (by simp [hop]) ((genBusy_draining _ _ _ _ _ _).trans hb) _
    refine runs_rmaInstr (by simp) hs he ⟨?_, ?_, ?_, rfl⟩
    · rw [answer_folds, hwait]
    · rw [answer_folds, hdr]
    · rw [answer_mem, h.draining_mem]
      rfl
  · have he : settleFully t = drainEnded (draining t slot c P Q) { slot := slot, cmd := c, step := 4 } := by
      refine settleFully_of_pump h.noneDue ?_ (drainEnded_queue _ _)
      rw [hpump, hs.taken_queue]
      exact rmaPump_drained hwait (by simp [hop]) ((genBusy_draining _ _ _ _ _ _).trans hb)
        ((ctrlReady_draining _ _ _ _ _ _).trans hready) rfl _
    have hslot : (draining t slot c P Q).folds.slots[slot]? = some (withHandle c Q.handle x) := by
      rw [hdr, List.getElem?_modify_eq, hx]
      rfl
    refine runs_rmaInstr (by simp) hs he ⟨?_, ?_, ?_, ?_, fun hdying => ?_⟩
    · exact (slotEnded_drainEnded (w := { slot := slot, cmd := c, step := 4 }) hslot).of_slots rfl
    · rw [answer_folds, drainEnded_waits]
    · rw [answer_folds, drainEnded_queue]
      rfl
    · rw [answer_folds, drainEnded_staged, hdr]
    · rw [answer_folds]
      exact drainEnded_live (w := { slot := slot, cmd := c, step := 4 }) ((readFold_draining t slot c P Q f).symm ▸ hdying)

/-! ## Drains that have run out -/

theorem runs_commitDrainDone {s : State} {f : Nat} {X : Dev → Prop} (hh : rmaHeads s.dev .commit f = true) (k : X (settleFully s.dev)) :
    Runs (.commitDrainDone f) s X :=
  by
  refine ⟨_, rfl, ?_⟩
  dsimp only
  rwa [if_pos hh]

theorem runs_destroyFoldDrainDone {s : State} {f : Nat} {X : Dev → Prop} (hh : rmaHeads s.dev .destroyFold f = true)
    (k : X (settleFully s.dev)) : Runs (.destroyFoldDrainDone f) s X :=
  by
  refine ⟨_, rfl, ?_⟩
  dsimp only
  rwa [if_pos hh]

/-- The drains of a live fold end: nothing else waits or dies with them (R76). -/
theorem drainedCtrl_released {d : Dev} {f : Nat} (h : (readFold d.mem (foldPa d.folds f)).state ≠ 2) :
    (drainedCtrl d f).twin.ctrlDue = d.twin.ctrlDue ∧ (drainedCtrl d f).folds.live = d.folds.live ∧
      (drainedCtrl d f).folds.drains = d.folds.drains.filter fun x => x.fold ≠ f := by
  have hl : ¬ (readFold (stampCtrl d (.rmaDrained f)).2.mem (foldPa (stampCtrl d (.rmaDrained f)).2.folds f)).state = 2 := by
    rwa [stampCtrl_mem, stampCtrl_folds]
  unfold drainedCtrl applyDrained
  rw [if_neg hl, noteLeaves_folds, noteLeaves_ctrlDue, releaseGens_ctrlDue, releaseGens_live, releaseGens_drains, stampCtrl_folds,
    stampCtrl_ctrlDue]
  exact ⟨rfl, rfl, rfl⟩

/-- The drains of a live fold may end: none of its past generations is carried, and the record of their end can be sent (R76). -/
structure Drains (d : Dev) (f : Nat) : Prop where
  noneDue : d.twin.ctrlDue = []
  serves : serving d = true
  queue : d.folds.queue = []
  waits : d.folds.waits = none
  ready : ctrlReady d (.rmaDrained f) = true
  some_drain : ∃ x ∈ d.folds.drains, x.fold = f
  unused : ∀ x ∈ d.folds.drains, x.fold = f → genInUse d f x.gen = false
  lives : (readFold d.mem (foldPa d.folds f)).state ≠ 2

theorem Drains.genDrained_eq {d : Dev} {f : Nat} (h : Drains d f) : genDrained f d = drainedCtrl d f := by
  have hmine : (d.folds.drains.filter fun x => x.fold = f).isEmpty = false := by
    obtain ⟨x, hx, hf⟩ := h.some_drain
    exact List.isEmpty_eq_false_iff.2 (List.ne_nil_of_mem (List.mem_filter.2 ⟨hx, by simpa using hf⟩))
  have huse : (d.folds.drains.filter fun x => x.fold = f).any (fun x => genInUse d f x.gen) = false := by
    simpa [List.any_eq_false] using h.unused
  have hidle : settleFully (drainedCtrl d f) = drainedCtrl d f := by
    obtain ⟨kw, -, kq, -⟩ := drainedCtrl_work d f
    obtain ⟨kd, -, -⟩ := drainedCtrl_released h.lives
    exact settleFully_idle (kd.trans h.noneDue) (kq.trans h.queue) (kw.trans h.waits)
  unfold genDrained
  simp only [hmine, huse, h.serves, h.ready, h.lives, decide_false, Bool.false_and, Bool.not_false, Bool.or_false, Bool.true_or, Bool.and_self,
    if_true]
  exact hidle

/-- Settles O20: the pump goes on with the command that waited, and the drains of a live fold end by their own record. -/
theorem drainsLetCommandsGoOn : Obligations.DrainsLetCommandsGoOn := by
  intro s f hn hst
  refine ⟨fun slot x c P Q hx hw hq hop hc hQ hbusy hroom hP => ?_, fun w x hx hw hop hc hq hb hr hdying => ?_,
    fun hq hw hr hx hg hl => ?_⟩
  · have h : Admitted s.dev c P Q := ⟨hn, hst, hQ, by simpa only [waitsFor, hop, hc] using hbusy, hroom, hP⟩
    obtain ⟨fs, n, hfin⟩ := h.finished_folds (slot := slot)
    refine runs_commitDrainDone (by simp [rmaHeads, hw, hq, hop, hc]) ?_
    rw [h.settleFully_finished hw hq (by simp [hop]) (by simp [hop])]
    refine ⟨⟨_, h.finished_slot hx, rfl, rfl, rfl⟩, rfl, ?_, h.finished_mem⟩
    rw [hfin]
  · subst hc
    have he : settleFully s.dev = drainEnded s.dev w :=
      settleFully_of_pump hn (rmaPump_drained hw (by simp [hop]) hb hr hq _) ((drainEnded_queue _ _).trans hq)
    refine runs_destroyFoldDrainDone (by simp [rmaHeads, hw, hop]) ?_
    rw [he]
    exact ⟨slotEnded_drainEnded hx, drainEnded_waits _ _, drainEnded_live hdying, drainEnded_staged _ _⟩
  · obtain ⟨-, hslots, -, hstaged⟩ := drainedCtrl_work s.dev f
    obtain ⟨-, hlive, hdrains⟩ := drainedCtrl_released hl
    refine ⟨_, rfl, ?_⟩
    rw [Drains.genDrained_eq ⟨hn, (serves_of_canStamp hst).1, hq, hw, hr, hx, hg, hl⟩]
    exact ⟨hdrains, hlive, hstaged, hslots⟩

end Sys2Proof.Machine
end

section
/-! SUPPORT. FORMAT (R74): the turn that a FORMAT takes at the head of the queue, the layout it makes, what the write-through of its lines
leaves as it was, and the statement about it. -/
namespace Sys2Proof.Machine

/-! ## Its turn -/

theorem rmaPump_format {d : Dev} {slot : Nat} {c : RmaCmd} (hw : d.folds.waits = none) (hq : d.folds.queue = [(slot, c)])
    (hc : c.op = .format) (n : Nat) : rmaPump n d = d := by
  cases n with
  | zero => rfl
  | succ n => simp [rmaPump, hw, hq, hc]

/-- A FORMAT whose lines do not stand in flash yet goes on waiting. -/
theorem rmaPump_notHeld {d : Dev} {w : RmaWait} (hw : d.folds.waits = some w) (hc : w.cmd.op = .format) (hh : formatHeld d = false)
    (n : Nat) : rmaPump n d = d := by
  cases n with
  | zero => rfl
  | succ n => simp [rmaPump, hw, hc, hh]

theorem settleFully_format {d e : Dev} {slot : Nat} {c : RmaCmd} (hn : d.twin.ctrlDue = []) (hw : d.folds.waits = none)
    (hq : d.folds.queue = [(slot, c)]) (hc : c.op = .format) (ht : formatTurn d = e) (he : settle e = e) (heq : e.folds.queue = []) :
    settleFully d = e := by
  have hd : settle d = d := (settle_of_noneDue hn).trans (rmaPump_format hw hq hc _)
  have hdue : formatDue d = true := by simp [formatDue, hw, hq, hc]
  have hdue' : formatDue e = false := by simp [formatDue, heq]
  simp [settleFully, settleAll, hq, hd, hdue, ht, he, hdue']

/-! ## The layout -/

theorem leavePair_folds (d : Dev) : (leavePair d).folds = d.folds := by
  unfold leavePair
  split <;> rfl

theorem leavePair_ctrlDue (d : Dev) : (leavePair d).twin.ctrlDue = d.twin.ctrlDue := by
  unfold leavePair
  split <;> rfl

theorem refuseAtLimit_folds (d : Dev) : (refuseAtLimit d).folds = d.folds := by
  obtain ⟨_, _, _, _, _, _, _, _, _, h⟩ := refuseAtLimit_stamp d
  rw [h]

theorem refuseAtLimit_ctrlDue (d : Dev) : (refuseAtLimit d).twin.ctrlDue = d.twin.ctrlDue := by
  obtain ⟨⟨-, -, -, h, -⟩, -⟩ := refuseAtLimit_role d
  exact h

theorem quietConns_folds (d : Dev) : (quietConns d).folds = d.folds := rfl

theorem quietConns_twin (d : Dev) : (quietConns d).twin = d.twin := rfl

theorem enterState_folds (d : Dev) (st : TwinState) : (enterState d st).folds = d.folds := by
  unfold enterState
  dsimp only
  split
  · rfl
  · simp only [raiseOp_folds, Dev.modRst_folds, Dev.modTwin_folds]
    split
    · exact quietConns_folds d
    · rfl

theorem enterState_ctrlDue (d : Dev) (st : TwinState) : (enterState d st).twin.ctrlDue = d.twin.ctrlDue := by
  unfold enterState
  dsimp only
  split
  · rfl
  · simp only [raiseOp_twin, Dev.modRst_twin, Dev.modTwin_twin]
    split
    · rw [quietConns_twin]
    · rfl

theorem startServing_alone (d : Dev) :
    (startServing d .unpaired none).folds = d.folds ∧ (startServing d .unpaired none).twin.ctrlDue = d.twin.ctrlDue := by
  simp only [startServing, refuseAtLimit_folds, refuseAtLimit_ctrlDue, enterState_folds, enterState_ctrlDue, Dev.modTwin_folds,
    Dev.modTwin_twin, Dev.modNet_folds, Dev.modNet_twin, reduceCtorEq, if_false, leavePair_folds, leavePair_ctrlDue, and_self]

theorem serveAlone_keeps (d : Dev) : (serveAlone d).folds = d.folds ∧ (serveAlone d).twin.ctrlDue = d.twin.ctrlDue := by
  unfold serveAlone
  split
  · exact startServing_alone d
  · exact ⟨rfl, rfl⟩

@[simp] theorem noteSlots_folds (old d : Dev) : (noteSlots old d).folds = d.folds := by
  obtain ⟨r, h⟩ := noteSlots_ring old d
  rw [h]
  rfl

theorem makeKeys_folds (d : Dev) : (makeKeys d).folds = d.folds := by
  unfold makeKeys
  split <;> rfl

theorem formatFtl_folds (d : Dev) (n : Nat) : (formatFtl d n).folds = d.folds := rfl

theorem markDirty_folds (d : Dev) : (markDirty d).folds = d.folds := by
  unfold markDirty
  split <;> rfl

/-- What FORMAT makes of the space (R74): fold 0 alone is live, nothing waits, the command slots are kept, and the record of fold 0 is all
that the memory holds. -/
structure LaidOut (d : Dev) (rta : Nat) (a : Dev) : Prop where
  formatted : a.folds.formatted = true
  live : a.folds.live = [0]
  staged : a.folds.staged = []
  waits : a.folds.waits = none
  rta : a.folds.rta = rta * 67108864
  slots : a.folds.slots = d.folds.slots
  queue : a.folds.queue = d.folds.queue
  noneDue : a.twin.ctrlDue = []
  mem : a.mem = writeBytes [] (rtaBase a.folds) (foldBytes newFold)

theorem format_laidOut {d a : Dev} {rta : Nat} (h : format d rta = .ok a) : LaidOut d rta a := by
  rw [format] at h
  have h0 : (if d.ftl.rawFmt = 0 then d.modFtl fun f => { f with retired := d.env.badBlocks } else d).folds = d.folds := by
    split <;> rfl
  generalize (if d.ftl.rawFmt = 0 then d.modFtl fun f => { f with retired := d.env.badBlocks } else d) = d0 at h h0
  split at h
  · cases h
  · split at h
    · cases h
    · have hfolds : a.folds = { Folds.reset with
          formatted := true, s := sizeNow d0, rta := rta * 67108864,
          rtaUsed := [(sizeNow d0 - ctlSize - rta * 67108864, 4194304)], live := [0],
          slots := d.folds.slots, queue := d.folds.queue } := by
        rw [← Except.ok.inj h, (serveAlone_keeps _).1]
        simp only [cfgChanged, Dev.modTwin_folds, Dev.modEvt_folds, Dev.modSec_folds, noteSlots_folds, Dev.modDur_folds, Dev.modNet_folds,
          Dev.modFolds_folds, makeKeys_folds, markDirty_folds, formatFtl_folds, h0]
      have hdue : a.twin.ctrlDue = [] := by
        rw [← Except.ok.inj h, (serveAlone_keeps _).2]
        simp only [cfgChanged, Dev.modTwin_twin]
      have hmem : a.mem = writeBytes [] (rtaBase a.folds) (foldBytes newFold) := by
        rw [hfolds, ← Except.ok.inj h, serveAlone_mem, cfgChanged_mem, Dev.modTwin_mem, Dev.modEvt_mem, Dev.modSec_mem, noteSlots_mem,
          Dev.modDur_mem, Dev.modNet_mem]
        dsimp only [rtaBase, ctlBase, newFold]
      exact
        { formatted := by rw [hfolds], live := by rw [hfolds], rta := by rw [hfolds], slots := by rw [hfolds], queue := by rw [hfolds],
          staged := by rw [hfolds]; rfl, waits := by rw [hfolds]; rfl, noneDue := hdue, mem := hmem }

/-! ## Its lines -/

theorem programEnd_keeps (d : Dev) (p : Prog) : (programEnd d p).folds = d.folds ∧ (programEnd d p).twin = d.twin := by
  unfold programEnd landLeaves
  simp only [Dev.modDur_folds, Dev.modFtl_folds, Dev.modDur_twin, Dev.modFtl_twin, and_self]

theorem foldl_programEnd_keeps (l : List Prog) (d : Dev) :
    (l.foldl programEnd d).folds = d.folds ∧ (l.foldl programEnd d).twin = d.twin := by
  induction l generalizing d with
  | nil => exact ⟨rfl, rfl⟩
  | cons p t ih =>
    obtain ⟨hf, ht⟩ := ih (programEnd d p)
    obtain ⟨hpf, hpt⟩ := programEnd_keeps d p
    rw [List.foldl_cons, hf, ht, hpf, hpt]
    exact ⟨rfl, rfl⟩

theorem writeThrough_keeps (d : Dev) (ls : List Nat) : (writeThrough d ls).folds = d.folds ∧ (writeThrough d ls).twin = d.twin := by
  unfold writeThrough
  dsimp only
  split
  · exact ⟨rfl, rfl⟩
  · split
    · exact foldl_programEnd_keeps _ _
    · exact ⟨rfl, rfl⟩

/-- The device of a FORMAT with its leaves written through. -/
def formatWritten (a : Dev) : Dev := writeThrough a (addNums [rtaBase a.folds / 4096] ((controlAll a).map (itemLeaf a)))

theorem formatWritten_keeps (a : Dev) : (formatWritten a).folds = a.folds ∧ (formatWritten a).twin = a.twin := writeThrough_keeps a _

theorem LaidOut.written {d a : Dev} {rta : Nat} (h : LaidOut d rta a) : LaidOut d rta (formatWritten a) := by
  obtain ⟨hf, ht⟩ := formatWritten_keeps a
  exact
    { formatted := hf ▸ h.formatted, live := hf ▸ h.live, staged := hf ▸ h.staged, waits := hf ▸ h.waits, rta := hf ▸ h.rta,
      slots := hf ▸ h.slots, queue := hf ▸ h.queue, noneDue := ht ▸ h.noneDue,
      mem := by rw [formatWritten, writeThrough_mem, ← formatWritten, hf, h.mem] }

/-! ## The outcomes of a turn -/

/-- The end of a FORMAT whose leaves have been written through: at once where its lines stand in flash, and else it waits. -/
def formatEnd (w : Dev) (slot : Nat) (c : RmaCmd) : Dev :=
  if formatHeld w then endSlot w slot .done else w.modFolds fun f => { f with waits := some { slot := slot, cmd := c, step := 1 } }

section
variable {d : Dev} {slot : Nat} {c : RmaCmd} {x : Slot} (hw : d.folds.waits = none) (hq : d.folds.queue = [(slot, c)])
  (hc : c.op = .format) (hx : d.folds.slots[slot]? = some x)
include hw hq hc hx

theorem formatTurn_ok {a : Dev} (ho : x.owner = some .i3c) (ha : format (dequeued d) c.rta = .ok a) :
    formatTurn d = formatEnd (formatWritten a) slot c := by
  have hi : ((dequeued d).folds.slots[slot]?.any fun y => y.owner = some .i3c) = true := by simp [dequeued, hx, ho]
  unfold formatTurn
  simp only [hw, hq, hc, ← dequeued.eq_1, hi, ha, if_true]
  rfl

/-- FORMAT ends without a change: a slot that I3C owns is refused by the state or the argument, any other by R74. -/
theorem formatTurn_error {r : RmaResult}
    (hr : (x.owner = some .i3c ∧ format (dequeued d) c.rta = .error r) ∨ (x.owner ≠ some .i3c ∧ r = .badState)) :
    formatTurn d = endSlot (dequeued d) slot r := by
  have hi : ((dequeued d).folds.slots[slot]?.any fun y => y.owner = some .i3c) = decide (x.owner = some .i3c) := by simp [dequeued, hx]
  unfold formatTurn
  rcases hr with ⟨ho, hr⟩ | ⟨ho, rfl⟩
  · simp only [hw, hq, hc, ← dequeued.eq_1, hi, ho, hr, decide_true, if_true]
  · simp only [hw, hq, hc, ← dequeued.eq_1, hi, ho, decide_false, if_true, Bool.false_eq_true, if_false]

end

theorem runs_format {s : State} {p : Principal} {slot : Nat} {e : Dev} {X : Dev → Prop} (hs : SlotReady s.dev p slot)
    (he : settleFully (taken s.dev p slot .format 0) = e) (k : X (answer e p (slotBase slot) true .done 0 0)) :
    Runs (.format p slot) s X := by
  refine ⟨_, onDev_eq (command p (slotBase slot) (rmaWrite p .format slot 0)) s, ?_⟩
  rw [hs.command_eq, he]
  exact k

/-- Settles O19: FORMAT takes its turn at once, and its layout stands whether or not its lines stand in flash yet. -/
theorem formatLaysOutTheSpace : Obligations.FormatLaysOutTheSpace := by
  intro s slot p hs c t
  obtain ⟨x, hx, ho, hrun, hend⟩ := hs.taken_slot .format 0
  have hn := hs.taken_noneDue .format 0
  have hw := hs.taken_waits .format 0
  have hq := hs.taken_queue .format 0
  refine ⟨fun a hp ha => ?_, fun r hr => ?_⟩
  · intro w
    have hl : LaidOut t c.rta w := (format_laidOut ha).written
    have hturn : formatTurn (taken s.dev p slot .format 0) = formatEnd w slot c :=
      formatTurn_ok hw hq rfl hx (ho.trans (congrArg some hp)) ha
    clear_value w
    have hslot : w.folds.slots[slot]? = some x := by
      rw [hl.slots]
      exact hx
    by_cases hh : formatHeld w = true
    · rw [formatEnd, if_pos hh] at hturn
      have hidle : settle (endSlot w slot .done) = endSlot w slot .done := settle_idle hl.noneDue hl.queue hl.waits
      refine runs_format hs (settleFully_format hn hw hq rfl hturn hidle hl.queue) ⟨fun _ => ⟨?_, hl.waits⟩, fun hf => ?_, hl.formatted,
        hl.live, hl.staged, hl.queue, hl.rta, hl.mem⟩
      · exact (slotEnded_endSlot hslot .done).of_slots rfl
      · exact absurd hh (by simp [hf])
    · rw [formatEnd, if_neg hh] at hturn
      have hf : formatHeld w = false := by simpa using hh
      refine runs_format hs (settleFully_format hn hw hq rfl hturn ?_ hl.queue) ⟨fun ht => absurd ht hh,
        fun _ => ⟨rfl, x, hslot, hrun, hend⟩, hl.formatted, hl.live, hl.staged, hl.queue, hl.rta, hl.mem⟩
      refine (settle_of_noneDue ?_).trans (rmaPump_notHeld (w := { slot := slot, cmd := c, step := 1 }) ?_ rfl ?_ _)
      · exact hl.noneDue
      · rfl
      · exact hf
  · have hturn : formatTurn (taken s.dev p slot .format 0) = endSlot t slot r := by
      refine formatTurn_error hw hq rfl hx ?_
      rw [ho]
      exact hr.imp (fun ⟨hp, hr⟩ => ⟨congrArg some hp, hr⟩) (fun ⟨hp, hr⟩ => ⟨fun h => hp (Option.some.inj h), hr⟩)
    have hidle : settle (endSlot t slot r) = endSlot t slot r := settle_idle hn rfl hw
    refine runs_format hs (settleFully_format hn hw hq rfl hturn hidle rfl) ⟨?_, ?_⟩
    · exact (slotEnded_endSlot hx r).of_slots rfl
    · simp only [answer, endSlot, modSlot, t, taken, Dev.modFolds, and_self]

end Sys2Proof.Machine
end

section
/-! SUPPORT. The network mode register, the ports and what their landings turn away (R81, R84, R106, R107, R243), with the statements
about them. -/
namespace Sys2Proof.Machine

/-- A command whose meaning is an effect on the device completes with what the effect makes of it. -/
theorem becomes_of {c : Instr} {s : State} {f : Dev → Dev} {d : Dev} (hx : exec c s = onDev f s) (hd : f s.dev = d) : Becomes c s d := by
  subst hd
  exact hx

/-! ## GLB_ETH_MODE -/

theorem ethMode_held {d : Dev} {q : Nat} (hq : q < 16) (h : (reg d (ethBase q)).getLsbD 31 = true) (v : Word) :
    ethMode v d = (d, 0) :=
  if_pos (List.any_eq_true.2 ⟨q, List.mem_range.2 hq, h⟩)

theorem ethMode_free {d : Dev} (h : ∀ q < 16, (reg d (ethBase q)).getLsbD 31 = false) (v : Word) :
    ethMode v d = (setReg d 0x40 (v &&& 3), 0) :=
  if_neg (by simpa using h)

theorem runs_glbEthModeWrite {s : State} {p : Principal} {v : Word} {e : Dev} {P : Dev → Prop} (ho : Open s.dev p 0x40)
    (he : ethMode v s.dev = (e, 0)) (h : P (answer e p 0x40 true .done 0 0)) : Runs (.glbEthModeWrite p v) s P :=
  ⟨_, rfl, by rw [command_open ho.1 ho.2, he]; exact h⟩

/-- Settles O12: one enabled port holds the register; with none the two mode bits are stored. -/
theorem ethModeWrite : Obligations.EthModeWrite := by
  refine ⟨by decide, fun s p v ho => ?_⟩
  by_cases hen : ∃ q < 16, (reg s.dev (ethBase q)).getLsbD 31 = true
  · obtain ⟨q, hq, h31⟩ := hen
    refine runs_glbEthModeWrite ho (ethMode_held hq h31 v) ⟨fun _ => rfl, fun hoff => ?_, fun _ _ => rfl, rfl, rfl, rfl⟩
    exact absurd h31 (Bool.eq_false_iff.1 (hoff q hq))
  · refine runs_glbEthModeWrite ho (ethMode_free (by simpa using hen) v)
      ⟨fun h => absurd h hen, fun _ => ?_, fun a ha => ?_, rfl, rfl, rfl⟩
    · simp
    · simp [ha.symm]

/-! ## Ports -/

theorem modAt_self {α : Type} {l : List α} {i : Nat} {x : α} (h : l[i]? = some x) (f : α → α) : (modAt l i f)[i]? = some (f x) := by
  simp [modAt, h]

theorem modAt_other {α : Type} {i j : Nat} (h : j ≠ i) (l : List α) (f : α → α) : (modAt l i f)[j]? = l[j]? := by
  simp [modAt, h.symm]

theorem mem_resolve (l : List (BitVec 128 × BitVec 48)) (ip : BitVec 128) (mac : BitVec 48) :
    (ip, mac) ∈ (l.filter fun r => r.1 ≠ ip) ++ [(ip, mac)] := by simp

/-- What is sent to an IPv6 address on the link whose hop is kept calls for no request (R84). -/
theorem askHop_resolve {d : Dev} {p : Nat} {x : Port} {ip : BitVec 128} (hx : d.net.ports[p]? = some x)
    (h6 : ip >>> (32 : Nat) ≠ 0xFFFF) (hl : onLink6 d p ip = true) (mac : BitVec 48) : askHop (resolve p ip mac d) p ip = [] := by
  have hp : (resolve p ip mac d).net.ports[p]? = some _ := modAt_self hx _
  have hl' : onLink6 (resolve p ip mac d) p ip = true := hl
  rw [askHop, if_neg h6]
  simp [hl', hp]

/-- A request for the port's own address is answered (R84, R553). -/
theorem becomes_arpRequest {s : State} {p : Nat} {ip : BitVec 32} (hl : linked s.dev p = true) (h4 : v4On s.dev p = true)
    (hip : ip = ip4Of s.dev p) (mac : BitVec 48) : Becomes (.arpRequest p ip mac) s (emit s.dev (.arpReply p ip mac)) :=
  becomes_of rfl (if_pos (by simp [hl, h4, hip]))

theorem becomes_neighborSolicitation {s : State} {p : Nat} {ip : BitVec 128} (hl : linked s.dev p = true) (h6 : v6On s.dev p = true)
    (hip : ip = ip6Of s.dev p) (mac : BitVec 48) :
    Becomes (.neighborSolicitation p ip mac) s (emit s.dev (.neighborAdv p ip (some mac))) := by
  change execNeighborSolicitation p ip mac s = _
  simp [execNeighborSolicitation, hl, h6, hip]

/-- Settles O24: each command's guard is the clause's hypothesis, and what it does then is one reply or one entry of the port. -/
theorem addressResolution : Obligations.AddressResolution := by
  intro s p mac hl
  refine ⟨fun h4 => becomes_arpRequest hl h4 rfl mac, fun h6 => becomes_neighborSolicitation hl h6 rfl mac,
    fun ip x h4 hx hip => ?_, fun ip x h6 hx hip => ?_⟩
  · refine ⟨resolve p (mapped4 ip) mac s.dev, ?_, ⟨_, modAt_self hx _, mem_resolve _ _ _, rfl⟩, rfl, rfl⟩
    exact becomes_of rfl (if_pos (by simp [hl, h4, hip]))
  · refine ⟨resolve p ip mac s.dev, ?_, ⟨_, modAt_self hx _, mem_resolve _ _ _, rfl⟩, rfl, rfl, fun hn ho => askHop_resolve hx hn ho mac⟩
    exact becomes_of rfl (if_pos (by simp [hl, h6, hip]))

/-- A path that goes down and the frames that move from it leave the ports as they are. -/
theorem markDown_ports (d : Dev) (n path : Nat) : (markDown d n path).net.ports = d.net.ports := by
  unfold markDown
  repeat' split
  all_goals first | rfl | exact ports_keeps.raiseFolds _ _ _ _ _

theorem takeOver_ports (d : Dev) (n path : Nat) : (takeOver d n path).net.ports = d.net.ports := by
  unfold takeOver movePath
  repeat' split
  all_goals first | rfl | exact modConn_keeps (g := fun d => d.net.ports) (fun _ _ _ => rfl) _ _ _

theorem markDown_folds (d : Dev) (n path : Nat) : (markDown d n path).folds = d.folds := by
  unfold markDown
  repeat' split
  all_goals first | rfl | simp [setConn]

theorem takeOver_folds (d : Dev) (n path : Nat) : (takeOver d n path).folds = d.folds := by
  unfold takeOver movePath
  repeat' split
  all_goals first | rfl | exact modConn_keeps (g := fun d => d.folds) (fun _ _ _ => rfl) _ _ _

theorem linkDown_ports {d : Dev} {p : Nat} (h : linked d p = true) :
    (linkDown p d).net.ports = modAt d.net.ports p fun x => { x with link := false, resolved := [] } := by
  rw [linkDown, if_neg (by simp [h])]
  refine (foldl_keeps (fun d => d.net.ports) _ (fun _ _ => takeOver_ports _ _ _) _ _).trans ?_
  exact (foldl_keeps (fun d => d.net.ports) _ (fun _ _ => markDown_ports _ _ _) _ _).trans (ports_keeps.raiseOp _ _ _ _)

theorem linkDown_folds {d : Dev} {p : Nat} (h : linked d p = true) : (linkDown p d).folds = d.folds := by
  rw [linkDown, if_neg (by simp [h])]
  refine (foldl_keeps (fun d => d.folds) _ (fun _ _ => takeOver_folds _ _ _) _ _).trans ?_
  exact (foldl_keeps (fun d => d.folds) _ (fun _ _ => markDown_folds _ _ _) _ _).trans (raiseOp_folds _ _ _ _)

/-- What a port announces as it comes up (R84). -/
def announced (d : Dev) (p : Nat) : List Out :=
  (if v6On d p then [.neighborAdv p (ip6Of d p) none] else []) ++ (if v4On d p then [.gratuitousArp p (ip4Of d p)] else [])

/-- The port has its link and has announced its addresses. -/
def cameUp (d : Dev) (p : Nat) : Dev :=
  { d with net := { d.net with ports := modAt d.net.ports p fun x => { x with link := true } }, sent := announced d p ++ d.sent }

theorem linkUp_of_may {d : Dev} {p : Nat} (hl : linked d p = false) (hm : mayLink d p = true) :
    linkUp p d = if d.rst.run = some (.port p) then
      raiseOp ((cameUp d p).modRst fun r => { r with run := none, result := .done }) 0x0C08 (.port p) [] else cameUp d p := by
  rw [linkUp, if_neg (by simp [hl, hm])]
  unfold cameUp announced
  by_cases h4 : v4On d p = true <;> by_cases h6 : v6On d p = true <;> simp only [h4, h6] <;> rfl

/-- The slave clock at the instant at which an exchange has set it (R243). -/
theorem ptpNow_delayResp {d : Dev} {t1 t3 : Nat} (h1 : d.twin.ptpT1 = some t1) (h3 : d.twin.ptpT3 = some t3) (t4 k : Nat) :
    ((ptpNow (ptpMessage (.delayResp t4) k d) : Nat) : Int) =
      ((d.clock : Int) - (((d.twin.ptpT2 : Int) - t1) - ((t4 : Int) - k - t3)) / 2) % 2 ^ 64 := by
  simp only [ptpNow, ptpMessage, h1, h3, Dev.modTwin_twin, Dev.modTwin_clock, Nat.sub_self, Nat.add_zero]
  omega

theorem becomes_ptpMessage {s : State} (hl : linked s.dev 16 = true) (m : PtpMsg) (k : Nat) :
    Becomes (.ptpMessage m k) s (ptpMessage m k s.dev) :=
  becomes_of rfl (if_pos hl)

/-- Settles O25: a port under its own commands, and the clock that an exchange sets. -/
theorem portsComeAndGo : Obligations.PortsComeAndGo := by
  intro s p x hx
  refine ⟨fun hl hm => ⟨linkUp p s.dev, rfl, ?_⟩,
    fun hl => ⟨linkDown p s.dev, rfl, ?_, fun q hq => ?_, linkDown_mem _ _, linkDown_folds hl⟩,
    fun hr => ⟨refillUcr p s.dev, rfl, ?_⟩, fun hl => ⟨fun o k => ?_, fun t1 t3 t4 k h1 h3 => ?_, fun k => ?_⟩⟩
  · rw [linkUp_of_may hl hm]
    have hp : (cameUp s.dev p).net.ports[p]? = some { x with link := true } := modAt_self hx _
    have hsent : (cameUp s.dev p).sent = announced s.dev p ++ s.dev.sent := rfl
    by_cases hrun : s.dev.rst.run = some (.port p)
    · rw [if_pos hrun]
      refine ⟨?_, by rw [raiseOp_mem]; rfl, by rw [raiseOp_folds]; rfl, fun _ => by simp, by rw [raiseOp_sent]; rfl⟩
      rw [ports_keeps.raiseOp]
      exact hp
    · rw [if_neg hrun]
      exact ⟨hp, rfl, rfl, fun h => absurd h hrun, hsent⟩
  · rw [linkDown_ports hl]
    exact modAt_self hx _
  · rw [linkDown_ports hl]
    exact modAt_other hq _ _
  · rw [refillUcr, if_neg hr]
    exact ⟨modAt_self hx _, fun q hq => modAt_other hq _ _, rfl⟩
  · refine ⟨_, becomes_ptpMessage hl _ k, ?_⟩
    cases o <;> exact ⟨rfl, rfl, rfl⟩
  · refine ⟨_, becomes_ptpMessage hl _ k, ?_, ?_, ptpNow_delayResp h1 h3 t4 k⟩ <;> simp only [ptpMessage, h1, h3] <;> rfl
  · exact ⟨_, becomes_ptpMessage hl _ k, rfl, rfl⟩

end Sys2Proof.Machine
end

section
/-! SUPPORT. What the checks of R106 make of a frame, finding by finding, with the statements about dropped frames and strangers. -/
namespace Sys2Proof.Machine

theorem reg_countPort (d : Dev) (p off a : Nat) :
    reg (countPort d p off) a = if ethBase p + off = a then satAdd (reg d a) 1 else reg d a := by
  unfold countPort
  rw [reg_bump]
  split
  case isTrue h => rw [h]
  case isFalse => rfl

theorem le_ethBase (p : Nat) : 0x300000 ≤ ethBase p := by
  unfold ethBase
  split <;> simp [blockBase]

/-- No event touches a register of a port. -/
theorem reg_raiseOp_eth (d : Dev) (p off code : Nat) (src : EvSource) (vs : List Nat) :
    reg (raiseOp d code src vs) (ethBase p + off) = reg d (ethBase p + off) :=
  (reg_keeps (by have := le_ethBase p; omega)).raiseOp d code src vs

/-! ## Frames that no connection takes -/

/-- The VLAN tag that a port asks for (R83). -/
def portTag (d : Dev) (p : Nat) : Option Nat :=
  if p < 16 && (reg d (ethBase p)).getLsbD 28 then some (wbits (reg d (ethBase p)) 23 12) else none

/-- The layers below the Fenhel header are those of a frame for this port (R82, R83, R85). -/
abbrev LayersOk (d : Dev) (f : RawFrame) : Prop :=
  f.vlan = portTag d f.port ∧ f.macCtl = false ∧ f.layerOk = true ∧ (v4On d f.port || v6On d f.port) = true

theorem dropFrame_linked {d : Dev} {f : RawFrame} (hl : linked d f.port = true) :
    dropFrame f d =
      if f.fcsOk = false then countPort d f.port 0x100
      else if 9216 < f.length then countPort d f.port 0x104
      else if ¬ LayersOk d f then countPort d f.port 0x108
      else if f.csumZeroOrOk = false then countPort d f.port 0x10C
      else if fenhelOk f.head f.udpLen = false then raiseOp (countPort d f.port 0x110) 0x0C04 (.port f.port) []
      else if nodeAccepted d (netField f.head 4 4 % 2 ^ 18) = false then raiseOp (countPort d f.port 0x114) 0x0C01 (.port f.port) []
      else d := by
  by_cases ht : f.port < 16 ∧ (reg d (ethBase f.port))[28] = true
  all_goals simp [dropFrame, LayersOk, portTag, malformed, hl, ht, imp_iff_not_or, or_assoc]

/-- A stranger's frame runs as a frame of the connection it names, or has no effect; either way no byte of memory changes. -/
theorem runs_strangerFrame_mem (s : State) (h : Hdr) : Runs (.strangerFrame h.port h.src h.stray) s fun e => e.mem = s.dev.mem := by
  refine ⟨_, rfl, ?_⟩
  dsimp only
  split
  · rfl
  · rfl
  · exact runFrame_mem _ _ _
  · exact runFrame_mem _ _ _

/-- Settles O22: the findings of `dropFrame` in their order. -/
theorem droppedFramesAreCounted : Obligations.DroppedFramesAreCounted := by
  intro s f hl cfg tagged fenhel
  refine ⟨fun h1 => becomes_of rfl ?_, fun h1 h2 => becomes_of rfl ?_, fun h1 h2 h3 => becomes_of rfl ?_, fun h1 h2 h3 h4 => becomes_of rfl ?_,
    fun h1 h2 h3 h4 h5 => becomes_of rfl ?_, fun h1 h2 h3 h4 h5 h6 => becomes_of rfl ?_, reg_countPort s.dev f.port, runs_strangerFrame_mem s⟩
  all_goals rw [dropFrame_linked hl]
  · rw [if_pos h1]
  · rw [if_neg (by simp [h1]), if_pos h2]
  · rw [if_neg (by simp [h1]), if_neg (by omega), if_pos (show ¬ LayersOk s.dev f from h3)]
  · rw [if_neg (by simp [h1]), if_neg (by omega), if_neg (not_not_intro (show LayersOk s.dev f from h3)), if_pos h4]
  · rw [if_neg (by simp [h1]), if_neg (by omega), if_neg (not_not_intro (show LayersOk s.dev f from h3)), if_neg (by simp [h4]), if_pos h5]
  · rw [if_neg (by simp [h1]), if_neg (by omega), if_neg (not_not_intro (show LayersOk s.dev f from h3)), if_neg (by simp [h4]),
      if_neg (by simp [h5]), if_pos h6]

/-- A stranger's frame of a type that is not of set-up runs as a frame whose body is not looked at. -/
theorem becomes_strangerFrame {s : State} {h : Hdr} {ty : FrameType} {d : Dev} (ht : headType h.head = some ty) (hq : ty ≠ .connectReq)
    (hf : ty ≠ .connectFin) (hd : runFrame h (.stranger ty) s.dev = d) : Becomes (.strangerFrame h.port h.src h.stray) s d := by
  change execStrangerFrame h.port h.src h.stray s = _
  have ht' : headType (h.stray.hdr h.port h.src).head = some ty := ht
  subst hd
  unfold execStrangerFrame
  rw [onDev_eq]
  dsimp only
  split
  case h_1 hx => cases ht'.symm.trans hx; contradiction
  case h_2 hx => cases ht'.symm.trans hx; contradiction
  case h_3 hx => cases ht'.symm.trans hx; rfl
  case h_4 hx => cases ht'.symm.trans hx

/-! ## What is said to a stranger -/

/-- The port sends answers to strangers (R107). -/
abbrev AnswersStrangers (d : Dev) (p : Nat) : Prop :=
  p < 16 ∧ (reg d (ethBase p + 0x10)).getLsbD 31 = true ∧ regBits d (ethBase p + 0x10) 15 0 ≠ 0

/-- The port's bucket has given a token. -/
def tokenTaken (d : Dev) (p : Nat) : Dev :=
  d.modNet fun t => { t with ports := modAt t.ports p fun x => { x with ucrTokens := x.ucrTokens - 1 } }

theorem answerUnknown_answered {d : Dev} {h : Hdr} {x : Port} (hx : d.net.ports[h.port]? = some x) (ha : AnswersStrangers d h.port)
    (ht : 0 < x.ucrTokens) (reason : Nat) :
    answerUnknown d h reason =
      countPort (emitTo (tokenTaken d h.port) h.port h.src.ip (outUnknown d h.port h.src h.conn h.path reason h.psn)) h.port 0x124 := by
  obtain ⟨h1, h2, h3⟩ := ha
  rw [answerUnknown, hx]
  exact if_pos (by rw [h2]; simp [h1, h3, ht])

theorem answerUnknown_silent {d : Dev} {h : Hdr} {x : Port} (hx : d.net.ports[h.port]? = some x)
    (hn : ¬ AnswersStrangers d h.port ∨ x.ucrTokens = 0) (reason : Nat) : answerUnknown d h reason = d := by
  rw [answerUnknown, hx]
  refine if_neg fun hc => ?_
  simp only [Bool.and_eq_true, decide_eq_true_eq] at hc
  obtain ⟨⟨⟨h1, h2⟩, h3⟩, h4⟩ := hc
  rcases hn with hn | hn
  · exact hn ⟨h1, h2, h3⟩
  · omega

/-- An answer touches one counter of the port, and nothing of the folds. -/
theorem reg_answerUnknown {off : Nat} (ho : off ≠ 0x124) (d : Dev) (h : Hdr) (reason : Nat) :
    reg (answerUnknown d h reason) (ethBase h.port + off) = reg d (ethBase h.port + off) := by
  unfold answerUnknown
  split
  · rfl
  · split
    · rw [reg_countPort, if_neg (by omega)]
      rfl
    · rfl

theorem answerUnknown_folds (d : Dev) (h : Hdr) (reason : Nat) : (answerUnknown d h reason).folds = d.folds := by
  unfold answerUnknown
  split
  · rfl
  · split <;> rfl

/-- A stranger has been counted, with its event, before any answer. -/
def strayCounted (d : Dev) (h : Hdr) : Dev := raiseOp (countPort d h.port 0x118) 0x0C02 (.port h.port) []

theorem reg_strayCounted (d : Dev) (h : Hdr) (off : Nat) : reg (strayCounted d h) (ethBase h.port + off) =
    if off = 0x118 then satAdd (reg d (ethBase h.port + off)) 1 else reg d (ethBase h.port + off) := by
  rw [strayCounted, reg_raiseOp_eth, reg_countPort]
  simp [eq_comm]

theorem strayCounted_ports (d : Dev) (h : Hdr) : (strayCounted d h).net.ports = d.net.ports := ports_keeps.raiseOp _ _ _ _

theorem answersStrangers_strayCounted (d : Dev) (h : Hdr) : AnswersStrangers (strayCounted d h) h.port ↔ AnswersStrangers d h.port := by
  unfold AnswersStrangers regBits
  rw [reg_strayCounted, if_neg (by decide)]

theorem headBytes_congr {d e : Dev} (ht : e.twin = d.twin) (hi : e.idUse = d.idUse) (ty : FrameType) (len path n : Nat) (psn : Word)
    (txc ts : Nat) : headBytes e ty len path n psn txc ts = headBytes d ty len path n psn txc ts := by
  have hu : unitBit e = unitBit d := by rw [unitBit, ht]; rfl
  have hn : nodeOf e = nodeOf d := by rw [nodeOf, idVal, hi]; rfl
  rw [headBytes, hu, hn]
  rfl

/-- The link address of a hop is kept at a port (R84). -/
def hopKnown (d : Dev) (p : Nat) (a : BitVec 128) : Bool := d.net.ports[p]?.elim false fun x => x.resolved.any fun r => r.1 = a

theorem askHop_eq (d : Dev) (p : Nat) (ip : BitVec 128) :
    askHop d p ip =
      if ip >>> (32 : Nat) = 0xFFFF then
        let hop := if onLink4 d p (ip.setWidth 32) then ip.setWidth 32 else gw4Of d p
        if hopKnown d p (mapped4 hop) then [] else [.arpRequest p hop]
      else
        let hop := if onLink6 d p ip then ip else gw6Of d p
        if hopKnown d p hop then [] else [.neighborSol p hop] := by
  unfold askHop hopKnown
  generalize d.net.ports[p]? = x
  cases x <;> rfl

/-- The hop that is asked for follows from the addresses in use and those kept. -/
theorem askHop_congr {d e : Dev} {p : Nat} (hi : e.idUse = d.idUse)
    (hr : e.net.ports[p]?.map Port.resolved = d.net.ports[p]?.map Port.resolved) (ip : BitVec 128) : askHop e p ip = askHop d p ip := by
  have hk (a : BitVec 128) : hopKnown e p a = hopKnown d p a := by
    unfold hopKnown
    generalize e.net.ports[p]? = x at hr
    generalize d.net.ports[p]? = y at hr
    cases x <;> cases y <;> simp_all
  simp only [askHop_eq, hk, onLink4, onLink6, gw4Of, gw6Of, ip4Of, ip6Of, ip6At, idVal, hi]
  rfl

/-- What a stranger's frame does: it is counted, and answered while the port answers and its bucket holds a token (R106, R107). -/
theorem strayFrame_spec (d : Dev) (h : Hdr) (reason : Nat) :
    reg (strayFrame d h reason) (ethBase h.port + 0x118) = satAdd (reg d (ethBase h.port + 0x118)) 1 ∧
    (strayFrame d h reason).mem = d.mem ∧ (strayFrame d h reason).folds = d.folds ∧
    ∀ x, d.net.ports[h.port]? = some x →
      (AnswersStrangers d h.port → 0 < x.ucrTokens →
        (strayFrame d h reason).sent = outUnknown d h.port h.src h.conn h.path reason h.psn :: (askHop d h.port h.src.ip ++ d.sent) ∧
        (strayFrame d h reason).net.ports[h.port]? = some { x with ucrTokens := x.ucrTokens - 1 } ∧
        reg (strayFrame d h reason) (ethBase h.port + 0x124) = satAdd (reg d (ethBase h.port + 0x124)) 1) ∧
      (¬ AnswersStrangers d h.port ∨ x.ucrTokens = 0 → (strayFrame d h reason).sent = d.sent ∧
        (strayFrame d h reason).net.ports = d.net.ports) := by
  refine ⟨?_, strayFrame_mem d h reason, ?_, fun x hx => ?_⟩
  · exact (reg_answerUnknown (by decide) _ h reason).trans (reg_strayCounted d h 0x118)
  · exact (answerUnknown_folds _ h reason).trans (raiseOp_folds _ _ _ _)
  have hx' : (strayCounted d h).net.ports[h.port]? = some x := by rw [strayCounted_ports, hx]
  have hans := answersStrangers_strayCounted d h
  refine ⟨fun ha ht => ?_, fun hn => ?_⟩
  · have hs : strayFrame d h reason = _ := answerUnknown_answered hx' (hans.2 ha) ht reason
    rw [hs]
    refine ⟨?_, modAt_self hx' _, ?_⟩
    · have hask : askHop (tokenTaken (strayCounted d h) h.port) h.port h.src.ip = askHop d h.port h.src.ip := by
        have hi : (tokenTaken (strayCounted d h) h.port).idUse = d.idUse := raiseOp_idUse _ _ _ _
        refine askHop_congr hi ?_ _
        have hp : (tokenTaken (strayCounted d h) h.port).net.ports[h.port]? = some _ := modAt_self hx' _
        rw [hp, hx]
        rfl
      have hhead := headBytes_congr (d := d) (e := strayCounted d h) (raiseOp_twin _ _ _ _) (raiseOp_idUse _ _ _ _)
      have hsent : (tokenTaken (strayCounted d h) h.port).sent = d.sent := raiseOp_sent _ _ _ _
      change _ :: (askHop (tokenTaken (strayCounted d h) h.port) h.port h.src.ip ++ (tokenTaken (strayCounted d h) h.port).sent) = _
      rw [hask, hsent, outUnknown, hhead]
      rfl
    · rw [reg_countPort, if_pos rfl]
      exact congrArg (satAdd · 1) (reg_strayCounted d h 0x124)
  · have hs : strayFrame d h reason = _ := answerUnknown_silent hx' (hn.imp_left (mt hans.1)) reason
    rw [hs]
    exact ⟨raiseOp_sent _ _ _ _, strayCounted_ports d h⟩

/-! ## Frames of a connection -/

theorem headCheck_frameIn {d : Dev} {h : Hdr} {ty : FrameType} (hf : FrameIn d h) (ht : headType h.head = some ty) :
    headCheck h ty d = none := by
  obtain ⟨hl, hv, hk, hn⟩ := hf
  simp [headCheck, hl, hv, hk, hn, ht]

section
variable {d : Dev} {h : Hdr} {b : FrameBody} (hf : FrameIn d h) (ht : headType h.head = some (bodyType b))
  (hs : landingShut d h.conn = false)
include hf ht hs

theorem classify_unknown (hc : getConn d h.conn = none) : classify h b d = .error (strayFrame d h 1) := by
  simp [classify, headCheck_frameIn hf ht, hs, uncached, hc]

theorem classify_uncached {c : Conn} (hc : getConn d h.conn = some c) (hn : h.conn ∉ d.net.ctxCache) :
    classify h b d = .error (parkFrame d h b) := by
  simp [classify, headCheck_frameIn hf ht, hs, uncached, hc, hn]

theorem classify_cached {c : Conn} (hc : getConn d h.conn = some c) (hn : h.conn ∈ d.net.ctxCache) :
    classify h b d =
      if ¬ (c.ident.mgmt ↔ h.port = 16) then .error (strayFrame d h 1)
      else if acceptsFrame c.state (bodyType b) = false then .error (strayFrame d h 2)
      else if c.ident.npath ≤ h.path then .error (raiseOp (malformed d h.port) 0x0C04 (.port h.port) [])
      else if h.tagOk = false then .error (tagFailed (countPort d h.port 0x11C) h)
      else if h.bodyOk = false then .error (malformed d h.port)
      else .ok c := by
  simp [classify, headCheck_frameIn hf ht, hs, uncached, hc, hn]

end

theorem runFrame_stranger {d e : Dev} {h : Hdr} {ty : FrameType} (hc : classify h (.stranger ty) d = .error e) :
    runFrame h (.stranger ty) d = e := by
  have hb : ({ h with bodyOk := h.bodyOk && bodyRules h (.stranger ty) } : Hdr) = h := by simp [bodyRules]
  rw [runFrame, hb, hc]

/-- A bad tag counts with the connection and, as a flood, raises an event; the connection stays as it is but for its counts. -/
theorem tagFailed_spec {d : Dev} {h : Hdr} {c : Conn} (hc : getConn d h.conn = some c) (off : Nat) :
    reg (tagFailed d h) (ethBase h.port + off) = reg d (ethBase h.port + off) ∧ (tagFailed d h).sent = d.sent ∧
    ∃ c', getConn (tagFailed d h) h.conn = some c' ∧ c'.tagFail = satAdd c.tagFail 1 ∧ c'.state = c.state ∧ c'.paths = c.paths := by
  unfold tagFailed
  rw [hc]
  dsimp only
  split
  · rw [reg_raiseOp_eth, raiseOp_sent]
    obtain ⟨q, st, hq⟩ := bare_of ((bare_keeps h.conn).raiseOp _ 0x0C03 (.port h.port) [])
      ((getConn_setConn d h.conn h.conn _).trans (if_pos rfl))
    exact ⟨rfl, rfl, _, hq, rfl, rfl, rfl⟩
  · exact ⟨rfl, rfl, _, (getConn_setConn d h.conn h.conn _).trans (if_pos rfl), rfl, rfl, rfl⟩

/-- Settles O23: the findings of `classify` in their order, each with what it does. -/
theorem strangersAreCounted : Obligations.StrangersAreCounted := by
  intro s h ty hf ht hq hfin hport hs answers stray
  have hrun {e : Dev} (he : classify h (.stranger ty) s.dev = .error e) : Becomes (.strangerFrame h.port h.src h.stray) s e :=
    becomes_strangerFrame ht hq hfin (runFrame_stranger he)
  have hstray (r : Nat) (he : classify h (.stranger ty) s.dev = .error (strayFrame s.dev h r)) : stray r :=
    ⟨_, hrun he, strayFrame_spec s.dev h r⟩
  have ht' : headType h.head = some (bodyType (.stranger ty)) := ht
  refine ⟨fun hc => hstray 1 (classify_unknown hf ht' hs hc), fun c hc => ⟨fun hn => hrun (classify_uncached hf ht' hs hc hn), fun hn => ?_⟩⟩
  have hk := classify_cached hf ht' hs hc hn
  rw [show bodyType (.stranger ty) = ty from rfl] at hk
  refine ⟨fun hm => hstray 1 ?_, fun hm ha => hstray 2 ?_, fun hm ha hp => ⟨fun htag => ?_, fun htag hbody => hrun ?_⟩⟩
  · rw [hk, if_pos hm]
  · rw [hk, if_neg (not_not_intro hm), if_pos ha]
  · have he : classify h (.stranger ty) s.dev = .error (tagFailed (countPort s.dev h.port 0x11C) h) := by
      rw [hk, if_neg (not_not_intro hm), if_neg (by simp [ha]), if_neg (by omega), if_pos htag]
    obtain ⟨hreg, hsent, hconn⟩ := tagFailed_spec (d := countPort s.dev h.port 0x11C) hc 0x11C
    exact ⟨_, hrun he, hreg.trans ((reg_countPort _ _ _ _).trans (if_pos rfl)), hconn, tagFailed_mem _ _, hsent⟩
  · rw [hk, if_neg (not_not_intro hm), if_neg (by simp [ha]), if_neg (by omega), if_neg (by simp [htag]), if_pos hbody]
    rfl

end Sys2Proof.Machine
end

section
/-! SUPPORT. What sending and receiving a connection's frames changes (R95 to R100, R103): of the device its connections and what was
sent, of the connection its paths and its nonce counter. With the statements about frames that leave and frames that arrive. -/
namespace Sys2Proof.Machine

/-! ## The device -/

/-- What sending and receiving frames may change of the device: the connections, the order of the contexts, and what was sent. -/
def SendFrame (d e : Dev) : Prop := ∃ cs cc l, e = { d with net := { d.net with conns := cs, ctxCache := cc }, sent := l }

theorem SendFrame.refl (d : Dev) : SendFrame d d := ⟨_, _, _, rfl⟩

theorem SendFrame.trans {a b c : Dev} (h : SendFrame a b) (k : SendFrame b c) : SendFrame a c := by
  obtain ⟨_, _, _, rfl⟩ := h
  obtain ⟨_, _, _, rfl⟩ := k
  exact ⟨_, _, _, rfl⟩

theorem setConn_send (d : Dev) (n : Nat) (c : Option Conn) : SendFrame d (setConn d n c) := ⟨_, _, _, rfl⟩

theorem modConn_send (d : Dev) (n : Nat) (f : Conn → Conn) : SendFrame d (modConn d n f) := by
  unfold modConn
  split
  · exact setConn_send _ _ _
  · exact .refl d

theorem touchCtx_send (d : Dev) (n : Nat) : SendFrame d (touchCtx d n) := by
  unfold touchCtx
  split
  · exact ⟨_, _, _, rfl⟩
  · exact .refl d

theorem emitFrame_send (d : Dev) (n : Nat) (c : Conn) (path : Nat) (psn : Word) (txc : Nat) (b : TxBody) :
    SendFrame d (emitFrame d n c path psn txc b) := ⟨_, _, _, rfl⟩

theorem sendPlain_send (d : Dev) (n path : Nat) (b : TxBody) : SendFrame d (sendPlain d n path b) := by
  unfold sendPlain
  split
  · exact .refl d
  · split
    · exact .refl d
    · exact (setConn_send _ _ _).trans (emitFrame_send _ _ _ _ _ _ _)

theorem sendAck_send (d : Dev) (n path : Nat) : SendFrame d (sendAck d n path) := by
  unfold sendAck
  split
  · exact .refl d
  · split
    · exact .refl d
    · exact (setConn_send _ _ _).trans (sendPlain_send _ _ _ _)

theorem receive_send (h : Hdr) (c : Conn) (d : Dev) : SendFrame d (receive h c d).1 := by
  unfold receive
  split
  · exact .refl d
  · split
    · exact modConn_send _ _ _
    · exact (modConn_send _ _ _).trans (sendAck_send _ _ _)
    · dsimp only
      split
      · exact (modConn_send _ _ _).trans (sendAck_send _ _ _)
      · exact modConn_send _ _ _

theorem SendFrame.twin {d e : Dev} (h : SendFrame d e) : e.twin = d.twin := by
  obtain ⟨_, _, _, rfl⟩ := h
  rfl

theorem SendFrame.rst {d e : Dev} (h : SendFrame d e) : e.rst = d.rst := by
  obtain ⟨_, _, _, rfl⟩ := h
  rfl

theorem SendFrame.ops {d e : Dev} (h : SendFrame d e) : e.net.ops = d.net.ops := by
  obtain ⟨_, _, _, rfl⟩ := h
  rfl

theorem SendFrame.serving {d e : Dev} (h : SendFrame d e) : serving e = serving d := by
  unfold Machine.serving
  rw [h.twin]

theorem SendFrame.unitBit {d e : Dev} (h : SendFrame d e) : unitBit e = unitBit d := by
  unfold Machine.unitBit
  rw [h.twin]

@[simp] theorem getConn_touchCtx (d : Dev) (n m : Nat) : getConn (touchCtx d n) m = getConn d m := by
  unfold touchCtx
  split <;> rfl

@[simp] theorem touchCtx_sent (d : Dev) (n : Nat) : (touchCtx d n).sent = d.sent := by
  unfold touchCtx
  split <;> rfl

@[simp] theorem modConn_sent (d : Dev) (n : Nat) (f : Conn → Conn) : (modConn d n f).sent = d.sent := by
  unfold modConn
  split <;> rfl

theorem getConn_setConn_self (d : Dev) (n : Nat) (c : Option Conn) : getConn (setConn d n c) n = c :=
  (getConn_setConn d n n c).trans (if_pos rfl)

/-- A change of a connection that has a context. -/
theorem getConn_modConn_self {d : Dev} {n : Nat} {c : Conn} (hc : getConn d n = some c) (f : Conn → Conn) :
    getConn (modConn d n f) n = some (f c) := by
  rw [getConn_modConn, if_pos rfl, hc]
  rfl

/-! ## The connection -/

/-- The connection has gone on: it has used at most `k` values of its nonce counter, and no path but `i` has changed. -/
def WentOn (i k : Nat) (c c' : Conn) : Prop :=
  ∃ ps t th, c' = { c with paths := ps, txc := t, txcHigh := th } ∧ t ≤ c.txc + k ∧ ∀ o, o ≠ i → ps[o]? = c.paths[o]?

theorem WentOn.refl (i k : Nat) (c : Conn) : WentOn i k c c := ⟨_, _, _, rfl, Nat.le_add_right _ _, fun _ _ => rfl⟩

theorem WentOn.trans {i k l : Nat} {a b c : Conn} (h : WentOn i k a b) (g : WentOn i l b c) : WentOn i (k + l) a c := by
  obtain ⟨_, _, _, rfl, ht, hp⟩ := h
  obtain ⟨_, _, _, rfl, gt, gp⟩ := g
  exact ⟨_, _, _, rfl, by dsimp only at gt; omega, fun o ho => (gp o ho).trans (hp o ho)⟩

theorem modPath_wentOn (c : Conn) (i : Nat) (f : Path → Path) : WentOn i 0 c (modPath c i f) :=
  ⟨_, _, _, rfl, Nat.le_refl _, fun _ ho => modAt_other ho _ _⟩

theorem spendTxc_wentOn (d : Dev) (i : Nat) (c : Conn) : WentOn i 1 c (spendTxc d c) := ⟨_, _, _, rfl, Nat.le_refl _, fun _ _ => rfl⟩

theorem modPath_self {c : Conn} {i : Nat} {p : Path} (h : c.paths[i]? = some p) (f : Path → Path) : (modPath c i f).paths[i]? = some (f p) :=
  modAt_self h f

/-! ## Frames that leave -/

/-- What a frame looks like, and what is asked for before it leaves, follow from the connection's identity and counter. -/
theorem frameSent_congr {d e : Dev} (h : SendFrame d e) (hs : e.sent = d.sent) {c c' : Conn} (hi : c'.ident = c.ident)
    (ht : c'.txc = c.txc) (n path : Nat) (psn : Word) (b : TxBody) : frameSent e n c' path psn b = frameSent d n c path psn b := by
  obtain ⟨_, _, l, rfl⟩ := h
  have hl : l = d.sent := hs
  subst hl
  simp only [frameSent, pathPort, hi, ht]
  rfl

theorem emitFrame_setConn_sent (d : Dev) (n : Nat) (x : Option Conn) (c : Conn) (path : Nat) (psn : Word) (b : TxBody) :
    (emitFrame (setConn d n x) n c path psn c.txc b).sent = frameSent d n c path psn b := rfl

theorem getConn_emitFrame_setConn (d : Dev) (n : Nat) (x : Option Conn) (c : Conn) (path : Nat) (psn : Word) (t : Nat) (b : TxBody) :
    getConn (emitFrame (setConn d n x) n c path psn t b) n = x := getConn_setConn_self d n x

section
variable {d : Dev} {n : Nat} {c : Conn} (hc : getConn d n = some c)
include hc

theorem sendPlain_ok (ht : txcOk c = true) (path : Nat) (b : TxBody) :
    sendPlain d n path b = emitFrame (setConn d n (some (spendTxc d c))) n c path 0 c.txc b := by
  simp [sendPlain, hc, ht]

theorem sendPlain_sent (ht : txcOk c = true) (path : Nat) (b : TxBody) : (sendPlain d n path b).sent = frameSent d n c path 0 b := by
  rw [sendPlain_ok hc ht, emitFrame_setConn_sent]

theorem getConn_sendPlain (ht : txcOk c = true) (path : Nat) (b : TxBody) : getConn (sendPlain d n path b) n = some (spendTxc d c) := by
  rw [sendPlain_ok hc ht, getConn_emitFrame_setConn]

theorem sendPlain_wentOn (path : Nat) (b : TxBody) (i : Nat) : ∃ c', getConn (sendPlain d n path b) n = some c' ∧ WentOn i 1 c c' := by
  by_cases ht : txcOk c = true
  · exact ⟨_, getConn_sendPlain hc ht path b, spendTxc_wentOn d i c⟩
  · exact ⟨c, by simp [sendPlain, hc, ht], .refl i 1 c⟩

/-- A path whose ACK has left: its counts start again (R97). -/
def ackLeft (q : Path) : Path := { q with ceCnt := 0, rxCnt := 0, ackOwed := 0 }

/-- An ACK leaves with the path's counts (R97). -/
theorem sendAck_eq {path : Nat} {p : Path} (hp : c.paths[path]? = some p) :
    sendAck d n path = sendPlain (setConn d n (some (modPath c path ackLeft))) n path (.ack p.rxE p.echoTs (sackOf p) p.ceCnt p.rxCnt) := by
  rw [sendAck, hc]
  dsimp only
  rw [hp]
  rfl

theorem sendAck_wentOn (path : Nat) : ∃ c', getConn (sendAck d n path) n = some c' ∧ WentOn path 1 c c' := by
  cases hp : c.paths[path]? with
  | none => exact ⟨c, by simp [sendAck, hc, hp], .refl path 1 c⟩
  | some p =>
    rw [sendAck_eq hc hp]
    obtain ⟨c', hc', hw⟩ := sendPlain_wentOn (getConn_setConn_self d n (some (modPath c path ackLeft))) path _ path
    exact ⟨c', hc', (modPath_wentOn c path _).trans hw⟩

theorem sendAck_sent {path : Nat} {p : Path} (hp : c.paths[path]? = some p) (ht : txcOk c = true) :
    (sendAck d n path).sent = frameSent d n c path 0 (.ack p.rxE p.echoTs (sackOf p) p.ceCnt p.rxCnt) := by
  rw [sendAck_eq hc hp]
  have ht' : txcOk (modPath c path ackLeft) = true := ht
  exact sendPlain_sent (getConn_setConn_self d n (some (modPath c path ackLeft))) ht' path _

theorem getConn_sendAck {path : Nat} {p : Path} (hp : c.paths[path]? = some p) (ht : txcOk c = true) :
    getConn (sendAck d n path) n = some (spendTxc d (modPath c path ackLeft)) := by
  rw [sendAck_eq hc hp]
  have ht' : txcOk (modPath c path ackLeft) = true := ht
  exact getConn_sendPlain (getConn_setConn_self d n (some (modPath c path ackLeft))) ht' path _

/-- The counter has values left: nothing ends the connection (R95). -/
theorem guardTxc_idle (ht : c.txc < 2 ^ 64) : guardTxc d n = d := by
  rw [guardTxc, hc]
  exact if_neg (by omega)

end

/-! ## Frames that arrive -/

theorem runFrame_passes {d : Dev} {h : Hdr} {b : FrameBody} {c : Conn} (hp : Passes d h b c) :
    runFrame h b d = guardTxc (takeFrame h b c (touchCtx d h.conn)) h.conn := by
  rw [runFrame, hp.1]

/-- A frame in its window is delivered, to a connection whose path has gone on (R98). -/
theorem arrive_new {d : Dev} {h : Hdr} {c : Conn} {p : Path} (hc : getConn d h.conn = some c) (hp : c.paths[h.path]? = some p)
    (hn : psnFind p h.psn = .new) (f : Dev → Dev) :
    ∃ e c', arrive h c d f = f e ∧ SendFrame d e ∧ getConn e h.conn = some c' ∧ WentOn h.path 1 c c' := by
  have hnew : (receive h c d).2 = true := by simp [receive, hp, hn]
  refine ⟨(receive h c d).1, ?_⟩
  have hgo : ∃ c', getConn (receive h c d).1 h.conn = some c' ∧ WentOn h.path 1 c c' := by
    simp only [receive, hp, hn]
    have hm := fun f => getConn_modConn_self hc fun c => modPath c h.path f
    split
    · obtain ⟨c', hc', hw⟩ := sendAck_wentOn (hm _) h.path
      exact ⟨c', hc', (modPath_wentOn c h.path _).trans hw⟩
    · exact ⟨_, hm _, (modPath_wentOn c h.path _).trans (.refl h.path 1 _)⟩
  obtain ⟨c', hc', hw⟩ := hgo
  exact ⟨c', if_pos hnew, receive_send h c d, hc', hw⟩

/-- The same for a whole frame of a type that is delivered by the PSN rules. -/
theorem runFrame_new {d : Dev} {h : Hdr} {b : FrameBody} {c : Conn} {p : Path} {f : Dev → Dev} (hc : getConn d h.conn = some c)
    (hp : c.paths[h.path]? = some p) (hn : psnFind p h.psn = .new) (hpass : Passes d h b c) (hf : ∀ e, takeFrame h b c e = arrive h c e f) :
    ∃ e c', runFrame h b d = guardTxc (f e) h.conn ∧ SendFrame d e ∧ getConn e h.conn = some c' ∧ WentOn h.path 1 c c' := by
  obtain ⟨e, c', he, hs, hc', hw⟩ := arrive_new ((getConn_touchCtx d h.conn h.conn).trans hc) hp hn f
  exact ⟨e, c', by rw [runFrame_passes hpass, hf, he], (touchCtx_send d h.conn).trans hs, hc', hw⟩

end Sys2Proof.Machine
end

section
/-! SUPPORT. Frames that arrive in sequence, twice, or beyond the window (R97 to R100, R125, R137), and the segments of read data
(R92, R103, R130), with the statements about them. -/
namespace Sys2Proof.Machine

theorem WentOn.state {i k : Nat} {c c' : Conn} (h : WentOn i k c c') : c'.state = c.state := by
  obtain ⟨_, _, _, rfl, _⟩ := h
  rfl

theorem WentOn.pulls {i k : Nat} {c c' : Conn} (h : WentOn i k c c') : c'.pulls = c.pulls := by
  obtain ⟨_, _, _, rfl, _⟩ := h
  rfl

theorem WentOn.txc_le {i k : Nat} {c c' : Conn} (h : WentOn i k c c') : c'.txc ≤ c.txc + k := by
  obtain ⟨_, _, _, rfl, ht, _⟩ := h
  exact ht

theorem WentOn.path_other {i k o : Nat} {c c' : Conn} (h : WentOn i k c c') (ho : o ≠ i) : c'.paths[o]? = c.paths[o]? := by
  obtain ⟨_, _, _, rfl, _, hp⟩ := h
  exact hp o ho

/-! ## DOORBELL -/

theorem takeIndices_kept {u : Bool} {c c1 : Conn} {t a h0 h1 : Word} (h : takeIndices u c t a h0 h1 = some c1) :
    c1.state = c.state ∧ c1.txc = c.txc := by
  simp only [takeIndices, Option.ite_none_left_eq_some, Option.some.injEq] at h
  obtain ⟨-, rfl⟩ := h
  exact ⟨rfl, rfl⟩

/-- The limits of R125 speak neither of the paths nor of the nonce counter. -/
theorem takeIndices_wentOn {i k : Nat} {u : Bool} {c c' c1 : Conn} {t a h0 h1 : Word} (hw : WentOn i k c c')
    (h : takeIndices u c t a h0 h1 = some c1) : ∃ c2, takeIndices u c' t a h0 h1 = some c2 ∧ WentOn i k c1 c2 := by
  obtain ⟨ps, x, th, rfl, hx, hp⟩ := hw
  simp only [takeIndices, Option.ite_none_left_eq_some, Option.some.injEq] at h
  obtain ⟨hlim, rfl⟩ := h
  exact ⟨_, if_neg hlim, ps, x, th, rfl, hx, hp⟩

theorem useInline_conn {d : Dev} {n : Nat} {c : Conn} (hc : getConn d n = some c) (b : Doorbell) :
    ∃ f, getConn (useInline d n c b) n = some { c with f := f } := by
  unfold useInline
  split
  · exact ⟨c.f, hc⟩
  · split
    · exact ⟨_, getConn_modConn_self hc _⟩
    · exact ⟨c.f, hc⟩

/-- The indices of a DOORBELL that breaks no limit are taken; of the rest of the connection only what it fetches next may move. -/
theorem takeDoorbell_conn {d : Dev} {n : Nat} {c c1 : Conn} {b : Doorbell} (hc : getConn d n = some c)
    (h : takeIndices (unitBit d) c b.sqTail b.ackSeq b.cqHead0 b.cqHead1 = some c1) :
    ∃ f r, getConn (takeDoorbell n b d) n = some { c1 with f := f, refetch := r } := by
  simp only [takeDoorbell, hc, h]
  split
  · exact ⟨c1.f, c1.refetch, getConn_setConn_self d n (some c1)⟩
  · split
    · obtain ⟨f, hf⟩ := useInline_conn ((tell_getConn _ _ n).trans (getConn_setConn_self d n (some _))) b
      exact ⟨f, _, hf⟩
    · obtain ⟨f, hf⟩ := useInline_conn ((tell_getConn _ _ n).trans (getConn_setConn_self d n (some c1))) b
      exact ⟨f, _, hf⟩

/-! ## The nonce counter of a connection whose work ends -/

/-- A connection's nonce counter. -/
def txcOf (d : Dev) (n : Nat) : Option Nat := (getConn d n).map Conn.txc

theorem txcOf_put {d : Dev} {m : Nat} {c c' : Conn} (hc : getConn d m = some c) (h : c'.txc = c.txc) (n : Nat) :
    txcOf (setConn d m (some c')) n = txcOf d n := by
  unfold txcOf
  rw [getConn_setConn]
  split
  case isTrue e => subst e; simp [hc, h]
  case isFalse => rfl

theorem txcOf_modConn (d : Dev) (m n : Nat) (f : Conn → Conn) (h : ∀ c, (f c).txc = c.txc) : txcOf (modConn d m f) n = txcOf d n := by
  unfold modConn
  split
  case h_1 c hc => exact txcOf_put hc (h c) n
  case h_2 => rfl

theorem txcOf_stamp (n : Nat) : StampKeeps fun d => txcOf d n :=
  { evt := fun _ _ => rfl, lost := fun _ => rfl, frame := fun d m _ _ => txcOf_modConn d m n _ fun _ => rfl, twin := fun _ _ => rfl,
    ldg := fun _ _ => rfl, dur := fun _ _ => rfl, ftl := fun _ _ => rfl, sent := fun _ _ => rfl, hall := fun _ _ => rfl,
    setup := fun d m _ => txcOf_modConn d m n _ fun _ => rfl }

theorem txcOf_dropOp (d : Dev) (m : Nat) (seq : Word) (n : Nat) : txcOf (dropOp d m seq) n = txcOf d n :=
  txcOf_modConn (d.modNet _) m n _ fun _ => rfl

theorem txcOf_tellEnd (d : Dev) (m : Nat) (c : Conn) (e : Entry) (n : Nat) : txcOf (tellEnd d m c e) n = txcOf d n := by
  unfold tellEnd
  split
  · exact txcOf_modConn d m n _ fun _ => rfl
  · exact (txcOf_stamp n).tell d _

theorem txcOf_noteStore (d : Dev) (m : Nat) (seq : Word) (st : Option Stamp) (n : Nat) : txcOf (noteStore d m seq st) n = txcOf d n := by
  unfold txcOf
  rw [noteStore_getConn]

theorem txcOf_endCore (d : Dev) (o : Op) (e : Entry) (x : Option (DWord × Word × List Byte)) (n : Nat) :
    txcOf (endCore d o e x) n = txcOf d n := by
  unfold endCore
  extract_lets d0
  have h0 : txcOf d0 n = txcOf d n := txcOf_dropOp d _ _ n
  split
  · exact h0
  · rename_i c hc
    extract_lets c1 c2 sent d1
    have hs : (dropRoute sent o.seq).txc = c.txc := by
      simp only [sent, c2, c1]
      repeat' split
      all_goals rfl
    have h1 : txcOf d1 n = txcOf d n := (txcOf_noteStore _ _ _ _ n).trans ((txcOf_put hc hs n).trans h0)
    clear_value d1
    have h2 : txcOf (modConn d1 o.conn fun c => { c with twinWritten := c.twinWritten + 1 }) n = txcOf d n :=
      (txcOf_modConn _ _ _ (fun c => { c with twinWritten := c.twinWritten + 1 }) fun _ => rfl).trans h1
    split
    · split
      · exact h2
      · exact (txcOf_tellEnd _ _ _ _ _).trans h2
    · exact h1

theorem txcOf_wakeLoop (n : Nat) : ∀ (k : Nat) (d : Dev) (ts : List Nat), txcOf (wakeLoop k d ts) n = txcOf d n
  | 0, _, _ => by simp [wakeLoop]
  | _ + 1, _, [] => by simp [wakeLoop]
  | k + 1, d, t :: ts => by
    unfold wakeLoop
    split
    · exact txcOf_wakeLoop n k d ts
    · split
      · exact (txcOf_wakeLoop n k _ _).trans (txcOf_endCore _ _ _ _ n)
      · exact txcOf_wakeLoop n k d ts

theorem txcOf_quiesceWork (d : Dev) (m : Nat) (ab : Bool) (st : Status) (n : Nat) : txcOf (quiesceWork d m ab st) n = txcOf d n := by
  unfold quiesceWork
  extract_lets gone d1
  have h : txcOf d1 n = txcOf d n := by
    refine foldl_keeps (fun d => txcOf d n) _ (fun a o => ?_) _ _
    unfold abortOp
    extract_lets ex
    split
    · rfl
    · exact (txcOf_wakeLoop n _ _ _).trans (txcOf_endCore _ _ _ _ n)
  split <;> exact h

/-- The beginning of a quiesce sends nothing: its counter stays (R137). -/
theorem txcOf_changeConn_quiesce {d : Dev} {n : Nat} {ab : Bool} {r : Nat} {st : Status} :
    txcOf (changeConn d n (.quiesce ab r st)) n = txcOf d n := by
  unfold changeConn applyChange
  have h := (txcOf_stamp n).streamCtrl d (.connChange n (.quiesce ab r st))
  split
  · exact h
  · rename_i c hc
    split
    · exact h
    · refine (txcOf_quiesceWork _ _ _ _ n).trans (Eq.trans ?_ h)
      change txcOf (setConn _ n _) n = _
      exact txcOf_put hc (by rfl) n

/-- A client's DISCONNECT of an ACTIVE connection begins its quiesce under DRAIN (R137). -/
theorem clientDisconnect_active {d : Dev} {n r : Nat} {c : Conn} (hs : serving d = true) (hc : getConn d n = some c)
    (ha : c.state = .active) (hr : r ≠ 0x16) : clientDisconnect n r d = changeConn d n (.quiesce false 0x01 .abortedDisabled) := by
  simp [clientDisconnect, hc, hs, ha, hr]

/-- Settles O26: the PSN rules hand the frame on (`runFrame_new`), and then each type has its own effect. -/
theorem sequencedFramesAreDelivered : Obligations.SequencedFramesAreDelivered := by
  intro s h c p hc hp hn
  refine ⟨fun b c1 hpass ht => ?_, fun o q r hpass ho hne hq => ?_, fun r hs hpass ha hr => ?_⟩
  · refine ⟨runFrame h (.doorbell b) s.dev, rfl, ?_⟩
    obtain ⟨e, c', he, hsend, hc', hw⟩ := runFrame_new hc hp hn hpass (f := takeDoorbell h.conn b) fun _ => rfl
    obtain ⟨c2, ht2, hw2⟩ := takeIndices_wentOn hw ht
    obtain ⟨f, x, hf⟩ := takeDoorbell_conn hc' (hsend.unitBit ▸ ht2)
    obtain ⟨hst, htx⟩ := takeIndices_kept ht
    have hlt : c2.txc < 2 ^ 64 := by have := hw2.txc_le; have := hpass.2; omega
    have hidle := guardTxc_idle hf hlt
    obtain ⟨ps, t, th, rfl, -⟩ := hw2
    exact ⟨_, (congrArg (getConn · h.conn) (he.trans hidle)).trans hf, rfl, rfl, rfl, rfl, rfl, hst, runFrame_mem _ _ _⟩
  · refine ⟨runFrame h (.pathReset o r) s.dev, rfl, ?_⟩
    obtain ⟨e, c', he, hsend, hc', hw⟩ := runFrame_new hc hp hn hpass (f := fun a => sendAck (modConn a h.conn fun c => modPath c o fun q =>
      { q with rxE := if later r q.rxE then r else q.rxE, rxGot := [] }) h.conn h.path) fun _ => if_neg (by omega)
    have hm := getConn_modConn_self hc' fun c => modPath c o fun q => { q with rxE := if later r q.rxE then r else q.rxE, rxGot := [] }
    obtain ⟨c2, hc2, hw2⟩ := sendAck_wentOn hm h.path
    have hlt : c2.txc < 2 ^ 64 := by
      have h2 : c2.txc ≤ c'.txc + 1 := hw2.txc_le
      have := hw.txc_le
      have := hpass.2
      omega
    have hidle := guardTxc_idle hc2 hlt
    have hq' : c'.paths[o]? = some q := (hw.path_other hne).trans hq
    exact ⟨c2, _, by rw [he, hidle]; exact hc2, (hw2.path_other hne).trans (modPath_self hq' _), rfl, rfl, hw2.state.trans hw.state,
      runFrame_mem _ _ _⟩
  · refine ⟨runFrame h (.disconnect r) s.dev, rfl, ?_⟩
    obtain ⟨e, c', he, hsend, hc', hw⟩ := runFrame_new hc hp hn hpass (f := clientDisconnect h.conn r) fun _ => rfl
    have hact : c'.state = .active := hw.state.trans ha
    rw [clientDisconnect_active (hsend.serving.trans hs) hc' hact hr] at he
    have hplace := placeOf_changeConn (ch := .quiesce false 0x01 .abortedDisabled) hc' (by simp [changeLegal, hact])
    obtain ⟨c2, hc2, -, hst, hab, hcause, hre, hby⟩ := placeOf_some hplace
    have htx : txcOf (changeConn e h.conn (.quiesce false 0x01 .abortedDisabled)) h.conn = txcOf e h.conn := txcOf_changeConn_quiesce
    simp only [txcOf, hc2, hc', Option.map_some, Option.some.injEq] at htx
    have hlt : c2.txc < 2 ^ 64 := by have := hw.txc_le; have := hpass.2; omega
    exact ⟨c2, by rw [he, guardTxc_idle hc2 hlt]; exact hc2, hst, hab, hcause, by simpa [hact] using hre, by simpa [hact] using hby⟩

end Sys2Proof.Machine
end

section
/-! SUPPORT. Frames that are not delivered and the ACKs they call for (R97 to R99), and the segments of read data (R92, R103, R130), with
the statements about them. -/
namespace Sys2Proof.Machine

/-! ## Frames that are not delivered -/

theorem arrive_beyond {d : Dev} {h : Hdr} {c : Conn} {p : Path} (hp : c.paths[h.path]? = some p) (hb : psnFind p h.psn = .beyond)
    (f : Dev → Dev) : arrive h c d f = modConn d h.conn fun c => { c with winViol := satAdd c.winViol 1 } := by
  simp [arrive, receive, hp, hb]

/-- A path that has received a frame again. -/
def receivedAgain (h : Hdr) (q : Path) : Path :=
  { q with echoTs := h.ts, rxCnt := q.rxCnt + 1, ceCnt := q.ceCnt + (if h.ce then 1 else 0) }

/-- A path that has received a PROBE. -/
def probed (h : Hdr) (q : Path) : Path := { q with echoTs := h.ts, ceCnt := q.ceCnt + (if h.ce then 1 else 0) }

/-- What comes twice is acknowledged and not delivered (R98). -/
theorem arrive_duplicate {d : Dev} {h : Hdr} {c : Conn} {p : Path} (hp : c.paths[h.path]? = some p)
    (hb : psnFind p h.psn = .duplicate) (f : Dev → Dev) :
    arrive h c d f = sendAck (modConn d h.conn fun c => modPath c h.path (receivedAgain h)) h.conn h.path := by
  simp only [arrive, receive, hp, hb, Bool.false_eq_true, if_false]
  rfl

/-- An ACK that leaves at once, after a change of its path (R99). -/
theorem sendAck_atOnce {d : Dev} {n path : Nat} {c : Conn} {p : Path} (hc : getConn d n = some c) (hp : c.paths[path]? = some p)
    (ht : txcOk c = true) (g : Path → Path) :
    let e := sendAck (modConn (touchCtx d n) n fun c => modPath c path g) n path
    e.sent = frameSent d n c path 0 (.ack (g p).rxE (g p).echoTs (sackOf (g p)) (g p).ceCnt (g p).rxCnt) ∧
      ∃ c', getConn e n = some c' ∧ c'.txc = c.txc + 1 ∧ c'.state = c.state ∧ c'.sqTail = c.sqTail ∧ c'.ackSeq = c.ackSeq := by
  have hm := getConn_modConn_self ((getConn_touchCtx d n n).trans hc) fun c => modPath c path g
  have ht' : txcOk (modPath c path g) = true := ht
  refine ⟨?_, _, getConn_sendAck hm (modPath_self hp g) ht', rfl, rfl, rfl, rfl⟩
  rw [sendAck_sent hm (modPath_self hp g) ht']
  exact frameSent_congr ((touchCtx_send d n).trans (modConn_send _ n _)) (by simp) rfl rfl n path 0 _

/-- Settles O27: the PSN rules keep the frame, and the nonce counter has values left for the ACK. -/
theorem duplicatesAreNotDelivered : Obligations.DuplicatesAreNotDelivered := by
  intro s h c p hc hp
  refine ⟨fun b hpass => ⟨fun hb => ?_, fun hd ht => ?_⟩, fun hpass ht => ?_⟩
  · have hm := getConn_modConn_self ((getConn_touchCtx s.dev h.conn h.conn).trans hc) fun c => { c with winViol := satAdd c.winViol 1 }
    refine becomes_of rfl ((runFrame_passes hpass).trans ?_)
    rw [show takeFrame h (.doorbell b) c (touchCtx s.dev h.conn) = _ from arrive_beyond hp hb _]
    exact guardTxc_idle hm (lt_of_le_of_lt (Nat.le_add_right _ _) hpass.2)
  · obtain ⟨hsent, c', hc', htx, -, hsq, hack⟩ := sendAck_atOnce hc hp ht (receivedAgain h)
    have hrun : runFrame h (.doorbell b) s.dev = _ := (runFrame_passes hpass).trans
      ((congrArg (guardTxc · h.conn) (arrive_duplicate hp hd _)).trans (guardTxc_idle hc' (by have := hpass.2; omega)))
    refine ⟨runFrame h (.doorbell b) s.dev, rfl, ?_⟩
    rw [hrun]
    exact ⟨hsent, c', hc', hsq, hack, htx⟩
  · obtain ⟨hsent, c', hc', htx, hst, -, -⟩ := sendAck_atOnce hc hp ht (probed h)
    have hrun : runFrame h .probe s.dev = _ := (runFrame_passes hpass).trans (guardTxc_idle hc' (by have := hpass.2; omega))
    refine ⟨runFrame h .probe s.dev, rfl, ?_⟩
    rw [hrun]
    exact ⟨hsent, c', hc', htx, hst⟩

/-! ## Segments of read data -/

/-- A request once the segment at an offset is placed. -/
def placed (q : Pull) (off : Nat) (data : List Byte) : Pull :=
  { q with got := q.got ++ [off], first := true, held := q.held - data.length, bytes := q.bytes ++ [(off, data)] }

/-- The connection whose request `rid` has the segment at an offset placed. -/
def connPlaced (h : Hdr) (q : Pull) (rid off : Nat) (data : List Byte) (clock : Nat) (c : Conn) : Conn :=
  modPath { c with pulls := c.pulls.map fun r => if r.rid = rid then placed q off data else r } q.path fun x =>
    { x with pull := samplePull h q clock x.pull }

/-- The segment is one that R92 allows and that has not come before. -/
abbrev Segment (q : Pull) (off : Nat) (data : List Byte) : Prop :=
  q.got.contains off = false ∧ off % max 1 q.seg = 0 ∧ off < q.len ∧ data.length = min q.seg (q.len - off)

section
variable {d : Dev} {h : Hdr} {c : Conn} {rid off : Nat} {data : List Byte} {q : Pull} (hc : getConn d h.conn = some c)
  (hq : (c.pulls.find? fun p => p.rid = rid && p.sent) = some q)
include hc hq

theorem takeRsp_segment (hs : Segment q off data) :
    takeRsp h rid off false data d =
      if q.held - data.length = 0 then
        pullComplete h.conn (placed q off data) (modConn d h.conn (connPlaced h q rid off data d.clock))
      else modConn d h.conn (connPlaced h q rid off data d.clock) := by
  obtain ⟨h1, h2, h3, h4⟩ := hs
  rw [takeRsp, hc]
  dsimp only
  rw [hq]
  dsimp only
  rw [if_neg (by decide), if_neg (by rw [h1]; decide), if_neg (by simp [h2, h4]; omega)]
  rfl

/-- A REFUSED answer to a ring fetch ends the connection (R132). -/
theorem takeRsp_refusedRing {a : Word} {b : Nat} (hw : q.what = .ring a b) :
    takeRsp h rid off true data d =
      toError (modConn d h.conn fun c => { c with pulls := c.pulls.filter fun q => q.rid ≠ rid }) h.conn 0x11 := by
  simp only [takeRsp, hc, hq, hw, if_true]

end

theorem rid_of_find {ps : List Pull} {rid : Nat} {q : Pull} (hq : (ps.find? fun p => p.rid = rid && p.sent) = some q) : q.rid = rid := by
  have h := List.find?_some hq
  simp only [Bool.and_eq_true, decide_eq_true_eq] at h
  exact h.1

theorem placed_mem {ps : List Pull} {rid : Nat} {q : Pull} (hq : (ps.find? fun p => p.rid = rid && p.sent) = some q) (off : Nat)
    (data : List Byte) : placed q off data ∈ ps.map fun r => if r.rid = rid then placed q off data else r :=
  List.mem_map.2 ⟨q, List.mem_of_find?_eq_some hq, if_pos (rid_of_find hq)⟩

/-- The last segment of write data takes the request from its connection, and the operation has its data (R103). -/
theorem pullComplete_data {d : Dev} {n : Nat} {c : Conn} {p : Pull} {seq : Word} {at_ : Nat} {o : Op} (hc : getConn d n = some c)
    (hw : p.what = .data seq at_) (ho : findOp d n seq = some o) :
    getConn (pullComplete n p d) n = some { c with pulls := c.pulls.filter fun q => q.rid ≠ p.rid } ∧
      findOp (pullComplete n p d) n seq = some { o with data := putAt o.data at_ (pulled p), dataGot := o.dataGot + p.len } := by
  have hm := getConn_modConn_self hc fun c => { c with pulls := c.pulls.filter fun q => q.rid ≠ p.rid }
  have ho' : findOp (modConn d n fun c => { c with pulls := c.pulls.filter fun q => q.rid ≠ p.rid }) n seq = some o := by
    unfold findOp at ho ⊢
    rw [modConn_ops]
    exact ho
  simp only [pullComplete, hw, ho']
  exact ⟨hm, findOp_setOp ho' rfl rfl⟩

/-- A connection in ERROR, which may not send, is not ended again. -/
theorem guardTxc_mayNot {d : Dev} {n : Nat} {c : Conn} (hc : getConn d n = some c) (hm : maySend c = false) : guardTxc d n = d := by
  rw [guardTxc, hc]
  dsimp only
  split
  · simp [toError, hc, hm]
  · rfl

/-- Settles O28: the PSN rules hand the segment on (`runFrame_new`), and then it is placed, or completes its request, or ends the
connection. -/
theorem readResponsesArePlaced : Obligations.ReadResponsesArePlaced := by
  intro s h c p rid off data q hc hp hn hq
  have hgo {refused : Bool} (hpass : Passes s.dev h (.readRsp rid off refused data) c) :=
    runFrame_new hc hp hn hpass (f := takeRsp h rid off refused data) fun _ => rfl
  refine ⟨fun hpass h1 h2 h3 h4 h5 => ?_, fun seq at_ o hpass h1 h2 h3 h4 h5 hw ho => ?_, fun a b hpass hw hs hm hf => ?_⟩
  · refine ⟨runFrame h (.readRsp rid off false data) s.dev, rfl, ?_⟩
    obtain ⟨e, c', he, hsend, hc', hwent⟩ := hgo hpass
    rw [takeRsp_segment hc' (hwent.pulls ▸ hq) ⟨h1, h2, h3, h4⟩, if_neg (by omega)] at he
    have hm := getConn_modConn_self hc' (connPlaced h q rid off data e.clock)
    have hidle := guardTxc_idle hm (by have : c'.txc ≤ c.txc + 1 := hwent.txc_le; have := hpass.2; show c'.txc < _; omega)
    rw [he, hidle]
    refine ⟨_, placed q off data, hm, ?_, (rid_of_find hq : q.rid = rid), rfl, rfl, rfl, ?_, (modConn_ops _ _ _).trans hsend.ops⟩
    · change placed q off data ∈ c'.pulls.map _
      rw [hwent.pulls]
      exact placed_mem hq off data
    · rw [← hidle, ← he, runFrame_mem]
  · refine ⟨runFrame h (.readRsp rid off false data) s.dev, rfl, ?_⟩
    obtain ⟨e, c', he, hsend, hc', hwent⟩ := hgo hpass
    rw [takeRsp_segment hc' (hwent.pulls ▸ hq) ⟨h1, h2, h3, h4⟩, if_pos (by omega)] at he
    have hm := getConn_modConn_self hc' (connPlaced h q rid off data e.clock)
    have ho' : findOp (modConn e h.conn (connPlaced h q rid off data e.clock)) h.conn seq = some o := by
      unfold findOp at ho ⊢
      rw [modConn_ops, hsend.ops]
      exact ho
    obtain ⟨hcd, hod⟩ := pullComplete_data (p := placed q off data) hm hw ho'
    have hidle := guardTxc_idle hcd (by have : c'.txc ≤ c.txc + 1 := hwent.txc_le; have := hpass.2; show c'.txc < _; omega)
    refine ⟨_, _, (congrArg (getConn · h.conn) (he.trans hidle)).trans hcd, fun r hr => ?_,
      (congrArg (findOp · h.conn seq) (he.trans hidle)).trans hod, rfl, runFrame_mem _ _ _⟩
    have hne : r.rid ≠ (placed q off data).rid := by simpa using (List.mem_filter.1 hr).2
    rw [← rid_of_find hq]
    exact hne
  · refine ⟨runFrame h (.readRsp rid off true data) s.dev, rfl, ?_⟩
    obtain ⟨e, c', he, hsend, hc', hwent⟩ := hgo hpass
    rw [takeRsp_refusedRing hc' (hwent.pulls ▸ hq) hw] at he
    have hmc := getConn_modConn_self hc' fun c => { c with pulls := c.pulls.filter fun q => q.rid ≠ rid }
    have hsend' := hsend.trans (modConn_send e h.conn fun c => { c with pulls := c.pulls.filter fun q => q.rid ≠ rid })
    have hm' : maySend c' = true := by unfold maySend at hm ⊢; rw [hwent.state]; exact hm
    have hplace := placeOf_toError (reason := 0x11) hmc (hsend'.serving.trans hs) hm' (by rw [hsend'.rst]; exact hf)
    obtain ⟨c2, hc2, -, hst, -, -, hre, -⟩ := placeOf_some hplace
    exact ⟨c2, (congrArg (getConn · h.conn) (he.trans (guardTxc_mayNot hc2 (by simp [maySend, hst])))).trans hc2, hst, hre⟩

end Sys2Proof.Machine
end

section
/-! SUPPORT. What an ACK releases (R97, R99), with the statement about it. -/
namespace Sys2Proof.Machine

theorem later_eq_false_of_notBefore {a b : Word} (h : notBefore b a = true) : later a b = false := by
  unfold notBefore at h
  unfold later
  simp only [decide_eq_true_eq, Bool.and_eq_false_iff, decide_eq_false_iff_not] at h ⊢
  bv_omega

/-- The acknowledgement point of a path (R97). -/
def ackPoint (p : Path) : Word := match p.unacked with | u :: _ => u.psn | [] => p.nextPsn

theorem sacks_zero (e psn : Word) : sacks e psn 0#64 = false := by simp [sacks]

theorem laterSacked_zero (e psn : Word) : laterSacked e psn 0#64 = 0 := by simp [laterSacked]

/-- A path that has released what lies before a point (R97). -/
def released (e : Word) (q : Path) : Path := { q with unacked := q.unacked.filter fun u => !later e u.psn }

/-- A point that is not before the path's, without SACK bits, releases what lies before it. -/
theorem takeAck_point {c : Conn} {path : Nat} {p : Path} {e : Word} (hp : c.paths[path]? = some p) (h1 : notBefore e (ackPoint p) = true)
    (h2 : notBefore p.nextPsn e = true) :
    takeAck c path e 0 = modPath (ackPulls c (p.unacked.filter fun u => later e u.psn)) path (released e) := by
  rw [takeAck, hp]
  dsimp only
  rw [if_neg (by rw [later_eq_false_of_notBefore h2]; decide)]
  cases hu : p.unacked with
  | nil =>
    have h1' : notBefore e p.nextPsn = true := by simpa [ackPoint, hu] using h1
    simp [h1', sacks_zero]
    rfl
  | cons u us =>
    have h1' : notBefore e u.psn = true := by simpa [ackPoint, hu] using h1
    simp [h1', sacks_zero]
    rfl

theorem fastResend_none {d : Dev} {n path : Nat} {c : Conn} (hc : getConn d n = some c) (hk : 0 < reorderLimit d (pathPort d n c path))
    (e : Word) : fastResend d n path e 0 = d := by
  rw [fastResend, hc]
  dsimp only
  split
  · rfl
  · simp [laterSacked_zero, show ¬ reorderLimit d (pathPort d n c path) = 0 by omega]

theorem flushEnds_none {d : Dev} {n : Nat} {c : Conn} (hc : getConn d n = some c) (he : c.endDue = []) :
    getConn (flushEnds d n) n = some c ∧ SendFrame d (flushEnds d n) := by
  have hf : flushEnds d n = modConn d n fun c => { c with endDue := c.endDue.filter fun p => dataOut c p.1 } := by
    simp [flushEnds, hc, he]
  rw [hf, getConn_modConn_self hc]
  refine ⟨?_, modConn_send _ _ _⟩
  rw [he, List.filter_nil, ← he]

theorem freeIfDone_of_ne {d : Dev} {n : Nat} {c : Conn} (hc : getConn d n = some c) (hs : c.state ≠ .disabled) : freeIfDone d n = d := by
  simp [freeIfDone, hc, hs]

/-- A CONNECT_RSP that leaves changes of a connection only that none is due (R118). -/
theorem flushSetups_conn {d : Dev} {n : Nat} {c : Conn} (hc : getConn d n = some c) :
    ∃ r, getConn (flushSetups d) n = some { c with rspDue := r } := by
  refine List.foldlRecOn d.net.conns _ (motive := fun a => ∃ r, getConn a n = some { c with rspDue := r }) ⟨c.rspDue, hc⟩ ?_
  intro a ⟨r, ha⟩ x _
  split
  · split
    · change ∃ r, getConn (modConn a x.1 fun c => { c with rspDue := none }) n = some { c with rspDue := r }
      rw [getConn_modConn]
      split
      case isTrue h => exact ⟨none, by rw [h, ha]; rfl⟩
      case isFalse => exact ⟨r, ha⟩
    · exact ⟨r, ha⟩
  · exact ⟨r, ha⟩

theorem completeAll_of_noOps {d : Dev} (h : d.net.ops = []) : completeAll d = flushSetups d := by simp [completeAll, h]

/-- The path's send controller once an ACK has given it its samples (R99, R104). -/
def ackSampled (d : Dev) (echo : Word) (ce rx : Nat) (r : RateCtl) : RateCtl :=
  sampleCe (if rx = 0 then 0 else (ce : Rat) / rx) (decide (0 < ce))
    (sampleRtt d.clock ((BitVec.ofNat 32 d.clock - echo).toNat : Rat) r)

/-- The path that has taken an ACK: a fresh RTO, and no expiry counted (R99). -/
def pathAcked (d : Dev) (h : Hdr) (port : Nat) (echo : Word) (ce rx : Nat) (q : Path) : Path :=
  { q with push := ackSampled d echo ce rx q.push, rto := rtoOf d port (ackSampled d echo ce rx q.push), expiries := 0,
           ceCnt := q.ceCnt + (if h.ce then 1 else 0) }

theorem takeAckFrame_up {d : Dev} {h : Hdr} {c : Conn} {p : Path} (hp : c.paths[h.path]? = some p) (hup : p.up = true) (e echo : Word)
    (sack : DWord) (ce rx : Nat) :
    takeAckFrame h c e echo sack ce rx d =
      completeAll (freeIfDone (flushEnds (fastResend
        (modConn d h.conn fun c' => modPath (takeAck c' h.path e sack) h.path (pathAcked d h (pathPort d h.conn c h.path) echo ce rx))
        h.conn h.path e sack) h.conn) h.conn) := by
  rw [takeAckFrame]
  simp only [hp, hup, Bool.not_true, Bool.false_eq_true, if_false]
  rfl

/-- The connection that has taken an ACK. -/
def connAcked (d : Dev) (h : Hdr) (c : Conn) (p : Path) (e echo : Word) (ce rx : Nat) : Conn :=
  modPath (modPath (ackPulls c (p.unacked.filter fun u => later e u.psn)) h.path (released e)) h.path
    (pathAcked d h (pathPort d h.conn c h.path) echo ce rx)

/-- With nothing in flight, no step of an ACK but the first has anything to do. -/
theorem takeAckFrame_idle {d : Dev} {h : Hdr} {c : Conn} {p : Path} {e echo : Word} {ce rx : Nat} (hc : getConn d h.conn = some c)
    (hp : c.paths[h.path]? = some p) (hops : d.net.ops = []) (hends : c.endDue = []) (hup : p.up = true) (hst : c.state ≠ .disabled)
    (hk : 0 < reorderLimit d (pathPort d h.conn c h.path)) (h1 : notBefore e (ackPoint p) = true) (h2 : notBefore p.nextPsn e = true) :
    ∃ r, getConn (takeAckFrame h c e echo 0 ce rx d) h.conn = some { connAcked d h c p e echo ce rx with rspDue := r } := by
  rw [takeAckFrame_up hp hup]
  have hm := getConn_modConn_self hc fun c' => modPath (takeAck c' h.path e 0) h.path (pathAcked d h (pathPort d h.conn c h.path) echo ce rx)
  rw [takeAck_point hp h1 h2] at hm
  have hsend := modConn_send d h.conn fun c' =>
    modPath (takeAck c' h.path e 0) h.path (pathAcked d h (pathPort d h.conn c h.path) echo ce rx)
  revert hm hsend
  generalize modConn d h.conn _ = d1
  intro hm hsend
  have hk1 : 0 < reorderLimit d1 (pathPort d1 h.conn (connAcked d h c p e echo ce rx) h.path) := by
    obtain ⟨_, _, _, rfl⟩ := hsend
    exact hk
  rw [fastResend_none hm hk1]
  obtain ⟨hf, hfs⟩ := flushEnds_none hm hends
  rw [freeIfDone_of_ne hf hst, completeAll_of_noOps ((hsend.trans hfs).ops.trans hops)]
  exact flushSetups_conn hf

/-- Settles O29: the point releases what lies before it, and with nothing in flight no other step of the ACK has anything to do. -/
theorem acksReleaseFrames : Obligations.AcksReleaseFrames := by
  intro s h c p e echo ce rx hc hp hpass hops hends hup hst hk h1 h2
  refine ⟨runFrame h (.ack e echo 0 ce rx) s.dev, rfl, ?_⟩
  have hsend := touchCtx_send s.dev h.conn
  have hk' : 0 < reorderLimit (touchCtx s.dev h.conn) (pathPort (touchCtx s.dev h.conn) h.conn c h.path) := by
    obtain ⟨_, _, _, he⟩ := hsend
    rw [he]
    exact hk
  obtain ⟨r, hr⟩ := takeAckFrame_idle (echo := echo) (ce := ce) (rx := rx) ((getConn_touchCtx s.dev h.conn h.conn).trans hc) hp
    (hsend.ops.trans hops) hends hup hst hk' h1 h2
  have hrun : runFrame h (.ack e echo 0 ce rx) s.dev = _ := (runFrame_passes hpass).trans
    (guardTxc_idle hr (lt_of_le_of_lt (Nat.le_add_right _ _) hpass.2))
  refine ⟨_, _, (congrArg (getConn · h.conn) hrun).trans hr, rfl, modPath_self (modPath_self hp _) _, rfl, hup, rfl, ?_, runFrame_mem _ _ _⟩
  obtain ⟨_, _, _, he⟩ := hsend
  rw [he]
  rfl

end Sys2Proof.Machine
end

section
/-! SUPPORT. The timers of a connection (R97 to R104), and frames that leave for the first time (R95, R98, R102, R103), with the
statements about them. -/
namespace Sys2Proof.Machine

/-! ## Frames sent again, and for the first time -/

/-- A kept frame that has left again with the connection's next TXC (R95, R99). -/
def resent (c : Conn) (u : Unacked) (q : Path) : Path :=
  { q with unacked := q.unacked.map fun x => if x.psn = u.psn then { x with txc := c.txc, early := true } else x }

/-- A sequenced frame that leaves a path, as it is kept (R102). -/
def keptFrame (c : Conn) (p : Path) (b : TxBody) : Unacked :=
  { psn := p.nextPsn, txc := c.txc, body := b, bytes := frameBytes b, early := false, got := false }

/-- A path that has sent a sequenced frame and keeps it (R98, R102). -/
def keeping (u : Unacked) (q : Path) : Path := { q with nextPsn := q.nextPsn + 1, unacked := q.unacked ++ [u] }

section
variable {d : Dev} {n : Nat} {c : Conn} (hc : getConn d n = some c) (ht : txcOk c = true)
include hc ht

theorem resend_ok (path : Nat) (u : Unacked) :
    resend d n path u = emitFrame (setConn d n (some (modPath (spendTxc d c) path (resent c u)))) n c path u.psn c.txc u.body := by
  simp only [resend, hc, ht, Bool.not_true, Bool.false_eq_true, if_false]
  rfl

theorem sendSeq_ok {path : Nat} {p : Path} (hp : c.paths[path]? = some p) (b : TxBody) :
    sendSeq d n path b =
      emitFrame (setConn d n (some (modPath (spendTxc d c) path (keeping (keptFrame c p b))))) n c path p.nextPsn c.txc b := by
  simp only [sendSeq, hc, hp, ht, Bool.not_true, Bool.false_eq_true, if_false]
  rfl

end

/-! ## Timers -/

/-- The longest RTO of a path's port, in ns (R99, R554). -/
def rtoMax (d : Dev) (n : Nat) (c : Conn) (path : Nat) : Rat :=
  ((regBits d (tmrBase (pathPort d n c path) + 0x88) 31 25 * 1000000 : Nat) : Rat)

/-- A path whose retransmission timer has expired (R99). -/
def expired (hi : Rat) (q : Path) : Path :=
  { q with rto := min hi (2 * q.rto), expiries := q.expiries + 1, unacked := q.unacked.map fun x => { x with early := false } }

/-- Below the path-down count, an RTO doubles and sends the oldest frame again (R99). -/
theorem rtoExpired_resends {d : Dev} {n path : Nat} {c : Conn} {p : Path} {u : Unacked} {us : List Unacked} (hc : getConn d n = some c)
    (hp : c.paths[path]? = some p) (hu : (p.unacked.filter fun u => !u.got) = u :: us) (hair : onAir c = true) (hup : p.up = true)
    (hq : resetQueued c path = false)
    (hx : p.expiries + 1 < regBits d (tmrBase (pathPort d n c path) + 0x80) 11 7) :
    rtoExpired n path d = guardTxc (resend (modConn d n fun c' => modPath c' path (expired (rtoMax d n c path))) n path u) n := by
  rw [rtoExpired, hc]
  dsimp only
  rw [hp]
  dsimp only
  rw [hu]
  dsimp only
  rw [if_neg (by simp [hair, hup, hq]), if_neg (by omega)]
  rfl

/-- A rate is kept between the lowest and the line rate, and no congestion is left noted (R104). -/
theorem ratePeriod_within (target step : Rat) {lo line : Rat} (h : lo ≤ line) (r : RateCtl) :
    lo ≤ (ratePeriod target step lo line r).rate ∧ (ratePeriod target step lo line r).rate ≤ line ∧
      (ratePeriod target step lo line r).ceSeen = false := by
  have hclamp (x : Rat) : lo ≤ max lo (min line x) ∧ max lo (min line x) ≤ line :=
    ⟨le_max_left _ _, max_le h (min_le_left _ _)⟩
  unfold ratePeriod
  dsimp only
  split
  case isTrue => exact ⟨(hclamp _).1, (hclamp _).2, rfl⟩
  case isFalse hce =>
    rw [Bool.not_eq_true] at hce
    split
    · exact ⟨(hclamp _).1, (hclamp _).2, hce⟩
    · exact ⟨(hclamp _).1, (hclamp _).2, hce⟩

theorem error_of_placeOf {d : Dev} {n r : Nat} {i : ConnIdent} {ab b : Bool} {ca : Status} (h : placeOf d n = some (i, .error, ab, ca, r, b)) :
    ∃ c, getConn d n = some c ∧ c.state = .error ∧ c.reason = r := by
  obtain ⟨c, hc, -, hst, -, -, hre, -⟩ := placeOf_some h
  exact ⟨c, hc, hst, hre⟩

/-- A connection without a path that is up ends in ERROR (R101). -/
theorem placeOf_connDead {d : Dev} {n : Nat} {c : Conn} (hc : getConn d n = some c) (hs : serving d = true) (hm : maySend c = true)
    (hno : upPaths c = []) (hf : d.rst.freeAfter.contains n = false) :
    placeOf (connDead n d) n = some (c.ident, .error, c.abort, c.cause, 0x14, c.byClient) := by
  have hrun : connDead n d = raise (toError d n 0x14) 0x0C07 (.port (pathPort d n c 0)) (valuesPayload []) [c.ident.fold] := by
    simp [connDead, hc, hs, hm, hno]
  rw [hrun]
  exact ((place_stamp n).toEventKeeps.raise _ _ _ _ _).trans (placeOf_toError hc hs hm hf)

/-- So does one whose read request has no answer (R103). -/
theorem placeOf_pullTimeout {d : Dev} {n rid : Nat} {c : Conn} (hc : getConn d n = some c) (hs : serving d = true) (hm : maySend c = true)
    (hany : (c.pulls.any fun p => p.rid = rid && p.acked && decide (0 < p.held)) = true) (hf : d.rst.freeAfter.contains n = false) :
    placeOf (pullTimeout n rid d) n = some (c.ident, .error, c.abort, c.cause, 0x10, c.byClient) := by
  have hmc := getConn_modConn_self hc fun c => { c with pulls := c.pulls.filter fun p => p.rid ≠ rid }
  have hsend := modConn_send d n fun c => { c with pulls := c.pulls.filter fun p => p.rid ≠ rid }
  have hplace := placeOf_toError (reason := 0x10) hmc (hsend.serving.trans hs) hm (by rw [hsend.rst]; exact hf)
  rw [pullTimeout, hc]
  dsimp only
  rw [if_pos hany]
  exact hplace

/-- Settles O31: each timer's condition holds, and it does what its rule says. -/
theorem connectionTimers : Obligations.ConnectionTimers := by
  intro s n path c p hc hp hlt
  refine ⟨fun how hair ht => ?_, fun u us hu hair ht hup hq hx => ?_, fun hair ht hdown hl => ?_, fun hs hm hno hf => ?_,
    fun rid hs hm hany hf => ?_, fun pull lo hlo hle => ?_⟩
  · have hcs := getConn_sendAck hc hp ht
    refine ⟨sendAck s.dev n path, ?_, sendAck_sent hc hp ht, _, _, hcs, modPath_self hp ackLeft, rfl, rfl, rfl, rfl⟩
    change execAckDelayExpiry n path s = _
    simp [execAckDelayExpiry, onDev, hc, hp, how, hair, guardTxc_idle hcs hlt]
  · refine ⟨rtoExpired n path s.dev, rfl, ?_⟩
    rw [rtoExpired_resends hc hp hu hair hup hq hx]
    have hm := getConn_modConn_self hc fun c' => modPath c' path (expired (rtoMax s.dev n c path))
    have hsend := modConn_send s.dev n fun c' => modPath c' path (expired (rtoMax s.dev n c path))
    rw [resend_ok hm ht, guardTxc_idle (getConn_emitFrame_setConn _ _ _ _ _ _ _ _) hlt]
    exact ⟨(emitFrame_setConn_sent _ _ _ _ _ _ _).trans (frameSent_congr hsend (modConn_sent _ _ _) rfl rfl n path u.psn u.body),
      _, _, getConn_emitFrame_setConn _ _ _ _ _ _ _ _, modPath_self (modPath_self hp _) _, rfl, rfl, rfl⟩
  · have hcs := getConn_sendPlain hc ht path .probe
    refine ⟨sendPlain s.dev n path .probe, ?_, sendPlain_sent hc ht path .probe, _, hcs, rfl, rfl⟩
    change execProbeInterval n path s = _
    simp [execProbeInterval, probeDown, onDev, hc, hp, hdown, hair, hl, guardTxc_idle hcs hlt]
  · exact ⟨connDead n s.dev, rfl, error_of_placeOf (placeOf_connDead hc hs hm hno hf)⟩
  · exact ⟨pullTimeout n rid s.dev, rfl, error_of_placeOf (placeOf_pullTimeout hc hs hm hany hf)⟩
  · refine ⟨periodEnd n path pull s.dev, rfl, _, _, getConn_modConn_self hc _, modPath_self hp _, ?_⟩
    subst hlo
    obtain ⟨h1, h2, h3⟩ := ratePeriod_within
      ((regBits s.dev (tmrBase (pathPort s.dev n c path) + 0x90) 31 25 * 1000 : Nat) : Rat)
      ((regBits s.dev (tmrBase (pathPort s.dev n c path) + 0x90) 24 18 : Nat) / 10) hle (if pull then p.pull else p.push)
    cases pull
    · exact ⟨rfl, h1, h2, h3⟩
    · exact ⟨rfl, h1, h2, h3⟩

/-! ## Frames that leave for the first time -/

theorem txcOk_of_pathOpen {d : Dev} {n path bytes : Nat} {c : Conn} {p : Path} (hp : c.paths[path]? = some p)
    (ho : pathOpen d n c path bytes = true) : txcOk c = true := by
  rw [pathOpen, hp] at ho
  simp only [Bool.and_eq_true] at ho
  obtain ⟨⟨⟨_, htx⟩, _⟩, _⟩ := ho
  exact htx

/-- A frame leaves as a connection has been changed that keeps its identity, counter and paths (R95, R98, R102). -/
theorem sendSeq_modConn {d : Dev} {n path : Nat} {c : Conn} {p : Path} (hc : getConn d n = some c) (hp : c.paths[path]? = some p)
    (ht : txcOk c = true) {f : Conn → Conn} (hf : ∃ q l, f c = { c with pulls := q, sendq := l }) (b : TxBody) :
    (sendSeq (modConn d n f) n path b).sent = frameSent d n c path p.nextPsn b ∧
      getConn (sendSeq (modConn d n f) n path b) n =
        some (modPath (spendTxc (modConn d n f) (f c)) path (keeping (keptFrame c p b))) := by
  have hm := getConn_modConn_self hc f
  have hsend := modConn_send d n f
  obtain ⟨q, l, hf⟩ := hf
  rw [hf] at hm ⊢
  have hk := sendSeq_ok hm ht hp b
  exact ⟨(congrArg Dev.sent hk).trans ((emitFrame_setConn_sent _ _ _ _ _ _ _).trans
      (frameSent_congr hsend (modConn_sent _ _ _) rfl rfl n path p.nextPsn b)),
    (congrArg (getConn · n) hk).trans (getConn_emitFrame_setConn _ _ _ _ _ _ _ _)⟩

/-- A request of the pull list that has left on a path (R103). -/
def requested (rid seg path clock : Nat) (q : Pull) : Pull :=
  if q.rid = rid then { q with sent := true, seg := seg, path := path, sentAt := clock, held := q.len } else q

/-- The connection whose request has left on a path, in the segments of the path's port. -/
def connRequested (d : Dev) (n rid path : Nat) (c x : Conn) : Conn :=
  { x with pulls := x.pulls.map (requested rid (segOf d (pathPort d n c path)) path d.clock) }

theorem mem_connRequested {d : Dev} {n rid path : Nat} {c x : Conn} {r : Pull} (hr : r ∈ x.pulls) (hrid : r.rid = rid) :
    { r with sent := true, seg := segOf d (pathPort d n c path), path := path, sentAt := d.clock, held := r.len } ∈
      (connRequested d n rid path c x).pulls :=
  List.mem_map.2 ⟨r, hr, if_pos hrid⟩

theorem sendQueued_open {d : Dev} {n path i : Nat} {c : Conn} {f : Option Nat × TxBody} (hc : getConn d n = some c)
    (hi : nextFor c path = some i) (hf : c.sendq[i]? = some f) (hair : onAir c = true) (ho : pathOpen d n c path (frameBytes f.2) = true) :
    sendQueued n path d = sendSeq (modConn d n fun c => { c with sendq := c.sendq.eraseIdx i }) n path f.2 := by
  simp [sendQueued, hc, hi, hf, hair, ho]

theorem sendReadReq_open {d : Dev} {n rid len path : Nat} {c : Conn} {r : Pull} (hc : getConn d n = some c)
    (hr : (c.pulls.find? fun p => p.rid = rid && p.len = len && !p.sent) = some r) (hm : maySend c = true)
    (ho : pathOpen d n c path 56 = true) (hout : pullOut c + r.len ≤ 1048576)
    (hpool : pullUsed d (pathPort d n c path) + r.len ≤ pullPool d (pathPort d n c path)) :
    sendReadReq n rid path len d = sendSeq (modConn d n (connRequested d n rid path c)) n path
      (.readReq rid r.len r.addr r.ckey (segOf d (pathPort d n c path))) := by
  simp [sendReadReq, hc, hr, hm, ho, hout, hpool]
  rfl

/-- Settles O32: both senders hand an open path its frame (`sendSeq_modConn`). -/
theorem framesTakeTheNextPsn : Obligations.FramesTakeTheNextPsn := by
  intro s n path c p hc hp
  refine ⟨fun i f hi hf hair ho => ?_, fun rid len r hr hm ho hout hpool => ?_⟩
  · obtain ⟨hsent, hcs⟩ := sendSeq_modConn hc hp (txcOk_of_pathOpen hp ho) (f := fun c => { c with sendq := c.sendq.eraseIdx i })
      ⟨_, _, rfl⟩ f.2
    rw [← sendQueued_open hc hi hf hair ho] at hsent hcs
    exact ⟨_, rfl, hsent, _, _, _, hcs, rfl, rfl, modPath_self hp _, rfl, rfl, rfl, rfl, rfl⟩
  · have hrid : r.rid = rid := by
      have h := List.find?_some hr
      simp only [Bool.and_eq_true, decide_eq_true_eq] at h
      exact h.1.1
    obtain ⟨hsent, hcs⟩ := sendSeq_modConn hc hp (txcOk_of_pathOpen hp ho) (f := connRequested s.dev n rid path c) ⟨_, _, rfl⟩
      (.readReq rid r.len r.addr r.ckey (segOf s.dev (pathPort s.dev n c path)))
    rw [← sendReadReq_open hc hr hm ho hout hpool] at hsent hcs
    exact ⟨_, rfl, hsent, _, _, _, hcs, rfl, modPath_self hp _, rfl, mem_connRequested (List.mem_of_find?_eq_some hr) hrid, hrid, rfl, rfl,
      rfl⟩

end Sys2Proof.Machine
end

section
/-! SUPPORT. Connections that are taken down, and credentials as they come and go (R110, R111, R137, R141, R143), with the statement about
them. -/
namespace Sys2Proof.Machine

/-! ## Changes of a connection's place -/

@[simp] theorem getConn_answer (d : Dev) (p : Principal) (a : Nat) (w : Bool) (st : Status) (n : Nat) (v : Word) (m : Nat) :
    getConn (answer d p a w st n v) m = getConn d m := rfl

theorem getConn_none_of_placeOf {d : Dev} {n : Nat} (h : placeOf d n = none) : getConn d n = none := Option.map_eq_none_iff.1 h

theorem streamCtrl_rst (d : Dev) (b : CtrlBody) : (streamCtrl d b).rst = d.rst := by
  unfold streamCtrl
  split
  · split
    · exact stampCtrl_rst d b
    · rfl
  · rfl

/-- The status field of a command on a connection changes no connection. -/
theorem getConn_markEnd_connChange (d : Dev) (n : Nat) (ch : ConnChange) (ok : Bool) (m : Nat) :
    getConn (markEnd d (.connChange n ch) ok) m = getConn d m := by
  unfold markEnd
  dsimp only
  (repeat' split) <;> rfl

/-- A change of a connection that is no set-up asks for no answer at its stamp. -/
theorem applyCtrl_connChange {ch : ConnChange} (h : ∀ i, ch ≠ .rearm i) (d : Dev) (st : Stamp) (n : Nat) :
    applyCtrl d st (.connChange n ch) = applyChange d n ch := by
  cases ch with
  | rearm i => exact absurd rfl (h i)
  | _ => rfl

/-- A command's change of a connection, with its record, moves it to its place (R137, R143). -/
theorem placeOf_issueCtrl {d : Dev} {n : Nat} {c : Conn} {ch : ConnChange} (hc : getConn d n = some c)
    (hl : changeLegal c ch = true) (hr : ctrlReady d (.connChange n ch) = true) (hre : ∀ i, ch ≠ .rearm i) :
    placeOf (issueCtrl d (.connChange n ch)) n = placeAfter c ch := by
  obtain ⟨q, st, hq⟩ := bare_of ((bare_stamp n).stampCtrl d (.connChange n ch)) hc
  have hm := (getConn_markEnd_connChange (stampCtrl d (.connChange n ch)).2 n ch true n).trans hq
  rw [issueCtrl_ready hr, applyCtrl_connChange hre, placeOf_applyChange hm ((changeLegal_bare rfl ch).trans hl)]
  exact placeAfter_bare rfl ch

/-! ## RMA_CONN_CMD -/

/-- The device whose RMA_CONN_STATUS names a connection and a result (R143). -/
def connNoted (d : Dev) (n r : Nat) : Dev := d.modFolds fun f => { f with connNamed := n, connResult := r }

/-- What a command of RMA_CONN_CMD asks of a connection. -/
def connAsks : ConnCmd → ConnChange
  | .disableDrain => .quiesce false 0x02 .abortedDisabled
  | .disableAbort => .quiesce true 0x02 .abortedDisabled
  | _ => .free

/-- The states of a connection from which R143 lets a command go on. -/
def connAllows : ConnCmd → ConnState → Prop
  | .release, st => st = .disabled ∨ st = .error
  | _, st => st = .active

theorem connAsks_legal {cmd : ConnCmd} {c : Conn} (hq : cmd ≠ .query) (h : connAllows cmd c.state) :
    changeLegal c (connAsks cmd) = true := by
  cases cmd with
  | query => exact absurd rfl hq
  | disableDrain => simp [connAsks, changeLegal, show c.state = .active from h]
  | disableAbort => simp [connAsks, changeLegal, show c.state = .active from h]
  | release => rcases h with h | h <;> simp [connAsks, changeLegal, h]

section
variable {s : State} {p : Principal} {n : Nat} (ho : Open s.dev p 0x401000) (hb : s.dev.folds.connBusy = false)
include ho hb

theorem connCmd_issues {cmd : ConnCmd} {c : Conn} (hq : cmd ≠ .query) (hs : serving s.dev = true) (hr : s.dev.twin.refusing = false)
    (hc : getConn s.dev n = some c) (ha : connAllows cmd c.state) :
    command p 0x401000 (connCmd cmd n) s.dev =
      answer (issueCtrl (connNoted s.dev n 0) (.connChange n (connAsks cmd))) p 0x401000 true .done 0 0 := by
  have hcmd : connCmd cmd n s.dev = (issueCtrl (connNoted s.dev n 0) (.connChange n (connAsks cmd)), 0) := by
    cases cmd with
    | query => exact absurd rfl hq
    | disableDrain =>
      have ha : c.state = .active := ha
      simp [connCmd, hb, hs, hr, hc, ha, changeLegal, connNoted, connAsks]
    | disableAbort =>
      have ha : c.state = .active := ha
      simp [connCmd, hb, hs, hr, hc, ha, changeLegal, connNoted, connAsks]
    | release => rcases ha with ha | ha <;> simp [connCmd, hb, hs, hr, hc, ha, changeLegal, connNoted, connAsks]
  rw [command_open ho.1 ho.2, hcmd]
  rfl

/-- A command of RMA_CONN_CMD that R143 allows moves its connection at once (R137, R143). -/
theorem placeOf_connCmd {cmd : ConnCmd} {c : Conn} (hq : cmd ≠ .query) (hs : serving s.dev = true) (hr : s.dev.twin.refusing = false)
    (hc : getConn s.dev n = some c) (ha : connAllows cmd c.state) (hready : ctrlReady s.dev (.connChange n (connAsks cmd)) = true) :
    placeOf (command p 0x401000 (connCmd cmd n) s.dev) n = placeAfter c (connAsks cmd) := by
  rw [connCmd_issues ho hb hq hs hr hc ha]
  refine placeOf_issueCtrl (d := connNoted s.dev n 0) hc (connAsks_legal hq ha) hready ?_
  cases cmd <;> simp [connAsks]

end

/-- A connection that a command of RMA_CONN_CMD told to quiesce (R141). -/
theorem quiescing_of_placeAfter {d : Dev} {n r : Nat} {c : Conn} {ab : Bool} {st : Status} (ha : c.state = .active)
    (h : placeOf d n = placeAfter c (.quiesce ab r st)) :
    ∃ c', getConn d n = some c' ∧ c'.state = .quiescing ∧ c'.abort = ab ∧ c'.reason = r := by
  obtain ⟨c', hc', -, hst, hab, -, hre, -⟩ := placeOf_some h
  exact ⟨c', hc', hst, hab, by simpa [ha] using hre⟩

/-! ## The end of a quiesce -/

/-- A connection whose work has ended becomes DISABLED, and its DISCONNECT is due (R137). -/
theorem quiesceDone_conn {d : Dev} {n : Nat} {c : Conn} (hs : serving d = true) (hc : getConn d n = some c) (hst : c.state = .quiescing)
    (hq : quiesced d n c = true) :
    ∃ c', getConn (quiesceDone n d) n = some c' ∧ c'.state = .disabled ∧ c'.discSent = true := by
  have hrun : quiesceDone n d = modConn (queueFrame (changeConn d n .disable) n none (.disconnect c.reason c.f)) n
      fun c => { c with discSent := true } := by
    simp [quiesceDone, hc, hs, hst, hq]
  obtain ⟨c1, hc1, -, hst1, -⟩ := placeOf_some (placeOf_changeConn (ch := .disable) hc (by simp [changeLegal, hst]))
  have hf := getConn_modConn_self hc1 fun x => { x with sendq := x.sendq ++ [(none, .disconnect c.reason c.f)] }
  exact ⟨_, (congrArg (getConn · n) hrun).trans (getConn_modConn_self hf _), hst1, rfl⟩

theorem modConn_rst (d : Dev) (n : Nat) (f : Conn → Conn) : (modConn d n f).rst = d.rst :=
  modConn_keeps (g := fun d => d.rst) (fun _ _ _ => rfl) d n f

theorem quiesceDone_rst (d : Dev) (n : Nat) : (quiesceDone n d).rst = d.rst := by
  have hdis : (changeConn d n .disable).rst = d.rst := by
    unfold changeConn applyChange
    split
    · exact streamCtrl_rst _ _
    · split <;> exact streamCtrl_rst _ _
  unfold quiesceDone
  split
  · rfl
  · split
    · exact (modConn_rst _ _ _).trans ((modConn_rst _ _ _).trans hdis)
    · rfl

/-- A connection that no reset named stays when it is taken down (R535). -/
theorem freeAfterReset_unnamed {d : Dev} {n : Nat} (h : d.rst.freeAfter.contains n = false) : freeAfterReset d n = d := by
  rw [freeAfterReset, h]
  rfl

/-! ## RMA_CRED_CMD -/

theorem clearCredKey_folds (d : Dev) : (clearCredKey d).folds = d.folds :=
  foldl_keeps (fun d => d.folds) (fun a i => setReg a (0x402010 + 4 * i) 0) (fun _ _ => rfl) (List.range 8) d

/-- The key registers read zero once a credential command has run (R143). -/
theorem reg_clearCredKey (d : Dev) {i : Nat} (h : i < 8) : reg (clearCredKey d) (0x402010 + 4 * i) = 0 := by
  have key (l : List Nat) (e : Dev) : reg (l.foldl (fun a i => setReg a (0x402010 + 4 * i) 0) e) (0x402010 + 4 * i) =
      if i ∈ l then 0 else reg e (0x402010 + 4 * i) := by
    induction l generalizing e with
    | nil => simp
    | cons j l ih =>
      rw [List.foldl_cons, ih, reg_setReg]
      by_cases hj : i = j
      · simp [hj]
      · simp [hj, Ne.symm hj]
  exact (key (List.range 8) d).trans (if_pos (List.mem_range.2 h))

/-- The record of a credential command: ENROL with a credential, REVOKE without one (R110, R111). -/
def credBody (n : Nat) : Option Cred → CtrlBody
  | some x => .enrol n x
  | none => .credRevoke n

section
variable {d : Dev} {p : Principal} {n : Nat} {c : Option Cred} (hp : p ≠ .i3c) (hs : streamRefused d = none)
  (hr : ctrlReady d (credBody n c) = true)
include hp hs hr

/-- A credential command that can have its stamp now stores or takes away its credential (R110, R111). -/
theorem credCmd_ready : credCmd p n c d = (clearCredKey (putCred (stampCtrl d (credBody n c)).2 n c), 0) := by
  have hi := issueCtrl_ready hr
  have hl : credLocal d p = false := by simp [credLocal, hp]
  cases c with
  | some x =>
    simp only [credBody] at hi
    simp only [credCmd, hl, hs, hp, ne_eq, not_false_eq_true, if_true, hi, Bool.false_eq_true, if_false]
    rfl
  | none =>
    simp only [credBody] at hi
    simp only [credCmd, hl, hs, hp, ne_eq, not_false_eq_true, if_true, hi, Bool.false_eq_true, if_false]
    rfl

/-- What such a command leaves, of the credentials and of the key registers. -/
theorem command_credCmd (ho : Open d p 0x402000) :
    getKey (command p 0x402000 (credCmd p n c) d).folds.creds n = c ∧
      ∀ i, i < 8 → reg (command p 0x402000 (credCmd p n c) d) (0x402010 + 4 * i) = 0 := by
  rw [command_open ho.1 ho.2, credCmd_ready hp hs hr]
  refine ⟨?_, fun i hi => (reg_answer _ _ _ _ _ _ _ _).trans (reg_clearCredKey _ hi)⟩
  rw [answer_folds, clearCredKey_folds]
  exact getKey_setKey.trans (if_pos rfl)

end

/-- Settles O39: each command of RMA_CONN_CMD moves its connection to its place in R137, and a credential command stores what it names. -/
theorem connectionsAreTakenDown : Obligations.ConnectionsAreTakenDown := by
  intro s p n
  refine ⟨fun ho hb => ?_, fun c ho hb hs hr hc => ⟨fun ha hready => ?_, fun ha hready => ?_, fun hst hready => ?_⟩,
    fun c hs hc hst hq hf => ?_, fun ho hp hs => ⟨fun mgmt lo hr => ?_, fun hr => ?_⟩⟩
  · have hcmd : connCmd .query n s.dev = (connNoted s.dev n (if (getConn s.dev n).isNone then 2 else 0), 0) := by
      rw [connCmd, hb]
      rfl
    refine ⟨command p 0x401000 (connCmd .query n) s.dev, rfl, ?_⟩
    rw [command_open ho.1 ho.2, hcmd]
    exact ⟨rfl, rfl, rfl⟩
  · exact ⟨_, rfl, quiescing_of_placeAfter ha
      (placeOf_connCmd ho hb (cmd := .disableDrain) (by decide) hs hr hc ha hready)⟩
  · exact ⟨_, rfl, quiescing_of_placeAfter ha
      (placeOf_connCmd ho hb (cmd := .disableAbort) (by decide) hs hr hc ha hready)⟩
  · exact ⟨_, rfl, getConn_none_of_placeOf (placeOf_connCmd ho hb (cmd := .release) (by decide) hs hr hc hst hready)⟩
  · refine ⟨freeAfterReset (quiesceDone n s.dev) n, rfl, ?_⟩
    rw [freeAfterReset_unnamed (by rw [quiesceDone_rst]; exact hf)]
    exact quiesceDone_conn hs hc hst hq
  · exact ⟨_, rfl, command_credCmd (c := some (newCred s.dev mgmt lo)) hp hs hr ho⟩
  · exact ⟨_, rfl, command_credCmd (c := none) hp hs hr ho⟩

end Sys2Proof.Machine
end

section
/-! SUPPORT. The stages of an operation before its stamp (R130, R145, R153, R154, R166, R167, R180, R261, R262), with the statement
about them. -/
namespace Sys2Proof.Machine

theorem together_single {d : Dev} {o : Op} (h : o.group = none) : together d o = [o] := by rw [together, h]

theorem findOp_modConn (d : Dev) (m : Nat) (f : Conn → Conn) (n : Nat) (seq : Word) : findOp (modConn d m f) n seq = findOp d n seq := by
  rw [findOp, modConn_ops, findOp]

/-! ## Fetching -/

/-- The descriptors that a request asks for (R130). -/
def ringCount (p : Pull) : Nat :=
  match p.what with
  | .ring _ k => k
  | .data _ _ => 0

theorem asked_eq_sum (c : Conn) : asked c = (c.pulls.map ringCount).sum := by
  have key (ps : List Pull) (n : Nat) :
      ps.foldl (fun n p => match p.what with | .ring _ k => n + k | .data _ _ => n) n = n + (ps.map ringCount).sum := by
    induction ps generalizing n with
    | nil => simp
    | cons p ps ih =>
      rw [List.foldl_cons, ih, List.map_cons, List.sum_cons, ← Nat.add_assoc]
      cases hp : p.what <;> simp [ringCount, hp]
  rw [← Nat.zero_add (List.sum _)]
  exact key c.pulls 0

/-- The slots of a batch of `k` descriptors that lie before the ring's end (R130). -/
def firstRun (c : Conn) (k : Nat) : Nat := min k (2 ^ c.ident.sqLog - c.f.toNat % 2 ^ c.ident.sqLog)

/-- The request for the rest of a batch that crosses the ring's end (R130). -/
def secondPulls (c : Conn) (k : Nat) : List Pull :=
  if firstRun c k < k then [ringPull c (c.nextRid + 1) (c.f + BitVec.ofNat 32 (firstRun c k)) (k - firstRun c k)] else []

/-- The connection whose next batch has been asked for. -/
def batchAsked (c : Conn) (k : Nat) : Conn :=
  { c with pulls := c.pulls ++ ringPull c c.nextRid c.f (firstRun c k) :: secondPulls c k,
           nextRid := (c.nextRid + (ringPull c c.nextRid c.f (firstRun c k) :: secondPulls c k).length) % 2 ^ 32 }

theorem asked_batchAsked (c : Conn) (k : Nat) : asked (batchAsked c k) = asked c + k := by
  have hle : firstRun c k ≤ k := Nat.min_le_left _ _
  have hring (rid : Nat) (a : Word) (m : Nat) : ringCount (ringPull c rid a m) = m := rfl
  have hsecond : ((secondPulls c k).map ringCount).sum = k - firstRun c k := by
    unfold secondPulls
    split
    · simp [hring]
    · simp only [List.map_nil, List.sum_nil]
      omega
  rw [asked_eq_sum, asked_eq_sum, batchAsked]
  simp only [List.map_append, List.map_cons, List.sum_append, List.sum_cons, hring, hsecond]
  omega

theorem fetchBatch_eq (d : Dev) (n : Nat) (c : Conn) : fetchBatch d n c = setConn d n (some (batchAsked c (batchOf d n c))) := rfl

theorem fetchTurn_first {d : Dev} {g n : Nat} {b : Conn} {rest : List (Nat × Conn)} (ho : fetchOpen d g = true)
    (hf : fetchOrder d g = (n, b) :: rest) :
    fetchTurn g d = (touchCtx (setConn d n (some (batchAsked b (batchOf d n b)))) n).modNet
      fun t => { t with turns := putKey t.turns g n } := by
  rw [fetchTurn, hf, ho, ← fetchBatch_eq]
  rfl

/-! ## The start -/

section
variable {d : Dev} {o : Op} {c : Conn} (h : InStage d o c .fetched) (he : ∀ p ∈ earlierOps d o, p.stage ≠ .fetched)
include h he

/-- A descriptor whose sequence has executed holds its stored entry (R134). -/
theorem startOp_duplicate {r : Entry} (hx : isExecuted c o.seq = true) (hr : stored c o.seq = some r) :
    startOp o.conn o.seq d = setOp d { o with stage := .holding, done := some (dupEntry r r.level) } := by
  obtain ⟨ho, hc, -, hst⟩ := h
  have hany : ((earlierOps d o).any fun p => p.stage = .fetched) = false := by simpa using he
  simp [startOp, ho, hc, hst, hany, hx, hr]

/-- An operation alone that passes the checks of R145 is translated. -/
theorem startOp_translated {d2 : Dev} {o2 : Op} (hx : isExecuted c o.seq = false) (hb : ∀ b ∈ d.net.badTail, b.1 ≠ o.conn)
    (hg : ∀ g ∈ d.net.groups, g.conn ≠ o.conn) (hi : o.desc.inGroup = false) (hl : layoutOf o.desc = none)
    (hu : ∀ n, o.desc.op ≠ .undef n) (hrr : o.desc.op ≠ .regRead) (hrw : o.desc.op ≠ .regWrite)
    (ht : translateOp (setOp d { o with group := none, last := true, stage := .ordering })
      { o with group := none, last := true, stage := .ordering } c.ident.fold [] = (d2, .ok o2)) :
    startOp o.conn o.seq d = setOp d2 o2 := by
  obtain ⟨ho, hc, -, hst⟩ := h
  have hany : ((earlierOps d o).any fun p => p.stage = .fetched) = false := by simpa using he
  have hbad : (d.net.badTail.find? fun b => b.1 = o.conn) = none := by simpa using hb
  have hgroup : (d.net.groups.find? fun g => g.conn = o.conn) = none := by simpa using hg
  have hj : joinGroup d o = (d, none) := by simp [joinGroup, hgroup, hi]
  simp [startOp, ho, hc, hst, hany, hx, hbad, hj, hi, hl, hrr, hrw, ht]

end

/-! ## Ordering, the pull and the fill -/

/-- The stage after the ordering rules (R145): the pull of write data, else the fill of a region's lines, else none is needed. -/
def orderedStage (x : Desc) : Stage := if pullsData x then .pulling else if usesHandle x.op then .filling else .ready

theorem findOp_afterOrder {d : Dev} {o : Op} (h : findOp d o.conn o.seq = some o) :
    findOp (afterOrder d o) o.conn o.seq = some { o with stage := orderedStage o.desc } := by
  unfold afterOrder orderedStage
  split
  · extract_lets d1
    have h1 : findOp d1 o.conn o.seq = some { o with stage := .pulling } := findOp_setOp h rfl rfl
    split
    · exact (findOp_modConn _ _ _ _ _).trans h1
    · exact h1
  · exact findOp_setOp h rfl rfl

/-- An operation alone that its order rule lets go leaves the ordering (R153, R154). -/
theorem releaseOrder_ordered {d : Dev} {o : Op} {c : Conn} (h : InStage d o c .ordering)
    (hok : (if o.desc.fence then fenceOk d o else orderOk d o) = true) : releaseOrder o.desc.fence o.conn o.seq d = afterOrder d o := by
  obtain ⟨ho, -, hg, hst⟩ := h
  have hf : fenced d o = o.desc.fence := by simp [fenced, together_single hg]
  simp only [releaseOrder, ho, hst, hf, decide_true, Bool.true_and]
  exact if_pos hok

theorem pullDone_whole {d : Dev} {o : Op} {c : Conn} (h : InStage d o c .pulling) (hd : o.desc.length.toNat ≤ o.dataGot) :
    pullDone o.conn o.seq none d = setOp d { o with stage := .filling } := by
  obtain ⟨ho, -, -, hst⟩ := h
  simp [pullDone, ho, hst, Nat.not_lt.2 hd]

theorem StampKeeps.poisonLines {α : Type} {g : Dev → α} (h : StampKeeps g) (d : Dev) (k : Nat) (ls : List Nat) :
    g (poisonLines d k ls) = g d := by
  have hnew (l : List Nat) (e : Dev) :
      g (l.foldl (fun a l => raise (followLine a l) 0x0805 (.slice (sliceOf l)) (addressPayload (l * 64) k (poisonLoc d k l)) []) e) =
        g e :=
    foldl_keeps g _ (fun a l => (h.toEventKeeps.raise _ _ _ _ _).trans (h.hall a _)) l e
  unfold Machine.poisonLines
  dsimp only
  split
  · exact (foldl_keeps g _ (fun _ _ => h.tell _ _) _ _).trans ((hnew _ _).trans ((h.twin _ _).trans (h.dur d _)))
  · exact (hnew _ _).trans ((h.twin _ _).trans (h.dur d _))

theorem StampKeeps.fillLines {α : Type} {g : Dev → α} (h : StampKeeps g) (d : Dev) (ls bad : List Nat) : g (fillLines d ls bad) = g d :=
  (foldl_keeps g _ (fun _ _ => h.useLine _ _ _) _ _).trans ((h.dur _ _).trans (h.poisonLines _ _ _))

/-- The fill of an operation alone that changes nothing and whose leaves can all be read makes it ready (R167). -/
theorem findOp_fillDone {d : Dev} {o : Op} {c : Conn} (h : InStage d o c .filling) (hm : mutating o.desc = false)
    (hl : ∀ l ∈ filledLines d o, leafGone d (l / 64) = false) :
    findOp (fillDone o.conn o.seq [] d) o.conn o.seq = some { o with stage := .ready } := by
  obtain ⟨ho, -, hg, hst⟩ := h
  have hgone : ((filledLines d o).filter fun l => leafGone d (l / 64)) = [] := by simpa using hl
  have hrun : fillDone o.conn o.seq [] d = setOp (fillLines d (filledLines d o) []) { o with stage := .ready } := by
    simp [fillDone, ho, hst, hm, hg, hgone, addNums, leavesOf]
  have hf : findOp (fillLines d (filledLines d o) []) o.conn o.seq = some o := by
    rw [findOp, ops_stamp.fillLines]
    exact ho
  rw [hrun]
  exact findOp_setOp hf rfl rfl

/-! ## The budget -/

theorem admitLoop_still {d : Dev} (h : ∀ p ∈ d.net.ops, p.stage ≠ .budget) (n : Nat) : admitLoop n d = d := by
  have hhead (g : Nat) : budgetHead d g = none := by
    rw [budgetHead, List.find?_eq_none]
    intro p hp
    simp [h p hp]
  have hturn : admitTurn d = none := by
    rw [admitTurn, List.findSome?_eq_none_iff]
    intro i _
    simp only [hhead]
  cases n with
  | zero => rfl
  | succ n => simp only [admitLoop, hturn]

/-- An operation that has been admitted with its lines reserved (R261). -/
def admittedOp (d : Dev) (o : Op) : Op := { o with stage := .stamp, admitted := some (budgetLines d o), lines := budgetLines d o }

/-- The device in which an operation alone has been admitted, and its gallery has had its turn (R261, R262). -/
def admittedDev (d : Dev) (o : Op) : Dev :=
  (setOp d (admittedOp d o)).modNet fun t => { t with opTurn := (homeOf o.conn + 1) % 16 }

section
variable {d : Dev} {o : Op} {c : Conn} (h : InStage d o c .budget) (hone : ∀ p ∈ d.net.ops, p.stage = .budget → p = o)
include h hone

theorem budgetHead_home : budgetHead d (homeOf o.conn) = some o := by
  obtain ⟨ho, -, hg, hst⟩ := h
  have hsome : (budgetHead d (homeOf o.conn)).isSome = true := by
    rw [budgetHead, List.find?_isSome]
    exact ⟨o, findOp_mem ho, by simp [together_single hg, hst, hg]⟩
  obtain ⟨p, hp⟩ := Option.isSome_iff_exists.1 hsome
  have hps : p.stage = .budget := by
    have hpred := List.find?_some hp
    simp only [Bool.and_eq_true, decide_eq_true_eq] at hpred
    exact hpred.1.1.2
  rw [hp, hone p (List.mem_of_find?_eq_some hp) hps]

omit h in
theorem budgetHead_other {g : Nat} (hne : g ≠ homeOf o.conn) : budgetHead d g = none := by
  rw [budgetHead, List.find?_eq_none]
  intro p hp hpred
  simp only [Bool.and_eq_true, decide_eq_true_eq] at hpred
  obtain ⟨⟨⟨hhome, hst⟩, -⟩, -⟩ := hpred
  exact hne (by rw [← hhome, hone p hp hst])

/-- The only operation that waits for room is admitted in one turn, whichever gallery's turn it is (R262). -/
theorem admitTurn_one (ha : admits d (budgetLines d o).length = true) : admitTurn d = some (admittedDev d o) := by
  have hop : admitOp d o = some (setOp d (admittedOp d o)) := by
    obtain ⟨-, -, hg, -⟩ := h
    simp [admitOp, together_single hg, ha, admittedOp]
  have hlt : homeOf o.conn < 16 := Nat.mod_lt _ (by decide)
  cases ht : admitTurn d with
  | none =>
    rw [admitTurn, List.findSome?_eq_none_iff] at ht
    have hmiss := ht ((homeOf o.conn + 16 - d.net.opTurn % 16) % 16) (List.mem_range.2 (Nat.mod_lt _ (by decide)))
    have hgal : (d.net.opTurn + (homeOf o.conn + 16 - d.net.opTurn % 16) % 16) % 16 = homeOf o.conn := by omega
    simp [hgal, budgetHead_home h hone, hop] at hmiss
  | some a =>
    obtain ⟨i, -, hi⟩ := List.exists_of_findSome?_eq_some ht
    by_cases hgal : (d.net.opTurn + i) % 16 = homeOf o.conn
    · simp only [hgal, budgetHead_home h hone, hop, Option.map_some, Option.some.injEq] at hi
      exact congrArg some hi.symm
    · simp only [budgetHead_other hone hgal] at hi
      cases hi

omit h in
theorem admittedDev_still : ∀ p ∈ (admittedDev d o).net.ops, p.stage ≠ .budget := by
  intro p hp hst
  obtain ⟨q, hq, hqp⟩ := List.mem_map.1 hp
  split at hqp
  · subst hqp
    cases hst
  case isFalse hne =>
    subst hqp
    rw [hone q hq hst] at hne
    simp [admittedOp] at hne

theorem admitAll_one (ha : admits d (budgetLines d o).length = true) : admitAll d = admittedDev d o := by
  rw [admitAll, admitLoop, admitTurn_one h hone ha]
  exact admitLoop_still (admittedDev_still hone) _

end

/-- An operation alone that waited too long for room or for its stamp ends (R262). -/
theorem admitExpiry_ended {d : Dev} {o : Op} {c : Conn} {st : Stage} (h : InStage d o c st) (hst : st = .budget ∨ st = .stamp)
    (hw : ∀ p ∈ d.net.ops, p.stage ≠ .waiting) :
    Ended (admitExpiry o.conn o.seq d) o c (endEntry o.desc .budgetExhausted 0) := by
  obtain ⟨ho, hc, hg, rfl⟩ := h
  have hrun : admitExpiry o.conn o.seq d = endOp d o (endEntry o.desc .budgetExhausted 0) none := by
    simp [admitExpiry, ho, hst, failOp, failWith, hg]
  obtain ⟨hnone, ⟨c', hc', hstored, hcount, hstate, -⟩, -⟩ :=
    endOp_conn (o := o) (endEntry o.desc .budgetExhausted 0) none (fun p hp hs => absurd hs (hw p hp)) hc (by simp [endEntry])
  rw [hrun]
  exact ⟨hnone, c', hc', hstored, hcount, hstate⟩

/-! ## Groups that are broken up -/

theorem wakeLoop_ops_subset : ∀ (k : Nat) (d : Dev) (ts : List Nat), (wakeLoop k d ts).net.ops ⊆ d.net.ops
  | 0, d, ts => by simp [wakeLoop]
  | _ + 1, d, [] => by simp [wakeLoop]
  | k + 1, d, t :: ts => by
    unfold wakeLoop
    split
    · exact wakeLoop_ops_subset k d ts
    · split
      · refine List.Subset.trans (wakeLoop_ops_subset k _ _) ?_
        rw [endCore_ops]
        exact fun _ => List.mem_of_mem_filter
      · exact wakeLoop_ops_subset k d ts

/-- No operation with an ended one's connection and sequence is left, and none is new. -/
theorem mem_endOp_ops {d : Dev} {o q : Op} {e : Entry} {x : Option (DWord × Word × List Byte)} (h : q ∈ (endOp d o e x).net.ops) :
    q ∈ d.net.ops ∧ ¬ (q.conn = o.conn ∧ q.seq = o.seq) := by
  have hq := wakeLoop_ops_subset _ _ _ h
  rw [endCore_ops, List.mem_filter] at hq
  exact ⟨hq.1, fun hm => by simp [hm] at hq⟩

theorem mem_foldl_endOp_ops {q : Op} (e : Op → Entry) (ms : List Op) (d : Dev)
    (h : q ∈ (ms.foldl (fun a o => endOp a o (e o) none) d).net.ops) : ∀ p ∈ ms, ¬ (q.conn = p.conn ∧ q.seq = p.seq) := by
  have key : q ∈ d.net.ops ∧ ∀ p ∈ ms, ¬ (q.conn = p.conn ∧ q.seq = p.seq) := by
    induction ms generalizing d with
    | nil => exact ⟨h, by simp⟩
    | cons m ms ih =>
      obtain ⟨hq, hms⟩ := ih _ h
      obtain ⟨hd, hm⟩ := mem_endOp_ops hq
      exact ⟨hd, List.forall_mem_cons.2 ⟨hm, hms⟩⟩
  exact key.2

/-- A group that breaks a limit leaves no group of its connection open, and every member fetched has ended (R180). -/
theorem breachGroup_ends (d : Dev) (n : Nat) (first : Word) (index : Nat) :
    (∀ g ∈ (breachGroup d n first index).net.groups, g.conn ≠ n) ∧
      ∀ p ∈ membersOf d n first, findOp (breachGroup d n first index) n p.seq = none := by
  refine ⟨fun g hg => by simpa using (List.mem_filter.1 hg).2, fun p hp => ?_⟩
  have hconn : p.conn = n := by
    have := (List.mem_filter.1 (List.mem_filter.1 hp).1).2
    simpa using this
  rw [findOp, List.find?_eq_none]
  intro q hq hqp
  have hne := mem_foldl_endOp_ops (fun o => endEntry o.desc .malformed (groupDetail index false)) (membersOf d n first) d hq p hp
  simp only [Bool.and_eq_true, decide_eq_true_eq] at hqp
  exact hne ⟨hqp.1.trans hconn.symm, hqp.2⟩

theorem groupTimeout_breach {d : Dev} {n : Nat} {first : Word} {b : Conn} (hc : getConn d n = some b)
    (hg : ∃ g ∈ d.net.groups, g.conn = n ∧ g.first = first) (hf : b.f = b.sqTail) (hs : ∀ p ∈ opsOf d n, p.stage ≠ .fetched) :
    groupTimeout n first d = breachGroup d n first ((membersOf d n first).length - 1) := by
  have hany : (d.net.groups.any fun g => g.conn = n && g.first = first) = true := by simpa using hg
  have hall : ((opsOf d n).all fun o => o.stage ≠ .fetched) = true := by simpa using hs
  simp only [groupTimeout, hc, hany, hf, hall, decide_true, Bool.and_self, if_true]

/-- Settles O37: each stage's row does its own effect on an operation alone, and the budget's turns find the only one that waits. -/
theorem operationsPassTheirStages : Obligations.OperationsPassTheirStages := by
  intro s o c
  refine ⟨fun g n b rest ho hf => ?_, fun h he => ⟨fun r hx hr => ?_, fun o1 d2 o2 hx hb hg hi hl hu hrr hrw ho1 ht => ?_⟩,
    fun h st hst => ⟨fun hf hok => ?_, fun hf hok => ?_⟩, fun h hd => ?_, fun h hm hl => ?_, fun h hq hone ha => ?_,
    fun st h hst hw => ?_, fun n first b hc hg hf hs => ?_⟩
  · refine ⟨fetchTurn g s.dev, rfl, batchAsked b (batchOf s.dev n b), ?_, rfl, asked_batchAsked b _, ⟨secondPulls b _, rfl⟩, rfl, ?_⟩
    · rw [fetchTurn_first ho hf]
      exact (getConn_touchCtx _ n n).trans (getConn_setConn_self _ n _)
    · rw [fetchTurn_first ho hf]
      exact getKey_putKey.trans (if_pos rfl)
  · exact becomes_of rfl (startOp_duplicate h he hx hr)
  · subst ho1
    exact becomes_of rfl (startOp_translated h he hx hb hg hi hl hu hrr hrw ht)
  · refine ⟨releaseOrder false o.conn o.seq s.dev, rfl, ?_⟩
    rw [← hf, releaseOrder_ordered h (by rw [hf]; exact hok), hst]
    exact findOp_afterOrder h.1
  · refine ⟨releaseOrder true o.conn o.seq s.dev, rfl, ?_⟩
    rw [← hf, releaseOrder_ordered h (by rw [hf]; exact hok), hst]
    exact findOp_afterOrder h.1
  · exact becomes_of rfl (pullDone_whole h hd)
  · exact ⟨fillDone o.conn o.seq [] s.dev, rfl, findOp_fillDone h hm hl, fillDone_mem _ _ _ _⟩
  · obtain ⟨hdue, hqueue, hwaits⟩ := hq
    refine ⟨settleFully (admitAll s.dev), rfl, ?_⟩
    have hset : settleFully (admittedDev s.dev o) = admittedDev s.dev o := settleFully_idle hdue hqueue hwaits
    rw [admitAll_one h hone ha, hset]
    exact findOp_setOp h.1 rfl rfl
  · exact ⟨admitExpiry o.conn o.seq s.dev, rfl, admitExpiry_ended h hst hw⟩
  · refine ⟨groupTimeout n first s.dev, rfl, ?_⟩
    rw [groupTimeout_breach hc hg hf hs]
    exact breachGroup_ends s.dev n first _

end Sys2Proof.Machine
end

section
/-! SUPPORT. Connections as they are set up, and the timers that undo it (R112, R113, R116, R117, R118, R137), with the statement about
them. -/
namespace Sys2Proof.Machine

/-! ## The connections as a list -/

theorem mem_of_getKey_eq_some {α : Type} {m : List (Nat × α)} {a : Nat} {v : α} (h : getKey m a = some v) : (a, v) ∈ m := by
  induction m with
  | nil => cases h
  | cons x t ih =>
    rw [getKey] at h
    split at h
    case isTrue hx => exact List.mem_cons.2 (.inl (Prod.ext hx.symm (Option.some.inj h).symm))
    case isFalse => exact List.mem_cons_of_mem _ (ih h)

/-- A put stands between a part of the list before it and a part after it. -/
theorem putKey_split {α : Type} (m : List (Nat × α)) (a : Nat) (v : α) :
    ∃ l r, putKey m a v = l ++ (a, v) :: r ∧ (∀ x ∈ l, x ∈ m) ∧ ∀ x ∈ r, x ∈ m := by
  induction m with
  | nil => exact ⟨[], [], rfl, by simp, by simp⟩
  | cons y t ih =>
    obtain ⟨l, r, he, hl, hr⟩ := ih
    rw [putKey]
    split
    · exact ⟨[], y :: t, rfl, by simp, fun _ hx => hx⟩
    · split
      · exact ⟨[], t, rfl, by simp, fun _ hx => List.mem_cons_of_mem _ hx⟩
      · refine ⟨y :: l, r, by rw [he]; rfl, fun x hx => ?_, fun x hx => List.mem_cons_of_mem _ (hr x hx)⟩
        rcases List.mem_cons.1 hx with rfl | hx
        · exact List.mem_cons_self
        · exact List.mem_cons_of_mem _ (hl x hx)

/-- A put of a key replaces no entry but the one that was found under it. -/
theorem mem_putKey_or_eq {α : Type} {m : List (Nat × α)} {a : Nat} {v w : α} (h : getKey m a = some w) {x : Nat × α} (hx : x ∈ m) :
    x ∈ putKey m a v ∨ x = (a, w) := by
  induction m with
  | nil => cases h
  | cons y t ih =>
    rw [getKey] at h
    rw [putKey]
    split
    · exact .inl (List.mem_cons_of_mem _ hx)
    · split
      case isTrue ha =>
        rcases List.mem_cons.1 hx with rfl | hx
        · rw [if_pos ha.symm] at h
          exact .inr (Prod.ext ha.symm (Option.some.inj h))
        · exact .inl (List.mem_cons_of_mem _ hx)
      case isFalse ha =>
        rw [if_neg (Ne.symm ha)] at h
        rcases List.mem_cons.1 hx with rfl | hx
        · exact .inl List.mem_cons_self
        · exact (ih h hx).imp_left (List.mem_cons_of_mem _)

/-- A property of each connection that a change of one connection leaves as it was holds of all after it just when it did before. -/
theorem forall_conns_modConn {P : Nat × Conn → Prop} {f : Conn → Conn} (hP : ∀ n c, P (n, f c) ↔ P (n, c)) (d : Dev) (n : Nat) :
    (∀ x ∈ (modConn d n f).net.conns, P x) ↔ ∀ x ∈ d.net.conns, P x := by
  cases hc : getConn d n with
  | none => simp only [modConn, hc]
  | some c =>
    have hm : (modConn d n f).net.conns = putKey d.net.conns n (f c) := by
      simp only [modConn, hc]
      rfl
    obtain ⟨l, r, he, -⟩ := putKey_split d.net.conns n (f c)
    rw [hm]
    refine ⟨fun h x hx => ?_, fun h x hx => ?_⟩
    · rcases mem_putKey_or_eq hc hx with hx | rfl
      · exact h x hx
      · exact (hP n c).1 (h _ (by rw [he]; simp))
    · rcases mem_putKey hx with rfl | hx
      · exact (hP n c).2 (h _ (mem_of_getKey_eq_some hc))
      · exact h x hx

/-- A property that looks at no send queue and at no set-up stamp is kept by events, stamps and sent frames. -/
theorem forall_conns_stamp {P : Nat × Conn → Prop} (hq : ∀ n c q, P (n, { c with sendq := q }) ↔ P (n, c))
    (hst : ∀ n c st, P (n, { c with setupSt := st }) ↔ P (n, c)) : StampKeeps fun d => ∀ x ∈ d.net.conns, P x :=
  { evt := fun _ _ => rfl, lost := fun _ => rfl, twin := fun _ _ => rfl, ldg := fun _ _ => rfl, dur := fun _ _ => rfl,
    ftl := fun _ _ => rfl, sent := fun _ _ => rfl, hall := fun _ _ => rfl,
    frame := fun d m _ _ => propext (forall_conns_modConn (fun n c => hq n c _) d m),
    setup := fun d m st => propext (forall_conns_modConn (fun n c => hst n c st) d m) }

/-! ## The answers that are due -/

/-- The only answers that are due are those of connection `n` to `src`, under the identity `i`. -/
def DueOnly (n : Nat) (src : Source) (i : ConnIdent) (d : Dev) : Prop :=
  ∀ x ∈ d.net.conns, x.2.rspDue = none ∨ x.1 = n ∧ x.2.rspDue = some src ∧ x.2.ident = i

theorem dueOnly_stamp (n : Nat) (src : Source) (i : ConnIdent) : StampKeeps (DueOnly n src i) :=
  forall_conns_stamp (P := fun x => x.2.rspDue = none ∨ x.1 = n ∧ x.2.rspDue = some src ∧ x.2.ident = i)
    (fun _ _ _ => Iff.rfl) (fun _ _ _ => Iff.rfl)

/-- The part of `flushSetups` that answers one connection, as the device `d` lets it go on. -/
def answerSetup (d a : Dev) (x : Nat × Conn) : Dev :=
  match x.2.rspDue, x.2.setupSt with
  | some src, some st =>
    if x.2.state = .armed && (!streaming d || decide (st ≤ d.twin.peerStamp)) then
      emitTo (modConn a x.1 fun c => { c with rspDue := none }) (if x.2.ident.mgmt then 16 else portOfPath d false x.1 0) src.ip
        (outRsp src x.1 x.2.ident.rsp)
    else a
  | _, _ => a

theorem flushSetups_eq (d : Dev) : flushSetups d = d.net.conns.foldl (answerSetup d) d := rfl

theorem answerSetup_none {d a : Dev} {x : Nat × Conn} (h : x.2.rspDue = none) : answerSetup d a x = a := by rw [answerSetup, h]

theorem foldl_answerSetup_none {d : Dev} (l : List (Nat × Conn)) (h : ∀ x ∈ l, x.2.rspDue = none) (a : Dev) :
    l.foldl (answerSetup d) a = a := by
  induction l generalizing a with
  | nil => rfl
  | cons x l ih => rw [List.foldl_cons, answerSetup_none (h x List.mem_cons_self), ih fun y hy => h y (List.mem_cons_of_mem _ hy)]

theorem answerSetup_due {d a : Dev} {n : Nat} {c : Conn} {src : Source} {st : Stamp} (hr : c.rspDue = some src) (hst : c.setupSt = some st)
    (ha : c.state = .armed) (hs : streaming d = true → st ≤ d.twin.peerStamp) :
    answerSetup d a (n, c) = emitTo (modConn a n fun c => { c with rspDue := none }) (if c.ident.mgmt then 16 else portOfPath d false n 0)
      src.ip (outRsp src n c.ident.rsp) := by
  have hgo : (!streaming d || decide (st ≤ d.twin.peerStamp)) = true := by
    cases hb : streaming d with
    | false => rfl
    | true => simpa [hb] using hs hb
  simp [answerSetup, hr, hst, ha, hgo]

/-- A device in which one connection's answer is due, and may leave, sends it and no other. -/
theorem flushSetups_one {d : Dev} {n : Nat} {c : Conn} {src : Source} {st : Stamp} {l r : List (Nat × Conn)}
    (hd : d.net.conns = l ++ (n, c) :: r) (hl : ∀ x ∈ l, x.2.rspDue = none) (hr : ∀ x ∈ r, x.2.rspDue = none)
    (hdue : c.rspDue = some src) (hst : c.setupSt = some st) (ha : c.state = .armed) (hs : streaming d = true → st ≤ d.twin.peerStamp) :
    flushSetups d = emitTo (modConn d n fun c => { c with rspDue := none }) (if c.ident.mgmt then 16 else portOfPath d false n 0)
      src.ip (outRsp src n c.ident.rsp) := by
  rw [flushSetups_eq, hd, List.foldl_append, foldl_answerSetup_none l hl, List.foldl_cons, foldl_answerSetup_none r hr,
    answerSetup_due hdue hst ha hs]

theorem askHop_modConn (d : Dev) (n : Nat) (f : Conn → Conn) (p : Nat) (ip : BitVec 128) : askHop (modConn d n f) p ip = askHop d p ip := by
  have hi : (modConn d n f).idUse = d.idUse := modConn_keeps (g := fun d => d.idUse) (fun _ _ _ => rfl) d n f
  have hp : (modConn d n f).net.ports = d.net.ports := modConn_keeps (g := fun d => d.net.ports) (fun _ _ _ => rfl) d n f
  exact askHop_congr hi (by rw [hp]) ip

/-- What answers a connection whose answer is the only one due leaves that answer last sent, or sends nothing. -/
theorem answerSetup_sent {d : Dev} {n : Nat} {src : Source} {i : ConnIdent} {x : Nat × Conn}
    (h : x.2.rspDue = none ∨ x.1 = n ∧ x.2.rspDue = some src ∧ x.2.ident = i) (a : Dev) :
    (answerSetup d a x).sent = a.sent ∨ ∃ l, (answerSetup d a x).sent = outRsp src n i.rsp :: l := by
  obtain ⟨m, c⟩ := x
  rcases h with h | ⟨rfl, h, rfl⟩
  · exact .inl (by rw [answerSetup_none h])
  · unfold answerSetup
    rw [h]
    cases c.setupSt with
    | none => exact .inl rfl
    | some st =>
      dsimp only
      split
      · exact .inr ⟨_, rfl⟩
      · exact .inl rfl

theorem foldl_answerSetup_sent {d : Dev} {n : Nat} {src : Source} {i : ConnIdent} (l : List (Nat × Conn))
    (h : ∀ x ∈ l, x.2.rspDue = none ∨ x.1 = n ∧ x.2.rspDue = some src ∧ x.2.ident = i) (a : Dev)
    (ha : ∃ k, a.sent = outRsp src n i.rsp :: k) : ∃ k, (l.foldl (answerSetup d) a).sent = outRsp src n i.rsp :: k := by
  induction l generalizing a with
  | nil => exact ha
  | cons x l ih =>
    refine ih (fun y hy => h y (List.mem_cons_of_mem _ hy)) _ ?_
    rcases answerSetup_sent (h x List.mem_cons_self) a with he | he
    · rw [he]
      exact ha
    · exact he

/-- A connection's answer that is due and may leave, and is the only one due, is the last frame sent. -/
theorem flushSetups_sent {d : Dev} {n : Nat} {c : Conn} {src : Source} {st : Stamp} (hd : DueOnly n src c.ident d)
    (hc : getConn d n = some c) (hdue : c.rspDue = some src) (hst : c.setupSt = some st) (ha : c.state = .armed)
    (hs : streaming d = false) : ∃ l, (flushSetups d).sent = outRsp src n c.ident.rsp :: l := by
  obtain ⟨l, r, hlr⟩ := List.append_of_mem (mem_of_getKey_eq_some hc)
  have hr (x : Nat × Conn) (hx : x ∈ r) : x.2.rspDue = none ∨ x.1 = n ∧ x.2.rspDue = some src ∧ x.2.ident = c.ident :=
    hd x (by rw [hlr]; simp [hx])
  have hone (a : Dev) : ∃ k, (answerSetup d a (n, c)).sent = outRsp src n c.ident.rsp :: k := by
    rw [answerSetup_due hdue hst ha fun h => absurd h (by simp [hs])]
    exact ⟨_, rfl⟩
  rw [flushSetups_eq, hlr, List.foldl_append, List.foldl_cons]
  exact foldl_answerSetup_sent r hr _ (hone _)

theorem flushSetups_ctxCache (d : Dev) : (flushSetups d).net.ctxCache = d.net.ctxCache := by
  refine foldl_keeps (fun a => a.net.ctxCache) (answerSetup d) (fun a x => ?_) d.net.conns d
  unfold answerSetup
  split
  · split
    · exact modConn_keeps (g := fun a => a.net.ctxCache) (fun _ _ _ => rfl) a x.1 fun c => { c with rspDue := none }
    · rfl
  · rfl

/-! ## A unit that streams nothing -/

theorem refuseAtLimit_resyncing (d : Dev) : (refuseAtLimit d).twin.resyncing = d.twin.resyncing := by
  unfold refuseAtLimit
  split
  · rw [raiseOp_twin]
    rfl
  · rfl

theorem takeStamp_resyncing (d : Dev) : (takeStamp d).2.twin.resyncing = d.twin.resyncing := by
  unfold takeStamp
  dsimp only
  split <;> rw [refuseAtLimit_resyncing] <;> simp

theorem streaming_takeStamp (d : Dev) : streaming (takeStamp d).2 = streaming d := by
  rw [streaming, (takeStamp_role d).1.1, takeStamp_resyncing, streaming]

theorem streaming_noteLines (d : Dev) (st : Stamp) (ls : List Nat) : streaming (noteLines d st ls) = streaming d :=
  (run_twin (fun t => decide (t.st = .active) || (decide (t.st = .unpaired) && t.resyncing)) fun _ _ _ _ => rfl).note d st ls

/-- A unit that streams nothing streams nothing after a stamp. -/
theorem streaming_stampCtrl {d : Dev} (h : streaming d = false) (b : CtrlBody) : streaming (stampCtrl d b).2 = false := by
  have hf : forward (takeStamp d).2 (takeStamp d).1 (.ctrl (takeStamp d).1 b) = (takeStamp d).2 := by
    simp [forward, streaming_takeStamp, h]
  rw [stampCtrl, hf]
  rw [streaming, noteSetup_twin]
  exact (streaming_noteLines _ _ _).trans ((streaming_takeStamp d).trans h)

/-! ## CONNECT_REQ -/

section
variable {d : Dev} {h : Hdr} {r : ConnectReq} (pubOk : Bool) (hf : FrameIn d h) (ht : headType h.head = some .connectReq) (hc : h.conn = 0)
  (hp : h.path = 0) (hl : netField h.head 2 2 = 176)
include hf ht hc hp hl

theorem connectReq_unknown (hk : getKey d.folds.creds r.credId = none) : connectReq h pubOk r d = countPort d h.port 0x11C := by
  simp [connectReq, headCheck_frameIn hf ht, hc, hp, hl, hk]

theorem connectReq_forged {cr : Cred} (hk : getKey d.folds.creds r.credId = some cr) (hm : reqMacOk cr.key h.head r = false) :
    connectReq h pubOk r d = countPort d h.port 0x11C := by
  simp [connectReq, headCheck_frameIn hf ht, hc, hp, hl, hk, hm]

variable {cr : Cred} (hk : getKey d.folds.creds r.credId = some cr) (hm : reqMacOk cr.key h.head r = true) (hg : cr.mgmt ↔ h.port = 16)
include hk hm hg

theorem connectReq_again {x : Nat × Conn} (hr : repeated d r = some x) :
    connectReq h pubOk r d = flushSetups (modConn d x.1 fun c => { c with rspDue := some h.src }) := by
  simp [connectReq, headCheck_frameIn hf ht, hc, hp, hl, hk, hm, hg, hr]

theorem connectReq_new (hr : repeated d r = none) : connectReq h pubOk r d = setUp h pubOk r cr d := by
  simp [connectReq, headCheck_frameIn hf ht, hc, hp, hl, hk, hm, hg, hr]

end

theorem armed_of_repeated {d : Dev} {r : ConnectReq} {n : Nat} {c : Conn} (h : repeated d r = some (n, c)) : c.state = .armed := by
  unfold repeated at h
  split at h
  · cases h
  · have hp := List.find?_some h
    simp only [Bool.and_eq_true, decide_eq_true_eq] at hp
    exact hp.1.1

/-- A repeat is answered again, with the answer that its connection keeps (R118). -/
theorem flushSetups_again {d : Dev} {n : Nat} {c : Conn} {st : Stamp} (src : Source) (ha : c.state = .armed) (hc : getConn d n = some c)
    (hn : NoneDue d) (hst : c.setupSt = some st) (hs : streaming d = true → st ≤ d.twin.peerStamp) :
    (flushSetups (modConn d n fun c => { c with rspDue := some src })).sent =
      outRsp src n c.ident.rsp :: (askHop d (if c.ident.mgmt then 16 else portOfPath d false n 0) src.ip ++ d.sent) := by
  have hm : modConn d n (fun c => { c with rspDue := some src }) = setConn d n (some { c with rspDue := some src }) := by
    simp only [modConn, hc]
  obtain ⟨l, r, he, hl, hr⟩ := putKey_split d.net.conns n { c with rspDue := some src }
  have hone := flushSetups_one (d := setConn d n (some { c with rspDue := some src })) he (fun x hx => hn x (hl x hx))
    (fun x hx => hn x (hr x hx)) rfl hst ha hs
  rw [hm, hone]
  show outRsp src n c.ident.rsp :: (askHop (modConn _ _ _) _ _ ++ (modConn _ _ _).sent) = _
  rw [askHop_modConn, modConn_sent, ← hm, askHop_modConn, modConn_sent, hm]
  rfl

/-! ## A new set-up -/

theorem serving_of_setupRefusal {d : Dev} {pubOk : Bool} {r : ConnectReq} {cr : Cred} (h : setupRefusal d pubOk r cr = none) :
    serving d = true := by
  by_contra hs
  have hs : serving d = false := by simpa using hs
  unfold setupRefusal at h
  dsimp only at h
  split at h
  · cases h
  · simp [hs] at h

theorem pickNumber_dev (d : Dev) : (pickNumber d).2.2 = { d with freeIdx := d.freeIdx + 2 } := rfl

/-- A new connection of a number, whose answer is due to `src` (R118). -/
def waitingConn (d : Dev) (n : Nat) (i : ConnIdent) (src : Source) : Conn := { newConn d n i with rspDue := some src, setupSt := none }

/-- The device after a new connection's context and its record (R118). -/
def joinConn (d : Dev) (n : Nat) (i : ConnIdent) (src : Source) : Dev :=
  flushSetups (cacheCtx (streamCtrl (setConn d n (some (waitingConn d n i src))) (.connNew n i)) n)

theorem getConn_cacheCtx (d : Dev) (m n : Nat) : getConn (cacheCtx d m) n = getConn d n := rfl

/-- A new connection stands as it was made, but for what its record and its answer change. -/
theorem getConn_joinConn (d : Dev) (n : Nat) (i : ConnIdent) (src : Source) :
    ∃ q st due, getConn (joinConn d n i src) n = some { newConn d n i with sendq := q, setupSt := st, rspDue := due } := by
  obtain ⟨q, st, hq⟩ := getConn_streamCtrl (.connNew n i) (getConn_setConn_self d n (some (waitingConn d n i src)))
  obtain ⟨due, hdue⟩ := flushSetups_conn ((getConn_cacheCtx _ n n).trans hq)
  exact ⟨q, st, due, hdue⟩

theorem joinConn_ctxCache (d : Dev) (n : Nat) (i : ConnIdent) (src : Source) : (joinConn d n i src).net.ctxCache.head? = some n := by
  rw [joinConn, flushSetups_ctxCache]
  rfl

/-- The record of a new connection gives it its stamp (R118). -/
theorem getConn_stampCtrl_connNew {d : Dev} {n : Nat} {c : Conn} (hc : getConn d n = some c) (i : ConnIdent) :
    ∃ q, getConn (stampCtrl d (.connNew n i)).2 n = some { c with sendq := q, setupSt := some (takeStamp d).1 } := by
  have hk : bare (noteLines (forward (takeStamp d).2 (takeStamp d).1 (.ctrl (takeStamp d).1 (.connNew n i))) (takeStamp d).1
      (ctlLines d (.connNew n i))) n = bare d n :=
    ((bare_stamp n).noteLines _ _ _).trans (((bare_stamp n).forward _ _ _).trans ((bare_stamp n).takeStamp d))
  obtain ⟨q, st, hq⟩ := bare_of hk hc
  exact ⟨q, getConn_modConn_self hq _⟩

theorem dueOnly_setConn {d : Dev} (hn : NoneDue d) (n : Nat) (i : ConnIdent) (src : Source) :
    DueOnly n src i (setConn d n (some (waitingConn d n i src))) := by
  intro x hx
  rcases mem_putKey hx with rfl | hx
  · exact .inr ⟨rfl, rfl, rfl⟩
  · exact .inl (hn x hx)

theorem dueOnly_cacheCtx {d : Dev} {n : Nat} {src : Source} {i : ConnIdent} (h : DueOnly n src i d) (m : Nat) :
    DueOnly n src i (cacheCtx d m) := h

theorem streamCtrl_stamps {d : Dev} (hs : canStamp d = true) (hdue : d.twin.ctrlDue = []) (b : CtrlBody) :
    streamCtrl d b = (stampCtrl d b).2 := by
  simp [streamCtrl, (serves_of_canStamp hs).1, hs, hdue]

theorem canStamp_setConn (d : Dev) (n : Nat) (c : Option Conn) : canStamp (setConn d n c) = canStamp d := rfl

/-- A unit that streams nothing and can have a stamp now answers a new connection at once. -/
theorem joinConn_sent {d : Dev} {n : Nat} {i : ConnIdent} {src : Source} (hs : streaming d = false) (hn : NoneDue d)
    (hstamp : canStamp d = true) (hdue : d.twin.ctrlDue = []) : ∃ l, (joinConn d n i src).sent = outRsp src n i.rsp :: l := by
  have hstream : streamCtrl (setConn d n (some (waitingConn d n i src))) (.connNew n i) =
      (stampCtrl (setConn d n (some (waitingConn d n i src))) (.connNew n i)).2 :=
    streamCtrl_stamps ((canStamp_setConn _ _ _).trans hstamp) hdue _
  obtain ⟨q, hq⟩ := getConn_stampCtrl_connNew (getConn_setConn_self d n (some (waitingConn d n i src))) i
  have hset := streaming_stampCtrl (d := setConn d n (some (waitingConn d n i src))) hs (.connNew n i)
  have hone : DueOnly n src i (stampCtrl (setConn d n (some (waitingConn d n i src))) (.connNew n i)).2 := by
    rw [(dueOnly_stamp n src i).stampCtrl]
    exact dueOnly_setConn hn n i src
  rw [joinConn, hstream]
  generalize (stampCtrl (setConn d n (some (waitingConn d n i src))) (.connNew n i)).2 = e at hq hset hone
  exact flushSetups_sent (dueOnly_cacheCtx hone n) ((getConn_cacheCtx _ n n).trans hq) rfl rfl rfl hset

/-- The device of an accepted CONNECT_REQ once the key pair, the nonce, the first PSN and the UDP base are drawn (R114, R119). -/
def acceptDev (d : Dev) (curve : Byte) : Dev := { takePoolKey curve d with freeIdx := d.freeIdx + 4 }

theorem acceptDev_conns (d : Dev) (curve : Byte) : (acceptDev d curve).net.conns = d.net.conns := by
  unfold acceptDev takePoolKey Dev.modNet
  dsimp only
  split <;> rfl

/-- The identity that an accepted CONNECT_REQ agrees. -/
def acceptIdent (d : Dev) (n : Nat) (h : Hdr) (r : ConnectReq) (cr : Cred) : ConnIdent :=
  let pr := Config.free256 (d.freeIdx + 2)
  let rsp := newRsp (acceptDev d r.curve) n (if cr.mgmt then 1 else r.npath) ((Config.free32 (d.freeIdx + 3)).toNat % 65536) r cr.mgmt
    (Config.free64 d.freeIdx) (Config.free32 (d.freeIdx + 1)) (Config.ecdhPub r.curve pr)
  identOf h r cr pr rsp (newStore (acceptDev d r.curve) r.sqLog)

theorem acceptConn_new {d : Dev} {n : Nat} {h : Hdr} {r : ConnectReq} {cr : Cred} (hr : r.cflags.getLsbD 1 = false) :
    acceptConn d n h r cr = joinConn (acceptDev d r.curve) n (acceptIdent d n h r cr) h.src := by
  simp only [acceptConn, hr]
  rfl

section
variable {d : Dev} {h : Hdr} {pubOk : Bool} {r : ConnectReq} {cr : Cred}

theorem setUp_refused {res : Nat} (hres : setupRefusal d pubOk r cr = some res) :
    ∃ node, setUp h pubOk r cr d = emitTo d h.port h.src.ip (outRefused d h.src cr.key res node r.nonce) := by
  simp only [setUp, hres]
  exact ⟨_, rfl⟩

theorem setUp_accepted {g n : Nat} {d1 : Dev} (hres : setupRefusal d pubOk r cr = none) (hr : r.cflags.getLsbD 1 = false)
    (hpick : pickNumber d = (g, some n, d1))
    (hg : ((d.net.conns.filter fun x => x.2.state = .armed).filter fun x => homeOf x.1 = g).length < 256)
    (hk : ((d.net.conns.filter fun x => x.2.state = .armed).filter fun x => x.2.ident.cred = r.credId).length < 16)
    (hsum : storeSum d + 2 ^ r.sqLog ≤ 2 ^ 26) : setUp h pubOk r cr d = acceptConn d1 n h r cr := by
  simp only [setUp, hres, hr, hpick, Nat.not_le.2 hg, Nat.not_le.2 hk, Nat.not_lt.2 hsum, Bool.false_eq_true, if_false, decide_false,
    Bool.or_self, Bool.and_false]

end

/-! ## CONNECT_FIN -/

section
variable {d : Dev} {h : Hdr} {c : Conn} (hf : FrameIn d h) (ht : headType h.head = some .connectFin) (hl : landingShut d h.conn = false)
  (hp : h.path = 0) (hn : netField h.head 2 2 = 24) (hc : getConn d h.conn = some c) (ha : c.state = .armed) (hg : c.ident.mgmt ↔ h.port = 16)
include hf ht hl hp hn hc ha hg

theorem connectFin_proved (hs : serving d = true) : connectFin h c.ident.confirmC c.ident.nonceG d = changeConn d h.conn .activate := by
  simp [connectFin, headCheck_frameIn hf ht, hl, hp, hn, hc, ha, hs, hg]

theorem connectFin_forged {k : BitVec 128} (hk : k ≠ c.ident.confirmC) (ng : DWord) :
    connectFin h k ng d = countPort d h.port 0x11C := by
  simp [connectFin, headCheck_frameIn hf ht, hl, hp, hn, hc, ha, hg, hk]

end

/-! ## The timers of a set-up and of ERROR -/

section
variable {d : Dev} {n : Nat} {c : Conn} (hc : getConn d n = some c) (hs : serving d = true)
include hc hs

theorem setupTimeout_armed (ha : c.state = .armed) : setupTimeout n d = changeConn d n (if c.resuming then .rearmFailed else .free) := by
  simp [setupTimeout, hc, hs, ha]

theorem errorHold_held (he : c.state = .error) (hr : regBits d 0x401008 31 16 ≠ 0) : errorHold n d = changeConn d n .free := by
  simp [errorHold, hc, hs, he, hr]

end

theorem getConn_changeConn_free {d : Dev} {n : Nat} {c : Conn} (hc : getConn d n = some c) (h : changeLegal c .free = true) :
    getConn (changeConn d n .free) n = none := getConn_none_of_placeOf (placeOf_changeConn hc h)

/-- Settles O30: the checks of R113 let a proved CONNECT_REQ go on, the answers due are followed through the new connection's record,
and CONNECT_FIN and the timers each make one change of R137. -/
theorem connectionsAreSetUp : Obligations.ConnectionsAreSetUp := by
  intro s h hf
  refine ⟨fun r pubOk ht h0 hp hl => ⟨fun hk => ?_, fun cr hk => ⟨fun hm => ?_, fun hm hg => ⟨fun n c st hrep hc hn hst hs => ?_,
    fun hrep => ⟨fun res hres => ?_, fun g n d hres hr hpick hgal hcred hsum => ?_⟩⟩⟩⟩,
    fun c ht hl hp hn hc ha hg => ⟨fun hs => ?_, fun k ng hk => ?_⟩,
    fun n c hc hs => ⟨fun ha hr => ?_, fun ha hr => ?_, fun he hr => ?_⟩⟩
  · exact becomes_of rfl (connectReq_unknown pubOk hf ht h0 hp hl hk)
  · exact becomes_of rfl (connectReq_forged pubOk hf ht h0 hp hl hk hm)
  · have ha := armed_of_repeated hrep
    obtain ⟨due, hdue⟩ := flushSetups_conn (getConn_modConn_self hc fun c => { c with rspDue := some h.src })
    refine ⟨connectReq h pubOk r s.dev, rfl, ?_⟩
    rw [connectReq_again pubOk hf ht h0 hp hl hk hm hg hrep]
    exact ⟨flushSetups_again h.src ha hc hn hst hs, _, hdue, rfl, rfl⟩
  · obtain ⟨node, hnode⟩ := setUp_refused (h := h) hres
    refine ⟨node, becomes_of rfl ?_⟩
    rw [connectReq_new pubOk hf ht h0 hp hl hk hm hg hrep]
    exact hnode
  · have hd : d = { s.dev with freeIdx := s.dev.freeIdx + 2 } := by rw [← pickNumber_dev, hpick]
    subst hd
    refine ⟨connectReq h pubOk r s.dev, rfl, ?_⟩
    rw [connectReq_new pubOk hf ht h0 hp hl hk hm hg hrep, setUp_accepted hres hr hpick hgal hcred hsum, acceptConn_new hr]
    obtain ⟨q, st, due, hj⟩ := getConn_joinConn (acceptDev { s.dev with freeIdx := s.dev.freeIdx + 2 } r.curve) n
      (acceptIdent { s.dev with freeIdx := s.dev.freeIdx + 2 } n h r cr) h.src
    refine ⟨_, hj, rfl, rfl, rfl, rfl, rfl, rfl, rfl, joinConn_ctxCache _ _ _ _, fun hstr hn hstamp hdue => ?_⟩
    exact joinConn_sent hstr (by rw [NoneDue, acceptDev_conns]; exact hn) hstamp hdue
  · refine ⟨connectFin h c.ident.confirmC c.ident.nonceG s.dev, rfl, ?_⟩
    obtain ⟨c', hc', hi, hst, -⟩ := placeOf_some (placeOf_changeConn (ch := .activate) hc (by simp [changeLegal, ha]))
    rw [connectFin_proved hf ht hl hp hn hc ha hg hs]
    exact ⟨c', hc', hst, hi⟩
  · exact becomes_of rfl (connectFin_forged hf ht hl hp hn hc ha hg hk ng)
  · refine ⟨setupTimeout n s.dev, rfl, ?_⟩
    rw [setupTimeout_armed hc hs ha, hr]
    exact getConn_changeConn_free hc (by simp [changeLegal, ha])
  · refine ⟨setupTimeout n s.dev, rfl, ?_⟩
    obtain ⟨c', hc', -, hst, -⟩ := placeOf_some (placeOf_changeConn (ch := .rearmFailed) hc (by simp [changeLegal, ha]))
    rw [setupTimeout_armed hc hs ha, hr]
    exact ⟨c', hc', hst⟩
  · refine ⟨errorHold n s.dev, rfl, ?_⟩
    rw [errorHold_held hc hs he hr]
    exact getConn_changeConn_free hc (by simp [changeLegal, he])

end Sys2Proof.Machine
end

section
/-! SUPPORT. Operations at their stamp, operations that take none, and the completion of both (R145, R149, R156, R160, R165 to R169,
R171 to R174, R190, R191, R197, R200), with the statements about them. -/
namespace Sys2Proof.Machine

/-! ## One descriptor at its stamp -/

/-- The memory, the durable record and the regions are as before: all that executing a descriptor reads. -/
def SameStore (d e : Dev) : Prop := e.mem = d.mem ∧ e.dur = d.dur ∧ e.folds = d.folds

theorem StampFrame.sameStore {d e : Dev} (h : StampFrame d e) (hd : e.dur = d.dur) : SameStore d e := by
  obtain ⟨_, _, _, _, _, _, _, _, _, rfl⟩ := h
  exact ⟨rfl, hd, rfl⟩

theorem SameStore.poisonIn {d e : Dev} (h : SameStore d e) (ls : List Nat) : poisonIn e ls = poisonIn d ls := by
  rw [Machine.poisonIn, h.2.1, Machine.poisonIn]

theorem firstIn_nil (a n : Nat) : firstIn a n [] = none := by
  have hfind : ((spanLines a n).find? fun l => ([] : List Nat).contains l) = none := by simp
  rw [firstIn, hfind]

section
variable {d : Dev} {x : Desc} {a : Nat} (st : Stamp)

/-- A span without a poisoned partial line is written (R165, R166). -/
theorem runSpan_done (now : Bool) (f : Mem → Mem) (h : firstIn a x.length.toNat (poisonIn d (partLines a x.length.toNat)) = none) :
    (runSpan d x a st now f).entry = doneEntry x 0 x.length.toNat 0 ∧ (runSpan d x a st now f).poisoned = false ∧
      (runSpan d x a st now f).dev.mem = if now then f d.mem else d.mem := by
  cases now <;> simp [runSpan, h, changeLines_memory]

/-- A COPY without poison in its way takes the source's bytes and leaves the placing to the datapath (R165, R200). -/
theorem runCopy_done {b : Nat} (hb : firstIn b x.length.toNat (poisonIn d (partLines b x.length.toNat)) = none)
    (ha : poisonIn d (spanLines a x.length.toNat) = []) :
    (runCopy d x a b st false).entry = doneEntry x 0 x.length.toNat 0 ∧ (runCopy d x a b st false).poisoned = false ∧
      (runCopy d x a b st false).src = cellsOf d.mem a x.length.toNat ∧ (runCopy d x a b st false).dev.mem = d.mem := by
  simp [runCopy, hb, ha, changeLines_memory]

/-- An append with room (R191). -/
theorem runAppend_done (t : Trans) (data : List Byte) :
    (runAppend d x t data st).entry = doneEntry x 0 x.length.toNat (logTail d t.base % 2 ^ 64) ∧
      (runAppend d x t data st).dev.mem =
        writeBytes (logWrite t.base (t.len - 64) (logTail d t.base)
          (data ++ List.replicate (roundUp x.length.toNat 64 - data.length) 0) d.mem) (t.base + 8)
          (leBytes 8 (logTail d t.base + roundUp x.length.toNat 64) ++ leBytes 48 0) := by
  simp [runAppend, changeLines_memory]

variable {m : Mem} (hm : d.mem = m) (h : poisonIn d (spanLines a x.length.toNat) = [])
include hm h

theorem runAtomic_cas_equal (hop : x.op = .cas) (hc : readLE m a x.length.toNat = x.b48.toNat % 256 ^ x.length.toNat) :
    (runAtomic d x a st).entry = doneEntry x 1 x.length.toNat (readLE m a x.length.toNat) ∧
      (runAtomic d x a st).dev.mem = writeLE m a x.length.toNat (x.b32.toNat % 256 ^ x.length.toNat) := by
  subst hm
  simp [runAtomic, h, firstIn_nil, hop, hc, changeLines_memory]

theorem runAtomic_cas_different (hop : x.op = .cas) (hc : readLE m a x.length.toNat ≠ x.b48.toNat % 256 ^ x.length.toNat) :
    (runAtomic d x a st).entry = doneEntry x 0 x.length.toNat (readLE m a x.length.toNat) ∧ (runAtomic d x a st).dev.mem = m := by
  subst hm
  simp [runAtomic, h, firstIn_nil, hop, hc]

theorem runAtomic_fetchAdd (hop : x.op = .fetchAdd) :
    (runAtomic d x a st).entry = doneEntry x 0 x.length.toNat (readLE m a x.length.toNat) ∧
      (runAtomic d x a st).dev.mem = writeLE m a x.length.toNat
        ((readLE m a x.length.toNat + x.b32.toNat % 256 ^ x.length.toNat) % 256 ^ x.length.toNat) := by
  subst hm
  simp [runAtomic, h, firstIn_nil, hop, changeLines_memory]

theorem runAtomic_swap (hop : x.op = .swap) :
    (runAtomic d x a st).entry = doneEntry x 0 x.length.toNat (readLE m a x.length.toNat) ∧
      (runAtomic d x a st).dev.mem = writeLE m a x.length.toNat (x.b32.toNat % 256 ^ x.length.toNat) := by
  subst hm
  simp [runAtomic, h, firstIn_nil, hop, changeLines_memory]

end

/-! ## An operation at its stamp -/

theorem advanceAs_own {d : Dev} {o : Op} (h : findOp d o.conn o.seq = some o) {op : Opcode} (hop : o.desc.op = op) (bad : List Nat)
    (finds : List (Nat × CheckFind)) : advanceAs op o.conn o.seq bad finds d = advance o.conn o.seq bad finds d := by
  rw [advanceAs, h]
  exact if_pos hop

/-- What an operation at its stamp leaves of the memory: that of its execution, or what the datapath makes of it (R200). -/
def LeftMem (o : Op) (x : Exec) (m : Mem) : Prop := if isBulk o.desc && !x.poisoned then Worked o x.src x.dev.mem m else m = x.dev.mem

theorem leftMem_iff_eq {o : Op} (hb : isBulk o.desc = false) (x : Exec) (m : Mem) : LeftMem o x m ↔ m = x.dev.mem := by
  simp [LeftMem, hb]

theorem leftMem_iff_worked {o : Op} {x : Exec} (hb : isBulk o.desc = true) (hp : x.poisoned = false) (m : Mem) :
    LeftMem o x m ↔ Worked o x.src x.dev.mem m := by
  simp [LeftMem, hb, hp]

/-- An operation at its stamp ends with the entry of its execution (R156, R157, R160): what holds of every memory that its execution may
leave holds then. -/
theorem runs_atStamp {s : State} {o : Op} {c : Conn} {i : Instr} {op : Opcode} (r : Entry) (P : Mem → Prop) (h : AtStamp s.dev o c)
    (hlen : o.desc.length.toNat ≤ 16777216) (hop : o.desc.op = op) (hx : exec i s = onDev (advanceAs op o.conn o.seq [] []) s)
    (hr : r.status = .done)
    (hrun : ∀ d1 st, SameStore s.dev d1 → ∃ x, runDesc d1 c.ident.fold o.desc o.tr1 o.tr2 o.data st false = x ∧ x.entry = r ∧
      ∀ m, LeftMem o x m → P m) :
    Runs i s fun e => P e.mem ∧ ∃ l, Ended e o c { r with level := l } := by
  obtain ⟨d1, x, hf, hd, rfl, hend⟩ := advance_atStamp h hlen
  obtain ⟨_, rfl, hentry, hmem⟩ := hrun d1 (nextStamp s.dev.twin) (hf.sameStore hd)
  obtain ⟨l, he, hm⟩ := hend (by rw [hentry, hr])
  rw [hentry] at he
  exact ⟨_, becomes_of hx (advanceAs_own h.1.1 hop [] []), hmem _ hm, l, he⟩

/-- The same, where no work is left to the datapath. -/
theorem runs_stamped {s : State} {o : Op} {c : Conn} {i : Instr} {op : Opcode} (r : Entry) (m : Mem) (h : AtStamp s.dev o c)
    (hlen : o.desc.length.toNat ≤ 16777216) (hop : o.desc.op = op) (hb : isBulk o.desc = false)
    (hx : exec i s = onDev (advanceAs op o.conn o.seq [] []) s) (hr : r.status = .done)
    (hrun : ∀ d1 st, SameStore s.dev d1 → (runDesc d1 c.ident.fold o.desc o.tr1 o.tr2 o.data st false).entry = r ∧
      (runDesc d1 c.ident.fold o.desc o.tr1 o.tr2 o.data st false).dev.mem = m) :
    Runs i s fun e => e.mem = m ∧ ∃ l, Ended e o c { r with level := l } := by
  refine runs_atStamp r (fun k => k = m) h hlen hop hx hr fun d1 st hs => ?_
  obtain ⟨hentry, hmem⟩ := hrun d1 st hs
  exact ⟨_, rfl, hentry, fun k hk => ((leftMem_iff_eq hb _ k).1 hk).trans hmem⟩

theorem runDesc_atomic (d : Dev) (fold : Nat) {x : Desc} (hop : x.op = .cas ∨ x.op = .fetchAdd ∨ x.op = .swap) (t : Trans)
    (u : Option Trans) (data : List Byte) (st : Stamp) (now : Bool) :
    runDesc d fold x (some t) u data st now = runAtomic d x (t.base + x.offset.toNat) st := by
  rcases hop with hop | hop | hop <;> simp [runDesc, hop]

/-- An atomic at its stamp, from what it does to a memory without poison at its place (R169). -/
theorem runs_atomic {s : State} {o : Op} {c : Conn} {i : Instr} {op : Opcode} {t : Trans} (r : Entry) (m : Mem)
    (h : AtStamp s.dev o c)
    (ht : o.tr1 = some t) (hlen : o.desc.length.toNat ≤ 16777216) (hop : o.desc.op = op) (hat : op = .cas ∨ op = .fetchAdd ∨ op = .swap)
    (hp : poisonIn s.dev (spanLines (t.base + o.desc.offset.toNat) o.desc.length.toNat) = [])
    (hx : exec i s = onDev (advanceAs op o.conn o.seq [] []) s) (hr : r.status = .done)
    (hrun : ∀ d1 st, d1.mem = s.dev.mem → poisonIn d1 (spanLines (t.base + o.desc.offset.toNat) o.desc.length.toNat) = [] →
      (runAtomic d1 o.desc (t.base + o.desc.offset.toNat) st).entry = r ∧
        (runAtomic d1 o.desc (t.base + o.desc.offset.toNat) st).dev.mem = m) :
    Runs i s fun e => e.mem = m ∧ ∃ l, Ended e o c { r with level := l } := by
  subst hop
  have hb : isBulk o.desc = false := by rcases hat with hop | hop | hop <;> simp [isBulk, hop]
  refine runs_stamped r m h hlen rfl hb hx hr fun d1 st hs => ?_
  rw [ht, runDesc_atomic d1 _ hat]
  exact hrun d1 st hs.1 ((hs.poisonIn _).trans hp)

/-- Settles O33: an atomic executes at its stamp on the memory as it stood. -/
theorem atomicsReturnTheOldValue : Obligations.AtomicsReturnTheOldValue := by
  intro s o c t a n old h ht ha hn hlen hold hp
  subst ha hn hold
  refine ⟨fun hop hc => ?_, fun hop hc => ?_, fun hop => ?_, fun hop => ?_⟩
  · exact runs_atomic _ _ h ht hlen hop (by simp) hp rfl rfl fun d1 st hm hp => runAtomic_cas_equal st hm hp hop hc
  · exact runs_atomic _ _ h ht hlen hop (by simp) hp rfl rfl fun d1 st hm hp => runAtomic_cas_different st hm hp hop hc
  · exact runs_atomic _ _ h ht hlen hop (by simp) hp rfl rfl fun d1 st hm hp => runAtomic_fetchAdd st hm hp hop
  · exact runs_atomic _ _ h ht hlen hop (by simp) hp rfl rfl fun d1 st hm hp => runAtomic_swap st hm hp hop

/-- Settles O34: the spans are written at the stamp, or by the datapath's chunks. -/
theorem writesReachTheirSpan : Obligations.WritesReachTheirSpan := by
  intro s o c t a n h ht ha hn hlen
  subst ha hn
  refine ⟨fun hop hp => ?_, fun hop hp => ?_, fun u b hop hu hb hw hp hq => ?_, fun p r hop hp hr => ?_⟩
  · refine runs_stamped _ _ h hlen hop (by simp [isBulk, hop]) rfl rfl fun d1 st hs => ?_
    obtain ⟨hentry, -, hmem⟩ := runSpan_done st true (fun m => writeBytes m (t.base + o.desc.offset.toNat) o.data)
      (by rw [hs.poisonIn]; exact hp)
    rw [hs.1] at hmem
    simp only [runDesc, hop, ht]
    exact ⟨hentry, hmem⟩
  · refine runs_atStamp (doneEntry o.desc 0 o.desc.length.toNat 0) (fun m => ∀ x, readByte m x = if t.base + o.desc.offset.toNat ≤ x ∧
      x < t.base + o.desc.offset.toNat + o.desc.length.toNat then 0 else readByte s.dev.mem x) h hlen hop rfl rfl fun d1 st hs => ?_
    obtain ⟨hentry, hpoison, hmem⟩ := runSpan_done st false
      (fun m => zeroBytes m (t.base + o.desc.offset.toNat) o.desc.length.toNat) (by rw [hs.poisonIn]; exact hp)
    simp only [runDesc, hop, ht]
    refine ⟨_, rfl, hentry, fun m hm x => ?_⟩
    rw [leftMem_iff_worked (by simp [isBulk, hop]) hpoison, hmem, if_neg Bool.false_ne_true, hs.1] at hm
    exact readByte_workedZero hop ht hm x
  · subst hb
    refine runs_atStamp (doneEntry o.desc 0 o.desc.length.toNat 0) (fun m => ∀ x, readByte m x =
      if u.base + o.desc.offset2.toNat ≤ x ∧ x < u.base + o.desc.offset2.toNat + o.desc.length.toNat then
        readByte s.dev.mem (x - (u.base + o.desc.offset2.toNat) + (t.base + o.desc.offset.toNat)) else readByte s.dev.mem x)
      h hlen hop rfl rfl fun d1 st hs => ?_
    obtain ⟨hentry, hpoison, hsrc, hmem⟩ := runCopy_done st (by rw [hs.poisonIn]; exact hp) (by rw [hs.poisonIn]; exact hq)
    simp only [runDesc, hop, ht, hu]
    refine ⟨_, rfl, hentry, fun m hm x => ?_⟩
    rw [leftMem_iff_worked (by simp [isBulk, hop]) hpoison, hsrc, hmem, hs.1] at hm
    exact readByte_workedCopy hw hop ht hu hm x
  · refine runs_stamped (doneEntry o.desc 0 o.desc.length.toNat (p % 2 ^ 64)) _ h hlen hop (by simp [isBulk, hop]) rfl rfl
      fun d1 st hs => ?_
    obtain ⟨hentry, hmem⟩ := runAppend_done (d := d1) (x := o.desc) st t o.data
    have htail : logTail d1 t.base = p := by rw [hp, logTail, hs.2.2, logTail]
    rw [htail] at hentry hmem
    rw [hs.1, ← hr] at hmem
    simp only [runDesc, hop, ht]
    exact ⟨hentry, hmem⟩

/-! ## An operation that takes no stamp -/

/-- An operation that is ready takes nothing from the order sequencer, unless the last epoch is due (R209). -/
theorem orderStamp_ready {d : Dev} {o : Op} {c : Conn} (h : InStage d o c .ready) (he : stampEpoch (nextStamp d.twin) < lastEpoch) :
    orderStamp o.conn o.seq none d = d := by
  obtain ⟨ho, -, hg, hst⟩ := h
  have hlimit : refuseAtLimit d = d := by simp [refuseAtLimit, Nat.not_le.2 he]
  rcases orderStamp_other ho (by simp [hst]) hg with hr | hr
  · exact hr
  · rw [hr, hlimit]

theorem complete_other {d : Dev} {n : Nat} {seq : Word} {o : Op} (ho : findOp d n seq = some o) (h : o.stage ≠ .holding) :
    complete n seq d = d := by
  unfold complete
  rw [ho]
  split
  · rename_i h1 _
    cases h1
    rw [if_pos h]
  · rfl

/-- The row of an operation that is ready runs it, and goes on no further where that ends it or leaves it waiting. -/
theorem advanceAs_ready {d : Dev} {o : Op} {c : Conn} {op : Opcode} {finds : List (Nat × CheckFind)} (h : InStage d o c .ready)
    (hs : Still d) (he : stampEpoch (nextStamp d.twin) < lastEpoch) (hop : o.desc.op = op) (bad : List Nat)
    (hw : ∀ p, findOp (runReady o.conn o.seq finds d) o.conn o.seq = some p → p.stage = .waiting) :
    advanceAs op o.conn o.seq bad finds d = runReady o.conn o.seq finds d := by
  rw [advanceAs_own h.1 hop, advance_late bad finds h.1 (.inr h.2.2.2) fun p hp => (hs p hp).2, orderStamp_ready h he,
    workAll_done fun p hp => by simp [hw p hp]]
  cases ho : findOp (runReady o.conn o.seq finds d) o.conn o.seq with
  | none => exact complete_none ho
  | some p => exact complete_other ho (by simp [hw p ho])

/-- An operation that ends with an entry while no other waits for its count. -/
theorem endOp_ended {d : Dev} {o : Op} {c : Conn} (e : Entry) (x : Option (DWord × Word × List Byte)) (hc : getConn d o.conn = some c)
    (hw : ∀ p ∈ d.net.ops, p.stage = .waiting → p.conn = o.conn ∧ p.seq = o.seq) (he : e.status ≠ .doneDuplicate) :
    Ended (endOp d o e x) o c e := by
  obtain ⟨hnone, ⟨c', hc', hstored, hcount, hstate, -⟩, -⟩ := endOp_conn e x hw hc he
  exact ⟨hnone, c', hc', hstored, hcount, hstate⟩

/-- The row of an operation whose run ends it with an entry (R145, R148). -/
theorem runs_ready_end {s : State} {o : Op} {c : Conn} {i : Instr} {op : Opcode} {r : Entry} {x : Option (DWord × Word × List Byte)}
    {P : Dev → Prop} (h : InStage s.dev o c .ready) (hs : Still s.dev) (he : stampEpoch (nextStamp s.dev.twin) < lastEpoch)
    (hop : o.desc.op = op) (hx : exec i s = onDev (advanceAs op o.conn o.seq [] []) s)
    (hrun : runReady o.conn o.seq [] s.dev = endOp s.dev o r x) (hr : r.status ≠ .doneDuplicate)
    (hP : Ended (endOp s.dev o r x) o c r → P (endOp s.dev o r x)) : Runs i s P := by
  have hend : Ended (endOp s.dev o r x) o c r := endOp_ended r x h.2.1 (fun p hp hw => absurd hw (hs p hp).1) hr
  refine ⟨_, becomes_of hx ((advanceAs_ready h hs he hop [] ?_).trans hrun), hP hend⟩
  rw [hrun, hend.1]
  exact fun _ hp => nomatch hp

section
variable {d : Dev} {o : Op} {c : Conn} (h : InStage d o c .ready) (finds : List (Nat × CheckFind))
include h

theorem runReady_read (hop : o.desc.op = .read) : runReady o.conn o.seq finds d = runRead d o c finds := by
  obtain ⟨ho, hc, -, hst⟩ := h
  simp [runReady, ho, hc, hst, hop]

theorem runReady_nop (hop : o.desc.op = .nop) : runReady o.conn o.seq finds d = endOp d o (doneEntry o.desc 0 0 0) none := by
  obtain ⟨ho, hc, -, hst⟩ := h
  simp [runReady, ho, hc, hst, hop]

theorem runReady_health (hop : o.desc.op = .health) :
    runReady o.conn o.seq finds d = endOp d o (doneEntry o.desc 0 0 (lifeOf d)) none := by
  obtain ⟨ho, hc, -, hst⟩ := h
  simp [runReady, ho, hc, hst, hop]

theorem runReady_wait (hop : o.desc.op = .wait) : runReady o.conn o.seq finds d = startWait d o c := by
  obtain ⟨ho, hc, -, hst⟩ := h
  simp [runReady, ho, hc, hst, hop]

theorem runReady_persist (hop : o.desc.op = .persist) : runReady o.conn o.seq finds d = runPersist d o c := by
  obtain ⟨ho, hc, -, hst⟩ := h
  simp [runReady, ho, hc, hst, hop]

end

/-! ## READ -/

/-- Bytes with no failed line among them leave as one run, where a frame has room for them all. -/
theorem goodRuns_whole (a seg : Nat) : ∀ k off cur : Nat, 0 < cur + k → cur + k ≤ seg →
    goodRuns a [] seg k off cur = [(off - cur, cur + k)]
  | 0, off, cur, h, _ => by
    have hcur : cur ≠ 0 := by omega
    simp [goodRuns, hcur]
  | k + 1, off, cur, _, hs => by
    by_cases hfull : seg ≤ cur + 1
    · have hk : k = 0 := by omega
      simp [goodRuns, hfull, hk]
    · have ih := goodRuns_whole a seg k (off + 1) (cur + 1) (by omega) (by omega)
      rw [Nat.add_sub_add_right, Nat.add_assoc, Nat.add_comm 1 k] at ih
      simp [goodRuns, hfull, ih]

theorem segOf_ge (d : Dev) (p : Nat) : 1024 ≤ segOf d p := by
  unfold segOf
  (repeat' split) <;> decide

/-- A READ of at most 256 bytes, none of them in a failed line, ends with its bytes before its entry (R44, R168). -/
theorem runRead_short {d : Dev} {o : Op} {c : Conn} {t : Trans} {a n : Nat} (ht : o.tr1 = some t) (ha : a = t.base + o.desc.offset.toNat)
    (hn : n = o.desc.length.toNat) (h0 : 0 < n) (h256 : n ≤ 256) (htw : c.ident.twinRead = false)
    (hm : ∀ l ∈ spanLines a n, mirrorHeld d l = false)
    (hb : ((spanLines a n).filter fun l => d.dur.poison.contains l || o.failed.contains l) = []) :
    runRead d o c [] = endOp d o (doneEntry o.desc 0 n 0) (some (o.desc.caddr, o.desc.ckey, readBytes d.mem a n)) := by
  subst ha hn
  have hheld : ((spanLines (t.base + o.desc.offset.toNat) o.desc.length.toNat).any fun l => mirrorHeld d l) = false := by simpa using hm
  have hruns := goodRuns_whole (t.base + o.desc.offset.toNat)
    (segOf d (portOfPath d c.ident.mgmt o.conn (routeOf c o.desc.seq))) o.desc.length.toNat 0 0 (by omega)
    (by have := segOf_ge d (portOfPath d c.ident.mgmt o.conn (routeOf c o.desc.seq)); omega)
  have hclean : ((spanLines (t.base + o.desc.offset.toNat) o.desc.length.toNat).find? fun l => ([] : List Nat).contains l) = none := by
    simp
  simp only [runRead, ht, hheld, List.filter_nil, List.foldl_nil, hb, hruns, hclean]
  simp [pushRead, h256, htw, pushRuns]

/-! ## WAIT and PERSIST -/

section
variable {d : Dev} {o : Op} {c t : Conn} (ht : getConn d (o.desc.handle2 &&& 0xFFFFF).toNat = some t) (hf : t.ident.fold = c.ident.fold)
  (hi : t.state ≠ .idle)
include ht hf hi

theorem startWait_reached (hk : o.desc.offset2.toNat ≤ t.count) : startWait d o c = endOp d o (waitEntry o .done t.count) none := by
  unfold startWait
  simp only [ht]
  simp [hf, hi, hk]

theorem startWait_lapsed (hk : t.count < o.desc.offset2.toNat) (hl : o.desc.length = 0) :
    startWait d o c = endOp d o (waitEntry o .waitTimeout t.count) none := by
  unfold startWait
  simp only [ht]
  simp [hf, hi, Nat.not_le.2 hk, hl]

theorem startWait_waits (hk : t.count < o.desc.offset2.toNat) (hl : o.desc.length ≠ 0) :
    startWait d o c = setOp d { o with stage := .waiting, target := some (o.desc.handle2 &&& 0xFFFFF).toNat } := by
  unfold startWait
  simp only [ht]
  rw [if_neg (by simp [hf, hi]), if_neg (Nat.not_le.2 hk), if_neg hl]

end

theorem waitExpiry_waiting {d : Dev} {o : Op} {c t : Conn} {n : Nat} (h : InStage d o c .waiting) (hn : o.target = some n)
    (ht : getConn d n = some t) : waitExpiry o.conn o.seq d = endOp d o (waitEntry o .waitTimeout t.count) none := by
  obtain ⟨ho, -, -, hst⟩ := h
  simp [waitExpiry, ho, hst, hn, ht]

theorem runPersist_held {d : Dev} {o : Op} {c : Conn} {lvl : Level} (hl : lvl = reported d (levelOfByte o.desc.level c.ident.level))
    (he : earlierOps d o = []) (hc : ∀ p ∈ c.changed, heldAt d lvl (some p.2) [p.1] = true) :
    runPersist d o c = endOp d o { doneEntry o.desc 0 0 0 with level := lvl } none := by
  subst hl
  have hall : (c.changed.all fun p => heldAt d (reported d (levelOfByte o.desc.level c.ident.level)) (some p.2) [p.1]) = true := by
    simpa using hc
  simp [runPersist, he, hall]

/-- Settles O36: each run ends the operation, or leaves a WAIT waiting, and the row goes on no further. -/
theorem readyOperationsEnd : Obligations.ReadyOperationsEnd := by
  intro s o c
  refine ⟨fun t n h hn ht hw => ?_, fun h hs he => ⟨fun t a n hop ht ha hn h0 h256 htw hm hb => ?_, fun hop => ?_, fun hop => ?_,
    fun t hop ht hf hi => ⟨fun hk => ?_, fun hk hl => ?_, fun hk hl => ?_⟩, fun lvl hop hl hearly hc => ?_⟩⟩
  · refine ⟨_, becomes_of rfl (waitExpiry_waiting h hn ht), endOp_ended _ none h.2.1 hw (by simp [waitEntry]), endOp_mem _ _ _ _⟩
  · refine runs_ready_end h hs he hop rfl ((runReady_read h [] hop).trans (runRead_short ht ha hn h0 h256 htw hm hb)) (by simp [doneEntry])
      fun hend => ⟨endOp_mem _ _ _ _, hend, fun ⟨hmay, hsend, hgal⟩ => ?_⟩
    obtain ⟨-, ⟨c', hc', -, -, -, -, -, -, hq⟩, -⟩ := endOp_conn (o := o) (doneEntry o.desc 0 n 0)
      (some (o.desc.caddr, o.desc.ckey, readBytes s.dev.mem a n)) (fun p hp hw => absurd hw (hs p hp).1) h.2.1 (by simp [doneEntry])
    rw [hmay, hsend, hgal] at hq
    exact ⟨c', hc', hq⟩
  · exact runs_ready_end h hs he hop rfl (runReady_nop h [] hop) (by simp [doneEntry]) fun hend => ⟨endOp_mem _ _ _ _, hend⟩
  · exact runs_ready_end h hs he hop rfl (runReady_health h [] hop) (by simp [doneEntry]) fun hend => ⟨endOp_mem _ _ _ _, hend⟩
  · exact runs_ready_end h hs he hop rfl ((runReady_wait h [] hop).trans (startWait_reached ht hf hi hk)) (by simp [waitEntry]) id
  · exact runs_ready_end h hs he hop rfl ((runReady_wait h [] hop).trans (startWait_lapsed ht hf hi hk hl)) (by simp [waitEntry]) id
  · have hrun := (runReady_wait h [] hop).trans (startWait_waits ht hf hi hk hl)
    have hfind : findOp (runReady o.conn o.seq [] s.dev) o.conn o.seq =
        some { o with stage := .waiting, target := some (o.desc.handle2 &&& 0xFFFFF).toNat } := by
      rw [hrun]
      exact findOp_setOp h.1 rfl rfl
    refine ⟨_, becomes_of rfl (advanceAs_ready h hs he hop [] fun p hp => ?_), hfind⟩
    rw [hfind] at hp
    cases hp
    rfl
  · exact runs_ready_end h hs he hop rfl ((runReady_persist h [] hop).trans (runPersist_held hl hearly hc)) (by simp [doneEntry]) id

/-! ## The stamp, the level and the datapath -/

/-- Taking its stamp leaves an operation holding its entry, or with the datapath, and nothing new waits (R156, R157). -/
theorem orderStamp_taken {d : Dev} {o : Op} {c : Conn} (h : AtStamp d o c) (hq : Quiet d) :
    Quiet (orderStamp o.conn o.seq none d) ∧ ∃ o', findOp (orderStamp o.conn o.seq none d) o.conn o.seq = some o' ∧
      o'.stamp = some (nextStamp d.twin) ∧ o'.done.isSome = true ∧ (o'.stage = .holding ∨ o'.stage = .running) := by
  obtain ⟨hdue, hqueue, hwaits⟩ := hq
  obtain ⟨r, c', o', -, hfind, ho', -, -, -, -, -, hctrl, ⟨-, -, -, ⟨hcq, hcw⟩, -⟩, hfolds, -⟩ := stampOne_done h
  rw [orderStamp_one h]
  refine ⟨⟨hctrl.trans hdue, by rw [hfolds, hcq, hqueue], by rw [hfolds, hcw, hwaits]⟩, o', hfind, ?_⟩
  rw [ho']
  refine ⟨rfl, rfl, ?_⟩
  dsimp only
  split
  · exact .inr rfl
  · exact .inl rfl

theorem ownLeaf_markDirty_folds (d : Dev) (leaf : Nat) : (ownLeaf (markDirty d) leaf).folds = (ownLeaf d leaf).folds := by
  have hkeep (e : Dev) : (keepLoc e leaf).folds = e.folds := by
    unfold keepLoc
    split <;> rfl
  unfold ownLeaf
  rw [markDirty_folds]
  split
  · exact markDirty_folds d
  · simp only [Dev.modDur_folds, Dev.modFolds_folds, hkeep, markDirty_folds]

theorem setOp_folds (d : Dev) (o : Op) : (setOp d o).folds = d.folds := rfl

theorem ownLeaves_single_folds (d : Dev) (st : Stamp) (leaf : Nat) : (ownLeaves d st [leaf]).folds = (ownLeaf d leaf).folds := rfl

/-- A shared leaf that an operation before its stamp will change becomes its region's own, and the operation keeps its room (R197,
R198). -/
theorem copyLeaf_shared {d : Dev} {o : Op} {c : Conn} {leaf : Nat} (h : InStage d o c .stamp)
    (hl : (cowLeaves d o.lines).contains leaf = true) :
    (copyLeaf o.conn o.seq leaf d).folds = (ownLeaf d leaf).folds ∧ findOp (copyLeaf o.conn o.seq leaf d) o.conn o.seq =
      some { o with admitted := o.admitted.map fun l => dropNums l (List.range' (leaf * 64) 64) ++
        (l.filter fun x => x / 64 = leaf && o.lines.contains x) } := by
  obtain ⟨ho, -, -, hst⟩ := h
  have hrun : copyLeaf o.conn o.seq leaf d =
      setOp (noteLeaves (ownLeaves (markDirty d) (d.twin.lastStamp + 1) [leaf]) (d.twin.lastStamp + 1) [leaf])
        { o with admitted := o.admitted.map fun l => dropNums l (List.range' (leaf * 64) 64) ++
          (l.filter fun x => x / 64 = leaf && o.lines.contains x) } := by
    unfold copyLeaf
    simp only [ho]
    exact if_pos (by rw [hst, hl]; rfl)
  have hops : (ownLeaves (markDirty d) (d.twin.lastStamp + 1) [leaf]).net.ops = d.net.ops :=
    (ownLeaves_calm _ _ _).2.1.trans (ops_stamp.markDirty d)
  have hfind : findOp (noteLeaves (ownLeaves (markDirty d) (d.twin.lastStamp + 1) [leaf]) (d.twin.lastStamp + 1) [leaf])
      o.conn o.seq = some o := (congrArg (List.find? _) hops).trans ho
  rw [hrun]
  refine ⟨?_, findOp_setOp hfind rfl rfl⟩
  rw [setOp_folds, noteLeaves_folds, ownLeaves_single_folds, ownLeaf_markDirty_folds]

/-- A turn of a gallery's datapath, with no leaf to copy first, works the next unit of the operation whose turn it is (R200). -/
theorem chunkTurn_worked {d : Dev} {o : Op} {g : Nat} (ho : findOp d o.conn o.seq = some o) (hc : nextCow d g = none)
    (ht : (onDatapath d g)[(getKey d.net.dpTurns g).getD 0 % max 1 (onDatapath d g).length]? = some o) :
    (chunkTurn g d).mem = chunkMem o d.mem ∧ ∃ o', findOp (chunkTurn g d) o.conn o.seq = some o' ∧ o'.chunk = chunkEnd o := by
  obtain ⟨_, ⟨hall, dur, rfl⟩, hwork⟩ := workChunk_eq d o
  simp only [chunkTurn, hc, ht, hwork]
  exact ⟨rfl, _, findOp_setOp (o := o) ho rfl rfl, rfl⟩

/-- Settles O38: the stamp, the entry at its level, the copy of a shared leaf and a turn of the datapath, each from its row's lemma. -/
theorem operationsTakeStampsAndComplete : Obligations.OperationsTakeStampsAndComplete := by
  intro s o c
  refine ⟨fun h hq => ?_, fun r h hd hl hr hm hw => ?_, fun leaf h hl => ?_, fun g t a n h hc ht hop htr ha hn => ?_⟩
  · obtain ⟨⟨hdue, hqueue, hwaits⟩, htaken⟩ := orderStamp_taken h hq
    refine ⟨settleFully (orderStamp o.conn o.seq none s.dev), rfl, ?_⟩
    rw [settleFully_idle hdue hqueue hwaits]
    exact htaken
  · obtain ⟨hend, hmem⟩ := complete_ends h hd hl hr hm hw
    have hready : runReady o.conn o.seq [] (complete o.conn o.seq s.dev) = complete o.conn o.seq s.dev := by
      rw [runReady, hend.1]
    refine ⟨runReady o.conn o.seq [] (complete o.conn o.seq s.dev), rfl, ?_⟩
    rw [hready]
    exact ⟨hend, hmem⟩
  · obtain ⟨hfolds, hfind⟩ := copyLeaf_shared h hl
    exact ⟨copyLeaf o.conn o.seq leaf s.dev, rfl, copyLeaf_mem _ _ _ _, hfolds, hfind⟩
  · subst ha hn
    obtain ⟨hmem, hfind⟩ := chunkTurn_worked h.1 hc ht
    refine ⟨chunkTurn g s.dev, rfl, fun x => ?_, hfind⟩
    rw [hmem]
    simp only [chunkMem, hop, htr]
    exact readByte_zeroBytes _ _ _ x

end Sys2Proof.Machine
end

section
/-! SUPPORT. SNAPSHOT and CLONE at their stamp (R195 to R198): where the new region is placed, what is written into the tables, and the
bytes of the source under the new place, with the statement about them. -/
namespace Sys2Proof.Machine

/-! ## What the tables and the free space depend on -/

section
variable {d e : Dev} (hs : SameStore d e)
include hs

theorem SameStore.descPlace (f : Nat) (h g : Word) : descPlace e f h g = descPlace d f h g := by
  rw [Machine.descPlace, hs.1, hs.2.2, Machine.descPlace]

theorem SameStore.genOf (f : Nat) : genOf e f = genOf d f := by
  rw [Machine.genOf, hs.1, hs.2.2, Machine.genOf]

theorem SameStore.newHandle (f : Nat) (h : Word) : newHandle e f h = newHandle d f h := by
  simp only [Machine.newHandle, lowestInvalid, slotsOfFold, hs.descPlace, hs.genOf, hs.1, hs.2.2]

theorem SameStore.sourcePlaces (f : Nat) (x : Desc) (t : Trans) : sourcePlaces e f x t = sourcePlaces d f x t := by
  simp only [Machine.sourcePlaces, genUsed, hs.descPlace, hs.genOf, hs.1]

theorem SameStore.modFolds (f : Folds → Folds) : SameStore (d.modFolds f) (e.modFolds f) :=
  ⟨hs.1, hs.2.1, congrArg f hs.2.2⟩

/-- The same free space gives the same place. -/
theorem SameStore.placeRta {n a : Nat} {d' : Dev} (h : placeRta d n = some (a, d')) :
    ∃ e', placeRta e n = some (a, e') ∧ SameStore d' e' := by
  unfold Machine.placeRta at h ⊢
  rw [hs.2.2]
  split at h <;> cases h
  exact ⟨_, rfl, hs.modFolds _⟩

theorem SameStore.placeRegion {st : Stamp} {n a : Nat} {d' : Dev} (h : placeRegion d st n = some (a, d')) :
    ∃ e', placeRegion e st n = some (a, e') ∧ SameStore d' e' := by
  unfold Machine.placeRegion at h ⊢
  rw [hs.2.2]
  split at h <;> cases h
  exact ⟨_, rfl, hs.modFolds _⟩

end

/-! ## The execution -/

/-- A SNAPSHOT or CLONE finds all it needs (R195, R196): a free handle `h` whose descriptor stands at `pa`, a place `rec` for its family
record, a place `base` for the region, and the source's descriptor. -/
structure SharePlaces (d : Dev) (fold : Nat) (x : Desc) (t : Trans) (st : Stamp) (h : Word) (pa rec base : Nat) : Prop where
  handle : newHandle d fold x.handle2 = some (h, pa)
  room : ∃ y, placeRegion d st (roundUp t.len 4096) = some y
  region : ∃ d1 d2, placeRta d 64 = some (rec, d1) ∧ placeRegion d1 st (roundUp t.len 4096) = some (base, d2)
  source : ∃ spa rest, sourcePlaces d fold x t = spa :: rest

theorem SharePlaces.of_sameStore {d e : Dev} {fold : Nat} {x : Desc} {t : Trans} {st : Stamp} {h : Word} {pa rec base : Nat}
    (p : SharePlaces d fold x t st h pa rec base) (hs : SameStore d e) : SharePlaces e fold x t st h pa rec base := by
  obtain ⟨hh, ⟨⟨_, _⟩, hroom⟩, ⟨d1, d2, hrec, hreg⟩, hsrc⟩ := p
  obtain ⟨_, hroom', -⟩ := hs.placeRegion hroom
  obtain ⟨_, hrec', hs1⟩ := hs.placeRta hrec
  obtain ⟨_, hreg', -⟩ := hs1.placeRegion hreg
  exact ⟨(hs.newHandle _ _).trans hh, ⟨_, hroom'⟩, ⟨_, _, hrec', hreg'⟩, by rwa [hs.sourcePlaces]⟩

/-- The memory once the tables know of the new region (R196, R307): its descriptor at `pa`, COW_SHARED in the source's, and the family
record at `rec`. -/
def shareTables (places : List Nat) (pa rec : Nat) (new : RegDesc) (family : List Byte) (m : Mem) : Mem :=
  writeBytes (places.foldl setCow (writeBytes m pa (regDescBytes new))) rec family

/-- A SNAPSHOT or CLONE that finds all it needs returns its handle, and the place of its region takes the source's bytes (R196, R197). -/
theorem runSnap_done {d : Dev} {fold : Nat} {x : Desc} {t : Trans} {st : Stamp} {h : Word} {pa rec base : Nat}
    (p : SharePlaces d fold x t st h pa rec base) :
    (runSnap d fold x t st).entry = doneEntry x 0 0 h.toNat ∧
      ∃ new, new.base = base ∧ (runSnap d fold x t st).dev.mem = copyBytes (shareTables (sourcePlaces d fold x t) pa rec new
        (familyBytes base t.base t.len st fold h x.handle) d.mem) t.base base t.len := by
  obtain ⟨hh, ⟨_, hroom⟩, ⟨d1, d2, hrec, hreg⟩, spa, rest, hsrc⟩ := p
  have hmem : d2.mem = d.mem := (placeRegion_mem _ _ _ hreg).trans (placeRta_mem _ _ hrec)
  simp only [runSnap, hh, hrec, hroom, hsrc, hreg, noteLeaves_mem, Dev.modDur_mem, joinFamily_mem, changeLines_memory, hmem]
  exact ⟨trivial, _, rfl, rfl⟩

/-! ## The bytes under the new place -/

theorem regDescBytes_length (x : RegDesc) : (regDescBytes x).length = 64 := by simp [regDescBytes, leBytes_length]

theorem familyBytes_length (child parent len : Nat) (st : Stamp) (fold : Nat) (ch ph : Word) :
    (familyBytes child parent len st fold ch ph).length = 64 := by simp [familyBytes, leBytes_length]

theorem readByte_writeBytes_apart {m : Mem} {a b : Nat} {bs : List Byte} (h : ∀ k, k < bs.length → a + k ≠ b) :
    readByte (writeBytes m a bs) b = readByte m b := by
  rw [readByte_writeBytes, if_neg]
  rintro ⟨hl, hr⟩
  exact h (b - a) (by omega) (by omega)

theorem readByte_setCow_apart {m : Mem} {p b : Nat} (h : ∀ k, k < 64 → p + k ≠ b) : readByte (setCow m p) b = readByte m b :=
  readByte_writeBytes_apart fun k hk => by
    rw [leBytes_length] at hk
    have := h (26 + k) (by omega)
    omega

theorem readByte_foldl_setCow_apart {b : Nat} (places : List Nat) (h : ∀ p ∈ places, ∀ k, k < 64 → p + k ≠ b) (m : Mem) :
    readByte (places.foldl setCow m) b = readByte m b := by
  induction places generalizing m with
  | nil => rfl
  | cons p ps ih =>
    obtain ⟨hp, hps⟩ := List.forall_mem_cons.1 h
    exact (ih hps _).trans (readByte_setCow_apart hp)

/-- The tables change only in the 64 bytes of each of their descriptors and records that the operation names. -/
theorem readByte_shareTables_apart {places : List Nat} {pa rec b : Nat} {family : List Byte} (hf : family.length = 64)
    (h : ∀ p ∈ pa :: rec :: places, ∀ k, k < 64 → p + k ≠ b) (new : RegDesc) (m : Mem) :
    readByte (shareTables places pa rec new family m) b = readByte m b := by
  obtain ⟨hpa, hrec, hplaces⟩ : _ ∧ _ ∧ _ := by simpa only [List.forall_mem_cons] using h
  calc readByte (shareTables places pa rec new family m) b
      = readByte (places.foldl setCow (writeBytes m pa (regDescBytes new))) b := readByte_writeBytes_apart (by rwa [hf])
    _ = readByte (writeBytes m pa (regDescBytes new)) b := readByte_foldl_setCow_apart places hplaces _
    _ = readByte m b := readByte_writeBytes_apart (by rwa [regDescBytes_length])

theorem memWf_shareTables {m : Mem} (places : List Nat) (pa rec : Nat) (new : RegDesc) (family : List Byte) (h : memWf m = true) :
    memWf (shareTables places pa rec new family m) = true :=
  memWf_writeBytes _ _ (memWf_foldl _ (fun _ _ hm => memWf_setCow _ hm) _ (memWf_writeBytes _ _ h))

/-- The new region holds the bytes of its source, where no table that the operation changes lies in the source (R196). -/
theorem readByte_runSnap {d : Dev} {fold : Nat} {x : Desc} {t : Trans} {st : Stamp} {h : Word} {pa rec base : Nat}
    (p : SharePlaces d fold x t st h pa rec base) (hm : memWf d.mem = true)
    (hapart : ∀ q ∈ pa :: rec :: sourcePlaces d fold x t, ∀ k, k < 64 → ∀ i, i < t.len → q + k ≠ t.base + i)
    {k : Nat} (hk : k < t.len) : readByte (runSnap d fold x t st).dev.mem (base + k) = readByte d.mem (t.base + k) := by
  obtain ⟨-, new, -, hmem⟩ := runSnap_done p
  rw [hmem, readByte_copyBytes _ _ _ (memWf_shareTables _ _ _ _ _ hm), if_pos (by omega),
    show base + k - base + t.base = t.base + k by omega]
  exact readByte_shareTables_apart (familyBytes_length ..) (fun q hq j hj => hapart q hq j hj k hk) _ _

/-! ## SNAPSHOT and CLONE at their stamp -/

/-- `runs_stamped` for an execution that depends on the stamp it is given. -/
theorem runs_nextStamp {s : State} {o : Op} {c : Conn} {i : Instr} {op : Opcode} (r : Entry) (P : Mem → Prop) (h : AtStamp s.dev o c)
    (hlen : o.desc.length.toNat ≤ 16777216) (hop : o.desc.op = op) (hb : isBulk o.desc = false)
    (hx : exec i s = onDev (advanceAs op o.conn o.seq [] []) s) (hr : r.status = .done)
    (hrun : ∀ d1, SameStore s.dev d1 → (runDesc d1 c.ident.fold o.desc o.tr1 o.tr2 o.data (nextStamp s.dev.twin) false).entry = r ∧
      P (runDesc d1 c.ident.fold o.desc o.tr1 o.tr2 o.data (nextStamp s.dev.twin) false).dev.mem) :
    Runs i s fun e => P e.mem ∧ ∃ l, Ended e o c { r with level := l } := by
  obtain ⟨d1, x, hf, hd, rfl, hend⟩ := advance_atStamp h hlen
  obtain ⟨hentry, hmem⟩ := hrun d1 (hf.sameStore hd)
  obtain ⟨l, he, hm⟩ := hend (by rw [hentry, hr])
  rw [hentry] at he
  refine ⟨_, becomes_of hx (advanceAs_own h.1.1 hop [] []), ?_, l, he⟩
  rwa [(leftMem_iff_eq hb _ _).1 hm]

theorem runDesc_share (d : Dev) (fold : Nat) {x : Desc} (hop : x.op = .snapshot ∨ x.op = .clone) (t : Trans) (u : Option Trans)
    (data : List Byte) (st : Stamp) (now : Bool) : runDesc d fold x (some t) u data st now = runSnap d fold x t st := by
  rcases hop with hop | hop <;> simp only [runDesc, hop]

/-- A SNAPSHOT or CLONE at its stamp that finds all it needs. -/
theorem runs_share {s : State} {o : Op} {c : Conn} {i : Instr} {op : Opcode} {t : Trans} {h : Word} {pa rec base : Nat}
    (hs : AtStamp s.dev o c) (ht : o.tr1 = some t) (hlen : o.desc.length.toNat ≤ 16777216) (hm : MemOk s)
    (p : SharePlaces s.dev c.ident.fold o.desc t (nextStamp s.dev.twin) h pa rec base)
    (hapart : ∀ q ∈ pa :: rec :: sourcePlaces s.dev c.ident.fold o.desc t, ∀ k, k < 64 → ∀ i, i < t.len → q + k ≠ t.base + i)
    (hshare : op = .snapshot ∨ op = .clone) (hx : exec i s = onDev (advanceAs op o.conn o.seq [] []) s) (hop : o.desc.op = op) :
    Runs i s fun e => (∀ k, k < t.len → readByte e.mem (base + k) = readByte s.dev.mem (t.base + k)) ∧
      ∃ l, Ended e o c { doneEntry o.desc 0 0 h.toNat with level := l } := by
  subst hop
  have hb : isBulk o.desc = false := by rcases hshare with hop | hop <;> simp [isBulk, hop]
  refine runs_nextStamp _ (fun m => ∀ k, k < t.len → readByte m (base + k) = readByte s.dev.mem (t.base + k)) hs hlen rfl hb hx rfl
    fun d1 hd => ?_
  have p1 := p.of_sameStore hd
  rw [ht, runDesc_share d1 _ hshare]
  refine ⟨(runSnap_done p1).1, fun k hk => ?_⟩
  rw [readByte_runSnap p1 (by rw [hd.1]; exact hm) (by rwa [hd.sourcePlaces]) hk, hd.1]

/-- Settles O35: both rows execute the shared descriptor at its stamp. -/
theorem snapshotsEqualTheirSource : Obligations.SnapshotsEqualTheirSource := by
  intro s o c t h pa rec base d1 d2 hs ht hlen hm hhandle hrec hroom hreg hsrc hapart
  have p : SharePlaces s.dev c.ident.fold o.desc t (nextStamp s.dev.twin) h pa rec base :=
    ⟨hhandle, Option.isSome_iff_exists.1 hroom, ⟨d1, d2, hrec, hreg⟩, List.exists_cons_of_ne_nil hsrc⟩
  exact ⟨runs_share hs ht hlen hm p hapart (.inl rfl) rfl, runs_share hs ht hlen hm p hapart (.inr rfl) rfl⟩

end Sys2Proof.Machine
end

section
/-! SUPPORT. What the twin link, the witness and a change of role leave of a device (R204, R213, R229, R227, R236): the twin's state but
for the fields that each of them sets. -/
namespace Sys2Proof.Machine

/-! ## What sending over the link changes -/

/-- What packing records into frames changes (R213, R214): the link's queues and counters, and what was sent. -/
def LinkSends (d e : Dev) : Prop :=
  ∃ lsn q w k l, e = { d with twin := { d.twin with lsnTx := lsn, txq := q, waitq := w, txc := k }, sent := l }

theorem LinkSends.refl (d : Dev) : LinkSends d d := ⟨_, _, _, _, _, rfl⟩

theorem LinkSends.trans {a b c : Dev} (h : LinkSends a b) (k : LinkSends b c) : LinkSends a c := by
  obtain ⟨_, _, _, _, _, rfl⟩ := h
  obtain ⟨_, _, _, _, _, rfl⟩ := k
  exact ⟨_, _, _, _, _, rfl⟩

theorem pumpFrames_sends : ∀ (n : Nat) (d : Dev), LinkSends d (pumpFrames n d)
  | 0, d => .refl d
  | n + 1, d => by
    rw [pumpFrames]
    split
    · exact .refl d
    · exact LinkSends.trans ⟨_, _, _, _, _, rfl⟩ (pumpFrames_sends n _)

theorem pumpLink_sends (d : Dev) : LinkSends d (pumpLink d) := pumpFrames_sends _ d

theorem sendRecs_sends (d : Dev) (rs : List Rec) : LinkSends d (sendRecs d rs) :=
  LinkSends.trans ⟨_, _, _, _, _, rfl⟩ (pumpLink_sends _)

theorem emit_sends (d : Dev) (o : Out) : LinkSends d (emit d o) := ⟨_, _, _, _, _, rfl⟩

theorem sendHello_sends (d : Dev) : LinkSends d (sendHello d) := by
  unfold sendHello
  split
  · split
    · exact emit_sends d _
    · exact .refl d
  · exact .refl d

theorem pumpFrames_idle (n : Nat) {d : Dev} (h : d.twin.waitq = []) : pumpFrames n d = d := by
  cases n with
  | zero => rfl
  | succ n => simp [pumpFrames, h]

theorem pumpLink_idle {d : Dev} (h : d.twin.waitq = []) : pumpLink d = d := pumpFrames_idle _ h

/-- A single waiting record that fits in a frame leaves in it (R213, R214). -/
theorem pumpFrames_one {d : Dev} {x : Frag} (n : Nat) (hl : d.twin.linkUp = true) (hkey : d.twin.linkKey.isSome = true)
    (hroom : d.twin.txq.length < 4096) (hw : d.twin.waitq = [x]) (hx : 16 + x.len ≤ frameRoom) :
    pumpFrames (n + 1) d = emit (d.modTwin fun t =>
        { t with lsnTx := (t.lsnTx + 1) % 2 ^ 32, txq := t.txq ++ [(d.twin.lsnTx, [x])], waitq := [], txc := t.txc + 1 })
      (.twl d.twin.lsnTx d.twin.lsnRx d.twin.txc (ownPeer d) [x]) := by
  have hpack : packFrame frameRoom d.twin.waitq = ([x], []) := by simp [hw, packFrame, hx]
  have hgo : (!d.twin.linkUp || d.twin.linkKey.isNone || decide (4096 ≤ d.twin.txq.length) || d.twin.waitq.isEmpty) = false := by
    simp [hl, hkey, hroom, hw]
  rw [pumpFrames, hgo, if_neg Bool.false_ne_true]
  dsimp only
  rw [hpack, pumpFrames_idle]
  rfl

/-- A record that fits in a frame leaves at once, alone, over a link that can take it (R213, R214). -/
theorem sendRecs_one {d : Dev} {r : Rec} (hl : d.twin.linkUp = true) (hf : LinkFree d) (hr : bodyBytes r ≤ 9134) :
    sendRecs d [r] = emit (d.modTwin fun t =>
        { t with lsnTx := (t.lsnTx + 1) % 2 ^ 32, txq := t.txq ++ [(d.twin.lsnTx, [wholeRec d r])], waitq := [], txc := t.txc + 1 })
      (.twl d.twin.lsnTx d.twin.lsnRx d.twin.txc (ownPeer d) [wholeRec d r]) := by
  obtain ⟨hkey, hwait, hroom⟩ := hf
  have hw : d.twin.waitq ++ [r].map (wholeRec d) = [wholeRec d r] := by rw [hwait]; rfl
  have hfit : 16 + (wholeRec d r).len ≤ frameRoom := by
    change 16 + bodyBytes r ≤ 9150
    omega
  have hcount : frameCount [wholeRec d r] = (wholeRec d r).len / (frameRoom - 16) + 1 + 1 := by simp [frameCount]
  rw [sendRecs, pumpLink, Dev.modTwin_twin]
  dsimp only
  rw [hw, hcount]
  exact (pumpFrames_one (d := d.modTwin fun t => { t with waitq := t.waitq ++ [r].map (wholeRec d) }) _ hl hkey hroom hw hfit).trans rfl

/-! ## Entering a state -/

theorem enterState_twin (d : Dev) (st : TwinState) : (enterState d st).twin = { d.twin with st := st } := by
  unfold enterState
  split
  case isTrue h => rw [← h]
  case isFalse =>
    simp only [raiseOp_twin, Dev.modRst_twin, Dev.modTwin_twin]
    split <;> rfl

theorem enterState_ops (d : Dev) (st : TwinState) : (enterState d st).net.ops = d.net.ops := by
  unfold enterState
  split
  · rfl
  · refine (ops_keeps.raiseOp _ _ _ _).trans ?_
    split <;> rfl

theorem enterState_rst (d : Dev) (st : TwinState) : ∃ w, (enterState d st).rst = { d.rst with warmed := w } := by
  unfold enterState
  split
  · exact ⟨_, rfl⟩
  · simp only [raiseOp_rst, Dev.modRst_rst, Dev.modTwin_rst]
    split <;> exact ⟨_, rfl⟩

theorem refuseAtLimit_twin (d : Dev) : ∃ b, (refuseAtLimit d).twin = { d.twin with refusing := b } := by
  unfold refuseAtLimit
  split
  · exact ⟨true, raiseOp_twin _ _ _ _⟩
  · exact ⟨_, rfl⟩

theorem leavePair_override (d : Dev) : (leavePair d).twin.override = d.twin.override := by
  unfold leavePair
  split <;> rfl

/-- A unit that begins to serve does so in the state and with the first stamp given (R236, R245). -/
theorem startServing_twin (d : Dev) (tgt : TwinState) (st : Stamp) :
    (startServing d tgt (some st)).twin.st = tgt ∧ (startServing d tgt (some st)).twin.nextAt = some st ∧
      (startServing d tgt (some st)).twin.override = d.twin.override := by
  unfold startServing
  extract_lets d1 d2 d3
  obtain ⟨b, hb⟩ := refuseAtLimit_twin (enterState d3 tgt)
  have h1 : d1.twin.override = d.twin.override := by
    simp only [d1]
    split
    · rfl
    · exact leavePair_override d
  rw [hb, enterState_twin]
  exact ⟨rfl, rfl, h1⟩

/-! ## Stopping to serve -/

theorem settleFully_quiet {d : Dev} (h : Quiet d) : settleFully d = d := settleFully_idle h.1 h.2.1 h.2.2

theorem forgetOp_send (d : Dev) (o : Op) : ∃ n, forgetOp d o = { d with net := n } := by
  unfold forgetOp dropOp modConn
  split <;> exact ⟨_, rfl⟩

theorem foldl_forgetOp (l : List Op) (d : Dev) : ∃ n, l.foldl forgetOp d = { d with net := n } := by
  induction l generalizing d with
  | nil => exact ⟨_, rfl⟩
  | cons o l ih =>
    obtain ⟨n, hn⟩ := forgetOp_send d o
    rw [List.foldl_cons, hn]
    exact ih _

/-- Dropping what has no stamp changes the network side, and a counter (R227). -/
theorem dropUnstamped_frame (d : Dev) : ∃ r n, dropUnstamped d = { d with regs := r, net := n } := by
  obtain ⟨n, hn⟩ := foldl_forgetOp (d.net.ops.filter fun o => o.stamp.isNone)
    (bump d 0x80020 (d.net.ops.filter fun o => o.stamp.isNone).length)
  rw [dropUnstamped, hn]
  exact ⟨_, _, rfl⟩

theorem dropUnstamped_ops {d : Dev} (h : d.net.ops = []) : (dropUnstamped d).net.ops = [] := by
  rw [dropUnstamped, h]
  exact h

theorem leavePair_frame (d : Dev) : ∃ t, leavePair d = { d with twin := t } := by
  unfold leavePair
  split <;> exact ⟨_, rfl⟩

theorem flushSetups_send (d : Dev) : SendFrame d (flushSetups d) := by
  refine List.foldlRecOn d.net.conns _ (motive := SendFrame d) (.refl d) fun a ha x _ => ?_
  split
  · split
    · exact (ha.trans (modConn_send a x.1 _)).trans ⟨_, _, _, rfl⟩
    · exact ha
  · exact ha

theorem lapseBank_closed {d : Dev} (ho : d.rst.bankOwner = none) (hb : d.rst.bankBusy = false) : lapseBank d = d := by
  simp [lapseBank, ho, hb]

theorem endWaiting_idle {d : Dev} (hq : Quiet d) (hr : d.rst.run = none) : endWaiting d = d := by
  obtain ⟨hdue, hqueue, hwaits⟩ := hq
  simp [endWaiting, hwaits, hr, settle_idle hdue hqueue hwaits]

theorem runOut_noOps {d : Dev} (h : d.net.ops = []) : runOut d = flushSetups d := by
  rw [runOut, h]
  exact completeAll_of_noOps h

/-- A device with the same work in hand as an idle one, and no operation, is idle in any state that it enters. -/
theorem Idle.enter {d e : Dev} (h : Idle d) (hf : e.folds = d.folds) (hd : e.twin.ctrlDue = d.twin.ctrlDue) (ho : e.net.ops = [])
    (hr : e.rst = d.rst) (st : TwinState) : Idle (enterState e st) := by
  obtain ⟨⟨hdue, hqueue, hwaits⟩, -, howner, hbank, hrun⟩ := h
  obtain ⟨w, hw⟩ := enterState_rst e st
  refine ⟨⟨?_, ?_, ?_⟩, (enterState_ops e st).trans ho, ?_, ?_, ?_⟩
  · rw [enterState_ctrlDue, hd, hdue]
  · rw [enterState_folds, hf, hqueue]
  · rw [enterState_folds, hf, hwaits]
  · rw [hw, hr, howner]
  · rw [hw, hr, hbank]
  · rw [hw, hr, hrun]

/-- The device that has left its pairing and the lease, on its way out of a serving state (R227). -/
def roleLeft (d : Dev) : Dev :=
  endPhase ((leavePair (dropUnstamped d)).modTwin fun t => { t with claiming := none, leaseEnd := none })

/-- A unit with nothing in hand that stops to serve only leaves its pairing and enters the state (R227). -/
theorem stopServing_idle {d : Dev} {tgt : TwinState} (h : Idle d) (hs : serving d = true) (ht : tgt ≠ .standby) :
    SendFrame (enterState (roleLeft d) tgt) (stopServing d tgt) := by
  obtain ⟨r, n, hn⟩ := dropUnstamped_frame d
  obtain ⟨t, hl⟩ := leavePair_frame (dropUnstamped d)
  have hdue : (roleLeft d).twin.ctrlDue = d.twin.ctrlDue := (leavePair_ctrlDue (dropUnstamped d)).trans (by rw [hn])
  have hops : (roleLeft d).net.ops = [] := by
    change (leavePair (dropUnstamped d)).net.ops = []
    rw [hl]
    exact dropUnstamped_ops h.2.1
  have hfolds : (roleLeft d).folds = d.folds := (leavePair_folds (dropUnstamped d)).trans (by rw [hn])
  have hrst : (roleLeft d).rst = d.rst := by
    change (leavePair (dropUnstamped d)).rst = d.rst
    rw [hl, hn]
  obtain ⟨hquiet, hnone, howner, hbank, hrun⟩ := h.enter hfolds hdue hops hrst tgt
  have hstop : stopServing d tgt = flushSetups (enterState (roleLeft d) tgt) := by
    rw [stopServing, hs, Bool.not_true, if_neg Bool.false_ne_true]
    dsimp only
    rw [if_neg ht, ← roleLeft, lapseBank_closed howner hbank, endWaiting_idle hquiet hrun, runOut_noOps hnone]
  rw [hstop]
  exact flushSetups_send _

/-- What a unit with nothing in hand is once it has stopped to serve (R227, R232). -/
theorem stopServing_idle_twin {d : Dev} {tgt : TwinState} (h : Idle d) (hs : serving d = true) (ht : tgt ≠ .standby) :
    (stopServing d tgt).twin.st = tgt ∧ (stopServing d tgt).twin.leaseEnd = none ∧ (stopServing d tgt).mem = d.mem := by
  obtain ⟨_, _, _, he⟩ := stopServing_idle h hs ht
  rw [he]
  dsimp only
  rw [enterState_twin]
  refine ⟨rfl, rfl, ?_⟩
  rw [enterState_mem, roleLeft, endPhase_mem, Dev.modTwin_mem, leavePair_mem, dropUnstamped_mem]

/-! ## The witness and the link key -/

/-- A request to the witness (R229). -/
theorem sendWit_twin (d : Dev) (r : WitReq) : ∃ g, (sendWit d r).twin =
    { d.twin with wseq := d.twin.wseq + 1, reqs := asks d r (if r = .renew then epochNow d.twin + 1 else 0), guard := g } := ⟨_, rfl⟩

/-- What the link key is derived from, and the key (R213). -/
def keyParts (d : Dev) : Option (BitVec 256) × Option PairIdent × Option Hello × DWord × Bool :=
  (d.twin.linkKey, d.twin.ident, d.twin.peer, d.twin.nonce, d.sec.secrets)

/-- The link key is the one that the NONCEs give (R213). -/
def Keyed (d : Dev) : Prop := d.twin.linkKey = linkKeyOf d

theorem Keyed.of_parts {d e : Dev} (h : Keyed d) (hp : keyParts e = keyParts d) : Keyed e := by
  simp only [keyParts, Prod.mk.injEq] at hp
  obtain ⟨hkey, hident, hpeer, hnonce, hsec⟩ := hp
  unfold Keyed linkKeyOf at h ⊢
  rw [hkey, hident, hpeer, hnonce, hsec]
  exact h

theorem LinkSends.keyParts {d e : Dev} (h : LinkSends d e) : keyParts e = keyParts d := by
  obtain ⟨_, _, _, _, _, rfl⟩ := h
  rfl

/-- A link key derived again (R213). -/
theorem keyed_rekeyLink (d : Dev) : Keyed (rekeyLink d) :=
  Keyed.of_parts (d := d.modTwin fun t => { t with linkKey := linkKeyOf d, txc := 1 }) rfl (pumpLink_sends _).keyParts

/-- What drawing a NONCE changes (R213, R243). -/
theorem newNonce_frame (d : Dev) : ∃ f n k lsn q w c l, newNonce d =
    { d with freeIdx := f, sent := l,
             twin := { d.twin with nonce := n, linkKey := k, lsnTx := lsn, txq := q, waitq := w, txc := c } } := by
  obtain ⟨_, _, _, _, _, h⟩ := pumpLink_sends ((((draw64 d).2.modTwin fun t => { t with nonce := (draw64 d).1 })).modTwin fun t =>
    { t with linkKey := linkKeyOf ((draw64 d).2.modTwin fun t => { t with nonce := (draw64 d).1 }), txc := 1 })
  rw [newNonce, rekeyLink]
  exact ⟨_, _, _, _, _, _, _, _, h⟩

end Sys2Proof.Machine
end

section
/-! SUPPORT. The commands of TWN_CMD (R210, R235, R239, R245, R247, R463, R562), with the statement about them. -/
namespace Sys2Proof.Machine

/-! ## The staging registers -/

/-- Registers cleared one after the other read zero, and the others as before. -/
theorem reg_foldl_clear (f : Nat → Nat) (l : List Nat) (d : Dev) (b : Nat) :
    reg (l.foldl (fun a i => setReg a (f i) 0) d) b = if b ∈ l.map f then 0 else reg d b := by
  induction l generalizing d with
  | nil => simp
  | cons i l ih =>
    rw [List.foldl_cons, ih, reg_setReg]
    by_cases hi : f i = b
    · simp [hi]
    · simp [hi, Ne.symm hi]

/-- The address of a staging register of the keys (R562). -/
def stagingAddr (i : Nat) : Nat := if i < 8 then 0x80080 + 4 * i else 0x800A0 + 4 * (i - 8)

/-- The staging registers of the keys, cleared (R247). -/
def stagingCleared (d : Dev) : Dev := (List.range 16).foldl (fun a i => setReg a (stagingAddr i) 0) d

theorem stagingCleared_frame (d : Dev) : ∃ r, stagingCleared d = { d with regs := r } := by
  refine List.foldlRecOn (List.range 16) _ (motive := fun a : Dev => ∃ r, a = { d with regs := r }) ⟨d.regs, rfl⟩ fun a ha i _ => ?_
  obtain ⟨r, rfl⟩ := ha
  exact ⟨_, rfl⟩

theorem stagingClear_stagingCleared (d : Dev) : StagingClear (stagingCleared d) := by
  have hclear (k : Nat) (hk : k < 16) : reg (stagingCleared d) (stagingAddr k) = 0 :=
    (reg_foldl_clear stagingAddr (List.range 16) d _).trans (if_pos (List.mem_map_of_mem (List.mem_range.2 hk)))
  intro i hi
  have h1 := hclear i (by omega)
  have h2 := hclear (i + 8) (by omega)
  rw [stagingAddr, if_pos hi] at h1
  rw [stagingAddr, if_neg (by omega), Nat.add_sub_cancel] at h2
  exact ⟨h1, h2⟩

/-! ## A write to TWN_CMD -/

/-- A command in TWN_CMD runs, and the staging registers are cleared after it (R247, R562). -/
theorem runs_twnCmd {s : State} {p : Principal} {i : Instr} {f : Dev → Dev} {P : Dev → Prop} (h : TwnReady s.dev p)
    (hx : exec i s = onDev (twnCmd p f) s)
    (hP : ∀ r a, StagingClear { f s.dev with regs := r, answer := a } → P { f s.dev with regs := r, answer := a }) : Runs i s P := by
  obtain ⟨⟨hpresent, hrefusal⟩, hidle⟩ := h
  have hrun : twnRun f s.dev = (stagingCleared (f s.dev), 0) := if_neg hidle
  obtain ⟨r, hr⟩ := stagingCleared_frame (f s.dev)
  have hclear := stagingClear_stagingCleared (f s.dev)
  refine ⟨twnCmd p f s.dev, hx, ?_⟩
  rw [twnCmd, command_open hpresent hrefusal, hrun]
  rw [hr] at hclear ⊢
  exact hP r _ hclear

/-! ## Each command -/

theorem countErases_twin (d : Dev) (sec n : Nat) : (countErases d sec n).twin = d.twin := by
  refine foldl_keeps (fun d => d.twin) (fun a i => countErase a (sec + i)) (fun a i => ?_) (List.range n) d
  unfold countErase wearSector
  dsimp only
  split
  · exact raiseOp_twin _ _ _ _
  · rfl

theorem wroteRecord_twin (d : Dev) (n : Nat) : (wroteRecord d n).twin = d.twin := by
  unfold wroteRecord compactStore
  dsimp only
  split
  · split
    · rw [raiseOp_twin, Dev.modLdg_twin, countErases_twin]
      rfl
    · rw [Dev.modLdg_twin, countErases_twin]
      rfl
  · rfl

theorem stopServing_st {d : Dev} {tgt : TwinState} (h : Idle d) (ht : tgt ≠ .standby) : (stopServing d tgt).twin.st = tgt := by
  cases hs : serving d with
  | true => exact (stopServing_idle_twin h hs ht).1
  | false =>
    rw [stopServing, hs, Bool.not_false, if_pos rfl, enterState_twin]

theorem swap_active {d : Dev} (hp : d.twin.phase = .none) (hst : d.twin.st = .active) :
    (swap d).twin = { d.twin with phase := .swapDrain, lastCmd := .running } := by
  obtain ⟨_, _, h⟩ := dropUnstamped_frame (d.modTwin fun t => { t with phase := .swapDrain, lastCmd := .running })
  rw [swap, if_neg (by simp [hp, hst]), h]
  rfl

theorem reseed_active {d : Dev} (hp : d.twin.phase = .none) (hst : d.twin.st = .active) :
    (reseed d).twin = { d.twin with phase := .reseedDrain, lastCmd := .running } := by
  rw [reseed, if_neg (by simp [hp, hst])]
  rfl

/-- FORCE_UNPAIRED on a FENCED unit that is fit to serve (R245). -/
theorem forceUnpaired_fenced {d : Dev} (hi : d.twin.ident.isSome = true) (hst : d.twin.st = .fenced) (hf : fitToServe d = true) :
    (forceUnpaired d).twin.st = .unpaired ∧ (forceUnpaired d).twin.override = true ∧ (forceUnpaired d).twin.lastCmd = .done := by
  rw [forceUnpaired, if_pos (by simp [hi, hst, hf])]
  dsimp only [cmdResult, Dev.modTwin_twin]
  rw [raiseOp_twin]
  obtain ⟨h1, -, h2⟩ := startServing_twin ((dropPairing d).modTwin fun t => { t with override := true }) .unpaired
    (mkStamp d.twin.rseed (stampEpoch d.twin.lastStamp + 1) 0)
  exact ⟨h1, h2, rfl⟩

/-- CLEAR_OVERRIDE with nothing in hand (R245). -/
theorem clearOverride_idle {d : Dev} (ho : d.twin.override = true) (hi : Idle d) :
    (clearOverride d).twin.st = .fenced ∧ (clearOverride d).twin.override = false ∧ (clearOverride d).twin.lastCmd = .done ∧
      Keyed (clearOverride d) := by
  rw [clearOverride, if_pos ho]
  generalize hd1 : raiseOp ((stopServing d .fenced).modTwin fun t => { t with override := false }) 0x040D srcTWN [] = d1
  have hst : d1.twin.st = .fenced := by
    rw [← hd1, raiseOp_twin]
    exact stopServing_st hi (by decide)
  have hover : d1.twin.override = false := by rw [← hd1, raiseOp_twin]; rfl
  obtain ⟨_, _, _, _, _, _, _, _, hn⟩ := newNonce_frame d1
  have hkey : Keyed (sendHello (newNonce d1)) := (keyed_rekeyLink _).of_parts (sendHello_sends _).keyParts
  obtain ⟨_, _, _, _, _, hh⟩ := sendHello_sends (newNonce d1)
  refine ⟨?_, ?_, rfl, hkey⟩
  · change (sendHello (newNonce d1)).twin.st = _
    rw [hh, hn]
    exact hst
  · change (sendHello (newNonce d1)).twin.override = _
    rw [hh, hn]
    exact hover

theorem applyCtrl_window (d : Dev) (st : Stamp) (o : Bool) (n : Nat) :
    applyCtrl d st (.window o n) = d.modUpd fun u => { u with window := o, hours := if o then n else 0 } := rfl

/-- OPEN_WINDOW and CLOSE_WINDOW whose record can leave at once (R463). -/
theorem setWindow_ready {d : Dev} {o : Bool} (hs : serving d = true) (hr : d.twin.refusing = false)
    (hc : ctrlReady d (.window o (regBits d 0x90024 31 24)) = true) :
    (setWindow o d).upd.window = o ∧ (setWindow o d).upd.hours = (if o then regBits d 0x90024 31 24 else 0) ∧ (setWindow o d).mem = d.mem := by
  have hc' : ctrlReady (cmdResult d .done) (.window o (regBits d 0x90024 31 24)) = true := hc
  rw [setWindow, if_neg (by simp [hs, hr]), issueCtrl_ready hc', applyCtrl_window]
  refine ⟨rfl, rfl, ?_⟩
  rw [Dev.modUpd_mem, markEnd_mem, stampCtrl_mem, cmdResult_mem]

/-- PROVISION of a proper identity on a FENCED unit (R562). -/
theorem provision_fenced {d : Dev} (hst : d.twin.st = .fenced) (hp : (stagedIdent d).pairId ≠ 0)
    (hn : (stagedIdent d).node ≠ (stagedIdent d).twin) (hw : d.sec.wk.isSome = true) (hf : d.ldg.cfg.full = false) :
    (provision d).twin = { d.twin with identNext := some (stagedIdent d), lastCmd := .done } := by
  have hp' : ¬ (stagedIdent d).pairId = 0#64 := hp
  rw [provision]
  dsimp only
  rw [if_neg (by simp [hst, hp', hn, hf, Option.isSome_iff_ne_none.1 hw])]
  dsimp only [cmdResult, Dev.modTwin_twin]
  rw [wroteRecord_twin, wroteRecord_twin]
  rfl

/-- A reseed whose drain has ended, on a unit alone with nothing that waits (R210). -/
theorem reseedDrained_unpaired {d : Dev} (hp : d.twin.phase = .reseedDrain) (hst : d.twin.st = .unpaired) (hq : Quiet d) :
    (reseedDrained d).twin.rseed = d.twin.rseed + 1 ∧ (reseedDrained d).twin.nextAt = some (mkStamp (d.twin.rseed + 1) 0 0) ∧
      (reseedDrained d).twin.phase = .none ∧ (reseedDrained d).twin.refusing = false ∧ (reseedDrained d).twin.lastCmd = .done := by
  obtain ⟨_, _, _, _, _, _, _, _, hn⟩ := newNonce_frame ((nextSeed d).modTwin fun t => { t with phase := .reseedHello })
  rw [reseedDrained, if_neg (by simp [hp, hst])]
  dsimp only
  rw [if_pos (by rw [hn]; exact hst), settleFully_quiet, hn]
  · exact ⟨rfl, rfl, rfl, rfl, rfl⟩
  · rw [hn]
    exact hq

/-- Settles O44: the staging registers are cleared whatever the command (`runs_twnCmd`), and each command has its own effect. -/
theorem twinCommandsRun : Obligations.TwinCommandsRun := by
  intro s p
  refine ⟨fun h => ⟨fun hp hst => ?_, fun hi hst hf => ?_, fun ho hi => ?_, fun hp hst => ?_, ?_, ?_, fun hs hr => ⟨fun hc => ?_, fun hc => ?_⟩,
    fun hst hp hn hw hf => ?_⟩, fun hp hst hq => ?_, rfl⟩
  · refine runs_twnCmd h rfl fun r a hclear => ?_
    change (reseed s.dev).twin.phase = _ ∧ (reseed s.dev).twin.lastCmd = _ ∧ _
    rw [reseed_active hp hst]
    exact ⟨rfl, rfl, hclear⟩
  · obtain ⟨h1, h2, h3⟩ := forceUnpaired_fenced hi hst hf
    exact runs_twnCmd h rfl fun r a hclear => ⟨h1, h2, h3, hclear, forceUnpaired_mem s.dev⟩
  · obtain ⟨h1, h2, h3, h4⟩ := clearOverride_idle ho hi
    exact runs_twnCmd h rfl fun r a hclear => ⟨h1, h2, h3, h4, hclear⟩
  · refine runs_twnCmd h rfl fun r a hclear => ?_
    change (swap s.dev).twin.phase = _ ∧ (swap s.dev).twin.lastCmd = _ ∧ (swap s.dev).twin.st = _ ∧ _
    rw [swap_active hp hst]
    exact ⟨rfl, rfl, hst, hclear, swap_mem s.dev⟩
  · exact runs_twnCmd h rfl fun r a hclear => ⟨rfl, hclear, rfl⟩
  · exact runs_twnCmd h rfl fun r a hclear => ⟨rfl, hclear, rfl⟩
  · obtain ⟨h1, h2, h3⟩ := setWindow_ready hs hr hc
    exact runs_twnCmd h rfl fun r a hclear => ⟨h1, h2, hclear, h3⟩
  · obtain ⟨h1, h2, h3⟩ := setWindow_ready hs hr hc
    exact runs_twnCmd h rfl fun r a hclear => ⟨h1, h2, hclear, h3⟩
  · refine runs_twnCmd h rfl fun r a hclear => ?_
    change (provision s.dev).twin.identNext = _ ∧ (provision s.dev).twin.lastCmd = _ ∧ _
    rw [provision_fenced hst hp hn hw hf]
    exact ⟨rfl, rfl, hclear, provision_mem s.dev⟩
  · exact ⟨reseedDrained s.dev, rfl, reseedDrained_unpaired hp hst hq⟩

end Sys2Proof.Machine
end

section
/-! SUPPORT. The witness, the lease and the timers of the pair (R229 to R236, R239 to R244), with the statement about them. -/
namespace Sys2Proof.Machine

/-! ## The witness's answers -/

/-- The device once the witness's answer has come (R229). -/
def witnessHeard (d : Dev) (a : WitAns) : Dev :=
  d.modTwin fun t => { t with witOk := true, holder := a.holder, reqs := t.reqs.filter fun q => q.2.1 ≠ a.wseq }

theorem answered_waiting {d : Dev} {a : WitAns} {r : WitReq} {ts ep : Nat} (h : Answers d a r ts ep)
    (f : WitReq → Nat → Nat → Dev → Dev) : answered a f d = f r ts ep (witnessHeard d a) := by
  obtain ⟨hmac, hok, ⟨i, hi, hp, hu⟩, hreq⟩ := h
  simp [answered, hi, hmac, hok, hp, hu, hreq, witnessHeard]

/-- GRANT to a RENEW extends the lease (R231, R234). -/
theorem witGrant_renew {d : Dev} {a : WitAns} {ts ep : Nat} (h : Answers d a .renew ts ep) (hq : Quiet d) :
    witGrant a d = (witnessHeard d a).modTwin fun t => { t with leaseEnd := some (leaseOf d a ts), ceil := max t.ceil ep } := by
  rw [witGrant, answered_waiting h]
  exact settleFully_quiet hq

/-- GRANT to the CLAIM of a unit that takes over after a HANDOVER makes it serve (R236). -/
theorem witGrant_handover {d : Dev} {a : WitAns} {ts ep : Nat} (h : Answers d a .claim ts ep) (hs : serving d = false)
    (hc : d.twin.claiming = some .handover) :
    witGrant a d = (startServing (witnessHeard d a) .active (some (mkStamp d.twin.rseed a.epoch 0))).modTwin fun t =>
      { t with leaseEnd := some (leaseOf d a ts), ceil := a.epoch + 1 } := by
  have hwhy : claimWhy (witnessHeard d a) = some .handover := by
    rw [claimWhy, show (witnessHeard d a).twin.claiming = some .handover from hc]
  have hs' : serving (witnessHeard d a) = false := hs
  rw [witGrant, answered_waiting h]
  simp only [hwhy, hs', Bool.false_eq_true, if_false, if_true]
  rfl

theorem leavePair_claiming (d : Dev) : (leavePair d).twin.claiming = d.twin.claiming := by
  unfold leavePair
  split <;> rfl

/-- DENY with reason 0x02 fences a standby (R233). -/
theorem witDeny_standby {d : Dev} {a : WitAns} {ts ep : Nat} (h : Answers d a .claim ts ep) (hr : a.reason = 2)
    (hst : d.twin.st = .standby) : (witDeny a d).twin.st = .fenced ∧ (witDeny a d).twin.claiming = none := by
  have hst' : (raiseOp (witnessHeard d a) 0x0405 srcTWN []).twin.st = .standby := by rw [raiseOp_twin]; exact hst
  rw [witDeny, answered_waiting h]
  dsimp only
  rw [if_pos (hr.ge : 2 ≤ a.reason), if_pos (by simp [hr]), if_pos hst', enterState_twin]
  exact ⟨rfl, leavePair_claiming _⟩

/-- DONE to ADMIT makes the serving unit ACTIVE, once its resync is over (R242). -/
theorem becomeActive_twin (d : Dev) : (becomeActive d).twin.st = .active ∧ (becomeActive d).twin.resyncing = false ∧
    (becomeActive d).twin.override = false ∧ (becomeActive d).twin.diverge.active = false := by
  unfold becomeActive
  extract_lets forced d1 d2
  have h2 : d2.twin = d1.twin := by
    simp only [d2]
    split
    · exact raiseOp_twin _ _ _ _
    · rfl
  obtain ⟨_, _, _, _, _, he⟩ := sendHello_sends (protection (raiseOp d2 0x040C srcTWN []))
  rw [he]
  dsimp only
  rw [protection, raise_twin, raiseOp_twin, h2]
  refine ⟨?_, rfl, rfl, rfl⟩
  change (enterState d .active).twin.st = _
  rw [enterState_twin]

theorem witDone_admit {d : Dev} {a : WitAns} {ts ep : Nat} (h : Answers d a .admitTwin ts ep) (hst : d.twin.st = .unpaired)
    (hr : d.twin.resyncing = true) (hp : d.twin.phase ≠ .yieldAdmit) : witDone a d = becomeActive (witnessHeard d a) := by
  have hp' : ¬ (witnessHeard d a).twin.phase = .yieldAdmit := hp
  have hgo : (decide ((witnessHeard d a).twin.st = .unpaired) && (witnessHeard d a).twin.resyncing) = true := by
    change (decide (d.twin.st = .unpaired) && d.twin.resyncing) = true
    simp [hst, hr]
  rw [witDone, answered_waiting h]
  dsimp only
  rw [if_neg hp', if_pos hgo]

/-! ## The requests to the witness -/

theorem renew_serving {d : Dev} {i : PairIdent} (hi : d.twin.ident = some i) (hs : serving d = true) (ho : d.twin.override = false) :
    renew d = sendWit d .renew := by
  simp [renew, hs, leased, hi, ho]

theorem claim_standby {d : Dev} {i : PairIdent} (hi : d.twin.ident = some i) (hst : d.twin.st = .standby) (hl : d.twin.linkUp = false) :
    claim d = sendWit d .claim := by
  simp [claim, hi, hst, hl]

theorem swapDrained_active {d : Dev} (hp : d.twin.phase = .swapDrain) (hst : d.twin.st = .active)
    (hl : d.twin.lastStamp ≤ d.twin.peerStamp) (hf : d.twin.finWait = []) :
    swapDrained d = sendWit (d.modTwin fun t => { t with phase := .swapRelease }) .release := by
  simp [swapDrained, hp, hst, drainedTwin, hl, hf]

/-! ## The end of a lease -/

/-- A serving unit with nothing in hand is FENCED once it has handed over (R232). -/
theorem fence_idle {d : Dev} (h : Idle d) (hs : serving d = true) :
    (fence d).twin.st = .fenced ∧ (fence d).twin.leaseEnd = none ∧ (fence d).mem = d.mem := by
  have hstop := stopServing_idle_twin (tgt := .fenced) h hs (by decide)
  rw [fence, hs, Bool.not_true, if_neg Bool.false_ne_true]
  dsimp only
  split
  · obtain ⟨_, _, _, _, _, he⟩ := sendRecs_sends (stopServing d .fenced) [.handover false]
    rw [he]
    exact hstop
  · exact hstop

theorem leaseOver_idle {d : Dev} {i : PairIdent} (hi : d.twin.ident = some i) (hs : serving d = true) (ho : d.twin.override = false)
    (h : Idle d) : (leaseOver d).twin.st = .fenced ∧ (leaseOver d).twin.leaseEnd = none ∧ (leaseOver d).mem = d.mem := by
  rw [leaseOver, if_pos (by simp [hs, leased, hi, ho]), raiseOp_twin, raiseOp_mem]
  exact fence_idle (d := d.modTwin fun t => { t with leaseEnd := none }) h hs

/-! ## Heartbeats -/

/-- A heartbeat that leaves with fewer than four missed before it only counts (R235). -/
theorem missed_few {d : Dev} (ht : d.twin.hbTwl < 4) (hm : d.twin.hbMgt < 4) :
    missed d = d.modTwin fun t => { t with hbTwl := t.hbTwl + 1, hbMgt := t.hbMgt + 1 } := by
  have ht' : satUp 5 d.twin.hbTwl = d.twin.hbTwl + 1 := by unfold satUp; omega
  have hm' : satUp 5 d.twin.hbMgt = d.twin.hbMgt + 1 := by unfold satUp; omega
  unfold missed
  extract_lets t d1 d2
  have h1 : d1 = d.modTwin fun t => { t with hbTwl := t.hbTwl + 1, hbMgt := t.hbMgt + 1 } := by
    simp only [d1, Dev.modTwin, ht', hm']
  have h2 : d2 = d1 := if_neg (by simp only [t, Bool.or_eq_true, decide_eq_true_eq]; omega)
  rw [h2, h1, if_neg (by simp; omega)]

theorem sendAckFrame_frame (d : Dev) : ∃ k, sendAckFrame d = { d with twin := { d.twin with txc := k }, sent :=
    (if linkReady d then [.linkAck d.twin.lsnRx d.twin.txc (ownPeer d)] else []) ++ d.sent } := by
  unfold sendAckFrame
  split <;> exact ⟨_, rfl⟩

/-- The heartbeats of both paths (R235). -/
theorem heartbeatSend_apart {d : Dev} {i : PairIdent} (hi : d.twin.ident = some i) (hk : d.sec.secrets = true) (hp : paired d = false)
    (ht : d.twin.hbTwl < 4) (hm : d.twin.hbMgt < 4) :
    (heartbeatSend d).sent = .heartbeat (witBytes i i.secret 0x10 d.twin.wseq 0 (d.twin.rseed % 65536) 0 d.twin.lastStamp) ::
        (if linkReady d then [.linkAck d.twin.lsnRx d.twin.txc (ownPeer d)] else []) ++ d.sent ∧
      (heartbeatSend d).twin.hbTwl = d.twin.hbTwl + 1 ∧ (heartbeatSend d).twin.hbMgt = d.twin.hbMgt + 1 := by
  obtain ⟨k, hack⟩ := sendAckFrame_frame d
  have hbeat : sendBeat (sendAckFrame d) = emit (sendAckFrame d)
      (.heartbeat (witBytes i i.secret 0x10 d.twin.wseq 0 (d.twin.rseed % 65536) 0 d.twin.lastStamp)) := by
    simp [sendBeat, hack, hi]
  rw [heartbeatSend, if_pos (by simp [beating, hi, hk, hp]), hbeat, missed_few (by rw [hack]; exact ht) (by rw [hack]; exact hm), hack]
  exact ⟨rfl, rfl, rfl⟩

/-- A heartbeat that has come on a path (R235, R240). -/
theorem beatOn_twin (link : Bool) (d : Dev) : (if link then (beatOn link d).twin.hbTwl else (beatOn link d).twin.hbMgt) = 0 ∧
    (beatOn link d).twin.claiming = if d.twin.claiming = some .start ∧ d.twin.source = false then none else d.twin.claiming := by
  by_cases h : d.twin.claiming = some .start ∧ d.twin.source = false
  · cases link <;> simp [beatOn, heard, h]
  · cases link <;> simp [beatOn, heard, h]

/-- Settles O43: each command by the lemma about what it does in the state that the clause names. -/
theorem theLeaseIsKept : Obligations.TheLeaseIsKept := by
  intro s i hi
  refine ⟨fun hs ho => ?_, fun hst hl hc => ?_, fun a ts ep h hq => ?_, fun a ts ep h hs hc => ?_, fun a ts ep h hr hst => ?_,
    fun a ts ep h hst hr hp => ?_, fun h => ?_, fun hs ho h => ?_, fun hst hl => ?_, fun hst hf => ?_, fun hk hp ht hm => ?_,
    fun link => ?_, fun hp hl => ?_, fun hp hst hl hf => ?_, fun hst hp => ?_⟩
  · exact ⟨_, rfl, renew_mem _, by rw [renew_serving hi hs ho]; rfl⟩
  · refine ⟨_, rfl, ?_⟩
    rw [claim_standby hi hst hl]
    exact ⟨hc, rfl⟩
  · refine ⟨_, rfl, ?_⟩
    rw [witGrant_renew h hq]
    exact ⟨rfl, rfl, rfl, rfl⟩
  · refine ⟨_, rfl, ?_⟩
    obtain ⟨hst, hnext, -⟩ := startServing_twin (witnessHeard s.dev a) .active (mkStamp s.dev.twin.rseed a.epoch 0)
    rw [witGrant_handover h hs hc]
    exact ⟨hst, rfl, rfl, hnext, by rw [Dev.modTwin_mem, startServing_mem]; rfl⟩
  · obtain ⟨h1, h2⟩ := witDeny_standby h hr hst
    exact ⟨_, rfl, h1, h2, witDeny_mem a _⟩
  · refine ⟨_, rfl, ?_⟩
    obtain ⟨h1, h2, h3, h4⟩ := becomeActive_twin (witnessHeard s.dev a)
    rw [witDone_admit h hst hr hp]
    exact ⟨h1, h2, h3, h4, becomeActive_mem _⟩
  · exact becomes_of rfl (by simp [witLate, h])
  · exact ⟨_, rfl, leaseOver_idle hi hs ho h⟩
  · exact ⟨_, rfl, by rw [linkWait, if_pos (by simp [hst, hl])]; rfl⟩
  · exact becomes_of rfl (by simp [soloWait, hst, hi, hf])
  · exact ⟨_, rfl, heartbeatSend_apart hi hk hp ht hm⟩
  · refine ⟨beatOn link s.dev, becomes_of rfl (by simp [heartbeatRecv, hi]), ?_⟩
    obtain ⟨h1, h2⟩ := beatOn_twin link s.dev
    exact ⟨h1, beatOn_mem _ _, h2⟩
  · exact becomes_of rfl (by simp [hp, sendHello, hi, hl])
  · refine ⟨_, rfl, ?_⟩
    rw [swapDrained_active hp hst hl hf]
    exact ⟨rfl, rfl⟩
  · exact becomes_of rfl (by simp [handoverLate, hst, hp])

end Sys2Proof.Machine
end

section
/-! SUPPORT. Link frames, HELLOs and the link's timers (R212, R213, R243, R244), with the statement about them. -/
namespace Sys2Proof.Machine

/-! ## What every good frame does -/

/-- The device once the frames before LACK are held no longer (R213). -/
def acked (d : Dev) (lack : Nat) : Dev :=
  d.modTwin fun t =>
    { t with txq := t.txq.filter fun f => !(decide (0 < (lack + 2 ^ 32 - f.1) % 2 ^ 32) && decide ((lack + 2 ^ 32 - f.1) % 2 ^ 32 < 2 ^ 31)) }

theorem takeLack_idle {d : Dev} (lack : Nat) (hw : d.twin.waitq = []) : takeLack d lack = acked d lack :=
  pumpLink_idle (d := acked d lack) hw

/-- A frame that passes every check goes on to its handler, once its LACK and its PEER_STAMP are taken (R212). -/
theorem twFrame_ok {d : Dev} {h : TwlHdr} (f : Dev → Dev) (hi : d.twin.ident.isSome = true) (hl : d.twin.linkUp = true)
    (hok : FrameOk d h) (hw : d.twin.waitq = []) : twFrame h f d = f (takePeer (acked d h.lack) h.peer) := by
  obtain ⟨hkey, hftype, htag, hhdr⟩ := hok
  rw [← takeLack_idle h.lack hw]
  simp [twFrame, Option.isSome_iff_ne_none.1 hi, hl, hftype, htag, hhdr, Option.isSome_iff_ne_none.1 hkey]

/-- A unit that does not serve keeps the stamp that its twin echoes (R217). -/
theorem takePeer_follower {d : Dev} (p : Stamp) (hs : serving d = false) :
    takePeer d p = d.modTwin fun t => { t with peerEcho := p } := by
  simp [takePeer, hs]

/-- A PEER_STAMP that is not new changes nothing at a serving unit (R217). -/
theorem takePeer_old {d : Dev} {p : Stamp} (hs : serving d = true) (hp : p ≤ d.twin.peerStamp) : takePeer d p = d := by
  simp [takePeer, hs, hp]

theorem heard_frame (d : Dev) : ∃ c, heard d = { d with twin := { d.twin with claiming := c } } := by
  unfold heard
  split <;> exact ⟨_, rfl⟩

/-! ## LINK_ACK and RECORDS frames -/

theorem mem_acked_txq {d : Dev} {lack : Nat} {f : Nat × List Frag} (h : f ∈ (acked d lack).twin.txq) :
    f ∈ d.twin.txq ∧ ¬((0 < (lack + 2 ^ 32 - f.1) % 2 ^ 32) ∧ (lack + 2 ^ 32 - f.1) % 2 ^ 32 < 2 ^ 31) := by
  obtain ⟨hmem, hnot⟩ := List.mem_filter.1 h
  refine ⟨hmem, fun ⟨h1, h2⟩ => ?_⟩
  rw [decide_eq_true h1, decide_eq_true h2] at hnot
  exact absurd hnot (by decide)

theorem takeRecords_late {d : Dev} {h : TwlHdr} (rec' : Dev → Rec → Dev) (fs : List Frag) (bad : Bool) (hl : h.lsn ≠ d.twin.lsnRx) :
    takeRecords rec' h fs bad d = d := if_pos hl

/-- A whole record alone in a frame in sequence is dispatched (R213, R214). -/
theorem takeRecords_one {d : Dev} {h : TwlHdr} (rec' : Dev → Rec → Dev) (s : Dev) (r : Rec) (hl : h.lsn = d.twin.lsnRx) (hp : d.twin.part = none) :
    takeRecords rec' h [wholeRec s r] false d = rec' (d.modTwin fun t => { t with lsnRx := (t.lsnRx + 1) % 2 ^ 32, part := none }) r := by
  simp [takeRecords, hl, takeFrag, hp, wholeRec]
  rfl

theorem handleRec_ports {d : Dev} (l : List (BitVec 128)) (hst : d.twin.st = .active) (hi : d.twin.ident.isSome = true) :
    handleRec d (.ports l) = d.modTwin fun t => { t with ports := l } := by
  simp [handleRec, hst, Option.isSome_iff_ne_none.1 hi]

/-- A PORTS record in a frame in sequence is taken by an active unit (R114, R213). -/
theorem portsFrame_taken {d s : Dev} {h : TwlHdr} {l : List (BitVec 128)} (hlink : Linked d .active) (hok : FrameOk d h)
    (hp : h.peer ≤ d.twin.peerStamp) (hw : d.twin.waitq = []) (hpart : d.twin.part = none) (hlsn : h.lsn = d.twin.lsnRx) :
    twFrame h (takeRecords takeRec h [wholeRec s (.ports l)] false) d =
      (acked d h.lack).modTwin fun t => { t with lsnRx := (t.lsnRx + 1) % 2 ^ 32, part := none, ports := l } := by
  obtain ⟨hst, hl, hi⟩ := hlink
  have hs : serving (acked d h.lack) = true := by simp [serving, acked, hst]
  rw [twFrame_ok _ hi hl hok hw, takePeer_old hs hp, takeRecords_one (d := acked d h.lack) takeRec s _ hlsn hpart]
  exact handleRec_ports (d := (acked d h.lack).modTwin fun t => { t with lsnRx := (t.lsnRx + 1) % 2 ^ 32, part := none }) l hst hi

/-! ## HELLO -/

/-- The device once it keeps what a HELLO says (R243). -/
def helloKept (d : Dev) (m : Hello) : Dev := heard (d.modTwin fun t => { t with peer := some m, dt := timeDiff d m, hbTwl := 0 })

/-- The HELLO brings a NONCE that the unit does not hold (R213). -/
def newPeerNonce (d : Dev) (m : Hello) : Bool := match d.twin.peer with | some o => decide (o.nonce ≠ m.nonce) | none => true

/-- A HELLO with a bad MAC or of another pair is refused by row 1 (R244). -/
theorem takeHello_bad {d : Dev} {m : Hello} {i : PairIdent} (hi : d.twin.ident = some i) (hl : d.twin.linkUp = true)
    (hbad : m.mac ≠ helloMac i.secret m ∨ m.pairId ≠ i.pairId) : takeHello m d = raiseOp d 0x0403 srcTWN [1] := by
  have hbad' : (decide (m.mac ≠ helloMac i.secret m) || decide (m.pairId ≠ i.pairId)) = true := by simpa using hbad
  simp only [takeHello, hi, hl, hbad', Bool.not_true, Bool.false_eq_true, if_false, if_true]

/-- A good HELLO at a joiner that has not asked to be admitted is kept, and its new NONCE gives a key (R213, R243). -/
theorem takeHello_joining {d : Dev} {m : Hello} {i : PairIdent} (hi : d.twin.ident = some i) (hl : d.twin.linkUp = true)
    (hmac : m.mac = helloMac i.secret m) (hpair : m.pairId = i.pairId) (hhdr : m.hdrOk = true) (hrsv : m.rsv = 0)
    (hst : d.twin.st = .joining) (hrejoin : d.upd.rejoin = false) (hready : d.twin.readySent = false) (hw : d.twin.waitq = []) :
    takeHello m d = if newPeerNonce d m then (helloKept d m).modTwin fun t => { t with linkKey := linkKeyOf (helloKept d m), txc := 1 }
      else helloKept d m := by
  obtain ⟨c, hc⟩ := heard_frame (d.modTwin fun t => { t with peer := some m, dt := timeDiff d m, hbTwl := 0 })
  have hkept : helloKept d m = _ := hc
  have hrekey : rekeyLink (helloKept d m) = (helloKept d m).modTwin fun t => { t with linkKey := linkKeyOf (helloKept d m), txc := 1 } :=
    pumpLink_idle (by rw [hkept]; exact hw)
  have hst' : (if newPeerNonce d m then rekeyLink (helloKept d m) else helloKept d m).twin.st = .joining := by
    rw [hrekey, hkept]
    split <;> exact hst
  have hstay : (if newPeerNonce d m then rekeyLink (helloKept d m) else helloKept d m).upd.rejoin = false ∧
      (if newPeerNonce d m then rekeyLink (helloKept d m) else helloKept d m).twin.readySent = false := by
    rw [hrekey, hkept]
    split <;> exact ⟨hrejoin, hready⟩
  rw [← hrekey]
  unfold takeHello
  rw [hi]
  dsimp -zeta only
  rw [if_neg (by simp [hl]), if_neg (by simp [← hmac, hpair]), if_neg (by simp [hhdr])]
  extract_lets rekey d0 d1
  have hd1 : d1 = if newPeerNonce d m then rekeyLink (helloKept d m) else helloKept d m := rfl
  rw [if_neg (by simp [hrsv]), hd1, hst']
  simp [hstay]

/-! ## The link's timers -/

theorem resendAll_one {d : Dev} {f : Nat × List Frag} (hr : linkReady d = true) (hq : d.twin.txq = [f]) :
    resendAll d = emit (d.modTwin fun t => { t with txc := t.txc + 1 }) (.twl f.1 d.twin.lsnRx d.twin.txc (ownPeer d) f.2) := by
  rw [resendAll, hr, hq]
  rfl

/-- The link goes down while no register access waits for the twin (R213). -/
theorem twlDown_up {d : Dev} (lock : Bool) (hl : d.twin.linkUp = true) (hr : d.twin.relays = []) :
    twlDown lock d = raiseOp (d.modTwin fun t => { t with linkUp := false, blockLock := lock }) 0x0407 srcTWL [] := by
  rw [twlDown, if_pos hl, endRelays, raiseOp_twin, Dev.modTwin_twin]
  dsimp only
  rw [hr]
  rfl

/-- The device with the NONCE that it draws next, and the link key of it (R213). -/
def nonceDrawn (d : Dev) : Dev :=
  let e := (draw64 d).2.modTwin fun t => { t with nonce := (draw64 d).1 }
  e.modTwin fun t => { t with linkKey := linkKeyOf e, txc := 1 }

theorem newNonce_idle {d : Dev} (hw : d.twin.waitq = []) : newNonce d = nonceDrawn d := pumpLink_idle (d := nonceDrawn d) hw

/-- The device as the link comes up (R213). -/
def linkRisen (rtt : Nat) (d : Dev) : Dev :=
  raiseOp (d.modTwin fun t => { t with linkUp := true, blockLock := true, rtt := rtt }) 0x0407 srcTWL []

/-- A paired unit whose link comes up with nothing to send again draws a NONCE and says HELLO (R213, R243). -/
theorem twlUp_paired {d : Dev} {i : PairIdent} (rtt : Nat) (hl : d.twin.linkUp = false) (hi : d.twin.ident = some i)
    (hk : d.sec.secrets = true) (hq : d.twin.txq = []) (hw : d.twin.waitq = []) (hp : paired d = true) :
    twlUp rtt d = emit (nonceDrawn (linkRisen rtt d)) (.hello (ownHello (nonceDrawn (linkRisen rtt d)) i)) := by
  have htwin : (linkRisen rtt d).twin = { d.twin with linkUp := true, blockLock := true, rtt := rtt } := raiseOp_twin _ _ _ _
  have hnonce : newNonce (linkRisen rtt d) = nonceDrawn (linkRisen rtt d) := newNonce_idle (by rw [htwin]; exact hw)
  have hident : (nonceDrawn (linkRisen rtt d)).twin.ident = some i := (congrArg Twin.ident htwin).trans hi
  have hup : (nonceDrawn (linkRisen rtt d)).twin.linkUp = true := congrArg Twin.linkUp htwin
  have hempty : (nonceDrawn (linkRisen rtt d)).twin.txq = [] := (congrArg Twin.txq htwin).trans hq
  have hpaired : paired (linkRisen rtt d) = true := by
    unfold paired at hp ⊢
    rw [htwin]
    exact hp
  have hsome : (linkRisen rtt d).twin.ident.isNone = false := by rw [htwin]; simp [hi]
  rw [twlUp, if_neg (by simp [hl, hk])]
  dsimp only
  rw [← linkRisen, if_pos hpaired, hsome, if_neg Bool.false_ne_true, hnonce, sendHello, hident]
  dsimp only
  rw [if_pos hup, resendAll, emit_twin, hempty]
  split <;> rfl

/-- Settles O42: a good frame goes on to its handler (`twFrame_ok`), and each other command by the lemma about what it does in the
state that the clause names. -/
theorem linkFramesAreTaken : Obligations.LinkFramesAreTaken := by
  intro s
  refine ⟨fun h hi hl hok hs hw => ⟨?_, fun fs hlsn => ?_⟩, fun h l f hlink hok hp hw hpart hlsn hf => ?_,
    fun m i hi hl => ⟨fun hbad => ?_, fun hmac hpair hhdr hrsv hst hrejoin hready hw => ?_⟩, fun f hr hq => ?_, fun hr => ?_,
    fun hl hr => ⟨?_, ?_⟩, fun i rtt hl hi hk hq hw hp => ?_⟩
  · obtain ⟨c, hc⟩ := heard_frame ((takePeer (acked s.dev h.lack) h.peer).modTwin fun t => { t with hbTwl := 0 })
    refine ⟨_, becomes_of rfl ((twFrame_ok (beatOn true) hi hl hok hw).trans hc), ?_⟩
    rw [takePeer_follower (d := acked s.dev h.lack) h.peer hs]
    exact ⟨rfl, rfl, rfl, fun f hf => mem_acked_txq hf⟩
  · have hlate : h.lsn ≠ (takePeer (acked s.dev h.lack) h.peer).twin.lsnRx := by
      rw [takePeer_follower (d := acked s.dev h.lack) h.peer hs]
      exact hlsn
    refine ⟨_, becomes_of rfl ((twFrame_ok _ hi hl hok hw).trans (takeRecords_late takeRec fs false hlate)), ?_⟩
    rw [takePeer_follower (d := acked s.dev h.lack) h.peer hs]
    exact ⟨rfl, rfl, rfl⟩
  · subst hf
    exact ⟨_, becomes_of rfl (portsFrame_taken hlink hok hp hw hpart hlsn), rfl, rfl, rfl⟩
  · exact becomes_of rfl (takeHello_bad hi hl hbad)
  · obtain ⟨c, hc⟩ := heard_frame (s.dev.modTwin fun t => { t with peer := some m, dt := timeDiff s.dev m, hbTwl := 0 })
    have hkept : helloKept s.dev m = _ := hc
    refine ⟨_, becomes_of rfl (takeHello_joining hi hl hmac hpair hhdr hrsv hst hrejoin hready hw), ?_⟩
    rw [hkept]
    cases hn : newPeerNonce s.dev m with
    | true =>
      refine ⟨rfl, rfl, hst, rfl, fun _ => ⟨rfl, rfl⟩, fun o ho hsame => ?_⟩
      simp [newPeerNonce, ho, hsame] at hn
    | false =>
      refine ⟨rfl, rfl, hst, rfl, fun hnew => ?_, fun _ _ _ => ⟨rfl, rfl⟩⟩
      cases ho : s.dev.twin.peer with
      | none => simp [newPeerNonce, ho] at hn
      | some o => exact absurd (by simpa [newPeerNonce, ho] using hn) (hnew o ho)
  · exact becomes_of rfl (resendAll_one hr hq)
  · exact becomes_of rfl (by rw [sendAckFrame, if_pos hr])
  · refine ⟨_, becomes_of rfl (twlDown_up s.dev.twin.blockLock hl hr), ?_⟩
    exact ⟨raiseOp_twin _ _ _ _, raiseOp_mem _ _ _ _⟩
  · refine ⟨_, becomes_of rfl (twlDown_up false hl hr), ?_⟩
    exact ⟨raiseOp_twin _ _ _ _, raiseOp_mem _ _ _ _⟩
  · refine ⟨_, becomes_of rfl (twlUp_paired rtt hl hi hk hq hw hp), ?_⟩
    have htwin : (linkRisen rtt s.dev).twin = { s.dev.twin with linkUp := true, blockLock := true, rtt := rtt } := raiseOp_twin _ _ _ _
    refine ⟨congrArg Twin.linkUp htwin, congrArg Twin.rtt htwin, rfl, rfl, raiseOp_mem _ _ _ _, _, _, rfl, rfl, rfl⟩

end Sys2Proof.Machine
end

section
/-! SUPPORT. What the units say to each other over the link besides the stream (R217 to R228, R233, R242, R264), with the statement
about it. -/
namespace Sys2Proof.Machine

/-! ## A record that arrives -/

theorem recArrives_linked {d : Dev} {st : TwinState} (f : Dev → Dev) (h : Linked d st) : recArrives f d = f d := by
  obtain ⟨-, hl, hi⟩ := h
  simp [recArrives, hl, hi]

/-- A record that goes to its handler over a live link. -/
theorem runs_rec {s : State} {i : Instr} {f : Dev → Dev} {st : TwinState} {P : Dev → Prop} (h : Linked s.dev st)
    (hx : exec i s = onDev (recArrives f) s) (hP : P (f s.dev)) : Runs i s P :=
  ⟨_, becomes_of hx (recArrives_linked f h), hP⟩

/-! ## At the standby -/

/-- HANDOVER at a standby, planned or not (R233, R236). -/
theorem handleRec_handover {d : Dev} (b : Bool) (h : d.twin.st = .standby) :
    handleRec d (.handover b) = d.modTwin fun t => { t with claiming := some (if b then .handover else .takeover) } := by
  simp [handleRec, h, inStream, fromStandby]

/-- A standby without the LEAF that it asked for leaves the pair, FENCED (R220). -/
theorem repairLate_standby {d : Dev} {pa : Nat} (hst : d.twin.st = .standby) (hr : ∃ r ∈ d.twin.repairs, r.1 = pa / 4096) :
    (repairLate pa d).twin.st = .fenced ∧ (repairLate pa d).twin.repairs = [] ∧ (repairLate pa d).twin.diverge.active = true := by
  have hany : (d.twin.repairs.any fun r => r.1 = pa / 4096) = true := by simpa using hr
  have hleave : leavePair d = dropPairing (beginDiverge d d.twin.peerEcho) := by unfold leavePair; rw [hst]
  obtain ⟨_, _, _, _, _, he⟩ := sendRecs_sends (enterState (leavePair d) .fenced) [.leave 2]
  rw [repairLate, if_pos (by simp [hst, hany]), leaveWith, if_neg (by decide), he]
  dsimp only
  rw [enterState_twin, hleave]
  exact ⟨rfl, rfl, rfl⟩

/-! ## At the serving unit -/

theorem handleRec_fin {d : Dev} (st : Stamp) (h : Linked d .active) : handleRec d (.fin st) = takeFin d st := by
  obtain ⟨hst, -, hi⟩ := h
  simp [handleRec, hst, Option.isSome_iff_ne_none.1 hi]

theorem handleRec_repair {d : Dev} (st : Stamp) (pa : Nat) (h : Linked d .active) : handleRec d (.repair st pa) = answerRepair d st pa := by
  obtain ⟨hst, -, hi⟩ := h
  simp [handleRec, hst, Option.isSome_iff_ne_none.1 hi]

theorem handleRec_ready {d : Dev} (h : Linked d .unpaired) : handleRec d .ready = takeReady d := by
  obtain ⟨hst, -, hi⟩ := h
  simp [handleRec, hst, Option.isSome_iff_ne_none.1 hi]

/-- LEAVE from the standby of an active unit: the witness is asked to drop it (R233). -/
theorem handleRec_leave {d : Dev} (n : Nat) (h : Linked d .active) : handleRec d (.leave n) = sendWit d .drop := by
  obtain ⟨hst, -, hi⟩ := h
  simp [handleRec, hst, Option.isSome_iff_ne_none.1 hi, twinGone]

/-- The bitmap of a joiner joins this unit's own at the source (R242). -/
theorem handleRec_resyncSet {d : Dev} (n : Nat) (ls : List Nat) (h : Linked d .unpaired) (hs : d.twin.source = true) :
    handleRec d (.resyncSet n ls false false) = d.modTwin fun t =>
      { t with u := addNums (addNums t.u ls) t.diverge.leaves, uFull := t.uFull || t.diverge.full, uNext := 0 } := by
  obtain ⟨hst, -, hi⟩ := h
  simp [handleRec, hst, Option.isSome_iff_ne_none.1 hi, hs, takeSet]

/-- A relayed register access is answered at once (R228). -/
theorem takeRegReq_answers {d d1 : Dev} {a : Nat} {w : Bool} {v x : Word} {r : Status} {n : Nat}
    (hx : accessHere relayed a w v d = (d1, r, n, x)) (hl : d1.twin.linkUp = true) (hf : LinkFree d1) :
    (takeRegReq d a w v).twin.txq = d1.twin.txq ++ [(d1.twin.lsnTx, [wholeRec d1 (.regRsp a r (BitVec.ofNat 32 n) x)])] ∧
      (takeRegReq d a w v).mem = d1.mem := by
  rw [takeRegReq, hx, sendRecs_one hl hf (by simp [bodyBytes])]
  exact ⟨rfl, rfl⟩

theorem noteStore_relays (d : Dev) (n : Nat) (seq : Word) (st : Option Stamp) : (noteStore d n seq st).twin.relays = d.twin.relays := by
  unfold noteStore
  split <;> rfl

theorem modConn_twin (d : Dev) (n : Nat) (f : Conn → Conn) : (modConn d n f).twin = d.twin := by
  obtain ⟨_, _, _, h⟩ := modConn_send d n f
  rw [h]

theorem tell_relays (d : Dev) (r : Rec) : (tell d r).twin.relays = d.twin.relays := by
  unfold tell
  split
  · obtain ⟨_, _, _, _, _, he⟩ := sendRecs_sends d [r]
    rw [he]
  · rfl

theorem tellEnd_relays (d : Dev) (n : Nat) (c : Conn) (e : Entry) : (tellEnd d n c e).twin.relays = d.twin.relays := by
  unfold tellEnd
  split
  · rw [modConn_twin]
  · exact tell_relays _ _

/-- The end of an operation leaves the relayed accesses that wait (R228). -/
theorem endCore_relays (d : Dev) (o : Op) (e : Entry) (x : Option (DWord × Word × List Byte)) :
    (endCore d o e x).twin.relays = d.twin.relays := by
  have hdrop : (dropOp d o.conn o.seq).twin = d.twin := modConn_twin _ _ _
  have hstored (c : Conn) : (noteStore (setConn (dropOp d o.conn o.seq) o.conn (some c)) o.conn o.seq o.stamp).twin.relays = d.twin.relays :=
    (noteStore_relays _ _ _ _).trans (congrArg Twin.relays hdrop)
  unfold endCore
  dsimp only
  split
  · rw [hdrop]
  · split
    · split
      · rw [modConn_twin, hstored]
      · rw [tellEnd_relays, modConn_twin, hstored]
    · exact hstored _

/-- The answer to a relayed access ends the operation that has waited longest (R228). -/
theorem takeRegRsp_ends {d : Dev} {o : Op} {c : Conn} {q : Relay} {rest : List Relay} {r : Status} {n v : Word}
    (hq : d.twin.relays = q :: rest) (ho : findOp d q.conn q.seq = some o) (hc : getConn d o.conn = some c)
    (hw : ∀ p ∈ d.net.ops, p.stage ≠ .waiting) (hr : r ≠ .doneDuplicate) :
    (takeRegRsp d r n v).twin.relays = rest ∧ Ended (takeRegRsp d r n v) o c
      (if r = .done then doneEntry o.desc 0 0 (if o.desc.op = .regRead then v.toNat else 0) else endEntry o.desc r n.toNat) := by
  obtain ⟨hconn, hseq⟩ := findOp_conn ho
  generalize he : (if r = .done then doneEntry o.desc 0 0 (if o.desc.op = .regRead then v.toNat else 0) else endEntry o.desc r n.toNat) = e
  have hstatus : e.status ≠ .doneDuplicate := by
    rw [← he]
    split
    · exact fun h => Status.noConfusion h
    · exact hr
  generalize hd1 : (d.modTwin fun t => { t with relays := rest }) = d1
  have ho1 : findOp d1 q.conn q.seq = some o := by rw [← hd1]; exact ho
  have hw1 : ∀ p ∈ d1.net.ops, p.stage = .waiting → p.conn = o.conn ∧ p.seq = o.seq := by
    rw [← hd1]
    exact fun p hp hs => absurd hs (hw p hp)
  have hrun : takeRegRsp d r n v = endOp d1 o e none := by
    rw [takeRegRsp, hq]
    dsimp only
    rw [hd1, ho1]
    dsimp only
    rw [endReg, hconn, hseq, ho1, ← he]
    dsimp only
    split <;> rfl
  obtain ⟨hgone, ⟨c', hc', hstored, hcount, hstate, -⟩, -⟩ := endOp_conn e none hw1 (by rw [← hd1]; exact hc) hstatus
  rw [hrun]
  refine ⟨?_, hgone, c', hc', hstored, hcount, hstate⟩
  rw [endOp_core o e none hw1, endCore_relays, ← hd1]
  rfl

/-- FIN while no operation waits for it (R202, R217). -/
theorem takeFin_noOps {d : Dev} (st : Stamp) (h : d.net.ops = []) :
    (takeFin d st).twin = { d.twin with finWait := d.twin.finWait.filter fun x => x ≠ st } := by
  obtain ⟨_, _, _, he⟩ := flushSetups_send (d.modTwin fun t => { t with finWait := t.finWait.filter fun x => x ≠ st })
  rw [takeFin, completeAll_of_noOps (d := d.modTwin fun t => { t with finWait := t.finWait.filter fun x => x ≠ st }) h, he]
  rfl

/-- The LEAF of a leaf below the control area, as it stands, that answers a REPAIR (R220). -/
theorem answerRepair_leaf {d : Dev} (st : Stamp) {pa : Nat} (ht : d.twin.touched = []) (hp : pa / 4096 * 4096 < ctlBase d.folds) :
    answerRepair d st pa =
      sendRecs d [.leaf (pa / 4096 * 4096) (poisonBits d (pa / 4096)) (readBytes d.mem (pa / 4096 * 4096) 4096) [] []] := by
  simp [answerRepair, ht, Nat.not_le.2 hp]

/-- READY once the resync set is empty and every connection is proved (R242). -/
theorem takeReady_proved {d : Dev} (hr : d.twin.resyncing = true) (hu : d.twin.u = []) (hf : d.twin.uFull = false)
    (hp : d.twin.unproved = []) : takeReady d = sendWit (d.modTwin fun t => { t with unproved := [] }) .admitTwin := by
  simp [takeReady, failUnproved, hr, hu, hf, hp]

/-- The next leaf of the resync set leaves as it stands (R242). -/
theorem sendLeaf_next {d : Dev} {l : Nat} {rest : List Nat} (hs : serving d = true) (hr : d.twin.resyncing = true)
    (hl : d.twin.linkUp = true) (hf : d.twin.uFull = false) (hu : d.twin.u = l :: rest) (hc : l * 4096 < ctlBase d.folds) :
    sendLeaf d = sendRecs (d.modTwin fun t => { t with u := rest.filter fun x => x ≠ l })
      [.leaf (l * 4096) (poisonBits d l) (readBytes d.mem (l * 4096) 4096) [] []] := by
  have hnext : nextLeaf d = some l := by simp [nextLeaf, hf, hu]
  rw [sendLeaf, if_neg (by simp [hs, hr, hl]), hnext]
  simp [Nat.not_le.2 hc, hu, hf, Dev.modTwin]

/-- Settles O41: each record by the lemma about what its handler does, once it has arrived over the live link (`runs_rec`). -/
theorem unitsTalkOverTheLink : Obligations.UnitsTalkOverTheLink := by
  intro s
  refine ⟨fun h => ?_, fun n ls h hs => ?_, fun st a w v d1 r n x h hx hl hf => ?_,
    fun st a r n v o c q rest h hq ho hc hw hr => ?_, fun st h hops => ?_, fun st pa h ht hf hp => ?_,
    fun h hr hu hf hp => ?_, fun n h => ?_, fun l h => ?_, fun pa hst hr => ?_, fun r rest hst hh hfit => ?_,
    fun l rest hs hr hl hf hu hfree hc => ?_⟩
  · refine runs_rec h rfl ?_
    rw [handleRec_handover (d := (drawChoice s.dev 2).2) _ h.1]
    refine ⟨?_, h.1, rfl⟩
    dsimp only [Dev.modTwin_twin]
    split
    · exact .inl rfl
    · exact .inr rfl
  · refine runs_rec h rfl ?_
    rw [handleRec_resyncSet n ls h hs]
    exact ⟨rfl, rfl, rfl⟩
  · exact runs_rec h rfl (takeRegReq_answers hx hl hf)
  · exact runs_rec h rfl (takeRegRsp_ends hq ho hc hw hr)
  · refine runs_rec h rfl ?_
    rw [handleRec_fin st h, takeFin_noOps st hops]
  · refine runs_rec h rfl ?_
    rw [handleRec_repair st pa h, answerRepair_leaf st ht hp, sendRecs_one h.2.1 hf (by simp [bodyBytes])]
    exact ⟨rfl, rfl⟩
  · refine runs_rec h rfl ?_
    rw [handleRec_ready h, takeReady_proved hr hu hf hp]
    exact ⟨rfl, rfl⟩
  · refine runs_rec h rfl ?_
    rw [handleRec_leave n h]
    exact ⟨rfl, rfl⟩
  · obtain ⟨hst, -, hi⟩ := id h
    exact becomes_of rfl ((recArrives_linked _ h).trans (handleRec_ports l hst hi))
  · obtain ⟨h1, h2, h3⟩ := repairLate_standby hst hr
    exact ⟨_, rfl, h1, h2, h3, repairLate_mem pa _⟩
  · exact becomes_of rfl (by simp [budgetWait, hh, hst, hfit])
  · refine ⟨_, rfl, ?_⟩
    rw [sendLeaf_next hs hr hl hf hu hc,
      sendRecs_one (d := s.dev.modTwin fun t => { t with u := rest.filter fun x => x ≠ l }) hl hfree (by simp [bodyBytes])]
    exact ⟨rfl, rfl⟩

end Sys2Proof.Machine
end

section
/-! SUPPORT. How a standby applies the records of the order stream (R215 to R226), with the statement about it. -/
namespace Sys2Proof.Machine

/-! ## A record of the stream -/

/-- What of the twin's state decides which record a standby applies next (R217): its state, the records that wait, the last stamp. -/
def streamPart (t : Twin) : TwinState × List Rec × Stamp := (t.st, t.held, t.lastStamp)

theorem streamPart_eq {t : Twin} {st : TwinState} {l : List Rec} {n : Stamp} :
    streamPart t = (st, l, n) ↔ t.st = st ∧ t.held = l ∧ t.lastStamp = n := by
  simp [streamPart]

/-- The device with one record that waits. -/
def holding (d : Dev) (r : Rec) : Dev := d.modTwin fun t => { t with held := [r] }

theorem waitsGallery_holding (d : Dev) (r q : Rec) : waitsGallery (holding d r) q = waitsGallery d q := by cases q <;> rfl

/-- A record that waits alone, in order and with room for it, is applied (R217, R264). -/
theorem drainHeld_one {d : Dev} {r : Rec} (h : Follows d r) (hst : ∀ st, stampOf r = some st → st = nextStamp d.twin)
    (hk : (applyRec d r).twin.held = []) : drainHeld 2 (holding d r) = applyRec d r := by
  obtain ⟨-, -, -, hheld, hfits, hwaits⟩ := h
  have hback : (holding d r).modTwin (fun t => { t with held := [] }) = d := by
    simp only [holding, Dev.modTwin, ← hheld]
  have hstop : drainHeld 1 (applyRec d r) = applyRec d r := by simp [drainHeld, hk]
  have hgo : (!recFits (holding d r) r || waitsGallery (holding d r) r) = false := by
    rw [waitsGallery_holding, hwaits, show recFits (holding d r) r = true from hfits]
    rfl
  rw [drainHeld, show (holding d r).twin.held = [r] from rfl]
  dsimp only
  rw [hgo, if_neg Bool.false_ne_true, hback, hstop]
  cases hs : stampOf r with
  | none => rfl
  | some st =>
    have hfollows : follows (holding d r).twin st = true := by
      rw [hst st hs, follows, show nextStamp (holding d r).twin = nextStamp d.twin from rfl]
      simp
    exact if_pos hfollows

theorem held_of_follows {d : Dev} {r : Rec} (h : Follows d r) : d.twin.held = [] := by
  obtain ⟨-, -, -, hheld, -⟩ := h
  exact hheld

theorem linked_of_follows {d : Dev} {r : Rec} (h : Follows d r) : Linked d .standby := by
  obtain ⟨hst, hl, hi, -⟩ := h
  exact ⟨hst, hl, hi⟩

theorem sayReady_standby {d : Dev} (h : d.twin.st = .standby) : sayReady d = d := by simp [sayReady, h]

/-- A record of the stream that a standby with nothing held back takes is applied at once (R217, R264). -/
theorem handleRec_follows {d : Dev} {r : Rec} {n : Stamp} (h : Follows d r) (hin : inStream r = true)
    (hst : ∀ st, stampOf r = some st → st = nextStamp d.twin) (hk : streamPart (applyRec d r).twin = (.standby, [], n)) :
    handleRec d r = applyRec d r := by
  obtain ⟨kst, kheld, -⟩ := streamPart_eq.1 hk
  have harr : (d.modTwin fun t => { t with held := t.held ++ [r] }) = holding d r := by
    simp [holding, Dev.modTwin, held_of_follows h]
  unfold handleRec
  rw [h.1]
  dsimp only
  rw [if_pos hin, takeStream, harr, show (holding d r).twin.held.length + 1 = 2 from rfl, drainHeld_one h hst kheld, sayReady_standby kst]

/-- A command whose record takes the next stamp applies it, and that stamp is the last one. -/
theorem runs_stampedRec {s : State} {i : Instr} {r : Rec} {st : Stamp} {P : Dev → Prop} (h : Follows s.dev r) (hin : inStream r = true)
    (hx : exec i s = onDev (recArrives fun d => handleRec d r) s) (hr : stampOf r = some st) (hst : st = nextStamp s.dev.twin)
    (hk : streamPart (applyRec s.dev r).twin = (s.dev.twin.st, s.dev.twin.held, st))
    (hP : (applyRec s.dev r).twin.lastStamp = st → P (applyRec s.dev r)) : Runs i s P := by
  rw [h.1, held_of_follows h] at hk
  obtain ⟨-, -, hlast⟩ := streamPart_eq.1 hk
  have hnext (n : Stamp) (hn : stampOf r = some n) : n = nextStamp s.dev.twin := (Option.some.inj (hn.symm.trans hr)).trans hst
  refine runs_rec (linked_of_follows h) hx ?_
  rw [handleRec_follows h hin hnext hk]
  exact hP hlast

/-- A command whose record has no stamp applies it, and leaves the last stamp. -/
theorem runs_unstampedRec {s : State} {i : Instr} {r : Rec} {P : Dev → Prop} (h : Follows s.dev r) (hin : inStream r = true)
    (hx : exec i s = onDev (recArrives fun d => handleRec d r) s) (hr : stampOf r = none)
    (hk : streamPart (applyRec s.dev r).twin = streamPart s.dev.twin) (hP : P (applyRec s.dev r)) : Runs i s P := by
  have hnow : streamPart s.dev.twin = (.standby, [], s.dev.twin.lastStamp) := streamPart_eq.2 ⟨h.1, held_of_follows h, rfl⟩
  refine runs_rec (linked_of_follows h) hx ?_
  rw [handleRec_follows h hin (fun n hn => by rw [hr] at hn; cases hn) (hk.trans hnow)]
  exact hP

/-! ## What applying a record leaves -/

theorem applied_part (d : Dev) (st : Stamp) : streamPart (applied d st).twin = (d.twin.st, d.twin.held, st) := by
  rw [applied, Dev.modTwin_twin, markDirty_twin]
  rfl

theorem applied_net (d : Dev) (st : Stamp) : (applied d st).net = d.net := by
  unfold applied markDirty
  split <;> rfl

theorem applied_dur (d : Dev) (st : Stamp) : (applied d st).dur = d.dur := by
  unfold applied markDirty
  split <;> rfl

theorem run_part : RunKeeps fun d => streamPart d.twin := run_twin streamPart fun _ _ _ _ => rfl

theorem noteChanged_twin (d : Dev) (n : Nat) (ls : List Nat) (st : Stamp) : (noteChanged d n ls st).twin = d.twin := modConn_twin _ _ _

theorem noteStore_part (d : Dev) (n : Nat) (seq : Word) (st : Option Stamp) : streamPart (noteStore d n seq st).twin = streamPart d.twin := by
  unfold noteStore
  split <;> rfl

theorem sendEntry_twin (d : Dev) (n : Nat) (e : Entry) : (sendEntry d n e).twin = d.twin := by
  unfold sendEntry
  split
  · split <;> rfl
  · rfl

theorem standbyEntry_part (d : Dev) (st : Stamp) (n : Nat) (e : Entry) : streamPart (standbyEntry d st n e).twin = streamPart d.twin := by
  unfold standbyEntry
  split
  · rfl
  · extract_lets lvl e1 d1
    have hd1 : streamPart d1.twin = streamPart d.twin := noteStore_part _ _ _ _
    split
    · exact hd1
    · split
      · exact hd1
      · rw [sendEntry_twin]
        exact hd1

/-! ## Entries of a standby -/

/-- An entry that leaves keeps what the connection has stored and counted (R225). -/
theorem sendEntry_conn {d : Dev} {n : Nat} {c : Conn} (e : Entry) (hc : getConn d n = some c) :
    ∃ c', getConn (sendEntry d n e) n = some c' ∧ c'.store = c.store ∧ c'.count = c.count := by
  unfold sendEntry
  rw [hc]
  dsimp only
  split
  · exact ⟨_, getConn_setConn_self _ _ _, rfl, rfl⟩
  · exact ⟨c, hc, rfl, rfl⟩

/-- An entry leaves from a standby on the path of the data before it (R93, R225). -/
theorem sendEntry_sends {d : Dev} {n : Nat} {c : Conn} (e : Entry) (hc : getConn d n = some c) (hm : maySend c = true)
    (hs : d.twin.st = .standby) : ∃ c', getConn (sendEntry d n e) n = some c' ∧
      c'.sendq = c.sendq ++ [(some (routeOf c e.seq), entryFrame d c e none)] := by
  unfold sendEntry
  rw [hc]
  dsimp only
  rw [if_pos (by simp [hm, sendsEntries, hs])]
  exact ⟨_, getConn_setConn_self _ _ _, rfl⟩

theorem stored_keepEntry (c : Conn) (e : Entry) : stored (keepEntry c e) e.seq = some e := by
  unfold keepEntry
  split
  · exact stored_markExecuted c e.seq e
  · exact stored_markExecuted c e.seq e

/-- The entry that a stamped record gives is stored (R224, R225). -/
theorem standbyEntry_conn {d : Dev} {n : Nat} {c : Conn} (st : Stamp) (e : Entry) (hc : getConn d n = some c) :
    ∃ c' r, getConn (standbyEntry d st n e) n = some c' ∧ stored c' e.seq = some r ∧ r.status = e.status := by
  unfold standbyEntry
  rw [hc]
  dsimp -zeta only
  extract_lets lvl e1 d1
  have hd1 : getConn d1 n = some (keepEntry c e1) := (noteStore_getConn _ _ _ _ _).trans (getConn_setConn_self _ _ _)
  have hstored : stored (keepEntry c e1) e1.seq = some e1 := stored_keepEntry c e1
  split
  · exact ⟨_, e1, hd1, hstored, rfl⟩
  · split
    · exact ⟨_, e1, hd1, hstored, rfl⟩
    · obtain ⟨c', hc', hstore, -⟩ := sendEntry_conn e1 hd1
      refine ⟨c', e1, hc', ?_, rfl⟩
      rw [stored, hstore]
      exact hstored

/-! ## No leaf under repair -/

theorem badLeaves_none {d : Dev} (o : Op) (h : d.twin.ownBad = []) : badLeaves d o = [] := by
  simp [badLeaves, h, leavesOf, addNums]

theorem awaited_none {d : Dev} (ls : List Nat) (h : d.twin.repairs = []) : awaited d ls = [] := by
  simp [awaited, h]

theorem withheld_none {d : Dev} (h : d.twin.repairs = []) (hs : d.twin.st = .standby) (l : Nat) : withheld d l = false := by
  simp [withheld, h, hs]

theorem maskedRun_none {d : Dev} (ls : List Nat) (f : Dev → Dev) (h : ∀ l, withheld d l = false) : maskedRun d ls f = f d := by
  simp [maskedRun, h]

theorem maskedRun_nil (d : Dev) (f : Dev → Dev) : maskedRun d [] f = f d := rfl

/-- No poison is set aside where no leaf is withheld. -/
theorem unmasked {d : Dev} (h : ∀ l, withheld d l = false) :
    (d.modDur fun u => { u with poison := u.poison.filter fun l => !(withheld d (l / 64)) }) = d := by
  simp [h, Dev.modDur]

theorem applied_repairs (d : Dev) (st : Stamp) : (applied d st).twin.repairs = d.twin.repairs := by
  rw [applied, Dev.modTwin_twin, markDirty_twin]

theorem applied_withheld {d : Dev} (st : Stamp) (hr : d.twin.repairs = []) (hs : d.twin.st = .standby) (l : Nat) :
    withheld (applied d st) l = false :=
  withheld_none ((applied_repairs d st).trans hr) (streamPart_eq.1 ((applied_part d st).trans (by rw [hs]))).1 l

/-! ## OP and GROUP -/

/-- The execution of an OP record at its stamp (R217). -/
def opRun (d : Dev) (st : Stamp) (n : Nat) (c : Conn) (gen : Word) (m : Member) : Exec :=
  runDesc (applied d st) c.ident.fold m.desc (opOf d n c.ident.fold gen m).tr1 (opOf d n c.ident.fold gen m).tr2 m.data st true

/-- An OP record whose leaves all stand executes, and its entry is the standby's (R217, R225). -/
theorem applyOp_stands {d : Dev} {st : Stamp} {n : Nat} {c : Conn} {gen : Word} {m : Member} (hc : getConn d n = some c)
    (hr : d.twin.repairs = []) (hb : d.twin.ownBad = []) (hs : d.twin.st = .standby) (hbulk : isBulk m.desc = false) :
    applyOp d st n gen m = standbyEntry (noteChanged (opRun d st n c gen m).dev n (opRun d st n c gen m).lines st) st n
      (opRun d st n c gen m).entry := by
  have hheld := applied_withheld st hr hs
  have hrepairs : sendRepairs (applied d st) st (badLeaves d (opOf d n c.ident.fold gen m)) = applied d st := by
    rw [badLeaves_none _ hb]
    rfl
  rw [applyOp, hc]
  dsimp only
  rw [hrepairs, unmasked hheld, maskedRun_none _ _ hheld, awaited_none _ ((applied_repairs d st).trans hr), ← opRun, hbulk]
  rfl

theorem getConn_noteChanged {d : Dev} {n : Nat} {c : Conn} (ls : List Nat) (st : Stamp) (hc : getConn d n = some c) :
    ∃ c', getConn (noteChanged d n ls st) n = some c' := by
  rw [noteChanged, getConn_modConn, if_pos rfl, hc]
  exact ⟨_, rfl⟩

theorem opRun_part (d : Dev) (st : Stamp) (n : Nat) (c : Conn) (gen : Word) (m : Member) :
    streamPart (opRun d st n c gen m).dev.twin = (d.twin.st, d.twin.held, st) :=
  (run_part.runDesc _ _ _ _ _ _ _ _).trans (applied_part d st)

theorem opRun_conn {d : Dev} {st : Stamp} {n : Nat} {c : Conn} {gen : Word} {m : Member} (hc : getConn d n = some c) :
    ∃ c', getConn (opRun d st n c gen m).dev n = some c' := by
  obtain ⟨-, -, hbare, -⟩ := runDesc_calm (applied d st) c.ident.fold m.desc (opOf d n c.ident.fold gen m).tr1
    (opOf d n c.ident.fold gen m).tr2 m.data st true
  have h := hbare n
  have hc' : getConn (applied d st) n = some c := by
    unfold getConn
    rw [applied_net]
    exact hc
  unfold bare at h
  rw [hc', Option.map_some, Option.map_eq_some_iff] at h
  obtain ⟨c', hc', -⟩ := h
  exact ⟨c', hc'⟩

/-- A WRITE without poison in its way, executed from the stream (R165, R217). -/
theorem opRun_write {d : Dev} {st : Stamp} {n : Nat} {c : Conn} {gen : Word} {m : Member} {t : Trans} {a : Nat}
    (hop : m.desc.op = .write) (ht : (opOf d n c.ident.fold gen m).tr1 = some t) (ha : a = t.base + m.desc.offset.toNat)
    (hp : firstIn a m.desc.length.toNat (poisonIn d (partLines a m.desc.length.toNat)) = none) :
    (opRun d st n c gen m).entry = doneEntry m.desc 0 m.desc.length.toNat 0 ∧
      (opRun d st n c gen m).dev.mem = writeBytes d.mem a m.data := by
  have hrun : opRun d st n c gen m =
      runSpan (applied d st) m.desc a st true fun x => writeBytes x a m.data := by
    unfold opRun runDesc
    rw [hop, ht, ha]
  have hp' : firstIn a m.desc.length.toNat (poisonIn (applied d st) (partLines a m.desc.length.toNat)) = none := by
    rw [poisonIn, applied_dur]
    exact hp
  obtain ⟨hentry, -, hmem⟩ := runSpan_done (d := applied d st) (x := m.desc) (a := a) st true (fun x => writeBytes x a m.data) hp'
  rw [hrun, hmem, applied_mem]
  exact ⟨hentry, rfl⟩

/-- A GROUP record whose leaves all stand executes whole (R185). -/
theorem applyGroup_stands {d : Dev} {st : Stamp} {n : Nat} {c : Conn} {gen : Word} {ms : List Member} {b : Dev} {rs : List Exec}
    (hc : getConn d n = some c) (hr : d.twin.repairs = []) (hb : d.twin.ownBad = []) (hs : d.twin.st = .standby)
    (hrun : runMembers c.ident.fold st 0 (applied d st) ((ms.map fun m => opOf d n c.ident.fold gen m).map fun o =>
      (o.desc, o.tr1, o.tr2, o.data)) [] = .ok (b, rs)) :
    applyGroup d st n gen ms =
      (rs.map fun r => r.entry).foldl (fun a e => standbyEntry a st n e) (noteChanged b n (rs.flatMap fun r => r.lines) st) := by
  have hheld := applied_withheld st hr hs
  have hrepairs : sendRepairs (applied d st) st (addNums [] ((ms.map fun m => opOf d n c.ident.fold gen m).flatMap (badLeaves d))) =
      applied d st := by
    have hnone : (ms.map fun m => opOf d n c.ident.fold gen m).flatMap (badLeaves d) = [] :=
      List.flatMap_eq_nil_iff.2 fun o _ => badLeaves_none o hb
    rw [hnone]
    rfl
  rw [applyGroup, hc]
  dsimp only
  rw [hrepairs, unmasked hheld, maskedRun_none _ _ hheld, awaited_none _ ((applied_repairs d st).trans hr), hrun]
  rfl

theorem standbyEntries_part (st : Stamp) (n : Nat) (es : List Entry) (d : Dev) :
    streamPart (es.foldl (fun a e => standbyEntry a st n e) d).twin = streamPart d.twin :=
  foldl_keeps (fun d => streamPart d.twin) _ (fun _ _ => standbyEntry_part _ _ _ _) es d

theorem standbyEntries_mem (st : Stamp) (n : Nat) (es : List Entry) (d : Dev) :
    (es.foldl (fun a e => standbyEntry a st n e) d).mem = d.mem :=
  foldl_keeps (fun d => d.mem) _ (fun _ _ => standbyEntry_mem _ _ _ _) es d

theorem applyGroup_runs {d : Dev} {st : Stamp} {n : Nat} {c : Conn} {gen : Word} {ms : List Member} {b : Dev} {rs : List Exec}
    (hc : getConn d n = some c) (hr : d.twin.repairs = []) (hb : d.twin.ownBad = []) (hs : d.twin.st = .standby)
    (hrun : runMembers c.ident.fold st 0 (applied d st) ((ms.map fun m => opOf d n c.ident.fold gen m).map fun o =>
      (o.desc, o.tr1, o.tr2, o.data)) [] = .ok (b, rs)) :
    (applyGroup d st n gen ms).mem = b.mem ∧ streamPart (applyGroup d st n gen ms).twin = (d.twin.st, d.twin.held, st) := by
  rw [applyGroup_stands hc hr hb hs hrun, standbyEntries_mem, noteChanged_mem, standbyEntries_part, noteChanged_twin]
  exact ⟨rfl, (run_part.runMembers _ _ _ _ _ _ _ hrun).trans (applied_part _ _)⟩

/-! ## CTRL -/

theorem putCred_creds (d : Dev) (id : Nat) (c : Option Cred) : (putCred d id c).folds.creds = setKey d.folds.creds id c := rfl

/-- The record of an enrolment stores the credential, and takes the stamp (R110, R215). -/
theorem applyCtrlRec_enrol (d : Dev) (st : Stamp) (id : Nat) (cr : Cred) :
    getKey (applyCtrlRec d st (.enrol id cr)).folds.creds id = some cr ∧
      streamPart (applyCtrlRec d st (.enrol id cr)).twin = (d.twin.st, d.twin.held, st) := by
  have hrun : applyCtrlRec d st (.enrol id cr) = putCred (noteLines (applied d st) st (ctlLines d (.enrol id cr))) id (some cr) := by
    unfold applyCtrlRec
    dsimp only
    rw [show leavesOf [] = [] from rfl, maskedRun_nil, applyCtrl]
  rw [hrun]
  refine ⟨by rw [putCred_creds, getKey_setKey, if_pos rfl], ?_⟩
  exact (run_part.note _ _ _).trans (applied_part d st)

/-! ## END, INDEX, RDATA and LEVEL -/

/-- The entry of an END is stored and counted (R133, R224). -/
theorem takeEnd_new {d : Dev} {n : Nat} {c : Conn} {r : Entry} (hc : getConn d n = some c) (hr : r.status ≠ .doneDuplicate)
    (hx : isExecuted c r.seq = false) : ∃ c', getConn (takeEnd d n r) n = some c' ∧ stored c' r.seq = some r ∧
      c'.count = (c.count + 1) % 2 ^ 64 := by
  have hkeep : keepEntry c r = markExecuted c r.seq r := by rw [keepEntry, hx, if_neg Bool.false_ne_true]
  have hset : getConn (noteStore (setConn d n (some (keepEntry c r))) n r.seq none) n = some (markExecuted c r.seq r) := by
    rw [noteStore_getConn, getConn_setConn_self, hkeep]
  obtain ⟨c', hc', hstore, hcount⟩ := sendEntry_conn r hset
  rw [takeEnd, hc]
  dsimp only
  rw [if_neg hr]
  refine ⟨c', hc', ?_, hcount⟩
  rw [stored, hstore]
  exact stored_markExecuted c r.seq r

theorem takeEnd_part (d : Dev) (n : Nat) (r : Entry) : streamPart (takeEnd d n r).twin = streamPart d.twin := by
  unfold takeEnd
  split
  · rfl
  · split
    · rw [sendEntry_twin]
    · rw [sendEntry_twin, noteStore_part]
      rfl

theorem takeIndex_part (d : Dev) (n : Nat) (t a h0 h1 : Word) : streamPart (takeIndex d n t a h0 h1).twin = streamPart d.twin :=
  Eq.trans (b := streamPart (modConn d n _).twin) rfl (congrArg streamPart (modConn_twin d n _))

/-- INDEX moves each index forward, never back (R222). -/
theorem takeIndex_conn {d : Dev} {n : Nat} {c : Conn} (t a h0 h1 : Word) (hc : getConn d n = some c) :
    ∃ c', getConn (takeIndex d n t a h0 h1) n = some c' ∧
      c'.sqTail = (if later t c.sqTail then t else c.sqTail) ∧ c'.ackSeq = (if later a c.ackSeq then a else c.ackSeq) ∧
      c'.cqHead0 = (if later h0 c.cqHead0 then h0 else c.cqHead0) ∧ c'.cqHead1 = (if later h1 c.cqHead1 then h1 else c.cqHead1) := by
  have hnet (d : Dev) : (noteContext d n).net = d.net := rfl
  rw [takeIndex, getConn, hnet, ← getConn, getConn_modConn, if_pos rfl, hc]
  exact ⟨_, rfl, rfl, rfl, rfl, rfl⟩

theorem takeRdata_twin (d : Dev) (n : Nat) (seq : Word) (a : DWord) (k : Word) (bs : List Byte) :
    (takeRdata d n seq a k bs).twin = d.twin := by
  unfold takeRdata
  split
  · split
    · exact modConn_twin _ _ _
    · rfl
  · rfl

/-- A route that is kept is the one on which the data left (R93). -/
theorem routeOf_keepRoute (c : Conn) (seq : Word) : routeOf (keepRoute c seq) seq = routeOf c seq := by
  unfold keepRoute
  split
  · rfl
  · next h =>
    have hnone : c.routes.find? (fun p => p.1 = seq) = none := by
      rw [List.find?_eq_none]
      intro p hp hseq
      exact h (List.any_eq_true.2 ⟨p, hp, hseq⟩)
    simp [routeOf, hnone, List.find?_append]

/-- The bytes of a READ leave from a standby too on a connection with TWIN_READ (R226). -/
theorem takeRdata_sends {d : Dev} {n : Nat} {c : Conn} (seq : Word) (a : DWord) (k : Word) (bs : List Byte) (hc : getConn d n = some c)
    (hs : d.twin.st = .standby) (ht : c.ident.twinRead = true) (hm : maySend c = true) :
    ∃ c', getConn (takeRdata d n seq a k bs) n = some c' ∧
      c'.sendq = c.sendq ++ [(some (routeOf c seq), .push (some seq) a k bs none)] := by
  have hsendq : (keepRoute c seq).sendq = c.sendq := by
    unfold keepRoute
    split <;> rfl
  rw [takeRdata, hc]
  dsimp only
  rw [if_pos (by simp [hs, ht, hm]), queueFrame, getConn_modConn, if_pos rfl, getConn_setConn_self, routeOf_keepRoute]
  exact ⟨_, rfl, by rw [← hsendq]⟩

theorem takeLevel_part (d : Dev) (sts : List Stamp) : streamPart (takeLevel d sts).twin = streamPart d.twin :=
  foldl_keeps (fun d => streamPart d.twin) (fun a (p : Stamp × Nat × Entry) => sendEntry a p.2.1 p.2.2)
    (fun _ _ => congrArg streamPart (sendEntry_twin _ _ _)) _ _

/-- The entry whose stamp a LEVEL names leaves (R225). -/
theorem takeLevel_due {d : Dev} {st : Stamp} {n : Nat} {r : Entry} {sts : List Stamp} {c : Conn} (h : d.twin.levelDue = [(st, n, r)])
    (hst : sts.contains st = true) (hc : getConn d n = some c) (hm : maySend c = true) (hs : d.twin.st = .standby) :
    (takeLevel d sts).twin.levelDue = [] ∧ ∃ c', getConn (takeLevel d sts) n = some c' ∧
      c'.sendq = c.sendq ++ [(some (routeOf c r.seq), entryFrame d c r none)] := by
  have hin : st ∈ sts := by simpa using hst
  have hrun : takeLevel d sts = sendEntry (d.modTwin fun t => { t with levelDue := [] }) n r := by
    simp [takeLevel, h, hin, Dev.modTwin]
  rw [hrun, sendEntry_twin]
  exact ⟨rfl, sendEntry_sends (d := d.modTwin fun t => { t with levelDue := [] }) r hc hm hs⟩

/-! ## LEAF -/

theorem rebuildFolds_twin (d : Dev) : (rebuildFolds d).twin = d.twin := rfl

theorem flushFins_frame (d : Dev) : LinkSends (d.modTwin fun t => { t with finHeld := t.finHeld.filter fun p => !p.2.isEmpty }) (flushFins d) :=
  sendRecs_sends _ _

/-- The device with the contents of a leaf, before the folds are read again (R220). -/
def leafPlaced (d : Dev) (leaf : Nat) (bs : List Byte) : Dev :=
  { markDirty d with mem := writeBytes (zeroBytes (markDirty d).mem (leaf * 4096) 4096) (leaf * 4096) (bs.take 4096) }

/-- The books of this unit once a leaf has come: its lines, its poison, what waited for it (R220, R242). -/
def leafNoted (d : Dev) (leaf top : Nat) (lines bad : List Nat) : Dev :=
  ((d.modDur fun u =>
      { u with dirty := addNums u.dirty lines, poison := addNums (dropNums u.poison lines) bad,
               slots := u.slots.map fun s => { s with left := dropNums s.left lines } }).modTwin fun t =>
    { t with repairs := t.repairs.filter fun r => r.1 ≠ leaf,
             finHeld := t.finHeld.map fun p => (p.1, p.2.filter fun l => l ≠ leaf), ownBad := dropNums t.ownBad lines,
             u := t.u.filter fun l => l ≠ leaf, uNext := if t.uFull then max t.uNext (leaf + 1) else t.uNext,
             uFull := t.uFull && decide (leaf + 1 < top) }).modFtl fun f =>
    { f with progs := f.progs.map fun p => { p with lines := dropNums p.lines lines } }

/-- Reading the folds again, where the leaf held their tables (R242). -/
def refolded (b : Bool) (d : Dev) : Dev := if b then rebuildFolds d else d

theorem installLeaf_noted {d : Dev} {pa : Nat} (w : BitVec 64) (bs : List Byte) (h : pa < ctlBase d.folds) :
    ∃ lines bad b, installLeaf d pa w bs [] [] =
      flushFins (refolded b (leafNoted (leafPlaced d (pa / 4096) bs) (pa / 4096) (d.folds.s / 4096) lines bad)) := by
  rw [installLeaf, List.foldl_nil, if_neg (Nat.not_le.2 h)]
  exact ⟨_, _, _, rfl⟩

/-- A LEAF of the data area takes the place of the leaf, whose repair is over (R220). -/
theorem installLeaf_data {d : Dev} {pa : Nat} (w : BitVec 64) (bs : List Byte) (h : pa < ctlBase d.folds) :
    (installLeaf d pa w bs [] []).mem = writeBytes (zeroBytes d.mem (pa / 4096 * 4096) 4096) (pa / 4096 * 4096) (bs.take 4096) ∧
      (installLeaf d pa w bs [] []).twin.repairs = (d.twin.repairs.filter fun r => r.1 ≠ pa / 4096) ∧
      streamPart (installLeaf d pa w bs [] []).twin = streamPart d.twin := by
  obtain ⟨lines, bad, b, hl⟩ := installLeaf_noted w bs h
  generalize hd1 : leafNoted (leafPlaced d (pa / 4096) bs) (pa / 4096) (d.folds.s / 4096) lines bad = d1 at hl
  obtain ⟨_, _, _, _, _, he⟩ := flushFins_frame (refolded b d1)
  have hfold : (refolded b d1).mem = d1.mem ∧ (refolded b d1).twin = d1.twin := by
    cases b
    · exact ⟨rfl, rfl⟩
    · exact ⟨rebuildFolds_mem d1, rebuildFolds_twin d1⟩
  have hmem : d1.mem = writeBytes (zeroBytes d.mem (pa / 4096 * 4096) 4096) (pa / 4096 * 4096) (bs.take 4096) := by
    rw [← hd1, leafNoted, Dev.modFtl_mem, Dev.modTwin_mem, Dev.modDur_mem, leafPlaced, markDirty_mem]
  have htwin : (leafPlaced d (pa / 4096) bs).twin = d.twin := markDirty_twin d
  have hpart : d1.twin.repairs = (d.twin.repairs.filter fun r => r.1 ≠ pa / 4096) ∧ streamPart d1.twin = streamPart d.twin := by
    rw [← hd1, ← htwin]
    exact ⟨rfl, rfl⟩
  rw [hl, flushFins_mem, he, ← hmem]
  exact ⟨hfold.1, (congrArg Twin.repairs hfold.2).trans hpart.1, (congrArg streamPart hfold.2).trans hpart.2⟩

/-! ## The statement -/

/-- The WRITE of an OP record, and its entry (R165, R217, R225). -/
theorem applyOp_write {d : Dev} {st : Stamp} {n : Nat} {c : Conn} {gen : Word} {m : Member} {t : Trans} {a : Nat}
    (hc : getConn d n = some c) (hr : d.twin.repairs = []) (hb : d.twin.ownBad = []) (hs : d.twin.st = .standby)
    (hop : m.desc.op = .write) (ht : (opOf d n c.ident.fold gen m).tr1 = some t) (ha : a = t.base + m.desc.offset.toNat)
    (hp : firstIn a m.desc.length.toNat (poisonIn d (partLines a m.desc.length.toNat)) = none) :
    (applyOp d st n gen m).mem = writeBytes d.mem a m.data ∧ streamPart (applyOp d st n gen m).twin = (d.twin.st, d.twin.held, st) ∧
      ∃ c' r, getConn (applyOp d st n gen m) n = some c' ∧ stored c' m.desc.seq = some r ∧ r.status = .done := by
  obtain ⟨hentry, hmem⟩ := opRun_write (st := st) hop ht ha hp
  obtain ⟨c1, hc1⟩ := opRun_conn (st := st) (gen := gen) (m := m) hc
  obtain ⟨c2, hc2⟩ := getConn_noteChanged (opRun d st n c gen m).lines st hc1
  obtain ⟨c', r, hc', hstored, hstatus⟩ := standbyEntry_conn st (opRun d st n c gen m).entry hc2
  rw [applyOp_stands hc hr hb hs (by simp [isBulk, hop]), standbyEntry_mem, noteChanged_mem, hmem, standbyEntry_part, noteChanged_twin, opRun_part]
  rw [hentry] at hc' hstored hstatus ⊢
  exact ⟨rfl, rfl, c', r, hc', hstored, hstatus⟩

/-- Settles O40: each record that follows is applied at once (`runs_stampedRec`, `runs_unstampedRec`), by the lemma about what it does. -/
theorem standbyAppliesTheStream : Obligations.StandbyAppliesTheStream := by
  intro s n c hc
  refine ⟨fun st gen m t a h hst hop ht ha hr hb hp => ?_, fun st gen ms b rs h hst hr hb hrun => ?_, fun st id cr h hst => ?_,
    fun r h hr hx => ?_, fun t a h0 h1 h => ?_, fun seq off a k bs h ht hm => ?_, fun st sts r h hdue hin hm => ?_,
    fun pa w bs h hpa => ?_⟩
  · obtain ⟨hmem, hpart, hentry⟩ := applyOp_write (st := st) hc hr hb h.1 hop ht ha hp
    exact runs_stampedRec h rfl rfl rfl hst hpart fun hlast => ⟨hmem, hlast, hentry⟩
  · obtain ⟨hmem, hpart⟩ := applyGroup_runs hc hr hb h.1 hrun
    exact runs_stampedRec h rfl rfl rfl hst hpart fun hlast => ⟨hmem, hlast⟩
  · obtain ⟨hcred, hpart⟩ := applyCtrlRec_enrol s.dev st id cr
    exact runs_stampedRec h rfl rfl rfl hst hpart fun hlast => ⟨hcred, hlast⟩
  · exact runs_unstampedRec h rfl rfl rfl (takeEnd_part _ _ _) (takeEnd_new hc hr hx)
  · exact runs_unstampedRec h rfl rfl rfl (takeIndex_part _ _ _ _ _ _) (takeIndex_conn t a h0 h1 hc)
  · exact runs_unstampedRec h rfl rfl rfl (congrArg streamPart (takeRdata_twin _ _ _ _ _ _)) (takeRdata_sends seq a k bs hc h.1 ht hm)
  · exact runs_unstampedRec h rfl rfl rfl (takeLevel_part _ _) (takeLevel_due hdue hin hc hm h.1)
  · obtain ⟨hmem, hrepairs, hpart⟩ := installLeaf_data w bs hpa
    exact runs_unstampedRec h rfl rfl rfl hpart ⟨hmem, hrepairs⟩

end Sys2Proof.Machine
end

section
/-! SUPPORT. The hold-up bank: samples of its voltage and charge, the coulomb count and what checks it, and the discharge test (R256,
R258, R260, R263, R485), with the statement about them. -/
namespace Sys2Proof.Machine

/-! ## Lines of PWR_EN -/

theorem getLsbD_setLine (w : BitVec 16) {i : Nat} (hi : i < 16) (b : Bool) (j : Nat) :
    (setLine w i b).getLsbD j = if j = i then b else w.getLsbD j := by
  have hbit : (1#16 <<< i).getLsbD j = decide (j = i) := by
    rw [BitVec.getLsbD_shiftLeft, BitVec.getLsbD_one]
    grind
  unfold setLine
  cases b
  · rw [if_neg Bool.false_ne_true, BitVec.getLsbD_and, BitVec.getLsbD_not, hbit]
    by_cases hj : j = i
    · simp [hj]
    · by_cases hw : j < 16
      · simp [hj, hw]
      · simp [hj, hw, BitVec.getLsbD_of_ge w j (by omega)]
  · rw [if_pos rfl, BitVec.getLsbD_or, hbit]
    by_cases hj : j = i <;> simp [hj]

/-- The charger's lines after they are set (R473). -/
theorem chargerLines_en (d : Dev) : (chargerLines d).pwr.en.getLsbD 14 = (d.dur.mainOk && d.dur.test ≠ .running) ∧
    (chargerLines d).pwr.en.getLsbD 15 = decide (d.dur.test = .running) := by
  simp only [chargerLines, Dev.modPwr_pwr]
  rw [getLsbD_setLine _ (by decide), getLsbD_setLine _ (by decide), getLsbD_setLine _ (by decide)]
  simp

@[simp] theorem chargerLines_dur (d : Dev) : (chargerLines d).dur = d.dur := rfl
@[simp] theorem chargerLines_ldg (d : Dev) : (chargerLines d).ldg = d.ldg := rfl

/-! ## Samples -/

/-- A window over the last ten samples ends in the newest. -/
theorem window_ten {α : Type} (l : List α) (x : α) :
    ((l ++ [x]).drop (l.length + 1 - 10)).length ≤ 10 ∧ ((l ++ [x]).drop (l.length + 1 - 10)).getLast? = some x := by
  have hlen : (l ++ [x]).length = l.length + 1 := List.length_append
  constructor
  · rw [List.length_drop, hlen]
    omega
  · rw [List.getLast?_drop, if_neg (by omega), List.getLast?_append]
    rfl

/-- The charge of a sample through a shunt whose resistance is known (R485). -/
theorem shuntCharge_known {d : Dev} (raw : BitVec 16) (h : regBits d 0x3006C 15 0 ≠ 0) :
    shuntCharge d raw = ((raw.toInt * 1000000000).tdiv (32768 * (regBits d 0x3006C 15 0 : Int)), d) := by
  rw [shuntCharge, if_neg h]

/-- The device with a charge added to both counts (R259, R485). -/
def charged (d : Dev) (q : Int) : Dev :=
  (d.modDur fun u => { u with acc := u.acc + q, testQ := u.testQ + q }).modPwr fun p => { p with holdI := q / 10 }

/-- A charge that does not overflow the accumulator is added; the count that it empties may raise 0x0102 (R257, R485). -/
theorem shuntSample_added {d : Dev} {raw : BitVec 16} {q : Int} (hq : shuntCharge d raw = (q, d)) (h1 : d.dur.acc + q < 2 ^ 47)
    (h2 : -2 ^ 47 ≤ d.dur.acc + q) :
    shuntSample raw d = charged d q ∨ shuntSample raw d = raiseOp (charged d q) 0x0102 srcPWR [] := by
  have htop : ¬ 2 ^ 47 ≤ d.dur.acc + q := by omega
  have hlow : ¬ d.dur.acc + q < -2 ^ 47 := by omega
  simp only [shuntSample, hq, htop, hlow, if_false, decide_false, Bool.or_self, Bool.false_eq_true]
  split
  · exact .inr rfl
  · exact .inl rfl

/-! ## The count -/

/-- The count is set to C times V when the bank is full and still (R485). -/
theorem anchorCount_still {d : Dev} (hv : d.dur.cntValid = false) (hb : bankSet d = true) (ht : d.dur.test = .idle)
    (hlow : vFull d * 99 ≤ d.dur.holdV * 100) (hhigh : d.dur.holdV * 100 ≤ vFull d * 101) (hi : d.pwr.holdI.natAbs < 500)
    (hs : d.dur.countSat = false) : anchorCount d =
      d.modDur fun u => { u with acc := ((capOf d * d.dur.holdV * 1000 : Nat) : Int), cntValid := true } := by
  rw [anchorCount, if_neg (by simp [hv, hb, ht, hlow, hhigh, hi]), if_neg (by simp [hs])]
  simp only [Dev.modDur]

/-- The estimates agree over the window (R258). -/
theorem mismatchEnd_agrees {d : Dev} (hv : d.dur.cntValid = true)
    (h : (if eCount d ≤ eVolt d then eVolt d - eCount d else eCount d - eVolt d) * 100 ≤
      ((regBits d 0x3020C 13 8 : Nat) : Rat) * max (eCount d) (eVolt d)) :
    mismatchEnd d = d.modDur fun u => { u with mismatch := 0 } := by
  rw [mismatchEnd, hv]
  exact if_pos h

/-- They do not, for fewer than three windows in a row (R258). -/
theorem mismatchEnd_differs {d : Dev} (hv : d.dur.cntValid = true)
    (h : ¬(if eCount d ≤ eVolt d then eVolt d - eCount d else eCount d - eVolt d) * 100 ≤
      ((regBits d 0x3020C 13 8 : Nat) : Rat) * max (eCount d) (eVolt d)) (hm : d.dur.mismatch < 2) :
    (mismatchEnd d).dur = { d.dur with mismatch := d.dur.mismatch + 1 } := by
  have hfew : ¬ 3 ≤ (raiseOp (d.modDur fun u => { u with mismatch := u.mismatch + 1 }) 0x0102 srcPWR []).dur.mismatch := by
    rw [raiseOp_dur]
    change ¬ 3 ≤ d.dur.mismatch + 1
    omega
  rw [mismatchEnd, hv]
  dsimp only
  rw [if_neg (by simp), if_neg h, if_neg hfew, raiseOp_dur]
  rfl

/-! ## The discharge test -/

theorem scheduleTest_idle {d : Dev} (h : d.dur.test = .idle) : (scheduleTest d).dur = { d.dur with test := .scheduled } := by
  rw [scheduleTest, if_pos h, raiseOp_dur]
  rfl

/-- An update of the budget with nothing that waits leaves the power supervisor, and of the durability all but the budget (R38). -/
theorem budgetUpdate_quiet_keeps {d : Dev} (h : Quiet d) : (budgetUpdate d).pwr = d.pwr ∧
    ∃ b s f, (budgetUpdate d).dur = { d.dur with budget := b, source := s, forced := f } := by
  rw [budgetUpdate_of_quiet h]
  dsimp only
  split
  · rw [raiseOp_pwr, raiseOp_dur]
    exact ⟨rfl, _, _, _, rfl⟩
  · exact ⟨rfl, _, _, _, rfl⟩

/-- The device as a discharge test starts (R260). -/
def testBegun (d : Dev) : Dev :=
  raiseOp (chargerLines (d.modDur fun u => { u with test := .running, testQ := 0, testV := u.holdV })) 0x0104 srcPWR [capOf d]

/-- A scheduled test starts once the bank is full enough and the dirty lines fit the energy at its floor (R260). -/
theorem testStart_ready {d : Dev} (ht : d.dur.test = .scheduled) (hm : d.dur.mainOk = true) (hs : d.dur.save = .idle)
    (hv : vFull d * 98 ≤ d.dur.holdV * 100) (hb : d.dur.dirty.length * 64 ≤ budgetFor d (eTest d)) :
    testStart d = budgetUpdate (testBegun d) := by
  rw [testStart, if_neg (by simp [ht, hm, hs, hv, hb])]
  rfl

/-- The count and the charger's lines as the test runs (R260, R473). -/
theorem testBegun_runs {d : Dev} (h : Quiet d) : (budgetUpdate (testBegun d)).dur.test = .running ∧
    (budgetUpdate (testBegun d)).dur.testQ = 0 ∧ (budgetUpdate (testBegun d)).dur.testV = d.dur.holdV ∧
    (budgetUpdate (testBegun d)).pwr.en.getLsbD 14 = false ∧ (budgetUpdate (testBegun d)).pwr.en.getLsbD 15 = true := by
  have hq : Quiet (testBegun d) := by simpa [Quiet, testBegun, chargerLines] using h
  obtain ⟨hpwr, _, _, _, hdur⟩ := budgetUpdate_quiet_keeps hq
  obtain ⟨hen14, hen15⟩ := chargerLines_en (d.modDur fun u => { u with test := .running, testQ := 0, testV := u.holdV })
  rw [hpwr, hdur, testBegun, raiseOp_dur, raiseOp_pwr, hen14, hen15]
  simp

/-- A test that runs ends without a result (R260). -/
theorem testFails_running {d : Dev} (h : d.dur.test = .running) : (testFails d).dur = { d.dur with test := .idle } ∧
    (testFails d).ldg = d.ldg ∧ (testFails d).pwr.en.getLsbD 15 = false := by
  rw [testFails, if_neg (by simp [h]), raiseOp_dur, raiseOp_ldg, raiseOp_pwr, (chargerLines_en _).2]
  exact ⟨rfl, rfl, rfl⟩

/-- A calibration record stands in both copies with the change made to it (R491, R492). -/
theorem writeCal_copies (d : Dev) (f : CalRec → CalRec) : (writeCal d f).dur = d.dur ∧
    ∃ r old, (writeCal d f).ldg.calA = some r ∧ (writeCal d f).ldg.calB = some r ∧ r.cMeas = (f old).cMeas :=
  ⟨rfl, _, _, rfl, rfl, rfl⟩

/-- The capacitance that a test measures at its floor: the charge over the drop of voltage, in mF (R260). -/
def measuredCap (d : Dev) : Nat := (-d.dur.testQ).toNat / ((d.dur.testV - d.dur.holdV) * 1000)

/-- The device once the capacitance is written to both calibration records (R260). -/
def capWritten (d : Dev) : Dev :=
  writeCal (d.modDur fun u => { u with test := .idle, countSat := false }) fun r => { r with parts := 16, cMeas := measuredCap d }

/-- The device with the count set by the measured capacitance, which the first test keeps as C0 (R260, R512). -/
def capTaken (d : Dev) : Dev :=
  ((capWritten d).modDur fun u => { u with acc := ((measuredCap d * u.holdV * 1000 : Nat) : Int), cntValid := true }).modLdg fun l =>
    { l with cal0 := if l.cal0 = 0 then measuredCap d else l.cal0 }

/-- A test that has come to its floor with a drop of voltage measures the capacitance (R260). -/
theorem testFloor_measures {d : Dev} (ht : d.dur.test = .running) (hv : d.dur.holdV * 100 ≤ vFull d * 85)
    (hdrop : d.dur.holdV < d.dur.testV) : testFloor d = raiseOp (chargerLines (capTaken d)) 0x0104 srcPWR [measuredCap d] := by
  rw [testFloor, if_neg (by simp [ht, hv]), if_neg (by omega)]
  rfl

theorem capTaken_dur (d : Dev) : (capTaken d).dur = { d.dur with
    test := .idle, countSat := false, cntValid := true, acc := ((measuredCap d * d.dur.holdV * 1000 : Nat) : Int) } := by
  have hdur := (writeCal_copies (d.modDur fun u => { u with test := .idle, countSat := false }) fun r =>
    { r with parts := 16, cMeas := measuredCap d }).1
  rw [capTaken, Dev.modLdg_dur, Dev.modDur_dur, capWritten, hdur, Dev.modDur_dur]

theorem capTaken_copies (d : Dev) :
    ∃ r, (capTaken d).ldg.calA = some r ∧ (capTaken d).ldg.calB = some r ∧ r.cMeas = measuredCap d := by
  obtain ⟨-, r, _, ha, hb, hc⟩ := writeCal_copies (d.modDur fun u => { u with test := .idle, countSat := false }) fun r =>
    { r with parts := 16, cMeas := measuredCap d }
  exact ⟨r, ha, hb, hc⟩

/-- Settles O45: each command by the lemma about what it does in the state that the clause names. -/
theorem energyIsMeasured : Obligations.EnergyIsMeasured := by
  intro s
  refine ⟨fun raw => ?_, fun raw r q hr hr0 hq h1 h2 => ?_, fun hv hb ht hlow hhigh hi hs => ?_,
    fun a b ha hb hv => ⟨fun h => ?_, fun h hm => ?_⟩, fun p ho ht => ?_, fun ht hm hs hv hb hq => ?_, fun c ht hv hdrop hc => ?_,
    fun ht => ?_, fun h => becomes_of rfl (if_pos h)⟩
  · obtain ⟨hlen, hlast⟩ := window_ten s.dev.dur.samples (holdMv s.dev raw)
    exact ⟨holdSample raw s.dev, rfl, rfl, hlen, hlast, rfl, rfl⟩
  · subst hr hq
    refine ⟨shuntSample raw s.dev, rfl, ?_⟩
    rcases shuntSample_added (shuntCharge_known raw hr0) h1 h2 with h | h
    · rw [h]
      exact ⟨rfl, rfl, rfl, rfl⟩
    · rw [h, raiseOp_dur, raiseOp_pwr]
      exact ⟨rfl, rfl, rfl, rfl⟩
  · exact becomes_of rfl (anchorCount_still hv hb ht hlow hhigh hi hs)
  · subst ha hb
    exact becomes_of rfl (mismatchEnd_agrees hv h)
  · subst ha hb
    refine ⟨mismatchEnd s.dev, rfl, ?_⟩
    dsimp only
    rw [mismatchEnd_differs hv h hm]
    exact ⟨rfl, rfl⟩
  · refine ⟨_, rfl, ?_⟩
    rw [command_open ho.1 ho.2]
    exact ⟨scheduleTest_idle ht, scheduleTest_mem s.dev⟩
  · refine ⟨testStart s.dev, rfl, ?_⟩
    rw [testStart_ready ht hm hs hv hb]
    exact testBegun_runs hq
  · refine ⟨testFloor s.dev, rfl, ?_⟩
    rw [testFloor_measures ht hv hdrop]
    dsimp only
    rw [raiseOp_dur, raiseOp_ldg, raiseOp_pwr, (chargerLines_en _).2, chargerLines_dur, chargerLines_ldg,
      capTaken_dur, hc]
    exact ⟨rfl, rfl, rfl, capTaken_copies s.dev, rfl⟩
  · exact ⟨testFails s.dev, rfl, testFails_running ht⟩

end Sys2Proof.Machine
end

section
/-! SUPPORT. What a link that goes down changes, and the loss of MAIN_OK up to the start of the save (R100, R213, R265, R266, R482). -/
namespace Sys2Proof.Machine

/-! ## Links that go down -/

/-- What a link that goes down may change: registers, network, events, what was sent, and the twin's state but for the role. -/
def LinkFalls (d e : Dev) : Prop :=
  ∃ r n v l t, e = { d with regs := r, net := n, evt := v, sent := l, twin := t } ∧ t.st = d.twin.st

theorem LinkFalls.refl (d : Dev) : LinkFalls d d := ⟨_, _, _, _, _, rfl, rfl⟩

theorem LinkFalls.trans {a b c : Dev} (h : LinkFalls a b) (k : LinkFalls b c) : LinkFalls a c := by
  obtain ⟨_, _, _, _, _, rfl, h1⟩ := h
  obtain ⟨_, _, _, _, _, rfl, h2⟩ := k
  exact ⟨_, _, _, _, _, rfl, h2.trans h1⟩

theorem LinkFalls.foldl {α : Type} {f : Dev → α → Dev} (h : ∀ d x, LinkFalls d (f d x)) (l : List α) (d : Dev) :
    LinkFalls d (l.foldl f d) :=
  List.foldlRecOn l f (motive := LinkFalls d) (.refl d) fun a ha x _ => ha.trans (h a x)

theorem EventFrame.falls {d e : Dev} (h : EventFrame d e) : LinkFalls d e := by
  obtain ⟨_, _, _, rfl⟩ := h
  exact ⟨_, _, _, _, _, rfl, rfl⟩

theorem LinkSends.falls {d e : Dev} (h : LinkSends d e) : LinkFalls d e := by
  obtain ⟨_, _, _, _, _, rfl⟩ := h
  exact ⟨_, _, _, _, _, rfl, rfl⟩

theorem modTwin_falls {d : Dev} {f : Twin → Twin} (h : (f d.twin).st = d.twin.st) : LinkFalls d (d.modTwin f) :=
  ⟨_, _, _, _, _, rfl, h⟩

theorem modNet_falls (d : Dev) (f : Net → Net) : LinkFalls d (d.modNet f) := ⟨_, _, _, _, _, rfl, rfl⟩

theorem raiseOp_falls (d : Dev) (c : Nat) (src : EvSource) (vs : List Nat) : LinkFalls d (raiseOp d c src vs) :=
  (raiseOp_frame d c src vs).falls

theorem setConn_falls (d : Dev) (n : Nat) (c : Option Conn) : LinkFalls d (setConn d n c) := modNet_falls _ _

theorem modConn_falls (d : Dev) (n : Nat) (f : Conn → Conn) : LinkFalls d (modConn d n f) := (modConn_frame d n f).falls

theorem dropOp_falls (d : Dev) (n : Nat) (seq : Word) : LinkFalls d (dropOp d n seq) :=
  (modNet_falls _ _).trans (modConn_falls _ _ _)

theorem noteStore_falls (d : Dev) (n : Nat) (seq : Word) (st : Option Stamp) : LinkFalls d (noteStore d n seq st) := by
  unfold noteStore
  split
  · exact modTwin_falls rfl
  · exact .refl d

theorem tell_falls (d : Dev) (r : Rec) : LinkFalls d (tell d r) := by
  unfold tell
  split
  · exact (sendRecs_sends d [r]).falls
  · exact .refl d

theorem tellEnd_falls (d : Dev) (n : Nat) (c : Conn) (e : Entry) : LinkFalls d (tellEnd d n c e) := by
  unfold tellEnd
  split
  · exact modConn_falls _ _ _
  · exact tell_falls _ _

theorem endCore_falls (d : Dev) (o : Op) (e : Entry) (x : Option (DWord × Word × List Byte)) : LinkFalls d (endCore d o e x) := by
  unfold endCore
  extract_lets d0
  have h0 : LinkFalls d d0 := dropOp_falls _ _ _
  split
  · exact h0
  · extract_lets c1 c2 sent d1
    have h1 : LinkFalls d d1 := (h0.trans (setConn_falls _ _ _)).trans (noteStore_falls _ _ _ _)
    have h2 := h1.trans (modConn_falls d1 o.conn fun c => { c with twinWritten := c.twinWritten + 1 })
    split
    · split
      · exact h2
      · exact h2.trans (tellEnd_falls _ _ _ _)
    · exact h1

theorem wakeLoop_falls : ∀ (k : Nat) (d : Dev) (ts : List Nat), LinkFalls d (wakeLoop k d ts)
  | 0, d, _ => by simpa [wakeLoop] using .refl d
  | _ + 1, d, [] => by simpa [wakeLoop] using .refl d
  | k + 1, d, t :: ts => by
    unfold wakeLoop
    split
    · exact wakeLoop_falls k d ts
    · split
      · exact (endCore_falls _ _ _ _).trans (wakeLoop_falls k _ _)
      · exact wakeLoop_falls k d ts

theorem endOp_falls (d : Dev) (o : Op) (e : Entry) (x : Option (DWord × Word × List Byte)) : LinkFalls d (endOp d o e x) :=
  (endCore_falls d o e x).trans (wakeLoop_falls _ _ _)

theorem endRelays_falls (d : Dev) : LinkFalls d (endRelays d) := by
  refine LinkFalls.foldl (fun a r => ?_) _ d
  split
  · exact endOp_falls _ _ _ _
  · exact .refl a

/-- The twin link goes down (R213, R228). -/
theorem twlDown_falls (lock : Bool) (d : Dev) : LinkFalls d (twlDown lock d) := by
  unfold twlDown
  split
  · refine LinkFalls.trans ?_ (endRelays_falls _)
    refine LinkFalls.trans ?_ (raiseOp_falls _ _ _ _)
    exact modTwin_falls rfl
  · exact modTwin_falls rfl

theorem markDown_falls (d : Dev) (n path : Nat) : LinkFalls d (markDown d n path) := by
  unfold markDown
  split
  · exact .refl d
  · split
    · exact .refl d
    · split
      · exact .refl d
      · exact (setConn_falls _ _ _).trans (raiseFolds_frame _ _ _ _ _).falls

theorem takeOver_falls (d : Dev) (n path : Nat) : LinkFalls d (takeOver d n path) := by
  unfold takeOver
  split
  · exact .refl d
  · split
    · exact .refl d
    · exact modConn_falls _ _ _

/-- A port's link goes down (R100). -/
theorem linkDown_falls (p : Nat) (d : Dev) : LinkFalls d (linkDown p d) := by
  unfold linkDown
  split
  · exact .refl d
  · have h (f : Net → Net) : LinkFalls d (raiseOp (d.modNet f) 0x0C06 (.port p) []) :=
      (modNet_falls d f).trans (raiseOp_falls _ _ _ _)
    refine ((h _).trans (LinkFalls.foldl (fun a x => ?_) _ _)).trans (LinkFalls.foldl (fun a x => ?_) _ _)
    · exact markDown_falls a x.1 x.2
    · exact takeOver_falls a x.1 x.2

theorem portsDown_falls (d : Dev) : LinkFalls d (portsDown d) := LinkFalls.foldl (fun a p => linkDown_falls p a) _ d

/-! ## A unit with nothing in hand stops to serve -/

theorem enterState_dur_pwr (d : Dev) (st : TwinState) : (enterState d st).dur = d.dur ∧ (enterState d st).pwr = d.pwr := by
  unfold enterState
  split
  · exact ⟨rfl, rfl⟩
  · dsimp only
    rw [raiseOp_dur, raiseOp_pwr]
    split <;> exact ⟨rfl, rfl⟩

theorem fence_idle_dur_pwr {d : Dev} (h : Idle d) (hs : serving d = true) : (fence d).dur = d.dur ∧ (fence d).pwr = d.pwr := by
  have hleft : (roleLeft d).dur = d.dur ∧ (roleLeft d).pwr = d.pwr := by
    obtain ⟨r, n, hn⟩ := dropUnstamped_frame d
    obtain ⟨t, ht⟩ := leavePair_frame (dropUnstamped d)
    rw [roleLeft, ht, hn]
    exact ⟨rfl, rfl⟩
  have hstop : (stopServing d .fenced).dur = d.dur ∧ (stopServing d .fenced).pwr = d.pwr := by
    obtain ⟨_, _, _, he⟩ := stopServing_idle h hs (tgt := .fenced) (by decide)
    obtain ⟨hdur, hpwr⟩ := enterState_dur_pwr (roleLeft d) .fenced
    rw [he]
    exact ⟨hdur.trans hleft.1, hpwr.trans hleft.2⟩
  rw [fence, hs, Bool.not_true, if_neg Bool.false_ne_true]
  dsimp only
  split
  · obtain ⟨_, _, _, _, _, he⟩ := sendRecs_sends (stopServing d .fenced) [.handover false]
    rw [he]
    exact hstop
  · exact hstop

/-- A unit that is FENCED, or serves with nothing in hand (R204). -/
def CanStand (d : Dev) : Prop := d.twin.st = .fenced ∨ (serving d = true ∧ Idle d)

/-- Such a unit stands down FENCED, and nothing else that a save needs changes (R266, R270). -/
theorem standDown_fenced {d : Dev} (h : CanStand d) : (standDown d).twin.st = .fenced ∧ (standDown d).dur = d.dur ∧
    (standDown d).pwr = d.pwr ∧ (standDown d).mem = d.mem := by
  rcases h with h | ⟨hs, hi⟩
  · rw [standDown, h]
    exact ⟨h, rfl, rfl, rfl⟩
  · have hrole : d.twin.st = .active ∨ d.twin.st = .unpaired := by simpa [serving] using hs
    have hfence : standDown d = fence d := by rcases hrole with h | h <;> rw [standDown, h]
    obtain ⟨hst, -, hmem⟩ := fence_idle hi hs
    obtain ⟨hdur, hpwr⟩ := fence_idle_dur_pwr hi hs
    rw [hfence]
    exact ⟨hst, hdur, hpwr, hmem⟩

/-! ## The work in hand -/

/-- The work that a unit has in hand, its role and its memory. -/
def inHand (d : Dev) : Twin × Folds × Rst × List Op × Mem := (d.twin, d.folds, d.rst, d.net.ops, d.mem)

theorem mem_of_inHand {d e : Dev} (h : inHand e = inHand d) : e.mem = d.mem := congrArg (fun x => x.2.2.2.2) h

theorem inHand_raiseOp (d : Dev) (c : Nat) (src : EvSource) (vs : List Nat) : inHand (raiseOp d c src vs) = inHand d := by
  simp only [inHand, raiseOp_twin, raiseOp_folds, raiseOp_rst, raiseOp_mem, ops_keeps.raiseOp]

theorem inHand_setPwr (d : Dev) (st : PwrState) : inHand (setPwr d st) = inHand d := by
  unfold setPwr
  split
  · rfl
  · exact inHand_raiseOp _ _ _ _

theorem CanStand.of_inHand {d e : Dev} (h : CanStand d) (he : inHand e = inHand d) : CanStand e := by
  simp only [inHand, Prod.mk.injEq] at he
  obtain ⟨ht, hf, hr, ho, -⟩ := he
  simpa only [CanStand, serving, Idle, Quiet, ht, hf, hr, ho] using h

/-! ## The start of a save -/

/-- The link of a serving unit in a pair stays up for the drain (R266). -/
def holdsLink (d : Dev) : Bool := serving d && d.twin.linkUp && d.twin.ident.isSome

/-- The save drains, which started at a time, and a discharge test ends (R260, R266). -/
def saveDrains (start : Nat) (held : Bool) (d : Dev) : Dev :=
  chargerLines (d.modDur fun u => { u with save := .draining, saveStart := start, cursor := 0, linkHeld := held, test := .idle })

/-- The shepherd's own work is given up: calibration, staging, HAL_CMD, the checkpoint, the ledger's erases (R444, R469, R497). -/
def ownWorkEnded (d : Dev) : Dev :=
  let d1 := (d.modPwr fun p => { p with calBusy := false }).modUpd fun u =>
    { u with st := if u.st = .staging then .idle else u.st, busy := false, target := none }
  let d2 := (d1.modHall fun h => { h with run := none }).modFtl fun f => { f with ckpt := none }
  d2.modLdg fun l => { l with erase := l.erase.map fun e => { e with byShp := true } }

/-- A unit as its save starts, before it stands down (R266). -/
def saveBegun (d : Dev) : Dev := ownWorkEnded (saveDrains d.clock (holdsLink d) (raiseOp (setPwr d .saving) 0x0106 srcPWR []))

theorem startSave_eq (d : Dev) : startSave d =
    if holdsLink d then portsDown (standDown (saveBegun d))
    else twlDown false (portsDown (standDown (saveBegun d))) := by
  rfl

theorem inHand_saveDrains (start : Nat) (held : Bool) (d : Dev) : inHand (saveDrains start held d) = inHand d := rfl

theorem inHand_ownWorkEnded (d : Dev) : inHand (ownWorkEnded d) = inHand d := by
  simp [inHand, ownWorkEnded]

theorem inHand_saveBegun (d : Dev) : inHand (saveBegun d) = inHand d := by
  rw [saveBegun, inHand_ownWorkEnded, inHand_saveDrains, inHand_raiseOp, inHand_setPwr]

theorem setPwr_dur (d : Dev) (st : PwrState) : (setPwr d st).dur = d.dur := by
  unfold setPwr
  split
  · rfl
  · exact raiseOp_dur _ _ _ _

theorem setPwr_pwr (d : Dev) (st : PwrState) : (setPwr d st).pwr = { d.pwr with st := st } := by
  unfold setPwr
  split
  case isTrue h => rw [← h]
  case isFalse => exact raiseOp_pwr _ _ _ _

theorem startSave_falls (d : Dev) : LinkFalls (standDown (saveBegun d)) (startSave d) := by
  rw [startSave_eq]
  split
  · exact portsDown_falls _
  · exact (portsDown_falls _).trans (twlDown_falls _ _)

theorem saveDrains_parts (start : Nat) (held : Bool) (d : Dev) : (saveDrains start held d).dur.mainOk = d.dur.mainOk ∧
    (saveDrains start held d).dur.save = .draining ∧ (saveDrains start held d).pwr.st = d.pwr.st ∧ (saveDrains start held d).pwr.cause = d.pwr.cause ∧
    (saveDrains start held d).pwr.en.getLsbD 14 = d.dur.mainOk := by
  refine ⟨rfl, rfl, rfl, rfl, (chargerLines_en _).1.trans ?_⟩
  simp

/-- The save and the supply as a save starts: the charger's line stands only while MAIN_OK does (R266, R473). -/
theorem saveBegun_parts (d : Dev) : (saveBegun d).dur.mainOk = d.dur.mainOk ∧ (saveBegun d).dur.save = .draining ∧
    (saveBegun d).pwr.st = .saving ∧ (saveBegun d).pwr.cause = d.pwr.cause ∧ (saveBegun d).pwr.en.getLsbD 14 = d.dur.mainOk := by
  have h := saveDrains_parts d.clock (holdsLink d) (raiseOp (setPwr d .saving) 0x0106 srcPWR [])
  rw [raiseOp_dur, raiseOp_pwr, setPwr_dur, setPwr_pwr] at h
  exact h

/-- A unit that can stand down starts its save FENCED, with its memory as it was (R266). -/
theorem startSave_parts {d : Dev} (h : CanStand d) : (startSave d).dur.mainOk = d.dur.mainOk ∧ (startSave d).dur.save = .draining ∧
    (startSave d).pwr.st = .saving ∧ (startSave d).pwr.cause = d.pwr.cause ∧ (startSave d).twin.st = .fenced ∧
    (startSave d).pwr.en.getLsbD 14 = d.dur.mainOk ∧ (startSave d).mem = d.mem := by
  have hb := inHand_saveBegun d
  obtain ⟨hst, hdur, hpwr, hmem⟩ := standDown_fenced (h.of_inHand hb)
  obtain ⟨hok, hsave, hs, hcause, hen⟩ := saveBegun_parts d
  obtain ⟨_, _, _, _, t, he, ht⟩ := startSave_falls d
  rw [he]
  dsimp only
  rw [hdur, hpwr, hmem]
  exact ⟨hok, hsave, hs, hcause, ht.trans hst, hen, mem_of_inHand hb⟩

/-! ## MAIN_OK falls -/

theorem lockoutKeys_frame (d : Dev) : ∃ s, lockoutKeys d = { d with sec := s } := by
  unfold lockoutKeys
  split <;> exact ⟨_, rfl⟩

/-- The device that an off request from ON finds, with the snapshot of its cause (R412, R481, R482). -/
def offTaken (cause : OffCause) (stay : Bool) (rail : Nat) (d : Dev) : Dev :=
  lockoutKeys (takeSnap (d.modPwr fun p => { p with faulty := p.faulty || stay }) cause rail)

/-- An off request from ON starts a save, on a unit that has served and does not zero its keys (R265, R482). -/
theorem offRequest_on {d : Dev} {cause : OffCause} {stay : Bool} {rail : Nat} (hst : d.pwr.st = .on) (hs : d.pwr.served = true)
    (hz : d.sec.zeroing = false) : offRequest cause stay true rail d = startSave (offTaken cause stay rail d) := by
  simp [offRequest, hst, hs, hz, offTaken]

theorem offTaken_parts (cause : OffCause) (stay : Bool) (rail : Nat) (d : Dev) : inHand (offTaken cause stay rail d) = inHand d ∧
    (offTaken cause stay rail d).dur = d.dur ∧ (offTaken cause stay rail d).pwr.cause = cause := by
  obtain ⟨_, h⟩ := lockoutKeys_frame (takeSnap (d.modPwr fun p => { p with faulty := p.faulty || stay }) cause rail)
  rw [offTaken, h]
  exact ⟨rfl, rfl, rfl⟩

/-- What the end of a discharge test leaves of a unit whose MAIN_OK falls (R260). -/
theorem testFails_keeps (d : Dev) : inHand (testFails d) = inHand d ∧ (testFails d).dur.mainOk = d.dur.mainOk ∧
    (testFails d).pwr.st = d.pwr.st ∧ (testFails d).pwr.served = d.pwr.served ∧ (testFails d).sec = d.sec := by
  unfold testFails
  split
  · exact ⟨rfl, rfl, rfl, rfl, rfl⟩
  · rw [inHand_raiseOp, raiseOp_dur, raiseOp_pwr, raiseOp_sec]
    exact ⟨rfl, rfl, rfl, rfl, rfl⟩

/-- The charger's line falls and a calibration ends (R473, R497). -/
def chargeEnded (d : Dev) : Dev := (chargerLines d).modPwr fun p => { p with calBusy := false }

theorem chargeEnded_parts (d : Dev) : inHand (chargeEnded d) = inHand d ∧ (chargeEnded d).dur = d.dur ∧
    (chargeEnded d).pwr.st = d.pwr.st ∧ (chargeEnded d).pwr.served = d.pwr.served ∧ (chargeEnded d).sec = d.sec :=
  ⟨rfl, rfl, rfl, rfl, rfl⟩

/-- The VDD_CORE request is frozen: the galleries keep to the clock that the rail supports (R484). -/
def coreFrozen (d : Dev) : Dev :=
  if d.pwr.pending && decide (d.pwr.oldMv < d.pwr.reqMv) then
    d.modPwr fun p => { p with galClk := p.galClk.map fun c => min c (clampN 12 24 (Config.clockAt (p.railMv.getD 0 0))) }
  else d

theorem coreFrozen_parts (d : Dev) : inHand (coreFrozen d) = inHand d ∧ (coreFrozen d).dur = d.dur ∧
    (coreFrozen d).pwr.st = d.pwr.st ∧ (coreFrozen d).pwr.served = d.pwr.served ∧ (coreFrozen d).sec = d.sec := by
  unfold coreFrozen
  split <;> exact ⟨rfl, rfl, rfl, rfl, rfl⟩

/-- The device at the off request of a fall of MAIN_OK (R260, R484, R497). -/
def inputLost (d : Dev) : Dev := coreFrozen (chargeEnded (testFails (d.modDur fun u => { u with mainOk := false })))

theorem mainFall_powered {d : Dev} (h : d.pwr.pwron = true) : mainFall d = offRequest .mainOk false true 0 (inputLost d) := by
  rw [mainFall, h]
  rfl

theorem inputLost_parts (d : Dev) : inHand (inputLost d) = inHand d ∧ (inputLost d).dur.mainOk = false ∧
    (inputLost d).pwr.st = d.pwr.st ∧ (inputLost d).pwr.served = d.pwr.served ∧ (inputLost d).sec = d.sec := by
  obtain ⟨h1, k1, s1, v1, c1⟩ := testFails_keeps (d.modDur fun u => { u with mainOk := false })
  obtain ⟨h2, k2, s2, v2, c2⟩ := chargeEnded_parts (testFails (d.modDur fun u => { u with mainOk := false }))
  obtain ⟨h3, k3, s3, v3, c3⟩ := coreFrozen_parts (chargeEnded (testFails (d.modDur fun u => { u with mainOk := false })))
  refine ⟨h3.trans (h2.trans h1), ?_, s3.trans (s2.trans s1), v3.trans (v2.trans v1), c3.trans (c2.trans c1)⟩
  rw [inputLost, k3, k2, k1]
  rfl

/-- A fall of MAIN_OK on a unit that has served starts a save, and the unit stands FENCED (R265, R266). -/
theorem mainFall_saves {d : Dev} (hp : d.pwr.pwron = true) (hst : d.pwr.st = .on) (hs : d.pwr.served = true) (hz : d.sec.zeroing = false)
    (h : CanStand d) : (mainFall d).dur.mainOk = false ∧ (mainFall d).dur.save = .draining ∧ (mainFall d).pwr.st = .saving ∧
    (mainFall d).pwr.cause = .mainOk ∧ (mainFall d).twin.st = .fenced ∧ (mainFall d).pwr.en.getLsbD 14 = false ∧
    (mainFall d).mem = d.mem := by
  obtain ⟨hand, hok, hst', hs', hsec⟩ := inputLost_parts d
  obtain ⟨hand2, hdur, hcause⟩ := offTaken_parts .mainOk false 0 (inputLost d)
  have hlost := hand2.trans hand
  rw [mainFall_powered hp, offRequest_on (hst'.trans hst) (hs'.trans hs) (by rw [hsec, hz])]
  obtain ⟨h1, h2, h3, h4, h5, h6, h7⟩ := startSave_parts (h.of_inHand hlost)
  rw [hdur, hok] at h1 h6
  exact ⟨h1, h2, h3, h4.trans hcause, h5, h6, h7.trans (mem_of_inHand hlost)⟩

/-- MAIN_OK returns while a save that its fall started runs: the on request is held (R482). -/
theorem mainRise_saving {d : Dev} (hp : d.pwr.pwron = true) (hc : d.pwr.cause = .mainOk) (hst : d.pwr.st = .saving) :
    mainRise d = (chargerLines (d.modDur fun u => { u with mainOk := true })).modPwr fun p =>
      { p with onHeld := true, onClears := p.onClears || false } := by
  have hc' : (chargerLines (d.modDur fun u => { u with mainOk := true })).pwr.cause = .mainOk := hc
  have hst' : (chargerLines (d.modDur fun u => { u with mainOk := true })).pwr.st = .saving := hst
  rw [mainRise, hp, Bool.not_true, if_neg Bool.false_ne_true]
  dsimp only
  rw [if_pos hc', onRequest, hst']

end Sys2Proof.Machine
end

section
/-! SUPPORT. The save image from its slot to its end, the power-down, the resumption of a save, and what makes a unit without a pair
serve again (R266, R268, R271, R274, R275, R486), with the statement about the save. -/
namespace Sys2Proof.Machine

/-! ## The image takes a slot -/

theorem writeBackAll_hall (d : Dev) : ∃ h, writeBackAll d = { d with hall := h } := by
  have key (l : List (Nat × BitVec 512)) : ∃ h, l.foldl (fun a x => toFrame a x.1 x.2) d = { d with hall := h } := by
    refine List.foldlRecOn l _ (motive := fun a : Dev => ∃ h, a = { d with hall := h }) ⟨_, rfl⟩ fun a ha x _ => ?_
    obtain ⟨_, rfl⟩ := ha
    exact ⟨_, rfl⟩
  unfold writeBackAll
  extract_lets mods pens d1
  obtain ⟨_, h⟩ := key (mods ++ pens)
  change d1 = _ at h
  rw [h]
  exact ⟨_, rfl⟩

/-- The device once the stamped work has run out and the hall is written back (R266). -/
def workOut (d : Dev) : Dev := writeBackAll (runOut d)

theorem workOut_noOps {d : Dev} (h : d.net.ops = []) : ∃ cs cc l k,
    workOut d = { d with net := { d.net with conns := cs, ctxCache := cc }, sent := l, hall := k } := by
  obtain ⟨_, _, _, hsend⟩ := flushSetups_send d
  obtain ⟨_, hhall⟩ := writeBackAll_hall (flushSetups d)
  rw [workOut, runOut_noOps h, hhall, hsend]
  exact ⟨_, _, _, _, rfl⟩

/-- The slot of a save under way, with the image as the unit stands (R268). -/
def savingSlot (d : Dev) : ImgSlot := { st := .saving, image := some (imageNow d), left := [], drained := false }

/-- The device whose save image has taken a slot (R266 step 6). -/
def imageTaken (d : Dev) (k : Nat) : Dev :=
  d.modDur fun u =>
    { u with save := .image, saveSlot := some k, cursor := 0, imgSeq := (imageNow d).seq,
             slots := modAt u.slots k fun _ => savingSlot d }

/-- The stamped work is done, and the image takes the free slot (R266). -/
theorem workDone_image {d : Dev} {k : Nat} (hs : d.dur.save = .draining) (hp : d.ftl.progs = []) (ho : d.net.ops = [])
    (hn : noImage d = false) (hk : freeSlot d = some k) (hw : d.rst.warm = .none) :
    workDone d = noteSlots (workOut d) (imageTaken (workOut d) k) := by
  obtain ⟨_, _, _, _, he⟩ := workOut_noOps ho
  have hn' : noImage (workOut d) = false := by rw [he]; exact hn
  have hk' : freeSlot (workOut d) = some k := by rw [he]; exact hk
  have hw' : (noteSlots (workOut d) (imageTaken (workOut d) k)).rst.warm = .none := by
    obtain ⟨_, hr⟩ := noteSlots_ring (workOut d) (imageTaken (workOut d) k)
    rw [hr, he]
    exact hw
  have hrun : workDone d = if ((noteSlots (workOut d) (imageTaken (workOut d) k)).rst.warm = .asked ||
      (noteSlots (workOut d) (imageTaken (workOut d) k)).rst.warm = .quiesce) &&
      (noteSlots (workOut d) (imageTaken (workOut d) k)).dur.save = .image then
        warmHold (noteSlots (workOut d) (imageTaken (workOut d) k))
      else noteSlots (workOut d) (imageTaken (workOut d) k) := by
    rw [workDone, if_neg (by simp [hs, hp])]
    dsimp only
    rw [← workOut, hn', if_neg Bool.false_ne_true, hk']
    rfl
  rw [hrun, hw']
  rfl

theorem noteSlots_dur (old d : Dev) : (noteSlots old d).dur = d.dur := by
  obtain ⟨r, h⟩ := noteSlots_ring old d
  rw [h]
  rfl

/-- The image stands in its slot with the bytes of every dirty line (R268). -/
theorem imageTaken_slot {d : Dev} {k : Nat} {x : ImgSlot} (ho : d.net.ops = []) (hx : d.dur.slots[k]? = some x) :
    ∃ y im, (imageTaken (workOut d) k).dur.slots[k]? = some y ∧ y.st = .saving ∧ y.image = some im ∧ im.trailer = false ∧
      im.lines = d.dur.dirty.map fun l => (l, readBytes d.mem (l * 64) 64) := by
  obtain ⟨_, _, _, _, he⟩ := workOut_noOps ho
  have hx' : (workOut d).dur.slots[k]? = some x := by rw [he]; exact hx
  refine ⟨savingSlot (workOut d), imageNow (workOut d), modAt_self hx' _, rfl, rfl, rfl, ?_⟩
  rw [he]
  rfl

/-- The link of a serving unit goes down once its records are drained (R266 step 3). -/
theorem linkDrained_held {d : Dev} (hh : d.dur.linkHeld = true) (hl : d.twin.linkUp = true) (hr : d.twin.relays = []) :
    (linkDrained d).twin.linkUp = false ∧ (linkDrained d).dur = { d.dur with linkHeld := false } ∧ (linkDrained d).mem = d.mem := by
  rw [linkDrained, if_pos hh, twlDown_up (d := d.modDur fun u => { u with linkHeld := false }) false hl hr, raiseOp_twin,
    raiseOp_dur, raiseOp_mem]
  exact ⟨rfl, rfl, rfl⟩

/-! ## The image's end -/

theorem setPwr_ldg (d : Dev) (st : PwrState) : (setPwr d st).ldg = d.ldg := by
  unfold setPwr
  split
  · rfl
  · exact raiseOp_ldg _ _ _ _

/-- An ordered power-down begins: the supply steps down, and the save and the ledger stay (R476). -/
theorem powerDown_parts (d : Dev) : (powerDown d).dur = d.dur ∧ (powerDown d).ldg = d.ldg ∧ (powerDown d).pwr.st = .rampDown ∧
    (powerDown d).pwr.cause = d.pwr.cause := by
  have h (e : Dev) (n : Nat) : (lowerStep e n).dur = e.dur ∧ (lowerStep e n).ldg = e.ldg ∧ (lowerStep e n).pwr.st = e.pwr.st ∧
      (lowerStep e n).pwr.cause = e.pwr.cause := ⟨rfl, rfl, rfl, rfl⟩
  obtain ⟨h1, h2, h3, h4⟩ := h (setPwr (d.modPwr fun p => { p with reverse := false }) .rampDown) (lastStep d)
  rw [setPwr_dur] at h1
  rw [setPwr_ldg] at h2
  rw [setPwr_pwr] at h3 h4
  exact ⟨h1, h2, h3, h4⟩

/-- The save is over and the power-down begins (R266 step 9). -/
theorem endSave_parts (d : Dev) : (endSave d).dur = { d.dur with save := .down } ∧ (endSave d).ldg = d.ldg ∧
    (endSave d).pwr.st = .rampDown ∧ (endSave d).pwr.cause = d.pwr.cause := powerDown_parts (d.modDur fun u => { u with save := .down })

/-- A slot whose image is whole (R266 step 8). -/
def savedSlot (x : ImgSlot) : ImgSlot := { x with st := .live, image := x.image.map fun im => { im with trailer := true } }

/-- The device whose image has ended in its slot: its power and its time stand (R266 step 8). -/
def imageEnded (d : Dev) (k watts ms : Nat) : Dev :=
  d.modDur fun u => { u with slots := modAt u.slots k savedSlot, pLast := watts, lastMs := min ms 0xFFFF }

/-- The same, with the entries of the ledger (R435, R472). -/
def imageNoted (d : Dev) (k watts ms : Nat) : Dev :=
  stateEntry 4 [0] ((noteSlots d (imageEnded d k watts ms)).modLdg fun l => { l with dirty := false })

theorem imageDone_slot {d : Dev} {k : Nat} (watts ms : Nat) (h : imaging d = true) (hk : d.dur.saveSlot = some k) :
    imageDone watts ms d = endSave (raiseOp (imageNoted d k watts ms) 0x0107 srcPWR [ms, watts * ms / 1000]) := by
  rw [imageDone, h, Bool.not_true, if_neg Bool.false_ne_true]
  simp only [Dev.modDur, hk, imageNoted, imageEnded]
  rfl

theorem imageNoted_parts (d : Dev) (k watts ms : Nat) : (imageNoted d k watts ms).dur = (imageEnded d k watts ms).dur ∧
    (imageNoted d k watts ms).ldg.dirty = false := ⟨noteSlots_dur _ _, rfl⟩

/-- The bank has come to the hold-up limit: the save stops (R486). -/
theorem holdLimit_image {d : Dev} (hst : d.pwr.st = .saving) (hs : d.dur.save = .image) (hv : d.dur.holdV * 100 ≤ vMin d * 105) :
    holdLimit d = endSave (raise (takeSnap d .holdLimit 0) 0x0110 srcPWR (snapPayload (takeSnap d .holdLimit 0)) []) := by
  rw [holdLimit, if_neg (by simp [hst, hs, hv])]

/-! ## A save that goes on -/

theorem enableHall_frame (d : Dev) : ∃ r h, enableHall d = { d with regs := r, hall := h } := by
  obtain ⟨_, h⟩ := writeBackAll_hall d
  unfold enableHall
  rw [h]
  exact ⟨_, _, rfl⟩

theorem dramResume_none (d : Dev) : ∀ c ∈ (dramResume d).dram.chans, c.st ≠ .selfRefresh := by
  intro c hc
  obtain ⟨x, -, rfl⟩ := List.mem_map.1 hc
  split
  · simp
  · assumption

/-- The device as its save goes on after a warm reset (R271). -/
def saveWarmed (d : Dev) : Dev := (enableHall (dramResume d)).modRst fun r => { r with warm := .none, warms := satUp 0xFFFF r.warms }

/-- A save goes on; the energy left may be short (R271). -/
theorem saveResume_leaving {d : Dev} (hs : d.dur.save = .image) (hw : d.rst.warm = .leaving) : saveResume d = saveWarmed d ∨
    ∃ vs, saveResume d = raiseOp ((saveWarmed d).modDur fun u => { u with short := true }) 0x0107 srcPWR vs := by
  rw [saveResume, if_neg (by simp [hs, hw])]
  extract_lets d1 d2 rest down need
  split
  · exact .inr ⟨_, rfl⟩
  · exact .inl rfl

theorem saveWarmed_parts (d : Dev) : (saveWarmed d).rst.warm = .none ∧ (saveWarmed d).dur = d.dur ∧ (saveWarmed d).mem = d.mem ∧
    (saveWarmed d).dram = (dramResume d).dram := by
  obtain ⟨_, _, h⟩ := enableHall_frame (dramResume d)
  rw [saveWarmed, h]
  exact ⟨rfl, rfl, rfl, rfl⟩

/-! ## A drained image -/

/-- The device whose slot is free again (R274). -/
def slotFreed (d : Dev) (k : Nat) : Dev := noteSlots d (d.modDur fun u => { u with slots := modAt u.slots k fun _ => ImgSlot.reset })

theorem imageRelease_drained {d : Dev} {k : Nat} {x : ImgSlot} (hx : d.dur.slots[k]? = some x) (hs : x.st = .live ∨ x.st = .draining)
    (hl : x.left = []) (hd : x.drained = true) : imageRelease k d = slotFreed d k := by
  rw [imageRelease, hx]
  exact if_pos (by simp [hs, hl, hd])

theorem slotFreed_slots {d : Dev} {k : Nat} {x : ImgSlot} (hx : d.dur.slots[k]? = some x) :
    (slotFreed d k).dur.slots[k]? = some ImgSlot.reset ∧ (slotFreed d k).mem = d.mem ∧
      ∀ i, i ≠ k → (slotFreed d k).dur.slots[i]? = d.dur.slots[i]? := by
  rw [slotFreed, noteSlots_dur, noteSlots_mem]
  exact ⟨modAt_self hx _, rfl, fun i hi => modAt_other hi _ _⟩

theorem quiet_slotFreed {d : Dev} (k : Nat) (h : Quiet d) : Quiet (slotFreed d k) := by
  obtain ⟨_, hr⟩ := noteSlots_ring d (d.modDur fun u => { u with slots := modAt u.slots k fun _ => ImgSlot.reset })
  rw [slotFreed, hr]
  exact h

/-! ## ACCEPT_LOSS -/

theorem putKey_isEmpty {α : Type} (l : List (Nat × α)) (n : Nat) (v : α) : (putKey l n v).isEmpty = false := by
  cases l with
  | nil => rfl
  | cons x t =>
    unfold putKey
    split
    · rfl
    · split <;> rfl

/-- A change of one connection leaves a unit without connections without them. -/
theorem modConn_isEmpty (d : Dev) (n : Nat) (f : Conn → Conn) : (modConn d n f).net.conns.isEmpty = d.net.conns.isEmpty := by
  unfold modConn
  split
  case h_2 => rfl
  case h_1 c hc =>
    have hsome : d.net.conns.isEmpty = false := by
      cases hl : d.net.conns with
      | nil => rw [getConn, hl] at hc; cases hc
      | cons x t => rfl
    rw [hsome]
    exact putKey_isEmpty d.net.conns n (f c)

theorem noConns_keeps : EventKeeps fun d => d.net.conns.isEmpty :=
  ⟨fun _ _ => rfl, fun _ => rfl, fun d n _ _ => modConn_isEmpty d n _⟩

theorem clearLoss_frame (d : Dev) : ∃ l sl, clearLoss d = { d with ldg := l, dur := { d.dur with lost := false, slots := sl } } := by
  unfold clearLoss
  obtain ⟨_, h⟩ := noteSlots_ring d (d.modDur fun u =>
    { u with lost := false, slots := u.slots.map fun s => if s.st = .saving then ImgSlot.reset else s })
  exact ⟨_, _, h⟩

theorem refuseAtLimit_dur_noConns (d : Dev) : (refuseAtLimit d).dur = d.dur ∧
    (refuseAtLimit d).net.conns.isEmpty = d.net.conns.isEmpty := by
  unfold refuseAtLimit
  split
  · exact ⟨raiseOp_dur _ _ _ _, noConns_keeps.raiseOp _ _ _ _⟩
  · exact ⟨rfl, rfl⟩

theorem enterState_noConns (d : Dev) (st : TwinState) : (enterState d st).net.conns.isEmpty = d.net.conns.isEmpty := by
  unfold enterState
  split
  · rfl
  · refine (noConns_keeps.raiseOp _ _ _ _).trans ?_
    split
    · simp [quietConns]
    · rfl

/-- A unit that begins to serve alone (R206). -/
theorem startServing_unpaired (d : Dev) : (startServing d .unpaired none).twin.st = .unpaired ∧
    (startServing d .unpaired none).dur = d.dur ∧ (startServing d .unpaired none).net.conns.isEmpty = d.net.conns.isEmpty := by
  obtain ⟨t, hl⟩ := leavePair_frame d
  unfold startServing
  extract_lets d1 d2 d3
  obtain ⟨b, hb⟩ := refuseAtLimit_twin (enterState d3 .unpaired)
  obtain ⟨hdur, hconns⟩ := refuseAtLimit_dur_noConns (enterState d3 .unpaired)
  have h1 : d1 = { d with twin := t } := hl
  rw [hb, hdur, hconns, enterState_twin, enterState_noConns, (enterState_dur_pwr _ _).1]
  refine ⟨rfl, ?_, ?_⟩
  · change d1.dur = _
    rw [h1]
  · change (d1.net.conns.map _).isEmpty = _
    rw [h1, List.isEmpty_map]

/-- ACCEPT_LOSS on a unit without a pair identity and without connections (R275). -/
theorem acceptLoss_alone {d : Dev} (hl : d.dur.lost = true) (hi : d.twin.ident = none) (hst : d.twin.st = .fenced)
    (hf : fitToServe (clearLoss d) = true) (hc : d.net.conns = []) :
    acceptLoss 0x7A3C d = (startServing (clearLoss d) .unpaired none, 0) := by
  obtain ⟨_, _, he⟩ := clearLoss_frame d
  have halone : serveAlone (clearLoss d) = startServing (clearLoss d) .unpaired none := by
    rw [serveAlone, if_pos]
    rw [hf, he]
    simp [hi, hst]
  have hnone : (startServing (clearLoss d) .unpaired none).net.conns = [] := by
    rw [← List.isEmpty_iff, (startServing_unpaired _).2.2, he, List.isEmpty_iff]
    exact hc
  rw [acceptLoss, if_neg (by simp [hl, hi, hst])]
  dsimp only
  rw [halone, hnone]
  simp

/-! ## The statement -/

/-- Settles O46: each command by the lemma about what it does in the state that the clause names. -/
theorem powerLossSaves : Obligations.PowerLossSaves := by
  intro s
  refine ⟨fun hp hst hs hz h => ?_, fun hp hc hst => ?_, fun k x hs hp ho hn hk hw hx => ?_, fun hh hl hr => ?_, fun h => ?_,
    fun w n k x h hk hx => ?_, fun hst hs hv => ?_, fun hs hw => ?_, fun k x hx hst hl hd hq => ?_, fun p ho hl hi hst hf hc => ?_⟩
  · exact ⟨mainFall s.dev, rfl, mainFall_saves hp hst hs hz h⟩
  · refine ⟨mainRise s.dev, rfl, ?_⟩
    rw [mainRise_saving hp hc hst]
    exact ⟨rfl, rfl, hst, rfl⟩
  · refine ⟨workDone s.dev, rfl, ?_⟩
    obtain ⟨_, _, _, _, he⟩ := workOut_noOps ho
    have hmem : (imageTaken (workOut s.dev) k).mem = s.dev.mem := by rw [he]; rfl
    rw [workDone_image hs hp ho hn hk hw, noteSlots_dur, noteSlots_mem, hmem]
    exact ⟨rfl, rfl, rfl, rfl, imageTaken_slot ho hx⟩
  · exact ⟨linkDrained s.dev, rfl, linkDrained_held hh hl hr⟩
  · refine ⟨imageProgram s.dev, rfl, ?_⟩
    rw [imageProgram, if_pos h]
    exact ⟨rfl, rfl, rfl, rfl⟩
  · refine ⟨imageDone w n s.dev, rfl, ?_⟩
    obtain ⟨hdur, hldg, hst, -⟩ := endSave_parts (raiseOp (imageNoted s.dev k w n) 0x0107 srcPWR [n, w * n / 1000])
    obtain ⟨hnoted, hdirty⟩ := imageNoted_parts s.dev k w n
    rw [imageDone_slot w n h hk, hdur, hldg, hst, raiseOp_dur, raiseOp_ldg, hnoted]
    exact ⟨rfl, rfl, rfl, hdirty, rfl, modAt_self hx _⟩
  · refine ⟨holdLimit s.dev, rfl, ?_⟩
    obtain ⟨hdur, hldg, hst', hcause⟩ :=
      endSave_parts (raise (takeSnap s.dev .holdLimit 0) 0x0110 srcPWR (snapPayload (takeSnap s.dev .holdLimit 0)) [])
    rw [holdLimit_image hst hs hv, hdur, hldg, hst', hcause, raise_dur, raise_ldg, raise_pwr]
    exact ⟨rfl, rfl, rfl, rfl⟩
  · refine ⟨saveResume s.dev, rfl, ?_⟩
    obtain ⟨hwarm, hdur, hmem, hdram⟩ := saveWarmed_parts s.dev
    have hchans : ∀ c ∈ (saveWarmed s.dev).dram.chans, c.st ≠ .selfRefresh := by
      rw [hdram]
      exact dramResume_none s.dev
    rcases saveResume_leaving hs hw with h | ⟨vs, h⟩
    · rw [h, hdur, hmem]
      exact ⟨hwarm, hs, rfl, rfl, hchans⟩
    · rw [h, raiseOp_rst, raiseOp_dur, raiseOp_mem, raiseOp_dram, Dev.modDur_dur, Dev.modDur_mem, hdur, hmem]
      exact ⟨hwarm, hs, rfl, rfl, hchans⟩
  · refine ⟨settleFully (imageRelease k s.dev), rfl, ?_⟩
    rw [imageRelease_drained hx hst hl hd, settleFully_quiet (quiet_slotFreed k hq)]
    exact slotFreed_slots hx
  · refine ⟨_, rfl, ?_⟩
    obtain ⟨hserves, hdur, -⟩ := startServing_unpaired (clearLoss s.dev)
    obtain ⟨_, _, he⟩ := clearLoss_frame s.dev
    rw [command_open ho.1 ho.2, acceptLoss_alone hl hi hst hf hc]
    refine ⟨hserves, ?_, ?_⟩
    · change (startServing (clearLoss s.dev) .unpaired none).dur.lost = false
      rw [hdur, he]
    · change (startServing (clearLoss s.dev) .unpaired none).mem = s.dev.mem
      rw [startServing_mem, clearLoss_mem]

end Sys2Proof.Machine
end

section
/-! SUPPORT. The flash tier's placement, drains, programs, lost blocks and dies, erases, reads and collection (R311 to R319), with the
statement about them. -/
namespace Sys2Proof.Machine

/-! ## Placing codewords -/

/-- What placing codewords may change of the tier: what is open and closed, the codeword sequence and the programs. -/
def PlaceFrame (f g : Ftl) : Prop := ∃ o c w p, g = { f with opens := o, closed := c, wseq := w, progs := p }

theorem PlaceFrame.trans {f g h : Ftl} (h1 : PlaceFrame f g) (h2 : PlaceFrame g h) : PlaceFrame f h := by
  obtain ⟨_, _, _, _, rfl⟩ := h1
  obtain ⟨o, c, w, p, rfl⟩ := h2
  exact ⟨o, c, w, p, rfl⟩

section
variable {f g : Ftl} {pos : Nat} {cws more : List Codeword} {lines : List Nat} {ctl : List ControlItem}

theorem placeRow_frame (h : placeRow f pos cws lines ctl = some (g, more)) : PlaceFrame f g := by
  unfold placeRow at h
  split at h
  · cases h
  · cases h
    exact ⟨_, _, _, _, rfl⟩

theorem placeCws_frame {n : Nat} (h : placeCws n f pos cws lines ctl = some g) : PlaceFrame f g := by
  induction n generalizing f cws with
  | zero => cases h
  | succ n ih =>
    simp only [placeCws] at h
    split at h
    · cases h
    case h_2 hrow =>
      cases h
      exact placeRow_frame hrow
    case h_3 hrow => exact (placeRow_frame hrow).trans (ih h)

/-- An open superblock takes one more program, with the lines given (R311). -/
theorem placeRow_open {o : Nat × Nat × Nat} (h : f.opens.find? (fun o => o.1 = pos) = some o) (cws : List Codeword) (lines : List Nat)
    (ctl : List ControlItem) : ∃ g more p, placeRow f pos cws lines ctl = some (g, more) ∧ g.progs = f.progs ++ [p] ∧ p.pos = pos ∧
      p.lines = lines := by
  unfold placeRow openAt
  rw [h]
  exact ⟨_, _, _, rfl, rfl, rfl, rfl⟩

end

/-! ## Drains -/

/-- Without operations, completing sends answers that waited, and with no command waiting nothing else goes on. -/
theorem settleFully_completeAll {d : Dev} (hq : Quiet d) (ho : d.net.ops = []) : SendFrame d (settleFully (completeAll d)) := by
  have h := flushSetups_send d
  have hq' : Quiet (flushSetups d) := by
    obtain ⟨_, _, _, he⟩ := h
    rw [he]
    exact hq
  rw [completeAll_of_noOps ho, settleFully_quiet hq']
  exact h

theorem dropNums_nil (l : List Nat) : dropNums l [] = l := by simp [dropNums]

/-- Landing no leaf ends the dirty state of no line; a group without lines goes. -/
theorem landLeaves_nil (d : Dev) : landLeaves d [] [] = d.modDur fun u => { u with grouped := u.grouped.filter fun g => !g.2.isEmpty } := by
  have hslots : (d.dur.slots.map fun s => { s with left := s.left }) = d.dur.slots := List.map_id' _
  have hgroups : (d.dur.grouped.map fun g => (g.1, g.2)) = d.dur.grouped := List.map_id' _
  simp only [landLeaves, Dev.modDur, Dev.modFtl, dropNums_nil, hslots, hgroups, List.foldl_nil, List.length_nil, Nat.add_zero]

theorem mem_linesOfLeaf {ls : List Nat} {leaf l : Nat} : l ∈ linesOfLeaf ls leaf ↔ l ∈ ls ∧ l / 64 = leaf := by
  simp [linesOfLeaf]

/-- A drain without zero leaves programs lines that are to be drained, of leaves that are in turn (R312). -/
theorem drain_open {d : Dev} {pos : Nat} {o : Nat × Nat × Nat} (hu : posUsed d.ftl pos = true) (hf : d.folds.formatted = true)
    (hh : flashHeld d = false) (hm : mediaGroup d = none) (hz : ∀ l ∈ drainOrder d, isZeroLeaf d l = false) (hne : drainOrder d ≠ [])
    (ho : d.ftl.opens.find? (fun o => o.1 = pos) = some o) :
    ∃ f u p, drain pos d = completeAll { d with ftl := f, dur := { d.dur with grouped := u } } ∧ f.progs = d.ftl.progs ++ [p] ∧
      p.pos = pos ∧ ∀ l ∈ p.lines, l ∈ drainable d ∧ l / 64 ∈ drainOrder d := by
  rw [drain, if_neg (by simp [hu, hf, hh]), hm]
  extract_lets order zeros d1 leaves now
  have horder : ∀ l ∈ order, l ∈ drainOrder d := fun l hl => List.mem_of_mem_take hl
  have hzeros : zeros = [] := List.filter_eq_nil_iff.2 fun l hl => by simp [hz l (horder l hl)]
  have hleaves : leaves = order := List.filter_eq_self.2 fun l hl => by simp [hz l (horder l hl)]
  have hsome : ¬ leaves.isEmpty = true := by
    rw [hleaves, List.isEmpty_iff, List.take_eq_nil_iff]
    rintro (h | h)
    · omega
    · exact hne h
  have hd1 : d1 = d.modDur fun u => { u with grouped := u.grouped.filter fun g => !g.2.isEmpty } := by
    rw [← landLeaves_nil]
    simp only [d1, hzeros, List.map_nil, List.flatMap_nil]
  obtain ⟨f, more, p, hrow, hprogs, hpos, hlines⟩ := placeRow_open (f := d1.ftl) (by rw [hd1]; exact ho)
    (now.map (leafCw d1 none)) (now.flatMap (linesOfLeaf (drainable d1))) (now.flatMap (controlOf d1))
  rw [if_neg hsome, hrow]
  clear_value d1
  subst hd1
  refine ⟨f, _, p, rfl, hprogs, hpos, fun l hl => ?_⟩
  rw [hlines] at hl
  obtain ⟨leaf, hleaf, hl⟩ := List.mem_flatMap.1 hl
  obtain ⟨hdrain, hin⟩ := mem_linesOfLeaf.1 hl
  exact ⟨hdrain, hin ▸ horder leaf (hleaves ▸ List.mem_of_mem_take hleaf)⟩

/-! ## Programs -/

theorem eraseEmpty_frame (f : Ftl) (sb : Nat) : ∃ c e, eraseEmpty f sb = { f with closed := c, erasing := e } := by
  unfold eraseEmpty
  split
  · exact ⟨_, _, rfl⟩
  · exact ⟨_, _, rfl⟩

theorem foldl_eraseEmpty_frame (l : List Nat) (f : Ftl) : ∃ c e, l.foldl eraseEmpty f = { f with closed := c, erasing := e } := by
  induction l generalizing f with
  | nil => exact ⟨_, _, rfl⟩
  | cons sb l ih =>
    obtain ⟨_, _, he⟩ := eraseEmpty_frame f sb
    obtain ⟨c, e, hl⟩ := ih (eraseEmpty f sb)
    exact ⟨c, e, by rw [List.foldl_cons, hl, he]⟩

/-- The program's lines stop being dirty, it is under way no longer, and the map takes its leaves' places (R311). -/
theorem programEnd_parts (d : Dev) (p : Prog) : (programEnd d p).dur.dirty = dropNums d.dur.dirty p.lines ∧
    (programEnd d p).ftl.progs = d.ftl.progs.erase p ∧ (programEnd d p).net = d.net ∧
    (programEnd d p).ftl.map = ((landing d.ftl p).flatMap (mapOf d.ftl.map)).foldl (fun m e => putKey m e.1 e.2) d.ftl.map := by
  unfold programEnd
  extract_lets ls d1 d2 olds
  obtain ⟨_, _, h⟩ := foldl_eraseEmpty_frame olds d2.ftl
  rw [h]
  exact ⟨rfl, rfl, rfl, rfl⟩

/-- A drained leaf outside a group takes its own map entry. -/
theorem landing_leaf {f : Ftl} {p : Prog} {c : Codeword} (hp : p.cws = [c]) (hk : c.kind = .leaf) (hg : c.grp = false) :
    landing f p = [c] := by
  simp [landing, hp, hk, hg]

/-- The device when a program has finished, with its time counted toward R314. -/
def programTimed (d : Dev) (p : Prog) (ns : Nat) : Dev :=
  (programEnd d p).modFtl fun f =>
    { f with progTimes := (f.progTimes.filter fun t => decide (d.clock ≤ t.1 + 60000000000)) ++ [(d.clock, ns)] }

theorem programDone_found {d : Dev} {pos : Nat} {p : Prog} (ns : Nat) (h : d.ftl.progs.find? (fun p => p.pos = pos) = some p) :
    programDone pos ns d = completeAll (programTimed d p ns) := by
  rw [programDone, h]
  rfl

theorem quiet_programTimed {d : Dev} (p : Prog) (ns : Nat) (h : Quiet d) : Quiet (programTimed d p ns) := by
  obtain ⟨hfolds, htwin⟩ := programEnd_keeps d p
  simpa only [Quiet, programTimed, Dev.modFtl_twin, Dev.modFtl_folds, hfolds, htwin] using h

/-! ## Blocks and dies that are lost -/

theorem checkLife_ftl (b d : Dev) : ∃ r l, (checkLife b d).ftl = { d.ftl with readOnly := r, life := l } := by
  unfold checkLife
  extract_lets low ro d1 d2 l d3
  split
  · exact ⟨_, _, rfl⟩
  · have h1 : d1.ftl = d.ftl := by simp only [d1]; split <;> simp
    have h2 : ∃ r, d2.ftl = { d.ftl with readOnly := r } := by
      simp only [d2]
      split
      · exact ⟨_, by rw [raise_ftl, Dev.modDur_ftl, Dev.modFtl_ftl, h1]⟩
      · exact ⟨_, h1⟩
    have h3 : d3.ftl = d2.ftl := by simp only [d3]; split <;> simp
    obtain ⟨r, h2⟩ := h2
    exact ⟨r, l, by rw [Dev.modFtl_ftl, h3, h2]⟩

section
variable {c t : Nat} {d : Dev}

theorem takeOffline_known (h : d.ftl.offline.contains (c, t) = true) : takeOffline c t d = d := by
  rw [takeOffline, if_pos h]

/-- A die that goes offline: its position's open superblocks close (R332). -/
theorem takeOffline_new (h : d.ftl.offline.contains (c, t) = false) : ∃ cl, (takeOffline c t d).ftl =
    { d.ftl with offline := d.ftl.offline ++ [(c, t)], opens := d.ftl.opens.filter fun o => posOf o.2.1 ≠ c / 8 * 16 + t,
                 closed := cl } := by
  rw [takeOffline, if_neg (by rw [h]; exact Bool.false_ne_true)]
  exact ⟨_, raiseOp_ftl _ _ _ _⟩

theorem mem_takeOffline : (c, t) ∈ (takeOffline c t d).ftl.offline := by
  cases h : d.ftl.offline.contains (c, t)
  case true =>
    rw [takeOffline_known h]
    exact List.contains_iff_mem.1 h
  case false =>
    obtain ⟨_, he⟩ := takeOffline_new h
    rw [he]
    exact List.mem_append_right _ List.mem_cons_self

end

theorem takeOffline_ftl (c t : Nat) (d : Dev) : ∃ off op cl, (takeOffline c t d).ftl =
    { d.ftl with offline := off, opens := op, closed := cl } := by
  cases h : d.ftl.offline.contains (c, t)
  case true => exact ⟨_, _, _, by rw [takeOffline_known h]⟩
  case false =>
    obtain ⟨_, he⟩ := takeOffline_new h
    exact ⟨_, _, _, he⟩

/-- The block is retired, and the counts of failures stay (R319). -/
theorem retire_parts (d : Dev) (b : Nat × Nat × Nat × Nat) : b ∈ (retire d b).ftl.retired ∧
    (retire d b).ftl.pfail = d.ftl.pfail ∧ (retire d b).ftl.efail = d.ftl.efail := by
  unfold retire
  split
  case isTrue h => exact ⟨List.contains_iff_mem.1 h, rfl, rfl⟩
  case isFalse =>
    extract_lets d1 n d2
    have hd2 : ∃ off op cl, d2.ftl = { d1.ftl with offline := off, opens := op, closed := cl } := by
      simp only [d2]
      split
      · exact takeOffline_ftl _ _ _
      · exact ⟨_, _, _, rfl⟩
    obtain ⟨_, _, _, h2⟩ := hd2
    obtain ⟨_, _, hlife⟩ := checkLife_ftl d d2
    rw [hlife, h2]
    exact ⟨List.mem_append_right _ List.mem_cons_self, rfl, rfl⟩

/-- A program's failure counts, and the block named retires, wherever its leaves are programmed again (R319). -/
theorem programFail_parts {d : Dev} {pos : Nat} {p : Prog} {c : Codeword} {rest : List Codeword} (chan plane : Nat)
    (hp : d.ftl.progs.find? (fun p => p.pos = pos) = some p) (hc : p.cws = c :: rest) :
    (programFail pos chan plane d).ftl.pfail = satUp 0xFFFFFFFF d.ftl.pfail ∧
      (posOf (sbOfLoc c.loc) / 16 * 8 + chan % 8, posOf (sbOfLoc c.loc) % 16, plane, blockOfSb (sbOfLoc c.loc)) ∈
        (programFail pos chan plane d).ftl.retired := by
  rw [programFail, hp]
  dsimp -zeta only
  rw [hc]
  dsimp -zeta only
  extract_lets sb b again d1 d2
  obtain ⟨hret, hfail, -⟩ := retire_parts d1 b
  have h2 : d2.ftl = (retire d1 b).ftl := raiseOp_ftl _ _ _ _
  rw [← h2] at hret hfail
  split
  case h_1 f hf =>
    obtain ⟨_, _, _, _, rfl⟩ := placeCws_frame hf
    exact ⟨hfail, hret⟩
  case h_2 => exact ⟨hfail, hret⟩

section
variable {d : Dev} {sb : Nat}

/-- An erase ends with the superblock empty and its count one higher (R315). -/
theorem eraseDone_parts (h : d.ftl.erasing.contains sb = true) : (eraseDone sb d).ftl.erasing.contains sb = false ∧
    eraseCount (eraseDone sb d).ftl sb = eraseCount d.ftl sb + 1 ∧ ∀ c ∈ (eraseDone sb d).ftl.cws, sbOfLoc c.loc ≠ sb := by
  rw [eraseDone, h, Bool.not_true, if_neg Bool.false_ne_true]
  extract_lets d1
  obtain ⟨_, _, hlife⟩ := checkLife_ftl d d1
  rw [hlife]
  refine ⟨?_, ?_, fun c hc => ?_⟩
  · simp [d1]
  · simp only [eraseCount, d1, Dev.modFtl_ftl, getKey_putKey, if_true, Option.getD_some]
  · simpa using (List.mem_filter.1 hc).2

/-- An erase's failure counts, and the block named retires (R319). -/
theorem eraseFail_parts (chan plane : Nat) (h : d.ftl.erasing.contains sb = true) :
    (eraseFail sb chan plane d).ftl.efail = satUp 0xFFFFFFFF d.ftl.efail ∧
      (posOf sb / 16 * 8 + chan % 8, posOf sb % 16, plane, blockOfSb sb) ∈ (eraseFail sb chan plane d).ftl.retired := by
  rw [eraseFail, h, Bool.not_true, if_neg Bool.false_ne_true, raiseOp_ftl]
  obtain ⟨hret, -, hfail⟩ := retire_parts (d.modFtl fun f => { f with efail := satUp 0xFFFFFFFF f.efail })
    (posOf sb / 16 * 8 + chan % 8, posOf sb % 16, plane, blockOfSb sb)
  exact ⟨hfail, hret⟩

end

/-! ## Reads, suspensions and collection -/

/-- A read that decodes counts on its block and in the counters of what it corrected (R317, R325). -/
theorem readDone_decoded {d : Dev} {loc step : Nat} (n : Nat) (hc : ∃ c ∈ d.ftl.cws, c.loc = loc) (hs : step ≤ 9)
    (hg : dieGone d.ftl loc = false) : readDone loc step n d = (countRead d loc).modFtl fun f =>
      { f with corr := f.corr + n, retry := if 1 < step && step < 9 then satUp 0xFFFFFFFF f.retry else f.retry,
               soft := if step = 9 then satUp 0xFFFFFFFF f.soft else f.soft } := by
  obtain ⟨c, hc, rfl⟩ := hc
  have hany : (d.ftl.cws.any fun x => x.loc = c.loc) = true := List.any_eq_true.2 ⟨c, hc, decide_eq_true rfl⟩
  rw [readDone, hany, Bool.not_true, if_neg Bool.false_ne_true]
  exact if_neg (by simp [hg, hs])

/-- The first suspension of a busy die (R318). -/
theorem suspend_first {d : Dev} {c t : Nat} {erase : Bool} (hp : d.ftl.part.suspend = true) (hs : d.dur.save = .idle)
    (hn : ∀ x ∈ d.ftl.suspends, ¬(x.1 = c ∧ x.2.1 = t))
    (hb : (if erase then d.ftl.erasing.any fun sb => posOf sb = c / 8 * 16 + t
      else d.ftl.progs.any fun p => p.cws.any fun x => posOf (sbOfLoc x.loc) = c / 8 * 16 + t) = true) :
    (suspend c t erase d).ftl.suspends = d.ftl.suspends ++ [(c, t, 1)] := by
  have hnone : ∀ x ∈ d.ftl.suspends, (x.1 = c && x.2.1 = t) = false := fun x hx => by simpa using hn x hx
  have hfind : d.ftl.suspends.find? (fun s => s.1 = c && s.2.1 = t) = none :=
    List.find?_eq_none.2 fun x hx => by rw [hnone x hx]; exact Bool.false_ne_true
  have hkeep : d.ftl.suspends.filter (fun s => !(s.1 = c && s.2.1 = t)) = d.ftl.suspends :=
    List.filter_eq_self.2 fun x hx => by rw [hnone x hx]; rfl
  unfold suspend
  extract_lets pos busy n
  have hfew : n < if erase then 16 else 4 := by
    simp only [n, hfind]
    cases erase <;> decide
  rw [if_pos (by simp [busy, pos, hb, hp, hs, hfew]), Dev.modFtl_ftl]
  simp only [hkeep, n, hfind]

/-- Collection of a superblock without valid leaves is its erase (R316). -/
theorem collect_empty {d : Dev} {pos sb : Nat} (hu : posUsed d.ftl pos = true) (hh : flashHeld d = false)
    (hf : (freeSbs d.ftl pos).length < 4) (hv : victimOf d.ftl pos = some sb) (hc : d.ftl.closed.contains sb = true)
    (hk : sbHeld d.ftl sb = false) (he : validIn d.ftl sb = []) (hp : d.ftl.progs = []) :
    collect pos d = { d with ftl := { d.ftl with closed := d.ftl.closed.filter fun x => x ≠ sb, erasing := d.ftl.erasing ++ [sb] } } := by
  have hstay : relocate d pos [] = d := by simp [relocate]
  rw [collect, if_neg (by simp [hu, hh, hf]), hv]
  dsimp only
  rw [he, hstay, eraseEmpty, if_pos (by simp only [hc, he, hk, hp]; rfl)]

/-- Settles O47: each command by the lemma about what it does in the state that the clause names. -/
theorem flashStripesAreKept : Obligations.FlashStripesAreKept := by
  intro s
  refine ⟨fun pos o hu hf hh hm hz hne ho hq hn => ?_, fun pos ns p hp hq hn => ?_, fun pos chan plane p c rest hp hc => ?_,
    fun sb hsb => ⟨?_, fun chan plane => ?_⟩, fun loc step n hc hs hg => ?_, fun c t hp hs hn => ⟨fun hb => ?_, fun hb => ?_⟩,
    fun c t => ?_, fun pos sb hu hh hf hv hc hk he hp => ?_⟩
  · obtain ⟨f, u, p, hdrain, hprogs, hpos, hlines⟩ := drain_open hu hf hh hm hz hne ho
    obtain ⟨_, _, _, he⟩ := settleFully_completeAll (d := { s.dev with ftl := f, dur := { s.dev.dur with grouped := u } }) hq hn
    refine ⟨settleFully (drain pos s.dev), rfl, ?_⟩
    rw [hdrain, he]
    exact ⟨rfl, p, hprogs, hpos, hlines⟩
  · obtain ⟨hdirty, hprogs, hnet, hmap⟩ := programEnd_parts s.dev p
    have hops : (programTimed s.dev p ns).net.ops = [] := by rw [programTimed, Dev.modFtl_net, hnet, hn]
    obtain ⟨_, _, _, he⟩ := settleFully_completeAll (quiet_programTimed p ns hq) hops
    refine ⟨settleFully (programDone pos ns s.dev), rfl, ?_⟩
    rw [programDone_found ns hp, he]
    refine ⟨hdirty, hprogs, programEnd_mem s.dev p, fun c hp hk hg hr => ?_⟩
    change getKey (programEnd s.dev p).ftl.map _ = _
    rw [hmap, landing_leaf hp hk hg, List.flatMap_singleton, mapOf, hr, if_neg Bool.false_ne_true]
    simp only [List.foldl_cons, List.foldl_nil, getKey_putKey, if_true]
  · obtain ⟨hfail, hret⟩ := programFail_parts chan plane hp hc
    exact ⟨_, rfl, hfail, programFail_mem _ _ _ _, hret⟩
  · obtain ⟨herasing, hcount, hcws⟩ := eraseDone_parts hsb
    exact ⟨_, rfl, herasing, hcount, hcws, eraseDone_mem _ _⟩
  · obtain ⟨hfail, hret⟩ := eraseFail_parts chan plane hsb
    exact ⟨_, rfl, hfail, eraseFail_mem _ _ _ _, hret⟩
  · refine ⟨readDone loc step n s.dev, rfl, ?_⟩
    rw [readDone_decoded n hc hs hg]
    refine ⟨rfl, ?_, rfl, rfl⟩
    simp only [countRead, Dev.modFtl_ftl, getKey_putKey, if_true]
  · obtain ⟨b, hb, hpos⟩ := hb
    exact ⟨_, rfl, suspend_first hp hs hn (List.any_eq_true.2 ⟨b, hb, decide_eq_true hpos⟩)⟩
  · obtain ⟨p, hin, x, hx, hpos⟩ := hb
    exact ⟨_, rfl, suspend_first hp hs hn
      (List.any_eq_true.2 ⟨p, hin, List.any_eq_true.2 ⟨x, hx, decide_eq_true hpos⟩⟩)⟩
  · obtain ⟨_, _, hlife⟩ := checkLife_ftl s.dev (takeOffline c t s.dev)
    refine ⟨checkLife s.dev (takeOffline c t s.dev), rfl, ?_, by rw [checkLife_mem, takeOffline_mem], fun hnew o ho => ?_⟩
    · rw [hlife]
      exact mem_takeOffline
    · obtain ⟨_, he⟩ := takeOffline_new hnew
      rw [hlife, he] at ho
      simpa using (List.mem_filter.1 ho).2
  · refine ⟨collect pos s.dev, rfl, ?_⟩
    rw [collect_empty hu hh hf hv hc hk he hp]
    refine ⟨rfl, ?_, rfl⟩
    simp

end Sys2Proof.Machine
end

section
/-! SUPPORT. The flash tier's checkpoints, its patrol and its daily samples (R320 to R327), with the statement about them. -/
namespace Sys2Proof.Machine

/-! ## Checkpoints -/

/-- The cut keeps the map as it stands, and its pages go to their programs (R320). -/
theorem ckptStart_cut {d : Dev} {pos : Nat} {g : Ftl} (hc : d.ftl.ckpt = none) (hf : d.folds.formatted = true) (hh : flashHeld d = false)
    (ht : turnPos d.ftl = some pos)
    (hg : placeCws ((ckptCws d.ftl d.folds.s).length + 1) d.ftl pos (ckptCws d.ftl d.folds.s) [] [] = some g) :
    ∃ k, ckptStart d = { d with ftl := { g with ckpt := some k, ckptSeq := d.ftl.ckptSeq + 1, updates := 0, lastCkpt := d.clock,
                                                turn := pos + 1 } } ∧
      k.seq = d.ftl.ckptSeq + 1 ∧ k.cut = d.ftl.wseq ∧ k.map = d.ftl.map := by
  rw [ckptStart, if_neg (by simp [hc, hf, hh]), ht]
  dsimp only
  rw [hg]
  exact ⟨_, rfl, rfl, rfl, rfl⟩

/-- What an erase of a ledger sector leaves: the tier, the save's side and the anchors. -/
theorem countErase_keeps (d : Dev) (sec : Nat) : ((countErase d sec).ftl, (countErase d sec).dur, (countErase d sec).ldg.anchors) =
    (d.ftl, d.dur, d.ldg.anchors) := by
  unfold countErase wearSector
  dsimp only
  split
  · rw [raiseOp_ftl, raiseOp_dur, raiseOp_ldg]
    rfl
  · rfl

theorem tidyRings_keeps (d : Dev) : (tidyRings d).ftl = d.ftl ∧ (tidyRings d).dur = d.dur ∧
    (tidyRings d).ldg.anchors = d.ldg.anchors := by
  unfold tidyRings
  extract_lets l erased
  have h := foldl_keeps (fun d => (d.ftl, d.dur, d.ldg.anchors)) countErase countErase_keeps erased (d.modLdg fun k =>
    { k with ring := renewRing k.ring, anchorLog := dropStale 126 64 1 k.anchorLog, journal := dropStale 126 64 1 k.journal,
             calLog := dropStale 7 16 1 k.calLog })
  simpa using h

/-- A checkpoint whose pages have programmed is the newest, and so is its anchor (R320, R322). -/
theorem ckptDone_parts {d : Dev} {k : Ckpt} (hk : d.ftl.ckpt = some k) (hp : d.ftl.progs = []) : (ckptDone d).ftl.ckpt = none ∧
    (ckptDone d).ftl.ckpts = (k :: d.ftl.ckpts).take 2 ∧ (ckptDone d).ldg.anchors = ((k.seq, k.head) :: d.ldg.anchors).take 2 ∧
    (ckptDone d).dur.slots =
      d.dur.slots.zipIdx.map fun x => if k.emptied.contains x.2 then { x.1 with drained := true } else x.1 := by
  rw [ckptDone, hk]
  dsimp -zeta only
  rw [hp, List.any_nil, if_neg Bool.false_ne_true]
  extract_lets d1
  obtain ⟨hftl, hdur, hanchors⟩ := tidyRings_keeps (d1.modLdg fun l =>
    { l with anchors := ((k.seq, k.head) :: l.anchors).take 2,
             anchorLog := putRing l.anchorLog fun _ => leBytes 8 k.seq ++ leBytes 8 k.head ++ leBytes 12 0 })
  rw [Dev.modDur_ftl, Dev.modDur_ldg, Dev.modDur_dur, hftl, hdur, hanchors]
  exact ⟨rfl, rfl, rfl, rfl⟩

/-! ## The patrol and the daily sample -/

/-- A patrol read in turn that decodes at once, with few bits corrected, moves no leaf: it counts and goes on (R325). -/
theorem patrol_clean {d : Dev} {c : Codeword} {n : Nat} (hn : patrolNext d.ftl = some (c, false)) (hc : c ∈ d.ftl.cws)
    (hg : dieGone d.ftl c.loc = false) (hb : n * 100 ≤ regBits d 0x600000 17 11 * 120) :
    (patrol 1 n d).ftl.patrolAt = c.loc + 1 ∧ (patrol 1 n d).ftl.corr = d.ftl.corr + n := by
  rw [patrol, hn]
  dsimp -zeta only
  extract_lets d1 d2 b m k d3
  have h2 : d2.ftl.patrolAt = c.loc + 1 ∧ d2.ftl.corr = d.ftl.corr + n := by
    have hread := readDone_decoded (d := d1) (step := 1) n ⟨c, hc, rfl⟩ (by decide) hg
    simp only [d2, hread]
    exact ⟨rfl, rfl⟩
  have h3 : d3 = d2 := if_neg (by simp [hb])
  rw [h3]
  split
  · exact h2
  · exact h2

/-- A window over a list and its newest entry holds at most its width, and ends in that entry. -/
theorem window_last {α : Type} (l : List α) (x : α) {k : Nat} (hk : 0 < k) :
    ((l ++ [x]).drop (l.length + 1 - k)).length ≤ k ∧ ((l ++ [x]).drop (l.length + 1 - k)).getLast? = some x := by
  have hlen : (l ++ [x]).length = l.length + 1 := List.length_append
  constructor
  · rw [List.length_drop, hlen]
    omega
  · rw [List.getLast?_drop, if_neg (by omega), List.getLast?_concat]

theorem dailySample_parts (day : Nat) (d : Dev) : (dailySample day d).ftl.day = day ∧
    (dailySample day d).ftl.samples = (d.ftl.samples ++ [exactFigures d]).drop (d.ftl.samples.length + 1 - 30) := by
  obtain ⟨_, _, hlife⟩ := checkLife_ftl d (d.modFtl fun f =>
    { f with samples := (f.samples ++ [exactFigures d]).drop (f.samples.length + 1 - 30), day := day })
  rw [dailySample, hlife]
  exact ⟨rfl, rfl⟩

/-- Settles O48: each command by the lemma about what it does in the state that the clause names. -/
theorem checkpointsAndPatrols : Obligations.CheckpointsAndPatrols := by
  intro s
  refine ⟨fun pos g hc hf hh ht hg => ?_, fun k hk hp => ?_, fun hk => ?_, fun c n hn hc hg hb => ?_, fun hl => ?_, fun hl => ?_,
    fun day => ?_⟩
  · obtain ⟨k, hcut, hparts⟩ := ckptStart_cut hc hf hh ht hg
    refine ⟨ckptStart s.dev, rfl, ?_⟩
    rw [hcut]
    exact ⟨rfl, rfl, rfl, rfl, k, rfl, hparts⟩
  · obtain ⟨hnone, hckpts, hanchors, hslots⟩ := ckptDone_parts hk hp
    refine ⟨ckptDone s.dev, rfl, hnone, hckpts, hanchors, fun i x hx he => ?_, ckptDone_mem _⟩
    rw [hslots, List.getElem?_map, List.getElem?_zipIdx, hx]
    simp only [Option.map_some, Nat.zero_add, he, if_true]
  · exact becomes_of rfl (if_pos hk)
  · obtain ⟨hat, hcorr⟩ := patrol_clean hn hc hg hb
    exact ⟨patrol 1 n s.dev, rfl, hat, hcorr, patrol_mem _ _ _⟩
  · refine ⟨patrolEnd s.dev, rfl, ?_, patrolEnd_mem _⟩
    rw [patrolEnd, if_pos hl, raiseOp_ftl]
    rfl
  · exact becomes_of rfl (if_neg (by rw [hl]; exact Bool.false_ne_true))
  · obtain ⟨hday, hsamples⟩ := dailySample_parts day s.dev
    obtain ⟨hlen, hlast⟩ := window_last s.dev.ftl.samples (exactFigures s.dev) (k := 30) (by decide)
    exact ⟨dailySample day s.dev, rfl, hday, hsamples ▸ hlen, hsamples ▸ hlast, dailySample_mem _ _⟩

end Sys2Proof.Machine
end

section
/-! SUPPORT. The queues, the command slots, the alerts, the returned data and the temperature of a DRAM channel, and the change of the
data rate (R335 to R354), with the statement about them. -/
namespace Sys2Proof.Machine

/-! ## A subchannel -/

/-- The channel after a change to one of its subchannels. -/
def chanSub (x : Chan) (k : Nat) (f : SubCh → SubCh) : Chan := { x with subs := modAt x.subs k f }

theorem modAt_getD {α : Type} {l : List α} {i : Nat} (h : i < l.length) (f : α → α) (a : α) : (modAt l i f).getD i a = f (l.getD i a) := by
  rw [List.getD_eq_getElem?_getD, List.getD_eq_getElem?_getD, modAt_self (List.getElem?_eq_getElem h), List.getElem?_eq_getElem h]
  rfl

/-- A row is closed by taking it from the rows that are open. -/
theorem mem_closeRow {l : List (Nat × Nat × Nat)} {rank bank : Nat} {z : Nat × Nat × Nat} :
    z ∈ (l.filter fun y => !(y.1 = rank && y.2.1 = bank)) ↔ z ∈ l ∧ ¬(z.1 = rank ∧ z.2.1 = bank) := by
  simp only [List.mem_filter, Bool.not_eq_true', Bool.and_eq_false_iff, decide_eq_false_iff_not, not_and_or]

section
variable {d : Dev} {c k : Nat} {x : Chan} {u : SubCh}

theorem SubAt.modSub (h : SubAt d c k x u) (f : SubCh → SubCh) : SubAt (modSub d c k f) c k (chanSub x k f) (f u) :=
  ⟨modAt_self h.1 _, modAt_self h.2 f⟩

/-- What keeps the channels keeps the subchannel. -/
theorem SubAt.of_dram {e : Dev} (h : SubAt d c k x u) (he : e.dram = d.dram) : SubAt e c k x u := by
  rw [SubAt, he]
  exact h

theorem onSub_at (h : SubAt d c k x u) (f : Chan → SubCh → Dev → Dev) : onSub c k f d = f x u d := by
  obtain ⟨hc, hk⟩ := h
  simp [onSub, hc, hk]

/-! ## Requests, urgency, refreshes and rows -/

/-- A request enters its own queue, behind those that wait there (R338). -/
theorem dramAsk_queued (h : SubAt d c k x u) (hx : x.st = .ready) (r : DramReq)
    (hlen : (if r.write then u.writes else u.reads).length < 64) :
    ∃ y v, SubAt (dramAsk c k r d) c k y v ∧ v.ord = u.ord + 1 ∧
      v.writes = (if r.write then u.writes ++ [{ r with ord := u.ord, urg := 0 }] else u.writes) ∧
      v.reads = (if r.write then u.reads else u.reads ++ [{ r with ord := u.ord, urg := 0 }]) := by
  rw [dramAsk, onSub_at h, if_neg (by simp [hx]), if_neg (by omega)]
  refine ⟨_, _, h.modSub _, ?_⟩
  dsimp only
  cases r.write <;> split <;> exact ⟨rfl, rfl, rfl⟩

/-- Each request of both queues takes its urgency if that is higher (R339). -/
theorem raiseUrgency_raised (h : SubAt d c k x u) (now : Nat) :
    ∃ y v, SubAt (raiseUrgency c k now d) c k y v ∧
      v.reads = u.reads.map (fun r => { r with urg := max r.urg (urgencyAt d c now r) }) ∧
      v.writes = u.writes.map (fun r => { r with urg := max r.urg (urgencyAt d c now r) }) := by
  rw [raiseUrgency, onSub_at h]
  extract_lets up missed d1
  have hd1 : d1.dram = d.dram := foldl_keeps (fun a => a.dram) _ (fun a (q : DramReq) => bump_dram a (drc c (0x60 + 4 * q.port)) 1) missed d
  exact ⟨_, _, (h.of_dram hd1).modSub _, rfl, rfl⟩

theorem refreshDue_owed (h : SubAt d c k x u) (hx : x.st = .ready) {rank : Nat} (hr : rank < u.owed.length) :
    ∃ y v, SubAt (refreshDue c k rank d) c k y v ∧ v.owed.getD rank 0 = min (refMax d c) (u.owed.getD rank 0 + 1) := by
  rw [refreshDue, onSub_at h, if_neg (by simp [hx])]
  exact ⟨_, _, SubAt.modSub (h.of_dram rfl) _, modAt_getD hr _ _⟩

theorem rowIdle_closed (h : SubAt d c k x u) (rank bank : Nat) :
    ∃ y v, SubAt (rowIdle c k rank bank d) c k y v ∧ ∀ z, z ∈ v.rows ↔ z ∈ u.rows ∧ ¬(z.1 = rank ∧ z.2.1 = bank) := by
  rw [rowIdle, onSub_at h]
  exact ⟨_, _, h.modSub _, fun _ => mem_closeRow⟩

/-! ## Command slots -/

/-- The subchannel as a command slot opens: what has left the alert window is gone from the retry buffer, and the drain mark is set
anew (R340, R346). -/
def slotSub (d : Dev) (c : Nat) (x : Chan) (u : SubCh) (now : Nat) : SubCh :=
  let cyc := islandCycle d.dram now
  setDrain d c
    { u with retry := u.retry.filter fun q => decide (cyc ≤ q.at_ + alertWindow), cycle := cyc,
             slots := if x.throttled then u.slots + 1 else 0, acts := if x.throttled then u.acts else 0,
             replays := if u.replay.isEmpty && decide (u.alertAt + alertWindow < cyc) then 0 else u.replays }

/-- A make-up burst takes the slot (R342). -/
theorem issueSlot_burst (h : SubAt d c k x u) (hx : x.st = .ready) (ha : u.alert = false) (now : Nat) {r : Nat} {rest : List Nat}
    (hb : u.burst = r :: rest) :
    issueSlot c k now d = modSub (modSub d c k fun _ => slotSub d c x u now) c k fun v =>
      issueRefresh v r (islandCycle d.dram now) true := by
  rw [issueSlot, onSub_at h, if_neg (by simp [hx, ha])]
  extract_lets cyc u1 d1
  have hb1 : u1.burst = r :: rest := hb
  rw [hb1]
  rfl

/-- With no burst and no replay the slot serves the request that is chosen (R340). -/
theorem issueSlot_chosen (h : SubAt d c k x u) (hx : x.st = .ready) (ha : u.alert = false) (now : Nat) {r : DramReq}
    (hb : u.burst = []) (hr : u.replay = []) (hc : choose ((reg d (drc c 0)).getLsbD 27) (slotSub d c x u now) = some r) :
    issueSlot c k now d =
      serveReq (modSub d c k fun _ => slotSub d c x u now) c k (islandCycle d.dram now) x (slotSub d c x u now) r := by
  rw [issueSlot, onSub_at h, if_neg (by simp [hx, ha])]
  extract_lets cyc u1 d1
  have hb1 : u1.burst = [] := hb
  have hr1 : u1.replay = [] := hr
  have hc1 : choose ((reg d (drc c 0)).getLsbD 27) u1 = some r := hc
  rw [hb1, hr1]
  dsimp only
  rw [hc1]
  rfl

/-- A refresh that is issued is owed no longer, and the rank's rows are closed (R341). -/
theorem issueRefresh_paid (u : SubCh) {rank : Nat} (hr : rank < u.owed.length) (cyc : Nat) :
    (issueRefresh u rank cyc true).owed.getD rank 0 = u.owed.getD rank 0 - 1 ∧ ∀ z ∈ (issueRefresh u rank cyc true).rows, z.1 ≠ rank :=
  ⟨modAt_getD hr _ _, fun _ hz => of_decide_eq_true (List.mem_filter.1 hz).2⟩

theorem issueSlot_refreshed (h : SubAt d c k x u) (hx : x.st = .ready) (ha : u.alert = false) (now : Nat) {r : Nat} {rest : List Nat}
    (hb : u.burst = r :: rest) (hr : r < u.owed.length) :
    ∃ y v, SubAt (issueSlot c k now d) c k y v ∧ v.owed.getD r 0 = u.owed.getD r 0 - 1 ∧ ∀ z ∈ v.rows, z.1 ≠ r := by
  rw [issueSlot_burst h hx ha now hb]
  exact ⟨_, _, (h.modSub _).modSub _, issueRefresh_paid (slotSub d c x u now) hr _⟩

/-- Nothing holds back the only request of a subchannel (R343 to R345). -/
theorem mayIssue_only {r : DramReq} (hr : u.reads = [r]) (hw : u.writes = []) (ht : u.retry = []) (ho : u.inOrder = [])
    (raw : Bool) : mayIssue raw u r = true := by
  simp [mayIssue, hr, hw, ht, ho]

/-- The only request, a read, is chosen outside a drain and a burst (R340). -/
theorem choose_only {r : DramReq} (hr : u.reads = [r]) (hw : u.writes = []) (ht : u.retry = []) (ho : u.inOrder = [])
    (hb : u.burst = []) (hd : u.drain = false) (hread : r.write = false) (raw : Bool) : choose raw u = some r := by
  have hfree : ((u.reads ++ u.writes).filter fun q => mayIssue raw u q && !u.burst.contains q.rank) = [r] := by
    simp [hr, hw, hb, mayIssue_only hr hw ht ho raw]
  rw [choose, hfree]
  cases hopen : rowOpen u r <;> simp [hd, hread, hopen, oldest]

/-- A read that is issued leaves its queue and is in flight (R340). -/
theorem issueReq_read (h : SubAt d c k x u) {r : DramReq} (hread : r.write = false) (hnew : ∀ q ∈ u.flight, q.ord ≠ r.ord)
    (cyc : Nat) (replayed : Bool) :
    ∃ y v, SubAt (issueReq d c k cyc r replayed) c k y v ∧ v.reads = (u.reads.filter fun q => q.ord ≠ r.ord) ∧ r ∈ v.flight := by
  rw [issueReq, if_neg (by simp [hread])]
  refine ⟨_, _, h.modSub _, rfl, ?_⟩
  have hfree : ¬(r.write || (u.flight.any fun q => q.ord = r.ord)) = true := by simpa [hread] using hnew
  dsimp only
  rw [if_neg hfree]
  exact List.mem_append_right _ (List.mem_singleton_self r)

/-- The read whose row is open is issued when it is the only request (R340). -/
theorem issueSlot_read (h : SubAt d c k x u) (hx : x.st = .ready) (ha : u.alert = false) (now : Nat) {r : DramReq}
    (hb : u.burst = []) (hp : u.replay = []) (hw : u.writes = []) (hr : u.reads = [r]) (hd : u.drain = false)
    (hread : r.write = false) (hopen : rowOpen u r = true) (ht : u.retry = []) (ho : u.inOrder = [])
    (hmark : 0 < regBits d (drc c 0) 21 16) (hnew : ∀ q ∈ u.flight, q.ord ≠ r.ord) :
    ∃ y v, SubAt (issueSlot c k now d) c k y v ∧ v.reads = [] ∧ r ∈ v.flight := by
  have hretry : (slotSub d c x u now).retry = [] := by simp [slotSub, setDrain, ht]
  have hdrain : (slotSub d c x u now).drain = false := by simp [slotSub, setDrain, hd, hw, hmark.ne']
  rw [issueSlot_chosen h hx ha now hb hp (choose_only (u := slotSub d c x u _) hr hw hretry ho hb hdrain hread _), serveReq,
    if_pos (show rowOpen (slotSub d c x u _) r = true from hopen)]
  obtain ⟨y, v, hv, hreads, hflight⟩ := issueReq_read (h.modSub fun _ => slotSub d c x u now) hread hnew (islandCycle d.dram now) false
  refine ⟨y, v, hv, hreads.trans ?_, hflight⟩
  have hq : (slotSub d c x u now).reads = [r] := hr
  simp [hq]

/-! ## Returned data -/

/-- The data that no error marks leave the channel with the read's tag (R346, R350). -/
theorem readData_returned (h : SubAt d c k x u) {tag : Nat} {r : DramReq} (hf : u.flight.find? (fun q => q.tag = tag) = some r)
    (hgo : dataWaits u r = false) (hclean : ∀ p ∈ x.injected, p.1 ≠ r.line) (day : Nat) :
    ∃ y v, SubAt (readData c k tag .ok day d) c k y v ∧ v.returned = u.returned ++ [(r.tag, cellOf x r.line)] ∧
      v.flight = u.flight.filter fun q => q.ord ≠ r.ord := by
  have hnone : x.injected.find? (fun p => p.1 = r.line) = none := List.find?_eq_none.2 fun p hp => by simpa using hclean p hp
  have hread : readData c k tag .ok day d = returnData d c k r (cellOf x r.line) := by
    rw [readData, onSub_at h, hf]
    dsimp only
    rw [if_neg (by rw [hgo]; exact Bool.false_ne_true), hnone]
  rw [hread]
  exact ⟨_, _, h.modSub _, rfl, rfl⟩

/-- While the alert window stands the data stay (R346). -/
theorem readData_waits (h : SubAt d c k x u) {tag : Nat} {r : DramReq} (hf : u.flight.find? (fun q => q.tag = tag) = some r)
    (hw : dataWaits u r = true) (found : DramFind) (day : Nat) : readData c k tag found day d = d := by
  rw [readData, onSub_at h, hf]
  exact if_pos hw

/-! ## Alerts -/

/-- An alert stops the subchannel and counts a replay (R346). -/
theorem alert_stops (h : SubAt d c k x u) (hx : x.st = .ready) (ha : u.alert = false) :
    ∃ y v, SubAt (alert c k d) c k y v ∧ v.alert = true ∧ v.replays = u.replays + 1 ∧ v.alertAt = u.cycle := by
  rw [alert, onSub_at h, if_neg (by simp [hx]), if_neg (by simp [ha])]
  dsimp only
  rw [if_neg (by simp [hx])]
  have hsub := h.modSub fun v => { v with alert := true, replays := v.replays + 1, alertAt := v.cycle }
  exact ⟨_, _, hsub.of_dram (by rw [raiseOp_dram, bump_dram]), rfl, rfl, rfl⟩

/-- Once an alert is released every bank is closed and the retry buffer waits to be replayed (R346). -/
theorem alertRelease_replays (h : SubAt d c k x u) (ha : u.alert = true) (hn : u.replays < 5) :
    ∃ y, SubAt (alertRelease c k d) c k y { u with alert := false, rows := [], replay := u.retry ++ u.replay, retry := [] } := by
  rw [alertRelease, onSub_at h, if_neg (by simp [ha]), if_neg (by omega)]
  exact ⟨_, h.modSub _⟩

end

/-! ## Temperature and injection -/

/-- The hottest sensor is kept, and the channel is throttled above its threshold (R352). -/
theorem dimmTemp_taken {d : Dev} {c : Nat} {x : Chan} (h : d.dram.chans[c]? = some x) {temps : List (Option Nat)} {t : Nat}
    (ht : t = temps.foldl (fun m s => max m (s.getD 95)) 0) :
    ∃ y, (dimmTemp c temps d).dram.chans[c]? = some y ∧ y.temp = min t 0xFE ∧
      y.throttled = decide (regBits d (drc c 0x30) 15 8 < t) := by
  subst ht
  refine ⟨{ x with temp := min _ 0xFE, throttled := decide (regBits d (drc c 0x30) 15 8 < _) }, ?_, rfl, rfl⟩
  rw [dimmTemp, h]
  dsimp only
  split
  · rw [raiseOp_dram]
    exact modAt_self h _
  · exact modAt_self h _

theorem armInj_armed {d : Dev} {c : Nat} {x : Chan} (h : d.dram.chans[c]? = some x) (hx : x.st ≠ .fault) (v : Word) :
    armInj c v d = (setReg d (drc c 0x28) (v &&& 0xFC00FFFF), 0) := by
  rw [armInj, h]
  exact if_neg hx

/-! ## The data rate -/

theorem drc_inj {c c' o o' : Nat} (ho : o < 0x2000) (ho' : o' < 0x2000) (h : drc c o = drc c' o') : c = c' ∧ o = o' := by
  simp only [drc, blockBase] at h
  omega

/-- Where a channel's shadow set begins: the set that is not in use (R353). -/
def shadowOff (x : Chan) : Nat := if x.setB then 0x100 else 0x200

/-- The shadow set of a channel takes timings (R353). -/
def loadSet (ts : List Word) (d : Dev) (y : Chan × Nat) : Dev :=
  ts.zipIdx.foldl (fun a t => setReg a (drc y.2 (shadowOff y.1 + 4 * t.2)) t.1) d

theorem loadRate_fits {d : Dev} {rate : Nat} (h : rateFits d.dram rate = true) (ts : List Word) :
    loadRate rate ts d = d.dram.chans.zipIdx.foldl (loadSet (ts.take 32)) (d.modDram fun m => { m with rateB := rate }) :=
  if_neg (by simp [h])

/-- A fold brings about what one of its steps does and no step undoes. -/
theorem foldl_reaches {α : Type} {Q : Dev → Prop} {f : Dev → α → Dev} {l : List α} {a : α} (ha : a ∈ l) (hset : ∀ d, Q (f d a))
    (hkeep : ∀ d, ∀ b ∈ l, Q d → Q (f d b)) (d : Dev) : Q (l.foldl f d) := by
  obtain ⟨before, after, rfl⟩ := List.append_of_mem ha
  rw [List.foldl_append, List.foldl_cons]
  exact List.foldlRecOn after f (hset _) fun e he b hb => hkeep e b (by simp [hb]) he

theorem loadSet_dram (ts : List Word) (d : Dev) (y : Chan × Nat) : (loadSet ts d y).dram = d.dram :=
  foldl_keeps (fun a => a.dram) (fun a (t : Word × Nat) => setReg a (drc y.2 (shadowOff y.1 + 4 * t.2)) t.1) (fun _ _ => rfl) _ d

/-- Each register of the set holds its timing. -/
theorem reg_loadSet {ts : List Word} {i : Nat} {w : Word} (hw : ts[i]? = some w) (y : Chan × Nat) (d : Dev) :
    reg (loadSet ts d y) (drc y.2 (shadowOff y.1 + 4 * i)) = w := by
  refine foldl_reaches (Q := fun a => reg a (drc y.2 (shadowOff y.1 + 4 * i)) = w) (a := (w, i)) (List.mem_zipIdx_iff_getElem?.2 hw)
    (fun a => (reg_setReg _ _ _ _).trans (if_pos rfl)) (fun a t ht ha => ?_) d
  rw [reg_setReg]
  split
  case isTrue heq =>
    obtain rfl : t.2 = i := by simp only [drc] at heq; omega
    exact Option.some.inj ((List.mem_zipIdx_iff_getElem?.1 ht).symm.trans hw)
  case isFalse => exact ha

/-- The timings go to the registers of their own channel. -/
theorem reg_loadSet_other {ts : List Word} (hlen : ts.length ≤ 32) {c o : Nat} (ho : o < 0x2000) {y : Chan × Nat} (hc : y.2 ≠ c) (d : Dev) :
    reg (loadSet ts d y) (drc c o) = reg d (drc c o) := by
  refine List.foldlRecOn _ _ (motive := fun a => reg a (drc c o) = reg d (drc c o)) rfl fun a ha t ht => ?_
  have ht : t.2 < ts.length := List.snd_lt_of_mem_zipIdx ht
  have hoff : shadowOff y.1 ≤ 0x200 := by unfold shadowOff; split <;> omega
  rw [reg_setReg, if_neg fun heq => hc (drc_inj (by omega) ho heq).1, ha]

theorem loadRate_dram {d : Dev} {rate : Nat} (h : rateFits d.dram rate = true) (ts : List Word) :
    (loadRate rate ts d).dram = { d.dram with rateB := rate } := by
  rw [loadRate_fits h, foldl_keeps (fun a => a.dram) _ (loadSet_dram _)]
  rfl

/-- The shadow set of every channel holds the timings of the rate (R353). -/
theorem reg_loadRate {d : Dev} {rate : Nat} (h : rateFits d.dram rate = true) {c : Nat} {x : Chan} (hx : d.dram.chans[c]? = some x)
    {ts : List Word} {i : Nat} {w : Word} (hw : ts[i]? = some w) (hi : i < 32) :
    reg (loadRate rate ts d) (drc c (shadowOff x + 4 * i)) = w := by
  have hw32 : (ts.take 32)[i]? = some w := by rw [List.getElem?_take_of_lt hi, hw]
  have hoff : shadowOff x ≤ 0x200 := by unfold shadowOff; split <;> omega
  rw [loadRate_fits h]
  refine foldl_reaches (Q := fun a => reg a (drc c (shadowOff x + 4 * i)) = w) (List.mem_zipIdx_iff_getElem?.2 hx)
    (reg_loadSet hw32 (x, c)) (fun a y hy ha => ?_) _
  by_cases hc : y.2 = c
  · obtain ⟨z, n⟩ := y
    subst hc
    obtain rfl : z = x := Option.some.inj ((List.mem_zipIdx_iff_getElem?.1 hy).symm.trans hx)
    exact reg_loadSet hw32 _ a
  · rw [reg_loadSet_other (List.length_take_le _ _) (by omega) hc]
    exact ha

/-- A change to a trained rate starts when every channel is ready (R354). -/
theorem rateGo_starts {d : Dev} (hb : d.dram.busy = false) (hr : ∀ y ∈ d.dram.chans, y.st = .ready)
    (ht : d.dram.trained.contains d.dram.rateB = true) :
    rateGo d = d.modDram fun m => { m with busy := true, chans := m.chans.map fun y => { y with st := .freqChange } } := by
  have hall : (d.dram.chans.all fun y => y.st = .ready) = true := List.all_eq_true.2 fun y hy => decide_eq_true (hr y hy)
  rw [rateGo, if_neg (by simp [hb]), if_neg (by simp [hall]), if_neg (by rw [ht]; exact Bool.false_ne_true)]

/-- A change that comes about exchanges the rates, and no channel is in the change any more (R354). -/
theorem rateDone_exchanged {d : Dev} (hb : d.dram.busy = true) :
    (rateDone true d).dram.busy = false ∧ (rateDone true d).dram.result = .done ∧ (rateDone true d).dram.rateA = d.dram.rateB ∧
      (rateDone true d).dram.rateB = d.dram.rateA ∧ ∀ y ∈ (rateDone true d).dram.chans, y.st ≠ .freqChange := by
  rw [rateDone, if_neg (by simp [hb]), raiseOp_dram]
  refine ⟨rfl, rfl, rfl, rfl, fun y hy => ?_⟩
  obtain ⟨z, -, rfl⟩ := List.mem_map.1 hy
  split
  · exact ChanState.noConfusion
  · assumption

/-- A command of a register whose access is open runs its effect and answers. -/
theorem runs_command {s : State} {i : Instr} {p : Principal} {a : Nat} {f : Dev → Dev × Nat} {e : Dev} {P : Dev → Prop}
    (ho : Open s.dev p a) (hx : exec i s = onDev (command p a f) s) (he : f s.dev = (e, 0)) (h : P (answer e p a true .done 0 0)) :
    Runs i s P :=
  ⟨_, hx, by rw [command_open ho.1 ho.2, he]; exact h⟩

/-- Settles O49: each command by the lemma about what it does in the state that the clause names. -/
theorem dramChannelsServe : Obligations.DramChannelsServe := by
  intro s c k x u h
  refine ⟨?_, fun now hx ha => ⟨fun r rest hb hr => ?_, ?_⟩, fun now => ?_, fun rank hx hr => ?_, fun rank bank => ?_,
    fun tag day r hf hgo hclean => ?_, fun tag day r f hf hw => ?_, fun hx ha => ?_, fun ha hn => ?_, fun temps t ht => ?_, ?_,
    fun p v ho hx => ?_, fun p ho => ⟨fun rate timings hfit => ?_, fun hb hr ht => ?_⟩, fun hb => ?_⟩
  · rintro tag port w line rank bank row now data q rfl hx hlen
    exact ⟨_, rfl, dramAsk_queued h hx _ hlen⟩
  · exact ⟨_, rfl, issueSlot_refreshed h hx ha now hb hr⟩
  · intro r hb hp hw hr hd hread hopen ht ho hmark hnew
    exact ⟨_, rfl, issueSlot_read h hx ha now hb hp hw hr hd hread hopen ht ho hmark hnew⟩
  · exact ⟨_, rfl, raiseUrgency_raised h now⟩
  · exact ⟨_, rfl, refreshDue_owed h hx hr⟩
  · exact ⟨_, rfl, rowIdle_closed h rank bank⟩
  · exact ⟨_, rfl, readData_returned h hf hgo hclean day⟩
  · exact becomes_of rfl (readData_waits h hf hw f day)
  · exact ⟨_, rfl, alert_stops h hx ha⟩
  · exact ⟨_, rfl, alertRelease_replays h ha hn⟩
  · exact ⟨_, rfl, dimmTemp_taken h.1 ht⟩
  · exact ⟨leakCe c s.dev, rfl, modAt_self h.1 _⟩
  · exact runs_command ho rfl (armInj_armed h.1 hx v) ⟨by rw [reg_answer, reg_setReg, if_pos rfl], rfl⟩
  · have hB := congrArg Dram.rateB (loadRate_dram hfit timings)
    have hA := congrArg Dram.rateA (loadRate_dram hfit timings)
    refine runs_command ho rfl rfl ⟨hB, hA, fun i w hw hi => ?_⟩
    exact reg_loadRate hfit h.1 hw hi
  · refine runs_command ho rfl (congrArg (·, 0) (rateGo_starts hb hr ht)) ⟨rfl, fun y hy => ?_⟩
    obtain ⟨z, -, rfl⟩ := List.mem_map.1 hy
    rfl
  · exact ⟨_, rfl, rateDone_exchanged hb⟩

end Sys2Proof.Machine
end

section
/-! SUPPORT. Every command completes (log 3), a command outside `writesMem` leaves the memory, and every command keeps the memory's
canonical form (log 9): the statements about the machine as a whole. -/
namespace Sys2Proof.Machine

/-! ## Every command completes -/

/-- No command stops the machine: each turns the device into another and leaves the queue. -/
theorem exec_completes (c : Instr) (s : State) : ∃ d, Becomes c s d := by
  cases c <;> exact ⟨_, rfl⟩

theorem step_cons (c : Instr) (rest : List Instr) (d : Dev) :
    step { pending := c :: rest, dev := d } = exec c { pending := rest, dev := d } := rfl

/-- Settles O1: the first equation of `step`. -/
theorem stepRunsFrontCommand : Obligations.StepRunsFrontCommand := step_cons

/-- A run goes on from the state after its first step. -/
theorem run_succ {s t : State} (n : Nat) (h : step s = .next t) : Host.Core.run core (n + 1) s = Host.Core.run core n t := by
  have hs : core.step s = .next t := h
  simp only [Host.Core.run, hs]

/-- Settles O2, by induction on the commands in front: the first completes, and the others run on the device that it leaves. -/
theorem queueRunsInOrder : Obligations.QueueRunsInOrder := by
  intro cs rest
  induction cs with
  | nil => exact fun d => ⟨d, rfl⟩
  | cons c cs ih =>
    intro d
    obtain ⟨d1, h1⟩ := exec_completes c { pending := cs ++ rest, dev := d }
    obtain ⟨e, he⟩ := ih d1
    exact ⟨e, (run_succ (s := { pending := c :: (cs ++ rest), dev := d }) cs.length h1).trans he⟩

/-- Settles O4: the memory after reset lists no byte. -/
theorem resetMemoryIsEmpty : Obligations.ResetMemoryIsEmpty := ⟨memWf_nil, fun _ => rfl, rfl⟩

/-! ## Commands that leave the memory -/

/-- A command outside `writesMem` leaves the memory as it is: its effect is built of operations that do. -/
theorem exec_mem (c : Instr) (s : State) (h : writesMem c = false) : Runs c s fun d => d.mem = s.dev.mem := by
  cases c <;> cases h
  case ackDelayExpiry conn path =>
    refine ⟨_, rfl, ?_⟩
    dsimp only
    split
    · split
      · exact ite_mem (by simp)
      · rfl
    · rfl
  case i3cRstdaa => exact ⟨_, rfl, onBus_mem _ _ fun _ => rfl⟩
  case i3cSetdasa => exact ⟨_, rfl, onBus_mem _ _ fun _ => ite_mem (by simp)⟩
  case recoverBegin => exact ⟨_, rfl, command_mem _ _ _ _ fun _ => updCmd_mem _ _ fun _ => inRecovery_mem _ _ _ recoverBegin_mem⟩
  case secAlarmCfgWrite => exact ⟨_, rfl, command_mem _ _ _ _ fun _ => rfl⟩
  case arpRequest | neighborSolicitation | arpReply | neighborAdvertisement | ptpMessage | helloInterval =>
    exact ⟨_, rfl, ite_mem (by simp)⟩
  case strangerFrame =>
    refine ⟨_, rfl, ?_⟩
    dsimp only
    split <;> simp
  all_goals exact ⟨_, rfl, by simp⟩

/-- Settles O5: what leaves the memory leaves every byte of it. -/
theorem memoryFrame : Obligations.MemoryFrame := by
  intro c s h
  obtain ⟨d, hd, hm⟩ := exec_mem c s h
  exact ⟨d, hd, fun a => congrArg (readByte · a) hm⟩

/-! ## Commands that keep the canonical form -/

theorem wf_of_mem {d e : Dev} (h : e.mem = d.mem) (hd : memWf d.mem = true) : memWf e.mem = true := by rw [h]; exact hd

theorem ite_wf {c : Prop} [Decidable c] {a b : Dev} (ha : memWf a.mem = true) (hb : memWf b.mem = true) :
    memWf (if c then a else b).mem = true := by
  split
  · exact ha
  · exact hb

/-- A command that may write memory keeps the canonical form. -/
theorem exec_wf_of_writesMem (c : Instr) (s : State) (h : writesMem c = true) (hm : memWf s.dev.mem = true) :
    Runs c s fun d => memWf d.mem = true := by
  cases c <;> cases h
  case regWrite | regRead => exact ⟨_, rfl, regAccess_wf _ _ _ hm⟩
  case i3cWriteValue a v => exact ⟨_, rfl, onBus_wf _ _ (i3cStore_wf a v) hm⟩
  case i3cRead => exact ⟨_, rfl, onBus_wf _ _ i3cLoad_wf hm⟩
  case budgetUpdate => exact ⟨_, rfl, budgetUpdate_wf _ hm⟩
  case format | createFold | destroyFold | createRegion | destroyRegion | setPerm | grant | revoke | commit =>
    exact ⟨_, rfl, command_wf _ _ _ _ (rmaWrite_wf _ _ _ _) hm⟩
  case destroyFoldDrainDone | commitDrainDone => exact ⟨_, rfl, ite_wf (settleFully_wf _ hm) hm⟩
  case generationDrained => exact ⟨_, rfl, genDrained_wf _ _ hm⟩
  case budgetAdmission => exact ⟨_, rfl, settleFully_wf _ (wf_of_mem (admitAll_mem _) hm)⟩
  case orderStamp => exact ⟨_, rfl, settleFully_wf _ (orderStamp_wf _ _ _ _ hm)⟩
  case read | write | writeZero | copy | cas | fetchAdd | swap | persist | logAppend | snapshot | clone | wait | health | nop =>
    exact ⟨_, rfl, advanceAs_wf _ _ _ _ _ _ hm⟩
  case datapathChunk => exact ⟨_, rfl, chunkTurn_wf _ _ hm⟩
  case disableDrain | disableAbort | connRelease | connQuery => exact ⟨_, rfl, command_wf _ _ _ _ (connCmd_wf _ _) hm⟩
  case enrol => exact ⟨_, rfl, command_wf _ _ _ _ (credCmd_wf _ _ _) hm⟩
  case credRevoke => exact ⟨_, rfl, command_wf _ _ _ _ (credCmd_wf _ _ _) hm⟩
  case twlRecordsFrame => exact ⟨_, rfl, twFrame_wf _ _ _ (fun x => takeRecords_wf _ _ _ _ x takeRec_wf) hm⟩
  case linkAck => exact ⟨_, rfl, twFrame_wf _ _ _ (fun d => wf_of_mem (beatOn_mem true d)) hm⟩
  case hello => exact ⟨_, rfl, takeHello_wf _ _ hm⟩
  case opRec | groupRec | ctrlRec | endRec | indexRec | rdataRec | levelRec | leafRec | resyncSet | fin | repair | ready | leave | ports =>
    exact ⟨_, rfl, recArrives_wf _ _ (fun _ h => handleRec_wf _ _ h) hm⟩
  case handover => exact ⟨_, rfl, recArrives_wf _ _ (fun _ h => handleRec_wf (drawChoice _ 2).2 _ h) hm⟩
  case regReq | regRsp => exact ⟨_, rfl, recArrives_wf _ _ (fun x => takeRec_wf x _) hm⟩
  case witnessGrant => exact ⟨_, rfl, witGrant_wf _ _ hm⟩
  case witnessDone => exact ⟨_, rfl, witDone_wf _ _ hm⟩
  case leaseEnd => exact ⟨_, rfl, leaseOver_wf _ hm⟩
  case reseedDrainDone => exact ⟨_, rfl, reseedDrained_wf _ hm⟩
  case clearOverride => exact ⟨_, rfl, twnCmd_wf _ _ _ clearOverride_wf hm⟩
  case openWindow | closeWindow => exact ⟨_, rfl, twnCmd_wf _ _ _ (setWindow_wf _) hm⟩
  case dischargeTestStart => exact ⟨_, rfl, testStart_wf _ hm⟩
  case acceptLoss => exact ⟨_, rfl, command_wf _ _ _ _ (acceptLoss_wf _) hm⟩
  case mainOkFall => exact ⟨_, rfl, mainFall_wf _ hm⟩
  case mainOkRise => exact ⟨_, rfl, mainRise_wf _ hm⟩
  case saveStampedWorkDone => exact ⟨_, rfl, workDone_wf _ hm⟩
  case imageRelease => exact ⟨_, rfl, settleFully_wf _ (wf_of_mem (imageRelease_mem _ _) hm)⟩
  case ftlDrain => exact ⟨_, rfl, settleFully_wf _ (wf_of_mem (drain_mem _ _) hm)⟩
  case flashProgramComplete => exact ⟨_, rfl, settleFully_wf _ (wf_of_mem (programDone_mem _ _ _) hm)⟩
  case dramAlertRelease => exact ⟨_, rfl, alertRelease_wf _ _ _ hm⟩
  case mergeEntryRetire => exact ⟨_, rfl, mergeRetire_wf _ _ _ _ _ hm⟩
  case scrubRead => exact ⟨_, rfl, scrub_wf _ _ _ _ _ hm⟩
  case alarmClassA | alarmClassB => exact ⟨_, rfl, alarmRow_wf _ _ _ hm⟩
  case clear => exact ⟨_, rfl, command_wf _ _ _ _ (secCmd_wf _ · clearLockout_wf) hm⟩
  case generate | load | unload | destroy | keyQuery => exact ⟨_, rfl, command_wf _ _ _ _ (keyCmd_wf _ _) hm⟩
  case cipherLaneJob => exact ⟨_, rfl, laneJob_wf _ _ _ _ _ hm⟩
  case drbgStop => exact ⟨_, rfl, drbgStopped_wf _ hm⟩
  case pwronRstNRise => exact ⟨_, rfl, pwronRise_wf _ _ hm⟩
  case pwronRstNFall => exact ⟨_, rfl, pwronFall_wf _ hm⟩
  case activate => exact ⟨_, rfl, command_wf _ _ _ _ (updCmd_wf _ · activate_wf) hm⟩
  case activateReload => exact ⟨_, rfl, reload_wf _ hm⟩
  case revert => exact ⟨_, rfl, command_wf _ _ _ _ (updCmd_wf _ · revert_wf) hm⟩
  case recoverEnd => exact ⟨_, rfl, command_wf _ _ _ _ (updCmd_wf _ · (inRecovery_wf _ _ · recoverEnd_wf)) hm⟩
  case settleExpiry => exact ⟨_, rfl, settled_wf _ _ hm⟩
  case downMsExpiry => exact ⟨_, rfl, downExpiry_wf _ hm⟩
  case minOffExpiry => exact ⟨_, rfl, minOffExpiry_wf _ hm⟩
  case off => exact ⟨_, rfl, command_wf _ _ _ _ (offCmd_wf _) hm⟩
  case on => exact ⟨_, rfl, command_wf _ _ _ _ (onRequest_wf _) hm⟩
  case railFault => exact ⟨_, rfl, railFault_wf _ _ _ _ hm⟩
  case tempConversion => exact ⟨_, rfl, tempConv_wf _ _ _ hm⟩
  case evtFoldRlWrite => exact ⟨_, rfl, command_wf _ _ _ _ (foldRlWrite_wf _) hm⟩
  case bind => exact ⟨_, rfl, command_wf _ _ _ _ (ringCmd_wf _ · ringBind_wf) hm⟩
  case unbind => exact ⟨_, rfl, command_wf _ _ _ _ (ringCmd_wf _ · ringUnbind_wf) hm⟩
  case warmRstNAssert => exact ⟨_, rfl, warmLow_wf _ hm⟩
  case warmResetQuiesced => exact ⟨_, rfl, warmQuiesced_wf _ hm⟩
  case galleryResetComplete => exact ⟨_, rfl, galleryDone_wf _ hm⟩
  case foldReset => exact ⟨_, rfl, command_wf _ _ _ _ (resetCmd_wf _ _ · foldCmd_wf) hm⟩
  case connectionReset => exact ⟨_, rfl, command_wf _ _ _ _ (resetCmd_wf _ _ · (connectionCmd_wf _)) hm⟩
  case stageCommit => exact ⟨_, rfl, command_wf _ _ _ _ (ownerOnly_wf _ _ · commitBank_wf) hm⟩
  case stageBankDrained => exact ⟨_, rfl, bankDrained_wf _ hm⟩
  case vddAonBrownOut => exact ⟨_, rfl, brownOut_wf _ hm⟩
  case warmResetStart => exact ⟨_, rfl, resetStart_wf _ hm⟩

/-- Every command keeps the canonical form of the memory. -/
theorem exec_wf (c : Instr) (s : State) (hm : memWf s.dev.mem = true) : Runs c s fun d => memWf d.mem = true := by
  cases h : writesMem c with
  | false =>
    obtain ⟨d, hd, he⟩ := exec_mem c s h
    exact ⟨d, hd, wf_of_mem he hm⟩
  | true => exact exec_wf_of_writesMem c s h hm

/-- Settles O3: a step is a command, which keeps the form, or idles, which leaves the memory. -/
theorem stepKeepsMemoryCanonical : Obligations.StepKeepsMemoryCanonical := by
  intro s t hm ht
  obtain ⟨_ | ⟨c, rest⟩, d⟩ := s
  · cases ht; exact hm
  · obtain ⟨e, he, hw⟩ := exec_wf c { pending := rest, dev := d } hm
    rw [step_cons, he] at ht
    cases ht; exact hw

end Sys2Proof.Machine
end

section
/-! SUPPORT. Transfers that only the I3C target sees, direct accesses of a plain register, the jobs of the public-key engine, and the
instructions of the test port (R22, R405 to R407, R534, R547, R548, R568), with the statements about them. -/
namespace Sys2Proof.Machine

/-! ## The I3C target -/

/-- A transfer to the powered target completes with its effect. -/
theorem becomes_onBus {c : Instr} {s : State} {f : Dev → Dev} {d : Dev} (hb : s.dev.pwr.pwron = true) (hx : exec c s = onDev (onBus f) s)
    (hf : f s.dev = d) : Becomes c s d :=
  becomes_of hx ((if_pos hb).trans hf)

/-- A target without a dynamic address takes one (R547). -/
theorem i3cTake_none {d : Dev} (h : d.i3c.dyn = none) (x : BitVec 7) :
    i3cTake x d = { d with i3c := { d.i3c with dyn := some x } } :=
  congrArg (fun t => { d with i3c := t }) (if_neg (by simp [h]))

/-- Settles O8: each command's effect is a change of the target alone. -/
theorem i3cTargetCommands : Obligations.I3cTargetCommands := by
  intro s hb
  refine ⟨fun a => becomes_onBus hb rfl rfl, fun x hx => ⟨?_, ?_⟩, becomes_onBus hb rfl rfl, becomes_onBus hb rfl rfl,
    becomes_onBus hb rfl rfl, becomes_onBus hb rfl rfl, becomes_onBus hb rfl rfl, becomes_onBus hb rfl rfl, becomes_onBus hb rfl rfl⟩
  · exact becomes_onBus hb rfl ((if_pos rfl).trans (i3cTake_none hx x))
  · exact becomes_onBus hb rfl (i3cTake_none hx x)

/-! ## A plain register -/

/-- GLB_RESET_TGT takes a plain write (R534). -/
theorem writeCore_resetTgt (p : Principal) (v : Word) (d : Dev) :
    writeCore p 0x60 v d = ({ dropLatch d p 0x60 with regs := plainWrite d.regs 0x60 v }, 0) := rfl

/-- It keeps its reserved bits, and no value of its 20 bits is out of range (R534). -/
theorem regVal_plainWrite_resetTgt (rs : List (Nat × Word)) (v : Word) (b : Nat) :
    regVal (plainWrite rs 0x60 v) b = if 0x60 = b then (regVal rs 0x60 &&& ~~~0xFFFFF) ||| (v &&& 0xFFFFF) else regVal rs b :=
  regVal_plainWrite rs 0x60 b v

/-- It is neither a counter nor a low half: its read changes nothing. -/
theorem readCore_resetTgt {d : Dev} {p : Principal} (hl : latchOf d p 0x60 = none) : readCore p 0x60 d = (d, .ok (reg d 0x60)) := by
  have ho : ¬ OwnRead 0x60 := by simp [OwnRead]
  rw [readCore_unlatched hl ho]
  rfl

/-- A read of a counter answers a value and leaves the memory, latched or not (R22). -/
theorem readCore_counter_ok {d : Dev} {p : Principal} {a : Nat} (hc : isCounter a = true) :
    ∃ e w, readCore p a d = (e, .ok w) ∧ e.mem = d.mem := by
  cases hl : latchOf d p a with
  | some w => exact ⟨_, w, readCore_latched hl, rfl⟩
  | none =>
    rw [readCore_counter hc hl]
    split
    · exact ⟨d, 0, rfl, rfl⟩
    · exact ⟨_, _, rfl, rfl⟩

/-- So does a read of a low half (R542). -/
theorem readCore_pair_ok {d : Dev} {p : Principal} {a : Nat} (hp : latchedBy a ≠ []) :
    ∃ e w, readCore p a d = (e, .ok w) ∧ e.mem = d.mem := by
  cases hl : latchOf d p a with
  | some w => exact ⟨_, w, readCore_latched hl, rfl⟩
  | none =>
    have ho : ¬ OwnRead a := fun h => hp (latchedBy_isCounter_of_ownRead h).2
    have hc : ¬ isCounter a = true := fun h => hp (latchedBy_of_isCounter h)
    rw [readCore_unlatched hl ho, if_neg hc]
    split
    · exact ⟨d, 0, rfl, rfl⟩
    · exact ⟨_, _, rfl, latch_mem _ _ _⟩

/-- Settles O10: GLB_RESET_TGT takes a plain write and reads as it stands; a counter and a low half always answer. -/
theorem registerWriteThenRead : Obligations.RegisterWriteThenRead := by
  intro s p
  refine ⟨fun v ho hl => ⟨?_, ?_⟩, fun a ho => ⟨fun hc => ?_, fun hp => ?_⟩⟩
  · refine runs_command ho rfl (writeCore_resetTgt p v s.dev) ⟨?_, fun a ha => ?_, rfl, answer_answer _ _ _ _ _ _ _⟩
    · exact regVal_plainWrite_resetTgt s.dev.regs v 0x60
    · exact (regVal_plainWrite_resetTgt s.dev.regs v a).trans (if_neg ha.symm)
  · refine ⟨_, rfl, ?_⟩
    have hr : regAccess false (.direct p 0x60 v) s.dev = _ := readAs_ok ho (readCore_resetTgt hl)
    rw [hr]
    exact ⟨rfl, rfl, answer_answer _ _ _ _ _ _ _⟩
  · obtain ⟨e, w, hr, hm⟩ := readCore_counter_ok (d := s.dev) (p := p) hc
    exact runs_rcRegisterRead ho hr ⟨hm, w, answer_answer _ _ _ _ _ _ _⟩
  · obtain ⟨e, w, hr, hm⟩ := readCore_pair_ok (d := s.dev) (p := p) hp
    exact runs_loRegisterRead ho hr ⟨hm, w, answer_answer _ _ _ _ _ _ _⟩

/-! ## The public-key engine -/

/-- The engine's input registers as they stand (R405). -/
def pkeInputs (d : Dev) : List Word := (List.range 64).map fun i => reg d (0x70100 + 4 * i)

/-- A job that starts takes the inputs and empties the output (R405, R418). -/
theorem pkeStart_idle {d : Dev} (h : d.sec.pke.job = none) (op : PkeOp) :
    pkeStart op d = (d.modSec fun s =>
      { s with pke := { job := some (op, pkeInputs d), valid := false, zero := false, status := .done, out := [] } }, 0) :=
  if_neg (by simp [h])

/-- A job that ends leaves what `pkeRun` finds (R406). -/
theorem pkeDone_running {d : Dev} {op : PkeOp} {xs : List Word} (h : d.sec.pke.job = some (op, xs)) :
    ∃ words, pkeDone d = d.modSec fun s => { s with pke :=
      { job := none, valid := (pkeRun op (inBytes xs)).valid, zero := (pkeRun op (inBytes xs)).zero,
        status := (pkeRun op (inBytes xs)).status, out := words } } := by
  unfold pkeDone
  rw [h]
  exact ⟨_, rfl⟩

theorem poolRefill_384 {d : Dev} (h : d.net.pool384 ≤ d.net.pool255) (hl : d.net.pool384 < 1024) :
    poolRefill d = d.modNet fun t => { t with pool384 := t.pool384 + 1 } :=
  congrArg (fun t => { d with net := t }) (if_pos (by simp [h, hl]))

theorem poolRefill_255 {d : Dev} (h : d.net.pool255 < d.net.pool384) (hl : d.net.pool255 < 1024) :
    poolRefill d = d.modNet fun t => { t with pool255 := t.pool255 + 1 } :=
  congrArg (fun t => { d with net := t }) ((if_neg (by simp; omega)).trans (if_pos hl))

/-- Settles O53: each job's start and end by its lemma. -/
theorem publicKeyJobsRun : Obligations.PublicKeyJobsRun := by
  rintro s ws rfl
  refine ⟨fun p ho hj => ⟨?_, ?_, ?_⟩, fun op xs hj => ?_, fun h hl => becomes_of rfl (poolRefill_384 h hl),
    fun h hl => becomes_of rfl (poolRefill_255 h hl)⟩
  · exact runs_command ho rfl (pkeStart_idle hj .ecdh384) ⟨rfl, rfl⟩
  · exact runs_command ho rfl (pkeStart_idle hj .x25519) ⟨rfl, rfl⟩
  · exact runs_command ho rfl (pkeStart_idle hj .verify384) ⟨rfl, rfl⟩
  · obtain ⟨words, h⟩ := pkeDone_running hj
    refine ⟨pkeDone s.dev, rfl, ?_⟩
    rw [h]
    exact ⟨rfl, rfl, rfl, rfl, rfl⟩

end Sys2Proof.Machine
end

section
/-! SUPPORT. What the configuration store's records leave of a device, the staging bank from OPEN to its end, and the instructions of
the test port (R430, R438, R440, R531 to R533, R568), with the statement about the bank and the port. -/
namespace Sys2Proof.Machine

/-! ## The configuration store -/

/-- The rest of a device after a record of the configuration store: the ledger, and what an event changes, may differ. -/
def StoreFrame (d e : Dev) : Prop := ∃ l r n v, e = { d with ldg := l, regs := r, net := n, evt := v }

theorem StoreFrame.refl (d : Dev) : StoreFrame d d := ⟨_, _, _, _, rfl⟩

theorem StoreFrame.trans {a b c : Dev} (h : StoreFrame a b) (k : StoreFrame b c) : StoreFrame a c := by
  obtain ⟨_, _, _, _, rfl⟩ := h
  obtain ⟨_, _, _, _, rfl⟩ := k
  exact ⟨_, _, _, _, rfl⟩

theorem EventFrame.store {d e : Dev} (h : EventFrame d e) : StoreFrame d e := by
  obtain ⟨_, _, _, rfl⟩ := h
  exact ⟨_, _, _, _, rfl⟩

theorem modLdg_store (d : Dev) (f : Ledger → Ledger) : StoreFrame d (d.modLdg f) := ⟨_, _, _, _, rfl⟩

theorem countErase_store (d : Dev) (sec : Nat) : StoreFrame d (countErase d sec) := by
  unfold countErase wearSector
  dsimp only
  split
  · exact (modLdg_store _ _).trans ((modLdg_store _ _).trans (raiseOp_frame _ _ _ _).store)
  · exact (modLdg_store _ _).trans (modLdg_store _ _)

theorem countErases_store (d : Dev) (sec n : Nat) : StoreFrame d (countErases d sec n) :=
  List.foldlRecOn (List.range n) _ (motive := StoreFrame d) (.refl d) fun _ h i _ => h.trans (countErase_store _ (sec + i))

theorem compactStore_store (d : Dev) : StoreFrame d (compactStore d) := by
  have h : StoreFrame d (countErases (d.modLdg fun l => { l with cfg := { l.cfg with written := standingBytes d } }) 3072
      (ceilDiv d.ldg.cfg.written 4032)) := (modLdg_store _ _).trans (countErases_store _ _ _)
  unfold compactStore
  dsimp only
  split
  · exact h.trans ((modLdg_store _ _).trans (raiseOp_frame _ _ _ _).store)
  · exact h.trans (modLdg_store _ _)

theorem wroteRecord_store (d : Dev) (body : Nat) : StoreFrame d (wroteRecord d body) := by
  unfold wroteRecord
  dsimp only
  split
  · exact (modLdg_store _ _).trans (compactStore_store _)
  · exact modLdg_store _ _

theorem storeShared_store (d : Dev) : StoreFrame d (storeShared d) := (modLdg_store _ _).trans (wroteRecord_store _ _)

/-- Writes of shared registers leave the resets and the bank (R532). -/
theorem applyConfig_rst (d : Dev) (ws : RegWrites) : (applyConfig d ws).rst = d.rst := by
  obtain ⟨_, _, _, _, h⟩ := storeShared_store (cfgChanged
    { d with regs := ws.foldl (fun rs w => if isShared w.1 && !portAbsent d w.1 then plainWrite rs w.1 w.2 else rs) d.regs })
  rw [applyConfig, h]
  rfl

/-- A CONFIG record that leaves at once leaves the resets and the bank. -/
theorem issueCtrl_config_rst {d : Dev} {ws : RegWrites} (h : ctrlReady d (.config ws) = true) : (issueCtrl d (.config ws)).rst = d.rst := by
  rw [issueCtrl_ready h]
  exact (applyConfig_rst _ _).trans (stampCtrl_rst _ _)

/-! ## The staging bank -/

/-- The resets and the bank once the bank's record has left (R532). -/
def bankSent (r : Rst) (flying : List (Nat × Word)) : Rst :=
  { r with bankOwner := none, bank := [], bankBusy := false, bankResult := .done, oldBank := flying }

/-- With nothing of the old bank left and no record that waits, the bank's record leaves and the bank closes (R532). -/
theorem sendBank_ready {d : Dev} (hu : underOld d = []) (hq : d.twin.ctrlDue = []) (hr : ctrlReady d (.config d.rst.bank) = true) :
    ∃ flying, (sendBank d).rst = bankSent d.rst flying := by
  have hs : canStamp d = true := by
    simp only [ctrlReady, Bool.and_eq_true] at hr
    exact hr.1.1
  unfold sendBank
  rw [if_neg (by simp [hu, hs, hq])]
  dsimp only
  rw [raiseOp_rst]
  exact ⟨_, issueCtrl_config_rst (d := d.modRst fun r => bankSent r _) hr⟩

/-- COMMIT of a bank that is whole, while the unit serves, sends its record (R532). -/
theorem commitBank_open {d : Dev} (hb : d.rst.bankBusy = false) (ho : d.rst.overflow = false) (hs : streamRefused d = none) :
    commitBank d = sendBank d := by
  unfold commitBank
  rw [if_neg (by simp [hb]), if_neg (by simp [ho, hs])]

/-- A COMMIT that waits tries again once the old work has drained (R532). -/
theorem bankDrained_waiting {d : Dev} (hb : d.rst.bankBusy = true) (hs : streamRefused d = none) (hu : underOld d = []) :
    bankDrained d = sendBank d := by
  unfold bankDrained
  rw [if_neg (by simp [hb]), if_neg (by simp [hs]), if_neg (by simp [hu])]

theorem abandonBank_rst (d : Dev) : (abandonBank d).rst =
    { d.rst with bankOwner := none, bank := [], overflow := false, bankBusy := false, bankResult := .done } := by
  rw [abandonBank, raiseOp_rst]
  rfl

/-- An owned bank lapses, unless its COMMIT waits (R531). -/
theorem bankLapse_rst {d : Dev} {p : Principal} (ho : d.rst.bankOwner = some p) (hb : d.rst.bankBusy = false) : (bankLapse d).rst =
    { d.rst with bankOwner := none, bank := [], overflow := false, bankBusy := false, bankResult := .lapsed } := by
  rw [bankLapse, if_pos (by simp [ho, hb]), lapseBank, if_neg (by simp [ho]), raiseOp_rst]
  rfl

theorem stageOpen_free {d : Dev} (h : d.rst.bankOwner = none) (p : Principal) : stageOpen p d =
    (d.modRst fun r => { r with bankOwner := some p, bank := [], overflow := false, bankResult := .done }, 0) := by
  unfold stageOpen
  rw [h]

/-- OPEN while another principal owns the bank (R531). -/
theorem stageOpen_owned {d : Dev} {p q : Principal} (h : d.rst.bankOwner = some q) (hq : q ≠ p) :
    stageOpen p d = (d.modRst fun r => { r with bankResult := .owned }, 0) := by
  unfold stageOpen
  rw [h]
  exact congrArg (fun r => (d.modRst fun x => { x with bankResult := r }, 0)) (if_neg hq)

theorem ownerOnly_owned {d : Dev} {p q : Principal} (h : d.rst.bankOwner = some q) (hq : q ≠ p) (f : Dev → Dev) :
    ownerOnly p f d = (d.modRst fun r => { r with bankResult := .owned }, 0) := by
  unfold ownerOnly
  rw [h]
  exact congrArg (·, 0) (if_neg hq)

theorem ownerOnly_owner {d : Dev} {p : Principal} (h : d.rst.bankOwner = some p) (f : Dev → Dev) : ownerOnly p f d = (f d, 0) := by
  unfold ownerOnly
  rw [h]
  exact congrArg (·, 0) (if_pos rfl)

/-! ## The test port -/

theorem loadTap_open {d : Dev} (h : tapOpen d = true) (i : JtagIr) : loadTap i d = { d with jtag := i } :=
  congrArg (fun i => { d with jtag := i }) (if_pos h)

theorem loadTap_closed {d : Dev} (h : tapOpen d = false) (i : JtagIr) : loadTap i d = { d with jtag := .bypass } :=
  congrArg (fun i => { d with jtag := i }) (if_neg (by simp [h]))

/-- Settles O60: each command of the bank by its owner, each instruction by whether the port is open. -/
theorem theBankHasOneOwner : Obligations.TheBankHasOneOwner := by
  intro s p
  refine ⟨fun ho => ⟨fun hf => ?_, fun q hq hp => ⟨?_, ?_, ?_⟩, fun hown => ⟨fun hb hv hs hu hd hr => ?_, ?_⟩⟩, fun hown hb => ?_,
    fun hb hs hu hd hr => ?_, rfl, rfl, fun ht => ?_, fun ht => ?_⟩
  · exact runs_command ho rfl (stageOpen_free hf p) rfl
  · exact runs_command ho rfl (stageOpen_owned hq hp) rfl
  · exact runs_command ho rfl (ownerOnly_owned hq hp _) rfl
  · exact runs_command ho rfl (ownerOnly_owned hq hp _) rfl
  · obtain ⟨fl, h⟩ := sendBank_ready hu hd hr
    refine runs_command ho rfl ((ownerOnly_owner hown _).trans (congrArg (·, 0) (commitBank_open hb hv hs))) ?_
    have he : (answer (sendBank s.dev) p 0x70 true .done 0 0).rst = bankSent s.dev.rst fl := h
    rw [he]
    exact ⟨rfl, rfl, rfl, rfl⟩
  · exact runs_command ho rfl (ownerOnly_owner hown _) (abandonBank_rst s.dev)
  · exact ⟨_, rfl, bankLapse_rst hown hb⟩
  · obtain ⟨fl, h⟩ := sendBank_ready hu hd hr
    refine ⟨_, becomes_of rfl (bankDrained_waiting hb hs hu), ?_⟩
    dsimp only
    rw [h]
    exact ⟨rfl, rfl, rfl, rfl⟩
  · have h (i : JtagIr) : loadTap i s.dev = { s.dev with jtag := i } := loadTap_open ht i
    exact ⟨becomes_of rfl (h _), becomes_of rfl (h _), becomes_of rfl (h _), becomes_of rfl (h _), becomes_of rfl (h _), becomes_of rfl (h _)⟩
  · have h (i : JtagIr) : loadTap i s.dev = { s.dev with jtag := .bypass } := loadTap_closed ht i
    exact ⟨becomes_of rfl (h _), becomes_of rfl (h _), becomes_of rfl (h _)⟩

end Sys2Proof.Machine
end

section
/-! SUPPORT. A write-back that is acknowledged while the slice holds the line a second time (R365, R369): the counterexample to the
statement about the hall. -/
namespace Sys2Proof.Machine

/-! ## A request that waits evicts a line that fills its set -/

@[simp] theorem modSlice_frames (d : Dev) (s : Nat) (f : Slice → Slice) : (modSlice d s f).hall.frames = d.hall.frames := rfl

theorem slices_modSlice {d : Dev} {s : Nat} {u : Slice} (h : d.hall.slices[s]? = some u) (f : Slice → Slice) :
    (modSlice d s f).hall.slices[s]? = some (f u) := modAt_self h f

/-- A fill of a line that the victim cache does not hold reads its frame and writes none (R369). -/
theorem fetchLine_frames {d : Dev} {s line : Nat} {u : Slice} (h : d.hall.slices[s]? = some u) (hv : ∀ v ∈ u.victim, v.entry.line ≠ line) :
    (fetchLine d s line).hall.frames = d.hall.frames := by
  have hf : u.victim.find? (fun v => v.entry.line = line) = none := List.find?_eq_none.2 fun v hm => by simp [hv v hm]
  unfold fetchLine
  rw [h]
  dsimp only
  rw [hf]
  rfl

/-- A slice all of whose lines are one line `x`, as often as a set has ways, in the set of the line `other`. -/
structure Crowded (u : Slice) (x : SliceLine) (other : Nat) : Prop where
  lines : u.lines = List.replicate 12 x
  idle : u.txns = []
  unheld : x.presence = 0
  changed : x.modified = true
  differs : x.line ≠ other
  sameSet : Config.sliceSet x.line % 8192 = Config.sliceSet other % 8192
  victim : ∀ v ∈ u.victim, v.entry.line ≠ other

section
variable {u : Slice} {x : SliceLine} {other : Nat} (h : Crowded u x other)
include h

theorem Crowded.findLine_other : findLine u other = none := by
  rw [findLine, h.lines]
  exact List.find?_eq_none.2 fun y hy => by rw [List.eq_of_mem_replicate hy]; simp [h.differs]

theorem Crowded.sameSet_other : Machine.sameSet u other = List.replicate 12 x := by
  rw [Machine.sameSet, h.lines]
  exact List.filter_eq_self.2 fun y hy => by rw [List.eq_of_mem_replicate hy]; simp [h.sameSet]

theorem Crowded.victimWay_other (d : Dev) : victimWay d u other = some x := by
  unfold victimWay
  rw [h.sameSet_other, List.reverse_replicate]
  dsimp only
  split
  · rename_i y hy
    rw [List.eq_of_mem_replicate (List.mem_of_find?_eq_some hy)]
  · rfl

theorem Crowded.holders_nil : holders x = [] := by simp [holders, h.unheld]

/-- Without the victim cache the way that a fill evicts goes to its frame (R365). -/
theorem Crowded.evictLine_frames {d : Dev} (hv : vicEn d = false) (s : Nat) :
    ∃ e, evictLine d s u x = some e ∧ getKey e.hall.frames x.line = some x.data ∧
      e.hall.slices = (modSlice d s fun v => { v with lines := v.lines.filter fun y => y.line ≠ x.line }).hall.slices := by
  refine ⟨_, (if_pos (by simp [hv])).trans (congrArg some (if_pos h.changed)), ?_, rfl⟩
  exact getKey_putKey.trans (if_pos rfl)

theorem Crowded.askLine_frames {d : Dev} {s : Nat} (hs : d.hall.slices[s]? = some u) (hr : d.hall.run ≠ some .flushDisable)
    (hv : vicEn d = false) (pen : Nat) (owned : Bool) : getKey (askLine d s other pen owned).hall.frames x.line = some x.data := by
  obtain ⟨e, he, hf, hsl⟩ := h.evictLine_frames hv s
  have hreq : tryReq d s other pen owned = some (grantLine (fetchLine e s other) s other pen owned) := by
    unfold tryReq
    rw [hs]
    dsimp only
    rw [if_neg (by simp [h.idle, hr]), h.findLine_other]
    dsimp only
    rw [h.sameSet_other, if_neg (by simp), h.victimWay_other]
    dsimp only
    rw [if_neg (by simp [h.idle]), h.holders_nil, if_pos List.isEmpty_nil, he]
    rfl
  have hse : e.hall.slices[s]? = _ := hsl ▸ slices_modSlice hs _
  rw [askLine, hreq]
  exact (congrArg (getKey · x.line) (fetchLine_frames hse h.victim)).trans hf

end

/-! ## The counterexample -/

/-- A modified line that no pen holds. -/
def spareLine (line : Nat) (data : BitVec 512) : SliceLine :=
  { line := line, data := data, check := 0, poison := false, modified := true, presence := 0, owner := none }

/-- A slice that holds a line in all ways of a set and, with other bytes, in its victim cache with a write-back in flight, while a
request for another line of the set waits. -/
def crowdedSlice (line other : Nat) : Slice :=
  { lines := List.replicate 12 (spareLine line 1), victim := [{ entry := spareLine line 0, wb := true }], txns := [],
    wait := [(other, 0, false)], discard := [], msgs := [] }

/-- The same slice once the write-back has ended and the request has left its place. -/
def ackedSlice (line : Nat) : Slice :=
  { lines := List.replicate 12 (spareLine line 1), victim := [{ entry := { spareLine line 0 with modified := false }, wb := false }], txns := [],
    wait := [], discard := [], msgs := [] }

theorem ackedSlice_crowded {line other : Nat} (hne : line ≠ other)
    (hset : Config.sliceSet line % 8192 = Config.sliceSet other % 8192) : Crowded (ackedSlice line) (spareLine line 1) other where
  lines := rfl
  idle := rfl
  unheld := rfl
  changed := rfl
  differs := hne
  sameSet := hset
  victim := by simpa [ackedSlice, spareLine] using hne

/-- The part after reset with the hall cache off and every slice so. -/
def crowdedState (line other : Nat) : State :=
  { State.reset with dev := (setReg State.reset.dev 0x100000 0).modHall fun h =>
      { h with slices := List.replicate 16 (crowdedSlice line other) } }

theorem crowdedState_slices (line other : Nat) :
    (crowdedState line other).dev.hall.slices[sliceOf line]? = some (crowdedSlice line other) :=
  List.getElem?_replicate.trans (if_pos (Nat.mod_lt _ (by omega)))

theorem crowdedState_vicEn (line other : Nat) : vicEn (crowdedState line other).dev = false :=
  congrArg (BitVec.getLsbD · 30) ((reg_setReg State.reset.dev 0x100000 0x100000 0).trans (if_pos rfl))

/-- There are more lines than sets: two of them share one. -/
theorem exists_lines_sameSet : ∃ line other : Nat, line ≠ other ∧ Config.sliceSet line % 8192 = Config.sliceSet other % 8192 := by
  obtain ⟨a, b, hne, he⟩ := Finite.exists_ne_map_eq_of_infinite fun n : Nat => Fin.ofNat 8192 (Config.sliceSet n)
  exact ⟨a, b, hne, congrArg Fin.val he⟩

/-- The request that waits evicts the other copy of the line over the bytes that the write-back has brought to the frame. -/
theorem victimWritebackAck_crowded {line other : Nat} (hne : line ≠ other)
    (hset : Config.sliceSet line % 8192 = Config.sliceSet other % 8192) :
    getKey (pumpWait (victimAck (sliceOf line) line (crowdedState line other).dev) (sliceOf line)).hall.frames line = some 1 := by
  have hs := crowdedState_slices line other
  have hf : (crowdedSlice line other).victim.find? (fun v => v.entry.line = line && v.wb) = some { entry := spareLine line 0, wb := true } := by
    simp [crowdedSlice, spareLine]
  unfold victimAck
  rw [hs]
  dsimp only
  rw [hf]
  dsimp only
  set d1 := modSlice (toFrame (crowdedState line other).dev line (spareLine line 0).data) (sliceOf line) _ with hd1
  have h1 : d1.hall.slices[sliceOf line]? = _ :=
    slices_modSlice (d := toFrame (crowdedState line other).dev line (spareLine line 0).data) hs _
  unfold pumpWait
  rw [h1]
  refine (ackedSlice_crowded hne hset).askLine_frames ((slices_modSlice h1 _).trans ?_) (by simp [hd1, crowdedState, modSlice, toFrame, Dev.modHall]; decide) ?_ 0 false
  · simp [crowdedSlice, ackedSlice, spareLine]
  · exact crowdedState_vicEn line other

/-- Refutes O50: the clause of VICTIM_WRITEBACK_ACK admits a slice that holds the line outside its victim cache too, and then a
request that waits may evict that copy to the frame after the write-back. -/
theorem not_theHallKeepsCopies : ¬ Obligations.TheHallKeepsCopies := by
  intro h
  obtain ⟨line, other, hne, hset⟩ := exists_lines_sameSet
  obtain ⟨-, -, -, -, -, -, hv, -⟩ := h (crowdedState line other) 0 line { lines := [], evict := [] } (crowdedSlice line other) rfl (crowdedState_slices line other)
  obtain ⟨d, hd, -, hk⟩ := hv { entry := spareLine line 0, wb := true } (by simp [crowdedSlice, spareLine])
  have he : d = pumpWait (victimAck (sliceOf line) line (crowdedState line other).dev) (sliceOf line) := by
    injection hd with hd
    exact (congrArg State.dev hd).symm
  rw [he, victimWritebackAck_crowded hne hset] at hk
  have hk : some (1 : BitVec 512) = some 0 := hk
  exact absurd (BitVec.one_eq_zero_iff.1 (Option.some.inj hk)) (by decide)

end Sys2Proof.Machine
end

section
/-! SUPPORT. Leaving service in silence, the alarms and the authenticated clear (R404, R408 to R416), with the statement about them. -/
namespace Sys2Proof.Machine

/-! ## What a unit that leaves its pairing changes -/

/-- What leaving a pairing may change: registers, network, events, what was sent, the twin's state and the parts' resets. -/
def PairFrame (d e : Dev) : Prop := ∃ r n v l t w, e = { d with regs := r, net := n, evt := v, sent := l, twin := t, rst := w }

theorem PairFrame.refl (d : Dev) : PairFrame d d := ⟨_, _, _, _, _, _, rfl⟩

theorem PairFrame.trans {a b c : Dev} (h : PairFrame a b) (k : PairFrame b c) : PairFrame a c := by
  obtain ⟨_, _, _, _, _, _, rfl⟩ := h
  obtain ⟨_, _, _, _, _, _, rfl⟩ := k
  exact ⟨_, _, _, _, _, _, rfl⟩

theorem EventFrame.pair {d e : Dev} (h : EventFrame d e) : PairFrame d e := by
  obtain ⟨_, _, _, rfl⟩ := h
  exact ⟨_, _, _, _, _, _, rfl⟩

theorem LinkFalls.pair {d e : Dev} (h : LinkFalls d e) : PairFrame d e := by
  obtain ⟨_, _, _, _, _, rfl, -⟩ := h
  exact ⟨_, _, _, _, _, _, rfl⟩

theorem enterState_pair (d : Dev) (st : TwinState) : PairFrame d (enterState d st) := by
  unfold enterState
  split
  · exact .refl d
  · refine PairFrame.trans ?_ (raiseOp_frame _ _ _ _).pair
    split <;> exact ⟨_, _, _, _, _, _, rfl⟩

theorem leavePair_pair (d : Dev) : PairFrame d (leavePair d) := by
  obtain ⟨t, h⟩ := leavePair_frame d
  exact ⟨_, _, _, _, _, _, h⟩

/-- A unit that does not serve enters FENCED in silence (R404, R410). -/
theorem silence_pair {d : Dev} (h : serving d = false) : PairFrame d (silence d) := by
  have h1 : PairFrame d (enterState (leavePair d) .fenced) := (leavePair_pair d).trans (enterState_pair _ _)
  rw [silence, h, if_neg Bool.false_ne_true]
  split
  · exact h1.trans (twlDown_falls _ _).pair
  · exact h1

/-! ## The pools of key pairs -/

/-- The key pairs in hand (R407). -/
def keyPools (d : Dev) : Nat × Nat := (d.net.pool384, d.net.pool255)

theorem setConn_keyPools (d : Dev) (n : Nat) (c : Option Conn) : keyPools (setConn d n c) = keyPools d := rfl

theorem modConn_keyPools (d : Dev) (n : Nat) (f : Conn → Conn) : keyPools (modConn d n f) = keyPools d :=
  modConn_keeps setConn_keyPools d n f

theorem keyPools_stamp : StampKeeps keyPools where
  evt _ _ := rfl
  lost _ := rfl
  frame d n _ _ := modConn_keyPools d n _
  twin _ _ := rfl
  ldg _ _ := rfl
  dur _ _ := rfl
  ftl _ _ := rfl
  sent _ _ := rfl
  hall _ _ := rfl
  setup d n _ := modConn_keyPools d n _

theorem noteStore_keyPools (d : Dev) (n : Nat) (seq : Word) (st : Option Stamp) : keyPools (noteStore d n seq st) = keyPools d := by
  unfold noteStore
  cases getConn d n <;> rfl

theorem tellEnd_keyPools (d : Dev) (n : Nat) (c : Conn) (e : Entry) : keyPools (tellEnd d n c e) = keyPools d := by
  unfold tellEnd
  split
  · exact modConn_keyPools _ _ _
  · exact keyPools_stamp.tell _ _

theorem endCore_keyPools (d : Dev) (o : Op) (e : Entry) (x : Option (DWord × Word × List Byte)) : keyPools (endCore d o e x) = keyPools d := by
  have h0 : keyPools (dropOp d o.conn o.seq) = keyPools d := modConn_keyPools _ _ _
  unfold endCore
  dsimp only
  split
  · exact h0
  · have h1 (c : Option Conn) : keyPools (noteStore (setConn (dropOp d o.conn o.seq) o.conn c) o.conn o.seq o.stamp) = keyPools d :=
      (noteStore_keyPools _ _ _ _).trans h0
    split
    · have h2 (c : Option Conn) := (modConn_keyPools (noteStore (setConn (dropOp d o.conn o.seq) o.conn c) o.conn o.seq o.stamp) o.conn
        fun c => { c with twinWritten := c.twinWritten + 1 }).trans (h1 c)
      split
      · exact h2 _
      · exact (tellEnd_keyPools _ _ _ _).trans (h2 _)
    · exact h1 _

theorem wakeLoop_keyPools : ∀ (k : Nat) (d : Dev) (ts : List Nat), keyPools (wakeLoop k d ts) = keyPools d
  | 0, d, _ => by simp [wakeLoop]
  | _ + 1, d, [] => by simp [wakeLoop]
  | k + 1, d, t :: ts => by
    unfold wakeLoop
    split
    · exact wakeLoop_keyPools k d ts
    · split
      · exact (wakeLoop_keyPools k _ _).trans (endCore_keyPools _ _ _ _)
      · exact wakeLoop_keyPools k d ts

theorem twlDown_keyPools (lock : Bool) (d : Dev) : keyPools (twlDown lock d) = keyPools d := by
  unfold twlDown
  split
  · refine (foldl_keeps keyPools _ (fun a r => ?_) _ _).trans (keyPools_stamp.toEventKeeps.raiseOp _ _ _ _)
    split
    · exact (wakeLoop_keyPools _ _ _).trans (endCore_keyPools _ _ _ _)
    · rfl
  · rfl

theorem enterState_keyPools (d : Dev) (st : TwinState) : keyPools (enterState d st) = keyPools d := by
  unfold enterState
  split
  · rfl
  · refine (keyPools_stamp.toEventKeeps.raiseOp _ _ _ _).trans ?_
    split <;> rfl

theorem silence_keyPools {d : Dev} (h : serving d = false) : keyPools (silence d) = keyPools d := by
  have h1 : keyPools (enterState (leavePair d) .fenced) = keyPools d := by
    obtain ⟨t, ht⟩ := leavePair_frame d
    rw [enterState_keyPools, ht]
    rfl
  rw [silence, h, if_neg Bool.false_ne_true]
  split
  · exact (twlDown_keyPools _ _).trans h1
  · exact h1

/-! ## Sources that fire -/

theorem alarmRow_armed {d : Dev} {n : Nat} {b : Bool} (ha : armed d n = true) (hc : d.sec.cls.getLsbD n = b) :
    alarmRow b n d = if b then alarmB n d else alarmA n d := by
  rw [alarmRow, ha, hc, if_pos (by simp), fireSource, hc]

/-- Every armed source is one of the eight. -/
theorem armed_lt {d : Dev} {n : Nat} (h : armed d n = true) : n < 8 := by
  unfold armed at h
  split at h
  case h_9 => cases h
  all_goals omega

theorem fired_getLsbD {n : Nat} (h : n < 8) (x : BitVec 8) : (x ||| (1#8 <<< n)).getLsbD n = true := by
  simp [h]

/-- What a class A source does to a unit that does not serve (R410). -/
theorem alarmA_notServing {d : Dev} (n : Nat) (hs : serving d = false) :
    (alarmA n d).sec = zeroKeys n d.sec (d.dur.save ≠ .idle) ∧ keyPools (alarmA n d) = (0, 0) := by
  have hserve (e : Dev) (he : e.twin.st = d.twin.st) : serving e = false := by
    rw [← hs]
    simp only [serving, he]
  unfold alarmA
  extract_lets d1 d2
  have h2 : serving (raiseOp d2 0x0302 srcSEC [d2.sec.fired.toNat, d2.sec.alarmSeq]) = false := hserve _ (by rw [raiseOp_twin]; rfl)
  constructor
  · obtain ⟨_, _, _, _, _, _, h⟩ := silence_pair h2
    rw [h]
    exact raiseOp_sec _ _ _ _
  · exact (silence_keyPools h2).trans (keyPools_stamp.toEventKeeps.raiseOp _ _ _ _)

theorem noteSlots_sec (old d : Dev) : (noteSlots old d).sec = d.sec := by
  obtain ⟨r, h⟩ := noteSlots_ring old d
  rw [h]
  rfl

theorem eraseAll_sec (d : Dev) : (eraseAll d).sec =
    { d.sec with wkLedger := none, skLedger := none, dkStored := none, clearKey := none, sk := none, slots := [], bErased := true,
                 zeroing := true, saveMode := false } := by
  unfold eraseAll
  dsimp only
  rw [Dev.modLdg_sec, Dev.modEvt_sec, noteSlots_sec]
  rfl

/-- A class B source erases besides (R411). -/
theorem alarmB_sec {d : Dev} (n : Nat) (hs : d.dur.save = .idle) : (alarmB n d).sec =
    { (alarmA n d).sec with wkLedger := none, skLedger := none, dkStored := none, clearKey := none, sk := none, slots := [],
                            bErased := true, zeroing := true, saveMode := false } := by
  have h : alarmB n d = eraseAll (alarmA n d) := if_neg (by simp [hs])
  rw [h, eraseAll_sec]

/-- The erasure has ended (R411). -/
theorem zeroDone_zeroing {d : Dev} (h : d.sec.zeroing = true) : (zeroDone d).sec.zeroing = false ∧ (zeroDone d).hall.frames = [] ∧
    (∀ q ∈ (zeroDone d).hall.pens, q.lines = [] ∧ q.evict = []) ∧ ∀ c ∈ (zeroDone d).dram.chans, c.cells = [] := by
  rw [zeroDone, h, Bool.not_true, if_neg Bool.false_ne_true]
  dsimp only
  rw [raiseOp_sec, raiseOp_hall, raiseOp_dram]
  refine ⟨rfl, rfl, fun q hq => ?_, fun c hc => ?_⟩
  · obtain ⟨_, _, rfl⟩ := List.mem_map.1 hq
    exact ⟨rfl, rfl⟩
  · obtain ⟨_, _, rfl⟩ := List.mem_map.1 hc
    rfl

/-! ## The authenticated clear -/

/-- What every SEC_CMD that is not locked out leaves: no challenge, and no key input (R413). -/
def chalSpent (d : Dev) : Dev :=
  (List.range 8).foldl (fun b i => setReg b (0x60040 + 4 * i) 0) (d.modSec fun s => { s with chal := none })

theorem secCmd_unlocked {d : Dev} (h : d.sec.locked = false) (f : Dev → Dev) : secCmd f d = (chalSpent (f d), 0) :=
  if_neg (by simp [h])

@[simp] theorem chalSpent_sec (d : Dev) : (chalSpent d).sec = { d.sec with chal := none } :=
  foldl_keeps Dev.sec (fun b i => setReg b (0x60040 + 4 * i) 0) (fun _ _ => rfl) (List.range 8) (d.modSec fun s => { s with chal := none })

theorem reg_chalSpent (d : Dev) {i : Nat} (h : i < 8) : reg (chalSpent d) (0x60040 + 4 * i) = 0 :=
  (reg_foldl_clear (fun i => 0x60040 + 4 * i) _ _ _).trans (if_pos (List.mem_map_of_mem (List.mem_range.2 h)))

/-- The keys as the ledger and the control area give them (R393). -/
theorem loadKeys_sec (d : Dev) : (loadKeys d).sec =
    { d.sec with wk := d.sec.wkLedger, sk := if d.sec.wkLedger.isSome then d.sec.skLedger else none,
                 dk := if d.sec.wkLedger.isSome then d.sec.dkStored else none, kw := some (draw256 d).1,
                 secrets := d.sec.wkLedger.isSome && d.twin.ident.isSome } := by
  unfold loadKeys
  dsimp only
  split
  · exact raiseOp_sec _ _ _ _
  · rfl

theorem loadKeys_twin (d : Dev) : (loadKeys d).twin = d.twin := by
  unfold loadKeys
  dsimp only
  split
  · exact raiseOp_twin _ _ _ _
  · rfl

/-- With its link down a unit of a pair only draws a fresh NONCE to start again (R213, R240). -/
theorem startAgain_linkDown {d : Dev} (hi : d.twin.ident.isSome = true) (hl : d.twin.linkUp = false) : startAgain d = newNonce d := by
  obtain ⟨_, _, _, _, _, _, _, _, h⟩ := newNonce_frame d
  obtain ⟨i, hid⟩ := Option.isSome_iff_exists.1 hi
  rw [startAgain, hid, Option.isNone_some, if_neg Bool.false_ne_true, sendHello, h]
  dsimp only
  rw [hid, hl]
  rfl

theorem startAgain_linkDown_sec {d : Dev} (hi : d.twin.ident.isSome = true) (hl : d.twin.linkUp = false) : (startAgain d).sec = d.sec := by
  rw [startAgain_linkDown hi hl]
  obtain ⟨_, _, _, _, _, _, _, _, h⟩ := newNonce_frame d
  rw [h]

/-- CLEAR with a right MAC on a unit that had started (R414). -/
theorem clearLockout_served {d : Dev} (hl : d.sec.lockout = true) (hm : macOk d 1 0 = true) (hp : d.pwr.served = true)
    (hi : d.twin.ident.isSome = true) (hlink : d.twin.linkUp = false) :
    (clearLockout d).sec.lockout = false ∧ (clearLockout d).sec.fired = 0 ∧ (clearLockout d).sec.fails = 0 ∧
      (clearLockout d).sec.last = .done ∧ (clearLockout d).sec.wk = d.sec.wkLedger := by
  unfold clearLockout
  rw [hl, hm, Bool.not_true, if_neg Bool.false_ne_true, if_neg Bool.false_ne_true]
  extract_lets d1 d2
  have ht : (loadKeys d2).twin = d.twin := (loadKeys_twin d2).trans (raiseOp_twin _ _ _ _)
  rw [if_neg (by simp [hp]), startAgain_linkDown_sec (ht ▸ hi) (ht ▸ hlink), loadKeys_sec]
  dsimp only
  rw [raiseOp_sec]
  exact ⟨rfl, rfl, rfl, rfl, rfl⟩

theorem lowerClass_right {d : Dev} {m : BitVec 8} (h : macOk d 2 m = true) :
    (lowerClass m d).sec = { d.sec with cls := d.sec.cls &&& ~~~ m, last := .done, fails := 0 } := by
  rw [lowerClass, h, Bool.not_true, if_neg Bool.false_ne_true]
  exact raiseOp_sec _ _ _ _

theorem provisionClear_right {d : Dev} (hl : d.sec.lockout = false) (hm : d.sec.clearKey = none ∨ macOk d 3 0 = true) :
    (provisionClear d).sec = { d.sec with clearKey := some (keyIn d), last := .done, fails := 0 } := by
  have hk : (d.sec.clearKey.isSome && !macOk d 3 0) = false := by
    rcases hm with h | h
    · rw [h]
      rfl
    · rw [h]
      exact Bool.and_false _
  obtain ⟨_, _, _, _, h⟩ := wroteRecord_store (d.modSec fun s => { s with clearKey := some (keyIn d), last := .done, fails := 0 }) 120
  rw [provisionClear, hl, if_neg Bool.false_ne_true, hk, if_neg Bool.false_ne_true, h]
  rfl

/-- A read of SEC_CHAL0 draws a challenge (R413). -/
theorem chalRead_draws {d : Dev} (h : d.sec.drbgStop = false) : chalRead d =
    ((draw128 d).2.modSec fun s => { s with chal := some (draw128 d).1 }, .ok (((draw128 d).1 >>> (96 : Nat)).setWidth 32)) := by
  rw [chalRead, h, if_neg Bool.false_ne_true]

/-- Settles O51: each command by the lemma about what it leaves in the security state. -/
theorem alarmsLockOut : Obligations.AlarmsLockOut := by
  intro s
  refine ⟨fun n ha hc hs hq => ?_, fun n ha _ hc hs hq => ?_, fun h => ⟨_, rfl, zeroDone_zeroing h⟩,
    fun p ho hl => ⟨fun hlo hm _ hp hi hlink => ?_, fun m hm => ?_, fun hlo hm => ?_⟩, fun p ho hst => ?_,
    ⟨_, rfl, rfl, rfl⟩, ⟨_, rfl, rfl, rfl, rfl⟩, fun p v ho => runs_command ho rfl rfl ⟨rfl, rfl⟩⟩
  case refine_1 =>
    refine ⟨alarmA n s.dev, becomes_of rfl ((alarmRow_armed ha hc).trans (if_neg Bool.false_ne_true)), ?_⟩
    obtain ⟨hsec, hpool⟩ := alarmA_notServing n hs
    rw [hsec]
    exact ⟨rfl, rfl, rfl, congrArg Prod.fst hpool, congrArg Prod.snd hpool, fired_getLsbD (armed_lt ha) _⟩
  case refine_2 =>
    refine ⟨alarmB n s.dev, becomes_of rfl ((alarmRow_armed ha hc).trans (if_pos rfl)), ?_⟩
    dsimp only
    rw [alarmB_sec n hq, (alarmA_notServing n hs).1]
    exact ⟨rfl, rfl, rfl, rfl⟩
  case refine_3 =>
    obtain ⟨hlock, hfired, hfails, hlast, hwk⟩ := clearLockout_served hlo hm hp hi hlink
    refine runs_command ho rfl (secCmd_unlocked hl _) ?_
    dsimp only [answer]
    rw [chalSpent_sec]
    exact ⟨hlock, hfired, hfails, rfl, hlast, hwk⟩
  case refine_4 =>
    refine runs_command ho rfl (secCmd_unlocked hl _) ?_
    dsimp only [answer]
    rw [chalSpent_sec, lowerClass_right hm]
    exact ⟨rfl, rfl, rfl⟩
  case refine_5 =>
    refine runs_command ho rfl (secCmd_unlocked hl _) ?_
    have hsec := (chalSpent_sec (provisionClear s.dev)).trans (congrArg (fun x => { x with chal := none }) (provisionClear_right hlo hm))
    refine ⟨congrArg Sec.clearKey hsec, congrArg Sec.chal hsec, fun i hi => ?_⟩
    rw [reg_answer]
    exact reg_chalSpent _ hi
  case refine_6 =>
    refine ⟨readAs p 0x60010 chalRead s.dev, rfl, ?_⟩
    rw [readAs_ok ho (chalRead_draws hst)]
    exact ⟨⟨Config.free128 s.dev.freeIdx, rfl, rfl⟩, rfl⟩

end Sys2Proof.Machine
end

section
/-! SUPPORT. Slot keys, cipher lanes, masks and the generator (R394 to R404), with the statement about them. -/
namespace Sys2Proof.Machine

/-! ## Slot keys -/

/-- SEC_KEY_CMD names its slot and its result (R394). -/
def keyNamed (d : Dev) (k : Nat) (r : KeyResult) : Dev := d.modSec fun s => { s with keyNamed := k, keyResult := r }

theorem keyCmd_query {d : Dev} (hb : d.sec.keyBusy = false) (hl : d.sec.lockout = false) (k : Nat) :
    keyCmd .query k d = (keyNamed d k .done, 0) := by
  rw [keyCmd, hb, hl, Bool.or_false, if_neg Bool.false_ne_true]
  exact if_pos rfl

/-- The device from which a slot key command sends its record: GENERATE has drawn its key. -/
def keyDrawn (d : Dev) (cmd : KeyCmd) : BitVec 512 × Dev := if cmd = .generate then drawPair d else (0, d)

theorem keyCmd_allowed {d : Dev} (hb : d.sec.keyBusy = false) (hl : d.sec.lockout = false) (hs : serving d = true)
    (hr : d.twin.refusing = false) {cmd : KeyCmd} {k : Nat} (hq : cmd ≠ .query) (ha : keyAllowed d cmd k = .done) :
    keyCmd cmd k d = (issueCtrl (keyNamed (keyDrawn d cmd).2 k .done) (.keySlot cmd k (keyDrawn d cmd).1), 0) := by
  rw [keyCmd, hb, hl, Bool.or_false, if_neg Bool.false_ne_true]
  dsimp only
  rw [if_neg hq, hs, hr, Bool.not_true, Bool.or_false, if_neg Bool.false_ne_true, ha]
  rfl

theorem slotRegions_congr {d e : Dev} (hm : e.mem = d.mem) (hf : e.folds = d.folds) (k : Nat) : slotRegions e k = slotRegions d k := by
  unfold slotRegions regionDescs slotsOfFold isStaged
  rw [hm, hf]

/-- The slots after a slot key command, for a slot that encrypts so many regions (R394). -/
def keyedSlots (slots : List (Nat × BitVec 512 × Bool)) (regions : Nat) (cmd : KeyCmd) (k : Nat) (key : BitVec 512) :
    List (Nat × BitVec 512 × Bool) :=
  match cmd, getKey slots k with
  | .generate, none => putKey slots k (key, true)
  | .load, some (x, false) => putKey slots k (x, true)
  | .unload, some (x, true) => putKey slots k (x, false)
  | .destroy, some _ => if regions = 0 then delKey slots k else slots
  | _, _ => slots

section
variable {slots : List (Nat × BitVec 512 × Bool)} {k : Nat}

theorem getKey_keyedSlots_generate (h : getKey slots k = none) {n : Nat} {key : BitVec 512} :
    getKey (keyedSlots slots n .generate k key) k = some (key, true) := by
  unfold keyedSlots
  rw [h]
  exact getKey_putKey.trans (if_pos rfl)

theorem getKey_keyedSlots_load {x : BitVec 512} (h : getKey slots k = some (x, false)) {n : Nat} {key : BitVec 512} :
    getKey (keyedSlots slots n .load k key) k = some (x, true) := by
  unfold keyedSlots
  rw [h]
  exact getKey_putKey.trans (if_pos rfl)

theorem getKey_keyedSlots_unload {x : BitVec 512} (h : getKey slots k = some (x, true)) {n : Nat} {key : BitVec 512} :
    getKey (keyedSlots slots n .unload k key) k = some (x, false) := by
  unfold keyedSlots
  rw [h]
  exact getKey_putKey.trans (if_pos rfl)

theorem getKey_keyedSlots_destroy (h : (getKey slots k).isSome = true) {n : Nat} (hn : n = 0) {key : BitVec 512} :
    getKey (keyedSlots slots n .destroy k key) k = none := by
  obtain ⟨x, hx⟩ := Option.isSome_iff_exists.1 h
  unfold keyedSlots
  rw [hx, hn]
  exact getKey_delKey.trans (if_pos rfl)

end

theorem applyKey_slots (d : Dev) (cmd : KeyCmd) (k : Nat) (key : BitVec 512) :
    (applyKey d cmd k key).sec.slots = keyedSlots d.sec.slots (slotRegions d k) cmd k key := by
  unfold applyKey keyedSlots
  rw [Dev.modSec_sec]
  generalize getKey d.sec.slots k = held
  cases cmd with
  | generate => cases held <;> rfl
  | load | unload => rcases held with _ | ⟨x, _ | _⟩ <;> rfl
  | query => rfl
  | destroy =>
    cases held
    · rfl
    · exact apply_ite Sec.slots _ _ _

theorem markEnd_keySlot_slots (d : Dev) (cmd : KeyCmd) (k : Nat) (key : BitVec 512) (ok : Bool) :
    (markEnd d (.keySlot cmd k key) ok).sec.slots = d.sec.slots := rfl

theorem markEnd_keySlot_regions (d : Dev) (cmd : KeyCmd) (k j : Nat) (key : BitVec 512) (ok : Bool) :
    slotRegions (markEnd d (.keySlot cmd k key) ok) j = slotRegions d j :=
  slotRegions_congr (markEnd_mem d (.keySlot cmd k key) ok) rfl j

/-- A slot key command's record that is sent at once changes the slots as R394 says. -/
theorem issueCtrl_keySlot_slots {d : Dev} {cmd : KeyCmd} {k : Nat} {key : BitVec 512} (h : ctrlReady d (.keySlot cmd k key) = true) :
    (issueCtrl d (.keySlot cmd k key)).sec.slots = keyedSlots d.sec.slots (slotRegions d k) cmd k key := by
  rw [issueCtrl_ready h, applyCtrl, raiseOp_sec, applyKey_slots, markEnd_keySlot_regions,
    slotRegions_congr (stampCtrl_mem _ _) (stampCtrl_folds _ _), markEnd_keySlot_slots, stampCtrl_sec]

theorem Runs.mono {c : Instr} {s : State} {P Q : Dev → Prop} (h : Runs c s P) (hq : ∀ e, P e → Q e) : Runs c s Q := by
  obtain ⟨e, he, hp⟩ := h
  exact ⟨e, he, hq e hp⟩

/-- A slot key command that is allowed and need not wait (R394). -/
theorem runs_keyCmd {s : State} {p : Principal} {i : Instr} {cmd : KeyCmd} {k : Nat} {key : BitVec 512} (ho : Open s.dev p 0x60100)
    (hx : exec i s = onDev (command p 0x60100 (keyCmd cmd k)) s) (hb : s.dev.sec.keyBusy = false) (hl : s.dev.sec.lockout = false)
    (hs : serving s.dev = true) (hr : s.dev.twin.refusing = false) (hq : cmd ≠ .query) (ha : keyAllowed s.dev cmd k = .done)
    (hk : (keyDrawn s.dev cmd).1 = key) (hc : ctrlReady s.dev (.keySlot cmd k key) = true) :
    Runs i s fun e => e.sec.slots = keyedSlots s.dev.sec.slots (slotRegions s.dev k) cmd k key := by
  refine runs_command ho hx (keyCmd_allowed hb hl hs hr hq ha) ?_
  subst hk
  have hd : ∃ n, keyDrawn s.dev cmd = ((keyDrawn s.dev cmd).1, { s.dev with freeIdx := n }) := by
    unfold keyDrawn
    split <;> exact ⟨_, rfl⟩
  obtain ⟨n, hn⟩ := hd
  generalize (keyDrawn s.dev cmd).1 = key at hn hc ⊢
  rw [hn]
  exact issueCtrl_keySlot_slots (d := keyNamed { s.dev with freeIdx := n } k .done) hc

/-! ## Cipher lanes -/

/-- A lane that is at rest takes its job (R396, R401). -/
theorem laneJob_rest {d : Dev} {n : Nat} {l : Lane} (h : d.sec.lanes[n]? = some l) {prio : Nat} (hready : laneReady d l prio = true)
    (hr : l.run = none) (blocks : Nat) : (laneJob n prio blocks false d).sec.lanes[n]? =
      some { l with run := some { prio := prio, left := 0, suspNs := 0, retried := false }, susp := [], blocks := l.blocks + blocks,
                    stale := l.stale || decide (4096 ≤ l.blocks + blocks) } := by
  unfold laneJob
  rw [h]
  dsimp only
  rw [hready, Bool.not_true, if_neg Bool.false_ne_true, if_neg Bool.false_ne_true, laneRun, hr]
  exact modAt_self h _

theorem maskReseed_runs {d : Dev} {n : Nat} {l : Lane} (h : d.sec.lanes[n]? = some l) (hs : d.sec.drbgStop = false) :
    (maskReseed n d).sec.lanes[n]? = some { l with stale := false, blocks := l.blocks % 4096 } := by
  rw [maskReseed, hs, if_neg Bool.false_ne_true]
  exact modAt_self h _

/-! ## The generator -/

theorem drbgReseed_runs {d : Dev} (h : d.sec.drbgStop = false) (ok : Bool) :
    drbgReseed ok d = if ok then d.modSec fun s => { s with drbgLast := d.clock } else raiseOp d 0x0305 srcSEC [] := by
  rw [drbgReseed, h, if_neg Bool.false_ne_true]

/-- The generator of a unit in FENCED stops (R404). -/
theorem drbgStopped_fenced {d : Dev} (h : d.sec.drbgStop = false) (hf : d.twin.st = .fenced) :
    (drbgStopped d).sec = { d.sec with drbgStop := true, entropyOk := false } ∧ (drbgStopped d).twin.st = .fenced := by
  rw [drbgStopped, h, if_neg Bool.false_ne_true]
  extract_lets d1
  have hsec : d1.sec = { d.sec with drbgStop := true, entropyOk := false } := raiseOp_sec _ _ _ _
  have hs : serving d1 = false := by
    have ht : d1.twin = d.twin := raiseOp_twin _ _ _ _
    rw [serving, ht, hf]
    rfl
  rw [hs, if_neg Bool.false_ne_true]
  obtain ⟨_, _, _, _, _, _, he⟩ := (leavePair_pair d1).trans (enterState_pair (leavePair d1) .fenced)
  constructor
  · rw [he]
    exact hsec
  · rw [enterState_twin]

theorem drbgStarted_stopped {d : Dev} (h : d.sec.drbgStop = true) (hi : d.twin.ident.isSome = true) (hl : d.twin.linkUp = false) :
    (drbgStarted d).sec = { d.sec with drbgStop := false, entropyOk := true, drbgLast := d.clock } := by
  rw [drbgStarted, h, Bool.not_true, if_neg Bool.false_ne_true, startAgain_linkDown_sec]
  · exact raiseOp_sec _ _ _ _
  · rw [raiseOp_twin]
    exact hi
  · rw [raiseOp_twin]
    exact hl

/-- Settles O52: the slot key commands by what their record does to the slots, the others each by its lemma. -/
theorem keysAreKept : Obligations.KeysAreKept := by
  intro s
  refine ⟨fun p k ho hb hl => ⟨runs_command ho rfl (keyCmd_query hb hl k) rfl, fun hs hr => ⟨fun k2 hk hk2 hc => ?_, fun x hk hc => ?_,
    fun x hk hc => ?_, fun hreg hk hc => ?_⟩⟩, fun n prio blocks l h hready hr => ?_, fun n l h hs => ⟨_, rfl, maskReseed_runs h hs⟩,
    fun hs => ⟨?_, ?_, fun hf => ?_⟩, fun h hi hl => ?_⟩
  case refine_1 =>
    exact (runs_keyCmd (cmd := .generate) ho rfl hb hl hs hr (by decide) (by simp [keyAllowed, hk]) hk2.symm hc).mono
      fun e h => h ▸ getKey_keyedSlots_generate hk
  case refine_2 =>
    exact (runs_keyCmd (cmd := .load) ho rfl hb hl hs hr (by decide) (by simp [keyAllowed, hk]) rfl hc).mono
      fun e h => h ▸ getKey_keyedSlots_load hk
  case refine_3 =>
    exact (runs_keyCmd (cmd := .unload) ho rfl hb hl hs hr (by decide) (by simp [keyAllowed, hk]) rfl hc).mono
      fun e h => h ▸ getKey_keyedSlots_unload hk
  case refine_4 =>
    exact (runs_keyCmd (cmd := .destroy) ho rfl hb hl hs hr (by decide) (by simp [keyAllowed, hreg]) rfl hc).mono
      fun e h => h ▸ getKey_keyedSlots_destroy hk hreg
  case refine_5 => exact ⟨_, rfl, _, laneJob_rest h hready hr blocks, rfl, rfl, rfl⟩
  case refine_6 => exact ⟨_, becomes_of rfl (drbgReseed_runs hs true), rfl⟩
  case refine_7 => exact becomes_of rfl (drbgReseed_runs hs false)
  case refine_8 =>
    obtain ⟨hsec, hst⟩ := drbgStopped_fenced hs hf
    exact ⟨_, rfl, congrArg Sec.drbgStop hsec, congrArg Sec.entropyOk hsec, hst⟩
  case refine_9 =>
    have hsec := drbgStarted_stopped h hi hl
    exact ⟨_, rfl, congrArg Sec.drbgStop hsec, congrArg Sec.entropyOk hsec, congrArg Sec.drbgLast hsec⟩

end Sys2Proof.Machine
end

section
/-! SUPPORT. The ledger's command interface and its die (R424 to R446). -/
namespace Sys2Proof.Machine

/-! ## Wear -/

/-- A physical erase changes the ledger's wear alone (R430). -/
theorem wearSector_ldg (d : Dev) (k : Nat) : ∃ w, (wearSector d k).ldg = { d.ldg with wear := w } := by
  unfold wearSector
  dsimp only
  split
  · exact ⟨_, raiseOp_ldg _ _ _ _⟩
  · exact ⟨_, rfl⟩

/-- A logical erase changes the ledger's counters alone (R431). -/
theorem countErase_ldg (d : Dev) (sec : Nat) : ∃ w n m, (countErase d sec).ldg = { d.ldg with wear := w, erases := n, sinceMove := m } := by
  obtain ⟨w, h⟩ := wearSector_ldg (d.modLdg fun l => { l with erases := min (l.erases + 1) 0xFFFFFFFF, sinceMove := l.sinceMove + 1 })
    (physSector d.ldg sec)
  exact ⟨_, _, _, h⟩

/-! ## The owner's sequence -/

theorem ldgOwned_free {d : Dev} {p : Principal} (h : d.ldg.owner = none ∨ d.ldg.owner = some p) (f : Dev → Dev) : ldgOwned p f d = (f d, 0) := by
  unfold ldgOwned
  rcases h with h | h <;> rw [h]
  exact if_pos rfl

theorem ldgResult_setLdgResult (d : Dev) (p : Principal) (r : LdgResult) : ldgResult (setLdgResult d p r).ldg p = r := by
  simp [ldgResult, setLdgResult]

/-- A key word leaves the owner and the contents, and moves the sequence on or breaks it (R441). -/
theorem ldgKey_free {d : Dev} {p : Principal} (h : d.ldg.owner = none ∨ d.ldg.owner = some p) (v : Word) : ∃ e, ldgKey p v d = (e, 0) ∧
    e.ldg.owner = some p ∧ e.ldg.words = d.ldg.words ∧ (d.ldg.seq = .idle → v = 0xAA55 → e.ldg.seq = .key1) ∧
    (d.ldg.seq = .key1 → v = 0x55AA → e.ldg.seq = .key2) ∧
    (v ≠ 0xAA55 → v ≠ 0x55AA → e.ldg.seq = .idle ∧ ldgResult e.ldg p = .seqError) := by
  have hbreak : ldgResult (seqBreak (d.modLdg fun l => { l with owner := some p }) p).ldg p = .seqError := ldgResult_setLdgResult _ _ _
  refine ⟨_, ldgOwned_free h _, ?_⟩
  dsimp only
  cases hs : d.ldg.seq with
  | idle =>
    dsimp only
    split
    case isTrue hv => exact ⟨rfl, rfl, fun _ _ => rfl, nofun, fun hn => absurd hv hn⟩
    case isFalse hv => exact ⟨rfl, rfl, fun _ h => absurd h hv, nofun, fun _ _ => ⟨rfl, hbreak⟩⟩
  | key1 =>
    dsimp only
    split
    case isTrue hv => exact ⟨rfl, rfl, nofun, fun _ _ => rfl, fun _ hn => absurd hv hn⟩
    case isFalse hv => exact ⟨rfl, rfl, nofun, fun _ h => absurd h hv, fun _ _ => ⟨rfl, hbreak⟩⟩
  | key2 | cmd | addr => exact ⟨rfl, rfl, nofun, nofun, fun _ _ => ⟨rfl, hbreak⟩⟩

/-! ## Programs and erases -/

theorem boardAddr_iff {a : Nat} : boardAddr a = true ↔ 3696 ≤ a / 4096 ∧ a / 4096 < 3840 ∧ 64 ≤ a % 4096 := by
  simp [boardAddr, and_assoc]

/-- A word of the board area in a ledger that erases nothing reads what was programmed (R446). -/
theorem ledgerWord_board {d : Dev} {a : Nat} (h : boardAddr a = true) (he : d.ldg.erase = []) (hs : d.ldg.spoiled = []) :
    ledgerWord d a = ((getKey d.ldg.words (a / 4 * 4)).getD 0xFFFFFFFF, d) := by
  obtain ⟨hlo, hhi, hoff⟩ := boardAddr_iff.1 h
  unfold ledgerWord
  dsimp only
  rw [if_neg (by omega), if_neg (by omega), if_neg (by omega), if_neg (by omega), if_neg (by omega), if_pos hhi, he, hs]
  rfl

/-- A program of an erased word of the board area can run (R443). -/
theorem dropClashes_erased {d : Dev} {g : LdgProg} (h : boardAddr g.addr = true) (he : d.ldg.erase = []) (hs : d.ldg.spoiled = [])
    (hw : getKey d.ldg.words (g.addr / 4 * 4) = none) : dropClashes d [g] = d.modLdg fun l => { l with progs := [g] } := by
  unfold dropClashes
  dsimp only
  rw [ledgerWord_board h he hs, hw]
  exact if_neg (by simp [clashes])

theorem ldgData_free {d : Dev} {p : Principal} {a : Nat} (h : d.ldg.owner = none ∨ d.ldg.owner = some p) (hs : d.ldg.seq = .addr a)
    (hb : boardAddr a = true) (v : Word)
    (hc : d.ldg.progs ≠ [] ∨ (d.ldg.erase = [] ∧ d.ldg.spoiled = [] ∧ getKey d.ldg.words (a / 4 * 4) = none)) :
    ldgData p v d = (d.modLdg fun l => { l with seq := .idle, progs := l.progs ++ [{ owner := p, addr := a, value := v }] }, 0) := by
  refine (ldgOwned_free h _).trans (congrArg (·, 0) ?_)
  dsimp only
  rw [hs]
  dsimp only
  rw [hb, Bool.not_true, if_neg Bool.false_ne_true, Dev.modLdg_ldg]
  dsimp only
  cases hp : d.ldg.progs with
  | cons g gs =>
    exact congrArg (fun ps => d.modLdg fun l => { l with seq := .idle, progs := ps ++ [{ owner := p, addr := a, value := v }] }) hp.symm
  | nil =>
    obtain ⟨he, hspoil, hw⟩ := hc.resolve_left (fun hn => hn hp)
    refine (dropClashes_erased (d := d.modLdg fun l => { l with seq := .idle }) (g := { owner := p, addr := a, value := v }) hb he hspoil hw).trans ?_
    exact congrArg (fun ps => d.modLdg fun l => { l with seq := .idle, progs := ps ++ [{ owner := p, addr := a, value := v }] }) hp.symm

theorem ldgAddr_free {d : Dev} {p : Principal} {v : Word} (h : d.ldg.owner = none ∨ d.ldg.owner = some p) (hs : d.ldg.seq = .cmd true)
    (hb : boardAddr (wbits v 23 2 * 4) = true) : ldgAddr p v d = (d.modLdg fun l =>
      { l with seq := .idle, erase := l.erase ++ [{ owner := p, sector := wbits v 23 2 * 4 / 4096, pulses := 0, byOwner := false,
                                                    byShp := d.dur.save ≠ .idle || d.sec.zeroing }] }, 0) := by
  refine (ldgOwned_free h _).trans (congrArg (·, 0) ?_)
  dsimp only
  rw [hs]
  dsimp only
  rw [hb, Bool.not_true, if_neg Bool.false_ne_true]
  rfl

theorem eraseOf_mem {l : Ledger} {p : Principal} {x : LdgErase} (h : eraseOf l p = some x) : x ∈ l.erase :=
  List.mem_of_mem_filter (List.mem_of_getLast? h)

/-- SUSPEND and RESUME act on the principal's latest erase (R444). -/
theorem holdErase_acts {d : Dev} {p : Principal} {x : LdgErase} (h : eraseOf d.ldg p = some x) {hold : Bool} (hx : x.byOwner ≠ hold) :
    { x with byOwner := hold } ∈ (holdErase p hold d).ldg.erase ∧ ldgResult (holdErase p hold d).ldg p = .done ∧
      (holdErase p hold d).ldg.seq = d.ldg.seq := by
  unfold holdErase
  rw [h]
  dsimp only
  rw [if_neg hx]
  exact ⟨List.mem_map.2 ⟨x, eraseOf_mem h, if_pos rfl⟩, ldgResult_setLdgResult _ _ _, rfl⟩

theorem ldgCmd_suspend {d : Dev} {p : Principal} (h : d.ldg.owner = none ∨ d.ldg.owner = some p) (hs : d.ldg.seq = .key2) :
    ldgCmd p 0x30000000 d = (holdErase p true (d.modLdg fun l => { l with seq := .idle }), 0) := by
  refine (ldgOwned_free h _).trans (congrArg (·, 0) ?_)
  dsimp only
  rw [if_neg (by simp [hs])]
  rfl

theorem ldgCmd_resume {d : Dev} {p : Principal} (h : d.ldg.owner = none ∨ d.ldg.owner = some p) (hs : d.ldg.seq = .key2) :
    ldgCmd p 0x40000000 d = (holdErase p false (d.modLdg fun l => { l with seq := .idle }), 0) := by
  refine (ldgOwned_free h _).trans (congrArg (·, 0) ?_)
  dsimp only
  rw [if_neg (by simp [hs])]
  rfl

theorem ldgLapse_running {d : Dev} {p : Principal} (h : d.ldg.owner = some p) (hs : d.ldg.seq ≠ .idle) : ldgLapse d = seqBreak d p := by
  unfold ldgLapse
  rw [h]
  exact if_neg hs

theorem ldgOwnerLapse_words (d : Dev) : (ldgOwnerLapse d).ldg.words = d.ldg.words := by
  rw [ldgOwnerLapse, Dev.modLdg_ldg]
  unfold ldgLapse
  split
  · split <;> rfl
  · rfl

/-- A read of the board area moves LDG_RD_ADDR on (R446). -/
theorem rdData_board {d : Dev} {a : Nat} (ha : a = (reg d 0x20020).toNat % 2 ^ 24 / 4 * 4) (hb : boardAddr a = true)
    (he : d.ldg.erase = []) (hs : d.ldg.spoiled = []) :
    rdData d = (setReg d 0x20020 (BitVec.ofNat 32 ((a + 4) % 2 ^ 24)), .ok ((getKey d.ldg.words (a / 4 * 4)).getD 0xFFFFFFFF)) := by
  unfold rdData
  rw [← ha]
  dsimp only
  rw [ledgerWord_board hb he hs]

/-! ## The die -/

/-- A verified pulse after the 44th ends the erase (R425). -/
theorem erasePulse_verified {d : Dev} {x : LdgErase} (h : runningErase d.ldg = some x) (hn : 45 ≤ x.pulses + 1) :
    (erasePulse x.sector true d).ldg.erase = d.ldg.erase.erase x ∧ ldgResult (erasePulse x.sector true d).ldg x.owner = .done ∧
      ∀ w ∈ (erasePulse x.sector true d).ldg.words, w.1 / 4096 ≠ x.sector := by
  unfold erasePulse
  rw [h]
  dsimp only
  rw [if_neg (by simp), if_pos (by simpa using hn)]
  generalize hgone : setLdgResult _ x.owner .done = gone
  obtain ⟨_, _, _, hl⟩ := countErase_ldg gone x.sector
  rw [hl]
  subst hgone
  refine ⟨rfl, ldgResult_setLdgResult _ _ _, fun w hw => ?_⟩
  simpa using (List.mem_filter.1 hw).2

theorem erasePulse_runsOn {d : Dev} {x : LdgErase} (h : runningErase d.ldg = some x) (hn : x.pulses + 1 < 400) :
    erasePulse x.sector false d = d.modLdg fun l =>
      { l with erase := l.erase.map fun y => if y = x then { y with pulses := x.pulses + 1 } else y } := by
  unfold erasePulse
  rw [h]
  dsimp only
  rw [if_neg (by simp), if_neg (by simp), if_neg (by omega)]

/-- A program alone that verifies leaves its value (R443). -/
theorem ldgProgDone_verified {d : Dev} {g : LdgProg} (h : d.ldg.progs = [g]) (hv : g.value ≠ 0xFFFFFFFF) :
    (ldgProgDone true d).ldg.progs = [] ∧ getKey (ldgProgDone true d).ldg.words g.addr = some g.value ∧
      ldgResult (ldgProgDone true d).ldg g.owner = .done := by
  unfold ldgProgDone
  rw [h]
  dsimp only [dropClashes]
  rw [if_pos rfl]
  refine ⟨rfl, ?_, ldgResult_setLdgResult _ _ _⟩
  exact (congrArg (getKey · g.addr) (if_neg hv)).trans (getKey_putKey.trans (if_pos rfl))

theorem eraseSlow_erasing {d : Dev} {n : Nat} (h : ∃ x ∈ d.ldg.erase, x.sector = n) : eraseSlow n d = raiseOp d 0x0905 srcLDG [n] :=
  if_pos (by simpa using h)

/-- A move of the window that does not close it (R431). -/
theorem windowMove_moves {d : Dev} (hdue : regBits d 0x20034 15 0 ≤ d.ldg.sinceMove) (hsave : d.dur.save = .idle) (he : d.ldg.erase = [])
    (hm : d.ldg.moves + 1 < 3840) : (windowMove d).ldg.moves = d.ldg.moves + 1 ∧ (windowMove d).ldg.base = d.ldg.base ∧
      (windowMove d).ldg.sinceMove = d.ldg.sinceMove - regBits d 0x20034 15 0 := by
  unfold windowMove
  dsimp only
  rw [if_neg (by simp [hsave, he]; omega)]
  obtain ⟨w, hw⟩ := wearSector_ldg (d.modLdg fun x => { x with sinceMove := x.sinceMove - regBits d 0x20034 15 0, moves := x.moves + 1 })
    ((d.ldg.base + 256 + d.ldg.moves) % 4096)
  rw [hw, if_pos (by exact hm), hw]
  exact ⟨rfl, rfl, rfl⟩

end Sys2Proof.Machine
end

section
/-! SUPPORT. The cold start up to the first step of the sequence (R426, R470, R482), with the statement about the ledger. -/
namespace Sys2Proof.Machine

/-! ## What a cold start finds -/

/-- What the ROM makes of the ledger changes the parts of the store, and draws free values (R433). -/
def ColdFrame (d e : Dev) : Prop := ∃ l r n v i, e = { d with ldg := l, regs := r, net := n, evt := v, freeIdx := i }

theorem ColdFrame.refl (d : Dev) : ColdFrame d d := ⟨_, _, _, _, _, rfl⟩

theorem ColdFrame.trans {a b c : Dev} (h : ColdFrame a b) (k : ColdFrame b c) : ColdFrame a c := by
  obtain ⟨_, _, _, _, _, rfl⟩ := h
  obtain ⟨_, _, _, _, _, rfl⟩ := k
  exact ⟨_, _, _, _, _, rfl⟩

theorem StoreFrame.cold {d e : Dev} (h : StoreFrame d e) : ColdFrame d e := by
  obtain ⟨_, _, _, _, rfl⟩ := h
  exact ⟨_, _, _, _, _, rfl⟩

theorem ColdFrame.foldl {α : Type} {f : Dev → α → Dev} (h : ∀ d x, ColdFrame d (f d x)) (l : List α) (d : Dev) : ColdFrame d (l.foldl f d) :=
  List.foldlRecOn l f (motive := ColdFrame d) (.refl d) fun a ha x _ => ha.trans (h a x)

theorem coldLedger_frame (d : Dev) : ColdFrame d (coldLedger d) := by
  unfold coldLedger
  extract_lets d1 d2
  have h1 : ColdFrame d d1 := ColdFrame.foldl (fun _ _ => ⟨_, _, _, _, _, rfl⟩) _ _
  have h2 : ColdFrame d1 d2 := ColdFrame.foldl (fun a e => (modLdg_store a _).cold.trans (countErase_store _ _).cold) _ _
  exact (h1.trans h2).trans (modLdg_store d2 _).cold

/-- What the ROM keeps of the supervisor and the board (R482). -/
theorem coldState_keeps (d : Dev) : (coldState d).env = d.env ∧ (coldState d).pwr.pwron = d.pwr.pwron ∧
    (coldState d).pwr.st = d.pwr.st ∧ (coldState d).dur.mainOk = d.dur.mainOk := by
  obtain ⟨_, _, _, _, _, h⟩ := coldLedger_frame d
  have hkept : (coldLedger d).env = d.env ∧ (coldLedger d).pwr = d.pwr ∧ (coldLedger d).dur = d.dur := by
    rw [h]
    exact ⟨rfl, rfl, rfl⟩
  obtain ⟨henv, hpwr, hdur⟩ := hkept
  have hpwron := congrArg Pwr.pwron hpwr
  have hst := congrArg Pwr.st hpwr
  have hmain := congrArg Dur.mainOk hdur
  exact ⟨henv, hpwron, hst, hmain⟩

/-! ## The ROM -/

/-- What the ROM's choice of a bank leaves alone: the board, the memory and the line PWRON_RST_N. -/
def boardPart (d : Dev) : BootEnv × Mem × Bool := (d.env, d.mem, d.pwr.pwron)

theorem StoreFrame.boardPart {d e : Dev} (h : StoreFrame d e) : boardPart e = boardPart d := by
  obtain ⟨_, _, _, _, rfl⟩ := h
  rfl

theorem StoreFrame.pwr {d e : Dev} (h : StoreFrame d e) : e.pwr = d.pwr := by
  obtain ⟨_, _, _, _, rfl⟩ := h
  rfl

theorem raiseOp_store (d : Dev) (c : Nat) (src : EvSource) (vs : List Nat) : StoreFrame d (raiseOp d c src vs) := (raiseOp_frame d c src vs).store

theorem setBoot_store (b : BootEntry) (d : Dev) : StoreFrame d (setBoot b d) := ⟨_, _, _, _, rfl⟩

theorem takeTry_store (d : Dev) : StoreFrame d (takeTry d) := by
  unfold takeTry
  dsimp only
  split
  · exact .refl d
  · split
    · exact setBoot_store _ _
    · exact (setBoot_store _ _).trans (raiseOp_store _ _ _ _)

theorem fellBack_store (d : Dev) : StoreFrame d (fellBack d) := (modLdg_store d _).trans (raiseOp_store _ _ _ _)

theorem enterRecovery_store (d : Dev) : StoreFrame d (enterRecovery d) := (modLdg_store d _).trans (raiseOp_store _ _ _ _)

theorem enterRecovery_stage (d : Dev) : (enterRecovery d).ldg.stage = .recovery := by rw [enterRecovery, raiseOp_ldg]; rfl

theorem romRegs_store (d : Dev) : StoreFrame d (romRegs d) := by
  unfold romRegs
  split
  · exact ⟨_, _, _, _, rfl⟩
  · exact .refl d

theorem setPwr_boardPart (d : Dev) (st : PwrState) : boardPart (setPwr d st) = boardPart d := by
  unfold setPwr
  split
  · rfl
  · exact (raiseOp_store _ _ _ _).boardPart

/-- The rails begin to rise with the first step (R476). -/
theorem rampBegun (d : Dev) : boardPart (beginStep (setPwr (romRegs d) .rampUp) 0) = boardPart d ∧
    (beginStep (setPwr (romRegs d) .rampUp) 0).pwr.st = .rampUp := by
  constructor
  · exact (setPwr_boardPart _ _).trans (romRegs_store d).boardPart
  · exact congrArg Pwr.st (setPwr_pwr (romRegs d) .rampUp)

/-- From OFF the ROM raises the rails, or ends in RECOVERY (R426, R427). -/
theorem romBanks_off {d : Dev} (h : d.pwr.st = .off) : boardPart (romBanks d) = boardPart d ∧
    ((romBanks d).pwr.st = .rampUp ∨ (romBanks d).ldg.stage = .recovery) := by
  have hgo {x : Dev} (hx : StoreFrame d x) : boardPart (if x.pwr.st = .on then x else beginStep (setPwr (romRegs x) .rampUp) 0) = boardPart d ∧
      (if x.pwr.st = .on then x else beginStep (setPwr (romRegs x) .rampUp) 0).pwr.st = .rampUp := by
    rw [if_neg (by rw [hx.pwr, h]; decide)]
    obtain ⟨hboard, hst⟩ := rampBegun x
    exact ⟨hboard.trans hx.boardPart, hst⟩
  unfold romBanks
  extract_lets a first second go d1
  have h1 : StoreFrame d d1 := modLdg_store d _
  split
  · exact (hgo (modLdg_store d _)).imp id .inl
  · split
    · exact (hgo ((h1.trans (modLdg_store d1 _)).trans (fellBack_store _))).imp id .inl
    · exact ⟨((h1.trans (modLdg_store d1 _)).trans (enterRecovery_store _)).boardPart, .inr (enterRecovery_stage _)⟩

theorem powerUp_off {d : Dev} (h : d.pwr.st = .off) : boardPart (powerUp d) = (d.env, [], d.pwr.pwron) ∧
    ((powerUp d).pwr.st = .rampUp ∨ (powerUp d).ldg.stage = .recovery) := by
  obtain ⟨henv, hon, hst, -⟩ := coldState_keeps d
  let c := (coldState d).modPwr fun p => { p with tries := satUp 255 p.tries }
  have ht : StoreFrame c (takeTry c) := takeTry_store c
  obtain ⟨hboard, hend⟩ := romBanks_off (d := takeTry c) (by rw [ht.pwr]; exact hst.trans h)
  refine ⟨hboard.trans (ht.boardPart.trans ?_), hend⟩
  exact Prod.ext henv (Prod.ext (coldState_mem d) hon)

/-! ## PWRON_RST_N -/

/-- The device that a rise of PWRON_RST_N finds, with its on request held (R470). -/
def pwronHeld (env : BootEnv) (d : Dev) : Dev :=
  chargerLines { coldState d with env := env, regs := [], i3c := Dev.reset.i3c,
                                  pwr := { Pwr.reset with pwron := true, onHeld := true, warmLow := d.pwr.warmLow } }

theorem pwronRise_low {d : Dev} (h : d.pwr.pwron = false) (env : BootEnv) : pwronRise env d = tryStart (pwronHeld env d) := by
  rw [pwronRise, h, if_neg Bool.false_ne_true]
  rfl

theorem tryStart_pwronHeld {d : Dev} (env : BootEnv) : tryStart (pwronHeld env d) =
    if d.dur.mainOk then powerUp ((pwronHeld env d).modPwr fun p => { p with tries := 0, onHeld := false, onClears := false, retry := false, faulty := false })
    else pwronHeld env d := by
  have hm : (pwronHeld env d).dur.mainOk = d.dur.mainOk := (coldState_keeps d).2.2.2
  unfold tryStart
  rw [hm]
  cases d.dur.mainOk <;> rfl

/-- Settles O54: each command by the lemma about what it does in the state that the clause names. -/
theorem theLedgerTakesSequences : Obligations.TheLedgerTakesSequences := by
  intro s p
  refine ⟨fun env hp => ⟨fun hm => ?_, fun hm => ?_⟩, ⟨_, rfl, rfl, rfl, rfl, rfl, rfl⟩, fun hfree => ⟨fun ho v => ?_, fun a v ho hs hb hc => ?_,
    fun v ho hs hb => ?_, fun x ho hs hx => ⟨fun hby => ?_, fun hby => ?_⟩⟩, fun ho hs => ?_, ⟨_, rfl, rfl, ldgOwnerLapse_words s.dev⟩,
    fun ho => becomes_of rfl (readAs_ok ho rfl), ?_, fun x hx => ⟨fun hn => ⟨_, rfl, erasePulse_verified hx hn⟩, fun hn =>
      becomes_of rfl (erasePulse_runsOn hx hn)⟩, fun g hg hv => ⟨_, rfl, ldgProgDone_verified hg hv⟩, fun n hx =>
      becomes_of rfl (eraseSlow_erasing hx), fun hdue hsave he hm => ⟨_, rfl, windowMove_moves hdue hsave he hm⟩⟩
  case refine_1 =>
    obtain ⟨hboard, hend⟩ := powerUp_off (d := (pwronHeld env s.dev).modPwr fun p =>
      { p with tries := 0, onHeld := false, onClears := false, retry := false, faulty := false }) rfl
    refine ⟨_, becomes_of rfl ((pwronRise_low hp env).trans ((tryStart_pwronHeld env).trans (if_pos hm))), ?_⟩
    exact ⟨congrArg (·.2.2) hboard, congrArg (·.1) hboard, congrArg (·.2.1) hboard, hend⟩
  case refine_2 =>
    refine ⟨pwronHeld env s.dev, becomes_of rfl ((pwronRise_low hp env).trans ((tryStart_pwronHeld env).trans (if_neg (by simp [hm])))), ?_⟩
    exact ⟨rfl, rfl, rfl, rfl⟩
  case refine_3 =>
    obtain ⟨e, he, h⟩ := ldgKey_free hfree v
    exact runs_command ho rfl he h
  case refine_4 => exact runs_command ho rfl (ldgData_free hfree hs hb v hc) ⟨rfl, rfl⟩
  case refine_5 => exact runs_command ho rfl (ldgAddr_free hfree hs hb) ⟨rfl, _, rfl⟩
  case refine_6 =>
    obtain ⟨hmem, hres, hseq⟩ := holdErase_acts (d := s.dev.modLdg fun l => { l with seq := .idle }) hx (hold := true) (by simp [hby])
    exact runs_command ho rfl (ldgCmd_suspend hfree hs) ⟨hmem, hres, hseq⟩
  case refine_7 =>
    obtain ⟨hmem, hres, hseq⟩ := holdErase_acts (d := s.dev.modLdg fun l => { l with seq := .idle }) hx (hold := false) (by simp [hby])
    exact runs_command ho rfl (ldgCmd_resume hfree hs) ⟨hmem, hres, hseq⟩
  case refine_8 => exact ⟨_, becomes_of rfl (ldgLapse_running ho hs), rfl, ldgResult_setLdgResult _ _ _, ho⟩
  case refine_9 =>
    rintro a v ho ha hb he hs rfl
    exact becomes_of rfl (readAs_ok ho (rdData_board ha hb he hs))

end Sys2Proof.Machine
end

section
/-! SUPPORT. The configuration store and the firmware banks (R438 to R464), with the statement about them. -/
namespace Sys2Proof.Machine

/-! ## The configuration store -/

/-- What writing to the configuration store changes of the ledger: its counters, and how full the store is. -/
def StoreWrites (a b : Ledger) : Prop :=
  ∃ w n m k f, b = { a with wear := w, erases := n, sinceMove := m, cfg := { a.cfg with written := k, full := f } }

theorem StoreWrites.refl (a : Ledger) : StoreWrites a a := ⟨_, _, _, _, _, rfl⟩

theorem StoreWrites.trans {a b c : Ledger} (h : StoreWrites a b) (k : StoreWrites b c) : StoreWrites a c := by
  obtain ⟨_, _, _, _, _, rfl⟩ := h
  obtain ⟨_, _, _, _, _, rfl⟩ := k
  exact ⟨_, _, _, _, _, rfl⟩

/-- Erases change the ledger's counters alone (R431). -/
theorem countErases_ldg (d : Dev) (sec n : Nat) : ∃ w m k, (countErases d sec n).ldg = { d.ldg with wear := w, erases := m, sinceMove := k } := by
  refine List.foldlRecOn (List.range n) _ (motive := fun e : Dev => ∃ w m k, e.ldg = { d.ldg with wear := w, erases := m, sinceMove := k })
    ⟨_, _, _, rfl⟩ fun a ha i _ => ?_
  obtain ⟨_, _, _, ha⟩ := ha
  obtain ⟨_, _, _, h⟩ := countErase_ldg a (sec + i)
  rw [h, ha]
  exact ⟨_, _, _, rfl⟩

/-- Compaction leaves the records and the bytes that they take (R440). -/
theorem compactStore_ldg (d : Dev) : ∃ w n m f, (compactStore d).ldg =
    { d.ldg with wear := w, erases := n, sinceMove := m, cfg := { d.ldg.cfg with written := standingBytes d, full := f } } := by
  obtain ⟨w, n, m, h⟩ := countErases_ldg (d.modLdg fun l => { l with cfg := { l.cfg with written := standingBytes d } }) 3072
    (ceilDiv d.ldg.cfg.written 4032)
  unfold compactStore
  dsimp only
  split
  · rw [raiseOp_ldg, Dev.modLdg_ldg, h]
    exact ⟨_, _, _, _, rfl⟩
  · rw [Dev.modLdg_ldg, h]
    exact ⟨_, _, _, _, rfl⟩

theorem compactStore_writes (d : Dev) : StoreWrites d.ldg (compactStore d).ldg := by
  obtain ⟨_, _, _, _, h⟩ := compactStore_ldg d
  exact ⟨_, _, _, _, _, h⟩

theorem wroteRecord_writes (d : Dev) (body : Nat) : StoreWrites d.ldg (wroteRecord d body).ldg := by
  unfold wroteRecord
  dsimp only
  split
  · exact StoreWrites.trans ⟨_, _, _, _, _, rfl⟩ (compactStore_writes _)
  · exact ⟨_, _, _, _, _, rfl⟩

/-- STORE_TUNING writes the REGISTERS and SEQUENCE records (R439). -/
theorem storeTuning_stores (d : Dev) : (storeTuning d).upd.stale = false ∧
    (storeTuning d).ldg.cfg.sequence = some (tuningFmt d, liveRegs d seqAddrs) ∧
    ∃ t, (storeTuning d).ldg.cfg.tuning = some t ∧ t.regs = liveRegs d tunedAddrs := by
  unfold storeTuning
  extract_lets f t d1
  obtain ⟨_, _, _, _, hs⟩ := (wroteRecord_store (d1.modUpd fun u => { u with stale := false }) (8 * t.regs.length)).trans (wroteRecord_store _ 256)
  obtain ⟨_, _, _, _, _, hl⟩ := (wroteRecord_writes (d1.modUpd fun u => { u with stale := false }) (8 * t.regs.length)).trans (wroteRecord_writes _ 256)
  rw [hl, hs]
  exact ⟨rfl, rfl, t, rfl, by simp only [t]⟩

theorem wroteRecord_network (d : Dev) (body : Nat) : (wroteRecord d body).ldg.cfg.network = d.ldg.cfg.network := by
  obtain ⟨_, _, _, _, _, h⟩ := wroteRecord_writes d body
  rw [h]

theorem storeNetwork_network (d : Dev) : (storeNetwork d).ldg.cfg.network = some (liveRegs d identityAddrs) := by
  rw [storeNetwork, wroteRecord_network, Dev.modLdg_ldg]

/-- A command of SHP_CMD that the shepherd takes (R450). -/
theorem shpCmd_ready {d e : Dev} {f : Dev → Dev × Nat} {r : Nat} (h : d.ldg.cmdBusy = false) (hf : f d = (e, r)) :
    shpCmd f d = (e.modLdg fun l => { l with cmdResult := r }, 0) := by
  rw [shpCmd, h, if_neg Bool.false_ne_true, hf]

/-- The answer of a SHP_CMD that ended with a result. -/
def shpAnswer (e : Dev) (p : Principal) (r : Nat) : Dev := answer (e.modLdg fun l => { l with cmdResult := r }) p 0x10008 true .done 0 0

theorem shpAnswer_parts (e : Dev) (p : Principal) (r : Nat) : (shpAnswer e p r).ldg.cfg = e.ldg.cfg ∧ (shpAnswer e p r).upd = e.upd ∧
    (shpAnswer e p r).ldg.cmdResult = r := ⟨rfl, rfl, rfl⟩

theorem shpTuning_valid {d : Dev} (hv : seqValid ((List.range 16).map fun n => seqA d n) = true) (hf : d.ldg.cfg.full = false) :
    shpTuning d = (storeTuning d, 0) := by
  rw [shpTuning, if_pos hv, shpStore, hf, if_neg Bool.false_ne_true]

theorem shpIdentity_fenced {d : Dev} (hs : d.twin.st = .fenced) (hf : d.ldg.cfg.full = false) : shpIdentity 0x7A3C d = (storeNetwork d, 0) := by
  rw [shpIdentity, if_neg (by decide), if_neg (by simp [hs]), shpStore, hf, if_neg Bool.false_ne_true]

/-! ## The banks -/

theorem bankAt_setBank {d : Dev} (h : d.ldg.banks.length = 2) (b : Bool) (x : Bank) : bankAt (setBank d b x) b = x := by
  have hlt : (if b then 1 else 0) < d.ldg.banks.length := by
    rw [h]
    cases b <;> decide
  exact modAt_getD hlt _ _

theorem bankAt_congr {d e : Dev} (h : e.ldg.banks = d.ldg.banks) (b : Bool) : bankAt e b = bankAt d b := by
  unfold bankAt
  rw [h]

theorem bankAt_countErases (d : Dev) (sec n : Nat) (b : Bool) : bankAt (countErases d sec n) b = bankAt d b := by
  obtain ⟨_, _, _, h⟩ := countErases_ldg d sec n
  exact bankAt_congr (by rw [h]) b

theorem bankAt_modUpd (d : Dev) (f : Upd → Upd) (b : Bool) : bankAt (d.modUpd f) b = bankAt d b := rfl

theorem bankAt_answer (d : Dev) (p : Principal) (a : Nat) (w : Bool) (st : Status) (n : Nat) (v : Word) (b : Bool) :
    bankAt (answer d p a w st n v) b = bankAt d b := rfl

theorem bankAt_journalStage (st : UpdState) (d : Dev) (b : Bool) : bankAt (journalStage st d) b = bankAt d b := rfl

theorem journalStage_boot (st : UpdState) (d : Dev) : (journalStage st d).ldg.boot = d.ldg.boot := rfl

theorem updCmd_ready {d : Dev} (h : d.upd.busy = false) (f : Dev → Dev) : updCmd f d = (f d, 0) := by
  rw [updCmd, h, if_neg Bool.false_ne_true]

/-! ## Staging -/

/-- STAGE with a delta that passes its checks (R455). -/
theorem stageDelta_stages {d : Dev} {x : List Byte} {b : Bank} (hst : d.upd.st = .idle) (hfw : d.ldg.stage = .firmware) (hsave : d.dur.save = .idle)
    (hx : deltaBytes d = some x) (hc : deltaCheck d x = .done) (hb : deltaBank (running d) x = some b) (hl : d.ldg.banks.length = 2) :
    (stageDelta d).upd.st = .staging ∧ (stageDelta d).upd.busy = true ∧ (stageDelta d).upd.target = some b ∧
      bankAt (stageDelta d) (!d.ldg.bankB) = noBank ∧ (stageDelta d).mem = d.mem := by
  have h : stageDelta d = journalStage .staging ((countErases (setBank d (!d.ldg.bankB) noBank) (if d.ldg.bankB then 0 else 1024) 1024).modUpd
      fun u => { u with busy := true, progress := 0, target := some b }) := by
    unfold stageDelta
    rw [if_neg (by simp [hst, hfw, hsave]), hx]
    dsimp only
    rw [hc, hb]
  rw [h]
  refine ⟨rfl, rfl, rfl, ?_, ?_⟩
  · rw [bankAt_journalStage, bankAt_modUpd, bankAt_countErases, bankAt_setBank hl]
  · rw [journalStage_mem, Dev.modUpd_mem, countErases_mem, setBank_mem]

/-- STAGE_COMPLETE with images that match their hashes (R455). -/
theorem stageDone_matches {d : Dev} {b : Bank} (hst : d.upd.st = .staging) (ht : d.upd.target = some b) (hh : headerOk b = true)
    (hs : hashesOk b = true) (hl : d.ldg.banks.length = 2) : (stageDone d).upd.st = .staged ∧ (stageDone d).upd.result = .done ∧
      (stageDone d).upd.busy = false ∧ bankAt (stageDone d) (!d.ldg.bankB) = b := by
  have h : stageDone d = stageEnds (journalStage .staged (setBank (d.modUpd fun u => { u with target := none, progress := 1000 })
      (!d.ldg.bankB) b)) .done := by
    unfold stageDone
    rw [hst, ht]
    dsimp only
    rw [hh, hs]
    rfl
  rw [h, stageEnds, raiseOp_upd]
  refine ⟨rfl, rfl, rfl, ?_⟩
  rw [bankAt_congr (congrArg Ledger.banks (raiseOp_ldg _ _ _ _)), updEnd, bankAt_modUpd, bankAt_journalStage, bankAt_setBank (by exact hl)]

/-! ## Activation -/

theorem budgetUpdate_quiet_ldg {d : Dev} (h : Quiet d) : (budgetUpdate d).ldg = d.ldg := by
  rw [budgetUpdate_of_quiet h]
  dsimp only
  split
  · exact raiseOp_ldg _ _ _ _
  · rfl

/-- Steps 1 and 2 of an activation on a unit that has no standby's pairing to leave (R459). -/
theorem activateStart_begins {d : Dev} (trial : Bool) (hs : d.twin.st ≠ .standby) (hq : Quiet d) :
    (activateStart trial d).upd.st = .activating ∧ (activateStart trial d).upd.paused = true ∧ (activateStart trial d).upd.reverting = !trial ∧
      (activateStart trial d).ldg.boot = { bankB := !d.ldg.bankB, trial := trial, tries := if trial then regBits d 0x90024 23 20 else 0 } := by
  unfold activateStart
  dsimp only
  rw [if_neg (by exact hs)]
  refine ⟨rfl, rfl, rfl, ?_⟩
  rw [Dev.modUpd_ldg, journalStage_boot, budgetUpdate_quiet_ldg (by exact hq)]
  rfl

theorem activate_accepted {d : Dev} (h : activateBad d .staged = none) : activate d = activateStart true d := by
  unfold activate
  rw [h]

theorem revert_accepted {d : Dev} (h : activateBad d .trial = none) : revert d = activateStart false d := by
  unfold revert
  rw [h]

/-- What an update command's end keeps: the ledger and the update state, whatever events it raises. -/
theorem raiseOp_upd_ldg (d : Dev) (c : Nat) (src : EvSource) (vs : List Nat) :
    (raiseOp d c src vs).upd = d.upd ∧ (raiseOp d c src vs).ldg = d.ldg := ⟨raiseOp_upd _ _ _ _, raiseOp_ldg _ _ _ _⟩

theorem ite_raiseOp_upd_ldg (b : Prop) [Decidable b] (d : Dev) (c : Nat) (src : EvSource) (vs : List Nat) :
    (if b then raiseOp d c src vs else d).upd = d.upd ∧ (if b then raiseOp d c src vs else d).ldg = d.ldg := by
  split
  · exact raiseOp_upd_ldg _ _ _ _
  · exact ⟨rfl, rfl⟩

/-- COMMIT of a trial (R457, R461). -/
theorem updCommit_trial {d : Dev} (h : d.upd.st = .trial) : (updCommit 0x7A3C d).upd.st = .idle ∧ (updCommit 0x7A3C d).upd.result = .done ∧
    (updCommit 0x7A3C d).ldg.floor = max d.ldg.floor (min 64 (svnOf (running d))) ∧ (updCommit 0x7A3C d).ldg.boot.trial = false := by
  unfold updCommit
  rw [if_neg (by decide), if_neg (by simp [h])]
  extract_lets svn f d1 b d2 d3 d4
  obtain ⟨hu3, hl3⟩ : d3.upd = d2.upd ∧ d3.ldg = d2.ldg := ite_raiseOp_upd_ldg _ _ _ _ _
  obtain ⟨hu4, hl4⟩ : d4.upd = d3.upd ∧ d4.ldg = d3.ldg := ite_raiseOp_upd_ldg _ _ _ _ _
  rw [raiseOp_upd, raiseOp_ldg, hu4, hl4, hu3, hl3]
  exact ⟨rfl, rfl, rfl, rfl⟩

/-- REVOKE of a signer that is not the running image's, nor the last (R458). -/
theorem updRevoke_revokes {d : Dev} {n : Nat} (hst : d.upd.st ≠ .trial) (hfw : d.ldg.stage = .firmware) (hn : n < 4)
    (hs : signerOf (running d) ≠ some n) (hk : ∃ k, k < 4 ∧ k ≠ n ∧ d.ldg.revoked.getLsbD k = false) :
    (updRevoke n 0x7A3C d).ldg.revoked = d.ldg.revoked ||| (1#4 <<< n) ∧ (updRevoke n 0x7A3C d).upd.result = .done := by
  obtain ⟨k, hk4, hkn, hrev⟩ := hk
  have hlast : ((List.range 4).all fun m => m = n || d.ldg.revoked.getLsbD m) = false := by
    rw [List.all_eq_false]
    exact ⟨k, List.mem_range.2 hk4, by simp [hkn, hrev]⟩
  unfold updRevoke
  rw [if_neg (by decide), if_neg (by simp [hst, hfw, hn]), hlast, if_neg Bool.false_ne_true, if_neg hs, raiseOp_upd, raiseOp_ldg]
  exact ⟨rfl, rfl⟩

/-! ## Recovery -/

theorem inRecovery_i3c {d : Dev} (h : d.ldg.stage = .recovery) (f : Dev → Dev) : inRecovery .i3c f d = f d := if_pos (by simp [h])

theorem recoverBegin_upd (d : Dev) : (recoverBegin d).upd.st = .recoveryLoad ∧ (recoverBegin d).upd.rcvAt = 0 := by
  rw [recoverBegin, Dev.modUpd_upd]
  exact ⟨rfl, rfl⟩

theorem recoverBegin_erases {d : Dev} (hl : d.ldg.banks.length = 2) : bankAt (recoverBegin d) false = noBank := by
  rw [recoverBegin, bankAt_modUpd, updEnd, bankAt_modUpd, bankAt_countErases, bankAt_setBank hl]

/-- A bank A that passes R427 without the main input: its boot waits for the next power-up (R464). -/
theorem recoverEnd_off {d : Dev} (hst : d.upd.st = .recoveryLoad) (hc : bankCheck d.ldg (bankAt d false) = .none) (hp : d.pwr.st = .off)
    (hm : d.dur.mainOk = false) : (recoverEnd d).upd.st = .idle ∧ (recoverEnd d).upd.result = .done := by
  unfold recoverEnd
  rw [if_neg (by simp [hst]), hc]
  dsimp only
  unfold bootAgain
  simp only [setBoot, stateEntry, updEnd, Dev.modLdg_pwr, Dev.modUpd_pwr, Dev.modLdg_dur, Dev.modUpd_dur, hp, hm, Bool.false_and]
  exact ⟨rfl, rfl⟩

/-- The bank with the next word of the load (R464). -/
def loadedBank (b : Bank) (at_ : Nat) (v : Word) : Bank :=
  if at_ < 1008 then { b with header := b.header ++ leBytes 4 v.toNat } else { b with stream := b.stream ++ leBytes 4 v.toNat }

theorem recoverWord_loads {d : Dev} (hst : d.upd.st = .recoveryLoad) (hn : d.upd.rcvAt < 1032192) (v : Word) :
    recoverWord .i3c v d = ((setBank d false (loadedBank (bankAt d false) d.upd.rcvAt v)).modUpd fun u =>
      { u with rcvAt := u.rcvAt + 1, progress := (u.rcvAt + 1) * 1000 / 1032192 }, 0) := by
  unfold recoverWord
  rw [if_neg (by simp [hst, hn])]
  rfl

/-! ## The reload -/

/-- ACTIVATE_RELOAD of a unit with no operation in flight (R459). -/
theorem reload_runs {d : Dev} (hst : d.upd.st = .activating) (hsave : d.dur.save = .idle) (hw : d.rst.warm = .none) (ho : d.net.ops = [])
    (hq : Quiet d) (hj : d.twin.st ≠ .joining) : (reload d).ldg.bankB = d.ldg.boot.bankB ∧ (reload d).upd.paused = false ∧
      (reload d).upd.result = .done ∧ (reload d).upd.st = if d.upd.reverting then .idle else .trial := by
  obtain ⟨cs, cc, l, hrun⟩ := flushSetups_send d
  rw [← runOut_noOps ho] at hrun
  unfold reload
  rw [if_neg (by simp [hst, hsave, hw]), hrun]
  extract_lets old n d1 d2 d3 d4
  have h3 : EventFrame d2 d3 := by
    simp only [d3]
    split
    · exact raiseOp_frame _ _ _ _
    · exact .refl _
  have h4 : EventFrame d2 d4 := h3.trans (raiseOp_frame _ _ _ _)
  obtain ⟨_, _, _, h4⟩ := h4
  have htwin : d4.twin = d.twin := by
    rw [h4]
    rfl
  have hquiet : Quiet d4 := by
    obtain ⟨hdue, hqueue, hwaits⟩ := hq
    have hfolds : d4.folds = d.folds := by
      rw [h4]
      rfl
    exact ⟨by rw [htwin, hdue], by rw [hfolds, hqueue], by rw [hfolds, hwaits]⟩
  rw [if_neg (by rw [htwin]; exact hj), settleFully_quiet hquiet, h4]
  exact ⟨rfl, rfl, rfl, rfl⟩

/-- Settles O55: each command by the lemma about what it does in the state that the clause names. -/
theorem storeAndUpdateRun : Obligations.StoreAndUpdateRun := by
  intro s p
  refine ⟨fun ho hb => ⟨fun hv hf => ?_, fun hs hf => ?_, ?_⟩, fun ho hb => ⟨fun x b hst hfw hsave hx hc hd hl => ?_, fun h hs hq => ?_,
    fun h hs hq => ?_, fun h => ?_, fun n hst hfw hn hs hk => ?_⟩, fun hl ho hb hr => ⟨?_, fun hst hc hp hm => ?_⟩, fun v hl ho hst hn => ?_,
    fun b hst ht hh hs hl => ⟨_, rfl, stageDone_matches hst ht hh hs hl⟩,
    fun hst hsave hw hops hq hj => ⟨_, rfl, reload_runs hst hsave hw hops hq hj⟩⟩
  case refine_1 =>
    obtain ⟨hstale, hseq, t, ht, hregs⟩ := storeTuning_stores s.dev
    obtain ⟨hcfg, hupd, hres⟩ := shpAnswer_parts (storeTuning s.dev) p 0
    exact runs_command ho rfl (shpCmd_ready hb (shpTuning_valid hv hf))
      ⟨hres, (congrArg CfgStore.sequence hcfg).trans hseq, (congrArg Upd.stale hupd).trans hstale, t, (congrArg CfgStore.tuning hcfg).trans ht, hregs⟩
  case refine_2 =>
    obtain ⟨hcfg, -, hres⟩ := shpAnswer_parts (storeNetwork s.dev) p 0
    exact runs_command ho rfl (shpCmd_ready hb (shpIdentity_fenced hs hf))
      ⟨hres, (congrArg CfgStore.network hcfg).trans (storeNetwork_network s.dev)⟩
  case refine_3 =>
    obtain ⟨_, _, _, _, h⟩ := compactStore_ldg s.dev
    exact runs_command ho rfl (shpCmd_ready hb rfl) ⟨rfl, congrArg (fun l => l.cfg.written) h⟩
  case refine_4 =>
    obtain ⟨hst', hbusy, htarget, hbank, hmem⟩ := stageDelta_stages hst hfw hsave hx hc hd hl
    exact runs_command ho rfl (updCmd_ready hb _) ⟨hst', hbusy, htarget, (bankAt_answer _ _ _ _ _ _ _ _).trans hbank, hmem⟩
  case refine_5 =>
    obtain ⟨hst, hpaused, -, hboot⟩ := activateStart_begins true hs hq
    refine runs_command ho rfl ((updCmd_ready hb _).trans (congrArg (·, 0) (activate_accepted h))) ?_
    exact ⟨hst, hpaused, congrArg BootEntry.bankB hboot, congrArg BootEntry.trial hboot, congrArg BootEntry.tries hboot⟩
  case refine_6 =>
    obtain ⟨hst, -, hrev, hboot⟩ := activateStart_begins false hs hq
    refine runs_command ho rfl ((updCmd_ready hb _).trans (congrArg (·, 0) (revert_accepted h))) ?_
    exact ⟨hst, hrev, congrArg BootEntry.bankB hboot, congrArg BootEntry.trial hboot⟩
  case refine_7 => exact runs_command ho rfl (updCmd_ready hb _) (updCommit_trial h)
  case refine_8 => exact runs_command ho rfl (updCmd_ready hb _) (updRevoke_revokes hst hfw hn hs hk)
  case refine_9 =>
    exact runs_command ho rfl ((updCmd_ready hb _).trans (congrArg (·, 0) (inRecovery_i3c hr _))) 
      ⟨(recoverBegin_upd s.dev).1, (recoverBegin_upd s.dev).2, (bankAt_answer _ _ _ _ _ _ _ _).trans (recoverBegin_erases hl)⟩
  case refine_10 =>
    exact runs_command ho rfl ((updCmd_ready hb _).trans (congrArg (·, 0) (inRecovery_i3c hr _))) (recoverEnd_off hst hc hp hm)
  case refine_11 =>
    have hbank := bankAt_setBank hl false (loadedBank (bankAt s.dev false) s.dev.upd.rcvAt v)
    refine runs_command ho rfl (recoverWord_loads hst hn v) ⟨rfl, fun h => hbank.trans (if_pos h), fun h => hbank.trans (if_neg (by omega))⟩

end Sys2Proof.Machine
end

section
/-! SUPPORT. The power sequencer (R476 to R483), with the statement about it. -/
namespace Sys2Proof.Machine

/-! ## Steps of the supervisor -/

theorem islandsDown_pwr (d : Dev) : (islandsDown d).pwr = { d.pwr with served := false, calBusy := false } := rfl

theorem islandsDown_mem (d : Dev) : (islandsDown d).mem = [] := rfl

theorem islandsDown_save (d : Dev) : (islandsDown d).dur.save = .idle := rfl

theorem beginDown_pwr (d : Dev) (n : Nat) : (beginDown d n).pwr.st = .rampDown ∧ (beginDown d n).pwr.step = n ∧
    (beginDown d n).pwr.wait = .down ∧ (beginDown d n).pwr.cause = d.pwr.cause ∧ (beginDown d n).pwr.faulty = d.pwr.faulty ∧
    (beginDown d n).pwr.sensors = d.pwr.sensors := by
  have h := setPwr_pwr d .rampDown
  have hst := congrArg Pwr.st h
  have hcause := congrArg Pwr.cause h
  have hfaulty := congrArg Pwr.faulty h
  have hsensors := congrArg Pwr.sensors h
  exact ⟨hst, rfl, rfl, hcause, hfaulty, hsensors⟩

theorem powerDown_pwr (d : Dev) : (powerDown d).pwr.st = .rampDown ∧ (powerDown d).pwr.cause = d.pwr.cause ∧
    (powerDown d).pwr.faulty = d.pwr.faulty ∧ (powerDown d).pwr.sensors = d.pwr.sensors := by
  obtain ⟨hst, -, -, hcause, hfaulty, hsensors⟩ := beginDown_pwr (d.modPwr fun p => { p with reverse := false }) (lastStep d)
  exact ⟨hst, hcause, hfaulty, hsensors⟩

theorem takeSnap_pwr (d : Dev) (cause : OffCause) (rail : Nat) : ∃ s r, (takeSnap d cause rail).pwr = { d.pwr with snap := s, cause := cause, rail := r } :=
  ⟨_, _, rfl⟩

/-- A sequence fault takes the steps down from the one that stands (R483). -/
theorem seqFault_pwr (d : Dev) (rail : Nat) : (seqFault d rail).pwr.st = .rampDown ∧ (seqFault d rail).pwr.cause = .seqFault ∧
    (seqFault d rail).pwr.step = d.pwr.step ∧ (seqFault d rail).pwr.wait = .down ∧ (seqFault d rail).pwr.sensors = d.pwr.sensors := by
  unfold seqFault
  extract_lets d1 d2 again
  have hp : d2.pwr = d1.pwr := raise_pwr _ _ _ _ _
  obtain ⟨hst, hstep, hwait, hcause, -, hsensors⟩ := beginDown_pwr
    (d2.modPwr fun p => { p with retry := again, faulty := p.faulty || !again, reverse := false }) d.pwr.step
  have hsnap : d2.pwr.sensors = d1.pwr.sensors := congrArg Pwr.sensors hp
  exact ⟨hst, hcause.trans (congrArg Pwr.cause hp), hstep, hwait, hsensors.trans hsnap⟩

/-! ## Rising -/

theorem setLine_true_getLsbD (w : BitVec 16) {n : Nat} (h : n < 16) : (setLine w n true).getLsbD n = true := by
  rw [getLsbD_setLine w h]
  simp

theorem pgRise_line {n : Nat} (h : n < 16) (d : Dev) : pgRise n d = d.modPwr fun p =>
    { p with pg := setLine p.pg n true,
             wait := if p.st = .rampUp && p.wait = .pg && n = wbits (seqA d p.step) 19 16 then .settle else p.wait } :=
  if_neg (by omega)

section
variable {d : Dev} (hst : d.pwr.st = .rampUp) (hw : d.pwr.wait = .settle) (hb : (seqA d d.pwr.step).getLsbD 15 = false)
include hst hw hb

/-- A rail that is good begins the next step (R476). -/
theorem settled_next {mv : Nat} (hr : railIn d (wbits (seqA d d.pwr.step) 10 8) mv = true) (hrev : d.pwr.reverse = false)
    (hn : d.pwr.step + 1 < seqLen d) :
    settled mv d = beginStep (setRail d (wbits (seqA d d.pwr.step) 10 8) mv) (d.pwr.step + 1) := by
  unfold settled
  rw [if_neg (by simp [hst, hw])]
  dsimp only
  rw [hb, hr, hrev, if_neg (by simp), if_neg Bool.false_ne_true, if_pos hn, if_neg Bool.false_ne_true]

/-- A rail that is not good ends the power-up (R483). -/
theorem settled_fault {mv : Nat} (hr : railIn d (wbits (seqA d d.pwr.step) 10 8) mv = false) :
    settled mv d = seqFault (setRail d (wbits (seqA d d.pwr.step) 10 8) mv) (wbits (seqA d d.pwr.step) 10 8) := by
  unfold settled
  rw [if_neg (by simp [hst, hw])]
  dsimp only
  rw [hb, hr, if_pos (by simp), if_neg Bool.false_ne_true]

end

theorem pgTimeout_waiting {d : Dev} (hst : d.pwr.st = .rampUp) (hw : d.pwr.wait = .pg) :
    pgTimeout d = seqFault d (wbits (seqA d d.pwr.step) 10 8) :=
  if_pos (by simp [hst, hw])

/-! ## Falling -/

theorem downExpiry_step {d : Dev} {n : Nat} (hst : d.pwr.st = .rampDown) (hw : d.pwr.wait = .down) (hn : d.pwr.step = n + 1) :
    downExpiry d = lowerStep d n := by
  unfold downExpiry
  rw [if_neg (by simp [hst, hw]), hn]

theorem downExpiry_last {d : Dev} (hst : d.pwr.st = .rampDown) (hw : d.pwr.wait = .down) (hn : d.pwr.step = 0) :
    downExpiry d = downEnded d := by
  unfold downExpiry
  rw [if_neg (by simp [hst, hw]), hn]

/-- A power-down without a fault ends in OFF (R482). -/
theorem downEnded_off {d : Dev} (hf : d.pwr.faulty = false) : (downEnded d).pwr.st = .off ∧ (downEnded d).pwr.minOff = true := by
  unfold downEnded
  rw [hf]
  dsimp only
  rw [islandsDown_pwr, Dev.modPwr_pwr, setPwr_pwr]
  exact ⟨rfl, rfl⟩

theorem minOffExpiry_quiet {d : Dev} (hm : d.pwr.minOff = true) (hh : d.pwr.onHeld = false) (hr : d.pwr.retry = false) :
    minOffExpiry d = d.modPwr fun p => { p with minOff := false, wait := .none } :=
  (if_pos hm).trans (if_neg (by simp [hh, hr]))

/-! ## Requests -/

/-- An off request for the reason given, before the state decides what follows. -/
def offCause (cause : OffCause) (stay : Bool) (d : Dev) : Dev :=
  d.modPwr fun p => { p with faulty := p.faulty || stay, cause := cause }

theorem offRequest_off {d : Dev} (h : d.pwr.st = .off) (cause : OffCause) (rail : Nat) :
    offRequest cause true false rail d = setPwr (offCause cause true d) .fault := by
  unfold offRequest
  rw [h]
  rfl

theorem offRequest_unserved {d : Dev} (h : d.pwr.st = .on) (hs : d.pwr.served = false) (cause : OffCause) (rail : Nat) :
    offRequest cause true false rail d = powerDown ((offCause cause true d).modPwr fun p => { p with calBusy := false }) := by
  unfold offRequest
  rw [h, hs]
  rfl

theorem offRequest_off_pwr {d : Dev} (h : d.pwr.st = .off) (cause : OffCause) (rail : Nat) :
    (offRequest cause true false rail d).pwr = { d.pwr with faulty := true, cause := cause, st := .fault } := by
  rw [offRequest_off h, setPwr_pwr, offCause, Dev.modPwr_pwr, Bool.or_true]

theorem offRequest_unserved_pwr {d : Dev} (h : d.pwr.st = .on) (hs : d.pwr.served = false) (cause : OffCause) (rail : Nat) :
    (offRequest cause true false rail d).pwr.st = .rampDown ∧ (offRequest cause true false rail d).pwr.cause = cause ∧
      (offRequest cause true false rail d).pwr.faulty = true ∧ (offRequest cause true false rail d).pwr.sensors = d.pwr.sensors := by
  rw [offRequest_unserved h hs]
  obtain ⟨hst, hcause, hfaulty, hsensors⟩ := powerDown_pwr ((offCause cause true d).modPwr fun p => { p with calBusy := false })
  exact ⟨hst, hcause, hfaulty.trans (Bool.or_true _), hsensors⟩

/-- An on request that a power-down or a save holds (R482). -/
theorem onRequest_held {d : Dev} (h : d.pwr.st = .rampDown ∨ d.pwr.st = .saving) :
    onRequest true d = d.modPwr fun p => { p with onHeld := true, onClears := p.onClears || true } := by
  unfold onRequest
  rcases h with h | h <;> rw [h]

/-! ## Rail faults -/

/-- A CUT leaves the supervisor in FAULT and the islands without supply (R480). -/
theorem cutPower_pwr (rail : Nat) (d : Dev) : (cutPower rail d).pwr.st = .fault ∧ (cutPower rail d).pwr.faulty = true ∧
    (cutPower rail d).pwr.cause = .railCut := by
  unfold cutPower
  extract_lets d1 d2
  have hp : d2.pwr = d1.pwr := raise_pwr _ _ _ _ _
  rw [islandsDown_pwr, Dev.modPwr_pwr, setPwr_pwr]
  exact ⟨rfl, rfl, congrArg Pwr.cause hp⟩

theorem cutPower_mem (rail : Nat) (d : Dev) : (cutPower rail d).mem = [] := rfl

section
variable {d : Dev} {rail mv : Nat} {hard : Bool} (hon : d.pwr.pwron = true) (hlt : rail < 8) (hj : judged d rail = true)
  (hr : railIn d rail mv = false)
include hon hlt hj hr

theorem railFault_cut (hst : d.pwr.st = .on) (hh : hard = true) : railFault rail mv hard d = cutPower rail (setRail d rail mv) := by
  unfold railFault
  rw [if_neg (by simp [hon, hj, hlt]), hr, if_neg Bool.false_ne_true, hst, hh]
  rfl

/-- The reading and its record, when a rail fails in a power-down (R480). -/
def railTold (rail mv : Nat) (d : Dev) : Dev :=
  raise (takeSnap (setRail d rail mv) .railSeq rail) 0x010A srcPWR (snapPayload (takeSnap (setRail d rail mv) .railSeq rail)) []

omit hon hlt hj hr in
theorem railTold_pwr : (railTold rail mv d).pwr = (takeSnap (setRail d rail mv) .railSeq rail).pwr := raise_pwr _ _ _ _ _

theorem railFault_rampDown (hst : d.pwr.st = .rampDown) : railFault rail mv hard d =
    if (stepOfRail d rail).isNone then railTold rail mv d
    else (railTold rail mv d).modPwr fun p =>
      { p with en := p.en &&& 0xC000, pg := p.pg &&& 0xC000, inWin := p.inWin &&& 0xC0, step := 0, wait := .down } := by
  unfold railFault
  rw [if_neg (by simp [hon, hj, hlt]), hr, if_neg Bool.false_ne_true, hst]
  rfl

end

theorem chargerLow_parts (d : Dev) : (chargerLow d).pwr.pg.getLsbD 14 = false ∧ (chargerLow d).mem = d.mem := by
  have hline : (setLine d.pwr.pg 14 false).getLsbD 14 = false := by
    rw [getLsbD_setLine _ (by decide)]
    simp
  unfold chargerLow
  dsimp only
  split
  · rw [raiseOp_pwr, raiseOp_mem]
    exact ⟨hline, rfl⟩
  · exact ⟨hline, rfl⟩

theorem brownOut_unpowered {d : Dev} (h : d.pwr.st = .off ∨ d.pwr.st = .fault) : brownOut d = pwronFall d := by
  unfold brownOut
  rcases h with h | h <;> rw [h]

/-- Settles O56: each event by the lemma about what the supervisor does in the state that the clause names. -/
theorem powerSequencesRun : Obligations.PowerSequencesRun := by
  intro s
  refine ⟨fun n hn => ?_, fun mv n hst hw hn hb => ⟨fun hr hrev hlen => ?_, fun hr => ?_⟩, fun hst hw => ?_, fun hst hw => ⟨fun n hn => ?_,
    fun hn hf => ?_⟩, fun hm hh hr => becomes_of rfl (minOffExpiry_quiet hm hh hr), fun p ho => ⟨fun hst => ?_, fun hst hs => ?_, fun hst => ?_⟩,
    fun rail mv hard hon hlt hj hr => ⟨fun hst hh => ?_, fun hst hs => ?_, fun hst hs => ?_⟩, ⟨_, rfl, chargerLow_parts s.dev⟩,
    fun h => becomes_of rfl (brownOut_unpowered h)⟩
  case refine_1 =>
    exact ⟨_, becomes_of rfl (pgRise_line hn s.dev), setLine_true_getLsbD _ hn, fun hst hw he => if_pos (by simp [hst, hw, he])⟩
  case refine_2 =>
    subst hn
    exact ⟨_, becomes_of rfl (settled_next hst hw hb hr hrev hlen), hst, rfl, rfl⟩
  case refine_3 =>
    subst hn
    obtain ⟨hdown, hcause, -⟩ := seqFault_pwr (setRail s.dev (wbits (seqA s.dev s.dev.pwr.step) 10 8) mv) (wbits (seqA s.dev s.dev.pwr.step) 10 8)
    exact ⟨_, becomes_of rfl (settled_fault hst hw hb hr), hdown, hcause⟩
  case refine_4 =>
    obtain ⟨hdown, hcause, hstep, hwait, -⟩ := seqFault_pwr s.dev (wbits (seqA s.dev s.dev.pwr.step) 10 8)
    exact ⟨_, becomes_of rfl (pgTimeout_waiting hst hw), hdown, hcause, hstep, hwait⟩
  case refine_5 => exact ⟨_, becomes_of rfl (downExpiry_step hst hw hn), rfl, hst, rfl⟩
  case refine_6 =>
    obtain ⟨hoff, hmin⟩ := downEnded_off hf
    exact ⟨_, becomes_of rfl (downExpiry_last hst hw hn), hoff, hmin, islandsDown_mem _, islandsDown_save _⟩
  case refine_7 =>
    have h := offRequest_off_pwr hst .cmdOff 0
    exact runs_command ho rfl rfl ⟨congrArg Pwr.st h, congrArg Pwr.cause h, congrArg Pwr.faulty h⟩
  case refine_8 =>
    obtain ⟨hdown, hcause, -⟩ := offRequest_unserved_pwr hst hs .cmdOff 0
    exact runs_command ho rfl rfl ⟨hdown, hcause⟩
  case refine_9 => exact runs_command ho rfl (congrArg (·, 0) (onRequest_held hst)) ⟨rfl, rfl⟩
  case refine_10 =>
    obtain ⟨hfault, hfaulty, hcause⟩ := cutPower_pwr rail (setRail s.dev rail mv)
    exact ⟨_, becomes_of rfl (railFault_cut hon hlt hj hr hst hh), hfault, hfaulty, hcause, cutPower_mem _ _⟩
  case refine_11 =>
    have hp : (railTold rail mv s.dev).pwr = _ := railTold_pwr
    refine ⟨_, becomes_of rfl ((railFault_rampDown hon hlt hj hr hst).trans (if_neg (by simpa using Option.isSome_iff_ne_none.1 hs))), ?_⟩
    exact ⟨(congrArg Pwr.st hp).trans hst, rfl, congrArg (fun p => p.en &&& 0xC000) hp⟩
  case refine_12 =>
    have hp : (railTold rail mv s.dev).pwr = _ := railTold_pwr
    refine ⟨_, becomes_of rfl ((railFault_rampDown hon hlt hj hr hst).trans (if_pos (by simp [hs]))), ?_⟩
    have hstep := congrArg Pwr.step hp
    have hen := congrArg Pwr.en hp
    exact ⟨(congrArg Pwr.st hp).trans hst, hstep, hen⟩

end Sys2Proof.Machine
end

section
/-! SUPPORT. The recorder, the buckets and the event rings' commands (R503 to R515), with the statement about them. -/
namespace Sys2Proof.Machine

/-! ## What an event changes of the event state -/

/-- An event may change pending bits, buckets, ring positions and the recorder's buffer. -/
def EvtNotes (a b : Evt) : Prop := ∃ p c f r u w, b = { a with pend := p, codes := c, folds := f, rings := r, buffer := u, full := w }

theorem EvtNotes.refl (a : Evt) : EvtNotes a a := ⟨_, _, _, _, _, _, rfl⟩

theorem EvtNotes.trans {a b c : Evt} (h : EvtNotes a b) (k : EvtNotes b c) : EvtNotes a c := by
  obtain ⟨_, _, _, _, _, _, rfl⟩ := h
  obtain ⟨_, _, _, _, _, _, rfl⟩ := k
  exact ⟨_, _, _, _, _, _, rfl⟩

theorem recordEvent_notes (d : Dev) (r : Record) : EvtNotes d.evt (recordEvent d r).evt := by
  unfold recordEvent
  split <;> exact ⟨_, _, _, _, _, _, rfl⟩

theorem ringEntry_notes (d : Dev) (f code source suppressed : Nat) (l : List Byte) : EvtNotes d.evt (ringEntry d f code source suppressed l).evt := by
  unfold ringEntry
  split
  · exact .refl _
  · split
    · exact .refl _
    · extract_lets e ok r' d1
      have h1 : EvtNotes d.evt d1.evt := ⟨_, _, _, _, _, _, rfl⟩
      split
      · rw [queueFrame_evt]
        exact h1
      · exact h1

theorem operatorCopy_notes (code source : Nat) (l : List Byte) (d : Dev) : EvtNotes d.evt (operatorCopy code source l d).evt := by
  unfold operatorCopy
  extract_lets b cls pass toRec rec' b' d1 d2
  have h1 : EvtNotes d.evt d1.evt := ⟨_, _, _, _, _, _, rfl⟩
  have h2 : EvtNotes d.evt d2.evt := by
    simp only [d2]
    split
    · exact h1.trans (recordEvent_notes _ _)
    · exact h1
  split
  · exact h2.trans (ringEntry_notes _ _ _ _ _ _)
  · exact h2

theorem foldCopy_notes (code source : Nat) (l : List Byte) (d : Dev) (f : Nat) : EvtNotes d.evt (foldCopy code source l d f).evt := by
  unfold foldCopy
  split
  · exact .refl _
  · dsimp only
    split
    · exact ⟨_, _, _, _, _, _, rfl⟩
    · refine EvtNotes.trans ?_ (ringEntry_notes _ _ _ _ _ _)
      exact ⟨_, _, _, _, _, _, rfl⟩

theorem raise_notes (d : Dev) (code : Nat) (src : EvSource) (l : List Byte) (fs : List Nat) : EvtNotes d.evt (raise d code src l fs).evt :=
  List.foldlRecOn fs _ (motive := fun e : Dev => EvtNotes d.evt e.evt) (operatorCopy_notes _ _ _ _) fun a ha f _ => ha.trans (foldCopy_notes _ _ _ a f)

/-! ## The recorder -/

/-- The record that the head of the buffer becomes (R508). -/
def writtenRecord (d : Dev) (r : Record) : Record := { r with rseq := d.evt.head + 1, regs := snapshotOf d r }

/-- A buffered record is written at the head while sectors stand erased ahead (R508). -/
theorem recorderWrite_writes {d : Dev} {r : Record} {rest : List Record} (hb : d.evt.buffer = r :: rest) (hs : d.dur.save = .idle)
    (hn : recSector (d.evt.head + 1) < 1022) (hf : d.evt.full = false) : (recorderWrite d).evt.buffer = rest ∧
      (recorderWrite d).evt.head = d.evt.head + 1 ∧ writtenRecord d r ∈ (recorderWrite d).evt.recs := by
  have hkeep (e : Dev) (he : recSector e.evt.head < 1022) : keepAhead e = e := if_pos (by simp [he])
  unfold recorderWrite
  rw [hb]
  dsimp -zeta only
  extract_lets n d0 r' d1
  have h1 : d1 = d0.modEvt fun v => { v with head := n, recs := v.recs.filter (fun x =>
      !(recSector x.rseq % 1024 = recSector n % 1024 && decide (recSector x.rseq < recSector n))) ++ [writtenRecord d r] } :=
    (if_neg (by simp [hs])).trans (hkeep _ hn)
  have hfull : d1.evt.full = false := (congrArg (fun e => e.evt.full) h1).trans hf
  rw [hfull, if_neg Bool.false_ne_true, h1]
  exact ⟨rfl, rfl, List.mem_append_right _ (List.mem_singleton.2 rfl)⟩

/-- EVT_REC_CMD CLEAR moves the oldest record past the head (R511). -/
theorem clearRecorder_clears (p : Principal) (d : Dev) : ∃ e, clearRecorder p 0x7A3C d = (e, 0) ∧ e.evt.oldest = d.evt.head + 1 ∧
    e.evt.erasing = true ∧ e.evt.recs = d.evt.recs := by
  unfold clearRecorder
  rw [if_neg (by decide)]
  extract_lets who detail d1 d2
  have h2 : EvtNotes d1.evt d2.evt := raise_notes _ _ _ _ _
  have h3 : ∃ e, (if (reg d 0x50008).getLsbD 9 then d2 else recordEvent d2 (recordOf d 0x0909 (sourceNo srcEVT) (detail.take 8) (snapAddrs d2.evt 0x0909)))
      = e ∧ EvtNotes d1.evt e.evt := by
    split
    · exact ⟨_, rfl, h2⟩
    · exact ⟨_, rfl, h2.trans (recordEvent_notes _ _)⟩
  obtain ⟨e, he, _, _, _, _, _, _, hn⟩ := h3
  refine ⟨e, congrArg (·, 0) he, ?_⟩
  rw [hn]
  exact ⟨rfl, rfl, rfl⟩

/-! ## Buckets -/

theorem codeRefill_due {d : Dev} {n : Nat} (hr : codeRate d.evt n ≠ 0) (ht : (codeBucket d.evt n).tokens < codeDepth d.evt n) :
    codeRefill n d = d.modEvt fun v =>
      { v with codes := putKey v.codes n { codeBucket d.evt n with tokens := (codeBucket d.evt n).tokens + 1 } } :=
  if_neg (by simp [hr, ht])

theorem foldRefill_due {d : Dev} {f : Nat} (hr : foldRate d.evt ≠ 0) (ht : (foldBucket d.evt f).1 < foldDepth d.evt) :
    foldRefill f d = d.modEvt fun v => { v with folds := putKey v.folds f ((foldBucket d.evt f).1 + 1, (foldBucket d.evt f).2) } :=
  if_neg (by simp [hr, ht])

theorem foldRlWrite_taken {d : Dev} (h : streamRefused d = none) (v : Word) : foldRlWrite v d = (issueCtrl d (.foldRl (limitValue v)), 0) := by
  unfold foldRlWrite
  rw [h]

theorem issueCtrl_foldRl {d : Dev} {w : Word} (h : ctrlReady d (.foldRl w) = true) : (issueCtrl d (.foldRl w)).evt.foldRl = w := by
  rw [issueCtrl_ready h]
  rfl

/-! ## Snapshot sets -/

/-- The set of a code in force, eight addresses (R510). -/
def snapSet (d : Dev) (code : Nat) : List Word := (getKey d.evt.snaps code).getD (List.replicate 8 0xFFFFFFFF)

/-- The set of the selected code once one of its addresses is written: a set without addresses is not listed. -/
def snapsWith (d : Dev) (new : List Word) : List (Nat × List Word) :=
  if new.all (fun a => a = 0xFFFFFFFF) then delKey d.evt.snaps (regBits d 0x50020 15 0) else putKey d.evt.snaps (regBits d 0x50020 15 0) new

theorem snapWrite_parts {d : Dev} {i : Nat} (hi : i < 8) {v : Word} (hv : v ≠ 0xFFFFFFFF) : ∃ e, snapWrite i v d = (e, 0) ∧
    e.evt.snaps = snapsWith d ((snapSet d (regBits d 0x50020 15 0)).set i (if snapForbidden v.toNat then 0xFFFFFFFF else v)) ∧
    e.evt.refused = (d.evt.refused || snapForbidden v.toNat) := by
  unfold snapWrite
  rw [if_neg (by omega)]
  extract_lets code bad old new d1
  have hbad : bad = snapForbidden v.toNat := (congrArg (· && snapForbidden v.toNat) (decide_eq_true hv)).trans (Bool.true_and _)
  have hnew : new = (snapSet d code).set i (if snapForbidden v.toNat then 0xFFFFFFFF else v) := by
    rw [← hbad]
    rfl
  have h1 : d1.evt.snaps = snapsWith d new ∧ d1.evt.refused = (d.evt.refused || bad) := ⟨rfl, rfl⟩
  rw [hbad, hnew] at h1
  by_cases h : new = old
  · exact ⟨d1, if_pos h, h1⟩
  · obtain ⟨_, _, _, _, _, _, hn⟩ := recordEvent_notes d1 (recordOf d 0x090A (sourceNo srcEVT) (leBytes 8 code) (new.filter fun a => a ≠ 0xFFFFFFFF))
    exact ⟨_, if_neg h, (congrArg Evt.snaps hn).trans h1.1, (congrArg Evt.refused hn).trans h1.2⟩

theorem getKey_snapsWith_address {d : Dev} {l : List Word} {i : Nat} (hi : i < l.length) {v : Word} (hv : v ≠ 0xFFFFFFFF) :
    getKey (snapsWith d (l.set i v)) (regBits d 0x50020 15 0) = some (l.set i v) := by
  have hall : ((l.set i v).all fun a => a = 0xFFFFFFFF) = false := by
    rw [List.all_eq_false]
    exact ⟨v, List.mem_iff_getElem.2 ⟨i, by simpa using hi, by simp⟩, by simpa using hv⟩
  rw [snapsWith, hall, if_neg Bool.false_ne_true]
  exact getKey_putKey.trans (if_pos rfl)

theorem getKey_snapsWith (d : Dev) {l : List Word} (hl : l.length = 8) :
    (getKey (snapsWith d l) (regBits d 0x50020 15 0)).getD (List.replicate 8 0xFFFFFFFF) = l := by
  unfold snapsWith
  split
  case isTrue h =>
    rw [getKey_delKey.trans (if_pos rfl)]
    exact (List.eq_replicate_iff.2 ⟨hl, fun a ha => of_decide_eq_true (List.all_eq_true.1 h a ha)⟩).symm
  case isFalse => rw [getKey_putKey.trans (if_pos rfl)]; rfl

/-! ## The rings -/

/-- The ring that BIND asks for (R515). -/
def boundRing (d : Dev) : Ring :=
  { conn := regBits d 0x50064 19 0, addr := BitVec.ofNat 64 ((reg d 0x50068).toNat + (reg d 0x5006C).toNat * 2 ^ 32), ckey := reg d 0x50070,
    rlog := regBits d 0x50064 31 28, eseq := 0, lost := 0 }

theorem issueCtrl_ringBind {d : Dev} {f n k : Nat} {a : DWord} {w : Word} (h : ctrlReady d (.ringBind f n a w k) = true) :
    (issueCtrl d (.ringBind f n a w k)).evt.ringResult = 0 ∧
      getKey (issueCtrl d (.ringBind f n a w k)).evt.rings f = some { conn := n, addr := a, ckey := w, rlog := k, eseq := 0, lost := 0 } := by
  rw [issueCtrl_ready h]
  exact ⟨rfl, getKey_putKey.trans (if_pos rfl)⟩

theorem issueCtrl_ringUnbind {d : Dev} {f : Nat} (h : ctrlReady d (.ringUnbind f) = true) :
    (issueCtrl d (.ringUnbind f)).evt.ringResult = 0 ∧ getKey (issueCtrl d (.ringUnbind f)).evt.rings f = none := by
  rw [issueCtrl_ready h]
  exact ⟨rfl, getKey_delKey.trans (if_pos rfl)⟩

theorem ringCmd_ready {d : Dev} (h : d.evt.ringBusy = false) (f : Dev → Dev) : ringCmd f d = (f d, 0) :=
  congrArg (·, 0) (if_neg (by simp [h]))

theorem ringBind_issues {d : Dev} {c : Conn} (hc : getConn d (regBits d 0x50064 19 0) = some c) (hf : c.ident.fold = regBits d 0x50060 15 0)
    (hlo : 6 ≤ regBits d 0x50064 31 28) (hhi : regBits d 0x50064 31 28 ≤ 12) (ha : regBits d 0x50068 5 0 = 0) (hs : streamRefused d = none) :
    ringBind d = issueCtrl (ringResult d 0) (.ringBind (regBits d 0x50060 15 0) (regBits d 0x50064 19 0)
      (BitVec.ofNat 64 ((reg d 0x50068).toNat + (reg d 0x5006C).toNat * 2 ^ 32)) (reg d 0x50070) (regBits d 0x50064 31 28)) := by
  unfold ringBind
  dsimp only
  rw [hc]
  dsimp only
  rw [if_neg (by simp [hf]), if_neg (by simp [ha, hs]; omega)]

theorem ringUnbind_issues {d : Dev} (hs : streamRefused d = none) :
    ringUnbind d = issueCtrl (ringResult d 0) (.ringUnbind (regBits d 0x50060 15 0)) :=
  if_neg (by simp [hs])

/-! ## Ageing -/

theorem checkLife_notes (before d : Dev) : EvtNotes d.evt (checkLife before d).evt := by
  unfold checkLife
  extract_lets low ro d1 d2 l d3
  split
  · exact .refl _
  · have h1 : EvtNotes d.evt d1.evt := by
      simp only [d1]
      split
      · exact raise_notes _ _ _ _ _
      · exact .refl _
    have h2 : EvtNotes d1.evt d2.evt := by
      simp only [d2]
      split
      · exact raise_notes ((d1.modFtl _).modDur _) _ _ _ _
      · exact .refl _
    have h3 : EvtNotes d2.evt d3.evt := by
      simp only [d3]
      split
      · exact raise_notes _ _ _ _ _
      · exact .refl _
    exact (h1.trans h2).trans h3

theorem ageing_parts (drifts : List Nat) (d : Dev) : (ageing drifts d).evt.ageMax = (largestDrift drifts).1 ∧
    (ageing drifts d).evt.ageMon = (largestDrift drifts).2 ∧ (ageing drifts d).evt.lHold = holdLife d := by
  unfold ageing
  extract_lets m eol
  generalize hb : Dev.modEvt d _ = b
  obtain ⟨_, _, _, _, _, _, h⟩ := checkLife_notes d b
  rw [h]
  subst hb
  exact ⟨rfl, rfl, rfl⟩

/-- Settles O58: each command by the lemma about what it leaves in the event state. -/
theorem eventsAreRecorded : Obligations.EventsAreRecorded := by
  intro s
  refine ⟨fun r rest hb hs hn hf => ?_, ?_, ?_, fun p v ho => runs_command ho rfl rfl ⟨rfl, rfl⟩, fun p v ho hs hc => ?_,
    fun p i v code old ho hi hcode hold hlen hv => ?_, fun p ho => ?_, fun p f ho hbusy hf => ?_, fun drifts => ?_⟩
  case refine_1 =>
    obtain ⟨hbuf, hhead, hmem⟩ := recorderWrite_writes hb hs hn hf
    exact ⟨_, rfl, hbuf, hhead, writtenRecord s.dev r, hmem, rfl, rfl, rfl, rfl⟩
  case refine_2 =>
    rintro n b rfl hr ht
    exact becomes_of rfl (codeRefill_due hr ht)
  case refine_3 =>
    rintro f b rfl hr ht
    exact becomes_of rfl (foldRefill_due hr ht)
  case refine_4 => exact runs_command ho rfl (foldRlWrite_taken hs v) (issueCtrl_foldRl hc)
  case refine_5 =>
    subst hcode hold
    obtain ⟨e, he, hsnaps, hrefused⟩ := snapWrite_parts (d := s.dev) hi hv
    refine ⟨fun hok => runs_command ho rfl he ?_, fun hbad => runs_command ho rfl he ⟨?_, ?_⟩⟩
    · rw [hok, if_neg Bool.false_ne_true] at hsnaps
      exact (congrArg (getKey · _) hsnaps).trans (getKey_snapsWith_address (by rw [snapSet, hlen]; exact hi) hv)
    · exact hrefused.trans (by rw [hbad, Bool.or_true])
    · rw [hbad, if_pos rfl] at hsnaps
      exact (congrArg (fun m => (getKey m _).getD _) hsnaps).trans (getKey_snapsWith s.dev (by rw [List.length_set, snapSet, hlen]))
  case refine_6 =>
    obtain ⟨e, he, h⟩ := clearRecorder_clears p s.dev
    exact runs_command ho rfl he h
  case refine_7 =>
    subst hf
    refine ⟨?_, fun hs hc => ?_, runs_command ho rfl (ringCmd_ready hbusy _) rfl⟩
    · rintro n c g rfl hconn hfold rfl hlo hhi ha hs hc
      obtain ⟨hres, hring⟩ := issueCtrl_ringBind (d := ringResult s.dev 0) hc
      exact runs_command ho rfl ((ringCmd_ready hbusy _).trans (congrArg (·, 0) (ringBind_issues hconn hfold hlo hhi ha hs)))
        ⟨hres, boundRing s.dev, hring, rfl, rfl, rfl, rfl⟩
    · exact runs_command ho rfl ((ringCmd_ready hbusy _).trans (congrArg (·, 0) (ringUnbind_issues hs)))
        (issueCtrl_ringUnbind (d := ringResult s.dev 0) hc)
  case refine_8 =>
    obtain ⟨hmax, hmon, hhold⟩ := ageing_parts drifts s.dev
    exact ⟨_, rfl, hmax, hmon, hhold, ageing_mem drifts s.dev⟩

end Sys2Proof.Machine
end

section
/-! SUPPORT. The steps of a warm reset, and the gallery, fold, connection and port resets (R522 to R530), with the statement about
them. -/
namespace Sys2Proof.Machine

/-! ## The reset state under changes of connections and links -/

theorem LinkFalls.rst {d e : Dev} (h : LinkFalls d e) : e.rst = d.rst := by
  obtain ⟨_, _, _, _, _, rfl, -⟩ := h
  rfl

theorem abortOp_rst (st : Status) (d : Dev) (o : Op) : (abortOp st d o).rst = d.rst := by
  unfold abortOp
  extract_lets executed
  split
  · rfl
  · exact (endOp_falls _ _ _ _).rst

theorem quiesceWork_rst (d : Dev) (n : Nat) (abort : Bool) (cause : Status) : (quiesceWork d n abort cause).rst = d.rst := by
  have hfold (l : List Op) : (l.foldl (abortOp cause) d).rst = d.rst := foldl_keeps (·.rst) _ (abortOp_rst cause) l d
  unfold quiesceWork
  extract_lets gone d1
  split <;> exact hfold _

theorem endWaitsOn_rst (d : Dev) (n : Nat) : (endWaitsOn d n).rst = d.rst :=
  foldl_keeps (·.rst) _ (fun _ _ => (endOp_falls _ _ _ _).rst) _ d

theorem errorWork_rst (d : Dev) (n : Nat) : (errorWork d n).rst = d.rst := by
  refine foldl_keeps (·.rst) _ (fun a o => ?_) _ d
  split
  · rfl
  · obtain ⟨_, h⟩ := forgetOp_send a o
    rw [h]

/-- A connection's move leaves the reset state as it was (R137). -/
theorem applyChange_rst (d : Dev) (n : Nat) (ch : ConnChange) : (applyChange d n ch).rst = d.rst := by
  unfold applyChange
  cases getConn d n with
  | none => rfl
  | some c =>
    dsimp only
    by_cases hl : (!changeLegal c ch) = true
    · rw [if_pos hl]
    · rw [if_neg hl]
      cases ch with
      | activate | disable | rearm | rearmFailed => rfl
      | quiesce => exact quiesceWork_rst _ _ _ _
      | fail => exact errorWork_rst _ _
      | free => exact endWaitsOn_rst d n

theorem applyFoldReset_rst (d : Dev) (f : Nat) : (applyFoldReset d f).rst = d.rst := by
  refine foldl_keeps (·.rst) resetFoldConn (fun a x => ?_) _ d
  unfold resetFoldConn
  split
  · exact applyChange_rst _ _ _
  · exact applyChange_rst _ _ _
  · exact applyChange_rst _ _ _
  · rfl

theorem issueCtrl_foldReset_rst {d : Dev} {f : Nat} (h : ctrlReady d (.foldReset f) = true) : (issueCtrl d (.foldReset f)).rst = d.rst := by
  rw [issueCtrl_ready h]
  exact (applyFoldReset_rst _ f).trans (stampCtrl_rst d _)

/-! ## The commands of GLB_RESET -/

theorem resetCmd_idle {d e : Dev} {r : ResetResult} {f : Dev → Dev × ResetResult} (h : d.rst.run = none) (level : Nat) (hf : f d = (e, r)) :
    resetCmd level f d = (e.modRst fun x => { x with level := level, result := r }, 0) := by
  rw [resetCmd, if_neg (by simp [h]), hf]

theorem foldCmd_issues {d : Dev} {f : Nat} (hf : f = target d) (h0 : f ≠ 0) (hs : streamRefused d = none)
    (hl : d.folds.live.contains f = true) : foldCmd d = (issueCtrl (d.modRst fun r => { r with run := some (.fold f) }) (.foldReset f), .done) := by
  subst hf
  unfold foldCmd
  simp only [h0, hs, hl, decide_false, Bool.false_or, Option.isSome_none, Bool.not_true, Bool.false_eq_true, if_false]

/-- The device that a connection reset leaves when it names a connection that quiesces already (R529). -/
def resetNamed (n fold : Nat) (d : Dev) : Dev :=
  (raise d 0x0808 srcGLB (valuesPayload []) [fold]).modRst fun r => { r with run := some (.connection n), freeAfter := n :: r.freeAfter }

theorem connectionCmd_quiescing {d : Dev} {p : Principal} {c : Conn} (hp : p ≠ .conn (target d)) (hs : streamRefused d = none)
    (hc : getConn d (target d) = some c) (hq : c.state = .quiescing) : connectionCmd p d = (resetNamed (target d) c.ident.fold d, .done) := by
  unfold connectionCmd
  simp only [hp, hs, hc, hq, decide_false, Bool.false_or, Option.isSome_none, Bool.false_eq_true, if_false]
  rfl

/-- A port without its link is not linked, whatever the mode of the ports. -/
theorem linked_of_down {d : Dev} {p : Nat} {x : Port} (hx : d.net.ports[p]? = some x) (hl : x.link = false) : linked d p = false := by
  rw [linked, hx]
  exact (congrArg (_ && ·) hl).trans (Bool.and_false _)

theorem linked_raiseOp (d : Dev) (c : Nat) (src : EvSource) (vs : List Nat) (p : Nat) : linked (raiseOp d c src vs) p = linked d p := by
  have hm : lanesPerPort (raiseOp d c src vs) = lanesPerPort d :=
    congrArg (fun w => 2 ^ wbits w 1 0) ((reg_keeps (a := 0x40) (by decide)).raiseOp d c src vs)
  rw [linked, linked, portInUse, portInUse, hm, ports_keeps.raiseOp d c src vs]

theorem portCmd_ports {d : Dev} (h : portInUse d (target d) = true) (hl : linked d (target d) = true) : (portCmd d).2 = .done ∧
    (portCmd d).1.net.ports = modAt d.net.ports (target d) fun x => { x with link := false, resolved := [] } := by
  have hd := linkDown_ports ((linked_raiseOp d 0x0C08 (.port (target d)) [] (target d)).trans hl)
  rw [ports_keeps.raiseOp d] at hd
  unfold portCmd
  extract_lets p d1 d2
  rw [if_neg (by rw [h, Bool.not_true]; exact Bool.false_ne_true)]
  refine ⟨rfl, Eq.trans ?_ hd⟩
  dsimp only
  split <;> rfl

theorem portCmd_unlinks {d : Dev} {n : Nat} (hn : n = target d) (h : portInUse d n = true) (hlen : n < d.net.ports.length)
    (hl : linked d n = true) : linked (portCmd d).1 n = false := by
  subst hn
  obtain ⟨-, hp⟩ := portCmd_ports h hl
  exact linked_of_down (by rw [hp]; exact modAt_self (List.getElem?_eq_getElem hlen) _) rfl

/-! ## The warm reset -/

theorem endRelays_noOps {d : Dev} (h : d.net.ops = []) : endRelays d = d := by
  have hfind (n : Nat) (seq : Word) : findOp d n seq = none := by rw [findOp, h]; rfl
  unfold endRelays
  generalize d.twin.relays = l
  induction l with
  | nil => rfl
  | cons r l ih =>
    rw [List.foldl_cons, hfind]
    exact ih

theorem twlDown_linkUp {d : Dev} (lock : Bool) (h : d.net.ops = []) : (twlDown lock d).twin.linkUp = false := by
  unfold twlDown
  split
  case isTrue =>
    have hops (e : Dev) (he : e.net.ops = []) : endRelays (raiseOp e 0x0407 srcTWL []) = raiseOp e 0x0407 srcTWL [] :=
      endRelays_noOps ((ops_keeps.raiseOp e _ _ _).trans he)
    rw [hops (d.modTwin _) h, raiseOp_twin]
    rfl
  case isFalse hl => exact Bool.eq_false_iff.2 hl

theorem markDown_ops (d : Dev) (n path : Nat) : (markDown d n path).net.ops = d.net.ops := by
  unfold markDown
  cases getConn d n with
  | none => rfl
  | some c =>
    dsimp only
    cases c.paths[path]? with
    | none => rfl
    | some p =>
      dsimp only
      split
      · rfl
      · exact ops_keeps.raiseFolds _ _ _ _ _

theorem takeOver_ops (d : Dev) (n path : Nat) : (takeOver d n path).net.ops = d.net.ops := by
  unfold takeOver
  cases getConn d n with
  | none => rfl
  | some c =>
    dsimp only
    cases upPaths c with
    | nil => rfl
    | cons q qs => exact modConn_ops _ _ _

theorem linkDown_ops (p : Nat) (d : Dev) : (linkDown p d).net.ops = d.net.ops := by
  unfold linkDown
  split
  · rfl
  · refine (foldl_keeps (·.net.ops) _ (fun _ _ => takeOver_ops _ _ _) _ _).trans ?_
    exact (foldl_keeps (·.net.ops) _ (fun _ _ => markDown_ops _ _ _) _ _).trans (ops_keeps.raiseOp _ _ _ _)

theorem portsDown_ops (d : Dev) : (portsDown d).net.ops = d.net.ops := foldl_keeps (·.net.ops) _ (fun a p => linkDown_ops p a) _ d

theorem lapseBank_twin (d : Dev) : (lapseBank d).twin = d.twin := by
  unfold lapseBank
  split
  · rfl
  · exact raiseOp_twin _ _ _ _

theorem ldgLapse_twin (d : Dev) : (ldgLapse d).twin = d.twin := by
  unfold ldgLapse
  cases d.ldg.owner with
  | none => rfl
  | some p =>
    dsimp only
    split <;> rfl

theorem warmHold_twin (d : Dev) : ∃ r, (warmHold d).twin = { (ldgLapse (lapseBank (twlDown false (portsDown d)))).twin with lastCmd := r } :=
  ⟨_, rfl⟩

/-- The islands in reset: no link, no context cached, no gallery in reset (R523, R524). -/
theorem warmHold_parts {d : Dev} (h : d.net.ops = []) : (warmHold d).rst.warm = .held ∧ (warmHold d).twin.linkUp = false ∧
    (warmHold d).net.ctxCache = [] ∧ (warmHold d).rst.galReset = [] := by
  refine ⟨rfl, ?_, rfl, rfl⟩
  obtain ⟨_, ht⟩ := warmHold_twin d
  rw [ht]
  dsimp only
  rw [ldgLapse_twin, lapseBank_twin]
  exact twlDown_linkUp false ((portsDown_ops d).trans h)

theorem warmQuiesced_holds {d : Dev} (hw : d.rst.warm = .quiesce) (hs : d.dur.save = .idle) (hp : d.ftl.progs = []) (ho : d.net.ops = []) :
    warmQuiesced d = warmHold (flushSetups d) := by
  rw [warmQuiesced, if_neg (by simp [hw, hs, hp]), runOut_noOps ho]

theorem flushSetups_ops (d : Dev) : (flushSetups d).net.ops = d.net.ops := by
  obtain ⟨_, _, _, h⟩ := flushSetups_send d
  rw [h]

theorem warmLow_rampUp {d : Dev} (hw : d.rst.warm = .none) (hp : d.pwr.st = .rampUp) : warmLow d =
    (d.modPwr fun p => { p with warmLow := true }).modRst fun r => { r with byPin := true, warm := .asked } := by
  unfold warmLow warmRequest
  rw [if_neg (by simp [hw])]
  simp only [Dev.modPwr_pwr, hp]
  rfl

theorem warmLow_fenced {d : Dev} (hw : d.rst.warm = .none) (hp : d.pwr.st = .on) (hs : d.ldg.stage = .firmware) (hf : d.twin.st = .fenced) :
    warmLow d = ((d.modPwr fun p => { p with warmLow := true }).modRst fun r =>
      { r with byPin := true, warm := .quiesce, due := false, warmDue := false }).modFtl fun f => { f with ckpt := none } := by
  unfold warmLow warmRequest
  rw [if_neg (by simp [hw])]
  simp only [Dev.modPwr_pwr, Dev.modPwr_ldg, hp, hs, if_true, warmBegin, standDown, Dev.modRst_twin, Dev.modPwr_twin, hf]
  rfl

theorem warmHigh_held {d : Dev} (hw : d.rst.warm = .held) (hb : d.rst.byPin = true) : warmHigh d =
    (d.modPwr fun p => { p with warmLow := false }).modRst fun r => { r with warm := .leaving } := by
  unfold warmHigh warmLeave
  dsimp only
  rw [if_pos (by exact hb), if_neg (by simp [hw])]

theorem holdEnd_held {d : Dev} (hw : d.rst.warm = .held) (hb : d.rst.byPin = false) : holdEnd d = d.modRst fun r => { r with warm := .leaving } := by
  rw [holdEnd, if_neg (by simp [hb]), warmLeave, if_neg (by simp [hw])]

/-- The device whose warm reset has ended, before it starts again (R523). -/
def warmEnded (d : Dev) : Dev :=
  (resumeTxc (enableHall (dramResume d))).modRst fun r => { r with warm := .none, warms := satUp 0xFFFF r.warms, warmed := true }

theorem warmEnded_parts (d : Dev) : (warmEnded d).rst = { d.rst with warm := .none, warms := satUp 0xFFFF d.rst.warms, warmed := true } ∧
    (warmEnded d).dram = (dramResume d).dram ∧ (warmEnded d).twin = d.twin ∧ (warmEnded d).upd = d.upd := by
  obtain ⟨_, _, h⟩ := enableHall_frame (dramResume d)
  rw [warmEnded, h]
  exact ⟨rfl, rfl, rfl, rfl⟩

theorem ckptStart_ftl (d : Dev) : ∃ f, ckptStart d = { d with ftl := f } := by
  unfold ckptStart
  split
  · exact ⟨_, rfl⟩
  · split
    · exact ⟨_, rfl⟩
    · extract_lets f cws
      split
      · exact ⟨_, rfl⟩
      · exact ⟨_, rfl⟩

theorem warmFinish_restarts {d : Dev} (ms : Nat) (hw : d.rst.warm = .leaving) (hs : d.dur.save = .idle) (hu : d.upd.st ≠ .activating) :
    warmFinish ms d = startAgain (raiseOp (ckptStart (warmEnded d)) 0x0111 srcGLB [ms, (warmEnded d).rst.warms]) := by
  obtain ⟨-, -, -, hupd⟩ := warmEnded_parts d
  unfold warmFinish
  rw [if_neg (by simp [hw, hs])]
  extract_lets d1 d2 d3
  have h3 : d3 = warmEnded d := if_neg (by change ¬ (warmEnded d).upd.st = _; rw [hupd]; exact hu)
  rw [h3]

theorem warmFinish_parts {d : Dev} (ms : Nat) (hw : d.rst.warm = .leaving) (hs : d.dur.save = .idle) (hi : d.twin.ident.isSome = true)
    (hl : d.twin.linkUp = false) (hu : d.upd.st ≠ .activating) :
    (warmFinish ms d).rst = { d.rst with warm := .none, warms := satUp 0xFFFF d.rst.warms, warmed := true } ∧
      (warmFinish ms d).dram = (dramResume d).dram := by
  obtain ⟨hrst, hdram, htwin, -⟩ := warmEnded_parts d
  obtain ⟨_, hc⟩ := ckptStart_ftl (warmEnded d)
  have ht : (raiseOp (ckptStart (warmEnded d)) 0x0111 srcGLB [ms, (warmEnded d).rst.warms]).twin = d.twin := by
    rw [raiseOp_twin, hc]; exact htwin
  rw [warmFinish_restarts ms hw hs hu, startAgain_linkDown (by rw [ht]; exact hi) (by rw [ht]; exact hl)]
  obtain ⟨_, _, _, _, _, _, _, _, hn⟩ := newNonce_frame (raiseOp (ckptStart (warmEnded d)) 0x0111 srcGLB [ms, (warmEnded d).rst.warms])
  rw [hn]
  dsimp only
  rw [raiseOp_rst, raiseOp_dram, hc]
  exact ⟨hrst, hdram⟩

/-! ## The gallery and the fold -/

theorem recallPen_hall (d : Dev) (pen : Nat) : ∃ h, recallPen d pen = { d with hall := h } := by
  unfold recallPen
  split
  · exact ⟨_, rfl⟩
  · rename_i p hp
    clear hp
    obtain ⟨_, h⟩ := List.foldlRecOn (p.evict ++ p.lines.filter fun x => x.st = .owned)
      (fun a e => modSlice a (sliceOf e.line) fun w => takeBack w e.line pen (some e.data))
      (motive := fun a : Dev => ∃ h, a = { d with hall := h }) ⟨_, rfl⟩ fun _ ha _ _ => by obtain ⟨_, rfl⟩ := ha; exact ⟨_, rfl⟩
    extract_lets d1 d2
    have h1 : d1 = _ := h
    exact ⟨_, by rw [show d2 = d1.modHall _ from rfl, h1]; rfl⟩

theorem galleryBegin_parts {d : Dev} (g : Nat) (h : d.net.ops = []) : (galleryBegin g d).rst.due = false ∧
    (galleryBegin g d).rst.galReset = g :: d.rst.galReset ∧ ∀ n ∈ (galleryBegin g d).net.ctxCache, homeOf n ≠ g := by
  have hrun (e : Dev) (he : e.net.ops = []) : runGallery g e = e := by rw [runGallery, he]; rfl
  unfold galleryBegin
  extract_lets d0 gone d1 d2 d3 d4
  have hgone : gone = [] := by
    change d.net.ops.filter _ = []
    rw [h]
    rfl
  have h1 : d1 = d0.modRst fun r => { r with afresh := 0 } := by rw [show d1 = gone.foldl forgetOp _ from rfl, hgone]; rfl
  have h2 : d2 = _ := hrun _ (by rw [h1]; exact h)
  obtain ⟨_, hpen⟩ := recallPen_hall d2 g
  have h3 : d3 = _ := congrArg (fun x : Dev => x.modSec _) hpen
  have hr : d3.rst = { d.rst with due := false, galReset := g :: d.rst.galReset, afresh := 0 } := by rw [h3, h2, h1]; rfl
  refine ⟨(congrArg Rst.due hr).trans rfl, (congrArg Rst.galReset hr).trans rfl, fun n hn => ?_⟩
  exact of_decide_eq_true (List.mem_filter.1 hn).2

theorem resetStart_gallery {d : Dev} {g : Nat} (hw : d.rst.warmDue = false) (hr : d.rst.run = some (.gallery g)) (hd : d.rst.due = true) :
    resetStart d = galleryBegin g d := by
  unfold resetStart
  rw [if_neg (by rw [hw]; exact Bool.false_ne_true), hr]
  exact if_pos hd

theorem galleryDone_rst {d : Dev} {g : Nat} (hr : d.rst.run = some (.gallery g)) (hd : d.rst.due = false)
    (ho : ∀ o ∈ d.net.ops, homeOf o.conn ≠ g) (hf : d.twin.st = .fenced) :
    (galleryDone d).rst = { d.rst with run := none, result := .done, galReset := d.rst.galReset.filter fun x => x ≠ g } := by
  have hany : (d.net.ops.any fun o => homeOf o.conn = g) = false := List.any_eq_false.2 fun o h => by simpa using ho o h
  unfold galleryDone
  rw [hr]
  dsimp only
  rw [hd, hany, Bool.or_false, if_neg Bool.false_ne_true]
  rw [if_neg (by rw [raiseOp_twin]; simp [rewriteBlock, hf]), raiseOp_rst, ← hd]
  rfl

theorem foldDone_ends {d : Dev} {f : Nat} (hr : d.rst.run = some (.fold f)) (hq : d.twin.ctrlDue = [])
    (hc : ∀ x ∈ d.net.conns, x.2.ident.fold = f → x.2.state ≠ .active ∧ x.2.state ≠ .armed ∧ x.2.state ≠ .quiescing) :
    foldDone d = raiseOp (d.modRst fun r => { r with run := none, result := .done }) 0x0807 srcGLB [f] := by
  have hany : (d.net.conns.any fun x => x.2.ident.fold = f &&
      (x.2.state = .active || x.2.state = .armed || x.2.state = .quiescing)) = false :=
    List.any_eq_false.2 fun x hx => by
      have := hc x hx
      simp only [Bool.and_eq_true, Bool.or_eq_true, decide_eq_true_eq]
      tauto
  unfold foldDone
  rw [hr]
  dsimp only
  rw [hq, hany]
  rfl

/-- Settles O59: each command by the lemma about the step that it takes. -/
theorem resetsTakeTheirSteps : Obligations.ResetsTakeTheirSteps := by
  intro s
  refine ⟨fun hw hp => ?_, fun hw hp hs hf => ?_, fun hw hb => ?_, fun hw hb => ?_, fun hw hs hp ho => ?_,
    fun n hw hs hi hl hu => ?_, fun p ho hr => ⟨?_, fun ht => ?_, fun f hf h0 hs hl hc => ?_, ?_, ?_⟩, fun g hw hr hd ho => ?_,
    fun g hr hd ho hf => ?_, fun f hr hq hc => ?_⟩
  case refine_1 => exact ⟨_, becomes_of rfl (warmLow_rampUp hw hp), rfl, rfl, rfl⟩
  case refine_2 => exact ⟨_, becomes_of rfl (warmLow_fenced hw hp hs hf), rfl, rfl, rfl⟩
  case refine_3 => exact ⟨_, becomes_of rfl (warmHigh_held hw hb), rfl, rfl⟩
  case refine_4 => exact becomes_of rfl (holdEnd_held hw hb)
  case refine_5 => exact ⟨_, becomes_of rfl (warmQuiesced_holds hw hs hp ho), warmHold_parts ((flushSetups_ops s.dev).trans ho)⟩
  case refine_6 =>
    obtain ⟨hrst, hdram⟩ := warmFinish_parts n hw hs hi hl hu
    refine ⟨_, rfl, (congrArg Rst.warm hrst).trans rfl, (congrArg Rst.warms hrst).trans rfl, (congrArg Rst.warmed hrst).trans rfl,
      fun c hc => dramResume_none s.dev c ?_⟩
    rw [← hdram]
    exact hc
  case refine_7 => exact runs_command ho rfl (resetCmd_idle hr 1 rfl) rfl
  case refine_8 =>
    have hcmd : galleryCmd 0x7A3C s.dev = (s.dev.modRst fun r => { r with run := some (.gallery (target s.dev)), due := true }, .done) := by
      rw [galleryCmd, if_neg (by simp), if_neg (by omega)]
    exact runs_command ho rfl (resetCmd_idle hr 2 hcmd) rfl
  case refine_9 =>
    have hrst := issueCtrl_foldReset_rst (d := s.dev.modRst fun r => { r with run := some (.fold f) }) hc
    exact runs_command ho rfl (resetCmd_idle hr 3 (foldCmd_issues hf h0 hs hl))
      ⟨(congrArg Rst.run hrst).trans rfl, rfl, rfl⟩
  case refine_10 =>
    rintro n c rfl hp hs hconn hq
    exact runs_command ho rfl (resetCmd_idle hr 4 (connectionCmd_quiescing hp hs hconn hq))
      ⟨rfl, rfl, by rw [List.contains_iff_mem]; exact List.mem_cons_self⟩
  case refine_11 =>
    rintro n hn huse hlen hl
    have hdone : (portCmd s.dev).2 = .done := (portCmd_ports (hn ▸ huse) (hn ▸ hl)).1
    exact runs_command ho rfl (resetCmd_idle hr 5 rfl) ⟨portCmd_unlinks hn huse hlen hl, rfl, hdone⟩
  case refine_12 => exact ⟨_, becomes_of rfl (resetStart_gallery hw hr hd), galleryBegin_parts g ho⟩
  case refine_13 =>
    have hrst := galleryDone_rst hr hd ho hf
    refine ⟨_, rfl, (congrArg Rst.run hrst).trans rfl, (congrArg Rst.result hrst).trans rfl, ?_⟩
    rw [congrArg Rst.galReset hrst]
    simp
  case refine_14 =>
    exact ⟨_, becomes_of rfl (foldDone_ends hr hq hc), raiseOp_rst _ _ _ _, raiseOp_mem _ _ _ _⟩

end Sys2Proof.Machine
end

section
/-! SUPPORT. What changes neither the supply's state nor a register, but for the count of lost records that any event may raise, seen
through any part of the device that nothing else decides. One lemma for each operation, in the order of the model. -/
namespace Sys2Proof.Machine

/-- A part of the device that the supply's state and the registers decide, EVT_REC_DROP apart. -/
structure BoardView {α : Type} (g : Dev → α) : Prop where
  same : ∀ {d e : Dev}, e.pwr = d.pwr → (∀ a, a ≠ 0x50154 → reg e a = reg d a) → g e = g d

section
variable {α : Type} {g : Dev → α} (k : BoardView g)
include k

theorem BoardView.of_eq {d e : Dev} (hp : e.pwr = d.pwr) (hr : e.regs = d.regs) : g e = g d :=
  k.same hp fun a _ => congrArg (regVal · a) hr

/-! ## The parts of the device -/

theorem BoardView.modFolds (d f) : g (Dev.modFolds d f) = g d := k.of_eq rfl rfl
theorem BoardView.modNet (d f) : g (Dev.modNet d f) = g d := k.of_eq rfl rfl
theorem BoardView.modTwin (d f) : g (Dev.modTwin d f) = g d := k.of_eq rfl rfl
theorem BoardView.modDur (d f) : g (Dev.modDur d f) = g d := k.of_eq rfl rfl
theorem BoardView.modFtl (d f) : g (Dev.modFtl d f) = g d := k.of_eq rfl rfl
theorem BoardView.modDram (d f) : g (Dev.modDram d f) = g d := k.of_eq rfl rfl
theorem BoardView.modHall (d f) : g (Dev.modHall d f) = g d := k.of_eq rfl rfl
theorem BoardView.modSec (d f) : g (Dev.modSec d f) = g d := k.of_eq rfl rfl
theorem BoardView.modLdg (d f) : g (Dev.modLdg d f) = g d := k.of_eq rfl rfl
theorem BoardView.modUpd (d f) : g (Dev.modUpd d f) = g d := k.of_eq rfl rfl
theorem BoardView.modEvt (d f) : g (Dev.modEvt d f) = g d := k.of_eq rfl rfl
theorem BoardView.modRst (d f) : g (Dev.modRst d f) = g d := k.of_eq rfl rfl
theorem BoardView.modI3c (d f) : g (Dev.modI3c d f) = g d := k.of_eq rfl rfl
theorem BoardView.emit (d o) : g (Machine.emit d o) = g d := k.of_eq rfl rfl
theorem BoardView.memory (d : Dev) (m) : g { d with mem := m } = g d := k.of_eq rfl rfl

theorem BoardView.setConn (d n c) : g (Machine.setConn d n c) = g d := k.of_eq rfl rfl
theorem BoardView.modConn (d n f) : g (Machine.modConn d n f) = g d := modConn_keeps k.setConn d n f
theorem BoardView.queueFrame (d n p b) : g (Machine.queueFrame d n p b) = g d := k.modConn d n _

/-- The count of lost records is not seen. -/
theorem BoardView.lost (d : Dev) : g (bump d 0x50154 1) = g d :=
  k.same rfl fun a h => by rw [reg_bump, if_neg (Ne.symm h)]

/-- Events, stamps and the execution of descriptors are not seen. -/
theorem BoardView.event : EventKeeps g := ⟨k.modEvt, k.lost, k.queueFrame⟩

theorem BoardView.stamp : StampKeeps g :=
  { k.event with twin := k.modTwin, ldg := k.modLdg, dur := k.modDur, ftl := k.modFtl, sent := k.emit, hall := k.modHall,
                 setup := fun d n _ => k.modConn d n _ }

theorem BoardView.run : RunKeeps g :=
  ⟨k.stamp.noteLines, k.modFolds, k.stamp.noteLeaves, k.modHall, k.modDur, k.modFtl, k.memory⟩

/-! ## Operations, connections and frames -/

theorem BoardView.draw32 (d) : g (Machine.draw32 d).2 = g d := k.of_eq rfl rfl

theorem BoardView.draw64 (d) : g (Machine.draw64 d).2 = g d := k.of_eq rfl rfl

theorem BoardView.draw128 (d) : g (Machine.draw128 d).2 = g d := k.of_eq rfl rfl

theorem BoardView.setOp (d a1) : g (Machine.setOp d a1) = g d := k.of_eq rfl rfl

theorem BoardView.dropOp (d a1 a2) : g (Machine.dropOp d a1 a2) = g d := by
  simp only [Machine.dropOp, k.modConn, k.modNet]

theorem BoardView.stateEntry (a1 a2 d) : g (Machine.stateEntry a1 a2 d) = g d := k.of_eq rfl rfl

theorem BoardView.setBoot (a1 d) : g (Machine.setBoot a1 d) = g d := k.of_eq rfl rfl

theorem BoardView.noteSlots (e d) : g (Machine.noteSlots e d) = g d := by
  refine foldl_keeps g _ (fun a x => ?_) _ d
  split <;> simp only [k.stateEntry]

theorem BoardView.emitTo (d a1 a2 a3) : g (Machine.emitTo d a1 a2 a3) = g d := k.of_eq rfl rfl

theorem BoardView.dropFoldCache (d a1) : g (Machine.dropFoldCache d a1) = g d := k.of_eq rfl rfl

theorem BoardView.modSlice (d a1 a2) : g (Machine.modSlice d a1 a2) = g d := k.of_eq rfl rfl

theorem BoardView.modPen (d a1 a2) : g (Machine.modPen d a1 a2) = g d := k.of_eq rfl rfl

theorem BoardView.toFrame (d a1 a2) : g (Machine.toFrame d a1 a2) = g d := k.of_eq rfl rfl

theorem BoardView.evictLine {d : Dev} {s : Nat} {u : Slice} {e : SliceLine} {r : Dev} (h : Machine.evictLine d s u e = some r) : g r = g d := by
  unfold Machine.evictLine at h
  dsimp only at h
  split at h
  · split at h <;> cases h <;> simp only [k.modSlice, k.toFrame]
  · obtain ⟨_, _, rfl⟩ := Option.map_eq_some_iff.1 h
    exact k.modSlice d _ _

theorem BoardView.pumpFrames (n d) : g (Machine.pumpFrames n d) = g d := by
  induction n generalizing d with
  | zero => rfl
  | succ n ih =>
    simp only [Machine.pumpFrames]
    split
    · rfl
    · rw [ih, k.emit, k.modTwin]

theorem BoardView.pumpLink (d) : g (Machine.pumpLink d) = g d := by
  simp only [Machine.pumpLink, k.pumpFrames]

theorem BoardView.poisonLines (d a1 a2) : g (Machine.poisonLines d a1 a2) = g d := by
  unfold Machine.poisonLines
  extract_lets new d1 d2
  have h1 : g d1 = g d := (k.modTwin _ _).trans (k.modDur _ _)
  have h2 : g d2 = g d := (foldl_keeps g _ (fun a l => (k.event.raise _ _ _ _ _).trans (k.run.followLine a l)) _ _).trans h1
  split
  · exact (foldl_keeps g _ (fun a l => k.stamp.tell a _) _ _).trans h2
  · exact h2

theorem BoardView.ownLeaves (d a1 a2) : g (Machine.ownLeaves d a1 a2) = g d :=
  foldl_keeps g _ (fun a l => (k.stamp.noteLeaves _ _ _).trans (k.run.ownLeaf a l)) _ d

theorem BoardView.noteStore (d a1 a2 a3) : g (Machine.noteStore d a1 a2 a3) = g d := by
  unfold Machine.noteStore
  split <;> simp only [k.stamp.noteLeaves]

theorem BoardView.noteContext (d a1) : g (Machine.noteContext d a1) = g d := k.of_eq rfl rfl

theorem BoardView.tellEnd (d a1 a2 a3) : g (Machine.tellEnd d a1 a2 a3) = g d := by
  unfold Machine.tellEnd
  split <;> simp only [k.modConn, k.stamp.tell]

theorem BoardView.endCore (d a1 a2 a3) : g (Machine.endCore d a1 a2 a3) = g d := by
  unfold Machine.endCore
  dsimp only
  (repeat' split) <;> simp only [k.dropOp, k.noteStore, k.setConn, k.modConn, k.tellEnd]

theorem BoardView.wakeLoop (n d l) : g (Machine.wakeLoop n d l) = g d := by
  induction n generalizing d l with
  | zero => rfl
  | succ n ih =>
    cases l with
    | nil => rfl
    | cons t ts =>
      simp only [Machine.wakeLoop]
      (repeat' split) <;> simp only [ih, k.endCore]

theorem BoardView.wakeWaits (d a1) : g (Machine.wakeWaits d a1) = g d := by
  simp only [Machine.wakeWaits, k.wakeLoop]

theorem BoardView.endOp (d a1 a2 a3) : g (Machine.endOp d a1 a2 a3) = g d := by
  simp only [Machine.endOp, k.wakeWaits, k.endCore]

theorem BoardView.forgetOp (d a1) : g (Machine.forgetOp d a1) = g d := by
  simp only [Machine.forgetOp, k.dropOp]

theorem BoardView.endFailedGroup (d a1 a2) : g (Machine.endFailedGroup d a1 a2) = g d := by
  unfold Machine.endFailedGroup
  dsimp only
  split
  · split
    · refine foldl_keeps g _ (fun a j => ?_) _ d
      (repeat' split) <;> simp only [k.endOp]
    · rfl
  · rfl

theorem BoardView.breachGroup (d a1 a2 a3) : g (Machine.breachGroup d a1 a2 a3) = g d := by
  unfold Machine.breachGroup
  exact (k.modNet _ _).trans (foldl_keeps g _ (fun a o => k.endOp a o _ none) _ d)

theorem BoardView.failWith (d a1 a2) : g (Machine.failWith d a1 a2) = g d := by
  unfold Machine.failWith
  split <;> simp only [k.endFailedGroup, k.setOp, k.endOp]

theorem BoardView.failOp (d a1 a2 a3) : g (Machine.failOp d a1 a2 a3) = g d := by
  simp only [Machine.failOp, k.failWith]

theorem BoardView.groupTimeout (a1 a2 d) : g (Machine.groupTimeout a1 a2 d) = g d := by
  unfold Machine.groupTimeout
  (repeat' split) <;> simp only [k.breachGroup, k.modNet]

theorem BoardView.queuePulls (d a1 a2 a3) : g (Machine.queuePulls d a1 a2 a3) = g d := by
  simp only [Machine.queuePulls, k.modConn]

theorem BoardView.afterOrder (d a1) : g (Machine.afterOrder d a1) = g d := by
  unfold Machine.afterOrder
  (repeat' split) <;> simp only [k.setOp, k.queuePulls]

theorem BoardView.releaseOrder (a1 a2 a3 d) : g (Machine.releaseOrder a1 a2 a3 d) = g d := by
  unfold Machine.releaseOrder
  (repeat' split) <;> simp only [k.afterOrder]

theorem BoardView.pullDone (a1 a2 a3 d) : g (Machine.pullDone a1 a2 a3 d) = g d := by
  unfold Machine.pullDone
  dsimp only
  (repeat' split) <;> simp only [k.setOp, k.event.raise, k.failOp, k.queuePulls]

theorem BoardView.admitOp (d o) {r : Dev} (h : Machine.admitOp d o = some r) : g r = g d := by
  unfold Machine.admitOp at h
  dsimp only at h
  split at h
  · cases h
    exact foldl_keeps g _ (fun a p => k.setOp a _) _ d
  · cases h

theorem BoardView.admitTurn (d) {r : Dev} (h : Machine.admitTurn d = some r) : g r = g d := by
  obtain ⟨i, _, h⟩ := List.exists_of_findSome?_eq_some h
  dsimp only at h
  split at h
  · obtain ⟨a, ha, rfl⟩ := Option.map_eq_some_iff.1 h
    exact (k.modNet a _).trans (k.admitOp _ _ ha)
  · cases h

theorem BoardView.admitLoop (n d) : g (Machine.admitLoop n d) = g d := by
  induction n generalizing d with
  | zero => rfl
  | succ n ih =>
    simp only [Machine.admitLoop]
    split
    · rename_i h
      exact (ih _).trans (k.admitTurn d h)
    · rfl

theorem BoardView.admitAll (d) : g (Machine.admitAll d) = g d := by
  simp only [Machine.admitAll, k.admitLoop]

theorem BoardView.admitExpiry (a1 a2 d) : g (Machine.admitExpiry a1 a2 d) = g d := by
  unfold Machine.admitExpiry
  (repeat' split) <;> simp only [k.failOp]

theorem BoardView.enterBudget (d a1) : g (Machine.enterBudget d a1) = g d := by
  unfold Machine.enterBudget
  dsimp only
  (repeat' split) <;> simp only [k.admitAll, k.setOp, k.failOp]

theorem BoardView.fillLines (d a1 a2) : g (Machine.fillLines d a1 a2) = g d :=
  (foldl_keeps g _ (fun a l => k.stamp.useLine false a l) _ _).trans ((k.modDur _ _).trans (k.poisonLines d _ _))

theorem BoardView.fillDone (a1 a2 a3 d) : g (Machine.fillDone a1 a2 a3 d) = g d := by
  unfold Machine.fillDone
  dsimp only
  (repeat' split) <;> simp only [k.fillLines, k.setOp, k.failOp, k.enterBudget]

theorem BoardView.noteChanged (d a1 a2 a3) : g (Machine.noteChanged d a1 a2 a3) = g d := by
  simp only [Machine.noteChanged, k.modConn]

theorem BoardView.mergeFails (d a1) : g (Machine.mergeFails d a1) = g d := by
  simp only [Machine.mergeFails, k.poisonLines, k.event.raise]

theorem BoardView.copyLeaf (a1 a2 a3 d) : g (Machine.copyLeaf a1 a2 a3 d) = g d := by
  unfold Machine.copyLeaf
  (repeat' split) <;> simp only [k.setOp, k.stamp.noteLeaves, k.ownLeaves, k.stamp.markDirty]

theorem BoardView.workChunk (d a1) : g (Machine.workChunk d a1) = g d := by
  have hlines (e : Dev) (ls : List Nat) : g (ls.foldl (useLine true) e) = g e := foldl_keeps g _ (k.stamp.useLine true) ls e
  unfold Machine.workChunk
  extract_lets n lo hi d1
  have h1 : g d1 = g d := by
    simp only [d1]
    split
    · exact (k.run.movePoison _ _ _ _ _ _ _).trans ((hlines _ _).trans (k.memory d _))
    · exact (k.run.clearPoison _ _).trans ((hlines _ _).trans (k.memory d _))
    · rfl
  exact (k.setOp d1 _).trans h1

theorem BoardView.chunkTurn (a1 d) : g (Machine.chunkTurn a1 d) = g d := by
  unfold Machine.chunkTurn
  dsimp only
  (repeat' split) <;> simp only [k.copyLeaf, k.modNet, k.workChunk]

theorem BoardView.workAll (n d a1 a2) : g (Machine.workAll n d a1 a2) = g d := by
  induction n generalizing d with
  | zero => rfl
  | succ n ih =>
    simp only [Machine.workAll]
    (repeat' split) <;> simp only [ih, k.workChunk]

theorem BoardView.pruneChanged (d a1) : g (Machine.pruneChanged d a1) = g d := by
  simp only [Machine.pruneChanged, k.modConn]

theorem BoardView.complete (a1 a2 d) : g (Machine.complete a1 a2 d) = g d := by
  unfold Machine.complete
  split
  · split
    · rfl
    · extract_lets ms ready d1
      have h1 : g d1 = g d := by
        simp only [d1]
        (repeat' split) <;> simp only [k.stamp.tell]
      split
      · refine (k.pruneChanged _ _).trans ((foldl_keeps g _ (fun a m => ?_) _ _).trans h1)
        split <;> simp only [k.endOp]
      · rfl
  · rfl

theorem BoardView.pushRuns (d a1 a2 a3 a4 a5) : g (Machine.pushRuns d a1 a2 a3 a4 a5) = g d := by
  refine foldl_keeps g _ (fun a r => ?_) _ d
  dsimp only
  split <;> simp only [k.stamp.tell, k.queueFrame]

theorem BoardView.pushRead (d a1 a2 a3 a4 a5) : g (Machine.pushRead d a1 a2 a3 a4 a5) = g d := by
  unfold Machine.pushRead
  (repeat' split) <;> simp only [k.pushRuns, k.endOp, k.stamp.tell]

theorem BoardView.checkFails (d a1) : g (Machine.checkFails d a1) = g d := by
  unfold Machine.checkFails
  (repeat' split) <;> simp only [k.poisonLines, k.stamp.useLine, k.mergeFails]

theorem BoardView.runRead (d a1 a2 a3) : g (Machine.runRead d a1 a2 a3) = g d := by
  unfold Machine.runRead
  split
  · rfl
  · extract_lets x a n d1 bad runs e
    split
    · rfl
    · exact (k.pushRead _ _ _ _ _ _).trans (foldl_keeps g _ k.checkFails _ d)

theorem BoardView.startWait (d a1 a2) : g (Machine.startWait d a1 a2) = g d := by
  unfold Machine.startWait
  dsimp only
  (repeat' split) <;> simp only [k.failOp, k.endOp, k.setOp]

theorem BoardView.waitExpiry (a1 a2 d) : g (Machine.waitExpiry a1 a2 d) = g d := by
  unfold Machine.waitExpiry
  (repeat' split) <;> simp only [k.endOp]

theorem BoardView.runPersist (d a1 a2) : g (Machine.runPersist d a1 a2) = g d := by
  unfold Machine.runPersist
  dsimp only
  (repeat' split) <;> simp only [k.endOp]

theorem BoardView.runReady (a1 a2 a3 d) : g (Machine.runReady a1 a2 a3 d) = g d := by
  unfold Machine.runReady
  (repeat' split) <;> simp only [k.runRead, k.endOp, k.startWait, k.runPersist]

theorem BoardView.flushSetups (d) : g (Machine.flushSetups d) = g d := by
  refine foldl_keeps g _ (fun a x => ?_) _ d
  (repeat' split) <;> simp only [k.emitTo, k.modConn]

theorem BoardView.completeAll (d) : g (Machine.completeAll d) = g d := by
  refine (k.flushSetups _).trans (foldl_keeps g _ (fun a o => ?_) _ d)
  split <;> simp only [k.runReady, k.complete]

theorem BoardView.emitFrame (d a1 a2 a3 a4 a5 a6) : g (Machine.emitFrame d a1 a2 a3 a4 a5 a6) = g d := k.of_eq rfl rfl

theorem BoardView.sendSeq (d a1 a2 a3) : g (Machine.sendSeq d a1 a2 a3) = g d := by
  unfold Machine.sendSeq
  (repeat' split) <;> simp only [k.emitFrame, k.setConn]

theorem BoardView.sendPlain (d a1 a2 a3) : g (Machine.sendPlain d a1 a2 a3) = g d := by
  unfold Machine.sendPlain
  (repeat' split) <;> simp only [k.emitFrame, k.setConn]

theorem BoardView.resend (d a1 a2 a3) : g (Machine.resend d a1 a2 a3) = g d := by
  unfold Machine.resend
  (repeat' split) <;> simp only [k.emitFrame, k.setConn]

theorem BoardView.sendAck (d a1 a2) : g (Machine.sendAck d a1 a2) = g d := by
  unfold Machine.sendAck
  (repeat' split) <;> simp only [k.sendPlain, k.setConn]

theorem BoardView.movePath (d a1 a2 a3) : g (Machine.movePath d a1 a2 a3) = g d := by
  simp only [Machine.movePath, k.modConn]

theorem BoardView.markDown (d a1 a2) : g (Machine.markDown d a1 a2) = g d := by
  unfold Machine.markDown
  (repeat' split) <;> simp only [k.event.raiseFolds, k.setConn]

theorem BoardView.takeOver (d a1 a2) : g (Machine.takeOver d a1 a2) = g d := by
  unfold Machine.takeOver
  (repeat' split) <;> simp only [k.movePath]

theorem BoardView.pathDown (d a1 a2) : g (Machine.pathDown d a1 a2) = g d := by
  unfold Machine.pathDown
  (repeat' split) <;> simp only [k.takeOver, k.markDown]

theorem BoardView.endWaitsOn (d a1) : g (Machine.endWaitsOn d a1) = g d := foldl_keeps g _ (fun a o => k.endOp a o _ none) _ d

theorem BoardView.abortOp (a1 d a2) : g (Machine.abortOp a1 d a2) = g d := by
  unfold Machine.abortOp
  dsimp only
  (repeat' split) <;> simp only [k.endOp]

theorem BoardView.quiesceWork (d a1 a2 a3) : g (Machine.quiesceWork d a1 a2 a3) = g d := by
  have hfold (l : List Op) : g (l.foldl (Machine.abortOp a3) d) = g d := foldl_keeps g _ (k.abortOp a3) l d
  unfold Machine.quiesceWork
  dsimp only
  split <;> simp only [k.modNet, hfold]

theorem BoardView.errorWork (d a1) : g (Machine.errorWork d a1) = g d := by
  unfold Machine.errorWork
  refine (k.modNet _ _).trans (foldl_keeps g _ (fun a o => ?_) _ d)
  split <;> simp only [k.forgetOp]

theorem BoardView.leaveActive (d a1) : g (Machine.leaveActive d a1) = g d := k.of_eq rfl rfl

theorem BoardView.applyChange (d a1 a2) : g (Machine.applyChange d a1 a2) = g d := by
  unfold Machine.applyChange
  (repeat' split) <;> simp only [k.setConn, k.quiesceWork, k.leaveActive, k.errorWork, k.endWaitsOn, k.modEvt, k.modNet]

theorem BoardView.changeConn (d a1 a2) : g (Machine.changeConn d a1 a2) = g d := by
  simp only [Machine.changeConn, k.applyChange, k.stamp.streamCtrl]

theorem BoardView.sendDisconnect (d a1 a2 a3) : g (Machine.sendDisconnect d a1 a2 a3) = g d := by
  unfold Machine.sendDisconnect
  split <;> simp only [k.sendSeq]

theorem BoardView.freeAfterReset (d a1) : g (Machine.freeAfterReset d a1) = g d := by
  unfold Machine.freeAfterReset
  dsimp only
  (repeat' split) <;> simp only [k.modRst, k.changeConn]

theorem BoardView.toError (d a1 a2) : g (Machine.toError d a1 a2) = g d := by
  unfold Machine.toError
  (repeat' split) <;> simp only [k.sendDisconnect, k.freeAfterReset, k.changeConn]

theorem BoardView.quiesceDone (a1 d) : g (Machine.quiesceDone a1 d) = g d := by
  unfold Machine.quiesceDone
  (repeat' split) <;> simp only [k.modConn, k.queueFrame, k.changeConn]

theorem BoardView.touchCtx (d a1) : g (Machine.touchCtx d a1) = g d := by
  unfold Machine.touchCtx
  split <;> simp only [k.modNet]

theorem BoardView.refillUcr (a1 d) : g (Machine.refillUcr a1 d) = g d := by
  unfold Machine.refillUcr
  split <;> simp only [k.modNet]

theorem BoardView.linkDown (a1 d) : g (Machine.linkDown a1 d) = g d := by
  unfold Machine.linkDown
  split
  · rfl
  · refine (foldl_keeps g _ (fun a (x : Nat × Nat) => k.takeOver a x.1 x.2) _ _).trans ?_
    exact (foldl_keeps g _ (fun a (x : Nat × Nat) => k.markDown a x.1 x.2) _ _).trans ((k.event.raiseOp _ _ _ _).trans (k.modNet d _))

theorem BoardView.linkUp (a1 d) : g (Machine.linkUp a1 d) = g d := by
  unfold Machine.linkUp
  (repeat' split) <;> simp only [k.modNet, k.emit, k.event.raiseOp, k.modRst]

theorem BoardView.resolve (a1 a2 a3 d) : g (Machine.resolve a1 a2 a3 d) = g d := k.of_eq rfl rfl

theorem BoardView.ptpSynced (d a1) : g (Machine.ptpSynced d a1) = g d := k.of_eq rfl rfl

theorem BoardView.ptpMessage (a1 a2 d) : g (Machine.ptpMessage a1 a2 d) = g d := by
  unfold Machine.ptpMessage
  (repeat' split) <;> simp only [k.modTwin, k.ptpSynced]

theorem BoardView.periodEnd (a1 a2 a3 d) : g (Machine.periodEnd a1 a2 a3 d) = g d := by
  simp only [Machine.periodEnd, k.modConn]

theorem BoardView.guardTxc (d a1) : g (Machine.guardTxc d a1) = g d := by
  unfold Machine.guardTxc
  (repeat' split) <;> simp only [k.toError]

theorem BoardView.rtoExpired (a1 a2 d) : g (Machine.rtoExpired a1 a2 d) = g d := by
  unfold Machine.rtoExpired
  dsimp only
  (repeat' split) <;> simp only [k.modConn, k.guardTxc, k.resend, k.pathDown]

theorem BoardView.probeDown (a1 a2 d) : g (Machine.probeDown a1 a2 d) = g d := by
  unfold Machine.probeDown
  (repeat' split) <;> simp only [k.guardTxc, k.sendPlain]

theorem BoardView.connDead (a1 d) : g (Machine.connDead a1 d) = g d := by
  unfold Machine.connDead
  (repeat' split) <;> simp only [k.event.raise, k.toError]

theorem BoardView.pullTimeout (a1 a2 d) : g (Machine.pullTimeout a1 a2 d) = g d := by
  unfold Machine.pullTimeout
  (repeat' split) <;> simp only [k.toError, k.modConn]

theorem BoardView.sendReadReq (a1 a2 a3 a4 d) : g (Machine.sendReadReq a1 a2 a3 a4 d) = g d := by
  unfold Machine.sendReadReq
  dsimp only
  (repeat' split) <;> simp only [k.guardTxc, k.sendSeq, k.modConn]

theorem BoardView.sendQueued (a1 a2 d) : g (Machine.sendQueued a1 a2 d) = g d := by
  unfold Machine.sendQueued
  (repeat' split) <;> simp only [k.guardTxc, k.sendSeq, k.modConn]

end

end Sys2Proof.Machine
end

section
/-! SUPPORT. What changes neither the supply's state nor a register, continued: the tables, control records, and the end of service. -/
namespace Sys2Proof.Machine

section
variable {α : Type} {g : Dev → α} (k : BoardView g)
include k

theorem BoardView.answer (d a1 a2 a3 a4 a5 a6) : g (Machine.answer d a1 a2 a3 a4 a5 a6) = g d := k.of_eq rfl rfl

theorem BoardView.command (a1 a2 d) {f : Dev → Dev × Nat} (hf : ∀ d, g (f d).1 = g d) : g (Machine.command a1 a2 f d) = g d := by
  unfold Machine.command
  (repeat' split) <;> simp only [k.answer, hf]

theorem BoardView.readAs (a1 a2 d) {f : Dev → Dev × Except Nat Word} (hf : ∀ d, g (f d).1 = g d) : g (Machine.readAs a1 a2 f d) = g d := by
  unfold Machine.readAs
  dsimp only
  (repeat' split) <;> simp only [k.answer, hf]

theorem BoardView.cfgChanged (d) : g (Machine.cfgChanged d) = g d := k.of_eq rfl rfl

theorem BoardView.putCred (d a1 a2) : g (Machine.putCred d a1 a2) = g d := k.of_eq rfl rfl

theorem BoardView.wearSector (d a1) : g (Machine.wearSector d a1) = g d := by
  unfold Machine.wearSector
  dsimp only
  (repeat' split) <;> simp only [k.modLdg, k.event.raiseOp]

theorem BoardView.countErase (d a1) : g (Machine.countErase d a1) = g d := by
  simp only [Machine.countErase, k.wearSector, k.modLdg]

theorem BoardView.countErases (d a1 a2) : g (Machine.countErases d a1 a2) = g d := foldl_keeps g _ (fun a i => k.countErase a _) _ d

theorem BoardView.tidyRings (d) : g (Machine.tidyRings d) = g d := (foldl_keeps g _ k.countErase _ _).trans (k.modLdg d _)

theorem BoardView.compactStore (d) : g (Machine.compactStore d) = g d := by
  unfold Machine.compactStore
  dsimp only
  (repeat' split) <;> simp only [k.modLdg, k.countErases, k.event.raiseOp]

theorem BoardView.wroteRecord (d a1) : g (Machine.wroteRecord d a1) = g d := by
  unfold Machine.wroteRecord
  dsimp only
  (repeat' split) <;> simp only [k.modLdg, k.compactStore]

theorem BoardView.storeTuning (d) : g (Machine.storeTuning d) = g d := by
  simp only [Machine.storeTuning, k.modLdg, k.wroteRecord, k.modUpd]

theorem BoardView.storeShared (d) : g (Machine.storeShared d) = g d := by
  simp only [Machine.storeShared, k.wroteRecord, k.modLdg]

theorem BoardView.storeNetwork (d) : g (Machine.storeNetwork d) = g d := by
  simp only [Machine.storeNetwork, k.wroteRecord, k.modLdg]

theorem BoardView.freeRta (d a1) : g (Machine.freeRta d a1) = g d := k.of_eq rfl rfl

theorem BoardView.handDown (d a1) : g (Machine.handDown d a1) = g d := by
  unfold Machine.handDown
  split <;> simp only [k.run.keepLoc, k.modDur]

theorem BoardView.freeRegion (d a1) : g (Machine.freeRegion d a1) = g d := by
  unfold Machine.freeRegion
  extract_lets inR leaves d1 d2 d3 d4
  have h1 : g d1 = g d := foldl_keeps g _ k.handDown leaves d
  clear_value d1
  exact Eq.trans (b := g d1) (k.of_eq rfl rfl) h1

theorem BoardView.stage (d a1 a2 a3 a4) : g (Machine.stage d a1 a2 a3 a4) = g d := k.modFolds d _

theorem BoardView.dropStaged (d f) : g (Machine.dropStaged d f) = g d := k.of_eq rfl rfl

omit k in
theorem nothing_dev (d) : g (Plan.nothing d).dev = g d := rfl

theorem BoardView.make (p : Plan) (st) : g (p.make st) = g p.dev := by
  unfold Plan.make
  split <;> simp only [k.run.changeLines]

theorem BoardView.area {p : Plan} {n old} {x : Plan × Nat} (h : p.area n old = some x) : g x.1.dev = g p.dev := by
  obtain ⟨y, hy, rfl⟩ := Option.map_eq_some_iff.1 h
  exact k.run.placeRta hy

theorem BoardView.newPage {p : Plan} {old chg} {x : Plan × Nat × Nat} (h : Machine.newPage p old chg = some x) : g x.1.dev = g p.dev := by
  obtain ⟨y, hy, rfl⟩ := Option.map_eq_some_iff.1 h
  have hput (l : List (Nat × List Byte)) (q : Plan) : (l.foldl (fun q c => q.put (y.2 + c.1 * 64) c.2) q).dev = q.dev :=
    List.foldlRecOn l _ (motive := fun a : Plan => a.dev = q.dev) rfl fun _ ha _ _ => (Plan.put_dev _ _ _).trans ha
  exact (congrArg g (hput _ _)).trans (k.area hy)

theorem BoardView.newTable {d : Dev} {p : Plan} {f chg} {x : Plan × Nat × Nat × List (Nat × Nat)} (h : Machine.newTable d p f chg = some x) :
    g x.1.dev = g p.dev := by
  unfold Machine.newTable at h
  dsimp only at h
  split at h
  · cases h
  · rename_i h0
    obtain ⟨y, hy, rfl⟩ := Option.map_eq_some_iff.1 h
    refine foldl_some (fun b : Plan × List (Nat × Nat) => g b.1.dev = g p.dev) _ (fun _ => rfl) (fun b x c hb hc => ?_) _ _ _ (k.area h0) hy
    obtain ⟨z, hz, rfl⟩ := Option.map_eq_some_iff.1 hc
    exact (k.newPage hz).trans hb

theorem BoardView.grantees {p : Plan} {r l} {x : Plan × FoldRec} (h : p.grantees r l = some x) : g x.1.dev = g p.dev := by
  unfold Plan.grantees at h
  extract_lets freed at h
  have hf : g freed = g p.dev := by
    simp only [freed]
    split <;> simp only [k.freeRta]
  clear_value freed
  split at h
  · cases h
    exact hf
  · obtain ⟨y, hy, rfl⟩ := Option.map_eq_some_iff.1 h
    exact (k.area (p := { p with dev := freed }) hy).trans hf

theorem BoardView.commitFold {d : Dev} {p : Plan} {mine f} {x : Plan × FoldRec × Drain} (h : Machine.commitFold d mine p f = some x) :
    g x.1.dev = g p.dev := by
  unfold Machine.commitFold at h
  dsimp only at h
  split at h
  · cases h
    rfl
  · obtain ⟨y, hy, rfl⟩ := Option.map_eq_some_iff.1 h
    exact k.newTable hy

theorem BoardView.planCommit {d : Dev} {f : Nat} {p : Plan} (h : Machine.planCommit d f = some p) : g p.dev = g d := by
  obtain ⟨a, ha, rfl⟩ := Option.map_eq_some_iff.1 h
  obtain ⟨b, hb, ha⟩ := Option.bind_eq_some_iff.1 ha
  have h1 : g b.1.dev = g d := by
    refine foldl_some (fun b : Plan × List (Nat × FoldRec) × List Drain => g b.1.dev = g d) _ (fun _ => rfl) (fun b x c hb hc => ?_) _ _ _ rfl hb
    obtain ⟨z, hz, rfl⟩ := Option.map_eq_some_iff.1 hc
    exact (k.commitFold hz).trans hb
  have h2 : g a.1.dev = g d := by
    refine foldl_some (fun b : Plan × List (Nat × FoldRec) × List Drain => g b.1.dev = g d) _ (fun _ => rfl) (fun b x c hb hc => ?_) _ _ _ h1 ha
    simp only [Option.bind_some] at hc
    split at hc
    · cases hc
      exact hb
    · obtain ⟨z, hz, rfl⟩ := Option.map_eq_some_iff.1 hc
      exact (k.grantees hz).trans hb
  have h3 : (a.2.1.foldl (fun q x => q.put (foldPa d.folds x.1) (foldBytes x.2)) a.1).dev = a.1.dev :=
    List.foldlRecOn a.2.1 _ (motive := fun q : Plan => q.dev = a.1.dev) rfl fun _ hq _ _ => (Plan.put_dev _ _ _).trans hq
  exact (foldl_keeps g _ k.dropFoldCache _ _).trans ((k.modFolds _ _).trans ((congrArg g h3).trans h2))

theorem BoardView.planDestroyFold {d : Dev} {f : Nat} {p : Plan} (h : Machine.planDestroyFold d f = .ok p) : g p.dev = g d := by
  unfold Machine.planDestroyFold at h
  split at h
  · cases h
  · split at h
    · cases h
    · extract_lets r p0 p1 p2 at h
      have h0 : g p0.dev = g d := (congrArg g (Plan.put_dev _ _ _)).trans ((nothing_dev _).trans (k.dropStaged d f))
      have h1 : g p1.dev = g d :=
        List.foldlRecOn _ _ (motive := fun q : Plan => g q.dev = g d) h0 fun q hq _ _ =>
          List.foldlRecOn _ _ (motive := fun q : Plan => g q.dev = g d) hq fun _ hq _ _ => (congrArg g (Plan.put_dev _ _ _)).trans hq
      have h2 : g p2.dev = g d := by
        refine List.foldlRecOn _ _ (motive := fun q : Plan => g q.dev = g d) h1 fun q hq t _ => ?_
        dsimp only
        split
        · rename_i hx
          exact (congrArg g (Plan.put_dev _ _ _)).trans ((k.grantees hx).trans hq)
        · exact hq
      clear_value p2
      cases h
      have h3 : g (if r.gen = 0xFFFFFFFF then Machine.dropFoldCache p2.dev f else p2.dev) = g d := by
        split
        · exact (k.dropFoldCache _ _).trans h2
        · exact h2
      dsimp only
      exact (k.modEvt _ _).trans h3

theorem BoardView.planDestroyRegion {d : Dev} {c : RmaCmd} {p : Plan} (h : Machine.planDestroyRegion d c = .ok p) : g p.dev = g d := by
  unfold Machine.planDestroyRegion at h
  split at h
  · cases h
  · extract_lets d1 at h
    have h1 : g d1 = g d := by
      simp only [d1]
      split <;> exact k.modFolds d _
    clear_value d1
    split at h <;> cases h
    exact h1

theorem BoardView.planRevoke {d : Dev} {c : RmaCmd} {p : Plan} (h : Machine.planRevoke d c = .ok p) : g p.dev = g d := by
  unfold Machine.planRevoke at h
  split at h
  · split at h
    · cases h
    · extract_lets d1 at h
      have h1 : g d1 = g d := by
        simp only [d1]
        split <;> exact k.modFolds d _
      clear_value d1
      split at h <;> cases h
      exact h1
  · cases h

/-- The device of a plan is seen as before: a plan does the tables' book-keeping alone. -/
theorem BoardView.planOf {d : Dev} {st : Stamp} {c : RmaCmd} {p : Plan} (h : Machine.planOf d st c = .ok p) : g p.dev = g d := by
  have hp := tablePlan_of_planOf h
  unfold tablePlan at hp
  split at hp
  · rw [planCreateFold_eq hp, Plan.put_dev]
    exact (nothing_dev _).trans (k.modFolds d _)
  · obtain ⟨w, base, e, he, rfl⟩ := planCreateRegion_eq hp
    exact (nothing_dev _).trans ((k.stage e _ _ _ _).trans (k.run.placeRegion he))
  · exact k.planDestroyRegion hp
  · obtain ⟨x, -, rfl⟩ := planSetPerm_eq hp
    exact (nothing_dev _).trans (k.stage d _ _ _ _)
  · obtain ⟨w, rfl⟩ := planGrant_eq hp
    exact (nothing_dev _).trans (k.stage d _ _ _ _)
  · exact k.planRevoke hp
  · split at hp
    · cases hp
      exact k.planCommit ‹_›
    · cases hp
  · exact k.planDestroyFold hp
  · cases hp

theorem BoardView.applyRma (d a1 a2) : g (Machine.applyRma d a1 a2) = g d := by
  unfold Machine.applyRma
  split
  · exact (k.stamp.noteLeaves _ _ _).trans ((k.make _ _).trans (k.planOf ‹_›))
  · rfl

theorem BoardView.releaseGens (d a1 a2) : g (Machine.releaseGens d a1 a2) = g d := by
  unfold Machine.releaseGens
  extract_lets mine d1 r
  have h1 : g d1 = g d :=
    (foldl_keeps g _ (fun a x => (foldl_keeps g _ k.freeRegion _ _).trans (k.freeRta a _)) _ _).trans (k.modFolds d _)
  clear_value d1
  exact (k.make _ _).trans ((congrArg g (Plan.put_dev _ _ _)).trans ((nothing_dev _).trans h1))

theorem BoardView.finishDestroy (d a1 a2) : g (Machine.finishDestroy d a1 a2) = g d := by
  unfold Machine.finishDestroy
  extract_lets d0 r slots pages d1 d2 d3
  have h1 : g d1 = g d := (foldl_keeps g _ k.freeRegion _ d0).trans (k.releaseGens d a1 a2)
  have h3 : g d3 = g d := (k.modFolds _ _).trans ((k.dropFoldCache _ _).trans ((k.freeRta _ _).trans h1))
  clear_value d3
  exact (k.make _ _).trans ((congrArg g (Plan.put_dev _ _ _)).trans ((nothing_dev _).trans h3))

theorem BoardView.applyDrained (d a1 a2) : g (Machine.applyDrained d a1 a2) = g d := by
  unfold Machine.applyDrained
  split <;> simp only [k.stamp.noteLeaves, k.finishDestroy, k.releaseGens]

theorem BoardView.applyKey (d a1 a2 a3) : g (Machine.applyKey d a1 a2 a3) = g d := k.of_eq rfl rfl

theorem BoardView.resetFoldConn (d a1) : g (Machine.resetFoldConn d a1) = g d := by
  unfold Machine.resetFoldConn
  split <;> simp only [k.applyChange]

theorem BoardView.applyFoldReset (d a1) : g (Machine.applyFoldReset d a1) = g d :=
  (k.modEvt _ _).trans (foldl_keeps g _ k.resetFoldConn _ d)

theorem BoardView.markEnd (d a1 a2) : g (Machine.markEnd d a1 a2) = g d := by
  unfold Machine.markEnd
  dsimp only
  (repeat' split) <;> simp only [k.modFolds, k.modRst, k.modSec, k.modEvt, k.modTwin]

theorem BoardView.refuseWaiting (d) : g (Machine.refuseWaiting d) = g d := by
  refine (foldl_keeps g _ (fun a x => ?_) _ _).trans (k.modTwin d _)
  split <;> simp only [k.markEnd]

theorem BoardView.modSlot (d a1 a2) : g (Machine.modSlot d a1 a2) = g d := k.of_eq rfl rfl

theorem BoardView.endSlot (d a1 a2) : g (Machine.endSlot d a1 a2) = g d := k.of_eq rfl rfl

theorem BoardView.noteHandle (d a1 a2 a3) : g (Machine.noteHandle d a1 a2 a3) = g d := by
  unfold Machine.noteHandle
  split <;> simp only [k.modSlot]

theorem BoardView.putResults (d a1 a2 a3) : g (Machine.putResults d a1 a2 a3) = g d := by
  unfold Machine.putResults
  split <;> simp only [k.setConn, k.modFolds]

theorem BoardView.dropItem (a1 d a2) : g (Machine.dropItem a1 d a2) = g d := by
  unfold Machine.dropItem
  (repeat' split) <;> simp only [k.setConn, k.modNet, k.modFolds, k.modSec, k.putResults, k.modEvt]

theorem BoardView.rebuildFolds (d) : g (Machine.rebuildFolds d) = g d := k.of_eq rfl rfl

theorem BoardView.quietConns (d) : g (Machine.quietConns d) = g d := k.of_eq rfl rfl

theorem BoardView.enterState (d a1) : g (Machine.enterState d a1) = g d := by
  unfold Machine.enterState
  (repeat' split) <;> simp only [k.quietConns, k.event.raiseOp, k.modRst, k.modTwin]

theorem BoardView.beginDiverge (d a1) : g (Machine.beginDiverge d a1) = g d := k.of_eq rfl rfl

theorem BoardView.dropPairing (d) : g (Machine.dropPairing d) = g d := k.of_eq rfl rfl

theorem BoardView.leavePair (d) : g (Machine.leavePair d) = g d := by
  unfold Machine.leavePair
  split <;> simp only [k.dropPairing, k.beginDiverge]

theorem BoardView.runOut (d) : g (Machine.runOut d) = g d := by
  refine (k.completeAll _).trans (foldl_keeps g _ (fun a o => ?_) _ d)
  split <;> simp only [k.workAll]

theorem BoardView.lapseBank (d) : g (Machine.lapseBank d) = g d := by
  unfold Machine.lapseBank
  split <;> simp only [k.event.raiseOp, k.modRst]

theorem BoardView.endPhase (d) : g (Machine.endPhase d) = g d := k.of_eq rfl rfl

theorem BoardView.startServing (d a1 a2) : g (Machine.startServing d a1 a2) = g d := by
  unfold Machine.startServing
  split <;> simp only [k.modTwin, k.leavePair, k.modNet, k.stamp.refuseAtLimit, k.enterState]

theorem BoardView.serveAlone (d) : g (Machine.serveAlone d) = g d := by
  unfold Machine.serveAlone
  split <;> simp only [k.startServing]

end

end Sys2Proof.Machine
end

section
/-! SUPPORT. What changes neither the supply's state nor a register, continued: the twin link, its records and the witness. -/
namespace Sys2Proof.Machine

section
variable {α : Type} {g : Dev → α} (k : BoardView g)
include k

theorem BoardView.leaveWith (d a1) : g (Machine.leaveWith d a1) = g d := by
  unfold Machine.leaveWith
  split <;> simp only [k.stamp.sendRecs, k.enterState, k.leavePair, k.event.raiseOp]

theorem BoardView.abandonJoin (d) : g (Machine.abandonJoin d) = g d := by
  unfold Machine.abandonJoin
  split <;> simp only [k.event.raiseOp, k.dropPairing]

theorem BoardView.sendWit (d a1) : g (Machine.sendWit d a1) = g d := k.of_eq rfl rfl

theorem BoardView.restoreLeaf (b d a1) : g (Machine.restoreLeaf b d a1) = g d := k.of_eq rfl rfl

theorem BoardView.maskedRun (d a1) {f : Dev → Dev} (hf : ∀ d, g (f d) = g d) : g (Machine.maskedRun d a1 f) = g d := by
  unfold Machine.maskedRun
  dsimp only
  split
  · exact hf d
  · exact (foldl_keeps g _ (k.restoreLeaf d) _ _).trans ((hf _).trans (k.modDur d _))

theorem BoardView.sendEntry (d a1 a2) : g (Machine.sendEntry d a1 a2) = g d := by
  unfold Machine.sendEntry
  (repeat' split) <;> simp only [k.setConn]

theorem BoardView.standbyEntry (d a1 a2 a3) : g (Machine.standbyEntry d a1 a2 a3) = g d := by
  unfold Machine.standbyEntry
  dsimp only
  (repeat' split) <;> simp only [k.noteStore, k.setConn, k.modTwin, k.sendEntry]

theorem BoardView.sendRepairs (d a1 a2) : g (Machine.sendRepairs d a1 a2) = g d :=
  foldl_keeps g _ (fun a l => (k.stamp.sendRecs _ _).trans ((k.event.raiseOp _ _ _ _).trans (k.modTwin a _))) _ d

theorem BoardView.applied (d a1) : g (Machine.applied d a1) = g d := by
  simp only [Machine.applied, k.modTwin, k.stamp.markDirty]

theorem BoardView.repairWaits (d a1 a2 a3 a4 a5) : g (Machine.repairWaits d a1 a2 a3 a4 a5) = g d := k.of_eq rfl rfl

theorem BoardView.applyOp (d a1 a2 a3 a4) : g (Machine.applyOp d a1 a2 a3 a4) = g d := by
  unfold Machine.applyOp
  split
  · exact k.applied d a1
  · rename_i c _
    extract_lets o d1 ls wait d0 r d2
    have h1 : g d1 = g d := (k.sendRepairs _ _ _).trans (k.applied d a1)
    have h2 : g d2 = g d := (k.noteChanged _ _ _ _).trans ((k.maskedRun d1 ls fun a => k.run.runDesc a _ _ _ _ _ _ _).trans h1)
    split
    · exact (k.repairWaits _ _ _ _ _ _).trans h2
    · split
      · exact (k.stamp.sendRecs _ _).trans ((k.standbyEntry _ _ _ _).trans h2)
      · exact (k.standbyEntry _ _ _ _).trans h2

theorem BoardView.applyGroup (d a1 a2 a3 a4) : g (Machine.applyGroup d a1 a2 a3 a4) = g d := by
  unfold Machine.applyGroup
  split
  · exact k.applied d a1
  · rename_i c _
    extract_lets f os d1 ls wait work run d0 r d2
    have h1 : g d1 = g d := (k.sendRepairs _ _ _).trans (k.applied d a1)
    have hrun (a : Dev) : g (run a).1 = g a := by
      simp only [run]
      split
      · exact k.run.runMembers _ _ _ _ _ _ _ ‹_›
      · rfl
    have h2 : g d2 = g d := (k.noteChanged _ _ _ _).trans ((k.maskedRun d1 ls hrun).trans h1)
    split
    · exact (foldl_keeps g _ (fun a m => k.repairWaits a _ _ _ _ _) _ d2).trans h2
    · exact (foldl_keeps g _ (fun a e => k.standbyEntry a _ _ e) _ d2).trans h2

theorem BoardView.takeEnd (d a1 a2) : g (Machine.takeEnd d a1 a2) = g d := by
  unfold Machine.takeEnd
  (repeat' split) <;> simp only [k.sendEntry, k.noteStore, k.setConn]

theorem BoardView.takeIndex (d a1 a2 a3 a4 a5) : g (Machine.takeIndex d a1 a2 a3 a4 a5) = g d := by
  simp only [Machine.takeIndex, k.noteContext, k.modConn]

theorem BoardView.takeRdata (d a1 a2 a3 a4 a5) : g (Machine.takeRdata d a1 a2 a3 a4 a5) = g d := by
  unfold Machine.takeRdata
  (repeat' split) <;> simp only [k.queueFrame, k.setConn]

theorem BoardView.takeLevel (d a1) : g (Machine.takeLevel d a1) = g d :=
  (foldl_keeps g _ (fun a p => k.sendEntry a _ _) _ _).trans (k.modTwin d _)

theorem BoardView.leafEntry (d a1 a2) : g (Machine.leafEntry d a1 a2) = g d := by
  unfold Machine.leafEntry
  dsimp only
  (repeat' split) <;> simp only [k.setConn, k.standbyEntry, k.modTwin]

theorem BoardView.flushFins (d) : g (Machine.flushFins d) = g d := by
  simp only [Machine.flushFins, k.stamp.sendRecs, k.modTwin]

theorem BoardView.repairLate (a1 d) : g (Machine.repairLate a1 d) = g d := by
  unfold Machine.repairLate
  split <;> simp only [k.leaveWith]

theorem BoardView.budgetWait (d) : g (Machine.budgetWait d) = g d := by
  unfold Machine.budgetWait
  (repeat' split) <;> simp only [k.event.raiseOp]

theorem BoardView.sendLeaf (d) : g (Machine.sendLeaf d) = g d := by
  unfold Machine.sendLeaf
  (repeat' split) <;> simp only [k.modTwin, k.stamp.sendRecs]

theorem BoardView.sendAckFrame (d) : g (Machine.sendAckFrame d) = g d := by
  unfold Machine.sendAckFrame
  split <;> simp only [k.emit, k.modTwin]

theorem BoardView.resendAll (d) : g (Machine.resendAll d) = g d := by
  unfold Machine.resendAll
  split
  · rfl
  · exact foldl_keeps g _ (fun a f => (k.emit _ _).trans (k.modTwin a _)) _ d

theorem BoardView.rekeyLink (d) : g (Machine.rekeyLink d) = g d := by
  simp only [Machine.rekeyLink, k.pumpLink, k.modTwin]

theorem BoardView.sendHello (d) : g (Machine.sendHello d) = g d := by
  unfold Machine.sendHello
  (repeat' split) <;> simp only [k.emit]

theorem BoardView.newNonce (d) : g (Machine.newNonce d) = g d := by
  simp only [Machine.newNonce, k.draw64, k.rekeyLink, k.modTwin]

theorem BoardView.endRelays (d) : g (Machine.endRelays d) = g d := by
  refine foldl_keeps g _ (fun a r => ?_) _ d
  split <;> simp only [k.endOp]

theorem BoardView.twlDown (a1 d) : g (Machine.twlDown a1 d) = g d := by
  unfold Machine.twlDown
  split <;> simp only [k.endRelays, k.event.raiseOp, k.modTwin]

theorem BoardView.twlUp (a1 d) : g (Machine.twlUp a1 d) = g d := by
  unfold Machine.twlUp
  dsimp only
  (repeat' split) <;> simp only [k.event.raiseOp, k.modTwin, k.resendAll, k.sendHello, k.newNonce]

theorem BoardView.witLate (d) : g (Machine.witLate d) = g d := by
  unfold Machine.witLate
  split <;> simp only [k.event.raiseOp, k.modTwin]

theorem BoardView.renew (d) : g (Machine.renew d) = g d := by
  unfold Machine.renew
  split <;> simp only [k.sendWit]

theorem BoardView.claim (d) : g (Machine.claim d) = g d := by
  unfold Machine.claim
  (repeat' split) <;> simp only [k.sendWit]

theorem BoardView.linkWait (d) : g (Machine.linkWait d) = g d := by
  unfold Machine.linkWait
  split <;> simp only [k.sendWit]

theorem BoardView.soloWait (d) : g (Machine.soloWait d) = g d := by
  unfold Machine.soloWait
  split <;> simp only [k.modTwin]

theorem BoardView.missed (d) : g (Machine.missed d) = g d := by
  unfold Machine.missed
  dsimp only
  (repeat' split) <;> simp only [k.modTwin, k.event.raiseOp, k.enterState, k.dropPairing, k.abandonJoin]

theorem BoardView.sendBeat (d) : g (Machine.sendBeat d) = g d := by
  unfold Machine.sendBeat
  split <;> simp only [k.emit]

theorem BoardView.heartbeatSend (d) : g (Machine.heartbeatSend d) = g d := by
  unfold Machine.heartbeatSend
  split <;> simp only [k.missed, k.sendBeat, k.sendAckFrame, k.modTwin]

theorem BoardView.swapDrained (d) : g (Machine.swapDrained d) = g d := by
  unfold Machine.swapDrained
  split <;> simp only [k.sendWit, k.modTwin]

theorem BoardView.handoverLate (d) : g (Machine.handoverLate d) = g d := by
  unfold Machine.handoverLate
  split <;> simp only [k.modTwin]

theorem BoardView.windowOver (d) : g (Machine.windowOver d) = g d := k.of_eq rfl rfl

end

end Sys2Proof.Machine
end

section
/-! SUPPORT. What changes neither the supply's state nor a register, continued: the flash, the DRAM and the hall. -/
namespace Sys2Proof.Machine

section
variable {α : Type} {g : Dev → α} (k : BoardView g)
include k

theorem BoardView.relocate (d a1 a2) : g (Machine.relocate d a1 a2) = g d := by
  unfold Machine.relocate
  dsimp only
  split
  · rfl
  · split
    · exact k.of_eq rfl rfl
    · rfl

theorem BoardView.checkLife (e d) : g (Machine.checkLife e d) = g d := by
  unfold Machine.checkLife
  extract_lets low ro d1 d2 l d3
  have h1 : g d1 = g d := by
    simp only [d1]
    split <;> simp only [k.event.raiseOp]
  have h2 : g d2 = g d := by
    rw [← h1]
    simp only [d2]
    split <;> simp only [k.event.raise, k.modDur, k.modFtl]
  have h3 : g d3 = g d := by
    rw [← h2]
    simp only [d3]
    split <;> simp only [k.event.raise]
  split
  · rfl
  · exact (k.modFtl d3 _).trans h3

theorem BoardView.takeOffline (a1 a2 d) : g (Machine.takeOffline a1 a2 d) = g d := by
  unfold Machine.takeOffline
  split
  · rfl
  · exact (k.event.raiseOp _ _ _ _).trans (k.of_eq rfl rfl)

theorem BoardView.retire (d a1) : g (Machine.retire d a1) = g d := by
  unfold Machine.retire
  dsimp only
  split
  · rfl
  · refine (k.checkLife _ _).trans ?_
    split <;> simp only [k.takeOffline, k.modFtl]

theorem BoardView.emptyBlock (d a1 a2) : g (Machine.emptyBlock d a1 a2) = g d := by
  unfold Machine.emptyBlock
  dsimp only
  (repeat' split) <;> simp only [k.relocate]

theorem BoardView.programFail (a1 a2 a3 d) : g (Machine.programFail a1 a2 a3 d) = g d := by
  unfold Machine.programFail
  split
  · rfl
  · split
    · rfl
    · extract_lets sb b again d1 d2
      have h2 : g d2 = g d := (k.event.raiseOp _ _ _ _).trans ((k.retire _ _).trans (k.modFtl d _))
      split
      · exact Eq.trans (b := g d2) (k.of_eq rfl rfl) h2
      · exact h2

theorem BoardView.eraseDone (a1 d) : g (Machine.eraseDone a1 d) = g d := by
  unfold Machine.eraseDone
  split
  · rfl
  · exact (k.checkLife _ _).trans (k.modFtl d _)

theorem BoardView.eraseFail (a1 a2 a3 d) : g (Machine.eraseFail a1 a2 a3 d) = g d := by
  unfold Machine.eraseFail
  split <;> simp only [k.event.raiseOp, k.retire, k.modFtl]

theorem BoardView.countRead (d a1) : g (Machine.countRead d a1) = g d := k.of_eq rfl rfl

theorem BoardView.uncorrectable (d a1) : g (Machine.uncorrectable d a1) = g d := by
  simp only [Machine.uncorrectable, k.event.raise, k.modFtl, k.retire, k.emptyBlock, k.poisonLines]

theorem BoardView.readDone (a1 a2 a3 d) : g (Machine.readDone a1 a2 a3 d) = g d := by
  unfold Machine.readDone
  (repeat' split) <;> simp only [k.countRead, k.uncorrectable, k.modFtl]

theorem BoardView.suspend (a1 a2 a3 d) : g (Machine.suspend a1 a2 a3 d) = g d := by
  unfold Machine.suspend
  dsimp only
  (repeat' split) <;> simp only [k.modFtl]

theorem BoardView.collect (a1 d) : g (Machine.collect a1 d) = g d := by
  unfold Machine.collect
  split
  · rfl
  · split
    · rfl
    · exact Eq.trans (b := g (Machine.relocate d a1 (validIn d.ftl _))) (k.of_eq rfl rfl) (k.relocate d _ _)

theorem BoardView.ckptStart (d) : g (Machine.ckptStart d) = g d := by
  obtain ⟨_, h⟩ := ckptStart_ftl d
  rw [h]
  exact k.of_eq rfl rfl

theorem BoardView.ckptDone (d) : g (Machine.ckptDone d) = g d := by
  unfold Machine.ckptDone
  (repeat' split) <;> simp only [k.modFtl, k.tidyRings, k.modLdg, k.modDur]

theorem BoardView.ckptLate (d) : g (Machine.ckptLate d) = g d := by
  unfold Machine.ckptLate
  split <;> simp only [k.event.raiseOp]

theorem BoardView.patrol (a1 a2 d) : g (Machine.patrol a1 a2 d) = g d := by
  unfold Machine.patrol
  dsimp only
  (repeat' split) <;> simp only [k.modFtl, k.readDone, k.emptyBlock, k.event.raiseOp]

theorem BoardView.patrolEnd (d) : g (Machine.patrolEnd d) = g d := by
  unfold Machine.patrolEnd
  split <;> simp only [k.event.raiseOp, k.modFtl]

theorem BoardView.dailySample (a1 d) : g (Machine.dailySample a1 d) = g d := (k.checkLife _ _).trans (k.modFtl d _)

theorem BoardView.dieTemp (a1 a2 d) : g (Machine.dieTemp a1 a2 d) = g d := k.of_eq rfl rfl

theorem BoardView.statusRead (a1 a2 d) : g (Machine.statusRead a1 a2 d).1 = g d := by
  unfold Machine.statusRead
  (repeat' split) <;> simp only [k.modSlot]

theorem BoardView.slotLapse (a1 d) : g (Machine.slotLapse a1 d) = g d := k.of_eq rfl rfl

theorem BoardView.modChan (d a1 a2) : g (Machine.modChan d a1 a2) = g d := k.of_eq rfl rfl

theorem BoardView.modSub (d a1 a2 a3) : g (Machine.modSub d a1 a2 a3) = g d := k.of_eq rfl rfl

omit k in
theorem onSub_keeps (a1 a2 d) {f : Chan → SubCh → Dev → Dev} (hf : ∀ x u d, g (f x u d) = g d) : g (Machine.onSub a1 a2 f d) = g d := by
  unfold Machine.onSub
  (repeat' split) <;> simp only [hf]

theorem BoardView.dramAsk (a1 a2 a3 d) : g (Machine.dramAsk a1 a2 a3 d) = g d :=
  onSub_keeps a1 a2 d fun x u d => by (repeat' split) <;> simp only [k.modSub]

theorem BoardView.refreshDue (a1 a2 a3 d) : g (Machine.refreshDue a1 a2 a3 d) = g d :=
  onSub_keeps a1 a2 d fun x u d => by
    dsimp only
    split <;> simp only [k.modSub, k.modRst]

theorem BoardView.rowIdle (a1 a2 a3 a4 d) : g (Machine.rowIdle a1 a2 a3 a4 d) = g d := onSub_keeps a1 a2 d fun _ _ d => k.modSub d _ _ _

theorem BoardView.leakCe (a1 d) : g (Machine.leakCe a1 d) = g d := k.of_eq rfl rfl

theorem BoardView.dimmTemp (a1 a2 d) : g (Machine.dimmTemp a1 a2 d) = g d := by
  unfold Machine.dimmTemp
  dsimp only
  (repeat' split) <;> simp only [k.modChan, k.event.raiseOp]

theorem BoardView.rateGo (d) : g (Machine.rateGo d) = g d := by
  unfold Machine.rateGo
  (repeat' split) <;> simp only [k.modDram]

theorem BoardView.rateDone (a1 d) : g (Machine.rateDone a1 d) = g d := by
  unfold Machine.rateDone
  split <;> simp only [k.event.raiseOp, k.modDram]

theorem BoardView.victimAck (a1 a2 d) : g (Machine.victimAck a1 a2 d) = g d := by
  unfold Machine.victimAck
  (repeat' split) <;> simp only [k.modSlice, k.toFrame]

theorem BoardView.fetchLine (d a1 a2) : g (Machine.fetchLine d a1 a2) = g d := by
  unfold Machine.fetchLine
  (repeat' split) <;> simp only [k.toFrame, k.modSlice]

theorem BoardView.beginTxn (d a1 a2 a3 a4 a5) : g (Machine.beginTxn d a1 a2 a3 a4 a5) = g d := k.of_eq rfl rfl

theorem BoardView.grantLine (d a1 a2 a3 a4) : g (Machine.grantLine d a1 a2 a3 a4) = g d := k.of_eq rfl rfl

theorem BoardView.tryReq (d a1 a2 a3 a4) {r : Dev} (h : Machine.tryReq d a1 a2 a3 a4 = some r) : g r = g d := by
  unfold Machine.tryReq at h
  split at h
  · cases h
  · split at h
    · cases h
    · split at h
      · dsimp only at h
        (repeat' split at h) <;> (cases h; simp only [k.grantLine, k.beginTxn])
      · split at h
        · cases h
          simp only [k.grantLine, k.fetchLine]
        · split at h
          · cases h
          · split at h
            · cases h
            · split at h
              · obtain ⟨e, he, rfl⟩ := Option.map_eq_some_iff.1 h
                exact (k.grantLine _ _ _ _ _).trans ((k.fetchLine _ _ _).trans (k.evictLine he))
              · cases h

theorem BoardView.askLine (d a1 a2 a3 a4) : g (Machine.askLine d a1 a2 a3 a4) = g d := by
  unfold Machine.askLine
  split
  · exact k.tryReq _ _ _ _ _ ‹_›
  · dsimp only
    (repeat' split) <;> simp only [k.beginTxn, k.modSlice]

theorem BoardView.pumpWait (d a1) : g (Machine.pumpWait d a1) = g d := by
  unfold Machine.pumpWait
  split
  · rfl
  · exact (foldl_keeps g _ (fun a r => k.askLine a _ _ _ _) _ _).trans (k.modSlice d _ _)

theorem BoardView.finishTxn (d a1 a2) : g (Machine.finishTxn d a1 a2) = g d := by
  unfold Machine.finishTxn
  (repeat' split) <;> simp only [k.modSlice, k.grantLine, k.pumpWait]

theorem BoardView.penAsk (a1 a2 a3 d) : g (Machine.penAsk a1 a2 a3 d) = g d := by
  unfold Machine.penAsk
  (repeat' split) <;> simp only [k.askLine]

theorem BoardView.dropMsg (d a1 a2) : g (Machine.dropMsg d a1 a2) = g d := k.of_eq rfl rfl

theorem BoardView.penData (a1 a2 d) : g (Machine.penData a1 a2 d) = g d := by
  unfold Machine.penData
  dsimp only
  (repeat' split) <;> simp only [k.dropMsg, k.modPen]

theorem BoardView.penSnoop (a1 a2 d) : g (Machine.penSnoop a1 a2 d) = g d := by
  unfold Machine.penSnoop
  (repeat' split) <;> simp only [k.modPen, k.modSlice]

theorem BoardView.snoopAnswer (a1 a2 a3 a4 d) : g (Machine.snoopAnswer a1 a2 a3 a4 d) = g d := by
  unfold Machine.snoopAnswer
  dsimp only
  (repeat' split) <;> simp only [k.modSlice, k.finishTxn]

theorem BoardView.evictArrives (a1 a2 d) : g (Machine.evictArrives a1 a2 d) = g d := by
  unfold Machine.evictArrives
  dsimp only
  (repeat' split) <;> simp only [k.modSlice, k.finishTxn]

theorem BoardView.evictAcked (a1 a2 d) : g (Machine.evictAcked a1 a2 d) = g d := by
  unfold Machine.evictAcked
  (repeat' split) <;> simp only [k.modPen, k.dropMsg]

theorem BoardView.halCmd (a1 d) : g (Machine.halCmd a1 d).1 = g d := by
  unfold Machine.halCmd
  (repeat' split) <;> simp only [k.modHall]

theorem BoardView.setArray (d a1) : g (Machine.setArray d a1) = g d := k.of_eq rfl rfl

theorem BoardView.leakEcc (a1 a2 d) : g (Machine.leakEcc a1 a2 d) = g d := by
  unfold Machine.leakEcc
  split <;> simp only [k.setArray]

theorem BoardView.droverReload (a1 d) : g (Machine.droverReload a1 d) = g d := by
  unfold Machine.droverReload
  split <;> simp only [k.event.raiseOp, k.modHall]

end

end Sys2Proof.Machine
end

section
/-! SUPPORT. What changes neither the supply's state nor a register, continued: the board: the ledger, security, updates, events and resets. -/
namespace Sys2Proof.Machine

section
variable {α : Type} {g : Dev → α} (k : BoardView g)
include k

theorem BoardView.pkeStart (a1 d) : g (Machine.pkeStart a1 d).1 = g d := by
  unfold Machine.pkeStart
  split <;> simp only [k.modSec]

theorem BoardView.pkeDone (d) : g (Machine.pkeDone d) = g d := by
  unfold Machine.pkeDone
  split <;> simp only [k.modSec]

theorem BoardView.poolRefill (d) : g (Machine.poolRefill d) = g d := k.of_eq rfl rfl

theorem BoardView.setBank (d a1 a2) : g (Machine.setBank d a1 a2) = g d := k.of_eq rfl rfl

theorem BoardView.startAgain (d) : g (Machine.startAgain d) = g d := by
  unfold Machine.startAgain
  split <;> simp only [k.serveAlone, k.sendHello, k.newNonce]

theorem BoardView.zeroDone (d) : g (Machine.zeroDone d) = g d := by
  unfold Machine.zeroDone
  split <;> simp only [k.modHall, k.modSec, k.modDram, k.event.raiseOp, k.modLdg]

theorem BoardView.chalRead (d) : g (Machine.chalRead d).1 = g d := by
  unfold Machine.chalRead
  split <;> simp only [k.draw128, k.modSec]

theorem BoardView.maskReseed (a1 d) : g (Machine.maskReseed a1 d) = g d := by
  unfold Machine.maskReseed
  split <;> simp only [k.modSec]

theorem BoardView.drbgReseed (a1 d) : g (Machine.drbgReseed a1 d) = g d := by
  unfold Machine.drbgReseed
  (repeat' split) <;> simp only [k.modSec, k.event.raiseOp]

theorem BoardView.drbgStarted (d) : g (Machine.drbgStarted d) = g d := by
  unfold Machine.drbgStarted
  split <;> simp only [k.startAgain, k.event.raiseOp, k.modSec]

theorem BoardView.setLdgResult (d a1 a2) : g (Machine.setLdgResult d a1 a2) = g d := k.of_eq rfl rfl

theorem BoardView.ldgStatusRead (a1 d) : g (Machine.ldgStatusRead a1 d).1 = g d := by
  unfold Machine.ldgStatusRead
  split <;> simp only [k.modLdg]

theorem BoardView.ledgerWord (d a1) : g (Machine.ledgerWord d a1).2 = g d := by
  unfold Machine.ledgerWord
  dsimp only
  (repeat' split) <;> simp only [k.draw32]

theorem BoardView.seqBreak (d a1) : g (Machine.seqBreak d a1) = g d := k.of_eq rfl rfl

omit k in
theorem ldgOwned_keeps (a1 d) {f : Dev → Dev} (hf : ∀ d, g (f d) = g d) : g (Machine.ldgOwned a1 f d).1 = g d := by
  unfold Machine.ldgOwned
  (repeat' split) <;> simp only [hf]

theorem BoardView.ldgKey (a1 a2 d) : g (Machine.ldgKey a1 a2 d).1 = g d :=
  ldgOwned_keeps a1 d fun d => by
    dsimp only
    (repeat' split) <;> simp only [k.modLdg, k.seqBreak]

theorem BoardView.holdErase (a1 a2 d) : g (Machine.holdErase a1 a2 d) = g d := by
  unfold Machine.holdErase
  (repeat' split) <;> simp only [k.setLdgResult, k.modLdg]

theorem BoardView.ldgCmd (a1 a2 d) : g (Machine.ldgCmd a1 a2 d).1 = g d :=
  ldgOwned_keeps a1 d fun d => by
    dsimp only
    (repeat' split) <;> simp only [k.modLdg, k.seqBreak, k.holdErase]

theorem BoardView.ldgAddr (a1 a2 d) : g (Machine.ldgAddr a1 a2 d).1 = g d :=
  ldgOwned_keeps a1 d fun d => by
    dsimp only
    (repeat' split) <;> simp only [k.modLdg, k.seqBreak, k.setLdgResult]

theorem BoardView.dropClashes (d l) : g (Machine.dropClashes d l) = g d := by
  induction l generalizing d with
  | nil => exact k.modLdg d _
  | cons x l ih =>
    simp only [Machine.dropClashes]
    split <;> simp only [ih, k.modLdg, k.setLdgResult, k.ledgerWord]

theorem BoardView.ldgData (a1 a2 d) : g (Machine.ldgData a1 a2 d).1 = g d :=
  ldgOwned_keeps a1 d fun d => by
    dsimp only
    (repeat' split) <;> simp only [k.modLdg, k.seqBreak, k.setLdgResult, k.dropClashes]

theorem BoardView.ldgLapse (d) : g (Machine.ldgLapse d) = g d := by
  unfold Machine.ldgLapse
  (repeat' split) <;> simp only [k.seqBreak]

theorem BoardView.ldgOwnerLapse (d) : g (Machine.ldgOwnerLapse d) = g d := by
  simp only [Machine.ldgOwnerLapse, k.modLdg, k.ldgLapse]

theorem BoardView.ldgProgDone (a1 d) : g (Machine.ldgProgDone a1 d) = g d := by
  unfold Machine.ldgProgDone
  (repeat' split) <;> simp only [k.modLdg, k.setLdgResult, k.draw32, k.event.raiseOp, k.dropClashes]

theorem BoardView.erasePulse (a1 a2 d) : g (Machine.erasePulse a1 a2 d) = g d := by
  unfold Machine.erasePulse
  dsimp only
  (repeat' split) <;> simp only [k.modLdg, k.countErase, k.setLdgResult, k.event.raiseOp]

theorem BoardView.eraseSlow (a1 d) : g (Machine.eraseSlow a1 d) = g d := by
  unfold Machine.eraseSlow
  split <;> simp only [k.event.raiseOp]

theorem BoardView.windowMove (d) : g (Machine.windowMove d) = g d := by
  unfold Machine.windowMove
  dsimp only
  (repeat' split) <;> simp only [k.wearSector, k.modLdg, k.event.raiseOp]

theorem BoardView.shpCmd (d) {f : Dev → Dev × Nat} (hf : ∀ d, g (f d).1 = g d) : g (Machine.shpCmd f d).1 = g d := by
  unfold Machine.shpCmd
  split <;> simp only [k.modLdg, hf]

omit k in
theorem shpStore_keeps (d) {f : Dev → Dev} (hf : ∀ d, g (f d) = g d) : g (Machine.shpStore f d).1 = g d := by
  unfold Machine.shpStore
  split <;> simp only [hf]

theorem BoardView.shpTuning (d) : g (Machine.shpTuning d).1 = g d := by
  unfold Machine.shpTuning
  split
  · exact shpStore_keeps d k.storeTuning
  · rfl

theorem BoardView.shpIdentity (a1 d) : g (Machine.shpIdentity a1 d).1 = g d := by
  unfold Machine.shpIdentity
  split
  · rfl
  · split
    · rfl
    · exact shpStore_keeps d k.storeNetwork

theorem BoardView.budgetLost (d) : g (Machine.budgetLost d) = g d := by
  simp only [Machine.budgetLost, k.event.raiseOp, k.modDur]

theorem BoardView.overBudget (d) : g (Machine.overBudget d) = g d := by
  unfold Machine.overBudget
  split <;> simp only [k.event.raise]

theorem BoardView.holdSample (a1 d) : g (Machine.holdSample a1 d) = g d := k.of_eq rfl rfl

theorem BoardView.scheduleTest (d) : g (Machine.scheduleTest d) = g d := by
  unfold Machine.scheduleTest
  split <;> simp only [k.event.raiseOp, k.modDur]

theorem BoardView.shuntCharge (d a1) : g (Machine.shuntCharge d a1).2 = g d := by
  unfold Machine.shuntCharge
  dsimp only
  (repeat' split) <;> simp only [k.draw32]

theorem BoardView.anchorCount (d) : g (Machine.anchorCount d) = g d := by
  unfold Machine.anchorCount
  (repeat' split) <;> simp only [k.scheduleTest, k.modDur]

theorem BoardView.mismatchEnd (d) : g (Machine.mismatchEnd d) = g d := by
  unfold Machine.mismatchEnd
  dsimp only
  (repeat' split) <;> simp only [k.modDur, k.event.raiseOp, k.scheduleTest]

theorem BoardView.portsDown (d) : g (Machine.portsDown d) = g d := foldl_keeps g _ (fun a p => k.linkDown p a) _ d

theorem BoardView.warmLeave (d) : g (Machine.warmLeave d) = g d := by
  unfold Machine.warmLeave
  split <;> simp only [k.modRst]

theorem BoardView.linkDrained (d) : g (Machine.linkDrained d) = g d := by
  unfold Machine.linkDrained
  split <;> simp only [k.twlDown, k.modDur]

theorem BoardView.imageProgram (d) : g (Machine.imageProgram d) = g d := by
  unfold Machine.imageProgram
  split <;> simp only [k.stateEntry, k.modDur]

theorem BoardView.fetchBatch (d a1 a2) : g (Machine.fetchBatch d a1 a2) = g d := k.of_eq rfl rfl

theorem BoardView.fetchTurn (a1 d) : g (Machine.fetchTurn a1 d) = g d := by
  unfold Machine.fetchTurn
  (repeat' split) <;> simp only [k.modNet, k.touchCtx, k.fetchBatch]

theorem BoardView.setupTimeout (a1 d) : g (Machine.setupTimeout a1 d) = g d := by
  unfold Machine.setupTimeout
  (repeat' split) <;> simp only [k.changeConn]

theorem BoardView.errorHold (a1 d) : g (Machine.errorHold a1 d) = g d := by
  unfold Machine.errorHold
  (repeat' split) <;> simp only [k.changeConn]

omit k in
theorem updCmd_keeps (d) {f : Dev → Dev} (hf : ∀ d, g (f d) = g d) : g (Machine.updCmd f d).1 = g d := by
  unfold Machine.updCmd
  split <;> simp only [hf]

theorem BoardView.updEnd (d a1) : g (Machine.updEnd d a1) = g d := k.of_eq rfl rfl

theorem BoardView.journalStage (a1 d) : g (Machine.journalStage a1 d) = g d := k.of_eq rfl rfl

theorem BoardView.stageEnds (d a1) : g (Machine.stageEnds d a1) = g d := by
  simp only [Machine.stageEnds, k.event.raiseOp, k.updEnd]

theorem BoardView.stageDelta (d) : g (Machine.stageDelta d) = g d := by
  unfold Machine.stageDelta
  (repeat' split) <;> simp only [k.stageEnds, k.countErases, k.setBank, k.journalStage, k.modUpd]

theorem BoardView.stageDone (d) : g (Machine.stageDone d) = g d := by
  unfold Machine.stageDone
  (repeat' split) <;> simp only [k.modUpd, k.stageEnds, k.journalStage, k.setBank]

theorem BoardView.updCommit (a1 d) : g (Machine.updCommit a1 d) = g d := by
  unfold Machine.updCommit
  dsimp only
  (repeat' split) <;> simp only [k.updEnd, k.journalStage, k.modLdg, k.setBoot, k.event.raiseOp]

theorem BoardView.updRevoke (a1 a2 d) : g (Machine.updRevoke a1 a2 d) = g d := by
  unfold Machine.updRevoke
  (repeat' split) <;> simp only [k.updEnd, k.event.raiseOp, k.modLdg]

theorem BoardView.inRecovery (a1 d) {f : Dev → Dev} (hf : ∀ d, g (f d) = g d) : g (Machine.inRecovery a1 f d) = g d := by
  unfold Machine.inRecovery
  split <;> simp only [hf, k.updEnd]

theorem BoardView.recoverBegin (d) : g (Machine.recoverBegin d) = g d := by
  simp only [Machine.recoverBegin, k.modUpd, k.updEnd, k.countErases, k.setBank]

theorem BoardView.recoverWord (a1 a2 d) : g (Machine.recoverWord a1 a2 d).1 = g d := by
  unfold Machine.recoverWord
  split <;> simp only [k.modUpd, k.setBank]

theorem BoardView.clearRecorder (a1 a2 d) : g (Machine.clearRecorder a1 a2 d).1 = g d := by
  unfold Machine.clearRecorder
  (repeat' split) <;> simp only [k.modEvt, k.event.raise, k.event.recordEvent]

theorem BoardView.codeRefill (a1 d) : g (Machine.codeRefill a1 d) = g d := by
  unfold Machine.codeRefill
  dsimp only
  (repeat' split) <;> simp only [k.modEvt]

theorem BoardView.foldRefill (a1 d) : g (Machine.foldRefill a1 d) = g d := by
  unfold Machine.foldRefill
  dsimp only
  (repeat' split) <;> simp only [k.modEvt]

theorem BoardView.pendClear (a1 d) : g (Machine.pendClear a1 d).1 = g d := k.of_eq rfl rfl

theorem BoardView.snapWrite (a1 a2 d) : g (Machine.snapWrite a1 a2 d).1 = g d := by
  unfold Machine.snapWrite
  dsimp only
  (repeat' split) <;> simp only [k.modEvt, k.event.recordEvent]

omit k in
theorem ringCmd_keeps (d) {f : Dev → Dev} (hf : ∀ d, g (f d) = g d) : g (Machine.ringCmd f d).1 = g d := by
  unfold Machine.ringCmd
  dsimp only
  split <;> simp only [hf]

theorem BoardView.ringResult (d a1) : g (Machine.ringResult d a1) = g d := k.of_eq rfl rfl

theorem BoardView.ageing (a1 d) : g (Machine.ageing a1 d) = g d := (k.checkLife _ _).trans (k.modEvt d _)

theorem BoardView.resetCmd (a1 d) {f : Dev → Dev × ResetResult} (hf : ∀ d, g (f d).1 = g d) : g (Machine.resetCmd a1 f d).1 = g d := by
  unfold Machine.resetCmd
  split <;> simp only [k.modRst, hf]

theorem BoardView.warmCmd (a1 d) : g (Machine.warmCmd a1 d).1 = g d := by
  unfold Machine.warmCmd
  split <;> simp only [k.modRst]

theorem BoardView.galleryCmd (a1 d) : g (Machine.galleryCmd a1 d).1 = g d := by
  unfold Machine.galleryCmd
  (repeat' split) <;> simp only [k.modRst]

theorem BoardView.foldDone (d) : g (Machine.foldDone d) = g d := by
  unfold Machine.foldDone
  (repeat' split) <;> simp only [k.event.raiseOp, k.modRst]

theorem BoardView.holdEnd (d) : g (Machine.holdEnd d) = g d := by
  unfold Machine.holdEnd
  split <;> simp only [k.warmLeave]

theorem BoardView.ownerOnly (a1 d) {f : Dev → Dev} (hf : ∀ d, g (f d) = g d) : g (Machine.ownerOnly a1 f d).1 = g d := by
  unfold Machine.ownerOnly
  dsimp only
  (repeat' split) <;> simp only [k.modRst, hf]

theorem BoardView.stageOpen (a1 d) : g (Machine.stageOpen a1 d).1 = g d := by
  unfold Machine.stageOpen
  split <;> simp only [k.modRst]

theorem BoardView.abandonBank (d) : g (Machine.abandonBank d) = g d := by
  simp only [Machine.abandonBank, k.event.raiseOp, k.modRst]

theorem BoardView.bankLapse (d) : g (Machine.bankLapse d) = g d := by
  unfold Machine.bankLapse
  split <;> simp only [k.lapseBank]

omit k in
theorem onBus_keeps (d) {f : Dev → Dev} (hf : ∀ d, g (f d) = g d) : g (Machine.onBus f d) = g d := by
  unfold Machine.onBus
  split <;> simp only [hf]

theorem BoardView.i3cPoint (a1 d) : g (Machine.i3cPoint a1 d) = g d := k.of_eq rfl rfl

theorem BoardView.i3cSay (a1 d) : g (Machine.i3cSay a1 d) = g d := k.of_eq rfl rfl

theorem BoardView.i3cTake (a1 d) : g (Machine.i3cTake a1 d) = g d := k.of_eq rfl rfl

theorem BoardView.setGate (a1 a2 d) : g (Machine.setGate a1 a2 d) = g d := k.of_eq rfl rfl

theorem BoardView.gateIsland (a1 d) : g (Machine.gateIsland a1 d) = g d := by
  unfold Machine.gateIsland
  split <;> simp only [k.setGate]

theorem BoardView.loadTap (a1 d) : g (Machine.loadTap a1 d) = g d := k.of_eq rfl rfl

end

end Sys2Proof.Machine
end

section
/-! SUPPORT. Temperatures, the core supply and calibration (R484, R487 to R492): no work that a save ends changes the supply's state,
with the statement about them. -/
namespace Sys2Proof.Machine

theorem supplyView : BoardView Dev.pwr := ⟨fun h _ => h⟩

/-! ## What may write registers and leaves the supply -/

@[simp] theorem applyConfig_pwr (d ws) : (applyConfig d ws).pwr = d.pwr := (supplyView.storeShared _).trans (supplyView.cfgChanged _)

@[simp] theorem putItem_pwr (d i) : (putItem d i).pwr = d.pwr := by
  unfold putItem
  split
  case h_3 => exact supplyView.putResults _ _ _ _
  case h_10 => split <;> rfl
  all_goals rfl

@[simp] theorem installControl_pwr (d leaf items) : (installControl d leaf items).pwr = d.pwr :=
  (foldl_keeps Dev.pwr _ putItem_pwr _ _).trans (foldl_keeps Dev.pwr _ (supplyView.dropItem items) _ d)

@[simp] theorem dropUnstamped_pwr (d) : (dropUnstamped d).pwr = d.pwr := by
  obtain ⟨_, _, h⟩ := dropUnstamped_frame d
  rw [h]

@[simp] theorem installLeaf_pwr (d a1 a2 a3 a4 a5) : (installLeaf d a1 a2 a3 a4 a5).pwr = d.pwr := by
  unfold installLeaf
  extract_lets leaf lines bad d1 d2 d3 d4 d5 d6
  have h1 : d1.pwr = d.pwr := supplyView.stamp.markDirty d
  clear_value d1 lines
  have h2 : d2.pwr = d.pwr := by
    simp only [d2]
    split
    · exact (installControl_pwr _ _ _).trans h1
    · exact (supplyView.memory _ _).trans h1
  clear_value d2
  have h5 : d5.pwr = d.pwr := (Dev.modFtl_pwr _ _).trans ((Dev.modTwin_pwr _ _).trans ((Dev.modDur_pwr _ _).trans h2))
  clear_value d5
  have h6 : d6.pwr = d.pwr := by
    simp only [d6]
    split
    · exact (supplyView.rebuildFolds _).trans h5
    · exact h5
  exact (supplyView.flushFins _).trans ((foldl_keeps Dev.pwr _ (fun a e => supplyView.leafEntry a _ _) _ d6).trans h6)

@[simp] theorem applyCtrl_pwr (d st b) : (applyCtrl d st b).pwr = d.pwr := by
  cases b with
  | rma c => exact supplyView.applyRma d st c
  | rmaDrained f => exact supplyView.applyDrained d st f
  | enrol id c => exact supplyView.putCred d id _
  | credRevoke id => exact supplyView.putCred d id _
  | config ws => exact applyConfig_pwr d ws
  | connNew n i => exact supplyView.stamp.noteSetup _ _ _
  | connChange n ch => exact (supplyView.stamp.noteSetup _ _ _).trans (supplyView.applyChange d n ch)
  | keySlot cmd k key => exact (supplyView.event.raiseOp _ _ _ _).trans (supplyView.applyKey d cmd k key)
  | foldReset f => exact supplyView.applyFoldReset d f
  | ringBind | ringUnbind | foldRl | window => rfl

@[simp] theorem sendCtrl_pwr (d b) : (sendCtrl d b).pwr = d.pwr := by simp [sendCtrl, supplyView.markEnd]

/-! ## Ending the work in hand -/

theorem tryRma_pwr {d : Dev} {s : Nat} {c : RmaCmd} {e : Dev} (h : tryRma d s c = some e) : e.pwr = d.pwr := by
  unfold tryRma at h
  split at h
  · cases h
    exact supplyView.endSlot d s _
  · split at h
    · cases h
      exact supplyView.endSlot d s _
    · split at h
      · cases h
      · split at h
        · cases h
        · dsimp only at h
          split at h <;> cases h <;> simp [supplyView.endSlot, supplyView.noteHandle]

@[simp] theorem drainCtrl_pwr (n d) : (drainCtrl n d).pwr = d.pwr := by
  induction n generalizing d with
  | zero => rfl
  | succ n ih =>
    simp only [drainCtrl]
    split
    · rfl
    · split
      · rw [ih]
        split <;> simp only [supplyView.markEnd, Dev.modTwin_pwr]
      · split
        · rw [ih]
          split <;> simp only [sendCtrl_pwr, stampCtrl_pwr, Dev.modTwin_pwr]
        · rfl

@[simp] theorem rmaPump_pwr (n d) : (rmaPump n d).pwr = d.pwr := by
  induction n generalizing d with
  | zero => rfl
  | succ n ih =>
    simp only [rmaPump]
    split
    · split
      · split
        · rw [ih, supplyView.endSlot, Dev.modFolds_pwr]
        · rfl
      · split
        · rfl
        · simp only [ih, supplyView.endSlot, Dev.modFolds_pwr, applyCtrl_pwr, stampCtrl_pwr]
    · split
      · rfl
      · split
        · rfl
        · split
          · rename_i h
            rw [ih, Dev.modFolds_pwr, tryRma_pwr h]
          · rfl

@[simp] theorem settle_pwr (d) : (settle d).pwr = d.pwr := by
  unfold settle
  simp only [rmaPump_pwr, drainCtrl_pwr]
  split <;> simp only [supplyView.refuseWaiting]

@[simp] theorem endWaiting_pwr (d) : (endWaiting d).pwr = d.pwr := by
  unfold endWaiting
  extract_lets d1 d2
  have h1 : d1.pwr = d.pwr := by
    simp only [d1]
    split <;> simp only [supplyView.endSlot, Dev.modFolds_pwr]
  have h2 : d2.pwr = d.pwr := by
    rw [← h1]
    simp only [d2]
    split <;> simp only [Dev.modRst_pwr]
  exact (settle_pwr d2).trans h2

/-! ## Standing down -/

@[simp] theorem applyRec_pwr (d r) : (applyRec d r).pwr = d.pwr := by
  unfold applyRec
  split
  · exact supplyView.applyOp _ _ _ _ _
  · exact supplyView.applyGroup _ _ _ _ _
  · exact (supplyView.maskedRun _ _ fun a => applyCtrl_pwr a _ _).trans ((supplyView.stamp.noteLines _ _ _).trans (supplyView.applied _ _))
  · exact supplyView.takeEnd _ _ _
  · exact supplyView.takeIndex _ _ _ _ _ _
  · exact supplyView.takeRdata _ _ _ _ _ _
  · exact supplyView.takeLevel _ _
  · exact installLeaf_pwr _ _ _ _ _ _
  · rfl

@[simp] theorem drainHeld_pwr (n d) : (drainHeld n d).pwr = d.pwr := by
  induction n generalizing d with
  | zero => rfl
  | succ n ih =>
    simp only [drainHeld]
    split
    · rfl
    · split
      · rfl
      · (repeat' split) <;> simp only [ih, applyRec_pwr, supplyView.leaveWith, Dev.modTwin_pwr]

@[simp] theorem stopServing_pwr (d tgt) : (stopServing d tgt).pwr = d.pwr := by
  unfold stopServing
  split
  · exact supplyView.enterState d tgt
  · simp only [supplyView.runOut, endWaiting_pwr, supplyView.lapseBank, supplyView.enterState, supplyView.endPhase, Dev.modTwin_pwr]
    split <;> simp only [supplyView.leavePair, dropUnstamped_pwr]

@[simp] theorem fence_pwr (d) : (fence d).pwr = d.pwr := by
  unfold fence
  dsimp only
  (repeat' split) <;> simp only [supplyView.stamp.sendRecs, stopServing_pwr]

/-- Standing down leaves the supply as it was (R266, R270). -/
@[simp] theorem standDown_pwr (d) : (standDown d).pwr = d.pwr := by
  unfold standDown
  split <;> simp only [supplyView.enterState, supplyView.leavePair, supplyView.abandonJoin, drainHeld_pwr, fence_pwr]

theorem startSave_supply (d : Dev) : (startSave d).pwr = (saveBegun d).pwr := by
  rw [startSave_eq]
  split <;> simp only [supplyView.twlDown, supplyView.portsDown, standDown_pwr]

theorem saveDrains_supply (start : Nat) (held : Bool) (d : Dev) : (saveDrains start held d).pwr.faulty = d.pwr.faulty ∧
    (saveDrains start held d).pwr.sensors = d.pwr.sensors := ⟨rfl, rfl⟩

theorem saveBegun_supply (d : Dev) : (saveBegun d).pwr.faulty = d.pwr.faulty ∧ (saveBegun d).pwr.sensors = d.pwr.sensors := by
  have h := saveDrains_supply d.clock (holdsLink d) (raiseOp (setPwr d .saving) 0x0106 srcPWR [])
  rw [raiseOp_pwr, setPwr_pwr] at h
  exact h

/-- What a save leaves of the supply as it starts. -/
theorem startSave_pwr (d : Dev) : (startSave d).pwr.st = .saving ∧ (startSave d).pwr.cause = d.pwr.cause ∧
    (startSave d).pwr.faulty = d.pwr.faulty ∧ (startSave d).pwr.sensors = d.pwr.sensors := by
  obtain ⟨-, -, hst, hcause, -⟩ := saveBegun_parts d
  obtain ⟨hfaulty, hsensors⟩ := saveBegun_supply d
  rw [startSave_supply]
  exact ⟨hst, hcause, hfaulty, hsensors⟩

/-! ## A trip -/

theorem offRequest_served {d : Dev} (h : d.pwr.st = .on) (hs : d.pwr.served = true) (hz : d.sec.zeroing = false) (cause : OffCause)
    (rail : Nat) : offRequest cause true false rail d = startSave (lockoutKeys (offCause cause true d)) := by
  unfold offRequest
  rw [h, hs, hz]
  rfl

theorem offRequest_served_pwr {d : Dev} (h : d.pwr.st = .on) (hs : d.pwr.served = true) (hz : d.sec.zeroing = false) (cause : OffCause)
    (rail : Nat) : (offRequest cause true false rail d).pwr.st = .saving ∧ (offRequest cause true false rail d).pwr.cause = cause ∧
      (offRequest cause true false rail d).pwr.faulty = true ∧ (offRequest cause true false rail d).pwr.sensors = d.pwr.sensors := by
  obtain ⟨_, hk⟩ := lockoutKeys_frame (offCause cause true d)
  obtain ⟨hst, hcause, hfaulty, hsensors⟩ := startSave_pwr (lockoutKeys (offCause cause true d))
  rw [offRequest_served h hs hz]
  rw [hk] at hcause hfaulty hsensors ⊢
  exact ⟨hk ▸ hst, hcause, hfaulty.trans (Bool.or_true _), hsensors⟩

theorem offRequest_leaving {d : Dev} (h : d.pwr.st = .saving ∨ d.pwr.st = .rampDown) (cause : OffCause) (rail : Nat) :
    offRequest cause true false rail d = d.modPwr fun p => { p with faulty := true } := by
  unfold offRequest
  rcases h with h | h <;> rw [h] <;> simp only [Bool.or_true]

/-! ## Temperatures -/

/-- The device with a conversion of a sensor (R487). -/
def sensed (sensor : Nat) (value : Int) (d : Dev) : Dev := d.modPwr fun p => { p with sensors := modAt p.sensors sensor fun _ => value }

/-- The device after a conversion has warned and throttled (R488, R489). -/
def warned (sensor : Nat) (value : Int) (d : Dev) : Dev :=
  let d1 := sensed sensor value d
  let t := (hottest d1).1
  let hot := decide (warnAt d < t)
  let d2 := if hot = d.pwr.warn then d1 else raiseOp (d1.modPwr fun p => { p with warn := hot }) 0x0B01 srcPWR []
  if throtAt d < t && !d.pwr.throttle then raiseOp (d2.modPwr fun p => { p with throttle := true }) 0x0B02 srcPWR [] else d2

theorem warned_parts (sensor : Nat) (value : Int) (d : Dev) : (warned sensor value d).pwr =
      { (sensed sensor value d).pwr with warn := decide (warnAt d < (hottest (sensed sensor value d)).1),
                                         throttle := d.pwr.throttle || decide (throtAt d < (hottest (sensed sensor value d)).1) } ∧
    (warned sensor value d).mem = d.mem ∧ (warned sensor value d).sec = d.sec := by
  unfold warned
  extract_lets d1 t hot d2
  have h2 : d2.pwr = { d1.pwr with warn := hot } ∧ d2.mem = d.mem ∧ d2.sec = d.sec := by
    simp only [d2]
    split
    case isTrue h => exact ⟨by rw [h]; rfl, rfl, rfl⟩
    case isFalse => exact ⟨raiseOp_pwr _ _ _ _, raiseOp_mem _ _ _ _, raiseOp_sec _ _ _ _⟩
  obtain ⟨hpwr, hmem, hsec⟩ := h2
  by_cases hthrot : (decide (throtAt d < t) && !d.pwr.throttle) = true
  · obtain ⟨hhot, hoff⟩ := Bool.and_eq_true_iff.1 hthrot
    rw [if_pos hthrot, raiseOp_pwr, raiseOp_mem, raiseOp_sec, Dev.modPwr_pwr, hpwr]
    refine ⟨?_, hmem, hsec⟩
    rw [hhot, Bool.or_true]
  · rw [if_neg hthrot, hpwr]
    refine ⟨?_, hmem, hsec⟩
    have hsame : (d.pwr.throttle || decide (throtAt d < t)) = d1.pwr.throttle := by
      change _ = d.pwr.throttle
      cases hthr : d.pwr.throttle with
      | true => rfl
      | false => simpa [hthr] using hthrot
    rw [hsame]

theorem tempConv_cool {sensor : Nat} {value : Int} {d : Dev} (hn : sensor < 36)
    (h : (hottest (sensed sensor value d)).1 < tripAt d ∨ d.pwr.st = .fault) : tempConv sensor value d = warned sensor value d := by
  unfold tempConv
  rw [if_neg (by omega)]
  change (if (hottest (sensed sensor value d)).1 < tripAt d then warned sensor value d else _) = _
  rcases h with h | h
  · rw [if_pos h]
  · rw [h]
    exact ite_self _

/-- A trip is told with the snapshot of its cause (R481, R489). -/
def tripTold (d : Dev) : Dev := raise (takeSnap d .trip 0) 0x0B03 srcPWR (snapPayload (takeSnap d .trip 0)) []

theorem tripTold_parts (d : Dev) : (tripTold d).pwr = (takeSnap d .trip 0).pwr ∧ (tripTold d).sec = d.sec :=
  ⟨raise_pwr _ _ _ _ _, raise_sec _ _ _ _ _⟩

theorem tempConv_trip {sensor : Nat} {value : Int} {d : Dev} (hn : sensor < 36) (h : tripAt d ≤ (hottest (sensed sensor value d)).1) :
    tempConv sensor value d = match d.pwr.st with
      | .on | .off => offRequest .trip true false 0 (tripTold (warned sensor value d))
      | .rampUp => seqFault (tripTold (warned sensor value d)) 0
      | .saving | .rampDown => offRequest .trip true false 0 (warned sensor value d)
      | .fault => warned sensor value d := by
  unfold tempConv
  rw [if_neg (by omega)]
  change (if (hottest (sensed sensor value d)).1 < tripAt d then warned sensor value d else _) = _
  rw [if_neg (by omega)]
  cases d.pwr.st <;> rfl

theorem tripTold_warned (sensor : Nat) (value : Int) (d : Dev) : (tripTold (warned sensor value d)).pwr.st = d.pwr.st ∧
    (tripTold (warned sensor value d)).pwr.served = d.pwr.served ∧
    (tripTold (warned sensor value d)).pwr.sensors = (sensed sensor value d).pwr.sensors ∧
    (tripTold (warned sensor value d)).sec = d.sec := by
  obtain ⟨hpwr, -, hsec⟩ := warned_parts sensor value d
  obtain ⟨htold, htoldSec⟩ := tripTold_parts (warned sensor value d)
  obtain ⟨_, _, hsnap⟩ := takeSnap_pwr (warned sensor value d) .trip 0
  rw [htold, hsnap, hpwr, htoldSec, hsec]
  exact ⟨rfl, rfl, rfl, rfl⟩

/-- An off request leaves the sensors, whatever stands against a save. -/
theorem offRequest_on_sensors {d : Dev} (h : d.pwr.st = .on) (cause : OffCause) (rail : Nat) :
    (offRequest cause true false rail d).pwr.sensors = d.pwr.sensors := by
  by_cases hs : d.pwr.served = true ∧ d.sec.zeroing = false
  · exact (offRequest_served_pwr h hs.1 hs.2 cause rail).2.2.2
  · have hno : (d.pwr.served && !d.sec.zeroing) = false := by
      cases hserved : d.pwr.served <;> cases hzero : d.sec.zeroing <;> simp_all
    unfold offRequest
    rw [h]
    dsimp only
    rw [hno, if_neg Bool.false_ne_true]
    exact (powerDown_pwr _).2.2.2

/-- What a trip does in each state of the supply (R482, R489). -/
theorem tempConv_trip_parts {sensor : Nat} {value : Int} {d : Dev} (hn : sensor < 36)
    (h : tripAt d ≤ (hottest (sensed sensor value d)).1) (hf : d.pwr.st ≠ .fault) :
    (tempConv sensor value d).pwr.sensors = (sensed sensor value d).pwr.sensors ∧
    (d.pwr.st = .off → (tempConv sensor value d).pwr.st = .fault ∧ (tempConv sensor value d).pwr.faulty = true ∧
      (tempConv sensor value d).pwr.cause = .trip) ∧
    (d.pwr.st = .rampUp → (tempConv sensor value d).pwr.st = .rampDown ∧ (tempConv sensor value d).pwr.cause = .seqFault) ∧
    (d.pwr.st = .on → d.pwr.served = false → (tempConv sensor value d).pwr.st = .rampDown ∧ (tempConv sensor value d).pwr.faulty = true ∧
      (tempConv sensor value d).pwr.cause = .trip) ∧
    (d.pwr.st = .on → d.pwr.served = true → d.sec.zeroing = false → (tempConv sensor value d).pwr.st = .saving ∧
      (tempConv sensor value d).pwr.faulty = true ∧ (tempConv sensor value d).pwr.cause = .trip) ∧
    (d.pwr.st = .saving ∨ d.pwr.st = .rampDown → (tempConv sensor value d).pwr.st = d.pwr.st ∧
      (tempConv sensor value d).pwr.faulty = true) := by
  obtain ⟨hst, hserved, hsensors, hsec⟩ := tripTold_warned sensor value d
  obtain ⟨hwarned, -, -⟩ := warned_parts sensor value d
  have hconv := tempConv_trip hn h
  have hkept : (warned sensor value d).pwr.sensors = (sensed sensor value d).pwr.sensors :=
    (congrArg Pwr.sensors hwarned).trans rfl
  cases hp : d.pwr.st with
  | fault => exact absurd hp hf
  | off =>
    rw [hp] at hconv hst
    rw [hconv, offRequest_off_pwr hst]
    exact ⟨hsensors, fun _ => ⟨rfl, rfl, rfl⟩, nofun, nofun, nofun, nofun⟩
  | rampUp =>
    rw [hp] at hconv
    obtain ⟨hdown, hcause, -, -, hkeep⟩ := seqFault_pwr (tripTold (warned sensor value d)) 0
    rw [hconv]
    exact ⟨hkeep.trans hsensors, nofun, fun _ => ⟨hdown, hcause⟩, nofun, nofun, nofun⟩
  | on =>
    rw [hp] at hconv hst
    rw [hconv]
    refine ⟨(offRequest_on_sensors hst .trip 0).trans hsensors, nofun, nofun, fun _ hs => ?_, fun _ hs hz => ?_, nofun⟩
    · obtain ⟨hdown, hcause, hfaulty, -⟩ := offRequest_unserved_pwr hst (hserved.trans hs) .trip 0
      exact ⟨hdown, hfaulty, hcause⟩
    · obtain ⟨hsave, hcause, hfaulty, -⟩ := offRequest_served_pwr hst (hserved.trans hs) ((congrArg Sec.zeroing hsec).trans hz) .trip 0
      exact ⟨hsave, hfaulty, hcause⟩
  | saving =>
    have hw : (warned sensor value d).pwr.st = .saving := (congrArg Pwr.st hwarned).trans hp
    rw [hp] at hconv
    rw [hconv, offRequest_leaving (.inl hw)]
    exact ⟨hkept, nofun, nofun, nofun, nofun, fun _ => ⟨hw, rfl⟩⟩
  | rampDown =>
    have hw : (warned sensor value d).pwr.st = .rampDown := (congrArg Pwr.st hwarned).trans hp
    rw [hp] at hconv
    rw [hconv, offRequest_leaving (.inr hw)]
    exact ⟨hkept, nofun, nofun, nofun, nofun, fun _ => ⟨hw, rfl⟩⟩

theorem throttleStep_hot {d : Dev} (ht : d.pwr.throttle = true) (h : throtAt d < (hottest d).1) : throttleStep d =
    d.modPwr fun p => { p with galClk := p.galClk.map fun c => max 12 (c - 1) } := by
  rw [throttleStep, ht, Bool.not_true, if_neg Bool.false_ne_true]
  exact if_pos h

theorem throttleStep_idle {d : Dev} (h : d.pwr.throttle = false ∨ (throtAt d - 24 ≤ (hottest d).1 ∧ (hottest d).1 ≤ throtAt d)) :
    throttleStep d = d := by
  unfold throttleStep
  dsimp only
  rcases h with h | ⟨hlo, hhi⟩
  · rw [h, Bool.not_false, if_pos rfl]
  · rw [if_neg (not_lt.2 hhi), if_pos hlo, ite_self]

/-- The clocks rise by one step, up to their cap (R488). -/
def clocksRaised (d : Dev) : Dev := d.modPwr fun p => { p with galClk := p.galClk.map fun c => min (clockCap d) (c + 1) }

theorem throttleStep_cool {d : Dev} (ht : d.pwr.throttle = true) (h : (hottest d).1 < throtAt d - 24) :
    (throttleStep d).pwr.galClk = d.pwr.galClk.map (fun c => min (clockCap d) (c + 1)) ∧
    (throttleStep d).pwr.throttle = !((throttleStep d).pwr.galClk.all fun c => decide (clockCap d ≤ c)) ∧ (throttleStep d).mem = d.mem := by
  have hstep : throttleStep d = if (clocksRaised d).pwr.galClk.all fun c => decide (clockCap d ≤ c) then
      raiseOp ((clocksRaised d).modPwr fun p => { p with throttle := false }) 0x0B02 srcPWR [] else clocksRaised d := by
    unfold throttleStep
    rw [ht, Bool.not_true, if_neg Bool.false_ne_true]
    dsimp only
    rw [if_neg (by omega), if_neg (by omega)]
    rfl
  by_cases hall : ((clocksRaised d).pwr.galClk.all fun c => decide (clockCap d ≤ c)) = true
  · rw [hstep, if_pos hall, raiseOp_pwr, raiseOp_mem]
    exact ⟨rfl, (congrArg not hall).symm, rfl⟩
  · rw [hstep, if_neg hall]
    exact ⟨rfl, ht.trans (congrArg not (Bool.eq_false_iff.2 hall)).symm, rfl⟩

/-! ## The hold-up sensor -/

/-- A conversion of the hold-up sensor with its count of good ones and its validity (R328). -/
def holdMeasured (n : Nat) (valid : Bool) (c : Int) (d : Dev) : Dev :=
  d.modPwr fun p => { p with goodConv := n, holdValid := valid, thold := if valid then c else 125 }

theorem holdTemp_parts {mv n : Nat} {bad valid : Bool} (c : Int) {d : Dev} (hbad : (decide (1200 < mv) || decide (mv < 100)) = bad)
    (hn : (if bad then 0 else min 3 (d.pwr.goodConv + 1)) = n) (hvalid : (!bad && (d.pwr.holdValid || decide (n = 3))) = valid) :
    (∃ h, (holdTemp mv c d).pwr = { (holdMeasured n valid c d).pwr with holdHot := h }) ∧ (holdTemp mv c d).mem = d.mem := by
  subst hbad hn hvalid
  unfold holdTemp
  extract_lets bad n valid d1 d2 hot
  have h2 : d2.pwr = d1.pwr ∧ d2.mem = d.mem := by
    simp only [d2]
    split
    · exact ⟨rfl, rfl⟩
    · exact ⟨raiseOp_pwr _ _ _ _, raiseOp_mem _ _ _ _⟩
  obtain ⟨hpwr, hmem⟩ := h2
  split
  · exact ⟨⟨_, hpwr⟩, hmem⟩
  · refine ⟨⟨hot, ?_⟩, (raiseOp_mem _ _ _ _).trans hmem⟩
    rw [raiseOp_pwr, Dev.modPwr_pwr, hpwr]
    rfl

theorem holdTemp_good {mv : Nat} (c : Int) (d : Dev) (hlo : 100 ≤ mv) (hhi : mv ≤ 1200) :
    (holdTemp mv c d).pwr.goodConv = min 3 (d.pwr.goodConv + 1) ∧
    (holdTemp mv c d).pwr.holdValid = (d.pwr.holdValid || decide (2 ≤ d.pwr.goodConv)) ∧
    (holdTemp mv c d).pwr.thold = if (holdTemp mv c d).pwr.holdValid then c else 125 := by
  have hbad : (decide (1200 < mv) || decide (mv < 100)) = false := by simp; omega
  have hthird : decide (min 3 (d.pwr.goodConv + 1) = 3) = decide (2 ≤ d.pwr.goodConv) := decide_eq_decide.2 (by omega)
  obtain ⟨⟨_, h⟩, -⟩ := holdTemp_parts c (d := d) hbad rfl rfl
  rw [h]
  exact ⟨rfl, congrArg (d.pwr.holdValid || ·) hthird, rfl⟩

theorem holdTemp_bad {mv : Nat} (c : Int) (d : Dev) (h : mv < 100 ∨ 1200 < mv) : (holdTemp mv c d).pwr.goodConv = 0 ∧
    (holdTemp mv c d).pwr.holdValid = false ∧ (holdTemp mv c d).pwr.thold = 125 ∧ (holdTemp mv c d).pwr.st = d.pwr.st ∧
    (holdTemp mv c d).mem = d.mem := by
  have hbad : (decide (1200 < mv) || decide (mv < 100)) = true := by simp; omega
  obtain ⟨⟨_, hp⟩, hmem⟩ := holdTemp_parts c (d := d) hbad rfl rfl
  rw [hp]
  exact ⟨rfl, rfl, rfl, rfl, hmem⟩

/-! ## The core supply -/

theorem setClocks_pwr (d : Dev) : ∃ l, (setClocks d).pwr = { d.pwr with galClk := l } := ⟨_, rfl⟩

/-- The request that the supply now asks for (R484). -/
def coreRequest (d : Dev) : Nat := 720 + 5 * (Config.vddRequest d.freeIdx % 17)

theorem coreUpdate_same {d : Dev} (hm : d.dur.mainOk = true) (hst : d.pwr.st = .on) (h : coreRequest d = d.pwr.reqMv) :
    coreUpdate d = setClocks { d with freeIdx := d.freeIdx + 1 } := by
  rw [coreUpdate, if_neg (by simp [hm, hst])]
  exact if_pos h

theorem coreUpdate_moves {d : Dev} (hm : d.dur.mainOk = true) (hst : d.pwr.st = .on) (h : coreRequest d ≠ d.pwr.reqMv) :
    (coreUpdate d).pwr.reqMv = coreRequest d ∧ (coreUpdate d).pwr.oldMv = d.pwr.reqMv ∧ (coreUpdate d).pwr.pending = true ∧
      (coreUpdate d).pwr.unmet = false ∧ (coreUpdate d).freeIdx = d.freeIdx + 1 := by
  unfold coreUpdate
  rw [if_neg (by simp [hm, hst])]
  extract_lets mv d1 d2
  have hmoves : ¬ mv = d.pwr.reqMv := h
  rw [if_neg hmoves]
  have h2 : d2.pwr.reqMv = d.pwr.reqMv ∧ d2.freeIdx = d.freeIdx + 1 := by
    simp only [d2]
    split <;> exact ⟨rfl, rfl⟩
  obtain ⟨hreq, hidx⟩ := h2
  obtain ⟨_, hp⟩ := setClocks_pwr (raiseOp (d2.modPwr fun p => { p with oldMv := p.reqMv, reqMv := mv, pending := true, unmet := false })
    0x010D srcPWR [])
  rw [hp, raiseOp_pwr]
  exact ⟨rfl, hreq, rfl, rfl, (raiseOp_freeIdx _ _ _ _).trans hidx⟩

theorem coreUpdate_frozen {d : Dev} (h : d.dur.mainOk = false ∨ d.pwr.st ≠ .on) : coreUpdate d = d :=
  if_pos (by simpa using h)

theorem coreUnmet_raises {d : Dev} (hp : d.pwr.pending = true) (hlt : d.pwr.oldMv < d.pwr.reqMv) (hm : d.dur.mainOk = true)
    (hu : d.pwr.unmet = false) : (coreUnmet d).pwr.unmet = true ∧ (coreUnmet d).pwr.pending = true ∧ (coreUnmet d).mem = d.mem := by
  rw [coreUnmet, if_neg (by simp [hp, hlt, hm, hu])]
  obtain ⟨_, h⟩ := setClocks_pwr (raiseOp (d.modPwr fun p => { p with unmet := true }) 0x010E srcPWR [])
  rw [h, raiseOp_pwr]
  exact ⟨rfl, hp, raiseOp_mem _ _ _ _⟩

theorem coreUnmet_idle {d : Dev} (h : d.pwr.pending = false ∨ d.pwr.reqMv ≤ d.pwr.oldMv ∨ d.dur.mainOk = false ∨ d.pwr.unmet = true) :
    coreUnmet d = d :=
  if_pos (by simpa [or_assoc] using h)

theorem coreMet_meets {d : Dev} {mv : Nat} (hp : d.pwr.pending = true) (hlo : d.pwr.reqMv ≤ mv + 10) (hhi : mv ≤ d.pwr.reqMv + 10) :
    (coreMet mv d).pwr.pending = false ∧ (coreMet mv d).pwr.unmet = false ∧ (coreMet mv d).pwr.oldMv = d.pwr.reqMv ∧
      (0 < d.pwr.railMv.length → (coreMet mv d).pwr.railMv.getD 0 0 = mv) := by
  rw [coreMet, if_neg (by simp [hp]; omega)]
  refine ⟨rfl, rfl, rfl, fun h => ?_⟩
  exact modAt_getD h _ _

theorem coreMet_idle {d : Dev} {mv : Nat} (h : d.pwr.pending = false ∨ mv + 10 < d.pwr.reqMv ∨ d.pwr.reqMv + 10 < mv) : coreMet mv d = d :=
  if_pos (by simpa [or_assoc] using h)

/-! ## Calibration -/

theorem calRun_busy {d : Dev} (h : d.pwr.calBusy = true) : calRun d = (d, 0) := if_pos h

theorem calRun_starts {d : Dev} (h : d.pwr.calBusy = false) (hs : calState d = true) :
    calRun d = (d.modPwr fun p => { p with calBusy := true, calParts := 15 }, 0) := by
  rw [calRun, if_neg (by simp [h]), if_neg (by simp [hs])]

theorem calRun_refused {d : Dev} (h : d.pwr.calBusy = false) (hs : calState d = false) :
    calRun d = (d.modPwr fun p => { p with calResult := .badState }, 0) := by
  rw [calRun, if_neg (by simp [h]), if_pos (by simp [hs])]

theorem calDueNow_on {d : Dev} (h : d.pwr.calBusy = false) (hst : d.pwr.st = .on) :
    calDueNow d = d.modPwr fun p => { p with calBusy := true, calParts := 7, calDue := false } := by
  rw [calDueNow, if_neg (by simp [h]), if_pos hst]

theorem calDueNow_waits {d : Dev} (h : d.pwr.calBusy = false) (hst : d.pwr.st ≠ .on) :
    calDueNow d = d.modPwr fun p => { p with calDue := true } := by
  rw [calDueNow, if_neg (by simp [h]), if_neg hst]

theorem calDone_parts {d : Dev} (t : CalTrims) (h : d.pwr.calBusy = true) : (calDone t d).pwr.calBusy = false ∧
    (calDone t d).pwr.calResult = (if trimsLimit t d.pwr.calParts then .limit else .done) ∧
    ∃ r old has, old = (calInUse d).getD factoryCal ∧ has = d.pwr.calParts.testBit ∧
      (calDone t d).ldg.calA = some r ∧ (calDone t d).ldg.calB = some r ∧ r.parts = d.pwr.calParts ∧
      r.railTrim = (if has 2 then keepRails old.railTrim t.railTrim else old.railTrim) ∧
      r.holdGain = (if has 1 then t.holdGain.getD old.holdGain else old.holdGain) ∧
      r.shunt0 = (if has 0 then t.shunt0.getD old.shunt0 else old.shunt0) ∧
      r.drive = (if has 3 then keepTrims old.drive t.drive else old.drive) ∧ r.count = old.count + 1 := by
  unfold calDone
  rw [if_neg (by simp [h])]
  extract_lets has d1 d2 d3
  have h3 : d3.pwr = d2.pwr ∧ d3.ldg = d2.ldg := by
    simp only [d3]
    split
    · exact ⟨raiseOp_pwr _ _ _ _, raiseOp_ldg _ _ _ _⟩
    · exact ⟨rfl, rfl⟩
  obtain ⟨hpwr, hldg⟩ := h3
  rw [raiseOp_pwr, raiseOp_ldg, hpwr, hldg]
  exact ⟨rfl, rfl, _, _, _, rfl, rfl, rfl, rfl, rfl, rfl, rfl, rfl, rfl, rfl⟩

theorem dieTemp_parts (c : Int) (n : Nat) (d : Dev) :
    (∀ k, d.ftl.tempUs[tempBand c]? = some k → (dieTemp c n d).ftl.tempUs[tempBand c]? = some (k + n)) ∧
    (∀ i, i ≠ tempBand c → (dieTemp c n d).ftl.tempUs[i]? = d.ftl.tempUs[i]?) ∧ { dieTemp c n d with ftl := d.ftl } = d :=
  ⟨fun _ h => modAt_self h _, fun _ h => modAt_other h _ _, rfl⟩

/-- Settles O57: each command by the lemma about the state that the clause names. -/
theorem clocksFollowTemperature : Obligations.ClocksFollowTemperature := by
  intro s
  refine ⟨?_, ?_, fun mv c hlo hhi => ⟨_, rfl, holdTemp_good c s.dev hlo hhi⟩, fun mv c h => ⟨_, rfl, holdTemp_bad c s.dev h⟩, ?_,
    fun h => becomes_of rfl (coreUpdate_frozen h), fun hp hlt hm hu => ⟨_, rfl, coreUnmet_raises hp hlt hm hu⟩,
    fun h => becomes_of rfl (coreUnmet_idle h), fun mv hp hlo hhi => ⟨_, rfl, coreMet_meets hp hlo hhi⟩,
    fun mv h => becomes_of rfl (coreMet_idle h), fun p ho => ⟨fun hb => ?_, fun hb hs => ?_, fun hb hs => ?_⟩,
    fun hb hst => becomes_of rfl (calDueNow_on hb hst), fun hb => becomes_of rfl (if_pos hb), fun hb hst => becomes_of rfl (calDueNow_waits hb hst),
    fun t hb => ⟨_, rfl, calDone_parts t hb⟩, fun t hb => becomes_of rfl (if_pos (by simp [hb])), fun c n => ⟨_, rfl, dieTemp_parts c n s.dev⟩⟩
  case refine_1 =>
    rintro n v d t rfl rfl
    refine ⟨fun hn => becomes_of rfl (if_pos hn), fun hn h => ?_, fun hn ht hf => ⟨_, rfl, tempConv_trip_parts hn ht hf⟩⟩
    obtain ⟨hpwr, hmem, -⟩ := warned_parts n v s.dev
    exact ⟨_, becomes_of rfl (tempConv_cool hn h), (congrArg Pwr.sensors hpwr).trans rfl, (congrArg Pwr.warn hpwr).trans rfl,
      (congrArg Pwr.throttle hpwr).trans rfl, (congrArg Pwr.st hpwr).trans rfl, hmem⟩
  case refine_2 =>
    rintro t rfl
    exact ⟨fun ht h => becomes_of rfl (throttleStep_hot ht h), fun h => becomes_of rfl (throttleStep_idle h),
      fun ht h => ⟨_, rfl, throttleStep_cool ht h⟩⟩
  case refine_3 =>
    rintro mv hm hst rfl
    refine ⟨fun h => ⟨_, rfl, coreUpdate_moves hm hst h⟩, fun h => ⟨_, becomes_of rfl (coreUpdate_same hm hst h), ?_⟩⟩
    exact ⟨h.symm, rfl, rfl, rfl, rfl⟩
  case refine_4 => exact runs_command ho rfl (calRun_busy hb) ⟨rfl, rfl⟩
  case refine_5 => exact runs_command ho rfl (calRun_starts hb hs) rfl
  case refine_6 => exact runs_command ho rfl (calRun_refused hb hs) rfl

end Sys2Proof.Machine
end

section
/-! SUPPORT. What a command outside `mayWriteRegs` leaves of the stored registers, with the statement about it. -/
namespace Sys2Proof.Machine

/-- The stored registers but for EVT_REC_DROP, which any event may raise (R508). -/
def otherRegs (d : Dev) : Nat → Word := fun a => if a = 0x50154 then 0 else reg d a

theorem otherRegs_congr {d e : Dev} (h : ∀ a, a ≠ 0x50154 → reg e a = reg d a) : otherRegs e = otherRegs d := by
  funext a
  unfold otherRegs
  split
  · rfl
  · exact h a ‹_›

theorem reg_of_otherRegs {d e : Dev} (h : otherRegs e = otherRegs d) {a : Nat} (ha : a ≠ 0x50154) : reg e a = reg d a := by
  have h := congrFun h a
  unfold otherRegs at h
  rwa [if_neg ha, if_neg ha] at h

theorem registerView : BoardView otherRegs := ⟨fun _ h => otherRegs_congr h⟩

/-! ## What moves the supply and leaves the registers -/

@[simp] theorem modPwr_otherRegs (d f) : otherRegs (d.modPwr f) = otherRegs d := rfl
@[simp] theorem raise_otherRegs (d c src l fs) : otherRegs (raise d c src l fs) = otherRegs d :=
  registerView.event.raise d c src l fs
@[simp] theorem raiseOp_otherRegs (d c src vs) : otherRegs (raiseOp d c src vs) = otherRegs d :=
  registerView.event.raiseOp d c src vs
@[simp] theorem chargerLines_otherRegs (d) : otherRegs (chargerLines d) = otherRegs d := rfl
@[simp] theorem writeCal_otherRegs (d f) : otherRegs (writeCal d f) = otherRegs d := rfl
@[simp] theorem takeSnap_otherRegs (d cause rail) : otherRegs (takeSnap d cause rail) = otherRegs d := rfl
@[simp] theorem setClocks_otherRegs (d) : otherRegs (setClocks d) = otherRegs d := rfl

theorem testFails_otherRegs (d) : otherRegs (testFails d) = otherRegs d := by
  unfold testFails
  split
  · rfl
  · simp [registerView.modDur]

theorem testFloor_otherRegs (d) : otherRegs (testFloor d) = otherRegs d := by
  unfold testFloor
  split
  · rfl
  · split
    · exact testFails_otherRegs d
    · dsimp only
      rw [raiseOp_otherRegs, chargerLines_otherRegs, registerView.modLdg, registerView.modDur,
        writeCal_otherRegs, registerView.modDur]

theorem setPwr_otherRegs (d st) : otherRegs (setPwr d st) = otherRegs d := by
  unfold setPwr
  split
  · rfl
  · exact raiseOp_otherRegs _ _ _ _

@[simp] theorem beginDown_otherRegs (d n) : otherRegs (beginDown d n) = otherRegs d := setPwr_otherRegs d .rampDown

@[simp] theorem endSave_otherRegs (d) : otherRegs (endSave d) = otherRegs d := beginDown_otherRegs _ _

theorem seqFault_otherRegs (d rail) : otherRegs (seqFault d rail) = otherRegs d :=
  (beginDown_otherRegs _ _).trans (raise_otherRegs (takeSnap d .seqFault rail) _ _ _ _)

theorem pgTimeout_otherRegs (d) : otherRegs (pgTimeout d) = otherRegs d := by
  unfold pgTimeout
  split
  · exact seqFault_otherRegs _ _
  · rfl

theorem pgRise_otherRegs (n d) : otherRegs (pgRise n d) = otherRegs d := by
  unfold pgRise
  split <;> rfl

theorem chargerLow_otherRegs (d) : otherRegs (chargerLow d) = otherRegs d := by
  unfold chargerLow
  dsimp only
  split <;> simp

theorem imageDone_otherRegs (watts ms d) : otherRegs (imageDone watts ms d) = otherRegs d := by
  unfold imageDone
  split
  · rfl
  · simp [registerView.stateEntry, registerView.modLdg, registerView.noteSlots, registerView.modDur]

theorem holdLimit_otherRegs (d) : otherRegs (holdLimit d) = otherRegs d := by
  unfold holdLimit
  split
  · rfl
  · simp

theorem shuntSample_otherRegs (raw d) : otherRegs (shuntSample raw d) = otherRegs d := by
  have hcharge : otherRegs (shuntCharge d raw).2 = otherRegs d := registerView.shuntCharge d raw
  unfold shuntSample
  extract_lets q was a top full aNew d1 d2
  have h1 : otherRegs d1 = otherRegs d := hcharge
  have h2 : otherRegs d2 = otherRegs d := by
    rw [← h1]
    simp only [d2]
    split <;> simp
  split
  · exact (registerView.scheduleTest _).trans ((raiseOp_otherRegs _ _ _ _).trans h2)
  · exact h2

theorem coreUpdate_otherRegs (d) : otherRegs (coreUpdate d) = otherRegs d := by
  unfold coreUpdate
  split
  · rfl
  · extract_lets mv d1 d2
    have h2 : otherRegs d2 = otherRegs d := by
      simp only [d2]
      split <;> rfl
    split
    · rfl
    · exact (raiseOp_otherRegs _ _ _ _).trans h2

theorem coreUnmet_otherRegs (d) : otherRegs (coreUnmet d) = otherRegs d := by
  unfold coreUnmet
  split <;> simp

theorem coreMet_otherRegs (mv d) : otherRegs (coreMet mv d) = otherRegs d := by
  unfold coreMet
  split <;> rfl

theorem throttleStep_otherRegs (d) : otherRegs (throttleStep d) = otherRegs d := by
  unfold throttleStep
  dsimp only
  (repeat' split) <;> simp

theorem holdTemp_otherRegs (mv c d) : otherRegs (holdTemp mv c d) = otherRegs d := by
  unfold holdTemp
  extract_lets bad n valid d1 d2 hot
  have h2 : otherRegs d2 = otherRegs d := by
    simp only [d2]
    split
    · rfl
    · exact raiseOp_otherRegs _ _ _ _
  split
  · exact h2
  · exact (raiseOp_otherRegs _ _ _ _).trans h2

theorem calRun_otherRegs (d) : otherRegs (calRun d).1 = otherRegs d := by
  unfold calRun
  (repeat' split) <;> rfl

theorem calDueNow_otherRegs (d) : otherRegs (calDueNow d) = otherRegs d := by
  unfold calDueNow
  (repeat' split) <;> rfl

theorem calDone_otherRegs (t d) : otherRegs (calDone t d) = otherRegs d := by
  unfold calDone
  split
  · rfl
  · dsimp only
    rw [raiseOp_otherRegs]
    split <;> simp

theorem shepherdRestart_otherRegs (d) : otherRegs (shepherdRestart d) = otherRegs d := raiseOp_otherRegs _ _ _ _

theorem warmHigh_otherRegs (d) : otherRegs (warmHigh d) = otherRegs d := by
  unfold warmHigh
  dsimp only
  split
  · exact registerView.warmLeave _
  · rfl

end Sys2Proof.Machine
end

section
/-! SUPPORT. The stored registers over a command outside `mayWriteRegs`: by command, the operation that it runs keeps them;
and the statement about it. -/
namespace Sys2Proof.Machine

theorem exec_otherRegs (c : Instr) (s : State) (h : mayWriteRegs c = false) :
    Runs c s fun d => otherRegs d = otherRegs s.dev := by
  cases c <;> cases h
  -- Machine/Registers.lean
  case islandGate | islandWake | jtagSamplePreload | jtagExtest | jtagClamp | jtagHighz | jtagExtestPulse |
      jtagExtestTrain =>
    exact ⟨_, rfl, by simp only [registerView.gateIsland, registerView.setGate, registerView.loadTap]⟩
  case i3cWriteAddress => exact ⟨_, rfl, onBus_keeps _ (registerView.i3cPoint _)⟩
  case i3cSetdasa => exact ⟨_, rfl, onBus_keeps _ fun d => by split <;> simp only [registerView.i3cTake]⟩
  case i3cEntdaa => exact ⟨_, rfl, onBus_keeps _ (registerView.i3cTake _)⟩
  case i3cRstdaa => exact ⟨_, rfl, onBus_keeps _ fun d => registerView.modI3c d _⟩
  case i3cGetpid => exact ⟨_, rfl, onBus_keeps _ fun d => registerView.i3cSay _ d⟩
  case i3cGetbcr | i3cGetdcr | i3cGetstatus | i3cGetmrl | i3cGetmwl =>
    exact ⟨_, rfl, onBus_keeps _ (registerView.i3cSay _)⟩
  case jtagBypass | jtagIdcode => exact ⟨_, rfl, rfl⟩
  -- Machine/Energy.lean
  case budgetWatchdogExpiry | holdVSample | shuntSample | accumulatorAnchor | mismatchWindowEnd | dischargeTestFloor |
      dischargeTestTimeout | dirtyOverBudget =>
    exact ⟨_, rfl, by simp only [registerView.budgetLost, registerView.holdSample, shuntSample_otherRegs,
      registerView.anchorCount, registerView.mismatchEnd, testFloor_otherRegs, testFails_otherRegs,
      registerView.overBudget]⟩
  case dischargeTest => exact ⟨_, rfl, registerView.command _ _ _ fun d => registerView.scheduleTest d⟩
  -- Machine/Folds.lean
  case rmaSlotLapse =>
    exact ⟨_, rfl, by simp only [registerView.slotLapse]⟩
  case rmaStatusRead => exact ⟨_, rfl, registerView.readAs _ _ _ fun d => registerView.statusRead _ _ d⟩
  -- Machine/Network.lean
  case ucrTokenRefill | portLinkDown | portLinkUp =>
    exact ⟨_, rfl, by simp only [registerView.refillUcr, registerView.linkDown, registerView.linkUp]⟩
  case arpRequest | neighborSolicitation => exact ⟨_, rfl, by dsimp only; split <;> simp only [registerView.emit]⟩
  case arpReply | neighborAdvertisement =>
    exact ⟨_, rfl, by dsimp only; split <;> simp only [registerView.resolve]⟩
  case ptpMessage => exact ⟨_, rfl, by dsimp only; split <;> simp only [registerView.ptpMessage]⟩
  -- Machine/Transport.lean
  case rtoExpiry | probeInterval | connectionDead | pullTimeout | ratePeriodEnd | readReqSend | sequencedFrameSend =>
    exact ⟨_, rfl, by simp only [registerView.rtoExpired, registerView.probeDown, registerView.connDead,
      registerView.pullTimeout, registerView.periodEnd, registerView.sendReadReq, registerView.sendQueued]⟩
  case ackDelayExpiry =>
    exact ⟨_, rfl, by dsimp only; (repeat' split) <;> simp only [registerView.guardTxc, registerView.sendAck]⟩
  -- Machine/Rings.lean
  case setupTimeout | errorHoldExpiry | descriptorFetch | quiesceComplete =>
    exact ⟨_, rfl, by simp only [registerView.setupTimeout, registerView.errorHold, registerView.fetchTurn,
      registerView.freeAfterReset, registerView.quiesceDone]⟩
  -- Machine/Operations.lean
  case orderWaitRelease | fenceRelease | dataPullComplete | lineFillComplete | admitWaitExpiry | groupAssemblyTimeout
      | completionLevelReached | waitTimeoutExpiry | cowLeafCopy | datapathChunk =>
    exact ⟨_, rfl, by simp only [registerView.releaseOrder, registerView.pullDone, registerView.fillDone,
      registerView.admitExpiry, registerView.groupTimeout, registerView.runReady, registerView.complete,
      registerView.waitExpiry, registerView.copyLeaf, registerView.chunkTurn]⟩
  -- Machine/Link.lean
  case twlRetransmitTimeout | twlIdleSend | twlRxSilence | twlBlockLockLoss | twlLinkUp | renewInterval |
      claimInterval | witnessAnswerLate | linkWaitExpiry | soloWaitExpiry | heartbeatSend | swapDrainDone |
      handoverClaimTimeout | windowExpiry =>
    exact ⟨_, rfl, by simp only [registerView.resendAll, registerView.sendAckFrame, registerView.twlDown,
      registerView.twlUp, registerView.renew, registerView.claim, registerView.witLate, registerView.linkWait,
      registerView.soloWait, registerView.heartbeatSend, registerView.swapDrained, registerView.handoverLate,
      registerView.windowOver]⟩
  case helloInterval => exact ⟨_, rfl, by dsimp only; split <;> simp only [registerView.sendHello]⟩
  -- Machine/Standby.lean
  case repairTimeout | standbyBudgetWait | resyncLeafSend =>
    exact ⟨_, rfl, by simp only [registerView.repairLate, registerView.budgetWait, registerView.sendLeaf]⟩
  -- Machine/Save.lean
  case saveLinkDrainEnd | saveImageProgram | saveImageDone | holdUpLimit =>
    exact ⟨_, rfl, by simp only [registerView.linkDrained, registerView.imageProgram, imageDone_otherRegs,
      holdLimit_otherRegs]⟩
  -- Machine/Flash.lean
  case flashProgramFail | flashEraseComplete | flashEraseFail | flashReadComplete | flashSuspend | dieOffline |
      garbageCollect | checkpointStart | checkpointComplete | checkpointLate | patrolRead | patrolPeriodEnd |
      healthDailySample | dieTemperatureRead =>
    exact ⟨_, rfl, by simp only [registerView.programFail, registerView.eraseDone, registerView.eraseFail,
      registerView.readDone, registerView.suspend, registerView.checkLife, registerView.takeOffline,
      registerView.collect, registerView.ckptStart, registerView.ckptDone, registerView.ckptLate, registerView.patrol,
      registerView.patrolEnd, registerView.dailySample, registerView.dieTemp]⟩
  -- Machine/Dram.lean
  case dramRequest | refreshDue | rowIdlePrecharge | dramTempRead | ceBucketLeak | rateChangeComplete =>
    exact ⟨_, rfl, by simp only [registerView.dramAsk, registerView.refreshDue, registerView.rowIdle,
      registerView.dimmTemp, registerView.leakCe, registerView.rateDone]⟩
  case go => exact ⟨_, rfl, registerView.command _ _ _ fun d => registerView.rateGo d⟩
  -- Machine/Hall.lean
  case getS | getM | data | snpInv | snpAck | evict | evictAck | victimWritebackAck | eccBucketLeak |
      droverReloadComplete | shepherdSramRestart =>
    exact ⟨_, rfl, by simp only [registerView.penAsk, registerView.penData, registerView.penSnoop,
      registerView.snoopAnswer, registerView.evictArrives, registerView.evictAcked, registerView.pumpWait,
      registerView.victimAck, registerView.leakEcc, registerView.droverReload, shepherdRestart_otherRegs]⟩
  case invalidate | flush | flushDisable =>
    exact ⟨_, rfl, registerView.command _ _ _ fun d => registerView.halCmd _ d⟩
  -- Machine/Security.lean
  case classBZeroComplete | challengeLapse | macLockoutEnd | maskReseed | drbgReseed | drbgRestart =>
    exact ⟨_, rfl, by simp only [registerView.zeroDone, registerView.modSec, registerView.maskReseed,
      registerView.drbgReseed, registerView.drbgStarted]⟩
  case secChalRead => exact ⟨_, rfl, registerView.readAs _ _ _ fun d => registerView.chalRead d⟩
  case secAlarmCfgWrite => exact ⟨_, rfl, registerView.command _ _ _ fun d => registerView.modSec d _⟩
  -- Machine/Pke.lean
  case pkeJobComplete | pkePoolRefill =>
    exact ⟨_, rfl, by simp only [registerView.pkeDone, registerView.poolRefill]⟩
  case pkeEcdhP384 | pkeX25519 | pkeEcdsaVerify =>
    exact ⟨_, rfl, registerView.command _ _ _ fun d => registerView.pkeStart _ d⟩
  -- Machine/Ledger.lean
  case ldgSequenceLapse | ldgOwnerLapse | ledgerErasePulse | ledgerProgramDone | ledgerEraseSlow | ledgerWindowMove =>
    exact ⟨_, rfl, by simp only [registerView.ldgLapse, registerView.ldgOwnerLapse, registerView.erasePulse,
      registerView.ldgProgDone, registerView.eraseSlow, registerView.windowMove]⟩
  case ldgKeyWrite => exact ⟨_, rfl, registerView.command _ _ _ fun d => registerView.ldgKey _ _ d⟩
  case ldgProgram => exact ⟨_, rfl, registerView.command _ _ _ fun d => registerView.ldgData _ _ d⟩
  case ldgErase => exact ⟨_, rfl, registerView.command _ _ _ fun d => registerView.ldgAddr _ _ d⟩
  case ldgSuspend | ldgResume => exact ⟨_, rfl, registerView.command _ _ _ fun d => registerView.ldgCmd _ _ d⟩
  case ldgStatusRead => exact ⟨_, rfl, registerView.readAs _ _ _ fun d => registerView.ldgStatusRead _ d⟩
  case storeTuning =>
    exact ⟨_, rfl, registerView.command _ _ _ fun d => registerView.shpCmd d registerView.shpTuning⟩
  case storeIdentity =>
    exact ⟨_, rfl, registerView.command _ _ _ fun d => registerView.shpCmd d (registerView.shpIdentity _)⟩
  case compact =>
    exact ⟨_, rfl, registerView.command _ _ _ fun d => registerView.shpCmd d registerView.compactStore⟩
  -- Machine/Update.lean
  case stageComplete =>
    exact ⟨_, rfl, by simp only [registerView.stageDone]⟩
  case stage => exact ⟨_, rfl, registerView.command _ _ _ fun d => updCmd_keeps d registerView.stageDelta⟩
  case updCommit => exact ⟨_, rfl, registerView.command _ _ _ fun d => updCmd_keeps d (registerView.updCommit _)⟩
  case updRevoke =>
    exact ⟨_, rfl, registerView.command _ _ _ fun d => updCmd_keeps d (registerView.updRevoke _ _)⟩
  case recoverBegin =>
    exact ⟨_, rfl, registerView.command _ _ _ fun d => updCmd_keeps d fun d => registerView.inRecovery _ d
      registerView.recoverBegin⟩
  case updRcvDataWrite => exact ⟨_, rfl, registerView.command _ _ _ fun d => registerView.recoverWord _ _ d⟩
  -- Machine/Power.lean
  case pgRise | pgTimeout | chargerPgLow | throttleStep | holdTempConversion | vddCoreRequestUpdate |
      vddCoreRaiseUnmet | calibrationDue | calibrationComplete | vddCoreRaiseMet =>
    exact ⟨_, rfl, by simp only [pgRise_otherRegs, pgTimeout_otherRegs, chargerLow_otherRegs, throttleStep_otherRegs,
      holdTemp_otherRegs, coreUpdate_otherRegs, coreUnmet_otherRegs, calDueNow_otherRegs, calDone_otherRegs,
      coreMet_otherRegs]⟩
  case runCal => exact ⟨_, rfl, registerView.command _ _ _ fun d => calRun_otherRegs d⟩
  -- Machine/Recorder.lean
  case codeBucketRefill | foldBucketRefill | ageingSample =>
    exact ⟨_, rfl, by simp only [registerView.codeRefill, registerView.foldRefill, registerView.ageing]⟩
  case evtPendClear => exact ⟨_, rfl, registerView.command _ _ _ fun d => registerView.pendClear _ d⟩
  case evtSnapAddrWrite => exact ⟨_, rfl, registerView.command _ _ _ fun d => registerView.snapWrite _ _ d⟩
  case recorderClear => exact ⟨_, rfl, registerView.command _ _ _ fun d => registerView.clearRecorder _ _ d⟩
  case ringQuery =>
    exact ⟨_, rfl, registerView.command _ _ _ fun d => ringCmd_keeps d fun d => registerView.ringResult d _⟩
  -- Machine/Reset.lean
  case warmRstNRelease | foldResetComplete | stageBankLapse | warmResetHoldEnd =>
    exact ⟨_, rfl, by simp only [warmHigh_otherRegs, registerView.foldDone, registerView.bankLapse,
      registerView.holdEnd]⟩
  case warm =>
    exact ⟨_, rfl, registerView.command _ _ _ fun d => registerView.resetCmd _ d (registerView.warmCmd _)⟩
  case galleryReset =>
    exact ⟨_, rfl, registerView.command _ _ _ fun d => registerView.resetCmd _ d (registerView.galleryCmd _)⟩
  case stageOpen => exact ⟨_, rfl, registerView.command _ _ _ fun d => registerView.stageOpen _ d⟩
  case stageAbandon =>
    exact ⟨_, rfl, registerView.command _ _ _ fun d => registerView.ownerOnly _ d registerView.abandonBank⟩

/-- Settles O6: outside the list, each command's operation keeps every register but EVT_REC_DROP. -/
theorem registersFrame : Obligations.RegistersFrame := by
  unfold Obligations.RegistersFrame
  intro c s h
  obtain ⟨d, hd, hr⟩ := exec_otherRegs c s h
  exact ⟨d, hd, fun a ha => reg_of_otherRegs hr ha⟩

end Sys2Proof.Machine
end
